-- ==== Sys2Proof/Word.lean ====
section
/-! DEFINITION. Words of the hub. R10 fixes the fixed-point formats; a register or a sample word is held as the natural
number its bits spell, always below 2 to its width, and a signed field is read through `signed`. Instants and spans are counted
in whole CCLK edges (R31, R34), as natural numbers. -/

namespace Sys2Proof

/-- A byte of a command descriptor, a frame or a record. -/
abbrev Byte := Nat

end Sys2Proof
end

