-- ==== Sys2Proof/Syntax.lean ====
section
/-! DEFINITION. The commands of the block. A command is a row of spec/opcode_table.json: a step of the hub, whole and
indivisible. Rows that stand for an event of the outside world, or for a measurement, carry what the outside supplies
(an edge, a measured value, bytes fetched from host memory, a received message) as operands. -/

namespace Sys2Proof

/-- Completion status codes (R310, R313, R374). The spec gives them names and no numbers. -/
inductive Status where
  | ok | deferred | badOpcode | badParam | hubUnreachable | modeForbids | leashBroken | leashHeld
  | budgetDenied | hwFault | timeout | imageCrc | imageAuthFail
  deriving DecidableEq, Repr

/-- How a command descriptor reached this hub: on its own CMD ring, or as a COMMAND message of the leader (R355). -/
inductive Via where
  | ring
  | message (leader : Nat)
  deriving DecidableEq, Repr

/-- An instant named by a command (R307): none, the first CCLK edge at or after an AT96, or a beat boundary. Both are
held as CCLK edges from AT 0. -/
inductive Inst where
  | none
  | edge (e : Nat)
  | beat (bn : Nat)
  deriving DecidableEq, Repr

/-- The common part of a CMD descriptor (R307), as the hub keeps it with an accepted command. -/
structure CmdHdr where
  tag    : Nat
  opcode : Nat
  quiet  : Bool
  inst   : Inst
  index  : Nat
  via    : Via
  deriving DecidableEq, Repr

/-- The path of a register write: a direct BAR0 write of the host, or the write of a CFG_WRITE or CFG_BATCH at its
edge (R415). -/
inductive WrSrc where
  | direct | cfg
  deriving DecidableEq, Repr

/-- One entry of a write list: BAR0 offset and data bytes (R313, R315, R370). -/
structure CfgWr where
  ofs  : Nat
  data : List Nat
  deriving DecidableEq, Repr

/-- An AT96 word (R31). -/
structure At96 where
  sec  : Nat
  ns   : Nat
  frac : Nat
  deriving DecidableEq, Repr


/-- What resolver channel `ch` delivers at a loop update (R172, R175): the inputs of its sine and cosine converters in µV at the MCLK
edges since the last update, the oldest first, and the excitation its own amplifier measured over the last beat, in µVrms. -/
structure RdcIn where
  ch : Nat
  sn : List Int
  cs : List Int
  uv : Nat
  deriving DecidableEq, Repr

/-- What the sin/cos inputs of fine position input `i` give (R212): SIN and COS in µV at the MCLK edges since the last update, the oldest
first. -/
structure PfiIn where
  i  : Nat
  sn : List Int
  cs : List Int
  deriving DecidableEq, Repr

/-- What the current sense of one bridge reads over the last beat (R257): the axis, the bridge (0 A, 1 B), and the phase current in mA at
CCLK edges counted from the beat's start, the oldest first. -/
structure ChopIn where
  a  : Nat
  br : Nat
  cur : List (Nat × Int)
  deriving DecidableEq, Repr

/-- What the supervision of a fan tray reads (R298): the tacho in rpm and the speed expected of it, the motor current in mA and the factory
figure I_EXP for the commanded speed, the time without a tacho pulse, and the time the tacho has stood below 70 % of the expected speed,
both in ms. -/
structure FanIn where
  rpm    : Nat
  rpmExp : Nat
  ma     : Nat
  iExp   : Nat
  quiet  : Nat
  slow   : Nat
  deriving DecidableEq, Repr

/-- A frame (R336): header fields and payload bytes. -/
structure Frame where
  seq : Nat
  vl  : Nat
  type : Nat
  src : Nat
  dst : Nat
  hops : Nat
  len : Nat
  first : Bool
  last : Bool
  buf : Nat
  credit : List Nat
  ack : Nat
  msg : Nat
  ofs : Nat
  payload : List Nat
  fcrc : Nat
  deriving DecidableEq, Repr

/-- An event of the scheduler that no command of the spec enters (R88, R154, R156): an edge of a scheduled window, or a capture that names
a stream. -/
inductive SchedEv where
  | window (w : Nat) (opening : Bool)
  | capture (stream : Nat)
  deriving DecidableEq, Repr

/-- The commands of the hub: one constructor per row of spec/opcode_table.json. -/
inductive Instr where
  /-- AON_POWER_UP (R24): AON comes up on either feed from no power, the supervisor starts and a cold start enters BOOT. -/
  | aonPowerUp (held : Bool)
  /-- RESET_BUTTON_RELEASE (R360): A reset button press released within 10 s begins a warm start at the release. -/
  | resetButtonRelease
  /-- RESET_BUTTON_HOLD (R360): A reset button hold that reaches 10 s begins a cold start with the timing unit reset. -/
  | resetButtonHold
  /-- FACTORY_BOOT (R360): A reset button held for 3 s after AON comes up begins a cold start from bank F in SAFE. -/
  | factoryBoot
  /-- WATCHDOG (R360): PD27 or both management processors silent for 1 s begins a warm start with cause 0x04. -/
  | watchdog
  /-- FEED_STATE_CHANGE (R394): A feed voltage crosses a threshold, and the power card reclassifies it as absent, low, in range or high and connects or disconnects it. -/
  | feedStateChange (f : Nat) (v : Nat)
  /-- PW_FEED_LOST (R395): A feed below its low threshold for 1 ms is lost; its part reads OUT and PW_FEED_LOST is raised. -/
  | pwFeedLost (f : Nat)
  /-- PW_FEED_RESTORED (R395): A feed in range for 1 s joins the load where needed, reads IN_SERVICE and raises PW_FEED_RESTORED. -/
  | pwFeedRestored (f : Nat)
  /-- LOW_FEEDS (R24): Both feeds below the low threshold for 10 ms muzzle every output, switch off PD0 to PD29 and lead to DORMANT. -/
  | lowFeeds
  /-- FEED_RESTORED_WAKE (R24): In DORMANT after entry by low feeds, a feed back in range for 1 s begins a warm start. -/
  | feedRestoredWake
  /-- HUB_WAKE_AT (R24): HUB_WAKE_AT is reached with ARM set in DORMANT; ARM clears and a warm start begins. -/
  | hubWakeAt
  /-- START_STEPS_COMPLETE (R361): The start steps complete and HUB_MODE leaves BOOT for SELFTEST; doorbell polling starts. -/
  | startStepsComplete (bad : List Nat)
  /-- START_FAILED (R366): A start step marked failed start fails; FAILS counts the failure and START_FAILED is raised. -/
  | startFailed (step : Nat)
  /-- START_RETRY (R366): 20 ms after a failed start, a retry begins as a warm start, booting PREVIOUS or bank F once FAILS reaches 3. -/
  | startRetry
  /-- SELFTEST_DONE (R24): The last self-test of SELFTEST ends and the hub enters its start mode, DEGRADED, SAFE, or BOOT on a status-set failure. -/
  | selftestDone (core : Bool) (bad conv caps : List Nat)
  /-- CARD_SELFTEST_DONE (R421): A card self-test outside a start ends; the card reads IN_SERVICE or OUT and its CARD_SERVICE completes. -/
  | cardSelftestDone (p : Nat) (pass : Bool) (bad : List Nat)
  /-- IMAGE_PROVEN (R375): After 10 min of supervisor run time out of SELFTEST without a failed start, the trial image is proven, KEYS apply and FLOOR is raised. -/
  | imageProven
  /-- STREAM_CHECKPOINT (R365): Once per second the hub writes a kennel checkpoint for each open stream. -/
  | streamCheckpoint
  /-- MODE_CHANGE (R23): At the beat boundary after a trigger is decided, HUB_MODE takes the new mode, MODE_ENTER is raised and the output states of R28 apply. -/
  | modeChange
  /-- MODE_SET (R26): The MODE_SET command requests a mode; the request is judged against the permitted targets and completes at the entry or is refused. -/
  | modeSet (h : CmdHdr) (target : Nat)
  /-- HUB_MODE_REQ_GO (R26): A direct write of HUB_MODE_REQ.GO submits TARGET as a mode request and sets DONE or REJECT. -/
  | hubModeReqGo (src : WrSrc)
  /-- STOW_INPUT (R24): /STOW stands asserted for 10 ms and the hub starts stow, or raises STOW_IGNORED in SAFE. -/
  | stowInput
  /-- STOW_AXIS_FAIL (R29): An axis that has not reached its stow position within STOW_TIME is muzzled and raises STOW_AXIS_FAIL. -/
  | stowAxisFail (a : Nat)
  /-- STOW_RATE_CHANGE (R161): At the AT second boundary after entry to or exit from STOW, streams change between reduced and defined rates and records break. -/
  | stowRateChange
  /-- ISOLATION_TIMEOUT (R25): An isolated hub in RUN, DEGRADED or COMMISSION reaches ISO_TIME and goes to SAFE. -/
  | isolationTimeout
  /-- CARD_PULLED (R13): A card removed from its slot is detected by its presence contact within 10 µs; its domain goes off and its entry reads OPEN. -/
  | cardPulled (p : Nat)
  /-- CARD_SEATED (R420): A card seated in a slot is held off if unlisted, or powered, loaded, self-tested and brought into service if listed. -/
  | cardSeated (p variant hwrev serial : Nat)
  /-- MP_SWITCH (R17): The active management processor fails or is taken out and the standby becomes active within 50 ms at the CMD consumer index. -/
  | mpSwitch
  /-- HALT_ASSERT (R19): /HALT asserted muzzles every stepper bridge and heater output through the hardware path and ends running moves. -/
  | haltAssert (ch : Nat)
  /-- HALT_RELEASE (R270): /HALT released on both channels returns halted axes to MUZZLED. -/
  | haltRelease (ch : Nat)
  /-- DV_HALT_DISCREPANCY (R403): The two /HALT channels disagree for more than 100 ms and the hub raises DV_HALT_DISCREPANCY. -/
  | dvHaltDiscrepancy
  /-- AOCLR_EDGE (R276): An edge of /AOCLR0 or /AOCLR1 forces its outputs to the clear code or releases them at the next beat boundary. -/
  | aoclrEdge (ch : Nat) (on : Bool)
  /-- BLANK_EDGE (R87): An edge of a local /BLANK input applies or releases the hold at the next MCLK edge, and on the leader is sent to the pack. -/
  | blankEdge (line : Nat) (on : Bool)
  /-- PACK_BLANK_EDGE (R89): A BLANK message from the leader is applied to PK0 or PK1 at its AT plus 250 µs, or on arrival if late. -/
  | packBlankEdge (line : Nat) (on : Bool) (e : Nat)
  /-- REF_QUALIFIED (R35): A reference class meets its criteria for 10 s without a break and qualifies, which may start a slew, a step or a disagreement. -/
  | refQualified (k : Nat) (ofs : Int)
  /-- REF_LOST (R35): A qualified class fails a criterion and loses qualification, leading to a slew, HOLDOVER, or loss of LINK. -/
  | refLost (k : Nat)
  /-- PPS_IN_EDGE (R35): A 1PPS_IN edge is timestamped for EXT discipline and judged for its place. -/
  | ppsInEdge (cyc : Nat) (ofs : Int)
  /-- PTP_MESSAGE (R39): A PTP message received on the timing port is timestamped and used by the slave-only clock, or discarded. -/
  | ptpMessage (type : Nat) (udp : Bool) (domain : Nat) (vlan : Option Nat) (cls : Nat) (ofs : Option Int)
  /-- SWITCH_DONE (R41): A 1.0 s slew completes; the hub enters LOCKED and the 10 s lock-out starts. -/
  | switchDone
  /-- LOCKOUT_END (R40): The 10 s lock-out ends and a slew to a better qualified class starts if one is waiting. -/
  | lockoutEnd
  /-- TIME_STEP (R43): At the step instant E, AT steps to the reference second, records break and skipped scheduler events fire as late. -/
  | timeStep (sec : Nat)
  /-- TB_TOD_SET (R36): An armed TB_TOD_SET applies SECONDS at the next AT second boundary and sets TOD_VALID, or is refused. -/
  | tbTodSet
  /-- HOLD_EST_UPDATE (R44): Once per second in HOLDOVER the error bound TB_HOLD_EST is updated, and the hub enters FREE when it exceeds LIMIT. -/
  | holdEstUpdate
  /-- SCHED_FIRE (R48): A time-domain scheduler event reaches its instant or beat and fires its action. -/
  | schedFire (ev : Option SchedEv)
  /-- ANGLE_INSTANT (R55): An ANGLE message from another hub schedules a fired instant, or yields a gap slot if it arrives late. -/
  | angleInstant (hub : Nat) (gen : Nat) (e : Nat)
  /-- TB_CNT_CLR (R392): A write of TB_CNT_CLR clears the selected timing counters. -/
  | tbCntClr (src : WrSrc) (clr : Nat)
  /-- TB_AT_SNAP (R413): A read of the first word of TB_AT_SNAP latches the whole AT snapshot. -/
  | tbAtSnap
  /-- FC_APPLY (R58): A direct write of FC_APPLY.APPLY validates the card's shadow and commits it at the next beat boundary, or rejects it. -/
  | fcApply (src : WrSrc) (f : Nat)
  /-- FC_REVERT (R57): A write of FC_APPLY.REVERT copies the active configuration into the shadow. -/
  | fcRevert (src : WrSrc) (f : Nat)
  /-- COMMIT_BREAK (R63): At beat boundary B of a commit, affected converters are held, changed pins open and their sources go to zero. -/
  | commitBreak (f : Nat)
  /-- COMMIT_MAKE (R63): At B + 1 of a commit, the new crosspoint connections close. -/
  | commitMake (f : Nat)
  /-- COMMIT_RELEASE (R63): At B + 2 of a commit, sources return to LEVEL, the hold releases with SETTLING and any queued commit applies. -/
  | commitRelease (f : Nat)
  /-- QRESET (R69): A write of FC_CH_CTRL.QRESET closes the channel's charge reset switch at the next beat boundary and holds its decimator. -/
  | qreset (src : WrSrc) (f : Nat) (c : Nat)
  /-- QRESET_AUTO (R69): A charge at or beyond 90 % of QRANGE at the end of a beat starts an automatic reset at the next boundary. -/
  | qresetAuto (f : Nat) (c : Nat) (q : Int)
  /-- QRESET_OPEN (R69): At B + 1 of a charge reset, the reset switch opens. -/
  | qresetOpen (f : Nat) (c : Nat)
  /-- QRESET_RELEASE (R69): At B + 2 of a charge reset, the hold releases and the carry term applies under CARRY. -/
  | qresetRelease (f : Nat) (c : Nat) (before : Int) (after : Int)
  /-- CARRY_CLR (R71): A write of FC_CH_CTRL.CARRY_CLR clears the channel's carry term. -/
  | carryClr (src : WrSrc) (f : Nat) (c : Nat)
  /-- EXC_LIMIT (R75): A source reaching ILIM or compliance limits its output, sets LIMITING and raises EXC_ILIM or EXC_COMPLIANCE. -/
  | excLimit (f : Nat) (x : Nat)
  /-- EXC_SENSE_FAULT (R76): A sensed voltage off the pin voltage by more than 1 V for 10 beats makes the source regulate at its pins. -/
  | excSenseFault (f : Nat) (x : Nat)
  /-- EXC_THERMAL (R77): A source over its temperature limit is switched to zero with SHUTDOWN set. -/
  | excThermal (f : Nat) (x : Nat)
  /-- CM_FAULT (R92): A common mode outside the window for two beats sets CM_FAULT, counts and raises the bark with its class. -/
  | cmFault (f : Nat) (c : Nat) (pos : Int) (neg : Int) (shield : Int) (posM : Int) (negM : Int) (shieldM : Int)
  /-- CM_CLEAR (R92): After 64 consecutive beats within the window, a common-mode fault clears and CM_CLEAR is raised. -/
  | cmClear (f : Nat) (c : Nat) (pos : Int) (neg : Int)
  /-- OVERRANGE (R67): A channel's overrange state rises; the onset is counted and the bark raised at most once per second. -/
  | overrange (f : Nat) (c : Nat) (on : Bool)
  /-- LEAD_SWAP (R81): Every 2^m beats a lead-compensation source reverses or exchanges its current and a finished period yields an R value. -/
  | leadSwap (f : Nat) (x : Nat) (ms : List (Nat × List (Int × Int × Bool)))
  /-- FC_CNT_CLR (R392): A write of FC_CNT_CLR clears the selected field-card counters. -/
  | fcCntClr (src : WrSrc) (f : Nat) (clr : Nat)
  /-- SPARE_TURN_START (R106): A due spare turn starts at a beat boundary once its reservation is granted; the spare joins the channel. -/
  | spareTurnStart (f : Nat)
  /-- SPARE_VERIFY_BLOCK (R108): A 64-beat verification block is compared, passing, failing or excluded, and a finished verification substitutes or hands back. -/
  | spareVerifyBlock (f : Nat) (d : Int) (m : Nat) (ovr : Bool)
  /-- SPARE_CAL_END (R111): The calibration phases of a freed converter end; coefficients are checked and the converter returns to its pins. -/
  | spareCalEnd (f : Nat) (z : List Int) (p : List Int) (n : List Int) (m : List Int)
  /-- SPARE_CHECK_END (R114): The spare check after a failed forward verification ends; the spare substitutes or goes OUT. -/
  | spareCheckEnd (f : Nat) (z : List Int) (p : List Int)
  /-- SPARE_SELF_CAL_END (R117): The spare's self turn ends with its calibration and the REF_B against REF_A check, which may set REF_DRIFT or take the spare OUT. -/
  | spareSelfCalEnd (f : Nat) (rs : List (Nat × List Int × List Int × List Int × List Int)) (refDiff : Int)
  /-- CONV_FAULT (R118): A modulator fault lasting a whole beat is declared at the end of the second beat and the spare substitutes the converter. -/
  | convFault (f : Nat) (c : Nat)
  /-- SPARE_FORCE (R106): A write of FC_SPARE_CTRL.FORCE starts a turn on FORCE_CH once the running turn ends. -/
  | spareForce (src : WrSrc) (f : Nat) (ch : Nat)
  /-- SPARE_RESTORE (R116): A write of FC_SPARE_CTRL.RESTORE runs one further turn on a masked channel. -/
  | spareRestore (src : WrSrc) (f : Nat) (ch : Nat)
  /-- FC_SPARE_CNT_CLR (R392): A write of FC_SPARE_CNT_CLR clears the selected spare counters. -/
  | fcSpareCntClr (src : WrSrc) (f : Nat) (clr : Nat)
  /-- REFCAL_START (R384): A write of FC_REFCAL_CTRL.START checks pins and calibrator value and starts a reference recalibration after the running turn. -/
  | refcalStart (src : WrSrc) (f : Nat)
  /-- REFCAL_DONE (R384): The 64 s recalibration run ends and the new reference values are stored or the run fails. -/
  | refcalDone (f : Nat) (a : Int) (b : Int)
  /-- MT_CHANNEL_START (R129): The metrology multiplexer switches to the next scan channel, or an urgent one, at a channel boundary. -/
  | mtChannelStart
  /-- MT_PHASE_END (R126): A metrology phase's settling or conversion ends, and the last phase yields a result with its flags. -/
  | mtPhaseEnd (v : Int) (cm : Bool)
  /-- MT_OPEN (R134): A RES4 current source at compliance within 1 ms of a conversion start sets OPEN and raises MT_OPEN. -/
  | mtOpen
  /-- MT_CHECK_SLOT_END (R133): A 1,440 ms metrology check slot ends and the zero and gain are judged. -/
  | mtCheckSlotEnd (z0 : Int) (a0 : Int) (z1 : Int) (a1 : Int)
  /-- MT_URGENT_READ (R137): The MT_URGENT_READ command queues one conversion of a channel, writing a result block when done. -/
  | mtUrgentRead (h : CmdHdr) (ch : Nat) (addr : Nat)
  /-- MT_SCAN_MASK_WRITE (R130): A write of MT_SCAN_MASK changes the scan at the next channel boundary or idles the converter. -/
  | mtScanMaskWrite (src : WrSrc) (mask : Nat)
  /-- MT_CNT_CLR (R392): A write of MT_CNT_CLR clears the selected metrology counters. -/
  | mtCntClr (src : WrSrc) (clr : Nat)
  /-- MT_LAST_LATCH (R413): A read of the first word of MT_LAST[c] latches the whole element. -/
  | mtLastLatch (c : Nat)
  /-- STREAM_OPEN (R141): The STREAM_OPEN command validates a definition and opens the stream at its instant. -/
  | streamOpen (h : CmdHdr) (raw : List Nat) (buf : Nat) (entry : List Nat)
  /-- STREAM_CLOSE (R141): The STREAM_CLOSE command ends the stream at its instant and completes when the last record is retained. -/
  | streamClose (h : CmdHdr) (i : Nat)
  /-- REPLAY (R321): The REPLAY command delivers retained records of a SEQ range into a buffer with the REPLAY flag. -/
  | replay (h : CmdHdr) (i : Nat) (buf : Nat) (first : Nat) (last : Nat) (entry : List Nat)
  /-- STREAM_TICK (R159): A stream's clock ticks and the pipeline forms exactly one slot through curve, scaling, reduction and format. -/
  | streamTick (i : Nat) (v : Int) (div : Int) (phase : Nat) (ovr : Bool)
  /-- REC_AGE_EXPIRY (R166): REC_AGE passes since a record's first slot and the record closes. -/
  | recAgeExpiry (i : Nat)
  /-- STREAM_GAP (R167): An undelivered record ages out of the retention store and is replaced by a gap run counted in LOST. -/
  | streamGap (i : Nat)
  /-- CJ_INVALID (R145): A cold-junction stream without a VALID value for 10 s flags samples OVERRANGE and raises CJ_INVALID. -/
  | cjInvalid (i : Nat)
  /-- RD_CURVE_DATA (R148): An access to RD_CURVE_DATA reads or writes a staging entry and advances ADDR on the upper word. -/
  | rdCurveData (src : WrSrc) (part : Nat) (w : Option Nat)
  /-- RD_CURVE_ACTIVATE (R149): A write of RD_CURVE_CTRL.ACTIVATE validates the staging copy and activates it at the next beat boundary, or rejects it. -/
  | rdCurveActivate (src : WrSrc)
  /-- RD_CURVE_DELETE (R149): A write of RD_CURVE_CTRL.DELETE removes the active copy while no open stream names the curve. -/
  | rdCurveDelete (src : WrSrc)
  /-- RD_CURVE_REVERT (R148): A write of RD_CURVE_CTRL.REVERT copies the active copy, or zeros, into the staging copy. -/
  | rdCurveRevert (src : WrSrc)
  /-- RD_CNT_CLR (R392): A write of RD_CNT_CLR clears the selected reduction counters or LOST counts. -/
  | rdCntClr (src : WrSrc) (clr : Nat)
  /-- RD_VIEW_LATCH (R413): A read of the first word of RD_VIEW latches the definition and NEXT_SEQ of the selected stream. -/
  | rdViewLatch
  /-- RDC_UPDATE (R178): At each 1.024 MHz loop update every resolver channel runs its tracking loop and forms angle, speed and acceleration. -/
  | rdcUpdate (rs : List RdcIn) (ps : List PfiIn)
  /-- RDC_ACQ_START (R183): At a beat boundary where R182 holds, acquisition seeds phase and angle, or refuses the try. -/
  | rdcAcqStart (c : Nat)
  /-- RDC_LOCK_TEST (R183): At update 64 of a try the lock test ends; the channel locks with RDC_LOCK or the try fails. -/
  | rdcLockTest (c : Nat)
  /-- RDC_LOS (R194): AMP below AMP_LO for two beats invalidates the angle and returns the channel to WAIT. -/
  | rdcLos (c : Nat)
  /-- RDC_AMP_HIGH (R194): AMP above AMP_HI for two beats flags the outputs OVERRANGE. -/
  | rdcAmpHigh (c : Nat)
  /-- RDC_WIRE_OPEN (R194): A winding pin above 9.5 V for two beats invalidates the angle and names the open winding. -/
  | rdcWireOpen (c : Nat) (winds : Nat)
  /-- RDC_CM_FAULT (R194): An input pin beyond ±10 V for two beats flags CM_FAULT. -/
  | rdcCmFault (c : Nat) (on : Bool)
  /-- RDC_TRACK_LOSS (R194): Tracking error or speed out of bounds for 16 updates invalidates the angle and restarts acquisition. -/
  | rdcTrackLoss (c : Nat)
  /-- RDC_EXC_ILIM (R194): A resolver excitation amplifier at ILIM flags its channels OVERRANGE. -/
  | rdcExcIlim (c : Nat) (ua : Nat)
  /-- RDC_EXC_THERMAL (R194): An amplifier over temperature switches off, so its channels reach LOS. -/
  | rdcExcThermal (c : Nat)
  /-- RDC_CONV_FAULT (R194): A winding converter fault lasting a beat invalidates the channel and holds it in WAIT. -/
  | rdcConvFault (c : Nat)
  /-- RDC_PAIR_RESOLVE (R188): With both channels of a pair LOCKED, the fine turn index n is resolved or PAIR_AMBIG is set. -/
  | rdcPairResolve (c : Nat)
  /-- RDC_PAIR_SLIP (R188): A pair disagreement beyond PAIR_TOL for 16 updates drops the resolution. -/
  | rdcPairSlip (c : Nat)
  /-- RDC_HARM_DONE (R192): Learning accepts TURNS turns, computes the staging table and residual, and activates it under AUTO. -/
  | rdcHarmDone (c : Nat)
  /-- RDC_HARM_FAIL (R192): Learning ends FAILED for a cause of R192. -/
  | rdcHarmFail (c : Nat)
  /-- RDC_REACQ (R185): A write of RDC_CTRL.REACQ ends the channel's state and starts acquisition, rerunning the converter check after CONV_FAULT. -/
  | rdcReacq (src : WrSrc) (c : Nat) (pass : Bool)
  /-- RDC_LEARN (R191): A write of RDC_CTRL.LEARN starts or restarts harmonic learning on a LOCKED channel. -/
  | rdcLearn (src : WrSrc) (c : Nat)
  /-- RDC_ABORT (R192): A write of RDC_CTRL.ABORT ends learning with FAIL code 5. -/
  | rdcAbort (src : WrSrc) (c : Nat)
  /-- RDC_HARM_ACTIVATE (R193): A write of RDC_CTRL.ACTIVATE copies the staging table into the active table at the next beat boundary and stores it in the kennel. -/
  | rdcHarmActivate (src : WrSrc) (c : Nat)
  /-- RDC_HARM_CLEAR (R193): A write of RDC_CTRL.CLEAR zeroes the staging table. -/
  | rdcHarmClear (src : WrSrc) (c : Nat)
  /-- RDC_CNT_CLR (R392): A write of RDC_CTRL.CNT_CLR clears the channel's counters. -/
  | rdcCntClr (src : WrSrc) (c : Nat)
  /-- RDC_LIVE_LATCH (R413): A read of the first word of RDC_LIVE[c] latches the element at the latest update. -/
  | rdcLiveLatch (c : Nat)
  /-- PFI_EDGE (R205): A line transition accepted after its filter is decoded into a count of C and Q, with glitch, fast-edge and quadrature checks. -/
  | pfiEdge (i : Nat) (la : Bool) (lb : Bool) (lz : Bool) (len : Nat) (sn : Int) (cs : Int)
  /-- PFI_INDEX (R209): An index event latches C and AT and, by INDEX_MODE, resets the count or anchors fusion. -/
  | pfiIndex (i : Nat)
  /-- PFI_LINE_FAULT (R216): A line below 200 mV for 256 CCLK is a line fault handled with fallback or loss. -/
  | pfiLineFault (i : Nat) (z : Bool) (sn : Int) (cs : Int)
  /-- PFI_SC_AMP (R213): Two AMP window means outside the window declare SC_AMP. -/
  | pfiScAmp (i : Nat)
  /-- PFI_SC_OVERSPEED (R216): A sin/cos frequency above 550 kHz over two windows declares SC_OVERSPEED. -/
  | pfiScOverspeed (i : Nat)
  /-- PFI_FB_READY (R214): After 64 fault-free beats of the sin/cos path, its offset aligns to C and FB_READY sets. -/
  | pfiFbReady (i : Nat)
  /-- PFI_FB_DISAGREE (R214): C and the converted count differ beyond FB_TOL for 16 updates; COUNT_VALID clears and alignment restarts. -/
  | pfiFbDisagree (i : Nat)
  /-- PFI_FUSED (R220): The resolver anchor window of 2^AVG updates ends and fusion anchors with FSTATE FUSED. -/
  | pfiFused (i : Nat)
  /-- PFI_FUSE_SLIP (R222): Resolver and fused angle differ beyond FUSE_TOL for 16 updates; F goes invalid and anchoring restarts. -/
  | pfiFuseSlip (i : Nat)
  /-- PFI_IDX_ARM (R210): A write of PFI_CTRL.IDX_ARM arms a ONCE index reset. -/
  | pfiIdxArm (src : WrSrc) (i : Nat)
  /-- PFI_SET_COUNT (R223): A write of PFI_CTRL.SET_COUNT sets C and Q to VALUE at the next update and sets COUNT_VALID. -/
  | pfiSetCount (src : WrSrc) (i : Nat)
  /-- PFI_SET_TURNS (R223): A write of PFI_CTRL.SET_TURNS sets the turn part of F at the next update. -/
  | pfiSetTurns (src : WrSrc) (i : Nat)
  /-- PFI_RESUME (R214): A write of PFI_CTRL.RESUME returns the input to the pulse path once no pulse-path fault stands. -/
  | pfiResume (src : WrSrc) (i : Nat)
  /-- PFI_REANCHOR (R223): A write of PFI_CTRL.REANCHOR returns fusion to WAIT. -/
  | pfiReanchor (src : WrSrc) (i : Nat)
  /-- PFI_CNT_CLR (R392): A write of PFI_CTRL.CNT_CLR clears the input's counters. -/
  | pfiCntClr (src : WrSrc) (i : Nat)
  /-- PFI_LIVE_LATCH (R413): A read of the first word of PFI_LIVE[i] latches the element at the latest update. -/
  | pfiLiveLatch (i : Nat)
  /-- PB_LATCH (R218): A qualifying probe edge latches AT, angles and counts, and delivers them as bark PB_LATCH. -/
  | pbLatch (p : Nat) (rise : Bool) (len : Nat) (ago : Nat)
  /-- PB_ARM (R218): A write of PFI_PB_CFG.ARM arms a single probe latch. -/
  | pbArm (src : WrSrc) (p : Nat)
  /-- PB_MISSED_CLR (R392): A write of PFI_PB_CFG.MISSED_CLR clears the probe's MISSED count. -/
  | pbMissedClr (src : WrSrc) (p : Nat)
  /-- PB_LATCH_READ (R413): A read of the first word of PFI_PB_LATCH[p] latches the whole latch element. -/
  | pbLatchRead (p : Nat)
  /-- EE_UPDATE (R227): At each update an encoder emulation output takes a new target and emits edges, with overrun, lag fault and resumption. -/
  | eeUpdate (e : Nat)
  /-- EE_RESTART (R229): A write of EE_CTRL.RESTART resumes a muzzled emulation output, also from LAG_FAULT. -/
  | eeRestart (src : WrSrc) (e : Nat)
  /-- EE_CNT_CLR (R392): A write of EE_CTRL.CNT_CLR clears the output's counters. -/
  | eeCntClr (src : WrSrc) (e : Nat)
  /-- LOOP_EVALUATE (R235): At a loop boundary every enabled loop is evaluated and every arena output formed and sent at the next boundary. -/
  | loopEvaluate
  /-- LE_BANK_SEL_WRITE (R246): A write of LE_BANK_SEL requests bank swaps at the loops' next boundaries. -/
  | leBankSelWrite (word value : Nat)
  /-- LE_ARENA_ARM (R249): A write of LE_ARENA_CTRL.ARM lets the arena drive in COMMISSION. -/
  | leArenaArm (src : WrSrc) (g : Nat)
  /-- LE_ARENA_DISARM (R249): A write of LE_ARENA_CTRL.DISARM muzzles the arena in COMMISSION. -/
  | leArenaDisarm (src : WrSrc) (g : Nat)
  /-- LE_ARENA_RESTART (R245): A write of LE_ARENA_CTRL.RESTART leaves SAT_MUZZLED or the STOP muzzle at the next boundary. -/
  | leArenaRestart (src : WrSrc) (g : Nat)
  /-- LE_I_CLR (R235): A write of LE_LOOP_CTRL.I_CLR clears the integrator at the next boundary. -/
  | leIClr (src : WrSrc) (l : Nat)
  /-- LE_I_SET (R235): A write of LE_LOOP_CTRL.I_SET sets the integrator to I_VAL at the next boundary. -/
  | leISet (src : WrSrc) (l val : Nat)
  /-- LE_LOOP_RESTART (R237): A write of LE_LOOP_CTRL.RESTART recovers a latched FAULT at the first boundary with both sources normal. -/
  | leLoopRestart (src : WrSrc) (l : Nat)
  /-- LE_CNT_CLR (R392): A write of LE_CNT_CLR clears the selected loop-engine counters. -/
  | leCntClr (src : WrSrc) (clr : Nat)
  /-- DRIVE_BEAT_UPDATE (R259): Once per beat each stepper trajectory generator updates velocity and position, brakes at limits and ends moves. -/
  | driveBeatUpdate (chops : List ChopIn)
  /-- MOVE (R260): The MOVE command validates an ABS, REL or VEL move and schedules its start. -/
  | move (h : CmdHdr) (axis : Nat) (kind : Nat) (value : Int) (vmax : Nat) (acc : Nat) (dec : Nat)
  /-- GROUP_MOVE (R268): The GROUP_MOVE command validates a straight-line move of several axes as one request. -/
  | groupMove (h : CmdHdr) (mask : Nat) (kind : Nat) (vmax : Nat) (acc : Nat) (dec : Nat) (targets : List Int)
  /-- STOP (R264): The STOP command stops step emission on an axis or group at once and clears POS_VALID if it was moving. -/
  | stop (h : CmdHdr) (kind : Nat) (axis : Nat) (mask : Nat)
  /-- HOME (R267): The HOME command runs an axis until a home event and then sets its position. -/
  | home (h : CmdHdr) (axis : Nat) (source : Nat) (n : Nat) (dir : Nat) (vel : Int) (dist : Nat) (homePos : Int) (stream : Nat) (thresh : Nat)
  /-- MOVE_START (R260): A move starts at its beat boundary, blending with a running move or waiting for budget. -/
  | moveStart (a : Nat)
  /-- DV_BUDGET_DENIED (R261): A move still waiting after GRANT_WAIT completes with BUDGET_DENIED. -/
  | dvBudgetDenied (a : Nat)
  /-- HOLD_DELAY_EXPIRY (R256): An axis standing still for HOLD_DELAY drops to I_HOLD and its reservation to HOLD_W. -/
  | holdDelayExpiry (a : Nat)
  /-- DV_HB_CONFLICT (R258): A gate command turning on both switches of a half-bridge muzzles the axis, with LOCKOUT on the third within 60 s. -/
  | dvHbConflict (a : Nat)
  /-- DV_OVERCURRENT (R270): A bridge or heater output over its current limit muzzles the axis or switches that output off. -/
  | dvOvercurrent (a : Nat) (out : Nat) (ma : Nat)
  /-- DV_OVERTEMP (R270): A bridge temperature over 120 °C flags HOT and over 145 °C muzzles the axis. -/
  | dvOvertemp (a : Nat) (temp : Int)
  /-- DV_OPEN_PHASE (R270): A phase current below 10 % of its set-point for 1 ms flags OPEN_A or OPEN_B. -/
  | dvOpenPhase (a : Nat) (phase : Nat)
  /-- DV_HEAT_OPEN (R270): A heater output below 50 mA while on in a period flags HEAT_OPEN. -/
  | dvHeatOpen (a : Nat) (out : Nat) (ma : Nat)
  /-- DV_BRIDGE_PWR (R270): Bridge power lost or below 30 V unpowers every axis and ends moves with FAULT. -/
  | dvBridgePwr (vb : Nat)
  /-- DV_SET_POS (R265): A write of DV_AX_CTRL.SET_POS sets p on an axis at rest at the next beat boundary and sets POS_VALID. -/
  | dvSetPos (src : WrSrc) (a : Nat) (value : Int)
  /-- DV_CLR_FAULT (R258): A write of DV_AX_CTRL.CLR_FAULT returns a faulted axis to MUZZLED and clears heater trips. -/
  | dvClrFault (src : WrSrc) (a : Nat)
  /-- DV_MUZZLE (R281): A write of DV_AX_CTRL.MUZZLE de-energises an axis, stopping it first if moving. -/
  | dvMuzzle (src : WrSrc) (a : Nat)
  /-- DV_ENERGISE (R281): A write of DV_AX_CTRL.ENERGISE energises an axis at rest at I_HOLD once HOLD_W is granted. -/
  | dvEnergise (src : WrSrc) (a : Nat)
  /-- DV_CNT_CLR (R392): A write of DV_CNT_CLR clears the selected drive counters. -/
  | dvCntClr (src : WrSrc) (clr : Nat)
  /-- DV_UTAB_DATA (R255): A write of DV_UTAB_DATA stores a staging table entry and advances the address. -/
  | dvUtabData (src : WrSrc) (data : Nat)
  /-- DV_UTAB_ACTIVATE (R255): A write of DV_UTAB_CTRL.ACTIVATE validates the staging table and activates it at the next beat boundary, or rejects it. -/
  | dvUtabActivate (src : WrSrc)
  /-- DV_UTAB_REVERT (R255): A write of DV_UTAB_CTRL.REVERT copies the active table into the staging copy. -/
  | dvUtabRevert (src : WrSrc)
  /-- DV_HEAT_WRITE (R272): A write of DV_HEAT sets heater duties, discarded for arena-driven outputs, and requests the axis's reservation. -/
  | dvHeatWrite (src : WrSrc) (a : Nat) (d0 : Nat) (d1 : Nat) (d2 : Nat) (d3 : Nat)
  /-- HEAT_PERIOD (R271): A heater PWM period boundary applies the new duties to the four outputs. -/
  | heatPeriod (a : Nat)
  /-- HEATER_RELEASE (R272): All four heater outputs held at zero for 1 s return the axis's reservation. -/
  | heaterRelease (a : Nat)
  /-- AO_CODE_WRITE (R274): A write of AO_CODE sets the host code applied at the next beat boundary, slewed by SLEW. -/
  | aoCodeWrite (src : WrSrc) (o : Nat) (code : Nat)
  /-- AO_COMPLIANCE (R278): A current output lacking headroom and below its code for two beats sets COMPLIANCE. -/
  | aoCompliance (o : Nat)
  /-- AO_OPEN (R278): A current output below 0.05 mA with a code of at least 1 mA for two beats sets OPEN. -/
  | aoOpen (o : Nat)
  /-- AO_OVERLOAD (R278): A voltage output at its 25 mA limit for two beats sets OVERLOAD. -/
  | aoOverload (o : Nat)
  /-- AO_CNT_CLR (R392): A write of AO_CNT_CLR clears the selected analogue-output counters. -/
  | aoCntClr (src : WrSrc) (clr : Nat)
  /-- GOVERNOR_EVALUATE (R288): At each beat boundary the governor handles releases, budget changes, cuts and grants in both books. -/
  | governorEvaluate (bad : List Nat)
  /-- FEED_BUDGET_UPDATE (R285): Every 10 ms the governor recomputes B_FEED and the drive budget. -/
  | feedBudgetUpdate (pA : Nat) (pB : Nat) (pBridge : Nat)
  /-- THERMAL_MODEL_UPDATE (R296): Every second the governor recomputes B_TH and D_W and the thermal state. -/
  | thermalModelUpdate (pIn : Nat) (pBridge : Nat)
  /-- TEMP_SENSOR_READ (R294): Every 100 ms the supervisor reads the 24 sensors, judging warn, critical and sensor faults. -/
  | tempSensorRead (temps : List (Option Int))
  /-- FAN_SPEED_UPDATE (R297): Every second the fan controller sets the common tray speed and the fan reservations. -/
  | fanSpeedUpdate (pIn : Nat) (pBridge : Nat) (fans : List FanIn)
  /-- FAN_OPEN (R298): A tray current below 10 % of I_EXP for 200 ms removes its drive and reads OUT. -/
  | fanOpen (v : Nat) (f : FanIn)
  /-- FAN_BLOCKED (R298): An absent tacho with high current removes the drive and starts the retry schedule. -/
  | fanBlocked (v : Nat) (f : FanIn)
  /-- FAN_TACHO_LOST (R298): An absent tacho with normal current runs the tray at 100 % open loop. -/
  | fanTachoLost (v : Nat) (f : FanIn)
  /-- FAN_SLOW (R298): A tacho below 70 % of the expected speed for 5 s makes the tray SLOW. -/
  | fanSlow (v : Nat) (f : FanIn)
  /-- FAN_RETRY (R298): Every 60 s a BLOCKED tray is retried for 3 s at full speed, restoring it or counting a failed retry. -/
  | fanRetry (v : Nat) (f : FanIn)
  /-- FAN_TRAY_REMOVED (R299): A tray removed reads ABSENT and OPEN and returns its reservation. -/
  | fanTrayRemoved (v : Nat)
  /-- FAN_TRAY_SEATED (R299): A tray seated starts a 5 s test at 100 %. -/
  | fanTraySeated (v : Nat)
  /-- FAN_TEST_END (R299): A tray's 5 s test ends and it takes the state so found. -/
  | fanTestEnd (v : Nat) (f : FanIn)
  /-- PW_SVC_DENIED (R289): A domain power-up waiting longer than SVC_WAIT completes BUDGET_DENIED with the domain off. -/
  | pwSvcDenied (d : Nat)
  /-- PW_BG_YIELD (R293): Preemptible background tasks finish their block and return their reservations to a waiting foreground request. -/
  | pwBgYield
  /-- PW_BG_OVERDUE (R293): A scrub 48 h or refresh 97 days behind moves to the FOREGROUND class. -/
  | pwBgOverdue (cid : Nat)
  /-- PW_OVERDRAW (R291): Bridge power exceeding GRANTED by more than 10 % + 5 W sets OVERDRAW and lowers f. -/
  | pwOverdraw (pBridge : Nat)
  /-- OVERDRAW_CLEAR (R291): After 1 s within the limit OVERDRAW clears and f returns to its R290 value. -/
  | overdrawClear
  /-- PW_DOMAIN_CTRL_WRITE (R20): A direct write of PW_DOMAIN_CTRL requests domain changes, handled as CARD_SERVICE requests. -/
  | pwDomainCtrlWrite (src : WrSrc) (req : Nat)
  /-- PW_CNT_CLR (R392): A write of PW_CNT_CLR clears the selected governor counters. -/
  | pwCntClr (src : WrSrc) (clr : Nat)
  /-- HP_LINK_UP (R301): The PCI Express link enters L0. -/
  | hpLinkUp (speed : Nat) (width : Nat)
  /-- HP_LINK_DOWN (R302): The PCI Express link is lost and the rings are disabled. -/
  | hpLinkDown
  /-- HOT_RESET (R302): A hot reset, or PERST# after the ready point, disables the rings. -/
  | hotReset
  /-- FUNCTION_LEVEL_RESET (R302): A Function Level Reset disables the rings and leaves other registers unchanged. -/
  | functionLevelReset
  /-- HP_CTRL_EN_WRITE (R303): A write of HP_CTRL.EN checks the ring set-up and enables the rings, or disables them with 0. -/
  | hpCtrlEnWrite (en : Nat) (entries : List (Nat × List Nat))
  /-- DOORBELL_POLL (R305): Every HP_DB_POLL the hub reads the doorbell block by DMA and acts on its indices and tails. -/
  | doorbellPoll (ok : Bool) (cmdPi : Nat) (cplCi : Nat) (evtCi : Nat) (tails : List Nat)
  /-- HOST_LOST (R305): 50 ms without a successful doorbell read count the host as lost for isolation and leashes. -/
  | hostLost
  /-- CMD_FETCH (R309): A CMD descriptor is fetched, validated in status order and accepted or completed. -/
  | cmdFetch (desc data : List Nat)
  /-- NOP (R313): The NOP command completes at acceptance or at WHEN. -/
  | nop (h : CmdHdr)
  /-- CFG_WRITE (R313): The CFG_WRITE command validates and applies up to 32 bytes of register writes at one CCLK edge at its instant. -/
  | cfgWrite (h : CmdHdr) (ofs : Nat) (data : List Nat)
  /-- CFG_READ (R313): The CFG_READ command reads up to 256 bytes of registers at one edge and writes them to host memory. -/
  | cfgRead (h : CmdHdr) (ofs len addr : Nat)
  /-- CFG_BATCH (R315): The CFG_BATCH command fetches a list of writes and applies them at one edge as one change. -/
  | cfgBatch (h : CmdHdr) (addr : Nat) (list : List Nat)
  /-- PACK_STATUS (R317): The PACK_STATUS command writes a 64-entry status block of the pack to host memory. -/
  | packStatus (h : CmdHdr) (addr : Nat)
  /-- IMAGE_WRITE (R373): The IMAGE_WRITE command stores image data sequentially in bank A or B. -/
  | imageWrite (h : CmdHdr) (addr ofs bank : Nat) (data : List Nat)
  /-- IMAGE_COMMIT (R374): The IMAGE_COMMIT command checks a written bank and makes it COMMITTED or EMPTY. -/
  | imageCommit (h : CmdHdr) (bank len : Nat)
  /-- IMAGE_ACTIVATE (R375): The IMAGE_ACTIVATE command makes a bank PENDING and, with WHEN 1, begins a warm start. -/
  | imageActivate (h : CmdHdr) (bank when_ : Nat)
  /-- ROLLBACK (R376): The ROLLBACK command activates the PREVIOUS bank as IMAGE_ACTIVATE does. -/
  | rollback (h : CmdHdr) (when_ : Nat)
  /-- LEASH_TAKE (R328): The LEASH_TAKE command takes a leash, waits for it, or is refused. -/
  | leashTake (h : CmdHdr) (n : Nat) (wait : Nat) (ms : Nat)
  /-- LEASH_RELEASE (R328): The LEASH_RELEASE command frees a leash whose owner and epoch match. -/
  | leashRelease (h : CmdHdr) (n : Nat) (epoch : Nat)
  /-- LEASH_WAIT_TIMEOUT (R328): A waiting LEASH_TAKE reaches WAIT_MS and completes TIMEOUT. -/
  | leashWaitTimeout
  /-- LEASH_BREAK (R330): A leash holder's loss breaks the leash within 10 µs and puts the resource in its safe state. -/
  | leashBreak (o : Nat)
  /-- LK_BREAK_WRITE (R330): A direct write of LK_CTRL.BREAK breaks leash N as a holder loss does. -/
  | lkBreakWrite (src : WrSrc) (n : Nat)
  /-- LK_CNT_CLR (R392): A write of LK_CNT_CLR clears the leash break counter. -/
  | lkCntClr (src : WrSrc) (clr : Nat)
  /-- CARD_SERVICE_OUT (R316): CARD_SERVICE OUT takes a part out of service and switches its domain off. -/
  | cardServiceOut (h : CmdHdr) (p : Nat)
  /-- CARD_SERVICE_IN (R316): CARD_SERVICE IN powers a part, self-tests it and brings it into service. -/
  | cardServiceIn (h : CmdHdr) (p : Nat)
  /-- CARD_SERVICE_RESTART (R316): CARD_SERVICE RESTART takes a part OUT and then IN. -/
  | cardServiceRestart (h : CmdHdr) (p : Nat)
  /-- CARD_SERVICE_UPDATE (R381): CARD_SERVICE UPDATE loads a part's firmware into its standby store while its data path runs. -/
  | cardServiceUpdate (h : CmdHdr) (p : Nat)
  /-- CARD_UPDATE_SWITCH (R381): A card switches to its new firmware at a beat boundary, held changes apply, and a pending image may be adopted. -/
  | cardUpdateSwitch (p : Nat)
  /-- DOMAIN_OFF (R20): CARD_SERVICE DOMAIN_OFF switches off a named domain unless the minimum service set forbids it. -/
  | domainOff (h : CmdHdr) (d : Nat)
  /-- DOMAIN_ON (R20): CARD_SERVICE DOMAIN_ON switches on a named domain once the governor grants it. -/
  | domainOn (h : CmdHdr) (d : Nat)
  /-- COMPLETION_WRITE (R309): A completion is written to the CPL ring once it has room, in order. -/
  | completionWrite
  /-- STATUS_BLOCK_WRITE (R306): The hub writes the status block after announced data, and at least once per millisecond. -/
  | statusBlockWrite
  /-- RECORD_DELIVER (R319): A record is written whole into its stream buffer once there is room and nothing waits ahead of it. -/
  | recordDeliver (b : Nat)
  /-- BARK_POST (R323): A producer writes a bark packet into the queue, overwriting the oldest packets if needed and logging WARN barks. -/
  | barkPost
  /-- EVT_DRAIN (R324): The DMA drains a complete packet into the EVT ring once there is room for it. -/
  | evtDrain
  /-- BQ_POP_READ (R326): A read of BQ_POP with HOST_POP set returns and removes the next queue word. -/
  | bqPopRead
  /-- BQ_HOST_POP_WRITE (R326): A write of BQ_CTRL.HOST_POP switches between DMA draining and host popping where permitted. -/
  | bqHostPopWrite (src : WrSrc) (v : Nat)
  /-- BQ_FLUSH (R327): A write of BQ_CTRL.FLUSH discards every queued packet at one edge and raises BQ_FLUSH. -/
  | bqFlush (src : WrSrc)
  /-- BQ_CNT_CLR (R392): A write of BQ_CNT_CLR clears BQ_LOST or BQ_FLUSHED. -/
  | bqCntClr (src : WrSrc) (clr : Nat)
  /-- MSIX_MESSAGE (R331): An MSI-X message is sent for announced entries once the vector's moderation time has passed. -/
  | msixMessage (v : Nat)
  /-- HP_CNT_CLR (R392): A write of HP_CNT_CLR clears the selected host-port counters. -/
  | hpCntClr (src : WrSrc) (clr : Nat)
  /-- OV_LANE_DOWN (R335): A lane loses block lock or signal and is declared DOWN within 10 µs, with a LINK_DOWN notice flooded. -/
  | ovLaneDown (l : Nat)
  /-- OV_RETRAIN (R335): Too many uncorrectable codewords or a RETRAIN ordered set starts a lane retrain. -/
  | ovRetrain (l : Nat) (asked : Bool) (uncorr : Nat)
  /-- OV_LANE_UP (R335): A lane finishes training and reaches UP, advertising its credits. -/
  | ovLaneUp (l : Nat) (copper : Bool)
  /-- OV_READY_SET (R334): A READY or NOT_READY ordered set from a neighbour sets whether it is given credits and forwarding. -/
  | ovReadySet (l : Nat) (ready : Bool)
  /-- OV_FRAME_RECEIVE (R337): A frame arrives, is checked, accepted in SEQ order or discarded, and reassembled into its message. -/
  | ovFrameReceive (l : Nat) (f : Frame) (corr : Nat) (uncorr : Nat)
  /-- OV_NAK (R340): A NAK ordered set makes the transmitter resend from the expected SEQ. -/
  | ovNak (l : Nat) (q : Nat)
  /-- OV_CREDIT_SET (R342): A credit ordered set returns credits to the transmitter's book. -/
  | ovCreditSet (l : Nat) (advert : Bool) (cs : List Nat)
  /-- TT_SEND (R344): At each AT millisecond each UP port sends a TT message. -/
  | ttSend (t1s : List Nat)
  /-- TT_RECEIVE (R344): A TT message yields link delay and offset, and a follower steers towards its upstream neighbour. -/
  | ttReceive (p : Nat) (t1 : Nat) (t2 : Nat) (t3 : Nat) (t4 : Nat)
  /-- HEARTBEAT_SEND (R346): Every 1 ms the leader sends a HEARTBEAT on both sides. -/
  | heartbeatSend
  /-- HEARTBEAT_RECEIVE (R346): A HEARTBEAT sets routes, the upstream side and topology, is flooded onward, and may demote a leader. -/
  | heartbeatReceive (p : Nat) (leader : Nat) (deputy : Nat) (tb : Nat) (raw : Nat) (hops : Nat)
  /-- TOPOLOGY_SEND (R346): Every 1 ms each hub sends a TOPOLOGY message on both sides. -/
  | topologySend
  /-- TOPOLOGY_RECEIVE (R346): A TOPOLOGY message updates the routes to its hub. -/
  | topologyReceive (p : Nat) (id : Nat) (serial : Nat) (role : Nat) (delay : Nat) (readyAt : Nat) (rings : Bool) (raw : Bool) (hops : Nat) (path : Nat)
  /-- LINK_DOWN_NOTICE (R347): A LINK_DOWN notice drops routes through the broken hop and reroutes within 1 ms. -/
  | linkDownNotice (p : Nat) (hub : Nat)
  /-- OV_LEADER_CLAIM (R350): A LEAD hub that hears no heartbeat within CLAIM_WAIT claims the leader role. -/
  | ovLeaderClaim
  /-- OV_LEADER_LOST (R354): No heartbeat for LOSS_MS: the hub detects the leader's loss and its leashes break. -/
  | ovLeaderLost
  /-- OV_DEPUTY_LOST (R354): The leader hears no TOPOLOGY from the deputy for LOSS_MS and detects its loss. -/
  | ovDeputyLost
  /-- OV_HANDOVER (R352): A leader isolated for HANDOVER_MS with a ready deputy sends HANDOVER and becomes a follower. -/
  | ovHandover
  /-- HANDOVER_RECEIVE (R352): The deputy receiving HANDOVER takes over at once. -/
  | handoverReceive (hub : Nat)
  /-- COMMAND_MESSAGE (R355): A COMMAND message is executed by its target hub, which answers with ACCEPT and COMPLETION. -/
  | commandMessage (h : CmdHdr) (hub : Nat)
  /-- COMPLETION_MESSAGE (R355): An ACCEPT or COMPLETION message reaches the leader, which completes the forwarded command. -/
  | completionMessage (kind : Nat) (hub : Nat) (tag : Nat) (index : Nat) (st : Status) (result : Nat) (endCause : Nat)
  /-- FORWARD_TIMEOUT (R355): A target unreachable for 50 ms with a command outstanding completes it with TIMEOUT. -/
  | forwardTimeout
  /-- REQUEST_MESSAGE (R356): A follower's REQUEST of buffer space is taken by the leader. -/
  | requestMessage (hub : Nat) (b : Nat) (bytes : Nat)
  /-- GRANT_MESSAGE (R356): A GRANT of buffer space lets the follower send its records. -/
  | grantMessage (hub : Nat) (b : Nat) (bytes : Nat)
  /-- RECORD_MESSAGE (R356): A RECORD message from a follower is written to its buffer if its SEQ is new, or discarded. -/
  | recordMessage (type : Nat) (hub : Nat) (b : Nat) (i : Nat) (seq : Nat) (n : Nat) (replay : Bool) (data : List Nat)
  /-- DELIVERED_NOTICE (R357): A DELIVERED notice confirms a record to the follower. -/
  | deliveredNotice (hub : Nat) (i : Nat) (seq : Nat) (replay : Bool)
  /-- DELIVERY_RESEND (R357): No confirmation within 20 ms, or a takeover, makes the follower resend from its first unconfirmed record. -/
  | deliveryResend
  /-- BARK_MESSAGE (R358): A BARK message from a follower is inserted into the leader's bark queue. -/
  | barkMessage (hub : Nat) (src : Nat) (code : Nat) (warn : Bool) (time : Nat) (payload : List Nat) (afterLoss : Bool)
  /-- BULK_MESSAGE (R337): A BULK message carries image data, batch lists or read results across the pack. -/
  | bulkMessage (hub : Nat) (kind : Nat) (addr : Nat) (data : List Nat)
  /-- OV_CNT_CLR (R392): A write of OV_CNT_CLR clears the selected Ovnas counters. -/
  | ovCntClr (src : WrSrc) (clr : Nat)
  /-- MODULE_SEATED (R406): A module seated in a cage is read and used, flagged unknown, or refused. -/
  | moduleSeated (cage : Nat) (qualified : Bool) (rightKind : Bool) (cls : Nat)
  /-- KN_IDENT_WRITE (R379): A write of KN_IDENT.WRITE changes the chassis identity if the reset button confirms it within 30 s. -/
  | knIdentWrite (src : WrSrc)
  /-- KN_JOURNAL_DROP (R370): A write of KN_CTRL.JOURNAL_DROP makes the next start discard the journal. -/
  | knJournalDrop (src : WrSrc)
  /-- KN_CHECKPOINT (R365): A write of KN_CTRL.CHECKPOINT writes stream checkpoints now. -/
  | knCheckpoint (src : WrSrc)
  /-- KN_CNT_CLR (R392): A write of KN_CNT_CLR clears the selected kennel counters. -/
  | knCntClr (src : WrSrc) (clr : Nat)
  /-- KN_MIRROR_FAIL (R388): A kennel mirror leaves service and the other mirror masks it. -/
  | knMirrorFail (m corrected pages : Nat) (fail : Bool)
  /-- CARD_LINK_LOST (R387): No valid frame from a card for 4 beats sets it OUT and restarts it once. -/
  | cardLinkLost (p : Nat)
  /-- CARD_CLOCK_LOST (R387): A card that loses MCLK, the beat marker or its link muzzles every output it carries. -/
  | cardClockLost (p : Nat)
  /-- OSC_FAULT (R388): A stopped oscillator detected by the supervisor muzzles every output and restarts the hub. -/
  | oscFault
  /-- RS_ECC_CORR (R388): A corrected retention error is counted. -/
  | rsEccCorr
  /-- RS_ECC_UNCORR (R388): An uncorrectable retention error replaces the record by a gap run counted in LOST. -/
  | rsEccUncorr (i seq : Nat)
  /-- RS_DEVICE_FAIL (R388): A retention device failure sets RS OUT and leads to DEGRADED. -/
  | rsDeviceFail
  /-- RS_CNT_CLR (R392): A write of RS_CNT_CLR clears the selected retention counters. -/
  | rsCntClr (src : WrSrc) (clr : Nat)
  /-- DISC_CLR (R416): A write of HUB_WR_STAT.DISC_CLR clears the discarded-write counter. -/
  | discClr (src : WrSrc)
  /-- REGISTER_WRITE (R415): A direct BAR0 write to a register with no row of its own is accepted, stored or discarded by mode, size and domain. -/
  | registerWrite (ofs size data : Nat)
  /-- AON_POWER_LOSS (R396): With both feeds gone, the stored energy that carries AON runs out and the hub enters the No power state. -/
  | aonPowerLoss
  /-- RESET_BUTTON_PRESS (R360): The beginning of a reset button press is taken and stands as the confirmation of R378 and R379, counting from that moment. -/
  | resetButtonPress
  /-- IDENT_CONFIRM_EXPIRY (R379): 30 s pass after a KN_IDENT.WRITE without a reset button press, and KN_IDENT.REFUSED sets. -/
  | identConfirmExpiry
  /-- STOW_RELEASE (R24): The /STOW input is released, ending the level that refuses RUN and COMMISSION requests and rearming STOW_IGNORED. -/
  | stowRelease
  /-- OSC_OVEN_STABLE (R361): After a cold start the oscillator oven reports stable, and reference classes may begin to qualify. -/
  | oscOvenStable
  /-- FAILED_START_AGE_OUT (R366): A failed start older than 10 min of supervisor run time drops out of HUB_START_CAUSE.FAILS. -/
  | failedStartAgeOut
  /-- AO_BEAT_UPDATE (R274): At each beat every analogue output moves its code towards its target by at most SLEW, measures its voltage and current, and judges its faults. -/
  | aoBeatUpdate (vs : List Int) (amps : List Int) (head : List Int)
  /-- DV_HOT_CLEAR (R270): A bridge temperature falling below 110 °C clears HOT and lets CLR_FAULT leave an overtemperature FAULT. -/
  | dvHotClear (a : Nat) (temp : Int)
  /-- EXC_LIMIT_END (R75): An excitation source stops limiting, so LIMITING clears and its referencing channels lose OVERRANGE. -/
  | excLimitEnd (f : Nat) (x : Nat)
  /-- PFI_LINE_FAULT_CLEAR (R216): A faulted line stands above 200 mV for 256 CCLK, so the line fault clears and index events on Z are taken again. -/
  | pfiLineFaultClear (i : Nat) (z : Bool)
  /-- BLANK_PANEL_CHANGE (R4): A JAB-00 panel is fitted to or removed from a slot, and its sensing contact changes the slot's HUB_PART_STATE between OPEN and OUT or NONE. -/
  | blankPanelChange (p : Nat) (fitted : Bool)
  deriving DecidableEq, Repr

end Sys2Proof
end

