-- ==== Sys2Proof/Decode.lean ====
section
/-! DEFINITION. Words that spell commands. spec/opcode_table.json gives none of its rows any bits: the commands are steps of the hub and
events at its edge, and what a descriptor's bytes spell (R307) is read by CMD_FETCH in Machine/Fetch.lean. -/

namespace Sys2Proof

/-- The command that a word spells by the table's bits: none, for no row has bits. -/
def decodeTableWord (_nbits _w : Nat) : Option Instr := none

end Sys2Proof
end

