-- ==== Sys2Proof/Config.lean ====
section
/-! DEFINITION. What an implementation fixes, and the free values. A constant here has no body: nothing in Lean can
evaluate it, so whatever is proved holds for every value it may have. -/

namespace Sys2Proof.Config

/-- The Ed25519 check of RFC 8032 over a 64-byte digest (R377): public key, digest, signature. -/
opaque ed25519 : List Nat → List Nat → List Nat → Bool

/-- SHA-512 of a byte string (R377). -/
opaque sha512 : List Nat → List Nat

/-- The factory public key in the supervisor's ROM (R377). -/
opaque factoryKey : List Nat

/-- The rated speed of a fan tray, rpm (R295): the spec names it and gives no number. -/
opaque ratedRpm : Nat

/-- The worst-case holdover error in ns after a number of seconds (R45), between the instants the spec's table lists. -/
opaque holdBound : Nat → Nat

/-- A free real of the pipeline (a count of 2^-1074), for a result the spec does not state; each use has its own argument. -/
opaque freeReal : Nat → Int

/-- The R97 noise of a converter at 64,000 S/s, in 10^-12 of full scale, by setting (R111, check 5): R97 gives a density from 1 Hz to 20 kHz
and no figure at that rate. -/
opaque convNoise : Nat → Nat

/-- The calibrated value of a reference resistor of the metrology card (R126), a real in Ω. -/
opaque refOhm : Nat → Int

/-- The last factory value of REF_A less zero, as the metrology card of a serial number measures it in a range (R133), a real in V. -/
opaque mtFactory : Nat → Nat → Int

/-- The reference function E of IEC 60584-1 for a thermocouple type 1 to 8 (R145): V of a temperature in °C, both reals. The
spec names the standard and does not give its coefficients. -/
opaque tcE : Nat → Int → Int

/-- The error of its inversion by iteration (R145), a real in °C, of the type and the voltage. -/
opaque tcErr : Nat → Int → Int

/-- The error of the inversion by iteration of R146, a real in °C, of the curve's coefficients and its input. -/
opaque cvdErr : List Int → Int

/-- The analogue delay of a resolver channel's input and converters, τa, in units of 10^-12 s (R177): measured at the
factory. -/
opaque tauA : Nat → Nat

/-- The level in µVrms of a resolver excitation amplifier of a LEVEL, a number of CCLK edges after it started (R174): it rises to LEVEL over
16 beats, by a course that the spec does not state. -/
opaque ampRise : Nat → Nat → Nat

/-- The trimmed SIN and COS, in µV, of trims SC_OFS_S, SC_OFS_C, SC_GAIN and SC_PHASE that are not all neutral and of the two signals
(R212): the spec names the trims and gives no equations. -/
opaque scTrim : List Int → Int × Int

/-- The coefficient per update of the acceleration low-pass of a corner in Hz (R180), a real: the spec gives the corner and not
the difference equation. -/
opaque accCoef : Nat → Int

/-- The RESULT of a completion that refuses a command whose result only an execution gives (R308, R313); each use has its own
argument. -/
opaque refusedResult : Nat → Nat

/-- Replacement blocks left in the kennel, percent (KN_STAT.SPARE_PCT), at an instant of the run clock: the spec names no rule for
it. -/
opaque sparePct : Nat → Nat


/-- The factory value of REF_A (0) or REF_B (1) of the field card of a serial number, a real in V (R371, R384). -/
opaque refFactory : Nat → Nat → Int

/-- The converter check of R199 passes when a write of REACQ reruns it outside its own row; each use has its own argument. -/
opaque recheck : Nat → Bool

/-- The FAIL_STEP of a status set that fails in SELFTEST, which is no step of R361: the spec names no value; each use has its own
argument. -/
opaque testFailStep : Nat → Nat

/-- The span, in CCLK edges, for which the last outside path may stay down before the supervisor restarts the hub (R22): the spec speaks
of the start rules and states none. -/
opaque pathWait : Nat

end Sys2Proof.Config
end

