-- ==== Sys2Proof/Machine/Num.lean ====
section
/-! DEFINITION. Numbers: two's complement, rounding and saturation of R10, modular differences of R11, little-endian
byte order of R9, and the binary64 arithmetic of the reduction pipeline. -/

namespace Sys2Proof.Machine

/-- The two's-complement reading of the low `w` bits of `n` (R10). -/
def signed (w n : Nat) : Int :=
  let m := n % 2 ^ w
  if 2 * m < 2 ^ w then (m : Int) else (m : Int) - (2 ^ w : Nat)

/-- The `w`-bit two's-complement word of `i`. -/
def unsigned (w : Nat) (i : Int) : Nat := (i % ((2 ^ w : Nat) : Int)).toNat

/-- Bits `lo` to `lo + w - 1` of `n`. -/
def bits (n lo w : Nat) : Nat := n / 2 ^ lo % 2 ^ w

/-- Bit `i` of `n`. -/
def bit (n i : Nat) : Bool := n / 2 ^ i % 2 = 1

/-- `n` with bits `lo` to `lo + w - 1` replaced by `v`. -/
def setBits (n lo w v : Nat) : Nat :=
  n % 2 ^ lo + (v % 2 ^ w) * 2 ^ lo + n / 2 ^ (lo + w) * 2 ^ (lo + w)

/-- 1 for true, 0 for false: a one-bit field. -/
def b2n (b : Bool) : Nat := if b then 1 else 0

/-- Clamp to a closed range: R10, "saturates at the range limits and never wraps". -/
def clamp (lo hi i : Int) : Int := if i < lo then lo else if hi < i then hi else i

/-- Saturation to a signed word of `w` bits (R10). -/
def satS (w : Nat) (i : Int) : Int := clamp (-((2 ^ (w - 1) : Nat) : Int)) ((2 ^ (w - 1) : Nat) - 1) i

/-- Saturation to an unsigned word of `w` bits (R10). -/
def satU (w : Nat) (n : Nat) : Nat := if n < 2 ^ w then n else 2 ^ w - 1

/-- `num / den` rounded to nearest, ties to even (R10); `den = 0` gives 0 and is never asked for. -/
def rne (num : Int) (den : Nat) : Int :=
  let q := num / (den : Int)
  let r := num % (den : Int)
  if 2 * r < (den : Int) then q
  else if (den : Int) < 2 * r then q + 1
  else if q % 2 = 0 then q else q + 1

/-- A modular difference read as a signed `w`-bit value (R11). -/
def modDiff (w a b : Nat) : Int := signed w (a + 2 ^ w - b % 2 ^ w)

/-- Absolute value as a natural number. -/
def iabs (i : Int) : Nat := i.natAbs

/-- The integer square root, rounded to nearest. -/
def nsqrtFloor : Nat → Nat → Nat → Nat
  | 0, _, r => r
  | fuel + 1, n, r => if (r + 2 ^ fuel) * (r + 2 ^ fuel) ≤ n then nsqrtFloor fuel n (r + 2 ^ fuel) else nsqrtFloor fuel n r

/-- The floor of the square root of `n`, for `n` below 2^256. -/
def isqrt (n : Nat) : Nat := nsqrtFloor 128 n 0

/-- Little-endian value of a list of bytes (R9). -/
def leNat : List Nat → Nat
  | [] => 0
  | b :: bs => b % 256 + 256 * leNat bs

/-- The `k` little-endian bytes of `n` (R9). -/
def leBytes : Nat → Nat → List Nat
  | 0, _ => []
  | k + 1, n => n % 256 :: leBytes k (n / 256)

/-- Bytes `o` to `o + k - 1` of a byte string, as a little-endian number. -/
def leAt (bs : List Nat) (o k : Nat) : Nat := leNat ((bs.drop o).take k)

/-- Sequence comparison in serial arithmetic over `w` bits: `a` lies after `b` by less than half the modulus. -/
def serialAfter (w a b : Nat) : Bool :=
  let d := (a + 2 ^ w - b % 2 ^ w) % 2 ^ w
  0 < d && 2 * d < 2 ^ w

/-! Reals of the pipeline. A binary64 number is held exactly, as an integer count of 2^-1074, the unit in the last place
of the least binary64 number. -/

/-- One, as a count of 2^-1074. -/
def realOne : Nat := 2 ^ 1074

/-- The largest finite binary64 number, as a count of 2^-1074. -/
def realMax : Nat := (2 ^ 53 - 1) * 2 ^ 2045

/-- The number of binary digits of `n`, for `n` below 2^4096. -/
def nbits (n : Nat) : Nat := if n = 0 then 0 else n.log2 + 1

/-- Round a magnitude `num / den` (in units of 2^-1074) to a binary64 magnitude: to nearest, ties to even (R10), and
never past the largest finite number ("saturates at the range limits and never wraps"). -/
def rnd64Mag (num den : Nat) : Nat :=
  let e := nbits (num / den) - 53
  let m := (rne (num : Int) (den * 2 ^ e)).toNat * 2 ^ e
  if realMax < m then realMax else m

/-- Round the quotient `num / den` (in units of 2^-1074) to binary64. -/
def rnd64 (num : Int) (den : Nat) : Int :=
  if num < 0 then -((rnd64Mag num.natAbs den : Nat) : Int) else (rnd64Mag num.natAbs den : Nat)

/-- The binary64 sum. -/
def fadd (a b : Int) : Int := rnd64 (a + b) 1
/-- The binary64 product. -/
def fmul (a b : Int) : Int := rnd64 (a * b) realOne
/-- The binary64 quotient; a zero divisor is answered by the caller's rule. -/
def fdiv (a b : Int) : Int :=
  let n := a * (realOne : Int)
  if b < 0 then rnd64 (-n) b.natAbs else rnd64 n b.natAbs
/-- An integer as a real. -/
def freal (i : Int) : Int := rnd64 (i * (realOne : Int)) 1
/-- The quotient of two integers as a real. -/
def fratio (i : Int) (d : Nat) : Int := rnd64 (i * (realOne : Int)) d
/-- A real rounded to an integer, ties to even. -/
def fround (a : Int) : Int := rne a realOne

/-- The real a binary64 bit pattern spells; infinities and NaNs spell none. -/
def real64 (w : Nat) : Option Int :=
  let e := bits w 52 11
  let f := bits w 0 52
  let m : Nat := if e = 0 then f else (2 ^ 52 + f) * 2 ^ (e - 1)
  if e = 2047 then none else if bit w 63 then some (-(m : Int)) else some (m : Int)

/-- The binary64 bit pattern of a real of the pipeline. -/
def word64 (a : Int) : Nat :=
  let m := a.natAbs
  let s := if a < 0 then 2 ^ 63 else 0
  if m < 2 ^ 52 then s + m
  else let k := nbits m - 53; s + (k + 1) * 2 ^ 52 + (m / 2 ^ k - 2 ^ 52)

/-- The real a binary32 bit pattern spells; infinities and NaNs spell none. -/
def real32 (w : Nat) : Option Int :=
  let e := bits w 23 8
  let f := bits w 0 23
  let m : Nat := if e = 0 then f * 2 ^ (1074 - 149) else (2 ^ 23 + f) * 2 ^ (1074 - 150 + e)
  if e = 255 then none else if bit w 31 then some (-(m : Int)) else some (m : Int)

/-- The binary32 bit pattern nearest to a real, ties to even, saturating at the largest finite number (R10). -/
def word32 (a : Int) : Nat :=
  let m := a.natAbs
  let s := if a < 0 then 2 ^ 31 else 0
  let u := 1074 - 149
  if m < 2 ^ (u + 23) then s + (rne (m : Int) (2 ^ u)).toNat
  else
    let k := nbits m - 24
    let r := (rne (m : Int) (2 ^ k)).toNat
    let p := if r = 2 ^ 24 then (k - u + 2) * 2 ^ 23 else (k - u + 1) * 2 ^ 23 + (r - 2 ^ 23)
    s + min p (255 * 2 ^ 23 - 1)

/-! Sines, for the laws of R73 and R277. -/

/-- 2π in units of 2^-128, rounded down. -/
def twoPi : Nat := 2138057168129933495719360746323741566600

/-- Taylor terms of the sine: `term` is x^(2k-1)/(2k-1)!, `x2` is x², in units of 2^-128; the next index is `k`. -/
def sinTerms : Nat → Nat → Int → Int → Int
  | 0, _, _, _ => 0
  | fuel + 1, k, x2, term =>
    term + sinTerms fuel (k + 1) x2 (-(term * x2 / (2 ^ 128 : Nat) / ((2 * k * (2 * k + 1) : Nat) : Int)))

/-- sin(2π θ / 2^48) in units of 2^-128, for a phase θ in units of 2^-48 turn; its error is far below 2^-96, and it is
exact at the quarter turns. -/
def sinTurn (θ : Nat) : Int :=
  let t : Nat := θ % 2 ^ 48
  let q := t / 2 ^ 46
  let r := t % 2 ^ 46
  let up (k : Nat) : Int :=
    if k = 0 then 0
    else if k = 2 ^ 46 then (2 ^ 128 : Nat)
    else
      let x : Int := ((twoPi * k / 2 ^ 48 : Nat) : Int)
      sinTerms 32 1 (x * x / (2 ^ 128 : Nat)) x
  if q = 0 then up r else if q = 1 then up (2 ^ 46 - r) else if q = 2 then -(up r) else -(up (2 ^ 46 - r))

/-- cos(2π θ / 2^48) in units of 2^-128. -/
def cosTurn (θ : Nat) : Int := sinTurn (θ + 2 ^ 46)

/-- Terms of the arctangent's series: `p` is ±t^(2k+1), `t2` is t², in units of 2^-120. -/
def atanTerms : Nat → Nat → Int → Int → Int
  | 0, _, _, _ => 0
  | fuel + 1, k, t2, p => p / ((2 * k + 1 : Nat) : Int) + atanTerms fuel (k + 1) t2 (-(p * t2 / (2 ^ 120 : Nat)))

/-- The tangent of half the angle whose tangent is `t`, in units of 2^-120. -/
def halfTan (t : Nat) : Nat := t * 2 ^ 120 / (2 ^ 120 + isqrt (2 ^ 240 + t * t))

/-- The angle of tangent `num / den`, at most one eighth of a turn, in units of 2^-48 turn. -/
def atanTurn (num den : Nat) : Nat :=
  let t := halfTan (halfTan (halfTan (num * 2 ^ 120 / den)))
  let x := atanTerms 24 0 ((t * t / 2 ^ 120 : Nat) : Int) (t : Int)
  (rne (8 * x * (2 ^ 56 : Nat)) twoPi).toNat

/-- atan2 in units of 2^-48 turn, from −2^47 to 2^47; 0 where both are 0. -/
def atan2 (y x : Int) : Int :=
  let ay := y.natAbs
  let ax := x.natAbs
  let a : Int := if ax = 0 && ay = 0 then 0 else if ay ≤ ax then (atanTurn ay ax : Nat) else (2 ^ 46 : Nat) - (atanTurn ax ay : Nat)
  let a := if x < 0 then (2 ^ 47 : Nat) - a else a
  if y < 0 then -a else a

/-- The floor of the square root, for a number of any size. -/
def isqrtAny (n : Nat) : Nat := nsqrtFloor ((nbits n + 1) / 2) n 0

/-- The binary64 square root of a real that is not negative. -/
def fsqrt (a : Int) : Int :=
  let n := a.toNat * realOne * 2 ^ 120
  let r := isqrtAny n
  rnd64 ((2 * r + (if r * r = n then 0 else 1) : Nat) : Int) (2 ^ 61)

/-- Terms of the inverse hyperbolic tangent: `p` is z^(2k+1), `z2` is z², in units of 2^-200. -/
def atanhTerms : Nat → Nat → Int → Int → Int
  | 0, _, _, _ => 0
  | fuel + 1, k, z2, p => p / ((2 * k + 1 : Nat) : Int) + atanhTerms fuel (k + 1) z2 (p * z2 / (2 ^ 200 : Nat))

/-- ln((n + d) / (n − d)) in units of 2^-200, for d of at most n / 2. -/
def lnRatio (d n : Nat) : Int :=
  let z : Int := ((d * 2 ^ 200 / n : Nat) : Int)
  2 * atanhTerms 90 0 (z * z / (2 ^ 200 : Nat)) z

/-- The natural logarithm of a positive real, rounded to binary64. -/
def fln (a : Int) : Int :=
  let m := a.natAbs
  let e := nbits m - 1
  rnd64 ((lnRatio (m - 2 ^ e) (m + 2 ^ e) + ((e : Int) - 1074) * lnRatio 1 3) * (realOne : Int)) (2 ^ 200)

/-! CRC-32 of IEEE 802.3 (R163, R341, R368). -/

/-- One byte of the reflected CRC-32, polynomial 0xEDB88320: eight bit steps. -/
def crcBits : Nat → Nat → Nat
  | 0, c => c
  | k + 1, c => crcBits k (if c % 2 = 1 then Nat.xor (c / 2) 0xEDB88320 else c / 2)

/-- The CRC-32 register after a byte string. -/
def crcStep (c : Nat) : List Nat → Nat
  | [] => c
  | b :: bs => crcStep (crcBits 8 (Nat.xor c (b % 256))) bs

/-- The CRC-32 of IEEE 802.3 of a byte string. -/
def crc32 (bs : List Nat) : Nat := Nat.xor (crcStep 0xFFFFFFFF bs) 0xFFFFFFFF

end Sys2Proof.Machine
end

