-- ==== Sys2Proof/Machine/Sparse.lean ====
section
/-! DEFINITION. Sparse maps: a list of (key, value) pairs in one canonical form. Keys rise strictly, and no entry
equals the value an unlisted key reads as; so equal maps are equal lists. The register store and every array of the
state are such maps. -/

namespace Sys2Proof.Machine

/-- A sparse map from numbers to `α`. -/
abbrev Sparse (α : Type) := List (Nat × α)

/-- The value at key `k`, or `d` where `k` is not listed. -/
def Sparse.get {α : Type} (d : α) (k : Nat) : Sparse α → α
  | [] => d
  | (j, v) :: r => if j = k then v else Sparse.get d k r

/-- Remove key `k`. -/
def Sparse.erase {α : Type} (k : Nat) : Sparse α → Sparse α
  | [] => []
  | (j, v) :: r => if j = k then Sparse.erase k r else (j, v) :: Sparse.erase k r

/-- Set key `k` to `v`, in key order. -/
def Sparse.insert {α : Type} (k : Nat) (v : α) : Sparse α → Sparse α
  | [] => [(k, v)]
  | (j, w) :: r =>
    if j = k then (k, v) :: r else if k < j then (k, v) :: (j, w) :: r else (j, w) :: Sparse.insert k v r

/-- Set key `k` to `v`, where unlisted keys read as `d`: writing `d` removes the entry. -/
def Sparse.put {α : Type} [DecidableEq α] (d : α) (k : Nat) (v : α) (m : Sparse α) : Sparse α :=
  if v = d then m.erase k else m.insert k v

/-- Every key is at least `lo`, and keys rise strictly. -/
def Sparse.sortedFrom {α : Type} : Nat → Sparse α → Bool
  | _, [] => true
  | lo, (j, _) :: r => decide (lo ≤ j) && Sparse.sortedFrom (j + 1) r

/-- Keys rise strictly. -/
def Sparse.sorted {α : Type} (m : Sparse α) : Bool := Sparse.sortedFrom 0 m

/-- No entry equals the value an unlisted key reads as. -/
def Sparse.noDefault {α : Type} [DecidableEq α] (d : α) (m : Sparse α) : Bool := m.all (fun e => decide (e.2 ≠ d))

/-- The canonical form of a sparse map. -/
def Sparse.wf {α : Type} [DecidableEq α] (d : α) (m : Sparse α) : Bool := m.sorted && m.noDefault d

/-- Apply `f` to every listed value, keeping the canonical form: an entry that becomes `d` goes. -/
def Sparse.mapD {α : Type} [DecidableEq α] (d : α) (f : Nat → α → α) : Sparse α → Sparse α
  | [] => []
  | (j, v) :: r => if f j v = d then Sparse.mapD d f r else (j, f j v) :: Sparse.mapD d f r

/-- The keys of the map whose values satisfy `p`, in rising order. -/
def Sparse.keysWhere {α : Type} (p : Nat → α → Bool) (m : Sparse α) : List Nat :=
  (m.filter (fun e => p e.1 e.2)).map (fun e => e.1)

end Sys2Proof.Machine
end

