-- ==== Sys2Proof/Machine/Regs.lean ====
section
/-! DEFINITION. The register map: every field of every register table of spec/ (RSV fields apart), one
definition per field. A field lives in the register store under its ABSOLUTE BIT ADDRESS in BAR0, that is
8 × (block base of R412 + register offset) + least significant bit. Resource arguments are numbered as R7 and R8
number them: `f` a field card, `c` a local field channel or a global resolver channel, `i` PI, `p` PB, `e` EE, `l` a
loop, `g` an arena, `a` an axis, `o` an analogue output. -/

namespace Sys2Proof.Machine

/-- Access codes of R12 (RSV fields hold no state: they read 0 and discard writes, R417). -/
inductive Acc where
  | rw | ro | w1c | w1s | rwh | cnt
  deriving DecidableEq, Repr

/-- A register field: its absolute bit address in BAR0, its width, and its value at reset. -/
structure Fld where
  key   : Nat
  width : Nat
  rst   : Nat
  deriving DecidableEq, Repr

/-- One field of a register table, placed inside its register. -/
structure FieldDesc where
  lsb   : Nat
  width : Nat
  acc   : Acc
  rst   : Nat
  deriving DecidableEq, Repr

/-- The registers of the map, by the spec's names. -/
inductive RegId where
  | HUB_MODE | HUB_MODE_REQ | HUB_GUARD | HUB_WAKE_AT | HUB_PART_STATE | TB_STATE
  | TB_REF_SEL | TB_QUAL_CFG | TB_AT_SNAP | TB_HOLD | TB_HOLD_EST | TB_REF_OFS
  | TB_OUT_CFG | TB_TOD_SET | TB_PTP_CFG | TB_PTP_ASYM | TB_EXT_DELAY | TB_SCHED_CFG
  | TB_SCHED_STAT | TB_CNT | TB_CNT_CLR | TB_ANG | FC_CARD_ID | FC_CARD_STAT
  | FC_APPLY | FC_CFG_STAT | FC_BLANK_STAT | FC_CNT | FC_CNT_CLR | FC_XPT_ROLE
  | FC_EXC_CFG | FC_EXC_STAT | FC_CH_CFG | FC_CH_STAT | FC_CH_CTRL | FC_QRST_CNT
  | FC_CM_VAL | FC_SPARE_CTRL | FC_SPARE_EXCL | FC_SPARE_TOL | FC_SPARE_STAT | FC_SPARE_CNT
  | FC_SPARE_CNT_CLR | FC_CONV_STAT | MT_CARD_ID | MT_CARD_STAT | MT_SCAN_MASK | MT_SCAN_STAT
  | MT_CAL_CFG | MT_CNT | MT_CNT_CLR | MT_CH_CFG | MT_CH_STAT | MT_LAST
  | RD_STAT | RD_SEL | RD_CURVE_SEL | RD_CURVE_ADDR | RD_CURVE_DATA | RD_CURVE_CTRL
  | RD_CURVE_STAT | RD_CNT | RD_CNT_CLR | RD_VIEW | RD_STREAM_STAT | AX_CARD_ID
  | AX_CARD_STAT | RDC_CFG | RDC_LOOP | RDC_STAT | RDC_LIVE | RDC_CTRL
  | RDC_CNT | RDC_HARM_CFG | RDC_HARM_STAT | RDC_HARM_STG | RDC_HARM_ACT | PFI_CFG
  | PFI_MIN_EDGE | PFI_FUSE | PFI_STAT | PFI_LIVE | PFI_CTRL | PFI_FAST_EDGES
  | PFI_CNT | PFI_PB_CFG | PFI_PB_STAT | PFI_PB_LATCH | EE_CFG | EE_STAT
  | EE_CTRL | EE_CNT | LE_STAT | LE_BANK_SEL | LE_BANK_ACT | LE_CNT
  | LE_CNT_CLR | LE_LOOP_CFG | LE_LOOP_BANK | LE_LOOP_STAT | LE_ARENA_CFG | LE_ARENA_STAT
  | LE_ARENA_CTRL | LE_LOOP_CTRL | DV_CARD_ID | DV_CARD_STAT | DV_CFG | DV_CNT
  | DV_CNT_CLR | DV_UTAB_SEL | DV_UTAB_ADDR | DV_UTAB_DATA | DV_UTAB_CTRL | DV_AX_CFG
  | DV_LIM_LO | DV_LIM_HI | DV_AX_STAT | DV_AX_CTRL | DV_HEAT | AO_CFG
  | AO_CODE | AO_CLEAR_CODE | AO_STAT | AO_CNT | AO_CNT_CLR | PW_CEIL
  | PW_CFG | PW_THERM_CFG | PW_DOMAIN_CTRL | PW_DOMAIN_STAT | PW_BOOK | PW_GOV
  | PW_FEED | PW_THERM_STAT | PW_TEMP | PW_FAN | PW_ENERGY | PW_CNT
  | PW_CNT_CLR | HP_CTRL | HP_STAT | HP_DB_BASE | HP_STATUS_BASE | HP_SBUF_TAB
  | HP_CMD_RING | HP_CPL_RING | HP_EVT_RING | HP_DB_POLL | HP_CNT | HP_CNT_CLR
  | HP_IRQ_MOD | BQ_STATUS | BQ_CTRL | BQ_POP | BQ_LOST | BQ_FLUSHED
  | BQ_CNT_CLR | LK_STAT | LK_CFG | LK_CTRL | LK_CNT | LK_CNT_CLR
  | OV_STAT | OV_PACK_CFG | OV_PACK_STAT | OV_PORT_CFG | OV_PORT_STAT | OV_LANE_CNT
  | OV_CREDIT | OV_ROUTE | OV_CNT | OV_CNT_CLR | HUB_START_CAUSE | KN_STAT
  | KN_BANK_STATE | KN_BANK_INFO | KN_SEC | KN_IDENT | KN_CTRL | KN_CNT
  | KN_CNT_CLR | FC_REFCAL_CTRL | FC_REFCAL_UV | HUB_ID | HUB_REV | HUB_SERIAL
  | HUB_WR_STAT | RS_STAT | RS_CNT | RS_CNT_CLR
  deriving DecidableEq, Repr

namespace Reg

/-! HUB_MODE: 01_unit_architecture.md, register table, 32 bits. -/

/-- RO, 3 bit, bit 0. Current mode, encoded as in the mode table -/
def HUB_MODE_MODE : Fld := ⟨8 * (0x10) + 0, 3, 1⟩
/-- RO, 3 bit, bit 4. Mode before the last transition -/
def HUB_MODE_PREV : Fld := ⟨8 * (0x10) + 4, 3, 0⟩
/-- RO, 8 bit, bit 8. Cause of the last transition, coded as in the following table -/
def HUB_MODE_CAUSE : Fld := ⟨8 * (0x10) + 8, 8, 1⟩
/-- RO, 1 bit, bit 16. Active management processor under R17: 0 MP0, 1 MP1 -/
def HUB_MODE_ACTIVE_MP : Fld := ⟨8 * (0x10) + 16, 1, 0⟩

/-! HUB_MODE_REQ: 01_unit_architecture.md, register table, 32 bits. -/

/-- RW, 3 bit, bit 0. Requested mode -/
def HUB_MODE_REQ_TARGET : Fld := ⟨8 * (0x14) + 0, 3, 3⟩
/-- W1S, 1 bit, bit 8. Submit TARGET as a request under R26 -/
def HUB_MODE_REQ_GO : Fld := ⟨8 * (0x14) + 8, 1, 0⟩
/-- W1C, 1 bit, bit 16. Set when a GO was refused -/
def HUB_MODE_REQ_REJECT : Fld := ⟨8 * (0x14) + 16, 1, 0⟩
/-- W1C, 1 bit, bit 17. Set when a GO completed OK under R26: at the entry to the requested mode, at the entry to DEGRADED for a request of RUN, or at once when the hub already stood in the requested mode -/
def HUB_MODE_REQ_DONE : Fld := ⟨8 * (0x14) + 17, 1, 0⟩

/-! HUB_GUARD: 01_unit_architecture.md, register table, 32 bits. -/

/-- RW, 16 bit, bit 0. Isolation time before SAFE, in ms; 0 disables; values 1 to 99 act as 100 -/
def HUB_GUARD_ISO_TIME : Fld := ⟨8 * (0x18) + 0, 16, 2000⟩
/-- RW, 12 bit, bit 16. Time allowed for each stow move, in s; 0 acts as 1 -/
def HUB_GUARD_STOW_TIME : Fld := ⟨8 * (0x18) + 16, 12, 120⟩

/-! HUB_WAKE_AT: 01_unit_architecture.md, register table, 64 bits. -/

/-- RW, 48 bit, bit 0. AT second at which the hub wakes from DORMANT -/
def HUB_WAKE_AT_SECONDS : Fld := ⟨8 * (0x20) + 0, 48, 0⟩
/-- RWH, 1 bit, bit 63. 1 arms the wake; hardware clears it on wake. If SECONDS is already past on entry to DORMANT, the wake occurs at the next AT second boundary. -/
def HUB_WAKE_AT_ARM : Fld := ⟨8 * (0x20) + 63, 1, 0⟩

/-! HUB_PART_STATE: 01_unit_architecture.md, register table, 64 bits. -/

/-- RO, 2 bit, bit 0. F0 to F15; card f at [2f+1:2f] -/
def HUB_PART_STATE_FIELD (f : Nat) : Fld := ⟨8 * (0x28) + (0 + 2 * f), 2, 0⟩
/-- RO, 2 bit, bit 32. Axis card A0 -/
def HUB_PART_STATE_AX0 : Fld := ⟨8 * (0x28) + 32, 2, 0⟩
/-- RO, 2 bit, bit 34. Axis card A1 -/
def HUB_PART_STATE_AX1 : Fld := ⟨8 * (0x28) + 34, 2, 0⟩
/-- RO, 2 bit, bit 36. Drive card D0 -/
def HUB_PART_STATE_DRV : Fld := ⟨8 * (0x28) + 36, 2, 0⟩
/-- RO, 2 bit, bit 38. Metrology card M0 -/
def HUB_PART_STATE_MET : Fld := ⟨8 * (0x28) + 38, 2, 0⟩
/-- RO, 2 bit, bit 40. Power card P0 and feed A -/
def HUB_PART_STATE_PWA : Fld := ⟨8 * (0x28) + 40, 2, 0⟩
/-- RO, 2 bit, bit 42. Power card P1 and feed B -/
def HUB_PART_STATE_PWB : Fld := ⟨8 * (0x28) + 42, 2, 0⟩
/-- RO, 2 bit, bit 44. Fan trays V0 to V3; tray v at [45+2v:44+2v] -/
def HUB_PART_STATE_FAN (v : Nat) : Fld := ⟨8 * (0x28) + (44 + 2 * v), 2, 0⟩
/-- RO, 2 bit, bit 52. Management processor MP0 -/
def HUB_PART_STATE_MP0 : Fld := ⟨8 * (0x28) + 52, 2, 0⟩
/-- RO, 2 bit, bit 54. Management processor MP1 -/
def HUB_PART_STATE_MP1 : Fld := ⟨8 * (0x28) + 54, 2, 0⟩
/-- RO, 2 bit, bit 56. Host port -/
def HUB_PART_STATE_HP : Fld := ⟨8 * (0x28) + 56, 2, 0⟩
/-- RO, 2 bit, bit 58. Retention store -/
def HUB_PART_STATE_RS : Fld := ⟨8 * (0x28) + 58, 2, 0⟩
/-- RO, 2 bit, bit 60. West ports OV0 and OV1; OUT when either port is down -/
def HUB_PART_STATE_OVW : Fld := ⟨8 * (0x28) + 60, 2, 0⟩
/-- RO, 2 bit, bit 62. East ports OV2 and OV3; OUT when either port is down -/
def HUB_PART_STATE_OVE : Fld := ⟨8 * (0x28) + 62, 2, 0⟩

/-! TB_STATE: 02_array_time.md, register table, 32 bits. -/

/-- RO, 3 bit, bit 0. 0 ACQUIRE, 1 LOCKED, 2 SWITCHING, 3 HOLDOVER, 4 FREE -/
def TB_STATE_STATE : Fld := ⟨8 * (0x2000) + 0, 3, 0⟩
/-- RO, 2 bit, bit 4. Class in use: 0 EXT, 1 PTP, 2 LINK, 3 LOCAL -/
def TB_STATE_REF : Fld := ⟨8 * (0x2000) + 4, 2, 3⟩
/-- RO, 2 bit, bit 6. Target class while SWITCHING -/
def TB_STATE_TARGET : Fld := ⟨8 * (0x2000) + 6, 2, 3⟩
/-- RO, 4 bit, bit 8. One bit per class, bit = class code: qualified -/
def TB_STATE_QUAL : Fld := ⟨8 * (0x2000) + 8, 4, 0⟩
/-- RO, 4 bit, bit 12. One bit per class: qualification running -/
def TB_STATE_QUALIFYING : Fld := ⟨8 * (0x2000) + 12, 4, 0⟩
/-- RO, 1 bit, bit 16. Time of day established -/
def TB_STATE_TOD_VALID : Fld := ⟨8 * (0x2000) + 16, 1, 0⟩
/-- RO, 1 bit, bit 17. Lock-out running -/
def TB_STATE_LOCKOUT : Fld := ⟨8 * (0x2000) + 17, 1, 0⟩
/-- RO, 3 bit, bit 18. STATE of the leader, as carried over LINK; 0 on the leader -/
def TB_STATE_UPSTREAM : Fld := ⟨8 * (0x2000) + 18, 3, 0⟩

/-! TB_REF_SEL: 02_array_time.md, register table, 32 bits. -/

/-- RW, 4 bit, bit 0. Class enable mask, bit = class code; LOCAL cannot be masked -/
def TB_REF_SEL_ENABLE : Fld := ⟨8 * (0x2004) + 0, 4, 15⟩
/-- RW, 1 bit, bit 8. Rank LINK above EXT and PTP under R37 -/
def TB_REF_SEL_PACK_FOLLOW : Fld := ⟨8 * (0x2004) + 8, 1, 1⟩
/-- RW, 1 bit, bit 9. Permit steps from FREE under R40 -/
def TB_REF_SEL_STEP_ALLOW : Fld := ⟨8 * (0x2004) + 9, 1, 0⟩
/-- W1S, 1 bit, bit 10. Permit one step from FREE; reads 0 once used -/
def TB_REF_SEL_STEP_ONCE : Fld := ⟨8 * (0x2004) + 10, 1, 0⟩

/-! TB_QUAL_CFG: 02_array_time.md, register table, 32 bits. -/

/-- RW, 14 bit, bit 0. Largest offset slewed, in ns; values above 10,000 act as 10,000 -/
def TB_QUAL_CFG_SLEW_MAX : Fld := ⟨8 * (0x2008) + 0, 14, 10000⟩

/-! TB_AT_SNAP: 02_array_time.md, register table, 128 bits. -/

/-- RO, 16 bit, bit 0. AT96 fraction of a nanosecond -/
def TB_AT_SNAP_FRAC : Fld := ⟨8 * (0x2010) + 0, 16, 0⟩
/-- RO, 32 bit, bit 16. AT96 nanoseconds -/
def TB_AT_SNAP_NS : Fld := ⟨8 * (0x2010) + 16, 32, 0⟩
/-- RO, 48 bit, bit 48. AT96 seconds -/
def TB_AT_SNAP_SECONDS : Fld := ⟨8 * (0x2010) + 48, 48, 0⟩
/-- RO, 16 bit, bit 96. Beat within the second, 0 to 63,999 -/
def TB_AT_SNAP_BEAT : Fld := ⟨8 * (0x2010) + 96, 16, 0⟩
/-- RO, 3 bit, bit 112. TB_STATE.STATE at the latch -/
def TB_AT_SNAP_STATE : Fld := ⟨8 * (0x2010) + 112, 3, 0⟩

/-! TB_HOLD: 02_array_time.md, register table, 32 bits. -/

/-- RW, 16 bit, bit 0. Error bound at which HOLDOVER becomes FREE, in ns; 0 acts as 1 -/
def TB_HOLD_LIMIT : Fld := ⟨8 * (0x2020) + 0, 16, 1000⟩

/-! TB_HOLD_EST: 02_array_time.md, register table, 32 bits. -/

/-- RO, 24 bit, bit 0. Holdover error bound in ns, saturating; 0 outside HOLDOVER -/
def TB_HOLD_EST_EST : Fld := ⟨8 * (0x2024) + 0, 24, 0⟩
/-- RO, 8 bit, bit 24. Training time held, in h, saturating at 255 -/
def TB_HOLD_EST_TRAIN : Fld := ⟨8 * (0x2024) + 24, 8, 0⟩

/-! TB_REF_OFS: 02_array_time.md, register table, 32 bits. -/

/-- RO, 32 bit, bit 0. Offset of class k from AT, signed, LSB 2^−8 ns; saturating; 0 while not qualified -/
def TB_REF_OFS_OFS (k : Nat) : Fld := ⟨8 * (0x2030 + 4 * k) + 0, 32, 0⟩

/-! TB_OUT_CFG: 02_array_time.md, register table, 32 bits. -/

/-- RW, 10 bit, bit 0. 1PPS_OUT high time, in ms; 0 acts as 1; values above 500 act as 500 -/
def TB_OUT_CFG_PPS_WIDTH : Fld := ⟨8 * (0x2040) + 0, 10, 100⟩
/-- RW, 1 bit, bit 16. Pulse 1PPS_OUT in FREE -/
def TB_OUT_CFG_FREE_PPS : Fld := ⟨8 * (0x2040) + 16, 1, 0⟩

/-! TB_TOD_SET: 02_array_time.md, register table, 64 bits. -/

/-- RW, 48 bit, bit 0. Seconds value for the next AT second boundary -/
def TB_TOD_SET_SECONDS : Fld := ⟨8 * (0x2048) + 0, 48, 0⟩
/-- RWH, 1 bit, bit 63. 1 applies SECONDS at the next boundary under R36; hardware clears it when applied or refused -/
def TB_TOD_SET_ARM : Fld := ⟨8 * (0x2048) + 63, 1, 0⟩

/-! TB_PTP_CFG: 02_array_time.md, register table, 32 bits. -/

/-- RW, 8 bit, bit 0. PTP domain number -/
def TB_PTP_CFG_DOMAIN : Fld := ⟨8 * (0x2050) + 0, 8, 0⟩
/-- RW, 1 bit, bit 8. 0 IEEE 802.3 Ethernet, 1 UDP over IPv4 -/
def TB_PTP_CFG_TRANSPORT : Fld := ⟨8 * (0x2050) + 8, 1, 0⟩
/-- RW, 1 bit, bit 9. Send and expect one VLAN tag -/
def TB_PTP_CFG_VLAN_EN : Fld := ⟨8 * (0x2050) + 9, 1, 0⟩
/-- RW, 12 bit, bit 16. VLAN identifier -/
def TB_PTP_CFG_VLAN_ID : Fld := ⟨8 * (0x2050) + 16, 12, 0⟩

/-! TB_PTP_ASYM: 02_array_time.md, register table, 32 bits. -/

/-- RW, 32 bit, bit 0. Path delay asymmetry correction, signed, in ps -/
def TB_PTP_ASYM_ASYM : Fld := ⟨8 * (0x2054) + 0, 32, 0⟩

/-! TB_EXT_DELAY: 02_array_time.md, register table, 32 bits. -/

/-- RW, 32 bit, bit 0. Cable delay of 1PPS_IN and 10M_IN, signed, in ps; subtracted from the EXT edge time -/
def TB_EXT_DELAY_DELAY : Fld := ⟨8 * (0x2058) + 0, 32, 0⟩

/-! TB_SCHED_CFG: 02_array_time.md, register table, 32 bits. -/

/-- RW, 16 bit, bit 0. Lateness accepted under R49, in µs -/
def TB_SCHED_CFG_LATE_MAX : Fld := ⟨8 * (0x2060) + 0, 16, 1000⟩
/-- RW, 5 bit, bit 16. Rearm hysteresis 2^−ANG_HYST turn; values below 8 act as 8, above 24 as 24 -/
def TB_SCHED_CFG_ANG_HYST : Fld := ⟨8 * (0x2060) + 16, 5, 20⟩

/-! TB_SCHED_STAT: 02_array_time.md, register table, 32 bits. -/

/-- RO, 13 bit, bit 0. Time-domain entries in use, 0 to 4,096 -/
def TB_SCHED_STAT_PENDING : Fld := ⟨8 * (0x2064) + 0, 13, 0⟩

/-! TB_CNT: 02_array_time.md, register table, 160 bits. -/

/-- CNT, 32 bit, bit 0. Slews started -/
def TB_CNT_SWITCHES : Fld := ⟨8 * (0x2070) + 0, 32, 0⟩
/-- CNT, 32 bit, bit 32. Late events fired under R49 -/
def TB_CNT_SCHED_LATE : Fld := ⟨8 * (0x2070) + 32, 32, 0⟩
/-- CNT, 32 bit, bit 64. Crossings missed under R54, all generators -/
def TB_CNT_ANG_MISSED : Fld := ⟨8 * (0x2070) + 64, 32, 0⟩
/-- CNT, 32 bit, bit 96. Unpredicted crossings under R53 -/
def TB_CNT_ANG_UNPRED : Fld := ⟨8 * (0x2070) + 96, 32, 0⟩
/-- CNT, 32 bit, bit 128. Instants received late under R55 -/
def TB_CNT_ANG_LATE_REMOTE : Fld := ⟨8 * (0x2070) + 128, 32, 0⟩

/-! TB_CNT_CLR: 02_array_time.md, register table, 32 bits. -/

/-- W1S, 5 bit, bit 0. Bit i clears the i-th counter of TB_CNT, in the order listed -/
def TB_CNT_CLR_CLR : Fld := ⟨8 * (0x2084) + 0, 5, 0⟩

/-! TB_ANG: 02_array_time.md, register table, 256 bits. -/

/-- RW, 1 bit, bit 0. Generator enabled -/
def TB_ANG_EN (g : Nat) : Fld := ⟨8 * (0x2100 + 32 * g) + 0, 1, 0⟩
/-- RW, 1 bit, bit 1. Also fire on this hub -/
def TB_ANG_LOCAL (g : Nat) : Fld := ⟨8 * (0x2100 + 32 * g) + 1, 1, 0⟩
/-- RW, 2 bit, bit 2. 0b01 forward, 0b10 reverse, 0b11 both; 0b00 acts as 0b11 -/
def TB_ANG_DIR (g : Nat) : Fld := ⟨8 * (0x2100 + 32 * g) + 2, 2, 3⟩
/-- RW, 1 bit, bit 4. 0 resolver channel, 1 fused angle of a fine position input -/
def TB_ANG_KIND (g : Nat) : Fld := ⟨8 * (0x2100 + 32 * g) + 4, 1, 0⟩
/-- RW, 5 bit, bit 5. RDC 0 to 31, or PI0 to PI15 -/
def TB_ANG_INDEX (g : Nat) : Fld := ⟨8 * (0x2100 + 32 * g) + 5, 5, 0⟩
/-- RW, 5 bit, bit 10. k: grid of 2^k steps per turn; values above 16 act as 16 -/
def TB_ANG_GRID (g : Nat) : Fld := ⟨8 * (0x2100 + 32 * g) + 10, 5, 0⟩
/-- RW, 10 bit, bit 16. Lead, in µs; 0 acts as 1; values from 1,001 to 1,023 act as 1,000 -/
def TB_ANG_LEAD (g : Nat) : Fld := ⟨8 * (0x2100 + 32 * g) + 16, 10, 200⟩
/-- RW, 32 bit, bit 64. Grid origin, Q0.32 turn -/
def TB_ANG_ORIGIN (g : Nat) : Fld := ⟨8 * (0x2100 + 32 * g) + 64, 32, 0⟩
/-- RW, 64 bit, bit 128. Bit h: send instants to hub Hh; this hub's own bit is ignored -/
def TB_ANG_HUBMASK (g : Nat) : Fld := ⟨8 * (0x2100 + 32 * g) + 128, 64, 0⟩

/-! FC_CARD_ID: 03_field_inputs.md, register table, 32 bits. -/

/-- RO, 8 bit, bit 0. 0x01 JAF-64I, 0x02 JAF-64Q, 0x03 JAF-64M; 0x00 no card -/
def FC_CARD_ID_VARIANT (f : Nat) : Fld := ⟨8 * (0x10000 + 0x4000 * f) + 0, 8, 0⟩
/-- RO, 8 bit, bit 8. Card hardware revision -/
def FC_CARD_ID_HWREV (f : Nat) : Fld := ⟨8 * (0x10000 + 0x4000 * f) + 8, 8, 0⟩
/-- RO, 4 bit, bit 16. Slot number f -/
def FC_CARD_ID_SLOT (f : Nat) : Fld := ⟨8 * (0x10000 + 0x4000 * f) + 16, 4, f⟩

/-! FC_CARD_STAT: 03_field_inputs.md, register table, 32 bits. -/

/-- RO, 1 bit, bit 0. Card seated -/
def FC_CARD_STAT_PRESENT (f : Nat) : Fld := ⟨8 * (0x10004 + 0x4000 * f) + 0, 1, 0⟩
/-- RO, 1 bit, bit 1. Card domain on -/
def FC_CARD_STAT_POWERED (f : Nat) : Fld := ⟨8 * (0x10004 + 0x4000 * f) + 1, 1, 0⟩
/-- RO, 1 bit, bit 2. Card running its active configuration -/
def FC_CARD_STAT_IN_SERVICE (f : Nat) : Fld := ⟨8 * (0x10004 + 0x4000 * f) + 2, 1, 0⟩
/-- W1C, 1 bit, bit 8. A commit was rejected under R58 -/
def FC_CARD_STAT_CFG_REJECT (f : Nat) : Fld := ⟨8 * (0x10004 + 0x4000 * f) + 8, 1, 0⟩
/-- W1C, 1 bit, bit 9. A commit took effect -/
def FC_CARD_STAT_CFG_APPLIED (f : Nat) : Fld := ⟨8 * (0x10004 + 0x4000 * f) + 9, 1, 0⟩
/-- RO, 2 bit, bit 10. Variant of the last card in service in the slot, coded as FC_CARD_ID.VARIANT; 0 none known; used by code 4 of R59 -/
def FC_CARD_STAT_LAST_VARIANT (f : Nat) : Fld := ⟨8 * (0x10004 + 0x4000 * f) + 10, 2, 0⟩

/-! FC_APPLY: 03_field_inputs.md, register table, 32 bits. -/

/-- W1S, 1 bit, bit 0. Validate and commit the shadow under R58 -/
def FC_APPLY_APPLY (f : Nat) : Fld := ⟨8 * (0x10008 + 0x4000 * f) + 0, 1, 0⟩
/-- W1S, 1 bit, bit 1. Copy the active configuration into the shadow -/
def FC_APPLY_REVERT (f : Nat) : Fld := ⟨8 * (0x10008 + 0x4000 * f) + 1, 1, 0⟩

/-! FC_CFG_STAT: 03_field_inputs.md, register table, 32 bits. -/

/-- RO, 1 bit, bit 0. Shadow differs from active -/
def FC_CFG_STAT_PENDING (f : Nat) : Fld := ⟨8 * (0x1000C + 0x4000 * f) + 0, 1, 0⟩
/-- RO, 1 bit, bit 1. R63 sequence running -/
def FC_CFG_STAT_SWITCHING (f : Nat) : Fld := ⟨8 * (0x1000C + 0x4000 * f) + 1, 1, 0⟩
/-- RO, 1 bit, bit 2. Part of a commit waiting under R61 -/
def FC_CFG_STAT_DEFERRED (f : Nat) : Fld := ⟨8 * (0x1000C + 0x4000 * f) + 2, 1, 0⟩
/-- RO, 1 bit, bit 3. Commit waiting under R60 -/
def FC_CFG_STAT_QUEUED (f : Nat) : Fld := ⟨8 * (0x1000C + 0x4000 * f) + 3, 1, 0⟩
/-- RO, 4 bit, bit 8. Code of the last rejection, as in R59; 0 none -/
def FC_CFG_STAT_REASON (f : Nat) : Fld := ⟨8 * (0x1000C + 0x4000 * f) + 8, 4, 0⟩
/-- RO, 6 bit, bit 16. Index of the offending pin, channel or source -/
def FC_CFG_STAT_ITEM (f : Nat) : Fld := ⟨8 * (0x1000C + 0x4000 * f) + 16, 6, 0⟩
/-- RO, 2 bit, bit 22. 0 pin, 1 channel, 2 source -/
def FC_CFG_STAT_ITEM_KIND (f : Nat) : Fld := ⟨8 * (0x1000C + 0x4000 * f) + 22, 2, 0⟩

/-! FC_BLANK_STAT: 03_field_inputs.md, register table, 64 bits. -/

/-- RO, 8 bit, bit 0. Active blanking lines, in BLANK_SEL bit order -/
def FC_BLANK_STAT_LINES (f : Nat) : Fld := ⟨8 * (0x10010 + 0x4000 * f) + 0, 8, 0⟩
/-- CNT, 32 bit, bit 32. Pack blanking edges applied late under R89; saturating -/
def FC_BLANK_STAT_PACK_LATE (f : Nat) : Fld := ⟨8 * (0x10010 + 0x4000 * f) + 32, 32, 0⟩

/-! FC_CNT: 03_field_inputs.md, register table, 128 bits. -/

/-- CNT, 32 bit, bit 0. Common-mode faults set, all channels -/
def FC_CNT_CM_EVENTS (f : Nat) : Fld := ⟨8 * (0x10020 + 0x4000 * f) + 0, 32, 0⟩
/-- CNT, 32 bit, bit 32. Overrange onsets, all channels -/
def FC_CNT_OR_EVENTS (f : Nat) : Fld := ⟨8 * (0x10020 + 0x4000 * f) + 32, 32, 0⟩
/-- CNT, 32 bit, bit 64. Automatic charge resets, all channels -/
def FC_CNT_QRST_AUTO (f : Nat) : Fld := ⟨8 * (0x10020 + 0x4000 * f) + 64, 32, 0⟩
/-- CNT, 32 bit, bit 96. Commits that took effect -/
def FC_CNT_COMMITS (f : Nat) : Fld := ⟨8 * (0x10020 + 0x4000 * f) + 96, 32, 0⟩

/-! FC_CNT_CLR: 03_field_inputs.md, register table, 32 bits. -/

/-- W1S, 4 bit, bit 0. Bit i clears the i-th counter of FC_CNT, in the order listed -/
def FC_CNT_CLR_CLR (f : Nat) : Fld := ⟨8 * (0x10030 + 0x4000 * f) + 0, 4, 0⟩
/-- W1S, 1 bit, bit 4. Clears FC_QRST_CNT[c] for every channel of the card -/
def FC_CNT_CLR_QRST_ALL (f : Nat) : Fld := ⟨8 * (0x10030 + 0x4000 * f) + 4, 1, 0⟩
/-- W1S, 1 bit, bit 5. Clears FC_BLANK_STAT.PACK_LATE -/
def FC_CNT_CLR_PACK_LATE (f : Nat) : Fld := ⟨8 * (0x10030 + 0x4000 * f) + 5, 1, 0⟩

/-! FC_XPT_ROLE: 03_field_inputs.md, register table, 32 bits. -/

/-- RW, 3 bit, bit 0. Role of pin n, coded as in R62 (staged) -/
def FC_XPT_ROLE_ROLE (f n : Nat) : Fld := ⟨8 * (0x10100 + 0x4000 * f + 4 * n) + 0, 3, 0⟩
/-- RW, 5 bit, bit 3. Converter 0–31 or source 0–7; above 7 for a source fails with REASON 5 (staged) -/
def FC_XPT_ROLE_TARGET (f n : Nat) : Fld := ⟨8 * (0x10100 + 0x4000 * f + 4 * n) + 3, 5, 0⟩
/-- RW, 1 bit, bit 8. SENSE side: 0 high, 1 low (staged) -/
def FC_XPT_ROLE_SIDE (f n : Nat) : Fld := ⟨8 * (0x10100 + 0x4000 * f + 4 * n) + 8, 1, 0⟩
/-- RO, 3 bit, bit 16. Active role -/
def FC_XPT_ROLE_ACT_ROLE (f n : Nat) : Fld := ⟨8 * (0x10100 + 0x4000 * f + 4 * n) + 16, 3, 0⟩
/-- RO, 5 bit, bit 19. Active target -/
def FC_XPT_ROLE_ACT_TARGET (f n : Nat) : Fld := ⟨8 * (0x10100 + 0x4000 * f + 4 * n) + 19, 5, 0⟩
/-- RO, 1 bit, bit 24. Active side -/
def FC_XPT_ROLE_ACT_SIDE (f n : Nat) : Fld := ⟨8 * (0x10100 + 0x4000 * f + 4 * n) + 24, 1, 0⟩

/-! FC_EXC_CFG: 03_field_inputs.md, register table, 256 bits. -/

/-- RW, 3 bit, bit 0. 0 OFF, 1 SINE, 2 DCV, 3 DCI; 4–7 fail with REASON 5 -/
def FC_EXC_CFG_MODE (f x : Nat) : Fld := ⟨8 * (0x10200 + 0x4000 * f + 32 * x) + 0, 3, 0⟩
/-- RW, 1 bit, bit 3. Regulate at the SENSE pins -/
def FC_EXC_CFG_SENSE_EN (f x : Nat) : Fld := ⟨8 * (0x10200 + 0x4000 * f + 32 * x) + 3, 1, 0⟩
/-- RW, 2 bit, bit 4. 0 none, 1 REVERSE, 2 EXCHANGE with source x + 1 (x even); 2 on an odd source, or 3, fails with REASON 5 whatever MODE -/
def FC_EXC_CFG_SWAP (f x : Nat) : Fld := ⟨8 * (0x10200 + 0x4000 * f + 32 * x) + 4, 2, 0⟩
/-- RW, 4 bit, bit 6. m: half-period of 2^m beats, 2 to 12; checked whatever SWAP -/
def FC_EXC_CFG_SWAP_HALF (f x : Nat) : Fld := ⟨8 * (0x10200 + 0x4000 * f + 32 * x) + 6, 4, 4⟩
/-- RW, 4 bit, bit 10. Beats left out after each swap; 2^SWAP_HALF or more fails with REASON 5, checked whatever SWAP -/
def FC_EXC_CFG_SWAP_SETTLE (f x : Nat) : Fld := ⟨8 * (0x10200 + 0x4000 * f + 32 * x) + 10, 4, 2⟩
/-- RW, 32 bit, bit 32. Signed; unit and range per mode, as in R72 -/
def FC_EXC_CFG_LEVEL (f x : Nat) : Fld := ⟨8 * (0x10200 + 0x4000 * f + 32 * x) + 32, 32, 0⟩
/-- RW, 48 bit, bit 64. Phase increment per MCLK, 2^−48 turn; 1 Hz to 20 kHz in SINE -/
def FC_EXC_CFG_FREQ (f x : Nat) : Fld := ⟨8 * (0x10200 + 0x4000 * f + 32 * x) + 64, 48, 0⟩
/-- RW, 16 bit, bit 128. Phase offset, Q0.16 turn -/
def FC_EXC_CFG_PHASE (f x : Nat) : Fld := ⟨8 * (0x10200 + 0x4000 * f + 32 * x) + 128, 16, 0⟩
/-- RW, 16 bit, bit 144. Current limit in µA peak, SINE and DCV; below 1,000 acts as 1,000, above 40,000 as 40,000 -/
def FC_EXC_CFG_ILIM (f x : Nat) : Fld := ⟨8 * (0x10200 + 0x4000 * f + 32 * x) + 144, 16, 40000⟩

/-! FC_EXC_STAT: 03_field_inputs.md, register table, 32 bits. -/

/-- RO, 1 bit, bit 0. Source output enabled -/
def FC_EXC_STAT_ACTIVE (f x : Nat) : Fld := ⟨8 * (0x10300 + 0x4000 * f + 4 * x) + 0, 1, 0⟩
/-- RO, 1 bit, bit 1. At ILIM or compliance now -/
def FC_EXC_STAT_LIMITING (f x : Nat) : Fld := ⟨8 * (0x10300 + 0x4000 * f + 4 * x) + 1, 1, 0⟩
/-- RO, 1 bit, bit 2. 0 first half or phase A, 1 second half or phase B -/
def FC_EXC_STAT_SWAP_PHASE (f x : Nat) : Fld := ⟨8 * (0x10300 + 0x4000 * f + 4 * x) + 2, 1, 0⟩
/-- RO, 1 bit, bit 3. Regulating at the pins after a sense fault -/
def FC_EXC_STAT_SENSE_LOCAL (f x : Nat) : Fld := ⟨8 * (0x10300 + 0x4000 * f + 4 * x) + 3, 1, 0⟩
/-- RO, 1 bit, bit 4. Thermal shutdown under R77 -/
def FC_EXC_STAT_SHUTDOWN (f x : Nat) : Fld := ⟨8 * (0x10300 + 0x4000 * f + 4 * x) + 4, 1, 0⟩
/-- W1C, 1 bit, bit 8. Current limit reached -/
def FC_EXC_STAT_ILIM (f x : Nat) : Fld := ⟨8 * (0x10300 + 0x4000 * f + 4 * x) + 8, 1, 0⟩
/-- W1C, 1 bit, bit 9. DCI compliance reached -/
def FC_EXC_STAT_COMPLIANCE (f x : Nat) : Fld := ⟨8 * (0x10300 + 0x4000 * f + 4 * x) + 9, 1, 0⟩
/-- W1C, 1 bit, bit 10. Under R76 -/
def FC_EXC_STAT_SENSE_FAULT (f x : Nat) : Fld := ⟨8 * (0x10300 + 0x4000 * f + 4 * x) + 10, 1, 0⟩
/-- W1C, 1 bit, bit 11. Under R77 -/
def FC_EXC_STAT_THERMAL (f x : Nat) : Fld := ⟨8 * (0x10300 + 0x4000 * f + 4 * x) + 11, 1, 0⟩

/-! FC_CH_CFG: 03_field_inputs.md, register table, 256 bits. -/

/-- RW, 1 bit, bit 0. 0 instrumentation, 1 charge; resets to the fitted stage -/
def FC_CH_CFG_STAGE (f c : Nat) : Fld := ⟨8 * (0x10400 + 0x4000 * f + 32 * c) + 0, 1, 0⟩
/-- RW, 2 bit, bit 1. 0 ×1, 1 ×10, 2 ×100, 3 ×1,000 -/
def FC_CH_CFG_GAIN (f c : Nat) : Fld := ⟨8 * (0x10400 + 0x4000 * f + 32 * c) + 1, 2, 0⟩
/-- RW, 2 bit, bit 3. 0 10 pC, 1 100 pC, 2 1,000 pC; 3 fails with REASON 5 -/
def FC_CH_CFG_QRANGE (f c : Nat) : Fld := ⟨8 * (0x10400 + 0x4000 * f + 32 * c) + 3, 2, 2⟩
/-- RW, 2 bit, bit 5. 0 none, 1 100 GΩ, 2 10 GΩ, 3 1 GΩ -/
def FC_CH_CFG_BLEED (f c : Nat) : Fld := ⟨8 * (0x10400 + 0x4000 * f + 32 * c) + 5, 2, 2⟩
/-- RW, 1 bit, bit 7. Automatic reset at 90 % of QRANGE -/
def FC_CH_CFG_AUTO_RST (f c : Nat) : Fld := ⟨8 * (0x10400 + 0x4000 * f + 32 * c) + 7, 1, 1⟩
/-- RW, 1 bit, bit 8. Carry term under R71 -/
def FC_CH_CFG_CARRY (f c : Nat) : Fld := ⟨8 * (0x10400 + 0x4000 * f + 32 * c) + 8, 1, 0⟩
/-- RW, 1 bit, bit 9. Open-wire current under R94 -/
def FC_CH_CFG_OWD (f c : Nat) : Fld := ⟨8 * (0x10400 + 0x4000 * f + 32 * c) + 9, 1, 0⟩
/-- RW, 1 bit, bit 10. Synchronous demodulation on -/
def FC_CH_CFG_DEMOD (f c : Nat) : Fld := ⟨8 * (0x10400 + 0x4000 * f + 32 * c) + 10, 1, 0⟩
/-- RW, 3 bit, bit 11. Reference source -/
def FC_CH_CFG_DEMOD_SRC (f c : Nat) : Fld := ⟨8 * (0x10400 + 0x4000 * f + 32 * c) + 11, 3, 0⟩
/-- RW, 2 bit, bit 14. 0 none, 1 sensed voltage, 2 measured current; 3 fails with REASON 5 -/
def FC_CH_CFG_RATIO (f c : Nat) : Fld := ⟨8 * (0x10400 + 0x4000 * f + 32 * c) + 14, 2, 0⟩
/-- RW, 3 bit, bit 16. Ratio source -/
def FC_CH_CFG_RATIO_SRC (f c : Nat) : Fld := ⟨8 * (0x10400 + 0x4000 * f + 32 * c) + 16, 3, 0⟩
/-- RW, 2 bit, bit 19. 0 none, 1 four-wire, 2 three-wire; 3 fails with REASON 5 -/
def FC_CH_CFG_LEAD (f c : Nat) : Fld := ⟨8 * (0x10400 + 0x4000 * f + 32 * c) + 19, 2, 0⟩
/-- RW, 3 bit, bit 21. Source, or the even source of the pair -/
def FC_CH_CFG_LEAD_SRC (f c : Nat) : Fld := ⟨8 * (0x10400 + 0x4000 * f + 32 * c) + 21, 3, 0⟩
/-- RW, 8 bit, bit 24. Blanking lines, in the bit order of R86 -/
def FC_CH_CFG_BLANK_SEL (f c : Nat) : Fld := ⟨8 * (0x10400 + 0x4000 * f + 32 * c) + 24, 8, 0⟩
/-- RW, 16 bit, bit 32. φref, Q0.16 turn -/
def FC_CH_CFG_DEMOD_PHASE (f c : Nat) : Fld := ⟨8 * (0x10400 + 0x4000 * f + 32 * c) + 32, 16, 0⟩
/-- RW, 16 bit, bit 64. Window low edge, signed mV, −12,000 to 12,000 -/
def FC_CH_CFG_CM_LO (f c : Nat) : Fld := ⟨8 * (0x10400 + 0x4000 * f + 32 * c) + 64, 16, 55036⟩
/-- RW, 16 bit, bit 80. Window high edge, signed mV, −12,000 to 12,000 -/
def FC_CH_CFG_CM_HI (f c : Nat) : Fld := ⟨8 * (0x10400 + 0x4000 * f + 32 * c) + 80, 16, 10500⟩

/-! FC_CH_STAT: 03_field_inputs.md, register table, 32 bits. -/

/-- RO, 1 bit, bit 0. Common-mode fault present -/
def FC_CH_STAT_CM_FAULT (f c : Nat) : Fld := ⟨8 * (0x10800 + 0x4000 * f + 4 * c) + 0, 1, 0⟩
/-- RO, 3 bit, bit 1. Class as in R93; 0 none -/
def FC_CH_STAT_CM_CLASS (f c : Nat) : Fld := ⟨8 * (0x10800 + 0x4000 * f + 4 * c) + 1, 3, 0⟩
/-- RO, 1 bit, bit 4. Overrange now -/
def FC_CH_STAT_OVERRANGE (f c : Nat) : Fld := ⟨8 * (0x10800 + 0x4000 * f + 4 * c) + 4, 1, 0⟩
/-- RO, 1 bit, bit 5. Reset hold running -/
def FC_CH_STAT_QRST_BUSY (f c : Nat) : Fld := ⟨8 * (0x10800 + 0x4000 * f + 4 * c) + 5, 1, 0⟩
/-- RO, 1 bit, bit 6. Settling span running, counted in L of the longest filter instance in use on the channel under R98, or in the 42 beats of the wideband filter at k = 0 when none is in use -/
def FC_CH_STAT_SETTLING (f c : Nat) : Fld := ⟨8 * (0x10800 + 0x4000 * f + 4 * c) + 6, 1, 0⟩
/-- RO, 1 bit, bit 7. Decimator input held -/
def FC_CH_STAT_BLANKED (f c : Nat) : Fld := ⟨8 * (0x10800 + 0x4000 * f + 4 * c) + 7, 1, 0⟩
/-- W1C, 1 bit, bit 8. A common-mode fault occurred -/
def FC_CH_STAT_CM_SEEN (f c : Nat) : Fld := ⟨8 * (0x10800 + 0x4000 * f + 4 * c) + 8, 1, 0⟩
/-- W1C, 1 bit, bit 9. An overrange occurred -/
def FC_CH_STAT_OR_SEEN (f c : Nat) : Fld := ⟨8 * (0x10800 + 0x4000 * f + 4 * c) + 9, 1, 0⟩
/-- RO, 1 bit, bit 10. A change to this channel waits under R61 -/
def FC_CH_STAT_DEFERRED (f c : Nat) : Fld := ⟨8 * (0x10800 + 0x4000 * f + 4 * c) + 10, 1, 0⟩
/-- RO, 1 bit, bit 11. Spare carries this channel's output -/
def FC_CH_STAT_SUBST (f c : Nat) : Fld := ⟨8 * (0x10800 + 0x4000 * f + 4 * c) + 11, 1, 0⟩

/-! FC_CH_CTRL: 03_field_inputs.md, register table, 32 bits. -/

/-- W1S, 1 bit, bit 0. Charge reset under R69; ignored for an instrumentation stage -/
def FC_CH_CTRL_QRESET (f c : Nat) : Fld := ⟨8 * (0x10880 + 0x4000 * f + 4 * c) + 0, 1, 0⟩
/-- W1S, 1 bit, bit 1. Clear the carry term -/
def FC_CH_CTRL_CARRY_CLR (f c : Nat) : Fld := ⟨8 * (0x10880 + 0x4000 * f + 4 * c) + 1, 1, 0⟩

/-! FC_QRST_CNT: 03_field_inputs.md, register table, 32 bits. -/

/-- CNT, 32 bit, bit 0. Resets of channel c, all causes; saturating; cleared by FC_CNT_CLR.QRST_ALL -/
def FC_QRST_CNT_COUNT (f c : Nat) : Fld := ⟨8 * (0x10900 + 0x4000 * f + 4 * c) + 0, 32, 0⟩

/-! FC_CM_VAL: 03_field_inputs.md, register table, 32 bits. -/

/-- RO, 16 bit, bit 0. POS pin mean over the last beat, signed mV, saturating at ±12,000 -/
def FC_CM_VAL_POS_MV (f c : Nat) : Fld := ⟨8 * (0x10980 + 0x4000 * f + 4 * c) + 0, 16, 0⟩
/-- RO, 16 bit, bit 16. NEG pin mean over the last beat, signed mV, saturating at ±12,000 -/
def FC_CM_VAL_NEG_MV (f c : Nat) : Fld := ⟨8 * (0x10980 + 0x4000 * f + 4 * c) + 16, 16, 0⟩

/-! FC_SPARE_CTRL: 04_in_phase_conversion.md, register table, 32 bits. -/

/-- RW, 1 bit, bit 0. Rotation enabled under R121 -/
def FC_SPARE_CTRL_EN (f : Nat) : Fld := ⟨8 * (0x10040 + 0x4000 * f) + 0, 1, 1⟩
/-- RW, 4 bit, bit 8. Compared blocks per verification under R108; 0 acts as 1 -/
def FC_SPARE_CTRL_VERIFY (f : Nat) : Fld := ⟨8 * (0x10040 + 0x4000 * f) + 8, 4, 8⟩
/-- RW, 4 bit, bit 12. Calibration phase of 2^CAL_LEN beats; below 10 acts as 10, 15 is the largest -/
def FC_SPARE_CTRL_CAL_LEN (f : Nat) : Fld := ⟨8 * (0x10040 + 0x4000 * f) + 12, 4, 14⟩
/-- RW, 8 bit, bit 16. Card cycle in s; below 8 acts as 8 -/
def FC_SPARE_CTRL_CYCLE (f : Nat) : Fld := ⟨8 * (0x10040 + 0x4000 * f) + 16, 8, 64⟩
/-- W1S, 1 bit, bit 24. Start a turn on FORCE_CH at the next beat boundary once the running turn ends; ignored for a channel not in rotation -/
def FC_SPARE_CTRL_FORCE (f : Nat) : Fld := ⟨8 * (0x10040 + 0x4000 * f) + 24, 1, 0⟩
/-- RW, 5 bit, bit 25. Channel for FORCE and RESTORE -/
def FC_SPARE_CTRL_FORCE_CH (f : Nat) : Fld := ⟨8 * (0x10040 + 0x4000 * f) + 25, 5, 0⟩
/-- W1S, 1 bit, bit 30. Retry a masked channel under R116 -/
def FC_SPARE_CTRL_RESTORE (f : Nat) : Fld := ⟨8 * (0x10040 + 0x4000 * f) + 30, 1, 0⟩

/-! FC_SPARE_EXCL: 04_in_phase_conversion.md, register table, 32 bits. -/

/-- RW, 32 bit, bit 0. Bit c excludes channel c from rotation; emergency substitution under R118 still applies -/
def FC_SPARE_EXCL_EXCL (f : Nat) : Fld := ⟨8 * (0x10044 + 0x4000 * f) + 0, 32, 0⟩

/-! FC_SPARE_TOL: 04_in_phase_conversion.md, register table, 128 bits. -/

/-- RW, 16 bit, bit 0. ABS for gains ×1 and ×10, ppm of full scale -/
def FC_SPARE_TOL_ABS_G1 (f : Nat) : Fld := ⟨8 * (0x10048 + 0x4000 * f) + 0, 16, 20⟩
/-- RW, 16 bit, bit 16. ABS for gain ×100, ppm of full scale -/
def FC_SPARE_TOL_ABS_G100 (f : Nat) : Fld := ⟨8 * (0x10048 + 0x4000 * f) + 16, 16, 40⟩
/-- RW, 16 bit, bit 32. ABS for gain ×1,000, ppm of full scale -/
def FC_SPARE_TOL_ABS_G1000 (f : Nat) : Fld := ⟨8 * (0x10048 + 0x4000 * f) + 32, 16, 100⟩
/-- RW, 16 bit, bit 48. ABS for charge stages, ppm of converter full scale -/
def FC_SPARE_TOL_ABS_Q (f : Nat) : Fld := ⟨8 * (0x10048 + 0x4000 * f) + 48, 16, 30⟩
/-- RW, 16 bit, bit 64. REL, ppm -/
def FC_SPARE_TOL_REL (f : Nat) : Fld := ⟨8 * (0x10048 + 0x4000 * f) + 64, 16, 30⟩
/-- RW, 16 bit, bit 80. Largest accepted gain change between calibrations, ppm; 0 acts as 1 -/
def FC_SPARE_TOL_CAL_STEP (f : Nat) : Fld := ⟨8 * (0x10048 + 0x4000 * f) + 80, 16, 20⟩

/-! FC_SPARE_STAT: 04_in_phase_conversion.md, register table, 32 bits. -/

/-- RO, 4 bit, bit 0. 0 IDLE, 1 SELF, 2 FWD_VERIFY, 3 SUBST_CAL, 4 RET_VERIFY, 5 WAIT_BUDGET, 6 PARKED, 7 OUT, 8 PAUSED, 9 SPARE_CHECK; 10–15 not used -/
def FC_SPARE_STAT_PHASE (f : Nat) : Fld := ⟨8 * (0x10058 + 0x4000 * f) + 0, 4, 0⟩
/-- RO, 5 bit, bit 4. Channel of the running turn -/
def FC_SPARE_STAT_CH (f : Nat) : Fld := ⟨8 * (0x10058 + 0x4000 * f) + 4, 5, 0⟩
/-- RO, 5 bit, bit 9. Masked channel when PHASE is PARKED -/
def FC_SPARE_STAT_PARKED_CH (f : Nat) : Fld := ⟨8 * (0x10058 + 0x4000 * f) + 9, 5, 0⟩
/-- RO, 1 bit, bit 14. References disagree under R117 -/
def FC_SPARE_STAT_REF_DRIFT (f : Nat) : Fld := ⟨8 * (0x10058 + 0x4000 * f) + 14, 1, 0⟩
/-- RO, 6 bit, bit 16. Turns ended in the current cycle -/
def FC_SPARE_STAT_TURNS (f : Nat) : Fld := ⟨8 * (0x10058 + 0x4000 * f) + 16, 6, 0⟩

/-! FC_SPARE_CNT: 04_in_phase_conversion.md, register table, 128 bits. -/

/-- CNT, 32 bit, bit 0. Turns completed -/
def FC_SPARE_CNT_TURNS (f : Nat) : Fld := ⟨8 * (0x10060 + 0x4000 * f) + 0, 32, 0⟩
/-- CNT, 32 bit, bit 32. Forward verifications failed -/
def FC_SPARE_CNT_FWD_FAIL (f : Nat) : Fld := ⟨8 * (0x10060 + 0x4000 * f) + 32, 32, 0⟩
/-- CNT, 32 bit, bit 64. Return verifications failed -/
def FC_SPARE_CNT_RET_FAIL (f : Nat) : Fld := ⟨8 * (0x10060 + 0x4000 * f) + 64, 32, 0⟩
/-- CNT, 32 bit, bit 96. Turns abandoned under R109 -/
def FC_SPARE_CNT_SKIPPED (f : Nat) : Fld := ⟨8 * (0x10060 + 0x4000 * f) + 96, 32, 0⟩

/-! FC_SPARE_CNT_CLR: 04_in_phase_conversion.md, register table, 32 bits. -/

/-- W1S, 4 bit, bit 0. Bit i clears the i-th counter of FC_SPARE_CNT, in the order listed -/
def FC_SPARE_CNT_CLR_CLR (f : Nat) : Fld := ⟨8 * (0x10070 + 0x4000 * f) + 0, 4, 0⟩

/-! FC_CONV_STAT: 04_in_phase_conversion.md, register table, 32 bits. -/

/-- RO, 3 bit, bit 0. Code of the last failed check under R111; 0 none -/
def FC_CONV_STAT_FAIL_CODE (f c : Nat) : Fld := ⟨8 * (0x10080 + 0x4000 * f + 4 * c) + 0, 3, 0⟩
/-- RO, 1 bit, bit 3. Permanently substituted under R116 -/
def FC_CONV_STAT_MASKED (f c : Nat) : Fld := ⟨8 * (0x10080 + 0x4000 * f + 4 * c) + 3, 1, 0⟩
/-- RO, 1 bit, bit 4. Not in rotation for any reason -/
def FC_CONV_STAT_EXCLUDED (f c : Nat) : Fld := ⟨8 * (0x10080 + 0x4000 * f + 4 * c) + 4, 1, 0⟩
/-- RO, 16 bit, bit 16. Hours since the last accepted calibration, saturating at 65,535; restored from the kennel at start -/
def FC_CONV_STAT_AGE (f c : Nat) : Fld := ⟨8 * (0x10080 + 0x4000 * f + 4 * c) + 16, 16, 0⟩

/-! MT_CARD_ID: 05_metrology_channels.md, register table, 32 bits. -/

/-- RO, 8 bit, bit 0. 0x01 JAM-32; 0x00 no card -/
def MT_CARD_ID_VARIANT : Fld := ⟨8 * (0x68000) + 0, 8, 0⟩
/-- RO, 8 bit, bit 8. Card hardware revision -/
def MT_CARD_ID_HWREV : Fld := ⟨8 * (0x68000) + 8, 8, 0⟩

/-! MT_CARD_STAT: 05_metrology_channels.md, register table, 32 bits. -/

/-- RO, 1 bit, bit 0. Card seated -/
def MT_CARD_STAT_PRESENT : Fld := ⟨8 * (0x68004) + 0, 1, 0⟩
/-- RO, 1 bit, bit 1. PD20 on -/
def MT_CARD_STAT_POWERED : Fld := ⟨8 * (0x68004) + 1, 1, 0⟩
/-- RO, 1 bit, bit 2. Card scanning or ready to scan -/
def MT_CARD_STAT_IN_SERVICE : Fld := ⟨8 * (0x68004) + 2, 1, 0⟩
/-- W1C, 1 bit, bit 8. A check slot failed under R133 -/
def MT_CARD_STAT_CHECK_FAIL : Fld := ⟨8 * (0x68004) + 8, 1, 0⟩

/-! MT_SCAN_MASK: 05_metrology_channels.md, register table, 32 bits. -/

/-- RW, 32 bit, bit 0. Bit c enables MCc in the scan under R129 and R130 -/
def MT_SCAN_MASK_MASK : Fld := ⟨8 * (0x68010) + 0, 32, 0⟩

/-! MT_SCAN_STAT: 05_metrology_channels.md, register table, 64 bits. -/

/-- RO, 5 bit, bit 0. Channel converting now -/
def MT_SCAN_STAT_CH : Fld := ⟨8 * (0x68018) + 0, 5, 0⟩
/-- RO, 3 bit, bit 5. 0 IDLE, 1 SETTLE, 2 CONVERT, 3 CHECK, 4 URGENT; 5–7 not used -/
def MT_SCAN_STAT_PHASE : Fld := ⟨8 * (0x68018) + 5, 3, 0⟩
/-- RO, 4 bit, bit 8. Urgent reads queued, 0 to 8 -/
def MT_SCAN_STAT_URGENT_PENDING : Fld := ⟨8 * (0x68018) + 8, 4, 0⟩
/-- RO, 32 bit, bit 32. Scan period in beats, without check slots, saturating -/
def MT_SCAN_STAT_PERIOD : Fld := ⟨8 * (0x68018) + 32, 32, 0⟩

/-! MT_CAL_CFG: 05_metrology_channels.md, register table, 32 bits. -/

/-- RW, 8 bit, bit 0. Scans per check slot under R133; 0 disables check slots -/
def MT_CAL_CFG_EVERY : Fld := ⟨8 * (0x68020) + 0, 8, 64⟩

/-! MT_CNT: 05_metrology_channels.md, register table, 128 bits. -/

/-- CNT, 32 bit, bit 0. Overrange onsets under R134, all channels -/
def MT_CNT_OR_EVENTS : Fld := ⟨8 * (0x68030) + 0, 32, 0⟩
/-- CNT, 32 bit, bit 32. Open onsets under R134, all channels -/
def MT_CNT_OPEN_EVENTS : Fld := ⟨8 * (0x68030) + 32, 32, 0⟩
/-- CNT, 32 bit, bit 64. Urgent conversions under R137 -/
def MT_CNT_URGENT : Fld := ⟨8 * (0x68030) + 64, 32, 0⟩
/-- CNT, 32 bit, bit 96. Check slots skipped under R133 -/
def MT_CNT_CHECK_SKIPPED : Fld := ⟨8 * (0x68030) + 96, 32, 0⟩

/-! MT_CNT_CLR: 05_metrology_channels.md, register table, 32 bits. -/

/-- W1S, 4 bit, bit 0. Bit i clears the i-th counter of MT_CNT, in the order listed -/
def MT_CNT_CLR_CLR : Fld := ⟨8 * (0x68040) + 0, 4, 0⟩

/-! MT_CH_CFG: 05_metrology_channels.md, register table, 64 bits. -/

/-- RW, 1 bit, bit 0. 0 VOLT, 1 RES4 -/
def MT_CH_CFG_MODE (c : Nat) : Fld := ⟨8 * (0x68100 + 8 * c) + 0, 1, 0⟩
/-- RW, 1 bit, bit 1. 0 ±125 mV, 1 ±2.5 V -/
def MT_CH_CFG_RANGE (c : Nat) : Fld := ⟨8 * (0x68100 + 8 * c) + 1, 1, 1⟩
/-- RW, 3 bit, bit 2. j: CONV = 20 ms × 2^j; 7 acts as 6 -/
def MT_CH_CFG_CONV (c : Nat) : Fld := ⟨8 * (0x68100 + 8 * c) + 2, 3, 0⟩
/-- RW, 2 bit, bit 5. 0 1 µA, 1 10 µA, 2 100 µA, 3 1 mA -/
def MT_CH_CFG_CUR (c : Nat) : Fld := ⟨8 * (0x68100 + 8 * c) + 5, 2, 0⟩
/-- RW, 2 bit, bit 7. 0 100 Ω, 1 1 kΩ, 2 10 kΩ, 3 100 kΩ -/
def MT_CH_CFG_REF (c : Nat) : Fld := ⟨8 * (0x68100 + 8 * c) + 7, 2, 0⟩
/-- RW, 10 bit, bit 16. Settling delay in ms; 0 acts as 1; above 1,000 acts as 1,000 -/
def MT_CH_CFG_SETTLE (c : Nat) : Fld := ⟨8 * (0x68100 + 8 * c) + 16, 10, 10⟩

/-! MT_CH_STAT: 05_metrology_channels.md, register table, 32 bits. -/

/-- RO, 1 bit, bit 0. Last result carried OVERRANGE -/
def MT_CH_STAT_OVERRANGE (c : Nat) : Fld := ⟨8 * (0x68200 + 4 * c) + 0, 1, 0⟩
/-- RO, 1 bit, bit 1. Compliance reached under R134 -/
def MT_CH_STAT_OPEN (c : Nat) : Fld := ⟨8 * (0x68200 + 4 * c) + 1, 1, 0⟩
/-- RO, 1 bit, bit 2. Last result carried CM_FAULT -/
def MT_CH_STAT_CM_FAULT (c : Nat) : Fld := ⟨8 * (0x68200 + 4 * c) + 2, 1, 0⟩
/-- RO, 1 bit, bit 3. Setting refused under R128; channel passed over -/
def MT_CH_STAT_CFG_BAD (c : Nat) : Fld := ⟨8 * (0x68200 + 4 * c) + 3, 1, 0⟩
/-- W1C, 1 bit, bit 8. An overrange occurred -/
def MT_CH_STAT_OR_SEEN (c : Nat) : Fld := ⟨8 * (0x68200 + 4 * c) + 8, 1, 0⟩
/-- W1C, 1 bit, bit 9. An open occurred -/
def MT_CH_STAT_OPEN_SEEN (c : Nat) : Fld := ⟨8 * (0x68200 + 4 * c) + 9, 1, 0⟩

/-! MT_LAST: 05_metrology_channels.md, register table, 256 bits. -/

/-- RO, 64 bit, bit 0. Last result, scan or urgent; signed, LSB 2^−40 V or Ω -/
def MT_LAST_VALUE (c : Nat) : Fld := ⟨8 * (0x68400 + 32 * c) + 0, 64, 0⟩
/-- RO, 64 bit, bit 64. Beat number of its stamp -/
def MT_LAST_BN (c : Nat) : Fld := ⟨8 * (0x68400 + 32 * c) + 64, 64, 0⟩
/-- RO, 8 bit, bit 128. Its sample flags -/
def MT_LAST_FLAGS (c : Nat) : Fld := ⟨8 * (0x68400 + 32 * c) + 128, 8, 0⟩

/-! RD_STAT: 06_reduction_and_streams.md, register table, 32 bits. -/

/-- RO, 11 bit, bit 0. Streams open or pending, 0 to 1,024 -/
def RD_STAT_OPEN : Fld := ⟨8 * (0xD000) + 0, 11, 0⟩
/-- RO, 7 bit, bit 16. Committed load under R143, percent of capacity -/
def RD_STAT_LOAD_PCT : Fld := ⟨8 * (0xD000) + 16, 7, 0⟩

/-! RD_SEL: 06_reduction_and_streams.md, register table, 32 bits. -/

/-- RW, 10 bit, bit 0. Stream shown in RD_VIEW, and target of RD_CNT_CLR.LOST -/
def RD_SEL_STREAM : Fld := ⟨8 * (0xD010) + 0, 10, 0⟩

/-! RD_CURVE_SEL: 06_reduction_and_streams.md, register table, 32 bits. -/

/-- RW, 7 bit, bit 0. User curve 32 to 127; below 32 acts as 32 -/
def RD_CURVE_SEL_CURVE : Fld := ⟨8 * (0xD020) + 0, 7, 32⟩
/-- RW, 10 bit, bit 16. Entry count under R148 -/
def RD_CURVE_SEL_N : Fld := ⟨8 * (0xD020) + 16, 10, 0⟩

/-! RD_CURVE_ADDR: 06_reduction_and_streams.md, register table, 32 bits. -/

/-- RWH, 10 bit, bit 3. Byte offset in the staging copy; hardware adds 8 at each access to the upper word of RD_CURVE_DATA, and once at each 8-byte access, under R148, and wraps at 8,192 -/
def RD_CURVE_ADDR_ADDR : Fld := ⟨8 * (0xD024) + 3, 10, 0⟩

/-! RD_CURVE_DATA: 06_reduction_and_streams.md, register table, 64 bits. -/

/-- RW, 64 bit, bit 0. Binary64 at ADDR of the staging copy; an access to the upper word, or an 8-byte access, advances ADDR under R148; an access to the lower word alone does not -/
def RD_CURVE_DATA_DATA : Fld := ⟨8 * (0xD028) + 0, 64, 0⟩

/-! RD_CURVE_CTRL: 06_reduction_and_streams.md, register table, 32 bits. -/

/-- W1S, 1 bit, bit 0. Validate and activate the staging copy under R149 -/
def RD_CURVE_CTRL_ACTIVATE : Fld := ⟨8 * (0xD030) + 0, 1, 0⟩
/-- W1S, 1 bit, bit 1. Remove the active copy under R149 -/
def RD_CURVE_CTRL_DELETE : Fld := ⟨8 * (0xD030) + 1, 1, 0⟩
/-- W1S, 1 bit, bit 2. Copy the active copy into the staging copy; zeros when there is no active copy -/
def RD_CURVE_CTRL_REVERT : Fld := ⟨8 * (0xD030) + 2, 1, 0⟩

/-! RD_CURVE_STAT: 06_reduction_and_streams.md, register table, 32 bits. -/

/-- RO, 1 bit, bit 0. The selected curve has an active copy -/
def RD_CURVE_STAT_ACTIVE : Fld := ⟨8 * (0xD034) + 0, 1, 0⟩
/-- RO, 1 bit, bit 1. An open stream names the selected curve -/
def RD_CURVE_STAT_IN_USE : Fld := ⟨8 * (0xD034) + 1, 1, 0⟩
/-- RO, 3 bit, bit 4. Code of the last rejection under R149; 0 none -/
def RD_CURVE_STAT_REASON : Fld := ⟨8 * (0xD034) + 4, 3, 0⟩
/-- W1C, 1 bit, bit 8. An ACTIVATE or DELETE was refused -/
def RD_CURVE_STAT_REJECT : Fld := ⟨8 * (0xD034) + 8, 1, 0⟩
/-- W1C, 1 bit, bit 9. An activation took effect -/
def RD_CURVE_STAT_DONE : Fld := ⟨8 * (0xD034) + 9, 1, 0⟩

/-! RD_CNT: 06_reduction_and_streams.md, register table, 128 bits. -/

/-- CNT, 32 bit, bit 0. Gap runs emitted under R167, all streams -/
def RD_CNT_GAP_RUNS : Fld := ⟨8 * (0xD040) + 0, 32, 0⟩
/-- CNT, 32 bit, bit 32. Capture triggers ignored under R157 -/
def RD_CNT_CAPT_IGNORED : Fld := ⟨8 * (0xD040) + 32, 32, 0⟩
/-- CNT, 32 bit, bit 64. Domain clamping onsets under R147 -/
def RD_CNT_CURVE_DOMAIN : Fld := ⟨8 * (0xD040) + 64, 32, 0⟩
/-- CNT, 32 bit, bit 96. Cold-junction losses under R145 -/
def RD_CNT_CJ_INVALID : Fld := ⟨8 * (0xD040) + 96, 32, 0⟩

/-! RD_CNT_CLR: 06_reduction_and_streams.md, register table, 32 bits. -/

/-- W1S, 4 bit, bit 0. Bit i clears the i-th counter of RD_CNT, in the order listed -/
def RD_CNT_CLR_CLR : Fld := ⟨8 * (0xD050) + 0, 4, 0⟩
/-- W1S, 1 bit, bit 4. Clears RD_STREAM_STAT[s].LOST of stream RD_SEL.STREAM -/
def RD_CNT_CLR_LOST : Fld := ⟨8 * (0xD050) + 4, 1, 0⟩
/-- W1S, 1 bit, bit 5. Clears LOST of every stream -/
def RD_CNT_CLR_LOST_ALL : Fld := ⟨8 * (0xD050) + 5, 1, 0⟩

/-! RD_VIEW: 06_reduction_and_streams.md, register table, 512 bits. -/

/-- RO, 448 bit, bit 0. The definition of R139 as opened; 0 when closed -/
def RD_VIEW_DEF : Fld := ⟨8 * (0xD100) + 0, 448, 0⟩
/-- RO, 64 bit, bit 448. SEQ of the next slot -/
def RD_VIEW_NEXT_SEQ : Fld := ⟨8 * (0xD100) + 448, 64, 0⟩

/-! RD_STREAM_STAT: 06_reduction_and_streams.md, register table, 64 bits. -/

/-- RO, 3 bit, bit 0. 0 CLOSED, 1 PENDING, 2 OPEN, 3 SOURCE_OUT, 4 CLOSING; 5–7 not used -/
def RD_STREAM_STAT_STATE (s : Nat) : Fld := ⟨8 * (0xE000 + 8 * s) + 0, 3, 0⟩
/-- W1C, 8 bit, bit 8. OR of the flag bytes formed since last cleared, in the bit order of R162 -/
def RD_STREAM_STAT_SEEN (s : Nat) : Fld := ⟨8 * (0xE000 + 8 * s) + 8, 8, 0⟩
/-- CNT, 32 bit, bit 32. Slots lost from the retention store under R167; saturating -/
def RD_STREAM_STAT_LOST (s : Nat) : Fld := ⟨8 * (0xE000 + 8 * s) + 32, 32, 0⟩

/-! AX_CARD_ID: 07_resolver_tracking.md, register table, 32 bits. -/

/-- RO, 8 bit, bit 0. 0x01 JAA-16; 0x00 no card -/
def AX_CARD_ID_VARIANT (k : Nat) : Fld := ⟨8 * (0x50000 + 0x8000 * k) + 0, 8, 0⟩
/-- RO, 8 bit, bit 8. Card hardware revision -/
def AX_CARD_ID_HWREV (k : Nat) : Fld := ⟨8 * (0x50000 + 0x8000 * k) + 8, 8, 0⟩
/-- RO, 1 bit, bit 16. 0 A0, 1 A1 -/
def AX_CARD_ID_SLOT (k : Nat) : Fld := ⟨8 * (0x50000 + 0x8000 * k) + 16, 1, k⟩

/-! AX_CARD_STAT: 07_resolver_tracking.md, register table, 32 bits. -/

/-- RO, 1 bit, bit 0. Card seated -/
def AX_CARD_STAT_PRESENT (k : Nat) : Fld := ⟨8 * (0x50004 + 0x8000 * k) + 0, 1, 0⟩
/-- RO, 1 bit, bit 1. Card domain on -/
def AX_CARD_STAT_POWERED (k : Nat) : Fld := ⟨8 * (0x50004 + 0x8000 * k) + 1, 1, 0⟩
/-- RO, 1 bit, bit 2. Card giving service -/
def AX_CARD_STAT_IN_SERVICE (k : Nat) : Fld := ⟨8 * (0x50004 + 0x8000 * k) + 2, 1, 0⟩

/-! RDC_CFG: 07_resolver_tracking.md, register table, 256 bits. -/

/-- RW, 1 bit, bit 0. Channel enabled -/
def RDC_CFG_EN (c : Nat) : Fld := ⟨8 * (0x51000 + 0x8000 * (c / 16) + 32 * (c % 16)) + 0, 1, 0⟩
/-- RW, 1 bit, bit 1. 0 ±3 V, 1 ±12 V peak -/
def RDC_CFG_RANGE (c : Nat) : Fld := ⟨8 * (0x51000 + 0x8000 * (c / 16) + 32 * (c % 16)) + 1, 1, 1⟩
/-- RW, 1 bit, bit 2. Open-winding current of 20 nA per pin towards +11 V -/
def RDC_CFG_OWD (c : Nat) : Fld := ⟨8 * (0x51000 + 0x8000 * (c / 16) + 32 * (c % 16)) + 2, 1, 0⟩
/-- RW, 1 bit, bit 3. Negate angle, speed and acceleration under R181 -/
def RDC_CFG_INVERT (c : Nat) : Fld := ⟨8 * (0x51000 + 0x8000 * (c / 16) + 32 * (c % 16)) + 3, 1, 0⟩
/-- RW, 1 bit, bit 4. This channel's amplifier on -/
def RDC_CFG_EXC_EN (c : Nat) : Fld := ⟨8 * (0x51000 + 0x8000 * (c / 16) + 32 * (c % 16)) + 4, 1, 0⟩
/-- RW, 4 bit, bit 8. Channel whose amplifier excites this resolver, under R173 -/
def RDC_CFG_EXC_SRC (c : Nat) : Fld := ⟨8 * (0x51000 + 0x8000 * (c / 16) + 32 * (c % 16)) + 8, 4, c % 16⟩
/-- RW, 1 bit, bit 12. Fine channel of a pair under R186 -/
def RDC_CFG_PAIR_EN (c : Nat) : Fld := ⟨8 * (0x51000 + 0x8000 * (c / 16) + 32 * (c % 16)) + 12, 1, 0⟩
/-- RW, 4 bit, bit 16. Coarse channel of the pair -/
def RDC_CFG_COARSE (c : Nat) : Fld := ⟨8 * (0x51000 + 0x8000 * (c / 16) + 32 * (c % 16)) + 16, 4, 0⟩
/-- RW, 8 bit, bit 24. N, 2 to 128; electrical turns per PI turn for REF 2 when unpaired -/
def RDC_CFG_NSPD (c : Nat) : Fld := ⟨8 * (0x51000 + 0x8000 * (c / 16) + 32 * (c % 16)) + 24, 8, 32⟩
/-- RW, 32 bit, bit 32. Excitation, µVrms; above 7,500,000 acts as 7,500,000 -/
def RDC_CFG_LEVEL (c : Nat) : Fld := ⟨8 * (0x51000 + 0x8000 * (c / 16) + 32 * (c % 16)) + 32, 32, 0⟩
/-- RW, 48 bit, bit 64. Phase increment per MCLK, 2^−48 turn; outside 2 to 20 kHz acts as the nearer limit -/
def RDC_CFG_FREQ (c : Nat) : Fld := ⟨8 * (0x51000 + 0x8000 * (c / 16) + 32 * (c % 16)) + 64, 48, 85899345920⟩
/-- RW, 16 bit, bit 112. Excitation phase offset, Q0.16 turn -/
def RDC_CFG_PHASE (c : Nat) : Fld := ⟨8 * (0x51000 + 0x8000 * (c / 16) + 32 * (c % 16)) + 112, 16, 0⟩
/-- RW, 8 bit, bit 128. Current limit, mA peak; outside 10 to 150 acts as the nearer limit -/
def RDC_CFG_ILIM (c : Nat) : Fld := ⟨8 * (0x51000 + 0x8000 * (c / 16) + 32 * (c % 16)) + 128, 8, 100⟩
/-- RW, 16 bit, bit 144. Nominal phase shift of the resolver, Q0.16 turn, under R184 -/
def RDC_CFG_PH0 (c : Nat) : Fld := ⟨8 * (0x51000 + 0x8000 * (c / 16) + 32 * (c % 16)) + 144, 16, 0⟩
/-- RW, 16 bit, bit 160. Phase window, Q0.16 turn; above 0x2000 acts as 0x2000 -/
def RDC_CFG_PH_WIN (c : Nat) : Fld := ⟨8 * (0x51000 + 0x8000 * (c / 16) + 32 * (c % 16)) + 160, 16, 4096⟩
/-- RW, 16 bit, bit 176. Window low edge for AMP, Q1.15 -/
def RDC_CFG_AMP_LO (c : Nat) : Fld := ⟨8 * (0x51000 + 0x8000 * (c / 16) + 32 * (c % 16)) + 176, 16, 1024⟩
/-- RW, 16 bit, bit 192. Window high edge for AMP, Q1.15; below AMP_LO acts as AMP_LO -/
def RDC_CFG_AMP_HI (c : Nat) : Fld := ⟨8 * (0x51000 + 0x8000 * (c / 16) + 32 * (c % 16)) + 192, 16, 32768⟩
/-- RW, 16 bit, bit 208. Pair tolerance, Q0.16 fine turn; above 0x4000 acts as 0x4000 -/
def RDC_CFG_PAIR_TOL (c : Nat) : Fld := ⟨8 * (0x51000 + 0x8000 * (c / 16) + 32 * (c % 16)) + 208, 16, 8192⟩
/-- RW, 32 bit, bit 224. Output zero, Q0.32 turn -/
def RDC_CFG_ZERO (c : Nat) : Fld := ⟨8 * (0x51000 + 0x8000 * (c / 16) + 32 * (c % 16)) + 224, 32, 0⟩

/-! RDC_LOOP: 07_resolver_tracking.md, register table, 128 bits. -/

/-- RW, 12 bit, bit 0. Natural frequency, Hz; below 10 acts as 10; limited under R179 -/
def RDC_LOOP_FN (c : Nat) : Fld := ⟨8 * (0x51200 + 0x8000 * (c / 16) + 16 * (c % 16)) + 0, 12, 100⟩
/-- RW, 16 bit, bit 16. Damping, Q2.14; outside 0.5 to 2.0 acts as the nearer limit -/
def RDC_LOOP_ZETA (c : Nat) : Fld := ⟨8 * (0x51200 + 0x8000 * (c / 16) + 16 * (c % 16)) + 16, 16, 11585⟩
/-- RW, 2 bit, bit 32. Acquisition gear FN × 2^ACQ_GEAR -/
def RDC_LOOP_ACQ_GEAR (c : Nat) : Fld := ⟨8 * (0x51200 + 0x8000 * (c / 16) + 16 * (c % 16)) + 32, 2, 2⟩
/-- RW, 10 bit, bit 48. Acceleration low-pass corner, Hz; outside 10 to 1,000 acts as the nearer limit -/
def RDC_LOOP_ACC_FC (c : Nat) : Fld := ⟨8 * (0x51200 + 0x8000 * (c / 16) + 16 * (c % 16)) + 48, 10, 100⟩
/-- RW, 4 bit, bit 64. Tracking-loss threshold 2^−TRK_ERR turn; below 4 acts as 4, above 12 as 12 -/
def RDC_LOOP_TRK_ERR (c : Nat) : Fld := ⟨8 * (0x51200 + 0x8000 * (c / 16) + 16 * (c % 16)) + 64, 4, 8⟩
/-- RW, 7 bit, bit 72. OVERSPEED threshold, turn/s electrical; 0 acts as 1, above 120 as 120 -/
def RDC_LOOP_SPD_MAX (c : Nat) : Fld := ⟨8 * (0x51200 + 0x8000 * (c / 16) + 16 * (c % 16)) + 72, 7, 100⟩

/-! RDC_STAT: 07_resolver_tracking.md, register table, 128 bits. -/

/-- RO, 3 bit, bit 0. 0 OFF, 1 WAIT, 2 SEED, 3 CLOSING, 4 LOCKED; 5–7 not used -/
def RDC_STAT_STATE (c : Nat) : Fld := ⟨8 * (0x51400 + 0x8000 * (c / 16) + 16 * (c % 16)) + 0, 3, 0⟩
/-- RO, 1 bit, bit 3. Channel's own angle valid -/
def RDC_STAT_VALID (c : Nat) : Fld := ⟨8 * (0x51400 + 0x8000 * (c / 16) + 16 * (c % 16)) + 3, 1, 0⟩
/-- RO, 1 bit, bit 4. Pair resolved and its outputs valid -/
def RDC_STAT_PAIR_VALID (c : Nat) : Fld := ⟨8 * (0x51400 + 0x8000 * (c / 16) + 16 * (c % 16)) + 4, 1, 0⟩
/-- RO, 1 bit, bit 5. A flagging fault that sets OVERRANGE stands -/
def RDC_STAT_OR_NOW (c : Nat) : Fld := ⟨8 * (0x51400 + 0x8000 * (c / 16) + 16 * (c % 16)) + 5, 1, 0⟩
/-- RO, 1 bit, bit 6. CM_FAULT condition stands -/
def RDC_STAT_CM_NOW (c : Nat) : Fld := ⟨8 * (0x51400 + 0x8000 * (c / 16) + 16 * (c % 16)) + 6, 1, 0⟩
/-- RO, 1 bit, bit 7. Learning running -/
def RDC_STAT_LEARNING (c : Nat) : Fld := ⟨8 * (0x51400 + 0x8000 * (c / 16) + 16 * (c % 16)) + 7, 1, 0⟩
/-- RO, 1 bit, bit 8. This channel's amplifier at ILIM -/
def RDC_STAT_EXC_LIMITING (c : Nat) : Fld := ⟨8 * (0x51400 + 0x8000 * (c / 16) + 16 * (c % 16)) + 8, 1, 0⟩
/-- RO, 1 bit, bit 9. This channel's amplifier off under EXC_THERMAL -/
def RDC_STAT_EXC_SHUTDOWN (c : Nat) : Fld := ⟨8 * (0x51400 + 0x8000 * (c / 16) + 16 * (c % 16)) + 9, 1, 0⟩
/-- RO, 2 bit, bit 10. Bit 10 sine winding open, bit 11 cosine winding open -/
def RDC_STAT_OPEN_WIND (c : Nat) : Fld := ⟨8 * (0x51400 + 0x8000 * (c / 16) + 16 * (c % 16)) + 10, 2, 0⟩
/-- RO, 1 bit, bit 12. Setting invalid under R201 -/
def RDC_STAT_CFG_BAD (c : Nat) : Fld := ⟨8 * (0x51400 + 0x8000 * (c / 16) + 16 * (c % 16)) + 12, 1, 0⟩
/-- W1C, 1 bit, bit 16. Under R194 -/
def RDC_STAT_LOS (c : Nat) : Fld := ⟨8 * (0x51400 + 0x8000 * (c / 16) + 16 * (c % 16)) + 16, 1, 0⟩
/-- W1C, 1 bit, bit 17. Under R194 -/
def RDC_STAT_WIRE_OPEN (c : Nat) : Fld := ⟨8 * (0x51400 + 0x8000 * (c / 16) + 16 * (c % 16)) + 17, 1, 0⟩
/-- W1C, 1 bit, bit 18. Under R194 -/
def RDC_STAT_TRACK_LOSS (c : Nat) : Fld := ⟨8 * (0x51400 + 0x8000 * (c / 16) + 16 * (c % 16)) + 18, 1, 0⟩
/-- W1C, 1 bit, bit 19. Under R194 -/
def RDC_STAT_OVERSPEED (c : Nat) : Fld := ⟨8 * (0x51400 + 0x8000 * (c / 16) + 16 * (c % 16)) + 19, 1, 0⟩
/-- W1C, 1 bit, bit 20. Under R184 and R194 -/
def RDC_STAT_PHASE (c : Nat) : Fld := ⟨8 * (0x51400 + 0x8000 * (c / 16) + 16 * (c % 16)) + 20, 1, 0⟩
/-- W1C, 1 bit, bit 21. Under R194 -/
def RDC_STAT_EXC_ILIM (c : Nat) : Fld := ⟨8 * (0x51400 + 0x8000 * (c / 16) + 16 * (c % 16)) + 21, 1, 0⟩
/-- W1C, 1 bit, bit 22. Under R194 -/
def RDC_STAT_EXC_THERMAL (c : Nat) : Fld := ⟨8 * (0x51400 + 0x8000 * (c / 16) + 16 * (c % 16)) + 22, 1, 0⟩
/-- W1C, 1 bit, bit 23. Under R194 -/
def RDC_STAT_CONV_OVL (c : Nat) : Fld := ⟨8 * (0x51400 + 0x8000 * (c / 16) + 16 * (c % 16)) + 23, 1, 0⟩
/-- W1C, 1 bit, bit 24. Under R194 -/
def RDC_STAT_CM_FAULT (c : Nat) : Fld := ⟨8 * (0x51400 + 0x8000 * (c / 16) + 16 * (c % 16)) + 24, 1, 0⟩
/-- W1C, 1 bit, bit 25. Under R188 -/
def RDC_STAT_PAIR_AMBIG (c : Nat) : Fld := ⟨8 * (0x51400 + 0x8000 * (c / 16) + 16 * (c % 16)) + 25, 1, 0⟩
/-- W1C, 1 bit, bit 26. Under R188 -/
def RDC_STAT_PAIR_SLIP (c : Nat) : Fld := ⟨8 * (0x51400 + 0x8000 * (c / 16) + 16 * (c % 16)) + 26, 1, 0⟩
/-- W1C, 1 bit, bit 27. Under R194 and R199 -/
def RDC_STAT_CONV_FAULT (c : Nat) : Fld := ⟨8 * (0x51400 + 0x8000 * (c / 16) + 16 * (c % 16)) + 27, 1, 0⟩
/-- W1C, 1 bit, bit 28. Under R185 -/
def RDC_STAT_ACQ_FAIL (c : Nat) : Fld := ⟨8 * (0x51400 + 0x8000 * (c / 16) + 16 * (c % 16)) + 28, 1, 0⟩
/-- W1C, 1 bit, bit 29. Under R194 -/
def RDC_STAT_AMP_HIGH (c : Nat) : Fld := ⟨8 * (0x51400 + 0x8000 * (c / 16) + 16 * (c % 16)) + 29, 1, 0⟩
/-- RO, 16 bit, bit 32. φc, Q0.16 turn -/
def RDC_STAT_PH_EST (c : Nat) : Fld := ⟨8 * (0x51400 + 0x8000 * (c / 16) + 16 * (c % 16)) + 32, 16, 0⟩
/-- RO, 16 bit, bit 48. Beat mean of S² + C², Q1.15 -/
def RDC_STAT_AMP (c : Nat) : Fld := ⟨8 * (0x51400 + 0x8000 * (c / 16) + 16 * (c % 16)) + 48, 16, 0⟩
/-- RO, 7 bit, bit 64. Pair index n, 0 to N − 1 -/
def RDC_STAT_NTURN (c : Nat) : Fld := ⟨8 * (0x51400 + 0x8000 * (c / 16) + 16 * (c % 16)) + 64, 7, 0⟩
/-- RO, 8 bit, bit 72. Failed tries since the last lock, saturating at 255 -/
def RDC_STAT_ACQ_TRIES (c : Nat) : Fld := ⟨8 * (0x51400 + 0x8000 * (c / 16) + 16 * (c % 16)) + 72, 8, 0⟩
/-- RO, 16 bit, bit 80. Measured excitation of this channel's amplifier, mVrms -/
def RDC_STAT_EXC_MV (c : Nat) : Fld := ⟨8 * (0x51400 + 0x8000 * (c / 16) + 16 * (c % 16)) + 80, 16, 0⟩
/-- RO, 16 bit, bit 96. d of R188, signed Q0.16 fine turn -/
def RDC_STAT_PAIR_D (c : Nat) : Fld := ⟨8 * (0x51400 + 0x8000 * (c / 16) + 16 * (c % 16)) + 96, 16, 0⟩

/-! RDC_LIVE: 07_resolver_tracking.md, register table, 256 bits. -/

/-- RO, 32 bit, bit 0. Output angle, Q0.32 turn; combined for a resolved fine channel -/
def RDC_LIVE_ANGLE (c : Nat) : Fld := ⟨8 * (0x51600 + 0x8000 * (c / 16) + 32 * (c % 16)) + 0, 32, 0⟩
/-- RO, 32 bit, bit 32. Output speed, Q8.24 turn/s -/
def RDC_LIVE_SPEED (c : Nat) : Fld := ⟨8 * (0x51600 + 0x8000 * (c / 16) + 32 * (c % 16)) + 32, 32, 0⟩
/-- RO, 32 bit, bit 64. Output acceleration, signed Q16.16 turn/s², saturating -/
def RDC_LIVE_ACCEL (c : Nat) : Fld := ⟨8 * (0x51600 + 0x8000 * (c / 16) + 32 * (c % 16)) + 64, 32, 0⟩
/-- RO, 32 bit, bit 96. θh of R181 for this channel, Q0.32 electrical turn -/
def RDC_LIVE_ELEC (c : Nat) : Fld := ⟨8 * (0x51600 + 0x8000 * (c / 16) + 32 * (c % 16)) + 96, 32, 0⟩
/-- RO, 96 bit, bit 128. AT96 of the update; the last valid update while the angle is invalid -/
def RDC_LIVE_AT (c : Nat) : Fld := ⟨8 * (0x51600 + 0x8000 * (c / 16) + 32 * (c % 16)) + 128, 96, 0⟩

/-! RDC_CTRL: 07_resolver_tracking.md, register table, 32 bits. -/

/-- W1S, 1 bit, bit 0. Restart acquisition under R185; reruns the check of R199 after CONV_FAULT -/
def RDC_CTRL_REACQ (c : Nat) : Fld := ⟨8 * (0x51800 + 0x8000 * (c / 16) + 4 * (c % 16)) + 0, 1, 0⟩
/-- W1S, 1 bit, bit 1. Clears every counter of RDC_CNT[c] -/
def RDC_CTRL_CNT_CLR (c : Nat) : Fld := ⟨8 * (0x51800 + 0x8000 * (c / 16) + 4 * (c % 16)) + 1, 1, 0⟩
/-- W1S, 1 bit, bit 2. Start learning under R191 -/
def RDC_CTRL_LEARN (c : Nat) : Fld := ⟨8 * (0x51800 + 0x8000 * (c / 16) + 4 * (c % 16)) + 2, 1, 0⟩
/-- W1S, 1 bit, bit 3. End learning with FAIL code 5 -/
def RDC_CTRL_ABORT (c : Nat) : Fld := ⟨8 * (0x51800 + 0x8000 * (c / 16) + 4 * (c % 16)) + 3, 1, 0⟩
/-- W1S, 1 bit, bit 4. Activate the staging table under R193 -/
def RDC_CTRL_ACTIVATE (c : Nat) : Fld := ⟨8 * (0x51800 + 0x8000 * (c / 16) + 4 * (c % 16)) + 4, 1, 0⟩
/-- W1S, 1 bit, bit 5. Zero the staging table -/
def RDC_CTRL_CLEAR (c : Nat) : Fld := ⟨8 * (0x51800 + 0x8000 * (c / 16) + 4 * (c % 16)) + 5, 1, 0⟩

/-! RDC_CNT: 07_resolver_tracking.md, register table, 128 bits. -/

/-- CNT, 32 bit, bit 0. Locks achieved -/
def RDC_CNT_LOCKS (c : Nat) : Fld := ⟨8 * (0x51880 + 0x8000 * (c / 16) + 16 * (c % 16)) + 0, 32, 0⟩
/-- CNT, 32 bit, bit 32. Tracking losses -/
def RDC_CNT_TRACK_LOSS (c : Nat) : Fld := ⟨8 * (0x51880 + 0x8000 * (c / 16) + 16 * (c % 16)) + 32, 32, 0⟩
/-- CNT, 32 bit, bit 64. LOS and WIRE_OPEN onsets -/
def RDC_CNT_LOS (c : Nat) : Fld := ⟨8 * (0x51880 + 0x8000 * (c / 16) + 16 * (c % 16)) + 64, 32, 0⟩
/-- CNT, 32 bit, bit 96. Onsets of flagging faults -/
def RDC_CNT_OR_EVENTS (c : Nat) : Fld := ⟨8 * (0x51880 + 0x8000 * (c / 16) + 16 * (c % 16)) + 96, 32, 0⟩

/-! RDC_HARM_CFG: 07_resolver_tracking.md, register table, 64 bits. -/

/-- RW, 1 bit, bit 0. Apply the active table under R190 -/
def RDC_HARM_CFG_EN (c : Nat) : Fld := ⟨8 * (0x51A00 + 0x8000 * (c / 16) + 8 * (c % 16)) + 0, 1, 1⟩
/-- RW, 2 bit, bit 1. 0 self, 1 paired fine, 2 PI fused angle; 3 acts as 0 -/
def RDC_HARM_CFG_REF (c : Nat) : Fld := ⟨8 * (0x51A00 + 0x8000 * (c / 16) + 8 * (c % 16)) + 1, 2, 0⟩
/-- RW, 4 bit, bit 3. PI input for REF 2, local to this card: PI8 to PI15 on A1 -/
def RDC_HARM_CFG_REF_IDX (c : Nat) : Fld := ⟨8 * (0x51A00 + 0x8000 * (c / 16) + 8 * (c % 16)) + 3, 4, 0⟩
/-- RW, 1 bit, bit 7. Activate when RESID ≤ RESID_MAX -/
def RDC_HARM_CFG_AUTO (c : Nat) : Fld := ⟨8 * (0x51A00 + 0x8000 * (c / 16) + 8 * (c % 16)) + 7, 1, 0⟩
/-- RW, 10 bit, bit 16. Turns to accept; below 4 acts as 4 -/
def RDC_HARM_CFG_TURNS (c : Nat) : Fld := ⟨8 * (0x51A00 + 0x8000 * (c / 16) + 8 * (c % 16)) + 16, 10, 8⟩
/-- RW, 16 bit, bit 32. Largest residual for AUTO, LSB 2^−32 turn -/
def RDC_HARM_CFG_RESID_MAX (c : Nat) : Fld := ⟨8 * (0x51A00 + 0x8000 * (c / 16) + 8 * (c % 16)) + 32, 16, 1024⟩

/-! RDC_HARM_STAT: 07_resolver_tracking.md, register table, 64 bits. -/

/-- RO, 2 bit, bit 0. 0 IDLE, 1 COLLECT, 2 DONE, 3 FAILED -/
def RDC_HARM_STAT_LSTATE (c : Nat) : Fld := ⟨8 * (0x51A80 + 0x8000 * (c / 16) + 8 * (c % 16)) + 0, 2, 0⟩
/-- RO, 3 bit, bit 4. Code under R192; 0 none -/
def RDC_HARM_STAT_FAIL (c : Nat) : Fld := ⟨8 * (0x51A80 + 0x8000 * (c / 16) + 8 * (c % 16)) + 4, 3, 0⟩
/-- RO, 16 bit, bit 16. Residual of the last learning, LSB 2^−32 turn, saturating -/
def RDC_HARM_STAT_RESID (c : Nat) : Fld := ⟨8 * (0x51A80 + 0x8000 * (c / 16) + 8 * (c % 16)) + 16, 16, 0⟩
/-- RO, 16 bit, bit 32. Turns accepted in the current or last learning -/
def RDC_HARM_STAT_ACCEPTED (c : Nat) : Fld := ⟨8 * (0x51A80 + 0x8000 * (c / 16) + 8 * (c % 16)) + 32, 16, 0⟩
/-- RO, 16 bit, bit 48. Turns discarded in the current or last learning, saturating -/
def RDC_HARM_STAT_DISCARDED (c : Nat) : Fld := ⟨8 * (0x51A80 + 0x8000 * (c / 16) + 8 * (c % 16)) + 48, 16, 0⟩

/-! RDC_HARM_STG: 07_resolver_tracking.md, register table, 1024 bits. -/

/-- RWH, 32 bit, bit 0. Cosine coefficient, signed, LSB 2^−36 turn; written by learning -/
def RDC_HARM_STG_A (c h : Nat) : Fld := ⟨8 * (0x52000 + 0x8000 * (c / 16) + 128 * (c % 16)) + (0 + 64 * (h - 1)), 32, 0⟩
/-- RWH, 32 bit, bit 32. Sine coefficient, signed, LSB 2^−36 turn; written by learning -/
def RDC_HARM_STG_B (c h : Nat) : Fld := ⟨8 * (0x52000 + 0x8000 * (c / 16) + 128 * (c % 16)) + (32 + 64 * (h - 1)), 32, 0⟩

/-! RDC_HARM_ACT: 07_resolver_tracking.md, register table, 1024 bits. -/

/-- RO, 1024 bit, bit 0. Active table, laid out as RDC_HARM_STG[c]; restored at start under R193 -/
def RDC_HARM_ACT_TABLE (c : Nat) : Fld := ⟨8 * (0x52800 + 0x8000 * (c / 16) + 128 * (c % 16)) + 0, 1024, 0⟩

/-! PFI_CFG: 08_position_inputs.md, register table, 256 bits. -/

/-- RW, 3 bit, bit 0. Mode under R204 -/
def PFI_CFG_MODE (i : Nat) : Fld := ⟨8 * (0x54000 + 0x8000 * (i / 8) + 32 * (i % 8)) + 0, 3, 0⟩
/-- RW, 1 bit, bit 3. Negate counts -/
def PFI_CFG_INVERT (i : Nat) : Fld := ⟨8 * (0x54000 + 0x8000 * (i / 8) + 32 * (i % 8)) + 3, 1, 0⟩
/-- RW, 1 bit, bit 4. Reversal hysteresis under R207 -/
def PFI_CFG_HYST (i : Nat) : Fld := ⟨8 * (0x54000 + 0x8000 * (i / 8) + 32 * (i % 8)) + 4, 1, 1⟩
/-- RW, 1 bit, bit 5. 120 Ω terminations on A, B and Z -/
def PFI_CFG_TERM (i : Nat) : Fld := ⟨8 * (0x54000 + 0x8000 * (i / 8) + 32 * (i % 8)) + 5, 1, 1⟩
/-- RW, 3 bit, bit 8. Filter length in CCLK under R205; above MIN_EDGE − 1 acts as MIN_EDGE − 1 -/
def PFI_CFG_FILT (i : Nat) : Fld := ⟨8 * (0x54000 + 0x8000 * (i / 8) + 32 * (i % 8)) + 8, 3, 2⟩
/-- RW, 2 bit, bit 12. Index mode under R210 -/
def PFI_CFG_INDEX_MODE (i : Nat) : Fld := ⟨8 * (0x54000 + 0x8000 * (i / 8) + 32 * (i % 8)) + 12, 2, 0⟩
/-- RW, 1 bit, bit 14. QUAD: gate the index with A = B = 1, under R209 -/
def PFI_CFG_IDX_GATE (i : Nat) : Fld := ⟨8 * (0x54000 + 0x8000 * (i / 8) + 32 * (i % 8)) + 14, 1, 1⟩
/-- RW, 1 bit, bit 15. Fallback under R214 -/
def PFI_CFG_FALLBACK (i : Nat) : Fld := ⟨8 * (0x54000 + 0x8000 * (i / 8) + 32 * (i % 8)) + 15, 1, 0⟩
/-- RW, 4 bit, bit 16. log2 of quadrature periods per sin/cos period; above 10 acts as 10 -/
def PFI_CFG_FB_RATIO (i : Nat) : Fld := ⟨8 * (0x54000 + 0x8000 * (i / 8) + 32 * (i % 8)) + 16, 4, 0⟩
/-- RW, 4 bit, bit 20. Tolerance in counts; 0 acts as 1 -/
def PFI_CFG_FB_TOL (i : Nat) : Fld := ⟨8 * (0x54000 + 0x8000 * (i / 8) + 32 * (i % 8)) + 20, 4, 2⟩
/-- RW, 48 bit, bit 32. Count set at an index reset, signed -/
def PFI_CFG_INDEX_VAL (i : Nat) : Fld := ⟨8 * (0x54000 + 0x8000 * (i / 8) + 32 * (i % 8)) + 32, 48, 0⟩
/-- RW, 16 bit, bit 80. Index check tolerance in counts under R211; 0 disables -/
def PFI_CFG_IDX_TOL (i : Nat) : Fld := ⟨8 * (0x54000 + 0x8000 * (i / 8) + 32 * (i % 8)) + 80, 16, 0⟩
/-- RW, 16 bit, bit 96. Window low edge, Q1.15 -/
def PFI_CFG_AMP_LO (i : Nat) : Fld := ⟨8 * (0x54000 + 0x8000 * (i / 8) + 32 * (i % 8)) + 96, 16, 4096⟩
/-- RW, 16 bit, bit 112. Window high edge, Q1.15; below AMP_LO acts as AMP_LO -/
def PFI_CFG_AMP_HI (i : Nat) : Fld := ⟨8 * (0x54000 + 0x8000 * (i / 8) + 32 * (i % 8)) + 112, 16, 28672⟩
/-- RW, 16 bit, bit 128. SIN offset trim, signed µV -/
def PFI_CFG_SC_OFS_S (i : Nat) : Fld := ⟨8 * (0x54000 + 0x8000 * (i / 8) + 32 * (i % 8)) + 128, 16, 0⟩
/-- RW, 16 bit, bit 144. COS offset trim, signed µV -/
def PFI_CFG_SC_OFS_C (i : Nat) : Fld := ⟨8 * (0x54000 + 0x8000 * (i / 8) + 32 * (i % 8)) + 144, 16, 0⟩
/-- RW, 16 bit, bit 160. COS-to-SIN gain ratio, Q2.14 -/
def PFI_CFG_SC_GAIN (i : Nat) : Fld := ⟨8 * (0x54000 + 0x8000 * (i / 8) + 32 * (i % 8)) + 160, 16, 16384⟩
/-- RW, 16 bit, bit 176. Quadrature error trim, signed Q0.16 turn -/
def PFI_CFG_SC_PHASE (i : Nat) : Fld := ⟨8 * (0x54000 + 0x8000 * (i / 8) + 32 * (i % 8)) + 176, 16, 0⟩

/-! PFI_MIN_EDGE: 08_position_inputs.md, register table, 32 bits. -/

/-- RW, 8 bit, bit 0. Minimum edge spacing in CCLK under R206; below 2 acts as 2 -/
def PFI_MIN_EDGE_MIN_EDGE (i : Nat) : Fld := ⟨8 * (0x54100 + 0x8000 * (i / 8) + 4 * (i % 8)) + 0, 8, 6⟩

/-! PFI_FUSE: 08_position_inputs.md, register table, 256 bits. -/

/-- RW, 1 bit, bit 0. Fusion with the resolver under R219 -/
def PFI_FUSE_EN (i : Nat) : Fld := ⟨8 * (0x54200 + 0x8000 * (i / 8) + 32 * (i % 8)) + 0, 1, 0⟩
/-- RW, 1 bit, bit 1. 0 anchor from the resolver under R220, 1 at an index under R221 -/
def PFI_FUSE_ANCHOR (i : Nat) : Fld := ⟨8 * (0x54200 + 0x8000 * (i / 8) + 32 * (i % 8)) + 1, 1, 0⟩
/-- RW, 4 bit, bit 2. Local resolver channel, 0 to 15 -/
def PFI_FUSE_SRC (i : Nat) : Fld := ⟨8 * (0x54200 + 0x8000 * (i / 8) + 32 * (i % 8)) + 2, 4, 0⟩
/-- RW, 5 bit, bit 6. Anchor window of 2^AVG updates; above 16 acts as 16 -/
def PFI_FUSE_AVG (i : Nat) : Fld := ⟨8 * (0x54200 + 0x8000 * (i / 8) + 32 * (i % 8)) + 6, 5, 10⟩
/-- RW, 10 bit, bit 16. Speed filter FN in Hz, under R224; outside 10 to 1,000 acts as the nearer limit -/
def PFI_FUSE_SPD_FN (i : Nat) : Fld := ⟨8 * (0x54200 + 0x8000 * (i / 8) + 32 * (i % 8)) + 16, 10, 100⟩
/-- RW, 32 bit, bit 32. Counts per resolver output turn; below 16 acts as 16 -/
def PFI_FUSE_CPT (i : Nat) : Fld := ⟨8 * (0x54200 + 0x8000 * (i / 8) + 32 * (i % 8)) + 32, 32, 1048576⟩
/-- RW, 32 bit, bit 64. Tolerance, Q0.32 turn; above 0x1000_0000 acts as 0x1000_0000 -/
def PFI_FUSE_FUSE_TOL (i : Nat) : Fld := ⟨8 * (0x54200 + 0x8000 * (i / 8) + 32 * (i % 8)) + 64, 32, 65536⟩
/-- RW, 32 bit, bit 96. Angle of the index, Q0.32 turn -/
def PFI_FUSE_IDX_ANGLE (i : Nat) : Fld := ⟨8 * (0x54200 + 0x8000 * (i / 8) + 32 * (i % 8)) + 96, 32, 0⟩
/-- RW, 16 bit, bit 128. Turn part when no last F is held -/
def PFI_FUSE_TURN0 (i : Nat) : Fld := ⟨8 * (0x54200 + 0x8000 * (i / 8) + 32 * (i % 8)) + 128, 16, 0⟩

/-! PFI_STAT: 08_position_inputs.md, register table, 128 bits. -/

/-- RO, 2 bit, bit 0. 0 OFF, 1 PULSE, 2 SINCOS, 3 FALLBACK -/
def PFI_STAT_PATH (i : Nat) : Fld := ⟨8 * (0x54400 + 0x8000 * (i / 8) + 16 * (i % 8)) + 0, 2, 0⟩
/-- RO, 1 bit, bit 2. Under R215 -/
def PFI_STAT_COUNT_VALID (i : Nat) : Fld := ⟨8 * (0x54400 + 0x8000 * (i / 8) + 16 * (i % 8)) + 2, 1, 0⟩
/-- RO, 1 bit, bit 3. Under R214 -/
def PFI_STAT_FB_READY (i : Nat) : Fld := ⟨8 * (0x54400 + 0x8000 * (i / 8) + 16 * (i % 8)) + 3, 1, 0⟩
/-- RO, 1 bit, bit 4. ONCE reset armed -/
def PFI_STAT_IDX_ARMED (i : Nat) : Fld := ⟨8 * (0x54400 + 0x8000 * (i / 8) + 16 * (i % 8)) + 4, 1, 0⟩
/-- RO, 1 bit, bit 5. Count withheld under R207 -/
def PFI_STAT_HYST_PEND (i : Nat) : Fld := ⟨8 * (0x54400 + 0x8000 * (i / 8) + 16 * (i % 8)) + 5, 1, 0⟩
/-- RO, 1 bit, bit 6. A used line below 200 mV now -/
def PFI_STAT_LINE_NOW (i : Nat) : Fld := ⟨8 * (0x54400 + 0x8000 * (i / 8) + 16 * (i % 8)) + 6, 1, 0⟩
/-- RO, 3 bit, bit 8. 0 OFF, 1 WAIT, 2 ANCHOR, 3 FUSED, 4 REFUSED; 5–7 not used -/
def PFI_STAT_FSTATE (i : Nat) : Fld := ⟨8 * (0x54400 + 0x8000 * (i / 8) + 16 * (i % 8)) + 8, 3, 0⟩
/-- RO, 1 bit, bit 11. F valid under R219 -/
def PFI_STAT_FUSED_VALID (i : Nat) : Fld := ⟨8 * (0x54400 + 0x8000 * (i / 8) + 16 * (i % 8)) + 11, 1, 0⟩
/-- W1C, 1 bit, bit 16. Under R206 -/
def PFI_STAT_FAST_EDGE (i : Nat) : Fld := ⟨8 * (0x54400 + 0x8000 * (i / 8) + 16 * (i % 8)) + 16, 1, 0⟩
/-- W1C, 1 bit, bit 17. Under R216 -/
def PFI_STAT_QUAD_ERR (i : Nat) : Fld := ⟨8 * (0x54400 + 0x8000 * (i / 8) + 16 * (i % 8)) + 17, 1, 0⟩
/-- W1C, 1 bit, bit 18. Under R216 -/
def PFI_STAT_LINE_FAULT (i : Nat) : Fld := ⟨8 * (0x54400 + 0x8000 * (i / 8) + 16 * (i % 8)) + 18, 1, 0⟩
/-- W1C, 1 bit, bit 19. Under R213 -/
def PFI_STAT_SC_AMP (i : Nat) : Fld := ⟨8 * (0x54400 + 0x8000 * (i / 8) + 16 * (i % 8)) + 19, 1, 0⟩
/-- W1C, 1 bit, bit 20. Under R216 -/
def PFI_STAT_SC_OVERSPEED (i : Nat) : Fld := ⟨8 * (0x54400 + 0x8000 * (i / 8) + 16 * (i % 8)) + 20, 1, 0⟩
/-- W1C, 1 bit, bit 21. Path switched under R214 -/
def PFI_STAT_FB_SWITCH (i : Nat) : Fld := ⟨8 * (0x54400 + 0x8000 * (i / 8) + 16 * (i % 8)) + 21, 1, 0⟩
/-- W1C, 1 bit, bit 22. Under R214 -/
def PFI_STAT_FB_DISAGREE (i : Nat) : Fld := ⟨8 * (0x54400 + 0x8000 * (i / 8) + 16 * (i % 8)) + 22, 1, 0⟩
/-- W1C, 1 bit, bit 23. Under R211 -/
def PFI_STAT_IDX_ERR (i : Nat) : Fld := ⟨8 * (0x54400 + 0x8000 * (i / 8) + 16 * (i % 8)) + 23, 1, 0⟩
/-- W1C, 1 bit, bit 24. Under R222 -/
def PFI_STAT_FUSE_SLIP (i : Nat) : Fld := ⟨8 * (0x54400 + 0x8000 * (i / 8) + 16 * (i % 8)) + 24, 1, 0⟩
/-- W1C, 1 bit, bit 25. Under R221 -/
def PFI_STAT_FUSE_REFUSED (i : Nat) : Fld := ⟨8 * (0x54400 + 0x8000 * (i / 8) + 16 * (i % 8)) + 25, 1, 0⟩
/-- W1C, 1 bit, bit 26. An index event occurred -/
def PFI_STAT_INDEX (i : Nat) : Fld := ⟨8 * (0x54400 + 0x8000 * (i / 8) + 16 * (i % 8)) + 26, 1, 0⟩
/-- RO, 1 bit, bit 27. Setting invalid under R230 -/
def PFI_STAT_CFG_BAD (i : Nat) : Fld := ⟨8 * (0x54400 + 0x8000 * (i / 8) + 16 * (i % 8)) + 27, 1, 0⟩
/-- RO, 16 bit, bit 32. Last window mean of AMP, Q1.15 -/
def PFI_STAT_AMP (i : Nat) : Fld := ⟨8 * (0x54400 + 0x8000 * (i / 8) + 16 * (i % 8)) + 32, 16, 0⟩
/-- RO, 32 bit, bit 64. d of R222, signed Q0.32 turn -/
def PFI_STAT_FUSE_D (i : Nat) : Fld := ⟨8 * (0x54400 + 0x8000 * (i / 8) + 16 * (i % 8)) + 64, 32, 0⟩

/-! PFI_LIVE: 08_position_inputs.md, register table, 512 bits. -/

/-- RO, 48 bit, bit 0. Q, signed -/
def PFI_LIVE_COUNT (i : Nat) : Fld := ⟨8 * (0x54500 + 0x8000 * (i / 8) + 64 * (i % 8)) + 0, 48, 0⟩
/-- RO, 48 bit, bit 64. C, signed -/
def PFI_LIVE_RAW (i : Nat) : Fld := ⟨8 * (0x54500 + 0x8000 * (i / 8) + 64 * (i % 8)) + 64, 48, 0⟩
/-- RO, 48 bit, bit 128. F, 16.32 turn -/
def PFI_LIVE_FUSED (i : Nat) : Fld := ⟨8 * (0x54500 + 0x8000 * (i / 8) + 64 * (i % 8)) + 128, 48, 0⟩
/-- RO, 32 bit, bit 192. ω of R224, Q8.24 turn/s -/
def PFI_LIVE_SPEED (i : Nat) : Fld := ⟨8 * (0x54500 + 0x8000 * (i / 8) + 64 * (i % 8)) + 192, 32, 0⟩
/-- RO, 96 bit, bit 256. AT96 of the update -/
def PFI_LIVE_AT (i : Nat) : Fld := ⟨8 * (0x54500 + 0x8000 * (i / 8) + 64 * (i % 8)) + 256, 96, 0⟩
/-- RO, 48 bit, bit 352. C at the last index event, before any reset -/
def PFI_LIVE_IDX_COUNT (i : Nat) : Fld := ⟨8 * (0x54500 + 0x8000 * (i / 8) + 64 * (i % 8)) + 352, 48, 0⟩
/-- RO, 96 bit, bit 400. AT96 of the last index event -/
def PFI_LIVE_IDX_AT (i : Nat) : Fld := ⟨8 * (0x54500 + 0x8000 * (i / 8) + 64 * (i % 8)) + 400, 96, 0⟩

/-! PFI_CTRL: 08_position_inputs.md, register table, 64 bits. -/

/-- W1S, 1 bit, bit 0. Arm a ONCE reset -/
def PFI_CTRL_IDX_ARM (i : Nat) : Fld := ⟨8 * (0x54700 + 0x8000 * (i / 8) + 8 * (i % 8)) + 0, 1, 0⟩
/-- W1S, 1 bit, bit 1. C := Q := VALUE at the next update; sets COUNT_VALID -/
def PFI_CTRL_SET_COUNT (i : Nat) : Fld := ⟨8 * (0x54700 + 0x8000 * (i / 8) + 8 * (i % 8)) + 1, 1, 0⟩
/-- W1S, 1 bit, bit 2. Turn part of F := VALUE[15:0] under R223 -/
def PFI_CTRL_SET_TURNS (i : Nat) : Fld := ⟨8 * (0x54700 + 0x8000 * (i / 8) + 8 * (i % 8)) + 2, 1, 0⟩
/-- W1S, 1 bit, bit 3. Return to PULSE under R214 -/
def PFI_CTRL_RESUME (i : Nat) : Fld := ⟨8 * (0x54700 + 0x8000 * (i / 8) + 8 * (i % 8)) + 3, 1, 0⟩
/-- W1S, 1 bit, bit 4. Anchor anew -/
def PFI_CTRL_REANCHOR (i : Nat) : Fld := ⟨8 * (0x54700 + 0x8000 * (i / 8) + 8 * (i % 8)) + 4, 1, 0⟩
/-- W1S, 1 bit, bit 5. Clears PFI_CNT[i] and PFI_FAST_EDGES[i] -/
def PFI_CTRL_CNT_CLR (i : Nat) : Fld := ⟨8 * (0x54700 + 0x8000 * (i / 8) + 8 * (i % 8)) + 5, 1, 0⟩
/-- RW, 48 bit, bit 16. Operand of SET_COUNT and SET_TURNS, signed -/
def PFI_CTRL_VALUE (i : Nat) : Fld := ⟨8 * (0x54700 + 0x8000 * (i / 8) + 8 * (i % 8)) + 16, 48, 0⟩

/-! PFI_FAST_EDGES: 08_position_inputs.md, register table, 32 bits. -/

/-- CNT, 32 bit, bit 0. Fast edges under R206; saturating -/
def PFI_FAST_EDGES_COUNT (i : Nat) : Fld := ⟨8 * (0x54780 + 0x8000 * (i / 8) + 4 * (i % 8)) + 0, 32, 0⟩

/-! PFI_CNT: 08_position_inputs.md, register table, 128 bits. -/

/-- CNT, 32 bit, bit 0. Pulses rejected under R205 -/
def PFI_CNT_GLITCH (i : Nat) : Fld := ⟨8 * (0x54800 + 0x8000 * (i / 8) + 16 * (i % 8)) + 0, 32, 0⟩
/-- CNT, 32 bit, bit 32. Quadrature errors -/
def PFI_CNT_QUAD_ERR (i : Nat) : Fld := ⟨8 * (0x54800 + 0x8000 * (i / 8) + 16 * (i % 8)) + 32, 32, 0⟩
/-- CNT, 32 bit, bit 64. Index check failures -/
def PFI_CNT_IDX_ERR (i : Nat) : Fld := ⟨8 * (0x54800 + 0x8000 * (i / 8) + 16 * (i % 8)) + 64, 32, 0⟩
/-- CNT, 32 bit, bit 96. Fusion slips -/
def PFI_CNT_FUSE_SLIP (i : Nat) : Fld := ⟨8 * (0x54800 + 0x8000 * (i / 8) + 16 * (i % 8)) + 96, 32, 0⟩

/-! PFI_PB_CFG: 08_position_inputs.md, register table, 64 bits. -/

/-- RW, 1 bit, bit 0. Probe enabled -/
def PFI_PB_CFG_EN (p : Nat) : Fld := ⟨8 * (0x54A00 + 0x8000 * (p / 4) + 8 * (p % 4)) + 0, 1, 0⟩
/-- RW, 2 bit, bit 1. 1 rising, 2 falling, 3 both; 0 acts as 1 -/
def PFI_PB_CFG_EDGE (p : Nat) : Fld := ⟨8 * (0x54A00 + 0x8000 * (p / 4) + 8 * (p % 4)) + 1, 2, 1⟩
/-- RW, 1 bit, bit 3. 0 single, 1 continuous, under R218 -/
def PFI_PB_CFG_CONT (p : Nat) : Fld := ⟨8 * (0x54A00 + 0x8000 * (p / 4) + 8 * (p % 4)) + 3, 1, 0⟩
/-- W1S, 1 bit, bit 4. Arm a single latch -/
def PFI_PB_CFG_ARM (p : Nat) : Fld := ⟨8 * (0x54A00 + 0x8000 * (p / 4) + 8 * (p % 4)) + 4, 1, 0⟩
/-- W1S, 1 bit, bit 5. Clears PFI_PB_STAT[p].MISSED -/
def PFI_PB_CFG_MISSED_CLR (p : Nat) : Fld := ⟨8 * (0x54A00 + 0x8000 * (p / 4) + 8 * (p % 4)) + 5, 1, 0⟩
/-- RW, 3 bit, bit 8. Filter length in CCLK -/
def PFI_PB_CFG_FILT (p : Nat) : Fld := ⟨8 * (0x54A00 + 0x8000 * (p / 4) + 8 * (p % 4)) + 8, 3, 2⟩
/-- RW, 10 bit, bit 16. Dead time in µs; 0 acts as 1; above 1,000 acts as 1,000 -/
def PFI_PB_CFG_DEAD (p : Nat) : Fld := ⟨8 * (0x54A00 + 0x8000 * (p / 4) + 8 * (p % 4)) + 16, 10, 10⟩
/-- RW, 16 bit, bit 32. Bit c latches local resolver channel c -/
def PFI_PB_CFG_SEL_RDC (p : Nat) : Fld := ⟨8 * (0x54A00 + 0x8000 * (p / 4) + 8 * (p % 4)) + 32, 16, 0⟩
/-- RW, 8 bit, bit 48. Bit i latches local input i -/
def PFI_PB_CFG_SEL_PI (p : Nat) : Fld := ⟨8 * (0x54A00 + 0x8000 * (p / 4) + 8 * (p % 4)) + 48, 8, 0⟩

/-! PFI_PB_STAT: 08_position_inputs.md, register table, 64 bits. -/

/-- RO, 1 bit, bit 0. Single latch armed -/
def PFI_PB_STAT_ARMED (p : Nat) : Fld := ⟨8 * (0x54A40 + 0x8000 * (p / 4) + 8 * (p % 4)) + 0, 1, 0⟩
/-- W1C, 1 bit, bit 1. A latch was taken -/
def PFI_PB_STAT_LATCHED (p : Nat) : Fld := ⟨8 * (0x54A40 + 0x8000 * (p / 4) + 8 * (p % 4)) + 1, 1, 0⟩
/-- CNT, 32 bit, bit 32. Edges inside the dead time; saturating -/
def PFI_PB_STAT_MISSED (p : Nat) : Fld := ⟨8 * (0x54A40 + 0x8000 * (p / 4) + 8 * (p % 4)) + 32, 32, 0⟩

/-! PFI_PB_LATCH: 08_position_inputs.md, register table, 2048 bits. -/

/-- RO, 96 bit, bit 0. AT96 of the probe edge -/
def PFI_PB_LATCH_AT (p : Nat) : Fld := ⟨8 * (0x54C00 + 0x8000 * (p / 4) + 256 * (p % 4)) + 0, 96, 0⟩
/-- RO, 16 bit, bit 96. Bit c: angle c was valid -/
def PFI_PB_LATCH_RDC_VALID (p : Nat) : Fld := ⟨8 * (0x54C00 + 0x8000 * (p / 4) + 256 * (p % 4)) + 96, 16, 0⟩
/-- RO, 8 bit, bit 112. Bit i: F of input i was valid -/
def PFI_PB_LATCH_FUSED_VALID (p : Nat) : Fld := ⟨8 * (0x54C00 + 0x8000 * (p / 4) + 256 * (p % 4)) + 112, 8, 0⟩
/-- RO, 8 bit, bit 120. Bit i: COUNT_VALID of input i -/
def PFI_PB_LATCH_COUNT_VALID (p : Nat) : Fld := ⟨8 * (0x54C00 + 0x8000 * (p / 4) + 256 * (p % 4)) + 120, 8, 0⟩
/-- RO, 32 bit, bit 128. Latches taken by this probe, modular -/
def PFI_PB_LATCH_LATCH_NO (p : Nat) : Fld := ⟨8 * (0x54C00 + 0x8000 * (p / 4) + 256 * (p % 4)) + 128, 32, 0⟩
/-- RO, 512 bit, bit 160. Angle of channel c at [191 + 32c : 160 + 32c], Q0.32 -/
def PFI_PB_LATCH_ANGLE (p : Nat) : Fld := ⟨8 * (0x54C00 + 0x8000 * (p / 4) + 256 * (p % 4)) + 160, 512, 0⟩
/-- RO, 48 bit, bit 672. Q of input i, signed -/
def PFI_PB_LATCH_COUNT (p i : Nat) : Fld := ⟨8 * (0x54C00 + 0x8000 * (p / 4) + 256 * (p % 4)) + (672 + 128 * i), 48, 0⟩
/-- RO, 48 bit, bit 736. F of input i, 16.32 -/
def PFI_PB_LATCH_FUSED (p i : Nat) : Fld := ⟨8 * (0x54C00 + 0x8000 * (p / 4) + 256 * (p % 4)) + (736 + 128 * i), 48, 0⟩

/-! EE_CFG: 08_position_inputs.md, register table, 128 bits. -/

/-- RW, 1 bit, bit 0. Output enabled -/
def EE_CFG_EN (e : Nat) : Fld := ⟨8 * (0x56000 + 0x8000 * (e / 8) + 16 * (e % 8)) + 0, 1, 0⟩
/-- RW, 1 bit, bit 1. 0 resolver channel, 1 fused angle -/
def EE_CFG_KIND (e : Nat) : Fld := ⟨8 * (0x56000 + 0x8000 * (e / 8) + 16 * (e % 8)) + 1, 1, 0⟩
/-- RW, 4 bit, bit 2. Local channel 0 to 15, or local input 0 to 7 -/
def EE_CFG_INDEX (e : Nat) : Fld := ⟨8 * (0x56000 + 0x8000 * (e / 8) + 16 * (e % 8)) + 2, 4, 0⟩
/-- RW, 1 bit, bit 6. B leads A while the angle rises -/
def EE_CFG_INVERT (e : Nat) : Fld := ⟨8 * (0x56000 + 0x8000 * (e / 8) + 16 * (e % 8)) + 6, 1, 0⟩
/-- RW, 1 bit, bit 7. Delay compensation under R227 -/
def EE_CFG_LEAD_COMP (e : Nat) : Fld := ⟨8 * (0x56000 + 0x8000 * (e / 8) + 16 * (e % 8)) + 7, 1, 1⟩
/-- RW, 5 bit, bit 8. L, 2^L lines; below 8 acts as 8, above 20 acts as 20 -/
def EE_CFG_LINES (e : Nat) : Fld := ⟨8 * (0x56000 + 0x8000 * (e / 8) + 16 * (e % 8)) + 8, 5, 16⟩
/-- RW, 2 bit, bit 13. Line state under R229; 3 acts as 0 -/
def EE_CFG_MUZZLE (e : Nat) : Fld := ⟨8 * (0x56000 + 0x8000 * (e / 8) + 16 * (e % 8)) + 13, 2, 0⟩
/-- RW, 1 bit, bit 15. Resume by itself under R229 -/
def EE_CFG_AUTO_RESUME (e : Nat) : Fld := ⟨8 * (0x56000 + 0x8000 * (e / 8) + 16 * (e % 8)) + 15, 1, 1⟩
/-- RW, 16 bit, bit 16. Fault threshold in counts; below 24 acts as 24 -/
def EE_CFG_LAG_MAX (e : Nat) : Fld := ⟨8 * (0x56000 + 0x8000 * (e / 8) + 16 * (e % 8)) + 16, 16, 4096⟩
/-- RW, 32 bit, bit 32. Output zero, Q0.32 turn -/
def EE_CFG_ZERO (e : Nat) : Fld := ⟨8 * (0x56000 + 0x8000 * (e / 8) + 16 * (e % 8)) + 32, 32, 0⟩

/-! EE_STAT: 08_position_inputs.md, register table, 128 bits. -/

/-- RO, 1 bit, bit 0. Emitting -/
def EE_STAT_LIVE (e : Nat) : Fld := ⟨8 * (0x56100 + 0x8000 * (e / 8) + 16 * (e % 8)) + 0, 1, 0⟩
/-- RO, 1 bit, bit 1. Muzzled under R229 -/
def EE_STAT_MUZZLED (e : Nat) : Fld := ⟨8 * (0x56100 + 0x8000 * (e / 8) + 16 * (e % 8)) + 1, 1, 0⟩
/-- RO, 1 bit, bit 2. \|L\| above 24 -/
def EE_STAT_LAGGING (e : Nat) : Fld := ⟨8 * (0x56100 + 0x8000 * (e / 8) + 16 * (e % 8)) + 2, 1, 0⟩
/-- RO, 1 bit, bit 3. Setting invalid under R230 -/
def EE_STAT_CFG_BAD (e : Nat) : Fld := ⟨8 * (0x56100 + 0x8000 * (e / 8) + 16 * (e % 8)) + 3, 1, 0⟩
/-- W1C, 1 bit, bit 8. Under R228 -/
def EE_STAT_OVERRUN (e : Nat) : Fld := ⟨8 * (0x56100 + 0x8000 * (e / 8) + 16 * (e % 8)) + 8, 1, 0⟩
/-- W1C, 1 bit, bit 9. Under R228 -/
def EE_STAT_LAG_FAULT (e : Nat) : Fld := ⟨8 * (0x56100 + 0x8000 * (e / 8) + 16 * (e % 8)) + 9, 1, 0⟩
/-- W1C, 1 bit, bit 10. Under R229 -/
def EE_STAT_RESUMED (e : Nat) : Fld := ⟨8 * (0x56100 + 0x8000 * (e / 8) + 16 * (e % 8)) + 10, 1, 0⟩
/-- RO, 16 bit, bit 16. L, signed counts, saturating -/
def EE_STAT_LAG (e : Nat) : Fld := ⟨8 * (0x56100 + 0x8000 * (e / 8) + 16 * (e % 8)) + 16, 16, 0⟩
/-- RO, 32 bit, bit 32. E, low 32 bits -/
def EE_STAT_EMITTED (e : Nat) : Fld := ⟨8 * (0x56100 + 0x8000 * (e / 8) + 16 * (e % 8)) + 32, 32, 0⟩
/-- RO, 32 bit, bit 64. Jump of the last resumption, signed counts -/
def EE_STAT_LAST_JUMP (e : Nat) : Fld := ⟨8 * (0x56100 + 0x8000 * (e / 8) + 16 * (e % 8)) + 64, 32, 0⟩

/-! EE_CTRL: 08_position_inputs.md, register table, 32 bits. -/

/-- W1S, 1 bit, bit 0. Resume under R229, also from LAG_FAULT -/
def EE_CTRL_RESTART (e : Nat) : Fld := ⟨8 * (0x56200 + 0x8000 * (e / 8) + 4 * (e % 8)) + 0, 1, 0⟩
/-- W1S, 1 bit, bit 1. Clears EE_CNT[e] -/
def EE_CTRL_CNT_CLR (e : Nat) : Fld := ⟨8 * (0x56200 + 0x8000 * (e / 8) + 4 * (e % 8)) + 1, 1, 0⟩

/-! EE_CNT: 08_position_inputs.md, register table, 64 bits. -/

/-- CNT, 32 bit, bit 0. Overrun onsets -/
def EE_CNT_OVERRUNS (e : Nat) : Fld := ⟨8 * (0x56280 + 0x8000 * (e / 8) + 8 * (e % 8)) + 0, 32, 0⟩
/-- CNT, 32 bit, bit 32. Resumptions -/
def EE_CNT_RESUMES (e : Nat) : Fld := ⟨8 * (0x56280 + 0x8000 * (e / 8) + 8 * (e % 8)) + 32, 32, 0⟩

/-! LE_STAT: 09_loop_engine.md, register table, 32 bits. -/

/-- RO, 2 bit, bit 0. 0 STOPPED, 1 EVALUATING, 2 RUNNING; 3 not used -/
def LE_STAT_STATE : Fld := ⟨8 * (0x70000) + 0, 2, 0⟩
/-- RO, 7 bit, bit 8. Enabled loops, 0 to 64 -/
def LE_STAT_LOOPS : Fld := ⟨8 * (0x70000) + 8, 7, 0⟩
/-- RO, 5 bit, bit 16. Arenas LIVE, 0 to 16 -/
def LE_STAT_ARENAS : Fld := ⟨8 * (0x70000) + 16, 5, 0⟩

/-! LE_BANK_SEL: 09_loop_engine.md, register table, 64 bits. -/

/-- RW, 64 bit, bit 0. Bit l: requested bank of loop l under R246 -/
def LE_BANK_SEL_SEL : Fld := ⟨8 * (0x70010) + 0, 64, 0⟩

/-! LE_BANK_ACT: 09_loop_engine.md, register table, 64 bits. -/

/-- RO, 64 bit, bit 0. Bit l: active bank of loop l -/
def LE_BANK_ACT_ACT : Fld := ⟨8 * (0x70018) + 0, 64, 0⟩

/-! LE_CNT: 09_loop_engine.md, register table, 128 bits. -/

/-- CNT, 32 bit, bit 0. Swaps under R246 -/
def LE_CNT_BANK_SWAPS : Fld := ⟨8 * (0x70020) + 0, 32, 0⟩
/-- CNT, 32 bit, bit 32. Loop faults under R237 -/
def LE_CNT_SRC_FAULTS : Fld := ⟨8 * (0x70020) + 32, 32, 0⟩
/-- CNT, 32 bit, bit 64. Saturation faults under R245 -/
def LE_CNT_SAT_FAULTS : Fld := ⟨8 * (0x70020) + 64, 32, 0⟩
/-- CNT, 32 bit, bit 96. Entries to HOLD under R238 -/
def LE_CNT_HOLD_ENTRIES : Fld := ⟨8 * (0x70020) + 96, 32, 0⟩

/-! LE_CNT_CLR: 09_loop_engine.md, register table, 32 bits. -/

/-- W1S, 4 bit, bit 0. Bit i clears the i-th counter of LE_CNT, in the order listed -/
def LE_CNT_CLR_CLR : Fld := ⟨8 * (0x70030) + 0, 4, 0⟩

/-! LE_LOOP_CFG: 09_loop_engine.md, register table, 512 bits. -/

/-- RW, 1 bit, bit 0. Loop enabled -/
def LE_LOOP_CFG_EN (l : Nat) : Fld := ⟨8 * (0x70400 + 64 * l) + 0, 1, 0⟩
/-- RW, 5 bit, bit 1. Arena 0 to 15; 16 to 31 none -/
def LE_LOOP_CFG_ARENA (l : Nat) : Fld := ⟨8 * (0x70400 + 64 * l) + 1, 5, 16⟩
/-- RW, 1 bit, bit 6. e := y − r -/
def LE_LOOP_CFG_REVERSE (l : Nat) : Fld := ⟨8 * (0x70400 + 64 * l) + 6, 1, 0⟩
/-- RW, 1 bit, bit 7. 0 demand 0, 1 demand held, under R235 -/
def LE_LOOP_CFG_HOLD_MODE (l : Nat) : Fld := ⟨8 * (0x70400 + 64 * l) + 7, 1, 0⟩
/-- RW, 4 bit, bit 8. Period 2^P beats; above 12 acts as 12 -/
def LE_LOOP_CFG_P (l : Nat) : Fld := ⟨8 * (0x70400 + 64 * l) + 8, 4, 6⟩
/-- RW, 1 bit, bit 12. Recover only on RESTART under R237 -/
def LE_LOOP_CFG_FAULT_LATCH (l : Nat) : Fld := ⟨8 * (0x70400 + 64 * l) + 12, 1, 0⟩
/-- RW, 2 bit, bit 16. Set-point kind under R236 -/
def LE_LOOP_CFG_SP_KIND (l : Nat) : Fld := ⟨8 * (0x70400 + 64 * l) + 16, 2, 0⟩
/-- RW, 2 bit, bit 18. Feedback kind; 0 and 3 invalid under R248 -/
def LE_LOOP_CFG_FB_KIND (l : Nat) : Fld := ⟨8 * (0x70400 + 64 * l) + 18, 2, 1⟩
/-- RW, 10 bit, bit 32. Stream, PI input or loop -/
def LE_LOOP_CFG_SP_IDX (l : Nat) : Fld := ⟨8 * (0x70400 + 64 * l) + 32, 10, 0⟩
/-- RW, 10 bit, bit 48. Stream or PI input -/
def LE_LOOP_CFG_FB_IDX (l : Nat) : Fld := ⟨8 * (0x70400 + 64 * l) + 48, 10, 0⟩
/-- RW, 16 bit, bit 64. Constant set-point, Q1.15 -/
def LE_LOOP_CFG_SP_CONST (l : Nat) : Fld := ⟨8 * (0x70400 + 64 * l) + 64, 16, 0⟩
/-- RW, 16 bit, bit 80. Source age limit in beats; 0 acts as 1 -/
def LE_LOOP_CFG_AGE_MAX (l : Nat) : Fld := ⟨8 * (0x70400 + 64 * l) + 80, 16, 256⟩
/-- RW, 64 bit, bit 96. Binary64 -/
def LE_LOOP_CFG_SP_BIAS (l : Nat) : Fld := ⟨8 * (0x70400 + 64 * l) + 96, 64, 0⟩
/-- RW, 64 bit, bit 160. Binary64, 1.0 -/
def LE_LOOP_CFG_SP_SPAN (l : Nat) : Fld := ⟨8 * (0x70400 + 64 * l) + 160, 64, 4607182418800017408⟩
/-- RW, 64 bit, bit 224. Binary64 -/
def LE_LOOP_CFG_FB_BIAS (l : Nat) : Fld := ⟨8 * (0x70400 + 64 * l) + 224, 64, 0⟩
/-- RW, 64 bit, bit 288. Binary64, 1.0 -/
def LE_LOOP_CFG_FB_SPAN (l : Nat) : Fld := ⟨8 * (0x70400 + 64 * l) + 288, 64, 4607182418800017408⟩
/-- RW, 8 bit, bit 352. Sample flags that make a slot unusable, in the bit order of R162 -/
def LE_LOOP_CFG_FLAG_EXCL (l : Nat) : Fld := ⟨8 * (0x70400 + 64 * l) + 352, 8, 158⟩

/-! LE_LOOP_BANK: 09_loop_engine.md, register table, 256 bits. -/

/-- RW, 16 bit, bit 0. Signed Q1.15 -/
def LE_LOOP_BANK_KP_M (l b : Nat) : Fld := ⟨8 * (0x72000 + 0x20 * (2 * l + b)) + 0, 16, 0⟩
/-- RW, 4 bit, bit 16. KP = KP_M × 2^KP_SH -/
def LE_LOOP_BANK_KP_SH (l b : Nat) : Fld := ⟨8 * (0x72000 + 0x20 * (2 * l + b)) + 16, 4, 0⟩
/-- RW, 16 bit, bit 32. Signed Q1.15 -/
def LE_LOOP_BANK_KI_M (l b : Nat) : Fld := ⟨8 * (0x72000 + 0x20 * (2 * l + b)) + 32, 16, 0⟩
/-- RW, 4 bit, bit 48. KI = KI_M × 2^−KI_SH -/
def LE_LOOP_BANK_KI_SH (l b : Nat) : Fld := ⟨8 * (0x72000 + 0x20 * (2 * l + b)) + 48, 4, 0⟩
/-- RW, 16 bit, bit 64. Integrator low clamp, Q1.15 -/
def LE_LOOP_BANK_I_LO (l b : Nat) : Fld := ⟨8 * (0x72000 + 0x20 * (2 * l + b)) + 64, 16, 32768⟩
/-- RW, 16 bit, bit 80. Integrator high clamp, Q1.15 -/
def LE_LOOP_BANK_I_HI (l b : Nat) : Fld := ⟨8 * (0x72000 + 0x20 * (2 * l + b)) + 80, 16, 32767⟩
/-- RW, 16 bit, bit 96. Demand low clamp, Q1.15 -/
def LE_LOOP_BANK_OUT_LO (l b : Nat) : Fld := ⟨8 * (0x72000 + 0x20 * (2 * l + b)) + 96, 16, 32768⟩
/-- RW, 16 bit, bit 112. Demand high clamp, Q1.15 -/
def LE_LOOP_BANK_OUT_HI (l b : Nat) : Fld := ⟨8 * (0x72000 + 0x20 * (2 * l + b)) + 112, 16, 32767⟩
/-- RW, 16 bit, bit 128. Hold band entry, Q1.15; 0 disables; negative acts as 0 -/
def LE_LOOP_BANK_HYS_IN (l b : Nat) : Fld := ⟨8 * (0x72000 + 0x20 * (2 * l + b)) + 128, 16, 0⟩
/-- RW, 16 bit, bit 144. Hold band exit, Q1.15 -/
def LE_LOOP_BANK_HYS_OUT (l b : Nat) : Fld := ⟨8 * (0x72000 + 0x20 * (2 * l + b)) + 144, 16, 0⟩
/-- RW, 16 bit, bit 160. Notch frequency in 0.5 Hz; 0 disables -/
def LE_LOOP_BANK_NOTCH_F0 (l b : Nat) : Fld := ⟨8 * (0x72000 + 0x20 * (2 * l + b)) + 160, 16, 0⟩
/-- RW, 16 bit, bit 176. Notch width in 0.5 Hz -/
def LE_LOOP_BANK_NOTCH_BW (l b : Nat) : Fld := ⟨8 * (0x72000 + 0x20 * (2 * l + b)) + 176, 16, 0⟩
/-- RW, 15 bit, bit 192. Largest set-point step per period, Q1.15 magnitude; 0 unlimited -/
def LE_LOOP_BANK_SP_SLEW (l b : Nat) : Fld := ⟨8 * (0x72000 + 0x20 * (2 * l + b)) + 192, 15, 0⟩

/-! LE_LOOP_STAT: 09_loop_engine.md, register table, 256 bits. -/

/-- RO, 3 bit, bit 0. 0 OFF, 1 STOPPED, 2 ACTIVE, 3 HOLD, 4 SRC_HOLD, 5 FAULT; 6–7 not used -/
def LE_LOOP_STAT_STATE (l : Nat) : Fld := ⟨8 * (0x73000 + 32 * l) + 0, 3, 0⟩
/-- RO, 1 bit, bit 3. Set its arena's magnitude at the last boundary -/
def LE_LOOP_STAT_WINNER (l : Nat) : Fld := ⟨8 * (0x73000 + 32 * l) + 3, 1, 0⟩
/-- RO, 1 bit, bit 4. Integration not allowed at the last boundary -/
def LE_LOOP_STAT_I_FROZEN (l : Nat) : Fld := ⟨8 * (0x73000 + 32 * l) + 4, 1, 0⟩
/-- RO, 1 bit, bit 5. Demand clamped at the last boundary -/
def LE_LOOP_STAT_AT_LIMIT (l : Nat) : Fld := ⟨8 * (0x73000 + 32 * l) + 5, 1, 0⟩
/-- RO, 1 bit, bit 6. Setting invalid under R248 -/
def LE_LOOP_STAT_CFG_BAD (l : Nat) : Fld := ⟨8 * (0x73000 + 32 * l) + 6, 1, 0⟩
/-- RO, 1 bit, bit 7. Active bank -/
def LE_LOOP_STAT_BANK (l : Nat) : Fld := ⟨8 * (0x73000 + 32 * l) + 7, 1, 0⟩
/-- W1C, 1 bit, bit 8. Feedback fault under R237 -/
def LE_LOOP_STAT_SRC_FAULT (l : Nat) : Fld := ⟨8 * (0x73000 + 32 * l) + 8, 1, 0⟩
/-- W1C, 1 bit, bit 9. Set-point fault under R237 -/
def LE_LOOP_STAT_SP_FAULT (l : Nat) : Fld := ⟨8 * (0x73000 + 32 * l) + 9, 1, 0⟩
/-- RO, 16 bit, bit 16. e, Q1.15 -/
def LE_LOOP_STAT_E (l : Nat) : Fld := ⟨8 * (0x73000 + 32 * l) + 16, 16, 0⟩
/-- RO, 16 bit, bit 32. f, Q1.15 -/
def LE_LOOP_STAT_F (l : Nat) : Fld := ⟨8 * (0x73000 + 32 * l) + 32, 16, 0⟩
/-- RO, 16 bit, bit 48. u, Q1.15 -/
def LE_LOOP_STAT_U (l : Nat) : Fld := ⟨8 * (0x73000 + 32 * l) + 48, 16, 0⟩
/-- RO, 16 bit, bit 64. r, Q1.15 -/
def LE_LOOP_STAT_R (l : Nat) : Fld := ⟨8 * (0x73000 + 32 * l) + 64, 16, 0⟩
/-- RO, 16 bit, bit 80. y, Q1.15 -/
def LE_LOOP_STAT_Y (l : Nat) : Fld := ⟨8 * (0x73000 + 32 * l) + 80, 16, 0⟩
/-- RO, 40 bit, bit 96. Integrator, Q10.30 -/
def LE_LOOP_STAT_I (l : Nat) : Fld := ⟨8 * (0x73000 + 32 * l) + 96, 40, 0⟩

/-! LE_ARENA_CFG: 09_loop_engine.md, register table, 256 bits. -/

/-- RW, 1 bit, bit 0. Arena enabled -/
def LE_ARENA_CFG_EN (g : Nat) : Fld := ⟨8 * (0x74000 + 32 * g) + 0, 1, 0⟩
/-- RW, 1 bit, bit 1. Governor takes part under R240 -/
def LE_ARENA_CFG_GOV (g : Nat) : Fld := ⟨8 * (0x74000 + 32 * g) + 1, 1, 1⟩
/-- RW, 2 bit, bit 2. Output kind under R243 -/
def LE_ARENA_CFG_OUT_KIND (g : Nat) : Fld := ⟨8 * (0x74000 + 32 * g) + 2, 2, 0⟩
/-- RW, 6 bit, bit 4. Axis, heater output or AO -/
def LE_ARENA_CFG_OUT_IDX (g : Nat) : Fld := ⟨8 * (0x74000 + 32 * g) + 4, 6, 0⟩
/-- RW, 6 bit, bit 16. Primary loop -/
def LE_ARENA_CFG_PRIMARY (g : Nat) : Fld := ⟨8 * (0x74000 + 32 * g) + 16, 6, 0⟩
/-- RW, 1 bit, bit 22. 0 flag, 1 muzzle, under R245 -/
def LE_ARENA_CFG_SAT_ACT (g : Nat) : Fld := ⟨8 * (0x74000 + 32 * g) + 22, 1, 0⟩
/-- RW, 16 bit, bit 32. Saturation level, Q1.15 magnitude; negative acts as 0 -/
def LE_ARENA_CFG_SAT_LVL (g : Nat) : Fld := ⟨8 * (0x74000 + 32 * g) + 32, 16, 32767⟩
/-- RW, 16 bit, bit 48. Saturation time in ms; 0 disables -/
def LE_ARENA_CFG_SAT_TIME (g : Nat) : Fld := ⟨8 * (0x74000 + 32 * g) + 48, 16, 0⟩
/-- RW, 14 bit, bit 64. Full steps/s at \|out\| = 1; 0 acts as 1, above 10,000 as 10,000 -/
def LE_ARENA_CFG_VMAX (g : Nat) : Fld := ⟨8 * (0x74000 + 32 * g) + 64, 14, 1000⟩
/-- RW, 16 bit, bit 80. Reservation in 0.1 W under R244 -/
def LE_ARENA_CFG_RES_W (g : Nat) : Fld := ⟨8 * (0x74000 + 32 * g) + 80, 16, 0⟩

/-! LE_ARENA_STAT: 09_loop_engine.md, register table, 128 bits. -/

/-- RO, 3 bit, bit 0. 0 OFF, 1 MUZZLED, 2 WAIT_BUDGET, 3 LIVE, 4 SAT_MUZZLED; 5–7 not used -/
def LE_ARENA_STAT_STATE (g : Nat) : Fld := ⟨8 * (0x74400 + 16 * g) + 0, 3, 0⟩
/-- RO, 1 bit, bit 3. Saturated at the last boundary -/
def LE_ARENA_STAT_SATURATED (g : Nat) : Fld := ⟨8 * (0x74400 + 16 * g) + 3, 1, 0⟩
/-- RO, 1 bit, bit 4. Output reports device saturation -/
def LE_ARENA_STAT_DEV_SAT (g : Nat) : Fld := ⟨8 * (0x74400 + 16 * g) + 4, 1, 0⟩
/-- RO, 1 bit, bit 5. Held under R250 -/
def LE_ARENA_STAT_HW_HELD (g : Nat) : Fld := ⟨8 * (0x74400 + 16 * g) + 5, 1, 0⟩
/-- RO, 1 bit, bit 6. Setting invalid under R248 -/
def LE_ARENA_STAT_CFG_BAD (g : Nat) : Fld := ⟨8 * (0x74400 + 16 * g) + 6, 1, 0⟩
/-- RO, 1 bit, bit 7. Armed in COMMISSION -/
def LE_ARENA_STAT_ARMED (g : Nat) : Fld := ⟨8 * (0x74400 + 16 * g) + 7, 1, 0⟩
/-- W1C, 1 bit, bit 8. Under R245 -/
def LE_ARENA_STAT_SAT_FAULT (g : Nat) : Fld := ⟨8 * (0x74400 + 16 * g) + 8, 1, 0⟩
/-- RO, 7 bit, bit 16. Loop 0 to 63, 64 governor, 127 none -/
def LE_ARENA_STAT_WINNER (g : Nat) : Fld := ⟨8 * (0x74400 + 16 * g) + 16, 7, 127⟩
/-- RO, 16 bit, bit 32. Arena output, Q1.15 -/
def LE_ARENA_STAT_OUT (g : Nat) : Fld := ⟨8 * (0x74400 + 16 * g) + 32, 16, 0⟩
/-- RO, 16 bit, bit 48. Governor value, Q1.15 -/
def LE_ARENA_STAT_GOV_VAL (g : Nat) : Fld := ⟨8 * (0x74400 + 16 * g) + 48, 16, 32767⟩
/-- RO, 32 bit, bit 64. Consecutive saturated time in ms, saturating -/
def LE_ARENA_STAT_SAT_MS (g : Nat) : Fld := ⟨8 * (0x74400 + 16 * g) + 64, 32, 0⟩

/-! LE_ARENA_CTRL: 09_loop_engine.md, register table, 32 bits. -/

/-- W1S, 1 bit, bit 0. Let the arena drive in COMMISSION -/
def LE_ARENA_CTRL_ARM (g : Nat) : Fld := ⟨8 * (0x74600 + 4 * g) + 0, 1, 0⟩
/-- W1S, 1 bit, bit 1. Muzzle the arena in COMMISSION -/
def LE_ARENA_CTRL_DISARM (g : Nat) : Fld := ⟨8 * (0x74600 + 4 * g) + 1, 1, 0⟩
/-- W1S, 1 bit, bit 2. Leave SAT_MUZZLED, or the muzzle after STOP, at the next boundary -/
def LE_ARENA_CTRL_RESTART (g : Nat) : Fld := ⟨8 * (0x74600 + 4 * g) + 2, 1, 0⟩

/-! LE_LOOP_CTRL: 09_loop_engine.md, register table, 32 bits. -/

/-- W1S, 1 bit, bit 0. I := 0 at the next boundary -/
def LE_LOOP_CTRL_I_CLR (l : Nat) : Fld := ⟨8 * (0x74800 + 4 * l) + 0, 1, 0⟩
/-- W1S, 1 bit, bit 1. I := I_VAL at the next boundary, clamped to I_LO and I_HI -/
def LE_LOOP_CTRL_I_SET (l : Nat) : Fld := ⟨8 * (0x74800 + 4 * l) + 1, 1, 0⟩
/-- W1S, 1 bit, bit 2. Recover from a latched FAULT under R237 -/
def LE_LOOP_CTRL_RESTART (l : Nat) : Fld := ⟨8 * (0x74800 + 4 * l) + 2, 1, 0⟩
/-- RW, 16 bit, bit 16. Operand of I_SET, Q1.15 -/
def LE_LOOP_CTRL_I_VAL (l : Nat) : Fld := ⟨8 * (0x74800 + 4 * l) + 16, 16, 0⟩

/-! DV_CARD_ID: 10_drives_and_outputs.md, register table, 32 bits. -/

/-- RO, 8 bit, bit 0. 0x01 JAD-16; 0x00 no card -/
def DV_CARD_ID_VARIANT : Fld := ⟨8 * (0x60000) + 0, 8, 0⟩
/-- RO, 8 bit, bit 8. Card hardware revision -/
def DV_CARD_ID_HWREV : Fld := ⟨8 * (0x60000) + 8, 8, 0⟩

/-! DV_CARD_STAT: 10_drives_and_outputs.md, register table, 32 bits. -/

/-- RO, 1 bit, bit 0. Card seated -/
def DV_CARD_STAT_PRESENT : Fld := ⟨8 * (0x60004) + 0, 1, 0⟩
/-- RO, 1 bit, bit 1. PD18 on -/
def DV_CARD_STAT_POWERED : Fld := ⟨8 * (0x60004) + 1, 1, 0⟩
/-- RO, 1 bit, bit 2. PD19 on and bridge supply above 30 V -/
def DV_CARD_STAT_BRIDGE_PWR : Fld := ⟨8 * (0x60004) + 2, 1, 0⟩
/-- RO, 1 bit, bit 3. Card giving service -/
def DV_CARD_STAT_IN_SERVICE : Fld := ⟨8 * (0x60004) + 3, 1, 0⟩
/-- RO, 1 bit, bit 4. /HALT asserted -/
def DV_CARD_STAT_HALT : Fld := ⟨8 * (0x60004) + 4, 1, 0⟩
/-- RO, 1 bit, bit 5. /AOCLR0 asserted -/
def DV_CARD_STAT_AOCLR0 : Fld := ⟨8 * (0x60004) + 5, 1, 0⟩
/-- RO, 1 bit, bit 6. /AOCLR1 asserted -/
def DV_CARD_STAT_AOCLR1 : Fld := ⟨8 * (0x60004) + 6, 1, 0⟩
/-- RO, 16 bit, bit 16. Bridge supply V_b, in 10 mV -/
def DV_CARD_STAT_BRIDGE_V : Fld := ⟨8 * (0x60004) + 16, 16, 0⟩

/-! DV_CFG: 10_drives_and_outputs.md, register table, 32 bits. -/

/-- RW, 16 bit, bit 0. Longest budget wait under R261, in ms; 0 acts as 1 -/
def DV_CFG_GRANT_WAIT : Fld := ⟨8 * (0x60010) + 0, 16, 10000⟩
/-- RW, 3 bit, bit 16. PWM period 64 × 2^HEAT_PER beats; 7 acts as 6 -/
def DV_CFG_HEAT_PER : Fld := ⟨8 * (0x60010) + 16, 3, 4⟩
/-- RW, 8 bit, bit 24. Reference voltage of R271, in V; below 36 acts as 36 -/
def DV_CFG_HEAT_VREF : Fld := ⟨8 * (0x60010) + 24, 8, 48⟩

/-! DV_CNT: 10_drives_and_outputs.md, register table, 128 bits. -/

/-- CNT, 32 bit, bit 0. Interlock events under R258, all axes -/
def DV_CNT_HB_CONFLICTS : Fld := ⟨8 * (0x60020) + 0, 32, 0⟩
/-- CNT, 32 bit, bit 32. Overcurrent trips, all axes and outputs -/
def DV_CNT_OVERCURRENTS : Fld := ⟨8 * (0x60020) + 32, 32, 0⟩
/-- CNT, 32 bit, bit 64. Motions ended with pulses stopped under R264 -/
def DV_CNT_INTERRUPTS : Fld := ⟨8 * (0x60020) + 64, 32, 0⟩
/-- CNT, 32 bit, bit 96. Moves completed BUDGET_DENIED -/
def DV_CNT_BUDGET_DENIED : Fld := ⟨8 * (0x60020) + 96, 32, 0⟩

/-! DV_CNT_CLR: 10_drives_and_outputs.md, register table, 32 bits. -/

/-- W1S, 4 bit, bit 0. Bit i clears the i-th counter of DV_CNT, in the order listed -/
def DV_CNT_CLR_CLR : Fld := ⟨8 * (0x60030) + 0, 4, 0⟩

/-! DV_UTAB_SEL: 10_drives_and_outputs.md, register table, 32 bits. -/

/-- RW, 2 bit, bit 0. User table 1 to 3; 0 acts as 1 -/
def DV_UTAB_SEL_TAB : Fld := ⟨8 * (0x60040) + 0, 2, 1⟩

/-! DV_UTAB_ADDR: 10_drives_and_outputs.md, register table, 32 bits. -/

/-- RWH, 8 bit, bit 0. Entry index; hardware adds 1 at each DV_UTAB_DATA access, wrapping at 256 -/
def DV_UTAB_ADDR_ADDR : Fld := ⟨8 * (0x60044) + 0, 8, 0⟩

/-! DV_UTAB_DATA: 10_drives_and_outputs.md, register table, 32 bits. -/

/-- RW, 16 bit, bit 0. Entry ADDR of the staging copy, Q1.15 -/
def DV_UTAB_DATA_DATA : Fld := ⟨8 * (0x60048) + 0, 16, 0⟩

/-! DV_UTAB_CTRL: 10_drives_and_outputs.md, register table, 32 bits. -/

/-- W1S, 1 bit, bit 0. Validate and activate under R255 -/
def DV_UTAB_CTRL_ACTIVATE : Fld := ⟨8 * (0x6004C) + 0, 1, 0⟩
/-- W1S, 1 bit, bit 1. Copy the active table into the staging copy -/
def DV_UTAB_CTRL_REVERT : Fld := ⟨8 * (0x6004C) + 1, 1, 0⟩
/-- RO, 2 bit, bit 8. Code of the last rejection; 0 none -/
def DV_UTAB_CTRL_REASON : Fld := ⟨8 * (0x6004C) + 8, 2, 0⟩
/-- W1C, 1 bit, bit 10. An activation was refused -/
def DV_UTAB_CTRL_REJECT : Fld := ⟨8 * (0x6004C) + 10, 1, 0⟩
/-- W1C, 1 bit, bit 11. An activation took effect -/
def DV_UTAB_CTRL_DONE : Fld := ⟨8 * (0x6004C) + 11, 1, 0⟩

/-! DV_AX_CFG: 10_drives_and_outputs.md, register table, 256 bits. -/

/-- RW, 2 bit, bit 0. 0 OFF, 1 STEPPER, 2 HEATER; 3 acts as 0 -/
def DV_AX_CFG_USE (a : Nat) : Fld := ⟨8 * (0x60100 + 32 * a) + 0, 2, 0⟩
/-- RW, 1 bit, bit 2. Reverse direction under R254 -/
def DV_AX_CFG_INVERT (a : Nat) : Fld := ⟨8 * (0x60100 + 32 * a) + 2, 1, 0⟩
/-- RW, 1 bit, bit 3. Keep POS_VALID when de-energised at rest, under R265 -/
def DV_AX_CFG_KEEP_POS (a : Nat) : Fld := ⟨8 * (0x60100 + 32 * a) + 3, 1, 0⟩
/-- RW, 2 bit, bit 4. Limits under R266; 3 acts as 2 -/
def DV_AX_CFG_LIM_MODE (a : Nat) : Fld := ⟨8 * (0x60100 + 32 * a) + 4, 2, 0⟩
/-- RW, 2 bit, bit 6. Microstep table 0 to 3 -/
def DV_AX_CFG_TAB (a : Nat) : Fld := ⟨8 * (0x60100 + 32 * a) + 6, 2, 0⟩
/-- RW, 1 bit, bit 8. Feed compensation under R271 -/
def DV_AX_CFG_HEAT_FC (a : Nat) : Fld := ⟨8 * (0x60100 + 32 * a) + 8, 1, 0⟩
/-- RW, 1 bit, bit 9. Axis has a stow position under R29 -/
def DV_AX_CFG_STOW_EN (a : Nat) : Fld := ⟨8 * (0x60100 + 32 * a) + 9, 1, 0⟩
/-- RW, 12 bit, bit 16. Run current, mA peak; above 4,000 acts as 4,000 -/
def DV_AX_CFG_I_RUN (a : Nat) : Fld := ⟨8 * (0x60100 + 32 * a) + 16, 12, 1000⟩
/-- RW, 12 bit, bit 32. Hold current, mA peak; above I_RUN acts as I_RUN -/
def DV_AX_CFG_I_HOLD (a : Nat) : Fld := ⟨8 * (0x60100 + 32 * a) + 32, 12, 300⟩
/-- RW, 16 bit, bit 48. Standstill time before I_HOLD, in ms -/
def DV_AX_CFG_HOLD_DELAY (a : Nat) : Fld := ⟨8 * (0x60100 + 32 * a) + 48, 16, 200⟩
/-- RW, 6 bit, bit 64. Off-time (T_OFF + 1) × 0.5 µs -/
def DV_AX_CFG_T_OFF (a : Nat) : Fld := ⟨8 * (0x60100 + 32 * a) + 64, 6, 15⟩
/-- RW, 4 bit, bit 70. Fast-decay fraction in sixteenths -/
def DV_AX_CFG_FD (a : Nat) : Fld := ⟨8 * (0x60100 + 32 * a) + 70, 4, 4⟩
/-- RW, 2 bit, bit 74. Blanking time (TBLANK + 1) × 0.5 µs -/
def DV_AX_CFG_TBLANK (a : Nat) : Fld := ⟨8 * (0x60100 + 32 * a) + 74, 2, 1⟩
/-- RW, 14 bit, bit 96. Default and largest speed, full steps/s; 0 acts as 1, above 10,000 as 10,000 -/
def DV_AX_CFG_VMAX (a : Nat) : Fld := ⟨8 * (0x60100 + 32 * a) + 96, 14, 1000⟩
/-- RW, 20 bit, bit 112. Acceleration, full steps/s²; 0 acts as 1, above 1,000,000 as 1,000,000 -/
def DV_AX_CFG_ACC (a : Nat) : Fld := ⟨8 * (0x60100 + 32 * a) + 112, 20, 10000⟩
/-- RW, 20 bit, bit 132. Deceleration, as ACC -/
def DV_AX_CFG_DEC (a : Nat) : Fld := ⟨8 * (0x60100 + 32 * a) + 132, 20, 10000⟩
/-- RW, 16 bit, bit 160. Run reservation, 0.1 W -/
def DV_AX_CFG_RUN_W (a : Nat) : Fld := ⟨8 * (0x60100 + 32 * a) + 160, 16, 0⟩
/-- RW, 16 bit, bit 176. Hold reservation, 0.1 W -/
def DV_AX_CFG_HOLD_W (a : Nat) : Fld := ⟨8 * (0x60100 + 32 * a) + 176, 16, 0⟩
/-- RW, 32 bit, bit 192. Stow position, signed microsteps -/
def DV_AX_CFG_STOW_POS (a : Nat) : Fld := ⟨8 * (0x60100 + 32 * a) + 192, 32, 0⟩
/-- RW, 14 bit, bit 224. Stow speed, full steps/s; 0 acts as 1 -/
def DV_AX_CFG_STOW_V (a : Nat) : Fld := ⟨8 * (0x60100 + 32 * a) + 224, 14, 100⟩

/-! DV_LIM_LO: 10_drives_and_outputs.md, register table, 32 bits. -/

/-- RW, 32 bit, bit 0. Low limit, signed microsteps, under R266 -/
def DV_LIM_LO_LO (a : Nat) : Fld := ⟨8 * (0x60400 + 4 * a) + 0, 32, 2147483648⟩

/-! DV_LIM_HI: 10_drives_and_outputs.md, register table, 32 bits. -/

/-- RW, 32 bit, bit 0. High limit, signed microsteps, under R266 -/
def DV_LIM_HI_HI (a : Nat) : Fld := ⟨8 * (0x60440 + 4 * a) + 0, 32, 2147483647⟩

/-! DV_AX_STAT: 10_drives_and_outputs.md, register table, 256 bits. -/

/-- RO, 3 bit, bit 0. 0 OFF, 1 MUZZLED, 2 HOLD, 3 MOVING, 4 WAIT_BUDGET, 5 HALTED, 6 FAULT, 7 LOCKOUT -/
def DV_AX_STAT_STATE (a : Nat) : Fld := ⟨8 * (0x60500 + 32 * a) + 0, 3, 0⟩
/-- RO, 1 bit, bit 3. Under R265 -/
def DV_AX_STAT_POS_VALID (a : Nat) : Fld := ⟨8 * (0x60500 + 32 * a) + 3, 1, 0⟩
/-- RO, 1 bit, bit 4. Driven by an enabled arena -/
def DV_AX_STAT_ARENA (a : Nat) : Fld := ⟨8 * (0x60500 + 32 * a) + 4, 1, 0⟩
/-- RO, 1 bit, bit 5. In a running group move -/
def DV_AX_STAT_GROUP (a : Nat) : Fld := ⟨8 * (0x60500 + 32 * a) + 5, 1, 0⟩
/-- RO, 1 bit, bit 6. Stopped at the low limit -/
def DV_AX_STAT_AT_LIM_LO (a : Nat) : Fld := ⟨8 * (0x60500 + 32 * a) + 6, 1, 0⟩
/-- RO, 1 bit, bit 7. Stopped at the high limit -/
def DV_AX_STAT_AT_LIM_HI (a : Nat) : Fld := ⟨8 * (0x60500 + 32 * a) + 7, 1, 0⟩
/-- RO, 1 bit, bit 8. Phase A open under R270 -/
def DV_AX_STAT_OPEN_A (a : Nat) : Fld := ⟨8 * (0x60500 + 32 * a) + 8, 1, 0⟩
/-- RO, 1 bit, bit 9. Phase B open under R270 -/
def DV_AX_STAT_OPEN_B (a : Nat) : Fld := ⟨8 * (0x60500 + 32 * a) + 9, 1, 0⟩
/-- RO, 1 bit, bit 10. Bridge above 120 °C -/
def DV_AX_STAT_HOT (a : Nat) : Fld := ⟨8 * (0x60500 + 32 * a) + 10, 1, 0⟩
/-- RO, 1 bit, bit 11. Setting invalid under R280 -/
def DV_AX_STAT_CFG_BAD (a : Nat) : Fld := ⟨8 * (0x60500 + 32 * a) + 11, 1, 0⟩
/-- W1C, 1 bit, bit 16. Under R258 -/
def DV_AX_STAT_HB_CONFLICT (a : Nat) : Fld := ⟨8 * (0x60500 + 32 * a) + 16, 1, 0⟩
/-- W1C, 1 bit, bit 17. Under R270 -/
def DV_AX_STAT_OVERCURRENT (a : Nat) : Fld := ⟨8 * (0x60500 + 32 * a) + 17, 1, 0⟩
/-- W1C, 1 bit, bit 18. Under R270 -/
def DV_AX_STAT_OVERTEMP (a : Nat) : Fld := ⟨8 * (0x60500 + 32 * a) + 18, 1, 0⟩
/-- W1C, 1 bit, bit 19. An open phase or heater output occurred -/
def DV_AX_STAT_OPEN_SEEN (a : Nat) : Fld := ⟨8 * (0x60500 + 32 * a) + 19, 1, 0⟩
/-- W1C, 1 bit, bit 20. Under R266 -/
def DV_AX_STAT_LIMIT_HIT (a : Nat) : Fld := ⟨8 * (0x60500 + 32 * a) + 20, 1, 0⟩
/-- W1C, 1 bit, bit 21. Under R264 -/
def DV_AX_STAT_INTERRUPTED (a : Nat) : Fld := ⟨8 * (0x60500 + 32 * a) + 21, 1, 0⟩
/-- W1C, 1 bit, bit 22. A heater output tripped -/
def DV_AX_STAT_HEAT_SHORT (a : Nat) : Fld := ⟨8 * (0x60500 + 32 * a) + 22, 1, 0⟩
/-- RO, 32 bit, bit 32. p, signed microsteps -/
def DV_AX_STAT_POS (a : Nat) : Fld := ⟨8 * (0x60500 + 32 * a) + 32, 32, 0⟩
/-- RO, 32 bit, bit 64. Velocity, signed microsteps/s -/
def DV_AX_STAT_VEL (a : Nat) : Fld := ⟨8 * (0x60500 + 32 * a) + 64, 32, 0⟩
/-- RO, 16 bit, bit 96. Phase A set-point, signed mA -/
def DV_AX_STAT_IA_SET (a : Nat) : Fld := ⟨8 * (0x60500 + 32 * a) + 96, 16, 0⟩
/-- RO, 16 bit, bit 112. Phase B set-point, signed mA -/
def DV_AX_STAT_IB_SET (a : Nat) : Fld := ⟨8 * (0x60500 + 32 * a) + 112, 16, 0⟩
/-- RO, 4 bit, bit 128. Bit h: heater output h off after a trip -/
def DV_AX_STAT_HEAT_OFF (a : Nat) : Fld := ⟨8 * (0x60500 + 32 * a) + 128, 4, 0⟩
/-- RO, 4 bit, bit 132. Bit h: heater output h open now -/
def DV_AX_STAT_HEAT_OPEN (a : Nat) : Fld := ⟨8 * (0x60500 + 32 * a) + 132, 4, 0⟩
/-- RO, 8 bit, bit 136. Bridge temperature, signed °C -/
def DV_AX_STAT_TEMP (a : Nat) : Fld := ⟨8 * (0x60500 + 32 * a) + 136, 8, 0⟩

/-! DV_AX_CTRL: 10_drives_and_outputs.md, register table, 64 bits. -/

/-- W1S, 1 bit, bit 0. p := VALUE under R265 -/
def DV_AX_CTRL_SET_POS (a : Nat) : Fld := ⟨8 * (0x60700 + 8 * a) + 0, 1, 0⟩
/-- W1S, 1 bit, bit 1. Leave FAULT, and clear heater trips, under R270 -/
def DV_AX_CTRL_CLR_FAULT (a : Nat) : Fld := ⟨8 * (0x60700 + 8 * a) + 1, 1, 0⟩
/-- W1S, 1 bit, bit 2. Under R281 -/
def DV_AX_CTRL_MUZZLE (a : Nat) : Fld := ⟨8 * (0x60700 + 8 * a) + 2, 1, 0⟩
/-- W1S, 1 bit, bit 3. Under R281 -/
def DV_AX_CTRL_ENERGISE (a : Nat) : Fld := ⟨8 * (0x60700 + 8 * a) + 3, 1, 0⟩
/-- RW, 32 bit, bit 32. Operand of SET_POS, signed microsteps -/
def DV_AX_CTRL_VALUE (a : Nat) : Fld := ⟨8 * (0x60700 + 8 * a) + 32, 32, 0⟩

/-! DV_HEAT: 10_drives_and_outputs.md, register table, 64 bits. -/

/-- RW, 16 bit, bit 0. Duty of output h, h = 0 to 3, Q1.15; negative acts as 0 -/
def DV_HEAT_DUTY (a h : Nat) : Fld := ⟨8 * (0x60780 + 8 * a) + (0 + 16 * h), 16, 0⟩

/-! AO_CFG: 10_drives_and_outputs.md, register table, 256 bits. -/

/-- RW, 1 bit, bit 0. Output enabled; clear code while 0 -/
def AO_CFG_EN (o : Nat) : Fld := ⟨8 * (0x64000 + 32 * o) + 0, 1, 0⟩
/-- RW, 1 bit, bit 1. 0 ±10.24 V, 1 0 to 24 mA -/
def AO_CFG_RANGE (o : Nat) : Fld := ⟨8 * (0x64000 + 32 * o) + 1, 1, 0⟩
/-- RW, 1 bit, bit 2. 0 internal 24 V loop supply, 1 external -/
def AO_CFG_LOOP_EXT (o : Nat) : Fld := ⟨8 * (0x64000 + 32 * o) + 2, 1, 0⟩
/-- RW, 2 bit, bit 3. 0 HOST, 1 ARENA, 2 SINE; 3 acts as 0 -/
def AO_CFG_SRC (o : Nat) : Fld := ⟨8 * (0x64000 + 32 * o) + 3, 2, 0⟩
/-- RW, 16 bit, bit 16. Largest change per beat in 256 LSB; 0 unlimited -/
def AO_CFG_SLEW (o : Nat) : Fld := ⟨8 * (0x64000 + 32 * o) + 16, 16, 0⟩
/-- RW, 48 bit, bit 64. Sine phase increment per MCLK, 2^−48 turn; above 10 kHz acts as 10 kHz -/
def AO_CFG_FREQ (o : Nat) : Fld := ⟨8 * (0x64000 + 32 * o) + 64, 48, 0⟩
/-- RW, 16 bit, bit 112. Sine phase offset, Q0.16 turn -/
def AO_CFG_PHASE (o : Nat) : Fld := ⟨8 * (0x64000 + 32 * o) + 112, 16, 0⟩
/-- RW, 24 bit, bit 128. Sine amplitude, unsigned code -/
def AO_CFG_SINE_AMP (o : Nat) : Fld := ⟨8 * (0x64000 + 32 * o) + 128, 24, 0⟩
/-- RW, 24 bit, bit 160. Sine offset, code of the range -/
def AO_CFG_SINE_OFS (o : Nat) : Fld := ⟨8 * (0x64000 + 32 * o) + 160, 24, 0⟩

/-! AO_CODE: 10_drives_and_outputs.md, register table, 32 bits. -/

/-- RW, 24 bit, bit 0. Host code under R273 -/
def AO_CODE_CODE (o : Nat) : Fld := ⟨8 * (0x64200 + 4 * o) + 0, 24, 0⟩

/-! AO_CLEAR_CODE: 10_drives_and_outputs.md, register table, 32 bits. -/

/-- RW, 24 bit, bit 0. Clear and muzzle code under R276 -/
def AO_CLEAR_CODE_CODE (o : Nat) : Fld := ⟨8 * (0x64240 + 4 * o) + 0, 24, 0⟩

/-! AO_STAT: 10_drives_and_outputs.md, register table, 128 bits. -/

/-- RO, 3 bit, bit 0. 0 OFF, 1 CLEARED, 2 WAIT_BUDGET, 3 LIVE; 4–7 not used -/
def AO_STAT_STATE (o : Nat) : Fld := ⟨8 * (0x64300 + 16 * o) + 0, 3, 0⟩
/-- RO, 1 bit, bit 3. Under R278 -/
def AO_STAT_COMPLIANCE (o : Nat) : Fld := ⟨8 * (0x64300 + 16 * o) + 3, 1, 0⟩
/-- RO, 1 bit, bit 4. Under R278 -/
def AO_STAT_OPEN (o : Nat) : Fld := ⟨8 * (0x64300 + 16 * o) + 4, 1, 0⟩
/-- RO, 1 bit, bit 5. Under R278 -/
def AO_STAT_OVERLOAD (o : Nat) : Fld := ⟨8 * (0x64300 + 16 * o) + 5, 1, 0⟩
/-- RO, 1 bit, bit 6. Under R277 -/
def AO_STAT_CLIP (o : Nat) : Fld := ⟨8 * (0x64300 + 16 * o) + 6, 1, 0⟩
/-- RO, 1 bit, bit 7. Held by /AOCLR0 or /AOCLR1 -/
def AO_STAT_CLR_PIN (o : Nat) : Fld := ⟨8 * (0x64300 + 16 * o) + 7, 1, 0⟩
/-- W1C, 1 bit, bit 8. A compliance onset occurred -/
def AO_STAT_COMPL_SEEN (o : Nat) : Fld := ⟨8 * (0x64300 + 16 * o) + 8, 1, 0⟩
/-- W1C, 1 bit, bit 9. An open loop occurred -/
def AO_STAT_OPEN_SEEN (o : Nat) : Fld := ⟨8 * (0x64300 + 16 * o) + 9, 1, 0⟩
/-- W1C, 1 bit, bit 10. An overload occurred -/
def AO_STAT_OVERLOAD_SEEN (o : Nat) : Fld := ⟨8 * (0x64300 + 16 * o) + 10, 1, 0⟩
/-- RO, 1 bit, bit 11. Setting invalid under R280 -/
def AO_STAT_CFG_BAD (o : Nat) : Fld := ⟨8 * (0x64300 + 16 * o) + 11, 1, 0⟩
/-- RO, 24 bit, bit 32. Code applied now -/
def AO_STAT_CODE_NOW (o : Nat) : Fld := ⟨8 * (0x64300 + 16 * o) + 32, 24, 0⟩
/-- RO, 32 bit, bit 64. Measured voltage, signed µV -/
def AO_STAT_V_READ (o : Nat) : Fld := ⟨8 * (0x64300 + 16 * o) + 64, 32, 0⟩
/-- RO, 32 bit, bit 96. Measured current, signed nA -/
def AO_STAT_I_READ (o : Nat) : Fld := ⟨8 * (0x64300 + 16 * o) + 96, 32, 0⟩

/-! AO_CNT: 10_drives_and_outputs.md, register table, 64 bits. -/

/-- CNT, 32 bit, bit 0. Compliance onsets, all outputs -/
def AO_CNT_COMPL_EVENTS : Fld := ⟨8 * (0x64400) + 0, 32, 0⟩
/-- CNT, 32 bit, bit 32. Open-loop onsets, all outputs -/
def AO_CNT_OPEN_EVENTS : Fld := ⟨8 * (0x64400) + 32, 32, 0⟩

/-! AO_CNT_CLR: 10_drives_and_outputs.md, register table, 32 bits. -/

/-- W1S, 2 bit, bit 0. Bit i clears the i-th counter of AO_CNT, in the order listed -/
def AO_CNT_CLR_CLR : Fld := ⟨8 * (0x64410) + 0, 2, 0⟩

/-! PW_CEIL: 11_energy_heat_background.md, register table, 32 bits. -/

/-- RW, 14 bit, bit 0. Drive ceiling in 0.1 W under R285; above 9,000 acts as 9,000 -/
def PW_CEIL_CEIL : Fld := ⟨8 * (0x4000) + 0, 14, 6000⟩

/-! PW_CFG: 11_energy_heat_background.md, register table, 32 bits. -/

/-- RW, 14 bit, bit 0. Input power limit in 0.1 W; below 3,000 acts as 3,000, above 11,600 as 11,600 -/
def PW_CFG_FEED_LIM : Fld := ⟨8 * (0x4004) + 0, 14, 11600⟩
/-- RW, 8 bit, bit 16. Longest power-up wait under R289, in s; 0 acts as 1 -/
def PW_CFG_SVC_WAIT : Fld := ⟨8 * (0x4004) + 16, 8, 10⟩
/-- RW, 8 bit, bit 24. Lowest fan speed, %; below 30 acts as 30, above 100 as 100 -/
def PW_CFG_FAN_MIN : Fld := ⟨8 * (0x4004) + 24, 8, 30⟩

/-! PW_THERM_CFG: 11_energy_heat_background.md, register table, 32 bits. -/

/-- RW, 13 bit, bit 0. Site altitude in m under R295; above 5,500 acts as 5,500 -/
def PW_THERM_CFG_ALT : Fld := ⟨8 * (0x4008) + 0, 13, 0⟩

/-! PW_DOMAIN_CTRL: 11_energy_heat_background.md, register table, 32 bits. -/

/-- RWH, 30 bit, bit 0. Bit d requests PDd on. Written directly only in the modes where R16 accepts direct writes, and handled as a CARD_SERVICE request under R20 and R288. Hardware writes each bit to the state it settles on -/
def PW_DOMAIN_CTRL_REQ : Fld := ⟨8 * (0x4010) + 0, 30, 0⟩

/-! PW_DOMAIN_STAT: 11_energy_heat_background.md, register table, 32 bits. -/

/-- RO, 30 bit, bit 0. Bit d: PDd on -/
def PW_DOMAIN_STAT_ON : Fld := ⟨8 * (0x4014) + 0, 30, 0⟩
/-- RO, 1 bit, bit 30. Feed A supplies AON -/
def PW_DOMAIN_STAT_AON_A : Fld := ⟨8 * (0x4014) + 30, 1, 0⟩
/-- RO, 1 bit, bit 31. Feed B supplies AON -/
def PW_DOMAIN_STAT_AON_B : Fld := ⟨8 * (0x4014) + 31, 1, 0⟩

/-! PW_BOOK: 11_energy_heat_background.md, register table, 128 bits. -/

/-- RO, 16 bit, bit 0. Budget in 0.1 W -/
def PW_BOOK_BUDGET (k : Nat) : Fld := ⟨8 * (0x4020 + 16 * k) + 0, 16, 0⟩
/-- RO, 16 bit, bit 16. Granted in 0.1 W -/
def PW_BOOK_GRANTED (k : Nat) : Fld := ⟨8 * (0x4020 + 16 * k) + 16, 16, 0⟩
/-- RO, 16 bit, bit 32. Free in 0.1 W, signed, under R286 -/
def PW_BOOK_FREE (k : Nat) : Fld := ⟨8 * (0x4020 + 16 * k) + 32, 16, 0⟩
/-- RO, 8 bit, bit 48. Requests waiting, saturating at 255 -/
def PW_BOOK_WAITING (k : Nat) : Fld := ⟨8 * (0x4020 + 16 * k) + 48, 8, 0⟩
/-- RO, 3 bit, bit 56. 0 CEIL, 1 FEED, 2 THERM, 3 STOW, 4 FIXED; 5–7 not used -/
def PW_BOOK_LIMIT (k : Nat) : Fld := ⟨8 * (0x4020 + 16 * k) + 56, 3, 0⟩
/-- RO, 32 bit, bit 64. Time of the present or last deficit, ms, saturating -/
def PW_BOOK_DEFICIT_MS (k : Nat) : Fld := ⟨8 * (0x4020 + 16 * k) + 64, 32, 0⟩

/-! PW_GOV: 11_energy_heat_background.md, register table, 32 bits. -/

/-- RO, 16 bit, bit 0. f of R290, Q1.15 -/
def PW_GOV_GOV_VAL : Fld := ⟨8 * (0x4040) + 0, 16, 32767⟩
/-- RO, 1 bit, bit 16. Under R291 -/
def PW_GOV_OVERDRAW : Fld := ⟨8 * (0x4040) + 16, 1, 0⟩

/-! PW_FEED: 11_energy_heat_background.md, register table, 64 bits. -/

/-- RO, 16 bit, bit 0. Feed voltage, 10 mV -/
def PW_FEED_V (f : Nat) : Fld := ⟨8 * (0x4048 + 8 * f) + 0, 16, 0⟩
/-- RO, 16 bit, bit 16. Feed power, 100 ms mean, 0.1 W -/
def PW_FEED_P (f : Nat) : Fld := ⟨8 * (0x4048 + 8 * f) + 16, 16, 0⟩
/-- RO, 2 bit, bit 32. 0 absent, 1 low, 2 in range, 3 high, as defined in *Connectors, supply and environment* -/
def PW_FEED_STATE (f : Nat) : Fld := ⟨8 * (0x4048 + 8 * f) + 32, 2, 0⟩

/-! PW_THERM_STAT: 11_energy_heat_background.md, register table, 64 bits. -/

/-- RO, 2 bit, bit 0. 0 NORMAL, 1 LIMIT, 2 WARN, 3 CRITICAL -/
def PW_THERM_STAT_STATE : Fld := ⟨8 * (0x4058) + 0, 2, 0⟩
/-- RO, 5 bit, bit 8. Sensor with the least margin to its warn limit -/
def PW_THERM_STAT_HOTTEST : Fld := ⟨8 * (0x4058) + 8, 5, 0⟩
/-- RO, 16 bit, bit 16. D_W of R296, Q1.15 -/
def PW_THERM_STAT_DW : Fld := ⟨8 * (0x4058) + 16, 16, 32767⟩
/-- RO, 16 bit, bit 32. B_TH in 0.1 W, saturating -/
def PW_THERM_STAT_B_TH : Fld := ⟨8 * (0x4058) + 32, 16, 0⟩
/-- RO, 8 bit, bit 48. G of R295 in 0.1 W/K -/
def PW_THERM_STAT_G : Fld := ⟨8 * (0x4058) + 48, 8, 0⟩

/-! PW_TEMP: 11_energy_heat_background.md, register table, 32 bits. -/

/-- RO, 16 bit, bit 0. Temperature, signed, 1/16 °C -/
def PW_TEMP_T (s : Nat) : Fld := ⟨8 * (0x4100 + 4 * s) + 0, 16, 0⟩
/-- RO, 1 bit, bit 16. At or above the warn limit -/
def PW_TEMP_WARN (s : Nat) : Fld := ⟨8 * (0x4100 + 4 * s) + 16, 1, 0⟩
/-- RO, 1 bit, bit 17. At or above the critical limit -/
def PW_TEMP_CRIT (s : Nat) : Fld := ⟨8 * (0x4100 + 4 * s) + 17, 1, 0⟩
/-- RO, 1 bit, bit 18. Left out under R294 -/
def PW_TEMP_FAULT (s : Nat) : Fld := ⟨8 * (0x4100 + 4 * s) + 18, 1, 0⟩

/-! PW_FAN: 11_energy_heat_background.md, register table, 64 bits. -/

/-- RO, 3 bit, bit 0. 0 OK, 1 TACHO_LOST, 2 SLOW, 3 BLOCKED, 4 OPEN, 5 ABSENT, 6 TEST; 7 not used -/
def PW_FAN_STATE (v : Nat) : Fld := ⟨8 * (0x4200 + 8 * v) + 0, 3, 5⟩
/-- RO, 8 bit, bit 8. Commanded speed, % -/
def PW_FAN_SPEED (v : Nat) : Fld := ⟨8 * (0x4200 + 8 * v) + 8, 8, 0⟩
/-- RO, 16 bit, bit 16. Measured speed -/
def PW_FAN_RPM (v : Nat) : Fld := ⟨8 * (0x4200 + 8 * v) + 16, 16, 0⟩
/-- RO, 16 bit, bit 32. Motor current, mA -/
def PW_FAN_CURRENT (v : Nat) : Fld := ⟨8 * (0x4200 + 8 * v) + 32, 16, 0⟩
/-- RO, 4 bit, bit 48. Failed BLOCKED retries -/
def PW_FAN_RETRIES (v : Nat) : Fld := ⟨8 * (0x4200 + 8 * v) + 48, 4, 0⟩

/-! PW_ENERGY: 11_energy_heat_background.md, register table, 192 bits. -/

/-- RO, 64 bit, bit 0. Energy taken from feed A since manufacture, mJ -/
def PW_ENERGY_FEED_A : Fld := ⟨8 * (0x4300) + 0, 64, 0⟩
/-- RO, 64 bit, bit 64. Energy taken from feed B, mJ -/
def PW_ENERGY_FEED_B : Fld := ⟨8 * (0x4300) + 64, 64, 0⟩
/-- RO, 64 bit, bit 128. Energy delivered to the bridge supply, mJ -/
def PW_ENERGY_DRIVE : Fld := ⟨8 * (0x4300) + 128, 64, 0⟩

/-! PW_CNT: 11_energy_heat_background.md, register table, 128 bits. -/

/-- CNT, 32 bit, bit 0. Requests that waited, both books -/
def PW_CNT_WAITS : Fld := ⟨8 * (0x4320) + 0, 32, 0⟩
/-- CNT, 32 bit, bit 32. Requests denied under R289 -/
def PW_CNT_DENIED : Fld := ⟨8 * (0x4320) + 32, 32, 0⟩
/-- CNT, 32 bit, bit 64. Background yields under R293 -/
def PW_CNT_YIELDS : Fld := ⟨8 * (0x4320) + 64, 32, 0⟩
/-- CNT, 32 bit, bit 96. Overdraw onsets under R291 -/
def PW_CNT_OVERDRAW : Fld := ⟨8 * (0x4320) + 96, 32, 0⟩

/-! PW_CNT_CLR: 11_energy_heat_background.md, register table, 32 bits. -/

/-- W1S, 4 bit, bit 0. Bit i clears the i-th counter of PW_CNT, in the order listed -/
def PW_CNT_CLR_CLR : Fld := ⟨8 * (0x4330) + 0, 4, 0⟩

/-! HP_CTRL: 12_host_rings.md, register table, 32 bits. -/

/-- RWH, 1 bit, bit 0. Rings enabled under R303; hardware clears it under R302 -/
def HP_CTRL_EN : Fld := ⟨8 * (0x1000) + 0, 1, 0⟩
/-- RO, 1 bit, bit 1. Set-up accepted -/
def HP_CTRL_READY : Fld := ⟨8 * (0x1000) + 1, 1, 0⟩

/-! HP_STAT: 12_host_rings.md, register table, 64 bits. -/

/-- RO, 1 bit, bit 0. Link in L0 -/
def HP_STAT_LINK_UP : Fld := ⟨8 * (0x1008) + 0, 1, 0⟩
/-- RO, 3 bit, bit 1. 1 2.5, 2 5, 3 8, 4 16 GT/s -/
def HP_STAT_SPEED : Fld := ⟨8 * (0x1008) + 1, 3, 0⟩
/-- RO, 4 bit, bit 4. Lanes: 1, 2, 4 or 8 -/
def HP_STAT_WIDTH : Fld := ⟨8 * (0x1008) + 4, 4, 0⟩
/-- RO, 1 bit, bit 8. Doorbell polling running -/
def HP_STAT_POLLING : Fld := ⟨8 * (0x1008) + 8, 1, 0⟩
/-- RO, 4 bit, bit 12. 1 base misaligned or zero, 2 ring size, 3 overlap; 0 none -/
def HP_STAT_SETUP_ERR : Fld := ⟨8 * (0x1008) + 12, 4, 0⟩
/-- W1C, 1 bit, bit 16. Under R305 -/
def HP_STAT_DB_ERR : Fld := ⟨8 * (0x1008) + 16, 1, 0⟩
/-- W1C, 1 bit, bit 17. Under R305 -/
def HP_STAT_DB_BAD : Fld := ⟨8 * (0x1008) + 17, 1, 0⟩
/-- W1C, 1 bit, bit 18. Completions discarded under R302 -/
def HP_STAT_CPL_DROP : Fld := ⟨8 * (0x1008) + 18, 1, 0⟩
/-- RO, 11 bit, bit 32. Commands in flight, 0 to 1,024 -/
def HP_STAT_INFLIGHT : Fld := ⟨8 * (0x1008) + 32, 11, 0⟩

/-! HP_DB_BASE: 12_host_rings.md, register table, 64 bits. -/

/-- RW, 52 bit, bit 12. Doorbell block address -/
def HP_DB_BASE_BASE : Fld := ⟨8 * (0x1010) + 12, 52, 0⟩

/-! HP_STATUS_BASE: 12_host_rings.md, register table, 64 bits. -/

/-- RW, 52 bit, bit 12. Status block address -/
def HP_STATUS_BASE_BASE : Fld := ⟨8 * (0x1018) + 12, 52, 0⟩

/-! HP_SBUF_TAB: 12_host_rings.md, register table, 64 bits. -/

/-- RW, 52 bit, bit 12. Stream buffer table address under R318 -/
def HP_SBUF_TAB_BASE : Fld := ⟨8 * (0x1020) + 12, 52, 0⟩

/-! HP_CMD_RING: 12_host_rings.md, register table, 64 bits. -/

/-- RW, 4 bit, bit 0. Ring of 2^N entries, N from 4 to 15 -/
def HP_CMD_RING_N : Fld := ⟨8 * (0x1028) + 0, 4, 0⟩
/-- RW, 52 bit, bit 12. Ring address -/
def HP_CMD_RING_BASE : Fld := ⟨8 * (0x1028) + 12, 52, 0⟩

/-! HP_CPL_RING: 12_host_rings.md, register table, 64 bits. -/

/-- RW, 4 bit, bit 0. Ring of 2^N entries, N from 4 to 15 -/
def HP_CPL_RING_N : Fld := ⟨8 * (0x1030) + 0, 4, 0⟩
/-- RW, 52 bit, bit 12. Ring address -/
def HP_CPL_RING_BASE : Fld := ⟨8 * (0x1030) + 12, 52, 0⟩

/-! HP_EVT_RING: 12_host_rings.md, register table, 64 bits. -/

/-- RW, 4 bit, bit 0. Ring of 2^N entries, N from 4 to 15 -/
def HP_EVT_RING_N : Fld := ⟨8 * (0x1038) + 0, 4, 0⟩
/-- RW, 52 bit, bit 12. Ring address -/
def HP_EVT_RING_BASE : Fld := ⟨8 * (0x1038) + 12, 52, 0⟩

/-! HP_DB_POLL: 12_host_rings.md, register table, 32 bits. -/

/-- RW, 10 bit, bit 0. Poll interval in µs; 0 acts as 1; above 1,000 acts as 1,000 -/
def HP_DB_POLL_POLL : Fld := ⟨8 * (0x1040) + 0, 10, 20⟩

/-! HP_CNT: 12_host_rings.md, register table, 128 bits. -/

/-- CNT, 32 bit, bit 0. Failed doorbell reads -/
def HP_CNT_DB_ERRORS : Fld := ⟨8 * (0x1060) + 0, 32, 0⟩
/-- CNT, 32 bit, bit 32. Completions discarded under R302 -/
def HP_CNT_CPL_DROPPED : Fld := ⟨8 * (0x1060) + 32, 32, 0⟩
/-- CNT, 32 bit, bit 64. Records written with LATE -/
def HP_CNT_LATE_RECORDS : Fld := ⟨8 * (0x1060) + 64, 32, 0⟩
/-- CNT, 32 bit, bit 96. Records written by REPLAY -/
def HP_CNT_REPLAY_RECORDS : Fld := ⟨8 * (0x1060) + 96, 32, 0⟩

/-! HP_CNT_CLR: 12_host_rings.md, register table, 32 bits. -/

/-- W1S, 4 bit, bit 0. Bit i clears the i-th counter of HP_CNT, in the order listed -/
def HP_CNT_CLR_CLR : Fld := ⟨8 * (0x1070) + 0, 4, 0⟩

/-! HP_IRQ_MOD: 12_host_rings.md, register table, 32 bits. -/

/-- RW, 16 bit, bit 0. Least spacing of vector v's messages, µs; 0 no spacing -/
def HP_IRQ_MOD_MOD (v : Nat) : Fld := ⟨8 * (0x1100 + 4 * v) + 0, 16, 10⟩

/-! BQ_STATUS: 12_host_rings.md, register table, 32 bits. -/

/-- RO, 1 bit, bit 0. No word of a complete packet remains -/
def BQ_STATUS_EMPTY : Fld := ⟨8 * (0xC000) + 0, 1, 1⟩
/-- W1C, 1 bit, bit 1. Under R326 -/
def BQ_STATUS_UNDERRUN : Fld := ⟨8 * (0xC000) + 1, 1, 0⟩
/-- W1C, 1 bit, bit 2. Under R325 -/
def BQ_STATUS_RESYNC : Fld := ⟨8 * (0xC000) + 2, 1, 0⟩
/-- RO, 15 bit, bit 16. Words in use, 0 to 16,384 -/
def BQ_STATUS_LEVEL : Fld := ⟨8 * (0xC000) + 16, 15, 0⟩

/-! BQ_CTRL: 12_host_rings.md, register table, 32 bits. -/

/-- RWH, 1 bit, bit 0. Host pops under R326; writable in SAFE and COMMISSION; in other modes a write of 1 is discarded or refused under R326, and the bit reads 0; hardware clears it on leaving them -/
def BQ_CTRL_HOST_POP : Fld := ⟨8 * (0xC004) + 0, 1, 0⟩
/-- W1S, 1 bit, bit 1. Flush under R327 -/
def BQ_CTRL_FLUSH : Fld := ⟨8 * (0xC004) + 1, 1, 0⟩

/-! BQ_POP: 12_host_rings.md, register table, 32 bits. -/

/-- RO, 32 bit, bit 0. Next queue word; each read advances the queue while HOST_POP = 1, and reads 0 without advancing otherwise -/
def BQ_POP_WORD : Fld := ⟨8 * (0xC008) + 0, 32, 0⟩

/-! BQ_LOST: 12_host_rings.md, register table, 32 bits. -/

/-- CNT, 32 bit, bit 0. Packets overwritten or discarded under R325 and R326; saturating -/
def BQ_LOST_LOST : Fld := ⟨8 * (0xC010) + 0, 32, 0⟩

/-! BQ_FLUSHED: 12_host_rings.md, register table, 32 bits. -/

/-- CNT, 32 bit, bit 0. Packets, whole or partial, discarded under R327; saturating -/
def BQ_FLUSHED_FLUSHED : Fld := ⟨8 * (0xC014) + 0, 32, 0⟩

/-! BQ_CNT_CLR: 12_host_rings.md, register table, 32 bits. -/

/-- W1S, 1 bit, bit 0. Clears BQ_LOST -/
def BQ_CNT_CLR_LOST : Fld := ⟨8 * (0xC018) + 0, 1, 0⟩
/-- W1S, 1 bit, bit 1. Clears BQ_FLUSHED -/
def BQ_CNT_CLR_FLUSHED : Fld := ⟨8 * (0xC018) + 1, 1, 0⟩

/-! LK_STAT: 12_host_rings.md, register table, 64 bits. -/

/-- RO, 1 bit, bit 0. Leash held -/
def LK_STAT_HELD (n : Nat) : Fld := ⟨8 * (0x7000 + 8 * n) + 0, 1, 0⟩
/-- RO, 1 bit, bit 1. Broken and not retaken -/
def LK_STAT_BROKEN (n : Nat) : Fld := ⟨8 * (0x7000 + 8 * n) + 1, 1, 0⟩
/-- RO, 3 bit, bit 8. Owner ID of R328; 0 none -/
def LK_STAT_OWNER (n : Nat) : Fld := ⟨8 * (0x7000 + 8 * n) + 8, 3, 0⟩
/-- RO, 32 bit, bit 32. Epoch, modular -/
def LK_STAT_EPOCH (n : Nat) : Fld := ⟨8 * (0x7000 + 8 * n) + 32, 32, 0⟩

/-! LK_CFG: 12_host_rings.md, register table, 32 bits. -/

/-- RW, 3 bit, bit 0. Guard kind under R329; 7 acts as 0, and so does a kind whose INDEX lies beyond its range -/
def LK_CFG_GUARD (n : Nat) : Fld := ⟨8 * (0x7100 + 4 * n) + 0, 3, 0⟩
/-- RW, 6 bit, bit 8. Resource index; beyond the kind's range the leash acts as GUARD 0 under R329 -/
def LK_CFG_INDEX (n : Nat) : Fld := ⟨8 * (0x7100 + 4 * n) + 8, 6, 0⟩

/-! LK_CTRL: 12_host_rings.md, register table, 32 bits. -/

/-- RW, 5 bit, bit 0. Leash for BREAK -/
def LK_CTRL_N : Fld := ⟨8 * (0x7200) + 0, 5, 0⟩
/-- W1S, 1 bit, bit 5. Break leash N under R330 -/
def LK_CTRL_BREAK : Fld := ⟨8 * (0x7200) + 5, 1, 0⟩

/-! LK_CNT: 12_host_rings.md, register table, 32 bits. -/

/-- CNT, 32 bit, bit 0. Leash breaks, saturating; cleared by LK_CNT_CLR -/
def LK_CNT_BREAKS : Fld := ⟨8 * (0x7210) + 0, 32, 0⟩

/-! LK_CNT_CLR: 12_host_rings.md, register table, 32 bits. -/

/-- W1S, 1 bit, bit 0. Clears LK_CNT -/
def LK_CNT_CLR_BREAKS : Fld := ⟨8 * (0x7214) + 0, 1, 0⟩

/-! OV_STAT: 13_ovnas_packs.md, register table, 64 bits. -/

/-- RO, 2 bit, bit 0. 0 follower, 1 leader, 2 deputy; 3 not used -/
def OV_STAT_ROLE : Fld := ⟨8 * (0x8000) + 0, 2, 0⟩
/-- RO, 2 bit, bit 2. 0 ALONE, 1 CHAIN, 2 RING; 3 not used -/
def OV_STAT_TOPO : Fld := ⟨8 * (0x8000) + 2, 2, 0⟩
/-- RO, 1 bit, bit 4. 0 west, 1 east -/
def OV_STAT_UPSTREAM : Fld := ⟨8 * (0x8000) + 4, 1, 0⟩
/-- RO, 1 bit, bit 5. CLAIM_WAIT running -/
def OV_STAT_CLAIMING : Fld := ⟨8 * (0x8000) + 5, 1, 0⟩
/-- RO, 8 bit, bit 8. Leader; 0xFF none -/
def OV_STAT_LEADER_ID : Fld := ⟨8 * (0x8000) + 8, 8, 255⟩
/-- RO, 8 bit, bit 16. Deputy; 0xFF none -/
def OV_STAT_DEPUTY_ID : Fld := ⟨8 * (0x8000) + 16, 8, 255⟩
/-- RO, 6 bit, bit 24. Hops from the leader -/
def OV_STAT_HOPS : Fld := ⟨8 * (0x8000) + 24, 6, 0⟩
/-- RO, 32 bit, bit 32. One-way delay from the leader, ns, saturating -/
def OV_STAT_PATH_DELAY : Fld := ⟨8 * (0x8000) + 32, 32, 0⟩

/-! OV_PACK_CFG: 13_ovnas_packs.md, register table, 32 bits. -/

/-- RW, 6 bit, bit 0. Leader loss time, ms; below 5 acts as 5, above 30 as 30 -/
def OV_PACK_CFG_LOSS_MS : Fld := ⟨8 * (0x8008) + 0, 6, 20⟩
/-- RW, 8 bit, bit 8. Claim wait, ms; below 3 acts as 3 -/
def OV_PACK_CFG_CLAIM_WAIT : Fld := ⟨8 * (0x8008) + 8, 8, 10⟩
/-- RW, 16 bit, bit 16. Handover delay under R352, ms; 0 disables -/
def OV_PACK_CFG_HANDOVER_MS : Fld := ⟨8 * (0x8008) + 16, 16, 100⟩

/-! OV_PACK_STAT: 13_ovnas_packs.md, register table, 32 bits. -/

/-- RO, 7 bit, bit 0. Hubs reachable, this hub included -/
def OV_PACK_STAT_HUBS : Fld := ⟨8 * (0x8010) + 0, 7, 0⟩
/-- RO, 5 bit, bit 8. Hubs with raw streams under R359 -/
def OV_PACK_STAT_RAW_HUBS : Fld := ⟨8 * (0x8010) + 8, 5, 0⟩
/-- RO, 16 bit, bit 16. Largest PATH_DELAY in the pack, µs; leader only -/
def OV_PACK_STAT_MAX_DELAY : Fld := ⟨8 * (0x8010) + 16, 16, 0⟩

/-! OV_PORT_CFG: 13_ovnas_packs.md, register table, 64 bits. -/

/-- RW, 1 bit, bit 0. Port in use; 0 holds both lanes DOWN -/
def OV_PORT_CFG_EN (p : Nat) : Fld := ⟨8 * (0x8100 + 8 * p) + 0, 1, 1⟩
/-- RW, 32 bit, bit 32. Fibre asymmetry, signed ps, under R344 -/
def OV_PORT_CFG_ASYM (p : Nat) : Fld := ⟨8 * (0x8100 + 8 * p) + 32, 32, 0⟩

/-! OV_PORT_STAT: 13_ovnas_packs.md, register table, 256 bits. -/

/-- RO, 2 bit, bit 0. 0 DOWN, 1 TRAINING, 2 NOT_READY, 3 UP -/
def OV_PORT_STAT_LANE0 (p : Nat) : Fld := ⟨8 * (0x8200 + 32 * p) + 0, 2, 0⟩
/-- RO, 2 bit, bit 2. As LANE0 -/
def OV_PORT_STAT_LANE1 (p : Nat) : Fld := ⟨8 * (0x8200 + 32 * p) + 2, 2, 0⟩
/-- RO, 1 bit, bit 4. 0 optical, 1 copper -/
def OV_PORT_STAT_MEDIA (p : Nat) : Fld := ⟨8 * (0x8200 + 32 * p) + 4, 1, 0⟩
/-- RO, 8 bit, bit 8. Neighbour's hub ID; 0xFF none -/
def OV_PORT_STAT_NEIGHBOUR (p : Nat) : Fld := ⟨8 * (0x8200 + 32 * p) + 8, 8, 255⟩
/-- RO, 32 bit, bit 32. Last offset under R344, signed ps -/
def OV_PORT_STAT_OFFSET (p : Nat) : Fld := ⟨8 * (0x8200 + 32 * p) + 32, 32, 0⟩
/-- RO, 32 bit, bit 64. Link delay, ps -/
def OV_PORT_STAT_DELAY (p : Nat) : Fld := ⟨8 * (0x8200 + 32 * p) + 64, 32, 0⟩
/-- RO, 32 bit, bit 96. Steering residual, signed ps; 0 unless upstream -/
def OV_PORT_STAT_RESIDUAL (p : Nat) : Fld := ⟨8 * (0x8200 + 32 * p) + 96, 32, 0⟩

/-! OV_LANE_CNT: 13_ovnas_packs.md, register table, 256 bits. -/

/-- CNT, 32 bit, bit 0. Codewords corrected -/
def OV_LANE_CNT_FEC_CORR (l : Nat) : Fld := ⟨8 * (0x8400 + 32 * l) + 0, 32, 0⟩
/-- CNT, 32 bit, bit 32. Codewords uncorrectable -/
def OV_LANE_CNT_FEC_UNCORR (l : Nat) : Fld := ⟨8 * (0x8400 + 32 * l) + 32, 32, 0⟩
/-- CNT, 32 bit, bit 64. Frames discarded under R337 -/
def OV_LANE_CNT_CRC_ERR (l : Nat) : Fld := ⟨8 * (0x8400 + 32 * l) + 64, 32, 0⟩
/-- CNT, 32 bit, bit 96. Frames resent under R340 -/
def OV_LANE_CNT_RETX (l : Nat) : Fld := ⟨8 * (0x8400 + 32 * l) + 96, 32, 0⟩
/-- CNT, 32 bit, bit 128. Retrains under R335 -/
def OV_LANE_CNT_RETRAINS (l : Nat) : Fld := ⟨8 * (0x8400 + 32 * l) + 128, 32, 0⟩
/-- RO, 32 bit, bit 192. Next SEQ to send, modular -/
def OV_LANE_CNT_SEQ_TX (l : Nat) : Fld := ⟨8 * (0x8400 + 32 * l) + 192, 32, 0⟩
/-- RO, 32 bit, bit 224. Next SEQ expected, modular -/
def OV_LANE_CNT_SEQ_RX (l : Nat) : Fld := ⟨8 * (0x8400 + 32 * l) + 224, 32, 0⟩

/-! OV_CREDIT: 13_ovnas_packs.md, register table, 128 bits. -/

/-- RO, 16 bit, bit 0. Credits held for VL v under R343 -/
def OV_CREDIT_HELD (l v : Nat) : Fld := ⟨8 * (0x8600 + 16 * l) + (0 + 32 * v), 16, 0⟩
/-- RO, 16 bit, bit 16. Frames of VL v in flight -/
def OV_CREDIT_IN_FLIGHT (l v : Nat) : Fld := ⟨8 * (0x8600 + 16 * l) + (16 + 32 * v), 16, 0⟩

/-! OV_ROUTE: 13_ovnas_packs.md, register table, 64 bits. -/

/-- RO, 2 bit, bit 0. 0 none, 1 west, 2 east; 3 this hub -/
def OV_ROUTE_SIDE (h : Nat) : Fld := ⟨8 * (0x8800 + 8 * h) + 0, 2, 0⟩
/-- RO, 6 bit, bit 2. Hops to Hh -/
def OV_ROUTE_HOPS (h : Nat) : Fld := ⟨8 * (0x8800 + 8 * h) + 2, 6, 0⟩
/-- RO, 32 bit, bit 32. One-way delay to Hh, ns, saturating -/
def OV_ROUTE_DELAY (h : Nat) : Fld := ⟨8 * (0x8800 + 8 * h) + 32, 32, 0⟩

/-! OV_CNT: 13_ovnas_packs.md, register table, 128 bits. -/

/-- CNT, 32 bit, bit 0. Reroutes under R347 -/
def OV_CNT_HEALS : Fld := ⟨8 * (0x8C00) + 0, 32, 0⟩
/-- CNT, 32 bit, bit 32. Takeovers and handovers under R351 and R352 -/
def OV_CNT_TAKEOVERS : Fld := ⟨8 * (0x8C00) + 32, 32, 0⟩
/-- CNT, 32 bit, bit 64. Demotions under R350 -/
def OV_CNT_DEMOTIONS : Fld := ⟨8 * (0x8C00) + 64, 32, 0⟩
/-- CNT, 32 bit, bit 96. Leader losses detected under R354 -/
def OV_CNT_LEADER_LOSSES : Fld := ⟨8 * (0x8C00) + 96, 32, 0⟩

/-! OV_CNT_CLR: 13_ovnas_packs.md, register table, 32 bits. -/

/-- W1S, 4 bit, bit 0. Bit i clears the i-th counter of OV_CNT, in the order listed -/
def OV_CNT_CLR_CLR : Fld := ⟨8 * (0x8C10) + 0, 4, 0⟩
/-- W1S, 1 bit, bit 4. Clears every counter of OV_LANE_CNT -/
def OV_CNT_CLR_LANE_ALL : Fld := ⟨8 * (0x8C10) + 4, 1, 0⟩

/-! HUB_START_CAUSE: 14_start_images_service.md, register table, 64 bits. -/

/-- RO, 8 bit, bit 0. Cause under R360 -/
def HUB_START_CAUSE_CAUSE : Fld := ⟨8 * (0x30) + 0, 8, 1⟩
/-- RO, 1 bit, bit 8. 0 cold, 1 warm -/
def HUB_START_CAUSE_KIND : Fld := ⟨8 * (0x30) + 8, 1, 0⟩
/-- RO, 1 bit, bit 9. Step 3 kept time -/
def HUB_START_CAUSE_TIME_KEPT : Fld := ⟨8 * (0x30) + 9, 1, 0⟩
/-- RO, 1 bit, bit 10. Step 6 re-indexed -/
def HUB_START_CAUSE_RETENTION_KEPT : Fld := ⟨8 * (0x30) + 10, 1, 0⟩
/-- RO, 1 bit, bit 11. Trial start under R375 -/
def HUB_START_CAUSE_TRIAL : Fld := ⟨8 * (0x30) + 11, 1, 0⟩
/-- RO, 2 bit, bit 12. Bank booted: 0 F, 1 A, 2 B -/
def HUB_START_CAUSE_BANK : Fld := ⟨8 * (0x30) + 12, 2, 0⟩
/-- RO, 3 bit, bit 16. Failed starts counted under R366 -/
def HUB_START_CAUSE_FAILS : Fld := ⟨8 * (0x30) + 16, 3, 0⟩
/-- RO, 4 bit, bit 20. Step of the last failed start; 0 none -/
def HUB_START_CAUSE_FAIL_STEP : Fld := ⟨8 * (0x30) + 20, 4, 0⟩
/-- RO, 32 bit, bit 32. Generation booted -/
def HUB_START_CAUSE_GENERATION : Fld := ⟨8 * (0x30) + 32, 32, 0⟩

/-! KN_STAT: 14_start_images_service.md, register table, 32 bits. -/

/-- RO, 1 bit, bit 0. Mirror A in service -/
def KN_STAT_MIRROR_A : Fld := ⟨8 * (0x6000) + 0, 1, 0⟩
/-- RO, 1 bit, bit 1. Mirror B in service -/
def KN_STAT_MIRROR_B : Fld := ⟨8 * (0x6000) + 1, 1, 0⟩
/-- RO, 1 bit, bit 2. Refresh more than 90 days behind -/
def KN_STAT_REFRESH_DUE : Fld := ⟨8 * (0x6000) + 2, 1, 0⟩
/-- RO, 8 bit, bit 16. Replacement blocks left, percent -/
def KN_STAT_SPARE_PCT : Fld := ⟨8 * (0x6000) + 16, 8, 0⟩

/-! KN_BANK_STATE: 14_start_images_service.md, register table, 32 bits. -/

/-- RO, 2 bit, bit 0. Active bank: 0 F, 1 A, 2 B -/
def KN_BANK_STATE_ACTIVE : Fld := ⟨8 * (0x6008) + 0, 2, 0⟩
/-- RO, 2 bit, bit 2. Bank the next start boots -/
def KN_BANK_STATE_NEXT : Fld := ⟨8 * (0x6008) + 2, 2, 0⟩
/-- RO, 2 bit, bit 4. Previous bank; 3 none -/
def KN_BANK_STATE_PREVIOUS : Fld := ⟨8 * (0x6008) + 4, 2, 3⟩
/-- RO, 1 bit, bit 6. Active image not yet proven -/
def KN_BANK_STATE_TRIAL : Fld := ⟨8 * (0x6008) + 6, 1, 0⟩
/-- RO, 16 bit, bit 16. Seconds to proof; 0 when proven -/
def KN_BANK_STATE_PROOF_S : Fld := ⟨8 * (0x6008) + 16, 16, 0⟩

/-! KN_BANK_INFO: 14_start_images_service.md, register table, 128 bits. -/

/-- RO, 3 bit, bit 0. 0 EMPTY, 1 WRITING, 2 COMMITTED, 3 ACTIVE, 4 PENDING, 5 PREVIOUS, 6 FAILED, 7 FACTORY -/
def KN_BANK_INFO_STATE (b : Nat) : Fld := ⟨8 * (0x6020 + 16 * b) + 0, 3, 0⟩
/-- RO, 32 bit, bit 32. Generation held -/
def KN_BANK_INFO_GENERATION (b : Nat) : Fld := ⟨8 * (0x6020 + 16 * b) + 32, 32, 0⟩
/-- RO, 32 bit, bit 64. Bytes written under R373 -/
def KN_BANK_INFO_WPTR (b : Nat) : Fld := ⟨8 * (0x6020 + 16 * b) + 64, 32, 0⟩
/-- RO, 32 bit, bit 96. TOTAL_LEN of the committed image -/
def KN_BANK_INFO_TOTAL_LEN (b : Nat) : Fld := ⟨8 * (0x6020 + 16 * b) + 96, 32, 0⟩

/-! KN_SEC: 14_start_images_service.md, register table, 64 bits. -/

/-- RO, 32 bit, bit 0. Generation floor under R375 -/
def KN_SEC_FLOOR : Fld := ⟨8 * (0x6050) + 0, 32, 0⟩
/-- RO, 1 bit, bit 32. Factory key accepted for banks A and B -/
def KN_SEC_FACTORY_EN : Fld := ⟨8 * (0x6050) + 32, 1, 1⟩
/-- RO, 3 bit, bit 33. Bit k − 1: customer slot k enrolled -/
def KN_SEC_SLOTS : Fld := ⟨8 * (0x6050) + 33, 3, 0⟩

/-! KN_IDENT: 14_start_images_service.md, register table, 32 bits. -/

/-- RW, 8 bit, bit 0. ID to write, 0 to 63 -/
def KN_IDENT_NEW_ID : Fld := ⟨8 * (0x6060) + 0, 8, 0⟩
/-- RO, 8 bit, bit 8. Chassis identity; 0xFF blank -/
def KN_IDENT_ID : Fld := ⟨8 * (0x6060) + 8, 8, 255⟩
/-- W1S, 1 bit, bit 16. Write NEW_ID under R379 -/
def KN_IDENT_WRITE : Fld := ⟨8 * (0x6060) + 16, 1, 0⟩
/-- W1C, 1 bit, bit 17. A write took effect -/
def KN_IDENT_WRITTEN : Fld := ⟨8 * (0x6060) + 17, 1, 0⟩
/-- W1C, 1 bit, bit 18. A write lacked its confirmation -/
def KN_IDENT_REFUSED : Fld := ⟨8 * (0x6060) + 18, 1, 0⟩

/-! KN_CTRL: 14_start_images_service.md, register table, 32 bits. -/

/-- W1S, 1 bit, bit 0. The next start discards the journal under R370 -/
def KN_CTRL_JOURNAL_DROP : Fld := ⟨8 * (0x6070) + 0, 1, 0⟩
/-- W1S, 1 bit, bit 1. Write stream checkpoints now -/
def KN_CTRL_CHECKPOINT : Fld := ⟨8 * (0x6070) + 1, 1, 0⟩

/-! KN_CNT: 14_start_images_service.md, register table, 128 bits. -/

/-- CNT, 32 bit, bit 0. Pages corrected -/
def KN_CNT_ECC_CORR : Fld := ⟨8 * (0x6080) + 0, 32, 0⟩
/-- CNT, 32 bit, bit 32. Pages rewritten from the other mirror -/
def KN_CNT_MIRROR_REPAIRS : Fld := ⟨8 * (0x6080) + 32, 32, 0⟩
/-- CNT, 32 bit, bit 64. Failed starts under R366 -/
def KN_CNT_FAILED_STARTS : Fld := ⟨8 * (0x6080) + 64, 32, 0⟩
/-- CNT, 32 bit, bit 96. Starts of any kind -/
def KN_CNT_STARTS : Fld := ⟨8 * (0x6080) + 96, 32, 0⟩

/-! KN_CNT_CLR: 14_start_images_service.md, register table, 32 bits. -/

/-- W1S, 4 bit, bit 0. Bit i clears the i-th counter of KN_CNT, in the order listed -/
def KN_CNT_CLR_CLR : Fld := ⟨8 * (0x6090) + 0, 4, 0⟩

/-! FC_REFCAL_CTRL: 14_start_images_service.md, register table, 32 bits. -/

/-- RW, 6 bit, bit 0. Pin carrying the calibrator's high side -/
def FC_REFCAL_CTRL_PIN_P (f : Nat) : Fld := ⟨8 * (0x10034 + 0x4000 * f) + 0, 6, 0⟩
/-- RW, 6 bit, bit 6. Pin carrying its low side -/
def FC_REFCAL_CTRL_PIN_N (f : Nat) : Fld := ⟨8 * (0x10034 + 0x4000 * f) + 6, 6, 0⟩
/-- W1S, 1 bit, bit 12. Start under R384 -/
def FC_REFCAL_CTRL_START (f : Nat) : Fld := ⟨8 * (0x10034 + 0x4000 * f) + 12, 1, 0⟩
/-- RO, 2 bit, bit 13. 0 IDLE, 1 WAITING for the turn, 2 RUNNING, 3 DONE -/
def FC_REFCAL_CTRL_STATE (f : Nat) : Fld := ⟨8 * (0x10034 + 0x4000 * f) + 13, 2, 0⟩
/-- RO, 2 bit, bit 15. 0 none, 1 pins not OFF, 2 value out of range, 3 move above 50 ppm -/
def FC_REFCAL_CTRL_REASON (f : Nat) : Fld := ⟨8 * (0x10034 + 0x4000 * f) + 15, 2, 0⟩
/-- RO, 15 bit, bit 17. Days since the last accepted run, saturating -/
def FC_REFCAL_CTRL_REF_AGE (f : Nat) : Fld := ⟨8 * (0x10034 + 0x4000 * f) + 17, 15, 0⟩

/-! FC_REFCAL_UV: 14_start_images_service.md, register table, 32 bits. -/

/-- RW, 32 bit, bit 0. Calibrator voltage, signed µV, 4,000,000 to 4,900,000 -/
def FC_REFCAL_UV_UV (f : Nat) : Fld := ⟨8 * (0x10038 + 0x4000 * f) + 0, 32, 0⟩

/-! HUB_ID: 17_register_space.md, register table, 32 bits. -/

/-- RO, 6 bit, bit 0. Hub ID in use: the image's HUB_ID, or 63 with a blank identity (R379) -/
def HUB_ID_ID : Fld := ⟨8 * (0x0) + 0, 6, 63⟩
/-- RO, 1 bit, bit 6. Chassis identity blank -/
def HUB_ID_BLANK : Fld := ⟨8 * (0x0) + 6, 1, 0⟩
/-- RO, 16 bit, bit 16. Device code of the JA-1024 -/
def HUB_ID_DEVICE : Fld := ⟨8 * (0x0) + 16, 16, 4132⟩

/-! HUB_REV: 17_register_space.md, register table, 32 bits. -/

/-- RO, 8 bit, bit 0. Core card hardware revision, compared with COMPAT under R374 -/
def HUB_REV_CORE_HWREV : Fld := ⟨8 * (0x4) + 0, 8, 0⟩
/-- RO, 8 bit, bit 8. Hub core ASIC revision -/
def HUB_REV_ASIC_REV : Fld := ⟨8 * (0x4) + 8, 8, 0⟩
/-- RO, 8 bit, bit 16. Revision of the register map in this manual -/
def HUB_REV_MAP_REV : Fld := ⟨8 * (0x4) + 16, 8, 1⟩

/-! HUB_SERIAL: 17_register_space.md, register table, 64 bits. -/

/-- RO, 64 bit, bit 0. Serial number of the core card -/
def HUB_SERIAL_SERIAL : Fld := ⟨8 * (0x8) + 0, 64, 0⟩

/-! HUB_WR_STAT: 17_register_space.md, register table, 64 bits. -/

/-- RO, 20 bit, bit 0. BAR0 offset of the last discarded write under R416 -/
def HUB_WR_STAT_LAST_OFS : Fld := ⟨8 * (0x40) + 0, 20, 0⟩
/-- W1S, 1 bit, bit 20. Clears DISCARDS -/
def HUB_WR_STAT_DISC_CLR : Fld := ⟨8 * (0x40) + 20, 1, 0⟩
/-- CNT, 32 bit, bit 32. Direct writes discarded; saturating -/
def HUB_WR_STAT_DISCARDS : Fld := ⟨8 * (0x40) + 32, 32, 0⟩

/-! RS_STAT: 17_register_space.md, register table, 64 bits. -/

/-- RO, 1 bit, bit 0. Store giving service -/
def RS_STAT_IN_SERVICE : Fld := ⟨8 * (0xA000) + 0, 1, 0⟩
/-- RO, 1 bit, bit 1. Scrub pass running (R292) -/
def RS_STAT_SCRUB : Fld := ⟨8 * (0xA000) + 1, 1, 0⟩
/-- RO, 8 bit, bit 8. Share of the store that holds undelivered records, percent -/
def RS_STAT_FILL_PCT : Fld := ⟨8 * (0xA000) + 8, 8, 0⟩
/-- RO, 32 bit, bit 32. Seconds from the oldest record held to the newest, saturating -/
def RS_STAT_SPAN_S : Fld := ⟨8 * (0xA000) + 32, 32, 0⟩

/-! RS_CNT: 17_register_space.md, register table, 64 bits. -/

/-- CNT, 32 bit, bit 0. Corrected errors, bark 0x0701 -/
def RS_CNT_ECC_CORR : Fld := ⟨8 * (0xA010) + 0, 32, 0⟩
/-- CNT, 32 bit, bit 32. Uncorrectable errors, bark 0x0702 -/
def RS_CNT_ECC_UNCORR : Fld := ⟨8 * (0xA010) + 32, 32, 0⟩

/-! RS_CNT_CLR: 17_register_space.md, register table, 32 bits. -/

/-- W1S, 2 bit, bit 0. Bit i clears the i-th counter of RS_CNT, in the order listed -/
def RS_CNT_CLR_CLR : Fld := ⟨8 * (0xA020) + 0, 2, 0⟩

end Reg

/-- The fields of a register, with their access codes; `i` and `k` are the element and card index, on which
a few reset values depend. -/
def RegId.fields (i k : Nat) : RegId → List FieldDesc
  | .HUB_MODE =>
    [⟨0, 3, .ro, 1⟩, ⟨4, 3, .ro, 0⟩, ⟨8, 8, .ro, 1⟩, ⟨16, 1, .ro, 0⟩]
  | .HUB_MODE_REQ =>
    [⟨0, 3, .rw, 3⟩, ⟨8, 1, .w1s, 0⟩, ⟨16, 1, .w1c, 0⟩, ⟨17, 1, .w1c, 0⟩]
  | .HUB_GUARD =>
    [⟨0, 16, .rw, 2000⟩, ⟨16, 12, .rw, 120⟩]
  | .HUB_WAKE_AT =>
    [⟨0, 48, .rw, 0⟩, ⟨63, 1, .rwh, 0⟩]
  | .HUB_PART_STATE =>
    [⟨0, 2, .ro, 0⟩, ⟨2, 2, .ro, 0⟩, ⟨4, 2, .ro, 0⟩, ⟨6, 2, .ro, 0⟩, ⟨8, 2, .ro, 0⟩, ⟨10, 2, .ro, 0⟩,
     ⟨12, 2, .ro, 0⟩, ⟨14, 2, .ro, 0⟩, ⟨16, 2, .ro, 0⟩, ⟨18, 2, .ro, 0⟩, ⟨20, 2, .ro, 0⟩, ⟨22, 2, .ro, 0⟩,
     ⟨24, 2, .ro, 0⟩, ⟨26, 2, .ro, 0⟩, ⟨28, 2, .ro, 0⟩, ⟨30, 2, .ro, 0⟩, ⟨32, 2, .ro, 0⟩, ⟨34, 2, .ro, 0⟩,
     ⟨36, 2, .ro, 0⟩, ⟨38, 2, .ro, 0⟩, ⟨40, 2, .ro, 0⟩, ⟨42, 2, .ro, 0⟩, ⟨44, 2, .ro, 0⟩, ⟨46, 2, .ro, 0⟩,
     ⟨48, 2, .ro, 0⟩, ⟨50, 2, .ro, 0⟩, ⟨52, 2, .ro, 0⟩, ⟨54, 2, .ro, 0⟩, ⟨56, 2, .ro, 0⟩, ⟨58, 2, .ro, 0⟩,
     ⟨60, 2, .ro, 0⟩, ⟨62, 2, .ro, 0⟩]
  | .TB_STATE =>
    [⟨0, 3, .ro, 0⟩, ⟨4, 2, .ro, 3⟩, ⟨6, 2, .ro, 3⟩, ⟨8, 4, .ro, 0⟩, ⟨12, 4, .ro, 0⟩, ⟨16, 1, .ro, 0⟩,
     ⟨17, 1, .ro, 0⟩, ⟨18, 3, .ro, 0⟩]
  | .TB_REF_SEL =>
    [⟨0, 4, .rw, 15⟩, ⟨8, 1, .rw, 1⟩, ⟨9, 1, .rw, 0⟩, ⟨10, 1, .w1s, 0⟩]
  | .TB_QUAL_CFG =>
    [⟨0, 14, .rw, 10000⟩]
  | .TB_AT_SNAP =>
    [⟨0, 16, .ro, 0⟩, ⟨16, 32, .ro, 0⟩, ⟨48, 48, .ro, 0⟩, ⟨96, 16, .ro, 0⟩, ⟨112, 3, .ro, 0⟩]
  | .TB_HOLD =>
    [⟨0, 16, .rw, 1000⟩]
  | .TB_HOLD_EST =>
    [⟨0, 24, .ro, 0⟩, ⟨24, 8, .ro, 0⟩]
  | .TB_REF_OFS =>
    [⟨0, 32, .ro, 0⟩]
  | .TB_OUT_CFG =>
    [⟨0, 10, .rw, 100⟩, ⟨16, 1, .rw, 0⟩]
  | .TB_TOD_SET =>
    [⟨0, 48, .rw, 0⟩, ⟨63, 1, .rwh, 0⟩]
  | .TB_PTP_CFG =>
    [⟨0, 8, .rw, 0⟩, ⟨8, 1, .rw, 0⟩, ⟨9, 1, .rw, 0⟩, ⟨16, 12, .rw, 0⟩]
  | .TB_PTP_ASYM =>
    [⟨0, 32, .rw, 0⟩]
  | .TB_EXT_DELAY =>
    [⟨0, 32, .rw, 0⟩]
  | .TB_SCHED_CFG =>
    [⟨0, 16, .rw, 1000⟩, ⟨16, 5, .rw, 20⟩]
  | .TB_SCHED_STAT =>
    [⟨0, 13, .ro, 0⟩]
  | .TB_CNT =>
    [⟨0, 32, .cnt, 0⟩, ⟨32, 32, .cnt, 0⟩, ⟨64, 32, .cnt, 0⟩, ⟨96, 32, .cnt, 0⟩, ⟨128, 32, .cnt, 0⟩]
  | .TB_CNT_CLR =>
    [⟨0, 5, .w1s, 0⟩]
  | .TB_ANG =>
    [⟨0, 1, .rw, 0⟩, ⟨1, 1, .rw, 0⟩, ⟨2, 2, .rw, 3⟩, ⟨4, 1, .rw, 0⟩, ⟨5, 5, .rw, 0⟩, ⟨10, 5, .rw, 0⟩,
     ⟨16, 10, .rw, 200⟩, ⟨64, 32, .rw, 0⟩, ⟨128, 64, .rw, 0⟩]
  | .FC_CARD_ID =>
    [⟨0, 8, .ro, 0⟩, ⟨8, 8, .ro, 0⟩, ⟨16, 4, .ro, k⟩]
  | .FC_CARD_STAT =>
    [⟨0, 1, .ro, 0⟩, ⟨1, 1, .ro, 0⟩, ⟨2, 1, .ro, 0⟩, ⟨8, 1, .w1c, 0⟩, ⟨9, 1, .w1c, 0⟩, ⟨10, 2, .ro, 0⟩]
  | .FC_APPLY =>
    [⟨0, 1, .w1s, 0⟩, ⟨1, 1, .w1s, 0⟩]
  | .FC_CFG_STAT =>
    [⟨0, 1, .ro, 0⟩, ⟨1, 1, .ro, 0⟩, ⟨2, 1, .ro, 0⟩, ⟨3, 1, .ro, 0⟩, ⟨8, 4, .ro, 0⟩, ⟨16, 6, .ro, 0⟩,
     ⟨22, 2, .ro, 0⟩]
  | .FC_BLANK_STAT =>
    [⟨0, 8, .ro, 0⟩, ⟨32, 32, .cnt, 0⟩]
  | .FC_CNT =>
    [⟨0, 32, .cnt, 0⟩, ⟨32, 32, .cnt, 0⟩, ⟨64, 32, .cnt, 0⟩, ⟨96, 32, .cnt, 0⟩]
  | .FC_CNT_CLR =>
    [⟨0, 4, .w1s, 0⟩, ⟨4, 1, .w1s, 0⟩, ⟨5, 1, .w1s, 0⟩]
  | .FC_XPT_ROLE =>
    [⟨0, 3, .rw, 0⟩, ⟨3, 5, .rw, 0⟩, ⟨8, 1, .rw, 0⟩, ⟨16, 3, .ro, 0⟩, ⟨19, 5, .ro, 0⟩, ⟨24, 1, .ro, 0⟩]
  | .FC_EXC_CFG =>
    [⟨0, 3, .rw, 0⟩, ⟨3, 1, .rw, 0⟩, ⟨4, 2, .rw, 0⟩, ⟨6, 4, .rw, 4⟩, ⟨10, 4, .rw, 2⟩, ⟨32, 32, .rw, 0⟩,
     ⟨64, 48, .rw, 0⟩, ⟨128, 16, .rw, 0⟩, ⟨144, 16, .rw, 40000⟩]
  | .FC_EXC_STAT =>
    [⟨0, 1, .ro, 0⟩, ⟨1, 1, .ro, 0⟩, ⟨2, 1, .ro, 0⟩, ⟨3, 1, .ro, 0⟩, ⟨4, 1, .ro, 0⟩, ⟨8, 1, .w1c, 0⟩,
     ⟨9, 1, .w1c, 0⟩, ⟨10, 1, .w1c, 0⟩, ⟨11, 1, .w1c, 0⟩]
  | .FC_CH_CFG =>
    [⟨0, 1, .rw, 0⟩, ⟨1, 2, .rw, 0⟩, ⟨3, 2, .rw, 2⟩, ⟨5, 2, .rw, 2⟩, ⟨7, 1, .rw, 1⟩, ⟨8, 1, .rw, 0⟩,
     ⟨9, 1, .rw, 0⟩, ⟨10, 1, .rw, 0⟩, ⟨11, 3, .rw, 0⟩, ⟨14, 2, .rw, 0⟩, ⟨16, 3, .rw, 0⟩, ⟨19, 2, .rw, 0⟩,
     ⟨21, 3, .rw, 0⟩, ⟨24, 8, .rw, 0⟩, ⟨32, 16, .rw, 0⟩, ⟨64, 16, .rw, 55036⟩, ⟨80, 16, .rw, 10500⟩]
  | .FC_CH_STAT =>
    [⟨0, 1, .ro, 0⟩, ⟨1, 3, .ro, 0⟩, ⟨4, 1, .ro, 0⟩, ⟨5, 1, .ro, 0⟩, ⟨6, 1, .ro, 0⟩, ⟨7, 1, .ro, 0⟩,
     ⟨8, 1, .w1c, 0⟩, ⟨9, 1, .w1c, 0⟩, ⟨10, 1, .ro, 0⟩, ⟨11, 1, .ro, 0⟩]
  | .FC_CH_CTRL =>
    [⟨0, 1, .w1s, 0⟩, ⟨1, 1, .w1s, 0⟩]
  | .FC_QRST_CNT =>
    [⟨0, 32, .cnt, 0⟩]
  | .FC_CM_VAL =>
    [⟨0, 16, .ro, 0⟩, ⟨16, 16, .ro, 0⟩]
  | .FC_SPARE_CTRL =>
    [⟨0, 1, .rw, 1⟩, ⟨8, 4, .rw, 8⟩, ⟨12, 4, .rw, 14⟩, ⟨16, 8, .rw, 64⟩, ⟨24, 1, .w1s, 0⟩, ⟨25, 5, .rw, 0⟩,
     ⟨30, 1, .w1s, 0⟩]
  | .FC_SPARE_EXCL =>
    [⟨0, 32, .rw, 0⟩]
  | .FC_SPARE_TOL =>
    [⟨0, 16, .rw, 20⟩, ⟨16, 16, .rw, 40⟩, ⟨32, 16, .rw, 100⟩, ⟨48, 16, .rw, 30⟩, ⟨64, 16, .rw, 30⟩,
     ⟨80, 16, .rw, 20⟩]
  | .FC_SPARE_STAT =>
    [⟨0, 4, .ro, 0⟩, ⟨4, 5, .ro, 0⟩, ⟨9, 5, .ro, 0⟩, ⟨14, 1, .ro, 0⟩, ⟨16, 6, .ro, 0⟩]
  | .FC_SPARE_CNT =>
    [⟨0, 32, .cnt, 0⟩, ⟨32, 32, .cnt, 0⟩, ⟨64, 32, .cnt, 0⟩, ⟨96, 32, .cnt, 0⟩]
  | .FC_SPARE_CNT_CLR =>
    [⟨0, 4, .w1s, 0⟩]
  | .FC_CONV_STAT =>
    [⟨0, 3, .ro, 0⟩, ⟨3, 1, .ro, 0⟩, ⟨4, 1, .ro, 0⟩, ⟨16, 16, .ro, 0⟩]
  | .MT_CARD_ID =>
    [⟨0, 8, .ro, 0⟩, ⟨8, 8, .ro, 0⟩]
  | .MT_CARD_STAT =>
    [⟨0, 1, .ro, 0⟩, ⟨1, 1, .ro, 0⟩, ⟨2, 1, .ro, 0⟩, ⟨8, 1, .w1c, 0⟩]
  | .MT_SCAN_MASK =>
    [⟨0, 32, .rw, 0⟩]
  | .MT_SCAN_STAT =>
    [⟨0, 5, .ro, 0⟩, ⟨5, 3, .ro, 0⟩, ⟨8, 4, .ro, 0⟩, ⟨32, 32, .ro, 0⟩]
  | .MT_CAL_CFG =>
    [⟨0, 8, .rw, 64⟩]
  | .MT_CNT =>
    [⟨0, 32, .cnt, 0⟩, ⟨32, 32, .cnt, 0⟩, ⟨64, 32, .cnt, 0⟩, ⟨96, 32, .cnt, 0⟩]
  | .MT_CNT_CLR =>
    [⟨0, 4, .w1s, 0⟩]
  | .MT_CH_CFG =>
    [⟨0, 1, .rw, 0⟩, ⟨1, 1, .rw, 1⟩, ⟨2, 3, .rw, 0⟩, ⟨5, 2, .rw, 0⟩, ⟨7, 2, .rw, 0⟩, ⟨16, 10, .rw, 10⟩]
  | .MT_CH_STAT =>
    [⟨0, 1, .ro, 0⟩, ⟨1, 1, .ro, 0⟩, ⟨2, 1, .ro, 0⟩, ⟨3, 1, .ro, 0⟩, ⟨8, 1, .w1c, 0⟩, ⟨9, 1, .w1c, 0⟩]
  | .MT_LAST =>
    [⟨0, 64, .ro, 0⟩, ⟨64, 64, .ro, 0⟩, ⟨128, 8, .ro, 0⟩]
  | .RD_STAT =>
    [⟨0, 11, .ro, 0⟩, ⟨16, 7, .ro, 0⟩]
  | .RD_SEL =>
    [⟨0, 10, .rw, 0⟩]
  | .RD_CURVE_SEL =>
    [⟨0, 7, .rw, 32⟩, ⟨16, 10, .rw, 0⟩]
  | .RD_CURVE_ADDR =>
    [⟨3, 10, .rwh, 0⟩]
  | .RD_CURVE_DATA =>
    [⟨0, 64, .rw, 0⟩]
  | .RD_CURVE_CTRL =>
    [⟨0, 1, .w1s, 0⟩, ⟨1, 1, .w1s, 0⟩, ⟨2, 1, .w1s, 0⟩]
  | .RD_CURVE_STAT =>
    [⟨0, 1, .ro, 0⟩, ⟨1, 1, .ro, 0⟩, ⟨4, 3, .ro, 0⟩, ⟨8, 1, .w1c, 0⟩, ⟨9, 1, .w1c, 0⟩]
  | .RD_CNT =>
    [⟨0, 32, .cnt, 0⟩, ⟨32, 32, .cnt, 0⟩, ⟨64, 32, .cnt, 0⟩, ⟨96, 32, .cnt, 0⟩]
  | .RD_CNT_CLR =>
    [⟨0, 4, .w1s, 0⟩, ⟨4, 1, .w1s, 0⟩, ⟨5, 1, .w1s, 0⟩]
  | .RD_VIEW =>
    [⟨0, 448, .ro, 0⟩, ⟨448, 64, .ro, 0⟩]
  | .RD_STREAM_STAT =>
    [⟨0, 3, .ro, 0⟩, ⟨8, 8, .w1c, 0⟩, ⟨32, 32, .cnt, 0⟩]
  | .AX_CARD_ID =>
    [⟨0, 8, .ro, 0⟩, ⟨8, 8, .ro, 0⟩, ⟨16, 1, .ro, k⟩]
  | .AX_CARD_STAT =>
    [⟨0, 1, .ro, 0⟩, ⟨1, 1, .ro, 0⟩, ⟨2, 1, .ro, 0⟩]
  | .RDC_CFG =>
    [⟨0, 1, .rw, 0⟩, ⟨1, 1, .rw, 1⟩, ⟨2, 1, .rw, 0⟩, ⟨3, 1, .rw, 0⟩, ⟨4, 1, .rw, 0⟩, ⟨8, 4, .rw, i⟩,
     ⟨12, 1, .rw, 0⟩, ⟨16, 4, .rw, 0⟩, ⟨24, 8, .rw, 32⟩, ⟨32, 32, .rw, 0⟩, ⟨64, 48, .rw, 85899345920⟩,
     ⟨112, 16, .rw, 0⟩, ⟨128, 8, .rw, 100⟩, ⟨144, 16, .rw, 0⟩, ⟨160, 16, .rw, 4096⟩, ⟨176, 16, .rw, 1024⟩,
     ⟨192, 16, .rw, 32768⟩, ⟨208, 16, .rw, 8192⟩, ⟨224, 32, .rw, 0⟩]
  | .RDC_LOOP =>
    [⟨0, 12, .rw, 100⟩, ⟨16, 16, .rw, 11585⟩, ⟨32, 2, .rw, 2⟩, ⟨48, 10, .rw, 100⟩, ⟨64, 4, .rw, 8⟩,
     ⟨72, 7, .rw, 100⟩]
  | .RDC_STAT =>
    [⟨0, 3, .ro, 0⟩, ⟨3, 1, .ro, 0⟩, ⟨4, 1, .ro, 0⟩, ⟨5, 1, .ro, 0⟩, ⟨6, 1, .ro, 0⟩, ⟨7, 1, .ro, 0⟩,
     ⟨8, 1, .ro, 0⟩, ⟨9, 1, .ro, 0⟩, ⟨10, 2, .ro, 0⟩, ⟨12, 1, .ro, 0⟩, ⟨16, 1, .w1c, 0⟩, ⟨17, 1, .w1c, 0⟩,
     ⟨18, 1, .w1c, 0⟩, ⟨19, 1, .w1c, 0⟩, ⟨20, 1, .w1c, 0⟩, ⟨21, 1, .w1c, 0⟩, ⟨22, 1, .w1c, 0⟩,
     ⟨23, 1, .w1c, 0⟩, ⟨24, 1, .w1c, 0⟩, ⟨25, 1, .w1c, 0⟩, ⟨26, 1, .w1c, 0⟩, ⟨27, 1, .w1c, 0⟩,
     ⟨28, 1, .w1c, 0⟩, ⟨29, 1, .w1c, 0⟩, ⟨32, 16, .ro, 0⟩, ⟨48, 16, .ro, 0⟩, ⟨64, 7, .ro, 0⟩, ⟨72, 8, .ro, 0⟩,
     ⟨80, 16, .ro, 0⟩, ⟨96, 16, .ro, 0⟩]
  | .RDC_LIVE =>
    [⟨0, 32, .ro, 0⟩, ⟨32, 32, .ro, 0⟩, ⟨64, 32, .ro, 0⟩, ⟨96, 32, .ro, 0⟩, ⟨128, 96, .ro, 0⟩]
  | .RDC_CTRL =>
    [⟨0, 1, .w1s, 0⟩, ⟨1, 1, .w1s, 0⟩, ⟨2, 1, .w1s, 0⟩, ⟨3, 1, .w1s, 0⟩, ⟨4, 1, .w1s, 0⟩, ⟨5, 1, .w1s, 0⟩]
  | .RDC_CNT =>
    [⟨0, 32, .cnt, 0⟩, ⟨32, 32, .cnt, 0⟩, ⟨64, 32, .cnt, 0⟩, ⟨96, 32, .cnt, 0⟩]
  | .RDC_HARM_CFG =>
    [⟨0, 1, .rw, 1⟩, ⟨1, 2, .rw, 0⟩, ⟨3, 4, .rw, 0⟩, ⟨7, 1, .rw, 0⟩, ⟨16, 10, .rw, 8⟩, ⟨32, 16, .rw, 1024⟩]
  | .RDC_HARM_STAT =>
    [⟨0, 2, .ro, 0⟩, ⟨4, 3, .ro, 0⟩, ⟨16, 16, .ro, 0⟩, ⟨32, 16, .ro, 0⟩, ⟨48, 16, .ro, 0⟩]
  | .RDC_HARM_STG =>
    [⟨0, 32, .rwh, 0⟩, ⟨32, 32, .rwh, 0⟩, ⟨64, 32, .rwh, 0⟩, ⟨96, 32, .rwh, 0⟩, ⟨128, 32, .rwh, 0⟩,
     ⟨160, 32, .rwh, 0⟩, ⟨192, 32, .rwh, 0⟩, ⟨224, 32, .rwh, 0⟩, ⟨256, 32, .rwh, 0⟩, ⟨288, 32, .rwh, 0⟩,
     ⟨320, 32, .rwh, 0⟩, ⟨352, 32, .rwh, 0⟩, ⟨384, 32, .rwh, 0⟩, ⟨416, 32, .rwh, 0⟩, ⟨448, 32, .rwh, 0⟩,
     ⟨480, 32, .rwh, 0⟩, ⟨512, 32, .rwh, 0⟩, ⟨544, 32, .rwh, 0⟩, ⟨576, 32, .rwh, 0⟩, ⟨608, 32, .rwh, 0⟩,
     ⟨640, 32, .rwh, 0⟩, ⟨672, 32, .rwh, 0⟩, ⟨704, 32, .rwh, 0⟩, ⟨736, 32, .rwh, 0⟩, ⟨768, 32, .rwh, 0⟩,
     ⟨800, 32, .rwh, 0⟩, ⟨832, 32, .rwh, 0⟩, ⟨864, 32, .rwh, 0⟩, ⟨896, 32, .rwh, 0⟩, ⟨928, 32, .rwh, 0⟩,
     ⟨960, 32, .rwh, 0⟩, ⟨992, 32, .rwh, 0⟩]
  | .RDC_HARM_ACT =>
    [⟨0, 1024, .ro, 0⟩]
  | .PFI_CFG =>
    [⟨0, 3, .rw, 0⟩, ⟨3, 1, .rw, 0⟩, ⟨4, 1, .rw, 1⟩, ⟨5, 1, .rw, 1⟩, ⟨8, 3, .rw, 2⟩, ⟨12, 2, .rw, 0⟩,
     ⟨14, 1, .rw, 1⟩, ⟨15, 1, .rw, 0⟩, ⟨16, 4, .rw, 0⟩, ⟨20, 4, .rw, 2⟩, ⟨32, 48, .rw, 0⟩, ⟨80, 16, .rw, 0⟩,
     ⟨96, 16, .rw, 4096⟩, ⟨112, 16, .rw, 28672⟩, ⟨128, 16, .rw, 0⟩, ⟨144, 16, .rw, 0⟩, ⟨160, 16, .rw, 16384⟩,
     ⟨176, 16, .rw, 0⟩]
  | .PFI_MIN_EDGE =>
    [⟨0, 8, .rw, 6⟩]
  | .PFI_FUSE =>
    [⟨0, 1, .rw, 0⟩, ⟨1, 1, .rw, 0⟩, ⟨2, 4, .rw, 0⟩, ⟨6, 5, .rw, 10⟩, ⟨16, 10, .rw, 100⟩,
     ⟨32, 32, .rw, 1048576⟩, ⟨64, 32, .rw, 65536⟩, ⟨96, 32, .rw, 0⟩, ⟨128, 16, .rw, 0⟩]
  | .PFI_STAT =>
    [⟨0, 2, .ro, 0⟩, ⟨2, 1, .ro, 0⟩, ⟨3, 1, .ro, 0⟩, ⟨4, 1, .ro, 0⟩, ⟨5, 1, .ro, 0⟩, ⟨6, 1, .ro, 0⟩,
     ⟨8, 3, .ro, 0⟩, ⟨11, 1, .ro, 0⟩, ⟨16, 1, .w1c, 0⟩, ⟨17, 1, .w1c, 0⟩, ⟨18, 1, .w1c, 0⟩, ⟨19, 1, .w1c, 0⟩,
     ⟨20, 1, .w1c, 0⟩, ⟨21, 1, .w1c, 0⟩, ⟨22, 1, .w1c, 0⟩, ⟨23, 1, .w1c, 0⟩, ⟨24, 1, .w1c, 0⟩,
     ⟨25, 1, .w1c, 0⟩, ⟨26, 1, .w1c, 0⟩, ⟨27, 1, .ro, 0⟩, ⟨32, 16, .ro, 0⟩, ⟨64, 32, .ro, 0⟩]
  | .PFI_LIVE =>
    [⟨0, 48, .ro, 0⟩, ⟨64, 48, .ro, 0⟩, ⟨128, 48, .ro, 0⟩, ⟨192, 32, .ro, 0⟩, ⟨256, 96, .ro, 0⟩,
     ⟨352, 48, .ro, 0⟩, ⟨400, 96, .ro, 0⟩]
  | .PFI_CTRL =>
    [⟨0, 1, .w1s, 0⟩, ⟨1, 1, .w1s, 0⟩, ⟨2, 1, .w1s, 0⟩, ⟨3, 1, .w1s, 0⟩, ⟨4, 1, .w1s, 0⟩, ⟨5, 1, .w1s, 0⟩,
     ⟨16, 48, .rw, 0⟩]
  | .PFI_FAST_EDGES =>
    [⟨0, 32, .cnt, 0⟩]
  | .PFI_CNT =>
    [⟨0, 32, .cnt, 0⟩, ⟨32, 32, .cnt, 0⟩, ⟨64, 32, .cnt, 0⟩, ⟨96, 32, .cnt, 0⟩]
  | .PFI_PB_CFG =>
    [⟨0, 1, .rw, 0⟩, ⟨1, 2, .rw, 1⟩, ⟨3, 1, .rw, 0⟩, ⟨4, 1, .w1s, 0⟩, ⟨5, 1, .w1s, 0⟩, ⟨8, 3, .rw, 2⟩,
     ⟨16, 10, .rw, 10⟩, ⟨32, 16, .rw, 0⟩, ⟨48, 8, .rw, 0⟩]
  | .PFI_PB_STAT =>
    [⟨0, 1, .ro, 0⟩, ⟨1, 1, .w1c, 0⟩, ⟨32, 32, .cnt, 0⟩]
  | .PFI_PB_LATCH =>
    [⟨0, 96, .ro, 0⟩, ⟨96, 16, .ro, 0⟩, ⟨112, 8, .ro, 0⟩, ⟨120, 8, .ro, 0⟩, ⟨128, 32, .ro, 0⟩,
     ⟨160, 512, .ro, 0⟩, ⟨672, 48, .ro, 0⟩, ⟨736, 48, .ro, 0⟩, ⟨800, 48, .ro, 0⟩, ⟨864, 48, .ro, 0⟩,
     ⟨928, 48, .ro, 0⟩, ⟨992, 48, .ro, 0⟩, ⟨1056, 48, .ro, 0⟩, ⟨1120, 48, .ro, 0⟩, ⟨1184, 48, .ro, 0⟩,
     ⟨1248, 48, .ro, 0⟩, ⟨1312, 48, .ro, 0⟩, ⟨1376, 48, .ro, 0⟩, ⟨1440, 48, .ro, 0⟩, ⟨1504, 48, .ro, 0⟩,
     ⟨1568, 48, .ro, 0⟩, ⟨1632, 48, .ro, 0⟩]
  | .EE_CFG =>
    [⟨0, 1, .rw, 0⟩, ⟨1, 1, .rw, 0⟩, ⟨2, 4, .rw, 0⟩, ⟨6, 1, .rw, 0⟩, ⟨7, 1, .rw, 1⟩, ⟨8, 5, .rw, 16⟩,
     ⟨13, 2, .rw, 0⟩, ⟨15, 1, .rw, 1⟩, ⟨16, 16, .rw, 4096⟩, ⟨32, 32, .rw, 0⟩]
  | .EE_STAT =>
    [⟨0, 1, .ro, 0⟩, ⟨1, 1, .ro, 0⟩, ⟨2, 1, .ro, 0⟩, ⟨3, 1, .ro, 0⟩, ⟨8, 1, .w1c, 0⟩, ⟨9, 1, .w1c, 0⟩,
     ⟨10, 1, .w1c, 0⟩, ⟨16, 16, .ro, 0⟩, ⟨32, 32, .ro, 0⟩, ⟨64, 32, .ro, 0⟩]
  | .EE_CTRL =>
    [⟨0, 1, .w1s, 0⟩, ⟨1, 1, .w1s, 0⟩]
  | .EE_CNT =>
    [⟨0, 32, .cnt, 0⟩, ⟨32, 32, .cnt, 0⟩]
  | .LE_STAT =>
    [⟨0, 2, .ro, 0⟩, ⟨8, 7, .ro, 0⟩, ⟨16, 5, .ro, 0⟩]
  | .LE_BANK_SEL =>
    [⟨0, 64, .rw, 0⟩]
  | .LE_BANK_ACT =>
    [⟨0, 64, .ro, 0⟩]
  | .LE_CNT =>
    [⟨0, 32, .cnt, 0⟩, ⟨32, 32, .cnt, 0⟩, ⟨64, 32, .cnt, 0⟩, ⟨96, 32, .cnt, 0⟩]
  | .LE_CNT_CLR =>
    [⟨0, 4, .w1s, 0⟩]
  | .LE_LOOP_CFG =>
    [⟨0, 1, .rw, 0⟩, ⟨1, 5, .rw, 16⟩, ⟨6, 1, .rw, 0⟩, ⟨7, 1, .rw, 0⟩, ⟨8, 4, .rw, 6⟩, ⟨12, 1, .rw, 0⟩,
     ⟨16, 2, .rw, 0⟩, ⟨18, 2, .rw, 1⟩, ⟨32, 10, .rw, 0⟩, ⟨48, 10, .rw, 0⟩, ⟨64, 16, .rw, 0⟩,
     ⟨80, 16, .rw, 256⟩, ⟨96, 64, .rw, 0⟩, ⟨160, 64, .rw, 4607182418800017408⟩, ⟨224, 64, .rw, 0⟩,
     ⟨288, 64, .rw, 4607182418800017408⟩, ⟨352, 8, .rw, 158⟩]
  | .LE_LOOP_BANK =>
    [⟨0, 16, .rw, 0⟩, ⟨16, 4, .rw, 0⟩, ⟨32, 16, .rw, 0⟩, ⟨48, 4, .rw, 0⟩, ⟨64, 16, .rw, 32768⟩,
     ⟨80, 16, .rw, 32767⟩, ⟨96, 16, .rw, 32768⟩, ⟨112, 16, .rw, 32767⟩, ⟨128, 16, .rw, 0⟩, ⟨144, 16, .rw, 0⟩,
     ⟨160, 16, .rw, 0⟩, ⟨176, 16, .rw, 0⟩, ⟨192, 15, .rw, 0⟩]
  | .LE_LOOP_STAT =>
    [⟨0, 3, .ro, 0⟩, ⟨3, 1, .ro, 0⟩, ⟨4, 1, .ro, 0⟩, ⟨5, 1, .ro, 0⟩, ⟨6, 1, .ro, 0⟩, ⟨7, 1, .ro, 0⟩,
     ⟨8, 1, .w1c, 0⟩, ⟨9, 1, .w1c, 0⟩, ⟨16, 16, .ro, 0⟩, ⟨32, 16, .ro, 0⟩, ⟨48, 16, .ro, 0⟩, ⟨64, 16, .ro, 0⟩,
     ⟨80, 16, .ro, 0⟩, ⟨96, 40, .ro, 0⟩]
  | .LE_ARENA_CFG =>
    [⟨0, 1, .rw, 0⟩, ⟨1, 1, .rw, 1⟩, ⟨2, 2, .rw, 0⟩, ⟨4, 6, .rw, 0⟩, ⟨16, 6, .rw, 0⟩, ⟨22, 1, .rw, 0⟩,
     ⟨32, 16, .rw, 32767⟩, ⟨48, 16, .rw, 0⟩, ⟨64, 14, .rw, 1000⟩, ⟨80, 16, .rw, 0⟩]
  | .LE_ARENA_STAT =>
    [⟨0, 3, .ro, 0⟩, ⟨3, 1, .ro, 0⟩, ⟨4, 1, .ro, 0⟩, ⟨5, 1, .ro, 0⟩, ⟨6, 1, .ro, 0⟩, ⟨7, 1, .ro, 0⟩,
     ⟨8, 1, .w1c, 0⟩, ⟨16, 7, .ro, 127⟩, ⟨32, 16, .ro, 0⟩, ⟨48, 16, .ro, 32767⟩, ⟨64, 32, .ro, 0⟩]
  | .LE_ARENA_CTRL =>
    [⟨0, 1, .w1s, 0⟩, ⟨1, 1, .w1s, 0⟩, ⟨2, 1, .w1s, 0⟩]
  | .LE_LOOP_CTRL =>
    [⟨0, 1, .w1s, 0⟩, ⟨1, 1, .w1s, 0⟩, ⟨2, 1, .w1s, 0⟩, ⟨16, 16, .rw, 0⟩]
  | .DV_CARD_ID =>
    [⟨0, 8, .ro, 0⟩, ⟨8, 8, .ro, 0⟩]
  | .DV_CARD_STAT =>
    [⟨0, 1, .ro, 0⟩, ⟨1, 1, .ro, 0⟩, ⟨2, 1, .ro, 0⟩, ⟨3, 1, .ro, 0⟩, ⟨4, 1, .ro, 0⟩, ⟨5, 1, .ro, 0⟩,
     ⟨6, 1, .ro, 0⟩, ⟨16, 16, .ro, 0⟩]
  | .DV_CFG =>
    [⟨0, 16, .rw, 10000⟩, ⟨16, 3, .rw, 4⟩, ⟨24, 8, .rw, 48⟩]
  | .DV_CNT =>
    [⟨0, 32, .cnt, 0⟩, ⟨32, 32, .cnt, 0⟩, ⟨64, 32, .cnt, 0⟩, ⟨96, 32, .cnt, 0⟩]
  | .DV_CNT_CLR =>
    [⟨0, 4, .w1s, 0⟩]
  | .DV_UTAB_SEL =>
    [⟨0, 2, .rw, 1⟩]
  | .DV_UTAB_ADDR =>
    [⟨0, 8, .rwh, 0⟩]
  | .DV_UTAB_DATA =>
    [⟨0, 16, .rw, 0⟩]
  | .DV_UTAB_CTRL =>
    [⟨0, 1, .w1s, 0⟩, ⟨1, 1, .w1s, 0⟩, ⟨8, 2, .ro, 0⟩, ⟨10, 1, .w1c, 0⟩, ⟨11, 1, .w1c, 0⟩]
  | .DV_AX_CFG =>
    [⟨0, 2, .rw, 0⟩, ⟨2, 1, .rw, 0⟩, ⟨3, 1, .rw, 0⟩, ⟨4, 2, .rw, 0⟩, ⟨6, 2, .rw, 0⟩, ⟨8, 1, .rw, 0⟩,
     ⟨9, 1, .rw, 0⟩, ⟨16, 12, .rw, 1000⟩, ⟨32, 12, .rw, 300⟩, ⟨48, 16, .rw, 200⟩, ⟨64, 6, .rw, 15⟩,
     ⟨70, 4, .rw, 4⟩, ⟨74, 2, .rw, 1⟩, ⟨96, 14, .rw, 1000⟩, ⟨112, 20, .rw, 10000⟩, ⟨132, 20, .rw, 10000⟩,
     ⟨160, 16, .rw, 0⟩, ⟨176, 16, .rw, 0⟩, ⟨192, 32, .rw, 0⟩, ⟨224, 14, .rw, 100⟩]
  | .DV_LIM_LO =>
    [⟨0, 32, .rw, 2147483648⟩]
  | .DV_LIM_HI =>
    [⟨0, 32, .rw, 2147483647⟩]
  | .DV_AX_STAT =>
    [⟨0, 3, .ro, 0⟩, ⟨3, 1, .ro, 0⟩, ⟨4, 1, .ro, 0⟩, ⟨5, 1, .ro, 0⟩, ⟨6, 1, .ro, 0⟩, ⟨7, 1, .ro, 0⟩,
     ⟨8, 1, .ro, 0⟩, ⟨9, 1, .ro, 0⟩, ⟨10, 1, .ro, 0⟩, ⟨11, 1, .ro, 0⟩, ⟨16, 1, .w1c, 0⟩, ⟨17, 1, .w1c, 0⟩,
     ⟨18, 1, .w1c, 0⟩, ⟨19, 1, .w1c, 0⟩, ⟨20, 1, .w1c, 0⟩, ⟨21, 1, .w1c, 0⟩, ⟨22, 1, .w1c, 0⟩,
     ⟨32, 32, .ro, 0⟩, ⟨64, 32, .ro, 0⟩, ⟨96, 16, .ro, 0⟩, ⟨112, 16, .ro, 0⟩, ⟨128, 4, .ro, 0⟩,
     ⟨132, 4, .ro, 0⟩, ⟨136, 8, .ro, 0⟩]
  | .DV_AX_CTRL =>
    [⟨0, 1, .w1s, 0⟩, ⟨1, 1, .w1s, 0⟩, ⟨2, 1, .w1s, 0⟩, ⟨3, 1, .w1s, 0⟩, ⟨32, 32, .rw, 0⟩]
  | .DV_HEAT =>
    [⟨0, 16, .rw, 0⟩, ⟨16, 16, .rw, 0⟩, ⟨32, 16, .rw, 0⟩, ⟨48, 16, .rw, 0⟩]
  | .AO_CFG =>
    [⟨0, 1, .rw, 0⟩, ⟨1, 1, .rw, 0⟩, ⟨2, 1, .rw, 0⟩, ⟨3, 2, .rw, 0⟩, ⟨16, 16, .rw, 0⟩, ⟨64, 48, .rw, 0⟩,
     ⟨112, 16, .rw, 0⟩, ⟨128, 24, .rw, 0⟩, ⟨160, 24, .rw, 0⟩]
  | .AO_CODE =>
    [⟨0, 24, .rw, 0⟩]
  | .AO_CLEAR_CODE =>
    [⟨0, 24, .rw, 0⟩]
  | .AO_STAT =>
    [⟨0, 3, .ro, 0⟩, ⟨3, 1, .ro, 0⟩, ⟨4, 1, .ro, 0⟩, ⟨5, 1, .ro, 0⟩, ⟨6, 1, .ro, 0⟩, ⟨7, 1, .ro, 0⟩,
     ⟨8, 1, .w1c, 0⟩, ⟨9, 1, .w1c, 0⟩, ⟨10, 1, .w1c, 0⟩, ⟨11, 1, .ro, 0⟩, ⟨32, 24, .ro, 0⟩, ⟨64, 32, .ro, 0⟩,
     ⟨96, 32, .ro, 0⟩]
  | .AO_CNT =>
    [⟨0, 32, .cnt, 0⟩, ⟨32, 32, .cnt, 0⟩]
  | .AO_CNT_CLR =>
    [⟨0, 2, .w1s, 0⟩]
  | .PW_CEIL =>
    [⟨0, 14, .rw, 6000⟩]
  | .PW_CFG =>
    [⟨0, 14, .rw, 11600⟩, ⟨16, 8, .rw, 10⟩, ⟨24, 8, .rw, 30⟩]
  | .PW_THERM_CFG =>
    [⟨0, 13, .rw, 0⟩]
  | .PW_DOMAIN_CTRL =>
    [⟨0, 30, .rwh, 0⟩]
  | .PW_DOMAIN_STAT =>
    [⟨0, 30, .ro, 0⟩, ⟨30, 1, .ro, 0⟩, ⟨31, 1, .ro, 0⟩]
  | .PW_BOOK =>
    [⟨0, 16, .ro, 0⟩, ⟨16, 16, .ro, 0⟩, ⟨32, 16, .ro, 0⟩, ⟨48, 8, .ro, 0⟩, ⟨56, 3, .ro, 0⟩, ⟨64, 32, .ro, 0⟩]
  | .PW_GOV =>
    [⟨0, 16, .ro, 32767⟩, ⟨16, 1, .ro, 0⟩]
  | .PW_FEED =>
    [⟨0, 16, .ro, 0⟩, ⟨16, 16, .ro, 0⟩, ⟨32, 2, .ro, 0⟩]
  | .PW_THERM_STAT =>
    [⟨0, 2, .ro, 0⟩, ⟨8, 5, .ro, 0⟩, ⟨16, 16, .ro, 32767⟩, ⟨32, 16, .ro, 0⟩, ⟨48, 8, .ro, 0⟩]
  | .PW_TEMP =>
    [⟨0, 16, .ro, 0⟩, ⟨16, 1, .ro, 0⟩, ⟨17, 1, .ro, 0⟩, ⟨18, 1, .ro, 0⟩]
  | .PW_FAN =>
    [⟨0, 3, .ro, 5⟩, ⟨8, 8, .ro, 0⟩, ⟨16, 16, .ro, 0⟩, ⟨32, 16, .ro, 0⟩, ⟨48, 4, .ro, 0⟩]
  | .PW_ENERGY =>
    [⟨0, 64, .ro, 0⟩, ⟨64, 64, .ro, 0⟩, ⟨128, 64, .ro, 0⟩]
  | .PW_CNT =>
    [⟨0, 32, .cnt, 0⟩, ⟨32, 32, .cnt, 0⟩, ⟨64, 32, .cnt, 0⟩, ⟨96, 32, .cnt, 0⟩]
  | .PW_CNT_CLR =>
    [⟨0, 4, .w1s, 0⟩]
  | .HP_CTRL =>
    [⟨0, 1, .rwh, 0⟩, ⟨1, 1, .ro, 0⟩]
  | .HP_STAT =>
    [⟨0, 1, .ro, 0⟩, ⟨1, 3, .ro, 0⟩, ⟨4, 4, .ro, 0⟩, ⟨8, 1, .ro, 0⟩, ⟨12, 4, .ro, 0⟩, ⟨16, 1, .w1c, 0⟩,
     ⟨17, 1, .w1c, 0⟩, ⟨18, 1, .w1c, 0⟩, ⟨32, 11, .ro, 0⟩]
  | .HP_DB_BASE =>
    [⟨12, 52, .rw, 0⟩]
  | .HP_STATUS_BASE =>
    [⟨12, 52, .rw, 0⟩]
  | .HP_SBUF_TAB =>
    [⟨12, 52, .rw, 0⟩]
  | .HP_CMD_RING =>
    [⟨0, 4, .rw, 0⟩, ⟨12, 52, .rw, 0⟩]
  | .HP_CPL_RING =>
    [⟨0, 4, .rw, 0⟩, ⟨12, 52, .rw, 0⟩]
  | .HP_EVT_RING =>
    [⟨0, 4, .rw, 0⟩, ⟨12, 52, .rw, 0⟩]
  | .HP_DB_POLL =>
    [⟨0, 10, .rw, 20⟩]
  | .HP_CNT =>
    [⟨0, 32, .cnt, 0⟩, ⟨32, 32, .cnt, 0⟩, ⟨64, 32, .cnt, 0⟩, ⟨96, 32, .cnt, 0⟩]
  | .HP_CNT_CLR =>
    [⟨0, 4, .w1s, 0⟩]
  | .HP_IRQ_MOD =>
    [⟨0, 16, .rw, 10⟩]
  | .BQ_STATUS =>
    [⟨0, 1, .ro, 1⟩, ⟨1, 1, .w1c, 0⟩, ⟨2, 1, .w1c, 0⟩, ⟨16, 15, .ro, 0⟩]
  | .BQ_CTRL =>
    [⟨0, 1, .rwh, 0⟩, ⟨1, 1, .w1s, 0⟩]
  | .BQ_POP =>
    [⟨0, 32, .ro, 0⟩]
  | .BQ_LOST =>
    [⟨0, 32, .cnt, 0⟩]
  | .BQ_FLUSHED =>
    [⟨0, 32, .cnt, 0⟩]
  | .BQ_CNT_CLR =>
    [⟨0, 1, .w1s, 0⟩, ⟨1, 1, .w1s, 0⟩]
  | .LK_STAT =>
    [⟨0, 1, .ro, 0⟩, ⟨1, 1, .ro, 0⟩, ⟨8, 3, .ro, 0⟩, ⟨32, 32, .ro, 0⟩]
  | .LK_CFG =>
    [⟨0, 3, .rw, 0⟩, ⟨8, 6, .rw, 0⟩]
  | .LK_CTRL =>
    [⟨0, 5, .rw, 0⟩, ⟨5, 1, .w1s, 0⟩]
  | .LK_CNT =>
    [⟨0, 32, .cnt, 0⟩]
  | .LK_CNT_CLR =>
    [⟨0, 1, .w1s, 0⟩]
  | .OV_STAT =>
    [⟨0, 2, .ro, 0⟩, ⟨2, 2, .ro, 0⟩, ⟨4, 1, .ro, 0⟩, ⟨5, 1, .ro, 0⟩, ⟨8, 8, .ro, 255⟩, ⟨16, 8, .ro, 255⟩,
     ⟨24, 6, .ro, 0⟩, ⟨32, 32, .ro, 0⟩]
  | .OV_PACK_CFG =>
    [⟨0, 6, .rw, 20⟩, ⟨8, 8, .rw, 10⟩, ⟨16, 16, .rw, 100⟩]
  | .OV_PACK_STAT =>
    [⟨0, 7, .ro, 0⟩, ⟨8, 5, .ro, 0⟩, ⟨16, 16, .ro, 0⟩]
  | .OV_PORT_CFG =>
    [⟨0, 1, .rw, 1⟩, ⟨32, 32, .rw, 0⟩]
  | .OV_PORT_STAT =>
    [⟨0, 2, .ro, 0⟩, ⟨2, 2, .ro, 0⟩, ⟨4, 1, .ro, 0⟩, ⟨8, 8, .ro, 255⟩, ⟨32, 32, .ro, 0⟩, ⟨64, 32, .ro, 0⟩,
     ⟨96, 32, .ro, 0⟩]
  | .OV_LANE_CNT =>
    [⟨0, 32, .cnt, 0⟩, ⟨32, 32, .cnt, 0⟩, ⟨64, 32, .cnt, 0⟩, ⟨96, 32, .cnt, 0⟩, ⟨128, 32, .cnt, 0⟩,
     ⟨192, 32, .ro, 0⟩, ⟨224, 32, .ro, 0⟩]
  | .OV_CREDIT =>
    [⟨0, 16, .ro, 0⟩, ⟨16, 16, .ro, 0⟩, ⟨32, 16, .ro, 0⟩, ⟨48, 16, .ro, 0⟩, ⟨64, 16, .ro, 0⟩, ⟨80, 16, .ro, 0⟩,
     ⟨96, 16, .ro, 0⟩, ⟨112, 16, .ro, 0⟩]
  | .OV_ROUTE =>
    [⟨0, 2, .ro, 0⟩, ⟨2, 6, .ro, 0⟩, ⟨32, 32, .ro, 0⟩]
  | .OV_CNT =>
    [⟨0, 32, .cnt, 0⟩, ⟨32, 32, .cnt, 0⟩, ⟨64, 32, .cnt, 0⟩, ⟨96, 32, .cnt, 0⟩]
  | .OV_CNT_CLR =>
    [⟨0, 4, .w1s, 0⟩, ⟨4, 1, .w1s, 0⟩]
  | .HUB_START_CAUSE =>
    [⟨0, 8, .ro, 1⟩, ⟨8, 1, .ro, 0⟩, ⟨9, 1, .ro, 0⟩, ⟨10, 1, .ro, 0⟩, ⟨11, 1, .ro, 0⟩, ⟨12, 2, .ro, 0⟩,
     ⟨16, 3, .ro, 0⟩, ⟨20, 4, .ro, 0⟩, ⟨32, 32, .ro, 0⟩]
  | .KN_STAT =>
    [⟨0, 1, .ro, 0⟩, ⟨1, 1, .ro, 0⟩, ⟨2, 1, .ro, 0⟩, ⟨16, 8, .ro, 0⟩]
  | .KN_BANK_STATE =>
    [⟨0, 2, .ro, 0⟩, ⟨2, 2, .ro, 0⟩, ⟨4, 2, .ro, 3⟩, ⟨6, 1, .ro, 0⟩, ⟨16, 16, .ro, 0⟩]
  | .KN_BANK_INFO =>
    [⟨0, 3, .ro, 0⟩, ⟨32, 32, .ro, 0⟩, ⟨64, 32, .ro, 0⟩, ⟨96, 32, .ro, 0⟩]
  | .KN_SEC =>
    [⟨0, 32, .ro, 0⟩, ⟨32, 1, .ro, 1⟩, ⟨33, 3, .ro, 0⟩]
  | .KN_IDENT =>
    [⟨0, 8, .rw, 0⟩, ⟨8, 8, .ro, 255⟩, ⟨16, 1, .w1s, 0⟩, ⟨17, 1, .w1c, 0⟩, ⟨18, 1, .w1c, 0⟩]
  | .KN_CTRL =>
    [⟨0, 1, .w1s, 0⟩, ⟨1, 1, .w1s, 0⟩]
  | .KN_CNT =>
    [⟨0, 32, .cnt, 0⟩, ⟨32, 32, .cnt, 0⟩, ⟨64, 32, .cnt, 0⟩, ⟨96, 32, .cnt, 0⟩]
  | .KN_CNT_CLR =>
    [⟨0, 4, .w1s, 0⟩]
  | .FC_REFCAL_CTRL =>
    [⟨0, 6, .rw, 0⟩, ⟨6, 6, .rw, 0⟩, ⟨12, 1, .w1s, 0⟩, ⟨13, 2, .ro, 0⟩, ⟨15, 2, .ro, 0⟩, ⟨17, 15, .ro, 0⟩]
  | .FC_REFCAL_UV =>
    [⟨0, 32, .rw, 0⟩]
  | .HUB_ID =>
    [⟨0, 6, .ro, 63⟩, ⟨6, 1, .ro, 0⟩, ⟨16, 16, .ro, 4132⟩]
  | .HUB_REV =>
    [⟨0, 8, .ro, 0⟩, ⟨8, 8, .ro, 0⟩, ⟨16, 8, .ro, 1⟩]
  | .HUB_SERIAL =>
    [⟨0, 64, .ro, 0⟩]
  | .HUB_WR_STAT =>
    [⟨0, 20, .ro, 0⟩, ⟨20, 1, .w1s, 0⟩, ⟨32, 32, .cnt, 0⟩]
  | .RS_STAT =>
    [⟨0, 1, .ro, 0⟩, ⟨1, 1, .ro, 0⟩, ⟨8, 8, .ro, 0⟩, ⟨32, 32, .ro, 0⟩]
  | .RS_CNT =>
    [⟨0, 32, .cnt, 0⟩, ⟨32, 32, .cnt, 0⟩]
  | .RS_CNT_CLR =>
    [⟨0, 2, .w1s, 0⟩]

/-- Where a register stands: block base, card stride and count, offset in the block, element stride and count, bytes. -/
structure RegPlace where
  id    : RegId
  base  : Nat
  cardStride : Nat
  cards : Nat
  ofs   : Nat
  stride : Nat
  count : Nat
  bytes : Nat
  deriving DecidableEq, Repr

/-- The places of the map, part 1. -/
def regPlaces1 : List RegPlace :=
  [⟨.HUB_MODE, 0x0, 0x100000, 1, 0x10, 4, 1, 4⟩,
   ⟨.HUB_MODE_REQ, 0x0, 0x100000, 1, 0x14, 4, 1, 4⟩,
   ⟨.HUB_GUARD, 0x0, 0x100000, 1, 0x18, 4, 1, 4⟩,
   ⟨.HUB_WAKE_AT, 0x0, 0x100000, 1, 0x20, 8, 1, 8⟩,
   ⟨.HUB_PART_STATE, 0x0, 0x100000, 1, 0x28, 8, 1, 8⟩,
   ⟨.TB_STATE, 0x2000, 0x100000, 1, 0x0, 4, 1, 4⟩,
   ⟨.TB_REF_SEL, 0x2000, 0x100000, 1, 0x4, 4, 1, 4⟩,
   ⟨.TB_QUAL_CFG, 0x2000, 0x100000, 1, 0x8, 4, 1, 4⟩,
   ⟨.TB_AT_SNAP, 0x2000, 0x100000, 1, 0x10, 16, 1, 16⟩,
   ⟨.TB_HOLD, 0x2000, 0x100000, 1, 0x20, 4, 1, 4⟩,
   ⟨.TB_HOLD_EST, 0x2000, 0x100000, 1, 0x24, 4, 1, 4⟩,
   ⟨.TB_REF_OFS, 0x2000, 0x100000, 1, 0x30, 4, 4, 4⟩,
   ⟨.TB_OUT_CFG, 0x2000, 0x100000, 1, 0x40, 4, 1, 4⟩,
   ⟨.TB_TOD_SET, 0x2000, 0x100000, 1, 0x48, 8, 1, 8⟩,
   ⟨.TB_PTP_CFG, 0x2000, 0x100000, 1, 0x50, 4, 1, 4⟩,
   ⟨.TB_PTP_ASYM, 0x2000, 0x100000, 1, 0x54, 4, 1, 4⟩,
   ⟨.TB_EXT_DELAY, 0x2000, 0x100000, 1, 0x58, 4, 1, 4⟩,
   ⟨.TB_SCHED_CFG, 0x2000, 0x100000, 1, 0x60, 4, 1, 4⟩,
   ⟨.TB_SCHED_STAT, 0x2000, 0x100000, 1, 0x64, 4, 1, 4⟩,
   ⟨.TB_CNT, 0x2000, 0x100000, 1, 0x70, 20, 1, 20⟩,
   ⟨.TB_CNT_CLR, 0x2000, 0x100000, 1, 0x84, 4, 1, 4⟩,
   ⟨.TB_ANG, 0x2000, 0x100000, 1, 0x100, 32, 64, 32⟩,
   ⟨.FC_CARD_ID, 0x10000, 0x4000, 16, 0x0, 4, 1, 4⟩,
   ⟨.FC_CARD_STAT, 0x10000, 0x4000, 16, 0x4, 4, 1, 4⟩]

/-- The places of the map, part 2. -/
def regPlaces2 : List RegPlace :=
  [⟨.FC_APPLY, 0x10000, 0x4000, 16, 0x8, 4, 1, 4⟩,
   ⟨.FC_CFG_STAT, 0x10000, 0x4000, 16, 0xC, 4, 1, 4⟩,
   ⟨.FC_BLANK_STAT, 0x10000, 0x4000, 16, 0x10, 8, 1, 8⟩,
   ⟨.FC_CNT, 0x10000, 0x4000, 16, 0x20, 16, 1, 16⟩,
   ⟨.FC_CNT_CLR, 0x10000, 0x4000, 16, 0x30, 4, 1, 4⟩,
   ⟨.FC_XPT_ROLE, 0x10000, 0x4000, 16, 0x100, 4, 64, 4⟩,
   ⟨.FC_EXC_CFG, 0x10000, 0x4000, 16, 0x200, 32, 8, 32⟩,
   ⟨.FC_EXC_STAT, 0x10000, 0x4000, 16, 0x300, 4, 8, 4⟩,
   ⟨.FC_CH_CFG, 0x10000, 0x4000, 16, 0x400, 32, 32, 32⟩,
   ⟨.FC_CH_STAT, 0x10000, 0x4000, 16, 0x800, 4, 32, 4⟩,
   ⟨.FC_CH_CTRL, 0x10000, 0x4000, 16, 0x880, 4, 32, 4⟩,
   ⟨.FC_QRST_CNT, 0x10000, 0x4000, 16, 0x900, 4, 32, 4⟩,
   ⟨.FC_CM_VAL, 0x10000, 0x4000, 16, 0x980, 4, 32, 4⟩,
   ⟨.FC_SPARE_CTRL, 0x10000, 0x4000, 16, 0x40, 4, 1, 4⟩,
   ⟨.FC_SPARE_EXCL, 0x10000, 0x4000, 16, 0x44, 4, 1, 4⟩,
   ⟨.FC_SPARE_TOL, 0x10000, 0x4000, 16, 0x48, 16, 1, 16⟩,
   ⟨.FC_SPARE_STAT, 0x10000, 0x4000, 16, 0x58, 4, 1, 4⟩,
   ⟨.FC_SPARE_CNT, 0x10000, 0x4000, 16, 0x60, 16, 1, 16⟩,
   ⟨.FC_SPARE_CNT_CLR, 0x10000, 0x4000, 16, 0x70, 4, 1, 4⟩,
   ⟨.FC_CONV_STAT, 0x10000, 0x4000, 16, 0x80, 4, 32, 4⟩,
   ⟨.MT_CARD_ID, 0x68000, 0x100000, 1, 0x0, 4, 1, 4⟩,
   ⟨.MT_CARD_STAT, 0x68000, 0x100000, 1, 0x4, 4, 1, 4⟩,
   ⟨.MT_SCAN_MASK, 0x68000, 0x100000, 1, 0x10, 4, 1, 4⟩,
   ⟨.MT_SCAN_STAT, 0x68000, 0x100000, 1, 0x18, 8, 1, 8⟩]

/-- The places of the map, part 3. -/
def regPlaces3 : List RegPlace :=
  [⟨.MT_CAL_CFG, 0x68000, 0x100000, 1, 0x20, 4, 1, 4⟩,
   ⟨.MT_CNT, 0x68000, 0x100000, 1, 0x30, 16, 1, 16⟩,
   ⟨.MT_CNT_CLR, 0x68000, 0x100000, 1, 0x40, 4, 1, 4⟩,
   ⟨.MT_CH_CFG, 0x68000, 0x100000, 1, 0x100, 8, 32, 8⟩,
   ⟨.MT_CH_STAT, 0x68000, 0x100000, 1, 0x200, 4, 32, 4⟩,
   ⟨.MT_LAST, 0x68000, 0x100000, 1, 0x400, 32, 32, 32⟩,
   ⟨.RD_STAT, 0xD000, 0x100000, 1, 0x0, 4, 1, 4⟩,
   ⟨.RD_SEL, 0xD000, 0x100000, 1, 0x10, 4, 1, 4⟩,
   ⟨.RD_CURVE_SEL, 0xD000, 0x100000, 1, 0x20, 4, 1, 4⟩,
   ⟨.RD_CURVE_ADDR, 0xD000, 0x100000, 1, 0x24, 4, 1, 4⟩,
   ⟨.RD_CURVE_DATA, 0xD000, 0x100000, 1, 0x28, 8, 1, 8⟩,
   ⟨.RD_CURVE_CTRL, 0xD000, 0x100000, 1, 0x30, 4, 1, 4⟩,
   ⟨.RD_CURVE_STAT, 0xD000, 0x100000, 1, 0x34, 4, 1, 4⟩,
   ⟨.RD_CNT, 0xD000, 0x100000, 1, 0x40, 16, 1, 16⟩,
   ⟨.RD_CNT_CLR, 0xD000, 0x100000, 1, 0x50, 4, 1, 4⟩,
   ⟨.RD_VIEW, 0xD000, 0x100000, 1, 0x100, 64, 1, 64⟩,
   ⟨.RD_STREAM_STAT, 0xD000, 0x100000, 1, 0x1000, 8, 1024, 8⟩,
   ⟨.AX_CARD_ID, 0x50000, 0x8000, 2, 0x0, 4, 1, 4⟩,
   ⟨.AX_CARD_STAT, 0x50000, 0x8000, 2, 0x4, 4, 1, 4⟩,
   ⟨.RDC_CFG, 0x50000, 0x8000, 2, 0x1000, 32, 16, 32⟩,
   ⟨.RDC_LOOP, 0x50000, 0x8000, 2, 0x1200, 16, 16, 16⟩,
   ⟨.RDC_STAT, 0x50000, 0x8000, 2, 0x1400, 16, 16, 16⟩,
   ⟨.RDC_LIVE, 0x50000, 0x8000, 2, 0x1600, 32, 16, 32⟩,
   ⟨.RDC_CTRL, 0x50000, 0x8000, 2, 0x1800, 4, 16, 4⟩]

/-- The places of the map, part 4. -/
def regPlaces4 : List RegPlace :=
  [⟨.RDC_CNT, 0x50000, 0x8000, 2, 0x1880, 16, 16, 16⟩,
   ⟨.RDC_HARM_CFG, 0x50000, 0x8000, 2, 0x1A00, 8, 16, 8⟩,
   ⟨.RDC_HARM_STAT, 0x50000, 0x8000, 2, 0x1A80, 8, 16, 8⟩,
   ⟨.RDC_HARM_STG, 0x50000, 0x8000, 2, 0x2000, 128, 16, 128⟩,
   ⟨.RDC_HARM_ACT, 0x50000, 0x8000, 2, 0x2800, 128, 16, 128⟩,
   ⟨.PFI_CFG, 0x50000, 0x8000, 2, 0x4000, 32, 8, 32⟩,
   ⟨.PFI_MIN_EDGE, 0x50000, 0x8000, 2, 0x4100, 4, 8, 4⟩,
   ⟨.PFI_FUSE, 0x50000, 0x8000, 2, 0x4200, 32, 8, 32⟩,
   ⟨.PFI_STAT, 0x50000, 0x8000, 2, 0x4400, 16, 8, 16⟩,
   ⟨.PFI_LIVE, 0x50000, 0x8000, 2, 0x4500, 64, 8, 64⟩,
   ⟨.PFI_CTRL, 0x50000, 0x8000, 2, 0x4700, 8, 8, 8⟩,
   ⟨.PFI_FAST_EDGES, 0x50000, 0x8000, 2, 0x4780, 4, 8, 4⟩,
   ⟨.PFI_CNT, 0x50000, 0x8000, 2, 0x4800, 16, 8, 16⟩,
   ⟨.PFI_PB_CFG, 0x50000, 0x8000, 2, 0x4A00, 8, 4, 8⟩,
   ⟨.PFI_PB_STAT, 0x50000, 0x8000, 2, 0x4A40, 8, 4, 8⟩,
   ⟨.PFI_PB_LATCH, 0x50000, 0x8000, 2, 0x4C00, 256, 4, 256⟩,
   ⟨.EE_CFG, 0x50000, 0x8000, 2, 0x6000, 16, 8, 16⟩,
   ⟨.EE_STAT, 0x50000, 0x8000, 2, 0x6100, 16, 8, 16⟩,
   ⟨.EE_CTRL, 0x50000, 0x8000, 2, 0x6200, 4, 8, 4⟩,
   ⟨.EE_CNT, 0x50000, 0x8000, 2, 0x6280, 8, 8, 8⟩,
   ⟨.LE_STAT, 0x70000, 0x100000, 1, 0x0, 4, 1, 4⟩,
   ⟨.LE_BANK_SEL, 0x70000, 0x100000, 1, 0x10, 8, 1, 8⟩,
   ⟨.LE_BANK_ACT, 0x70000, 0x100000, 1, 0x18, 8, 1, 8⟩,
   ⟨.LE_CNT, 0x70000, 0x100000, 1, 0x20, 16, 1, 16⟩]

/-- The places of the map, part 5. -/
def regPlaces5 : List RegPlace :=
  [⟨.LE_CNT_CLR, 0x70000, 0x100000, 1, 0x30, 4, 1, 4⟩,
   ⟨.LE_LOOP_CFG, 0x70000, 0x100000, 1, 0x400, 64, 64, 64⟩,
   ⟨.LE_LOOP_BANK, 0x70000, 0x100000, 1, 0x2000, 32, 128, 32⟩,
   ⟨.LE_LOOP_STAT, 0x70000, 0x100000, 1, 0x3000, 32, 64, 32⟩,
   ⟨.LE_ARENA_CFG, 0x70000, 0x100000, 1, 0x4000, 32, 16, 32⟩,
   ⟨.LE_ARENA_STAT, 0x70000, 0x100000, 1, 0x4400, 16, 16, 16⟩,
   ⟨.LE_ARENA_CTRL, 0x70000, 0x100000, 1, 0x4600, 4, 16, 4⟩,
   ⟨.LE_LOOP_CTRL, 0x70000, 0x100000, 1, 0x4800, 4, 64, 4⟩,
   ⟨.DV_CARD_ID, 0x60000, 0x100000, 1, 0x0, 4, 1, 4⟩,
   ⟨.DV_CARD_STAT, 0x60000, 0x100000, 1, 0x4, 4, 1, 4⟩,
   ⟨.DV_CFG, 0x60000, 0x100000, 1, 0x10, 4, 1, 4⟩,
   ⟨.DV_CNT, 0x60000, 0x100000, 1, 0x20, 16, 1, 16⟩,
   ⟨.DV_CNT_CLR, 0x60000, 0x100000, 1, 0x30, 4, 1, 4⟩,
   ⟨.DV_UTAB_SEL, 0x60000, 0x100000, 1, 0x40, 4, 1, 4⟩,
   ⟨.DV_UTAB_ADDR, 0x60000, 0x100000, 1, 0x44, 4, 1, 4⟩,
   ⟨.DV_UTAB_DATA, 0x60000, 0x100000, 1, 0x48, 4, 1, 4⟩,
   ⟨.DV_UTAB_CTRL, 0x60000, 0x100000, 1, 0x4C, 4, 1, 4⟩,
   ⟨.DV_AX_CFG, 0x60000, 0x100000, 1, 0x100, 32, 16, 32⟩,
   ⟨.DV_LIM_LO, 0x60000, 0x100000, 1, 0x400, 4, 16, 4⟩,
   ⟨.DV_LIM_HI, 0x60000, 0x100000, 1, 0x440, 4, 16, 4⟩,
   ⟨.DV_AX_STAT, 0x60000, 0x100000, 1, 0x500, 32, 16, 32⟩,
   ⟨.DV_AX_CTRL, 0x60000, 0x100000, 1, 0x700, 8, 16, 8⟩,
   ⟨.DV_HEAT, 0x60000, 0x100000, 1, 0x780, 8, 16, 8⟩,
   ⟨.AO_CFG, 0x60000, 0x100000, 1, 0x4000, 32, 16, 32⟩]

/-- The places of the map, part 6. -/
def regPlaces6 : List RegPlace :=
  [⟨.AO_CODE, 0x60000, 0x100000, 1, 0x4200, 4, 16, 4⟩,
   ⟨.AO_CLEAR_CODE, 0x60000, 0x100000, 1, 0x4240, 4, 16, 4⟩,
   ⟨.AO_STAT, 0x60000, 0x100000, 1, 0x4300, 16, 16, 16⟩,
   ⟨.AO_CNT, 0x60000, 0x100000, 1, 0x4400, 8, 1, 8⟩,
   ⟨.AO_CNT_CLR, 0x60000, 0x100000, 1, 0x4410, 4, 1, 4⟩,
   ⟨.PW_CEIL, 0x4000, 0x100000, 1, 0x0, 4, 1, 4⟩,
   ⟨.PW_CFG, 0x4000, 0x100000, 1, 0x4, 4, 1, 4⟩,
   ⟨.PW_THERM_CFG, 0x4000, 0x100000, 1, 0x8, 4, 1, 4⟩,
   ⟨.PW_DOMAIN_CTRL, 0x4000, 0x100000, 1, 0x10, 4, 1, 4⟩,
   ⟨.PW_DOMAIN_STAT, 0x4000, 0x100000, 1, 0x14, 4, 1, 4⟩,
   ⟨.PW_BOOK, 0x4000, 0x100000, 1, 0x20, 16, 2, 16⟩,
   ⟨.PW_GOV, 0x4000, 0x100000, 1, 0x40, 4, 1, 4⟩,
   ⟨.PW_FEED, 0x4000, 0x100000, 1, 0x48, 8, 2, 8⟩,
   ⟨.PW_THERM_STAT, 0x4000, 0x100000, 1, 0x58, 8, 1, 8⟩,
   ⟨.PW_TEMP, 0x4000, 0x100000, 1, 0x100, 4, 24, 4⟩,
   ⟨.PW_FAN, 0x4000, 0x100000, 1, 0x200, 8, 4, 8⟩,
   ⟨.PW_ENERGY, 0x4000, 0x100000, 1, 0x300, 24, 1, 24⟩,
   ⟨.PW_CNT, 0x4000, 0x100000, 1, 0x320, 16, 1, 16⟩,
   ⟨.PW_CNT_CLR, 0x4000, 0x100000, 1, 0x330, 4, 1, 4⟩,
   ⟨.HP_CTRL, 0x1000, 0x100000, 1, 0x0, 4, 1, 4⟩,
   ⟨.HP_STAT, 0x1000, 0x100000, 1, 0x8, 8, 1, 8⟩,
   ⟨.HP_DB_BASE, 0x1000, 0x100000, 1, 0x10, 8, 1, 8⟩,
   ⟨.HP_STATUS_BASE, 0x1000, 0x100000, 1, 0x18, 8, 1, 8⟩,
   ⟨.HP_SBUF_TAB, 0x1000, 0x100000, 1, 0x20, 8, 1, 8⟩]

/-- The places of the map, part 7. -/
def regPlaces7 : List RegPlace :=
  [⟨.HP_CMD_RING, 0x1000, 0x100000, 1, 0x28, 8, 1, 8⟩,
   ⟨.HP_CPL_RING, 0x1000, 0x100000, 1, 0x30, 8, 1, 8⟩,
   ⟨.HP_EVT_RING, 0x1000, 0x100000, 1, 0x38, 8, 1, 8⟩,
   ⟨.HP_DB_POLL, 0x1000, 0x100000, 1, 0x40, 4, 1, 4⟩,
   ⟨.HP_CNT, 0x1000, 0x100000, 1, 0x60, 16, 1, 16⟩,
   ⟨.HP_CNT_CLR, 0x1000, 0x100000, 1, 0x70, 4, 1, 4⟩,
   ⟨.HP_IRQ_MOD, 0x1000, 0x100000, 1, 0x100, 4, 64, 4⟩,
   ⟨.BQ_STATUS, 0xC000, 0x100000, 1, 0x0, 4, 1, 4⟩,
   ⟨.BQ_CTRL, 0xC000, 0x100000, 1, 0x4, 4, 1, 4⟩,
   ⟨.BQ_POP, 0xC000, 0x100000, 1, 0x8, 4, 1, 4⟩,
   ⟨.BQ_LOST, 0xC000, 0x100000, 1, 0x10, 4, 1, 4⟩,
   ⟨.BQ_FLUSHED, 0xC000, 0x100000, 1, 0x14, 4, 1, 4⟩,
   ⟨.BQ_CNT_CLR, 0xC000, 0x100000, 1, 0x18, 4, 1, 4⟩,
   ⟨.LK_STAT, 0x7000, 0x100000, 1, 0x0, 8, 32, 8⟩,
   ⟨.LK_CFG, 0x7000, 0x100000, 1, 0x100, 4, 32, 4⟩,
   ⟨.LK_CTRL, 0x7000, 0x100000, 1, 0x200, 4, 1, 4⟩,
   ⟨.LK_CNT, 0x7000, 0x100000, 1, 0x210, 4, 1, 4⟩,
   ⟨.LK_CNT_CLR, 0x7000, 0x100000, 1, 0x214, 4, 1, 4⟩,
   ⟨.OV_STAT, 0x8000, 0x100000, 1, 0x0, 8, 1, 8⟩,
   ⟨.OV_PACK_CFG, 0x8000, 0x100000, 1, 0x8, 4, 1, 4⟩,
   ⟨.OV_PACK_STAT, 0x8000, 0x100000, 1, 0x10, 4, 1, 4⟩,
   ⟨.OV_PORT_CFG, 0x8000, 0x100000, 1, 0x100, 8, 4, 8⟩,
   ⟨.OV_PORT_STAT, 0x8000, 0x100000, 1, 0x200, 32, 4, 32⟩,
   ⟨.OV_LANE_CNT, 0x8000, 0x100000, 1, 0x400, 32, 8, 32⟩]

/-- The places of the map, part 8. -/
def regPlaces8 : List RegPlace :=
  [⟨.OV_CREDIT, 0x8000, 0x100000, 1, 0x600, 16, 8, 16⟩,
   ⟨.OV_ROUTE, 0x8000, 0x100000, 1, 0x800, 8, 64, 8⟩,
   ⟨.OV_CNT, 0x8000, 0x100000, 1, 0xC00, 16, 1, 16⟩,
   ⟨.OV_CNT_CLR, 0x8000, 0x100000, 1, 0xC10, 4, 1, 4⟩,
   ⟨.HUB_START_CAUSE, 0x0, 0x100000, 1, 0x30, 8, 1, 8⟩,
   ⟨.KN_STAT, 0x6000, 0x100000, 1, 0x0, 4, 1, 4⟩,
   ⟨.KN_BANK_STATE, 0x6000, 0x100000, 1, 0x8, 4, 1, 4⟩,
   ⟨.KN_BANK_INFO, 0x6000, 0x100000, 1, 0x20, 16, 3, 16⟩,
   ⟨.KN_SEC, 0x6000, 0x100000, 1, 0x50, 8, 1, 8⟩,
   ⟨.KN_IDENT, 0x6000, 0x100000, 1, 0x60, 4, 1, 4⟩,
   ⟨.KN_CTRL, 0x6000, 0x100000, 1, 0x70, 4, 1, 4⟩,
   ⟨.KN_CNT, 0x6000, 0x100000, 1, 0x80, 16, 1, 16⟩,
   ⟨.KN_CNT_CLR, 0x6000, 0x100000, 1, 0x90, 4, 1, 4⟩,
   ⟨.FC_REFCAL_CTRL, 0x10000, 0x4000, 16, 0x34, 4, 1, 4⟩,
   ⟨.FC_REFCAL_UV, 0x10000, 0x4000, 16, 0x38, 4, 1, 4⟩,
   ⟨.HUB_ID, 0x0, 0x100000, 1, 0x0, 4, 1, 4⟩,
   ⟨.HUB_REV, 0x0, 0x100000, 1, 0x4, 4, 1, 4⟩,
   ⟨.HUB_SERIAL, 0x0, 0x100000, 1, 0x8, 8, 1, 8⟩,
   ⟨.HUB_WR_STAT, 0x0, 0x100000, 1, 0x40, 8, 1, 8⟩,
   ⟨.RS_STAT, 0xA000, 0x100000, 1, 0x0, 8, 1, 8⟩,
   ⟨.RS_CNT, 0xA000, 0x100000, 1, 0x10, 8, 1, 8⟩,
   ⟨.RS_CNT_CLR, 0xA000, 0x100000, 1, 0x20, 4, 1, 4⟩]

/-- The register map of R412: every register of the spec, by its place in BAR0. -/
def regPlaces : List RegPlace :=
  regPlaces1 ++ regPlaces2 ++ regPlaces3 ++ regPlaces4 ++ regPlaces5 ++ regPlaces6 ++ regPlaces7 ++ regPlaces8

end Sys2Proof.Machine
end

