-- ==== Sys2Proof/Machine/State.lean ====
section
/-! DEFINITION. The state of the hub as plain data: the register store, array time, and everything the spec gives the hub
beside its registers, block by block. Every array is a sparse map in canonical form; the value an unlisted element reads
as is the element after reset. -/

namespace Sys2Proof.Machine

/-- Why the machine stops with a fault. -/
inductive Fault where
  /-- Raised by an event row that names an element the hub does not have (R7, R8): no such event can come. Safe: the
  hub has no behaviour for an event on a channel, axis or lane that does not exist. -/
  | noSuchItem
  deriving DecidableEq, Repr

/-- Why the machine refuses a command. -/
inductive Refusal where
  /-- Raised by the dispatcher alone, for a command whose meaning is not written. Safe: nothing is claimed of it. -/
  | notModelled (mnemonic : String)
  deriving DecidableEq, Repr

/-! ## Common types -/

/-- A bark packet (R322): LEN is 4 words and the payload. -/
structure Bark where
  src  : Nat
  code : Nat
  warn : Bool
  hub  : Nat
  time : Nat
  payload : List Nat
  afterLoss : Bool
  deriving DecidableEq, Repr

/-- A completion (R308) of a command, before its PHASE bit is set at the write. -/
structure Cpl where
  tag    : Nat
  status : Status
  opcode : Nat
  hub    : Nat
  result : Nat
  index  : Nat
  endCause : Nat
  quiet  : Bool
  via    : Via
  deriving DecidableEq, Repr

/-- An accepted command that is not completed (R309): its header, and whether the active processor has begun it (R17). -/
structure Flight where
  hdr   : CmdHdr
  begun : Bool
  deriving DecidableEq, Repr

/-- What the hub sends to the outside, in order: posted DMA writes, MSI-X messages, Ovnas messages and frames. -/
inductive Out where
  /-- A posted write of host memory (R306, R314). -/
  | dma (addr : Nat) (data : List Nat)
  /-- An MSI-X message (R331). -/
  | msix (vector addr data : Nat)
  /-- A completion written to CPL ring slot `slot` with its PHASE bit (R308, R309). -/
  | cpl (slot : Nat) (phase : Nat) (c : Cpl)
  /-- An EVT ring entry sequence written for one packet (R324), from ring slot `slot`. -/
  | evt (slot : Nat) (b : Bark)
  /-- The status block (R306). -/
  | status (data : List Nat)
  /-- A record written into stream buffer `buf` at byte position `pos` (R319). -/
  | record (buf pos : Nat) (data : List Nat)
  /-- An Ovnas message (R337): type, destination hub (255 every hub) and its words. -/
  | ovnas (type dst : Nat) (words : List Nat)
  /-- A frame put on a lane (R336). -/
  | frame (lane : Nat) (f : Frame)
  /-- An ordered set sent on a lane (R334, R340): 0 NOT_READY, 1 READY, 2 NAK with its SEQ, 3 credits of a VL
  (VL + 4 × credits), 4 RETRAIN. -/
  | ordered (lane kind value : Nat)
  /-- A PTP message sent on the timing port (R39): its messageType code, domain and VLAN tag. -/
  | ptp (type domain : Nat) (vlan : Option Nat)
  deriving DecidableEq, Repr

/-! ## The mode machine (chapter 1) -/

/-- A trigger decided and not yet acted on (R23, R27). -/
inductive Trig where
  /-- A start: its HUB_MODE cause. -/
  | boot (cause : Nat)
  | lowFeeds
  | isolation
  /-- A mode request, from MODE_SET (with its command) or from HUB_MODE_REQ.GO. -/
  | request (target : Nat) (hdr : Option CmdHdr)
  /-- Start steps complete (BOOT to SELFTEST). -/
  | steps
  /-- The end of SELFTEST: next mode and cause. -/
  | tested (next cause : Nat)
  deriving DecidableEq, Repr

/-- A slot of the chassis: what stands in it, and how the hub treats it. Slots are numbered as the PART byte of R316. -/
structure Slot where
  /-- A card is seated (presence contact). -/
  card  : Bool := false
  /-- A JAB-00 panel is fitted (sensing contact). -/
  panel : Bool := false
  /-- VARIANT code of the seated card. -/
  variant : Nat := 0
  hwrev : Nat := 0
  serial : Nat := 0
  /-- CARD_SERVICE has taken the part out (R13, R420). -/
  takenOut : Bool := false
  /-- A power-up is asked for and its self-test not yet judged (R420, R421), with the command that asked. -/
  entering : Bool := false
  serviceCmd : Option CmdHdr := none
  /-- The card was seated in BOOT or SELFTEST, and enters at the mode that follows SELFTEST (R420). -/
  late : Bool := false
  /-- Run-clock instant of the last card-link loss (R387). -/
  linkLost : Option Nat := none
  /-- The card muzzles itself until the core loads its configuration again (R387). -/
  selfMuzzled : Bool := false
  /-- The firmware that the card or processor runs, and the one on its way into the standby store while an update runs (R381). -/
  fw : List Nat := []
  standby : Option (List Nat) := none
  /-- Configuration writes held while an update runs (R381). -/
  held : List CfgWr := []
  /-- Commands whose writes are held, with their RESULT. -/
  heldCmds : List (CmdHdr × Nat) := []
  deriving DecidableEq, Repr

/-- The supervisor and mode machine, beside the HUB_ registers. -/
structure HubSt where
  /-- AON is powered. -/
  aon : Bool := true
  trigs : List Trig := []
  /-- /STOW: the run-clock instant since which it stands asserted. -/
  stowSince : Option Nat := none
  stowIgnored : Bool := false
  /-- Run-clock instant since which the hub is isolated (R25). -/
  isoSince : Option Nat := none
  /-- Run-clock instant of the entry into RUN, DEGRADED or COMMISSION from any other mode (R25). -/
  activeSince : Nat := 0
  /-- Run-clock instant of the entry into the present mode. -/
  modeAt : Nat := 0
  /-- Stow has muzzled every axis, so B_D is 0 (R29, R285). -/
  stowDone : Bool := false
  /-- The mode a SELFTEST request returns to (R26). -/
  testReturn : Option Nat := none
  slots : Sparse Slot := []
  /-- A start is running (R361). -/
  starting : Bool := true
  /-- Steps 2 to 7 of the start are done, and a card's domain waits for its grant in step 8 (R288, R361). -/
  cardsWait : Bool := false
  /-- Run-clock instant since which no outside path is live (R22). -/
  pathSince : Option Nat := none
  /-- DORMANT was entered by low feeds (R24). -/
  dormantLow : Bool := false
  /-- The reset button is held (since this run-clock instant) and its hold has not yet begun a start. -/
  button : Option Nat := none
  /-- The press began as AON came up (R360). -/
  buttonAtPower : Bool := false
  /-- Run-clock instant of the last press. -/
  pressAt : Option Nat := none
  /-- Run-clock instants of the failed starts still counted (R366). -/
  failedAt : List Nat := []
  /-- A failed start waits for its retry (R366). -/
  retry : Bool := false
  /-- Run-clock instant of the failure that the retry answers, and of the start's beginning. -/
  failAt : Nat := 0
  startAt : Nat := 0
  /-- Failures on bank F in a row, for the doubling interval of R367. -/
  failsF : Nat := 0
  /-- The core pipeline microcode that runs (R369, R382). -/
  microcode : List Nat := []
  /-- Supervisor run time out of SELFTEST in the trial of R375 began at this instant. -/
  proofSince : Option Nat := none
  /-- What of that time had passed before the last SELFTEST. -/
  proofDone : Nat := 0
  deriving DecidableEq, Repr

/-! ## Array time and the scheduler (chapter 2) -/

/-- An action the scheduler holds (R48), with what it needs when it fires. -/
inductive Act where
  | nop (h : CmdHdr)
  | cfg (h : CmdHdr) (writes : List CfgWr) (result : Nat)
  | cfgRead (h : CmdHdr) (ofs len addr : Nat)
  | bankSwap (mask value : Nat)
  | window (line : Nat) (opening : Bool)
  | capture (stream : Nat)
  | angleSlot (hub gen : Nat)
  | moveStart (h : CmdHdr) (axis kind : Nat) (value : Int) (vmax acc dec : Nat)
  | groupStart (h : CmdHdr) (mask kind vmax acc dec : Nat) (targets : List Int)
  | homeStart (h : CmdHdr) (axis source n dir : Nat) (vel : Int) (dist : Nat) (homePos : Int) (stream thresh : Nat)
  | stop (h : CmdHdr) (group : Bool) (axis mask : Nat)
  | streamClose (stream : Nat)
  | streamOpen (stream : Nat)
  deriving DecidableEq, Repr

/-- A time-domain entry: its edge, its place among the kinds of R48, its order of acceptance, its action. -/
structure Sched where
  at_  : Nat
  kind : Nat
  seq  : Nat
  act  : Act
  deriving DecidableEq, Repr

/-- An angle generator's own state (R51): the last angle it saw and its edge, and the disarmed
grid points: point, direction, and whether the angle has passed it since. -/
structure AngGen where
  seen : Bool := false
  theta : Nat := 0
  tk : Nat := 0
  disarmed : List (Nat × Bool × Bool) := []
  deriving DecidableEq, Repr

/-- The timing unit, beside the TB_ registers. -/
structure TbSt where
  /-- Run-clock end of the running slew, and of the lock-out. -/
  slewEnd : Nat := 0
  lockEnd : Nat := 0
  /-- Classes whose disagreement has been barked in this qualification (R40). -/
  disagreed : List Nat := []
  /-- A step to a reference waits for that reference's second boundary (R40, R43). -/
  stepTo : Option Nat := none
  /-- Run-clock instant plus 1 at which a class began its 10 s of R35; 0 while it does not qualify. -/
  qualSince : Sparse Nat := []
  /-- Run-clock instant since which the hub is LOCKED on EXT or PTP without a break (training, R45). -/
  trainSince : Option Nat := none
  /-- Training held at the loss, hours, saturating; and the instant HOLDOVER began. -/
  holdSince : Nat := 0
  /-- The oven is stable: classes may qualify (R361 step 3). -/
  oven : Bool := false
  /-- PTP window counters (Sync messages, delay measurements) and master state. -/
  ptpSync : Nat := 0
  ptpDelay : Nat := 0
  ptpMaster : Bool := false
  /-- The PTP window under way began at an AT second boundary. -/
  ptpWhole : Bool := false
  /-- Run-clock instant of the last 1PPS_IN edge. -/
  ppsLast : Option Nat := none
  /-- LINK (R35, R38): run-clock instant of the last transfer from upstream, the mean offset it gave in ps, and the side and
  leader it came under; `linkPull` while the loop still removes a step's remainder or an absorbed jump. -/
  linkLast : Option Nat := none
  linkOfs : Int := 0
  linkFrom : Option (Nat × Nat) := none
  linkPull : Bool := false
  /-- Time-domain entries, in order of acceptance, and the next order number. -/
  sched : List Sched := []
  schedSeq : Nat := 0
  /-- AON copy of TB_SCHED_STAT.PENDING (R50). -/
  pendCopy : Nat := 0
  gens : Sparse AngGen := []
  /-- Generators whose instants other hubs have sent. -/
  remoteGens : List Nat := []
  /-- Steps of AT, newest first (R43): the place of each in array time as it runs now, and by how much it moved AT. -/
  steps : List (Nat × Int) := []
  deriving DecidableEq, Repr

/-! ## Drives and analogue outputs (chapter 10) -/

/-- A move under way or waiting: its command (none for a stow move), kind and limits (R260). -/
structure Move where
  hdr  : Option CmdHdr
  kind : Nat
  /-- Target in microsteps, not wrapped, for ABS and REL; velocity in microsteps/s for VEL. -/
  value : Int
  vmax : Nat
  acc  : Nat
  dec  : Nat
  deferred : Bool
  stow : Bool
  deriving DecidableEq, Repr

/-- A HOME under way or waiting (R267). -/
structure Homing where
  hdr  : CmdHdr
  source : Nat
  n    : Nat
  dir  : Nat
  vel  : Int
  dist : Nat
  homePos : Int
  stream : Nat
  thresh : Nat
  /-- Position at the start, in microsteps, not wrapped, and the CCLK edge of the start. -/
  start : Int
  startAt : Nat
  /-- Position at the home event. -/
  pEv  : Option Int
  /-- The distance is spent, or the event is older than the history. -/
  lost : Bool
  deferred : Bool
  deriving DecidableEq, Repr

/-- What drives an axis. -/
inductive Motion where
  | still
  | move (m : Move)
  | home (h : Homing)
  | arena
  | group
  deriving DecidableEq, Repr

/-- The chopper of one bridge (R257): 0 slow decay at a set-point of zero, 1 on phase, 2 off phase; since its run-clock instant. The
run-clock instants since which the phase current lies below 10 % of its set-point, and since which it is normal (R270). -/
structure Chop where
  ph    : Nat := 0
  since : Nat := 0
  openSince : Option Nat := none
  okSince   : Option Nat := none
  deriving DecidableEq, Repr

/-- A stepper axis, beside its DV_AX registers. -/
structure Axis where
  /-- Position and velocity with 32 fractional bits (R259): microsteps, and microsteps per beat. The position is not
  wrapped; DV_AX_STAT.POS shows it modulo 2^32. -/
  pos : Int := 0
  vel : Int := 0
  motion : Motion := .still
  /-- A motion waiting for its reservation (R261), and the run-clock instant it began to wait. -/
  waiting : Option Motion := none
  waitSince : Nat := 0
  /-- A motion to start at the next beat boundary (R260). -/
  next : Option Motion := none
  /-- ENERGISE is asked for and waits for HOLD_W (R281). -/
  energise : Bool := false
  /-- The axis was sent to its stow position at the entry to STOW, and has not reached it (R29). -/
  stowing : Bool := false
  /-- Positions at the last beat boundaries, newest first, and the beat of the newest (R267). -/
  hist : List Int := []
  histBn : Nat := 0
  /-- The sequencer of the present beat (R259): p at its start, and its run-clock instant. -/
  seqFrom : Int := 0
  seqRun : Nat := 0
  /-- The choppers of bridges A and B (R257). -/
  chopA : Chop := {}
  chopB : Chop := {}
  /-- Run-clock instant since which the axis stands still; phases at I_RUN. -/
  stillSince : Nat := 0
  runCur : Bool := false
  /-- The phases are energised. -/
  on : Bool := false
  /-- The present FAULT is an overtemperature (R270). -/
  otFault : Bool := false
  /-- Run-clock instants of half-bridge conflicts (R258). -/
  conflicts : List Nat := []
  /-- USE, INVERT and limits as they act (R280, R266). -/
  useNow : Nat := 0
  invNow : Nat := 0
  limLo : Int := -2147483648
  limHi : Int := 2147483647
  /-- SET_POS waits for the next beat boundary (R265). -/
  setPos : Option Int := none
  /-- Bark of this approach to a limit given (R266). -/
  limBarked : Bool := false
  /-- The setting is invalid (R280): the axis is held OFF. -/
  bad : Bool := false
  /-- Duties of the four heater outputs in force, as sent at the last PWM period boundary, in Q1.15 (R271). -/
  duty : List Nat := [0, 0, 0, 0]
  /-- The duties of the period before, the run-clock instant of the last period boundary, and the length of the period in beats (R271). -/
  dutyWas : List Nat := [0, 0, 0, 0]
  heatAt : Nat := 0
  heatLen : Nat := 64
  /-- DV_HEAT was written in COMMISSION since its entry (R279). -/
  heatLive : Bool := false
  /-- Run-clock instant since which all four outputs have held zero (R272). -/
  zeroSince : Option Nat := none
  /-- Demand of the arena that drives the axis, Q1.15 (R269), and each heater's arena demand. -/
  demand : Int := 0
  deriving DecidableEq, Repr

/-- A running or waiting group move (R268). -/
structure Group where
  hdr : CmdHdr
  mask : Nat
  /-- Member axes with their start and signed distance, in microsteps. -/
  members : List (Nat × Int × Int)
  lead : Nat
  dist : Nat
  /-- Progress of the lead along its path and its speed, with 32 fractional bits. -/
  s : Int
  v : Int
  vmax : Nat
  acc : Nat
  dec : Nat
  waiting : Bool
  since : Nat
  deferred : Bool
  deriving DecidableEq, Repr

/-- The drive card, beside the DV_ registers. -/
structure DvSt where
  axes : Sparse Axis := []
  groups : List Group := []
  /-- Groups to start at the next beat boundary. -/
  groupNext : List Group := []
  /-- /HALT channels asserted, and the run-clock instant since which they disagree (R403). -/
  haltA : Bool := false
  haltB : Bool := false
  haltDis : Option Nat := none
  haltBarked : Option Nat := none
  /-- User microstep tables: entry (256 × table + index), staging and active (R255), and one waiting for its boundary. -/
  utabStg : Sparse Nat := []
  utabAct : Sparse Nat := []
  /-- The table and the entries as they stood when they were validated. -/
  utabNext : Option (Nat × List Nat) := none
  deriving DecidableEq, Repr

/-- An analogue output, beside its AO_ registers. -/
structure Ao where
  /-- A broken GUARD 3 leash holds the clear code (R423). -/
  leashHeld : Bool := false
  /-- Written or armed in COMMISSION since its entry (R279). -/
  live : Bool := false
  /-- It has left its clear code with the reservation granted (R274), or asks for it. -/
  waiting : Bool := false
  /-- RANGE and LOOP_EXT in force (R275). -/
  rangeNow : Nat := 0
  loopNow : Bool := false
  /-- The deglitcher (R275): it holds the code `heldCode` of the range `heldRange` until this run-clock instant. -/
  heldTill : Nat := 0
  heldCode : Int := 0
  heldRange : Nat := 0
  /-- The sine law in force (R277): whether the output follows it, and FREQ, PHASE, SINE_AMP and SINE_OFS. -/
  sineOn : Bool := false
  freqNow : Nat := 0
  phaseNow : Nat := 0
  ampNow : Nat := 0
  ofsNow : Nat := 0
  /-- Consecutive beats: low headroom, headroom again, open, overload (R278). -/
  low : Nat := 0
  okay : Nat := 0
  openN : Nat := 0
  overN : Nat := 0
  /-- Code the arena that names it demands, Q1.15 (R243). -/
  demand : Option Int := none
  deriving DecidableEq, Repr

/-! ## Energy and heat (chapter 11) -/

/-- A reservation the governor has granted, or a request that waits (R286, R287). -/
structure Resv where
  /-- 0 drive, 1 service. -/
  book : Nat
  /-- Class, highest first: drive 0 STOW, 1 HOLD, 2 MOTION; service 0 FAN, 1 FOREGROUND, 2 BACKGROUND. -/
  cls  : Nat
  /-- Consumer ID of R288. -/
  cid  : Nat
  /-- Tokens of 0.1 W asked for in all. -/
  want : Nat
  /-- Tokens held now. -/
  held : Nat
  /-- Beat of arrival, for the order of R287 and R288, and the run-clock instant since which it waits. -/
  bn   : Nat
  since : Nat
  /-- Its wait has been counted (R289). -/
  counted : Bool
  deriving DecidableEq, Repr

/-- A preemptible background task (R292): the run-clock instant from which its pass runs, the blocks done in it, the run-clock instant of
the block under way, and that of the end of the last pass. -/
structure Bg where
  passAt  : Nat := 0
  done    : Nat := 0
  blockAt : Option Nat := none
  lastEnd : Nat := 0
  deriving DecidableEq, Repr

/-- The governor, beside the PW_ registers. -/
structure PwSt where
  grants : List Resv := []
  waits  : List Resv := []
  /-- Releases that fall due at the next beat boundary (R288): (book, consumer, tokens kept). -/
  releases : List (Nat × Nat × Nat) := []
  /-- f of R290 as a fraction, and the factor of R291. -/
  fNum : Nat := 1
  fDen : Nat := 1
  /-- Terms of R285 in 0.1 W, and P_LOG and bridge power as last measured. -/
  bFeed : Nat := 11600
  /-- B_TH in units of 1/16,000 of 0.1 W. -/
  bTh : Nat := 1048560000
  deficit0 : Bool := false
  deficit1 : Bool := false
  /-- Deficit length in beats, per book. -/
  defBeats0 : Nat := 0
  defBeats1 : Nat := 0
  /-- Run-clock instant since which bridge power lies within its limit (R291). -/
  drawOk : Option Nat := none
  /-- D_W in steps of 1/16 (R296). -/
  dw : Nat := 16
  /-- f is held down by R291: the fraction it may not pass. -/
  ovr : Option (Nat × Nat) := none
  /-- Feed A, B: declared lost (R388); carrying load; run-clock instant of the last change of class. -/
  lostA : Bool := false
  lostB : Bool := false
  loadA : Bool := false
  loadB : Bool := false
  chgA : Nat := 0
  chgB : Nat := 0
  /-- Sensors at their critical limit in consecutive readings; sensors that have been read. -/
  critRun : Sparse Nat := []
  read : List Nat := []
  /-- Run-clock instant since which every sensor is below its warn limit. -/
  coolSince : Option Nat := none
  /-- Background tasks that yielded (R293): consumer IDs; tasks overdue. -/
  yielded : List Nat := []
  overdue : List Nat := []
  /-- Retention scrub and kennel refresh (R292). -/
  scrub : Bg := {}
  refresh : Bg := {}
  /-- Run-clock instants: tray test begun; last retry. What a test under way has found, 0 nothing yet (R299). -/
  fanTest : Sparse Nat := []
  fanLast : Sparse Nat := []
  fanFound : Sparse Nat := []
  /-- A power-up request of a domain (0 to 29) and the command that waits for it. -/
  domCmd : Sparse (Option CmdHdr) := []
  deriving DecidableEq, Repr

/-! ## Host port, bark queue, leashes (chapter 12) -/

/-- A record formed and not yet written to its buffer (R320): encoded bytes, its stream, first SEQ and slots. -/
structure RecOut where
  stream : Nat
  seq  : Nat
  n    : Nat
  buf  : Nat
  data : List Nat
  /-- It waits behind others or for space, so it is LATE (R168, R320). -/
  late : Bool
  replay : Bool
  deriving DecidableEq, Repr

/-- A stream buffer in use (R318). -/
structure SBuf where
  base : Nat := 0
  log2 : Nat := 0
  vec  : Nat := 0
  head : Nat := 0
  tail : Nat := 0
  /-- Open streams and replays that use it. -/
  users : Nat := 0
  queue : List RecOut := []
  /-- A backlog stands, and the records delivered LATE in it. -/
  backlog : Bool := false
  lateN : Nat := 0
  deriving DecidableEq, Repr

/-- A running REPLAY (R321). -/
structure Replay where
  hdr : CmdHdr
  stream : Nat
  buf  : Nat
  left : Nat
  done : Nat
  deriving DecidableEq, Repr

/-- The host port, beside the HP_ registers. -/
structure HpSt where
  inflight : List Flight := []
  cplWait : List Cpl := []
  cmdPi : Nat := 0
  cmdCi : Nat := 0
  cplPi : Nat := 0
  cplCi : Nat := 0
  evtPi : Nat := 0
  evtCi : Nat := 0
  /-- Words 12 to 15 of the status block: its SEQ. -/
  statSeq : Nat := 0
  /-- Something has been written that the status block has not yet announced (R306). -/
  toAnnounce : Bool := false
  /-- Vectors with entries not yet announced; vectors announced, whose messages are due (R331); and the run-clock instant plus 1
  of each vector's last message. -/
  vecNew : List Nat := []
  vecDue : List Nat := []
  vecLast : Sparse Nat := []
  /-- The MSI-X table (R300), by 32-bit word, its vector control words held inverted (they reset to masked); the pending bits. -/
  msix : Sparse Nat := []
  vecPend : List Nat := []
  /-- Records written to host memory and not yet announced (R357, R365): hub, stream, the SEQ after the record, and REPLAY. -/
  notices : List (Nat × Nat × Nat × Bool) := []
  bufs : Sparse SBuf := []
  replays : List Replay := []
  /-- Run-clock instant of the last successful doorbell read, or of the begin of polling; polling has begun since the port came
  up; the host counts as lost (R305). -/
  dbLast : Nat := 0
  dbEver : Bool := false
  hostLost : Bool := false
  /-- The port has reached its ready point (R301). -/
  ready : Bool := false
  deriving DecidableEq, Repr

/-- The bark queue and its side buffer (R322 to R327, R424). -/
structure BqSt where
  queue : List Bark := []
  /-- Words of the first packet already popped. -/
  popped : Nat := 0
  /-- The next packet drained or popped carries AFTER_LOSS. -/
  loss : Bool := false
  /-- A partly popped packet was overwritten: the next pop returns a length word. -/
  lastPop : Nat := 0
  side : List Bark := []
  /-- Packets overwritten in the side buffer, and packets the queue held when PD27 went off. -/
  sideLost : Nat := 0
  heldAtOff : Nat := 0
  /-- Producers' words: barks raised and not yet written through the port, oldest first. -/
  staged : List Bark := []
  log : List Bark := []
  /-- Run-clock instant of the last bark under a rate limit, by code × 65,536 + element. -/
  last : Sparse Nat := []
  deriving DecidableEq, Repr

/-- A take of a leash that waits (R328). -/
structure Take where
  leash : Nat
  owner : Nat
  hdr   : CmdHdr
  until_ : Nat
  deriving DecidableEq, Repr

/-! ## Ovnas (chapter 13) -/

/-- A partial message under reassembly (R338). -/
structure Partial where
  src : Nat
  vl  : Nat
  msg : Nat
  type : Nat
  data : List Nat
  deriving DecidableEq, Repr

/-- A message that waits for a lane: of side 0 west or 1 east, 2 as its route gives, or 4 + l on lane l (R337); its bytes, the stream buffer
of a record (R336), the hub of its origin and its message number. -/
structure Msg where
  type : Nat
  src  : Nat
  dst  : Nat
  side : Nat
  buf  : Nat
  data : List Nat
  id   : Nat
  deriving DecidableEq, Repr

/-- A lane, beside its OV_ registers. -/
structure Lane where
  /-- Frames not acknowledged, oldest first (R340), and acknowledged frames of messages that are not acknowledged whole. -/
  replay : List Frame := []
  kept : List Frame := []
  /-- Frames to send, each with the lane whose receive buffer it fills (8: a frame of this hub), and VL2 frames sent since the last VL3
  frame (R341). -/
  toSend : List (Frame × Nat) := []
  vl2 : Nat := 0
  partials : List Partial := []
  /-- By VL, buffers freed whose credits have not been returned yet (R342). -/
  owe : List Nat := []
  /-- A NAK has been sent and its SEQ has not arrived. -/
  nak : Bool := false
  /-- The neighbour sends READY; it has ever done so. -/
  ready : Bool := false
  readyEver : Bool := false
  deriving DecidableEq, Repr

/-- What this hub knows of another hub (R346, R317). -/
structure Peer where
  known : Bool := false
  serial : Nat := 0
  role : Nat := 0
  /-- Hops to it on each side; 0 for no route on that side. -/
  hopsW : Nat := 0
  hopsE : Nat := 0
  /-- One-way delay along the route, and its delay from the leader, ns. -/
  path : Nat := 0
  delay : Nat := 0
  /-- Run-clock instant of its last TOPOLOGY. -/
  last : Nat := 0
  reach : Bool := false
  /-- Its host rings are READY with a fresh doorbell read (R352); it has raw streams (R359). -/
  rings : Bool := false
  raw : Bool := false
  /-- Its entry of PACK_STATUS, bytes 3 to 35, as last taken (R317). -/
  entry : List Nat := []
  deriving DecidableEq, Repr

/-- A command forwarded to another hub (R355). -/
structure Forward where
  hdr : CmdHdr
  target : Nat
  accepted : Bool
  /-- Run-clock instant since which the target is unreachable. -/
  lostAt : Option Nat
  deriving DecidableEq, Repr

/-- A record sent to the leader and not yet confirmed (R357). -/
structure Unconf where
  rcd : RecOut
  sentAt : Nat
  deriving DecidableEq, Repr

/-- Ovnas, beside the OV_ registers. -/
structure OvSt where
  lanes : Sparse Lane := []
  peers : Sparse Peer := []
  /-- Messages that wait for a lane, messages received whole, and the next message number of each VL (R336). -/
  txq : List Msg := []
  inbox : List Partial := []
  msgId : Sparse Nat := []
  /-- PACK_ROLE = LEAD and DEPUTY_ID of the running image (R370). -/
  lead : Bool := false
  deputyId : Nat := 255
  /-- Link layer ready: this hub sends READY (R364), first at this run-clock instant; it has lost its identity to a duplicate
  (R349). -/
  linkReady : Bool := false
  readyAt : Option Nat := none
  dup : Bool := false
  /-- The last heartbeat on any side, and on each side with its hops from the leader (run clock). -/
  hbLast : Option Nat := none
  hbWest : Option (Nat × Nat) := none
  hbEast : Option (Nat × Nat) := none
  /-- CLAIM_WAIT runs since this run-clock instant. -/
  claimAt : Option Nat := none
  /-- The present leader is a deputy that took over (its takes have owner 0x05, R328). -/
  tookOver : Bool := false
  /-- A takeover makes the follower resend its unconfirmed records (R357). -/
  resend : Bool := false
  deputyLost : Bool := false
  forwards : List Forward := []
  /-- Completions kept until the leader acknowledges them. -/
  kept : List Cpl := []
  /-- Follower: bytes granted per buffer. Leader: bytes requested (hub × 256 + buffer), bytes reserved per buffer, and the hub
  that was served last (R356). -/
  granted : Sparse Nat := []
  requested : Sparse Nat := []
  reserved : Sparse Nat := []
  lastHub : Sparse Nat := []
  unconf : List Unconf := []
  /-- Leader: the SEQ after the last record taken, per hub × 65,536 + stream (R357). -/
  written : Sparse Nat := []
  /-- Cages 0 to 7 (lanes) and 8 (timing port): 0 none, 1 qualified, 2 unknown, 3 refused (R406). -/
  modules : Sparse Nat := []
  /-- Per port: arrival of the neighbour's last TT and its departure as reported, in 2^-16 ns (R344). -/
  ttArr : Sparse Nat := []
  ttDep : Sparse Nat := []
  deriving DecidableEq, Repr

/-! ## Images and the kennel (chapter 14) -/

/-- A section of an image (R369). -/
structure Sect where
  type : Nat
  data : List Nat
  deriving DecidableEq, Repr

/-- A committed image, as its header and CONFIG preamble give it (R368, R370). -/
structure Image where
  gen : Nat := 0
  floor : Nat := 0
  keySlot : Nat := 0
  compat : Nat := 0
  hubId : Nat := 255
  lead : Bool := false
  deputy : Nat := 255
  startMode : Nat := 3
  /-- PARTS of the preamble, in the layout of HUB_PART_STATE. -/
  parts : Nat := 0x5555555555555555
  regs : List CfgWr := []
  curves : List (List Nat) := []
  cal : List (List Nat) := []
  keys : List (List Nat) := []
  sects : List Sect := []
  proven : Bool := true
  deriving DecidableEq, Repr

/-- One entry of the configuration journal (R370). -/
structure JEntry where
  writes : List CfgWr
  /-- It was a direct write, which commits no staged register by itself (R58). -/
  direct : Bool
  deriving DecidableEq, Repr

/-- A stream checkpoint (R365). -/
structure Ckpt where
  defn : List Nat
  buf  : Nat
  at_  : Nat
  seq  : Nat
  confirmed : Nat
  final : Bool
  deriving DecidableEq, Repr

/-- The kennel (chapter 14), beside the KN_ registers. -/
structure KnSt where
  /-- Bank contents as written (banks 1 A, 2 B), and committed images (0 F, 1 A, 2 B). -/
  data : Sparse (List Nat) := []
  images : Sparse Image := []
  /-- Customer public keys, slots 1 to 3. -/
  keys : Sparse (List Nat) := []
  journal : List JEntry := []
  journalGen : Nat := 0
  journalDrop : Bool := false
  ckpts : Sparse (Option Ckpt) := []
  /-- KN_IDENT.WRITE waits for its confirmation until this instant. -/
  identBy : Option Nat := none
  /-- Masked converters: (card serial × 32 + channel) (R116). -/
  masks : List Nat := []
  /-- Mirrors that have left service: 0 A, 1 B. -/
  mirrorsOut : List Nat := []
  /-- The calibration store, by card serial × 256 + place (R111, R193, R371, R384): 0 the references of a field card, 64 + c the active
  table of resolver channel c, 128 + c the gain of converter c. -/
  cal : Sparse (List Nat) := []
  deriving DecidableEq, Repr

/-! ## Field cards (chapters 3 and 4) -/

/-- A commit that waits for its beat boundary (R58, R60): the card's staged fields as they are to stand. -/
structure Commit where
  cfg : Sparse Nat
  /-- Run-clock edge of its beat boundary. -/
  at_ : Nat
  /-- Made by a command at its instant, so ahead of an APPLY of the same boundary. -/
  scheduled : Bool
  /-- The active configuration in full, with every connected converter affected (R64): no commit of the shadow. -/
  full : Bool
  /-- Every source restarts: APPLY after REVERT (R77). -/
  restart : Bool
  deriving DecidableEq, Repr

/-- Coefficients of a converter at one stage and gain (R97, R111), in 10^-12: its gain, and its offset as a part of full scale. -/
structure Coef where
  gain : Int := 1000000000000
  ofs : Int := 0
  deriving DecidableEq, Repr

/-- A working converter's channel, beside its registers. Spans are lists of (start, end) edges, newest first; an open span has
no end. -/
structure Chan where
  /-- Causes that hold the decimator input now (R90): bit 0 commit, 1 reset, 2 blanking. -/
  causes : Nat := 0
  /-- Held intervals, merged (R90). -/
  held : List (Nat × Option Nat) := []
  /-- Common-mode fault spans (R92), overrange spans (R67), and spans in which a faulty converter gives nothing (R118, R119). -/
  cm : List (Nat × Option Nat) := []
  ovr : List (Nat × Option Nat) := []
  dead : List (Nat × Option Nat) := []
  /-- Spans in which the spare carries the output (R110). -/
  subst : List (Nat × Option Nat) := []
  /-- Charge reset: 0 none, 1 the switch is closed, 2 open again (R69); the boundary of one that is due, and one that fell due at
  B + 2 and follows the running one (R70). -/
  rst : Nat := 0
  rstDue : Option Nat := none
  rstAgain : Bool := false
  /-- Carry term (R71), a real in pC, the edge from which it acts, and the term before it. -/
  carry : Int := 0
  carryAt : Nat := 0
  carryOld : Int := 0
  /-- Lead compensation (R81, R82): mean voltage and current of the first half and the flags of its beats, whether that half was
  measured, the edge of the commit that set the compensation up, and the last R values with their midpoints and flags. -/
  leadV : Int := 0
  leadI : Int := 0
  leadFl : Nat := 0
  leadHalf : Bool := false
  leadSince : Nat := 0
  rVals : List (Int × Nat × Nat) := []
  /-- Accepted coefficients by stage and gain, the ones before them with the edge at which they ended, and the ones under return
  verification (R111, R115). -/
  coefs : Sparse Coef := []
  coefOld : Coef := {}
  coefEnd : Nat := 0
  trial : Option Coef := none
  /-- Run-clock instant of the last accepted calibration. -/
  calAt : Nat := 0
  /-- The charge stage failed the injection check of the last self-test (R112). -/
  capBad : Bool := false
  deriving DecidableEq, Repr

/-- What a converter's input is connected to (R107). -/
inductive ConvIn where
  | open_
  /-- The pins of a channel, or its stage-output tap (R112). -/
  | input (c : Nat)
  /-- The references of the card. -/
  | refs
  deriving DecidableEq, Repr

/-- How the spare's turn ends, at the beat boundaries that follow (R107, R109). -/
inductive SpareEnd where
  /-- The spare opens its inputs and is free. -/
  | free
  /-- The handback is completed; the turn ends one beat later. -/
  | handback
  /-- The turn ends, with the gain change of its bark in ppm. -/
  | finish (dppm : Int)
  deriving DecidableEq, Repr

/-- The rotating spare of a card (R106 to R121); its phase and channel are in FC_SPARE_STAT. -/
structure SpareSt where
  /-- Start of the running cycle (run clock), the turn's place in it, converters still to be visited, and their number. -/
  cycleAt : Option Nat := none
  place : Nat := 0
  todo : List Nat := []
  members : Nat := 0
  /-- Run-clock start of the next cycle, once the last turn of a cycle has ended. -/
  nextAt : Option Nat := none
  /-- Run-clock start of the present phase; the end of the turn, and the run-clock boundary at which it comes. -/
  since : Nat := 0
  ending : Option (SpareEnd × Nat) := none
  /-- The spare's own coefficients by stage and gain, and the settings that the running self turn calibrates (R117). -/
  coefs : Sparse Coef := []
  selfSet : List Nat := []
  /-- The freed converter had a modulator fault in this calibration (R111, code 6). -/
  calFault : Bool := false
  /-- The spare is OUT until the card is replaced (R117). -/
  out : Bool := false
  /-- Blocks compared and excluded in the present verification, and the failures of calibration and return verification. -/
  compared : Nat := 0
  excluded : Nat := 0
  calFails : Nat := 0
  retFails : Nat := 0
  /-- A turn asked for by FORCE, and by RESTORE. -/
  force : Option Nat := none
  restore : Bool := false
  /-- The running turn is one of RESTORE. -/
  restoring : Bool := false
  /-- A reference recalibration waits for the running turn, or runs since this instant (R384). -/
  refWait : Bool := false
  refSince : Option Nat := none
  deriving DecidableEq, Repr

/-- A field card, beside its FC_ registers. -/
structure Card where
  due : List Commit := []
  /-- The sequence of R63: 0 none, 1 broken at B, 2 made at B + 1; its channels, sources and pins. -/
  phase : Nat := 0
  affected : List Nat := []
  zeroed : List Nat := []
  openPins : List Nat := []
  /-- Changes that wait for the end of a verification (R61): field key and value, none the field's reset value. -/
  deferred : List (Nat × Option Nat) := []
  /-- REVERT was written since the last APPLY. -/
  reverted : Bool := false
  /-- AT edge of the entry into service (R96). -/
  since : Nat := 0
  /-- Automatic resets since the last QRESET_AUTO bark. -/
  autoN : Nat := 0
  chans : Sparse Chan := []
  spare : SpareSt := {}
  /-- REF_A and REF_B as last calibrated, in 10^-9 of their factory values less those values (R384). -/
  refs : Int × Int := (0, 0)
  /-- Run-clock instant of the last accepted recalibration. -/
  refAt : Nat := 0
  /-- Spans in which source x limits its output (key x, R75) or is shut down (key 8 + x, R77). -/
  bad : Sparse (List (Nat × Option Nat)) := []
  /-- Factory figures by converter and setting (key 8 c + setting, 32 the spare): the gain in 10^-12 (R111), and the analogue delay τa in
  CCLK edges (R100). -/
  factory : Sparse Int := []
  tau : Sparse Nat := []
  /-- Serial number of the card last in service. -/
  serial : Option Nat := none
  deriving DecidableEq, Repr

/-- The field inputs. -/
structure FcSt where
  cards : Sparse Card := []
  /-- The active configuration of every card (R57), by field key. -/
  act : Sparse Nat := []
  /-- The eight blanking lines (R86): bits 0, 1 local, 2, 3 pack, 4 to 7 windows. -/
  lines : Nat := 0
  /-- Pack blanking edges that wait for their instant (R89): the instant, the line 0 or 1, its level. -/
  packDue : List (Nat × Nat × Bool) := []
  deriving DecidableEq, Repr

/-! ## Metrology (chapter 5) -/

/-- A channel that converts (R126): its settings as they stood at its start, the phase under way, and what it has measured. -/
structure MtRun where
  ch     : Nat
  /-- Start edge of the channel's time. -/
  start  : Nat
  mode   : Nat
  range  : Nat
  conv   : Nat
  cur    : Nat
  ref    : Nat
  /-- Settling delay in ms. -/
  settle : Nat
  /-- Phase 0 to 3, and whether it converts (else settles). -/
  phase  : Nat
  converting : Bool
  vals   : List Int
  ovr   : Bool
  open_  : Bool
  cm     : Bool
  /-- An urgent read (R135): its command and result address. -/
  urgent : Option (CmdHdr × Nat)
  /-- Steps of AT within its time, newest first: the place of each as AT ran after it, and the start as it stood before it. -/
  was : List (Nat × Nat) := []
  deriving DecidableEq, Repr

/-- A metrology result (R127, R134): value in V or Ω, beat number of the stamp, sample flags. -/
structure MtRes where
  value : Int := 0
  bn    : Nat := 0
  flags : Nat := 0
  deriving DecidableEq, Repr

/-- The metrology card, beside its MT_ registers. -/
structure MtSt where
  run : Option MtRun := none
  /-- The last scan channel that ran, so that the scan goes on above it. -/
  lastCh : Option Nat := none
  /-- Scans ended since the last check slot; a check slot runs since this edge; a check is due at the end of this scan. -/
  scans : Nat := 0
  checkAt : Option Nat := none
  /-- Urgent reads queued: command, channel, address (R137). -/
  urgents : List (CmdHdr × Nat × Nat) := []
  /-- The converter idles because the mask is zero, and the bark has been given. -/
  empty : Bool := true
  results : Sparse MtRes := []
  /-- The schedule that the core keeps while the hub does not scan (R132): the run-clock edge at which a channel's time began, and the
  channel. -/
  kept : Option (Nat × Nat) := none
  deriving DecidableEq, Repr

/-! ## Streams (chapter 6) -/

/-- A stream definition (R139), its fields decoded. -/
structure SDef where
  id : Nat
  kind : Nat
  out : Nat
  index : Nat
  clock : Nat
  clockArg : Nat
  filter : Nat
  reduce : Nat
  redArg : Nat
  stat : Nat
  curve : Nat
  format : Nat
  q : Int
  opts : Nat
  gain : Nat
  offset : Nat
  recCount : Nat
  recAge : Nat
  cj : Nat
  ra : Nat
  rb : Nat
  trig : Nat
  trigFlag : Nat
  tail : List Nat
  deriving DecidableEq, Repr

/-- A formed slot: its instant, word and flag byte (R158, R162). -/
structure SlotV where
  at_ : Nat
  word : Nat
  flags : Nat
  deriving DecidableEq, Repr

/-- A source value on its way: a real, an integer word for the integer formats, and flags. -/
structure SVal where
  r : Int
  w : Nat
  flags : Nat
  deriving DecidableEq, Repr

/-- A statistic under way (R152). -/
structure Accum where
  n : Nat := 0
  sum : Int := 0
  sq : Int := 0
  mean : Int := 0
  m2 : Int := 0
  lo : Int := 0
  hi : Int := 0
  first : Int := 0
  flags : Nat := 0
  blanked : Bool := false
  offline : Bool := false
  deriving DecidableEq, Repr

/-- A record under way (R163, R167): the place of its first slot in array time as it runs now, and whether its slots lie at the reduced
rate of R161. -/
structure Rec where
  seq : Nat
  place : Nat
  stow : Bool
  /-- Slots, oldest first; for a run, its first slot alone and its length. -/
  slots : List SlotV
  run : Option Nat
  brk : Bool
  deriving DecidableEq, Repr

/-- A tick that waits to be processed: its stamp, its place in array time as it runs now (a step of AT parts the two), whether it is a
gap slot, the value where its source gives it, and whether it lies at the reduced rate of R161. -/
structure Tick where
  at_ : Nat
  place : Nat
  slow : Bool := false
  gap : Bool
  val : Int
  flags : Nat
  deriving DecidableEq, Repr

/-- A block under way (R152): its place and stamp, the rate it lies at, and its samples. -/
structure Block where
  place : Nat
  at_ : Nat
  slow : Bool
  acc : Accum
  deriving DecidableEq, Repr

/-- An open stream. Its edges are places in array time as it runs now: a step of AT moves those that lie behind. -/
structure Stream where
  defn : SDef
  raw  : List Nat
  buf  : Nat
  openAt : Nat
  /-- The next tick of a beat or raw clock, of which those lie where next + phase is a multiple of the period. -/
  next : Nat
  phase : Nat := 0
  /-- Ticks that wait, oldest first: those of an angle or conversion clock, and those of a grid that has been left. -/
  due : List Tick := []
  /-- A tick has been processed. -/
  ticked : Bool := false
  /-- The instant of STREAM_CLOSE and its command. -/
  closeAt : Option (Nat × CmdHdr) := none
  seq : Nat := 0
  good : Nat := 0
  rcd : Option Rec := none
  brk : Bool := false
  /-- Breaks fall at these edges (R43, R149, R161); the SEQ after the last slot whose delivery is confirmed (R365). -/
  breaks : List Nat := []
  conf : Nat := 0
  /-- Runs at the reduced rate of R161. -/
  stowed : Bool := false
  /-- Waits for TOD_VALID after a cold start (R365). -/
  waitTod : Bool := false
  began : Bool := false
  blk : Option Block := none
  /-- Angle bins: statistics by bin, and the signed count of crossings. -/
  bins : Sparse Accum := []
  cross : Int := 0
  /-- Capture: the last samples outside windows (newest first), the open window (oldest first) with samples to come, the
  scheduled triggers, and the last used value and last flags. -/
  hist : List (Nat × SlotV) := []
  win : Option (List (Nat × SlotV) × Nat) := none
  trigs : List Nat := []
  prevUsed : Option Int := none
  prevFlags : Nat := 0
  /-- The input was clamped to the curve's domain at the last sample; the cold junction counts as lost. -/
  clamped : Bool := false
  cjLost : Bool := false
  /-- The last VALID values, newest first (instant, °C or scaled value), for the streams that name this one as cold junction. -/
  lastValid : List (Nat × Int) := []
  /-- Angle bins: the angle at each source tick that waits, none where it was invalid; closes that wait for their samples, with their
  stamps. -/
  angles : List (Nat × Option Nat) := []
  tabCloses : List (Nat × Nat) := []
  deriving DecidableEq, Repr

/-- The latest slot of a stream (R236): instant, value, flags; and by flag byte, the instant plus 1 of the last slot that carried it. -/
structure Latest where
  at_ : Nat := 0
  val : Int := 0
  flags : Nat := 0
  seen : Sparse Nat := []
  deriving DecidableEq, Repr

/-- The reduction pipeline, beside the RD_ registers. -/
structure RdSt where
  streams : Sparse (Option Stream) := []
  /-- Latest slots, kept past STREAM_CLOSE for the loops that name the stream. -/
  latest : Sparse Latest := []
  /-- SEQ after the last slot of a stream's most recent opening, for REPLAY; 0 never opened. -/
  lastSeq : Sparse Nat := []
  /-- Definition of a stream's most recent opening. -/
  lastDef : Sparse (List Nat) := []
  /-- Curve copies: 32 to 127, as lists of binary64 words, staging and active; the copies active before it, newest first, each with the
  edge before which it acts (R149). -/
  stg : Sparse (Sparse Nat) := []
  act : Sparse (List Nat) := []
  prev : Sparse (List (Nat × List Nat)) := []
  /-- Edge of each curve's last activation. -/
  actAt : Sparse Nat := []
  /-- The retention store: records of each stream, oldest first (R166). -/
  store : Sparse (List RecOut) := []
  deriving DecidableEq, Repr

/-! ## Axis cards (chapters 7 and 8) -/

/-- The outputs of a resolver channel at an update (R181, R187): angle in 2^-32 turn, speed in 2^-40 turn/s, acceleration a
real in turn/s², electrical angle in 2^-32 turn, sample flags; `own` the channel's own angle is valid, `valid` its output. -/
structure RdcOut where
  at_   : Nat := 0
  angle : Nat := 0
  speed : Int := 0
  accel : Int := 0
  elec  : Nat := 0
  flags : Nat := 0
  own   : Bool := false
  valid : Bool := false
  deriving DecidableEq, Repr

/-- A bin of the turn under way, or of the accepted turns (R192): updates, sum of the angle since the turn began, sum of the
reference since then. -/
structure LBin where
  n : Nat := 0
  th : Int := 0
  rf : Int := 0
  deriving DecidableEq, Repr

/-- Harmonic learning under way (R191, R192). Angles in 2^-40 turn. -/
structure Learn where
  ref : Nat
  turns : Nat
  /-- The turn under way, once the first whole turn has begun: updates in it, its direction, extreme speeds, sum of speeds,
  angle and reference since it began, its bins, and whether a condition has failed. -/
  open_ : Bool := false
  k     : Nat := 0
  fwd   : Bool := true
  wMin  : Int := 0
  wMax  : Int := 0
  wTot  : Int := 0
  th    : Int := 0
  rf    : Int := 0
  bins  : Sparse LBin := []
  spoilt : Bool := false
  /-- Angle and reference at the last update. -/
  seen  : Bool := false
  lastTh : Nat := 0
  lastRf : Nat := 0
  /-- Over the accepted turns: by bin the number of deviations and their sum (2^-60 turn), and the sum of mean speeds (2^-40 turn/s). -/
  acc   : Sparse (Nat × Int) := []
  wSum  : Int := 0
  /-- The cause that ends learning (R192), 0 none. -/
  cause : Nat := 0
  deriving DecidableEq, Repr

/-- The in-phase and quadrature parts of the two windings (R175): S, C, Sq, Cq in 2^-30, or a product of one MCLK edge in 2^-60. -/
structure Wind where
  s  : Int := 0
  c  : Int := 0
  sq : Int := 0
  cq : Int := 0
  deriving DecidableEq, Repr

/-- A resolver channel, beside its RDC_ registers. -/
structure Rdc where
  /-- 0 not tracking, 1 seeding, 2 closing, 3 locked. -/
  ph    : Nat := 0
  /-- θ̂ in 2^-40 turn, ω in 2^-40 turn/s (R178), and the last error, a real in turns. -/
  theta : Nat := 0
  omega : Int := 0
  err   : Int := 0
  /-- The filtered acceleration, a real (R180). -/
  accel : Int := 0
  /-- φc in 2^-48 turn. -/
  phic  : Nat := 0
  /-- Products at the last MCLK edges, the newest first; what the filters give at the last update, and its AT edge (R175). -/
  hist  : List Wind := []
  sig   : Wind := {}
  sigAt : Nat := 0
  /-- The excitation this channel's amplifier measured over the last beat, µVrms (R172). -/
  uv    : Nat := 0
  /-- Sums over the beat: updates, S·Sq + C·Cq and S² + C², in 2^-60. -/
  n     : Nat := 0
  quad  : Int := 0
  pow   : Int := 0
  /-- Consecutive beats with the mean of AMP below, above, and inside the window. -/
  lowRun  : Nat := 0
  highRun : Nat := 0
  inRun   : Nat := 0
  /-- AT edge of the try's update 0, its seeds Θ0 onward (2^-48 turn), and that no lock-test update has failed. -/
  tryAt : Nat := 0
  seeds : List Nat := []
  lockOk : Bool := true
  /-- Run-clock instants: this amplifier started or last changed; up to when the check of R199 keeps it off; the next try may begin. -/
  excAt : Nat := 0
  ampOff : Nat := 0
  retryAt : Nat := 0
  /-- The channel has left OFF (R182). -/
  up    : Bool := false
  /-- Updates in a row with |e| beyond the threshold, and with |ω| at or above 120 turn/s. -/
  errRun : Nat := 0
  spdRun : Nat := 0
  /-- Conditions that stand: LOS, AMP_HIGH, WIRE_OPEN, CONV_OVL with the last edge beyond RANGE, OVERSPEED, φc at the edge at the end of the
  last beat, PHASE, CONV_FAULT. -/
  los   : Bool := false
  ampHigh : Bool := false
  wire  : Bool := false
  ovl   : Bool := false
  ovlAt : Option Nat := none
  fast  : Bool := false
  atEdge : Bool := false
  edge  : Bool := false
  conv  : Bool := false
  /-- Outputs between these AT edges carry SETTLING; the loop is held up to this AT edge (R198). -/
  setFrom : Nat := 0
  settle : Nat := 0
  holdTo : Nat := 0
  /-- AT edge of the lock. The pair of a fine channel: resolved, ambiguous at its last resolution, n, θh of this update and of the one
  before (2^-40 turn), updates in a row beyond PAIR_TOL. -/
  lockAt : Nat := 0
  pair  : Bool := false
  ambig : Bool := false
  nTurn : Nat := 0
  thH   : Nat := 0
  lastF : Nat := 0
  slip  : Nat := 0
  /-- Outputs of the last two updates, and the last valid ones. -/
  cur   : RdcOut := {}
  prev  : RdcOut := {}
  live  : RdcOut := {}
  learn : Option Learn := none
  deriving DecidableEq, Repr

/-- A fine position input, beside its PFI_ registers (R204 to R224). -/
structure Pfi where
  /-- C and Q, 48-bit modular counts (R208). -/
  c : Nat := 0
  q : Nat := 0
  /-- Direction of the last change of Q. -/
  fwd : Bool := true
  /-- Accepted line levels A, B, Z, and the run-clock instant of the last accepted transition on A or B. -/
  a : Bool := false
  b : Bool := false
  z : Bool := false
  edgeAt : Option Nat := none
  /-- Conditions that stand: a line below 200 mV (A or B, Z), sin/cos amplitude, sin/cos speed. -/
  lineAB : Bool := false
  lineZ  : Bool := false
  scAmp  : Bool := false
  scFast : Bool := false
  /-- The values of Q before its changes of the last two updates, each with the AT edge of the change, the oldest first (R217). -/
  qLog : List (Nat × Nat) := []
  /-- The sin/cos count p, that a sample has given it, and O of R214. -/
  p : Nat := 0
  scSeen : Bool := false
  o : Int := 0
  /-- Windows in a row with the mean of AMP outside and inside its window, and with the frequency above 550 kHz and not (R213, R216). -/
  ampOut : Nat := 0
  ampIn  : Nat := 0
  fastRun : Nat := 0
  slowRun : Nat := 0
  /-- Run-clock instant since which the sin/cos path is free of faults; updates in a row beyond FB_TOL. -/
  scOk : Nat := 0
  dis : Nat := 0
  /-- Fusion: anchor (Fa in 2^-32 turn, Qa); the window under way: updates taken, its first value (2^-48 turn) and Q, the sum
  of the signed differences from the first; updates in a row beyond FUSE_TOL; the last valid F. -/
  fa : Nat := 0
  qa : Nat := 0
  winN : Nat := 0
  winV : Nat := 0
  winQ : Nat := 0
  winS : Int := 0
  slip : Nat := 0
  lastF : Option Nat := none
  /-- The speed filter (R224): θ̂ in 2^-40 turn, 56 bits, and ω in 2^-40 turn/s. -/
  sTh : Nat := 0
  sW  : Int := 0
  /-- An operation that acts at the next update: SET_COUNT, SET_TURNS, RESUME, with its value. -/
  setCount : Option Nat := none
  setTurns : Option Nat := none
  resume : Bool := false
  /-- The lines have made an index event; C and the AT edge of the last one (R209). The first since COUNT_VALID was set has been seen
  (R211). An anchor waits for the update after its event (R221): the AT edge of the event, and Q after it. -/
  ev : Bool := false
  idxC : Nat := 0
  idxAt : Nat := 0
  idxSeen : Bool := false
  ixWait : Option (Nat × Nat) := none
  /-- A fault has cleared COUNT_VALID since the last update (R220). -/
  lost : Bool := false
  /-- Slots between these AT edges carry SETTLING (R225). -/
  setFrom : Nat := 0
  settle : Nat := 0
  /-- The update's F in 2^-32 turn and its instant, and those of the update before. -/
  f : Nat := 0
  at_ : Nat := 0
  fPrev : Nat := 0
  atPrev : Nat := 0
  okPrev : Bool := false
  deriving DecidableEq, Repr

/-- A probe input, beside its registers (R218): run-clock instant of the last latch, and the latch as a 2,048-bit word. -/
structure Probe where
  last : Option Nat := none
  word : Nat := 0
  n : Nat := 0
  deriving DecidableEq, Repr

/-- An encoder emulation output, beside its registers (R226 to R229). -/
structure Emu where
  /-- The last target in one turn, and the target and E as counts that do not wrap. -/
  t : Nat := 0
  target : Int := 0
  e : Int := 0
  /-- CCLK edges of the running interval at which counts are emitted, and their direction. -/
  edges : List Nat := []
  up : Bool := true
  /-- The output is muzzled; LAG_FAULT holds it; RESTART was written; a change of settings muzzles it for one update. -/
  muzzled : Bool := true
  fault : Bool := false
  restart : Bool := false
  changed : Bool := false
  deriving DecidableEq, Repr

/-- The axis cards. -/
structure AxSt where
  rdc : Sparse Rdc := []
  /-- Activations of harmonic tables that wait for their boundary (R193): channel and AT edge. -/
  acts : List (Nat × Nat) := []
  pfi : Sparse Pfi := []
  pb  : Sparse Probe := []
  ee  : Sparse Emu := []
  deriving DecidableEq, Repr

/-- A loop, beside its LE_ registers (chapter 9): its notch history, newest first, and what waits for a boundary. -/
structure Loop where
  /-- e and f of the last two evaluations, Q1.15 (R239). -/
  e1 : Int := 0
  e2 : Int := 0
  f1 : Int := 0
  f2 : Int := 0
  /-- I_CLR, I_SET and RESTART written since the last boundary. -/
  iClr : Bool := false
  iSet : Option Int := none
  restart : Bool := false
  /-- A start waits for the next boundary (R237, R249). -/
  start : Bool := true
  /-- The band's state is HOLD (R238), apart from SRC_HOLD. -/
  hold : Bool := false
  /-- A fault stands (R237). -/
  faulted : Bool := false
  /-- The loop has not been evaluated since its start or recovery: r := y, and the notch starts in steady state. -/
  fresh : Bool := true
  /-- The demand that the last boundary computed, and the one in force (R233). -/
  u : Int := 0
  uNow : Int := 0
  /-- The structural fields of R247 as the last boundary took them; empty while the loop is OFF. -/
  snap : List Nat := []
  /-- F0, BW and P of the notch in force. -/
  notch : List Nat := []
  /-- The last boundary at which a PI or LOOP source was usable: set-point, feedback (R236). -/
  spGood : Option Nat := none
  fbGood : Option Nat := none
  /-- AT edge of the last evaluation, and E before it (R251). -/
  eAt  : Nat := 0
  eOld : Int := 0
  deriving DecidableEq, Repr

/-- An arena, beside its LE_ registers. -/
structure Arena where
  /-- The output that the last boundary formed, to be sent at the next; the one in force, Q1.15 (R233). -/
  out : Option Int := none
  outNow : Int := 0
  /-- OUT_KIND and OUT_IDX in force; kind 0 for none (R247). -/
  drv : Nat × Nat := (0, 0)
  /-- Muzzled by STOP, or by SAT_ACT; RESTART waits for a boundary. -/
  stopped : Bool := false
  satMuz : Bool := false
  restart : Bool := false
  /-- Its reservation is granted, or it waits; RES_W as it was asked for. -/
  granted : Bool := false
  waiting : Bool := false
  res : Nat := 0
  /-- Saturated time in beats, and whether this saturation has reached SAT_TIME (R245). -/
  satBeats : Nat := 0
  satHit : Bool := false
  deriving DecidableEq, Repr

/-- The loop engine, beside the LE_ registers. -/
structure LeSt where
  loops : Sparse Loop := []
  arenas : Sparse Arena := []
  deriving DecidableEq, Repr


/-! ## The whole -/

/-- The state of the hub. -/
structure State where
  /-- Commands that wait, first in, first out. -/
  pending : List Instr := []
  /-- Register fields by absolute bit address; a field not listed holds its reset value. -/
  regs : Sparse Nat := []
  /-- Lower words of multi-word fields that wait for the word of their most significant bit (R414), by bit address of the
  word. -/
  hold : Sparse Nat := []
  /-- Fields whose new value has not taken effect yet (R200, R230, R247): bit address, the value that still acts, and the AT
  edge at which the new one takes over. -/
  lag : List (Nat × Nat × Nat) := []
  /-- CCLK edges from AT 0 to now (R33, R322). -/
  now : Nat := 0
  /-- The supervisor's run clock, in CCLK periods: it counts while AON is powered, and never steps (R366). -/
  run : Nat := 0
  hub : HubSt := {}
  tb  : TbSt := {}
  fc  : FcSt := {}
  mt  : MtSt := {}
  ax  : AxSt := {}
  rd_ : RdSt := {}
  dv  : DvSt := {}
  aos : Sparse Ao := []
  pw  : PwSt := {}
  hp  : HpSt := {}
  bq  : BqSt := {}
  /-- Takes of leashes that wait (R328), in order. -/
  takes_ : List Take := []
  le  : LeSt := {}
  ov  : OvSt := {}
  kn  : KnSt := {}
  /-- What the hub has sent to the outside, oldest first. -/
  out : List Out := []
  /-- The model's own counter: the argument of the next free value. -/
  free : Nat := 0
  deriving DecidableEq, Repr

/-- The hub right after AON has come up from no power (R360, R361): a cold start has begun, HUB_MODE reads BOOT with cause
power-on, every register holds its reset value, AT counts from 0, no slot holds a card, no command waits, and bark START_BEGIN
stands with its producer (R362). -/
def State.reset : State :=
  { bq := { staged := [{ src := 1, code := 0x0120, warn := false, hub := 63, time := 0, payload := [1, 0, 0, 0], afterLoss := false }] } }

end Sys2Proof.Machine
end

