-- ==== Sys2Proof/Machine/Ops.lean ====
section
/-! DEFINITION. The named operations every command is written over: the register store, instants and spans, barks,
completions, what leaves the hub, parts and domains, leashes, and the gate that every register write passes. -/

namespace Sys2Proof.Machine

/-! ## Registers -/

/-- The value of a register field. -/
def State.rd (s : State) (f : Fld) : Nat := s.regs.get f.rst f.key

/-- Write a register field, cut to its width. -/
def State.wr (s : State) (f : Fld) (v : Nat) : State :=
  { s with regs := s.regs.put f.rst f.key (v % 2 ^ f.width) }

/-- A one-bit field as a truth value. -/
def State.flag (s : State) (f : Fld) : Bool := s.rd f = 1

/-- Set a one-bit field. -/
def State.set (s : State) (f : Fld) : State := s.wr f 1

/-- Clear a field. -/
def State.clr (s : State) (f : Fld) : State := s.wr f 0

/-- Write a one-bit field from a truth value. -/
def State.wrB (s : State) (f : Fld) (b : Bool) : State := s.wr f (b2n b)

/-- The value of a field that acts now: a change that waits for its boundary has not taken effect (R200, R230, R247). -/
def State.eff (s : State) (f : Fld) : Nat :=
  match s.lag.find? (fun e => e.1 = f.key) with
  | some e => e.2.1
  | none => s.rd f

/-- A field whose value in `s` acts until the edge `e`, where it has changed since. -/
def State.addLag (t s : State) (f : Fld) (e : Nat) : State :=
  if e ≤ s.now || s.rd f = t.rd f || t.lag.any (fun q => q.1 = f.key) then t else { t with lag := t.lag ++ [(f.key, s.rd f, e)] }

/-- The signed value of a field that acts now. -/
def State.effS (s : State) (f : Fld) : Int := signed f.width (s.eff f)

/-- A signed register field. -/
def State.rdS (s : State) (f : Fld) : Int := signed f.width (s.rd f)

/-- Write a signed field, saturating at its range (R10). -/
def State.wrS (s : State) (f : Fld) (i : Int) : State := s.wr f (unsigned f.width (satS f.width i))

/-- Write an unsigned field, saturating at its range (R10). -/
def State.wrSat (s : State) (f : Fld) (n : Nat) : State := s.wr f (satU f.width n)

/-- Count `n` events in a saturating counter (R392). -/
def State.countN (s : State) (f : Fld) (n : Nat) : State := s.wr f (satU f.width (s.rd f + n))

/-- Count one event in a saturating counter (R392). -/
def State.count (s : State) (f : Fld) : State := s.countN f 1

/-- Count one event modulo the counter's width. -/
def State.countMod (s : State) (f : Fld) : State := s.wr f (s.rd f + 1)

/-- Apply `g` when `c` holds. -/
def State.when (s : State) (c : Bool) (g : State → State) : State := if c then g s else s

/-- Clear the counters of a list whose bit is set in `mask` (the companion clear bits of R392): the i-th counter for
bit i. -/
def State.clearCnts (s : State) (fs : List Fld) (mask : Nat) : State :=
  (fs.zipIdx).foldl (fun t p => t.when (bit mask p.2) (fun u => u.clr p.1)) s

/-! ## Instants and spans -/

/-- CCLK edges in a beat, a millisecond and a second (R34). -/
def cclkBeat : Nat := 3840
def cclkMs : Nat := 245760
def cclkSec : Nat := 245760000
/-- CCLK edges in `n` microseconds, rounded up. -/
def cclkUs (n : Nat) : Nat := (n * 24576 + 99) / 100

/-- The beat number of the present instant (R32). -/
def State.bn (s : State) : Nat := s.now / cclkBeat

/-- The AT of an edge, R33: the boundary plus n × 15,625/3,840 ns rounded to the nearest 2^-16 ns. -/
def at96 (e : Nat) : At96 :=
  let sec := e / cclkSec
  let r := e % cclkSec
  let b := r / cclkBeat
  let x := b * (15625 * 65536) + (rne ((r % cclkBeat * 15625 * 65536 : Nat) : Int) cclkBeat).toNat
  { sec := sec, ns := x / 65536, frac := x % 65536 }

/-- The AT96 word of an edge as a 96-bit number (R31). -/
def atWord (e : Nat) : Nat := let a := at96 e; a.frac + a.ns * 2 ^ 16 + a.sec * 2 ^ 48

/-- The twelve bytes of an AT96 word, in the order of R163. -/
def atBytes (e : Nat) : List Nat := leBytes 12 (atWord e)

/-- Fraction of a second in 2^-16 ns. -/
def at96Sub (a : At96) : Nat := a.ns * 65536 + a.frac

/-- The first CCLK edge at or after an instant (R48). -/
def edgeOf (a : At96) : Nat :=
  let x := at96Sub a
  let b := x / (15625 * 65536)
  let r := x % (15625 * 65536)
  let n := r * cclkBeat / (15625 * 65536)
  let ok (k : Nat) : Bool := r ≤ (rne ((k * 15625 * 65536 : Nat) : Int) cclkBeat).toNat
  a.sec * cclkSec + b * cclkBeat + (if ok n then n else n + 1)

/-- An AT96 given as its little-endian 96-bit number. -/
def at96Of (w : Nat) : At96 := { frac := w % 2 ^ 16, ns := bits w 16 32, sec := bits w 48 48 }

/-- The edge an instant names; `d` where it names none. -/
def instEdge (d : Nat) : Inst → Nat
  | .none => d
  | .edge e => e
  | .beat b => b * cclkBeat

/-- The first beat boundary at or after an edge. -/
def beatCeil (e : Nat) : Nat := (e + (cclkBeat - 1)) / cclkBeat * cclkBeat

/-- The first beat boundary after an edge. -/
def beatNext (e : Nat) : Nat := (e / cclkBeat + 1) * cclkBeat

/-- At least `span` edges of the supervisor's run clock have passed since `t`. -/
def State.elapsed (s : State) (t span : Nat) : Bool := t + span ≤ s.run

/-! ## Barks and messages to the outside -/

/-- The hub's own ID. -/
def State.me (s : State) : Nat := s.rd Reg.HUB_ID_ID

/-- Raise a bark: its producer stages the packet, and BARK_POST writes it through the port (R322, R323). -/
def State.bark (s : State) (src code : Nat) (warn : Bool) (payload : List Nat) : State :=
  { s with bq := { s.bq with staged := s.bq.staged ++
      [{ src := src, code := code, warn := warn, hub := s.me, time := s.now, payload := payload, afterLoss := false }] } }

/-- The key of a rate-limited bark. -/
def barkKey (code elem : Nat) : Nat := code * 65536 + elem

/-- Raise a bark at most once per `span` edges, for one element. -/
def State.barkEvery (s : State) (span elem src code : Nat) (warn : Bool) (payload : List Nat) : State :=
  let l := s.bq.last.get 0 (barkKey code elem)
  if l = 0 || s.elapsed (l - 1) span then
    ({ s with bq := { s.bq with last := s.bq.last.put 0 (barkKey code elem) (s.run + 1) } }).bark src code warn payload
  else s

/-- Hand something to the outside. -/
def State.emit (s : State) (o : Out) : State := { s with out := s.out ++ [o] }

/-- The virtual lane of a message type (R337); type 0 stands for the notices on VL0 that have no type of their own. -/
def vlOf (type : Nat) : Nat := if type ≤ 7 then 0 else if type ≤ 10 then 1 else if type = 11 then 2 else 3

/-- The bytes of a message. The spec lays out no message body (DESIGN CHOICE): COMMAND and BULK data and records go as they are, after a
tag of 4 bytes or a head of 5 words of 8; a BARK packet has words of 4 bytes (R322), a TT times of 12 (R9); every other number has 8. -/
def msgBytes (type : Nat) (words : List Nat) : List Nat :=
  if type = 8 then words
  else if type = 13 then leBytes 4 (words.getD 0 0) ++ words.drop 1
  else if type = 11 || type = 12 then (words.take 5).flatMap (leBytes 8) ++ words.drop 5
  else words.flatMap (leBytes (if type = 10 then 4 else if type = 1 then 12 else 8))

/-- Hand a message of hub `src` to Ovnas (R337); it waits for a lane of its side: 2 the side of its route, 4 + l lane l. -/
def State.sendFor (s : State) (src side type dst : Nat) (words : List Nat) : State :=
  let t := s.emit (.ovnas type dst words)
  let n := t.ov.msgId.get 0 (vlOf type)
  { t with ov := { t.ov with
    txq := t.ov.txq ++ [{ type := type, src := src, dst := dst, side := side, data := msgBytes type words, id := n,
                          buf := if type = 11 || type = 12 then words.getD 0 0 else 0 }],
    msgId := t.ov.msgId.put 0 (vlOf type) ((n + 1) % 2 ^ 32) } }

/-- Send a message of this hub on a side, and on the side of its route. -/
def State.sendOn (s : State) (side type dst : Nat) (words : List Nat) : State := s.sendFor s.me side type dst words
def State.send (s : State) (type dst : Nat) (words : List Nat) : State := s.sendOn 2 type dst words

/-! ## Commands and completions -/

/-- The owner under which a command acts on leashes (R328). -/
def State.ownerOf (s : State) : Via → Nat
  | .ring => 1
  | .message _ => if s.ov.tookOver then 5 else 4

/-- The same command: same descriptor and same path. -/
def sameCmd (a b : CmdHdr) : Bool := a.index = b.index && a.via = b.via && a.tag = b.tag

/-- Commands in flight (R309, R390): accepted, with no completion written. -/
def State.inFlight (s : State) : Nat := s.hp.inflight.length + s.hp.cplWait.length

/-- Accept a command and mark it begun in the journal of R17. -/
def State.begin (s : State) (h : CmdHdr) : State :=
  if s.hp.inflight.any (fun f => sameCmd f.hdr h) then
    { s with hp := { s.hp with inflight := s.hp.inflight.map (fun f => if sameCmd f.hdr h then { f with begun := true } else f) } }
  else { s with hp := { s.hp with inflight := s.hp.inflight ++ [{ hdr := h, begun := true }] } }

/-- The completion of a command (R308). -/
def State.cplOf (s : State) (h : CmdHdr) (st : Status) (result endCause : Nat) : Cpl :=
  { tag := h.tag, status := st, opcode := h.opcode, hub := s.me, result := result % 2 ^ 32, index := h.index,
    endCause := endCause, quiet := h.quiet, via := h.via }

/-- The host rings are active (R303). -/
def State.ringsOn (s : State) : Bool := s.flag Reg.HP_CTRL_EN && s.flag Reg.HP_CTRL_READY

/-- HP_STAT events announce vector 2 (R331). -/
def State.news (s : State) (v : Nat) : State :=
  { s with hp := { s.hp with toAnnounce := true, vecNew := if s.hp.vecNew.contains v then s.hp.vecNew else s.hp.vecNew ++ [v] } }

/-- `n` completions are discarded, because the rings are disabled (R302). -/
def State.dropCpl (s : State) (n : Nat) : State :=
  if n = 0 then s else ((s.countN Reg.HP_CNT_CPL_DROPPED n).set Reg.HP_STAT_CPL_DROP).news 2

/-- Complete a command: it leaves the commands in flight, and its completion waits to be written to the CPL ring (R309),
is discarded while the rings are disabled (R302), or goes to the leader as a COMPLETION message (R355). A command that is no longer in flight posts nothing (R17). -/
def State.complete (s : State) (h : CmdHdr) (st : Status) (result : Nat := 0) (endCause : Nat := 0) : State :=
  if s.hp.inflight.any (fun f => sameCmd f.hdr h) then
    let t := { s with hp := { s.hp with inflight := s.hp.inflight.filter (fun f => !sameCmd f.hdr h) } }
    match h.via with
    | .ring =>
      if s.ringsOn then { t with hp := { t.hp with cplWait := t.hp.cplWait ++ [s.cplOf h st result endCause] } } else t.dropCpl 1
    | .message l =>
      ({ t with ov := { t.ov with kept := t.ov.kept ++ [s.cplOf h st result endCause] } }).send 9 l [h.tag, h.index, result % 2 ^ 32, endCause]
  else s

/-- Complete a command that may be absent (a stow move has none). -/
def State.completeO (s : State) (h : Option CmdHdr) (st : Status) (result : Nat := 0) (endCause : Nat := 0) : State :=
  match h with
  | none => s
  | some h => s.complete h st result endCause

/-- The RESULT of R313 for a command that is turned away: 0 where the row gives 0 or counts what was done; `none` where it
names a value that only an execution gives. -/
def refusedZero (opcode : Nat) : Bool := [0x01, 0x02, 0x10, 0x12, 0x21, 0x22, 0x51, 0x60].contains opcode

/-- Complete a command that is turned away, at R310, before it acts. Where R313 names a result that only an execution gives,
the RESULT is a free value. -/
def State.refuse (s : State) (h : CmdHdr) (st : Status) : State :=
  if refusedZero h.opcode then s.complete h st
  else { s.complete h st (Config.refusedResult s.free) with free := s.free + 1 }

/-- Write result data for a command at a host address: by DMA, or across Ovnas to the leader, which writes them (R312, R314). -/
def State.resultTo (s : State) (h : CmdHdr) (addr : Nat) (data : List Nat) : State :=
  match h.via with
  | .ring => s.emit (.dma addr data)
  | .message l => s.send 13 l ([h.tag, addr] ++ data)

/-- A host address and a length are acceptable (R314): not 0, and the area does not cross a 2^64 boundary. -/
def addrOk (addr len : Nat) : Bool := addr ≠ 0 && addr + len ≤ 2 ^ 64

/-! ## Modes, parts and domains -/

/-- HUB_MODE.MODE (R23's encoding). -/
def State.mode (s : State) : Nat := s.rd Reg.HUB_MODE_MODE

def mDORMANT : Nat := 0
def mBOOT : Nat := 1
def mSELFTEST : Nat := 2
def mSAFE : Nat := 3
def mCOMMISSION : Nat := 4
def mRUN : Nat := 5
def mDEGRADED : Nat := 6
def mSTOW : Nat := 7

/-- The modes in which the hub samples (R25). -/
def State.sampling (s : State) : Bool := 3 ≤ s.mode

/-- The mode forbids every command outside the list of R311. -/
def State.barred (s : State) : Bool := !s.sampling

/-- RUN, DEGRADED or STOW: direct writes reach the HP_ block alone (R16). -/
def State.runLike (s : State) : Bool := s.mode = mRUN || s.mode = mDEGRADED || s.mode = mSTOW

/-- The 2-bit entry of part `p` of HUB_PART_STATE: parts in bit order, 0 to 15 F0 to F15, 16 AX0, 17 AX1, 18 DRV, 19 MET,
20 PWA, 21 PWB, 22 to 25 V0 to V3, 26 MP0, 27 MP1, 28 HP, 29 RS, 30 OVW, 31 OVE. -/
def partFld (p : Nat) : Fld := ⟨8 * 0x28 + 2 * p, 2, 0⟩

def pNONE : Nat := 0
def pIN : Nat := 1
def pOUT : Nat := 2
def pOPEN : Nat := 3

/-- A part gives service. -/
def State.inService (s : State) (p : Nat) : Bool := s.rd (partFld p) = pIN

/-- Set a part's entry; each change raises bark PART_STATE (R30). -/
def State.setPart (s : State) (p code : Nat) : State :=
  if s.rd (partFld p) = code % 4 then s
  else (s.wr (partFld p) code).bark 1 0x0112 (code = pOUT || code = pOPEN) [p, code]

/-- Some part reads OUT or OPEN. -/
def State.anyPartLost (s : State) : Bool :=
  (List.range 32).any (fun p => s.rd (partFld p) = pOUT || s.rd (partFld p) = pOPEN)

/-- Domain `d` is on. -/
def State.domOn (s : State) (d : Nat) : Bool := bit (s.rd Reg.PW_DOMAIN_STAT_ON) d

/-- Bits of a 30-bit domain mask with bit `d` set or cleared. -/
def setBit (n d : Nat) (v : Bool) : Nat := setBits n d 1 (b2n v)

/-- Switch a domain, and let PW_DOMAIN_CTRL settle on its state. -/
def State.switchDom (s : State) (d : Nat) (v : Bool) : State :=
  (s.wr Reg.PW_DOMAIN_STAT_ON (setBit (s.rd Reg.PW_DOMAIN_STAT_ON) d v)).wr Reg.PW_DOMAIN_CTRL_REQ
    (setBit (s.rd Reg.PW_DOMAIN_CTRL_REQ) d v)

/-- The slot of a part. -/
def State.slot (s : State) (p : Nat) : Slot := s.hub.slots.get {} p

/-- Change a slot. -/
def State.modSlot (s : State) (p : Nat) (g : Slot → Slot) : State :=
  { s with hub := { s.hub with slots := s.hub.slots.put {} p (g (s.slot p)) } }

/-- The active image (R375): the image of the bank that KN_BANK_STATE.ACTIVE names. -/
def State.image (s : State) : Image := s.kn.images.get {} (s.rd Reg.KN_BANK_STATE_ACTIVE)

/-- The active image lists part `p` (R14, R370). -/
def State.listed (s : State) (p : Nat) : Bool := bits s.image.parts (2 * p) 2 = 1

/-- Decide a mode trigger (R23). -/
def State.trigger (s : State) (t : Trig) : State := { s with hub := { s.hub with trigs := s.hub.trigs ++ [t] } }

/-! ## Axes and outputs -/

def State.axis (s : State) (a : Nat) : Axis := s.dv.axes.get {} a

def State.modAxis (s : State) (a : Nat) (g : Axis → Axis) : State :=
  { s with dv := { s.dv with axes := s.dv.axes.put {} a (g (s.axis a)) } }

def State.ao (s : State) (o : Nat) : Ao := s.aos.get {} o

def State.modAo (s : State) (o : Nat) (g : Ao → Ao) : State := { s with aos := s.aos.put {} o (g (s.ao o)) }

def State.loop (s : State) (l : Nat) : Loop := s.le.loops.get {} l

def State.modLoop (s : State) (l : Nat) (g : Loop → Loop) : State :=
  { s with le := { s.le with loops := s.le.loops.put {} l (g (s.loop l)) } }

def State.arena (s : State) (g : Nat) : Arena := s.le.arenas.get {} g

def State.modArena (s : State) (g : Nat) (f : Arena → Arena) : State :=
  { s with le := { s.le with arenas := s.le.arenas.put {} g (f (s.arena g)) } }

/-- /HALT is asserted while either channel is (R403). -/
def State.halted (s : State) : Bool := s.dv.haltA || s.dv.haltB

/-! ## Leashes (R328, R329) -/

/-- A guarded resource: guard kind and index (R423). -/
abbrev Res := Nat × Nat

/-- The resource leash `n` guards; kind 0 where it guards none (R329: kind 7, and an index beyond the kind's range, act
as GUARD 0). -/
def State.guards (s : State) (n : Nat) : Res :=
  let g := s.rd (Reg.LK_CFG_GUARD n)
  let i := s.rd (Reg.LK_CFG_INDEX n)
  if g = 0 || g = 7 then (0, 0)
  else if g ≤ 4 && 15 < i then (0, 0)
  else if g = 5 && !(i = 1 || i = 2) then (0, 0)
  else if g = 6 then (6, 0) else (g, i)

/-- The leashes that guard a resource. -/
def State.leashesOn (s : State) (r : Res) : List Nat := (List.range 32).filter (fun n => s.guards n = r && r.1 ≠ 0)

/-- What a leash answers to a command of owner `o` on one of the resources (R329): LEASH_BROKEN goes before LEASH_HELD
(R310). -/
def State.leashStatus (s : State) (o : Nat) (rs : List Res) : Option Status :=
  let ls := rs.flatMap s.leashesOn
  if ls.any (fun n => s.flag (Reg.LK_STAT_BROKEN n)) then some .leashBroken
  else if ls.any (fun n => s.flag (Reg.LK_STAT_HELD n) && s.rd (Reg.LK_STAT_OWNER n) ≠ o) then some .leashHeld
  else none

/-- A direct write to the resources passes: no leash on them is broken or held by another owner than the host (R329). -/
def State.leashOpen (s : State) (rs : List Res) : Bool := s.leashStatus 1 rs = none

/-! ## The gate of register writes (R415, R416, R419) -/

/-- The switched domain a register lies in; none for AON and for the registers kept in the core. `k` is the card, `i`
the element. -/
def regDomain (r : RegId) (k i : Nat) : Option Nat :=
  match r with
  | .TB_ANG | .TB_SCHED_CFG | .TB_SCHED_STAT => some 27
  | .FC_CARD_ID | .FC_CARD_STAT | .FC_APPLY | .FC_CFG_STAT | .FC_BLANK_STAT | .FC_CNT | .FC_CNT_CLR | .FC_XPT_ROLE
  | .FC_EXC_CFG | .FC_EXC_STAT | .FC_CH_CFG | .FC_CH_STAT | .FC_CH_CTRL | .FC_QRST_CNT | .FC_CM_VAL | .FC_SPARE_CTRL
  | .FC_SPARE_EXCL | .FC_SPARE_TOL | .FC_SPARE_STAT | .FC_SPARE_CNT | .FC_SPARE_CNT_CLR | .FC_CONV_STAT
  | .FC_REFCAL_CTRL | .FC_REFCAL_UV => some k
  | .MT_CARD_ID | .MT_CARD_STAT | .MT_SCAN_MASK | .MT_SCAN_STAT | .MT_CAL_CFG | .MT_CNT | .MT_CNT_CLR | .MT_CH_CFG
  | .MT_CH_STAT | .MT_LAST => some 20
  | .RD_STAT | .RD_SEL | .RD_CURVE_SEL | .RD_CURVE_ADDR | .RD_CURVE_DATA | .RD_CURVE_CTRL | .RD_CURVE_STAT | .RD_CNT
  | .RD_CNT_CLR | .RD_VIEW | .RD_STREAM_STAT => some 27
  | .AX_CARD_ID | .AX_CARD_STAT | .RDC_CFG | .RDC_LOOP | .RDC_STAT | .RDC_LIVE | .RDC_CTRL | .RDC_CNT | .RDC_HARM_CFG
  | .RDC_HARM_STAT | .RDC_HARM_STG | .RDC_HARM_ACT | .PFI_CFG | .PFI_MIN_EDGE | .PFI_FUSE | .PFI_STAT | .PFI_LIVE
  | .PFI_CTRL | .PFI_FAST_EDGES | .PFI_CNT | .PFI_PB_CFG | .PFI_PB_STAT | .PFI_PB_LATCH | .EE_CFG | .EE_STAT
  | .EE_CTRL | .EE_CNT => some (16 + k)
  | .LE_STAT | .LE_BANK_SEL | .LE_BANK_ACT | .LE_CNT | .LE_CNT_CLR | .LE_LOOP_CFG | .LE_LOOP_BANK | .LE_LOOP_STAT
  | .LE_ARENA_CFG | .LE_ARENA_STAT | .LE_ARENA_CTRL | .LE_LOOP_CTRL => some 27
  | .DV_CARD_ID | .DV_CARD_STAT | .DV_CFG | .DV_CNT | .DV_CNT_CLR | .DV_UTAB_SEL | .DV_UTAB_ADDR | .DV_UTAB_DATA
  | .DV_UTAB_CTRL | .DV_AX_CFG | .DV_LIM_LO | .DV_LIM_HI | .DV_AX_STAT | .DV_AX_CTRL | .DV_HEAT | .AO_CFG | .AO_CODE
  | .AO_CLEAR_CODE | .AO_STAT | .AO_CNT | .AO_CNT_CLR => some 18
  | .HP_CTRL | .HP_STAT | .HP_DB_BASE | .HP_STATUS_BASE | .HP_SBUF_TAB | .HP_CMD_RING | .HP_CPL_RING | .HP_EVT_RING
  | .HP_DB_POLL | .HP_CNT | .HP_CNT_CLR | .HP_IRQ_MOD => some 25
  | .BQ_STATUS | .BQ_CTRL | .BQ_POP | .BQ_LOST | .BQ_FLUSHED | .BQ_CNT_CLR => some 27
  | .OV_PORT_CFG | .OV_PORT_STAT => some (21 + i)
  | .OV_LANE_CNT | .OV_CREDIT => some (21 + i / 2)
  | .RS_STAT | .RS_CNT | .RS_CNT_CLR => some 26
  | .HUB_MODE | .HUB_MODE_REQ | .HUB_GUARD | .HUB_WAKE_AT | .HUB_PART_STATE | .HUB_START_CAUSE | .HUB_ID | .HUB_REV
  | .HUB_SERIAL | .HUB_WR_STAT | .TB_STATE | .TB_REF_SEL | .TB_QUAL_CFG | .TB_AT_SNAP | .TB_HOLD | .TB_HOLD_EST
  | .TB_REF_OFS | .TB_OUT_CFG | .TB_TOD_SET | .TB_PTP_CFG | .TB_PTP_ASYM | .TB_EXT_DELAY | .TB_CNT | .TB_CNT_CLR
  | .PW_CEIL | .PW_CFG | .PW_THERM_CFG | .PW_DOMAIN_CTRL | .PW_DOMAIN_STAT | .PW_BOOK | .PW_GOV | .PW_FEED
  | .PW_THERM_STAT | .PW_TEMP | .PW_FAN | .PW_ENERGY | .PW_CNT | .PW_CNT_CLR | .LK_STAT | .LK_CFG | .LK_CTRL | .LK_CNT
  | .LK_CNT_CLR | .OV_STAT | .OV_PACK_CFG | .OV_PACK_STAT | .OV_ROUTE | .OV_CNT | .OV_CNT_CLR | .KN_STAT
  | .KN_BANK_STATE | .KN_BANK_INFO | .KN_SEC | .KN_IDENT | .KN_CTRL | .KN_CNT | .KN_CNT_CLR => none

/-- The register lies in a domain that is on, or in AON. -/
def State.regOn (s : State) (r : RegId) (k i : Nat) : Bool :=
  match regDomain r k i with
  | none => true
  | some d => s.domOn d

/-- A register of the HP_ block. -/
def RegId.isHp (r : RegId) : Bool := regDomain r 0 0 = some 25

/-- The mode accepts a direct write of the register (R16, R415). In BOOT the HP_ set-up registers are taken once the port
is ready (R301). -/
def State.modeTakes (s : State) (r : RegId) : Bool :=
  if s.mode = mDORMANT then false
  else if r.isHp then s.mode ≠ mBOOT || s.hp.ready
  else !s.runLike

/-- The guarded resources a register belongs to (R423). -/
def State.resOf (s : State) (r : RegId) (k i : Nat) : List Res :=
  match r with
  | .DV_AX_CFG | .DV_LIM_LO | .DV_LIM_HI | .DV_AX_CTRL | .DV_HEAT => [(1, i)]
  | .LE_ARENA_CFG | .LE_ARENA_CTRL => [(2, i)]
  | .LE_LOOP_CFG | .LE_LOOP_CTRL => [(2, s.rd (Reg.LE_LOOP_CFG_ARENA i))]
  | .LE_LOOP_BANK => [(2, s.rd (Reg.LE_LOOP_CFG_ARENA (i / 2)))]
  | .AO_CFG | .AO_CODE | .AO_CLEAR_CODE => [(3, i)]
  | .FC_XPT_ROLE | .FC_CH_CFG | .FC_EXC_CFG | .FC_APPLY | .FC_CH_CTRL | .FC_SPARE_CTRL | .FC_SPARE_EXCL
  | .FC_SPARE_TOL | .FC_REFCAL_CTRL | .FC_REFCAL_UV => [(4, k)]
  | .RD_CURVE_SEL | .RD_CURVE_ADDR | .RD_CURVE_DATA | .RD_CURVE_CTRL => [(6, 0)]
  | _ => []

/-- A discarded direct write (R416). -/
def State.discard (s : State) (ofs : Nat) : State :=
  (s.wr Reg.HUB_WR_STAT_LAST_OFS ofs).count Reg.HUB_WR_STAT_DISCARDS

/-- The register's place in the map. -/
def placeOf (r : RegId) : Option RegPlace := regPlaces.find? (fun p => p.id = r)

/-- The BAR0 offset of an element of a register. -/
def ofsOf (r : RegId) (k i : Nat) : Nat :=
  match placeOf r with
  | none => 0
  | some p => p.base + p.cardStride * k + p.ofs + p.stride * i

/-- A write to a register element is taken: its mode, its domain and its leashes let it through. `leashed` is false for
the fields that no resource holds (R423). -/
def State.takes (s : State) (src : WrSrc) (r : RegId) (k i : Nat) (leashed : Bool) : Bool :=
  s.regOn r k i && (src = .cfg || (s.modeTakes r && (!leashed || s.leashOpen (s.resOf r k i))))

/-- A write of a command bit: act when the write is taken; a direct write that is not taken is discarded and recorded
(R416), a CFG_WRITE's is left without effect (R419). -/
def State.write (s : State) (src : WrSrc) (r : RegId) (k i : Nat) (leashed : Bool) (act : State → State) : State :=
  if s.takes src r k i leashed then act s
  else if src = .direct then s.discard (ofsOf r k i) else s

/-- A journal entry (R370), for writes outside AON and outside the HP_ block. -/
def State.journal (s : State) (ws : List CfgWr) (direct : Bool) : State :=
  { s with kn := { s.kn with journal := s.kn.journal ++ [{ writes := ws, direct := direct }] } }

/-- Journal a direct write, from byte `off` of the element on, when its register lies outside AON and the HP_ block (R370, R415). -/
def State.journalB (s : State) (src : WrSrc) (r : RegId) (k i off : Nat) (data : List Nat) : State :=
  if src = .direct && (regDomain r k i).isSome && !r.isHp then s.journal [{ ofs := ofsOf r k i + off, data := data }] true else s

/-- Journal a direct write of an element's first word. -/
def State.journalW (s : State) (src : WrSrc) (r : RegId) (k i v : Nat) : State := s.journalB src r k i 0 (leBytes 4 v)

/-- A word that is written with a command bit: `v`, and the other software-owned fields of the word as they stand. -/
def State.wordWith (s : State) (v : Nat) (fs : List Fld) : Nat := fs.foldl (fun n f => n + s.rd f * 2 ^ (f.key % 32)) v

/-- Take the free value's next argument: a free value is never the same twice. -/
def State.fresh (s : State) : State := { s with free := s.free + 1 }

/-- `t` with the queue of `s`. -/
def State.keepQueue (t s : State) : State := { t with pending := s.pending }

/-- What a command answers: `t`, its effect on everything but the queue of the commands that wait. -/
def answer (s t : State) : Host.Outcome State Fault Refusal := .next (t.keepQueue s)

/-- An event row that names an element the hub does not have. -/
def guardItem (ok : Bool) (o : Host.Outcome State Fault Refusal) : Host.Outcome State Fault Refusal :=
  if ok then o else .fault .noSuchItem

end Sys2Proof.Machine
end

