-- ==== Sys2Proof/Machine/Power.lean ====
section
/-! DEFINITION. Energy, heat and background work (R283 to R299), feeds (R394, R395): the two books of the governor, the
thermal model, the fans, and the commands that measure and judge them. Tokens are counts of 0.1 W. -/

namespace Sys2Proof.Machine

/-! ## Books -/

/-- Standing figures of the domains (R284). -/
def standing (d : Nat) : Nat :=
  if d ≤ 15 then 65 else if d ≤ 17 then 150 else if d = 18 then 50 else if d = 19 then 0 else if d = 20 then 40
  else if d ≤ 24 then 35 else if d = 25 then 50 else if d = 26 then 140 else if d = 27 then 260 else 50

/-- Tokens held in a book by every consumer; the supervisor's fixed 5 W stands in the service book (R284). -/
def State.grantedIn (s : State) (book : Nat) : Nat :=
  (if book = 1 then 50 else 0) + ((s.pw.grants.filter (fun r => r.book = book)).map (fun r => r.held)).sum

/-- Of `n` tokens, those that a consumer keeps once its releases fall due (R288, step 1). -/
def State.kept (s : State) (book cid n : Nat) : Nat :=
  (s.pw.releases.filter (fun q => q.1 = book && q.2.1 = cid)).foldl (fun m q => min m q.2.2) n

/-- Tokens one consumer holds; a release on its way no longer counts, so what was released must be granted anew (R18). -/
def State.heldBy (s : State) (book cid : Nat) : Nat :=
  ((s.pw.grants.filter (fun r => r.book = book && r.cid = cid)).map (fun r => s.kept book cid r.held)).sum

/-- The consumer holds a grant that is not on its way back. -/
def State.hasGrant (s : State) (book cid : Nat) : Bool :=
  s.pw.grants.any (fun r => r.book = book && r.cid = cid) && s.pw.releases.all (fun q => !(q.1 = book && q.2.1 = cid && q.2.2 = 0))

/-- The consumer waits for a grant. -/
def State.waitsFor (s : State) (book cid : Nat) : Bool := s.pw.waits.any (fun r => r.book = book && r.cid = cid)

/-- The budget of a book as its register shows it. -/
def State.budgetOf (s : State) (book : Nat) : Nat := s.rd (Reg.PW_BOOK_BUDGET book)

/-- FREE of a book (R286). -/
def State.freeIn (s : State) (book : Nat) : Int := (s.budgetOf book : Int) - (s.grantedIn book : Int)

/-- Ask for a reservation of `want` tokens in all (R287): the request waits for the next evaluation. A second request of
the same consumer takes the place of the first. -/
def State.request (s : State) (book cls cid want : Nat) : State :=
  { s with pw := { s.pw with waits := s.pw.waits.filter (fun r => !(r.book = book && r.cid = cid)) ++
      [{ book := book, cls := cls, cid := cid, want := want, held := 0, bn := s.bn, since := s.run, counted := false }] } }

/-- Withdraw a request. -/
def State.withdraw (s : State) (book cid : Nat) : State :=
  { s with pw := { s.pw with waits := s.pw.waits.filter (fun r => !(r.book = book && r.cid = cid)) } }

/-- A consumer's reservation falls to `keep` tokens at the next beat boundary (R288); what it asked for is withdrawn. -/
def State.release (s : State) (book cid keep : Nat) : State :=
  let t := s.withdraw book cid
  { t with pw := { t.pw with releases := t.pw.releases ++ [(book, cid, keep)] } }

/-- Hold exactly `want` tokens from now on, without waiting (the grants of R288 at a start, and fan trays). -/
def State.grantNow (s : State) (book cls cid want : Nat) : State :=
  let t := s.withdraw book cid
  { t with pw := { t.pw with releases := t.pw.releases.filter (fun q => !(q.1 = book && q.2.1 = cid)),
                             grants := t.pw.grants.filter (fun r => !(r.book = book && r.cid = cid)) ++
      [{ book := book, cls := cls, cid := cid, want := want, held := want, bn := t.bn, since := t.run, counted := true }] } }

/-- Drop a consumer's grant at once: its domain is off. -/
def State.dropGrant (s : State) (book cid : Nat) : State :=
  let t := s.withdraw book cid
  { t with pw := { t.pw with releases := t.pw.releases.filter (fun q => !(q.1 = book && q.2.1 = cid)),
                             grants := t.pw.grants.filter (fun r => !(r.book = book && r.cid = cid)) } }

/-- Releases fall due (R288, step 1). -/
def applyReleases (s : State) : State :=
  let g := s.pw.releases.foldl (fun gs q =>
    (gs.map (fun r => if r.book = q.1 && r.cid = q.2.1 then { r with held := min r.held q.2.2, want := q.2.2 } else r)).filter
      (fun r => !(r.book = q.1 && r.cid = q.2.1 && q.2.2 = 0))) s.pw.grants
  { s with pw := { s.pw with grants := g, releases := [] } }

/-! ## Budgets (R285) -/

/-- The three terms of R285 in units of 1/16,000 of 0.1 W. -/
def State.termCeil (s : State) : Nat := min (s.rd Reg.PW_CEIL_CEIL) 9000 * 16000
def State.termFeed (s : State) : Nat := s.pw.bFeed * 16000

/-- B_D = D_W × min(PW_CEIL, B_FEED, B_TH), rounded down to 0.1 W; 0 once stow has muzzled every axis. -/
def State.driveBudget (s : State) : Nat :=
  if s.hub.stowDone then 0 else s.pw.dw * min s.termCeil (min s.termFeed s.pw.bTh) / (16 * 16000)

/-- PW_BOOK[0].LIMIT: the smallest term; the first in the order CEIL, FEED, THERM on a tie (DEDUCED). -/
def State.driveLimit (s : State) : Nat :=
  if s.hub.stowDone then 3
  else if s.termCeil ≤ s.termFeed && s.termCeil ≤ s.pw.bTh then 0
  else if s.termFeed ≤ s.pw.bTh then 1 else 2

/-- The service budget, 260 W (R283). -/
def serviceBudget : Nat := 2600

/-- Budget changes fall due (R288, step 2); a change of LIMIT raises PW_BUDGET_CHANGE. -/
def applyBudgets (s : State) : State :=
  let l := s.rd (Reg.PW_BOOK_LIMIT 0)
  let t := (((s.wr (Reg.PW_BOOK_BUDGET 0) s.driveBudget).wr (Reg.PW_BOOK_LIMIT 0) s.driveLimit).wr
    (Reg.PW_BOOK_BUDGET 1) serviceBudget).wr (Reg.PW_BOOK_LIMIT 1) 4
  if l = s.driveLimit then t else t.bark 3 0x0301 false [s.driveBudget, serviceBudget, s.driveLimit]

/-! ## Cuts and restorations (R290, R291) -/

/-- The reservation is that of a granted arena with GOV = 1. -/
def State.govArena (s : State) (r : Resv) : Bool :=
  r.book = 0 && 0x30 ≤ r.cid && r.cid < 0x40 && s.flag (Reg.LE_ARENA_CFG_GOV (r.cid - 0x30))

/-- Full reservations of the arenas that the governor may cut, and what every other consumer of the drive book holds. -/
def State.govWant (s : State) : Nat := ((s.pw.grants.filter s.govArena).map (fun r => r.want)).sum
def State.govRest (s : State) : Nat :=
  ((s.pw.grants.filter (fun r => r.book = 0 && !s.govArena r)).map (fun r => r.held)).sum

/-- `a/b < c/d`. -/
def fracLt (a b c d : Nat) : Bool := a * d < c * b

/-- The f that R290 asks for: the largest value from 0 to 1 for which GRANTED does not exceed B_D. -/
def State.fAsked (s : State) : Nat × Nat :=
  let room := s.budgetOf 0 - s.govRest
  if s.govWant ≤ room then (1, 1) else (room, s.govWant)

/-- f falls at once; it rises only while no request of the drive book waits; R291 may hold it down. -/
def State.fNext (s : State) : Nat × Nat :=
  let q := s.fAsked
  let p := if fracLt s.pw.fNum s.pw.fDen q.1 q.2 && s.pw.waits.any (fun r => r.book = 0) then (s.pw.fNum, s.pw.fDen) else q
  match s.pw.ovr with
  | none => p
  | some o => if fracLt o.1 o.2 p.1 p.2 then o else p

/-- f in Q1.15: 0x7FFF whenever f = 1 (R290). -/
def fQ15 (n d : Nat) : Nat := if d ≤ n then 0x7FFF else min 0x7FFF (rne ((n * 32768 : Nat) : Int) d).toNat

/-- Set f, and cut or restore every arena that the governor may cut to f × RES_W. -/
def State.setF (s : State) (n d : Nat) : State :=
  let g := s.pw.grants.map (fun r => if s.govArena r then { r with held := r.want * n / d } else r)
  let t := { s with pw := { s.pw with grants := g, fNum := n, fDen := d } }
  (List.range 16).foldl (fun u i => u.wr (Reg.LE_ARENA_STAT_GOV_VAL i) (fQ15 n d)) (t.wr Reg.PW_GOV_GOV_VAL (fQ15 n d))

/-- Cuts and restorations (R288, step 3). -/
def applyCuts (s : State) : State := let q := s.fNext; s.setF q.1 q.2

/-! ## Grants (R287, R288, step 4) -/

/-- The later arrival `a` is served before `b` (R287, R288): its class is higher, or both arrived in one beat and its consumer ID is lower. -/
def resvBefore (a b : Resv) : Bool := a.cls < b.cls || (a.cls = b.cls && a.bn = b.bn && a.cid < b.cid)

def insertResv (r : Resv) : List Resv → List Resv
  | [] => [r]
  | x :: xs => if resvBefore r x then r :: x :: xs else x :: insertResv r xs

/-- The waiting requests of a book in the order in which they are served. -/
def State.waitOrder (s : State) (book : Nat) : List Resv :=
  (s.pw.waits.filter (fun r => r.book = book)).foldl (fun l r => insertResv r l) []

/-- Tokens a request takes when granted: an arena under f < 1 takes f × RES_W. -/
def State.takesTokens (s : State) (r : Resv) : Nat :=
  if s.govArena r then r.want * s.pw.fNum / s.pw.fDen else r.want

/-- A request fits: FREE does not go negative. The FAN class is granted into deficit; while the thermal state is WARN or
CRITICAL no BACKGROUND request is granted (R293). -/
def State.fits (s : State) (r : Resv) : Bool :=
  if r.book = 1 && r.cls = 0 then true
  else if r.book = 1 && r.cls = 2 && 2 ≤ s.rd Reg.PW_THERM_STAT_STATE then false
  else ((s.takesTokens r : Int) - (s.heldBy r.book r.cid : Int) ≤ s.freeIn r.book) || s.takesTokens r ≤ s.heldBy r.book r.cid

/-- Grant one request: it holds its tokens and waits no more. -/
def State.grant (s : State) (r : Resv) : State :=
  let n := s.takesTokens r
  let t := s.withdraw r.book r.cid
  { t with pw := { t.pw with grants := t.pw.grants.filter (fun x => !(x.book = r.book && x.cid = r.cid)) ++ [{ r with held := n, counted := true }] } }

/-- Serve the requests of a book in order. A request that does not fit blocks every later one; a STOW request that does
not fit takes f to 0 first (R290). Answers the state and the requests granted. -/
def serve : List Resv → State → State × List Resv
  | [], s => (s, [])
  | r :: rs, s =>
    let t := if s.fits r then s else if r.book = 0 && r.cls = 0 then s.setF 0 1 else s
    if t.fits r then
      let q := serve rs (t.grant r)
      (q.1, r :: q.2)
    else (t, [])

/-- Requests still waiting are counted once (R289). -/
def countWaits (s : State) : State :=
  let n := (s.pw.waits.filter (fun r => !r.counted)).length
  let t := s.countN Reg.PW_CNT_WAITS n
  { t with pw := { t.pw with waits := t.pw.waits.map (fun r => { r with counted := true }) } }

/-- The book registers (R286), and the barks of a deficit that begins or ends. -/
def bookRegs (s : State) (k : Nat) : State :=
  let free := s.freeIn k
  let was := if k = 0 then s.pw.deficit0 else s.pw.deficit1
  let now := decide (free < 0)
  let beats := (if k = 0 then s.pw.defBeats0 else s.pw.defBeats1)
  let beats' := if now then (if was then beats + 1 else 0) else beats
  let t := (((s.wrSat (Reg.PW_BOOK_GRANTED k) (s.grantedIn k)).wrS (Reg.PW_BOOK_FREE k) free).wrSat (Reg.PW_BOOK_WAITING k)
    (s.pw.waits.filter (fun r => r.book = k)).length).wrSat (Reg.PW_BOOK_DEFICIT_MS k) (beats' / 64)
  let u := if k = 0 then { t with pw := { t.pw with deficit0 := now, defBeats0 := beats' } }
    else { t with pw := { t.pw with deficit1 := now, defBeats1 := beats' } }
  if now && !was then u.bark 3 0x0302 true [k, unsigned 32 free]
  else if was && !now then u.bark 3 0x0303 false [beats' / 64] else u

/-- Yielded background tasks ask again once no FOREGROUND request waits (R293). -/
def bgAsk (s : State) : State :=
  if s.pw.waits.any (fun r => r.book = 1 && r.cls = 1) || 2 ≤ s.rd Reg.PW_THERM_STAT_STATE then s
  else
    let t := s.pw.yielded.foldl (fun u c => u.request 1 2 c (if c = 0x61 then 30 else 20)) s
    { t with pw := { t.pw with yielded := [] } }

/-! ## Feeds (R394, R395) -/

/-- The class a feed takes at voltage `v` (10 mV) from class `cur` (R394): 0 absent, 1 low, 2 in range, 3 high. -/
def feedClass (cur v : Nat) : Nat :=
  if v < 1800 then 0
  else if cur = 3 then (if 7600 ≤ v then 3 else if v < 3300 then 1 else 2)
  else if 7800 < v then 3
  else if cur = 2 then (if v < 3300 then 1 else 2)
  else if 3500 ≤ v then 2 else 1

def State.feedState (s : State) (f : Nat) : Nat := s.rd (Reg.PW_FEED_STATE f)
def State.feedLost (s : State) (f : Nat) : Bool := if f = 0 then s.pw.lostA else s.pw.lostB
def State.feedLoad (s : State) (f : Nat) : Bool := if f = 0 then s.pw.loadA else s.pw.loadB
def State.feedChg (s : State) (f : Nat) : Nat := if f = 0 then s.pw.chgA else s.pw.chgB

def State.setFeed (s : State) (f : Nat) (lost load : Bool) (chg : Nat) : State :=
  if f = 0 then { s with pw := { s.pw with lostA := lost, loadA := load, chgA := chg } }
  else { s with pw := { s.pw with lostB := lost, loadB := load, chgB := chg } }

/-- A power card that the image leaves out is held off until CARD_SERVICE brings it in (R14). -/
def State.feedBarred (s : State) (f : Nat) : Bool :=
  !s.listed (20 + f) && (s.slot (20 + f)).serviceCmd.isNone && !s.inService (20 + f) && s.rd (partFld (20 + f)) ≠ pOUT

/-- A card held off, or one that CARD_SERVICE took out and disconnected (R316), carries no load. -/
def State.feedHeld (s : State) (f : Nat) : Bool := s.feedBarred f || (s.slot (20 + f)).takenOut

/-- A feed changes class: a card in range takes the load at once when no other feed is in range (R395); every other class
disconnects it. The span in range, or out of it, counts on through a change between two classes out of range (R24, R395). -/
def feedChange (s : State) (f v : Nat) : State :=
  let c := s.feedState f
  let c' := feedClass c v
  let t := s.wrSat (Reg.PW_FEED_V f) v
  if c = c' then t
  else
    let other := 1 - f
    let load := decide (c' = 2) && !s.feedHeld f && !(s.feedState other = 2 && s.feedLoad other)
    let u := (t.wr (Reg.PW_FEED_STATE f) c').setFeed f (s.feedLost f) load (if c = 2 || c' = 2 then s.run else s.feedChg f)
    let u := u.wrB (if f = 0 then Reg.PW_DOMAIN_STAT_AON_A else Reg.PW_DOMAIN_STAT_AON_B) (decide (c' = 2))
    u.when (c' = 3) (fun x => x.bark 3 0x030A true [f, v])

/-- FEED_STATE_CHANGE (R394, R395). -/
def execFeedStateChange (f v : Nat) (s : State) : Host.Outcome State Fault Refusal :=
  guardItem (f < 2) (answer s (feedChange s f v))

/-- A feed that has been out of range for 1 ms is lost (R388, R395): PWA or PWB reads OUT; an unlisted one keeps NONE (R14). -/
def feedLostOp (s : State) (f : Nat) : State :=
  if s.feedState f ≠ 2 && !s.feedLost f && s.elapsed (s.feedChg f) cclkMs then
    (((s.setFeed f true false (s.feedChg f)).when (!s.feedBarred f) (fun u => u.setPart (20 + f) pOUT))).bark 3 0x0308 true [f]
  else s

def execPwFeedLost (f : Nat) (s : State) : Host.Outcome State Fault Refusal :=
  guardItem (f < 2) (answer s (feedLostOp s f))

/-- A feed in range for 1 s carries its share and reads IN_SERVICE (R395); a CARD_SERVICE that asked for it completes (R316). -/
def feedRestoredOp (s : State) (f : Nat) : State :=
  if s.feedState f = 2 && s.feedLost f && !s.feedHeld f && s.elapsed (s.feedChg f) cclkSec then
    let t := (((s.setFeed f false true (s.feedChg f)).setPart (20 + f) pIN)).bark 3 0x0309 false [f]
    (t.modSlot (20 + f) (fun x => { x with serviceCmd := none })).completeO (s.slot (20 + f)).serviceCmd .ok pIN
  else s

def execPwFeedRestored (f : Nat) (s : State) : Host.Outcome State Fault Refusal :=
  guardItem (f < 2) (answer s (feedRestoredOp s f))

/-! ## Budget recomputation (R285) and the thermal model (R294 to R296) -/

/-- FEED_LIM as it acts. -/
def State.feedLim (s : State) : Nat := max 3000 (min 11600 (s.rd Reg.PW_CFG_FEED_LIM))

/-- B_FEED = FEED_LIM − P_LOG, never below 0. -/
def bFeedOf (s : State) (pIn pBridge : Nat) : Nat := s.feedLim - (pIn - pBridge)

/-- The bridge supply power lies within the limit of R291: at most GRANTED by 10 % + 5 W. -/
def State.drawOkay (s : State) (pBridge : Nat) : Bool := 10 * pBridge ≤ 11 * s.grantedIn 0 + 500

/-- Every 10 ms: the means, B_FEED, the feed powers and the energy books (0.1 W over 10 ms is 1 mJ). -/
def feedBudget (s : State) (pA pB pBridge : Nat) : State :=
  let t := ((((s.wrSat (Reg.PW_FEED_P 0) pA).wrSat (Reg.PW_FEED_P 1) pB).countN Reg.PW_ENERGY_FEED_A pA).countN
    Reg.PW_ENERGY_FEED_B pB).countN Reg.PW_ENERGY_DRIVE pBridge
  { t with pw := { t.pw with
      bFeed := bFeedOf s (pA + pB) pBridge,
      drawOk := if s.drawOkay pBridge then (match s.pw.drawOk with | none => some s.run | some x => some x) else none } }

def execFeedBudgetUpdate (pA pB pBridge : Nat) (s : State) : Host.Outcome State Fault Refusal :=
  answer s (feedBudget s pA pB pBridge)

/-- Warn and critical limits of the sensors, °C (R294). -/
def sensorWarn (i : Nat) : Int :=
  if i ≤ 3 then 58 else if i ≤ 7 then 70 else if i = 8 then 100 else if i ≤ 10 then 95 else if i = 11 then 85
  else if i = 12 then 60 else if i ≤ 14 then 100 else if i ≤ 16 then 110 else if i ≤ 18 then 90 else if i = 19 then 75 else 85
def sensorCrit (i : Nat) : Int :=
  if i ≤ 3 then 65 else if i ≤ 7 then 78 else if i = 8 then 110 else if i ≤ 10 then 105 else if i = 11 then 95
  else if i = 12 then 68 else if i ≤ 14 then 115 else if i ≤ 16 then 130 else if i ≤ 18 then 100 else if i = 19 then 85 else 95

/-- A sensor gives a reading the model uses: it has been read and is not left out. -/
def State.sensorOk (s : State) (i : Nat) : Bool := s.pw.read.contains i && !s.flag (Reg.PW_TEMP_FAULT i)

/-- Temperature of a sensor, 1/16 °C. -/
def State.temp (s : State) (i : Nat) : Int := s.rdS (Reg.PW_TEMP_T i)

def insertInt (x : Int) : List Int → List Int
  | [] => [x]
  | y :: ys => if x ≤ y then x :: y :: ys else y :: insertInt x ys

/-- The median of a list; of an even number, the mean of the middle two, rounded (DEDUCED). -/
def median (d : Int) (l : List Int) : Int :=
  let m := l.foldl (fun a x => insertInt x a) []
  let n := m.length
  if n = 0 then d else if n % 2 = 1 then m.getD (n / 2) d else rne (m.getD (n / 2 - 1) d + m.getD (n / 2) d) 2

/-- T_IN in 1/16 °C: the median of the valid inlet sensors, 55 °C with none (R294). -/
def State.tIn (s : State) : Int := median (55 * 16) (((List.range 4).filter s.sensorOk).map s.temp)

/-- 10,000 × k_alt (R295). -/
def State.kAlt (s : State) : Nat :=
  let a := min (s.rd Reg.PW_THERM_CFG_ALT) 5500
  if a ≤ 3000 then 10000 else 13000 - a

/-- G in units of 0.1 W/K over the rated speed (R295). -/
def State.gNum (s : State) : Nat :=
  ((List.range 4).map (fun v =>
    let st := s.rd (Reg.PW_FAN_STATE v)
    if (s.slot (24 + v)).takenOut then 0
    else if st = 0 || st = 1 || st = 6 then 60 * Config.ratedRpm
    else if st = 2 then 60 * s.rd (Reg.PW_FAN_RPM v) else 0)).sum

/-- G in 0.1 W/K, as PW_THERM_STAT shows it. -/
def State.gTotal (s : State) : Nat := (rne (s.gNum : Int) Config.ratedRpm).toNat

/-- B_TH in units of 1/16,000 of 0.1 W (R295); a negative value counts as 0. -/
def bThOf (s : State) (pLog : Nat) : Nat :=
  (rne ((s.kAlt : Int) * (s.gNum : Int) * (70 * 16 - s.tIn)) Config.ratedRpm - (pLog : Int) * 160000).toNat

/-- Some sensor that is not left out stands at or above its warn limit. -/
def State.anyWarn (s : State) : Bool := (List.range 24).any (fun i => s.sensorOk i && s.flag (Reg.PW_TEMP_WARN i))

/-- Some sensor has stood at or above its critical limit in 2 consecutive readings. -/
def State.anyCrit (s : State) : Bool := (List.range 24).any (fun i => s.sensorOk i && 2 ≤ s.pw.critRun.get 0 i)

/-- Every sensor stands at least 3 K below its warn limit. -/
def State.allCool (s : State) : Bool :=
  (List.range 24).all (fun i => !s.sensorOk i || s.temp i + 48 ≤ 16 * sensorWarn i)

/-- The sensor with the least margin to its warn limit. -/
def State.hottest (s : State) : Nat :=
  ((List.range 24).filter s.sensorOk).foldl (fun b i =>
    if 16 * sensorWarn i - s.temp i < 16 * sensorWarn b - s.temp b || !s.sensorOk b then i else b) 0

/-- The thermal state that R296 gives: the first that applies. CRITICAL is left when every sensor has been below its warn
limit for 60 s. LIMIT and NORMAL are judged at the model update. -/
def thermNext (s : State) (model : Bool) : Nat :=
  let cur := s.rd Reg.PW_THERM_STAT_STATE
  let stays := cur = 3 && !(match s.pw.coolSince with | none => false | some t => s.elapsed t (60 * cclkSec))
  if stays || s.anyCrit then 3
  else if s.anyWarn then 2
  else if !model && cur ≤ 1 then cur
  else if s.pw.bTh < s.termCeil then 1 else 0

/-- Take the thermal state, with the bark of the state entered. -/
def thermSet (s : State) (model : Bool) : State :=
  let n := thermNext s model
  if n = s.rd Reg.PW_THERM_STAT_STATE then s
  else
    let t := s.wr Reg.PW_THERM_STAT_STATE n
    if n = 3 then t.bark 0x60 0x6003 true [s.hottest]
    else if n = 2 then t.bark 0x60 0x6002 true [s.hottest]
    else if n = 1 then t.bark 0x60 0x6001 false [] else t.bark 0x60 0x6004 false []

/-- D_W falls by 0.125 each second at or above a warn limit, and rises by 0.0625 while every sensor is at least 3 K below
(R296); in sixteenths. -/
def dwNext (s : State) : Nat :=
  if s.anyWarn then s.pw.dw - 2 else if s.allCool then min 16 (s.pw.dw + 1) else s.pw.dw

/-- Every second: B_TH, D_W and the thermal state. -/
def thermalModel (s : State) (pIn pBridge : Nat) : State :=
  let pLog := pIn - pBridge
  let dw := dwNext s
  let t := { s with pw := { s.pw with bTh := bThOf s pLog, dw := dw } }
  let t := ((t.wr Reg.PW_THERM_STAT_DW (if dw = 16 then 0x7FFF else dw * 2048)).wrSat Reg.PW_THERM_STAT_B_TH
    (rne (bThOf s pLog : Int) 16000).toNat).wrSat Reg.PW_THERM_STAT_G s.gTotal
  thermSet t true

/-- One sensor is read: no answer, or a reading outside −50 to +150 °C, leaves it out (R294). -/
def readSensor (s : State) (i : Nat) (t : Option Int) : State :=
  let good := match t with | none => false | some x => -50 * 16 ≤ x && x ≤ 150 * 16
  let v := t.getD 0
  let was := s.flag (Reg.PW_TEMP_FAULT i)
  let s1 := { s with pw := { s.pw with read := if s.pw.read.contains i then s.pw.read else s.pw.read ++ [i] } }
  if good then
    let crit := decide (16 * sensorCrit i ≤ v)
    let s2 := (((s1.wrS (Reg.PW_TEMP_T i) v).wrB (Reg.PW_TEMP_WARN i) (decide (16 * sensorWarn i ≤ v))).wrB
      (Reg.PW_TEMP_CRIT i) crit).clr (Reg.PW_TEMP_FAULT i)
    { s2 with pw := { s2.pw with critRun := s2.pw.critRun.put 0 i (if crit then min 2 (s2.pw.critRun.get 0 i + 1) else 0) } }
  else
    let s2 := ((s1.set (Reg.PW_TEMP_FAULT i)).clr (Reg.PW_TEMP_WARN i)).clr (Reg.PW_TEMP_CRIT i)
    let s3 := { s2 with pw := { s2.pw with critRun := s2.pw.critRun.put 0 i 0 } }
    if was then s3 else s3.bark 0x60 0x6005 true [i]

/-- Every 100 ms: the 24 sensors, the hottest, and the states WARN and CRITICAL (R294, R296). -/
def sensorRead (s : State) (temps : List (Option Int)) : State :=
  let t := (List.range 24).foldl (fun u i => readSensor u i (temps.getD i none)) s
  let t := t.wr Reg.PW_THERM_STAT_HOTTEST t.hottest
  let t := { t with pw := { t.pw with coolSince :=
    if t.anyWarn then none else (match t.pw.coolSince with | none => some t.run | some x => some x) } }
  thermSet t false

/-! ## Fans (R297 to R299) -/

def fanOK : Nat := 0
def fanTACHO : Nat := 1
def fanSLOW : Nat := 2
def fanBLOCKED : Nat := 3
def fanOPEN : Nat := 4
def fanABSENT : Nat := 5
def fanTEST : Nat := 6

def State.fanState (s : State) (v : Nat) : Nat := s.rd (Reg.PW_FAN_STATE v)

/-- CARD_SERVICE has taken the tray out: its drive is removed (R316). -/
def State.fanOut (s : State) (v : Nat) : Bool := (s.slot (24 + v)).takenOut

/-- A tray turns: OK, TACHO_LOST, SLOW or TEST. -/
def State.fanRuns (s : State) (v : Nat) : Bool :=
  !s.fanOut v && (s.fanState v = fanOK || s.fanState v = fanTACHO || s.fanState v = fanSLOW || s.fanState v = fanTEST)

/-- A tray that takes the common speed: OK or SLOW (R297). -/
def State.fanCommon (s : State) (v : Nat) : Bool := !s.fanOut v && (s.fanState v = fanOK || s.fanState v = fanSLOW)

/-- A tray runs at `pct` %: its reservation of 9 W × s is asked for in the FAN class, or given back down to it. -/
def fanDrive (s : State) (v pct : Nat) : State :=
  let want := (rne ((90 * pct : Nat) : Int) 100).toNat
  let t := s.wr (Reg.PW_FAN_SPEED v) pct
  if want ≤ s.heldBy 1 (0x70 + v) then t.release 1 (0x70 + v) want else t.request 1 0 (0x70 + v) want

/-- Drive removed: the tray stands, and its reservation returns. -/
def fanStop (s : State) (v : Nat) : State := (s.wr (Reg.PW_FAN_SPEED v) 0).release 1 (0x70 + v) 0

/-- The common speed s in percent (R297): the lowest whole percent that keeps the predicted exhaust at or below 60 °C. -/
def fanSpeed (s : State) (pIn pBridge : Nat) : Nat :=
  let n := ((List.range 4).filter s.fanCommon).length
  let ok := ((List.range 4).filter (fun v => !s.fanOut v && s.fanState v = fanOK)).length
  let lo := max 30 (min 100 (s.rd Reg.PW_CFG_FAN_MIN))
  let pInt := 10 * (pIn - pBridge) + pBridge
  let den := ((s.kAlt : Int) * 60 * (n : Int) * (60 * 16 - s.tIn)).toNat
  if 58 * 16 ≤ s.tIn || 2 ≤ s.rd Reg.PW_THERM_STAT_STATE || ok < 3 || den = 0 then 100
  else max lo (min 100 ((pInt * 100 * 16000 + (den - 1)) / den))

/-- The conditions of R298 on what a tray's supervision reads: the current below 10 %, above 150 %, or from 50 % to 150 % of I_EXP; no
tacho pulse for 500 ms while the commanded speed is at least 30 %; the tacho below 70 % of the expected speed for 5 s. -/
def fanLow (f : FanIn) : Bool := f.ma * 10 < f.iExp
def fanHigh (f : FanIn) : Bool := f.iExp * 3 < f.ma * 2
def fanMid (f : FanIn) : Bool := f.iExp ≤ f.ma * 2 && f.ma * 2 ≤ f.iExp * 3
def fanNoTacho (speed : Nat) (f : FanIn) : Bool := 500 ≤ f.quiet && 30 ≤ speed
def fanBehind (f : FanIn) : Bool := f.rpm * 10 < f.rpmExp * 7 && 5000 ≤ f.slow

/-- Show what was read of a tray. -/
def fanShow (s : State) (v : Nat) (f : FanIn) : State := (s.wrSat (Reg.PW_FAN_RPM v) f.rpm).wrSat (Reg.PW_FAN_CURRENT v) f.ma

/-- Each second a tray's readings are shown; one that is no longer slow, or whose tacho is back, is OK (R298). -/
def fanRead (s : State) (v : Nat) (f : FanIn) : State :=
  let t := fanShow s v f
  if s.fanState v = fanSLOW && f.rpmExp * 7 ≤ f.rpm * 10 || s.fanState v = fanTACHO && f.quiet < 500 then t.wr (Reg.PW_FAN_STATE v) fanOK
  else t

/-- Every second: the readings, the common speed, and the fan reservations. -/
def fanUpdate (s0 : State) (pIn pBridge : Nat) (fans : List FanIn) : State :=
  let s := (List.range 4).foldl (fun u v => match fans[v]? with | none => u | some f => fanRead u v f) s0
  let p := fanSpeed s pIn pBridge
  (List.range 4).foldl (fun u v =>
    if s.fanCommon v then fanDrive u v p
    else if s.fanRuns v && s.pw.fanFound.get 0 v ≤ fanTACHO then fanDrive u v 100 else u) s

def execFanSpeedUpdate (pIn pBridge : Nat) (fans : List FanIn) (s : State) : Host.Outcome State Fault Refusal :=
  answer s (fanUpdate s pIn pBridge fans)

/-- A tray in TEST keeps that state until its end (R299): what the supervision finds is noted. -/
def fanNote (s : State) (v found : Nat) : State := { s with pw := { s.pw with fanFound := s.pw.fanFound.put 0 v found } }

/-- OPEN (R298): drive removed, no retry; the tray reads OUT. -/
def fanOpenOp (s : State) (v : Nat) (f : FanIn) : State :=
  if s.fanRuns v && fanLow f then
    let t := fanStop (fanShow s v f) v
    if s.fanState v = fanTEST then fanNote t v fanOPEN
    else ((t.wr (Reg.PW_FAN_STATE v) fanOPEN).setPart (22 + v) pOUT).bark 0x60 0x6011 true [v]
  else s

def execFanOpen (v : Nat) (f : FanIn) (s : State) : Host.Outcome State Fault Refusal :=
  guardItem (v < 4) (answer s (fanOpenOp s v f))

/-- BLOCKED (R298): drive removed within 10 ms; the tray reads OUT and is retried every 60 s. -/
def fanBlockedOp (s : State) (v : Nat) (f : FanIn) : State :=
  if s.fanRuns v && fanHigh f && fanNoTacho (s.rd (Reg.PW_FAN_SPEED v)) f then
    let t := fanStop (fanShow s v f) v
    if s.fanState v = fanTEST then fanNote t v fanBLOCKED
    else
      let t := ((t.wr (Reg.PW_FAN_STATE v) fanBLOCKED).setPart (22 + v) pOUT).bark 0x60 0x6010 true [v]
      { t with pw := { t.pw with fanLast := t.pw.fanLast.put 0 v t.run } }
  else s

def execFanBlocked (v : Nat) (f : FanIn) (s : State) : Host.Outcome State Fault Refusal :=
  guardItem (v < 4) (answer s (fanBlockedOp s v f))

/-- TACHO_LOST (R298): the tray runs at 100 % open loop and stays IN_SERVICE. -/
def fanTachoOp (s : State) (v : Nat) (f : FanIn) : State :=
  if s.fanRuns v && s.fanState v ≠ fanTACHO && fanMid f && fanNoTacho (s.rd (Reg.PW_FAN_SPEED v)) f then
    if s.fanState v = fanTEST then fanNote (fanShow s v f) v fanTACHO
    else (fanDrive ((fanShow s v f).wr (Reg.PW_FAN_STATE v) fanTACHO) v 100).bark 0x60 0x6012 true [v]
  else s

def execFanTachoLost (v : Nat) (f : FanIn) (s : State) : Host.Outcome State Fault Refusal :=
  guardItem (v < 4) (answer s (fanTachoOp s v f))

/-- SLOW (R298): counted at its measured share of G. -/
def fanSlowOp (s : State) (v : Nat) (f : FanIn) : State :=
  if s.fanState v = fanOK && !s.fanOut v && fanBehind f then ((fanShow s v f).wr (Reg.PW_FAN_STATE v) fanSLOW).bark 0x60 0x6013 true [v]
  else s

def execFanSlow (v : Nat) (f : FanIn) (s : State) : Host.Outcome State Fault Refusal :=
  guardItem (v < 4) (answer s (fanSlowOp s v f))

/-- A retry of a BLOCKED tray, 60 s after the last (R298): with the tacho back at a normal current, neither below 10 % nor above 150 % of
I_EXP (DEDUCED), it restores the tray, or it counts; after 10 failed retries the tray stays off until it is replaced. -/
def fanRetryOp (s : State) (v : Nat) (f : FanIn) : State :=
  if s.fanState v = fanBLOCKED && !s.fanOut v && s.rd (Reg.PW_FAN_RETRIES v) < 10 && s.elapsed (s.pw.fanLast.get 0 v) (60 * cclkSec) then
    let t := fanShow { s with pw := { s.pw with fanLast := s.pw.fanLast.put 0 v s.run } } v f
    if !fanNoTacho 100 f && !fanLow f && !fanHigh f then ((fanDrive (t.wr (Reg.PW_FAN_STATE v) fanOK) v 100).setPart (22 + v) pIN).bark 0x60 0x6014 false [v]
    else t.count (Reg.PW_FAN_RETRIES v)
  else s

def execFanRetry (v : Nat) (f : FanIn) (s : State) : Host.Outcome State Fault Refusal :=
  guardItem (v < 4) (answer s (fanRetryOp s v f))

/-- A tray is removed (R299): ABSENT and OPEN; its reservation returns. A removal without CARD_SERVICE raises
CARD_PULLED (R30), and a CARD_SERVICE that waits for its test ends (DEDUCED). -/
def fanRemoveOp (s : State) (v : Nat) : State :=
  if !s.hub.aon then s.modSlot (24 + v) (fun x => { x with card := false }) else
  let out := (s.slot (24 + v)).takenOut
  let t := ((fanStop s v).wr (Reg.PW_FAN_STATE v) fanABSENT).setPart (22 + v) pOPEN
  let h := (s.slot (24 + v)).serviceCmd
  let t := (t.modSlot (24 + v) (fun x => { x with card := false, serviceCmd := none })).completeO h .hwFault pOPEN
  t.when (s.fanState v ≠ fanABSENT && !out) (fun u => u.bark 1 0x0116 true [24 + v])

def execFanTrayRemoved (v : Nat) (s : State) : Host.Outcome State Fault Refusal :=
  guardItem (v < 4) (answer s (fanRemoveOp s v))

/-- The test of a tray (R299): 5 s at 100 %, with 9 W reserved. It gives no service meanwhile, so a listed tray reads OUT. -/
def fanTestOp (s : State) (v : Nat) : State :=
  let t := fanDrive (((s.wr (Reg.PW_FAN_STATE v) fanTEST).wr (Reg.PW_FAN_RETRIES v) 0).setPart (22 + v) pOUT) v 100
  { t with pw := { t.pw with fanTest := t.pw.fanTest.put 0 v t.run, fanFound := t.pw.fanFound.put 0 v 0 } }

/-- A tray is seated (R299): an unlisted one is held off and reads NONE (R14); where CARD_SERVICE took the last one out, it stands
undriven and reads OUT until CARD_SERVICE IN (R420). -/
def fanSeatOp (s : State) (v : Nat) : State :=
  if s.fanState v = fanABSENT && !(s.slot (24 + v)).card && !(s.slot (24 + v)).panel then
    let t := s.modSlot (24 + v) (fun x => { x with card := true })
    if !s.hub.aon then t
    else if !s.listed (22 + v) then t.setPart (22 + v) pNONE
    else if s.fanOut v then (t.wr (Reg.PW_FAN_STATE v) fanOK).setPart (22 + v) pOUT
    else fanTestOp t v
  else s

def execFanTraySeated (v : Nat) (s : State) : Host.Outcome State Fault Refusal :=
  guardItem (v < 4) (answer s (fanSeatOp s v))

/-- The state that a test finds a tray in (R299): what the supervision noted, or what it reads at the end. -/
def fanFinds (noted : Nat) (f : FanIn) : Nat :=
  if noted ≠ 0 then noted
  else if fanLow f then fanOPEN
  else if fanNoTacho 100 f && fanHigh f then fanBLOCKED
  else if fanNoTacho 100 f && fanMid f then fanTACHO
  else if fanBehind f then fanSLOW else fanOK

/-- The end of a tray's test (R299): it takes the state found. A CARD_SERVICE that asked for the test completes. -/
def fanTestEndOp (s0 : State) (v : Nat) (f : FanIn) : State :=
  if s0.fanState v = fanTEST && s0.elapsed (s0.pw.fanTest.get 0 v) (5 * cclkSec) then
    let found := fanFinds (s0.pw.fanFound.get 0 v) f
    let good := decide (found ≤ 2)
    let s := fanNote (fanShow s0 v f) v 0
    let t := (s.wr (Reg.PW_FAN_STATE v) found).setPart (22 + v) (if good then pIN else pOUT)
    let t := if good then t else fanStop t v
    let t := if found = 0 then t.bark 0x60 0x6014 false [v]
      else if found = 1 then t.bark 0x60 0x6012 true [v]
      else if found = 2 then t.bark 0x60 0x6013 true [v]
      else if found = 3 then
        ({ t with pw := { t.pw with fanLast := t.pw.fanLast.put 0 v t.run } }).bark 0x60 0x6010 true [v]
      else t.bark 0x60 0x6011 true [v]
    let h := (s.slot (24 + v)).serviceCmd
    (t.modSlot (24 + v) (fun x => { x with serviceCmd := none, takenOut := false })).completeO h (if good then .ok else .hwFault)
      (if good then pIN else pOUT)
  else s0

def execFanTestEnd (v : Nat) (f : FanIn) (s : State) : Host.Outcome State Fault Refusal :=
  guardItem (v < 4) (answer s (fanTestEndOp s v f))

/-! ## Waits, background work, overdraw -/

/-- Ask for a domain's power-up in the FOREGROUND class (R284, R287), for a command or for the hub itself. -/
def requestDomain (s : State) (d : Nat) (h : Option CmdHdr) : State :=
  let t := s.request 1 1 d (standing d)
  { t with pw := { t.pw with domCmd := t.pw.domCmd.put none d h } }

/-- SVC_WAIT as it acts, in CCLK. -/
def State.svcWait (s : State) : Nat := max 1 (s.rd Reg.PW_CFG_SVC_WAIT) * cclkSec

/-- The slot that a domain feeds, as the PART byte numbers it; 255 where it feeds none. -/
def domSlot (d : Nat) : Nat := if d ≤ 18 then d else if d = 20 then 19 else if d = 28 || d = 29 then d else 255

/-- A power-up has waited longer than SVC_WAIT (R289): its CARD_SERVICE completes BUDGET_DENIED and the domain stays off. -/
def svcDenied (s : State) (d : Nat) : State :=
  match s.pw.waits.find? (fun r => r.book = 1 && r.cid = d) with
  | none => s
  | some r =>
    if !s.hub.starting && s.elapsed r.since s.svcWait then
      let h := s.pw.domCmd.get none d
      let t := (s.withdraw 1 d).count Reg.PW_CNT_DENIED
      let t := { t with pw := { t.pw with domCmd := t.pw.domCmd.put none d none } }
      let t := t.modSlot (domSlot d) (fun x => { x with entering := false, serviceCmd := none })
      (t.bark 3 0x0305 true [d]).completeO h .budgetDenied
    else s

def execPwSvcDenied (d : Nat) (s : State) : Host.Outcome State Fault Refusal :=
  guardItem (d < 30) (answer s (svcDenied s d))

/-- Preemptible background reservations held now: retention scrub 0x61 and kennel refresh 0x62, not overdue (R292). -/
def State.preemptible (s : State) : List Nat :=
  ([0x61, 0x62].filter (fun c => s.hasGrant 1 c)).filter (fun c => !s.pw.overdue.contains c)

/-- A FOREGROUND or FAN request does not fit, or the thermal state stops background work (R293). -/
def State.mustYield (s : State) : Bool :=
  2 ≤ s.rd Reg.PW_THERM_STAT_STATE || s.pw.waits.any (fun r => r.book = 1 && r.cls ≤ 1 && (!s.fits r || s.freeIn 1 < 0))
    || s.freeIn 1 < 0

/-- The tasks of R292 by consumer ID, and their figures: tokens, blocks of a pass, the time between passes, and how long after the end of
its last pass a task is overdue (R293; DEDUCED: a task is as far behind as its last pass is old). The kennel's two mirrors hold 2 GiB each. -/
def State.bgTask (s : State) (c : Nat) : Bg := if c = 0x61 then s.pw.scrub else s.pw.refresh
def bgTokens (c : Nat) : Nat := if c = 0x61 then 30 else 20
def bgBlocks (c : Nat) : Nat := if c = 0x61 then 65536 else 16384
def bgPeriod (c : Nat) : Nat := if c = 0x61 then 86400 * cclkSec else 90 * 86400 * cclkSec
def bgLate (c : Nat) : Nat := if c = 0x61 then 48 * 3600 * cclkSec else 97 * 86400 * cclkSec

def State.setBg (s : State) (c : Nat) (b : Bg) : State :=
  if c = 0x61 then { s with pw := { s.pw with scrub := b } } else { s with pw := { s.pw with refresh := b } }

/-- A task can work: the retention store gives service; the kennel always does. -/
def State.bgCan (s : State) (c : Nat) : Bool := c ≠ 0x61 || (s.domOn 26 && s.inService 29)

/-- The block under way is done. The last block ends the pass, which leaves the FOREGROUND class; the next pass runs a period after this
one was due, or from now on. -/
def bgBlockDone (s : State) (c : Nat) : State :=
  let b := s.bgTask c
  match b.blockAt with
  | none => s
  | some _ =>
    if b.done + 1 < bgBlocks c then s.setBg c { b with done := b.done + 1, blockAt := none }
    else
      let t := s.setBg c { passAt := max s.run (b.passAt + bgPeriod c), done := 0, blockAt := none, lastEnd := s.run }
      { t with pw := { t.pw with overdue := t.pw.overdue.filter (fun x => x ≠ c) } }

/-- One task at one evaluation (R292): it asks for its reservation while a pass is due, works block by block while it holds it, a block
taking 1 ms (DESIGN CHOICE: R293 bounds it by that), and returns it at the end of its pass. -/
def bgWork (s : State) (c : Nat) : State :=
  if !s.bgCan c then s.when (s.hasGrant 1 c || s.waitsFor 1 c) (fun u => (u.release 1 c 0).setBg c { s.bgTask c with blockAt := none })
  else
    let due (u : State) : Bool := (u.bgTask c).passAt ≤ u.run
    if s.hasGrant 1 c then
      let t := if (match (s.bgTask c).blockAt with | none => false | some b => s.elapsed b cclkMs) then bgBlockDone s c else s
      if !due t then t.release 1 c 0
      else if (t.bgTask c).blockAt.isNone then t.setBg c { t.bgTask c with blockAt := some t.run } else t
    else if due s && !s.waitsFor 1 c && !s.pw.yielded.contains c then
      s.request 1 (if s.pw.overdue.contains c then 1 else 2) c (bgTokens c)
    else s

/-- Preemptible tasks finish their block and return their reservations (R293). -/
def bgYield (s : State) : State :=
  let cs := s.preemptible
  if s.mustYield && !cs.isEmpty then
    let t := cs.foldl (fun u c => (((bgBlockDone u c).release 1 c 0).bark 3 0x0306 false [c])) (s.count Reg.PW_CNT_YIELDS)
    { t with pw := { t.pw with yielded := t.pw.yielded ++ cs } }
  else s

def execPwBgYield (s : State) : Host.Outcome State Fault Refusal := answer s (bgYield s)

/-- A scrub or refresh too far behind moves to the FOREGROUND class until its pass completes (R293). -/
def bgOverdue (s : State) (c : Nat) : State :=
  if (c = 0x61 || c = 0x62) && !s.pw.overdue.contains c && s.elapsed (s.bgTask c).lastEnd (bgLate c + 1) then
    let up (l : List Resv) : List Resv := l.map (fun r => if r.book = 1 && r.cid = c then { r with cls := 1 } else r)
    let t := { s with pw := { s.pw with overdue := s.pw.overdue ++ [c], waits := up s.pw.waits, grants := up s.pw.grants } }
    let t := if s.waitsFor 1 c || s.hasGrant 1 c then t
      else
        let u := t.request 1 1 c (bgTokens c)
        { u with pw := { u.pw with yielded := u.pw.yielded.filter (fun x => x ≠ c) } }
    t.bark 3 0x0307 true [c]
  else s

def execPwBgOverdue (cid : Nat) (s : State) : Host.Outcome State Fault Refusal :=
  guardItem (cid = 0x61 || cid = 0x62) (answer s (bgOverdue s cid))

/-- Bridge power beyond GRANTED by more than 10 % + 5 W (R291): OVERDRAW sets and f is multiplied by GRANTED / power. -/
def overdraw (s : State) (p : Nat) : State :=
  if !s.drawOkay p && !s.flag Reg.PW_GOV_OVERDRAW then
    let n := s.pw.fNum * s.grantedIn 0
    let d := s.pw.fDen * p
    let t := ((s.set Reg.PW_GOV_OVERDRAW).count Reg.PW_CNT_OVERDRAW).setF n d
    let t := { t with pw := { t.pw with ovr := some (n, d), drawOk := none } }
    t.barkEvery (10 * cclkSec) 0 3 0x0304 true []
  else s

def execPwOverdraw (pBridge : Nat) (s : State) : Host.Outcome State Fault Refusal := answer s (overdraw s pBridge)

/-- After 1 s within the limit OVERDRAW clears, and f returns to the value that R290 gives. -/
def overdrawClear (s : State) : State :=
  match s.pw.drawOk with
  | none => s
  | some t =>
    if s.flag Reg.PW_GOV_OVERDRAW && s.elapsed t cclkSec then
      let u := { s.clr Reg.PW_GOV_OVERDRAW with pw := { (s.clr Reg.PW_GOV_OVERDRAW).pw with ovr := none } }
      let q := u.fNext
      u.setF q.1 q.2
    else s

def execOverdrawClear (s : State) : Host.Outcome State Fault Refusal := answer s (overdrawClear s)

/-- The counters of PW_CNT in the order listed. -/
def pwCnts : List Fld := [Reg.PW_CNT_WAITS, Reg.PW_CNT_DENIED, Reg.PW_CNT_YIELDS, Reg.PW_CNT_OVERDRAW]

/-- A write of PW_CNT_CLR (R392). -/
def execPwCntClr (src : WrSrc) (clr : Nat) (s : State) : Host.Outcome State Fault Refusal :=
  answer s (s.write src .PW_CNT_CLR 0 0 false (fun t => t.clearCnts pwCnts clr))

end Sys2Proof.Machine
end

