-- ==== Sys2Proof/Machine/Sched.lean ====
section
/-! DEFINITION. Entering the time-domain scheduler (R48 to R50). -/

namespace Sys2Proof.Machine

/-- The writes are bank-swap requests alone: LE_BANK_SEL at 0x7_0010 (R246). -/
def bankOnly (ws : List CfgWr) : Bool := !ws.isEmpty && ws.all (fun w => 0x70010 ≤ w.ofs && w.ofs + w.data.length ≤ 0x70018)

/-- The rank of an action among the kinds of R48: configuration changes, bank swaps, blanking window edges, captures,
move starts. R48 lists no other kind, so the model chooses (DESIGN CHOICE): a STOP ranks with the move starts, an angle slot with the
captures, and NOP, CFG_READ, STREAM_OPEN and STREAM_CLOSE with the configuration changes. -/
def actKind : Act → Nat
  | .nop _ | .cfgRead _ _ _ _ | .streamClose _ | .streamOpen _ => 0
  | .cfg _ ws _ => if bankOnly ws then 1 else 0
  | .bankSwap _ _ => 1
  | .window _ _ => 2
  | .capture _ | .angleSlot _ _ => 3
  | .moveStart _ _ _ _ _ _ _ | .groupStart _ _ _ _ _ _ _ | .homeStart _ _ _ _ _ _ _ _ _ _ | .stop _ _ _ _ => 4

/-- LATE_MAX in CCLK edges (R49). -/
def State.lateMax (s : State) : Nat := cclkUs (s.rd Reg.TB_SCHED_CFG_LATE_MAX)

/-- What the scheduler answers to an event at acceptance (R49). -/
inductive SchedAns where
  /-- Its instant has passed by no more than LATE_MAX: it fires at once, as a late event. -/
  | late
  /-- It is entered. -/
  | entered
  /-- Later than LATE_MAX. -/
  | refused
  /-- All 4,096 entries are in use. -/
  | full
  deriving DecidableEq, Repr

/-- Judge an event at edge `e` (R49). -/
def schedJudge (s : State) (e : Nat) : SchedAns :=
  if e < s.now then (if s.now - e ≤ s.lateMax then .late else .refused)
  else if 4096 ≤ s.tb.sched.length then .full else .entered

/-- Enter an event. -/
def schedEnter (s : State) (e : Nat) (a : Act) : State :=
  { s with tb := { s.tb with sched := s.tb.sched ++ [{ at_ := e, kind := actKind a, seq := s.tb.schedSeq, act := a }],
                             schedSeq := s.tb.schedSeq + 1 } }

/-- The order of R48: by edge, then by kind, then by acceptance. -/
def schedBefore (a b : Sched) : Bool :=
  a.at_ < b.at_ || (a.at_ = b.at_ && (a.kind < b.kind || (a.kind = b.kind && a.seq ≤ b.seq)))

def insertSched (q : Sched) : List Sched → List Sched
  | [] => [q]
  | x :: xs => if schedBefore q x then q :: x :: xs else x :: insertSched q xs

/-- Entries in the order of R48. -/
def schedOrder (l : List Sched) : List Sched := l.foldl (fun a q => insertSched q a) []

/-- A late event: counted and barked (R49). -/
def schedLate (s : State) : State := (s.count Reg.TB_CNT_SCHED_LATE).bark 2 0x0209 true []

/-- Act at the command's instant (R48, R49): at once without one, as a late event when it has just passed, and otherwise
through the scheduler. A refused command completes BAD_PARAM. -/
def atInstant (s : State) (h : CmdHdr) (a : Act) (fire : State → State) : State :=
  if h.inst = .none then fire s
  else
    let e := instEdge s.now h.inst
    match schedJudge s e with
    | .late => fire (schedLate s)
    | .entered => schedEnter s e a
    | .refused => (s.bark 2 0x020A true []).refuse h .badParam
    | .full => (s.bark 2 0x020D true []).refuse h .badParam

end Sys2Proof.Machine
end

