-- ==== Sys2Proof/Machine/Drive.lean ====
section
/-! DEFINITION. The drive card (R252 to R272, R279 to R281, R403): microstep tables, trajectories, moves, homing, groups,
limits, faults, the interlock, /HALT, heater outputs, and the stow moves of R29. -/

namespace Sys2Proof.Machine

/-! ## Fields of an axis -/

def axOFF : Nat := 0
def axMUZZLED : Nat := 1
def axHOLD : Nat := 2
def axMOVING : Nat := 3
def axWAIT : Nat := 4
def axHALTED : Nat := 5
def axFAULT : Nat := 6
def axLOCKOUT : Nat := 7

def State.axState (s : State) (a : Nat) : Nat := s.rd (Reg.DV_AX_STAT_STATE a)
def State.posValid (s : State) (a : Nat) : Bool := s.flag (Reg.DV_AX_STAT_POS_VALID a)

/-- USE as it acts: 3 acts as 0 (R252). -/
def State.axUse (s : State) (a : Nat) : Nat := let u := s.rd (Reg.DV_AX_CFG_USE a); if u = 3 then 0 else u

/-- LIM_MODE as it acts: 3 acts as 2 (R266). -/
def State.limMode (s : State) (a : Nat) : Nat := min 2 (s.rd (Reg.DV_AX_CFG_LIM_MODE a))

/-- One microstep, and one microstep per beat, in the units of the generator. -/
def uStep : Int := 4294967296

/-- p in microsteps, not wrapped. -/
def axisP (x : Axis) : Int := x.pos / uStep

/-- p as a signed 32-bit value (R253). -/
def axisP32 (x : Axis) : Int := signed 32 (unsigned 32 (axisP x))

/-- p at the run-clock instant `r`: the sequencer spreads the steps of the beat evenly over its CCLK edges, so that after n of the 3,840
edges n/3,840 of them are out, rounded down (R259; DEDUCED). -/
def pSeq (x : Axis) (r : Nat) : Int :=
  if r < x.seqRun + cclkBeat then x.seqFrom + Int.tdiv ((axisP x - x.seqFrom) * ((r - x.seqRun : Nat) : Int)) cclkBeat else axisP x

/-- The turns of 2^32 microsteps between the position kept and p as R253 numbers it: limits compare with p (R266). -/
def limBase (x : Axis) : Int := axisP x - axisP32 x

/-- Full steps/s as microsteps per beat, in 2^-32: at least 1 and at most 10,000 full steps/s (R259). -/
def speedOf (fs : Nat) : Int := rne (((max 1 (min fs 10000)) * 4294967296 : Nat) : Int) 250

/-- Microsteps/s as microsteps per beat, in 2^-32. -/
def velOf (us : Int) : Int := rne (us * uStep) 64000

/-- Full steps/s² as microsteps per beat per beat, in 2^-32: at most 1,000,000 (R259). -/
def accOf (fs2 : Nat) : Int := rne (((max 1 (min fs2 1000000)) * 4294967296 : Nat) : Int) 16000000

/-- The default of an axis where a move names zero (R260). -/
def orDefault (v d : Nat) : Nat := if v = 0 then d else v

/-- Bridge power as the rules use it (R252). -/
def State.bridgePwr (s : State) : Bool := s.flag Reg.DV_CARD_STAT_BRIDGE_PWR

/-- The arena with OUT_KIND `k` and index `i` that is enabled (R243). -/
def State.arenaOn (s : State) (k i : Nat) : Option Nat :=
  (List.range 16).find? (fun g => s.eff (Reg.LE_ARENA_CFG_EN g) = 1 && !s.flag (Reg.LE_ARENA_STAT_CFG_BAD g) &&
    s.eff (Reg.LE_ARENA_CFG_OUT_KIND g) = k && s.eff (Reg.LE_ARENA_CFG_OUT_IDX g) = i)

/-- Axis `a` is driven by an enabled arena. -/
def State.arenaAxis (s : State) (a : Nat) : Bool := (s.arenaOn 1 a).isSome

/-- Axis `a` belongs to a running or waiting group. -/
def State.inGroup (s : State) (a : Nat) : Bool := (s.dv.groups ++ s.dv.groupNext).any (fun g => bit g.mask a)

/-- The consumer ID of an axis (R288). -/
def axCid (a : Nat) : Nat := 0x20 + a

/-- RUN_W, HOLD_W in tokens. -/
def State.runW (s : State) (a : Nat) : Nat := s.rd (Reg.DV_AX_CFG_RUN_W a)
def State.holdW (s : State) (a : Nat) : Nat := s.rd (Reg.DV_AX_CFG_HOLD_W a)

/-! ## The end of a motion (R262, R264) -/

def ecREACHED : Nat := 0
def ecSUPERSEDED : Nat := 1
def ecSTOPPED : Nat := 2
def ecHALTED : Nat := 3
def ecFAULT : Nat := 4
def ecLIMIT : Nat := 5
def ecMODE : Nat := 6
def ecNOTFOUND : Nat := 7
def ecCONFIG : Nat := 8

/-- The status that follows from an end cause (R262). -/
def endStatus (cause : Nat) (deferred : Bool) : Status :=
  if cause = ecFAULT then .hwFault else if cause = ecMODE then .modeForbids else if cause = ecNOTFOUND then .timeout
  else if deferred then .deferred else .ok

/-- The header and the DEFERRED mark of a motion. -/
def motionHdr : Motion → Option (CmdHdr × Bool)
  | .move m => m.hdr.map (fun h => (h, m.deferred))
  | .home h => some (h.hdr, h.deferred)
  | .still | .arena | .group => none

/-- Post the completion of a motion: end cause, and p as the result (p_ev for HOME). -/
def postEnd (s : State) (a : Nat) (m : Motion) (cause : Nat) : State :=
  match motionHdr m with
  | none => s
  | some (h, d) =>
    let r := match m with
      | .home x => unsigned 32 (x.pEv.getD 0)
      | _ => unsigned 32 (axisP (s.axis a))
    s.complete h (endStatus cause d) r cause

/-- Motions that wait (for budget, or for their boundary) end without having moved. -/
def endWaiting (s : State) (a cause : Nat) : State :=
  let x := s.axis a
  let t := match x.waiting with | none => s | some m => postEnd s a m cause
  let t := match x.next with | none => t | some m => postEnd t a m cause
  (t.modAxis a (fun y => { y with waiting := none, next := none, energise := false })).withdraw 0 (axCid a)

/-- Pulses stop at once on a moving axis (R264), with p where the sequencer stands: POS_VALID clears, INTERRUPTED sets and counts,
DV_INTERRUPTED carries p, and the motion completes with `cause`. -/
def stopPulses (s : State) (a cause : Nat) : State :=
  let x := s.axis a
  if s.axState a = axMOVING then
    let p := pSeq x s.run
    let s := s.modAxis a (fun y => { y with pos := p * uStep, seqFrom := p })
    let t := ((((s.clr (Reg.DV_AX_STAT_POS_VALID a)).set (Reg.DV_AX_STAT_INTERRUPTED a)).count Reg.DV_CNT_INTERRUPTS).bark 0x30 0x3006 true
      [a, unsigned 32 p])
    let t := postEnd t a x.motion cause
    let t := t.modAxis a (fun y => { y with vel := 0, motion := .still, stillSince := t.run, demand := 0 })
    (t.wr (Reg.DV_AX_STAT_STATE a) axHOLD).wr (Reg.DV_AX_STAT_VEL a) 0
  else s

/-- De-energise an axis into `st` (R261, R265): its reservation returns, and at rest POS_VALID clears unless KEEP_POS. -/
def deenergise (s : State) (a st : Nat) : State :=
  let t := s.when ((s.axis a).on && !s.flag (Reg.DV_AX_CFG_KEEP_POS a)) (fun u => u.clr (Reg.DV_AX_STAT_POS_VALID a))
  let t := (((t.wr (Reg.DV_AX_STAT_STATE a) st).wr (Reg.DV_AX_STAT_IA_SET a) 0).wr (Reg.DV_AX_STAT_IB_SET a) 0).wr (Reg.DV_AX_STAT_VEL a) 0
  (t.modAxis a (fun y => { y with on := false, runCur := false, vel := 0, motion := .still, demand := 0, duty := [0, 0, 0, 0],
                                  dutyWas := [0, 0, 0, 0], chopA := {}, chopB := {} })).release 0 (axCid a) 0

/-- Every member of a group stops (R268), and the group posts one completion with the mask of members that reached their
targets. -/
def stopGroupsOf (s : State) (a cause : Nat) : State :=
  let gs := (s.dv.groups ++ s.dv.groupNext).filter (fun g => bit g.mask a)
  let t := { s with dv := { s.dv with groups := s.dv.groups.filter (fun g => !bit g.mask a),
                                      groupNext := s.dv.groupNext.filter (fun g => !bit g.mask a) } }
  gs.foldl (fun u g =>
    let u1 := g.members.foldl (fun w q => (stopPulses w q.1 cause).clr (Reg.DV_AX_STAT_GROUP q.1)) u
    let done := (g.members.filter (fun q => axisP (u1.axis q.1) = q.2.1 + q.2.2)).foldl (fun n q => n + 2 ^ q.1) 0
    let u1 := if g.waiting then g.members.foldl (fun w q => if w.axState q.1 = axWAIT then
      w.wr (Reg.DV_AX_STAT_STATE q.1) (if (w.axis q.1).on then axHOLD else axMUZZLED) else w) (u1.withdraw 0 (axCid g.lead)) else u1
    u1.complete g.hdr (endStatus cause g.deferred) done cause) t

/-- End whatever drives the axis, with `cause`, and muzzle it into `st` (R264, R270, R385). -/
def muzzleAxis (s : State) (a st cause : Nat) : State :=
  let t := if s.inGroup a then stopGroupsOf s a cause else s
  let t := stopPulses t a cause
  let t := endWaiting t a cause
  deenergise t a st

/-- Muzzle the axes that stand in a driving state; FAULT, LOCKOUT and OFF stand. -/
def muzzleLive (s : State) (a st cause : Nat) : State :=
  let x := s.axState a
  if x = axOFF || x = axFAULT || x = axLOCKOUT then s else muzzleAxis s a st cause

/-- Muzzle every axis, with one end cause. -/
def muzzleAxes (s : State) (st cause : Nat) : State := (List.range 16).foldl (fun u a => muzzleLive u a st cause) s

/-! ## When an axis may drive (R279) -/

/-- The mode lets an axis drive. -/
def State.modeDrives (s : State) : Bool := s.mode = mCOMMISSION || s.mode = mRUN || s.mode = mDEGRADED

/-- D0 gives service, and does not muzzle itself (R387). -/
def State.d0On (s : State) : Bool := s.inService 18 && s.domOn 18 && !(s.slot 18).selfMuzzled

/-- D0 runs a firmware update: motion commands wait for its switch (R381). -/
def State.d0Waits (s : State) : Bool := (s.slot 18).standby.isSome

/-- Limits apply to the axis (R266). -/
def State.limApply (s : State) (a : Nat) : Bool := s.limMode a ≠ 0 && s.posValid a

/-- A target lies within the limits in force. -/
def State.limOk (s : State) (a : Nat) (p : Int) : Bool :=
  !s.limApply a || ((s.axis a).limLo ≤ p && p ≤ (s.axis a).limHi)

/-! ## Limits of the generator -/

def State.vmaxOf (s : State) (a v : Nat) : Int :=
  let d := s.rd (Reg.DV_AX_CFG_VMAX a)
  min (speedOf (orDefault v d)) (speedOf d)
def State.accFor (s : State) (a v : Nat) : Int := accOf (orDefault v (s.rd (Reg.DV_AX_CFG_ACC a)))
def State.decFor (s : State) (a v : Nat) : Int := accOf (orDefault v (s.rd (Reg.DV_AX_CFG_DEC a)))

/-- Velocity `v` changed towards `d` by at most `acc`, or by at most `dec` when the magnitude falls (R259); through zero
it stops at zero first. -/
def towards (v d acc dec : Int) : Int :=
  if v = d then v
  else if 0 ≤ v && 0 ≤ d then (if v < d then min (v + acc) d else max (v - dec) d)
  else if v ≤ 0 && d ≤ 0 then (if d < v then max (v - acc) d else min (v + dec) d)
  else if 0 < v then max (v - dec) 0 else min (v + dec) 0

/-- The greatest velocity at which one more beat leaves no less than v²/(2 × DEC) of the way `r` (R259). -/
def brakeSpeed (r dec : Int) : Int := (isqrt (dec * dec + 2 * dec * r).toNat : Nat) - dec

/-- The greatest first step of a fall by DEC a beat that ends no further than the way `r` (R259). -/
def stopSpeed (r dec : Int) : Int :=
  let m := ((isqrt (dec * dec + 8 * dec * r).toNat : Nat) - dec) / (2 * dec)
  (r + dec * (m * (m + 1) / 2)) / (m + 1)

/-- The velocity after one braking beat (R259): the steady deceleration that stops a way `r` off, at most DEC. -/
def brakeTo (r v dec : Int) : Int :=
  max (v - dec) (min (v - (v * v + 2 * r + v - 1) / (2 * r + v)) (stopSpeed r dec))

/-- One beat towards a target `r` away (signed, in 2^-32 microsteps) at velocity `v` (R259): the new velocity and the step
taken. The generator brakes from the first beat at which one more beat at the present velocity would leave less than
v²/(2 × DEC); the last step is shortened so that it stops on the target; a target it cannot stop on is overshot. -/
def approach (r v vmax acc dec : Int) : Int × Int :=
  let sg : Int := if r < 0 then -1 else 1
  let r' := sg * r
  let v' := sg * v
  if v' < 0 then
    let w := towards v' 0 acc dec
    (sg * w, sg * w)
  else if r' ≤ dec && v' - dec ≤ r' && r' ≤ min (v' + acc) (max v' vmax) then (0, r)
  else
    let b := brakeSpeed r' dec
    let w := min (towards v' vmax acc dec) (if b < v' then brakeTo r' v' dec else b)
    (sg * w, sg * w)

/-- Table 0 of R254, T[i] = round(32,767 × cos(π i / 512)), i from 0 to 63. -/
def cosTab0 : List Nat :=
  [32767, 32766, 32765, 32761, 32757, 32752, 32745, 32737, 32728, 32717, 32705, 32692, 32678, 32663, 32646, 32628,
   32609, 32589, 32567, 32545, 32521, 32495, 32469, 32441, 32412, 32382, 32351, 32318, 32285, 32250, 32213, 32176,
   32137, 32098, 32057, 32014, 31971, 31926, 31880, 31833, 31785, 31736, 31685, 31633, 31580, 31526, 31470, 31414,
   31356, 31297, 31237, 31176, 31113, 31050, 30985, 30919, 30852, 30783, 30714, 30643, 30571, 30498, 30424, 30349]

/-- Table 0 of R254, T[i] = round(32,767 × cos(π i / 512)), i from 64 to 127. -/
def cosTab1 : List Nat :=
  [30273, 30195, 30117, 30037, 29956, 29874, 29791, 29706, 29621, 29534, 29447, 29358, 29268, 29177, 29085, 28992,
   28898, 28803, 28706, 28609, 28510, 28411, 28310, 28208, 28105, 28001, 27896, 27790, 27683, 27575, 27466, 27356,
   27245, 27133, 27019, 26905, 26790, 26674, 26556, 26438, 26319, 26198, 26077, 25955, 25832, 25708, 25582, 25456,
   25329, 25201, 25072, 24942, 24811, 24680, 24547, 24413, 24279, 24143, 24007, 23870, 23731, 23592, 23452, 23311]

/-- Table 0 of R254, T[i] = round(32,767 × cos(π i / 512)), i from 128 to 191. -/
def cosTab2 : List Nat :=
  [23170, 23027, 22884, 22739, 22594, 22448, 22301, 22154, 22005, 21856, 21705, 21554, 21403, 21250, 21096, 20942,
   20787, 20631, 20475, 20317, 20159, 20000, 19841, 19680, 19519, 19357, 19195, 19032, 18868, 18703, 18537, 18371,
   18204, 18037, 17869, 17700, 17530, 17360, 17189, 17018, 16846, 16673, 16499, 16325, 16151, 15976, 15800, 15623,
   15446, 15269, 15090, 14912, 14732, 14553, 14372, 14191, 14010, 13828, 13645, 13462, 13279, 13094, 12910, 12725]

/-- Table 0 of R254, T[i] = round(32,767 × cos(π i / 512)), i from 192 to 255. -/
def cosTab3 : List Nat :=
  [12539, 12353, 12167, 11980, 11793, 11605, 11417, 11228, 11039, 10849, 10659, 10469, 10278, 10087, 9896, 9704,
   9512, 9319, 9126, 8933, 8739, 8545, 8351, 8157, 7962, 7767, 7571, 7375, 7179, 6983, 6786, 6590,
   6393, 6195, 5998, 5800, 5602, 5404, 5205, 5007, 4808, 4609, 4410, 4210, 4011, 3811, 3612, 3412,
   3212, 3012, 2811, 2611, 2410, 2210, 2009, 1809, 1608, 1407, 1206, 1005, 804, 603, 402, 201]

def cosTab : List Nat := cosTab0 ++ cosTab1 ++ cosTab2 ++ cosTab3

/-- T[i] of the table an axis uses; T[256] is 0 (R254). -/
def State.tabAt (s : State) (tab i : Nat) : Nat :=
  if 256 ≤ i then 0 else if tab = 0 then cosTab.getD i 0 else s.dv.utabAct.get 0 (256 * tab + i)

/-- The phase set-points at position `p0`, as Q1.15 fractions (R254). -/
def State.phases (s : State) (a : Nat) (p0 : Int) : Int × Int :=
  let x := s.axis a
  let p := if x.invNow = 1 then -p0 else p0
  let q := (p % 1024).toNat
  let k := q / 256
  let i := q % 256
  let tab := s.rd (Reg.DV_AX_CFG_TAB a)
  let u : Int := s.tabAt tab i
  let d : Int := s.tabAt tab (256 - i)
  if k = 0 then (u, d) else if k = 1 then (-d, u) else if k = 2 then (-u, -d) else (d, -u)

/-- Peak current in force, mA (R256): I_RUN while it moves, I_HOLD after HOLD_DELAY. -/
def State.axCurrent (s : State) (a : Nat) : Nat :=
  let x := s.axis a
  let r := min 4000 (s.rd (Reg.DV_AX_CFG_I_RUN a))
  if !x.on || x.useNow ≠ 1 then 0 else if x.runCur then r else min r (s.rd (Reg.DV_AX_CFG_I_HOLD a))

/-- The set-points of bridges A and B at position `p`, in mA (R254, R256). -/
def State.setPoints (s : State) (a : Nat) (p : Int) : Int × Int :=
  let c : Int := s.axCurrent a
  let ph := s.phases a p
  (rne (ph.1 * c) 32768, rne (ph.2 * c) 32768)

/-- Show an axis as it stands at this edge: p, velocity in microsteps/s, and the set-points, which follow p at every step (R256). -/
def showAxis (s : State) (a : Nat) : State :=
  let x := s.axis a
  let p := pSeq x s.run
  let sp := s.setPoints a p
  (((s.wr (Reg.DV_AX_STAT_POS a) (unsigned 32 p)).wrS (Reg.DV_AX_STAT_VEL a) (rne (x.vel * 64000) 4294967296)).wr
    (Reg.DV_AX_STAT_IA_SET a) (unsigned 16 sp.1)).wr (Reg.DV_AX_STAT_IB_SET a) (unsigned 16 sp.2)

/-! ## The chopper (R257) -/

/-- The off-time and the blanking time of an axis, in steps of 0.5 µs. -/
def State.tOff (s : State) (a : Nat) : Nat := s.rd (Reg.DV_AX_CFG_T_OFF a) + 1
def State.tBlank (s : State) (a : Nat) : Nat := s.rd (Reg.DV_AX_CFG_TBLANK a) + 1

/-- `n` steps of 0.5 µs as CCLK edges: 122.88 edges each, up to the next edge. -/
def halfUs (n : Nat) : Nat := (n * 12288 + 99) / 100

/-- A chopper at the run-clock instant `r`, with the set-point `sp` and the phase current `i` in mA, where one is read (R257): a set-point
of zero holds slow decay; the off phase ends after T_OFF; the on phase ends where the current has reached the set-point, once the blanking
time is over. -/
def chopAt (off blank : Nat) (c : Chop) (r : Nat) (sp : Int) (i : Option Int) : Chop :=
  if sp = 0 then (if c.ph = 0 then c else { c with ph := 0, since := r })
  else
    let c := if c.ph = 0 then { c with ph := 1, since := r }
      else if c.ph = 2 && c.since + halfUs off ≤ r then { c with ph := 1, since := c.since + halfUs off } else c
    match i with
    | none => c
    | some v => if c.ph = 1 && c.since + halfUs blank ≤ r && (iabs sp : Int) ≤ (if sp < 0 then -v else v) then { c with ph := 2, since := r } else c

/-- The first FD/16 of the off phase run in fast decay. -/
def chopFast (off fd : Nat) (c : Chop) (r : Nat) : Bool := c.ph = 2 && (r - c.since) * 1600 < off * fd * 12288

/-- What a bridge does at the run-clock instant `r` (R257): 1 drives the winding towards its set-point, 2 is reversed (fast decay), 0 has
both low switches on (slow decay); none where every switch is open (R252). -/
def State.bridgeDrive (s : State) (a br r : Nat) : Option Nat :=
  let x := s.axis a
  let c := if br = 0 then x.chopA else x.chopB
  if x.useNow ≠ 1 || !x.on then none
  else some (if c.ph = 1 then 1 else if chopFast (s.tOff a) (s.rd (Reg.DV_AX_CFG_FD a)) c r then 2 else 0)

/-- Keep the instant since which a condition holds. -/
def sinceIf (b : Bool) (o : Option Nat) (r : Nat) : Option Nat := if b then some (o.getD r) else none

/-- The watch of R270 on one reading: the current lies below 10 % of a set-point of at least 25 % of I_RUN, or it is normal. -/
def chopWatch (irun : Nat) (c : Chop) (r : Nat) (sp i : Int) : Chop :=
  let big := decide (irun ≤ 4 * iabs sp)
  let low := decide (10 * iabs i < iabs sp)
  { c with openSince := sinceIf (big && low) c.openSince r, okSince := sinceIf (big && !low) c.okSince r }

/-- One bridge over the beat that ends now, with the currents read in it. -/
def chopBridge (s : State) (a br : Nat) (cur : List (Nat × Int)) : Chop :=
  let x := s.axis a
  let sp (r : Nat) : Int := let q := s.setPoints a (pSeq x r); if br = 0 then q.1 else q.2
  let irun := min 4000 (s.rd (Reg.DV_AX_CFG_I_RUN a))
  let c := cur.foldl (fun c q =>
    let r := s.run - cclkBeat + q.1
    chopWatch irun (chopAt (s.tOff a) (s.tBlank a) c r (sp r) (some q.2)) r (sp r) q.2) (if br = 0 then x.chopA else x.chopB)
  chopAt (s.tOff a) (s.tBlank a) c s.run (sp s.run) none

/-- The currents of a bridge among those read. -/
def curOf (chops : List ChopIn) (a br : Nat) : List (Nat × Int) := (chops.filter (fun q => q.a = a && q.br = br)).flatMap (fun q => q.cur)

/-- Both choppers of an energised axis over the beat that ends now. -/
def chopAxis (chops : List ChopIn) (s : State) (a : Nat) : State :=
  if (s.axis a).useNow = 1 && (s.axis a).on then
    s.modAxis a (fun y => { y with chopA := chopBridge s a 0 (curOf chops a 0), chopB := chopBridge s a 1 (curOf chops a 1) })
  else s

/-! ## Starting a motion (R260, R261, R263) -/

/-- The tokens a motion needs: RUN_W, unless the axis stands under an arena's reservation. -/
def State.needW (s : State) (a : Nat) : Nat := s.runW a

/-- The class of a motion's request: STOW for stow moves, MOTION otherwise (R287). -/
def motionCls : Motion → Nat
  | .move m => if m.stow then 0 else 2
  | .still | .home _ | .arena | .group => 2

/-- What keeps axis `a` from driving when the turn of a motion comes, as the end cause with which the motion then ends (R262): /HALT
(R19), a mode in which the axis may not drive (R28, R279), a fault or no drive service (R260, R270), or a changed setting. A stow
move drives in STOW, ahead of an arena (R29). -/
def State.driveBar (s : State) (a : Nat) (stow : Bool) : Option Nat :=
  if s.halted then some ecHALTED
  else if !(s.modeDrives || (stow && s.mode = mSTOW)) then some ecMODE
  else if s.axState a = axFAULT || s.axState a = axLOCKOUT || !s.bridgePwr || !s.d0On then some ecFAULT
  else if s.axUse a ≠ 1 || (!stow && s.arenaAxis a) then some ecCONFIG
  else none

/-- What keeps a motion of one axis from starting: beside that, a group that has taken the axis meanwhile supersedes it. A motion
accepted earlier is judged by this again at its instant and at its beat boundary (DEDUCED: R260 judges it at acceptance, and R19 and
R279 hold at every moment). -/
def State.startBar (s : State) (a : Nat) (m : Motion) : Option Nat :=
  match s.driveBar a (motionCls m = 0) with
  | some c => some c
  | none => if s.inGroup a then some ecSUPERSEDED else none

/-- A motion is to start at the next beat boundary; the raise of its reservation is asked for now (R261). One that may not start ends
without having moved. -/
def queueStart (s : State) (a : Nat) (m : Motion) : State :=
  let x := s.axis a
  match s.startBar a m with
  | some c => postEnd s a m c
  | none =>
    let t := match x.next with | none => s | some o => postEnd s a o ecSUPERSEDED
    let t := t.modAxis a (fun y => { y with next := some m })
    if s.axState a = axMOVING || s.needW a ≤ s.heldBy 0 (axCid a) && s.hasGrant 0 (axCid a) || x.waiting.isSome then t
    else t.request 0 (motionCls m) (axCid a) (s.needW a)

/-- The motion that was to start at this boundary is dropped, with its request; a wait for HOLD_W goes on. -/
def dropNext (s : State) (a : Nat) : State :=
  let x := s.axis a
  let t := s.modAxis a (fun y => { y with next := none })
  if x.waiting.isSome || s.axState a = axMOVING then t
  else
    let t := t.withdraw 0 (axCid a)
    if x.energise then t.request 0 1 (axCid a) (t.holdW a) else t

/-- Mark a motion deferred. -/
def markDeferred : Motion → Motion
  | .move m => .move { m with deferred := true }
  | .home h => .home { h with deferred := true }
  | .still => .still
  | .arena => .arena
  | .group => .group

/-- The target of a move at its start: ABS by the shortest modular way from p, or without a wrap while limits apply (R266), REL from p
(R253, R260); and where and when a homing starts. -/
def bindTarget (lim : Bool) (e : Nat) (x : Axis) : Motion → Motion
  | .move m =>
    if m.kind = 0 then
      let v := if lim then limBase x + signed 32 (unsigned 32 m.value) else axisP x + signed 32 (unsigned 32 (m.value - axisP x))
      .move { m with value := v }
    else if m.kind = 1 then .move { m with value := axisP x + m.value }
    else .move m
  | .home h => .home { h with start := axisP x, startAt := e }
  | .still => .still
  | .arena => .arena
  | .group => .group

/-- The motion takes over the generator from the current position and velocity (R263). -/
def beginMotion (s : State) (a : Nat) (m : Motion) : State :=
  let t := s.modAxis a (fun y => { y with motion := bindTarget (s.limApply a) s.now y m, waiting := none, next := none, runCur := true, on := true,
                                          limBarked := false })
  ((t.wr (Reg.DV_AX_STAT_STATE a) axMOVING).clr (Reg.DV_AX_STAT_AT_LIM_LO a)).clr (Reg.DV_AX_STAT_AT_LIM_HI a)

/-- The reservation of a motion is held. -/
def State.motionFunded (s : State) (a : Nat) : Bool := s.hasGrant 0 (axCid a) && s.needW a ≤ s.heldBy 0 (axCid a)

/-- At its beat boundary a motion starts, blends with the running one, or waits for its reservation (R260 to R263). -/
def moveStart (s : State) (a : Nat) : State :=
  let x := s.axis a
  match x.next with
  | some m =>
    if s.d0Waits then s
    else match s.startBar a m with
    | some c => dropNext (postEnd s a m c) a
    | none =>
      if s.axState a = axMOVING then beginMotion (postEnd s a x.motion ecSUPERSEDED) a m
      else if x.waiting.isSome then
        let t := match x.waiting with | none => s | some w => postEnd s a w ecSUPERSEDED
        t.modAxis a (fun y => { y with waiting := some (markDeferred m), next := none, waitSince := t.run })
      else if s.motionFunded a then beginMotion s a m
      else
        let t := (s.modAxis a (fun y => { y with waiting := some (markDeferred m), next := none, waitSince := s.run })).wr
          (Reg.DV_AX_STAT_STATE a) axWAIT
        let t := if t.waitsFor 0 (axCid a) then t else t.request 0 (motionCls m) (axCid a) (t.needW a)
        t.bark 0x30 0x3008 false [a]
  | none =>
    match x.waiting with
    | some m => if s.axState a = axWAIT && s.motionFunded a && (s.startBar a m).isNone then beginMotion s a m else s
    | none => s

/-! ## MOVE (R260) -/

/-- The checks of MOVE in the order of R310: mode, leash, parameters, budget, execution. -/
def moveRefuse (s : State) (h : CmdHdr) (a kind : Nat) (value : Int) : Option Status :=
  let x := s.axis a
  let p := axisP32 x
  let tgt := if kind = 1 then p + value else value
  if !s.modeDrives || s.halted then some .modeForbids
  else match s.leashStatus (s.ownerOf h.via) [(1, a)] with
    | some st => some st
    | none =>
      if 16 ≤ a || 3 ≤ kind || s.axUse a ≠ 1 || s.arenaAxis a || s.inGroup a || (kind ≤ 1 && !s.limOk a tgt)
        || (s.limMode a = 2 && !s.posValid a)
        || (kind = 2 && s.limApply a && ((p < x.limLo && value < 0) || (x.limHi < p && 0 < value)))
        then some .badParam
      else if s.axState a ≠ axMOVING && s.driveBudget < s.needW a then some .budgetDenied
      else if s.axState a = axFAULT || s.axState a = axLOCKOUT || !s.bridgePwr || !s.d0On then some .hwFault
      else none

/-- A move denied at once counts and barks (R261, R289). -/
def denyBudget (s : State) (a : Nat) : State :=
  ((s.count Reg.DV_CNT_BUDGET_DENIED).count Reg.PW_CNT_DENIED).bark 0x30 0x3009 true [a]

/-- Complete a command that is refused. -/
def refuseCmd (s : State) (h : CmdHdr) (a : Nat) (st : Status) : State :=
  (if st = .budgetDenied then denyBudget s a else s).refuse h st

def mkMove (h : CmdHdr) (kind : Nat) (value : Int) (vmax acc dec : Nat) : Motion :=
  .move { hdr := some h, kind := kind, value := value, vmax := vmax, acc := acc, dec := dec, deferred := false, stow := false }

/-- MOVE: judged at acceptance, and scheduled to start (R260, R48). -/
def moveCmd (s : State) (h : CmdHdr) (a kind : Nat) (value : Int) (vmax acc dec : Nat) : State :=
  let t := s.begin h
  match moveRefuse t h a kind value with
  | some st => refuseCmd t h a st
  | none => atInstant t h (.moveStart h a kind value vmax acc dec) (fun u => queueStart u a (mkMove h kind value vmax acc dec))

def execMove (h : CmdHdr) (a kind : Nat) (value : Int) (vmax acc dec : Nat) (s : State) : Host.Outcome State Fault Refusal :=
  answer s (moveCmd s h a kind value vmax acc dec)

def execMoveStart (a : Nat) (s : State) : Host.Outcome State Fault Refusal := guardItem (a < 16) (answer s (moveStart s a))

/-- GRANT_WAIT as it acts (R261). -/
def State.grantWait (s : State) : Nat := max 1 (s.rd Reg.DV_CFG_GRANT_WAIT) * cclkMs

/-- The state an axis that waited returns to. -/
def restState (x : Axis) : Nat := if x.on then axHOLD else axMUZZLED

/-- A move, or a group, still waiting after GRANT_WAIT completes BUDGET_DENIED (R261). A stow move is no command: it waits up to
STOW_TIME (R29). -/
def budgetDenied (s : State) (a : Nat) : State :=
  let x := s.axis a
  match s.dv.groups.find? (fun g => g.waiting && g.lead = a) with
  | some g =>
    if s.elapsed g.since s.grantWait then
      let t := { s with dv := { s.dv with groups := s.dv.groups.filter (fun k => !(k.waiting && k.lead = a)) } }
      let t := g.members.foldl (fun w q => (w.wr (Reg.DV_AX_STAT_STATE q.1) (restState (w.axis q.1))).clr (Reg.DV_AX_STAT_GROUP q.1)) t
      ((denyBudget (t.withdraw 0 (axCid a)) a).complete g.hdr .budgetDenied)
    else s
  | none =>
    match x.waiting with
    | none => s
    | some m =>
      if s.axState a = axWAIT && motionCls m ≠ 0 && s.elapsed x.waitSince s.grantWait then
        let t := ((s.modAxis a (fun y => { y with waiting := none })).withdraw 0 (axCid a)).wr (Reg.DV_AX_STAT_STATE a) (restState x)
        let t := denyBudget t a
        match motionHdr m with
        | none => t
        | some (h, _) => t.complete h .budgetDenied (unsigned 32 (axisP x))
      else s

def execDvBudgetDenied (a : Nat) (s : State) : Host.Outcome State Fault Refusal := guardItem (a < 16) (answer s (budgetDenied s a))

/-- An axis that has stood still for HOLD_DELAY drops to I_HOLD, and its reservation to HOLD_W (R256, R261). -/
def holdExpiry (s : State) (a : Nat) : State :=
  let x := s.axis a
  if s.axState a = axHOLD && x.runCur && s.elapsed x.stillSince (s.rd (Reg.DV_AX_CFG_HOLD_DELAY a) * cclkMs) then
    showAxis ((s.modAxis a (fun y => { y with runCur := false })).release 0 (axCid a) (s.holdW a)) a
  else s

def execHoldDelayExpiry (a : Nat) (s : State) : Host.Outcome State Fault Refusal := guardItem (a < 16) (answer s (holdExpiry s a))

/-! ## HOME (R267) -/

def mkHome (h : CmdHdr) (source n dir : Nat) (vel : Int) (dist : Nat) (homePos : Int) (stream thresh : Nat) : Motion :=
  .home { hdr := h, source := source, n := n, dir := dir, vel := vel, dist := dist, homePos := homePos, stream := stream,
          thresh := thresh, start := 0, startAt := 0, pEv := none, lost := false, deferred := false }

/-- The checks of HOME: those of MOVE, but the limits and LIM_MODE 2 do not hold it back (R266). -/
def homeRefuse (s : State) (h : CmdHdr) (a source n dir : Nat) : Option Status :=
  if !s.modeDrives || s.halted then some .modeForbids
  else match s.leashStatus (s.ownerOf h.via) [(1, a)] with
    | some st => some st
    | none =>
      if 16 ≤ a || 3 ≤ source || 2 ≤ dir || (source = 1 && 16 ≤ n) || (source = 2 && 8 ≤ n) || s.axUse a ≠ 1 || s.arenaAxis a || s.inGroup a
        then some .badParam
      else if s.axState a ≠ axMOVING && s.driveBudget < s.needW a then some .budgetDenied
      else if s.axState a = axFAULT || s.axState a = axLOCKOUT || !s.bridgePwr || !s.d0On then some .hwFault
      else none

def homeCmd (s : State) (h : CmdHdr) (a source n dir : Nat) (vel : Int) (dist : Nat) (homePos : Int) (stream thresh : Nat) : State :=
  let t := s.begin h
  match homeRefuse t h a source n dir with
  | some st => refuseCmd t h a st
  | none => atInstant t h (.homeStart h a source n dir vel dist homePos stream thresh)
      (fun u => queueStart u a (mkHome h source n dir vel dist homePos stream thresh))

def execHome (h : CmdHdr) (a source n dir : Nat) (vel : Int) (dist : Nat) (homePos : Int) (stream thresh : Nat) (s : State) :
    Host.Outcome State Fault Refusal :=
  answer s (homeCmd s h a source n dir vel dist homePos stream thresh)

/-- p at an instant, interpolated between the kept beat boundaries on either side (R267); none where it is older than
the history. -/
def pAtInstant (x : Axis) (e : Nat) : Option Int :=
  let b := e / cclkBeat
  if x.histBn < b then some (axisP x)
  else
    let i := x.histBn - b
    match x.hist[i]? with
    | none => none
    | some p0 =>
      if i = 0 then some (p0 + rne ((axisP x - p0) * ((e % cclkBeat : Nat) : Int)) cclkBeat)
      else match x.hist[i - 1]? with
        | none => some p0
        | some p1 => some (p0 + rne ((p1 - p0) * ((e % cclkBeat : Nat) : Int)) cclkBeat)

/-- A home event at edge `e` for every axis that homes on this source (R267), at or after its start: the axis finds p_ev, and brakes. -/
def homeEvent (s : State) (want : Homing → Bool) (e : Nat) : State :=
  (List.range 16).foldl (fun u a =>
    let x := u.axis a
    match x.motion with
    | .home h =>
      if u.axState a = axMOVING && want h && h.startAt ≤ e && h.pEv.isNone && !h.lost then
        match pAtInstant x e with
        | some p => u.modAxis a (fun y => { y with motion := .home { h with pEv := some p } })
        | none => u.modAxis a (fun y => { y with motion := .home { h with lost := true } })
      else u
    | .still | .move _ | .arena | .group => u) s

/-! ## STOP (R264, R243) -/

/-- An arena stops driving (R244, R385): magnitude 0, its reservation returned; `st` is the LE_ARENA_STAT.STATE it then reads. -/
def quietArena (s : State) (g st : Nat) : State :=
  let x := s.arena g
  let t := if x.res ≠ 0 && (x.granted || x.waiting) then s.release 0 (0x30 + g) 0 else s
  (t.modArena g (fun y => { y with out := none, outNow := 0, granted := false, waiting := false, res := 0, satBeats := 0 })).wr (Reg.LE_ARENA_STAT_STATE g) st

/-- Muzzle an arena as after STOP, until RESTART (R243). -/
def stopArena (s : State) (g : Nat) : State :=
  quietArena (s.modArena g (fun k => { k with stopped := true })) g (if (s.arena g).satMuz then 4 else 1)

/-- A motion that waits for its grant or for its boundary ends with STOPPED too: after a STOP the sequencer emits no further step
(R264; DEDUCED). A wait for HOLD_W goes on. -/
def stopQueued (s : State) (a : Nat) : State :=
  let x := s.axis a
  if x.waiting.isNone && x.next.isNone then s
  else
    let t := match x.waiting with | none => s | some m => postEnd s a m ecSTOPPED
    let t := match x.next with | none => t | some m => postEnd t a m ecSTOPPED
    let t := (t.modAxis a (fun y => { y with waiting := none, next := none })).withdraw 0 (axCid a)
    let t := if x.energise then t.request 0 1 (axCid a) (t.holdW a) else t
    if t.axState a = axWAIT then t.wr (Reg.DV_AX_STAT_STATE a) (restState x) else t

/-- STOP of one axis: pulses stop at once, the phases hold; what waits to start ends; an arena that drives the axis is muzzled until
RESTART. -/
def stopAxis (s : State) (a : Nat) : State :=
  let t := match s.arenaOn 1 a with | none => s | some g => stopArena s g
  let t := if t.inGroup a then stopGroupsOf t a ecSTOPPED else t
  stopQueued (stopPulses t a ecSTOPPED) a

/-- The axes a STOP names: one axis, or every axis of the mask. -/
def stopTargets (kind a mask : Nat) : List Nat := if kind = 0 then [a] else (List.range 16).filter (fun i => bit mask i)

def stopNow (s : State) (h : CmdHdr) (kind a mask : Nat) : State :=
  ((stopTargets kind a mask).foldl stopAxis s).complete h .ok

/-- The mode and the parameters of STOP (R310, R311). -/
def stopRefuse (s : State) (kind a mask : Nat) : Option Status :=
  if s.barred then some .modeForbids
  else if 2 ≤ kind || (kind = 0 && 16 ≤ a) || (kind = 1 && 65536 ≤ mask) then some .badParam else none

/-- STOP: at the first CCLK edge after acceptance, or at its instant. It is never refused by a leash (R329). -/
def stopCmd (s : State) (h : CmdHdr) (kind a mask : Nat) : State :=
  let t := s.begin h
  match stopRefuse t kind a mask with
  | some st => t.refuse h st
  | none => atInstant t h (.stop h (kind = 1) a mask) (fun u => stopNow u h kind a mask)

def execStop (h : CmdHdr) (kind a mask : Nat) (s : State) : Host.Outcome State Fault Refusal := answer s (stopCmd s h kind a mask)

/-! ## Groups (R268) -/

/-- Member axes of a mask, with start and signed distance. -/
def groupMembers (s : State) (mask kind : Nat) (targets : List Int) : List (Nat × Int × Int) :=
  ((List.range 16).filter (fun a => bit mask a)).map (fun a =>
    let p := axisP (s.axis a)
    let v := targets.getD a 0
    (a, p, if kind = 1 then v else signed 32 (unsigned 32 (v - p))))

/-- The lead: the member with the largest distance, the lowest number on a tie. -/
def groupLead (ms : List (Nat × Int × Int)) : Nat × Nat :=
  ms.foldl (fun b q => if b.2 < iabs q.2.2 then (q.1, iabs q.2.2) else b) ((ms.headD (0, 0, 0)).1, 0)

/-- The path limits, lowered so that no member exceeds its own (R268): a limit `lim` of member i bounds the path at
lim × S / |d_i|. -/
def pathLimit (path S : Int) (ms : List (Nat × Int × Int)) (own : Nat → Int) : Int :=
  ms.foldl (fun m q => if q.2.2 = 0 then m else min m (own q.1 * S / (iabs q.2.2 : Int))) path

/-- What keeps a group from starting, as its end cause: the first member that may not drive. -/
def groupBar (s : State) (ms : List (Nat × Int × Int)) : Option Nat := ms.findSome? (fun q => s.driveBar q.1 false)

/-- A member already moves, waits, or runs in another group (R268). -/
def groupBusy (s : State) (ms : List (Nat × Int × Int)) : Bool :=
  ms.any (fun q => s.axState q.1 = axMOVING || (s.axis q.1).waiting.isSome || (s.axis q.1).next.isSome || s.inGroup q.1)

def groupRefuse (s : State) (h : CmdHdr) (mask kind : Nat) (targets : List Int) : Option Status :=
  let ms := groupMembers s mask kind targets
  let need := (ms.map (fun q => s.runW q.1)).sum
  if !s.modeDrives || s.halted then some .modeForbids
  else match s.leashStatus (s.ownerOf h.via) (ms.map (fun q => (1, q.1))) with
    | some st => some st
    | none =>
      if mask = 0 || 65536 ≤ mask || 2 ≤ kind || groupBusy s ms || ms.any (fun q => s.arenaAxis q.1 || s.axUse q.1 ≠ 1 || !s.limOk q.1 (axisP32 (s.axis q.1) + q.2.2) || (s.limMode q.1 = 2 && !s.posValid q.1)) then some .badParam
      else if s.driveBudget < need then some .budgetDenied
      else if ms.any (fun q => s.axState q.1 = axFAULT || s.axState q.1 = axLOCKOUT) || !s.bridgePwr || !s.d0On then some .hwFault
      else none

/-- The tokens a group asks for on its lead's consumer ID: the sum of its members' RUN_W, less what the others hold. -/
def groupNeed (s : State) (g : Group) : Nat :=
  (g.members.map (fun q => s.runW q.1)).sum - ((g.members.filter (fun q => q.1 ≠ g.lead)).map (fun q => s.heldBy 0 (axCid q.1))).sum

/-- A group ends before it has started: its members rest as they stood, and it posts its completion with no member at its target. -/
def endGroup (s : State) (g : Group) (c : Nat) : State :=
  let t := g.members.foldl (fun w q => (if w.axState q.1 = axWAIT then
    w.wr (Reg.DV_AX_STAT_STATE q.1) (if (w.axis q.1).on then axHOLD else axMUZZLED) else w).clr (Reg.DV_AX_STAT_GROUP q.1)) s
  (t.withdraw 0 (axCid g.lead)).complete g.hdr (endStatus c g.deferred) 0 c

/-- The group starts at the next beat boundary; its members' reservations are asked for as one (R268, R288). At its instant it is judged
again: one whose members may not drive ends, and one with a busy member completes BAD_PARAM (DESIGN CHOICE). -/
def queueGroup (s : State) (h : CmdHdr) (mask kind vmax acc dec : Nat) (targets : List Int) : State :=
  let ms := groupMembers s mask kind targets
  let ld := groupLead ms
  match groupBar s ms with
  | some c => s.complete h (endStatus c false) 0 c
  | none =>
  if groupBusy s ms then s.complete h .badParam else
  let g : Group := { hdr := h, mask := mask, members := ms, lead := ld.1, dist := ld.2, s := 0, v := 0, vmax := vmax, acc := acc,
                     dec := dec, waiting := true, since := s.run, deferred := false }
  let t := { s with dv := { s.dv with groupNext := s.dv.groupNext ++ [g] } }
  t.request 0 2 (axCid ld.1) (groupNeed s g)

def groupCmd (s : State) (h : CmdHdr) (mask kind vmax acc dec : Nat) (targets : List Int) : State :=
  let t := s.begin h
  match groupRefuse t h mask kind targets with
  | some st => refuseCmd t h 0 st
  | none => atInstant t h (.groupStart h mask kind vmax acc dec targets) (fun u => queueGroup u h mask kind vmax acc dec targets)

def execGroupMove (h : CmdHdr) (mask kind vmax acc dec : Nat) (targets : List Int) (s : State) : Host.Outcome State Fault Refusal :=
  answer s (groupCmd s h mask kind vmax acc dec targets)

/-- A group's reservation is held: its members hold their RUN_W each, the same tokens in all. -/
def splitGrant (s : State) (g : Group) : State :=
  g.members.foldl (fun u q => u.grantNow 0 2 (axCid q.1) (s.runW q.1)) s

/-- A group whose reservation is held starts all its members on one boundary; otherwise it waits as one (R268). One that may no longer
start ends. -/
def groupStart (s : State) (g : Group) : State × Option Group :=
  match groupBar s g.members with
  | some c => (endGroup s g c, none)
  | none =>
    if s.hasGrant 0 (axCid g.lead) && groupNeed s g ≤ s.heldBy 0 (axCid g.lead) then
      let t := splitGrant s g
      (g.members.foldl (fun u q => (beginMotion u q.1 .group).set (Reg.DV_AX_STAT_GROUP q.1)) t, some { g with waiting := false })
    else if g.deferred then (s, some g)
    else
      (g.members.foldl (fun u q => (u.wr (Reg.DV_AX_STAT_STATE q.1) axWAIT).bark 0x30 0x3008 false [q.1]) s,
        some { g with deferred := true, since := s.run })

/-- A motion stops at a limit (R266). -/
def hitLimit (s : State) (a : Nat) (hi : Bool) : State :=
  let t := (s.set (if hi then Reg.DV_AX_STAT_AT_LIM_HI a else Reg.DV_AX_STAT_AT_LIM_LO a)).set (Reg.DV_AX_STAT_LIMIT_HIT a)
  if (s.axis a).limBarked then t else (t.modAxis a (fun y => { y with limBarked := true })).bark 0x30 0x3007 false [a]

/-- A limit in force that a member would pass at position `p` (R266, R268): the high one, or the low one. -/
def State.passes (s : State) (a : Nat) (p : Int) : Option Bool :=
  let x := s.axis a
  if !s.limApply a then none
  else if limBase x + x.limHi < p && axisP x < p then some true
  else if p < limBase x + x.limLo && p < axisP x then some false else none

/-- A running group ends before its target (R264, R268): every member stops, and the group posts its completion. -/
def breakGroup (s : State) (g : Group) (cause : Nat) : State :=
  let t := g.members.foldl (fun w q => (stopPulses w q.1 cause).clr (Reg.DV_AX_STAT_GROUP q.1)) s
  let done := (g.members.filter (fun q => axisP (t.axis q.1) = q.2.1 + q.2.2)).foldl (fun n q => n + 2 ^ q.1) 0
  t.complete g.hdr (endStatus cause g.deferred) done cause

/-- One beat of a group: the lead runs along S, and every member takes start + round(d × s / S); a limit on any member stops every
member (R268). -/
def groupBeat (s : State) (g : Group) : State × Option Group :=
  let S : Int := (g.dist : Int) * uStep
  let vmax := pathLimit (speedOf (orDefault g.vmax (s.rd (Reg.DV_AX_CFG_VMAX g.lead)))) S (g.members.map (fun q => (q.1, q.2.1, q.2.2 * uStep))) (fun a => speedOf (s.rd (Reg.DV_AX_CFG_VMAX a)))
  let acc := pathLimit (accOf (orDefault g.acc (s.rd (Reg.DV_AX_CFG_ACC g.lead)))) S (g.members.map (fun q => (q.1, q.2.1, q.2.2 * uStep))) (fun a => accOf (s.rd (Reg.DV_AX_CFG_ACC a)))
  let dec := pathLimit (accOf (orDefault g.dec (s.rd (Reg.DV_AX_CFG_DEC g.lead)))) S (g.members.map (fun q => (q.1, q.2.1, q.2.2 * uStep))) (fun a => accOf (s.rd (Reg.DV_AX_CFG_DEC a)))
  let q := approach (S - g.s) g.v vmax (max 1 acc) (max 1 dec)
  let s' := g.s + q.2
  let place (m : Nat × Int × Int) : Int := m.2.1 + (if g.dist = 0 then 0 else rne (m.2.2 * s') ((g.dist : Nat) * 4294967296))
  match g.members.findSome? (fun m => (s.passes m.1 (place m)).map (fun hi => (m.1, hi))) with
  | some (a, hi) => (breakGroup (hitLimit s a hi) g ecLIMIT, none)
  | none =>
  let t := g.members.foldl (fun u m => u.modAxis m.1 (fun y => { y with vel := place m * uStep - y.pos, pos := place m * uStep })) s
  if s' = S && q.1 = 0 then
    let t := g.members.foldl (fun u m => ((u.modAxis m.1 (fun y => { y with vel := 0, motion := .still, stillSince := u.run })).wr
      (Reg.DV_AX_STAT_STATE m.1) axHOLD).clr (Reg.DV_AX_STAT_GROUP m.1)) t
    (t.complete g.hdr (endStatus ecREACHED g.deferred) g.mask ecREACHED, none)
  else (t, some { g with s := s', v := q.1 })

/-! ## The beat of an axis (R259, R265, R266, R269, R280) -/

/-- The setting of an axis is invalid (R280). -/
def State.axBad (s : State) (a : Nat) : Bool :=
  let lo := s.rdS (Reg.DV_LIM_LO_LO a)
  let hi := s.rdS (Reg.DV_LIM_HI_HI a)
  let sp := s.rdS (Reg.DV_AX_CFG_STOW_POS a)
  (s.limMode a ≠ 0 && hi < lo) || (s.flag (Reg.DV_AX_CFG_STOW_EN a) && s.limMode a ≠ 0 && s.posValid a && (sp < lo || hi < sp))

/-- Settings act at the boundary (R280): an invalid one holds the axis OFF; a change of USE or INVERT on an energised axis
ends its move with CONFIG and muzzles it. -/
def applyAxCfg (s : State) (a : Nat) : State :=
  let x := s.axis a
  let bad := s.axBad a
  let u := if bad then 0 else s.axUse a
  let inv := s.rd (Reg.DV_AX_CFG_INVERT a)
  let t := if u ≠ x.useNow || inv ≠ x.invNow then
      let t := if x.on || s.axState a = axWAIT || s.axState a = axMOVING then muzzleAxis s a axMUZZLED ecCONFIG else s
      let st := t.axState a
      if u ≠ x.useNow then (if st = axLOCKOUT || st = axFAULT then t else t.wr (Reg.DV_AX_STAT_STATE a) (if u = 0 then axOFF else axMUZZLED)) else t
    else s
  let t := t.modAxis a (fun y => { y with useNow := u, invNow := inv, limLo := s.rdS (Reg.DV_LIM_LO_LO a), limHi := s.rdS (Reg.DV_LIM_HI_HI a), bad := bad })
  let t := t.wrB (Reg.DV_AX_STAT_CFG_BAD a) bad
  let t := t.wrB (Reg.DV_AX_STAT_ARENA a) (s.arenaAxis a)
  t.when (bad && !x.bad) (fun w => w.bark 0x30 0x3010 true [a])

/-- SET_POS takes effect on an axis at rest (R265). -/
def applySetPos (s : State) (a : Nat) : State :=
  match (s.axis a).setPos with
  | none => s
  | some v =>
    let t := s.modAxis a (fun y => { y with setPos := none })
    if s.axState a = axMOVING then t
    else (t.modAxis a (fun y => { y with pos := v * uStep, seqFrom := v, hist := [], histBn := 0 })).set (Reg.DV_AX_STAT_POS_VALID a)

/-- A motion ends and the axis stands still; a stow move ends muzzled (R29, R262). -/
def finishMotion (s : State) (a cause : Nat) : State :=
  let x := s.axis a
  let t := (s.modAxis a (fun y => { y with vel := 0, motion := .still, stillSince := s.run })).wr (Reg.DV_AX_STAT_STATE a) axHOLD
  let t := postEnd t a x.motion cause
  match x.motion with
  | .move m =>
    if m.stow then deenergise (t.modAxis a (fun y => { y with stowing := y.stowing && cause ≠ ecREACHED })) a axMUZZLED else t
  | .still | .home _ | .arena | .group => t

/-- Advance an axis by a step to a new velocity. -/
def advance (s : State) (a : Nat) (v step : Int) : State := s.modAxis a (fun y => { y with vel := v, pos := y.pos + step })

/-- Velocity motion (VEL, or an arena's demand): the limit approached, if limits apply, is a target to stop on (R266). -/
def velocityBeat (s : State) (a : Nat) (d acc dec : Int) : State × Option Bool :=
  let x := s.axis a
  let up := decide (0 < d || (d = 0 && 0 < x.vel))
  let lim := (limBase x + (if up then x.limHi else x.limLo)) * uStep
  let r := lim - x.pos
  let outward := if up then decide (r ≤ 0) else decide (0 ≤ r)
  if s.limApply a && (d ≠ 0 || x.vel ≠ 0) then
    if outward && x.vel = 0 && d ≠ 0 then (s, some up)
    else if outward then
      let v := towards x.vel 0 acc dec
      (advance s a v v, if v = 0 then some up else none)
    else
      let q := approach r x.vel (iabs d : Int) acc dec
      let t := advance s a q.1 q.2
      (t, if (t.axis a).pos = lim && q.1 = 0 then some up else none)
  else let v := towards x.vel d acc dec; (advance s a v v, none)

/-- One beat of a moving axis (R259). -/
def motionBeat (s : State) (a : Nat) : State :=
  let x := s.axis a
  match x.motion with
  | .still | .group => s
  | .move m =>
    let acc := s.accFor a m.acc
    let dec := s.decFor a m.dec
    if m.kind = 2 then
      let d := clamp (-(s.vmaxOf a m.vmax)) (s.vmaxOf a m.vmax) (velOf m.value)
      let q := velocityBeat s a d acc dec
      match q.2 with
      | some hi => finishMotion (hitLimit q.1 a hi) a ecLIMIT
      | none =>
        if (q.1.axis a).vel = d then
          if d = 0 then finishMotion q.1 a ecREACHED
          else (postEnd q.1 a x.motion ecREACHED).modAxis a (fun y => { y with motion := .move { m with hdr := none } })
        else q.1
    else
      let vmax := if m.stow then speedOf m.vmax else s.vmaxOf a m.vmax
      let tgt := if s.limApply a then clamp (limBase x + x.limLo) (limBase x + x.limHi) m.value else m.value
      let q := approach (tgt * uStep - x.pos) x.vel vmax acc dec
      let t := advance s a q.1 q.2
      if (t.axis a).pos = tgt * uStep && q.1 = 0 then
        (if tgt = m.value then finishMotion t a ecREACHED else finishMotion (hitLimit t a (decide (tgt < m.value))) a ecLIMIT)
      else t
  | .home h =>
    let acc := s.accFor a 0
    let dec := s.decFor a 0
    let vm := s.vmaxOf a 0
    let spent := decide ((h.dist : Int) ≤ (iabs (axisP x - h.start) : Int))
    let h' := if h.pEv.isNone && spent then { h with lost := true } else h
    let d := if h'.pEv.isSome || h'.lost then 0 else clamp (-vm) vm (velOf h.vel)
    let v := towards x.vel d acc dec
    let t := (advance s a v v).modAxis a (fun y => { y with motion := .home h' })
    if v = 0 && d = 0 then
      match h'.pEv with
      | some pe =>
        let t := t.modAxis a (fun y => { y with pos := (h.homePos + (axisP y - pe)) * uStep, seqFrom := h.homePos + (axisP y - pe), hist := [], histBn := 0 })
        let t := ((t.set (Reg.DV_AX_STAT_POS_VALID a)).bark 0x30 0x300C false [a, unsigned 32 pe])
        finishMotion t a ecREACHED
      | none => finishMotion t a ecNOTFOUND
    else t
  | .arena =>
    let vm := min (speedOf (match s.arenaOn 1 a with | some g => max 1 (min 10000 (s.eff (Reg.LE_ARENA_CFG_VMAX g))) | none => 1)) (s.vmaxOf a 0)
    let d := if s.halted then 0 else rne (x.demand * vm) 32768
    let q := velocityBeat s a d (s.accFor a 0) (s.decFor a 0)
    match q.2 with
    | some hi => (hitLimit q.1 a hi)
    | none =>
      if (q.1.axis a).vel = 0 && d = 0 then
        (q.1.modAxis a (fun y => { y with motion := .still, stillSince := q.1.run })).wr (Reg.DV_AX_STAT_STATE a) axHOLD
      else q.1

/-- Keep p for this boundary, the last 65,536 (R267). -/
def keepHist (s : State) (a : Nat) : State :=
  s.modAxis a (fun y => { y with hist := (axisP y :: (if y.histBn + 1 = s.bn then y.hist else [])).take 65536, histBn := s.bn,
                                 seqFrom := axisP y, seqRun := s.run })

/-- Every moving axis passes its last p to the history, and begins a beat of its sequencer there. -/
def keepHists (s : State) : State := (List.range 16).foldl (fun u a => if u.axState a = axMOVING then keepHist u a else u) s

/-- An ENERGISE whose HOLD_W is granted (R281). -/
def applyEnergise (s : State) (a : Nat) : State :=
  if (s.axis a).energise && s.hasGrant 0 (axCid a) && s.axState a = axMUZZLED then
    (s.modAxis a (fun y => { y with energise := false, on := true, runCur := false, stillSince := s.run })).wr (Reg.DV_AX_STAT_STATE a) axHOLD
  else s

/-- What falls due for an axis at a beat boundary before anything moves: settings, SET_POS, a granted ENERGISE. -/
def settleAxis (s : State) (a : Nat) : State := applyEnergise (applySetPos (applyAxCfg s a) a) a

/-- One axis moves at one beat boundary, and shows where it stands. -/
def axisBeat (s : State) (a : Nat) : State :=
  let t := if s.axState a = axMOVING then motionBeat s a else s
  if (t.axis a).useNow = 0 && t.axState a = axOFF then t else showAxis t a

/-- Every axis has come to rest muzzled in STOW: the governor lowers the drive budget to zero (R29). -/
def stowSettle (s : State) : State :=
  if s.mode = mSTOW && !s.hub.stowDone && (List.range 16).all (fun a =>
      (s.axis a).motion = .still && (s.axis a).next.isNone && (s.axis a).waiting.isNone && !(s.axis a).on) then
    { s with hub := { s.hub with stowDone := true } }
  else s

/-- A user table that was validated becomes active at the boundary (R255). -/
def utabApply (s : State) : State :=
  match s.dv.utabNext with
  | none => s
  | some (tab, es) =>
    let act := (List.range 256).foldl (fun m i => m.put 0 (256 * tab + i) (es.getD i 0)) s.dv.utabAct
    (({ s with dv := { s.dv with utabAct := act, utabNext := none } }).set Reg.DV_UTAB_CTRL_DONE).bark 0x30 0x3011 false [tab]

/-- Run `f` over the groups `gs`; those that stay are the card's groups. -/
def groupsOver (f : State → Group → State × Option Group) (gs : List Group) (s : State) : State :=
  let q := gs.foldl (fun (acc : State × List Group) g =>
    let r := f acc.1 g
    (r.1, match r.2 with | none => acc.2 | some k => acc.2 ++ [k])) ({ s with dv := { s.dv with groups := [] } }, [])
  { q.1 with dv := { q.1.dv with groups := q.2 } }

/-- The groups that wait, and those accepted since the last boundary, start where they may. -/
def groupsStart (s : State) : State :=
  let nxt := if s.d0Waits then [] else s.dv.groupNext
  groupsOver (fun u g => if g.waiting then groupStart u g else (u, some g)) (s.dv.groups ++ nxt)
    { s with dv := { s.dv with groupNext := if s.d0Waits then s.dv.groupNext else [] } }

/-- The groups that run advance. -/
def groupsBeat (s : State) : State := groupsOver (fun u g => if g.waiting then (u, some g) else groupBeat u g) s.dv.groups s

/-- The beat of the drive card: the choppers over the beat that ends; then tables, settings, starting groups; then every motion. -/
def driveBeat (s : State) (chops : List ChopIn) : State :=
  if s.domOn 18 then
    let t := (List.range 16).foldl (chopAxis chops) s
    let t := groupsStart ((List.range 16).foldl settleAxis (utabApply t))
    stowSettle ((List.range 16).foldl axisBeat (groupsBeat (keepHists t)))
  else s

def execDriveBeatUpdate (chops : List ChopIn) (s : State) : Host.Outcome State Fault Refusal := answer s (driveBeat s chops)

/-! ## Arena demands on an axis (R269) -/

/-- A velocity demand of the arena that drives the axis, Q1.15. It energises a muzzled axis; a demand away from the range
is held at zero (R266). -/
def arenaDemand (s : State) (a : Nat) (d : Int) : State :=
  let x := s.axis a
  let ok := s.axUse a = 1 && !(s.limMode a = 2 && !s.posValid a) && !s.halted && s.bridgePwr && s.d0On
  let p := axisP32 x
  let d' := if s.limApply a && ((p < x.limLo && d < 0) || (x.limHi < p && 0 < d)) then 0 else d
  if !ok then s
  else
    let t := if s.axState a = axMUZZLED then
      (s.modAxis a (fun y => { y with on := true, runCur := true, stillSince := s.run })).wr (Reg.DV_AX_STAT_STATE a) axHOLD else s
    if t.axState a = axHOLD || (t.axState a = axMOVING && x.motion = .arena) then
      if d' = 0 && (t.axis a).vel = 0 then t.modAxis a (fun y => { y with demand := 0 })
      else (t.modAxis a (fun y => { y with demand := d', motion := .arena, runCur := true })).wr (Reg.DV_AX_STAT_STATE a) axMOVING
    else t

/-! ## Faults (R258, R270) -/

/-- A half-bridge conflict: FAULT, and LOCKOUT on the third within 60 s (R258). -/
def hbConflict (s : State) (a : Nat) : State :=
  let recent := (s.axis a).conflicts.filter (fun t => s.run < t + 60 * cclkSec) ++ [s.run]
  let third := decide (3 ≤ recent.length)
  let t := ((s.set (Reg.DV_AX_STAT_HB_CONFLICT a)).count Reg.DV_CNT_HB_CONFLICTS)
  let t := if s.axState a = axLOCKOUT then t else muzzleAxis t a (if third then axLOCKOUT else axFAULT) ecFAULT
  let t := t.modAxis a (fun y => { y with conflicts := recent })
  if third then t.bark 0x30 0x300D true [a] else t.bark 0x30 0x3001 true [a]

def execDvHbConflict (a : Nat) (s : State) : Host.Outcome State Fault Refusal := guardItem (a < 16) (answer s (hbConflict s a))

/-- A current of `ma` mA in output `o`, above 6.0 A, or above 3.0 A in HEATER use: in STEPPER use it muzzles the axis; in HEATER use it
switches that output off (R270). -/
def overcurrent (s : State) (a o ma : Nat) : State :=
  let t := (s.set (Reg.DV_AX_STAT_OVERCURRENT a)).count Reg.DV_CNT_OVERCURRENTS
  if ma ≤ (if (s.axis a).useNow = 2 then 3000 else 6000) then s
  else if (s.axis a).useNow = 2 then
    ((t.wr (Reg.DV_AX_STAT_HEAT_OFF a) (setBit (s.rd (Reg.DV_AX_STAT_HEAT_OFF a)) (o % 4) true)).set (Reg.DV_AX_STAT_HEAT_SHORT a)).bark 0x30 0x300E true [a, o % 4]
  else (if s.axState a = axLOCKOUT then t else muzzleAxis t a axFAULT ecFAULT).bark 0x30 0x3002 true [a]

def execDvOvercurrent (a out ma : Nat) (s : State) : Host.Outcome State Fault Refusal :=
  guardItem (a < 16 && out < 4) (answer s (overcurrent s a out ma))

/-- A bridge temperature: above 120 °C flags HOT at its onset, above 145 °C muzzles at its onset (R270). An axis that is OFF keeps its
switches open and reads FAULT all the same. -/
def overtemp (s : State) (a : Nat) (temp : Int) : State :=
  let t := s.wrS (Reg.DV_AX_STAT_TEMP a) temp
  let t := if 120 < temp && !s.flag (Reg.DV_AX_STAT_HOT a) then (t.set (Reg.DV_AX_STAT_HOT a)).barkEvery cclkSec a 0x30 0x3003 true [a] else t
  if 145 < temp && !(s.axis a).otFault then
    let t := (t.set (Reg.DV_AX_STAT_OVERTEMP a)).modAxis a (fun y => { y with otFault := true })
    (if s.axState a = axLOCKOUT then t else muzzleAxis t a axFAULT ecFAULT).bark 0x30 0x3003 true [a]
  else t

def execDvOvertemp (a : Nat) (temp : Int) (s : State) : Host.Outcome State Fault Refusal :=
  guardItem (a < 16) (answer s (overtemp s a temp))

/-- Below 110 °C HOT clears, and CLR_FAULT may leave an overtemperature FAULT (R270). -/
def hotClear (s : State) (a : Nat) (temp : Int) : State :=
  if temp < 110 then ((s.wrS (Reg.DV_AX_STAT_TEMP a) temp).clr (Reg.DV_AX_STAT_HOT a)).modAxis a (fun y => { y with otFault := false })
  else s

def execDvHotClear (a : Nat) (temp : Int) (s : State) : Host.Outcome State Fault Refusal :=
  guardItem (a < 16) (answer s (hotClear s a temp))

/-- A phase reads open after 1 ms, or normal again after 1 ms (R270): a flag, no muzzle. -/
def openPhase (s : State) (a ph : Nat) : State :=
  let f := if ph = 0 then Reg.DV_AX_STAT_OPEN_A a else Reg.DV_AX_STAT_OPEN_B a
  let c := if ph = 0 then (s.axis a).chopA else (s.axis a).chopB
  let lasts (o : Option Nat) : Bool := match o with | none => false | some t => s.elapsed t cclkMs
  if lasts c.openSince then
    (if s.flag f then s else ((s.set f).set (Reg.DV_AX_STAT_OPEN_SEEN a)).barkEvery cclkSec a 0x30 0x3004 true [a])
  else if lasts c.okSince then s.clr f
  else s

def execDvOpenPhase (a phase : Nat) (s : State) : Host.Outcome State Fault Refusal :=
  guardItem (a < 16 && phase < 2) (answer s (openPhase s a phase))

/-- Bridge power is lost, or back (R252, R270): every axis is unpowered and its moves end with FAULT. -/
def bridgeLost (s : State) : State :=
  if s.bridgePwr then (muzzleAxes (s.clr Reg.DV_CARD_STAT_BRIDGE_PWR) axMUZZLED ecFAULT).bark 0x30 0x300B true [] else s

def bridgeMeasure (s : State) (vb : Nat) : State :=
  let t := s.wrSat Reg.DV_CARD_STAT_BRIDGE_V vb
  if s.domOn 19 && 3000 ≤ vb then t.set Reg.DV_CARD_STAT_BRIDGE_PWR else bridgeLost t

def execDvBridgePwr (vb : Nat) (s : State) : Host.Outcome State Fault Refusal := answer s (bridgeMeasure s vb)

/-! ## /HALT (R19, R270, R403) -/

/-- The instant since which the channels disagree. -/
def haltWatch (s : State) (t : State) : State :=
  let dis := decide (t.dv.haltA ≠ t.dv.haltB)
  { t with dv := { t.dv with haltDis := if dis then (match s.dv.haltDis with | none => some s.run | some x => some x) else none,
                             haltBarked := none } }

/-- /HALT on one channel: it muzzles every bridge, and moves end with HALTED. -/
def haltAssert (s : State) (ch : Nat) : State :=
  let was := s.halted
  let t := haltWatch s { s with dv := { s.dv with haltA := s.dv.haltA || ch = 0, haltB := s.dv.haltB || ch = 1 } }
  let t := t.set Reg.DV_CARD_STAT_HALT
  if was then t else (muzzleAxes t axHALTED ecHALTED).bark 0x30 0x300A true []

def execHaltAssert (ch : Nat) (s : State) : Host.Outcome State Fault Refusal := guardItem (ch < 2) (answer s (haltAssert s ch))

/-- /HALT released on one channel: only when both are, the halted axes read MUZZLED. -/
def haltRelease (s : State) (ch : Nat) : State :=
  let t := haltWatch s { s with dv := { s.dv with haltA := s.dv.haltA && ch ≠ 0, haltB := s.dv.haltB && ch ≠ 1 } }
  if t.halted then t
  else (List.range 16).foldl (fun u a => if u.axState a = axHALTED then u.wr (Reg.DV_AX_STAT_STATE a) axMUZZLED else u) (t.clr Reg.DV_CARD_STAT_HALT)

def execHaltRelease (ch : Nat) (s : State) : Host.Outcome State Fault Refusal := guardItem (ch < 2) (answer s (haltRelease s ch))

/-- The channels have disagreed for more than 100 ms (R403). -/
def haltDiscrepancy (s : State) : State :=
  match s.dv.haltDis with
  | none => s
  | some t =>
    let ch := if s.dv.haltA then 0 else 1
    if s.elapsed t (100 * cclkMs) && s.dv.haltBarked ≠ some ch then
      ({ s with dv := { s.dv with haltBarked := some ch } }).bark 0x30 0x3012 true [ch]
    else s

def execDvHaltDiscrepancy (s : State) : Host.Outcome State Fault Refusal := answer s (haltDiscrepancy s)

/-! ## Axis commands (R265, R270, R281) -/

def setPosOp (s : State) (a : Nat) (v : Int) : State :=
  let t := s.wr (Reg.DV_AX_CTRL_VALUE a) (unsigned 32 v)
  if s.axState a = axMOVING then t else t.modAxis a (fun y => { y with setPos := some (signed 32 (unsigned 32 v)) })

def execDvSetPos (src : WrSrc) (a : Nat) (value : Int) (s : State) : Host.Outcome State Fault Refusal :=
  guardItem (a < 16) (answer s (s.write src .DV_AX_CTRL 0 a true (fun t => (setPosOp t a value).journalB src .DV_AX_CTRL 0 a 0
    (leBytes 4 1 ++ leBytes 4 (unsigned 32 value)))))

/-- CLR_FAULT: leave FAULT, once below 110 °C after an overtemperature, and clear heater trips (R270). Under /HALT the axis then reads
HALTED, and one without use OFF (DEDUCED). -/
def clrFaultOp (s : State) (a : Nat) : State :=
  let t := s.wr (Reg.DV_AX_STAT_HEAT_OFF a) 0
  if s.axState a = axFAULT && !(s.axis a).otFault then
    t.wr (Reg.DV_AX_STAT_STATE a) (if (s.axis a).useNow = 0 then axOFF else if s.halted then axHALTED else axMUZZLED)
  else t

def execDvClrFault (src : WrSrc) (a : Nat) (s : State) : Host.Outcome State Fault Refusal :=
  guardItem (a < 16) (answer s (s.write src .DV_AX_CTRL 0 a true (fun t => (clrFaultOp t a).journalW src .DV_AX_CTRL 0 a 2)))

/-- MUZZLE: de-energise; on a moving axis, STOP first (R281). No leash refuses it (R423). -/
def muzzleOp (s : State) (a : Nat) : State :=
  muzzleLive (if s.axState a = axMOVING then stopAxis s a else s) a (if s.halted then axHALTED else axMUZZLED) ecSTOPPED

def execDvMuzzle (src : WrSrc) (a : Nat) (s : State) : Host.Outcome State Fault Refusal :=
  guardItem (a < 16) (answer s (s.write src .DV_AX_CTRL 0 a false (fun t => (muzzleOp t a).journalW src .DV_AX_CTRL 0 a 4)))

/-- ENERGISE: an axis at rest is energised at I_HOLD once HOLD_W is granted (R281). -/
def energiseOp (s : State) (a : Nat) : State :=
  if s.axState a = axMUZZLED && s.axUse a = 1 && s.modeDrives && !s.halted && s.bridgePwr && s.d0On then
    (s.modAxis a (fun y => { y with energise := true })).request 0 1 (axCid a) (s.holdW a)
  else s

def execDvEnergise (src : WrSrc) (a : Nat) (s : State) : Host.Outcome State Fault Refusal :=
  guardItem (a < 16) (answer s (s.write src .DV_AX_CTRL 0 a true (fun t => (energiseOp t a).journalW src .DV_AX_CTRL 0 a 8)))

def dvCnts : List Fld := [Reg.DV_CNT_HB_CONFLICTS, Reg.DV_CNT_OVERCURRENTS, Reg.DV_CNT_INTERRUPTS, Reg.DV_CNT_BUDGET_DENIED]

def execDvCntClr (src : WrSrc) (clr : Nat) (s : State) : Host.Outcome State Fault Refusal :=
  answer s (s.write src .DV_CNT_CLR 0 0 false (fun t => (t.clearCnts dvCnts clr).journalW src .DV_CNT_CLR 0 0 clr))

/-! ## User tables (R255) -/

/-- DV_UTAB_SEL as it acts: 0 acts as 1. -/
def State.utabSel (s : State) : Nat := max 1 (s.rd Reg.DV_UTAB_SEL_TAB)

def utabData (s : State) (d : Nat) : State :=
  let a := s.rd Reg.DV_UTAB_ADDR_ADDR
  let t := { s with dv := { s.dv with utabStg := s.dv.utabStg.put 0 (256 * s.utabSel + a) (d % 65536) } }
  (t.wr Reg.DV_UTAB_DATA_DATA d).wr Reg.DV_UTAB_ADDR_ADDR (a + 1)

def execDvUtabData (src : WrSrc) (data : Nat) (s : State) : Host.Outcome State Fault Refusal :=
  answer s (s.write src .DV_UTAB_DATA 0 0 true (fun t => (utabData t data).journalW src .DV_UTAB_DATA 0 0 data))

/-- The check of a staging table: 0 valid, 1 an entry with bit 15 set, 2 an entry above its predecessor. -/
def utabCheck (s : State) (tab : Nat) : Nat :=
  let e (i : Nat) : Nat := s.dv.utabStg.get 0 (256 * tab + i)
  if (List.range 256).any (fun i => 0x8000 ≤ e i) then 1
  else if (List.range 255).any (fun i => e i < e (i + 1)) then 2 else 0

def utabActivate (s : State) : State :=
  let tab := s.utabSel
  if utabCheck s tab = 0 then
    { s with dv := { s.dv with utabNext := some (tab, (List.range 256).map (fun i => s.dv.utabStg.get 0 (256 * tab + i))) } }
  else (s.set Reg.DV_UTAB_CTRL_REJECT).wr Reg.DV_UTAB_CTRL_REASON (utabCheck s tab)

def execDvUtabActivate (src : WrSrc) (s : State) : Host.Outcome State Fault Refusal :=
  answer s (s.write src .DV_UTAB_CTRL 0 0 true (fun t => (utabActivate t).journalW src .DV_UTAB_CTRL 0 0 1))

def utabRevert (s : State) : State :=
  let tab := s.utabSel
  { s with dv := { s.dv with utabStg := (List.range 256).foldl (fun m i => m.put 0 (256 * tab + i) (s.dv.utabAct.get 0 (256 * tab + i))) s.dv.utabStg } }

def execDvUtabRevert (src : WrSrc) (s : State) : Host.Outcome State Fault Refusal :=
  answer s (s.write src .DV_UTAB_CTRL 0 0 true (fun t => (utabRevert t).journalW src .DV_UTAB_CTRL 0 0 2))

/-! ## Heaters (R271, R272) -/

/-- An axis in HEATER use may apply its duties in this mode (R279). -/
def State.heatMode (s : State) (a : Nat) : Bool :=
  s.d0On && s.bridgePwr && !s.halted && (s.mode = mRUN || s.mode = mDEGRADED || (s.mode = mCOMMISSION && (s.axis a).heatLive))

/-- The duty demanded of output `o`: the arena that names it, as max(0, out), or DV_HEAT, where a negative duty acts as 0. -/
def State.heatWant (s : State) (a o : Nat) : Nat :=
  match s.arenaOn 2 (4 * a + o) with
  | some g => (max 0 (s.arena g).outNow).toNat
  | none => (max 0 (s.rdS (Reg.DV_HEAT_DUTY a o))).toNat

/-- The reservation an axis in HEATER use needs is held: its own RUN_W, or the arena's. -/
def State.heatFunded (s : State) (a o : Nat) : Bool :=
  match s.arenaOn 2 (4 * a + o) with
  | some g => s.eff (Reg.LE_ARENA_CFG_RES_W g) = 0 || s.hasGrant 0 (0x30 + g)
  | none => s.hasGrant 0 (axCid a)

/-- With HEAT_FC the drive applies d × (HEAT_VREF / V_b)², clamped to 1, in steps of 1/4,096 (R271). -/
def State.heatDuty (s : State) (a d : Nat) : Nat :=
  let vref := max 36 (s.rd Reg.DV_CFG_HEAT_VREF) * 100
  let vb := s.rd Reg.DV_CARD_STAT_BRIDGE_V
  if s.flag (Reg.DV_AX_CFG_HEAT_FC a) && vb ≠ 0 then min 4096 (rne ((d * vref * vref * 4096 : Nat) : Int) (32768 * vb * vb)).toNat
  else (rne ((d * 4096 : Nat) : Int) 32768).toNat

/-- An axis in HEATER use asks for RUN_W when an output first has a non-zero duty (R272). -/
def heatAsk (s : State) (a : Nat) : State :=
  if s.axUse a = 2 && s.heatMode a && (s.axState a = axMUZZLED || s.axState a = axHOLD) && (List.range 4).any (fun o => s.heatWant a o ≠ 0 && (s.arenaOn 2 (4 * a + o)).isNone)
      && !s.hasGrant 0 (axCid a) && !s.waitsFor 0 (axCid a) then
    ((s.request 0 2 (axCid a) (s.runW a)).wr (Reg.DV_AX_STAT_STATE a) axWAIT).bark 0x30 0x3008 false [a]
  else s

/-- The PWM period in beats: 64 × 2^HEAT_PER, 7 acting as 6 (R271). -/
def State.heatBeats (s : State) : Nat := 64 * 2 ^ min 6 (s.rd Reg.DV_CFG_HEAT_PER)

/-- The high-side switch of output `o` is on at the run-clock instant `r` (R271): its on-interval begins o/4 of a period after the
boundary and lasts the duty; one that reaches over the next boundary runs on there (DEDUCED). -/
def heatIsOn (x : Axis) (o r : Nat) : Bool :=
  let per := x.heatLen * cclkBeat
  let t := 4096 * (r - x.heatAt)
  let b := 1024 * o * per
  (b ≤ t && t < b + x.duty.getD o 0 * per) || t + 4096 * per < b + x.dutyWas.getD o 0 * per

/-- The on-time of output `o` in a period, in units of 1/4,096 CCLK cycle. -/
def heatOnTime (x : Axis) (o : Nat) : Nat := x.duty.getD o 0 * x.heatLen * cclkBeat

/-- The current `ma` of heater output `o` while on, over a period in which it is on for at least 10 µs (R270): below 50 mA the output reads
open; a period with normal current clears it. -/
def heatOpen (s : State) (a o ma : Nat) : State :=
  let m := s.rd (Reg.DV_AX_STAT_HEAT_OPEN a)
  if (s.axis a).useNow ≠ 2 || 10 * heatOnTime (s.axis a) o < 4096 * 24576 then s
  else if ma < 50 then
    let t := s.wr (Reg.DV_AX_STAT_HEAT_OPEN a) (setBit m o true)
    if bit m o then t else (t.set (Reg.DV_AX_STAT_OPEN_SEEN a)).barkEvery cclkSec a 0x30 0x3005 true [a, o]
  else s.wr (Reg.DV_AX_STAT_HEAT_OPEN a) (setBit m o false)

def execDvHeatOpen (a out ma : Nat) (s : State) : Host.Outcome State Fault Refusal :=
  guardItem (a < 16 && out < 4) (answer s (heatOpen s a out ma))

/-- A PWM period boundary applies the duties of the four outputs, and asks for the reservation of duties that now may act (R271, R272).
An axis that drives a heater reads HOLD (DESIGN CHOICE: the spec names no STATE for it). -/
def heatPeriod (s0 : State) (a : Nat) : State :=
  if (s0.axis a).useNow = 2 then
    let s := heatAsk s0 a
    let d (o : Nat) : Nat :=
      if s.heatMode a && s.heatFunded a o && !bit (s.rd (Reg.DV_AX_STAT_HEAT_OFF a)) o && s.axState a ≠ axFAULT && s.axState a ≠ axLOCKOUT
      then s.heatDuty a (s.heatWant a o) else 0
    let ds := [d 0, d 1, d 2, d 3]
    let zero := decide ((List.range 4).all (fun o => s.heatWant a o = 0))
    let t := s.modAxis a (fun y => { y with
      duty := ds, dutyWas := y.duty, heatAt := s.run, heatLen := s.heatBeats,
      zeroSince := if zero then (match y.zeroSince with | none => some s.run | some x => some x) else none })
    if ds.any (fun d => d ≠ 0) && (t.axState a = axMUZZLED || t.axState a = axWAIT) then
      (t.modAxis a (fun y => { y with on := true })).wr (Reg.DV_AX_STAT_STATE a) axHOLD
    else t
  else s0

def execHeatPeriod (a : Nat) (s : State) : Host.Outcome State Fault Refusal := guardItem (a < 16) (answer s (heatPeriod s a))

/-- A write of DV_HEAT: outputs that an enabled arena drives discard it (R272); in COMMISSION it lets the axis act (R279). -/
def heatWrite (s : State) (a : Nat) (d : Nat → Nat) : State :=
  let t := (List.range 4).foldl (fun u o => if (s.arenaOn 2 (4 * a + o)).isSome then u else u.wr (Reg.DV_HEAT_DUTY a o) (d o)) s
  heatAsk (t.when (s.mode = mCOMMISSION) (fun u => u.modAxis a (fun y => { y with heatLive := true }))) a

def heatWord (d0 d1 d2 d3 o : Nat) : Nat := if o = 0 then d0 else if o = 1 then d1 else if o = 2 then d2 else d3

def execDvHeatWrite (src : WrSrc) (a d0 d1 d2 d3 : Nat) (s : State) : Host.Outcome State Fault Refusal :=
  guardItem (a < 16) (answer s (s.write src .DV_HEAT 0 a true (fun t => (heatWrite t a (heatWord d0 d1 d2 d3)).journalB src .DV_HEAT 0 a 0
    (leBytes 2 d0 ++ leBytes 2 d1 ++ leBytes 2 d2 ++ leBytes 2 d3))))

/-- All four outputs have held zero for 1 s: the reservation returns (R272). -/
def heaterRelease (s : State) (a : Nat) : State :=
  match (s.axis a).zeroSince with
  | none => s
  | some t =>
    if (s.axis a).useNow = 2 && s.elapsed t cclkSec && s.hasGrant 0 (axCid a) then
      ((s.modAxis a (fun y => { y with duty := [0, 0, 0, 0], zeroSince := none, on := false })).wr (Reg.DV_AX_STAT_STATE a) axMUZZLED).release 0 (axCid a) 0
    else s

def execHeaterRelease (a : Nat) (s : State) : Host.Outcome State Fault Refusal := guardItem (a < 16) (answer s (heaterRelease s a))

/-! ## Stow (R29) -/

/-- On entry to STOW an axis with a stow position and POS_VALID is sent there; every other axis is muzzled at once (R29). -/
def stowAxis (s : State) (a : Nat) : State :=
  let can := s.flag (Reg.DV_AX_CFG_STOW_EN a) && s.posValid a && s.axUse a = 1 && !s.halted && s.bridgePwr && s.d0On
    && s.axState a ≠ axFAULT && s.axState a ≠ axLOCKOUT && !(s.axis a).bad
  let t := if s.inGroup a then stopGroupsOf s a ecMODE else s
  let t := stopPulses t a ecMODE
  let t := (endWaiting t a ecMODE).modAxis a (fun y => { y with stowing := can && t.posValid a })
  if can && t.posValid a then
    queueStart t a (.move { hdr := none, kind := 0, value := s.rdS (Reg.DV_AX_CFG_STOW_POS a), vmax := max 1 (s.rd (Reg.DV_AX_CFG_STOW_V a)),
                            acc := 0, dec := 0, deferred := false, stow := true })
  else if s.axState a = axOFF || s.axState a = axFAULT || s.axState a = axLOCKOUT then t
  else deenergise t a (if s.halted then axHALTED else axMUZZLED)

/-- An axis that was sent to its stow position and has not reached it within STOW_TIME is muzzled, whatever ended or delayed its move
(R29). -/
def stowFail (s : State) (a : Nat) : State :=
  if s.mode = mSTOW && (s.axis a).stowing && s.elapsed s.hub.modeAt (max 1 (s.rd Reg.HUB_GUARD_STOW_TIME) * cclkSec) then
    ((muzzleLive s a (if s.halted then axHALTED else axMUZZLED) ecMODE).modAxis a (fun y => { y with stowing := false })).bark 1 0x0115 true [a]
  else s

def execStowAxisFail (a : Nat) (s : State) : Host.Outcome State Fault Refusal := guardItem (a < 16) (answer s (stowFail s a))

end Sys2Proof.Machine
end

