-- ==== Sys2Proof/Machine/Analogue.lean ====
section
/-! DEFINITION. Analogue outputs (R273 to R280): codes, slew, the sine law, the clear inputs and the faults. -/

namespace Sys2Proof.Machine

/-- A 24-bit code as a number of the range: signed at ±10.24 V, unsigned at 0 to 24 mA (R273). -/
def codeVal (range code : Nat) : Int := if range = 0 then signed 24 code else ((code % 2 ^ 24 : Nat) : Int)

/-- The least and the greatest code of a range. -/
def codeLo (range : Nat) : Int := if range = 0 then -8388608 else 0
def codeHi (range : Nat) : Int := if range = 0 then 8388607 else 16777215

/-- The greatest FREQ, 10 kHz: 10,000 × 2^33 / 750 (R277). -/
def freqMax : Nat := 114532461227

/-- The sine law of R277 at the present edge, from the fields in force: the code before clipping. n counts MCLK cycles from AT 0 (R73). -/
def State.sineCode (s : State) (o : Nat) : Int :=
  let y := s.ao o
  let θ := y.freqNow * (s.now / 10) + y.phaseNow * 2 ^ 32
  codeVal y.rangeNow y.ofsNow + rne ((y.ampNow : Int) * sinTurn θ) (2 ^ 128)

/-- The code an arena's output asks for (R243): ±10.24 V, or 4 mA + max(0, out) × 16 mA. -/
def arenaCode (range : Nat) (out : Int) : Int :=
  if range = 0 then out * 256 else rne ((131072 + 16 * max 0 out) * 512) 24

/-- The clear code of an output, in its present range (R276). -/
def State.clearCode (s : State) (o : Nat) : Int := codeVal (s.ao o).rangeNow (s.rd (Reg.AO_CLEAR_CODE_CODE o))

/-- SRC as it acts: 3 acts as 0. -/
def State.aoSrc (s : State) (o : Nat) : Nat := let k := s.rd (Reg.AO_CFG_SRC o); if k = 3 then 0 else k

/-- The input that clears output `o` is asserted (R19). -/
def State.aoPin (s : State) (o : Nat) : Bool :=
  s.flag (if o < 8 then Reg.DV_CARD_STAT_AOCLR0 else Reg.DV_CARD_STAT_AOCLR1)

/-- The mode lets the output leave its clear code (R28, R279). -/
def State.aoMode (s : State) (o : Nat) : Bool :=
  s.mode = mRUN || s.mode = mDEGRADED || (s.mode = mCOMMISSION && (s.ao o).live)

/-- Every muzzle cause of the output has ended (R386), and its source demands a code. -/
def State.aoFree (s : State) (o : Nat) : Bool :=
  s.aoMode o && s.flag (Reg.AO_CFG_EN o) && s.d0On && !s.aoPin o && !(s.ao o).leashHeld && !s.flag (Reg.AO_STAT_CFG_BAD o)
    && (s.aoSrc o ≠ 1 || (s.ao o).demand.isSome)

/-- The output reserves 0.8 W: current range on the internal loop supply (R274). -/
def State.aoLoop (s : State) (o : Nat) : Bool := (s.ao o).rangeNow = 1 && !(s.ao o).loopNow

/-- Consumer ID of an output (R288). -/
def aoCid (o : Nat) : Nat := 0x40 + o

/-- The code demanded of a free output, before clipping. -/
def State.aoWant (s : State) (o : Nat) : Int :=
  if s.aoSrc o = 0 then codeVal (s.ao o).rangeNow (s.rd (Reg.AO_CODE_CODE o))
  else if s.aoSrc o = 1 then arenaCode (s.ao o).rangeNow ((s.ao o).demand.getD 0)
  else s.sineCode o

/-- Move a code towards a target by at most SLEW × 256 LSB; SLEW 0 is unlimited (R274). -/
def slewTo (cur target : Int) (slew : Nat) : Int :=
  if slew = 0 then target else clamp (cur - (slew * 256 : Nat)) (cur + (slew * 256 : Nat)) target

/-- The code applied now: an output that follows its sine law without a slew limit follows it at every MCLK edge (R277). -/
def State.aoCodeNow (s : State) (o : Nat) : Int :=
  let r := (s.ao o).rangeNow
  if (s.ao o).sineOn && s.rd (Reg.AO_STAT_STATE o) = 3 && s.rd (Reg.AO_CFG_SLEW o) = 0 then clamp (codeLo r) (codeHi r) (s.sineCode o)
  else codeVal r (s.rd (Reg.AO_STAT_CODE_NOW o))

/-- What the output's pin carries: a range and a code. The deglitcher holds it (R275). -/
def State.aoPinOut (s : State) (o : Nat) : Nat × Int :=
  let y := s.ao o
  if s.run < y.heldTill then (y.heldRange, y.heldCode) else (y.rangeNow, s.aoCodeNow o)

/-- The deglitcher holds the pin where it stands for 20 µs from now (R275). -/
def deglitch (s : State) (o : Nat) : State :=
  let p := s.aoPinOut o
  s.modAo o (fun y => { y with heldTill := s.run + cclkUs 20, heldCode := p.2, heldRange := p.1 })

/-- Set the code, and the state of the output. An entry to the clear code, an exit from it, and a change of it while it is in force go
through the deglitcher (R275, R280); ordinary code steps are not held. -/
def setCode (s : State) (o : Nat) (v : Int) (st : Nat) : State :=
  let live := decide (s.rd (Reg.AO_STAT_STATE o) = 3)
  let held := live != decide (st = 3) || (st ≠ 3 && s.aoCodeNow o ≠ v)
  let t := if held && (s.ao o).heldTill ≤ s.run then deglitch s o else s
  (t.wr (Reg.AO_STAT_CODE_NOW o) (unsigned 24 v)).wr (Reg.AO_STAT_STATE o) st

/-- Force an output to its clear code at once (R276, and the muzzles of R386). -/
def clearAo (s : State) (o : Nat) : State :=
  (setCode s o (s.clearCode o) (if s.flag (Reg.AO_CFG_EN o) && s.domOn 18 then 1 else 0)).wr (Reg.AO_STAT_CLIP o) 0

/-- Clear every output. -/
def clearAos (s : State) : State := (List.range 16).foldl clearAo s

/-- The reservation returns once the output needs none: it is disabled, or not an internal current loop (DESIGN CHOICE: the
spec states no return). -/
def aoReserve (s : State) (o : Nat) : State :=
  if (s.hasGrant 1 (aoCid o) || s.waitsFor 1 (aoCid o)) && (!s.aoLoop o || !s.flag (Reg.AO_CFG_EN o)) then
    s.release 1 (aoCid o) 0
  else s

/-- RANGE and LOOP_EXT change at the boundary (R275): the clear code of the old range, the hold, the switch; the new code follows. -/
def aoRange (s : State) (o : Nat) : State :=
  let r := s.rd (Reg.AO_CFG_RANGE o)
  let l := s.flag (Reg.AO_CFG_LOOP_EXT o)
  if r = (s.ao o).rangeNow && l = (s.ao o).loopNow then s
  else
    let t := if r = (s.ao o).rangeNow then s else (clearAo s o).modAo o (fun y => { y with heldTill := 0 })
    let t := (deglitch t o).modAo o (fun y => { y with rangeNow := r, loopNow := l })
    if r = (s.ao o).rangeNow then t else clearAo t o

/-- The sine fields act at the boundary (R277). -/
def aoSine (s : State) (o : Nat) : State :=
  s.modAo o (fun y => { y with sineOn := decide (s.aoSrc o = 2), freqNow := min freqMax (s.rd (Reg.AO_CFG_FREQ o)),
                               phaseNow := s.rd (Reg.AO_CFG_PHASE o), ampNow := s.rd (Reg.AO_CFG_SINE_AMP o),
                               ofsNow := s.rd (Reg.AO_CFG_SINE_OFS o) })

/-- An output that waits for its reservation holds its clear code (R274). -/
def aoWait (s : State) (o : Nat) : State := setCode (s.wr (Reg.AO_STAT_CLIP o) 0) o (s.clearCode o) 2

/-- A free output takes its code: once its reservation is granted, where it leaves its clear code, slewed, and clipped to its range. -/
def aoDrive (s : State) (o : Nat) : State :=
  let r := (s.ao o).rangeNow
  let w := s.aoWant o
  let v := clamp (codeLo r) (codeHi r) w
  if s.aoLoop o && !s.hasGrant 1 (aoCid o) && (s.waitsFor 1 (aoCid o) || v ≠ s.clearCode o) then
    if s.waitsFor 1 (aoCid o) then aoWait s o
    else ((aoWait s o).request 1 1 (aoCid o) 8).bark 0x31 0x3105 false [o]
  else
    (setCode s o (slewTo (s.aoCodeNow o) v (s.rd (Reg.AO_CFG_SLEW o))) 3).wrB (Reg.AO_STAT_CLIP o) (decide (v ≠ w))

/-- The measured current lies more than 0.1 % of full scale below the code (R278): 24 µA. -/
def State.aoShort (s : State) (o : Nat) (i : Int) : Bool :=
  decide (i * 16777216 + 24000 * 16777216 < s.aoCodeNow o * 24000000)

/-- The code is at least 1 mA and the current below 0.05 mA (R278). -/
def State.aoOpenNow (s : State) (o : Nat) (i : Int) : Bool :=
  decide (16777216 ≤ 24 * s.aoCodeNow o) && decide (i < 50000)

/-- Count consecutive beats, or start again. -/
def runCount (b : Bool) (n : Nat) : Nat := if b then n + 1 else 0

/-- Measure an output, its headroom in µV among the rest, and count the consecutive beats of each fault; a fault clears after its beats without (R278). -/
def aoJudge (s : State) (o : Nat) (v i head : Int) : State :=
  let noRoom := decide (head < 500000)
  let t := (s.wrS (Reg.AO_STAT_V_READ o) v).wrS (Reg.AO_STAT_I_READ o) i
  let cur := decide ((s.ao o).rangeNow = 1) && s.rd (Reg.AO_STAT_STATE o) = 3
  let vol := decide ((s.ao o).rangeNow = 0) && s.rd (Reg.AO_STAT_STATE o) = 3
  let t := t.modAo o (fun y => { y with
    low := runCount (cur && noRoom && s.aoShort o i) y.low,
    okay := runCount (!noRoom) y.okay,
    openN := runCount (cur && s.aoOpenNow o i) y.openN,
    overN := runCount (vol && decide (25000000 ≤ i.natAbs)) y.overN })
  let y := t.ao o
  let t := t.when (2 ≤ y.okay) (fun u => u.clr (Reg.AO_STAT_COMPLIANCE o))
  let t := t.when (y.openN = 0) (fun u => u.clr (Reg.AO_STAT_OPEN o))
  t.when (y.overN = 0) (fun u => u.clr (Reg.AO_STAT_OVERLOAD o))

/-- One output at one beat: measured and judged at the code of the last beat, then moved. -/
def aoBeat (s : State) (o : Nat) (v i head : Int) : State :=
  let t := aoReserve (aoSine (aoRange (aoJudge s o v i head) o) o) o
  let t := t.wrB (Reg.AO_STAT_CLR_PIN o) (t.aoPin o)
  if t.aoFree o then aoDrive t o else clearAo t o

/-- AO_BEAT_UPDATE (R274, R278): measured voltages in µV, currents in nA, and the headroom of each stage in µV, 24 V where the row gives
none. Nothing moves while PD18 is off. -/
def aosBeat (s : State) (vs amps head : List Int) : State :=
  if s.domOn 18 then (List.range 16).foldl (fun u o => aoBeat u o (vs.getD o 0) (amps.getD o 0) (head.getD o 24000000)) s
  else s

def execAoBeatUpdate (vs amps head : List Int) (s : State) : Host.Outcome State Fault Refusal :=
  answer s (aosBeat s vs amps head)

/-- An edge of /AOCLR0 or /AOCLR1 (R19, R276): the outputs go to the clear code at once; each edge barks. -/
def aoclrEdge (s : State) (ch : Nat) (on : Bool) : State :=
  let f := if ch = 0 then Reg.DV_CARD_STAT_AOCLR0 else Reg.DV_CARD_STAT_AOCLR1
  if s.flag f = on then s
  else
    let t := s.wrB f on
    let os := (List.range 8).map (fun k => 8 * ch + k)
    let t := if on then os.foldl (fun u o => (clearAo u o).set (Reg.AO_STAT_CLR_PIN o)) t else t
    t.bark 0x31 0x3104 false [8 * ch, b2n on]

def execAoclrEdge (ch : Nat) (on : Bool) (s : State) : Host.Outcome State Fault Refusal :=
  guardItem (ch < 2) (answer s (aoclrEdge s ch on))

/-- A write of AO_CODE (R274, R279): a direct write that an enabled arena's output would take is discarded (R243). -/
def aoCodeWrite (s : State) (src : WrSrc) (o code : Nat) : State :=
  if src = .direct && (s.arenaOn 3 o).isSome then s.discard (ofsOf .AO_CODE 0 o)
  else
    s.write src .AO_CODE 0 o true (fun t =>
      (((t.wr (Reg.AO_CODE_CODE o) code).modAo o (fun y => { y with leashHeld := false })).when (t.mode = mCOMMISSION)
        (fun u => u.modAo o (fun y => { y with live := true }))).journalW
        src .AO_CODE 0 o code)

def execAoCodeWrite (src : WrSrc) (o code : Nat) (s : State) : Host.Outcome State Fault Refusal :=
  guardItem (o < 16) (answer s (aoCodeWrite s src o code))

/-- COMPLIANCE (R278): two beats short of the code without headroom. -/
def aoCompliance (s : State) (o : Nat) : State :=
  if 2 ≤ (s.ao o).low && !s.flag (Reg.AO_STAT_COMPLIANCE o) then
    (((s.set (Reg.AO_STAT_COMPLIANCE o)).set (Reg.AO_STAT_COMPL_SEEN o)).count Reg.AO_CNT_COMPL_EVENTS).bark 0x31 0x3101 true [o]
  else s

def execAoCompliance (o : Nat) (s : State) : Host.Outcome State Fault Refusal := guardItem (o < 16) (answer s (aoCompliance s o))

/-- OPEN (R278): two beats below 0.05 mA with a code of at least 1 mA. -/
def aoOpen (s : State) (o : Nat) : State :=
  if 2 ≤ (s.ao o).openN && !s.flag (Reg.AO_STAT_OPEN o) then
    (((s.set (Reg.AO_STAT_OPEN o)).set (Reg.AO_STAT_OPEN_SEEN o)).count Reg.AO_CNT_OPEN_EVENTS).bark 0x31 0x3102 true [o]
  else s

def execAoOpen (o : Nat) (s : State) : Host.Outcome State Fault Refusal := guardItem (o < 16) (answer s (aoOpen s o))

/-- OVERLOAD (R278): two beats at the 25 mA limit in the voltage range. -/
def aoOverload (s : State) (o : Nat) : State :=
  if 2 ≤ (s.ao o).overN && !s.flag (Reg.AO_STAT_OVERLOAD o) then
    ((s.set (Reg.AO_STAT_OVERLOAD o)).set (Reg.AO_STAT_OVERLOAD_SEEN o)).bark 0x31 0x3103 true [o]
  else s

def execAoOverload (o : Nat) (s : State) : Host.Outcome State Fault Refusal := guardItem (o < 16) (answer s (aoOverload s o))

def aoCnts : List Fld := [Reg.AO_CNT_COMPL_EVENTS, Reg.AO_CNT_OPEN_EVENTS]

/-- A write of AO_CNT_CLR (R392). -/
def execAoCntClr (src : WrSrc) (clr : Nat) (s : State) : Host.Outcome State Fault Refusal :=
  answer s (s.write src .AO_CNT_CLR 0 0 false (fun t => (t.clearCnts aoCnts clr).journalW src .AO_CNT_CLR 0 0 clr))

end Sys2Proof.Machine
end

