-- ==== Sys2Proof/Machine/Field.lean ====
section
/-! DEFINITION. Field cards (R56 to R96): the staged configuration and its commits, holds, charge resets, excitation faults,
lead compensation, blanking and common-mode supervision. -/

namespace Sys2Proof.Machine

/-! ## Cards, channels, configuration -/

def State.card (s : State) (f : Nat) : Card := s.fc.cards.get {} f

def State.modCard (s : State) (f : Nat) (g : Card → Card) : State :=
  { s with fc := { s.fc with cards := s.fc.cards.put {} f (g (s.card f)) } }

def State.chan (s : State) (f c : Nat) : Chan := (s.card f).chans.get {} c

def State.modChan (s : State) (f c : Nat) (g : Chan → Chan) : State :=
  s.modCard f (fun k => { k with chans := k.chans.put {} c (g (k.chans.get {} c)) })

/-- A field of the active configuration (R57). -/
def State.act (s : State) (x : Fld) : Nat := s.fc.act.get x.rst x.key

/-- A field of a configuration held as a map. -/
def cfgGet (cfg : Sparse Nat) (x : Fld) : Nat := cfg.get x.rst x.key

/-- The key belongs to a staged field of card `f`: FC_XPT_ROLE (its lower half words), FC_EXC_CFG, FC_CH_CFG. -/
def stagedKey (f key : Nat) : Bool :=
  let base := 8 * (0x10000 + 0x4000 * f)
  let o := (key - base) / 8
  base ≤ key && ((0x100 ≤ o && o < 0x200 && key % 32 < 16) || (0x200 ≤ o && o < 0x300) || (0x400 ≤ o && o < 0x800))

/-- The shadow of a card, and its active configuration. -/
def State.shadow (s : State) (f : Nat) : Sparse Nat := s.regs.filter (fun e => stagedKey f e.1)
def State.active (s : State) (f : Nat) : Sparse Nat := s.fc.act.filter (fun e => stagedKey f e.1)

/-- Write every entry of one map into another. -/
def overlay (src dst : Sparse Nat) : Sparse Nat := src.foldl (fun (m : Sparse Nat) e => m.insert e.1 e.2) dst

/-- Make a configuration the active one of card `f`. -/
def State.setActive (s : State) (f : Nat) (cfg : Sparse Nat) : State :=
  { s with fc := { s.fc with act := overlay cfg (s.fc.act.filter (fun e => !stagedKey f e.1)) } }

/-- Bark source byte of a field card, and its codes. -/
def fcSrc (f : Nat) : Nat := 0x10 + f
def fcCode (f ev : Nat) : Nat := fcSrc f * 256 + ev

/-- The card gives service. -/
def State.fcUp (s : State) (f : Nat) : Bool := s.inService f && s.domOn f

/-! ## Validation (R59, R83) -/

/-- Variant that code 4 is judged against: the card in service, else the last one; 0 none known. -/
def State.stageVariant (s : State) (f : Nat) : Nat :=
  if s.inService f then (s.slot f).variant else s.rd (Reg.FC_CARD_STAT_LAST_VARIANT f)

/-- The stage fitted to converter `c` of a variant (R56). -/
def fittedStage (variant c : Nat) : Nat := if variant = 2 then 1 else if variant = 3 && 16 ≤ c then 1 else 0

/-- Pins of the card with a role and a target; `side` 2 takes either side. -/
def pinsOf (cfg : Sparse Nat) (f role target side : Nat) : List Nat :=
  (List.range 64).filter (fun n => cfgGet cfg (Reg.FC_XPT_ROLE_ROLE f n) = role && cfgGet cfg (Reg.FC_XPT_ROLE_TARGET f n) = target
    && (side = 2 || cfgGet cfg (Reg.FC_XPT_ROLE_SIDE f n) = side))

/-- The lowest failing code of pin `n`; 0 none. -/
def pinCode (cfg : Sparse Nat) (f n : Nat) : Nat :=
  let r := cfgGet cfg (Reg.FC_XPT_ROLE_ROLE f n)
  if 3 ≤ r && r ≤ 5 && 7 < cfgGet cfg (Reg.FC_XPT_ROLE_TARGET f n) then 5 else 0

/-- The requirements of R81 or R82 are met (R83). -/
def leadOk (cfg : Sparse Nat) (f c : Nat) : Bool :=
  let ld := cfgGet cfg (Reg.FC_CH_CFG_LEAD f c)
  let x := cfgGet cfg (Reg.FC_CH_CFG_LEAD_SRC f c)
  let pos := (pinsOf cfg f 1 c 2).length
  let neg := (pinsOf cfg f 2 c 2).length
  if ld = 0 || ld = 3 then true
  else if ld = 1 then
    cfgGet cfg (Reg.FC_EXC_CFG_MODE f x) = 3 && cfgGet cfg (Reg.FC_EXC_CFG_SWAP f x) = 1 && 0 < pos && 0 < neg
  else
    x % 2 = 0 && cfgGet cfg (Reg.FC_EXC_CFG_MODE f x) = 3 && cfgGet cfg (Reg.FC_EXC_CFG_MODE f (x + 1)) = 3
      && cfgGet cfg (Reg.FC_EXC_CFG_LEVEL f x) = cfgGet cfg (Reg.FC_EXC_CFG_LEVEL f (x + 1))
      && cfgGet cfg (Reg.FC_EXC_CFG_SWAP f x) = 2 && cfgGet cfg (Reg.FC_EXC_CFG_SWAP f (x + 1)) = 0
      && (pinsOf cfg f 3 x 2).length = 1 && (pinsOf cfg f 3 (x + 1) 2).length = 1
      && 0 < (pinsOf cfg f 4 x 2).length + (pinsOf cfg f 4 (x + 1) 2).length && pos = 0 && neg = 0

/-- The lowest failing code of channel `c`; 0 none. -/
def chanCode (cfg : Sparse Nat) (variant f c : Nat) : Nat :=
  let g (x : Nat → Nat → Fld) : Nat := cfgGet cfg (x f c)
  let pos := (pinsOf cfg f 1 c 2).length
  let neg := (pinsOf cfg f 2 c 2).length
  let lo := signed 16 (g Reg.FC_CH_CFG_CM_LO)
  let hi := signed 16 (g Reg.FC_CH_CFG_CM_HI)
  let lead := g Reg.FC_CH_CFG_LEAD
  let demod := g Reg.FC_CH_CFG_DEMOD
  let ratio := g Reg.FC_CH_CFG_RATIO
  let stage := g Reg.FC_CH_CFG_STAGE
  if decide (0 < pos) != decide (0 < neg) then 1
  else if 1 < pos || 1 < neg then 2
  else if variant ≠ 0 && stage ≠ fittedStage variant c then 4
  else if g Reg.FC_CH_CFG_QRANGE = 3 || ratio = 3 || lead = 3 || hi < lo || lo < -12000 || 12000 < lo || hi < -12000 || 12000 < hi then 5
  else if demod = 1 && cfgGet cfg (Reg.FC_EXC_CFG_MODE f (g Reg.FC_CH_CFG_DEMOD_SRC)) ≠ 1 then 6
  else if !leadOk cfg f c then 7
  else if (stage = 1 && (lead ≠ 0 || g Reg.FC_CH_CFG_OWD = 1)) || (demod = 1 && lead ≠ 0) || (ratio ≠ 0 && lead ≠ 0) then 8
  else if ratio ≠ 0 && cfgGet cfg (Reg.FC_EXC_CFG_MODE f (g Reg.FC_CH_CFG_RATIO_SRC)) = 0 then 10
  else 0

/-- LEVEL and FREQ lie in the ranges of R72. FREQ of 1 Hz to 20 kHz is 11,453,247 to 229,064,922,453. -/
def levelOk (mode : Nat) (level : Int) (freq : Nat) : Bool :=
  if mode = 1 then 0 ≤ level && level ≤ 5000000 && 11453247 ≤ freq && freq ≤ 229064922453
  else if mode = 2 then -10000000 ≤ level && level ≤ 10000000
  else if mode = 3 then level = 0 || (1000 ≤ level.natAbs && level.natAbs ≤ 10000000)
  else true

/-- The lowest failing code of source `x`; 0 none. -/
def srcCode (cfg : Sparse Nat) (f x : Nat) : Nat :=
  let mode := cfgGet cfg (Reg.FC_EXC_CFG_MODE f x)
  let swap := cfgGet cfg (Reg.FC_EXC_CFG_SWAP f x)
  let half := cfgGet cfg (Reg.FC_EXC_CFG_SWAP_HALF f x)
  let s0 := (pinsOf cfg f 5 x 0).length
  let s1 := (pinsOf cfg f 5 x 1).length
  if 4 < (pinsOf cfg f 3 x 2).length || 4 < (pinsOf cfg f 4 x 2).length || 1 < s0 || 1 < s1 then 3
  else if 3 < mode || swap = 3 || (swap = 2 && x % 2 = 1) || half < 2 || 12 < half || 2 ^ half ≤ cfgGet cfg (Reg.FC_EXC_CFG_SWAP_SETTLE f x)
    || !levelOk mode (signed 32 (cfgGet cfg (Reg.FC_EXC_CFG_LEVEL f x))) (cfgGet cfg (Reg.FC_EXC_CFG_FREQ f x)) then 5
  else if (cfgGet cfg (Reg.FC_EXC_CFG_SENSE_EN f x) = 1 && (s0 = 0 || s1 = 0)) || (mode = 3 && 0 < s0 + s1) then 9
  else 0

/-- The first failing item of a configuration, in the order of R59: kind (0 pin, 1 channel, 2 source), item, code. -/
def cfgFault (cfg : Sparse Nat) (variant f : Nat) : Option (Nat × Nat × Nat) :=
  let ps := (List.range 64).map (fun n => (0, n, pinCode cfg f n))
  let cs := (List.range 32).map (fun c => (1, c, chanCode cfg variant f c))
  let xs := (List.range 8).map (fun x => (2, x, srcCode cfg f x))
  (ps ++ cs ++ xs).find? (fun q => q.2.2 ≠ 0)

/-- A rejected commit (R58). -/
def cfgReject (s : State) (f : Nat) (q : Nat × Nat × Nat) : State :=
  ((((s.set (Reg.FC_CARD_STAT_CFG_REJECT f)).wr (Reg.FC_CFG_STAT_REASON f) q.2.2).wr (Reg.FC_CFG_STAT_ITEM f) q.2.1).wr
    (Reg.FC_CFG_STAT_ITEM_KIND f) q.1).bark (fcSrc f) (fcCode f 2) true [q.2.2, q.2.1, q.1]

/-- The run-clock edge of the beat boundary at which a commit falls due (R58): the next one after a direct write, the first at or after
the instant of a command. -/
def State.boundary (s : State) (scheduled : Bool) : Nat := s.run + ((if scheduled then beatCeil s.now else beatNext s.now) - s.now)

/-- Validate the shadow of a card and let it wait for its boundary, or reject it (R58). What waits is the shadow as it stands here: a
direct write between an APPLY and its boundary does not join the commit (DESIGN CHOICE: R58 does not say). A command's commit takes
the shadow's direct writes with it, so an APPLY of its boundary, which follows it, carries the same configuration. -/
def commitCard (s : State) (f : Nat) (scheduled : Bool) : State :=
  match cfgFault (s.shadow f) (s.stageVariant f) f with
  | some q => cfgReject s f q
  | none =>
    let c : Commit := { cfg := s.shadow f, at_ := s.boundary scheduled, scheduled := scheduled, full := false,
                        restart := (s.card f).reverted && !scheduled }
    let join (d : Commit) : Commit := if scheduled && !d.scheduled && c.at_ ≤ d.at_ then { d with cfg := c.cfg } else d
    s.modCard f (fun k => { k with due := k.due.map join ++ [c], reverted := if scheduled then k.reverted else false })

/-- FC_APPLY.APPLY: a direct write commits; within a CFG_WRITE the staged writes commit at once, so the bit adds nothing
(R58). -/
def execFcApply (src : WrSrc) (f : Nat) (s : State) : Host.Outcome State Fault Refusal :=
  guardItem (f < 16) (answer s (s.write src .FC_APPLY f 0 true (fun t =>
    (commitCard t f (src = .cfg)).journalW src .FC_APPLY f 0 1)))

/-- FC_APPLY.REVERT: the active configuration goes into the shadow (R57). -/
def revertCard (s : State) (f : Nat) : State :=
  let t := { s with regs := overlay (s.active f) (s.regs.filter (fun e => !stagedKey f e.1)) }
  t.modCard f (fun k => { k with reverted := true })

def execFcRevert (src : WrSrc) (f : Nat) (s : State) : Host.Outcome State Fault Refusal :=
  guardItem (f < 16) (answer s (s.write src .FC_APPLY f 0 true (fun t => (revertCard t f).journalW src .FC_APPLY f 0 2)))

/-! ## Holds (R63, R90) -/

def causeCOMMIT : Nat := 0
def causeRESET : Nat := 1
def causeBLANK : Nat := 2

/-- Open a span at `e`: an open one goes on (from the earlier start), and one that overlaps or abuts is taken up again. -/
def openSpan (e : Nat) : List (Nat × Option Nat) → List (Nat × Option Nat)
  | (a, none) :: r => (min a e, none) :: r
  | (a, some b) :: r => if e ≤ b then (min a e, none) :: r else (e, none) :: (a, some b) :: r
  | [] => [(e, none)]

/-- Close the open span at `e`. -/
def closeSpan (e : Nat) : List (Nat × Option Nat) → List (Nat × Option Nat)
  | (a, none) :: r => (a, some (max a e)) :: r
  | (a, some b) :: r => (a, some b) :: r
  | [] => []

/-- A hold of one cause begins at `e`. -/
def Chan.hold (x : Chan) (cause : Nat) (e : Nat) : Chan :=
  { x with causes := setBits x.causes cause 1 1, held := openSpan e x.held }

/-- A hold of one cause ends at `e`: the interval ends once no cause is left. -/
def Chan.unhold (x : Chan) (cause : Nat) (e : Nat) : Chan :=
  let c := setBits x.causes cause 1 0
  if !bit x.causes cause then x else { x with causes := c, held := if c = 0 then closeSpan e x.held else x.held }

/-- Instant `e` lies in a span. -/
def inSpan (e : Nat) (q : Nat × Option Nat) : Bool :=
  q.1 ≤ e && match q.2 with | none => true | some b => e < b

/-- Some span of the list meets [a, b). -/
def meets (l : List (Nat × Option Nat)) (a b : Nat) : Bool :=
  l.any (fun q => q.1 < b && match q.2 with | none => true | some e => a < e)

/-- The decimator input is held at `e`. -/
def Chan.heldAt (x : Chan) (e : Nat) : Bool := x.held.any (inSpan e)

/-- A sample at `e` with filter length `len` and group delay `dly` lies in a settling span, before or after a hold (R90). -/
def Chan.settling (x : Chan) (e len dly : Nat) : Bool :=
  x.held.any (fun q => match q.2 with
    | none => e < q.1 && q.1 < e + dly
    | some b => (b ≤ e && e < b + len) || (q.1 < b && e < q.1 && q.1 < e + dly))

/-! ## The switching sequence (R60, R63, R66, R74) -/

/-- Pin `n` differs between two configurations. -/
def pinChanged (old new : Sparse Nat) (f n : Nat) : Bool :=
  let d (x : Nat → Nat → Fld) : Bool := cfgGet old (x f n) ≠ cfgGet new (x f n)
  d Reg.FC_XPT_ROLE_ROLE || d Reg.FC_XPT_ROLE_TARGET || d Reg.FC_XPT_ROLE_SIDE

/-- The pin's role is one of converters, or one of sources, with that target. -/
def pinNames (cfg : Sparse Nat) (f n : Nat) (source : Bool) (target : Nat) : Bool :=
  let r := cfgGet cfg (Reg.FC_XPT_ROLE_ROLE f n)
  cfgGet cfg (Reg.FC_XPT_ROLE_TARGET f n) = target && (if source then 3 ≤ r && r ≤ 5 else r = 1 || r = 2 || r = 7)

/-- The sources a channel names (R63). -/
def namedSources (cfg : Sparse Nat) (f c : Nat) : List Nat :=
  let g (x : Nat → Nat → Fld) : Nat := cfgGet cfg (x f c)
  (if g Reg.FC_CH_CFG_DEMOD = 1 then [g Reg.FC_CH_CFG_DEMOD_SRC] else [])
    ++ (if g Reg.FC_CH_CFG_RATIO ≠ 0 then [g Reg.FC_CH_CFG_RATIO_SRC] else [])
    ++ (if g Reg.FC_CH_CFG_LEAD = 1 then [g Reg.FC_CH_CFG_LEAD_SRC]
        else if g Reg.FC_CH_CFG_LEAD = 2 then [g Reg.FC_CH_CFG_LEAD_SRC, g Reg.FC_CH_CFG_LEAD_SRC + 1] else [])

/-- A source with a changed pin, and a source whose own setting changes (R74). -/
def srcPinChanged (old new : Sparse Nat) (f x : Nat) : Bool :=
  (List.range 64).any (fun n => pinChanged old new f n && (pinNames old f n true x || pinNames new f n true x))

def srcSetChanged (old new : Sparse Nat) (f x : Nat) : Bool :=
  let d (r : Nat → Nat → Fld) : Bool := cfgGet old (r f x) ≠ cfgGet new (r f x)
  d Reg.FC_EXC_CFG_MODE || d Reg.FC_EXC_CFG_LEVEL || d Reg.FC_EXC_CFG_FREQ || d Reg.FC_EXC_CFG_PHASE || d Reg.FC_EXC_CFG_SENSE_EN
    || d Reg.FC_EXC_CFG_SWAP

/-- A commit changes the source (R76, R77): any of its settings, or its pins. -/
def srcChanged (old new : Sparse Nat) (f x : Nat) : Bool :=
  let d (r : Nat → Nat → Fld) : Bool := cfgGet old (r f x) ≠ cfgGet new (r f x)
  srcSetChanged old new f x || srcPinChanged old new f x || d Reg.FC_EXC_CFG_ILIM || d Reg.FC_EXC_CFG_SWAP_HALF || d Reg.FC_EXC_CFG_SWAP_SETTLE

/-- The stage of a channel changes (R66). -/
def stageChanged (old new : Sparse Nat) (f c : Nat) : Bool :=
  let d (r : Nat → Nat → Fld) : Bool := cfgGet old (r f c) ≠ cfgGet new (r f c)
  d Reg.FC_CH_CFG_STAGE || d Reg.FC_CH_CFG_GAIN || d Reg.FC_CH_CFG_QRANGE || d Reg.FC_CH_CFG_BLEED

/-- The affected converters of a commit. -/
def affectedBy (old new : Sparse Nat) (f : Nat) : List Nat :=
  let xs := (List.range 8).filter (fun x => srcPinChanged old new f x || srcSetChanged old new f x)
  (List.range 32).filter (fun c =>
    stageChanged old new f c
    || (List.range 64).any (fun n => pinChanged old new f n && (pinNames old f n false c || pinNames new f n false c))
    || (namedSources old f c ++ namedSources new f c).any (fun x => xs.contains x))

/-- A converter is connected: it has a POS or NEG pin, or is an internal three-wire channel. -/
def connected (cfg : Sparse Nat) (f c : Nat) : Bool :=
  !(pinsOf cfg f 1 c 2).isEmpty || !(pinsOf cfg f 2 c 2).isEmpty || cfgGet cfg (Reg.FC_CH_CFG_LEAD f c) = 2

/-- The channel under verification (R61): the running turn compares, or checks the spare before H, and its handback has not come. -/
def State.verifying (s : State) (f : Nat) : Option Nat :=
  let p := s.rd (Reg.FC_SPARE_STAT_PHASE f)
  let done := match (s.card f).spare.ending with | some (.finish _, _) => true | _ => false
  if (p = 2 || p = 4 || p = 9) && !done then some (s.rd (Reg.FC_SPARE_STAT_CH f)) else none

/-- The key belongs to the pins, stage or excitation of channel `c` (R61). -/
def chanKey (old new : Sparse Nat) (f c key : Nat) : Bool :=
  let base := 8 * (0x10000 + 0x4000 * f)
  let o := (key - base) / 8
  let xs := namedSources old f c ++ namedSources new f c
  if 0x400 ≤ o then
    (o - 0x400) / 0x20 = c && stageChanged old new f c
  else if 0x200 ≤ o then xs.contains ((o - 0x200) / 0x20)
  else
    let n := (o - 0x100) / 4
    pinNames old f n false c || pinNames new f n false c || xs.any (fun x => pinNames old f n true x || pinNames new f n true x)

/-- Keys on which two configurations differ. -/
def diffKeys (old new : Sparse Nat) : List Nat :=
  ((old.filter (fun e => !new.contains e)).map (fun e => e.1) ++ (new.filter (fun e => !old.contains e)).map (fun e => e.1)).eraseDups

/-- Copy the listed keys from one configuration into another. -/
def copyKeys (src dst : Sparse Nat) (ks : List Nat) : Sparse Nat :=
  ks.foldl (fun m k => match src.find? (fun e => e.1 = k) with | some e => m.insert k e.2 | none => m.erase k) dst

/-- A source gives its output: configured, in service in a mode that connects pins, its card
not muzzled by itself, not shut down, not zeroed (R64, R77, R387). -/
def State.srcOn (s : State) (f x : Nat) : Bool :=
  s.act (Reg.FC_EXC_CFG_MODE f x) ≠ 0 && s.fcUp f && s.sampling && !(s.slot f).selfMuzzled
    && !s.flag (Reg.FC_EXC_STAT_SHUTDOWN f x) && !(s.card f).zeroed.contains x

def showSources (s : State) (f : Nat) : State :=
  (List.range 8).foldl (fun u x => u.wrB (Reg.FC_EXC_STAT_ACTIVE f x) (s.srcOn f x)) s

/-- Show the active roles of the pins. -/
def showPins (s : State) (f : Nat) : State :=
  (List.range 64).foldl (fun u n =>
    ((u.wr (Reg.FC_XPT_ROLE_ACT_ROLE f n) (s.act (Reg.FC_XPT_ROLE_ROLE f n))).wr (Reg.FC_XPT_ROLE_ACT_TARGET f n)
      (s.act (Reg.FC_XPT_ROLE_TARGET f n))).wr (Reg.FC_XPT_ROLE_ACT_SIDE f n) (s.act (Reg.FC_XPT_ROLE_SIDE f n))) s

/-- `a` applies before `b` (R60): at an earlier beat, or scheduled at the same. -/
def Commit.before (a b : Commit) : Bool := a.at_ < b.at_ || (a.at_ = b.at_ && a.scheduled && !b.scheduled)

/-- The commit that is next, and due (R60). -/
def nextDue (run : Nat) (l : List Commit) : Option Commit :=
  (l.filter (fun c => c.at_ ≤ run)).foldl (fun m c =>
    match m with
    | none => some c
    | some d => if c.before d then some c else some d) none

/-- Source `x` begins or stops to limit its output (`shut` false, R75), or is shut down (`shut` true, R77): the spans that count against
the samples of the channels that reference it. -/
def State.srcSpan (s : State) (f x : Nat) (shut on : Bool) (e : Nat) : State :=
  let key := if shut then 8 + x else x
  s.modCard f (fun k => { k with bad := k.bad.put [] key ((if on then openSpan e else closeSpan e) (k.bad.get [] key)) })

/-- A source stops to limit, and to be shut down. -/
def limitOff (s : State) (f x : Nat) : State := (s.srcSpan f x false false s.now).clr (Reg.FC_EXC_STAT_LIMITING f x)
def shutOff (s : State) (f x : Nat) : State := (s.srcSpan f x true false s.now).clr (Reg.FC_EXC_STAT_SHUTDOWN f x)

/-- A line that the channel selects is active (R86). -/
def State.blanked (s : State) (f c : Nat) : Bool := Nat.land (s.act (Reg.FC_CH_CFG_BLANK_SEL f c)) s.fc.lines ≠ 0

/-- The blanking holds of card `f` begin and end at `e` as its lines and BLANK_SEL stand (R66, R86, R90). -/
def blankSync (s : State) (f e : Nat) : State :=
  (List.range 32).foldl (fun u c =>
    let is_ := s.blanked f c
    if is_ = bit (s.chan f c).causes causeBLANK then u
    else u.modChan f c (fun k => if is_ then k.hold causeBLANK e else k.unhold causeBLANK e)) s

/-- The carry term changes at `e`. -/
def Chan.setCarry (k : Chan) (e : Nat) (v : Int) : Chan := { k with carry := v, carryAt := e, carryOld := k.carry }

/-- The compensation of a channel is set up anew by a commit (R84). -/
def leadChanged (old new : Sparse Nat) (f c : Nat) : Bool :=
  let d (r : Nat → Nat → Fld) : Bool := cfgGet old (r f c) ≠ cfgGet new (r f c)
  d Reg.FC_CH_CFG_LEAD || d Reg.FC_CH_CFG_LEAD_SRC || (namedSources old f c ++ namedSources new f c).any (srcChanged old new f)

/-- What a commit changes in the state of the channels: carry terms clear with STAGE and QRANGE (R71), compensations begin anew, and a
calibration that runs on a changed stage starts again from Z (R113). -/
def commitChans (s : State) (f : Nat) (old new : Sparse Nat) (aff : List Nat) : State :=
  let d (r : Nat → Nat → Fld) (c : Nat) : Bool := cfgGet old (r f c) ≠ cfgGet new (r f c)
  let t := (List.range 32).foldl (fun u c =>
    let u := if d Reg.FC_CH_CFG_STAGE c || d Reg.FC_CH_CFG_QRANGE c then u.modChan f c (fun k => k.setCarry s.now 0) else u
    if aff.contains c || leadChanged old new f c then u.modChan f c (fun k => { k with leadHalf := false, leadSince := s.now }) else u) s
  let c := s.rd (Reg.FC_SPARE_STAT_CH f)
  if s.rd (Reg.FC_SPARE_STAT_PHASE f) = 3 && (d Reg.FC_CH_CFG_STAGE c || d Reg.FC_CH_CFG_GAIN c || d Reg.FC_CH_CFG_QRANGE c) then
    t.modCard f (fun k => { k with spare := { k.spare with since := s.run - cclkBeat } }) else t

/-- What a commit changes in the state of the sources: one that it changes, or that REVERT and APPLY restart, leaves its shutdown; one
that it changes returns to sense regulation (R76, R77). Each that starts anew limits no more. -/
def commitSrcs (s : State) (f : Nat) (c : Commit) (old new : Sparse Nat) : State :=
  (List.range 8).foldl (fun u x =>
    let ch := srcChanged old new f x
    let u := if ch then u.clr (Reg.FC_EXC_STAT_SENSE_LOCAL f x) else u
    let u := if ch || c.restart then shutOff u f x else u
    if ch || c.restart || c.full then limitOff u f x else u) s

/-- The configuration `new` takes effect at boundary B (R60 to R64): affected converters are held, changed pins open, and their sources
go to zero. -/
def switchCard (s : State) (f : Nat) (c : Commit) (old new : Sparse Nat) : State :=
  let aff := if c.full then (List.range 32).filter (fun i => connected new f i) else affectedBy old new f
  let pins := (List.range 64).filter (fun n => c.full || pinChanged old new f n)
  let xs := (List.range 8).filter (fun x => srcPinChanged old new f x || (c.full && cfgGet new (Reg.FC_EXC_CFG_MODE f x) ≠ 0))
  let t := aff.foldl (fun u i => u.modChan f i (fun k => k.hold causeCOMMIT s.now)) (s.setActive f new)
  let t := blankSync (commitSrcs (commitChans t f old new aff) f c old new) f s.now
  let busy := !aff.isEmpty || !pins.isEmpty || !xs.isEmpty
  let t := t.modCard f (fun k => { k with phase := if busy then 1 else 0, affected := aff, zeroed := xs, openPins := pins })
  showSources (showPins (t.wrB (Reg.FC_CFG_STAT_SWITCHING f) busy) f) f

/-- What a commit leaves to the end of a verification (R61): the bark and the marks of its channel. -/
def deferKeys (s : State) (f v : Nat) (cfg : Sparse Nat) (ks : List Nat) : State :=
  let t := s.modCard f (fun k => { k with deferred := ks.map (fun q => (q, (cfg.find? (fun e => e.1 = q)).map (fun e => e.2))) })
  if ks.isEmpty then (t.clr (Reg.FC_CFG_STAT_DEFERRED f)).clr (Reg.FC_CH_STAT_DEFERRED f v)
  else ((t.set (Reg.FC_CFG_STAT_DEFERRED f)).set (Reg.FC_CH_STAT_DEFERRED f v)).bark (fcSrc f) (fcCode f 3) false [v]

/-- A commit applies (R60 to R64): what touches a channel under verification is deferred, the rest becomes active. The configuration in
full, applied on entry to a mode or to service, is no commit (R58): it is neither counted nor barked. -/
def applyCommit (s : State) (f : Nat) (c : Commit) : State :=
  let old := s.active f
  if c.full then switchCard s f c old old
  else
    let t := match s.verifying f with
      | none => switchCard s f c old c.cfg
      | some v =>
        let ks := (diffKeys old c.cfg).filter (fun k => chanKey old c.cfg f v k)
        deferKeys (switchCard s f c old (copyKeys old c.cfg ks)) f v c.cfg ks
    ((t.set (Reg.FC_CARD_STAT_CFG_APPLIED f)).count (Reg.FC_CNT_COMMITS f)).bark (fcSrc f) (fcCode f 1) false []

/-- Every commit that is due applies in order, until one starts a switching sequence: what is left waits behind it (R60), or until the
card has switched to its new firmware (R381), with QUEUED set. -/
def commitRun : Nat → State → Nat → State
  | 0, s, _ => s
  | n + 1, s, f =>
    match nextDue s.run (s.card f).due with
    | none => s.clr (Reg.FC_CFG_STAT_QUEUED f)
    | some c =>
      if (s.card f).phase ≠ 0 || (s.slot f).standby.isSome then s.set (Reg.FC_CFG_STAT_QUEUED f)
      else commitRun n (applyCommit (s.modCard f (fun k => { k with due := k.due.erase c })) f c) f

/-- COMMIT_BREAK: at a beat boundary the commits of the card that are due apply. -/
def commitBreak (s : State) (f : Nat) : State := commitRun ((s.card f).due.length + 1) s f

def execCommitBreak (f : Nat) (s : State) : Host.Outcome State Fault Refusal := guardItem (f < 16) (answer s (commitBreak s f))

/-- COMMIT_MAKE, at B + 1: the new connections close. -/
def commitMake (s : State) (f : Nat) : State :=
  if (s.card f).phase = 1 then s.modCard f (fun k => { k with phase := 2, openPins := [] }) else s

def execCommitMake (f : Nat) (s : State) : Host.Outcome State Fault Refusal := guardItem (f < 16) (answer s (commitMake s f))

/-- COMMIT_RELEASE, at B + 2: sources return to LEVEL, holds release, and a queued commit applies (R60, R63). -/
def commitRelease (s : State) (f : Nat) : State :=
  if (s.card f).phase = 2 then
    let t := (s.card f).affected.foldl (fun u i => u.modChan f i (fun k => k.unhold causeCOMMIT s.now)) s
    let t := (t.modCard f (fun k => { k with phase := 0, affected := [], zeroed := [] })).clr (Reg.FC_CFG_STAT_SWITCHING f)
    let t := showSources t f
    if t.flag (Reg.FC_CFG_STAT_QUEUED f) then commitBreak t f else t
  else s

def execCommitRelease (f : Nat) (s : State) : Host.Outcome State Fault Refusal := guardItem (f < 16) (answer s (commitRelease s f))

/-- The configuration of a card with its deferred changes in it. -/
def State.withDeferred (s : State) (f : Nat) : Sparse Nat :=
  (s.card f).deferred.foldl (fun (m : Sparse Nat) q => match q.2 with | some v => m.insert q.1 v | none => m.erase q.1) (s.active f)

/-- No change is deferred any more. -/
def clearDeferred (s : State) (f : Nat) : State :=
  ((s.modCard f (fun k => { k with deferred := [] })).clr (Reg.FC_CFG_STAT_DEFERRED f)).clr (Reg.FC_CH_STAT_DEFERRED f (s.rd (Reg.FC_SPARE_STAT_CH f)))

/-- The deferred part of a commit applies, at the end of its verification (R61, R113); the commit itself has been counted. -/
def applyDeferred (s : State) (f : Nat) : State :=
  if (s.card f).deferred.isEmpty then s
  else
    let c : Commit := { cfg := s.withDeferred f, at_ := s.run, scheduled := true, full := false, restart := false }
    let t := clearDeferred s f
    if (t.card f).phase ≠ 0 || (t.slot f).standby.isSome then
      (t.modCard f (fun k => { k with due := c :: k.due })).set (Reg.FC_CFG_STAT_QUEUED f)
    else switchCard t f c (s.active f) c.cfg

/-- The deferred part becomes active with no switching sequence: its card goes off (R57, R61). -/
def settleDeferred (s : State) (f : Nat) : State :=
  if (s.card f).deferred.isEmpty then s else (clearDeferred s f).setActive f (s.withDeferred f)

/-- The active configuration is applied in full at the next beat boundary (R64), the shadow apart. -/
def loadActive (s : State) (f : Nat) : State :=
  s.modCard f (fun k => { k with phase := 0, affected := [], zeroed := [], openPins := [],
                                 due := { cfg := [], at_ := s.boundary true, scheduled := true, full := true, restart := false } :: k.due })

/-! ## Charge resets (R69 to R71) -/

/-- A reset falls due at boundary B, now (R69, R70): one that runs at B or B + 1 takes it in, and one that opened its switch at B + 1 is
followed by it. It is counted as it begins. -/
def beginReset (s : State) (f c : Nat) : State :=
  let r := (s.chan f c).rst
  let t := s.modChan f c (fun k => { k with rstDue := none })
  if r = 1 then t
  else if r = 2 then t.modChan f c (fun k => { k with rstAgain := true })
  else
    ((t.modChan f c (fun k => { k.hold causeRESET s.now with rst := 1 })).set (Reg.FC_CH_STAT_QRST_BUSY f c)).count (Reg.FC_QRST_CNT_COUNT f c)

/-- A reset of channel `c` with its boundary at `b`. -/
def startReset (s : State) (f c : Nat) (b : Nat) : State :=
  if b ≤ s.now then beginReset s f c else s.modChan f c (fun k => { k with rstDue := some b })

/-- QRESET by a write: ignored for an instrumentation stage. A direct write acts at the next boundary, a CFG_WRITE at the
first at or after its instant. -/
def qreset (s : State) (src : WrSrc) (f c : Nat) : State :=
  if s.act (Reg.FC_CH_CFG_STAGE f c) = 1 then startReset s f c (if src = .direct then beatNext s.now else beatCeil s.now) else s

def execQreset (src : WrSrc) (f c : Nat) (s : State) : Host.Outcome State Fault Refusal :=
  guardItem (f < 16 && c < 32) (answer s (s.write src .FC_CH_CTRL f c true (fun t => (qreset t src f c).journalW src .FC_CH_CTRL f c 1)))

/-- An automatic reset: at the end of a beat the charge, in millionths of QRANGE, lies at or beyond 90 %. One that merges with a running
reset is not counted again (R70). -/
def qresetAuto (s : State) (f c : Nat) (q : Int) : State :=
  if s.act (Reg.FC_CH_CFG_STAGE f c) = 1 && s.act (Reg.FC_CH_CFG_AUTO_RST f c) = 1 && 900000 ≤ q.natAbs && (s.chan f c).rst ≠ 1
      && (s.chan f c).rstDue.isNone && s.fcUp f then
    let t := (startReset s f c (beatCeil s.now)).count (Reg.FC_CNT_QRST_AUTO f)
    let n := (s.card f).autoN + 1
    let l := t.bq.last.get 0 (barkKey (fcCode f 0x20) f)
    if l = 0 || t.elapsed (l - 1) cclkSec then
      (t.modCard f (fun k => { k with autoN := 0 })).barkEvery cclkSec f (fcSrc f) (fcCode f 0x20) false [n]
    else t.modCard f (fun k => { k with autoN := n })
  else s

def execQresetAuto (f c : Nat) (q : Int) (s : State) : Host.Outcome State Fault Refusal :=
  guardItem (f < 16 && c < 32) (answer s (qresetAuto s f c q))

/-- At B + 1 the reset switch opens. -/
def qresetOpen (s : State) (f c : Nat) : State :=
  if (s.chan f c).rst = 1 then s.modChan f c (fun k => { k with rst := 2 }) else s

def execQresetOpen (f c : Nat) (s : State) : Host.Outcome State Fault Refusal :=
  guardItem (f < 16 && c < 32) (answer s (qresetOpen s f c))

/-- QRANGE in pC (R65). -/
def qrangePc (n : Nat) : Nat := if n = 0 then 10 else if n = 1 then 100 else 1000

/-- At B + 2 the hold releases, unless a further reset begins there. With CARRY = 1 the charge at the end of beat B − 1 less the charge
now (reals in pC) joins the carry term, within ±1,000 × QRANGE (R71). -/
def qresetRelease (s : State) (f c : Nat) (before now : Int) : State :=
  if (s.chan f c).rst = 2 then
    let lim : Int := ((1000 * qrangePc (s.act (Reg.FC_CH_CFG_QRANGE f c)) * realOne : Nat) : Int)
    let t := s.modChan f c (fun k =>
      let k := if s.act (Reg.FC_CH_CFG_CARRY f c) = 1 then k.setCarry s.now (clamp (-lim) lim (fadd k.carry (fadd before (-now)))) else k
      { (if k.rstAgain then k else k.unhold causeRESET s.now) with rst := 0, rstAgain := false })
    let t := t.clr (Reg.FC_CH_STAT_QRST_BUSY f c)
    if (s.chan f c).rstAgain then beginReset t f c else t
  else s

def execQresetRelease (f c : Nat) (before after : Int) (s : State) : Host.Outcome State Fault Refusal :=
  guardItem (f < 16 && c < 32) (answer s (qresetRelease s f c before after))

/-- CARRY_CLR (R71). -/
def execCarryClr (src : WrSrc) (f c : Nat) (s : State) : Host.Outcome State Fault Refusal :=
  guardItem (f < 16 && c < 32) (answer s (s.write src .FC_CH_CTRL f c true (fun t =>
    (t.modChan f c (fun k => k.setCarry s.now 0)).journalW src .FC_CH_CTRL f c 2)))

/-! ## Excitation (R75 to R77) -/

/-- Phase of source `x` at edge `e`, in units of 2^-48 turn (R73): its law runs over the MCLK cycles from AT 0. -/
def State.excPhase (s : State) (f x e : Nat) : Nat :=
  (s.act (Reg.FC_EXC_CFG_FREQ f x) * (e / 10) + s.act (Reg.FC_EXC_CFG_PHASE f x) * 2 ^ 32) % 2 ^ 48

/-- Output of a SINE source at edge `e`, in pV (R73): √2 × LEVEL × sin of its phase, and zero while it gives none. -/
def State.excOut (s : State) (f x e : Nat) : Int :=
  if s.srcOn f x && s.act (Reg.FC_EXC_CFG_MODE f x) = 1 then
    rne ((s.act (Reg.FC_EXC_CFG_LEVEL f x) * 1000000 * isqrt (2 * 2 ^ 200) : Nat) * sinTurn (s.excPhase f x e)) (2 ^ 228) else 0

/-- A source limits: ILIM in SINE and DCV, compliance in DCI (R75); the beat in which it does counts whole. -/
def excLimit (s : State) (f x : Nat) : State :=
  if s.srcOn f x && !s.flag (Reg.FC_EXC_STAT_LIMITING f x) then
    let t := (s.srcSpan f x false true (s.now / cclkBeat * cclkBeat)).set (Reg.FC_EXC_STAT_LIMITING f x)
    if s.act (Reg.FC_EXC_CFG_MODE f x) = 3 then (t.set (Reg.FC_EXC_STAT_COMPLIANCE f x)).bark (fcSrc f) (fcCode f 0x31) true [x]
    else (t.set (Reg.FC_EXC_STAT_ILIM f x)).bark (fcSrc f) (fcCode f 0x30) true [x]
  else s

def execExcLimit (f x : Nat) (s : State) : Host.Outcome State Fault Refusal :=
  guardItem (f < 16 && x < 8) (answer s (excLimit s f x))

/-- A source stops limiting. -/
def execExcLimitEnd (f x : Nat) (s : State) : Host.Outcome State Fault Refusal :=
  guardItem (f < 16 && x < 8) (answer s (limitOff s f x))

/-- The sensed voltage stands off the pin voltage (R76): the source regulates at its pins. -/
def excSense (s : State) (f x : Nat) : State :=
  if s.srcOn f x && s.act (Reg.FC_EXC_CFG_SENSE_EN f x) = 1 && !s.flag (Reg.FC_EXC_STAT_SENSE_LOCAL f x) then
    ((s.set (Reg.FC_EXC_STAT_SENSE_LOCAL f x)).set (Reg.FC_EXC_STAT_SENSE_FAULT f x)).bark (fcSrc f) (fcCode f 0x32) true [x]
  else s

def execExcSenseFault (f x : Nat) (s : State) : Host.Outcome State Fault Refusal :=
  guardItem (f < 16 && x < 8) (answer s (excSense s f x))

/-- A source over its temperature limit is switched to zero (R77). -/
def excThermal (s : State) (f x : Nat) : State :=
  if s.srcOn f x then
    (((((limitOff s f x).srcSpan f x true true s.now).set (Reg.FC_EXC_STAT_SHUTDOWN f x)).set (Reg.FC_EXC_STAT_THERMAL f x)).clr
      (Reg.FC_EXC_STAT_ACTIVE f x)).bark (fcSrc f) (fcCode f 0x33) true [x]
  else s

def execExcThermal (f x : Nat) (s : State) : Host.Outcome State Fault Refusal :=
  guardItem (f < 16 && x < 8) (answer s (excThermal s f x))

/-! ## Lead compensation (R81 to R84) -/

/-! The flags of a converter's samples serve the lead compensation and the streams (R85, R96). -/

/-- A source the channel names limits or is shut down within [a, b) (R75, R77). -/
def State.srcBad (s : State) (f c a b : Nat) : Bool :=
  (namedSources (s.active f) f c).any (fun x => meets ((s.card f).bad.get [] x) a b || meets ((s.card f).bad.get [] (8 + x)) a b)

/-- The converter gives nothing at `e`, of a sample whose span ends at `b` (R59, R62, R96, R112, R118). -/
def State.convIdle (s : State) (f c e b : Nat) : Bool :=
  let k := s.chan f c
  !s.fcUp f || !s.sampling || e < (s.card f).since || !connected (s.active f) f c
    || k.dead.any (fun q => q.1 < b && match q.2 with | none => true | some z => e < z)
    || fittedStage (s.slot f).variant c ≠ s.act (Reg.FC_CH_CFG_STAGE f c) || (k.capBad && s.act (Reg.FC_CH_CFG_STAGE f c) = 1)

/-- Flags of a converter sample at `e` whose filter has length `len` and delay `dly`, so that its span is [e − dly, e + dly) (R43, R59,
R67, R75, R90, R92, R96, R110); `ovr` that the modulator overloaded within it. -/
def State.convFlags (s : State) (f c : Nat) (e len dly : Nat) (ovr : Bool) : Nat :=
  let k := s.chan f c
  let sub := if meets k.subst (e - dly) (e + dly) then 32 else 0
  if s.convIdle f c e (e + dly) then 128
  else if k.heldAt e then 2 + sub
  else
    1 + (if k.settling e len dly || e < (s.card f).since + len || s.tb.steps.any (fun q => e - dly ≤ q.1 && q.1 < e + dly) then 4 else 0)
      + (if ovr || meets k.ovr (e - dly) (e + dly) || s.srcBad f c (e - dly) (e + dly) then 8 else 0)
      + (if k.cm.any (inSpan e) then 16 else 0) + sub

/-- The setting of a channel for which coefficients are held: 0 to 3 its gain, 4 the converter behind a charge stage (R112). -/
def State.setting (s : State) (f c : Nat) : Nat := if s.act (Reg.FC_CH_CFG_STAGE f c) = 1 then 4 else s.act (Reg.FC_CH_CFG_GAIN f c)

/-- The coefficients that correct a sample at `e` (R97): the spare's while it carries the channel. -/
def State.coefOf (s : State) (f c e : Nat) : Coef :=
  let k := s.chan f c
  if k.subst.any (inSpan e) then (s.card f).spare.coefs.get {} (s.setting f c)
  else if e < k.coefEnd then k.coefOld else k.coefs.get {} (s.setting f c)

/-- Full scale of channel `c` in V or pC (R97). -/
def State.fullScale (s : State) (f c : Nat) : Int :=
  if s.act (Reg.FC_CH_CFG_STAGE f c) = 1 then freal (qrangePc (s.act (Reg.FC_CH_CFG_QRANGE f c)))
  else fratio 5 (10 ^ s.act (Reg.FC_CH_CFG_GAIN f c))

/-- The corrected value of a converter at `e` (R97): its output less its offset, over its gain. -/
def State.corrected (s : State) (f c e : Nat) (v : Int) : Int :=
  let q := s.coefOf f c e
  fdiv (fadd v (-(fmul (s.fullScale f c) (fratio q.ofs (10 ^ 12))))) (fratio q.gain (10 ^ 12))

/-- Means of the beats that a half uses (R81), and their flags together (R84); a half without a beat has no mean. -/
def State.leadMeans (s : State) (f c start : Nat) (bs : List (Int × Int × Bool)) (settle : Nat) : Option (Int × Int) × Nat :=
  let used := (bs.zipIdx).drop settle
  let vs := used.map (fun q => s.corrected f c (start + q.2 * cclkBeat) q.1.1)
  let n := freal used.length
  (if used.isEmpty then none else some (fdiv (vs.foldl fadd 0) n, fdiv ((used.map (fun q => q.1.2.1)).foldl fadd 0) n),
   used.foldl (fun m q => Nat.lor m (s.convFlags f c (start + q.2 * cclkBeat) (42 * cclkBeat) (21 * cclkBeat) q.1.2.2)) 0)

/-- Flags of an R value (R84): every flag that a beat carried, so that an offline or a blanked beat makes it offline or blanked (DEDUCED,
from R96). -/
def leadFlags (fl : Nat) (settling : Bool) : Nat :=
  if bit fl 7 then 128 else if bit fl 1 then Nat.land fl 34 else if settling then Nat.lor fl 5 else fl

/-- The half of channel `c` that ends now, with the voltage and the current of its beats in order and whether each was overrange. A period
that ends forms R = (V+ − V−)/(I+ + I−), or (V_A + V_B)/(Ia + Ib) for three wires, from the means without SWAP_SETTLE beats, and
carries SETTLING where it began before the commit that set the compensation up. A divisor of zero, and a half that was not measured, give
a free value. -/
def leadHalf (s : State) (f c : Nat) (periodEnds : Bool) (bs : List (Int × Int × Bool)) : State :=
  let k := s.chan f c
  let x := s.act (Reg.FC_CH_CFG_LEAD_SRC f c)
  let half := 2 ^ s.act (Reg.FC_EXC_CFG_SWAP_HALF f x) * cclkBeat
  let m := s.leadMeans f c (s.now - half) bs (s.act (Reg.FC_EXC_CFG_SWAP_SETTLE f x))
  if !periodEnds then
    s.modChan f c (fun y => match m.1 with
      | some q => { y with leadV := q.1, leadI := q.2, leadFl := m.2, leadHalf := true }
      | none => { y with leadHalf := false })
  else
    let q := m.1.getD (0, 0)
    let num := if s.act (Reg.FC_CH_CFG_LEAD f c) = 1 then fadd k.leadV (-q.1) else fadd k.leadV q.1
    let den := fadd k.leadI q.2
    let known := k.leadHalf && m.1.isSome && den ≠ 0
    let fl := leadFlags (Nat.lor m.2 (if k.leadHalf then k.leadFl else 0)) (s.now < k.leadSince + 2 * half || !k.leadHalf)
    (if known then s else s.fresh).modChan f c (fun y => { y with
      leadHalf := false, rVals := ((if known then fdiv num den else Config.freeReal s.free, s.now - half, fl) :: y.rVals).take 8 })

/-- LEAD_SWAP: source `x` reverses or exchanges at a boundary with BN mod 2^m = 0; `ms` lists, for the channels it serves, the voltage and
the current of every beat of the half that ends, and whether it was overrange. -/
def leadSwap (s : State) (f x : Nat) (ms : List (Nat × List (Int × Int × Bool))) : State :=
  let m := s.act (Reg.FC_EXC_CFG_SWAP_HALF f x)
  let first := bit s.bn m
  if s.act (Reg.FC_EXC_CFG_SWAP f x) = 0 || s.act (Reg.FC_EXC_CFG_MODE f x) ≠ 3 || s.bn % 2 ^ m ≠ 0 then s
  else
    let t := s.wrB (Reg.FC_EXC_STAT_SWAP_PHASE f x) (!first)
    (ms.filter (fun q => q.1 < 32 && s.act (Reg.FC_CH_CFG_LEAD f q.1) ≠ 0 && s.act (Reg.FC_CH_CFG_LEAD_SRC f q.1) = x)).foldl
      (fun u q => leadHalf u f q.1 first q.2) t

def execLeadSwap (f x : Nat) (ms : List (Nat × List (Int × Int × Bool))) (s : State) : Host.Outcome State Fault Refusal :=
  guardItem (f < 16 && x < 8) (answer s (leadSwap s f x ms))

/-! ## Blanking (R86 to R91) -/

/-- The first MCLK edge at or after an edge. -/
def mclkCeil (e : Nat) : Nat := (e + 9) / 10 * 10

/-- Set a blanking line: the holds of every channel that selects it begin or end at the next MCLK edge. -/
def setLine (s : State) (line : Nat) (on : Bool) : State :=
  if bit s.fc.lines line = on then s
  else
    let l := setBit s.fc.lines line on
    let t := { s with fc := { s.fc with lines := l } }
    (List.range 16).foldl (fun u f => blankSync u f (mclkCeil s.now)) ((List.range 16).foldl (fun u f => u.wr (Reg.FC_BLANK_STAT_LINES f) l) t)

/-- The lowest field card in service, the source of hub-wide field barks. -/
def State.firstCard (s : State) : Nat := ((List.range 16).find? s.inService).getD 0

/-- The leader's edge, stamped at `e`, applies at `e` + 250 µs; one that arrives after its instant applies on arrival, and is late (R89). -/
def packBlank (s : State) (line : Nat) (on : Bool) (e : Nat) : State :=
  if s.now < e + 61440 then { s with fc := { s.fc with packDue := s.fc.packDue ++ [(e + 61440, line, on)] } }
  else
    let t := setLine s (2 + line) on
    if e + 61440 < s.now then
      let n := s.rd (Reg.FC_BLANK_STAT_PACK_LATE 0) + 1
      let t := (List.range 16).foldl (fun u f => u.wrSat (Reg.FC_BLANK_STAT_PACK_LATE f) n) t
      t.barkEvery cclkSec 0 (fcSrc s.firstCard) (fcCode s.firstCard 0x40) true [line]
    else t

/-- The pack edges whose instant has come apply, in their order. -/
def packTick (s : State) : State :=
  let due := s.fc.packDue.filter (fun q => q.1 ≤ s.now)
  if due.isEmpty then s
  else due.foldl (fun t q => setLine t (2 + q.2.1) q.2.2) { s with fc := { s.fc with packDue := s.fc.packDue.filter (fun q => s.now < q.1) } }

/-- BLANK_EDGE (R87, R89): an edge of a local input; the leader stamps it, sends it to the pack, and applies it to its own PK line too. -/
def blankEdge (s : State) (line : Nat) (on : Bool) : State :=
  if bit s.fc.lines line = on then s
  else
    let t := setLine s line on
    if s.rd Reg.OV_STAT_ROLE = 1 then packBlank (t.send 4 255 [line, b2n on, mclkCeil s.now]) line on (mclkCeil s.now) else t

def execBlankEdge (line : Nat) (on : Bool) (s : State) : Host.Outcome State Fault Refusal :=
  guardItem (line < 2) (answer s (blankEdge s line on))

def execPackBlankEdge (line : Nat) (on : Bool) (e : Nat) (s : State) : Host.Outcome State Fault Refusal :=
  guardItem (line < 2) (answer s (packBlank s line on e))

/-- A follower loses its path to the leader: PK0 and PK1 go inactive (R89). -/
def packLinkLost (s : State) : State :=
  let s := { s with fc := { s.fc with packDue := [] } }
  (setLine (setLine s 2 false) 3 false).bark (fcSrc s.firstCard) (fcCode s.firstCard 0x41) true []

/-- A scheduled window opens or closes (R88). -/
def windowEdge (s : State) (w : Nat) (opening : Bool) : State := if w < 4 then setLine s (4 + w) opening else s

/-- Entry to BOOT or DORMANT closes every window (R88). -/
def closeWindows (s : State) : State := (List.range 4).foldl (fun u w => setLine u (4 + w) false) s

/-! ## Common mode and overrange (R67, R92 to R95) -/

/-- The class of a common-mode fault: the first matching row of R93. `pos`, `neg`, `shield` are the means of the beat in mV;
the primed ones the means of the 64 beats before the fault (R94). While the fault stands and no row matches, the common mode back in the window
for less than 64 beats, the class stays (DESIGN CHOICE: R93 names no class for that). -/
def cmClass (s : State) (f c : Nat) (pos neg shield pos' neg' shield' : Int) : Nat :=
  let inst := s.act (Reg.FC_CH_CFG_STAGE f c) = 0
  let owd := s.act (Reg.FC_CH_CFG_OWD f c) = 1
  if inst && owd && 10500 ≤ pos then 1
  else if inst && owd && 10500 ≤ neg then 2
  else if inst && (pos - shield).natAbs ≤ 50 && 100 ≤ (pos' - shield').natAbs then 3
  else if inst && (neg - shield).natAbs ≤ 50 && 100 ≤ (neg' - shield').natAbs then 4
  else if pos + neg < 2 * signed 16 (s.act (Reg.FC_CH_CFG_CM_LO f c)) then 5
  else if 2 * signed 16 (s.act (Reg.FC_CH_CFG_CM_HI f c)) < pos + neg then 6
  else s.rd (Reg.FC_CH_STAT_CM_CLASS f c)

/-- The pin means as FC_CM_VAL shows them. -/
def showCm (s : State) (f c : Nat) (pos neg : Int) : State :=
  (s.wr (Reg.FC_CM_VAL_POS_MV f c) (unsigned 16 (clamp (-12000) 12000 pos))).wr (Reg.FC_CM_VAL_NEG_MV f c) (unsigned 16 (clamp (-12000) 12000 neg))

/-- CM_FAULT (R92): at the end of the second beat outside the window. While it stands, the class is judged again each beat.
Nothing is set on a held channel (R91). -/
def cmFault (s : State) (f c : Nat) (pos neg shield pos' neg' shield' : Int) : State :=
  let t := showCm s f c pos neg
  let cls := cmClass s f c pos neg shield pos' neg' shield'
  let out := decide (pos + neg < 2 * signed 16 (s.act (Reg.FC_CH_CFG_CM_LO f c)))
    || decide (2 * signed 16 (s.act (Reg.FC_CH_CFG_CM_HI f c)) < pos + neg)
  if (s.chan f c).causes ≠ 0 then t
  else if s.flag (Reg.FC_CH_STAT_CM_FAULT f c) then t.wr (Reg.FC_CH_STAT_CM_CLASS f c) cls
  else if out && s.fcUp f then
    let t := t.modChan f c (fun k => { k with cm := openSpan (s.now - 2 * cclkBeat) k.cm })
    (((((t.set (Reg.FC_CH_STAT_CM_FAULT f c)).set (Reg.FC_CH_STAT_CM_SEEN f c)).wr (Reg.FC_CH_STAT_CM_CLASS f c) cls)).count
      (Reg.FC_CNT_CM_EVENTS f)).bark (fcSrc f) (fcCode f 0x10) true [c, cls]
  else t

def execCmFault (f c : Nat) (pos neg shield pos' neg' shield' : Int) (s : State) : Host.Outcome State Fault Refusal :=
  guardItem (f < 16 && c < 32) (answer s (cmFault s f c pos neg shield pos' neg' shield'))

/-- CM_CLEAR (R92): after 64 beats within the window. -/
def cmClear (s : State) (f c : Nat) (pos neg : Int) : State :=
  let t := showCm s f c pos neg
  if s.flag (Reg.FC_CH_STAT_CM_FAULT f c) then
    ((((t.clr (Reg.FC_CH_STAT_CM_FAULT f c)).clr (Reg.FC_CH_STAT_CM_CLASS f c)).modChan f c (fun k => { k with cm := closeSpan s.now k.cm }))).bark
      (fcSrc f) (fcCode f 0x11) false [c]
  else t

def execCmClear (f c : Nat) (pos neg : Int) (s : State) : Host.Outcome State Fault Refusal :=
  guardItem (f < 16 && c < 32) (answer s (cmClear s f c pos neg))

/-- OVERRANGE (R67): the channel's overrange state rises, or falls. -/
def overrange (s : State) (f c : Nat) (on : Bool) : State :=
  if (s.chan f c).causes ≠ 0 then s
  else if on && !s.flag (Reg.FC_CH_STAT_OVERRANGE f c) then
    let s := s.modChan f c (fun k => { k with ovr := openSpan s.now k.ovr })
    (((s.set (Reg.FC_CH_STAT_OVERRANGE f c)).set (Reg.FC_CH_STAT_OR_SEEN f c)).count (Reg.FC_CNT_OR_EVENTS f)).barkEvery cclkSec (32 * f + c)
      (fcSrc f) (fcCode f 0x12) true [c]
  else if !on then (s.modChan f c (fun k => { k with ovr := closeSpan s.now k.ovr })).clr (Reg.FC_CH_STAT_OVERRANGE f c) else s

def execOverrange (f c : Nat) (on : Bool) (s : State) : Host.Outcome State Fault Refusal :=
  guardItem (f < 16 && c < 32) (answer s (overrange s f c on))

def fcCnts (f : Nat) : List Fld := [Reg.FC_CNT_CM_EVENTS f, Reg.FC_CNT_OR_EVENTS f, Reg.FC_CNT_QRST_AUTO f, Reg.FC_CNT_COMMITS f]

/-- A write of FC_CNT_CLR (R392): bits 0 to 3 the counters, 4 the reset counts of every channel, 5 the hub's PACK_LATE. -/
def fcCntClr (s : State) (f clr : Nat) : State :=
  let t := s.clearCnts (fcCnts f) clr
  let t := t.when (bit clr 4) (fun u => (List.range 32).foldl (fun w c => w.clr (Reg.FC_QRST_CNT_COUNT f c)) u)
  t.when (bit clr 5) (fun u => (List.range 16).foldl (fun w g => w.clr (Reg.FC_BLANK_STAT_PACK_LATE g)) u)

def execFcCntClr (src : WrSrc) (f clr : Nat) (s : State) : Host.Outcome State Fault Refusal :=
  guardItem (f < 16) (answer s (s.write src .FC_CNT_CLR f 0 false (fun t => (fcCntClr t f clr).journalW src .FC_CNT_CLR f 0 clr)))

/-! ## Steps of AT (R43, R73) and beat boundaries -/

/-- The place of an edge after array time steps from `now` to `e`: its distance from the step stays (R43). -/
def shiftEdge (now e x : Nat) : Nat := x + e - now

/-- The spans of a list, moved with a step of AT. -/
def shiftSpans (now e : Nat) (l : List (Nat × Option Nat)) : List (Nat × Option Nat) :=
  l.map (fun q => (shiftEdge now e q.1, q.2.map (shiftEdge now e)))

/-- A channel after a step of AT to `e`: what it knows of the past moves along; a reset that was due comes at the step, which ends a beat. -/
def Chan.step (x : Chan) (now e : Nat) : Chan :=
  { x with held := shiftSpans now e x.held, cm := shiftSpans now e x.cm, ovr := shiftSpans now e x.ovr, dead := shiftSpans now e x.dead,
           subst := shiftSpans now e x.subst, rstDue := x.rstDue.map (fun _ => e), carryAt := shiftEdge now e x.carryAt,
           coefEnd := shiftEdge now e x.coefEnd, leadHalf := false, leadSince := e,
           rVals := x.rVals.map (fun q => (q.1, shiftEdge now e q.2.1, q.2.2)) }

/-- The channels of a card that reference a SINE source are held under R63 where the step moves its phase (R73). -/
def stepHold (s : State) (f e : Nat) : State :=
  let cs := (List.range 32).filter (fun c => (namedSources (s.active f) f c).any (fun x => s.srcOn f x && s.act (Reg.FC_EXC_CFG_MODE f x) = 1))
  if cs.isEmpty then s
  else
    let t := cs.foldl (fun u c => u.modChan f c (fun k => k.hold causeCOMMIT e)) s
    (t.modCard f (fun k => { k with phase := 1, affected := (k.affected ++ cs).eraseDups })).set (Reg.FC_CFG_STAT_SWITCHING f)

/-- The field cards at a step of AT to `e`. -/
def settleAll (s : State) (e : Nat) : State :=
  (List.range 16).foldl (fun u f =>
    let t := u.modCard f (fun k => { k with
      since := shiftEdge u.now e k.since, bad := Sparse.mapD [] (fun _ l => shiftSpans u.now e l) k.bad,
      due := k.due.map (fun c => { c with at_ := min c.at_ u.run }) })
    stepHold ((List.range 32).foldl (fun w c => w.modChan f c (fun k => k.step u.now e)) t) f e) s

/-- At a beat boundary the resets that are due begin (R69). -/
def resetsDue (s : State) : State :=
  s.fc.cards.foldl (fun u q => q.2.chans.foldl (fun w k =>
    match k.2.rstDue with
    | some b => if b ≤ s.now then beginReset w q.1 k.1 else w
    | none => w) u) s

end Sys2Proof.Machine
end

