-- ==== Sys2Proof/Machine/Convert.lean ====
section
/-! DEFINITION. The rotating spare and converter faults (R105 to R121), and the reference recalibration of R384. Magnitudes of
the verification and calibration are counts of 10^-12 of full scale. -/

namespace Sys2Proof.Machine

/-! ## Phases and rotation -/

def spIDLE : Nat := 0
def spSELF : Nat := 1
def spFWD : Nat := 2
def spCAL : Nat := 3
def spRET : Nat := 4
def spWAIT : Nat := 5
def spPARKED : Nat := 6
def spOUT : Nat := 7
def spPAUSED : Nat := 8
def spCHECK : Nat := 9

def State.spPhase (s : State) (f : Nat) : Nat := s.rd (Reg.FC_SPARE_STAT_PHASE f)
def State.spCh (s : State) (f : Nat) : Nat := s.rd (Reg.FC_SPARE_STAT_CH f)
def State.setPhase (s : State) (f p : Nat) : State := s.wr (Reg.FC_SPARE_STAT_PHASE f) p
def State.spare (s : State) (f : Nat) : SpareSt := (s.card f).spare
def State.modSpare (s : State) (f : Nat) (g : SpareSt → SpareSt) : State := s.modCard f (fun k => { k with spare := g k.spare })

/-- Consumer ID of a card's spare rotation (R288). -/
def spCid (f : Nat) : Nat := 0x50 + f

/-- A turn is running. -/
def State.turning (s : State) (f : Nat) : Bool :=
  let p := s.spPhase f
  p = spSELF || p = spFWD || p = spCAL || p = spRET || p = spCHECK

/-- Converter `c` is in rotation (R106). -/
def State.inRotation (s : State) (f c : Nat) : Bool :=
  let cfg := s.active f
  let pins := !(pinsOf cfg f 1 c 2).isEmpty && !(pinsOf cfg f 2 c 2).isEmpty
  (pins || cfgGet cfg (Reg.FC_CH_CFG_LEAD f c) = 2) && !bit (s.rd (Reg.FC_SPARE_EXCL_EXCL f)) c && !s.flag (Reg.FC_CONV_STAT_MASKED f c)

/-- CYCLE as it acts, in CCLK. -/
def State.spCycle (s : State) (f : Nat) : Nat := max 8 (s.rd (Reg.FC_SPARE_CTRL_CYCLE f)) * cclkSec

/-- VERIFY as it acts. -/
def State.spVerify (s : State) (f : Nat) : Nat := max 1 (s.rd (Reg.FC_SPARE_CTRL_VERIFY f))

/-- Rotation runs: the modes of R121; it pauses during an update (R381). -/
def State.rotates (s : State) (f : Nat) : Bool := s.sampling && s.fcUp f && s.flag (Reg.FC_SPARE_CTRL_EN f) && (s.slot f).standby.isNone

/-- The converter that is masked on the card (R116). -/
def State.maskedCh (s : State) (f : Nat) : Option Nat := (List.range 32).find? (fun c => s.flag (Reg.FC_CONV_STAT_MASKED f c))

/-- Beats of a calibration phase; C of R107 is four of them. -/
def State.calBeats (s : State) (f : Nat) : Nat := 2 ^ max 10 (s.rd (Reg.FC_SPARE_CTRL_CAL_LEN f))

/-- At least `n` beats of the present phase have passed. -/
def State.phaseAged (s : State) (f n : Nat) : Bool := s.elapsed (s.spare f).since (n * cclkBeat)

/-- What the working converter of channel `c` is connected to (R107): its pins or tap, the references from H + 1 to H + 1 + C, else
nothing. A masked converter stays open. -/
def State.workInput (s : State) (f c : Nat) : ConvIn :=
  if s.spPhase f = spCAL && s.spCh f = c then
    (if s.phaseAged f 1 && !s.phaseAged f (1 + 4 * s.calBeats f) then .refs else .open_)
  else if s.flag (Reg.FC_CONV_STAT_MASKED f c) then .open_ else .input c

/-- What the spare is connected to (R107, R112, R114, R117): the references in its self turn and its check, else the pins or the tap of the
channel it joins. -/
def State.spareInput (s : State) (f : Nat) : ConvIn :=
  let p := s.spPhase f
  if p = spSELF || p = spCHECK then .refs
  else if p = spFWD || p = spCAL || p = spRET then .input (s.spCh f)
  else match s.maskedCh f with | some c => .input c | none => .open_

/-! ## Starting a turn (R106, R107, R120) -/

/-- A new cycle begins: its members, in ascending order, after the self turn. -/
def beginCycle (s : State) (f : Nat) (at_ : Nat) : State :=
  let ms := (List.range 32).filter (s.inRotation f)
  (s.modSpare f (fun p => { p with cycleAt := some at_, nextAt := none, place := 0, todo := ms, members := ms.length })).clr (Reg.FC_SPARE_STAT_TURNS f)

/-- What is to run next: none (self), or a converter; and its due instant. FORCE and RESTORE are due at once. -/
def State.nextTurn (s : State) (f : Nat) : Option (Option Nat × Nat) :=
  let p := s.spare f
  if p.restore then some (some (s.rd (Reg.FC_SPARE_STAT_PARKED_CH f)), 0)
  else match p.force with
    | some c => some (some c, 0)
    | none =>
      match p.cycleAt with
      | none => none
      | some t0 =>
        if p.place = 0 then some (none, t0)
        else match p.todo with
          | [] => none
          | c :: _ => some (some c, t0 + p.place * s.spCycle f / (p.members + 1))

/-- The settings that a self turn calibrates (R117): every stage and gain that is active, and the tap path. -/
def State.selfSettings (s : State) (f : Nat) : List Nat :=
  (((List.range 32).filter (connected (s.active f) f)).map (s.setting f) ++ [4]).eraseDups

/-- A new phase of the turn begins. -/
def enterPhase (s : State) (f p : Nat) : State :=
  (s.setPhase f p).modSpare f (fun q => { q with since := s.run, compared := 0, excluded := 0, calFault := false })

/-- The turn begins at T: the self turn, forward verification, or, for a masked converter, its calibration. -/
def runTurn (s : State) (f : Nat) (who : Option Nat) : State :=
  let p := s.spare f
  let own := !p.restore && p.force.isNone
  let s0 := s.modSpare f (fun q => { q with
    calFails := 0, retFails := 0, restoring := p.restore, selfSet := s.selfSettings f,
    place := if own then q.place + 1 else q.place, todo := if own && 0 < p.place then q.todo.drop 1 else q.todo, restore := false, force := none })
  match who with
  | none => enterPhase s0 f spSELF
  | some c => enterPhase (s0.wr (Reg.FC_SPARE_STAT_CH f) c) f (if p.restore then spCAL else spFWD)

/-- SPARE_TURN_START: at a beat boundary a due turn starts once its 0.4 W are granted; until then PHASE reads WAIT_BUDGET. A cycle whose
start has come begins here, with the members it has then (R106). -/
def spareTurnStart (s : State) (f : Nat) : State :=
  let ph := s.spPhase f
  let ok := (ph = spIDLE || ph = spWAIT || ph = spPAUSED || ph = spPARKED) && ((s.maskedCh f).isNone || (s.spare f).restore)
  if !ok || !s.sampling || !s.fcUp f || (s.spare f).refSince.isSome then s
  else if !s.flag (Reg.FC_SPARE_CTRL_EN f) && !(s.spare f).restore then (s.setPhase f spPAUSED).withdraw 1 (spCid f)
  else
    let start := (s.spare f).nextAt.getD s.run
    let t := if (s.spare f).cycleAt.isNone && start ≤ s.run then beginCycle s f start else s
    match t.nextTurn f with
    | none => t.setPhase f spIDLE
    | some (who, due) =>
      if t.run < due then t.setPhase f spIDLE
      else if t.hasGrant 1 (spCid f) then runTurn t f who
      else
        let t := if t.waitsFor 1 (spCid f) then t else t.request 1 2 (spCid f) 4
        t.setPhase f spWAIT

def execSpareTurnStart (f : Nat) (s : State) : Host.Outcome State Fault Refusal := guardItem (f < 16) (answer s (spareTurnStart s f))

/-! ## The end of a turn -/

/-- The spare stands free again, or parked again on a converter that is still masked: the reservation returns; after the last turn of a
cycle the next one starts when its time has come, at once when it is late (R106). -/
def freeSpare (s : State) (f : Nat) : State :=
  let t := (s.modSpare f (fun q => { q with ending := none, restoring := false })).release 1 (spCid f) 0
  let t := match t.maskedCh f with
    | some c => (t.wr (Reg.FC_SPARE_STAT_PARKED_CH f) c).setPhase f spPARKED
    | none => t.setPhase f (if s.flag (Reg.FC_SPARE_CTRL_EN f) then spIDLE else spPAUSED)
  let p := t.spare f
  let t := match p.cycleAt with
    | some t0 => if p.todo.isEmpty && 0 < p.place then t.modSpare f (fun q => { q with cycleAt := none, nextAt := some (max t.run (t0 + t.spCycle f)) }) else t
    | none => t
  if (t.spare f).refWait then
    (t.wr (Reg.FC_REFCAL_CTRL_STATE f) 2).modSpare f (fun q => { q with refWait := false, refSince := some t.run })
  else t

/-- A turn ends: counted. -/
def endTurn (s : State) (f : Nat) : State := freeSpare ((s.count (Reg.FC_SPARE_STAT_TURNS f)).count (Reg.FC_SPARE_CNT_TURNS f)) f

/-- The turn's end comes at the next beat boundary. -/
def endAt (s : State) (f : Nat) (e : SpareEnd) : State := s.modSpare f (fun q => { q with ending := some (e, s.run + cclkBeat) })

/-- The rate filters of channel `c` switch to the spare at H, or back at H′ (R107, R110). -/
def substOn (s : State) (f c : Nat) (e : Nat) : State :=
  (s.set (Reg.FC_CH_STAT_SUBST f c)).modChan f c (fun k => { k with subst := openSpan e k.subst })
def substOff (s : State) (f c : Nat) (e : Nat) : State :=
  (s.clr (Reg.FC_CH_STAT_SUBST f c)).modChan f c (fun k => { k with subst := closeSpan e k.subst })

/-- Samples settle for one filter length from `e`, with no hold. -/
def settleFrom (s : State) (f c : Nat) (e : Nat) : State :=
  s.modChan f c (fun k => { k with held := (k.held.filter (fun q => q.2.isNone)) ++ (e, some e) :: k.held.filter (fun q => q.2.isSome) })

/-- Coefficients under verification are dropped: the converter keeps its accepted ones. -/
def dropTrial (s : State) (f c : Nat) : State := s.modChan f c (fun k => { k with trial := none })

/-- A turn ends without its result, by a mode or with its card (R121): a substituted converter returns to its pins with its previous
coefficients, but a masked one stays masked. -/
def abandonTurn (s : State) (f : Nat) : State :=
  let c := s.spCh f
  let back := (s.spPhase f = spCAL || s.spPhase f = spRET) && !s.flag (Reg.FC_CONV_STAT_MASKED f c)
  applyDeferred (freeSpare (dropTrial (if back then substOff s f c s.now else s) f c) f) f

/-- The spare goes out of service until its card is replaced (R117). -/
def spareOut (s : State) (f : Nat) : State :=
  (((s.setPhase f spOUT).modSpare f (fun q => { q with out := true, ending := none })).release 1 (spCid f) 0).bark (fcSrc f) (fcCode f 0x54) true []

/-- Serial number of the seated card. -/
def State.serialOf (s : State) (f : Nat) : Nat := (s.slot f).serial

/-- Mask converter `c` (R116): previous coefficients, spare parked on it, written to the kennel. -/
def maskConv (s : State) (f c : Nat) : State :=
  let t := if s.flag (Reg.FC_CH_STAT_SUBST f c) then s else substOn s f c s.now
  let t := ((dropTrial t f c).set (Reg.FC_CONV_STAT_MASKED f c)).modSpare f (fun q => { q with ending := none, restoring := false })
  let t := (t.wr (Reg.FC_SPARE_STAT_PARKED_CH f) c).setPhase f spPARKED
  let key := s.serialOf f * 32 + c
  let t := { t with kn := { t.kn with masks := if t.kn.masks.contains key then t.kn.masks else t.kn.masks ++ [key] } }
  (applyDeferred (t.release 1 (spCid f) 0) f).bark (fcSrc f) (fcCode f 0x53) true [c]

/-- H′ (R107, R109): the rate filters switch back to the working converter, on its new coefficients where it has them. Answers its gain
change in 10^-12. -/
def handOver (s : State) (f c : Nat) : State × Int :=
  let k := s.chan f c
  let n := s.setting f c
  let old := k.coefs.get {} n
  let new := k.trial.getD old
  ((substOff s f c s.now).modChan f c (fun y => { y with
    coefs := y.coefs.put {} n new, coefOld := old, coefEnd := s.now, trial := none, calAt := if k.trial.isSome then s.run else y.calAt }),
   new.gain - old.gain)

/-- H′ of a turn that succeeds; one of RESTORE unmasks its converter (R116). At H′ + 1 the turn ends (R107). -/
def handBack (s : State) (f c : Nat) : State :=
  let q := handOver s f c
  let t := if (s.spare f).restoring then
    let key := s.serialOf f * 32 + c
    let u := { q.1 with kn := { q.1.kn with masks := q.1.kn.masks.filter (fun k => k ≠ key) } }
    (u.clr (Reg.FC_CONV_STAT_MASKED f c)).bark (fcSrc f) (fcCode f 0x59) false [c] else q.1
  applyDeferred (endAt t f (.finish (rne q.2 1000000))) f

/-- What comes at a boundary at the end of a turn (R107, R109). A turn that was abandoned is not counted in FC_SPARE_STAT.TURNS and raises
no SPARE_TURN (DESIGN CHOICE: R109 gives it SKIPPED and SPARE_SKIP alone). -/
def spareEnds (s : State) (f : Nat) (e : SpareEnd) : State :=
  match e with
  | .free => applyDeferred (freeSpare s f) f
  | .handback => applyDeferred (endAt (handOver s f (s.spCh f)).1 f .free) f
  | .finish d => (endTurn s f).bark (fcSrc f) (fcCode f 0x50) false [s.spCh f, unsigned 32 d]

/-- At a beat boundary the turns end whose end has come. -/
def sparesDue (s : State) : State :=
  (List.range 16).foldl (fun u f => match (u.spare f).ending with
    | some (e, at_) => if at_ ≤ u.run then spareEnds u f e else u
    | none => u) s

/-! ## Verification (R105, R108, R109) -/

/-- ABS of a channel, ppm of full scale. -/
def State.absTol (s : State) (f c : Nat) : Nat :=
  if s.act (Reg.FC_CH_CFG_STAGE f c) = 1 then s.rd (Reg.FC_SPARE_TOL_ABS_Q f)
  else
    let g := s.act (Reg.FC_CH_CFG_GAIN f c)
    if g ≤ 1 then s.rd (Reg.FC_SPARE_TOL_ABS_G1 f) else if g = 2 then s.rd (Reg.FC_SPARE_TOL_ABS_G100 f) else s.rd (Reg.FC_SPARE_TOL_ABS_G1000 f)

/-- A block passes when |d| ≤ ABS + REL × m. -/
def State.blockPasses (s : State) (f c : Nat) (d : Int) (m : Nat) : Bool :=
  d.natAbs * 1000000 ≤ s.absTol f c * 1000000000000 + s.rd (Reg.FC_SPARE_TOL_REL f) * m

/-- A beat of the 64 that end now yields, through a verification filter of 42 beats, a value that carries BLANKED, SETTLING, OVERRANGE or
CM_FAULT, or a hold touches one (R109). -/
def State.blockTouched (s : State) (f c : Nat) : Bool :=
  let k := s.chan f c
  let a := s.now - 64 * cclkBeat
  let b := s.now + 20 * cclkBeat
  k.held.any (fun q => q.1 < b && match q.2 with | none => true | some e => a < e + 42 * cclkBeat)
    || a < (s.card f).since + 42 * cclkBeat || meets k.cm a s.now || meets k.ovr (a - 21 * cclkBeat) b || s.srcBad f c (a - 21 * cclkBeat) b

/-- H: the channel takes the spare, and what was deferred applies (R107, R113). -/
def substitute (s : State) (f c : Nat) : State := applyDeferred (enterPhase (substOn s f c s.now) f spCAL) f

/-- A calibration or a return verification fails: once it is repeated, the second time the converter is masked (R115). -/
def calOrRetFail (s : State) (f c : Nat) (n : Nat) : State := if n = 0 then enterPhase (dropTrial s f c) f spCAL else maskConv s f c

/-- The excluded blocks reach their limit (R109): the turn is abandoned at the next beat boundary. A turn of RESTORE leaves its converter
masked and the spare on it (DEDUCED: R116 clears the mask only where the turn succeeds). -/
def skipTurn (s : State) (f c : Nat) : State :=
  let t := (s.count (Reg.FC_SPARE_CNT_SKIPPED f)).bark (fcSrc f) (fcCode f 0x55) false [c]
  if s.spPhase f = spFWD then endAt t f .free
  else if (s.spare f).restoring then endAt (dropTrial t f c) f .free else endAt t f .handback

/-- The block of a verification that ends now has been filled: 64 beats after the fill, which begins at T + 1 or at H + 2 + C (R107). -/
def State.blockReady (s : State) (f : Nat) : Bool :=
  let p := s.spare f
  p.ending.isNone && s.phaseAged f ((if s.spPhase f = spFWD then 65 else 64) + 64 * (p.compared + p.excluded + 1))

/-- SPARE_VERIFY_BLOCK: one block's mean difference `d` and mean magnitude `m`, and whether a beat was overrange. -/
def verifyBlock (s : State) (f : Nat) (d : Int) (m : Nat) (ovr : Bool) : State :=
  let c := s.spCh f
  let ph := s.spPhase f
  let n := s.spVerify f
  let p := s.spare f
  if (ph ≠ spFWD && ph ≠ spRET) || !s.blockReady f then s
  else if ovr || s.blockTouched f c then
    let t := s.modSpare f (fun q => { q with excluded := q.excluded + 1 })
    if p.excluded + 1 < 4 * n then t else skipTurn t f c
  else if s.blockPasses f c d m then
    if p.compared + 1 < n then s.modSpare f (fun q => { q with compared := q.compared + 1 })
    else if ph = spFWD then substitute s f c else handBack s f c
  else if ph = spFWD then
    enterPhase ((s.count (Reg.FC_SPARE_CNT_FWD_FAIL f)).bark (fcSrc f) (fcCode f 0x51) true [c]) f spCHECK
  else
    let t := (s.count (Reg.FC_SPARE_CNT_RET_FAIL f)).bark (fcSrc f) (fcCode f 0x51) true [c]
    calOrRetFail (t.modSpare f (fun q => { q with retFails := q.retFails + 1 })) f c p.retFails

def execSpareVerifyBlock (f : Nat) (d : Int) (m : Nat) (ovr : Bool) (s : State) : Host.Outcome State Fault Refusal :=
  guardItem (f < 16) (answer s (verifyBlock s f d m ovr))

/-! ## Calibration (R111) -/

/-- The beats of a phase that count: the first 64 are discarded. -/
def calUsed (l : List Int) : List Int := l.drop 64

/-- Their mean. -/
def calMean (l : List Int) : Int := rne (calUsed l).sum (calUsed l).length

/-- Their standard deviation lies beyond `lim`. -/
def calNoisy (l : List Int) (lim : Nat) : Bool :=
  let u := calUsed l
  let n : Int := u.length
  decide (n * n * (lim * lim : Nat) < n * (u.map (fun x => x * x)).sum - u.sum * u.sum)

/-- g = (P − N) / (1.8 × full scale), in 10^-12. -/
def calGain (p n : Int) : Int := rne ((p - n) * 10) 18

/-- The first failing check of R111 for the phase means; 0 none. `noisy` is check 5 and `fault` check 6; `fac` the factory gain and `prev` the
accepted one. -/
def calCode (z p n m : Int) (noisy fault : Bool) (fac prev : Int) (step : Nat) : Nat :=
  let g := calGain p n
  if 1000000000 < z.natAbs then 1
  else if 2000000000 < (g - fac).natAbs then 2
  else if (max 1 step) * 1000000 < (g - prev).natAbs then 3
  else if 500000000 < (100 * m - 100 * z - 45 * g).natAbs then 4
  else if noisy then 5 else if fault then 6 else 0

/-- The factory gain of converter `c`, 32 the spare, at a setting. -/
def State.factoryGain (s : State) (f c setting : Nat) : Int := (s.card f).factory.get 1000000000000 (8 * c + setting)

/-- The verdict of R111 on the beat values of four phases, for converter `c` with its accepted coefficients `q`. -/
def State.calVerdict (s : State) (f c setting : Nat) (q : Coef) (fault : Bool) (z p n m : List Int) : Nat :=
  calCode (calMean z) (calMean p) (calMean n) (calMean m) (calNoisy z (3 * Config.convNoise setting)) fault (s.factoryGain f c setting) q.gain
    (s.rd (Reg.FC_SPARE_TOL_CAL_STEP f))

/-- The coefficients that the phases give. -/
def calCoef (z p n : List Int) : Coef := { gain := calGain (calMean p) (calMean n), ofs := calMean z }

/-- SPARE_CAL_END, from H + 2 + C on: the beat values of the phases Z, P, N and M of the freed converter, in 10^-12 of full scale. While the
references disagree no coefficient is accepted (R117). A calibration that is repeated after a failed return verification is judged
against the value accepted before the turn (DESIGN CHOICE: R115 does not name it): the one under verification was never accepted. -/
def calEnd (s : State) (f : Nat) (z p n m : List Int) : State :=
  let c := s.spCh f
  if s.spPhase f ≠ spCAL || !s.phaseAged f (2 + 4 * s.calBeats f) then s
  else if s.flag (Reg.FC_SPARE_STAT_REF_DRIFT f) then enterPhase s f spRET
  else
    let code := s.calVerdict f c (s.setting f c) ((s.chan f c).coefs.get {} (s.setting f c)) (s.spare f).calFault z p n m
    if code = 0 then enterPhase (s.modChan f c (fun k => { k with trial := some (calCoef z p n) })) f spRET
    else
      let t := (s.wr (Reg.FC_CONV_STAT_FAIL_CODE f c) code).bark (fcSrc f) (fcCode f 0x52) true [c, code]
      calOrRetFail (t.modSpare f (fun q => { q with calFails := q.calFails + 1 })) f c (s.spare f).calFails

def execSpareCalEnd (f : Nat) (z p n m : List Int) (s : State) : Host.Outcome State Fault Refusal :=
  guardItem (f < 16) (answer s (calEnd s f z p n m))

/-- The spare check of R114 passes: its offset and the residual of P, against the spare's own coefficients. -/
def checkPasses (q : Coef) (z p : List Int) : Bool :=
  (calMean z - q.ofs).natAbs ≤ 1000000000 && (10 * calMean p - 10 * q.ofs - 9 * q.gain).natAbs ≤ 50000000

/-- SPARE_CHECK_END (R114), after a Z phase and a P phase of 1,024 beats: the spare passes and substitutes without agreement, or goes OUT. -/
def checkEnd (s : State) (f : Nat) (z p : List Int) : State :=
  let c := s.spCh f
  if s.spPhase f ≠ spCHECK || !s.phaseAged f 2048 then s
  else if checkPasses ((s.spare f).coefs.get {} (s.setting f c)) z p then settleFrom (substitute s f c) f c s.now
  else applyDeferred (spareOut s f) f

def execSpareCheckEnd (f : Nat) (z p : List Int) (s : State) : Host.Outcome State Fault Refusal :=
  guardItem (f < 16) (answer s (checkEnd s f z p))

/-- Every setting of the self turn has phases that pass R111. -/
def State.selfPasses (s : State) (f : Nat) (rs : List (Nat × List Int × List Int × List Int × List Int)) : Bool :=
  (s.spare f).selfSet.all (fun n => match rs.find? (fun r => r.1 = n) with
    | none => false
    | some r => s.calVerdict f 32 n ((s.spare f).coefs.get {} n) false r.2.1 r.2.2.1 r.2.2.2.1 r.2.2.2.2 = 0)

/-- SPARE_SELF_CAL_END (R117): the phases Z, P, N and M by setting, and REF_B against REF_A in 10^-9. -/
def selfCalEnd (s : State) (f : Nat) (rs : List (Nat × List Int × List Int × List Int × List Int)) (refDiff : Int) : State :=
  if s.spPhase f ≠ spSELF || !s.phaseAged f ((s.spare f).selfSet.length * s.calBeats f) then s
  else
    let drift := decide (20000 < refDiff.natAbs)
    let t := s.wrB (Reg.FC_SPARE_STAT_REF_DRIFT f) drift
    let t := if drift then t.bark (fcSrc f) (fcCode f 0x58) true [unsigned 32 refDiff] else t
    if !s.selfPasses f rs then spareOut t f
    else
      endTurn (if drift then t else t.modSpare f (fun q => { q with
        coefs := rs.foldl (fun m r => if q.selfSet.contains r.1 then m.put {} r.1 (calCoef r.2.1 r.2.2.1 r.2.2.2.1) else m) q.coefs })) f

def execSpareSelfCalEnd (f : Nat) (rs : List (Nat × List Int × List Int × List Int × List Int)) (refDiff : Int) (s : State) :
    Host.Outcome State Fault Refusal :=
  guardItem (f < 16) (answer s (selfCalEnd s f rs refDiff))

/-! ## Converter faults (R118, R119) -/

/-- The turn on channel `x` ends at once (R118): a substituted one takes its channel back one beat on, and settles. -/
def takeBack (s : State) (f x : Nat) : State :=
  let t := dropTrial s f x
  if s.flag (Reg.FC_CH_STAT_SUBST f x) then settleFrom (substOff t f x (s.now + cclkBeat)) f x (s.now + cclkBeat) else t

/-- A fault of the spare itself: a substituted converter takes its channel back, and the spare is OUT. A channel on which the spare was
parked has no converter left, and is OFFLINE from the faulty beat on (DEDUCED, from R119). -/
def spareFault (s : State) (f : Nat) : State :=
  if s.spPhase f = spOUT then s
  else
    let t := match s.maskedCh f with
      | some c => s.modChan f c (fun k => { k with dead := openSpan (s.now - 2 * cclkBeat) k.dead })
      | none => if s.turning f then takeBack s f (s.spCh f) else s
    applyDeferred (spareOut t f) f

/-- A fault of channel `c`'s converter while the spare can take it (R118): a turn on another channel ends, and the rate filters of `c` are
cleared and switch to the spare one beat on, or two where the spare comes from another channel. Nothing of it shows where the spare
carries `c` already. -/
def convSubstitute (s : State) (f c : Nat) : State :=
  let x := s.spCh f
  let joined := s.spPhase f = spFWD || s.spPhase f = spCAL || s.spPhase f = spRET
  let fromX := joined && x ≠ c
  let t := if fromX then takeBack s f x else s
  if s.flag (Reg.FC_CH_STAT_SUBST f c) then t
  else
    let sw := s.now + (if fromX then 2 else 1) * cclkBeat
    settleFrom (substOn (t.modChan f c (fun k => { k with dead := (s.now - 2 * cclkBeat, some sw) :: k.dead })) f c sw) f c sw

/-- CONV_FAULT: declared at the end of the second faulty beat. `c` 32 is the spare. One of the freed converter during its calibration fails
that calibration with code 6 (R111). -/
def convFault (s : State) (f c : Nat) : State :=
  if c = 32 then spareFault s f
  else if s.flag (Reg.FC_CONV_STAT_MASKED f c) then s
  else if s.spPhase f = spCAL && s.spCh f = c then s.modSpare f (fun q => { q with calFault := true })
  else if (s.maskedCh f).isSome || s.spPhase f = spOUT then
    (s.modChan f c (fun k => { k with dead := openSpan (s.now - 2 * cclkBeat) k.dead })).bark (fcSrc f) (fcCode f 0x57) true [c]
  else (maskConv ((convSubstitute s f c).wr (Reg.FC_CONV_STAT_FAIL_CODE f c) 6) f c).bark (fcSrc f) (fcCode f 0x56) true [c]

def execConvFault (f c : Nat) (s : State) : Host.Outcome State Fault Refusal :=
  guardItem (f < 16 && c ≤ 32) (answer s (if s.domOn f then convFault s f c else s))

/-! ## FORCE, RESTORE, counters -/

/-- The other software-owned fields of FC_SPARE_CTRL. -/
def spareFields (f : Nat) : List Fld :=
  [Reg.FC_SPARE_CTRL_EN f, Reg.FC_SPARE_CTRL_VERIFY f, Reg.FC_SPARE_CTRL_CAL_LEN f, Reg.FC_SPARE_CTRL_CYCLE f]

/-- FC_SPARE_CTRL.FORCE (R106): ignored for a channel not in rotation. -/
def spareForce (s : State) (f ch : Nat) : State :=
  let t := s.wr (Reg.FC_SPARE_CTRL_FORCE_CH f) ch
  if t.inRotation f ch && t.spPhase f ≠ spPARKED && t.spPhase f ≠ spOUT then t.modSpare f (fun p => { p with force := some ch }) else t

def execSpareForce (src : WrSrc) (f ch : Nat) (s : State) : Host.Outcome State Fault Refusal :=
  guardItem (f < 16 && ch < 32) (answer s (s.write src .FC_SPARE_CTRL f 0 true (fun t =>
    (spareForce t f ch).journalW src .FC_SPARE_CTRL f 0 (t.wordWith (2 ^ 24 + ch * 2 ^ 25) (spareFields f)))))

/-- FC_SPARE_CTRL.RESTORE (R116): one further turn on the masked channel. -/
def spareRestore (s : State) (f ch : Nat) : State :=
  let t := s.wr (Reg.FC_SPARE_CTRL_FORCE_CH f) ch
  if t.spPhase f = spPARKED && t.rd (Reg.FC_SPARE_STAT_PARKED_CH f) = ch then t.modSpare f (fun p => { p with restore := true }) else t

def execSpareRestore (src : WrSrc) (f ch : Nat) (s : State) : Host.Outcome State Fault Refusal :=
  guardItem (f < 16 && ch < 32) (answer s (s.write src .FC_SPARE_CTRL f 0 true (fun t =>
    (spareRestore t f ch).journalW src .FC_SPARE_CTRL f 0 (t.wordWith (2 ^ 30 + ch * 2 ^ 25) (spareFields f)))))

def spareCnts (f : Nat) : List Fld :=
  [Reg.FC_SPARE_CNT_TURNS f, Reg.FC_SPARE_CNT_FWD_FAIL f, Reg.FC_SPARE_CNT_RET_FAIL f, Reg.FC_SPARE_CNT_SKIPPED f]

/-- A write of FC_SPARE_CNT_CLR (R392). -/
def execFcSpareCntClr (src : WrSrc) (f clr : Nat) (s : State) : Host.Outcome State Fault Refusal :=
  guardItem (f < 16) (answer s (s.write src .FC_SPARE_CNT_CLR f 0 false (fun t =>
    (t.clearCnts (spareCnts f) clr).journalW src .FC_SPARE_CNT_CLR f 0 clr)))

/-! ## Reference recalibration (R384) -/

/-- REFCAL_START: pins not OFF give REASON 1, a value out of range REASON 2; else the run waits for the running turn. -/
def refcalStart (s : State) (f : Nat) : State :=
  let off (n : Nat) : Bool := s.act (Reg.FC_XPT_ROLE_ROLE f n) = 0
  let v := s.rdS (Reg.FC_REFCAL_UV_UV f)
  let fail (r : Nat) : State := (s.wr (Reg.FC_REFCAL_CTRL_REASON f) r).bark (fcSrc f) (fcCode f 0x61) true [r]
  if !off (s.rd (Reg.FC_REFCAL_CTRL_PIN_P f)) || !off (s.rd (Reg.FC_REFCAL_CTRL_PIN_N f)) then fail 1
  else if v < 4000000 || 4900000 < v then fail 2
  else
    let t := s.clr (Reg.FC_REFCAL_CTRL_REASON f)
    if t.turning f then (t.wr (Reg.FC_REFCAL_CTRL_STATE f) 1).modSpare f (fun p => { p with refWait := true })
    else (t.wr (Reg.FC_REFCAL_CTRL_STATE f) 2).modSpare f (fun p => { p with refSince := some t.run })

def execRefcalStart (src : WrSrc) (f : Nat) (s : State) : Host.Outcome State Fault Refusal :=
  guardItem (f < 16) (answer s (s.write src .FC_REFCAL_CTRL f 0 true (fun t => (refcalStart t f).journalW src .FC_REFCAL_CTRL f 0
      (t.wordWith 4096 [Reg.FC_REFCAL_CTRL_PIN_P f, Reg.FC_REFCAL_CTRL_PIN_N f]))))

/-- REFCAL_DONE: after 64 s the new values of REF_A and REF_B, or REASON 3 when one moves by more than 50 ppm. -/
def refcalDone (s : State) (f : Nat) (a b : Int) : State :=
  match (s.spare f).refSince with
  | none => s
  | some t0 =>
    if !s.elapsed t0 (64 * cclkSec) then s
    else
      let old := (s.card f).refs
      let t := s.modSpare f (fun p => { p with refSince := none })
      if 50000 < (a - old.1).natAbs || 50000 < (b - old.2).natAbs then
        ((t.wr (Reg.FC_REFCAL_CTRL_STATE f) 0).wr (Reg.FC_REFCAL_CTRL_REASON f) 3).bark (fcSrc f) (fcCode f 0x61) true [3]
      else
        (((t.modCard f (fun k => { k with refs := (a, b), refAt := t.run })).wr (Reg.FC_REFCAL_CTRL_STATE f) 3).clr (Reg.FC_REFCAL_CTRL_REF_AGE f)).bark
          (fcSrc f) (fcCode f 0x60) false [unsigned 32 (rne (a - old.1) 1000), unsigned 32 (rne (b - old.2) 1000)]

def execRefcalDone (f : Nat) (a b : Int) (s : State) : Host.Outcome State Fault Refusal :=
  guardItem (f < 16) (answer s (refcalDone s f a b))

/-- Any turn ends, running or waiting. -/
def dropTurn (s : State) (f : Nat) : State :=
  if s.turning f then abandonTurn s f else if s.spPhase f = spWAIT then freeSpare s f else s

/-- What becomes due in the field cards at an edge: pack edges, and at a beat boundary the resets and the ends of turns (R69, R89, R107). -/
def fieldTick (s : State) : State :=
  let t := packTick s
  if t.now % cclkBeat = 0 then sparesDue (resetsDue t) else t

/-- Entry to BOOT or SELFTEST ends any turn (R121). -/
def endAllTurns (s : State) : State := (List.range 16).foldl dropTurn s

end Sys2Proof.Machine
end

