-- ==== Sys2Proof/Machine/Record.lean ====
section
/-! DEFINITION. Slots, records, retention and the delivery path (R158 to R168, R319, R320): how a stream's slots become
records, and where a formed record goes. -/

namespace Sys2Proof.Machine

/-! ## Streams and their definitions (R139) -/

/-- Decode the 56 bytes of a definition. -/
def parseDef (b : List Nat) : SDef :=
  { id := leAt b 0 2, kind := leAt b 2 1, out := leAt b 3 1, index := leAt b 4 2, clock := leAt b 6 1, clockArg := leAt b 7 1,
    filter := leAt b 8 1, reduce := leAt b 9 1, redArg := leAt b 10 1, stat := leAt b 11 1, curve := leAt b 12 1,
    format := leAt b 13 1, q := signed 8 (leAt b 14 1), opts := leAt b 15 1, gain := leAt b 16 8, offset := leAt b 24 8,
    recCount := leAt b 32 2, recAge := leAt b 34 2, cj := leAt b 36 4, ra := leAt b 40 4, rb := leAt b 44 4, trig := leAt b 48 1,
    trigFlag := leAt b 49 1, tail := (b.drop 50).take 6 }

def optSTOW_KEEP (d : SDef) : Bool := bit d.opts 0
def optINCL_SETTLING (d : SDef) : Bool := bit d.opts 1
def optINCL_OVERRANGE (d : SDef) : Bool := bit d.opts 2
def optINCL_CM (d : SDef) : Bool := bit d.opts 3
def optRETRIG (d : SDef) : Bool := bit d.opts 4
def optCJ_FIXED (d : SDef) : Bool := bit d.opts 5

def State.stream (s : State) (i : Nat) : Option Stream := s.rd_.streams.get none i

def State.setStream (s : State) (i : Nat) (x : Option Stream) : State :=
  { s with rd_ := { s.rd_ with streams := s.rd_.streams.put none i x } }

def State.modStream (s : State) (i : Nat) (g : Stream → Stream) : State :=
  match s.stream i with
  | none => s
  | some x => s.setStream i (some (g x))

/-- The streams that are open or pending. -/
def State.openStreams (s : State) : List Nat := s.rd_.streams.keysWhere (fun _ x => x.isSome)

/-! ## Sample flags (R162) -/

def fVALID : Nat := 1
def fBLANKED : Nat := 2
def fSETTLING : Nat := 4
def fOVERRANGE : Nat := 8
def fCM_FAULT : Nat := 16
def fSPARE_SUBST : Nat := 32
def fLATE : Nat := 64
def fOFFLINE : Nat := 128

def orFlags (a b : Nat) : Nat := Nat.lor a b
def hasFlag (f b : Nat) : Bool := Nat.land f b ≠ 0

/-! ## Records (R163 to R167) -/

/-- The tick period of a stream's regular slots, in CCLK. k is lowered to the rate of R161 while stowed. -/
def Stream.period (x : Stream) : Nat :=
  let d := x.defn
  if d.clock = 3 then 240
  else if d.reduce = 1 then
    let n := if x.stowed && d.clockArg + d.redArg < 6 then 6 - d.clockArg else d.redArg
    2 ^ (d.clockArg + n) * cclkBeat
  else if x.stowed && d.clockArg < 6 && !optSTOW_KEEP d then 2 ^ 6 * cclkBeat else 2 ^ d.clockArg * cclkBeat

/-- The source period of a beat or raw clock. -/
def Stream.srcPeriod (x : Stream) : Nat := if x.defn.reduce = 1 then 2 ^ x.defn.clockArg * cclkBeat else x.period

/-- The slots lie at the reduced rate of R161. -/
def Stream.isStowRate (x : Stream) : Bool :=
  let d := x.defn
  x.stowed && d.clock = 0 && (if d.reduce = 1 then d.clockArg + d.redArg < 6 else d.reduce = 0 && d.clockArg < 6 && !optSTOW_KEEP d)

/-- Angle-clocked and conversion-clocked records carry a time word per slot (R165). -/
def timed (d : SDef) : Bool := d.clock = 1 || d.clock = 2

/-- Zero bytes up to a multiple of `m`. -/
def padTo (m n : Nat) : List Nat := List.replicate ((m - n % m) % m) 0

/-- The record as bytes (R163, R165): `flags` is bits 8 to 15 of the header FLAGS. -/
def encodeRec (hub : Nat) (d : SDef) (r : Rec) (flags : Nat) : List Nat :=
  let t0 := match r.slots with | [] => 0 | q :: _ => q.at_
  let sum := r.slots.foldl (fun n q => orFlags n q.flags) 0
  let count := if r.run.isSome then 0 else r.slots.length
  let head := leBytes 2 d.id ++ [d.format % 256, hub % 256] ++ leBytes 2 count ++ leBytes 2 (sum + flags * 256) ++ leBytes 8 r.seq ++ atBytes t0
  let hcrc := leBytes 4 (crc32 head)
  let body := match r.run with
    | some n => leBytes 8 n
    | none =>
      r.slots.flatMap (fun q => leBytes 4 q.word)
        ++ (if timed d then r.slots.flatMap (fun q => leBytes 4 (q.at_ - t0)) else [])
        ++ r.slots.map (fun q => q.flags % 256) ++ padTo 4 r.slots.length
  let all := head ++ hcrc ++ body ++ leBytes 4 (crc32 body)
  all ++ padTo 8 all.length

/-- Bits 8 to 15 of the header FLAGS (R164). -/
def recFlags (d : SDef) (r : Rec) (table capture replay stow : Bool) : Nat :=
  b2n r.run.isSome + 2 * b2n (timed d && r.run.isNone) + 4 * b2n table + 8 * b2n capture + 16 * b2n r.brk + 32 * b2n replay + 64 * b2n stow

/-- Set LATE in every flag byte and in SUMMARY of an encoded record, and compute its CRCs again (R168). -/
def markLate (b : List Nat) : List Nat :=
  let count := leAt b 4 2
  let fl := leAt b 6 2
  let timedB := bit fl 9
  let run := bit fl 8
  let head := (b.take 28).set 6 ((b.getD 6 0 + if bit (b.getD 6 0) 6 then 0 else 64) % 256)
  let body := b.drop 32
  let words := 4 * count * (if timedB then 2 else 1)
  let n := if run then 8 else words + count + (4 - count % 4) % 4
  let body' := if run then body.take 8
    else body.take words ++ ((body.drop words).take count).map (fun x => orFlags x fLATE) ++ (body.drop (words + count)).take ((4 - count % 4) % 4)
  head ++ leBytes 4 (crc32 head) ++ body'.take n ++ leBytes 4 (crc32 (body'.take n)) ++ body.drop (n + 4)

/-! ## Retention and the delivery path (R166, R319, R320) -/

def State.sbuf (s : State) (b : Nat) : SBuf := s.hp.bufs.get {} b

def State.modBuf (s : State) (b : Nat) (g : SBuf → SBuf) : State :=
  { s with hp := { s.hp with bufs := s.hp.bufs.put {} b (g (s.sbuf b)) } }

/-- The hub does not lead: its records go to the leader over Ovnas (R356). -/
def State.follows (s : State) : Bool := s.rd Reg.OV_STAT_ROLE ≠ 1

/-- Bytes that a record of `n` bytes needs at the present position: the rest of the buffer is padded where it does not fit
before its end (R319). -/
def bufNeed (x : SBuf) (n : Nat) : Nat :=
  let p := x.head % 2 ^ x.log2
  if p + n ≤ 2 ^ x.log2 then n else 2 ^ x.log2 - p + n

/-- Bytes by which HEAD advances over records of these lengths, in order. -/
def bufNeeds (x : SBuf) : List Nat → Nat
  | [] => 0
  | n :: ns => bufNeed x n + bufNeeds { x with head := x.head + bufNeed x n } ns

/-- Records of these lengths fit now, in order: HEAD + what they need − TAIL does not exceed the size, modulo 2^32 (R319).
Space that the leader has granted to followers is not free (R356). -/
def State.bufFits (s : State) (b : Nat) (ns : List Nat) : Bool :=
  let x := s.sbuf b
  x.log2 ≠ 0 && (x.head + 2 ^ 32 - x.tail % 2 ^ 32) % 2 ^ 32 + bufNeeds x ns + s.ov.reserved.get 0 b ≤ 2 ^ x.log2

/-- A path to the leader stands (R320). -/
def State.leaderPath (s : State) : Bool :=
  s.rd Reg.OV_STAT_LEADER_ID ≠ 255 && (s.ov.peers.get {} (s.rd Reg.OV_STAT_LEADER_ID)).reach

/-- Records of these lengths can be written into buffer `b`, or sent to the leader, now. -/
def State.canGo (s : State) (b : Nat) (ns : List Nat) : Bool :=
  if s.follows then s.leaderPath && ns.sum ≤ s.ov.granted.get 0 b else s.ringsOn && s.bufFits b ns

/-- A record can be written, or sent, as soon as it is formed: no backlog stands, and what is formed before it can go too. -/
def State.atOnce (s : State) (b n : Nat) : Bool :=
  !(s.sbuf b).backlog && s.canGo b ((s.sbuf b).queue.map (fun r => r.data.length) ++ [n])

/-- The retention store gives service: PD26 is on (R21). -/
def State.retains (s : State) : Bool := s.domOn 26 && s.inService 29

/-- A formed record enters the retention store and the delivery path. A record that cannot go at once waits, and is LATE; the
first that waits raises HP_BUF_BACKLOG, and a follower reports its pending bytes in a REQUEST (R356). Without the retention store it is lost and counted (R20). -/
def deliver (s : State) (r : RecOut) : State :=
  let now := s.atOnce r.buf r.data.length
  if !now && !s.retains then
    (s.countN (Reg.RD_STREAM_STAT_LOST r.stream) r.n).count Reg.RD_CNT_GAP_RUNS |>.bark 1 0x0132 true [r.stream, r.seq, r.n]
  else
    let t := if s.retains then { s with rd_ := { s.rd_ with store := s.rd_.store.put [] r.stream (s.rd_.store.get [] r.stream ++ [r]) } } else s
    let t := t.modBuf r.buf (fun x => { x with queue := x.queue ++ [{ r with late := !now }], backlog := x.backlog || !now })
    let t := if !now && !(s.sbuf r.buf).backlog then t.bark 6 0x0606 true [r.buf] else t
    if !now && t.follows && t.leaderPath then
      t.send 6 (t.rd Reg.OV_STAT_LEADER_ID) [r.buf, ((t.sbuf r.buf).queue.map (fun k => k.data.length)).sum]
    else t

/-- Close the record under way of a stream: it is formed and goes on its way (R166). -/
def closeRec (s : State) (i : Nat) (table capture : Bool) : State :=
  match s.stream i with
  | none => s
  | some x =>
    match x.rcd with
    | none => s
    | some r =>
      let n := match r.run with | some n => n | none => r.slots.length
      let d := encodeRec s.me x.defn r (recFlags x.defn r table capture false r.stow)
      deliver (s.setStream i (some { x with rcd := none })) { stream := i, seq := r.seq, n := n, buf := x.buf, data := d, late := false, replay := false }

/-- A break (R43, R149, R161): the record closes, and the next one carries BREAK. -/
def breakRec (s : State) (i : Nat) : State := (closeRec s i false false).modStream i (fun x => { x with brk := true })

/-- The breaks up to place `p` come before the slot at `p`. -/
def breakTo (s : State) (i p : Nat) : State :=
  match s.stream i with
  | none => s
  | some x =>
    if x.breaks.any (fun b => b ≤ p) then
      (breakRec s i).modStream i (fun y => { y with breaks := y.breaks.filter (fun b => p < b) })
    else s

/-- A slot goes on in a record: into a run only an OFFLINE one, into a regular record any for which its time word has room (R166, R167). -/
def Rec.takes (d : SDef) (r : Rec) (v : SlotV) : Bool :=
  match r.run with
  | some _ => hasFlag v.flags fOFFLINE
  | none => match r.slots with | [] => true | q :: _ => !timed d || v.at_ < q.at_ + 2 ^ 32

/-- Put one slot, at place `p`, into the stream's records (R163, R165 to R167): a record that would begin with an OFFLINE slot is a run. -/
def putSlot (s : State) (i : Nat) (p : Nat) (slow : Bool) (v : SlotV) : State :=
  let s := breakTo s i p
  match s.stream i with
  | none => s
  | some x0 =>
    let s := if x0.rcd.all (fun r => r.takes x0.defn v) then s else closeRec s i false false
    let x := (s.stream i).getD x0
    let r := match x.rcd with
      | none => { seq := x.seq, place := p, stow := { x with stowed := slow }.isStowRate, slots := [v],
                  run := if hasFlag v.flags fOFFLINE then some 1 else none, brk := x.brk }
      | some r => match r.run with
        | some n => { r with run := some (n + 1) }
        | none => { r with slots := r.slots ++ [v] }
    let x := { x with rcd := some r, brk := if x.rcd.isNone then false else x.brk, seq := x.seq + 1, good := if hasFlag v.flags fVALID then v.word else x.good, began := true }
    let t := (s.setStream i (some x)).wr (Reg.RD_STREAM_STAT_SEEN i) (orFlags (s.rd (Reg.RD_STREAM_STAT_SEEN i)) v.flags)
    let t := if x0.began then t else t.bark 1 0x0130 false [i]
    if r.run.isNone && x.defn.recCount ≤ r.slots.length then closeRec t i false false else t

/-- REC_AGE has passed since the first slot's tick (R166). -/
def recAge (s : State) (i : Nat) : State :=
  match s.stream i with
  | none => s
  | some x =>
    match x.rcd with
    | none => s
    | some r => if r.place + x.defn.recAge * cclkMs ≤ s.now then closeRec s i false false else s

def execRecAgeExpiry (i : Nat) (s : State) : Host.Outcome State Fault Refusal := guardItem (i < 1024) (answer s (recAge s i))

/-- One run record of `n` slots from `seq`, offline or gap, of stream `i` with definition `d` at instant `e` (R167). -/
def runRecord (s : State) (d : SDef) (buf i seq n : Nat) (offline brk replay stow : Bool) (e : Nat) : RecOut :=
  let r : Rec := { seq := seq, place := e, stow := stow, slots := [{ at_ := e, word := 0, flags := if offline then fOFFLINE else 0 }], run := some n, brk := brk }
  { stream := i, seq := seq, n := n, buf := buf, data := encodeRec s.me d r (recFlags d r false false replay stow), late := false, replay := replay }

/-- The definition of a stream's most recent opening. -/
def State.lastDefn (s : State) (i : Nat) : SDef :=
  match s.stream i with
  | some x => x.defn
  | none => parseDef (s.rd_.lastDef.get [] i)

/-- The record of a stream that waits in its buffer's order under this SEQ is the same record. -/
def sameRec (i seq : Nat) (k : RecOut) : Bool := k.stream = i && k.seq = seq && !k.replay

/-- A gap run that stands for `n` slots from record `r` on. -/
def gapRun (s : State) (r : RecOut) (n : Nat) : RecOut :=
  { runRecord s (s.lastDefn r.stream) r.buf r.stream r.seq n false false false (bit (r.data.getD 7 0) 6) (edgeOf (at96Of (leAt r.data 16 12))) with
    late := r.late }

/-- A record that waits is a gap run: RUN is set, and no slot flag but LATE. -/
def isGapRun (r : RecOut) : Bool := bit (r.data.getD 7 0) 0 && r.data.getD 6 0 % 64 = 0 && !bit (r.data.getD 6 0) 7

/-- The gap run of the stream that waits and that record `r` continues (R167). -/
def gapBefore (s : State) (r : RecOut) : Option RecOut :=
  (s.sbuf r.buf).queue.find? (fun k => k.stream = r.stream && k.seq + k.n = r.seq && !k.replay && isGapRun k)

/-- STREAM_GAP (R167): the oldest record of the stream ages out of the retention store. One that is not delivered is replaced in
its place by a gap run, added to LOST. Where the gap run of the record before it still waits, the two form one run; that run has been
counted and barked, and is not again (DESIGN CHOICE: R167 does not say when a run that grows is emitted). -/
def streamGap (s : State) (i : Nat) : State :=
  match s.rd_.store.get [] i with
  | r :: rest =>
    let t := { s with rd_ := { s.rd_ with store := s.rd_.store.put [] i rest } }
    if (s.sbuf r.buf).queue.any (sameRec i r.seq) then
      let t := t.countN (Reg.RD_STREAM_STAT_LOST i) r.n
      match gapBefore s r with
      | some g =>
        t.modBuf r.buf (fun b => { b with queue :=
          (b.queue.filter (fun k => !sameRec i r.seq k)).map (fun k => if sameRec i g.seq k then gapRun s g (g.n + r.n) else k) })
      | none =>
        let g := { gapRun s r r.n with late := true }
        let t := t.modBuf r.buf (fun b => { b with queue := b.queue.map (fun k => if sameRec i r.seq k then g else k) })
        (t.count Reg.RD_CNT_GAP_RUNS).bark 1 0x0132 true [i, r.seq, r.n]
    else t
  | [] => s

def execStreamGap (i : Nat) (s : State) : Host.Outcome State Fault Refusal := guardItem (i < 1024) (answer s (streamGap s i))

end Sys2Proof.Machine
end

