-- ==== Sys2Proof/Machine/Metro.lean ====
section
/-! DEFINITION. Metrology (R122 to R137): the scan, the phases of a conversion, check slots, urgent reads. -/

namespace Sys2Proof.Machine

/-! ## Settings -/

/-- CONV in beats (R125): 7 acts as 6. -/
def mtConvBeats (j : Nat) : Nat := 1280 * 2 ^ min 6 j

/-- SETTLE in ms as it acts. -/
def mtSettle (n : Nat) : Nat := max 1 (min 1000 n)

/-- The time of a channel in beats (R126). -/
def mtTime (mode conv settle : Nat) : Nat :=
  let t := 64 * mtSettle settle + mtConvBeats conv
  if mode = 1 then 4 * t else t

/-- Full scale of a range, in µV, and as a real in V. -/
def mtFullUv (range : Nat) : Nat := if range = 0 then 125000 else 2500000
def mtFull (range : Nat) : Int := if range = 0 then ((realOne / 8 : Nat) : Int) else ((realOne / 2 * 5 : Nat) : Int)

/-- CUR × REF exceeds the full scale of RANGE (R128). -/
def mtBad (mode range cur ref : Nat) : Bool := mode = 1 && mtFullUv range < 10 ^ (cur + ref + 2)

def State.mtChBad (s : State) (c : Nat) : Bool :=
  mtBad (s.rd (Reg.MT_CH_CFG_MODE c)) (s.rd (Reg.MT_CH_CFG_RANGE c)) (s.rd (Reg.MT_CH_CFG_CUR c)) (s.rd (Reg.MT_CH_CFG_REF c))

/-- Judge a channel's setting after a write (R128): each that leaves it invalid raises the bark. -/
def mtCheckCfg (s : State) (c : Nat) : State :=
  let t := s.wrB (Reg.MT_CH_STAT_CFG_BAD c) (s.mtChBad c)
  if s.mtChBad c then t.bark 0x40 0x4007 true [c] else t

/-- CFG_BAD of every channel shows its stored setting again, as the card enters service. -/
def mtJudge (s : State) : State := (List.range 32).foldl (fun u c => u.wrB (Reg.MT_CH_STAT_CFG_BAD c) (s.mtChBad c)) s

/-- The card gives service. -/
def State.mtUp (s : State) : Bool := s.inService 19 && s.domOn 20

/-- Channels of the scan: enabled, with a valid setting. -/
def State.scanList (s : State) : List Nat := (List.range 32).filter (fun c => bit (s.rd Reg.MT_SCAN_MASK_MASK) c && !s.mtChBad c)

/-- The time of channel `c` as it is set, in beats. -/
def State.mtTimeOf (s : State) (c : Nat) : Nat :=
  mtTime (s.rd (Reg.MT_CH_CFG_MODE c)) (s.rd (Reg.MT_CH_CFG_CONV c)) (s.rd (Reg.MT_CH_CFG_SETTLE c))

/-- PERIOD in beats, without check slots. -/
def showPeriod (s : State) : State := s.wrSat Reg.MT_SCAN_STAT_PERIOD ((s.scanList.map s.mtTimeOf).sum)

/-! ## Channel boundaries (R129, R130, R133, R135) -/

/-- The next channel of the scan: above the last one, else the lowest. -/
def State.nextScan (s : State) : Option Nat :=
  let l := s.scanList
  match s.mt.lastCh with
  | none => l.head?
  | some p => match l.find? (fun c => p < c) with
    | some c => some c
    | none => l.head?

/-- The channel just run was the last of its scan. -/
def State.scanEnds (s : State) : Bool :=
  match s.mt.lastCh with
  | none => false
  | some p => !(s.scanList.any (fun c => p < c))

def showMt (s : State) (ch phase : Nat) : State :=
  ((s.wr Reg.MT_SCAN_STAT_CH ch).wr Reg.MT_SCAN_STAT_PHASE phase).wr Reg.MT_SCAN_STAT_URGENT_PENDING s.mt.urgents.length

/-- The multiplexer switches to channel `c`; its settings stand until its end. -/
def mtBegin (s : State) (c : Nat) (urgent : Option (CmdHdr × Nat)) : State :=
  let r : MtRun :=
    { ch := c, start := s.now, mode := s.rd (Reg.MT_CH_CFG_MODE c), range := s.rd (Reg.MT_CH_CFG_RANGE c), conv := s.rd (Reg.MT_CH_CFG_CONV c),
      cur := s.rd (Reg.MT_CH_CFG_CUR c), ref := s.rd (Reg.MT_CH_CFG_REF c), settle := mtSettle (s.rd (Reg.MT_CH_CFG_SETTLE c)), phase := 0,
      converting := false, vals := [], ovr := false, open_ := false, cm := false, urgent := urgent }
  let t := { s with mt := { s.mt with run := some r, empty := false, lastCh := if urgent.isSome then s.mt.lastCh else some c } }
  showMt t c (if urgent.isSome then 4 else 1)

/-- A check slot is asked for ahead of its place, while the last channel of the EVERY-th scan runs (R133). -/
def mtAsk (s : State) : State :=
  let every := s.rd Reg.MT_CAL_CFG_EVERY
  if s.mtUp && s.mt.run.isSome && every ≠ 0 && every ≤ s.mt.scans + 1 && s.scanEnds && !s.waitsFor 1 0x60 && !s.hasGrant 1 0x60 then
    s.request 1 2 0x60 1 else s

/-- The next channel of the scan starts; with none the converter idles, and says so where the mask is zero (R130). -/
def mtScanNext (s : State) : State :=
  match s.nextScan with
  | none =>
    let t := showMt { s with mt := { s.mt with lastCh := none } } 0 0
    if s.mt.empty || s.rd Reg.MT_SCAN_MASK_MASK ≠ 0 then t else ({ t with mt := { t.mt with empty := true } }).bark 0x40 0x4008 false []
  | some c => mtAsk (mtBegin s c none)

/-- MT_CHANNEL_START: an urgent read first (it waits while the card is updated, R381), then a check slot that is due and granted, then the scan. -/
def mtChannelStart (s : State) : State :=
  if s.mt.run.isSome || s.mt.checkAt.isSome || !s.sampling then s
  else
    let s := showPeriod s
    match (if (s.slot 19).standby.isSome then [] else s.mt.urgents) with
    | (h, c, a) :: rest => mtBegin { s with mt := { s.mt with urgents := rest } } c (some (h, a))
    | [] =>
      let every := s.rd Reg.MT_CAL_CFG_EVERY
      if !s.scanEnds then mtScanNext s
      else
        let n := s.mt.scans + 1
        let t := { s with mt := { s.mt with lastCh := none, scans := n } }
        if every = 0 || n < every || !s.mtUp then mtScanNext t
        else if t.hasGrant 1 0x60 then
          showMt { t with mt := { t.mt with checkAt := some t.now, scans := 0 } } 0 3
        else
          mtScanNext (((t.withdraw 1 0x60).count Reg.MT_CNT_CHECK_SKIPPED).bark 0x40 0x4005 false [])

def execMtChannelStart (s : State) : Host.Outcome State Fault Refusal := answer s (mtChannelStart s)

/-- Zero lies within the offset of R124: 0.5 µV at ±125 mV, 2 µV at ±2.5 V (reals in V). -/
def mtZeroOk (range : Nat) (z : Int) : Bool := z.natAbs * (if range = 0 then 2000000 else 500000) ≤ realOne

/-- REF_A less zero lies within 10 ppm of its last factory value (R133). -/
def State.mtGainOk (s : State) (range : Nat) (z a : Int) : Bool :=
  let f := Config.mtFactory (s.slot 19).serial range
  (a - z - f).natAbs * 100000 ≤ f.natAbs

/-- MT_CHECK_SLOT_END (R133): the zero and the REF_A of both ranges are judged, reals in V. -/
def mtCheckEnd (s : State) (z0 a0 z1 a1 : Int) : State :=
  match s.mt.checkAt with
  | none => s
  | some t0 =>
    if s.now < t0 + 1440 * cclkMs then s
    else
      let zeroOk := mtZeroOk 0 z0 && mtZeroOk 1 z1
      let gainOk := s.mtGainOk 0 z0 a0 && s.mtGainOk 1 z1 a1
      let t := (showMt { s with mt := { s.mt with checkAt := none } } 0 0).release 1 0x60 0
      if zeroOk && gainOk then t else (t.set Reg.MT_CARD_STAT_CHECK_FAIL).bark 0x40 0x4004 true [b2n zeroOk, b2n gainOk]

def execMtCheckSlotEnd (z0 a0 z1 a1 : Int) (s : State) : Host.Outcome State Fault Refusal := answer s (mtCheckEnd s z0 a0 z1 a1)

/-! ## Phases and results (R126, R127, R131, R134) -/

/-- The result of a RES4 conversion: Rref × (Vs+ − Vs−) / (Vr+ − Vr−), rounded once to binary64; a divisor of zero gives none. -/
def res4 (rref : Int) (vs : List Int) : Option Int :=
  let num := rref * (vs.getD 0 0 - vs.getD 3 0)
  let den := vs.getD 1 0 - vs.getD 2 0
  if den = 0 then none else if den < 0 then some (rnd64 (-num) den.natAbs) else some (rnd64 num den.natAbs)

/-- The time centre of a channel's time, from its start, in CCLK edges (R127). -/
def mtCentre (mode conv settle : Nat) : Nat :=
  (if mode = 1 then (5 * (64 * mtSettle settle) + 4 * mtConvBeats conv) / 2 else 64 * mtSettle settle + mtConvBeats conv / 2) * cclkBeat

/-- The stamp of a conversion that centres `half` after its start: as AT ran there (R43). -/
def mtStamp (half : Nat) (start : Nat) : List (Nat × Nat) → Nat
  | [] => start + half
  | (e, st) :: rest => if start + half < e then mtStamp half st rest else start + half

/-- The place and the stamp of the running conversion. -/
def MtRun.place (r : MtRun) : Nat := r.start + mtCentre r.mode r.conv r.settle
def MtRun.stamp (r : MtRun) : Nat := mtStamp (mtCentre r.mode r.conv r.settle) r.start r.was

/-- A conversion whose stamp may lie before `e` still runs on channel `c`. -/
def State.mtBefore (s : State) (c e : Nat) : Bool := s.mt.run.any (fun r => r.ch = c && r.place < e)

/-- A tick joins every stream of the metrology channel that is open at its stamp (R131, R141). -/
def mtSlots (s : State) (r : MtRun) (v : Int) (flags : Nat) : State :=
  s.openStreams.foldl (fun u i => u.modStream i (fun x =>
    if x.defn.kind = 2 && x.defn.index = r.ch && !x.waitTod && x.openAt ≤ r.place && x.closeAt.all (fun q => r.place < q.1) then
      { x with due := x.due ++ [{ at_ := r.stamp, place := r.place, gap := false, val := v, flags := flags }] } else x)) s

/-- The result block of R137: 32 bytes. -/
def mtBlock (s : State) (c : Nat) (r : MtRes) : List Nat :=
  leBytes 8 (unsigned 64 r.value) ++ leBytes 8 r.bn ++ [c, r.flags % 256, s.me % 256] ++ List.replicate 13 0

/-- A conversion of a channel ends: its result goes to the streams, to MT_LAST, and to an urgent reader. -/
def mtResult (s : State) (r : MtRun) : State :=
  let up := s.mtUp
  let c := r.ch
  let q := if r.mode = 1 then res4 (Config.refOhm r.ref) r.vals else some (r.vals.getD 0 0)
  let v := if !up then 0 else q.getD (Config.freeReal s.free)
  let fl := if !up then fOFFLINE else fVALID + (if r.ovr || r.open_ then fOVERRANGE else 0) + (if r.cm then fCM_FAULT else 0)
  let t := if q.isNone && up then s.fresh else s
  let t := { t with mt := { t.mt with run := none } }
  let t := mtSlots t r v fl
  let t := ((t.wrB (Reg.MT_CH_STAT_OVERRANGE c) (hasFlag fl fOVERRANGE)).wrB (Reg.MT_CH_STAT_OPEN c) (up && r.open_)).wrB
    (Reg.MT_CH_STAT_CM_FAULT c) (up && r.cm)
  let t := if up then
      let res : MtRes := { value := satS 64 (rne (v * (2 ^ 40 : Nat)) realOne), bn := r.stamp / cclkBeat, flags := fl }
      let t := match r.urgent with
        | none => t
        | some (h, a) => t.resultTo h a (mtBlock t c res)
      { t with mt := { t.mt with results := t.mt.results.put {} c res } }
    else t
  match r.urgent with
  | none => showMt t c 0
  | some (h, _) => (showMt t c 0).count Reg.MT_CNT_URGENT |>.complete h (if up then .ok else .hwFault)

/-- The running conversion goes beyond range, or meets an open circuit: the channel's onsets count where its previous result carried no
OVERRANGE (R134). -/
def mtOnset (s : State) (r : MtRun) (open_ : Bool) : State :=
  let was := s.flag (Reg.MT_CH_STAT_OVERRANGE r.ch)
  let t := s.set (Reg.MT_CH_STAT_OR_SEEN r.ch)
  let t := t.when (!was && !r.ovr && !r.open_) (fun u => u.count Reg.MT_CNT_OR_EVENTS)
  t.when (open_ && !was && !r.open_) (fun u => u.count Reg.MT_CNT_OPEN_EVENTS)

/-- MT_PHASE_END: a settling delay or a conversion ends. `v` is the converted voltage (a real in V), `cm` a terminal beyond ±5 V
to ground. -/
def mtPhaseEnd (s : State) (v : Int) (cm : Bool) : State :=
  match s.mt.run with
  | none => s
  | some r =>
    if !r.converting then
      let t := { s with mt := { s.mt with run := some { r with converting := true } } }
      if r.urgent.isSome then t else t.wr Reg.MT_SCAN_STAT_PHASE 2
    else
      let fs := mtFull r.range
      let ovr := decide (fs < v || v < -fs)
      let r' := { r with vals := r.vals ++ [clamp (-fs) fs v], ovr := r.ovr || ovr, cm := r.cm || cm, phase := r.phase + 1, converting := false }
      let t := if ovr && s.mtUp then (mtOnset s r false).barkEvery cclkSec r.ch 0x40 0x4001 true [r.ch] else s
      let t := if cm && s.mtUp then t.barkEvery cclkSec r.ch 0x40 0x4003 true [r.ch] else t
      if r'.phase < (if r.mode = 1 then 4 else 1) then
        let t := { t with mt := { t.mt with run := some r' } }
        if r.urgent.isSome then t else t.wr Reg.MT_SCAN_STAT_PHASE 1
      else mtResult t r'

def execMtPhaseEnd (v : Int) (cm : Bool) (s : State) : Host.Outcome State Fault Refusal := answer s (mtPhaseEnd s v cm)

/-- MT_OPEN (R134): the current source of the running RES4 conversion is at compliance. -/
def mtOpen (s : State) : State :=
  match s.mt.run with
  | none => s
  | some r =>
    if r.mode = 1 && r.converting && s.mtUp then
      let t := { mtOnset s r true with mt := { s.mt with run := some { r with open_ := true } } }
      ((t.set (Reg.MT_CH_STAT_OPEN r.ch)).set (Reg.MT_CH_STAT_OPEN_SEEN r.ch)).barkEvery cclkSec r.ch 0x40 0x4002 true [r.ch]
    else s

def execMtOpen (s : State) : Host.Outcome State Fault Refusal := answer s (mtOpen s)

/-! ## Urgent reads (R135, R137) -/

def mtUrgentRefuse (s : State) (ch addr : Nat) : Option Status :=
  if s.barred then some .modeForbids
  else if 32 ≤ ch || !addrOk addr 32 || 8 ≤ s.mt.urgents.length then some .badParam
  else if !s.mtUp then some .hwFault else none

/-- MT_URGENT_READ: queued in fetch order, at most 8. -/
def mtUrgentCmd (s : State) (h : CmdHdr) (ch addr : Nat) : State :=
  let t := s.begin h
  match mtUrgentRefuse t ch addr with
  | some st =>
    let u := if st = .badParam && ch < 32 && addrOk addr 32 then t.bark 0x40 0x4006 true [] else t
    u.refuse h st
  | none =>
    let u := { t with mt := { t.mt with urgents := t.mt.urgents ++ [(h, ch, addr)] } }
    u.wr Reg.MT_SCAN_STAT_URGENT_PENDING u.mt.urgents.length

def execMtUrgentRead (h : CmdHdr) (ch addr : Nat) (s : State) : Host.Outcome State Fault Refusal := answer s (mtUrgentCmd s h ch addr)

/-- The check slot, or the request for one, is given up. -/
def mtFree (s : State) : State := if s.hasGrant 1 0x60 then s.release 1 0x60 0 else s.withdraw 1 0x60

/-- M0 leaves service: the queued reads complete with HW_FAULT (R137), a check slot ends, and the core goes on with the channel that runs
(R132). -/
def mtGone (s : State) : State :=
  let t := s.mt.urgents.foldl (fun u q => u.complete q.1 .hwFault) s
  let t := match s.mt.run with
    | some r => (match r.urgent with | some (h, _) => t.complete h .hwFault | none => t)
    | none => t
  let t := mtFree t
  showMt { t with mt := { t.mt with urgents := [], run := s.mt.run.filter (fun r => r.urgent.isNone), checkAt := none } } 0 0

/-- The channel under way ends with its schedule. A conversion whose stamp has come, and which no card finished, yields its OFFLINE slot
(R132). -/
def mtDrop (s : State) : State :=
  let t := match s.mt.run with
    | some r => if r.urgent.isNone && r.place ≤ s.now then mtSlots s r 0 fOFFLINE else s
    | none => s
  let t := mtFree t
  showMt { t with mt := { t.mt with run := none, checkAt := none, lastCh := none, scans := 0 } } 0 0

/-- The scan restarts at the lowest enabled channel (R129), and the schedule that the core kept ends. -/
def mtRestart (s : State) : State := let t := mtDrop s; { t with mt := { t.mt with kept := none } }

/-- The hub stops scanning: the core keeps the schedule from the channel under way on, without urgent reads and check slots (R132). -/
def mtStop (s : State) : State :=
  let from_ : Option (Nat × Nat) := match s.mt.run with
    | some r => if r.urgent.isNone then some (s.run - (s.now - r.start), r.ch) else s.nextScan.map (fun c => (s.run, c))
    | none => s.nextScan.map (fun c => (s.run, c))
  { mtFree (showMt s 0 0) with mt := { s.mt with run := none, checkAt := none, lastCh := none, scans := 0, kept := from_ } }

/-- Conversions of channel `c` in the schedule that the core kept (R132), and the run-clock edge of the first one. -/
def State.keptSlots (s : State) (c : Nat) : Nat × Nat :=
  match s.mt.kept with
  | none => (0, 0)
  | some (t0, ch) =>
    let l := s.scanList
    let l := l.filter (fun x => ch ≤ x) ++ l.filter (fun x => x < ch)
    if !l.contains c then (0, 0)
    else
      let o := ((l.takeWhile (fun x => x ≠ c)).map s.mtTimeOf).sum * cclkBeat
        + mtCentre (s.rd (Reg.MT_CH_CFG_MODE c)) (s.rd (Reg.MT_CH_CFG_CONV c)) (s.rd (Reg.MT_CH_CFG_SETTLE c))
      let p := (l.map s.mtTimeOf).sum * cclkBeat
      let span := s.run - t0
      (if span < o then 0 else (span - o) / p + 1, t0 + o)

/-! ## Register rows -/

/-- A write of MT_SCAN_MASK (R130): it takes effect at the next channel boundary. -/
def mtMaskWrite (s : State) (mask : Nat) : State := mtAsk (showPeriod (s.wr Reg.MT_SCAN_MASK_MASK mask))

/-- The mask is a stored setting, written whether or not PD20 is on (R419). -/
def execMtScanMaskWrite (src : WrSrc) (mask : Nat) (s : State) : Host.Outcome State Fault Refusal :=
  answer s (if src = .cfg || s.modeTakes .MT_SCAN_MASK then (mtMaskWrite s mask).journalW src .MT_SCAN_MASK 0 0 mask
    else s.discard (ofsOf .MT_SCAN_MASK 0 0))

def mtCnts : List Fld := [Reg.MT_CNT_OR_EVENTS, Reg.MT_CNT_OPEN_EVENTS, Reg.MT_CNT_URGENT, Reg.MT_CNT_CHECK_SKIPPED]

def execMtCntClr (src : WrSrc) (clr : Nat) (s : State) : Host.Outcome State Fault Refusal :=
  answer s (s.write src .MT_CNT_CLR 0 0 false (fun t => (t.clearCnts mtCnts clr).journalW src .MT_CNT_CLR 0 0 clr))

/-- A read of the first word of MT_LAST[c] latches the element (R413). -/
def mtLatch (s : State) (c : Nat) : State :=
  let r := s.mt.results.get {} c
  ((s.wr (Reg.MT_LAST_VALUE c) (unsigned 64 r.value)).wr (Reg.MT_LAST_BN c) r.bn).wr (Reg.MT_LAST_FLAGS c) r.flags

def execMtLastLatch (c : Nat) (s : State) : Host.Outcome State Fault Refusal := guardItem (c < 32) (answer s (mtLatch s c))

end Sys2Proof.Machine
end

