-- ==== Sys2Proof/Machine/Resolver.lean ====
section
/-! DEFINITION. Resolver channels (R169 to R202): demodulated signals, the tracking loop, acquisition, pairs, harmonic learning
and faults. Angles of the loop are counts of 2^-40 turn, speeds counts of 2^-40 turn/s. -/

namespace Sys2Proof.Machine

/-! ## Channels -/

def State.rdc (s : State) (c : Nat) : Rdc := s.ax.rdc.get {} c

def State.modRdc (s : State) (c : Nat) (g : Rdc → Rdc) : State :=
  { s with ax := { s.ax with rdc := s.ax.rdc.put {} c (g (s.rdc c)) } }

/-- Bark source byte of an axis card, and its codes. -/
def axSrc (k : Nat) : Nat := 0x20 + k
def axCode (k ev : Nat) : Nat := axSrc k * 256 + ev

/-- Axis card `k` gives service. -/
def State.axUp (s : State) (k : Nat) : Bool := s.inService (16 + k) && s.domOn (16 + k)

/-- The channel of the same card with local number `i`. -/
def sibling (c i : Nat) : Nat := c / 16 * 16 + i % 16

/-- The channel whose amplifier excites channel `c` (R173). -/
def State.excSrc (s : State) (c : Nat) : Nat := sibling c (s.eff (Reg.RDC_CFG_EXC_SRC c))

/-- The coarse channel of `c`, and N (R186). -/
def State.coarse (s : State) (c : Nat) : Nat := sibling c (s.eff (Reg.RDC_CFG_COARSE c))
def State.nspd (s : State) (c : Nat) : Nat := s.eff (Reg.RDC_CFG_NSPD c)
def State.paired (s : State) (c : Nat) : Bool := s.eff (Reg.RDC_CFG_PAIR_EN c) = 1

/-- The setting of channel `c` is invalid (R173, R186), on the values that `get` reads. -/
def rdcInvalidCfg (get : Fld → Nat) (c : Nat) : Bool :=
  let src := sibling c (get (Reg.RDC_CFG_EXC_SRC c))
  let co := sibling c (get (Reg.RDC_CFG_COARSE c))
  let n := get (Reg.RDC_CFG_NSPD c)
  get (Reg.RDC_CFG_EXC_EN src) = 0
    || (get (Reg.RDC_CFG_PAIR_EN c) = 1
        && (co = c || get (Reg.RDC_CFG_EN co) = 0 || get (Reg.RDC_CFG_PAIR_EN co) = 1 || n < 2 || 128 < n
            || (List.range 16).any (fun i => sibling c i ≠ c && get (Reg.RDC_CFG_PAIR_EN (sibling c i)) = 1
                && sibling c (get (Reg.RDC_CFG_COARSE (sibling c i))) = co)))

/-- The channel may excite and track: enabled, its card in service in a mode that excites, its setting valid (R197, R202). -/
def State.rdcOn (s : State) (c : Nat) : Bool :=
  s.eff (Reg.RDC_CFG_EN c) = 1 && s.sampling && s.axUp (c / 16) && !(s.slot (16 + c / 16)).selfMuzzled && !s.flag (Reg.RDC_STAT_CFG_BAD c)

/-- The amplifier of channel `c` runs (R173, R174, R194, R199). -/
def State.ampOn (s : State) (c : Nat) : Bool :=
  s.eff (Reg.RDC_CFG_EXC_EN c) = 1 && s.sampling && s.axUp (c / 16) && !(s.slot (16 + c / 16)).selfMuzzled
    && !s.flag (Reg.RDC_STAT_EXC_SHUTDOWN c) && decide ((s.rdc c).ampOff ≤ s.run)

/-- The channels of a card that name amplifier `c`. -/
def State.excited (s : State) (c : Nat) : List Nat :=
  ((List.range 16).map (sibling c)).filter (fun d => s.excSrc d = c && s.eff (Reg.RDC_CFG_EN d) = 1)

/-- The channel's own angle is valid. -/
def State.rdcOwn (s : State) (c : Nat) : Bool :=
  (s.rdc c).ph = 3 && s.rdcOn c && !(s.rdc c).wire && !(s.rdc c).conv

/-- The channel's output is valid: VALID, or PAIR_VALID for a fine channel (R187, R195). -/
def State.rdcValid (s : State) (c : Nat) : Bool := s.rdcOwn c && (!s.paired c || (s.rdc c).pair)

/-- Some flagging fault that sets OVERRANGE stands (R194). -/
def State.rdcOver (s : State) (c : Nat) : Bool :=
  let k := s.rdc c
  k.ampHigh || k.ovl || k.fast || k.edge || s.flag (Reg.RDC_STAT_EXC_LIMITING (s.excSrc c))

/-- The state bits of a channel (R194, R197). It leaves OFF when its amplifier, or that of EXC_SRC, runs (R182). -/
def showRdc (s : State) (c : Nat) : State :=
  let up := s.rdcOn c && ((s.rdc c).up || s.ampOn (s.excSrc c))
  let s := s.modRdc c (fun k => { k with up := up })
  let k := s.rdc c
  let st := if !up then 0 else if k.wire || k.conv || s.run < k.retryAt || k.ph = 0 then 1 else k.ph + 1
  ((((s.wr (Reg.RDC_STAT_STATE c) st).wrB (Reg.RDC_STAT_VALID c) (s.rdcOwn c)).wrB (Reg.RDC_STAT_PAIR_VALID c)
    (s.paired c && s.rdcValid c)).wrB (Reg.RDC_STAT_OR_NOW c) (s.rdcOver c)).wrB (Reg.RDC_STAT_LEARNING c) k.learn.isSome

/-- A fault is detected: its W1C bit sets, and its bark is raised at most once per second (R194). -/
def rdcOnset (s : State) (c : Nat) (f : Nat → Fld) (ev : Nat) (payload : List Nat) : State :=
  (s.set (f c)).barkEvery cclkSec (c % 16) (axSrc (c / 16)) (axCode (c / 16) ev) true ([c % 16] ++ payload)

/-- The onset of a flagging fault, counted in OR_EVENTS. -/
def rdcFlagging (s : State) (c : Nat) (f : Nat → Fld) (ev : Nat) (payload : List Nat) : State :=
  (rdcOnset s c f ev payload).count (Reg.RDC_CNT_OR_EVENTS c)

/-- A cause that ends learning, unless one stands already (R192). -/
def learnCause (k : Rdc) (cause : Nat) : Rdc :=
  { k with learn := k.learn.map (fun l => if l.cause = 0 then { l with cause := cause } else l) }

/-- The channel's angle becomes invalid (R195): the loop opens, learning loses its channel, and a fine channel's pair its
resolution (R189). -/
def rdcDrop (s : State) (c : Nat) : State :=
  showRdc (s.modRdc c (fun k =>
    let k := learnCause k 2
    { k with ph := 0, pair := false, ambig := false, slip := 0, errRun := 0, spdRun := 0, fast := false, ovl := false, edge := false, atEdge := false,
             cur := { k.cur with own := false, valid := false } })) c

/-- Outputs with AT in the beat from `e` carry SETTLING. -/
def Rdc.settling (k : Rdc) (now e : Nat) : Rdc :=
  { k with setFrom := if now < k.settle then min k.setFrom e else e, settle := max k.settle (e + cclkBeat) }

/-! ## Figures of the loop (R172, R177, R179, R180) -/

/-- The excitation frequency of channel `c` in 2^-33 Hz, within 2 to 20 kHz. -/
def State.fexc (s : State) (c : Nat) : Nat :=
  max (2000 * 2 ^ 33) (min (20000 * 2 ^ 33) (s.eff (Reg.RDC_CFG_FREQ (s.excSrc c)) * 750))

/-- The phase of amplifier `c` at AT edge `e` (R171), in 2^-48 turn: FREQ, or the nearer limit, times the MCLK cycles from AT 0. -/
def State.ampPhase (s : State) (c e : Nat) : Nat :=
  let f := max (2000 * 2 ^ 33) (min (20000 * 2 ^ 33) (s.eff (Reg.RDC_CFG_FREQ c) * 750))
  (f * (e / 10) / 750 + s.eff (Reg.RDC_CFG_PHASE c) * 2 ^ 32) % 2 ^ 48

/-- LEVEL in µVrms and ILIM in mA as they act (R172). -/
def State.ampLevel (s : State) (c : Nat) : Nat := min 7500000 (s.eff (Reg.RDC_CFG_LEVEL c))
def State.ampIlim (s : State) (c : Nat) : Nat := max 10 (min 150 (s.eff (Reg.RDC_CFG_ILIM c)))

/-- Output of amplifier `c` at AT edge `e`, in pV (R171, R172, R174): √2 × LEVEL × sin of its phase. Over the first 16 beats it rises to
LEVEL, by a course that the spec leaves open. -/
def State.ampOut (s : State) (c e : Nat) : Int :=
  let rise := s.run - (s.rdc c).excAt
  let uv := if 16 * cclkBeat ≤ rise then s.ampLevel c else min (s.ampLevel c) (Config.ampRise (s.ampLevel c) rise)
  if s.ampOn c && decide ((s.rdc c).excAt ≤ s.run) then rne ((uv * 1000000 * isqrt (2 * 2 ^ 200) : Nat) * sinTurn (s.ampPhase c e)) (2 ^ 228) else 0

/-- FN times 2^gear in 2^-37 Hz, limited to 10 Hz and to the lower of 1,250 Hz and f_exc / 16. -/
def State.fnActs (s : State) (c gear : Nat) : Nat :=
  min (max 10 (s.eff (Reg.RDC_LOOP_FN c)) * 2 ^ gear * 2 ^ 37) (min (1250 * 2 ^ 37) (s.fexc c))

/-- ZETA in 2^-14. -/
def State.zeta (s : State) (c : Nat) : Nat := max 8192 (min 32768 (s.eff (Reg.RDC_LOOP_ZETA c)))

/-- KI = (2π FN)² and KP = 2 ζ 2π FN as reals, FN in 2^-37 Hz and ζ in 2^-14. -/
def loopKI (fn : Nat) : Int := rnd64 (((twoPi * fn) ^ 2 * realOne : Nat) : Int) (2 ^ 330)
def loopKP (fn zeta : Nat) : Int := rnd64 ((2 * zeta * twoPi * fn * realOne : Nat) : Int) (2 ^ 179)

/-- The sine and cosine of an angle in 2^-40 turn, in units of 2^-128. -/
def sin40 (θ : Nat) : Int := sinTurn (θ % 2 ^ 40 * 256)
def cos40 (θ : Nat) : Int := cosTurn (θ % 2 ^ 40 * 256)

/-- The error of R178 in turns, a real; a signal of no amplitude has none, and gives `free`. -/
def loopErr (free : Int) (sn cs : Int) (θ : Nat) : Int :=
  let num := sn * cos40 θ - cs * sin40 θ
  let r := isqrt ((sn * sn + cs * cs).toNat * 2 ^ 120)
  if r = 0 then free else rnd64 (num * (2 ^ 60 * realOne : Nat)) (twoPi * r)

/-- ω' = ω + T KI e and θ' = θ + T (ω' + KP e), with T = 1/1,024,000 s (R178). -/
def loopOmega (ki e ω : Int) : Int := ω + rne (ki * e * (2 ^ 40 : Nat)) (1024000 * realOne * realOne)
def loopTheta (kp e ω : Int) (θ : Nat) : Nat :=
  unsigned 40 ((θ : Int) + rne (ω * ((realOne * realOne : Nat) : Int) + kp * e * (2 ^ 40 : Nat)) (1024000 * realOne * realOne))

/-- ω × τ in 2^-40 turn: τd is half a period of the excitation, τa the analogue delay (R175, R177). -/
def State.lagComp (s : State) (c : Nat) (ω : Int) : Int :=
  rne (ω * ((2 ^ 33 * 10 ^ 12 + 2 * s.fexc c * Config.tauA c : Nat) : Int)) (2 * s.fexc c * 10 ^ 12)

/-- τd in CCLK edges, rounded up. -/
def State.tauD (s : State) (c : Nat) : Nat := (2 ^ 33 * cclkSec + 2 * s.fexc c - 1) / (2 * s.fexc c)

/-! ## Demodulation (R175) -/

/-- Half a period of the excitation in MCLK cycles, as a fraction: `num` / `den`. -/
def State.halfNum : Nat := 24576000 * 2 ^ 33
def State.halfDen (s : State) (c : Nat) : Nat := 2 * s.fexc c

/-- RANGE in µV. -/
def State.windRange (s : State) (c : Nat) : Int := if s.eff (Reg.RDC_CFG_RANGE c) = 1 then 12000000 else 3000000

/-- A converter value over the peak of the measured excitation, in 2^-30; without excitation the spec gives no result, and it is `free`. -/
def scaleWind (free : Int) (uv : Nat) (v : Int) : Int :=
  if uv = 0 then free else rne (v * (2 ^ 130 : Nat)) (uv * isqrt (2 * 2 ^ 200))

/-- The products of one MCLK edge with 2 sin and 2 cos of the reference, in 2^-60. -/
def windProduct (sn cs : Int) (φ : Nat) : Wind :=
  let i (v : Int) : Int := rne (2 * v * sinTurn φ) (2 ^ 98)
  let q (v : Int) : Int := rne (2 * v * cosTurn φ) (2 ^ 98)
  { s := i sn, c := i cs, sq := q sn, cq := q cs }

/-- The weight, times `den`², of the product `j` edges back in two cascaded moving averages of `num` / `den` edges each, whose last
sample is weighted linearly. -/
def cascadeWeight (num den j : Nat) : Nat :=
  let l := num / den
  let r := num % den
  if j < l then (j + 1) * den * den
  else if j < 2 * l then (2 * l - j - 1) * den * den + 2 * r * den
  else if j = 2 * l then r * r else 0

/-- What the two moving averages give over the products `h`, the newest first. -/
def cascade (num den : Nat) (h : List Wind) : Wind :=
  let sum := (h.zipIdx).foldl (fun (a : Wind) q =>
    let w : Int := cascadeWeight num den q.2
    { s := a.s + w * q.1.s, c := a.c + w * q.1.c, sq := a.sq + w * q.1.sq, cq := a.cq + w * q.1.cq }) {}
  let y (v : Int) : Int := rne v (num * num * 2 ^ 30)
  { s := y sum.s, c := y sum.c, sq := y sum.sq, cq := y sum.cq }

/-- The demodulator of a channel over the MCLK edges since the last update (R175): its products, S, C, Sq and Cq, and whether its
filters span an edge beyond RANGE (R194). A converter gives no more than its RANGE (DEDUCED). -/
def rdcDemod (s : State) (m : RdcIn) : State :=
  let c := m.ch
  let k := s.rdc c
  let x := s.excSrc c
  let full := s.windRange c
  let pairs := m.sn.zip m.cs
  let products := (pairs.zipIdx).map (fun q =>
    let e := s.now - 10 * (pairs.length - 1 - q.2)
    let v (i : Int) : Int := scaleWind (Config.freeReal s.free) (s.rdc x).uv (clamp (-full) full i)
    windProduct (v q.1.1) (v q.1.2) (s.ampPhase x e + k.phic))
  let den := s.halfDen c
  let reach := 2 * (State.halfNum / den)
  let h := (products.reverse ++ k.hist).take (reach + 1)
  let past := pairs.any (fun q => full < q.1.natAbs || full < q.2.natAbs)
  let at_ := if past then some s.now else k.ovlAt
  let ovl := match at_ with
    | some e => decide (s.now ≤ e + 10 * reach)
    | none => false
  let t := (s.modRdc c (fun k => { k with hist := h, sig := cascade State.halfNum den h, sigAt := s.now, ovlAt := at_, ovl := ovl })).fresh
  if ovl && !k.ovl then rdcFlagging t c Reg.RDC_STAT_CONV_OVL 8 [] else t

/-- The signal against the reference φ + `α`, where it is known against φ (R175): a turn of both windings by α. -/
def Wind.turn (w : Wind) (α : Nat) : Wind :=
  let i (a b : Int) : Int := rne (a * cosTurn α + b * sinTurn α) (2 ^ 128)
  let q (a b : Int) : Int := rne (b * cosTurn α - a * sinTurn α) (2 ^ 128)
  { s := i w.s w.sq, c := i w.c w.cq, sq := q w.s w.sq, cq := q w.c w.cq }

/-- harm(θ) of the active table in 2^-40 turn (R190). -/
def harm (table : Nat) (θ : Nat) : Int :=
  let sum := (List.range 16).foldl (fun acc i =>
    let a := signed 32 (bits table (64 * i) 32)
    let b := signed 32 (bits table (64 * i + 32) 32)
    if a = 0 && b = 0 then acc else acc + a * cos40 ((i + 1) * θ) + b * sin40 ((i + 1) * θ)) (0 : Int)
  rne sum (2 ^ 124)

/-! ## Windows and conditions at an update (R175, R176, R194) -/

/-- AMP_LO and AMP_HI in 2^-15. -/
def State.ampLo (s : State) (c : Nat) : Nat := s.eff (Reg.RDC_CFG_AMP_LO c)
def State.ampHi (s : State) (c : Nat) : Nat := max (s.ampLo c) (s.eff (Reg.RDC_CFG_AMP_HI c))

/-- PH0 and PH_WIN in 2^-48 turn. -/
def State.ph0 (s : State) (c : Nat) : Nat := s.eff (Reg.RDC_CFG_PH0 c) * 2 ^ 32
def State.phWin (s : State) (c : Nat) : Nat := min 0x2000 (s.eff (Reg.RDC_CFG_PH_WIN c)) * 2 ^ 32

/-- φc within PH0 ± PH_WIN, and whether it stands at the edge. -/
def clampPhase (ph0 win φ : Nat) : Nat × Bool :=
  let d := modDiff 48 φ ph0
  let e := clamp (-(win : Int)) (win : Int) d
  (unsigned 48 ((ph0 : Int) + e), e.natAbs = win)

/-- Show φc in PH_EST. -/
def showPhase (s : State) (c : Nat) : State := s.wr (Reg.RDC_STAT_PH_EST c) (rne ((s.rdc c).phic : Int) (2 ^ 32) % 65536).toNat

/-- The end of a beat: the mean of AMP is shown and judged against its window, and φc is corrected (R175, R176). -/
def rdcBeat (s : State) (c : Nat) : State :=
  let k := s.rdc c
  if k.n = 0 then s
  else
    let amp := satU 16 (rne k.pow (k.n * 2 ^ 45)).toNat
    let lo := decide (k.pow < ((s.ampLo c * k.n * 2 ^ 45 : Nat) : Int))
    let hi := decide (((s.ampHi c * k.n * 2 ^ 45 : Nat) : Int) < k.pow)
    let inside := !lo && !hi
    let track := decide (k.ph = 3) && inside
    let δ := if track then atan2 k.quad k.pow else 0
    let moved := clampPhase (s.ph0 c) (s.phWin c) (unsigned 48 ((k.phic : Int) + rne δ 64))
    let atEdge := decide (k.ph = 3) && moved.2
    let edge := atEdge && k.atEdge
    let t := s.modRdc c (fun k => { k with
      n := 0, quad := 0, pow := 0, lowRun := if lo then k.lowRun + 1 else 0, highRun := if hi then k.highRun + 1 else 0,
      inRun := if inside then k.inRun + 1 else 0, phic := if k.ph = 3 then moved.1 else k.phic, atEdge := atEdge, edge := edge,
      ampHigh := k.ampHigh && !(inside && 1 ≤ k.inRun) })
    let t := showPhase (t.wr (Reg.RDC_STAT_AMP c) amp) c
    if edge && !k.edge then rdcFlagging t c Reg.RDC_STAT_PHASE 7 [t.rd (Reg.RDC_STAT_PH_EST c)] else t

/-- Thresholds of TRACK_LOSS and OVERSPEED. -/
def State.trkErr (s : State) (c : Nat) : Nat := max 4 (min 12 (s.eff (Reg.RDC_LOOP_TRK_ERR c)))
def State.spdMax (s : State) (c : Nat) : Nat := max 1 (min 120 (s.eff (Reg.RDC_LOOP_SPD_MAX c)))

/-- The seeds of R183: one angle per update; at update 8 the speed and θ̂ come from all nine. -/
def rdcSeed (k : Rdc) (t : Nat) (sn cs : Int) : Rdc :=
  let l := k.seeds ++ [unsigned 48 (atan2 sn cs)]
  let k := { k with seeds := l }
  if t = 8 then
    let sum := (l.zipIdx).foldl (fun (a : Int) q => a + ((q.2 : Int) - 4) * modDiff 48 q.1 (l.getD 0 0)) 0
    let ω := rne (sum * 1024000) (60 * 256)
    let θ := unsigned 40 (rne ((l.getD 8 0 : Nat) : Int) 256 + rne ω 1024000)
    { k with omega := ω, theta := θ }
  else k

/-- One closed update of the loop at FN times 2^gear (R178). -/
def rdcLoop (s : State) (c gear : Nat) (sn cs : Int) : State :=
  let k := s.rdc c
  let fn := s.fnActs c gear
  let ki := loopKI fn
  let e := loopErr (Config.freeReal s.free) sn cs k.theta
  let ω := loopOmega ki e k.omega
  let θ := loopTheta (loopKP fn (s.zeta c)) e ω k.theta
  let x := fadd k.accel (fmul (Config.accCoef (max 10 (min 1000 (s.eff (Reg.RDC_LOOP_ACC_FC c))))) (fadd (fmul ki e) (-k.accel)))
  (s.modRdc c (fun k => { k with theta := θ, omega := ω, err := e, accel := x })).fresh

/-- The tests that run at each update of the closed loop (R194, R197): OVERSPEED, and of a locked channel the consecutive updates beyond
the error and speed thresholds. -/
def rdcJudge (s : State) (c : Nat) : State :=
  let k := s.rdc c
  let bad := decide (k.ph = 3) && decide (2 ^ 1074 < k.err.natAbs * 2 ^ s.trkErr c)
  let runaway := decide (k.ph = 3) && decide (120 * 2 ^ 40 ≤ k.omega.natAbs)
  let fast := decide (s.spdMax c * 2 ^ 40 < k.omega.natAbs)
  let t := s.modRdc c (fun k => { k with errRun := if bad then k.errRun + 1 else 0, spdRun := if runaway then k.spdRun + 1 else 0, fast := fast })
  if fast && !k.fast then rdcFlagging t c Reg.RDC_STAT_OVERSPEED 6 [] else t

/-- The channel's own outputs at this update (R180, R181), from the estimate `θ`, `ω` before the update's step. -/
def rdcOutputs (s : State) (c : Nat) (θ : Nat) (ω : Int) : State :=
  let k := s.rdc c
  let θe : Nat := unsigned 40 ((θ : Int) + s.lagComp c ω)
  let h := if s.eff (Reg.RDC_HARM_CFG_EN c) = 1 then harm (s.eff (Reg.RDC_HARM_ACT_TABLE c)) θe else 0
  let θh : Nat := unsigned 40 ((θe : Int) - h)
  let inv := decide (s.eff (Reg.RDC_CFG_INVERT c) = 1)
  let θo := if inv then unsigned 40 (-(θh : Int)) else θh
  let w32 : Nat := unsigned 32 (rne (θo : Int) 256)
  let o : RdcOut :=
    { at_ := s.now, angle := (w32 + 2 ^ 32 - s.eff (Reg.RDC_CFG_ZERO c)) % 2 ^ 32, speed := if inv then -ω else ω,
      accel := if inv then -k.accel else k.accel, elec := w32,
      flags := (if s.rdcOver c then 8 else 0) + (if s.flag (Reg.RDC_STAT_CM_NOW c) then 16 else 0) + (if k.setFrom ≤ s.now && s.now < k.settle then 4 else 0),
      own := s.rdcOwn c, valid := s.rdcOwn c && !s.paired c }
  s.modRdc c (fun k => { k with prev := k.cur, cur := o, lastF := k.thH, thH := θo })

/-- The amplitude that each channel's amplifier measures is shown (R172). -/
def rdcMeasure (s : State) (m : RdcIn) : State :=
  (s.modRdc m.ch (fun k => { k with uv := m.uv })).wr (Reg.RDC_STAT_EXC_MV m.ch) (satU 16 (rne (m.uv : Int) 1000).toNat)

/-- The outputs of the last update move back one place; the new ones are not valid. -/
def rdcNoOutput (s : State) (c : Nat) : State :=
  s.modRdc c (fun k => { k with prev := k.cur, cur := { k.cur with own := false, valid := false } })

/-- A try at its update `t` (R183): the seeds, then the closed loop, whose updates 49 to 64 are the lock test. The outputs of update
64 are formed, and count if the test passes. -/
def rdcTry (s : State) (c t : Nat) : State :=
  let k := s.rdc c
  if k.ph = 1 && 1 ≤ t && t ≤ 8 then rdcNoOutput (s.modRdc c (fun k => rdcSeed k t k.sig.s k.sig.c)) c
  else if 9 ≤ t && t ≤ 64 then
    let u := rdcLoop (s.modRdc c (fun k => { k with ph := 2 })) c (if t < 49 then s.eff (Reg.RDC_LOOP_ACQ_GEAR c) else 0) k.sig.s k.sig.c
    let e := (u.rdc c).err
    let u := rdcJudge (if 49 ≤ t then u.modRdc c (fun k => { k with lockOk := k.lockOk && decide (e.natAbs * 2 ^ (u.trkErr c + 4) ≤ 2 ^ 1074)
                                                                                   && decide (k.omega.natAbs ≤ 120 * 2 ^ 40) }) else u) c
    if t = 64 then rdcOutputs u c k.theta k.omega else rdcNoOutput u c
  else rdcNoOutput s c

/-- One update of a locked channel (R178, R181); up to `holdTo` θ̂ advances at the held ω and e is not applied (R198). -/
def rdcTrack (s : State) (c : Nat) : State :=
  let k := s.rdc c
  let t := if s.now < k.holdTo then s.modRdc c (fun k => { k with theta := unsigned 40 ((k.theta : Int) + rne k.omega 1024000) })
    else rdcJudge (rdcLoop s c 0 k.sig.s k.sig.c) c
  rdcOutputs t c k.theta k.omega

/-- One update of one channel, but for its pair (R175 to R181, R183). -/
def rdcUpdate (s : State) (m : RdcIn) : State :=
  let c := m.ch
  if !s.rdcOn c then rdcNoOutput (s.modRdc c (fun k => { k with hist := [], ovlAt := none })) c
  else
    let s := rdcDemod s m
    let k := s.rdc c
    let w := k.sig
    let s := s.modRdc c (fun k => { k with n := k.n + 1, quad := k.quad + w.s * w.sq + w.c * w.cq, pow := k.pow + w.s * w.s + w.c * w.c })
    let s := if k.ph = 3 then rdcTrack s c else if k.ph = 0 then rdcNoOutput s c else rdcTry s c ((s.now - k.tryAt) / 240)
    let s := if s.now / 240 % 16 = 15 then rdcBeat s c else s
    showRdc s c

/-! ## Pairs (R186 to R189) -/

/-- d of R188 in 2^-40 fine turn, from −½ to ½. -/
def State.pairD (s : State) (c : Nat) : Int :=
  let k := s.rdc c
  let x : Int := ((s.nspd c * (s.rdc (s.coarse c)).cur.angle * 256 : Nat) : Int) - ((k.thH : Nat) : Int)
  signed 40 (unsigned 40 x)

/-- Show d in signed Q0.16. -/
def showD (s : State) (c : Nat) (d : Int) : State := s.wrS (Reg.RDC_STAT_PAIR_D c) (rne d (2 ^ 24))

/-- |d| exceeds PAIR_TOL. -/
def State.pairOut (s : State) (c : Nat) (d : Int) : Bool := decide (min 0x4000 (s.eff (Reg.RDC_CFG_PAIR_TOL c)) * 2 ^ 24 < d.natAbs)

/-- A fine channel's outputs at this update (R187), the count of its wraps, and d with the running check (R188, R189): d is formed
at every update while both channels are valid. -/
def pairUpdate (s : State) (c : Nat) : State :=
  let k := s.rdc c
  let both := s.paired c && k.cur.own && k.cur.at_ = s.now && s.rdcOwn (s.coarse c)
  if !s.paired c || !k.pair then (if both then showD s c (s.pairD c) else s)
  else
    let n := s.nspd c
    let x : Int := (k.lastF : Int) + modDiff 40 k.thH k.lastF
    let nt := if (2 ^ 40 : Nat) ≤ x then (k.nTurn + 1) % n else if x < 0 then (k.nTurn + n - 1) % n else k.nTurn
    let a := unsigned 32 (rne ((nt * 2 ^ 40 + k.thH : Nat) : Int) (n * 256) - (s.eff (Reg.RDC_CFG_ZERO c) : Nat))
    let o := { k.cur with angle := a, speed := rne k.cur.speed n, accel := fdiv k.cur.accel (freal n), valid := k.cur.own }
    let t := (s.modRdc c (fun k => { k with nTurn := nt, cur := o })).wr (Reg.RDC_STAT_NTURN c) nt
    if both then
      let d := t.pairD c
      let t := showD t c d
      t.modRdc c (fun k => { k with slip := if t.pairOut c d then k.slip + 1 else 0 })
    else t.modRdc c (fun k => { k with slip := 0 })

/-- The last valid outputs (R195): the electrical angle of a fine channel goes on while its pair is not resolved. -/
def liveUpdate (s : State) (c : Nat) : State :=
  s.modRdc c (fun k =>
    if k.cur.at_ ≠ s.now || !k.cur.own then k else if k.cur.valid then { k with live := k.cur } else { k with live := { k.live with elec := k.cur.elec } })

/-- Channel `c` was LOCKED when the update at this edge formed its outputs. -/
def State.rdcFresh (s : State) (c : Nat) : Bool :=
  s.rdcOwn c && (s.rdc c).cur.own && decide ((s.rdc c).cur.at_ = s.now) && decide ((s.rdc c).lockAt < s.now)

/-- The pair's resolution at this update (R188): at the first update with both channels LOCKED, and after one that was ambiguous at
each beat boundary. -/
def State.pairTries (s : State) (c : Nat) : Bool :=
  s.paired c && s.rdcFresh c && s.rdcFresh (s.coarse c) && !(s.rdc c).pair && (!(s.rdc c).ambig || s.now % cclkBeat = 0)

def pairResolve (s : State) (c : Nat) : State :=
  if s.pairTries c then
    let d := s.pairD c
    let t := showD s c d
    if s.pairOut c d then rdcOnset (t.modRdc c (fun k => { k with ambig := true })) c Reg.RDC_STAT_PAIR_AMBIG 0xC [t.rd (Reg.RDC_STAT_PAIR_D c)]
    else
      let n := s.nspd c
      let x : Int := ((n * (s.rdc (s.coarse c)).cur.angle * 256 : Nat) : Int) - (((s.rdc c).thH : Nat) : Int)
      let nt := (rne x (2 ^ 40) % (n : Int)).toNat
      showRdc ((t.modRdc c (fun k => { k with pair := true, ambig := false, nTurn := nt, slip := 0, lastF := k.thH })).wr (Reg.RDC_STAT_NTURN c) nt) c
  else s

def execRdcPairResolve (c : Nat) (s : State) : Host.Outcome State Fault Refusal :=
  guardItem (c < 32) (answer s (pairResolve s c))

/-- PAIR_SLIP (R188): 16 updates in a row beyond PAIR_TOL drop the resolution. -/
def pairSlip (s : State) (c : Nat) : State :=
  if (s.rdc c).pair && 16 ≤ (s.rdc c).slip then
    showRdc (rdcOnset (s.modRdc c (fun k => { k with pair := false, slip := 0, cur := { k.cur with valid := false } })) c Reg.RDC_STAT_PAIR_SLIP 0xD
      [s.rd (Reg.RDC_STAT_PAIR_D c)]) c
  else s

def execRdcPairSlip (c : Nat) (s : State) : Host.Outcome State Fault Refusal :=
  guardItem (c < 32) (answer s (pairSlip s c))

/-! ## Acquisition (R182 to R185) -/

/-- A try that began `ago` CCLK edges ago ends without a lock (R185): from the eighth on the tries begin 64 beats apart. -/
def tryFailed (s : State) (c ago : Nat) : State :=
  let n := min 255 (s.rd (Reg.RDC_STAT_ACQ_TRIES c) + 1)
  let t := (s.wr (Reg.RDC_STAT_ACQ_TRIES c) n).modRdc c (fun k =>
    { k with ph := 0, seeds := [], retryAt := if 8 ≤ n then s.run + 64 * cclkBeat - ago else k.retryAt })
  let t := if n = 8 then rdcOnset t c Reg.RDC_STAT_ACQ_FAIL 2 [] else t
  showRdc t c

/-- The conditions of R182 hold. -/
def State.mayAcquire (s : State) (c : Nat) : Bool :=
  let k := s.rdc c
  let x := s.excSrc c
  s.rdcOn c && k.ph = 0 && s.now % cclkBeat = 0 && k.sigAt = s.now && s.ampOn x && s.elapsed (s.rdc x).excAt (64 * cclkBeat) && 2 ≤ k.inRun
    && !k.wire && !k.conv && k.retryAt ≤ s.run

/-- The signal of this update against φc = PH0 (R183). -/
def State.seedSig (s : State) (c : Nat) : Wind := (s.rdc c).sig.turn (s.ph0 c + 2 ^ 48 - (s.rdc c).phic % 2 ^ 48)

/-- δ0 of R183. -/
def Wind.delta (w : Wind) : Int := atan2 (w.s * w.sq + w.c * w.cq) (w.s * w.s + w.c * w.c)

/-- RDC_ACQ_START (R183), on the update at this beat boundary: the phase seed is refused beyond PH_WIN; otherwise φc and the first
angle are seeded. -/
def acqStart (s : State) (c : Nat) : State :=
  if !s.mayAcquire c then s
  else
    let w := s.seedSig c
    let δ := w.delta
    if (s.phWin c : Int) < δ.natAbs then
      let t := showPhase (s.modRdc c (fun k => { k with phic := s.ph0 c, los := false })) c
      tryFailed (rdcOnset t c Reg.RDC_STAT_PHASE 7 [t.rd (Reg.RDC_STAT_PH_EST c)]) c 0
    else
      showRdc (showPhase (s.modRdc c (fun k => { k with
        ph := 1, phic := unsigned 48 ((s.ph0 c : Int) + δ), seeds := [unsigned 48 (atan2 w.s w.c)], tryAt := s.now, lockOk := true,
        accel := 0, err := 0, los := false })) c) c

def execRdcAcqStart (c : Nat) (s : State) : Host.Outcome State Fault Refusal :=
  guardItem (c < 32) (answer s (acqStart s c))

/-- RDC_LOCK_TEST (R183), on the update 64: the channel locks, or the try fails. The outputs of the beat that begins here carry
SETTLING. -/
def lockTest (s : State) (c : Nat) : State :=
  let k := s.rdc c
  if k.ph = 2 && k.tryAt + 64 * 240 = s.now then
    if k.lockOk then
      let t := s.modRdc c (fun k => { k with
        ph := 3, seeds := [], errRun := 0, spdRun := 0, lockAt := s.now, setFrom := s.now, settle := s.now + cclkBeat,
        cur := { k.cur with own := true, valid := !s.paired c, flags := if k.cur.flags / 4 % 2 = 1 then k.cur.flags else k.cur.flags + 4 } })
      showRdc (((liveUpdate t c).clr (Reg.RDC_STAT_ACQ_TRIES c)).count (Reg.RDC_CNT_LOCKS c) |>.bark (axSrc (c / 16)) (axCode (c / 16) 1) false [c % 16]) c
    else tryFailed s c (64 * 240)
  else s

def execRdcLockTest (c : Nat) (s : State) : Host.Outcome State Fault Refusal :=
  guardItem (c < 32) (answer s (lockTest s c))

/-! ## Faults (R194) -/

def execRdcLos (c : Nat) (s : State) : Host.Outcome State Fault Refusal :=
  guardItem (c < 32) (answer s
    (if s.rdcOn c && 2 ≤ (s.rdc c).lowRun && !(s.rdc c).los then rdcDrop ((rdcOnset (s.modRdc c (fun k => { k with los := true })) c Reg.RDC_STAT_LOS 4 []).count (Reg.RDC_CNT_LOS c)) c else s))

def execRdcAmpHigh (c : Nat) (s : State) : Host.Outcome State Fault Refusal :=
  guardItem (c < 32) (answer s
    (if s.rdcOn c && 2 ≤ (s.rdc c).highRun && !(s.rdc c).ampHigh then
      showRdc (rdcFlagging (s.modRdc c (fun k => { k with ampHigh := true })) c Reg.RDC_STAT_AMP_HIGH 0xF []) c
    else s))

/-- WIRE_OPEN: `winds` names the windings whose pins have stood above +9.5 V (bit 0 sine, bit 1 cosine) for two beats; 0 when
all have stood below +9 V for two beats. -/
def wireOpen (s : State) (c winds : Nat) : State :=
  let w := winds % 4
  if !s.rdcOn c then s
  else if w = 0 then showRdc ((s.clr (Reg.RDC_STAT_OPEN_WIND c)).modRdc c (fun k => { k with wire := false })) c
  else if s.eff (Reg.RDC_CFG_OWD c) ≠ 1 then s
  else
    let t := s.wr (Reg.RDC_STAT_OPEN_WIND c) w
    if (s.rdc c).wire then t
    else rdcDrop ((rdcOnset (t.modRdc c (fun k => { k with wire := true })) c Reg.RDC_STAT_WIRE_OPEN 5 [w]).count (Reg.RDC_CNT_LOS c)) c

def execRdcWireOpen (c winds : Nat) (s : State) : Host.Outcome State Fault Refusal :=
  guardItem (c < 32) (answer s (wireOpen s c winds))

/-- CM_FAULT: an input pin beyond ±10 V for two beats, or (`on` false) 64 beats within. -/
def rdcCm (s : State) (c : Nat) (on : Bool) : State :=
  if !s.rdcOn c || s.flag (Reg.RDC_STAT_CM_NOW c) = on then s
  else if on then rdcFlagging (s.set (Reg.RDC_STAT_CM_NOW c)) c Reg.RDC_STAT_CM_FAULT 9 []
  else s.clr (Reg.RDC_STAT_CM_NOW c)

def execRdcCmFault (c : Nat) (on : Bool) (s : State) : Host.Outcome State Fault Refusal :=
  guardItem (c < 32) (answer s (rdcCm s c on))

/-- TRACK_LOSS: 16 updates in a row beyond a threshold. Acquisition begins at once. -/
def execRdcTrackLoss (c : Nat) (s : State) : Host.Outcome State Fault Refusal :=
  guardItem (c < 32) (answer s
    (if s.rdcOwn c && (16 ≤ (s.rdc c).errRun || 16 ≤ (s.rdc c).spdRun) then
      rdcDrop ((rdcOnset s c Reg.RDC_STAT_TRACK_LOSS 3 []).count (Reg.RDC_CNT_TRACK_LOSS c)) c
    else s))

/-- EXC_ILIM: the load of amplifier `c` asks for a peak of `ua` µA over a beat; the amplifier limits at ILIM, or stops limiting. It acts on
every channel that names it. -/
def rdcIlim (s : State) (c : Nat) (ua : Nat) : State :=
  let on := decide (s.ampIlim c * 1000 ≤ ua)
  if !s.ampOn c || s.flag (Reg.RDC_STAT_EXC_LIMITING c) = on then s
  else
    let t := s.wrB (Reg.RDC_STAT_EXC_LIMITING c) on
    (s.excited c).foldl (fun u d => showRdc (if on then rdcFlagging u d Reg.RDC_STAT_EXC_ILIM 0xA [] else u) d) t

def execRdcExcIlim (c ua : Nat) (s : State) : Host.Outcome State Fault Refusal :=
  guardItem (c < 32) (answer s (rdcIlim s c ua))

/-- EXC_THERMAL: amplifier `c` is switched off; its channels then reach LOS. -/
def rdcThermal (s : State) (c : Nat) : State :=
  if !s.ampOn c then s
  else
    let t := (s.set (Reg.RDC_STAT_EXC_SHUTDOWN c)).clr (Reg.RDC_STAT_EXC_LIMITING c)
    (s.excited c).foldl (fun u d => rdcOnset u d Reg.RDC_STAT_EXC_THERMAL 0xB []) t

def execRdcExcThermal (c : Nat) (s : State) : Host.Outcome State Fault Refusal :=
  guardItem (c < 32) (answer s (rdcThermal s c))

/-- CONV_FAULT: a winding converter out of 2 % to 98 % for a whole beat, or its bitstream missing; the channel is held in
WAIT. -/
def rdcConv (s : State) (c : Nat) : State := rdcDrop (rdcOnset (s.modRdc c (fun k => { k with conv := true })) c Reg.RDC_STAT_CONV_FAULT 0xE []) c

def execRdcConvFault (c : Nat) (s : State) : Host.Outcome State Fault Refusal :=
  guardItem (c < 32) (answer s (if s.rdcOn c && !(s.rdc c).conv then rdcConv s c else s))

/-- REACQ (R185, R194, R199): the channel leaves whatever state it is in but OFF, and acquires under R182; the retry wait and a
thermal shutdown of its amplifier end. After CONV_FAULT the converter check runs, for 64 beats in which the channel's own amplifier is
off; `pass` is its result. -/
def rdcReacq (s : State) (c : Nat) (pass : Bool) : State :=
  let s := if s.flag (Reg.RDC_STAT_EXC_SHUTDOWN c) then (s.clr (Reg.RDC_STAT_EXC_SHUTDOWN c)).modRdc c (fun k => { k with excAt := s.run }) else s
  if !s.rdcOn c then s
  else
    let t := s.modRdc c (fun k => { k with retryAt := s.run, los := false })
    let t := if s.flag (Reg.RDC_STAT_CONV_FAULT c) then
        t.modRdc c (fun k => { k with conv := !pass, retryAt := s.run + 64 * cclkBeat, ampOff := s.run + 64 * cclkBeat, excAt := s.run + 64 * cclkBeat })
      else t
    rdcDrop t c

def execRdcReacq (src : WrSrc) (c : Nat) (pass : Bool) (s : State) : Host.Outcome State Fault Refusal :=
  guardItem (c < 32) (answer s (s.write src .RDC_CTRL (c / 16) (c % 16) true (fun t =>
    (rdcReacq t c pass).journalW src .RDC_CTRL (c / 16) (c % 16) 1)))

def rdcCnts (c : Nat) : List Fld := [Reg.RDC_CNT_LOCKS c, Reg.RDC_CNT_TRACK_LOSS c, Reg.RDC_CNT_LOS c, Reg.RDC_CNT_OR_EVENTS c]

def execRdcCntClr (src : WrSrc) (c : Nat) (s : State) : Host.Outcome State Fault Refusal :=
  guardItem (c < 32) (answer s (s.write src .RDC_CTRL (c / 16) (c % 16) true (fun t =>
    (t.clearCnts (rdcCnts c) 15).journalW src .RDC_CTRL (c / 16) (c % 16) 2)))

/-- A read of the first word of RDC_LIVE[c] latches the element at the latest update, or the last valid one (R195, R413). -/
def liveLatch (s : State) (c : Nat) : State :=
  let o := (s.rdc c).live
  ((((s.wr (Reg.RDC_LIVE_ANGLE c) o.angle).wrS (Reg.RDC_LIVE_SPEED c) (rne o.speed (2 ^ 16))).wrS (Reg.RDC_LIVE_ACCEL c)
    (rne (o.accel * 65536) realOne)).wr (Reg.RDC_LIVE_ELEC c) o.elec).wr (Reg.RDC_LIVE_AT c) (atWord o.at_)

def execRdcLiveLatch (c : Nat) (s : State) : Host.Outcome State Fault Refusal :=
  guardItem (c < 32) (answer s (if s.domOn (16 + c / 16) then liveLatch s c else s))

/-! ## Harmonic learning (R190 to R193) -/

/-- TURNS as it acts. -/
def State.learnTurns (s : State) (c : Nat) : Nat := max 4 (s.eff (Reg.RDC_HARM_CFG_TURNS c))

/-- LEARN: starts, or restarts, learning on a LOCKED channel. -/
def rdcLearn (s : State) (c : Nat) : State :=
  if !s.rdcOwn c then s
  else
    let r := s.eff (Reg.RDC_HARM_CFG_REF c)
    let t := s.modRdc c (fun k => { k with learn := some { ref := if r = 3 then 0 else r, turns := s.learnTurns c } })
    ((((t.wr (Reg.RDC_HARM_STAT_LSTATE c) 1).clr (Reg.RDC_HARM_STAT_FAIL c)).clr (Reg.RDC_HARM_STAT_ACCEPTED c)).clr
      (Reg.RDC_HARM_STAT_DISCARDED c)).set (Reg.RDC_STAT_LEARNING c)

def execRdcLearn (src : WrSrc) (c : Nat) (s : State) : Host.Outcome State Fault Refusal :=
  guardItem (c < 32) (answer s (s.write src .RDC_CTRL (c / 16) (c % 16) true (fun t =>
    (rdcLearn t c).journalW src .RDC_CTRL (c / 16) (c % 16) 4)))

/-- Learning ends FAILED (R192); the staging table stays as it was. -/
def learnFail (s : State) (c code : Nat) : State :=
  if (s.rdc c).learn.isNone then s
  else
    let t := s.modRdc c (fun k => { k with learn := none })
    (((t.wr (Reg.RDC_HARM_STAT_LSTATE c) 3).wr (Reg.RDC_HARM_STAT_FAIL c) code).clr (Reg.RDC_STAT_LEARNING c)).bark
      (axSrc (c / 16)) (axCode (c / 16) 0x11) true [c % 16, code]

/-- RDC_HARM_FAIL: the cause that has come about. -/
def execRdcHarmFail (c : Nat) (s : State) : Host.Outcome State Fault Refusal :=
  guardItem (c < 32) (answer s (match (s.rdc c).learn with
    | some l => if l.cause = 0 then s else learnFail s c l.cause
    | none => s))

def execRdcAbort (src : WrSrc) (c : Nat) (s : State) : Host.Outcome State Fault Refusal :=
  guardItem (c < 32) (answer s (s.write src .RDC_CTRL (c / 16) (c % 16) true (fun t =>
    (learnFail t c 5).journalW src .RDC_CTRL (c / 16) (c % 16) 8)))

/-- A whole turn ends: it is accepted when its conditions held and every bin was reached (R191, R192). -/
def Learn.turnEnd (l : Learn) : Learn × Bool :=
  let even := l.ref ≠ 0 || 1000 * (l.wMax - l.wMin) * (l.k : Int) ≤ 2 * l.wTot.natAbs
  if l.k ≠ 0 && !l.spoilt && even && l.bins.length = 1024 then
    let dev (b : LBin) : Int := b.th * (2 ^ 20 : Nat) - (if l.ref = 0 then rne (b.rf * l.th * (2 ^ 20 : Nat)) l.k else b.rf * (2 ^ 20 : Nat))
    let acc := l.bins.foldl (fun (m : Sparse (Nat × Int)) e =>
      let a := m.get (0, 0) e.1
      m.put (0, 0) e.1 (a.1 + e.2.n, a.2 + dev e.2)) l.acc
    ({ l with acc := acc, wSum := l.wSum + rne l.wTot l.k }, true)
  else (l, false)

/-- One update of learning: `θ` is θe, `ω` its speed, `rf` the reference as a count of `mod` bits worth `unit` 2^-40 turns each,
none where it is not valid; `slow` is that 16 |ω| ≤ FN / 4 (R191). -/
def Learn.update (l : Learn) (θ : Nat) (ω : Int) (rf : Option Nat) (mod unit : Nat) (slow : Bool) : Learn × Option Bool :=
  match rf with
  | none => ({ l with cause := if l.cause = 0 then 3 else l.cause }, none)
  | some r =>
    if !l.seen then ({ l with seen := true, lastTh := θ, lastRf := r }, none)
    else
      let d := modDiff 40 θ l.lastTh
      let x : Int := (l.lastTh : Int) + d
      let wraps := decide ((2 ^ 40 : Nat) ≤ x) || decide (x < 0)
      let l := { l with lastTh := θ, lastRf := r, th := l.th + d, rf := l.rf + modDiff mod r l.lastRf * (unit : Int) }
      let closed := if wraps && l.open_ then some l.turnEnd else none
      let l := match closed with | some q => q.1 | none => l
      let l := if wraps then { l with open_ := true, k := 0, fwd := decide (0 < d), wMin := ω, wMax := ω, wTot := 0, th := 0, rf := 0, bins := [], spoilt := false } else l
      let l := if l.open_ then
          let b := Sparse.get ({} : LBin) (θ / 2 ^ 30) l.bins
          let nb : LBin := { n := b.n + 1, th := b.th + l.th, rf := b.rf + (if l.ref = 0 then (l.k : Int) else l.rf) }
          { l with k := l.k + 1, wMin := min l.wMin ω, wMax := max l.wMax ω, wTot := l.wTot + ω, bins := Sparse.put ({} : LBin) (θ / 2 ^ 30) nb l.bins,
                   spoilt := l.spoilt || !slow || (decide (d < 0) && l.fwd) || (decide (0 < d) && !l.fwd) }
        else l
      (l, closed.map (fun q => q.2))

/-- Learning follows an update of channel `c` (R191, R192). `fused` is F of the input REF_IDX names, when it is valid. -/
def learnUpdate (s : State) (c : Nat) (fused : Option Nat) : State :=
  let k := s.rdc c
  match k.learn with
  | none => s
  | some l =>
    if !k.cur.own || k.cur.at_ ≠ s.now || l.cause ≠ 0 then s
    else
      let θ : Nat := unsigned 40 ((k.theta : Int) + s.lagComp c k.omega)
      let fine := ((List.range 16).map (sibling c)).find? (fun d => s.paired d && s.coarse d = c)
      let rf := if l.ref = 0 then some 0
        else if l.ref = 1 then (match fine with | some d => if s.rdcValid d then some (s.rdc d).cur.angle else none | none => none)
        else fused
      let md := if l.ref = 2 then 48 else 32
      let unit := if l.ref = 2 then 256 * s.nspd c else 256
      let slow := decide (64 * k.omega.natAbs ≤ s.fnActs c 0 * 8)
      let r := l.update θ k.omega rf md unit slow
      let t := s.modRdc c (fun k => { k with learn := some r.1 })
      match r.2 with
      | none => t
      | some ok =>
        let t := if ok then t.countN (Reg.RDC_HARM_STAT_ACCEPTED c) 1 else t.countN (Reg.RDC_HARM_STAT_DISCARDED c) 1
        let a := t.rd (Reg.RDC_HARM_STAT_ACCEPTED c)
        if a < l.turns && 4 * l.turns ≤ a + t.rd (Reg.RDC_HARM_STAT_DISCARDED c) then t.modRdc c (fun k => learnCause k 1) else t

/-- The mean deviation of each bin over the accepted turns, in 2^-60 turn. -/
def binMeans (acc : Sparse (Nat × Int)) : Sparse Int := acc.map (fun e => (e.1, rne e.2.2 e.2.1))

/-- The coefficients A and B of harmonic `h` over the bin means, in 2^-188 turn times 512. -/
def dftBin (means : Sparse Int) (h : Nat) : Int × Int :=
  means.foldl (fun (q : Int × Int) e =>
    let θ := (2 * e.1 + 1) * 2 ^ 29
    (q.1 + e.2 * cos40 (h * θ), q.2 + e.2 * sin40 (h * θ))) (0, 0)

/-- A and B as reals in turns. -/
def learnedCoef (means : Sparse Int) (h : Nat) : Int × Int :=
  let q := dftBin means h
  (rnd64 (q.1 * (realOne : Int)) (2 ^ 188 * 512), rnd64 (q.2 * (realOne : Int)) (2 ^ 188 * 512))

/-- The coefficients divided by the loop's response (KI + KP jw) / (KI − w² + KP jw) at w = 2π h ω (R191). -/
def unLoop (ki kp ω : Int) (h : Nat) (ab : Int × Int) : Int × Int :=
  let w := rnd64 (ω * (h : Int) * (twoPi : Int) * (realOne : Int)) (2 ^ 168)
  let w2 := fmul w w
  let den := fadd (fmul ki ki) (fmul (fmul kp kp) w2)
  let p := fdiv (fadd (fadd (fmul ki ki) (-(fmul ki w2))) (fmul (fmul kp kp) w2)) den
  let q := fdiv (fmul (fmul kp w) w2) den
  (fadd (fmul ab.1 p) (fmul ab.2 q), fadd (fmul ab.2 p) (-(fmul ab.1 q)))

/-- The rms of the bin means less their mean and the fitted harmonics, in 2^-32 turn. -/
def learnResid (means : Sparse Int) (ab : List (Int × Int)) : Nat :=
  let sum := means.foldl (fun (a : Int) e => a + e.2) 0
  let sq := means.foldl (fun (a : Int) e => a + e.2 * e.2) 0
  let fit := ab.foldl (fun (a : Nat) q => a + (rne ((q.1 * q.1 + q.2 * q.2) * (2 ^ 140 : Nat)) (2 * realOne * realOne)).toNat) 0
  let var := (sq * 1024 - sum * sum).toNat - fit
  let r := isqrt var
  satU 16 (rne ((2 * r + (if r * r = var then 0 else 1) : Nat) : Int) (2 ^ 39)).toNat

/-- Outputs of channel `c`, and of a pair that uses it, with AT in the beat from `e` carry SETTLING (R193). -/
def harmSettle (s : State) (c e : Nat) : State :=
  ((List.range 16).map (sibling c)).foldl (fun u d =>
    if d = c || (s.paired d && s.coarse d = c) then u.modRdc d (fun k => k.settling s.now e) else u) s

/-- A table of channel `c` becomes active at this edge (R193), and is stored in the kennel with the card's serial number. -/
def harmActive (s : State) (c table : Nat) : State :=
  let t := harmSettle (s.wr (Reg.RDC_HARM_ACT_TABLE c) table) c s.now
  let t := { t with kn := { t.kn with cal := t.kn.cal.insert ((s.slot (16 + c / 16)).serial * 256 + 64 + c % 16) (leBytes 128 table) } }
  t.bark (axSrc (c / 16)) (axCode (c / 16) 0x12) false [c % 16]

/-- The staging table as one number. -/
def State.harmStg (s : State) (c : Nat) : Nat :=
  (List.range 16).foldl (fun n i => n + s.rd (Reg.RDC_HARM_STG_A c (i + 1)) * 2 ^ (64 * i) + s.rd (Reg.RDC_HARM_STG_B c (i + 1)) * 2 ^ (64 * i + 32)) 0

/-- ACTIVATE: at the next beat boundary, or at the command's instant. -/
def harmActivate (s : State) (src : WrSrc) (c : Nat) : State :=
  if src = .direct then { s with ax := { s.ax with acts := s.ax.acts.filter (fun q => q.1 ≠ c) ++ [(c, beatNext s.now)] } }
  else harmActive s c (s.harmStg c)

/-- The activations whose boundary has come take the staging table as it stands. -/
def harmTick (s : State) : State :=
  let due := s.ax.acts.filter (fun q => q.2 ≤ s.now)
  if due.isEmpty then s
  else due.foldl (fun u q => harmActive u q.1 (u.harmStg q.1)) { s with ax := { s.ax with acts := s.ax.acts.filter (fun q => s.now < q.2) } }

def execRdcHarmActivate (src : WrSrc) (c : Nat) (s : State) : Host.Outcome State Fault Refusal :=
  guardItem (c < 32) (answer s (s.write src .RDC_CTRL (c / 16) (c % 16) true (fun t =>
    (harmActivate t src c).journalW src .RDC_CTRL (c / 16) (c % 16) 16)))

/-- Write the staging table. -/
def writeStg (s : State) (c : Nat) (ab : List (Int × Int)) : State :=
  (ab.zipIdx).foldl (fun u q => (u.wrS (Reg.RDC_HARM_STG_A c (q.2 + 1)) q.1.1).wrS (Reg.RDC_HARM_STG_B c (q.2 + 1)) q.1.2) s

def execRdcHarmClear (src : WrSrc) (c : Nat) (s : State) : Host.Outcome State Fault Refusal :=
  guardItem (c < 32) (answer s (s.write src .RDC_CTRL (c / 16) (c % 16) true (fun t =>
    (writeStg t c (List.replicate 16 (0, 0))).journalW src .RDC_CTRL (c / 16) (c % 16) 32)))

/-- RDC_HARM_DONE (R192): TURNS turns are accepted; the table is computed, and under AUTO activated. -/
def harmDone (s : State) (c : Nat) : State :=
  match (s.rdc c).learn with
  | none => s
  | some l =>
    if l.cause ≠ 0 || s.rd (Reg.RDC_HARM_STAT_ACCEPTED c) < l.turns then s
    else
      let fn := s.fnActs c 0
      let ω := rne l.wSum l.turns
      let means := binMeans l.acc
      let meas := (List.range 16).map (fun i => learnedCoef means (i + 1))
      let ab := (meas.zipIdx).map (fun q => unLoop (loopKI fn) (loopKP fn (s.zeta c)) ω (q.2 + 1) q.1)
      let w := ab.map (fun q => (rne (q.1 * (2 ^ 36 : Nat)) realOne, rne (q.2 * (2 ^ 36 : Nat)) realOne))
      if w.any (fun q => 2 ^ 31 ≤ q.1.natAbs || 2 ^ 31 ≤ q.2.natAbs) then learnFail s c 4
      else
        let t := writeStg (s.modRdc c (fun k => { k with learn := none })) c w
        let r := learnResid means meas
        let t := (((t.wr (Reg.RDC_HARM_STAT_RESID c) r).wr (Reg.RDC_HARM_STAT_LSTATE c) 2).clr (Reg.RDC_STAT_LEARNING c)).bark
          (axSrc (c / 16)) (axCode (c / 16) 0x10) false [c % 16, r]
        if s.eff (Reg.RDC_HARM_CFG_AUTO c) = 1 && r ≤ s.eff (Reg.RDC_HARM_CFG_RESID_MAX c) then harmActivate t .direct c else t

def execRdcHarmDone (c : Nat) (s : State) : Host.Outcome State Fault Refusal :=
  guardItem (c < 32) (answer s (harmDone s c))

/-! ## Modes, steps of AT, changes of settings (R174, R198, R200, R202) -/

/-- The channels leave the modes that excite (R202): OFF, and learning ends with code 2 on entry to BOOT or DORMANT. -/
def rdcOff (s : State) (c : Nat) : State :=
  ((rdcDrop (learnFail s c 2) c).modRdc c (fun k => { k with up := false })).clr (Reg.RDC_STAT_STATE c)

/-- A card's channels begin anew: the amplifiers start at the beat boundary and every channel waits (R174, R202). -/
def rdcStart (s : State) (c : Nat) : State :=
  rdcDrop (s.modRdc c (fun k => { k with
    excAt := s.run + (beatCeil s.now - s.now), ampOff := 0, lowRun := 0, highRun := 0, inRun := 0, n := 0, quad := 0, pow := 0, hist := [],
    retryAt := 0, los := false, ampHigh := false, wire := false, up := false, phic := s.ph0 c })) c

/-- A step of AT to `e` (R198): a locked channel holds its loop until 2 updates after τd; a try goes on in step. -/
def rdcStep (s : State) (e : Nat) : State :=
  (List.range 32).foldl (fun u c => u.modRdc c (fun k =>
    let k := { k with lockAt := k.lockAt + e - s.now, ovlAt := k.ovlAt.map (fun a => a + e - s.now) }
    if k.ph = 3 then { k with holdTo := e + s.tauD c + 480, setFrom := e, settle := e + s.tauD c + 480 }
    else { k with tryAt := k.tryAt + e - s.now, setFrom := 0, settle := 0, holdTo := 0 })) s

/-- The fields of a channel by the rows of R200. -/
def rdcAnew (c : Nat) : List Nat :=
  [Reg.RDC_CFG_EN c, Reg.RDC_CFG_RANGE c, Reg.RDC_CFG_INVERT c, Reg.RDC_CFG_EXC_EN c, Reg.RDC_CFG_EXC_SRC c, Reg.RDC_CFG_LEVEL c,
   Reg.RDC_CFG_FREQ c, Reg.RDC_CFG_PHASE c, Reg.RDC_CFG_PH0 c].map (fun f => f.key)
def rdcExc (c : Nat) : List Nat :=
  [Reg.RDC_CFG_EXC_EN c, Reg.RDC_CFG_LEVEL c, Reg.RDC_CFG_FREQ c, Reg.RDC_CFG_PHASE c].map (fun f => f.key)
def rdcPairKeys (c : Nat) : List Nat := [Reg.RDC_CFG_PAIR_EN c, Reg.RDC_CFG_COARSE c, Reg.RDC_CFG_NSPD c].map (fun f => f.key)

/-- The channels whose setting may have become invalid, or valid, with that of channel `c` (R173, R186). -/
def State.rdcJudged (s : State) (c : Nat) : List Nat :=
  ((List.range 16).map (sibling c)).filter (fun d =>
    d = c || s.excSrc d = c || (s.paired d && (s.coarse d = c || s.coarse d = s.coarse c)) || s.flag (Reg.RDC_STAT_CFG_BAD d))

/-- Channel `c` returns to WAIT and acquires anew (R200). -/
def rdcAgain (s : State) (c : Nat) : State :=
  rdcDrop (s.modRdc c (fun k => { k with inRun := 0, lowRun := 0, highRun := 0, phic := s.ph0 c })) c

/-- The setting of channel `d` is judged after a change (R201): an invalid one holds the channel OFF. `mine` is that the change is of the
channel's own setting. -/
def rdcJudgeCfg (s : State) (d : Nat) (mine : Bool) : State :=
  let bad := rdcInvalidCfg s.eff d
  let was := s.flag (Reg.RDC_STAT_CFG_BAD d)
  let t := s.wrB (Reg.RDC_STAT_CFG_BAD d) bad
  let t := if bad && (mine || !was) then t.bark (axSrc (d / 16)) (axCode (d / 16) 0x13) true [d % 16] else t
  if bad = was then t else rdcAgain t d

/-- A stored setting that is invalid holds an enabled channel OFF when its card enters; no write has left it so, and no bark is raised
(DESIGN CHOICE). -/
def rdcEnterCfg (s : State) (c : Nat) : State :=
  s.wrB (Reg.RDC_STAT_CFG_BAD c) (s.eff (Reg.RDC_CFG_EN c) = 1 && rdcInvalidCfg s.eff c)

/-- Fields `ks` of channel `c` have taken their new values at this boundary (R194, R200, R201). -/
def rdcChanged (s : State) (c : Nat) (ks : List Nat) : State :=
  let has (l : List Nat) : Bool := l.any ks.contains
  let cfg := ks.any (fun k => decide ((Reg.RDC_CFG_EN c).key / 256 = k / 256))
  let s := (s.rdcJudged c).foldl (fun u d => rdcJudgeCfg u d (cfg && d = c)) s
  let s := if (cfg && s.flag (Reg.RDC_STAT_EXC_SHUTDOWN c)) || has (rdcExc c) then
      (s.clr (Reg.RDC_STAT_EXC_SHUTDOWN c)).modRdc c (fun k => { k with excAt := s.run }) else s
  let s := if has (rdcAnew c) then
      (((List.range 16).map (sibling c)).filter (fun d => d = c || s.excSrc d = c)).foldl rdcAgain s
    else s
  let s := if has (rdcPairKeys c) then showRdc (s.modRdc c (fun k => { k with pair := false, ambig := false, slip := 0 })) c else s
  let s := if has [(Reg.RDC_CFG_ZERO c).key] then s.modRdc c (fun k => k.settling s.now s.now) else s
  let s := if has [(Reg.RDC_HARM_CFG_EN c).key] then harmSettle s c s.now else s
  (((List.range 16).map (sibling c)).filter (fun d => d = c || s.excSrc d = c)).foldl showRdc s

end Sys2Proof.Machine
end

