-- ==== Sys2Proof/Machine/Position.lean ====
section
/-! DEFINITION. Fine position inputs, fusion and probes (R203 to R225, R230, R231). Counts are 48-bit modular words, F is a
48-bit word of 2^-32 turns. -/

namespace Sys2Proof.Machine

def State.pfi (s : State) (i : Nat) : Pfi := s.ax.pfi.get {} i

/-- `k'` after `k` at an edge: a change of Q is kept for the latches of the last two updates (R217). -/
def Pfi.after (k k' : Pfi) (now : Nat) : Pfi :=
  if k'.q = k.q then k' else { k' with qLog := k.qLog.filter (fun p => now < p.1 + 480) ++ [(now, k.q)] }

def State.modPfi (s : State) (i : Nat) (g : Pfi → Pfi) : State :=
  { s with ax := { s.ax with pfi := s.ax.pfi.put {} i ((s.pfi i).after (g (s.pfi i)) s.now) } }

/-- Q of an input at the AT edge `e`, at most two updates back (R217). -/
def State.qAt (s : State) (i e : Nat) : Nat :=
  match (s.pfi i).qLog.find? (fun p => e < p.1) with
  | some p => p.2
  | none => (s.pfi i).q

/-- Slots with AT in a beat from this edge carry SETTLING (R225). -/
def Pfi.settling (k : Pfi) (now : Nat) : Pfi := { k with setFrom := now, settle := now + cclkBeat }

/-- Axis card of an input, and bark arguments. -/
def pfiBark (s : State) (i ev : Nat) (warn : Bool) (payload : List Nat) : State :=
  s.bark (axSrc (i / 8)) (axCode (i / 8) ev) warn ([i % 8] ++ payload)

/-- A W1C bit sets, and its bark is raised at most once per second per input (R216). -/
def pfiOnset (s : State) (i : Nat) (f : Nat → Fld) (ev : Nat) (payload : List Nat) : State :=
  (s.set (f i)).barkEvery cclkSec (i % 8) (axSrc (i / 8)) (axCode (i / 8) ev) true ([i % 8] ++ payload)

/-! ## Settings -/

def pmQUAD : Nat := 1
def pmSTEP_DIR : Nat := 2
def pmUP_DOWN : Nat := 3
def pmSINCOS : Nat := 4

/-- MODE as it acts: 5 to 7 act as 0 (R204); a held or absent input is OFF. -/
def State.pfiMode (s : State) (i : Nat) : Nat :=
  let m := s.eff (Reg.PFI_CFG_MODE i)
  if !s.axUp (i / 8) || s.flag (Reg.PFI_STAT_CFG_BAD i) || 4 < m then 0 else m

/-- Counting runs (R231): in a mode that samples, and through BOOT and SELFTEST on a card that stays powered. -/
def State.pfiOn (s : State) (i : Nat) : Bool := s.pfiMode i ≠ 0 && s.mode ≠ mDORMANT

def State.minEdge (s : State) (i : Nat) : Nat := max 2 (s.eff (Reg.PFI_MIN_EDGE_MIN_EDGE i))
def State.pfiFilt (s : State) (i : Nat) : Nat := min (s.minEdge i - 1) (s.eff (Reg.PFI_CFG_FILT i))
def State.fbRatio (s : State) (i : Nat) : Nat := min 10 (s.eff (Reg.PFI_CFG_FB_RATIO i))
def State.fbTol (s : State) (i : Nat) : Nat := max 1 (s.eff (Reg.PFI_CFG_FB_TOL i))
def State.cpt (s : State) (i : Nat) : Nat := max 16 (s.eff (Reg.PFI_FUSE_CPT i))
def State.fuseTol (s : State) (i : Nat) : Nat := min 0x10000000 (s.eff (Reg.PFI_FUSE_FUSE_TOL i))
def State.fuseEn (s : State) (i : Nat) : Bool := s.eff (Reg.PFI_FUSE_EN i) = 1
/-- The resolver channel of the fusion, on the same card. -/
def State.fuseSrc (s : State) (i : Nat) : Nat := i / 8 * 16 + s.eff (Reg.PFI_FUSE_SRC i)

/-- Paths of PFI_STAT.PATH. -/
def pOFF : Nat := 0
def pPULSE : Nat := 1
def pSINCOS : Nat := 2
def pFALLBACK : Nat := 3
def State.path (s : State) (i : Nat) : Nat := s.rd (Reg.PFI_STAT_PATH i)

/-- FSTATE codes. -/
def fsOFF : Nat := 0
def fsWAIT : Nat := 1
def fsANCHOR : Nat := 2
def fsFUSED : Nat := 3
def fsREFUSED : Nat := 4
def State.fstate (s : State) (i : Nat) : Nat := s.rd (Reg.PFI_STAT_FSTATE i)

/-- F is valid (R219). -/
def State.fusedValid (s : State) (i : Nat) : Bool :=
  s.pfiOn i && (if s.fuseEn i then s.fstate i = fsFUSED else s.flag (Reg.PFI_STAT_COUNT_VALID i))

/-- F for a count `q` (R219): TURN0 + Q / CPT, or Fa + (Q − Qa) / CPT, the quotient rounded to 2^-32 turn. -/
def State.fusedOf (s : State) (i q : Nat) : Nat :=
  let k := s.pfi i
  if s.fuseEn i then unsigned 48 ((k.fa : Int) + rne (modDiff 48 q k.qa * (2 ^ 32 : Nat)) (s.cpt i))
  else unsigned 48 ((s.eff (Reg.PFI_FUSE_TURN0 i) * 2 ^ 32 : Nat) + rne (signed 48 q * (2 ^ 32 : Nat)) (s.cpt i))

def State.fusedAngle (s : State) (i : Nat) : Nat := s.fusedOf i (s.pfi i).q

/-- Show FUSED_VALID. -/
def showFused (s : State) (i : Nat) : State := s.wrB (Reg.PFI_STAT_FUSED_VALID i) (s.fusedValid i)

/-! ## Counting (R204 to R208) -/

/-- Place of (A, B) in the quadrature cycle; A leads B forward. -/
def quadPlace (a b : Bool) : Nat := if a then (if b then 2 else 1) else (if b then 3 else 0)

/-- The count that a change of lines makes; none where both lines change in QUAD (R216). -/
def decodeEdge (mode : Nat) (a b a' b' : Bool) : Option Int :=
  if mode = pmQUAD then
    let d := (quadPlace a' b' + 4 - quadPlace a b) % 4
    if d = 2 then none else some (if d = 1 then 1 else if d = 3 then -1 else 0)
  else if mode = pmSTEP_DIR then some (if a' && !a then (if b' then 1 else -1) else 0)
  else if mode = pmUP_DOWN then some ((if a' && !a then 1 else 0) + (if b' && !b then -1 else 0))
  else some 0

/-- C takes the value `c`, and Q follows under R207. -/
def Pfi.setC (k : Pfi) (c : Nat) (hyst : Bool) : Pfi × Bool :=
  let d := modDiff 48 c k.q
  if !hyst then ({ k with c := c, q := c, fwd := if d = 0 then k.fwd else decide (0 < d) }, false)
  else if d = 0 then ({ k with c := c }, false)
  else if decide (0 < d) = k.fwd then ({ k with c := c, q := c }, false)
  else if d.natAbs = 1 then ({ k with c := c }, true)
  else ({ k with c := c, q := c, fwd := decide (0 < d) }, false)

/-- C := `c`. -/
def countTo (s : State) (i c : Nat) : State :=
  let r := (s.pfi i).setC c (s.eff (Reg.PFI_CFG_HYST i) = 1)
  (s.modPfi i (fun _ => r.1)).wrB (Reg.PFI_STAT_HYST_PEND i) r.2

/-- C moves by `d`, negated under INVERT (R204). -/
def countBy (s : State) (i : Nat) (d : Int) : State :=
  if d = 0 then s
  else countTo s i (unsigned 48 (((s.pfi i).c : Int) + (if s.eff (Reg.PFI_CFG_INVERT i) = 1 then -d else d)))

/-- C := Q := `v`, with the pending state cleared (R207); Qa moves with Q, so F stays (R223). -/
def countSet (s : State) (i v : Nat) : State :=
  (s.modPfi i (fun k => { k with c := v % 2 ^ 48, q := v % 2 ^ 48, qa := unsigned 48 ((k.qa : Int) + modDiff 48 v k.q),
                                 winQ := unsigned 48 ((k.winQ : Int) + modDiff 48 v k.q),
                                 ixWait := k.ixWait.map (fun w => (w.1, unsigned 48 ((w.2 : Int) + modDiff 48 v k.q))) })).clr (Reg.PFI_STAT_HYST_PEND i)

/-- COUNT_VALID sets (R215); without fusion the speed filter restarts (R224). -/
def countValid (s : State) (i : Nat) : State :=
  if s.flag (Reg.PFI_STAT_COUNT_VALID i) then s
  else
    let t := (s.set (Reg.PFI_STAT_COUNT_VALID i)).modPfi i (fun k => { k with idxSeen := false })
    showFused (if t.fuseEn i then t else t.modPfi i (fun k => { k with sTh := t.fusedAngle i * 256, sW := 0 })) i

/-- A fault clears COUNT_VALID (R215): F becomes invalid and anchoring starts anew (R222). -/
def countLost (s : State) (i : Nat) : State :=
  let t := (s.clr (Reg.PFI_STAT_COUNT_VALID i)).modPfi i (fun k => { k with lost := true, ixWait := none })
  let t := if t.fuseEn i then (t.wr (Reg.PFI_STAT_FSTATE i) fsWAIT).modPfi i (fun k => { k with winN := 0, slip := 0 }) else t
  showFused t i

/-- The count that the sin/cos count `p` stands for on the fallback path (R214). -/
def State.converted (s : State) (i p : Nat) : Nat :=
  let x : Int := signed 48 p * (4 * 2 ^ s.fbRatio i : Nat) / 4096
  unsigned 48 ((if s.eff (Reg.PFI_CFG_INVERT i) = 1 then -x else x) + (s.pfi i).o)

/-- A change of path clears the pending state and sets Q := C (R207). -/
def pathTo (s : State) (i path : Nat) : State :=
  if s.path i = path then s
  else ((s.wr (Reg.PFI_STAT_PATH i) path).modPfi i (fun k => { k with q := k.c })).clr (Reg.PFI_STAT_HYST_PEND i)

/-- Fallback or loss (R216): with FB_READY on the pulse path the input switches to the sin/cos path (R214); otherwise COUNT_VALID
clears. -/
def fallbackOrLoss (s : State) (i : Nat) : State :=
  if s.flag (Reg.PFI_STAT_FB_READY i) && s.path i = pPULSE then
    let t := s.modPfi i (fun k => { k.settling s.now with c := s.converted i k.p })
    pfiOnset (pathTo t i pFALLBACK) i Reg.PFI_STAT_FB_SWITCH 0x25 []
  else countLost s i

/-! ## The sin/cos path (R212, R213) -/

/-- SIN and COS after the trims, in µV. Neutral trims leave them as they are. -/
def State.scTrimmed (s : State) (i : Nat) (sn cs : Int) : Int × Int :=
  let t : List Int := [s.effS (Reg.PFI_CFG_SC_OFS_S i), s.effS (Reg.PFI_CFG_SC_OFS_C i), s.eff (Reg.PFI_CFG_SC_GAIN i), s.effS (Reg.PFI_CFG_SC_PHASE i)]
  if t = [0, 0, 0x4000, 0] then (sn, cs) else Config.scTrim (t ++ [sn, cs])

/-- One sample: the position within the period in 4,096 steps, whole periods counted from the one before. -/
def Pfi.scan (k : Pfi) (v : Int × Int) : Pfi :=
  let pos := unsigned 48 (atan2 v.1 v.2) / 2 ^ 36
  { k with p := if k.scSeen then unsigned 48 ((k.p : Int) + modDiff 12 pos (k.p % 4096)) else pos, scSeen := true }

/-- The signals at one edge. -/
def scSample (s : State) (i : Nat) (sn cs : Int) : State := s.modPfi i (fun k => k.scan (s.scTrimmed i sn cs))

/-- AMP_LO and AMP_HI as they act. -/
def State.scLo (s : State) (i : Nat) : Nat := s.eff (Reg.PFI_CFG_AMP_LO i)
def State.scHi (s : State) (i : Nat) : Nat := max (s.scLo i) (s.eff (Reg.PFI_CFG_AMP_HI i))

/-- The samples of one update, a window of AMP: its mean is shown, and windows outside and inside, fast and slow are counted. -/
def scWindow (s : State) (m : PfiIn) : State :=
  let l := (m.sn.zip m.cs).map (fun v => s.scTrimmed m.i v.1 v.2)
  if l.isEmpty then s
  else
    let k := s.pfi m.i
    let y := l.foldl Pfi.scan k
    let pow := l.foldl (fun (a : Int) v => a + v.1 * v.1 + v.2 * v.2) 0
    let amp := satU 16 (rne (pow * 32768) (l.length * 500000000000)).toNat
    let out := decide (amp < s.scLo m.i) || decide (s.scHi m.i < amp)
    let fast := k.scSeen && decide (550000 * 4096 * l.length < (modDiff 48 y.p k.p).natAbs * 24576000)
    (s.modPfi m.i (fun _ => { y with
      ampOut := if out then k.ampOut + 1 else 0, ampIn := if out then 0 else k.ampIn + 1,
      fastRun := if fast then k.fastRun + 1 else 0, slowRun := if fast then 0 else k.slowRun + 1 })).wr (Reg.PFI_STAT_AMP m.i) amp

/-! ## Line transitions (R205, R206, R209, R216) -/

/-- Levels `a`, `b`, `z` are the gated index state (R209). -/
def State.indexAt (s : State) (i : Nat) (a b z : Bool) : Bool :=
  z && (s.pfiMode i ≠ pmQUAD || s.eff (Reg.PFI_CFG_IDX_GATE i) ≠ 1 || (a && b))

/-- PFI_EDGE: the lines have stood at levels `la`, `lb`, `lz` for `len` samples. A shorter pulse than FILT is rejected. `sn` and `cs` are
the sin/cos signals at this edge, in µV. Lines A and B are not used in SINCOS, line Z not while INDEX_MODE is 0. -/
def pfiEdge (s : State) (i : Nat) (la lb lz : Bool) (len : Nat) (sn cs : Int) : State :=
  let k := s.pfi i
  let m := s.pfiMode i
  let moved := m ≠ pmSINCOS && (la ≠ k.a || lb ≠ k.b)
  let useZ := s.eff (Reg.PFI_CFG_INDEX_MODE i) ≠ 0
  if !s.pfiOn i then s
  else if !moved && (!useZ || lz = k.z) then s.modPfi i (fun k => { k with z := lz })
  else if len < s.pfiFilt i then s.count (Reg.PFI_CNT_GLITCH i)
  else
    let fast := moved && (match k.edgeAt with | some e => decide (s.run < e + s.minEdge i) | none => false)
    let d := if moved then decodeEdge m k.a k.b la lb else some 0
    let ev := useZ && !k.lineZ && s.indexAt i la lb lz && !s.indexAt i k.a k.b k.z
    let t := (scSample s i sn cs).modPfi i (fun k => { k with
      a := if moved then la else k.a, b := if moved then lb else k.b, z := lz, edgeAt := if moved then some s.run else k.edgeAt, ev := ev })
    let t := if s.path i = pPULSE then countBy t i (d.getD 0) else t
    let t := if d.isNone then pfiOnset (t.count (Reg.PFI_CNT_QUAD_ERR i)) i Reg.PFI_STAT_QUAD_ERR 0x21 [] else t
    let t := if fast then pfiOnset (t.count (Reg.PFI_FAST_EDGES_COUNT i)) i Reg.PFI_STAT_FAST_EDGE 0x20 [] else t
    if fast || d.isNone then fallbackOrLoss t i else t

def execPfiEdge (i : Nat) (la lb lz : Bool) (len : Nat) (sn cs : Int) (s : State) : Host.Outcome State Fault Refusal :=
  guardItem (i < 16) (answer s (pfiEdge s i la lb lz len sn cs))

/-! ## Line, amplitude and speed faults (R213, R216) -/

/-- LINE_NOW: a used line stands below 200 mV. -/
def showLine (s : State) (i : Nat) : State :=
  s.wrB (Reg.PFI_STAT_LINE_NOW i) ((s.pfi i).lineAB || ((s.pfi i).lineZ && s.eff (Reg.PFI_CFG_INDEX_MODE i) ≠ 0))

/-- LINE_FAULT on A or B (`z` false), or on Z while INDEX_MODE is not 0; `sn` and `cs` are the sin/cos signals at this edge, in µV. -/
def lineFault (s : State) (i : Nat) (z : Bool) (sn cs : Int) : State :=
  if !s.pfiOn i || (z && s.eff (Reg.PFI_CFG_INDEX_MODE i) = 0) || (!z && s.pfiMode i = pmSINCOS) || (if z then (s.pfi i).lineZ else (s.pfi i).lineAB) then s
  else
    let t := showLine (s.modPfi i (fun k => if z then { k with lineZ := true } else { k with lineAB := true })) i
    let t := pfiOnset t i Reg.PFI_STAT_LINE_FAULT 0x22 []
    if z then t else fallbackOrLoss (scSample t i sn cs) i

def execPfiLineFault (i : Nat) (z : Bool) (sn cs : Int) (s : State) : Host.Outcome State Fault Refusal :=
  guardItem (i < 16) (answer s (lineFault s i z sn cs))

/-- The line has stood above 200 mV for 256 CCLK. -/
def execPfiLineFaultClear (i : Nat) (z : Bool) (s : State) : Host.Outcome State Fault Refusal :=
  guardItem (i < 16) (answer s (showLine (s.modPfi i (fun k => if z then { k with lineZ := false } else { k with lineAB := false })) i))

/-- The sin/cos path has a fault: on the SINCOS or FALLBACK path COUNT_VALID clears, on the pulse path FB_READY. -/
def scFault (s : State) (i : Nat) : State :=
  if s.path i = pPULSE then s.clr (Reg.PFI_STAT_FB_READY i) else countLost s i

/-- The sin/cos path is free of faults again: realignment counts its 64 beats from now. -/
def scClear (s : State) (i : Nat) : State := s.modPfi i (fun k => { k with scOk := s.run, dis := 0 })

/-- SC_AMP (R213): two window means in a row outside [AMP_LO, AMP_HI] declare it, and 16 inside clear it. -/
def scAmp (s : State) (i : Nat) : State :=
  let k := s.pfi i
  if !s.pfiOn i then s
  else if !k.scAmp && 2 ≤ k.ampOut then scFault (pfiOnset (s.modPfi i (fun k => { k with scAmp := true })) i Reg.PFI_STAT_SC_AMP 0x23 []) i
  else if k.scAmp && 16 ≤ k.ampIn then scClear (s.modPfi i (fun k => { k with scAmp := false })) i
  else s

def execPfiScAmp (i : Nat) (s : State) : Host.Outcome State Fault Refusal :=
  guardItem (i < 16) (answer s (scAmp s i))

/-- SC_OVERSPEED (R216): two windows in a row above 550 kHz declare it, and 16 that are not clear it. -/
def scSpeed (s : State) (i : Nat) : State :=
  let k := s.pfi i
  if !s.pfiOn i then s
  else if !k.scFast && 2 ≤ k.fastRun then scFault (pfiOnset (s.modPfi i (fun k => { k with scFast := true })) i Reg.PFI_STAT_SC_OVERSPEED 0x24 []) i
  else if k.scFast && 16 ≤ k.slowRun then scClear (s.modPfi i (fun k => { k with scFast := false })) i
  else s

def execPfiScOverspeed (i : Nat) (s : State) : Host.Outcome State Fault Refusal :=
  guardItem (i < 16) (answer s (scSpeed s i))

/-! ## Fallback (R214) -/

/-- FB_READY: 64 beats without a fault on the sin/cos path; O makes the converted count equal C. -/
def fbReady (s : State) (i : Nat) : State :=
  let k := s.pfi i
  if s.eff (Reg.PFI_CFG_FALLBACK i) = 1 && s.pfiOn i && s.pfiMode i = pmQUAD && s.path i = pPULSE && !s.flag (Reg.PFI_STAT_FB_READY i)
      && !k.scAmp && !k.scFast && s.elapsed k.scOk (64 * cclkBeat) then
    let t := s.modPfi i (fun k => { k with o := 0 })
    (t.modPfi i (fun k => { k with o := modDiff 48 k.c (t.converted i k.p), dis := 0 })).set (Reg.PFI_STAT_FB_READY i)
  else s

def execPfiFbReady (i : Nat) (s : State) : Host.Outcome State Fault Refusal :=
  guardItem (i < 16) (answer s (fbReady s i))

/-- FB_DISAGREE: 16 updates in a row beyond FB_TOL; neither path is chosen. -/
def fbDisagree (s : State) (i : Nat) : State :=
  if s.flag (Reg.PFI_STAT_FB_READY i) && 16 ≤ (s.pfi i).dis then
    pfiOnset (scClear (countLost (s.clr (Reg.PFI_STAT_FB_READY i)) i) i) i Reg.PFI_STAT_FB_DISAGREE 0x27 []
  else s

def execPfiFbDisagree (i : Nat) (s : State) : Host.Outcome State Fault Refusal :=
  guardItem (i < 16) (answer s (fbDisagree s i))

/-- RESUME: taken at the next update; ignored while a pulse-path fault stands. -/
def execPfiResume (src : WrSrc) (i : Nat) (s : State) : Host.Outcome State Fault Refusal :=
  guardItem (i < 16) (answer s (s.write src .PFI_CTRL (i / 8) (i % 8) true (fun t =>
    (if t.path i = pFALLBACK && !(t.pfi i).lineAB then t.modPfi i (fun k => { k with resume := true }) else t).journalW src .PFI_CTRL (i / 8) (i % 8) (t.wordWith 8 [Reg.PFI_CTRL_VALUE i]))))

/-! ## Index (R209 to R211, R221) -/

/-- The resolver output of a channel interpolated at edge `e` between the last two updates (R140, R218), in 2^-32 turn. -/
def State.rdcAt (s : State) (c : Nat) (e : Nat) : Nat :=
  let k := s.rdc c
  if k.cur.at_ ≤ k.prev.at_ then k.cur.angle
  else unsigned 32 ((k.prev.angle : Int) + rne (modDiff 32 k.cur.angle k.prev.angle * ((e : Int) - k.prev.at_)) (k.cur.at_ - k.prev.at_))

/-- F of an input interpolated at edge `e` (R217). -/
def State.fusedAt (s : State) (i : Nat) (e : Nat) : Nat :=
  let k := s.pfi i
  if k.at_ ≤ k.atPrev || !k.okPrev then k.f
  else unsigned 48 ((k.fPrev : Int) + rne (modDiff 48 k.f k.fPrev * ((e : Int) - k.atPrev)) (k.at_ - k.atPrev))

/-- The turn part for an anchor angle `a` in 2^-32 turn (R220): within half a turn of the last valid F, or TURN0. -/
def State.turned (s : State) (i a : Nat) : Nat :=
  match (s.pfi i).lastF with
  | some f => unsigned 48 ((f : Int) + modDiff 32 a f)
  | none => (s.eff (Reg.PFI_FUSE_TURN0 i) * 2 ^ 32 + a) % 2 ^ 48

/-- The anchor is set: FSTATE FUSED, the speed filter restarts, bark PFI_FUSED (R220, R224). -/
def anchored (s : State) (i fa qa : Nat) : State :=
  let t := (s.modPfi i (fun k => { k with fa := fa, qa := qa, winN := 0, slip := 0 })).wr (Reg.PFI_STAT_FSTATE i) fsFUSED
  let f := t.fusedAngle i
  let t := t.modPfi i (fun k => { k with sTh := f * 256, sW := (t.rdc (t.fuseSrc i)).cur.speed, f := f, at_ := t.now, okPrev := false, lastF := some f,
                                         ixWait := none } |>.settling t.now)
  pfiBark (showFused t i) i 0x29 false []

/-- PFI_INDEX: the index event that the lines have made (R209); while Z has a line fault none is taken. An anchor compares the
resolver output interpolated at the event (R221), and so waits for the next update. -/
def pfiIndex (s : State) (i : Nat) : State :=
  let m := s.eff (Reg.PFI_CFG_INDEX_MODE i)
  let k := s.pfi i
  if !s.pfiOn i || m = 0 || k.lineZ || !k.ev then s
  else
    let t := (s.modPfi i (fun k => { k with ev := false, idxC := k.c, idxAt := s.now })).set (Reg.PFI_STAT_INDEX i)
    let v := s.eff (Reg.PFI_CFG_INDEX_VAL i)
    let tol := s.eff (Reg.PFI_CFG_IDX_TOL i)
    let err := m = 2 && tol ≠ 0 && k.idxSeen && s.flag (Reg.PFI_STAT_COUNT_VALID i) && tol < (modDiff 48 k.c v).natAbs
    let t := if err then pfiOnset (t.count (Reg.PFI_CNT_IDX_ERR i)) i Reg.PFI_STAT_IDX_ERR 0x28 [] else t
    let resets := m = 2 || (m = 3 && s.flag (Reg.PFI_STAT_IDX_ARMED i))
    let t := if resets then countValid (countSet t i v) i else t
    let t := if m = 3 then t.clr (Reg.PFI_STAT_IDX_ARMED i) else t
    let waits := t.fuseEn i && s.eff (Reg.PFI_FUSE_ANCHOR i) = 1 && (t.fstate i = fsANCHOR || t.fstate i = fsREFUSED)
    let t := t.modPfi i (fun k => { k with idxSeen := true, ixWait := if waits then some (s.now, k.q) else k.ixWait })
    homeEvent t (fun h => h.source = 1 && h.n = i) s.now

/-- The anchor at an index event, at the update after it (R221). -/
def indexAnchor (s : State) (i : Nat) : State :=
  match (s.pfi i).ixWait with
  | none => s
  | some w =>
    let t := s.modPfi i (fun k => { k with ixWait := none })
    if !s.fuseEn i || !s.rdcValid (s.fuseSrc i) || !(s.fstate i = fsANCHOR || s.fstate i = fsREFUSED) then t
    else
      let a := s.eff (Reg.PFI_FUSE_IDX_ANGLE i)
      let d := modDiff 32 (s.rdcAt (s.fuseSrc i) w.1) a
      if d.natAbs ≤ s.fuseTol i then anchored t i (t.turned i a) w.2
      else pfiOnset (t.wr (Reg.PFI_STAT_FSTATE i) fsREFUSED) i Reg.PFI_STAT_FUSE_REFUSED 0x2B []

def execPfiIndex (i : Nat) (s : State) : Host.Outcome State Fault Refusal :=
  guardItem (i < 16) (answer s (pfiIndex s i))

/-- IDX_ARM: ignored in other modes than ONCE (R210). -/
def execPfiIdxArm (src : WrSrc) (i : Nat) (s : State) : Host.Outcome State Fault Refusal :=
  guardItem (i < 16) (answer s (s.write src .PFI_CTRL (i / 8) (i % 8) true (fun t =>
    (if t.eff (Reg.PFI_CFG_INDEX_MODE i) = 3 then t.set (Reg.PFI_STAT_IDX_ARMED i) else t).journalW src .PFI_CTRL (i / 8) (i % 8) (t.wordWith 1 [Reg.PFI_CTRL_VALUE i]))))

/-- SET_COUNT and SET_TURNS act at the next update on VALUE as it stands (R223). -/
def execPfiSetCount (src : WrSrc) (i : Nat) (s : State) : Host.Outcome State Fault Refusal :=
  guardItem (i < 16) (answer s (s.write src .PFI_CTRL (i / 8) (i % 8) true (fun t =>
    (t.modPfi i (fun k => { k with setCount := some (t.rd (Reg.PFI_CTRL_VALUE i)) })).journalW src .PFI_CTRL (i / 8) (i % 8) (t.wordWith 2 [Reg.PFI_CTRL_VALUE i]))))

def execPfiSetTurns (src : WrSrc) (i : Nat) (s : State) : Host.Outcome State Fault Refusal :=
  guardItem (i < 16) (answer s (s.write src .PFI_CTRL (i / 8) (i % 8) true (fun t =>
    (t.modPfi i (fun k => { k with setTurns := some (t.rd (Reg.PFI_CTRL_VALUE i) % 65536) })).journalW src .PFI_CTRL (i / 8) (i % 8) (t.wordWith 4 [Reg.PFI_CTRL_VALUE i]))))

/-- Fusion anchors anew (R223, R230). -/
def reanchor (s : State) (i : Nat) : State :=
  showFused ((s.wr (Reg.PFI_STAT_FSTATE i) (if s.fuseEn i && s.pfiOn i then fsWAIT else fsOFF)).modPfi i (fun k => { k with winN := 0, slip := 0, ixWait := none })) i

def execPfiReanchor (src : WrSrc) (i : Nat) (s : State) : Host.Outcome State Fault Refusal :=
  guardItem (i < 16) (answer s (s.write src .PFI_CTRL (i / 8) (i % 8) true (fun t => (reanchor t i).journalW src .PFI_CTRL (i / 8) (i % 8) (t.wordWith 16 [Reg.PFI_CTRL_VALUE i]))))

def pfiCnts (i : Nat) : List Fld :=
  [Reg.PFI_CNT_GLITCH i, Reg.PFI_CNT_QUAD_ERR i, Reg.PFI_CNT_IDX_ERR i, Reg.PFI_CNT_FUSE_SLIP i, Reg.PFI_FAST_EDGES_COUNT i]

def execPfiCntClr (src : WrSrc) (i : Nat) (s : State) : Host.Outcome State Fault Refusal :=
  guardItem (i < 16) (answer s (s.write src .PFI_CTRL (i / 8) (i % 8) true (fun t => (t.clearCnts (pfiCnts i) 31).journalW src .PFI_CTRL (i / 8) (i % 8) (t.wordWith 32 [Reg.PFI_CTRL_VALUE i]))))

/-- A read of the first word of PFI_LIVE[i] latches the element at the latest update (R413). -/
def pfiLatch (s : State) (i : Nat) : State :=
  let k := s.pfi i
  ((((((s.wr (Reg.PFI_LIVE_COUNT i) k.q).wr (Reg.PFI_LIVE_RAW i) k.c).wr (Reg.PFI_LIVE_FUSED i) k.f).wrS (Reg.PFI_LIVE_SPEED i)
    (rne k.sW (2 ^ 16))).wr (Reg.PFI_LIVE_AT i) (atWord k.at_)).wr (Reg.PFI_LIVE_IDX_COUNT i) k.idxC).wr (Reg.PFI_LIVE_IDX_AT i) (atWord k.idxAt)

def execPfiLiveLatch (i : Nat) (s : State) : Host.Outcome State Fault Refusal :=
  guardItem (i < 16) (answer s (if s.domOn (16 + i / 8) then pfiLatch s i else s))

/-! ## Fusion (R219 to R224) -/

/-- The anchoring window at an update (R220): WAIT goes to ANCHOR, and each update in ANCHOR adds one value. -/
def anchorUpdate (s : State) (i : Nat) : State :=
  let x := s.fuseSrc i
  if !s.fuseEn i then s
  else if s.fstate i = fsWAIT then
    if s.rdcValid x && !(s.pfi i).lost then (s.wr (Reg.PFI_STAT_FSTATE i) fsANCHOR).modPfi i (fun k => { k with winN := 0 }) else s
  else if s.fstate i = fsANCHOR && s.eff (Reg.PFI_FUSE_ANCHOR i) = 0 then
    if !s.rdcValid x then s.modPfi i (fun k => { k with winN := 0 })
    else
      let θ := (s.rdc x).cur.angle
      s.modPfi i (fun k =>
        if 2 ^ min 16 (s.eff (Reg.PFI_FUSE_AVG i)) ≤ k.winN then k
        else
          let q0 := if k.winN = 0 then k.q else k.winQ
          let v := unsigned 48 ((θ * 65536 : Nat) - rne (modDiff 48 k.q q0 * (2 ^ 48 : Nat)) (s.cpt i))
          let v0 := if k.winN = 0 then v else k.winV
          { k with winN := k.winN + 1, winQ := q0, winV := v0, winS := (if k.winN = 0 then 0 else k.winS) + modDiff 48 v v0 })
  else s

/-- PFI_FUSED (R220): the last update of the window. -/
def pfiFused (s : State) (i : Nat) : State :=
  let k := s.pfi i
  if s.fuseEn i && s.fstate i = fsANCHOR && s.eff (Reg.PFI_FUSE_ANCHOR i) = 0 && k.winN = 2 ^ min 16 (s.eff (Reg.PFI_FUSE_AVG i)) then
    let m : Int := (k.winV : Int) + rne k.winS k.winN + rne (modDiff 48 k.q k.winQ * (2 ^ 48 : Nat)) (s.cpt i)
    anchored s i (s.turned i (unsigned 32 (rne m 65536))) k.q
  else s

def execPfiFused (i : Nat) (s : State) : Host.Outcome State Fault Refusal :=
  guardItem (i < 16) (answer s (pfiFused s i))

/-- PFI_FUSE_SLIP (R222): 16 updates in a row beyond FUSE_TOL. -/
def fuseSlip (s : State) (i : Nat) : State :=
  if s.fstate i = fsFUSED && 16 ≤ (s.pfi i).slip then
    reanchor (pfiOnset (s.count (Reg.PFI_CNT_FUSE_SLIP i)) i Reg.PFI_STAT_FUSE_SLIP 0x2A [s.rd (Reg.PFI_STAT_FUSE_D i)]) i
  else s

def execPfiFuseSlip (i : Nat) (s : State) : Host.Outcome State Fault Refusal :=
  guardItem (i < 16) (answer s (fuseSlip s i))

/-- The speed filter of R224: the loop of R178 on e = F − θ̂, not normalised. -/
def speedUpdate (s : State) (i f : Nat) : State :=
  let fn := max 10 (min 1000 (s.eff (Reg.PFI_FUSE_SPD_FN i))) * 2 ^ 37
  s.modPfi i (fun k =>
    let e : Int := rnd64 (modDiff 56 (f * 256) k.sTh * (realOne : Int)) (2 ^ 40)
    let ω := loopOmega (loopKI fn) e k.sW
    let step := rne (ω * ((realOne * realOne : Nat) : Int) + loopKP fn 0x2D41 * e * (2 ^ 40 : Nat)) (1024000 * realOne * realOne)
    { k with sW := ω, sTh := unsigned 56 ((k.sTh : Int) + step) })

/-- One loop update of an input: `p` is what its sin/cos inputs gave since the last one, where its path is powered. -/
def pfiUpdate (s : State) (i : Nat) (p : Option PfiIn) : State :=
  if !s.pfiOn i then s
  else
    let k := s.pfi i
    let s := if s.eff (Reg.PFI_CFG_HYST i) = 1 || k.q = k.c then s else countTo s i k.c
    -- the counting path
    let s := match p with
      | none => s
      | some m =>
        let s' := scWindow s m
        let p := (s'.pfi i).p
        if s.path i = pSINCOS then countBy s' i (if k.scSeen then modDiff 48 p k.p else 0)
        else if s.path i = pFALLBACK then countTo s' i (s'.converted i p)
        else if s.flag (Reg.PFI_STAT_FB_READY i) then
          s'.modPfi i (fun k => { k with dis := if s.fbTol i < (modDiff 48 k.c (s'.converted i p)).natAbs then k.dis + 1 else 0 })
        else s'
    -- operations that wait for an update
    let s := match k.setCount with
      | some v => (countValid ((countSet s i v).modPfi i (fun k => { k with setCount := none })) i).modPfi i (fun k => { k with idxSeen := false })
      | none => s
    let s := if k.resume then
        let t := s.modPfi i (fun k => { k with resume := false })
        if t.path i = pFALLBACK && !(t.pfi i).lineAB then pfiBark ((pathTo t i pPULSE).modPfi i (fun k => k.settling s.now)) i 0x26 false []
        else t
      else s
    let s := indexAnchor s i
    -- the anchor moves by whole turns, and the turn part is set
    let s := if s.fstate i = fsFUSED && s.fuseEn i then
        let n : Int := modDiff 48 (s.pfi i).q (s.pfi i).qa
        let m : Int := if n < 0 then -((n.natAbs / s.cpt i : Nat) : Int) else (n.natAbs / s.cpt i : Nat)
        s.modPfi i (fun k => { k with qa := unsigned 48 ((k.qa : Int) + m * (s.cpt i : Int)), fa := unsigned 48 ((k.fa : Int) + m * (2 ^ 32 : Nat)) })
      else s
    let s := match k.setTurns with
      | some v =>
        let f := s.fusedAngle i
        s.modPfi i (fun k => { k with
          setTurns := none,
          fa := if s.fuseEn i && s.fstate i = fsFUSED then unsigned 48 ((k.fa : Int) + (v * 2 ^ 32 : Nat) - (f / 2 ^ 32 * 2 ^ 32 : Nat)) else k.fa })
      | none => s
    let ok := s.fusedValid i
    let f := s.fusedAngle i
    let s := s.modPfi i (fun k => { k with fPrev := k.f, atPrev := k.at_, okPrev := ok && k.at_ + 240 = s.now,
                                           f := if ok then f else k.f, at_ := s.now, lastF := if ok then some f else k.lastF })
    let s := if ok then speedUpdate s i f else s
    let x := s.fuseSrc i
    let s := if ok && s.fuseEn i && s.rdcValid x then
        let d := modDiff 32 (s.rdc x).cur.angle f
        (s.wrS (Reg.PFI_STAT_FUSE_D i) d).modPfi i (fun k => { k with slip := if s.fuseTol i < d.natAbs then k.slip + 1 else 0 })
      else s.modPfi i (fun k => { k with slip := 0 })
    showFused ((anchorUpdate s i).modPfi i (fun k => { k with lost := false })) i

/-! ## Settings and starts (R215, R230, R231) -/

/-- The setting of an input is invalid (R230). -/
def pfiInvalidCfg (get : Fld → Nat) (i : Nat) : Bool :=
  (get (Reg.PFI_CFG_FALLBACK i) = 1 && get (Reg.PFI_CFG_MODE i) ≠ pmQUAD)
    || (get (Reg.PFI_FUSE_ANCHOR i) = 1 && get (Reg.PFI_CFG_INDEX_MODE i) = 0)

/-- The path that the mode gives (R204, R214). -/
def showPath (s : State) (i : Nat) : State :=
  let m := s.pfiMode i
  pathTo s i (if m = 0 then pOFF else if m = pmSINCOS then pSINCOS else pPULSE)


def pfiModeKeys (i : Nat) : List Nat := [Reg.PFI_CFG_MODE i, Reg.PFI_CFG_INVERT i, Reg.PFI_CFG_FILT i].map (fun f => f.key)
def pfiPathKeys (i : Nat) : List Nat :=
  [Reg.PFI_CFG_FALLBACK i, Reg.PFI_CFG_FB_RATIO i, Reg.PFI_CFG_SC_OFS_S i, Reg.PFI_CFG_SC_OFS_C i, Reg.PFI_CFG_SC_GAIN i,
   Reg.PFI_CFG_SC_PHASE i].map (fun f => f.key)
def pfiFuseKeys (i : Nat) : List Nat := [Reg.PFI_FUSE_EN i, Reg.PFI_FUSE_SRC i, Reg.PFI_FUSE_CPT i, Reg.PFI_FUSE_ANCHOR i].map (fun f => f.key)

/-- The setting of an input is judged (R230): an invalid one holds it OFF. `bark` is that a write left it so: a stored one that
is invalid when its card enters raises none (DESIGN CHOICE). -/
def pfiJudge (s : State) (i : Nat) (bark : Bool) : State :=
  let bad := pfiInvalidCfg s.eff i
  let t := s.wrB (Reg.PFI_STAT_CFG_BAD i) bad
  if bad && bark then pfiBark t i 0x2C true [] else t

/-- Fields `ks` of an input have taken their new values at this boundary (R215, R230). A MODE that leaves OFF sets COUNT_VALID with
C = Q = 0. -/
def pfiChanged (s : State) (i : Nat) (ks : List Nat) : State :=
  let has (l : List Nat) : Bool := l.any ks.contains
  let was := s.flag (Reg.PFI_STAT_CFG_BAD i)
  let off := s.path i = pOFF
  let mine := ks.any (fun k => k / 256 = (Reg.PFI_CFG_MODE i).key / 256 || k / 256 = (Reg.PFI_FUSE_EN i).key / 256)
  let s := pfiJudge s i mine
  let s := if has (pfiModeKeys i) || s.flag (Reg.PFI_STAT_CFG_BAD i) != was then
      let t := countLost (showPath s i) i
      let t := t.modPfi i (fun k => { k with scOk := s.run, dis := 0 })
      let t := t.clr (Reg.PFI_STAT_FB_READY i)
      reanchor (if off && t.path i ≠ pOFF then countValid (countSet t i 0) i else t) i
    else s
  let s := if has (pfiPathKeys i) then scClear (showPath (s.clr (Reg.PFI_STAT_FB_READY i)) i) i else s
  showLine (if has (pfiFuseKeys i) then reanchor s i else s) i

/-- A card that is powered up or self-tested starts its inputs (R231): COUNT_VALID 0, FSTATE WAIT. The last valid F stays. -/
def pfiStart (s : State) (i : Nat) : State :=
  let t := pfiJudge { s with ax := { s.ax with pfi := s.ax.pfi.put {} i { lastF := (s.pfi i).lastF, scOk := s.run } } } i false
  let t := ((t.clr (Reg.PFI_STAT_COUNT_VALID i)).clr (Reg.PFI_STAT_FB_READY i)).clr (Reg.PFI_STAT_HYST_PEND i)
  reanchor (showPath t i) i

/-! ## Probes (R218) -/

def State.probe (s : State) (p : Nat) : Probe := s.ax.pb.get {} p

/-- The latch of a probe on card `k` at edge `e`, as the word of PFI_PB_LATCH (R218). -/
def latchWord (s : State) (p n : Nat) (e : Nat) : Nat :=
  let k := p / 4
  let selR := s.eff (Reg.PFI_PB_CFG_SEL_RDC p)
  let selP := s.eff (Reg.PFI_PB_CFG_SEL_PI p)
  let rs := (List.range 16).filter (fun c => bit selR c)
  let ps := (List.range 8).filter (fun i => bit selP i)
  let angle (c : Nat) : Nat := let g := 16 * k + c; if s.rdcValid g then s.rdcAt g e else (s.rdc g).live.angle
  let fus (i : Nat) : Nat := let g := 8 * k + i; if s.fusedValid g then s.fusedOf g (s.qAt g e) else ((s.pfi g).lastF.getD 0)
  atWord e + (n % 2 ^ 32) * 2 ^ 128
    + rs.foldl (fun a c => a + angle c * 2 ^ (160 + 32 * c) + b2n (s.rdcValid (16 * k + c)) * 2 ^ (96 + c)) 0
    + ps.foldl (fun a i => a + s.qAt (8 * k + i) e * 2 ^ (672 + 128 * i) + fus i * 2 ^ (736 + 128 * i)
        + b2n (s.fusedValid (8 * k + i)) * 2 ^ (112 + i) + b2n (s.flag (Reg.PFI_STAT_COUNT_VALID (8 * k + i))) * 2 ^ (120 + i)) 0

/-- The payload of bark PB_LATCH: the latch with the unselected sources left out. -/
def latchPayload (s : State) (p w : Nat) : List Nat :=
  let rs := (List.range 16).filter (fun c => bit (s.eff (Reg.PFI_PB_CFG_SEL_RDC p)) c)
  let ps := (List.range 8).filter (fun i => bit (s.eff (Reg.PFI_PB_CFG_SEL_PI p)) i)
  (List.range 5).map (fun j => bits w (32 * j) 32) ++ rs.map (fun c => bits w (160 + 32 * c) 32)
    ++ ps.flatMap (fun i => (List.range 4).map (fun j => bits w (672 + 128 * i + 32 * j) 32))

/-- DEAD as it acts, in CCLK edges. -/
def State.probeDead (s : State) (p : Nat) : Nat := cclkUs (max 1 (min 1000 (s.eff (Reg.PFI_PB_CFG_DEAD p))))

/-- PB_LATCH: an edge of probe `p`, `ago` CCLK edges back, after which the line has stood for `len` samples. Angles are interpolated between
the updates on either side, so the row comes once the update that follows the edge has been made. -/
def pbLatch (s : State) (p : Nat) (rise : Bool) (len ago : Nat) : State :=
  let edge := s.eff (Reg.PFI_PB_CFG_EDGE p)
  let fits := edge = 3 || (if rise then edge ≤ 1 else edge = 2)
  let cont := s.eff (Reg.PFI_PB_CFG_CONT p) = 1
  let r := s.run - ago
  if s.eff (Reg.PFI_PB_CFG_EN p) ≠ 1 || !fits || !s.axUp (p / 4) || !s.sampling || len < s.eff (Reg.PFI_PB_CFG_FILT p) then s
  else if cont && (match (s.probe p).last with | some l => decide (r < l + s.probeDead p) | none => false) then
    (s.count (Reg.PFI_PB_STAT_MISSED p)).barkEvery cclkSec (p % 4) (axSrc (p / 4)) (axCode (p / 4) 0x31) true [p % 4]
  else if !cont && !s.flag (Reg.PFI_PB_STAT_ARMED p) then s
  else
    let n := (s.probe p).n + 1
    let w := latchWord s p n (s.now - ago)
    let t := { s with ax := { s.ax with pb := s.ax.pb.put {} p { last := some r, word := w, n := n % 2 ^ 32 } } }
    let t := (t.clr (Reg.PFI_PB_STAT_ARMED p)).set (Reg.PFI_PB_STAT_LATCHED p)
    let t := t.bark (axSrc (p / 4)) (axCode (p / 4) 0x30) false ([p % 4] ++ latchPayload s p w)
    homeEvent t (fun h => h.source = 2 && h.n = p) (s.now - ago)

def execPbLatch (p : Nat) (rise : Bool) (len ago : Nat) (s : State) : Host.Outcome State Fault Refusal :=
  guardItem (p < 8) (answer s (pbLatch s p rise len ago))

/-- The other software-owned fields of the first word of PFI_PB_CFG. -/
def probeFields (p : Nat) : List Fld :=
  [Reg.PFI_PB_CFG_EN p, Reg.PFI_PB_CFG_EDGE p, Reg.PFI_PB_CFG_CONT p, Reg.PFI_PB_CFG_FILT p, Reg.PFI_PB_CFG_DEAD p]

/-- ARM arms one latch with CONT = 0. -/
def execPbArm (src : WrSrc) (p : Nat) (s : State) : Host.Outcome State Fault Refusal :=
  guardItem (p < 8) (answer s (s.write src .PFI_PB_CFG (p / 4) (p % 4) true (fun t =>
    (if t.eff (Reg.PFI_PB_CFG_CONT p) = 0 then t.set (Reg.PFI_PB_STAT_ARMED p) else t).journalW src .PFI_PB_CFG (p / 4) (p % 4) (t.wordWith 16 (probeFields p)))))

def execPbMissedClr (src : WrSrc) (p : Nat) (s : State) : Host.Outcome State Fault Refusal :=
  guardItem (p < 8) (answer s (s.write src .PFI_PB_CFG (p / 4) (p % 4) true (fun t =>
    (t.clr (Reg.PFI_PB_STAT_MISSED p)).journalW src .PFI_PB_CFG (p / 4) (p % 4) (t.wordWith 32 (probeFields p)))))

/-- A read of the first word of PFI_PB_LATCH[p] latches the whole element (R413). -/
def pbRead (s : State) (p : Nat) : State :=
  let w := (s.probe p).word
  let t := (((((s.wr (Reg.PFI_PB_LATCH_AT p) w).wr (Reg.PFI_PB_LATCH_RDC_VALID p) (w / 2 ^ 96)).wr (Reg.PFI_PB_LATCH_FUSED_VALID p) (w / 2 ^ 112)).wr
    (Reg.PFI_PB_LATCH_COUNT_VALID p) (w / 2 ^ 120)).wr (Reg.PFI_PB_LATCH_LATCH_NO p) (w / 2 ^ 128)).wr (Reg.PFI_PB_LATCH_ANGLE p) (w / 2 ^ 160)
  (List.range 8).foldl (fun u i => (u.wr (Reg.PFI_PB_LATCH_COUNT p i) (w / 2 ^ (672 + 128 * i))).wr (Reg.PFI_PB_LATCH_FUSED p i) (w / 2 ^ (736 + 128 * i))) t

def execPbLatchRead (p : Nat) (s : State) : Host.Outcome State Fault Refusal :=
  guardItem (p < 8) (answer s (if s.domOn (16 + p / 4) then pbRead s p else s))

end Sys2Proof.Machine
end

