-- ==== Sys2Proof/Machine/Emul.lean ====
section
/-! DEFINITION. Encoder emulation (R226 to R230). -/

namespace Sys2Proof.Machine

def State.emu (s : State) (e : Nat) : Emu := s.ax.ee.get {} e

def State.modEmu (s : State) (e : Nat) (g : Emu → Emu) : State :=
  { s with ax := { s.ax with ee := s.ax.ee.put {} e (g (s.emu e)) } }

/-- L, the exponent of the lines, and the counts per turn (R226). -/
def State.eeLines (s : State) (e : Nat) : Nat := max 8 (min 20 (s.eff (Reg.EE_CFG_LINES e)))
def State.eeCounts (s : State) (e : Nat) : Nat := 4 * 2 ^ s.eeLines e

/-- Source of an output: validity, angle in 2^-40 turn and speed in 2^-40 turn/s. -/
def State.eeSource (s : State) (e : Nat) : Bool × Nat × Int :=
  let i := s.eff (Reg.EE_CFG_INDEX e)
  if s.eff (Reg.EE_CFG_KIND e) = 0 then
    let c := e / 8 * 16 + i
    (s.rdcValid c, (s.rdc c).cur.angle * 256, (s.rdc c).cur.speed)
  else
    let j := e / 8 * 8 + i
    (s.fusedValid j, (s.pfi j).f % 2 ^ 32 * 256, (s.pfi j).sW)

/-- The setting of an output is invalid (R230). -/
def eeInvalidCfg (get : Fld → Nat) (e : Nat) : Bool := get (Reg.EE_CFG_KIND e) = 1 && 7 < get (Reg.EE_CFG_INDEX e)

/-- The target of this update (R226, R227). -/
def State.eeTarget (s : State) (e : Nat) : Nat :=
  let x := s.eeSource e
  let lead : Int := if s.eff (Reg.EE_CFG_LEAD_COMP e) = 1 then rne (x.2.2 * 3) 2048000 else 0
  unsigned 40 ((x.2.1 : Int) + lead - (s.eff (Reg.EE_CFG_ZERO e) * 256 : Nat)) * s.eeCounts e / 2 ^ 40

/-- A muzzling cause stands (R229). -/
def State.eeBarred (s : State) (e : Nat) : Bool :=
  s.eff (Reg.EE_CFG_EN e) = 0 || !s.sampling || !s.axUp (e / 8) || (s.slot (16 + e / 8)).selfMuzzled || !(s.eeSource e).1 || (s.emu e).fault || s.flag (Reg.EE_STAT_CFG_BAD e)

def eeBark (s : State) (e ev : Nat) (warn : Bool) (payload : List Nat) : State :=
  s.bark (axSrc (e / 8)) (axCode (e / 8) ev) warn ([e % 8] ++ payload)

/-- E at the present edge: counts of the running interval that are still to come are not in it. -/
def State.eeCount (s : State) (e : Nat) : Int :=
  let k := s.emu e
  let rest := (k.edges.filter (fun q => s.now < q)).length
  if k.up then k.e - rest else k.e + rest

/-- The output stops: no further edges, its lines as MUZZLE says. -/
def eeMuzzle (s : State) (e : Nat) : State :=
  ((s.modEmu e (fun k => { k with e := s.eeCount e, muzzled := true, edges := [], changed := false })).clr (Reg.EE_STAT_LIVE e)).set (Reg.EE_STAT_MUZZLED e)
    |>.clr (Reg.EE_STAT_LAGGING e)

/-- The output resumes (R229): E takes the target, and the lines jump. -/
def eeResume (s : State) (e : Nat) : State :=
  let k := s.emu e
  let t := s.eeTarget e
  let m := s.eeCounts e
  let d : Int := ((t : Int) - k.e) % (m : Int)
  let jump : Int := if 2 * d < m then d else d - m
  let u := s.modEmu e (fun k => { k with t := t, target := t, e := t, edges := [], muzzled := false, restart := false })
  let u := (((u.set (Reg.EE_STAT_LIVE e)).clr (Reg.EE_STAT_MUZZLED e)).set (Reg.EE_STAT_RESUMED e)).wrS (Reg.EE_STAT_LAST_JUMP e) jump
  let u := ((u.clr (Reg.EE_STAT_LAG e)).wr (Reg.EE_STAT_EMITTED e) t).count (Reg.EE_CNT_RESUMES e)
  eeBark u e 0x3A false [unsigned 32 jump]

/-- One update of a live output (R226 to R228): the interval that starts emits towards the last target, and the next target is
formed. -/
def eeRun (s : State) (e : Nat) : State :=
  let k := s.emu e
  let m := s.eeCounts e
  let l := k.target - k.e
  let n := min 24 l.natAbs
  let up := decide (0 < l)
  let t := s.eeTarget e
  let d : Int := ((t : Int) - k.t) % (m : Int)
  let u := s.modEmu e (fun k => { k with
    e := if up then k.e + n else k.e - n, up := up, edges := (List.range n).map (fun j => s.now + (2 * j + 1) * 120 / n), t := t,
    target := k.target + (if 2 * d < m then d else d - m) })
  let u := (u.wrS (Reg.EE_STAT_LAG e) l).wr (Reg.EE_STAT_EMITTED e) (unsigned 32 (u.emu e).e)
  let ovr := decide (24 < l.natAbs)
  let u := if ovr && !s.flag (Reg.EE_STAT_LAGGING e) then
      ((u.set (Reg.EE_STAT_OVERRUN e)).count (Reg.EE_CNT_OVERRUNS e)).barkEvery cclkSec (e % 8) (axSrc (e / 8)) (axCode (e / 8) 0x38) true [e % 8]
    else u
  let u := u.wrB (Reg.EE_STAT_LAGGING e) ovr
  if max 24 (s.eff (Reg.EE_CFG_LAG_MAX e)) < l.natAbs then
    eeMuzzle (eeBark ((u.set (Reg.EE_STAT_LAG_FAULT e)).modEmu e (fun k => { k with fault := true, e := (s.emu e).e, edges := [] })) e 0x39 true []) e
  else u

/-- EE_UPDATE: one loop update of output `e`. -/
def eeUpdate (s : State) (e : Nat) : State :=
  let k := s.emu e
  if s.eeBarred e || k.changed then (if k.muzzled && !k.changed then s else eeMuzzle s e)
  else if k.muzzled then (if s.eff (Reg.EE_CFG_AUTO_RESUME e) = 1 || k.restart then eeResume s e else s)
  else eeRun s e

def execEeUpdate (e : Nat) (s : State) : Host.Outcome State Fault Refusal :=
  guardItem (e < 16) (answer s (eeUpdate s e))

/-- RESTART: resumes at the next update, also from LAG_FAULT. -/
def execEeRestart (src : WrSrc) (e : Nat) (s : State) : Host.Outcome State Fault Refusal :=
  guardItem (e < 16) (answer s (s.write src .EE_CTRL (e / 8) (e % 8) true (fun t =>
    (t.modEmu e (fun k => if k.muzzled then { k with restart := true, fault := false } else k)).journalW src .EE_CTRL (e / 8) (e % 8) 1)))

def execEeCntClr (src : WrSrc) (e : Nat) (s : State) : Host.Outcome State Fault Refusal :=
  guardItem (e < 16) (answer s (s.write src .EE_CTRL (e / 8) (e % 8) true (fun t =>
    (t.clearCnts [Reg.EE_CNT_OVERRUNS e, Reg.EE_CNT_RESUMES e] 3).journalW src .EE_CTRL (e / 8) (e % 8) 2)))

def eeAnew (e : Nat) : List Nat :=
  [Reg.EE_CFG_KIND e, Reg.EE_CFG_INDEX e, Reg.EE_CFG_LINES e, Reg.EE_CFG_ZERO e, Reg.EE_CFG_INVERT e].map (fun f => f.key)

/-- Fields `ks` of an output have taken their new values at this boundary (R228, R230). With none, the stored setting is judged as the
card enters, and an invalid one raises no bark (DESIGN CHOICE). -/
def eeChanged (s : State) (e : Nat) (ks : List Nat) : State :=
  let bad := eeInvalidCfg s.eff e
  let s := s.wrB (Reg.EE_STAT_CFG_BAD e) bad
  let s := if bad && !ks.isEmpty then eeBark s e 0x3B true [] else s
  let s := s.modEmu e (fun k => { k with fault := false })
  if (eeAnew e).any ks.contains then s.modEmu e (fun k => { k with changed := true }) else s

/-- The levels of lines A, B and Z (R226). -/
def State.eeLevels (s : State) (e : Nat) : Bool × Bool × Bool :=
  let c := s.eeCount e
  let q := (c % 4).toNat
  let one := decide (q = 0 || q = 3)
  let two := decide (q = 0 || q = 1)
  let z := decide (c % (s.eeCounts e : Int) = 0)
  if s.eff (Reg.EE_CFG_INVERT e) = 1 then (two, one, z) else (one, two, z)

/-- What the three pairs of an output carry (R229): drivers off, both wires at one level, or the levels of A, B and Z. -/
inductive LineState where
  | hiz
  | zeroDiff
  | driven (a b z : Bool)
  deriving DecidableEq, Repr

/-- The lines of an output (R226, R229): with the card's domain off its drivers are high-impedance whatever MUZZLE says. -/
def State.eeLineState (s : State) (e : Nat) : LineState :=
  let q := s.eeLevels e
  if !s.domOn (16 + e / 8) then .hiz
  else if !(s.emu e).muzzled || s.eff (Reg.EE_CFG_MUZZLE e) = 1 then .driven q.1 q.2.1 q.2.2
  else if s.eff (Reg.EE_CFG_MUZZLE e) = 2 then .zeroDiff else .hiz

end Sys2Proof.Machine
end

