-- ==== Sys2Proof/Machine/Reduce.lean ====
section
/-! DEFINITION. The reduction pipeline's stages (R138 to R157): source values and their flags, curves, scaling, statistics,
formats. A value is a real of the pipeline. -/

namespace Sys2Proof.Machine

/-! ## Curves (R144 to R149) -/

/-- Kinds of curve by number: 0 none, 1 thermocouple, 2 Callendar–Van Dusen, 3 table, 4 segments, 5 Steinhart–Hart, 6 not listed. -/
def curveKind (n : Nat) : Nat :=
  if n = 0 then 0 else if n ≤ 8 then 1 else if n = 16 then 2 else if 32 ≤ n && n ≤ 63 then 3
  else if 64 ≤ n && n ≤ 95 then 4 else if 96 ≤ n && n ≤ 111 then 2 else if 112 ≤ n && n ≤ 127 then 5 else 6

/-- The active copy of a user curve that a sample at `e` uses (R149): the copy that was active then, or the first one. -/
def State.curveAt (s : State) (n : Nat) (e : Nat) : List Nat :=
  match (s.rd_.prev.get [] n).reverse.find? (fun q => e < q.1) with
  | some q => q.2
  | none => s.rd_.act.get [] n

/-- Entry `j` of a copy as a real; the copies that become active hold finite values alone (R149). -/
def entry (l : List Nat) (j : Nat) : Int := (real64 (l.getD j 0)).getD 0

/-- Domain of a thermocouple type in °C, in tenths (R144). -/
def tcDomain (n : Nat) : Int × Int :=
  if n = 1 then (0, 18200) else if n = 2 then (-2700, 10000) else if n = 3 then (-2100, 12000) else if n = 4 then (-2700, 13720)
  else if n = 5 then (-2700, 13000) else if n = 6 || n = 7 then (-500, 17681) else (-2700, 4000)

/-- Clamp a value to a domain; the mark is that it lay outside (R147). -/
def clampTo (lo hi x : Int) : Int × Bool := if x < lo then (lo, true) else if hi < x then (hi, true) else (x, false)

/-- R(t) of R146, with the C term below 0 °C. -/
def cvdR (r0 a b c t : Int) : Int :=
  let base := fadd realOne (fadd (fmul a t) (fmul b (fmul t t)))
  let cube := if t < 0 then fmul c (fmul (fadd t (freal (-100))) (fmul t (fmul t t))) else 0
  fmul r0 (fadd base cube)

/-- Bisection of R(t) = r between `lo` and `hi`. -/
def cvdBisect (f : Int → Int) (r : Int) : Nat → Int → Int → Int
  | 0, lo, _ => lo
  | k + 1, lo, hi => let m := (lo + hi) / 2; if f m ≤ r then cvdBisect f r k m hi else cvdBisect f r k lo m

/-- The Callendar–Van Dusen curve (R146); the inversion below R0 is known to within 0.1 mK. -/
def cvd (r0 a b c x : Int) : Int × Bool :=
  let q := clampTo (cvdR r0 a b c (freal (-200))) (cvdR r0 a b c (freal 850)) x
  let r := q.1
  let w := fdiv r r0
  let t :=
    if r0 ≤ r then
      if b = 0 then fdiv (fadd w (-realOne)) a
      else fdiv (fadd (-a) (fsqrt (fadd (fmul a a) (-(fmul (4 * b) (fadd realOne (-w))))))) (2 * b)
    else
      let m := fratio 1 10000
      fadd (cvdBisect (cvdR r0 a b c) r 80 (freal (-200)) 0) (clamp (-m) m (Config.cvdErr [r0, a, b, c, r]))
  (t, q.2)

/-- A breakpoint table: pairs from entry `j` on (R147). The interpolation is exact, and rounded once. -/
def tableAt (l : List Nat) (x : Int) : Nat → Nat → Int
  | 0, j => entry l (2 * j + 1)
  | k + 1, j =>
    let x0 := entry l (2 * j)
    let x1 := entry l (2 * j + 2)
    if k = 0 || x ≤ x1 then
      let d := x1 - x0
      if d ≤ 0 then entry l (2 * j + 1)
      else rnd64 (entry l (2 * j + 1) * d + (x - x0) * (entry l (2 * j + 3) - entry l (2 * j + 1))) d.natAbs
    else tableAt l x k (j + 1)

def curveTable (l : List Nat) (x : Int) : Int × Bool :=
  let n := l.length / 2
  let q := clampTo (entry l 0) (entry l (2 * (n - 1))) x
  (tableAt l q.1 (n - 1) 0, q.2)

/-- Segment `j` of a segmented polynomial, by Horner's rule. -/
def segAt (l : List Nat) (j : Nat) (x : Int) : Int :=
  (List.range 7).foldl (fun acc i => fadd (fmul acc x) (entry l (10 * j + 8 - i))) (entry l (10 * j + 9))

/-- The segment with LO ≤ x < HI; the last one takes the rest. -/
def segFind (l : List Nat) (x : Int) : Nat → Nat → Nat
  | 0, j => j
  | k + 1, j => if x < entry l (10 * j + 1) then j else segFind l x k (j + 1)

def curveSx (l : List Nat) (x : Int) : Int × Bool :=
  let n := l.length / 10
  let q := clampTo (entry l 0) (entry l (10 * (n - 1) + 1)) x
  (segAt l (segFind l q.1 (n - 1) 0) q.1, q.2)

/-- Steinhart–Hart; 1/T of 0 has no result, and gives `free`. -/
def curveSh (free : Int) (l : List Nat) (x : Int) : Int × Bool :=
  let q := clampTo (fratio 1 10) (freal 10000000) x
  let n := fln q.1
  let inv := fadd (entry l 0) (fadd (fmul (entry l 1) n) (fmul (entry l 2) (fmul n (fmul n n))))
  (if inv = 0 then free else fadd (fdiv realOne inv) (-(fratio 27315 100)), q.2)

/-- The cold junction of a thermocouple stream at `e` (R145): its temperature, the last VALID value with AT at or before `e`, and that it
is missing for 10 s. -/
def State.coldJunction (s : State) (d : SDef) (openAt e : Nat) : Int × Bool :=
  if optCJ_FIXED d then (fratio (signed 32 d.cj) 1000, false)
  else match s.stream (d.cj % 1024) with
    | none => (Config.freeReal s.free, true)
    | some x => match x.lastValid.find? (fun q => q.1 ≤ e) with
      | some q => (q.2, q.1 + 10 * cclkSec ≤ e)
      | none => (Config.freeReal s.free, openAt + 10 * cclkSec ≤ e)

/-- E⁻¹ of a thermocouple type within its domain (R145): the inversion of E by iteration, known to within 0.1 mK. -/
def tcInv (n : Nat) (lo hi v : Int) : Int :=
  let m := fratio 1 10000
  fadd (cvdBisect (Config.tcE n) v 80 lo hi) (clamp (-m) m (Config.tcErr n v))

/-- The curve stage: value, domain clamping, loss of the cold junction. -/
def State.curve (s : State) (d : SDef) (openAt e : Nat) (v : Int) : Int × Bool × Bool :=
  let n := d.curve
  let k := curveKind n
  let l := s.curveAt n e
  if k = 1 then
    let cj := s.coldJunction d openAt e
    let lo := fratio (tcDomain n).1 10
    let hi := fratio (tcDomain n).2 10
    let q := clampTo (Config.tcE n lo) (Config.tcE n hi) (fadd v (Config.tcE n cj.1))
    (tcInv n lo hi q.1, q.2, cj.2)
  else if k = 2 then
    let r := if n = 16 then cvd (fratio (d.cj : Nat) 1000) (fratio 39083 (10 ^ 7)) (fratio (-5775) (10 ^ 10)) (fratio (-4183) (10 ^ 15)) v
      else cvd (entry l 0) (entry l 1) (entry l 2) (entry l 3) v
    (r.1, r.2, false)
  else if k = 3 then let r := curveTable l v; (r.1, r.2, false)
  else if k = 4 then let r := curveSx l v; (r.1, r.2, false)
  else if k = 5 then let r := curveSh (Config.freeReal s.free) l v; (r.1, r.2, false)
  else (v, false, false)

/-! ## Formats (R151) -/

def fF32 : Nat := 1
def fS32 : Nat := 2
def fRAW24 : Nat := 3
def fANG32 : Nat := 4
def fSPD32 : Nat := 5
def fU32 : Nat := 6

/-- Scaling (R150). -/
def scaled (d : SDef) (v : Int) : Int :=
  if d.format = fF32 || d.format = fS32 then fadd (fmul ((real64 d.gain).getD 0) v) ((real64 d.offset).getD 0) else v

/-- The largest finite binary32 number, as a real. -/
def real32Max : Nat := (2 ^ 24 - 1) * 2 ^ (1074 + 104)

/-- The sample word of a value: `r` as a real, `w` as the integer word of the sources that give one; the mark is that the format
saturated. `full` is the converter's full scale. -/
def formatWord (d : SDef) (full r : Int) (w : Nat) : Nat × Bool :=
  if d.format = fF32 then (word32 r, decide (real32Max < r.natAbs))
  else if d.format = fS32 then
    let n := if 0 ≤ d.q then rne (r * (2 ^ d.q.toNat : Nat)) realOne else rne r (realOne * 2 ^ d.q.natAbs)
    (unsigned 32 (satS 32 n), satS 32 n ≠ n)
  else if d.format = fRAW24 then
    let n := if full = 0 then 0 else rne (r * 8388607) full.natAbs
    (unsigned 32 (satS 24 n), satS 24 n ≠ n)
  else if d.format = fSPD32 then
    let n := rne (r * (2 ^ 24 : Nat)) realOne
    (unsigned 32 (satS 32 n), satS 32 n ≠ n)
  else if d.format = fU32 && (d.reduce = 1 || d.reduce = 2) then
    let n := fround r
    (satU 32 n.toNat, decide (n < 0) || decide (((2 ^ 32 : Nat) : Int) ≤ n))
  else (w % 2 ^ 32, false)

/-! ## Sources (R85, R96, R140) -/

/-- The slot of an offline source, and a held one. -/
def svOffline : SVal := { r := 0, w := 0, flags := fOFFLINE }
def svBlanked : SVal := { r := 0, w := 0, flags := fBLANKED }

/-- A filter's length and group delay, in CCLK edges (R99). -/
def filterLen (sinc : Bool) (k : Nat) : Nat := (if sinc then 3 * 2 ^ k + 1 else 40 * 2 ^ k + 2) * cclkBeat
def filterDelay (sinc : Bool) (k : Nat) : Nat := if sinc then 5760 * 2 ^ k + 600 else (20 * 2 ^ k + 1) * cclkBeat

/-- The analogue delay of a converter in its active stage and gain, τa, in CCLK edges (R100). -/
def State.tauConv (s : State) (f c : Nat) : Nat := (s.card f).tau.get 0 (8 * c + s.setting f c)

/-- The delay of a raw sample behind its stamp (R104). -/
def State.rawDelay (s : State) (ch : Nat) : Nat := 600 + s.tauConv (ch / 32) (ch % 32)

/-- Length and group delay of the window on which a converter's sample depends, `k` its filter's rate (R84, R99, R100, R104). -/
def State.convSpan (s : State) (d : SDef) (k : Nat) : Nat × Nat :=
  let f := d.index / 32
  let half := 2 ^ s.act (Reg.FC_EXC_CFG_SWAP_HALF f (s.act (Reg.FC_CH_CFG_LEAD_SRC f (d.index % 32)))) * cclkBeat
  if d.out = 3 then (2 * half, half)
  else if d.out = 4 then (cclkBeat, cclkBeat / 2)
  else if d.clock = 3 then (1200, 600)
  else (filterLen (d.filter = 1) k, filterDelay (d.filter = 1) k)

/-- How long after its stamp a sample is formed (R84, R99, R100, R103, R104): the rest of its window, and τa where it is filtered; for an
angle-clocked value of a loop update, until the update behind it. -/
def State.formDelay (s : State) (d : SDef) (k : Nat) : Nat :=
  if d.kind = 0 then (s.convSpan d k).2 + (if d.out ≤ 2 then s.tauConv (d.index / 32) (d.index % 32) else 0)
  else if d.kind = 1 then cclkBeat / 2
  else if (d.kind = 3 || d.kind = 4) && d.clock = 1 then 240
  else 0

/-- The carry term that joins a sample at `e` (R71): that of a charge stage with CARRY = 1. -/
def State.carryOf (s : State) (f c e : Nat) : Int :=
  let k := s.chan f c
  if s.act (Reg.FC_CH_CFG_STAGE f c) ≠ 1 || s.act (Reg.FC_CH_CFG_CARRY f c) ≠ 1 then 0
  else if e < k.carryAt then k.carryOld else k.carry

/-- The I or Q output for an input of amplitude `v` and phase `ψ` (2^-48 turn, of its sine at `e`) at the frequency of DEMOD_SRC (R78):
A cos(φ − φref) or A sin(φ − φref), φ its phase against the source. -/
def State.demodulated (s : State) (f c e : Nat) (quad : Bool) (v : Int) (ψ : Nat) : Int :=
  let ref := s.excPhase f (s.act (Reg.FC_CH_CFG_DEMOD_SRC f c)) e + s.act (Reg.FC_CH_CFG_DEMOD_PHASE f c) * 2 ^ 32
  let φ := ψ % 2 ^ 48 + 2 ^ 48 - ref % 2 ^ 48
  rnd64 (v * (if quad then sinTurn φ else cosTurn φ)) (2 ^ 128)

/-- The filtered outputs RAW, I and Q of a converter at `e` (R67, R71, R78, R80, R97), and that they saturate. -/
def State.convOut (s : State) (d : SDef) (e : Nat) (v div : Int) (ψ : Nat) : Int × Bool :=
  let f := d.index / 32
  let c := d.index % 32
  let full := s.fullScale f c
  let y := if d.out = 0 then s.corrected f c e v else fdiv v (fratio (s.coefOf f c e).gain (10 ^ 12))
  let x := clamp (-full) full y
  let x := if d.out = 0 then fadd x (s.carryOf f c e) else s.demodulated f c e (d.out = 2) x ψ
  (if s.act (Reg.FC_CH_CFG_RATIO f c) = 0 then x else if div = 0 then Config.freeReal s.free else fdiv x div, decide (clamp (-full) full y ≠ y))

/-- A field converter's value at `e` (R78 to R85): `v` is the filter's output, in V or pC without the carry term (of I and Q the amplitude
of the input, whose phase is `ψ`), `div` the measured voltage or current of the ratio's source over the same beats. -/
def State.convSource (s : State) (d : SDef) (k : Nat) (e : Nat) (v div : Int) (ψ : Nat) (ovr : Bool) : SVal :=
  let f := d.index / 32
  let c := d.index % 32
  let w := s.convSpan d k
  let fl := s.convFlags f c e w.1 w.2 ovr
  if fl = fOFFLINE then svOffline
  else if d.out = 3 then
    if s.act (Reg.FC_CH_CFG_LEAD f c) = 0 then svOffline
    else match (s.chan f c).rVals.find? (fun q => q.2.1 = e) with
      | some q => { r := q.1, w := 0, flags := q.2.2 }
      | none => { r := 0, w := 0, flags := 0 }
  else if (d.out = 1 || d.out = 2) && s.act (Reg.FC_CH_CFG_DEMOD f c) ≠ 1 then svOffline
  else if hasFlag fl fBLANKED then { r := 0, w := 0, flags := fl }
  else if d.out = 4 then { r := v, w := 0, flags := fl }
  else
    let q := s.convOut d e v div ψ
    { r := q.1, w := 0, flags := if q.2 then orFlags fl fOVERRANGE else fl }

/-- A value between two updates at edges `a` and `b`, at edge `e` (R140), rounded once. -/
def lerp (x y : Int) (a b e : Nat) : Int := if b ≤ a then y else rnd64 (x * ((b : Int) - e) + y * ((e : Int) - a)) (b - a)

/-- A resolver channel's output at `e`: the update on the boundary, or interpolated (R140, R177, R196). -/
def State.rdcSource (s : State) (d : SDef) (e : Nat) : SVal :=
  let c := d.index
  let k := s.rdc c
  let fl := orFlags k.cur.flags (if e < k.cur.at_ then k.prev.flags else 0)
  if !s.axUp (c / 16) || !s.sampling || !s.rdcValid c then svOffline
  else
    let w := s.rdcAt c e
    let spd := lerp (k.prev.speed * realOne / 2 ^ 40) (k.cur.speed * realOne / 2 ^ 40) k.prev.at_ k.cur.at_ e
    let r := if d.out = 0 then rnd64 ((w : Int) * realOne) (2 ^ 32)
      else if d.out = 1 then spd else lerp k.prev.accel k.cur.accel k.prev.at_ k.cur.at_ e
    { r := r, w := w, flags := orFlags fl fVALID }

/-- A fine position input's output at `e` (R140, R217, R225). -/
def State.pfiSource (s : State) (d : SDef) (e : Nat) : SVal :=
  let i := d.index
  let k := s.pfi i
  if !s.axUp (i / 8) || !s.sampling || !s.pfiOn i then svOffline
  else if d.out = 2 then
    let q := s.qAt i e
    { r := freal (q % 2 ^ 32), w := q % 2 ^ 32, flags := fVALID + (if s.flag (Reg.PFI_STAT_COUNT_VALID i) then 0 else fOVERRANGE) }
  else if !s.fusedValid i then svOffline
  else
    let f := s.fusedAt i e
    let fl := fVALID + (if k.setFrom ≤ e && e < k.settle then fSETTLING else 0)
    if d.out = 0 then { r := rnd64 ((f % 2 ^ 32 : Nat) * (realOne : Int)) (2 ^ 32), w := f % 2 ^ 32, flags := fl }
    else { r := freal (f / 2 ^ 32 % 65536), w := f / 2 ^ 32 % 65536, flags := fl }

/-- A Q1.15 value as a real. -/
def q15 (i : Int) : Int := rnd64 (i * (realOne : Int)) 32768

/-- A loop's demand or error, or an arena's output, at a tick at `e` (R251): the error is that of the latest boundary before it. -/
def State.loopSource (s : State) (d : SDef) (e : Nat) : SVal :=
  let i := d.index
  let ovr (b : Bool) : Nat := fVALID + (if b then fOVERRANGE else 0)
  if s.rd Reg.LE_STAT_STATE = 0 then svOffline
  else if d.out = 2 then
    if s.rd (Reg.LE_ARENA_STAT_STATE i) = 0 then svOffline
    else { r := q15 (s.arena i).outNow, w := 0, flags := ovr (s.flag (Reg.LE_ARENA_STAT_SATURATED i)) }
  else
    let st := s.rd (Reg.LE_LOOP_STAT_STATE i)
    if st = 0 then svOffline
    else if d.out = 0 then { r := q15 (s.loop i).uNow, w := 0, flags := ovr (s.flag (Reg.LE_LOOP_STAT_AT_LIMIT i) || st = 5) }
    else { r := q15 (if (s.loop i).eAt < e then s.rdS (Reg.LE_LOOP_STAT_E i) else (s.loop i).eOld), w := 0, flags := fVALID }

/-- The drive card's sources at a tick at `e` (R282). -/
def State.driveSource (s : State) (d : SDef) (e : Nat) : SVal :=
  let i := d.index
  if !s.inService 18 || !s.domOn 18 || !s.sampling then svOffline
  else if d.out = 0 then
    { r := freal (signed 32 (unsigned 32 ((pAtInstant (s.axis i) e).getD (axisP (s.axis i))))), w := 0, flags := fVALID + (if s.posValid i then 0 else fOVERRANGE) }
  else
    let cur := (s.ao i).rangeNow = 1
    { r := if cur then fratio (s.rdS (Reg.AO_STAT_I_READ i)) (10 ^ 9) else fratio (s.rdS (Reg.AO_STAT_V_READ i)) (10 ^ 6), w := 0,
      flags := fVALID + (if s.flag (Reg.AO_STAT_COMPLIANCE i) || s.flag (Reg.AO_STAT_OPEN i) || s.flag (Reg.AO_STAT_OVERLOAD i) then fOVERRANGE else 0) }

/-- The hub's own values, in °C and W. -/
def State.hubSource (s : State) (d : SDef) : SVal :=
  let r := if d.out = 0 then fratio (s.rdS (Reg.PW_TEMP_T d.index)) 16
    else if d.out = 1 then fratio (s.rd (Reg.PW_FEED_P 0)) 10
    else if d.out = 2 then fratio (s.rd (Reg.PW_FEED_P 1)) 10 else fratio (s.rd (Reg.PW_BOOK_GRANTED 0)) 10
  { r := r, w := 0, flags := if d.out = 0 && s.flag (Reg.PW_TEMP_FAULT d.index) then fOFFLINE else fVALID }

/-- XV or XI of an excitation source at `e`, over the beat-long window centred on it (R85, R100). It carries OVERRANGE where the source
limits within that window (DESIGN CHOICE: R75 and R96 name the flag only for the channels that reference the source), and SETTLING where
a step of AT falls into it (R43). -/
def State.excSource (s : State) (d : SDef) (e : Nat) (v : Int) : SVal :=
  let f := d.index / 8
  let a := e - cclkBeat / 2
  let b := e + cclkBeat / 2
  if s.fcUp f && s.sampling && (s.card f).since ≤ e then
    { r := v, w := 0, flags := fVALID + (if meets ((s.card f).bad.get [] (d.index % 8)) a b then fOVERRANGE else 0)
        + (if s.tb.steps.any (fun q => a ≤ q.1 && q.1 < b) then fSETTLING else 0) }
  else svOffline

/-- The source stage at tick `e`, for a rate `k` (R140). `v`, `div`, `ψ` and `ovr` come from the card for sources it measures. -/
def State.source (s : State) (d : SDef) (k : Nat) (e : Nat) (v div : Int) (ψ : Nat) (ovr : Bool) : SVal :=
  if d.kind = 0 then s.convSource d k e v div ψ ovr
  else if d.kind = 1 then s.excSource d e v
  else if d.kind = 3 then s.rdcSource d e
  else if d.kind = 4 then s.pfiSource d e
  else if d.kind = 5 then s.loopSource d e
  else if d.kind = 6 then s.driveSource d e
  else if d.kind = 7 then s.hubSource d
  else svOffline

/-! ## Statistics (R152 to R155) -/

/-- A sample is used (R153). -/
def usable (d : SDef) (fl : Nat) : Bool :=
  hasFlag fl fVALID && !hasFlag fl fBLANKED && !hasFlag fl fOFFLINE && (!hasFlag fl fSETTLING || optINCL_SETTLING d)
    && (!hasFlag fl fOVERRANGE || optINCL_OVERRANGE d) && (!hasFlag fl fCM_FAULT || optINCL_CM d)

/-- Add a sample. -/
def Accum.add (a : Accum) (d : SDef) (y : Int) (fl : Nat) : Accum :=
  let a := { a with blanked := a.blanked || hasFlag fl fBLANKED, offline := a.offline || hasFlag fl fOFFLINE }
  if !usable d fl then a
  else
    let n := a.n + 1
    let dl := fadd y (-a.mean)
    let mean := fadd a.mean (fdiv dl (freal n))
    { a with n := n, sum := fadd a.sum y, sq := fadd a.sq (fmul y y), mean := mean, m2 := fadd a.m2 (fmul dl (fadd y (-mean))),
             lo := if a.n = 0 then y else min a.lo y, hi := if a.n = 0 then y else max a.hi y, first := if a.n = 0 then y else a.first,
             flags := orFlags a.flags fl }

/-- The statistic STAT of at least one sample. -/
def Accum.value (a : Accum) (stat : Nat) : Int :=
  let n := freal a.n
  if stat = 1 then fdiv a.sum n
  else if stat = 2 then a.lo
  else if stat = 3 then a.hi
  else if stat = 4 then fsqrt (fdiv a.sq n)
  else if stat = 5 then fsqrt (max 0 (fdiv a.m2 n))
  else if stat = 6 then fadd a.hi (-a.lo)
  else if stat = 7 then n
  else a.first

/-- A slot at `e` of a value and its flags: OVERRANGE where the format saturates (R151, R158). -/
def slotOf (x : Stream) (full : Int) (e : Nat) (v : SVal) : SlotV :=
  if hasFlag v.flags fOFFLINE then { at_ := e, word := 0, flags := fOFFLINE }
  else if hasFlag v.flags fBLANKED then { at_ := e, word := x.good, flags := v.flags }
  else if !hasFlag v.flags fVALID then { at_ := e, word := 0, flags := 0 }
  else
    let w := formatWord x.defn full v.r v.w
    { at_ := e, word := w.1, flags := if w.2 then orFlags v.flags fOVERRANGE else v.flags }

/-- The value of a block's slot (R153). -/
def blockSlot (x : Stream) (a : Accum) : SVal :=
  if (x.defn.ra % 65536) ≤ a.n && a.n ≠ 0 then { r := a.value x.defn.stat, w := 0, flags := a.flags }
  else if a.blanked then svBlanked
  else if a.offline then svOffline
  else { r := 0, w := 0, flags := 0 }

end Sys2Proof.Machine
end

