-- ==== Sys2Proof/Machine/Stream.lean ====
section
/-! DEFINITION. Streams at work (R138 to R161, R321, R365): ticks and slots, tables and windows, opening, closing, replay,
checkpoints, user curves. -/

namespace Sys2Proof.Machine

/-! ## Ticks (R159) -/

/-- A beat or raw clock: its ticks lie at `next` and follow the period. -/
def beatClocked (d : SDef) : Bool := d.clock = 0 || d.clock = 3

/-- Rate exponent of the stream's filter; an angle-clocked or raw one has none, and takes 0. -/
def Stream.rateK (x : Stream) : Nat :=
  if x.defn.clock ≠ 0 then 0 else if x.defn.reduce ≠ 1 && x.period = 2 ^ 6 * cclkBeat then 6 else x.defn.clockArg

/-- The first edge at or after `e` that with `phase` is a multiple of a period. -/
def gridCeil (p phase e : Nat) : Nat := (e + phase + (p - 1)) / p * p - phase

/-- The stream's first tick at or after `e` on the grid in force: of a block stream, a block boundary (R141). -/
def Stream.gridFrom (x : Stream) (e : Nat) : Nat := gridCeil (if x.defn.reduce = 1 then x.period else x.srcPeriod) x.phase e

/-- The stream as it stands at the rate of a tick. -/
def Stream.at (x : Stream) (slow : Bool) : Stream := { x with stowed := slow }

/-- The tick that comes next, whether or not it has come. -/
def Stream.tick (x : Stream) : Option Tick :=
  match x.due with
  | t :: _ => some t
  | [] => if beatClocked x.defn then some { at_ := x.next, place := x.next, slow := x.stowed, gap := false, val := 0, flags := 0 } else none

/-- The edge before which source samples count for a stream that closes at `e`: the block that has begun is completed, since its slot
holds its whole block (DEDUCED, from R141 and R152). -/
def Stream.lastSrc (x : Stream) (e : Nat) : Nat := if x.defn.reduce = 1 then gridCeil x.period x.phase e else e

/-- The tick of the stream that is next and can be formed (R103, R141). -/
def State.tickDue (s : State) (x : Stream) : Option Tick :=
  x.tick.filter (fun t =>
    t.place + s.formDelay x.defn (x.at t.slow).rateK ≤ s.now && x.openAt ≤ t.place && x.closeAt.all (fun q => t.place < x.lastSrc q.1))

/-- Pass to the next tick. -/
def Stream.advance (x : Stream) : Stream :=
  if x.due.isEmpty then (if beatClocked x.defn then { x with next := x.next + x.srcPeriod } else x) else { x with due := x.due.drop 1 }

/-- The ticks of the grid in force that lie before `e` wait. -/
def Stream.leaveGrid (x : Stream) (e : Nat) : Stream :=
  if !beatClocked x.defn || e ≤ x.next then x
  else
    let p := x.srcPeriod
    let n := (e - x.next + (p - 1)) / p
    { x with next := x.next + n * p,
             due := x.due ++ (List.range n).map (fun j =>
               ({ at_ := x.next + j * p, place := x.next + j * p, slow := x.stowed, gap := false, val := 0, flags := 0 } : Tick)) }

/-- No tick of the stream before `e` remains to be processed. -/
def State.ahead (s : State) (x : Stream) (e : Nat) : Bool :=
  match x.tick with
  | some t => decide (e ≤ t.place)
  | none => e ≤ s.now && !(x.defn.clock = 2 && s.mtBefore x.defn.index e)

/-! ## Slots that leave the reduction -/

/-- A slot is formed outside regular records: numbering, SEEN and the bark of the first slot. -/
def countSlots (s : State) (i : Nat) (ws : List SlotV) : State :=
  match s.stream i with
  | none => s
  | some x =>
    let fl := ws.foldl (fun n w => orFlags n w.flags) 0
    let t := (s.setStream i (some { x with began := x.began || !ws.isEmpty, brk := false, seq := x.seq + ws.length })).wr (Reg.RD_STREAM_STAT_SEEN i)
      (orFlags (s.rd (Reg.RD_STREAM_STAT_SEEN i)) fl)
    if !x.began && !ws.isEmpty then t.bark 1 0x0130 false [i] else t

/-- A whole record of its own: a closed table, or slots of a capture window; `p` is the place of its first slot. -/
def wholeRec (s : State) (i : Nat) (p : Nat) (ws : List SlotV) (table : Bool) : State :=
  let s := breakTo s i p
  match s.stream i with
  | none => s
  | some x =>
    if ws.isEmpty then s
    else
      let r : Rec := { seq := x.seq, place := p, stow := false, slots := ws, run := none, brk := x.brk }
      closeRec (countSlots (s.setStream i (some { x with rcd := some r })) i ws) i table (!table)

/-- The table of an angle-bin stream closes at edge `e`, with the stamp `at_` (R155). -/
def closeTable (s : State) (i : Nat) (e at_ : Nat) : State :=
  match s.stream i with
  | none => s
  | some x =>
    let ws := (List.range (2 ^ x.defn.redArg)).map (fun b =>
      let a := x.bins.get {} b
      slotOf x 0 at_ (if a.n = 0 then { r := 0, w := 0, flags := 0 } else { r := a.value x.defn.stat, w := 0, flags := a.flags }))
    wholeRec (s.setStream i (some { x with bins := [] })) i e ws true

/-- The slots of a window as records: one, unless a break parts it (R43, R149, R156). -/
def windowRecs (s : State) (i : Nat) : List Nat → List (Nat × SlotV) → State
  | [], ws => match ws with | [] => s | w :: _ => wholeRec s i w.1 (ws.map (fun q => q.2)) false
  | b :: bs, ws =>
    let u := match ws.filter (fun q => q.1 < b) with | [] => s | w :: r => wholeRec s i w.1 ((w :: r).map (fun q => q.2)) false
    windowRecs u i bs (ws.filter (fun q => b ≤ q.1))

/-- The open capture window closes (R156). -/
def closeWindow (s : State) (i : Nat) : State :=
  match s.stream i with
  | none => s
  | some x => match x.win with
    | none => s
    | some w => windowRecs (s.setStream i (some { x with win := none, hist := [] })) i x.breaks w.1

/-- A capture trigger that is not taken (R157). -/
def captIgnored (s : State) (i : Nat) : State := (s.count Reg.RD_CNT_CAPT_IGNORED).barkEvery cclkSec i 1 0x0133 false [i]

def capPre (d : SDef) : Nat := d.ra % 65536
def capPost (d : SDef) : Nat := d.ra / 65536 % 65536

/-- How many triggers fall on the sample at place `p` (R156). -/
def triggers (x : Stream) (p : Nat) (w : SlotV) (y : Int) : Nat :=
  let d := x.defn
  let used := usable d w.flags
  let crossed (up : Bool) : Bool := match x.prevUsed, real32 d.rb with
    | some p, some th => used && (if up then p < th && th ≤ y else th ≤ p && y < th)
    | _, _ => false
  if d.trig = 0 then (x.trigs.filter (fun t => t ≤ p)).length
  else b2n (if d.trig = 1 then crossed true else if d.trig = 2 then crossed false else bit w.flags d.trigFlag && !bit x.prevFlags d.trigFlag)

/-- The sample joins the open window, or opens one, or stays in the history, which begins after the stream's first tick (R156, R157). -/
def captureWindow (s : State) (i : Nat) (x : Stream) (p : Nat) (w : SlotV) (n : Nat) : State :=
  let d := x.defn
  let ignored (t : State) (k : Nat) : State := (List.range k).foldl (fun u _ => captIgnored u i) t
  match x.win with
  | none =>
    if n = 0 then s.setStream i (some { x with hist := if x.ticked then ((p, w) :: x.hist).take (capPre d) else x.hist })
    else
      let t := s.setStream i (some { x with win := some (x.hist.reverse ++ [(p, w)], capPost d), hist := [] })
      let t := if optRETRIG d then t else ignored t (n - 1)
      if capPost d = 0 then closeWindow t i else t
  | some q =>
    let ws := q.1 ++ [(p, w)]
    let long := decide (65535 < ws.length + capPost d)
    let left := if n ≠ 0 && optRETRIG d then (if long then 65535 - ws.length else capPost d) else q.2 - 1
    let t := s.setStream i (some { x with win := some (ws, left) })
    let t := if !optRETRIG d || long then ignored t n else t
    if left = 0 then closeWindow t i else t

/-- One sample of a capture stream. The last good value of a BLANKED slot is the last word with VALID, whatever its other flags (DESIGN
CHOICE: R96 does not say which value is good). -/
def captureSample (s : State) (i : Nat) (x : Stream) (p : Nat) (w : SlotV) (y : Int) : State :=
  let d := x.defn
  let y' := { x with prevUsed := if usable d w.flags then some y else x.prevUsed, prevFlags := w.flags, trigs := x.trigs.filter (fun t => p < t),
                     good := if hasFlag w.flags fVALID then w.word else x.good }
  captureWindow s i y' p w (triggers x p w y)

/-- VALID values are kept as long as a sample may ask for them: 64 s, and the last one before (R99, R145). -/
def keepValid (now : Nat) (l : List (Nat × Int)) : List (Nat × Int) :=
  let r := l.takeWhile (fun q => now < q.1 + 64 * cclkSec)
  r ++ ((l.drop r.length).take 1)

/-- The last VALID value, for thermocouples, the loop engine and HOME; a home event where it crosses a threshold (R267). -/
def noteValue (s : State) (i : Nat) (p : Nat) (w : SlotV) (y : Int) : State :=
  match s.stream i with
  | none => s
  | some x =>
    if !hasFlag w.flags fVALID then s
    else
      let t := s.setStream i (some { x with lastValid := keepValid s.now ((p, y) :: x.lastValid) })
      match x.lastValid with
      | [] => t
      | q :: _ => homeEvent t (fun h => h.source = 0 && h.stream = i && (match real32 h.thresh with
          | some th => if h.dir = 0 then q.2 < th && th ≤ y else th < q.2 && y ≤ th
          | none => false)) p

/-- Note the latest slot of a stream, for the loop engine (R236). -/
def noteSlot (s : State) (i : Nat) (p : Nat) (w : SlotV) (y : Int) : State :=
  let l := s.rd_.latest.get {} i
  let l : Latest := { at_ := p, val := y, flags := w.flags, seen := l.seen.put 0 w.flags (p + 1) }
  noteValue { s with rd_ := { s.rd_ with latest := s.rd_.latest.put {} i l } } i p w y

/-- The block under way yields its slot (R152, R153). -/
def emitBlock (s : State) (i : Nat) : State :=
  match s.stream i with
  | none => s
  | some x => match x.blk with
    | none => s
    | some b =>
      let v := blockSlot x b.acc
      let w := slotOf x 0 b.at_ v
      noteSlot (putSlot (s.setStream i (some { x with blk := none })) i b.place b.slow w) i b.place w v.r

/-- Stamp and place of the block that a tick belongs to. -/
def Stream.blockOf (x : Stream) (t : Tick) : Nat × Nat :=
  let b := t.at_ / (x.at t.slow).period * (x.at t.slow).period
  (b, b + t.place - t.at_)

/-- What waits for the ticks before it, and has them now: tables that have closed, a block whose last sample has come, breaks. -/
def streamSettle (s : State) (i : Nat) : State :=
  match s.stream i with
  | none => s
  | some x =>
    let done := x.tabCloses.filter (fun q => s.ahead x q.1)
    let t := done.foldl (fun u q => closeTable u i q.1 q.2) (s.setStream i (some { x with tabCloses := x.tabCloses.filter (fun q => !s.ahead x q.1) }))
    let t := if x.blk.any (fun b => x.tick.all (fun k => (x.blockOf k).1 ≠ b.at_)) then emitBlock t i else t
    match t.stream i with
    | none => t
    | some y => if y.defn.reduce ≤ 1 && y.blk.isNone then
        (match (y.breaks.filter (fun b => s.ahead y b)).getLast? with | some b => breakTo t i b | none => t) else t

/-- A sample reaches the reduction (R138). -/
def reduceSample (s : State) (i : Nat) (full : Int) (t : Tick) (v : SVal) : State :=
  match s.stream i with
  | none => s
  | some x =>
    let d := x.defn
    if d.reduce = 1 then
      let q := x.blockOf t
      let b := match x.blk with
        | some b => if b.at_ = q.1 then b else { place := q.2, at_ := q.1, slow := t.slow, acc := {} }
        | none => { place := q.2, at_ := q.1, slow := t.slow, acc := {} }
      s.setStream i (some { x with blk := some { b with acc := b.acc.add d v.r v.flags } })
    else if d.reduce = 2 then
      let θ := match x.angles.find? (fun q => q.1 = t.place) with | some q => q.2 | none => none
      let x := { x with angles := x.angles.filter (fun q => t.place < q.1) }
      match θ with
      | none => s.setStream i (some x)
      | some a =>
        let b := (a + 2 ^ 32 - d.ra % 2 ^ 32) % 2 ^ 32 * 2 ^ d.redArg / 2 ^ 32
        s.setStream i (some { x with bins := Sparse.put ({} : Accum) b ((Sparse.get ({} : Accum) b x.bins).add d v.r v.flags) x.bins })
    else
      let w := slotOf x full t.at_ v
      let u := if d.reduce = 3 then captureSample s i x t.place w v.r else putSlot s i t.place t.slow w
      noteSlot u i t.place w v.r

/-- Curve and scaling of a source value (R144 to R150), in binary64. A value that is not VALID passes by. -/
def linearise (s : State) (i : Nat) (x : Stream) (e : Nat) (v : SVal) : State × SVal :=
  if !hasFlag v.flags fVALID then (s.setStream i (some { x with clamped := false }), v)
  else
    let c := s.curve x.defn x.openAt e (rnd64 v.r 1)
    let fl := if c.2.1 || c.2.2 then orFlags v.flags fOVERRANGE else v.flags
    let t := s.setStream i (some { x with clamped := c.2.1 })
    let t := if c.2.1 && !x.clamped then (t.count Reg.RD_CNT_CURVE_DOMAIN).barkEvery cclkSec i 1 0x0135 true [i] else t
    (t.fresh, { v with r := scaled x.defn c.1, flags := fl })

/-- The state that RD_STREAM_STAT shows (R141). -/
def showStream (s : State) (i : Nat) (off : Bool) : State :=
  match s.stream i with
  | none => s.clr (Reg.RD_STREAM_STAT_STATE i)
  | some x => s.wr (Reg.RD_STREAM_STAT_STATE i) (if x.closeAt.isSome then 4 else if x.waitTod || s.now < x.openAt then 1 else if off then 3 else 2)

/-! ## Load (R143) -/

def curveCost (n : Nat) : Nat :=
  let k := curveKind n
  if k = 0 then 1 else if k = 3 then 2 else if k = 1 then 6 else 3

/-- Samples per second in 2^-16: angle and conversion clocks have no rate of their own, and count none. -/
def rate16 (d : SDef) : Nat := if d.clock = 0 then 64000 * 2 ^ (16 - min 16 d.clockArg) else if d.clock = 3 then 1024000 * 2 ^ 16 else 0

/-- A converter stream that carries the k = 6 instance of R161. -/
def stowInstance (d : SDef) : Bool := d.kind = 0 && d.clock = 0 && d.reduce = 0 && d.clockArg < 6 && !optSTOW_KEEP d

/-- The load of a stream in 2^-16 units per second. -/
def loadOf (d : SDef) : Nat :=
  let src := rate16 d * (curveCost d.curve + (if d.reduce = 0 then 0 else 1))
  let slots := if d.reduce = 0 then rate16 d else if d.reduce = 1 then rate16 d / 2 ^ d.redArg else 0
  src + slots + (if stowInstance d then 1000 * 2 ^ 16 * curveCost d.curve + 1000 * 2 ^ 16 else 0)

/-- What block streams share (R152): the definition without STREAM_ID, STAT, FORMAT, Q, REC_COUNT and REC_AGE. -/
def blockKey (d : SDef) : Option SDef :=
  if d.reduce = 1 then some { d with id := 0, stat := 0, format := 0, q := 0, recCount := 0, recAge := 0 } else none

def State.defs (s : State) : List SDef := s.openStreams.filterMap (fun i => (s.stream i).map (fun x => x.defn))

/-- The committed load, each shared block counted once. -/
def totalLoad (l : List SDef) : Nat :=
  let shared := ((l.filter (fun d => d.reduce = 1)).map (fun d => (blockKey d, loadOf d))).eraseDups
  let own := (l.filter (fun d => d.reduce ≠ 1)).map loadOf
  own.sum + (((shared.map (fun q => q.1)).eraseDups).map (fun k => ((shared.find? (fun q => q.1 = k)).map (fun q => q.2)).getD 0)).sum

/-- RD_STAT. -/
def showLoad (s : State) : State :=
  (s.wr Reg.RD_STAT_OPEN s.openStreams.length).wr Reg.RD_STAT_LOAD_PCT
    (rne ((totalLoad s.defs * 100 : Nat) : Int) (100000000 * 2 ^ 16)).toNat

/-! ## Closing (R141) -/

/-- No tick before the instant of STREAM_CLOSE remains. -/
def State.drained (s : State) (x : Stream) : Bool :=
  match x.closeAt with
  | none => false
  | some q => q.1 ≤ s.now && (s.ahead x (x.lastSrc q.1) || (q.1 ≤ x.openAt && x.due.isEmpty))

/-- The stream ends: its last record closes, with what it holds, and the command completes. -/
def finishClose (s : State) (i : Nat) : State :=
  match s.stream i with
  | none => s
  | some x =>
    if !s.drained x then s
    else
      let e := (x.closeAt.map (fun q => q.1)).getD s.now
      let t := emitBlock s i
      let t := if x.defn.reduce = 2 then closeTable t i e e else if x.defn.reduce = 3 then closeWindow t i else closeRec t i false false
      let y := (t.stream i).getD x
      let t := t.setStream i none
      let t := { t with rd_ := { t.rd_ with lastSeq := t.rd_.lastSeq.put 0 i y.seq } }
      let t := t.modBuf x.buf (fun b => { b with users := b.users - 1 })
      let t := { t with kn := { t.kn with ckpts := t.kn.ckpts.put none i none } }
      let t := showLoad (showStream (t.bark 1 0x0131 false [i]) i false)
      t.completeO (x.closeAt.map (fun q => q.2)) .ok (if y.seq = 0 then 0xFFFFFFFF else y.seq - 1)

/-! ## STREAM_TICK (R159) -/

/-- The source value of a tick: none for a gap, OFFLINE for a raw stream in STOW (R161), the result for a conversion, and otherwise what
the source gives. -/
def State.tickValue (s : State) (x : Stream) (t : Tick) (v div : Int) (ψ : Nat) (ovr : Bool) : SVal :=
  let d := x.defn
  if t.gap then { r := 0, w := 0, flags := 0 }
  else if d.clock = 3 && t.slow && !optSTOW_KEEP d then svOffline
  else if d.kind = 2 then { r := t.val, w := 0, flags := t.flags }
  else s.source d (x.at t.slow).rateK t.place v div ψ ovr

/-- One tick of stream `i`: `v` is what its converter or excitation source gives at the tick (for I and Q the amplitude of the input,
with the phase `ψ`), `div` the divisor of a ratio, `ovr` that the input was beyond range. -/
def streamTick (s : State) (i : Nat) (v div : Int) (ψ : Nat) (ovr : Bool) : State :=
  match s.stream i with
  | none => s
  | some x =>
    if !s.sampling || !s.domOn 27 || x.waitTod then s
    else match s.tickDue x with
      | none => finishClose s i
      | some t =>
        let sv := s.tickValue x t v div ψ ovr
        let r := linearise s i x.advance t.place sv
        let full := if x.defn.kind = 0 then s.fullScale (x.defn.index / 32) (x.defn.index % 32) else 0
        let u := streamSettle ((reduceSample r.1 i full t r.2).modStream i (fun y => { y with ticked := true })) i
        finishClose (showStream u i (hasFlag sv.flags fOFFLINE)) i

def execStreamTick (i : Nat) (v div : Int) (ψ : Nat) (ovr : Bool) (s : State) : Host.Outcome State Fault Refusal :=
  guardItem (i < 1024) (answer s (streamTick s i v div ψ ovr))

/-! ## Angle clocks and captures (R54, R55, R156, R159) -/

/-- The stream is open at `e`. -/
def Stream.openAtEdge (x : Stream) (e : Nat) : Bool := !x.waitTod && x.openAt ≤ e && x.closeAt.all (fun q => e < q.1)

/-- An instant of generator `gen`: a tick, or a gap, of every stream it clocks. -/
def angleTick (s : State) (gen : Nat) (e : Nat) (gap : Bool) : State :=
  s.openStreams.foldl (fun u i => u.modStream i (fun x =>
    if x.defn.clock = 1 && x.defn.clockArg = gen && x.openAtEdge e then
      { x with due := x.due ++ [{ at_ := e, place := e, gap := gap, val := 0, flags := 0 }] } else x)) s

/-- A late or missed instant (R54, R55). -/
def angleGap (s : State) (_hub gen : Nat) (e : Nat) : State := angleTick s gen e true

/-- A scheduler capture event that names the stream (R154, R156): it closes the table, whose count resets, or triggers a capture. -/
def captureEvent (s : State) (i : Nat) (e : Nat) : State :=
  streamSettle (s.modStream i (fun x =>
    if !x.openAtEdge e then x
    else if x.defn.reduce = 2 then { x with tabCloses := x.tabCloses ++ [(e, e)], cross := 0 }
    else if x.defn.reduce = 3 && x.defn.trig = 0 then { x with trigs := x.trigs ++ [e] } else x)) i

/-! ## STREAM_OPEN (R141 to R143) -/

/-- The part a source lies on. -/
def sourcePart (d : SDef) : Option Nat :=
  if d.kind = 0 then some (d.index / 32) else if d.kind = 1 then some (d.index / 8) else if d.kind = 2 then some 19
  else if d.kind = 3 then some (16 + d.index / 16) else if d.kind = 4 then some (16 + d.index / 8) else if d.kind = 6 then some 18 else none

/-- SRC_KIND, SRC_OUT, SRC_INDEX of R140. -/
def sourceOk (d : SDef) : Bool :=
  (d.kind = 0 && d.out ≤ 4 && d.index < 512) || (d.kind = 1 && d.out ≤ 1 && d.index < 128) || (d.kind = 2 && d.out = 0 && d.index < 32)
    || (d.kind = 3 && d.out ≤ 2 && d.index < 32) || (d.kind = 4 && d.out ≤ 2 && d.index < 16)
    || (d.kind = 5 && ((d.out ≤ 1 && d.index < 64) || (d.out = 2 && d.index < 16))) || (d.kind = 6 && d.out ≤ 1 && d.index < 16)
    || (d.kind = 7 && ((d.out = 0 && d.index < 24) || (1 ≤ d.out && d.out ≤ 3 && d.index = 0)))

/-- The clocks of R140. -/
def clockOk (s : State) (d : SDef) : Bool :=
  let beat := decide (d.clock = 0) && decide (d.clockArg ≤ 16)
  let gen := decide (d.clock = 1) && decide (d.clockArg < 64) && (s.flag (Reg.TB_ANG_EN d.clockArg) || s.tb.remoteGens.contains d.clockArg)
  if d.kind = 0 then
    if d.out ≤ 2 then beat || gen || (d.out = 0 && d.clock = 3 && d.clockArg = 0) else beat
  else if d.kind = 2 then d.clock = 2 && d.clockArg = 0
  else if d.kind = 3 || d.kind = 4 then beat || gen
  else beat

/-- Filter instances of converter `ch` (R98): output, filter and rate, with those that R161 adds. R is filtered where its definition sets
FILTER (DEDUCED: FILTER 0 of an output without filters is R139's 0 otherwise). -/
def filterUses (ch : Nat) (l : List SDef) : List (Nat × Nat × Nat) :=
  ((l.filter (fun d => d.kind = 0 && d.index = ch && (d.out ≤ 2 || (d.out = 3 && d.filter = 1)) && (d.clock = 0 || d.clock = 1))).flatMap (fun d =>
    (d.out, d.filter, if d.clock = 0 then d.clockArg else 0) :: (if stowInstance d then [(d.out, d.filter, 6)] else []))).eraseDups

/-- The rate limits of R79, R84 and R104 are kept. -/
def rateOk (s : State) (d : SDef) : Bool :=
  let f := d.index / 32
  let c := d.index % 32
  if d.kind ≠ 0 then true
  else if d.out = 1 || d.out = 2 then
    d.filter = 1 || d.clock ≠ 0
      || 640000 * 2 ^ 33 ≤ 36 * 750 * s.act (Reg.FC_EXC_CFG_FREQ f (s.act (Reg.FC_CH_CFG_DEMOD_SRC f c))) * 2 ^ d.clockArg
  else if d.out = 3 then
    s.act (Reg.FC_CH_CFG_LEAD f c) ≠ 0 && d.clockArg = s.act (Reg.FC_EXC_CFG_SWAP_HALF f (s.act (Reg.FC_CH_CFG_LEAD_SRC f c))) + 1
  else if d.clock = 3 then
    let raws := (s.defs.filter (fun x => x.clock = 3)).length
    let hubs := s.rd Reg.OV_PACK_STAT_RAW_HUBS
    s.follows && raws < 32 && !(raws = 0 && 16 ≤ hubs)
  else true

/-- The formats that are not linearised. -/
def plainFormat (d : SDef) : Bool := d.format = fANG32 || d.format = fSPD32 || d.format = fU32

/-- CURVE is listed and active, with a cold junction or R0 that R145 and R146 accept. -/
def curveOk (s : State) (d : SDef) : Bool :=
  let k := curveKind d.curve
  if k = 0 then true
  else if k = 6 || plainFormat d || d.format = fRAW24 then false
  else if k = 1 then optCJ_FIXED d || (d.cj % 1024 ≠ d.id && (s.stream (d.cj % 1024)).isSome)
  else if d.curve = 16 then d.cj ≠ 0
  else !(s.rd_.act.get [] d.curve).isEmpty

/-- FORMAT of R151. -/
def formatOk (d : SDef) : Bool :=
  let angle := decide (d.kind = 3) && decide (d.out = 0)
  let frac := decide (d.kind = 4) && decide (d.out = 0)
  let cnt := decide (d.kind = 4) && decide (d.out = 2)
  let nvalid := (d.reduce = 1 || d.reduce = 2) && d.stat = 7
  decide (-32 ≤ d.q) && decide (d.q ≤ 31)
    && (if nvalid then d.format = fU32
        else if d.format = fF32 || d.format = fS32 then !angle && !frac && !cnt
        else if d.format = fRAW24 then d.kind = 0 && d.out = 0 && d.curve = 0 && (d.reduce = 0 || d.reduce = 3)
        else if d.format = fANG32 then angle || frac
        else if d.format = fSPD32 then d.kind = 3 && d.out = 1
        else d.format = fU32 && d.kind = 4 && (d.out = 1 || d.out = 2))

/-- The reduction's parameters. -/
def reduceOk (s : State) (d : SDef) : Bool :=
  let count (r : Nat) : Nat := (s.defs.filter (fun x => x.reduce = r)).length
  if d.reduce = 0 then d.redArg = 0
  else
    d.clock = 0 && (d.format ≠ fANG32 || d.reduce = 3)
      && (if d.reduce = 1 then 1 ≤ d.redArg && d.redArg ≤ 16 && d.clockArg + d.redArg ≤ 16 && 1 ≤ d.stat && d.stat ≤ 8 && 1 ≤ d.ra % 65536
          else if d.reduce = 2 then
            2 ≤ d.redArg && d.redArg ≤ 12 && 1 ≤ d.stat && d.stat ≤ 8 && 1 ≤ d.rb % 65536 && count 2 < 32
              && (if bit d.rb 31 then bits d.rb 16 15 < 16 && s.rd (partFld (16 + bits d.rb 16 15 / 8)) ≠ pNONE
                  else bits d.rb 16 15 < 32 && s.rd (partFld (16 + bits d.rb 16 15 / 16)) ≠ pNONE)
          else d.reduce = 3 && d.redArg = 0 && d.trig ≤ 3 && d.trigFlag ≤ 7 && capPre d + capPost d + 1 ≤ 65535 && capPre d ≤ 16384 && count 3 < 64)

/-- Every condition of R142 is met. -/
def openOk (s : State) (d : SDef) : Bool :=
  d.id < 1024 && (s.stream d.id).isNone && sourceOk d
    && (match sourcePart d with | some p => s.rd (partFld p) ≠ pNONE | none => true)
    && clockOk s d && (d.filter = 0 || (d.filter = 1 && d.kind = 0 && d.out ≤ 3))
    && (d.kind ≠ 0 || (filterUses d.index (s.defs ++ [d])).length ≤ 4)
    && rateOk s d && curveOk s d && formatOk d && reduceOk s d
    && 1 ≤ d.recCount && d.recCount ≤ 4096 && 1 ≤ d.recAge && d.recAge ≤ 10000
    && (real64 d.gain).isSome && (real64 d.offset).isSome && d.opts < 64 && d.tail.all (fun b => b % 256 = 0)
    && totalLoad (s.defs ++ [d]) ≤ 100000000 * 2 ^ 16

/-- A buffer's table entry is in use and valid (R318). -/
def entryOk (entry : List Nat) : Bool :=
  let l := leAt entry 8 1
  let v := leAt entry 9 1
  leAt entry 0 8 % 4096 = 0 && 16 ≤ l && l ≤ 30 && (v = 0 || (4 ≤ v && v ≤ 63)) && (entry.drop 10).all (fun b => b % 256 = 0)

/-- A stream or a REPLAY takes a buffer into use; when nothing used it, its entry is read and HEAD := TAIL (R318). -/
def useBuf (s : State) (b : Nat) (entry : List Nat) : State :=
  s.modBuf b (fun x =>
    if x.users = 0 then { x with base := leAt entry 0 8, log2 := leAt entry 8 1, vec := leAt entry 9 1, head := x.tail, users := 1 }
    else { x with users := x.users + 1 })

/-- The buffer may be named: in use already, or with a good entry. -/
def bufOk (s : State) (b : Nat) (entry : List Nat) : Bool := b < 256 && (0 < (s.sbuf b).users || entryOk entry)

/-- The place of the first slot that is not formed yet, of a beat or raw clock. -/
def Stream.waiting (x : Stream) : Nat :=
  match x.blk, x.due with
  | some b, _ => b.place
  | none, t :: _ => t.place
  | none, [] => x.next

/-- The checkpoint of an open stream (R365). -/
def ckptOf (x : Stream) (final : Bool) : Ckpt :=
  { defn := x.raw, buf := x.buf, at_ := if beatClocked x.defn then x.waiting else x.openAt, seq := x.seq, confirmed := x.conf, final := final }

def checkpoint (s : State) (i : Nat) (final : Bool) : State :=
  { s with kn := { s.kn with ckpts := s.kn.ckpts.put none i ((s.stream i).map (fun x => ckptOf x final)) } }

/-- How far the stamps of a stream lie before multiples of their period: those of raw samples lie 1/409,600 s and τa before the outputs, as
τa stands at the opening (R104). -/
def State.phaseOf (s : State) (d : SDef) : Nat := if d.clock = 3 then s.rawDelay d.index % 240 else 0

/-- The stream opens at edge `e`, with SEQ 0. -/
def openStream (s : State) (d : SDef) (raw : List Nat) (buf : Nat) (e : Nat) : State :=
  let x : Stream := { defn := d, raw := raw, buf := buf, openAt := e, next := e, phase := s.phaseOf d }
  let t := s.setStream d.id (some { x with next := x.gridFrom e })
  let t := { t with rd_ := { t.rd_ with store := t.rd_.store.put [] d.id [], lastDef := t.rd_.lastDef.put [] d.id raw } }
  checkpoint (showLoad (showStream t d.id false)) d.id false

/-- STREAM_OPEN with the 56 bytes of its definition and the buffer's table entry, both as read from the host. The opening is a
time-domain event (R48, R49); one that comes late opens the stream at its instant all the same (R141, R149). -/
def streamOpen (s : State) (h : CmdHdr) (raw : List Nat) (buf : Nat) (entry : List Nat) : State :=
  let t := s.begin h
  let d := parseDef raw
  let e := instEdge s.now h.inst
  let go (u : State) : State := (openStream (useBuf u buf entry) d raw buf e).complete h .ok
  if t.barred then t.refuse h .modeForbids
  else if raw.length ≠ 56 || !openOk t d || !bufOk t buf entry then t.refuse h .badParam
  else if h.inst = .none then go t
  else match schedJudge t e with
    | .late => go (schedLate t)
    | .entered => go (schedEnter t e (.streamOpen d.id))
    | .refused => (t.bark 2 0x020A true []).refuse h .badParam
    | .full => (t.bark 2 0x020D true []).refuse h .badParam

def execStreamOpen (h : CmdHdr) (raw : List Nat) (buf : Nat) (entry : List Nat) (s : State) : Host.Outcome State Fault Refusal :=
  answer s (streamOpen s h raw buf entry)

/-- STREAM_CLOSE: ends the stream at its instant. -/
def streamClose (s : State) (h : CmdHdr) (i : Nat) : State :=
  let t := s.begin h
  if t.barred then t.refuse h .modeForbids
  else match t.stream i with
    | none => t.refuse h .badParam
    | some x =>
      if 1024 ≤ i || x.closeAt.isSome then t.refuse h .badParam
      else
        let e := instEdge s.now h.inst
        let mark (u : State) : State := checkpoint (showStream (u.setStream i (some { x with closeAt := some (e, h) })) i false) i false
        if h.inst = .none then finishClose (mark t) i
        else match schedJudge t e with
          | .late => finishClose (mark (schedLate t)) i
          | .entered => schedEnter (mark t) e (.streamClose i)
          | .refused => (t.bark 2 0x020A true []).refuse h .badParam
          | .full => (t.bark 2 0x020D true []).refuse h .badParam

def execStreamClose (h : CmdHdr) (i : Nat) (s : State) : Host.Outcome State Fault Refusal := answer s (streamClose s h i)

/-! ## REPLAY (R321) -/

/-- Mark an encoded record REPLAY, not LATE, and compute its HCRC again. -/
def markReplay (b : List Nat) : List Nat :=
  let head := (b.take 28).set 7 (orFlags (b.getD 7 0) 32 % 256)
  head ++ leBytes 4 (crc32 head) ++ b.drop 32

/-- The records of a replay: those retained that hold a slot from `first` to `last`, and a gap run for what has aged out before. -/
def replayRecords (s : State) (i buf first last : Nat) : List RecOut :=
  let kept := (s.rd_.store.get [] i).filter (fun r => first < r.seq + r.n && r.seq ≤ last)
  let d := parseDef (s.rd_.lastDef.get [] i)
  let lo := match s.rd_.store.get [] i with | r :: _ => r.seq | [] => last + 1
  let gap := if first < lo then
      let n := min lo (last + 1) - first
      let e := match kept with | r :: _ => edgeOf (at96Of (leAt r.data 16 12)) | [] => s.now
      [runRecord s d buf i first n false false true false e]
    else []
  gap ++ kept.map (fun r => { r with buf := buf, data := markReplay r.data, late := false, replay := true })

/-- SEQ after the last slot formed of the most recent opening; none where the stream was never opened. -/
def State.formed (s : State) (i : Nat) : Option Nat :=
  match s.stream i with
  | some x => some (match x.rcd with | some r => r.seq | none => x.seq)
  | none => if (s.rd_.lastDef.get [] i).isEmpty then none else some (s.rd_.lastSeq.get 0 i)

def replayCmd (s : State) (h : CmdHdr) (i buf first last : Nat) (entry : List Nat) : State :=
  let t := s.begin h
  if t.barred then t.refuse h .modeForbids
  else match t.formed i with
    | none => t.refuse h .badParam
    | some n =>
      if last < first || 8 ≤ t.hp.replays.length || !bufOk t buf entry then t.refuse h .badParam
      else
        let rs := if n = 0 || n ≤ first then [] else replayRecords t i buf first (min last (n - 1))
        if rs.isEmpty then t.complete h .ok 0
        else
          let t := useBuf t buf entry
          let t := t.modBuf buf (fun b => { b with queue := b.queue ++ rs })
          { t with hp := { t.hp with replays := t.hp.replays ++ [{ hdr := h, stream := i, buf := buf, left := rs.length, done := 0 }] } }

def execReplay (h : CmdHdr) (i buf first last : Nat) (entry : List Nat) (s : State) : Host.Outcome State Fault Refusal :=
  answer s (replayCmd s h i buf first last entry)

/-! ## Rates, restarts and checkpoints (R28, R160, R161, R365) -/

/-- The stream runs at a reduced rate in STOW (R161). -/
def stowReduced (d : SDef) : Bool :=
  (d.clock = 0 && d.reduce = 0 && d.clockArg < 6 && !optSTOW_KEEP d) || (d.reduce = 1 && d.clockArg + d.redArg < 6)
    || (d.clock = 3 && !optSTOW_KEEP d)

/-- The stream after its rate changes at `e`: the ticks before wait at the rate they had; a block that begins here is one of the new rate. -/
def Stream.takeRate (x : Stream) (on : Bool) (e : Nat) : Stream :=
  let y := x.leaveGrid e
  let z := { y with stowed := on, breaks := y.breaks ++ [e], blk := y.blk.map (fun b => if e ≤ b.place then { b with slow := on } else b) }
  if x.defn.clock = 3 || x.defn.reduce = 1 then z else { z with next := gridCeil z.srcPeriod z.phase (if x.next ≤ e then e else e + 1) }

/-- A stream takes its reduced rate in STOW, or its defined rate again: the record closes, and the next carries BREAK. -/
def stowRate (s : State) (i : Nat) : State :=
  match s.stream i with
  | none => s
  | some x =>
    let on := decide (s.mode = mSTOW)
    if x.stowed = on || !stowReduced x.defn then s else streamSettle (s.setStream i (some (x.takeRate on s.now))) i

def execStowRateChange (s : State) : Host.Outcome State Fault Refusal :=
  answer s (if s.sampling then s.openStreams.foldl stowRate s else s)

/-- A run of `n` OFFLINE slots from `e` on, of ticks that could not be formed. -/
def offlineRun (s : State) (i n e : Nat) : State :=
  match s.stream i with
  | none => s
  | some x =>
    if n = 0 then s
    else deliver (s.setStream i (some { x with seq := x.seq + n, brk := false, began := true })) (runRecord s x.defn x.buf i x.seq n true true false x.isStowRate e)

/-- A stop closes the record under way (R28). Instants and conversions that wait for their samples then yield OFFLINE slots. -/
def streamSuspend (s : State) : State :=
  s.openStreams.foldl (fun u i =>
    match u.stream i with
    | none => u
    | some x =>
      let t := breakRec u i
      if beatClocked x.defn then t
      else match x.due with
        | [] => t
        | k :: _ => offlineRun (t.modStream i (fun y => { y with due := [] })) i x.due.length k.at_) s

/-- The slots that a beat or raw clock has missed up to its next tick at or after now: a block counts once, whatever it holds already. -/
def Stream.missed (x : Stream) (now : Nat) : Nat :=
  let p := x.period
  let started := (x.blk.map (fun b => b.at_)).toList
    ++ x.due.map (fun t => (x.blockOf t).1)
    ++ (if (x.next + x.phase) % p = 0 then [] else [(x.next + x.phase) / p * p])
  (if x.defn.reduce = 1 then started.eraseDups.length else x.due.length) + (x.gridFrom now - x.gridFrom x.next) / p

/-- A stream resumes (R28, R132, R160, R167): one offline run for the ticks it missed, then its next tick. Angle-bin and capture streams
yield no slots for that time, and an angle clock had no ticks. -/
def streamResume (s : State) (i : Nat) : State :=
  match s.stream i with
  | none => s
  | some x =>
    if x.waitTod then s
    else if x.defn.clock = 2 then
      let q := s.keptSlots x.defn.index
      offlineRun s i q.1 (s.now - (s.run - q.2))
    else if !beatClocked x.defn || s.now ≤ x.waiting then s
    else
      let t := s.setStream i (some { x with next := x.gridFrom s.now, due := [], blk := none, hist := [] })
      if x.defn.reduce ≥ 2 then t else offlineRun t i (x.missed s.now) x.waiting

def execStreamCheckpoint (s : State) : Host.Outcome State Fault Refusal :=
  answer s (s.openStreams.foldl (fun u i => checkpoint u i false) s)

/-- CJ_INVALID (R145): the cold junction of thermocouple stream `i` has had no VALID value for 10 s. -/
def cjInvalid (s : State) (i : Nat) : State :=
  match s.stream i with
  | none => s
  | some x =>
    let lost := curveKind x.defn.curve = 1 && (s.coldJunction x.defn x.openAt s.now).2
    if lost && !x.cjLost then
      ((s.setStream i (some { x with cjLost := true })).count Reg.RD_CNT_CJ_INVALID).bark 1 0x0136 true [i]
    else if !lost && x.cjLost then s.setStream i (some { x with cjLost := false })
    else s

def execCjInvalid (i : Nat) (s : State) : Host.Outcome State Fault Refusal := guardItem (i < 1024) (answer s (cjInvalid s i))

/-! ## User curves (R148, R149) -/

/-- The curve that RD_CURVE_SEL selects: below 32 acts as 32. -/
def State.curveSel (s : State) : Nat := max 32 (s.rd Reg.RD_CURVE_SEL_CURVE)

/-- Entry of the staging copy at ADDR. -/
def State.stgEntry (s : State) : Nat := Sparse.get 0 (s.rd Reg.RD_CURVE_ADDR_ADDR) (Sparse.get [] s.curveSel s.rd_.stg)

def setStgEntry (s : State) (v : Nat) : State :=
  let m : Sparse Nat := Sparse.put 0 (s.rd Reg.RD_CURVE_ADDR_ADDR) (v % 2 ^ 64) (Sparse.get [] s.curveSel s.rd_.stg)
  { s with rd_ := { s.rd_ with stg := s.rd_.stg.put [] s.curveSel m } }

def stepAddr (s : State) : State := s.wr Reg.RD_CURVE_ADDR_ADDR (s.rd Reg.RD_CURVE_ADDR_ADDR + 1)

/-- Status of the selected curve. -/
def showCurve (s : State) : State :=
  (s.wrB Reg.RD_CURVE_STAT_ACTIVE (!(s.rd_.act.get [] s.curveSel).isEmpty)).wrB Reg.RD_CURVE_STAT_IN_USE (s.defs.any (fun d => d.curve = s.curveSel))

/-- An access to RD_CURVE_DATA (R148): `part` 0 the lower word, 1 the upper word, 2 both; a read has no value. A lower word that is
written waits for its upper word (R414). -/
def curveData (s : State) (part : Nat) (w : Option Nat) : State :=
  let e := s.stgEntry
  let key := Reg.RD_CURVE_DATA_DATA.key
  let low := match s.hold.get 0 key with | 0 => e % 2 ^ 32 | v + 1 => v
  match w with
  | none =>
    let t := s.wr Reg.RD_CURVE_DATA_DATA e
    if part = 0 then t else stepAddr t
  | some v =>
    if part = 0 then { s with hold := s.hold.put 0 key (v % 2 ^ 32 + 1) }
    else
      let x := if part = 1 then low + v % 2 ^ 32 * 2 ^ 32 else v
      stepAddr ((setStgEntry { s with hold := s.hold.put 0 key 0 } x).wr Reg.RD_CURVE_DATA_DATA x)

def execRdCurveData (src : WrSrc) (part : Nat) (w : Option Nat) (s : State) : Host.Outcome State Fault Refusal :=
  answer s (match w with
    | none => if s.domOn 27 then curveData s part none else s
    | some v => s.write src .RD_CURVE_DATA 0 0 true (fun t => (curveData t part (some v)).journalB src .RD_CURVE_DATA 0 0
      (if part = 1 then 4 else 0) (leBytes (if part = 2 then 8 else 4) v)))

/-- The words of a staging copy that N entries use. -/
def curveWords (kind n : Nat) : Nat := if kind = 3 then 2 * n else if kind = 4 then 10 * n else if kind = 2 then 4 else 3

/-- N lies in its range (R148). -/
def curveN (kind n : Nat) : Bool := if kind = 3 then 2 ≤ n && n ≤ 512 else if kind = 4 then 1 ≤ n && n ≤ 8 else n = 1

/-- A binary64 pattern in the order of its numbers: an infinity lies beyond every finite number, and a NaN nowhere. -/
def realKey (w : Nat) : Option Int :=
  match real64 w with
  | some x => some x
  | none => if bits w 0 52 ≠ 0 then none else some (if bit w 63 then -((realMax + 1 : Nat) : Int) else (realMax + 1 : Nat))

def ltReal (a b : Nat) : Bool := match realKey a, realKey b with | some x, some y => decide (x < y) | _, _ => false
def eqReal (a b : Nat) : Bool := match realKey a, realKey b with | some x, some y => decide (x = y) | _, _ => false

/-- R(t) of R146 increases strictly from −200 to 850 °C: its derivative is not negative at the ends, at 0, and at its least value
below 0 °C. -/
def cvdRises (a b c : Int) : Bool :=
  let u : Int := (2 ^ 64 : Nat)
  let upper (t : Int) : Int := a + 2 * b * t
  let lower (t : Int) : Int := a * u * u * u + 2 * b * t * u * u + c * (4 * t * t * t - 300 * t * t * u)
  let inner : List Int :=
    if c = 0 then []
    else
      let num : Int := (3750 * c - b) * u * u
      let q : Int := if c < 0 then (-num) / (-(6 * c)) else num / (6 * c)
      if q < 0 then [] else
        let t : Int := 25 * u - (isqrtAny q.toNat : Nat)
        [t - 1, t, t + 1].filter (fun x => -200 * u ≤ x && x ≤ 0)
  0 ≤ upper 0 && 0 ≤ upper 850 && !(a = 0 && b = 0) && 0 ≤ lower (-200 * u) && inner.all (fun t => 0 ≤ lower t)

/-- The lowest reason code against a staging copy; 0 none (R149). -/
def curveReason (curve n : Nat) (l : List Nat) : Nat :=
  let k := curveKind curve
  let w (j : Nat) : Nat := l.getD j 0
  let fin := l.all (fun x => (real64 x).isSome)
  if !curveN k n then 1
  else if k = 3 && !(List.range (n - 1)).all (fun j => ltReal (w (2 * j)) (w (2 * j + 2))) then 2
  else if k = 4 && !(List.range (n - 1)).all (fun j => eqReal (w (10 * j + 1)) (w (10 * j + 10))) then 2
  else if !fin then 3
  else if k = 2 && entry l 0 ≤ 0 then 4
  else if k = 2 && !cvdRises (entry l 1) (entry l 2) (entry l 3) then 5
  else 0

/-- ACTIVATE, DELETE: refused with a reason. -/
def curveReject (s : State) (code : Nat) : State := showCurve ((s.wr Reg.RD_CURVE_STAT_REASON code).set Reg.RD_CURVE_STAT_REJECT)

/-- The earliest sample that a stream of curve `c` may still have: its next tick, or one of a stream that opens late (R49). -/
def State.oldest (s : State) (c : Nat) : Nat :=
  s.openStreams.foldl (fun m i => match s.stream i with
    | some x => if x.defn.curve = c then min m (match x.tick with | some t => t.place | none => x.openAt) else m
    | none => m) (s.now - s.lateMax)

/-- A copy becomes active at the next beat boundary, or at once on one; the copy before it stays while a sample may need it (R149). -/
def takeCurve (s : State) (c : Nat) (l : List Nat) : State :=
  let e := beatCeil s.now
  let old := s.rd_.act.get [] c
  let keep := ((if old.isEmpty then [] else [(e, old)]) ++ s.rd_.prev.get [] c).filter (fun q => s.oldest c < q.1)
  { s with rd_ := { s.rd_ with prev := s.rd_.prev.put [] c keep, act := s.rd_.act.put [] c l, actAt := s.rd_.actAt.put 0 c e } }

/-- The open streams that use curve `c` break at its activation (R149). -/
def curveBreak (s : State) (c : Nat) : State :=
  s.openStreams.foldl (fun u i => match s.stream i with
    | some x => if x.defn.curve = c then streamSettle (u.setStream i (some { x with breaks := x.breaks ++ [beatCeil s.now] })) i else u
    | none => u) s

/-- ACTIVATE (R149): a valid copy is active for samples from the boundary on; streams that use the curve break there. -/
def curveActivate (s : State) : State :=
  let c := s.curveSel
  let n := s.rd Reg.RD_CURVE_SEL_N
  let stg := s.rd_.stg.get [] c
  let l := (List.range (curveWords (curveKind c) n)).map (fun j => Sparse.get 0 j stg)
  let code := curveReason c n l
  if code ≠ 0 then curveReject s code
  else
    showCurve (((curveBreak (takeCurve s c l) c).set Reg.RD_CURVE_STAT_DONE).bark 1 0x0134 false [c])

def execRdCurveActivate (src : WrSrc) (s : State) : Host.Outcome State Fault Refusal :=
  answer s (s.write src .RD_CURVE_CTRL 0 0 true (fun t => (curveActivate t).journalW src .RD_CURVE_CTRL 0 0 1))

/-- DELETE: only while no open stream names the curve. -/
def curveDelete (s : State) : State :=
  let c := s.curveSel
  if s.defs.any (fun d => d.curve = c) then curveReject s 6
  else showCurve { s with rd_ := { s.rd_ with act := s.rd_.act.put [] c [], prev := s.rd_.prev.put [] c [], actAt := s.rd_.actAt.put 0 c 0 } }

def execRdCurveDelete (src : WrSrc) (s : State) : Host.Outcome State Fault Refusal :=
  answer s (s.write src .RD_CURVE_CTRL 0 0 true (fun t => (curveDelete t).journalW src .RD_CURVE_CTRL 0 0 2))

/-- REVERT: the active copy, or zeros, goes into the staging copy. -/
def curveRevert (s : State) : State :=
  let c := s.curveSel
  let m := ((s.rd_.act.get [] c).zipIdx).foldl (fun (m : Sparse Nat) q => m.put 0 q.2 q.1) []
  { s with rd_ := { s.rd_ with stg := s.rd_.stg.put [] c m } }

def execRdCurveRevert (src : WrSrc) (s : State) : Host.Outcome State Fault Refusal :=
  answer s (s.write src .RD_CURVE_CTRL 0 0 true (fun t => (curveRevert t).journalW src .RD_CURVE_CTRL 0 0 4))

def rdCnts : List Fld := [Reg.RD_CNT_GAP_RUNS, Reg.RD_CNT_CAPT_IGNORED, Reg.RD_CNT_CURVE_DOMAIN, Reg.RD_CNT_CJ_INVALID]

/-- RD_CNT_CLR: bits 0 to 3 the counters, bit 4 LOST of the selected stream, bit 5 LOST of every stream. -/
def rdCntClr (s : State) (clr : Nat) : State :=
  let t := s.clearCnts rdCnts clr
  let t := t.when (bit clr 4) (fun u => u.clr (Reg.RD_STREAM_STAT_LOST (u.rd Reg.RD_SEL_STREAM)))
  t.when (bit clr 5) (fun u => (List.range 1024).foldl (fun w i => w.clr (Reg.RD_STREAM_STAT_LOST i)) u)

def execRdCntClr (src : WrSrc) (clr : Nat) (s : State) : Host.Outcome State Fault Refusal :=
  answer s (s.write src .RD_CNT_CLR 0 0 false (fun t => (rdCntClr t clr).journalW src .RD_CNT_CLR 0 0 clr))

/-- A read of the first word of RD_VIEW latches the selected stream's definition and next SEQ (R413). -/
def viewLatch (s : State) : State :=
  match s.stream (s.rd Reg.RD_SEL_STREAM) with
  | some x => (s.wr Reg.RD_VIEW_DEF (leNat x.raw)).wr Reg.RD_VIEW_NEXT_SEQ x.seq
  | none => (s.clr Reg.RD_VIEW_DEF).clr Reg.RD_VIEW_NEXT_SEQ

def execRdViewLatch (s : State) : Host.Outcome State Fault Refusal := answer s (if s.domOn 27 then viewLatch s else s)

end Sys2Proof.Machine
end

