-- ==== Sys2Proof/Machine/Angles.lean ====
section
/-! DEFINITION. A loop update of the axis cards (R175 to R189, R219 to R224) and what follows from it on the same update: the
angle generators (R51 to R54) and the angle-bin streams (R154). -/

namespace Sys2Proof.Machine

/-! ## Angle sources -/

/-- What an angle source gives at this update: θ in 2^-32 turn and ω in Q8.24 turn/s, as latched. -/
structure AngNow where
  theta : Nat
  omega : Int

/-- The source of a generator or of an angle-bin stream at this update: a resolver channel, or the fused angle of a fine
position input modulo one turn; none where it is not valid. -/
def State.angNow (s : State) (fused : Bool) (i : Nat) : Option AngNow :=
  if fused then
    if s.fusedValid (i % 16) && s.axUp (i % 16 / 8) then
      some { theta := (s.pfi (i % 16)).f % 2 ^ 32, omega := rne (s.pfi (i % 16)).sW 65536 }
    else none
  else if s.rdcValid i && (s.rdc i).cur.valid then some { theta := (s.rdc i).cur.angle, omega := rne (s.rdc i).cur.speed 65536 }
  else none

/-! ## Angle generators (R51 to R54) -/

def State.angGen (s : State) (g : Nat) : AngGen := s.tb.gens.get {} g

def State.setGen (s : State) (g : Nat) (x : AngGen) : State := { s with tb := { s.tb with gens := s.tb.gens.put {} g x } }

/-- The grid exponent and the step of a generator in 2^-32 turn. -/
def State.gridK (s : State) (g : Nat) : Nat := min 16 (s.rd (Reg.TB_ANG_GRID g))
def State.gridStep (s : State) (g : Nat) : Nat := 2 ^ (32 - s.gridK g)

/-- LEAD in µs. -/
def State.angLead (s : State) (g : Nat) : Nat := max 1 (min 1000 (s.rd (Reg.TB_ANG_LEAD g)))

/-- DIR excludes a direction. -/
def State.angExcludes (s : State) (g : Nat) (fwd : Bool) : Bool :=
  let d := s.rd (Reg.TB_ANG_DIR g)
  if fwd then d = 2 else d = 1

/-- The angle of grid point `p`. -/
def State.gridAngle (s : State) (g p : Nat) : Nat := (s.rd (Reg.TB_ANG_ORIGIN g) + p * s.gridStep g) % 2 ^ 32

/-- The next grid point ahead of θ, and its distance. -/
def State.gridNext (s : State) (g θ : Nat) (fwd : Bool) : Nat × Nat :=
  let st := s.gridStep g
  let rel := (θ + 2 ^ 32 - s.rd (Reg.TB_ANG_ORIGIN g)) % 2 ^ 32
  let n := 2 ^ s.gridK g
  let off := rel % st
  if fwd then ((rel / st + 1) % n, st - off)
  else if off = 0 then ((rel / st + n - 1) % n, st) else (rel / st, off)

/-- ANG_HYST in 2^-32 turn. -/
def State.angHyst (s : State) : Nat := 2 ^ (32 - max 8 (min 24 (s.rd Reg.TB_SCHED_CFG_ANG_HYST)))

/-- A disarmed point follows the angle: it notes that the angle has passed it, and goes when the angle has moved back past it by
ANG_HYST. -/
def rearm (s : State) (g θ : Nat) (l : List (Nat × Bool × Bool)) : List (Nat × Bool × Bool) :=
  l.filterMap (fun q =>
    let back : Int := if q.2.1 then modDiff 32 (s.gridAngle g q.1) θ else modDiff 32 θ (s.gridAngle g q.1)
    if q.2.2 && (s.angHyst : Int) ≤ back then none else some (q.1, q.2.1, q.2.2 || back ≤ 0))

def isDisarmed (l : List (Nat × Bool × Bool)) (p : Nat) (fwd : Bool) : Bool := l.any (fun q => q.1 = p && q.2.1 = fwd)

/-- An instant of this hub's generator goes to every hub in HUBMASK over VL0 (R51). -/
def sendAngle (s : State) (g : Nat) (e : Nat) (gap : Bool) : State :=
  (List.range 64).foldl (fun t h => if bit (s.rd (Reg.TB_ANG_HUBMASK g)) h && h ≠ s.me then t.send 5 h [g, atWord e, b2n gap] else t) s

/-- The prediction of R51 at this update. -/
def predict (s : State) (g : Nat) (a : AngNow) : State :=
  let fwd := decide (0 < a.omega)
  let q := s.gridNext g a.theta fwd
  let d : Int := signed 32 (unsigned 32 (if fwd then (q.2 : Int) else -(q.2 : Int)))
  let w := a.omega.natAbs
  if a.omega = 0 || d = 0 || decide (0 < d) ≠ fwd || s.angExcludes g fwd || isDisarmed (s.angGen g).disarmed q.1 fwd then s
  else
    let lead := s.angLead g
    if 256 * w * lead ≤ d.natAbs * 1000000 && d.natAbs * 10000000000000 < 256 * w * (lead * 10000000 + 9765625) then
      let tc := s.now + (d.natAbs * cclkSec + 256 * w - 1) / (256 * w)
      let t := sendAngle s g tc false
      let t := t.setGen g { t.angGen g with disarmed := (t.angGen g).disarmed ++ [(q.1, fwd, false)] }
      if !t.flag (Reg.TB_ANG_LOCAL g) then t
      else if 4096 ≤ t.tb.sched.length then angleGap (t.bark 2 0x020D true []) t.me g tc
      else schedEnter t tc (.angleSlot t.me g)
    else s

/-- The grid points crossed between two updates, in order, each with its distance from the first angle; forward a point is crossed
when the angle reaches it, and so in reverse. -/
def State.crossed (s : State) (g θ0 : Nat) (m : Int) : List (Nat × Nat) :=
  let fwd := decide (0 < m)
  let q := s.gridNext g θ0 fwd
  let st := s.gridStep g
  let n := 2 ^ s.gridK g
  if m.natAbs < q.2 then []
  else (List.range ((m.natAbs - q.2) / st + 1)).map (fun j => (if fwd then (q.1 + j) % n else (q.1 + n - j % n) % n, q.2 + j * st))

/-- A crossing that was not predicted (R53), or a surplus one (R54): a slot of the streams, here and on the hubs of the mask. -/
def fireAngle (s : State) (g : Nat) (e : Nat) (gap : Bool) : State :=
  let t := sendAngle s g e gap
  if t.flag (Reg.TB_ANG_LOCAL g) then angleTick t g e gap else t

/-- The crossings without a prediction since the last update: the first fires, each other one is missed. -/
def unpredicted (s : State) (g : Nat) (a : AngNow) : State :=
  let x := s.angGen g
  let m := modDiff 32 a.theta x.theta
  let fwd := decide (0 < m)
  if !x.seen || m = 0 || s.angExcludes g fwd then s
  else
    let l := (s.crossed g x.theta m).filter (fun p => !isDisarmed x.disarmed p.1 fwd)
    let edge (d : Nat) : Nat := x.tk + ((s.now - x.tk) * d + m.natAbs - 1) / m.natAbs
    let t := s.setGen g { x with disarmed := x.disarmed ++ l.map (fun p => (p.1, fwd, true)) }
    match l with
    | [] => s
    | p :: rest =>
      let t := fireAngle (t.count Reg.TB_CNT_ANG_UNPRED) g (edge p.2) false
      rest.foldl (fun u q => fireAngle ((u.count Reg.TB_CNT_ANG_MISSED).barkEvery cclkSec g 2 0x020B true [g]) g (edge q.2) true) t

/-- One loop update of a generator. A source that is not valid resets it, so that at the next lock it starts as one that has just
been enabled (R199, R225). -/
def angleGenUpdate (s : State) (g : Nat) : State :=
  if !s.domOn 27 then s
  else if !s.flag (Reg.TB_ANG_EN g) then s.setGen g {}
  else match s.angNow (s.flag (Reg.TB_ANG_KIND g)) (s.rd (Reg.TB_ANG_INDEX g)) with
    | none => s.setGen g {}
    | some a =>
      let t := unpredicted s g a
      let t := predict t g a
      t.setGen g { t.angGen g with seen := true, theta := a.theta, tk := s.now, disarmed := rearm t g a.theta (t.angGen g).disarmed }

/-! ## Angle-bin streams (R154) -/

/-- The bin source of an angle-bin stream at this update and at the one before. -/
def State.binAngles (s : State) (d : SDef) : Option Nat × Option (Nat × Nat) :=
  let fused := bit d.rb 31
  let i := bits d.rb 16 15
  let now := (s.angNow fused i).map (fun a => a.theta)
  if fused then
    let k := s.pfi i
    (now, if k.okPrev then some (k.fPrev % 2 ^ 32, k.atPrev) else none)
  else
    let k := s.rdc i
    (now, if k.prev.valid && k.prev.at_ + 240 = k.cur.at_ then some (k.prev.angle, k.prev.at_) else none)

/-- The angle at a source tick is kept for the tick's sample, and crossings of ORIGIN are counted; the crossing that brings the
count to TURNS closes the table. -/
def binUpdate (s : State) (i : Nat) : State :=
  match s.stream i with
  | none => s
  | some x =>
    let d := x.defn
    if d.reduce ≠ 2 then s
    else
      let q := s.binAngles d
      let tick := x.openAtEdge s.now && decide (x.next ≤ s.now) && decide ((s.now - x.next) % max 1 x.srcPeriod = 0)
      let x := if tick then { x with angles := x.angles ++ [(s.now, q.1)] } else x
      let x := match q.1, q.2 with
        | some θ, some p =>
          let m := modDiff 32 θ p.1
          let rel := (p.1 + 2 ^ 32 - d.ra % 2 ^ 32) % 2 ^ 32
          let dist : Option Nat :=
            if 0 < m && 2 ^ 32 ≤ rel + m.toNat then some (2 ^ 32 - rel)
            else if m < 0 && rel < m.natAbs then some rel else none
          match dist with
          | none => x
          | some δ =>
            let n := x.cross + (if 0 < m then 1 else -1)
            let e := p.2 + ((s.now - p.2) * δ + m.natAbs - 1) / m.natAbs
            if !x.openAtEdge e then x
            else if n.natAbs = d.rb % 65536 then { x with cross := 0, tabCloses := x.tabCloses ++ [(e, e)] }
            else { x with cross := n }
        | _, _ => x
      streamSettle (s.setStream i (some x)) i

/-! ## RDC_UPDATE -/

/-- F of the input that a channel's REF_IDX names, on the same card, when it is valid (R191). -/
def State.refFused (s : State) (c : Nat) : Option Nat :=
  let i := c / 16 * 8 + s.eff (Reg.RDC_HARM_CFG_REF_IDX c) % 8
  if s.fusedValid i then some (s.pfi i).f else none

/-- One loop update: `rs` what the converters of the channels give, `ps` the sin/cos signals of the position inputs whose path is
powered. Channels first, then pairs, inputs, learning, generators and bins. -/
def loopUpdate (s : State) (rs : List RdcIn) (ps : List PfiIn) : State :=
  let cs := rs.map (fun m => m.ch)
  let t := rs.foldl rdcUpdate (rs.foldl rdcMeasure s)
  let t := cs.foldl pairUpdate t
  let t := cs.foldl liveUpdate t
  let t := (List.range 16).foldl (fun u i =>
    if u.axUp (i / 8) then pfiUpdate u i (ps.find? (fun m => m.i = i)) else u) t
  let t := cs.foldl (fun u c => learnUpdate u c (u.refFused c)) t
  let t := (List.range 64).foldl angleGenUpdate t
  t.openStreams.foldl binUpdate t

def execRdcUpdate (rs : List RdcIn) (ps : List PfiIn) (s : State) : Host.Outcome State Fault Refusal :=
  guardItem (rs.all (fun m => m.ch < 32) && ps.all (fun m => m.i < 16)) (answer s (loopUpdate s rs ps))

end Sys2Proof.Machine
end

