-- ==== Sys2Proof/Machine/Loop.lean ====
section
/-! DEFINITION. The loop engine (R232 to R251): sources, the law, the hold band, the notch, arenas, saturation, banks. Values are
Q1.15 and the accumulator Q10.30, as integers. -/

namespace Sys2Proof.Machine

/-! ## Settings -/

/-- P as it acts, of a set of values (R232). -/
def loopPOf (get : Fld → Nat) (l : Nat) : Nat := min 12 (get (Reg.LE_LOOP_CFG_P l))
def State.loopP (s : State) (l : Nat) : Nat := loopPOf s.eff l

/-- The first boundary of a loop, or of an arena, at or after the present edge (R247). -/
def State.loopEdge (s : State) (l : Nat) : Nat :=
  let d := cclkBeat * 2 ^ s.loopP l
  (s.now + (d - 1)) / d * d
def State.arenaEdge (s : State) (g : Nat) : Nat := s.loopEdge (s.eff (Reg.LE_ARENA_CFG_PRIMARY g))

/-- The loop, or the arena, is enabled and its setting is valid. -/
def State.loopOn (s : State) (l : Nat) : Bool := s.eff (Reg.LE_LOOP_CFG_EN l) = 1 && !s.flag (Reg.LE_LOOP_STAT_CFG_BAD l)
def State.arenaOk (s : State) (g : Nat) : Bool := s.eff (Reg.LE_ARENA_CFG_EN g) = 1 && !s.flag (Reg.LE_ARENA_STAT_CFG_BAD g)

/-- The members of an arena. -/
def State.members (s : State) (g : Nat) : List Nat := (List.range 64).filter (fun l => s.loopOn l && s.eff (Reg.LE_LOOP_CFG_ARENA l) = g)

/-- The active bank. -/
def State.bankOf (s : State) (l : Nat) : Nat := bits (s.rd Reg.LE_BANK_ACT_ACT) l 1

/-- A source's kind and index are admitted. -/
def sourceBad (s : State) (l kind idx : Nat) (sp : Bool) : Bool :=
  if kind = 0 then !sp
  else if kind = 1 then (match s.stream idx with | none => true | some x => x.defn.reduce = 2 || x.defn.reduce = 3)
  else if kind = 2 then 15 < idx
  else !sp || 63 < idx || idx = l

/-- BIAS and SPAN are admitted. -/
def scaleBad (bias span : Nat) : Bool :=
  match real64 bias, real64 span with
  | some _, some b => b = 0
  | _, _ => true

/-- The notch setting is valid: 0 < BW ≤ F0 ≤ 0.45 fs, both in 0.5 Hz (R239). -/
def notchOk (f0 bw p : Nat) : Bool := f0 = 0 || (0 < bw && bw ≤ f0 && f0 * 2 ^ p ≤ 57600)

def bankBad (get : Fld → Nat) (l b : Nat) : Bool :=
  let sg (f : Fld) : Int := signed f.width (get f)
  !notchOk (get (Reg.LE_LOOP_BANK_NOTCH_F0 l b)) (get (Reg.LE_LOOP_BANK_NOTCH_BW l b)) (loopPOf get l)
    || sg (Reg.LE_LOOP_BANK_HYS_OUT l b) < max 0 (sg (Reg.LE_LOOP_BANK_HYS_IN l b)) || sg (Reg.LE_LOOP_BANK_I_HI l b) < sg (Reg.LE_LOOP_BANK_I_LO l b)
    || sg (Reg.LE_LOOP_BANK_OUT_HI l b) < sg (Reg.LE_LOOP_BANK_OUT_LO l b)

/-- The setting of a loop is invalid (R248). A loop that is not enabled is not judged. -/
def loopBad (s : State) (get : Fld → Nat) (l : Nat) : Bool :=
  get (Reg.LE_LOOP_CFG_EN l) = 1
    && (sourceBad s l (get (Reg.LE_LOOP_CFG_SP_KIND l)) (get (Reg.LE_LOOP_CFG_SP_IDX l)) true
        || sourceBad s l (get (Reg.LE_LOOP_CFG_FB_KIND l)) (get (Reg.LE_LOOP_CFG_FB_IDX l)) false
        || scaleBad (get (Reg.LE_LOOP_CFG_SP_BIAS l)) (get (Reg.LE_LOOP_CFG_SP_SPAN l))
        || scaleBad (get (Reg.LE_LOOP_CFG_FB_BIAS l)) (get (Reg.LE_LOOP_CFG_FB_SPAN l))
        || bankBad get l 0 || bankBad get l 1)

/-- An output's use matches OUT_KIND (R243, R274). -/
def useOk (get : Fld → Nat) (kind idx : Nat) : Bool :=
  if kind = 1 then idx < 16 && get (Reg.DV_AX_CFG_USE idx) = 1
  else if kind = 2 then get (Reg.DV_AX_CFG_USE (idx / 4)) = 2
  else if kind = 3 then idx < 16 && get (Reg.AO_CFG_SRC idx) = 1
  else true

/-- The setting of an arena is invalid (R248). -/
def arenaBad (s : State) (get : Fld → Nat) (g : Nat) : Bool :=
  let en (a : Nat) : Bool := get (Reg.LE_ARENA_CFG_EN a) = 1
  let ms := (List.range 64).filter (fun l => get (Reg.LE_LOOP_CFG_EN l) = 1 && get (Reg.LE_LOOP_CFG_ARENA l) = g)
  let p := get (Reg.LE_ARENA_CFG_PRIMARY g)
  let kind := get (Reg.LE_ARENA_CFG_OUT_KIND g)
  let idx := get (Reg.LE_ARENA_CFG_OUT_IDX g)
  en g && (!ms.contains p || loopBad s get p || ms.any (fun l => loopPOf get l ≠ loopPOf get p) || !useOk get kind idx
    || (kind ≠ 0 && (List.range 16).any (fun a => a ≠ g && en a && get (Reg.LE_ARENA_CFG_OUT_KIND a) = kind && get (Reg.LE_ARENA_CFG_OUT_IDX a) = idx)))

/-- Judge one CFG_BAD: a setting found invalid barks once (R248). -/
def setLoopBad (s : State) (f : Fld) (i : Nat) (bad : Bool) : State :=
  let t := s.wrB f bad
  if bad && !s.flag f then t.bark 0x50 0x5006 true [i] else t

/-- After writes: the loops written, and every arena, are judged anew (R248). -/
def loopRejudge (s : State) (ls : List Nat) : State :=
  let t := ls.foldl (fun u l => setLoopBad u (Reg.LE_LOOP_STAT_CFG_BAD l) l (loopBad u u.rd l)) s
  (List.range 16).foldl (fun u g => setLoopBad u (Reg.LE_ARENA_STAT_CFG_BAD g) g (arenaBad u u.rd g)) t

/-! ## Engine state (R249) -/

/-- 0 STOPPED, 1 EVALUATING, 2 RUNNING. -/
def State.engine (s : State) : Nat :=
  if !s.domOn 27 then 0 else if s.mode = mRUN || s.mode = mDEGRADED then 2 else if s.mode = mCOMMISSION then 1 else 0

/-- LE_STAT. -/
def showEngine (s : State) : State :=
  ((s.wr Reg.LE_STAT_STATE s.engine).wr Reg.LE_STAT_LOOPS ((List.range 64).filter (fun l => s.eff (Reg.LE_LOOP_CFG_EN l) = 1)).length).wr
    Reg.LE_STAT_ARENAS ((List.range 16).filter (fun g => s.rd (Reg.LE_ARENA_STAT_STATE g) = 3)).length

/-- The value an arena sends to its output in force (R243). -/
def sendOut (s : State) (g : Nat) (v : Int) : State :=
  let d := (s.arena g).drv
  let t := s.modArena g (fun y => { y with outNow := v })
  if d.1 = 1 then arenaDemand t d.2 v
  else if d.1 = 3 then t.modAo d.2 (fun y => { y with demand := some v })
  else t

/-- Muzzle an arena: its output takes 0, and it reads `st`. -/
def muteArena (s : State) (g st : Nat) : State :=
  if s.rd (Reg.LE_ARENA_STAT_STATE g) = 3 then quietArena (sendOut s g 0) g st else quietArena s g st

/-- The old output of an arena is muzzled (R247). -/
def dropOutput (s : State) (g : Nat) : State :=
  let d := (s.arena g).drv
  let t := (muteArena s g 0).modArena g (fun y => { y with drv := (0, 0) })
  if d.1 = 1 then muzzleLive t d.2 axMUZZLED ecSTOPPED
  else if d.1 = 3 then t.modAo d.2 (fun y => { y with demand := none })
  else t

/-- The part of an arena's output is OUT, or the bridges have no power (R249). -/
def State.outputLost (s : State) (kind : Nat) : Bool :=
  kind ≠ 0 && (s.rd (partFld 18) = pOUT || (kind ≤ 2 && !s.domOn 19))

/-- The mode, or STOP, muzzles the arena. -/
def State.arenaMuzzled (s : State) (g : Nat) : Bool :=
  (s.arena g).stopped || (s.arena g).satMuz || s.engine = 0 || (s.mode = mCOMMISSION && !s.flag (Reg.LE_ARENA_STAT_ARMED g))
    || (s.mode = mDEGRADED && s.outputLost (s.eff (Reg.LE_ARENA_CFG_OUT_KIND g)))

/-- An enabled arena that may drive reserves (R244). -/
def arenaReserve (s : State) (g : Nat) : State :=
  let x := s.arena g
  let w := s.eff (Reg.LE_ARENA_CFG_RES_W g)
  if x.res = w && (x.granted || x.waiting) then s
  else if w = 0 then
    ((if x.res ≠ 0 then s.release 0 (0x30 + g) 0 else s).modArena g (fun y => { y with res := 0, granted := true, waiting := false })).wr (Reg.LE_ARENA_STAT_STATE g) 3
  else
    (((if x.granted && x.res ≠ 0 then sendOut s g 0 else s).request 0 2 (0x30 + g) w).modArena g (fun y =>
      { y with res := w, granted := false, waiting := true })).wr (Reg.LE_ARENA_STAT_STATE g) 2 |>.bark 0x50 0x5007 false [g]

/-- The governor has granted an arena's reservation. -/
def arenaGranted (s : State) (g : Nat) : State :=
  if (s.arena g).waiting then (s.modArena g (fun y => { y with granted := true, waiting := false })).wr (Reg.LE_ARENA_STAT_STATE g) 3 else s

/-- An arena's state at its boundary, or at a mode change: disabled, muzzled, or reserving and live. -/
def arenaState (s : State) (g : Nat) : State :=
  let d := (s.eff (Reg.LE_ARENA_CFG_OUT_KIND g), s.eff (Reg.LE_ARENA_CFG_OUT_IDX g))
  if !s.arenaOk g then
    let t := if (s.arena g).drv ≠ (0, 0) || s.rd (Reg.LE_ARENA_STAT_STATE g) ≠ 0 then dropOutput s g else s
    (t.wr (Reg.LE_ARENA_STAT_OUT g) 0).wr (Reg.LE_ARENA_STAT_WINNER g) 127
  else
    let t := if (s.arena g).drv ≠ d then (dropOutput s g).modArena g (fun y => { y with drv := d }) else s
    if t.arenaMuzzled g then
      let st := if (t.arena g).satMuz then 4 else 1
      if t.rd (Reg.LE_ARENA_STAT_STATE g) = st then t else muteArena t g st
    else arenaReserve t g

/-- The engine after a mode change from engine state `old` (R249): every enabled loop starts when the engine starts; SAFE clears every
I; ARM clears on entry to COMMISSION. -/
def engineMode (s : State) (old : Nat) (entered : Bool) : State :=
  let t := if entered && s.mode = mCOMMISSION then (List.range 16).foldl (fun u g => u.clr (Reg.LE_ARENA_STAT_ARMED g)) s else s
  let t := if old = 0 && t.engine ≠ 0 then (List.range 64).foldl (fun u l => u.modLoop l (fun y => { y with start := true })) t else t
  let t := if t.mode = mSAFE then (List.range 64).foldl (fun u l => u.clr (Reg.LE_LOOP_STAT_I l)) t else t
  let t := (List.range 16).foldl arenaState t
  let t := (List.range 64).foldl (fun u l =>
    if !u.loopOn l then u.wr (Reg.LE_LOOP_STAT_STATE l) 0
    else if u.engine = 0 then (u.modLoop l (fun y => { y with u := 0, uNow := 0 })).wr (Reg.LE_LOOP_STAT_STATE l) 1
    else u) t
  showEngine t

/-! ## The notch (R239) -/

/-- Terms of e^(−x): `term` is the term of index k, in units of 2^-128. -/
def expTerms : Nat → Nat → Int → Int → Int
  | 0, _, _, _ => 0
  | fuel + 1, k, x, term => term + expTerms fuel (k + 1) x (-(term * x / (2 ^ 128 : Nat) / ((k + 1 : Nat) : Int)))

/-- b0, b1, b2, a1, a2 of the design, LSB 2^-29, for F0 and BW in 0.5 Hz. -/
def notchCoef (f0 bw p : Nat) : List Int :=
  let one : Int := (2 ^ 128 : Nat)
  let ρ := expTerms 48 0 ((twoPi * bw * 2 ^ p / 256000 : Nat) : Int) one
  let h : Int := ((twoPi * f0 * 2 ^ p / 256000 : Nat) : Int)
  let sn := sinTerms 32 1 (h * h / one) h
  let cs := one - 2 * sn * sn / one
  let num := one * one - 2 * ρ * cs + ρ * ρ
  let den := (4 * sn * sn).toNat
  let w (n : Int) (d : Nat) : Int := satS 32 (rne (n * (2 ^ 29 : Nat)) d)
  [w num den, w (-2 * num * cs) (den * 2 ^ 128), w num den, w (-2 * ρ * cs) (2 ^ 256), w (ρ * ρ) (2 ^ 256)]

/-- The accumulator: saturating Q10.30 (R10, R234). -/
def acc40 (x : Int) : Int := satS 40 x
/-- Narrowing to Q1.15. -/
def narrow15 (x : Int) : Int := satS 16 (rne x 32768)

/-- f of the notch on e, with its history. -/
def notchOut (cf : List Int) (e e1 e2 f1 f2 : Int) : Int :=
  narrow15 ((List.zip cf [e, e1, e2, -f1, -f2]).foldl (fun a q => acc40 (a + acc40 (rne (q.1 * q.2) 16384))) 0)

/-! ## Sources (R236) -/

/-- norm: sat((v − BIAS) / SPAN), in binary64, then Q1.15. -/
def norm15 (v : Int) (bias span : Nat) : Int :=
  match real64 bias, real64 span with
  | some b, some k => if k = 0 then 0 else satS 16 (fround (fmul (fdiv (fadd v (-b)) k) (freal 32768)))
  | _, _ => 0

/-- What a source gives at a boundary: 0 normal, 1 hold, 2 fault; x; and whether a PI or LOOP source was usable. -/
structure SrcNow where
  v : Nat
  x : Int
  good : Bool

/-- The sources of a loop. `s0` is the state before this boundary's evaluations. -/
def loopSrc (s0 s : State) (l : Nat) (sp : Bool) : SrcNow :=
  let kind := s.eff (if sp then Reg.LE_LOOP_CFG_SP_KIND l else Reg.LE_LOOP_CFG_FB_KIND l)
  let idx := s.eff (if sp then Reg.LE_LOOP_CFG_SP_IDX l else Reg.LE_LOOP_CFG_FB_IDX l)
  let bias := s.eff (if sp then Reg.LE_LOOP_CFG_SP_BIAS l else Reg.LE_LOOP_CFG_FB_BIAS l)
  let span := s.eff (if sp then Reg.LE_LOOP_CFG_SP_SPAN l else Reg.LE_LOOP_CFG_FB_SPAN l)
  let age := max 1 (s.eff (Reg.LE_LOOP_CFG_AGE_MAX l)) * cclkBeat
  let fresh (e : Option Nat) : Bool := match e with | some t => s.now ≤ t + age | none => false
  if kind = 0 then { v := 0, x := s.effS (Reg.LE_LOOP_CFG_SP_CONST l), good := false }
  else if kind = 1 then
    let q := s.rd_.latest.get {} idx
    let excl := s.eff (Reg.LE_LOOP_CFG_FLAG_EXCL l)
    let usable (fl : Nat) : Bool := hasFlag fl fVALID && !hasFlag fl excl
    if !q.seen.isEmpty && usable q.flags && s.now ≤ q.at_ + age then { v := 0, x := norm15 q.val bias span, good := false }
    else { v := if q.seen.any (fun p => usable p.1 && s.now + 1 ≤ p.2 + age) then 1 else 2, x := 0, good := false }
  else
    let st := s0.rd (Reg.LE_LOOP_STAT_STATE idx)
    let ok := if kind = 2 then s.flag (Reg.PFI_STAT_COUNT_VALID idx) && s.axUp (idx / 8) else st = 2 || st = 3 || st = 4
    let v := if kind = 2 then freal (signed 48 (s.pfi idx).q) else fratio (s0.loop idx).uNow 32768
    if ok then { v := 0, x := norm15 v bias span, good := true }
    else { v := if fresh (if sp then (s.loop l).spGood else (s.loop l).fbGood) then 1 else 2, x := 0, good := false }

/-! ## A loop's boundary (R235 to R239, R246, R247) -/

/-- The boundary's bank swap (R246). -/
def bankSwap (s : State) (l : Nat) : State :=
  let want := bits (s.rd Reg.LE_BANK_SEL_SEL) l 1
  if want = s.bankOf l then s
  else
    let t := s.wr Reg.LE_BANK_ACT_ACT (setBits (s.rd Reg.LE_BANK_ACT_ACT) l 1 want)
    let lo := t.effS (Reg.LE_LOOP_BANK_I_LO l want) * 32768
    let hi := t.effS (Reg.LE_LOOP_BANK_I_HI l want) * 32768
    (((t.wrS (Reg.LE_LOOP_STAT_I l) (clamp lo hi (t.rdS (Reg.LE_LOOP_STAT_I l)))).wr (Reg.LE_LOOP_STAT_BANK l) want).count Reg.LE_CNT_BANK_SWAPS).bark
      0x50 0x5005 false [l, want]

/-- The structural fields of R247. -/
def State.loopSnap (s : State) (l : Nat) : List Nat :=
  [1, s.eff (Reg.LE_LOOP_CFG_ARENA l), s.loopP l, s.eff (Reg.LE_LOOP_CFG_REVERSE l), s.eff (Reg.LE_LOOP_CFG_SP_KIND l),
    s.eff (Reg.LE_LOOP_CFG_SP_IDX l), s.eff (Reg.LE_LOOP_CFG_FB_KIND l), s.eff (Reg.LE_LOOP_CFG_FB_IDX l)]

/-- Changes due at the boundary: the demand computed last comes into force, the bank swaps, a start sets the loop up, and I_CLR and
I_SET act. -/
def loopTake (s : State) (l : Nat) : State :=
  let s := bankSwap s l
  if s.engine = 0 then s
  else if !s.loopOn l then (s.modLoop l (fun y => { y with u := 0, uNow := 0, snap := [] })).wr (Reg.LE_LOOP_STAT_STATE l) 0
  else
    let s := s.modLoop l (fun y => { y with uNow := y.u })
    let sn := s.loopSnap l
    let s := if (s.loop l).start || (s.loop l).snap ≠ sn then
        (s.modLoop l (fun y => { y with snap := sn, start := false, fresh := true, faulted := false, restart := false, hold := false, spGood := none, fbGood := none })).clr (Reg.LE_LOOP_STAT_I l)
      else s
    let b := s.bankOf l
    let lo := s.effS (Reg.LE_LOOP_BANK_I_LO l b) * 32768
    let hi := s.effS (Reg.LE_LOOP_BANK_I_HI l b) * 32768
    let s := if (s.loop l).iClr then s.clr (Reg.LE_LOOP_STAT_I l) else s
    let s := match (s.loop l).iSet with
      | some v => s.wrS (Reg.LE_LOOP_STAT_I l) (clamp lo hi (v * 32768))
      | none => s
    s.modLoop l (fun y => { y with iClr := false, iSet := none })

/-- The loop's boundary ends in state `st` with demand `u`. -/
def loopDone (s : State) (l st : Nat) (u : Int) (limit frozen : Bool) : State :=
  ((((s.modLoop l (fun y => { y with u := u })).wr (Reg.LE_LOOP_STAT_STATE l) st).wrS (Reg.LE_LOOP_STAT_U l) u).wrB (Reg.LE_LOOP_STAT_AT_LIMIT l) limit).wrB
    (Reg.LE_LOOP_STAT_I_FROZEN l) frozen

/-- Integration is allowed (R242). The winner, the saturation and u are those of the last boundary. -/
def State.integrates (s : State) (l : Nat) (kif : Int) : Bool :=
  let g := s.eff (Reg.LE_LOOP_CFG_ARENA l)
  if 16 ≤ g then true
  else if s.rd (Reg.LE_ARENA_STAT_STATE g) ≠ 3 || s.flag (Reg.LE_ARENA_STAT_HW_HELD g) then false
  else
    let w := s.rd (Reg.LE_ARENA_STAT_WINNER g)
    let u := (s.loop l).u
    if s.eff (Reg.LE_ARENA_CFG_PRIMARY g) = l then
      !((decide (0 < kif * u) || u = 0) && ((w ≠ l && w ≠ 127) || s.flag (Reg.LE_ARENA_STAT_SATURATED g)))
    else !(w ≠ l && decide (0 < kif))

/-- The law of R235 with both sources normal. -/
def loopLaw (s : State) (l : Nat) (x y : Int) : State :=
  let b := s.bankOf l
  let k := s.loop l
  let slew : Int := s.eff (Reg.LE_LOOP_BANK_SP_SLEW l b)
  let r0 := if k.fresh then y else s.rdS (Reg.LE_LOOP_STAT_R l)
  let r := if slew = 0 then x else satS 16 (r0 + clamp (-slew) slew (x - r0))
  let e := satS 16 (if s.eff (Reg.LE_LOOP_CFG_REVERSE l) = 1 then y - r else r - y)
  let nf := [s.eff (Reg.LE_LOOP_BANK_NOTCH_F0 l b), s.eff (Reg.LE_LOOP_BANK_NOTCH_BW l b), s.loopP l]
  let anew := k.fresh || k.notch ≠ nf
  let f := if nf.getD 0 0 = 0 then e
    else
      let cf := notchCoef (nf.getD 0 0) (nf.getD 1 0) (nf.getD 2 0)
      if anew then notchOut cf e e e e e else notchOut cf e k.e1 k.e2 k.f1 k.f2
  let hin := max 0 (s.effS (Reg.LE_LOOP_BANK_HYS_IN l b))
  let hout := s.effS (Reg.LE_LOOP_BANK_HYS_OUT l b)
  let h0 := k.hold && !k.fresh
  let hold := if hin = 0 then false else if h0 then !decide (hout < (f.natAbs : Int)) else decide ((f.natAbs : Int) ≤ hin)
  let t := s.modLoop l (fun q =>
    { q with e1 := e, e2 := if anew then e else q.e1, f1 := f, f2 := if anew then e else q.f1, notch := nf, fresh := false, hold := hold })
  let t := (((t.wrS (Reg.LE_LOOP_STAT_R l) r).wrS (Reg.LE_LOOP_STAT_Y l) y).wrS (Reg.LE_LOOP_STAT_E l) e).wrS (Reg.LE_LOOP_STAT_F l) f
  let t := t.when (hold && !h0) (fun u => u.count Reg.LE_CNT_HOLD_ENTRIES)
  if hold then loopDone t l 3 (if s.eff (Reg.LE_LOOP_CFG_HOLD_MODE l) = 1 then k.u else 0) false true
  else
    let kif := acc40 (rne (s.effS (Reg.LE_LOOP_BANK_KI_M l b) * f) (2 ^ s.eff (Reg.LE_LOOP_BANK_KI_SH l b)))
    let ok := t.integrates l kif
    let i0 := t.rdS (Reg.LE_LOOP_STAT_I l)
    let i := if ok then clamp (s.effS (Reg.LE_LOOP_BANK_I_LO l b) * 32768) (s.effS (Reg.LE_LOOP_BANK_I_HI l b) * 32768) (acc40 (i0 + kif)) else i0
    let pre := acc40 (acc40 (s.effS (Reg.LE_LOOP_BANK_KP_M l b) * f * (2 ^ s.eff (Reg.LE_LOOP_BANK_KP_SH l b) : Nat)) + i)
    let cl := clamp (s.effS (Reg.LE_LOOP_BANK_OUT_LO l b) * 32768) (s.effS (Reg.LE_LOOP_BANK_OUT_HI l b) * 32768) pre
    loopDone (t.wrS (Reg.LE_LOOP_STAT_I l) i) l 2 (narrow15 cl) (cl ≠ pre) (!ok)

/-- One loop at its boundary: its sources are judged (R236, R237), then the law. -/
def loopEval (s0 s : State) (l : Nat) : State :=
  let a := loopSrc s0 s l true
  let b := loopSrc s0 s l false
  let s := s.modLoop l (fun y => { y with
    spGood := if a.good then some s.now else y.spGood, fbGood := if b.good then some s.now else y.fbGood, eAt := s.now, eOld := s.rdS (Reg.LE_LOOP_STAT_E l) })
  let worst := max a.v b.v
  let k := s.loop l
  if k.faulted then
    if worst = 0 && (s.eff (Reg.LE_LOOP_CFG_FAULT_LATCH l) = 0 || k.restart) then
      loopLaw ((s.modLoop l (fun y => { y with faulted := false, restart := false, fresh := true, hold := false })).bark 0x50 0x5002 false [l]) l a.x b.x
    else loopDone s l 5 0 false true
  else
    let s := s.modLoop l (fun y => { y with restart := false })
    if worst = 2 then
      let t := s.modLoop l (fun y => { y with faulted := true })
      let t := t.when (b.v = 2) (fun u => u.set (Reg.LE_LOOP_STAT_SRC_FAULT l))
      let t := t.when (a.v = 2) (fun u => u.set (Reg.LE_LOOP_STAT_SP_FAULT l))
      loopDone ((t.count Reg.LE_CNT_SRC_FAULTS).bark 0x50 0x5001 true [l]) l 5 0 false true
    else if worst = 1 then loopDone s l 4 (if s.eff (Reg.LE_LOOP_CFG_HOLD_MODE l) = 1 then k.u else 0) false true
    else loopLaw s l a.x b.x

/-! ## An arena's boundary (R240 to R245, R250) -/

/-- The inputs that hold the arena's output (R250). -/
def State.arenaHeld (s : State) (g : Nat) : Bool :=
  let d := (s.arena g).drv
  if d.1 = 1 || d.1 = 2 then s.halted else if d.1 = 3 then s.aoPin d.2 else false

/-- Before the loops: RESTART, the state, and the output formed at the last boundary is sent (R233, R245). -/
def arenaTake (s : State) (g : Nat) : State :=
  let x := s.arena g
  let s := if x.restart then
      let t := s.modArena g (fun y => { y with restart := false, stopped := false, satMuz := false, satHit := false })
      if x.satMuz then (t.members g).foldl (fun u l => u.modLoop l (fun y => { y with start := true })) t else t
    else s
  let t := arenaState s g
  let t := t.wrB (Reg.LE_ARENA_STAT_HW_HELD g) (t.arenaHeld g)
  match (t.arena g).out with
  | some v =>
    let u := t.modArena g (fun y => { y with out := none })
    if u.rd (Reg.LE_ARENA_STAT_STATE g) = 3 then sendOut u g v else u
  | none => t

/-- The winner and the magnitude (R241). -/
def State.winner (s : State) (g : Nat) : Nat × Nat :=
  let p := s.eff (Reg.LE_ARENA_CFG_PRIMARY g)
  let q := ((s.members g).filter (fun l => l ≠ p)).foldl (fun (w : Nat × Nat) l =>
    let v := (max 0 (s.loop l).u).toNat
    if v < w.2 then (l, v) else w) (p, (s.loop p).u.natAbs)
  let gov := s.rd (Reg.LE_ARENA_STAT_GOV_VAL g)
  if s.eff (Reg.LE_ARENA_CFG_GOV g) = 1 && gov < q.2 then (64, gov) else q

/-- After the loops: the output of this boundary is formed, and saturation is judged (R241, R245). -/
def arenaForm (s : State) (g : Nat) : State :=
  let live := s.rd (Reg.LE_ARENA_STAT_STATE g) = 3
  let p := s.eff (Reg.LE_ARENA_CFG_PRIMARY g)
  let q := if live then s.winner g else (127, 0)
  let out : Int := if 0 ≤ (s.loop p).u then (q.2 : Int) else -(q.2 : Int)
  let dev := s.eff (Reg.LE_ARENA_CFG_OUT_KIND g) = 3 && s.flag (Reg.AO_STAT_COMPLIANCE (s.eff (Reg.LE_ARENA_CFG_OUT_IDX g)))
  let sat := live && (max 0 (s.effS (Reg.LE_ARENA_CFG_SAT_LVL g)) ≤ (out.natAbs : Int) || dev)
  let held := s.flag (Reg.LE_ARENA_STAT_HW_HELD g)
  let x := s.arena g
  let beats := if !sat then 0 else if held then x.satBeats else x.satBeats + 2 ^ s.loopP p
  let ms := beats * 15625 / 1000000
  let time := s.eff (Reg.LE_ARENA_CFG_SAT_TIME g)
  let act := s.eff (Reg.LE_ARENA_CFG_SAT_ACT g) = 1
  let hit := sat && !held && time ≠ 0 && time ≤ ms && !x.satHit
  let t := s.modArena g (fun y => { y with out := if live then some out else none, satBeats := beats, satHit := (y.satHit && (sat || y.satMuz)) || hit })
  let t := ((t.wrB (Reg.LE_ARENA_STAT_SATURATED g) sat).wrB (Reg.LE_ARENA_STAT_DEV_SAT g) dev).wrSat (Reg.LE_ARENA_STAT_SAT_MS g) ms
  let t := (t.wrS (Reg.LE_ARENA_STAT_OUT g) out).wr (Reg.LE_ARENA_STAT_WINNER g) q.1
  let t := (t.members g).foldl (fun u l => u.wrB (Reg.LE_LOOP_STAT_WINNER l) (l = q.1)) t
  if hit then
    let t := ((t.set (Reg.LE_ARENA_STAT_SAT_FAULT g)).count Reg.LE_CNT_SAT_FAULTS).bark 0x50 0x5003 true [g]
    if act then
      ((muteArena (t.modArena g (fun y => { y with satMuz := true })) g 4).wr (Reg.LE_ARENA_STAT_OUT g) 0).wr (Reg.LE_ARENA_STAT_WINNER g) 127
    else t
  else if !sat && x.satHit && !x.satMuz && !act then t.bark 0x50 0x5004 false [g]
  else t

/-! ## LOOP_EVALUATE (R233, R235) -/

/-- One beat boundary of the engine: the loops whose period ends here and their arenas. -/
def loopEvaluate (s : State) : State :=
  if !s.domOn 27 then s
  else
    let due (l : Nat) : Bool := s.bn % 2 ^ s.loopP l = 0
    let ls := (List.range 64).filter due
    let gs := (List.range 16).filter (fun g => due (s.eff (Reg.LE_ARENA_CFG_PRIMARY g)))
    let t := gs.foldl (fun u g => if u.engine = 0 then u else arenaTake u g) s
    let t0 := ls.foldl loopTake t
    if t0.engine = 0 then showEngine t0
    else
      let t := ls.foldl (fun u l => if u.loopOn l then loopEval t0 u l else u) t0
      showEngine (gs.foldl (fun u g => if u.arenaOk g then arenaForm u g else u) t)

def execLoopEvaluate (s : State) : Host.Outcome State Fault Refusal := answer s (loopEvaluate s)

/-! ## Command bits and banks -/

/-- Request banks by LE_BANK_SEL (R246): each loop swaps at its next boundary. -/
def bankSelect (s : State) (mask value : Nat) : State :=
  s.wr Reg.LE_BANK_SEL_SEL ((List.range 64).foldl (fun n l => if bit mask l then setBits n l 1 (bits value l 1) else n) (s.rd Reg.LE_BANK_SEL_SEL))

/-- Loops whose arena is guarded by a leash that shuts the host out (R329, R423). -/
def State.selOpen (s : State) (l : Nat) : Bool := s.leashOpen [(2, s.rd (Reg.LE_LOOP_CFG_ARENA l))]

/-- A direct write of LE_BANK_SEL (R414, R416, R423): bits of leashed loops are discarded. -/
def bankSelDirect (s : State) (value : Nat) : State :=
  let shut := (List.range 64).filter (fun l => bits value l 1 ≠ bits (s.rd Reg.LE_BANK_SEL_SEL) l 1 && !s.selOpen l)
  let t := bankSelect s (shut.foldl (fun n l => setBits n l 1 0) (2 ^ 64 - 1)) value
  if shut.isEmpty then t else t.discard (ofsOf .LE_BANK_SEL 0 0)

/-- A direct write of one word of LE_BANK_SEL: the lower word waits for the upper one (R414). -/
def bankSelWord (s : State) (word value : Nat) : State :=
  let key := Reg.LE_BANK_SEL_SEL.key
  if word = 0 then { s with hold := s.hold.put 0 key (value % 2 ^ 32 + 1) }
  else
    let low := match s.hold.get 0 key with | 0 => s.rd Reg.LE_BANK_SEL_SEL % 2 ^ 32 | v + 1 => v
    bankSelDirect { s with hold := s.hold.put 0 key 0 } (low + value % 2 ^ 32 * 2 ^ 32)

def execLeBankSelWrite (word value : Nat) (s : State) : Host.Outcome State Fault Refusal :=
  guardItem (word < 2) (answer s (s.write .direct .LE_BANK_SEL 0 0 false (fun t =>
    (bankSelWord t word value).journal [{ ofs := ofsOf .LE_BANK_SEL 0 0 + 4 * word, data := leBytes 4 value }] true)))

/-- ARM lets the arena drive in COMMISSION (R249). -/
def arenaArm (s : State) (g : Nat) (on : Bool) : State :=
  let t := s.wrB (Reg.LE_ARENA_STAT_ARMED g) on
  let d := (s.eff (Reg.LE_ARENA_CFG_OUT_KIND g), s.eff (Reg.LE_ARENA_CFG_OUT_IDX g))
  let t := if on && d.1 = 3 && t.mode = mCOMMISSION then t.modAo d.2 (fun y => { y with live := true }) else t
  let t := if on && d.1 = 2 && t.mode = mCOMMISSION then t.modAxis (d.2 / 4) (fun y => { y with heatLive := true }) else t
  if t.mode = mCOMMISSION && !on then arenaState t g else t

def execLeArenaArm (src : WrSrc) (g : Nat) (s : State) : Host.Outcome State Fault Refusal :=
  guardItem (g < 16) (answer s (s.write src .LE_ARENA_CTRL 0 g true (fun t => (arenaArm t g true).journalW src .LE_ARENA_CTRL 0 g 1)))

def execLeArenaDisarm (src : WrSrc) (g : Nat) (s : State) : Host.Outcome State Fault Refusal :=
  guardItem (g < 16) (answer s (s.write src .LE_ARENA_CTRL 0 g false (fun t => (arenaArm t g false).journalW src .LE_ARENA_CTRL 0 g 2)))

/-- RESTART leaves SAT_MUZZLED, or the muzzle after STOP, at the next boundary (R243, R245). -/
def arenaRestart (s : State) (g : Nat) : State :=
  if (s.arena g).stopped || (s.arena g).satMuz then s.modArena g (fun y => { y with restart := true }) else s

def execLeArenaRestart (src : WrSrc) (g : Nat) (s : State) : Host.Outcome State Fault Refusal :=
  guardItem (g < 16) (answer s (s.write src .LE_ARENA_CTRL 0 g true (fun t => (arenaRestart t g).journalW src .LE_ARENA_CTRL 0 g 4)))

def execLeIClr (src : WrSrc) (l : Nat) (s : State) : Host.Outcome State Fault Refusal :=
  guardItem (l < 64) (answer s (s.write src .LE_LOOP_CTRL 0 l true (fun t =>
    (t.modLoop l (fun y => { y with iClr := true })).journalW src .LE_LOOP_CTRL 0 l (t.wordWith 1 [Reg.LE_LOOP_CTRL_I_VAL l]))))

/-- I_SET with its operand I_VAL. -/
def loopISet (s : State) (l val : Nat) : State :=
  (s.wr (Reg.LE_LOOP_CTRL_I_VAL l) val).modLoop l (fun y => { y with iSet := some (signed 16 (val % 65536)) })

def execLeISet (src : WrSrc) (l val : Nat) (s : State) : Host.Outcome State Fault Refusal :=
  guardItem (l < 64) (answer s (s.write src .LE_LOOP_CTRL 0 l true (fun t =>
    (loopISet t l val).journalW src .LE_LOOP_CTRL 0 l (2 + val % 65536 * 65536))))

def execLeLoopRestart (src : WrSrc) (l : Nat) (s : State) : Host.Outcome State Fault Refusal :=
  guardItem (l < 64) (answer s (s.write src .LE_LOOP_CTRL 0 l true (fun t =>
    (t.modLoop l (fun y => { y with restart := true })).journalW src .LE_LOOP_CTRL 0 l (t.wordWith 4 [Reg.LE_LOOP_CTRL_I_VAL l]))))

def leCnts : List Fld := [Reg.LE_CNT_BANK_SWAPS, Reg.LE_CNT_SRC_FAULTS, Reg.LE_CNT_SAT_FAULTS, Reg.LE_CNT_HOLD_ENTRIES]

def execLeCntClr (src : WrSrc) (clr : Nat) (s : State) : Host.Outcome State Fault Refusal :=
  answer s (s.write src .LE_CNT_CLR 0 0 false (fun t => (t.clearCnts leCnts clr).journalW src .LE_CNT_CLR 0 0 clr))

end Sys2Proof.Machine
end

