-- ==== Sys2Proof/Machine/Leash.lean ====
section
/-! DEFINITION. Leashes (R328 to R330, R423): taking, releasing and waiting, and the break with the safe state of each guarded
resource. Owners: 1 host, 2 MP0, 3 MP1, 4 pack leader, 5 deputy. -/

namespace Sys2Proof.Machine

/-- Leash `n` is held. -/
def State.lkHeld (s : State) (n : Nat) : Bool := s.flag (Reg.LK_STAT_HELD n)

/-- Leash `n` is broken and not taken again. -/
def State.lkBroken (s : State) (n : Nat) : Bool := s.flag (Reg.LK_STAT_BROKEN n)

def State.lkEpoch (s : State) (n : Nat) : Nat := s.rd (Reg.LK_STAT_EPOCH n)

/-- The epoch increments, modulo its 32 bits. -/
def lkNextEpoch (s : State) (n : Nat) : State := s.countMod (Reg.LK_STAT_EPOCH n)

/-- `o` holds leash `n` from now on: the epoch increments, and the command completes with the new epoch. -/
def lkGive (s : State) (n o : Nat) (h : CmdHdr) (st : Status) : State :=
  let t := (((lkNextEpoch s n).set (Reg.LK_STAT_HELD n)).clr (Reg.LK_STAT_BROKEN n)).wr (Reg.LK_STAT_OWNER n) o
  t.complete h st (t.lkEpoch n)

/-- Nobody holds leash `n`; the first take that waits for it holds it now (R328). -/
def lkServe (s : State) (n : Nat) (st : Status) : State :=
  match s.takes_.find? (fun k => k.leash = n) with
  | none => s
  | some k => lkGive { s with takes_ := s.takes_.erase k } n k.owner k.hdr st

/-- Modes and parameters of LEASH_TAKE (R311, R313). -/
def leashTakeRefuse (s : State) (n wait ms : Nat) : Option Status :=
  if !s.sampling && s.mode ≠ mSELFTEST then some .modeForbids
  else if 32 ≤ n || 2 ≤ wait || (wait = 1 && (ms = 0 || 10000 < ms)) then some .badParam else none

/-- LEASH_TAKE (R328): a leash of another owner is refused, or waited for at most WAIT_MS behind earlier takes. -/
def leashTake (s : State) (h : CmdHdr) (n wait ms : Nat) : State :=
  let t := s.begin h
  let o := t.ownerOf h.via
  match leashTakeRefuse t n wait ms with
  | some st => t.refuse h st
  | none =>
    if t.lkBroken n then lkGive t n o h .leashBroken
    else if !t.lkHeld n then lkGive t n o h .ok
    else if t.rd (Reg.LK_STAT_OWNER n) = o then t.complete h .ok (t.lkEpoch n)
    else if wait = 0 then t.refuse h .leashHeld
    else { t with takes_ := t.takes_ ++ [{ leash := n, owner := o, hdr := h, until_ := t.run + ms * cclkMs }] }

def execLeashTake (h : CmdHdr) (n wait ms : Nat) (s : State) : Host.Outcome State Fault Refusal :=
  answer s (leashTake s h n wait ms)

/-- LEASH_RELEASE names its leash, owner and epoch right. -/
def State.lkMatches (s : State) (n o epoch : Nat) : Bool :=
  n < 32 && s.lkHeld n && s.rd (Reg.LK_STAT_OWNER n) = o && s.lkEpoch n = epoch

/-- LEASH_RELEASE (R328): with a matching owner and epoch it frees the leash, and the first waiting take holds it. -/
def leashRelease (s : State) (h : CmdHdr) (n epoch : Nat) : State :=
  let t := s.begin h
  if !t.sampling && t.mode ≠ mSELFTEST then t.refuse h .modeForbids
  else if t.lkMatches n (t.ownerOf h.via) epoch then
    lkServe (((t.clr (Reg.LK_STAT_HELD n)).clr (Reg.LK_STAT_OWNER n)).complete h .ok) n .ok
  else t.refuse h .badParam

def execLeashRelease (h : CmdHdr) (n epoch : Nat) (s : State) : Host.Outcome State Fault Refusal :=
  answer s (leashRelease s h n epoch)

/-- Takes that have waited WAIT_MS complete TIMEOUT and leave the leash as it stands (R328). -/
def leashWaitTimeout (s : State) : State :=
  let due := s.takes_.filter (fun k => k.until_ ≤ s.run)
  due.foldl (fun t k => t.refuse k.hdr .timeout) { s with takes_ := s.takes_.filter (fun k => !(k.until_ ≤ s.run)) }

def execLeashWaitTimeout (s : State) : Host.Outcome State Fault Refusal := answer s (leashWaitTimeout s)

/-- A partial upload is discarded: a bank that is being written reads empty (R329). -/
def bankDiscard (s : State) (b : Nat) : State :=
  if s.rd (Reg.KN_BANK_INFO_STATE b) = 1 then
    let t := ((s.clr (Reg.KN_BANK_INFO_STATE b)).clr (Reg.KN_BANK_INFO_WPTR b)).clr (Reg.KN_BANK_INFO_GENERATION b)
    { t with kn := { t.kn with data := t.kn.data.put [] b [] } }
  else s

/-- The staging copy that stands for an active copy. -/
def stagedOf (ws : List Nat) : Sparse Nat := ws.zipIdx.foldl (fun (m : Sparse Nat) q => m.put 0 q.2 q.1) []

/-- Every staging copy of the curve store takes its active copy; zeros where there is none (R329, R149). -/
def curvesRevert (s : State) : State :=
  let m := s.rd_.act.foldl (fun (m : Sparse (Sparse Nat)) e => Sparse.put ([] : Sparse Nat) e.1 (stagedOf e.2) m) []
  { s with rd_ := { s.rd_ with stg := m } }

/-- A guarded resource takes its safe state (R329). -/
def leashSafe (s : State) (r : Res) : State :=
  match r.1 with
  | 1 => muzzleLive s r.2 axMUZZLED ecFAULT
  | 2 => muteArena (s.modArena r.2 (fun k => { k with stopped := true })) r.2 (if (s.arena r.2).satMuz then 4 else 1)
  | 3 => (clearAo s r.2).modAo r.2 (fun y => { y with leashHeld := true })
  | 4 => revertCard s r.2
  | 5 => bankDiscard s r.2
  | 6 => curvesRevert s
  | _ => s

/-- A leash breaks (R330): the resource in its safe state, the epoch on by one, BROKEN, the count and the bark; the first
waiting take then holds it. A free or a broken leash stays as it is. -/
def breakLeash (s : State) (n : Nat) : State :=
  if s.lkHeld n then
    let o := s.rd (Reg.LK_STAT_OWNER n)
    let t := lkNextEpoch (leashSafe s (s.guards n)) n
    let t := ((t.clr (Reg.LK_STAT_HELD n)).set (Reg.LK_STAT_BROKEN n)).clr (Reg.LK_STAT_OWNER n)
    let t := (t.count Reg.LK_CNT_BREAKS).bark 1 0x0140 true [n, o, t.lkEpoch n]
    lkServe t n .leashBroken
  else s

/-- An owner is lost (R330, R328): its waiting takes are withdrawn with TIMEOUT, and every leash it holds breaks. -/
def loseOwner (s : State) (o : Nat) : State :=
  let mine := s.takes_.filter (fun k => k.owner = o)
  let t := mine.foldl (fun u k => u.refuse k.hdr .timeout) { s with takes_ := s.takes_.filter (fun k => k.owner ≠ o) }
  (List.range 32).foldl (fun u n => if s.lkHeld n && s.rd (Reg.LK_STAT_OWNER n) = o then breakLeash u n else u) t

/-- LEASH_BREAK: the loss of owner `o` is detected. -/
def execLeashBreak (o : Nat) (s : State) : Host.Outcome State Fault Refusal :=
  guardItem (1 ≤ o && o ≤ 5) (answer s (loseOwner s o))

/-- A write of 1 to LK_CTRL.BREAK (R330): a direct write alone, in the modes of R16, breaks leash N. N and BREAK share the
word, so N is written with it. -/
def lkBreakWrite (s : State) (src : WrSrc) (n : Nat) : State :=
  if src = .cfg then s else s.write src .LK_CTRL 0 0 false (fun t => breakLeash (t.wr Reg.LK_CTRL_N n) (n % 32))

def execLkBreakWrite (src : WrSrc) (n : Nat) (s : State) : Host.Outcome State Fault Refusal :=
  answer s (lkBreakWrite s src n)

/-- A write of LK_CNT_CLR (R392). -/
def execLkCntClr (src : WrSrc) (clr : Nat) (s : State) : Host.Outcome State Fault Refusal :=
  answer s (s.write src .LK_CNT_CLR 0 0 false (fun t => t.clearCnts [Reg.LK_CNT_BREAKS] clr))

end Sys2Proof.Machine
end

