-- ==== Sys2Proof/Machine/HostPort.lean ====
section
/-! DEFINITION. The host port (R300 to R309, R318 to R321, R331, R363): link, ring set-up, doorbell and status blocks, completions,
records into stream buffers, MSI-X. -/

namespace Sys2Proof.Machine

/-! ## Isolation (R25) -/

/-- A hub of the pack is reachable, or is this hub. -/
def State.reaches (s : State) (h : Nat) : Bool := h ≠ 255 && (h = s.me || (s.ov.peers.get {} h).reach)

/-- The hub is isolated (R25, R305): a leader without a link or with its host lost; another hub without a path to a leader or
a deputy; a hub that has lost its identity (R349). -/
def State.isolated (s : State) : Bool :=
  if s.ov.dup then true
  else if s.follows then !s.reaches (s.rd Reg.OV_STAT_LEADER_ID) && !(s.reaches (s.rd Reg.OV_STAT_DEPUTY_ID))
  else !s.flag Reg.HP_STAT_LINK_UP || s.hp.hostLost

/-- Isolation begins, with its bark, or ends. -/
def isoUpdate (s : State) : State :=
  match s.hub.isoSince with
  | none => if s.isolated then ({ s with hub := { s.hub with isoSince := some s.run } }).bark 1 0x0114 true [] else s
  | some _ => if s.isolated then s else { s with hub := { s.hub with isoSince := none } }

/-! ## Link, set-up and disabling (R301 to R303, R363) -/

/-- The hub polls the doorbell block: rings set up, link up, and HUB_MODE out of BOOT (R301, R303). Polling begins the 50 ms of
R305. -/
def pollUpdate (s : State) : State :=
  let on := s.ringsOn && s.flag Reg.HP_STAT_LINK_UP && s.mode ≠ mBOOT && s.mode ≠ mDORMANT
  if on && !s.flag Reg.HP_STAT_POLLING then
    let t := s.set Reg.HP_STAT_POLLING
    { t with hp := { t.hp with dbLast := t.run, dbEver := true } }
  else if !on then s.clr Reg.HP_STAT_POLLING else s

/-- A buffer's formed records begin to wait (R320). -/
def bufWait (s : State) (b : Nat) : State :=
  let x := s.sbuf b
  if x.queue.isEmpty then s
  else
    let t := s.modBuf b (fun y => { y with queue := y.queue.map (fun r => { r with late := true }), backlog := true })
    if x.backlog then t else t.bark 6 0x0606 true [b]

/-- Every buffer's records begin to wait. -/
def bufsWait (s : State) : State := (List.range 256).foldl bufWait s

/-- The rings are disabled (R302). -/
def disableRings (s : State) : State :=
  if s.flag Reg.HP_CTRL_EN then
    let n := s.hp.cplWait.length
    let t := ((s.clr Reg.HP_CTRL_EN).clr Reg.HP_CTRL_READY).clr Reg.HP_STAT_POLLING
    let t := { t with hp := { t.hp with cplWait := [], vecNew := [], vecDue := [], toAnnounce := false } }
    let t := loseOwner (t.dropCpl n) 1
    if t.follows then t else bufsWait t
  else s

/-- The link enters L0: its speed and width as trained. -/
def hpLinkUp (s : State) (speed width : Nat) : State :=
  if s.domOn 25 then
    let t := ((s.set Reg.HP_STAT_LINK_UP).wr Reg.HP_STAT_SPEED speed).wr Reg.HP_STAT_WIDTH width
    isoUpdate (pollUpdate (if s.flag Reg.HP_STAT_LINK_UP then t else t.bark 6 0x0601 false []))
  else s

/-- HP_LINK_UP: speed code 1 to 4, width 1, 2, 4 or 8 lanes (R300). -/
def execHpLinkUp (speed width : Nat) (s : State) : Host.Outcome State Fault Refusal :=
  guardItem (1 ≤ speed && speed ≤ 4 && [1, 2, 4, 8].contains width) (answer s (hpLinkUp s speed width))

/-- The link is lost (R302). -/
def hpLinkDown (s : State) : State :=
  if s.flag Reg.HP_STAT_LINK_UP then
    let t := ((s.clr Reg.HP_STAT_LINK_UP).clr Reg.HP_STAT_SPEED).clr Reg.HP_STAT_WIDTH
    isoUpdate (disableRings (t.bark 6 0x0602 true []))
  else s

def execHpLinkDown (s : State) : Host.Outcome State Fault Refusal := answer s (hpLinkDown s)

/-- HOT_RESET, and PERST# after the ready point (R302, R363): the rings are disabled, and nothing else changes. Before the ready
point PERST# has no such effect. -/
def execHotReset (s : State) : Host.Outcome State Fault Refusal := answer s (if s.hp.ready then disableRings s else s)

/-- FUNCTION_LEVEL_RESET (R302): the rings are disabled; the spec names no other change. -/
def execFunctionLevelReset (s : State) : Host.Outcome State Fault Refusal := answer s (disableRings s)

/-- Two spans of host memory overlap. -/
def spansMeet (a an b bn : Nat) : Bool := a < b + bn && b < a + an

/-- The first failing check of a ring set-up (R303), as SETUP_ERR: 0 when all pass. -/
def State.setupErr (s : State) : Nat :=
  let base (f : Fld) : Nat := s.rd f * 4096
  let db := base Reg.HP_DB_BASE_BASE
  let st := base Reg.HP_STATUS_BASE_BASE
  let rings : List (Nat × Nat × Nat) := [(base Reg.HP_CMD_RING_BASE, s.rd Reg.HP_CMD_RING_N, 64),
    (base Reg.HP_CPL_RING_BASE, s.rd Reg.HP_CPL_RING_N, 16), (base Reg.HP_EVT_RING_BASE, s.rd Reg.HP_EVT_RING_N, 64)]
  if db = 0 || st = 0 || base Reg.HP_SBUF_TAB_BASE = 0 || rings.any (fun r => r.1 = 0) then 1
  else if rings.any (fun r => r.2.1 < 4) then 2
  else if spansMeet db 4096 st 4096
      || rings.any (fun r => spansMeet db 4096 r.1 (2 ^ r.2.1 * r.2.2) || spansMeet st 4096 r.1 (2 ^ r.2.1 * r.2.2)) then 3
  else 0

/-! ## The status block (R306) -/

/-- Commands accepted and not completed, as HP_STAT.INFLIGHT and the status block show them (R309, R390). -/
def State.statWord (s : State) : Nat :=
  s.mode + s.rd Reg.TB_STATE_STATE * 16 + s.rd Reg.TB_STATE_TOD_VALID * 128 + s.me * 256

/-- The 4 KiB of the status block. -/
def statusBlock (s : State) (seq : Nat) : List Nat :=
  leBytes 4 s.hp.cmdCi ++ leBytes 4 s.hp.cplPi ++ leBytes 4 s.hp.evtPi ++ leBytes 4 s.statWord ++ atBytes s.now ++ leBytes 4 seq
    ++ leBytes 4 (s.rd Reg.BQ_LOST_LOST) ++ leBytes 4 s.inFlight ++ List.replicate (0x400 - 0x28) 0
    ++ (List.range 256).flatMap (fun b => leBytes 4 (s.sbuf b).head) ++ List.replicate 0x800 0

/-- The announced record of another hub is confirmed by a DELIVERED notice (R357), a record of this hub in its checkpoint (R365). -/
def confirm (s : State) (q : Nat × Nat × Nat × Bool) : State :=
  if q.1 = s.me then (if q.2.2.2 then s else s.modStream q.2.1 (fun x => { x with conf := q.2.2.1 }))
  else s.send 7 q.1 [q.2.1, q.2.2.1, b2n q.2.2.2]

/-- Write the status block; it announces what was written before it. -/
def writeStatus (s : State) : State :=
  let seq := (s.hp.statSeq + 1) % 2 ^ 32
  let t := s.emit (.status (statusBlock s seq))
  let due := t.hp.vecNew.filter (fun v => !t.hp.vecDue.contains v)
  let t := { t with hp := { t.hp with statSeq := seq, toAnnounce := false, vecDue := t.hp.vecDue ++ due, vecNew := [], notices := [] } }
  s.hp.notices.foldl confirm t

/-- STATUS_BLOCK_WRITE: while the rings are active. -/
def execStatusBlockWrite (s : State) : Host.Outcome State Fault Refusal :=
  answer s (if s.ringsOn && s.flag Reg.HP_STAT_LINK_UP then writeStatus s else s)

/-- A buffer in use whose entry the hub does not hold, because its streams resumed or PD25 was off, takes it when the rings come up
(R318). -/
def readEntry (s : State) (q : Nat × List Nat) : State :=
  let x := s.sbuf q.1
  if 0 < x.users && x.log2 = 0 && entryOk q.2 then
    s.modBuf q.1 (fun y => { y with base := leAt q.2 0 8, log2 := leAt q.2 8 1, vec := leAt q.2 9 1, head := y.tail })
  else s

/-- EN = 1: check the set-up and start, or reject (R303). `entries` are the table entries that the hub reads. -/
def setUpRings (s : State) (entries : List (Nat × List Nat)) : State :=
  let t := s.set Reg.HP_CTRL_EN
  let e := s.setupErr
  let t := t.wr Reg.HP_STAT_SETUP_ERR e
  if e = 0 then
    let t := { t with hp := { t.hp with cmdPi := 0, cmdCi := 0, cplPi := 0, cplCi := 0, evtPi := 0, evtCi := 0 } }
    pollUpdate ((writeStatus (entries.foldl readEntry t)).set Reg.HP_CTRL_READY)
  else (t.clr Reg.HP_CTRL_READY).bark 6 0x0604 true [e] |>.news 2

/-- A direct write of HP_CTRL: EN = 1 sets up the rings, EN = 0 disables them (R302, R303). EN = 1 while the link is lost is
discarded (R418). -/
def hpCtrlEn (s : State) (en : Nat) (entries : List (Nat × List Nat)) : State :=
  s.write .direct .HP_CTRL 0 0 false (fun t =>
    if en % 2 = 0 then disableRings t else if t.flag Reg.HP_CTRL_EN then t
    else if t.flag Reg.HP_STAT_LINK_UP then setUpRings t entries else t.discard (ofsOf .HP_CTRL 0 0))

def execHpCtrlEnWrite (en : Nat) (entries : List (Nat × List Nat)) (s : State) : Host.Outcome State Fault Refusal :=
  answer s (hpCtrlEn s en entries)

/-! ## Polling (R304, R305) -/

/-- An index lies at most the ring size behind its partner, modulo 2^16. -/
def indexOk (n pi ci : Nat) : Bool := (pi + 2 ^ 16 - ci % 2 ^ 16) % 2 ^ 16 ≤ 2 ^ n

/-- DB_BAD and its bark (R305). -/
def dbBad (s : State) : State := ((s.set Reg.HP_STAT_DB_BAD).barkEvery cclkSec 0 6 0x0605 true []).news 2

/-- Act on a TAIL (R305, R319): one that would make the book of R390 fail is ignored. -/
def takeTail (s : State) (q : Nat × Nat) : State :=
  let x := s.sbuf q.2
  let v := q.1 % 2 ^ 32
  if x.tail = v then s
  else if x.log2 ≠ 0 && 0 < x.users && 2 ^ x.log2 < (x.head + 2 ^ 32 - v) % 2 ^ 32 then dbBad s
  else s.modBuf q.2 (fun y => { y with tail := v })

/-- A doorbell read that succeeds. -/
def doorbellOk (s : State) (cmdPi cplCi evtCi : Nat) (tails : List Nat) : State :=
  let t := { s with hp := { s.hp with dbLast := s.run, dbEver := true, hostLost := false } }
  let t := if indexOk (s.rd Reg.HP_CMD_RING_N) cmdPi s.hp.cmdCi then { t with hp := { t.hp with cmdPi := cmdPi % 2 ^ 16 } } else dbBad t
  let t := if indexOk (s.rd Reg.HP_CPL_RING_N) s.hp.cplPi cplCi then { t with hp := { t.hp with cplCi := cplCi % 2 ^ 16 } } else dbBad t
  let t := if indexOk (s.rd Reg.HP_EVT_RING_N) s.hp.evtPi evtCi then { t with hp := { t.hp with evtCi := evtCi % 2 ^ 16 } } else dbBad t
  isoUpdate (((tails.take 256).zipIdx).foldl takeTail t)

/-- A doorbell read that fails. -/
def doorbellBad (s : State) : State :=
  (((s.set Reg.HP_STAT_DB_ERR).count Reg.HP_CNT_DB_ERRORS).barkEvery cclkSec 0 6 0x0603 true []).news 2

/-- DOORBELL_POLL: the block as read, or a read that failed. -/
def execDoorbellPoll (ok : Bool) (cmdPi cplCi evtCi : Nat) (tails : List Nat) (s : State) : Host.Outcome State Fault Refusal :=
  answer s (if !s.flag Reg.HP_STAT_POLLING then s else if ok then doorbellOk s cmdPi cplCi evtCi tails else doorbellBad s)

/-- HOST_LOST: 50 ms without a successful read (R305). -/
def hostLost (s : State) : State :=
  if s.hp.dbEver && !s.hp.hostLost && s.elapsed s.hp.dbLast (50 * cclkMs) then
    isoUpdate (loseOwner { s with hp := { s.hp with hostLost := true } } 1)
  else s

def execHostLost (s : State) : Host.Outcome State Fault Refusal := answer s (hostLost s)

/-! ## Completions (R308, R309) -/

/-- PHASE of a ring slot: 1 in the first pass, 0 in the second, and so on. -/
def phaseOf (n pi : Nat) : Nat := 1 - pi / 2 ^ n % 2

/-- COMPLETION_WRITE: the first completion that waits is written once the CPL ring has room. -/
def completionWrite (s : State) : State :=
  let n := s.rd Reg.HP_CPL_RING_N
  match s.hp.cplWait with
  | c :: rest =>
    if s.ringsOn && (s.hp.cplPi + 2 ^ 16 - s.hp.cplCi) % 2 ^ 16 < 2 ^ n then
      let t := s.emit (.cpl (s.hp.cplPi % 2 ^ n) (phaseOf n s.hp.cplPi) c)
      let t := { t with hp := { t.hp with cplWait := rest, cplPi := (t.hp.cplPi + 1) % 2 ^ 16, toAnnounce := true } }
      if c.quiet then t else t.news 0
    else s
  | [] => s

def execCompletionWrite (s : State) : Host.Outcome State Fault Refusal := answer s (completionWrite s)

/-! ## Records into stream buffers (R319 to R321) -/

/-- One record of a REPLAY has been delivered into `buf` (R321): with the last the command completes. -/
def replayDone (s : State) (i buf : Nat) : State :=
  match s.hp.replays.find? (fun r => r.stream = i && r.buf = buf) with
  | none => s
  | some r =>
    let t := s.count Reg.HP_CNT_REPLAY_RECORDS
    let rest := t.hp.replays.erase r
    if r.left ≤ 1 then
      (({ t with hp := { t.hp with replays := rest } }).modBuf buf (fun x => { x with users := x.users - 1 })).complete r.hdr .ok (r.done + 1)
    else { t with hp := { t.hp with replays := [{ r with left := r.left - 1, done := r.done + 1 }] ++ rest } }

/-- The first record of a buffer leaves the queue; when the last waiting one has gone, HP_BUF_CAUGHT_UP (R320). -/
def bufAdvance (s : State) (b : Nat) (r : RecOut) : State :=
  let x := s.sbuf b
  let lateN := x.lateN + b2n (r.late && !r.replay)
  let rest := x.queue.drop 1
  let done := x.backlog && !rest.any (fun k => k.late)
  let t := s.modBuf b (fun y => { y with queue := rest, lateN := if done then 0 else lateN, backlog := y.backlog && !done })
  t.when done (fun u => u.bark 6 0x0607 false [b, lateN])

/-- A header that pads the end of a buffer: STREAM_ID 0xFFFF and every other byte 0 (R319). -/
def padHeader : List Nat := [0xFF, 0xFF] ++ List.replicate 30 0

/-- The record goes into buffer `b` at HEAD, from its start where it does not fit before the end (R319). -/
def bufWrite (s : State) (b : Nat) (data : List Nat) : State :=
  let x := s.sbuf b
  let size := 2 ^ x.log2
  let p := x.head % size
  let t := if p + data.length ≤ size || size < p + 32 then s else s.emit (.record b p padHeader)
  let t := t.emit (.record b (if p + data.length ≤ size then p else 0) data)
  let t := t.modBuf b (fun y => { y with head := (y.head + bufNeed x data.length) % 2 ^ 32 })
  let t := { t with hp := { t.hp with toAnnounce := true } }
  if 4 ≤ x.vec then t.news x.vec else t

/-- A record as it goes out: with LATE where it has waited; a replayed one never carries it (R320, R321). -/
def outData (r : RecOut) : List Nat := if r.late && !r.replay then markLate r.data else r.data

/-- The record of a buffer goes to host memory. -/
def recordToHost (s : State) (b : Nat) (r : RecOut) : State :=
  let hub := r.data.getD 3 0
  let t := bufAdvance (bufWrite s b (outData r)) b r
  let t := t.when (r.late && !r.replay) (fun u => u.count Reg.HP_CNT_LATE_RECORDS)
  let t := { t with hp := { t.hp with notices := t.hp.notices ++ [(hub, r.stream, r.seq + r.n, r.replay)] } }
  if r.replay && hub = t.me then replayDone t r.stream b else t

/-- The record of a follower goes to the leader: type 11 as formed, type 12 after waiting or by REPLAY (R356, R337). The follower
keeps it until it is confirmed (R357). -/
def recordToLeader (s : State) (b : Nat) (r : RecOut) : State :=
  let d := outData r
  let t := s.send (if r.late || r.replay then 12 else 11) (s.rd Reg.OV_STAT_LEADER_ID) ([b, r.stream, r.seq, r.n, b2n r.replay] ++ d)
  let t := { t with ov := { t.ov with granted := t.ov.granted.put 0 b (t.ov.granted.get 0 b - d.length),
                                      unconf := t.ov.unconf ++ [{ rcd := r, sentAt := t.run }] } }
  bufAdvance t b r

/-- RECORD_DELIVER: the first record of buffer `b`, once it can go. -/
def recordDeliver (s : State) (b : Nat) : State :=
  match (s.sbuf b).queue with
  | r :: _ => if s.canGo b [r.data.length] then (if s.follows then recordToLeader s b r else recordToHost s b r) else s
  | [] => s

def execRecordDeliver (b : Nat) (s : State) : Host.Outcome State Fault Refusal :=
  guardItem (b < 256) (answer s (recordDeliver s b))

/-! ## MSI-X (R300, R331) -/

/-- A word of the MSI-X table: four words a vector; a vector control word resets to 1, masked (PRESUMED, PCI Express). -/
def State.msixWord (s : State) (i : Nat) : Nat := Nat.xor (s.hp.msix.get 0 i) (b2n (i % 4 = 3))

/-- The vector is masked by its table entry. -/
def State.vecMasked (s : State) (v : Nat) : Bool := bit (s.msixWord (4 * v + 3)) 0

/-- A vector's message goes out, with the address and data of its table entry. -/
def sendMsix (s : State) (v : Nat) : State :=
  let t := s.emit (.msix v (s.msixWord (4 * v) + s.msixWord (4 * v + 1) * 2 ^ 32) (s.msixWord (4 * v + 2)))
  { t with hp := { t.hp with vecLast := t.hp.vecLast.put 0 v (t.run + 1) } }

/-- A write of the MSI-X table; a vector that is unmasked sends its pending message. -/
def msixWrite (s : State) (i w : Nat) : State :=
  let t := { s with hp := { s.hp with msix := s.hp.msix.put 0 i (Nat.xor (w % 2 ^ 32) (b2n (i % 4 = 3))) } }
  let v := i / 4
  if t.hp.vecPend.contains v && !t.vecMasked v then
    sendMsix { t with hp := { t.hp with vecPend := t.hp.vecPend.filter (fun x => x ≠ v) } } v
  else t

/-- The vector's spacing has passed. -/
def State.vecReady (s : State) (v : Nat) : Bool :=
  let l := s.hp.vecLast.get 0 v
  l = 0 || s.elapsed (l - 1) (cclkUs (s.rd (Reg.HP_IRQ_MOD_MOD v)))

/-- MSIX_MESSAGE: the message of a vector whose entries are announced; a masked vector holds its pending bit instead. -/
def msixMessage (s : State) (v : Nat) : State :=
  if s.hp.vecDue.contains v && s.vecReady v then
    let t := { s with hp := { s.hp with vecDue := s.hp.vecDue.filter (fun x => x ≠ v) } }
    if t.vecMasked v then { t with hp := { t.hp with vecPend := if t.hp.vecPend.contains v then t.hp.vecPend else t.hp.vecPend ++ [v] } }
    else sendMsix t v
  else s

def execMsixMessage (v : Nat) (s : State) : Host.Outcome State Fault Refusal :=
  guardItem (v < 64) (answer s (msixMessage s v))

/-- The counters of HP_CNT in the order listed. -/
def hpCnts : List Fld := [Reg.HP_CNT_DB_ERRORS, Reg.HP_CNT_CPL_DROPPED, Reg.HP_CNT_LATE_RECORDS, Reg.HP_CNT_REPLAY_RECORDS]

/-- A write of HP_CNT_CLR (R392). -/
def execHpCntClr (src : WrSrc) (clr : Nat) (s : State) : Host.Outcome State Fault Refusal :=
  answer s (if src = .cfg then s else s.write src .HP_CNT_CLR 0 0 false (fun t => t.clearCnts hpCnts clr))

end Sys2Proof.Machine
end

