-- ==== Sys2Proof/Machine/BarkQueue.lean ====
section
/-! DEFINITION. The bark queue, its side buffer and its log (R322 to R327, R424): posting, draining, popping and flushing. -/

namespace Sys2Proof.Machine

/-- Words of a packet: the length word, the code word, two words of time and the payload (R322). -/
def Bark.len (b : Bark) : Nat := min 64 (4 + b.payload.length)

/-- The packet as 32-bit words. -/
def Bark.words (b : Bark) : List Nat :=
  [b.len + 128 * b2n b.afterLoss + 256 * (b.src % 256), b.code % 65536 + 65536 * b2n b.warn + 2 ^ 24 * (b.hub % 64),
   b.time % 2 ^ 32, bits b.time 32 32] ++ (b.payload.take 60).map (fun w => w % 2 ^ 32)

/-- Words of the queue and of the side buffer. -/
def queueWords : Nat := 16384
def sideWords : Nat := 1024

/-- Units of 16 bytes in the bark log of 256 MiB (chapter 15 of the kennel's stores). -/
def logUnits : Nat := 2 ^ 24

def lensOf (l : List Bark) : Nat := (l.map Bark.len).sum

/-- LEVEL: words in use. -/
def State.bqLevel (s : State) : Nat := lensOf s.bq.queue - s.bq.popped

/-- BQ_STATUS shows the queue. -/
def showBq (s : State) : State := (s.wrB Reg.BQ_STATUS_EMPTY s.bq.queue.isEmpty).wr Reg.BQ_STATUS_LEVEL s.bqLevel

/-- The queue takes packets: PD27 is on, and no start runs before its step 4 (R424). -/
def State.queueUp (s : State) : Bool := s.domOn 27 && !s.hub.starting

/-- Drop the oldest units of the log until it holds no more than `n`. -/
def logTrim (n : Nat) : List Bark → List Bark
  | [] => []
  | b :: r => if n < ((b :: r).map (fun x => (x.len + 3) / 4)).sum then logTrim n r else b :: r

/-- A WARN packet is copied to the bark log (R323). -/
def logBark (s : State) (b : Bark) : State :=
  if b.warn then { s with bq := { s.bq with log := logTrim logUnits (s.bq.log ++ [b]) } } else s

/-- Packets overwritten, oldest first, until `n` words fit in the `room` words of a buffer: what stays, and how many went. -/
def makeRoom (room n : Nat) : List Bark → List Bark × Nat
  | [] => ([], 0)
  | b :: r => if lensOf (b :: r) + n ≤ room then (b :: r, 0) else let q := makeRoom room n r; (q.1, q.2 + 1)

/-- A packet enters the queue (R325): the oldest packets are overwritten until it fits, and counted in BQ_LOST. -/
def queuePut (s : State) (b : Bark) : State :=
  let fits := decide (s.bqLevel + b.len ≤ queueWords)
  let q := if fits then (s.bq.queue, 0) else makeRoom queueWords b.len s.bq.queue
  let t := { s with bq := { s.bq with queue := q.1 ++ [b], loss := s.bq.loss || decide (0 < q.2),
                                      popped := if 0 < q.2 then 0 else s.bq.popped } }
  let t := t.countN Reg.BQ_LOST_LOST q.2
  showBq (t.when (0 < q.2 && 0 < s.bq.popped) (fun u => u.set Reg.BQ_STATUS_RESYNC))

/-- A packet enters the side buffer (R424). -/
def sidePut (s : State) (b : Bark) : State :=
  let q := makeRoom sideWords b.len s.bq.side
  { s with bq := { s.bq with side := q.1 ++ [b], sideLost := s.bq.sideLost + q.2 } }

/-- BARK_POST: the oldest staged packet is written through the port. -/
def barkPost (s : State) : State :=
  match s.bq.staged with
  | [] => s
  | b :: rest =>
    let t := logBark { s with bq := { s.bq with staged := rest } } b
    if t.queueUp then queuePut t b else sidePut t b

def execBarkPost (s : State) : Host.Outcome State Fault Refusal := answer s (barkPost s)

/-- PD27 goes off: the queue is lost, and the supervisor keeps the number of its packets (R424). -/
def queueOff (s : State) : State :=
  let t := { s with bq := { s.bq with heldAtOff := s.bq.heldAtOff + s.bq.queue.length, queue := [], popped := 0, lastPop := 0 } }
  showBq (t.clr Reg.BQ_CTRL_HOST_POP)

/-- The queue comes up with PD27 (R424): empty, its counters at what was lost, and the held packets moved in ahead of every new
one; the first carries AFTER_LOSS when packets were lost. -/
def queueOn (s : State) : State :=
  let n := s.bq.heldAtOff + s.bq.sideLost
  let side := s.bq.side
  let t := { s with bq := { s.bq with queue := [], popped := 0, lastPop := 0, loss := decide (n ≠ 0), side := [], sideLost := 0, heldAtOff := 0 } }
  let t := ((((t.clr Reg.BQ_CTRL_HOST_POP).clr Reg.BQ_STATUS_UNDERRUN).clr Reg.BQ_STATUS_RESYNC).clr Reg.BQ_FLUSHED_FLUSHED).wrSat
    Reg.BQ_LOST_LOST n
  showBq (side.foldl queuePut t)

/-- EVT entries a packet fills (R324). -/
def Bark.entries (b : Bark) : Nat := (b.len + 15) / 16

/-- The first packet as it leaves, with AFTER_LOSS after a loss. -/
def State.outBark (s : State) (b : Bark) : Bark := { b with afterLoss := b.afterLoss || s.bq.loss }

/-- The queue without its first packet. -/
def dequeue (s : State) : State :=
  showBq { s with bq := { s.bq with queue := s.bq.queue.drop 1, popped := 0, loss := false } }

/-- EVT_DRAIN: the DMA writes the oldest packet to the EVT ring, once the ring has room for the whole packet (R324); a hub that
does not lead sends it to the leader as a BARK message (R358). The DMA stands still while HOST_POP is set (R326). -/
def evtDrain (s : State) : State :=
  match s.bq.queue with
  | [] => s
  | b :: _ =>
    let o := s.outBark b
    let n := s.rd Reg.HP_EVT_RING_N
    if s.flag Reg.BQ_CTRL_HOST_POP || !s.queueUp then s
    else if s.follows then
      if s.leaderPath then (dequeue s).send 10 (s.rd Reg.OV_STAT_LEADER_ID) o.words else s
    else if s.ringsOn && (s.hp.evtPi + 2 ^ 16 - s.hp.evtCi) % 2 ^ 16 + b.entries ≤ 2 ^ n then
      let t := (dequeue s).emit (.evt (s.hp.evtPi % 2 ^ n) o)
      ({ t with hp := { t.hp with evtPi := (t.hp.evtPi + b.entries) % 2 ^ 16 } }).news 1
    else s

def execEvtDrain (s : State) : Host.Outcome State Fault Refusal := answer s (evtDrain s)

/-- A read of BQ_POP (R326): the register then holds the word that the read returns. -/
def bqPopRead (s : State) : State :=
  let give (t : State) (w : Nat) : State := { t.wr Reg.BQ_POP_WORD w with bq := { (t.wr Reg.BQ_POP_WORD w).bq with lastPop := w } }
  if !s.domOn 27 then s
  else if !s.flag Reg.BQ_CTRL_HOST_POP then give s 0
  else match s.bq.queue with
    | [] => (s.set Reg.BQ_STATUS_UNDERRUN).wr Reg.BQ_POP_WORD s.bq.lastPop
    | b :: rest =>
      let o := if s.bq.popped = 0 then s.outBark b else b
      let w := o.words.getD s.bq.popped 0
      let t := { s with bq := { s.bq with loss := s.bq.loss && s.bq.popped ≠ 0 } }
      let t := if s.bq.popped + 1 = b.len then { t with bq := { t.bq with queue := rest, popped := 0 } }
        else { t with bq := { t.bq with popped := s.bq.popped + 1 } }
      showBq (give t w)

def execBqPopRead (s : State) : Host.Outcome State Fault Refusal := answer s (bqPopRead s)

/-- HOST_POP ends: the remainder of a partly popped packet is discarded and counted in BQ_LOST (R326). -/
def endPop (s : State) : State :=
  let t := s.clr Reg.BQ_CTRL_HOST_POP
  if s.flag Reg.BQ_CTRL_HOST_POP && s.bq.popped ≠ 0 then
    showBq ({ t with bq := { t.bq with queue := t.bq.queue.drop 1, popped := 0 } }.count Reg.BQ_LOST_LOST)
  else t

/-- HOST_POP may be set: SAFE and COMMISSION (R326). -/
def State.popMode (s : State) : Bool := s.mode = mSAFE || s.mode = mCOMMISSION

/-- A write of BQ_CTRL.HOST_POP (R326). -/
def bqHostPop (s : State) (src : WrSrc) (v : Nat) : State :=
  s.write src .BQ_CTRL 0 0 false (fun t =>
    if v % 2 = 0 then (endPop t).journalW src .BQ_CTRL 0 0 0
    else if t.popMode then (t.set Reg.BQ_CTRL_HOST_POP).journalW src .BQ_CTRL 0 0 1
    else if src = .direct then t.discard (ofsOf .BQ_CTRL 0 0) else t)

def execBqHostPopWrite (src : WrSrc) (v : Nat) (s : State) : Host.Outcome State Fault Refusal := answer s (bqHostPop s src v)

/-- A write of BQ_CTRL.FLUSH (R327): every packet of the queue goes, counted in BQ_FLUSHED; bark BQ_FLUSH is the first packet of the
empty queue. -/
def bqFlush (s : State) (src : WrSrc) : State :=
  s.write src .BQ_CTRL 0 0 false (fun t =>
    let n := t.bq.queue.length
    let u := { t with bq := { t.bq with queue := [], popped := 0, staged := [] } }
    let u := (showBq (u.countN Reg.BQ_FLUSHED_FLUSHED n)).bark 1 0x0141 false [n]
    ({ u with bq := { u.bq with staged := u.bq.staged ++ t.bq.staged } }).journalW src .BQ_CTRL 0 0 2)

def execBqFlush (src : WrSrc) (s : State) : Host.Outcome State Fault Refusal := answer s (bqFlush s src)

/-- A write of BQ_CNT_CLR (R392). -/
def execBqCntClr (src : WrSrc) (clr : Nat) (s : State) : Host.Outcome State Fault Refusal :=
  answer s (s.write src .BQ_CNT_CLR 0 0 false
    (fun t => (t.clearCnts [Reg.BQ_LOST_LOST, Reg.BQ_FLUSHED_FLUSHED] clr).journalW src .BQ_CNT_CLR 0 0 clr))

end Sys2Proof.Machine
end

