-- ==== Sys2Proof/Machine/Refs.lean ====
section
/-! DEFINITION. Array time and references (R31 to R46): qualification, the selection machine, slews, holdover, outputs. An offset is a count of 2^-8 ns, as TB_REF_OFS holds it. -/

namespace Sys2Proof.Machine

/-! ## Classes and states -/

def clsEXT : Nat := 0
def clsPTP : Nat := 1
def clsLINK : Nat := 2
def clsLOCAL : Nat := 3

def tbACQUIRE : Nat := 0
def tbLOCKED : Nat := 1
def tbSWITCHING : Nat := 2
def tbHOLDOVER : Nat := 3
def tbFREE : Nat := 4

def State.tbState (s : State) : Nat := s.rd Reg.TB_STATE_STATE
def State.tbRef (s : State) : Nat := s.rd Reg.TB_STATE_REF
def State.qualified (s : State) (k : Nat) : Bool := bit (s.rd Reg.TB_STATE_QUAL) k
def State.todValid (s : State) : Bool := s.flag Reg.TB_STATE_TOD_VALID

def State.setQual (s : State) (k : Nat) (b : Bool) : State := s.wr Reg.TB_STATE_QUAL (setBit (s.rd Reg.TB_STATE_QUAL) k b)

/-- Qualification of a class begins, or stops; it counts from now. -/
def State.setQualifying (s : State) (k : Nat) (b : Bool) : State :=
  let t := s.wr Reg.TB_STATE_QUALIFYING (setBit (s.rd Reg.TB_STATE_QUALIFYING) k b)
  { t with tb := { t.tb with qualSince := t.tb.qualSince.put 0 k (if b then t.run + 1 else 0) } }

/-- The hub is the leader of its pack. -/
def State.leads (s : State) : Bool := s.rd Reg.OV_STAT_ROLE = 1

/-- The class may be selected at all: enabled, not LOCAL, and LINK never on the leader (R37). -/
def State.classOpen (s : State) (k : Nat) : Bool :=
  k < 3 && bit (s.rd Reg.TB_REF_SEL_ENABLE) k && !(k = clsLINK && s.leads)

/-- Rank of a class, 0 the best (R35, R37): on a follower with PACK_FOLLOW, LINK ranks above EXT and PTP. -/
def State.rank (s : State) (k : Nat) : Nat :=
  if k = clsLINK && !s.leads && s.flag Reg.TB_REF_SEL_PACK_FOLLOW then 0 else k + 1


/-- SLEW_MAX as it acts, in ns. -/
def State.slewMax (s : State) : Nat := min 10000 (s.rd Reg.TB_QUAL_CFG_SLEW_MAX)

/-- An offset lies within SLEW_MAX. -/
def State.inSlew (s : State) (ofs : Int) : Bool := iabs ofs ≤ s.slewMax * 256

/-- The offset of class `k` as its register shows it. -/
def State.refOfs (s : State) (k : Nat) : Int := s.rdS (Reg.TB_REF_OFS_OFS k)

/-- The highest-ranked qualified class other than LOCAL (R40) to which a slew may start: SLEW_MAX bounds every slew (R41), so a class
farther away is passed over (DEDUCED). -/
def State.best (s : State) : Option Nat :=
  ([0, 1, 2].filter (fun k => s.qualified k && s.classOpen k && s.inSlew (s.refOfs k))).foldl (fun b k =>
    match b with
    | none => some k
    | some j => if s.rank k < s.rank j then some k else some j) none

/-! ## Transitions (R40, R41, R44, R45) -/

/-- A 1.0 s slew to class `k` starts (R41); it ends a holdover, and its error bound reads 0 (R44). -/
def startSlew (s : State) (k : Nat) : State :=
  let t := (((s.wr Reg.TB_STATE_STATE tbSWITCHING).wr Reg.TB_STATE_TARGET k).clr Reg.TB_HOLD_EST_EST).count Reg.TB_CNT_SWITCHES
  let t := { t with tb := { t.tb with slewEnd := t.run + cclkSec, stepTo := none } }
  t.bark 2 0x0203 false [s.tbRef, k, s.rd (Reg.TB_REF_OFS_OFS k)]

/-- Training held, in whole hours (R45). -/
def State.trainHours (s : State) : Nat :=
  match s.tb.trainSince with
  | none => 0
  | some t => (s.run - t) / (3600 * cclkSec)

/-- FREE: the last frequency correction stays. -/
def enterFree (s : State) : State :=
  (((s.wr Reg.TB_STATE_STATE tbFREE).wr Reg.TB_STATE_REF clsLOCAL).clr Reg.TB_HOLD_EST_EST).bark 2 0x0206 true []

/-- No reference: HOLDOVER, or FREE at once with training under 1 h (R45). The training held is used up by the entry (DESIGN CHOICE:
the spec does not say what becomes of it): training counts anew from the next lock, so the loss of the target of a slew that began in
HOLDOVER leads to FREE. -/
def enterHoldover (s : State) : State :=
  let h := s.trainHours
  let t := (s.wrSat Reg.TB_HOLD_EST_TRAIN h).wr Reg.TB_STATE_REF clsLOCAL
  let t := { t with tb := { t.tb with trainSince := none, holdSince := t.run, stepTo := none } }
  if h = 0 then enterFree t
  else ((t.wr Reg.TB_STATE_STATE tbHOLDOVER).clr Reg.TB_HOLD_EST_EST).bark 2 0x0205 true []

/-- The reference in use, or the target of a slew, is gone: a slew to the best, the lock-out ignored, or holdover. -/
def loseRef (s : State) : State :=
  match s.best with
  | some k => startSlew s k
  | none => enterHoldover s

/-- A class loses qualification (R35): bark REF_LOST where it was qualified, and the loss rows of R40. A follower that loses
LINK sets PK0 and PK1 inactive (R89). -/
def refLost (s : State) (k : Nat) : State :=
  let was := s.qualified k
  let t := ((s.setQual k false).setQualifying k false).wr (Reg.TB_REF_OFS_OFS k) 0
  let t := { t with tb := { t.tb with disagreed := t.tb.disagreed.filter (fun j => j ≠ k),
                                      stepTo := if t.tb.stepTo = some k then none else t.tb.stepTo } }
  if !was then t
  else
    let t := t.bark 2 0x0202 true [k]
    let t := if k = clsLINK && !t.leads then packLinkLost t else t
    if t.tbState = tbLOCKED && t.tbRef = k then loseRef t
    else if t.tbState = tbSWITCHING && t.rd Reg.TB_STATE_TARGET = k then loseRef t
    else t

def execRefLost (k : Nat) (s : State) : Host.Outcome State Fault Refusal :=
  guardItem (k < 3) (answer s (refLost s k))

/-- Bark REF_DISAGREE once per qualification (R40). -/
def disagree (s : State) (k : Nat) : State :=
  if s.tb.disagreed.contains k then s
  else ({ s with tb := { s.tb with disagreed := s.tb.disagreed ++ [k] } }).bark 2 0x0207 true [k]

/-- A step is permitted (R40). -/
def State.stepAllowed (s : State) : Bool := s.flag Reg.TB_REF_SEL_STEP_ALLOW || s.flag Reg.TB_REF_SEL_STEP_ONCE

/-- A class has qualified, and its offset is known: the rows of R40. -/
def onQualified (s : State) (k : Nat) (ofs : Int) : State :=
  if s.tbState = tbACQUIRE then
    if s.todValid then { s with tb := { s.tb with stepTo := some k } } else s
  else if s.tbState = tbLOCKED then
    match s.best with
    | some b => if s.rank b < s.rank s.tbRef && !s.flag Reg.TB_STATE_LOCKOUT then startSlew s b else s
    | none => s
  else if s.tbState = tbSWITCHING then s
  else if s.inSlew ofs then (match s.best with | some b => startSlew s b | none => s)
  else if s.stepAllowed then { s with tb := { s.tb with stepTo := some k } }
  else disagree s k

/-- The criteria of a class that the hub's state shows (R35): EXT needs the time of day, PTP a grandmaster of clockClass 6 or 7, and
LINK a leader that is not in ACQUIRE. -/
def State.refMeets (s : State) (k : Nat) : Bool :=
  if k = clsEXT then s.todValid
  else if k = clsPTP then s.tb.ptpMaster
  else s.rd Reg.OV_STAT_LEADER_ID ≠ 255 && s.rd Reg.TB_STATE_UPSTREAM ≠ tbACQUIRE

/-- REF_QUALIFIED (R35, R36, R40): the criteria have held for 10 s. A class that disagrees with AT by more than SLEW_MAX in
LOCKED or SWITCHING is withheld. -/
def refQualified (s : State) (k : Nat) (ofs : Int) : State :=
  let since := s.tb.qualSince.get 0 k
  if s.classOpen k && s.tb.oven && !s.qualified k && since ≠ 0 && s.elapsed (since - 1) (10 * cclkSec) && s.refMeets k then
    if (s.tbState = tbLOCKED || s.tbState = tbSWITCHING) && !s.inSlew ofs then disagree s k
    else
      let t := ((s.setQual k true).setQualifying k false).wrS (Reg.TB_REF_OFS_OFS k) ofs
      let t := if k = clsEXT then t else t.set Reg.TB_STATE_TOD_VALID
      onQualified (t.bark 2 0x0201 false [k]) k ofs
  else s

def execRefQualified (k : Nat) (ofs : Int) (s : State) : Host.Outcome State Fault Refusal :=
  guardItem (k < 3) (answer s (refQualified s k ofs))

/-- A measured offset of a class (R37, R40, R41): it shows in TB_REF_OFS while the class is qualified; the reference in use
beyond SLEW_MAX is lost, and beyond 100 ns it is slewed to. In HOLDOVER and FREE a class that qualified beyond SLEW_MAX is taken by a
later measurement within it, or once a step has become permitted (DESIGN CHOICE: the rows of R40 speak only of the moment at which a
class qualifies). -/
def refMeasured (s : State) (k : Nat) (ofs : Int) : State :=
  if !s.qualified k then s
  else
    let t := s.wrS (Reg.TB_REF_OFS_OFS k) ofs
    if t.tbState = tbLOCKED && t.tbRef = k then
      if !t.inSlew ofs then refLost (t.bark 2 0x0207 true [k]) k
      else if 100 * 256 < iabs ofs then startSlew t k
      else t
    else if (t.tbState = tbHOLDOVER || t.tbState = tbFREE) && t.inSlew ofs then startSlew t k
    else if (t.tbState = tbHOLDOVER || t.tbState = tbFREE) && t.stepAllowed then { t with tb := { t.tb with stepTo := some k } }
    else t

/-- A slew completes (R41): LOCKED on the target, and the 10 s lock-out starts. Training counts while LOCKED on EXT or PTP. -/
def switchDone (s : State) : State :=
  if s.tbState = tbSWITCHING && s.tb.slewEnd ≤ s.run then
    let k := s.rd Reg.TB_STATE_TARGET
    let t := (((s.wr Reg.TB_STATE_STATE tbLOCKED).wr Reg.TB_STATE_REF k).wr Reg.TB_STATE_TARGET clsLOCAL).set Reg.TB_STATE_LOCKOUT
    let t := { t with tb := { t.tb with
      lockEnd := t.run + 10 * cclkSec, linkPull := decide (k = clsLINK),
      trainSince := if k ≤ 1 then (match t.tb.trainSince with | none => some t.run | some x => some x) else none } }
    (t.clr Reg.TB_HOLD_EST_EST).bark 2 0x0204 false []
  else s

def execSwitchDone (s : State) : Host.Outcome State Fault Refusal := answer s (switchDone s)

/-- The lock-out ends (R40, R42): a slew to a better qualified class starts if one waits. -/
def lockoutEnd (s : State) : State :=
  if s.flag Reg.TB_STATE_LOCKOUT && s.tb.lockEnd ≤ s.run then
    let t := s.clr Reg.TB_STATE_LOCKOUT
    match t.best with
    | some b => if t.tbState = tbLOCKED && t.rank b < t.rank t.tbRef then startSlew t b else t
    | none => t
  else s

def execLockoutEnd (s : State) : Host.Outcome State Fault Refusal := answer s (lockoutEnd s)

/-! ## The reference inputs (R35, R39) -/

/-- A class that is open and meets its criteria begins its 10 s. -/
def beginQualifying (s : State) (k : Nat) : State :=
  if s.classOpen k && s.tb.oven && !s.qualified k && s.tb.qualSince.get 0 k = 0 && s.refMeets k then s.setQualifying k true else s

/-- 1PPS_IN (R35): `cyc` cycles of 10M_IN since the last edge, and the offset as measured before the cable delay, which is
subtracted. An edge out of place is EXT's loss at that edge. -/
def ppsEdge (s : State) (cyc : Nat) (ofs : Int) : State :=
  let d := rne (s.rdS Reg.TB_EXT_DELAY_DELAY * 256) 1000
  let s := { s with tb := { s.tb with ppsLast := some s.run } }
  if 9999999 ≤ cyc && cyc ≤ 10000001 then refMeasured (beginQualifying s clsEXT) clsEXT (ofs - d)
  else refLost s clsEXT

def execPpsInEdge (cyc : Nat) (ofs : Int) (s : State) : Host.Outcome State Fault Refusal := answer s (ppsEdge s cyc ofs)

/-- The VLAN tag that the port sends and expects (R39). -/
def State.ptpVlan (s : State) : Option Nat := if s.flag Reg.TB_PTP_CFG_VLAN_EN then some (s.rd Reg.TB_PTP_CFG_VLAN_ID) else none

/-- A PTP message (R39): 0 Announce with its clockClass, 1 Sync, 2 Delay_Resp, 3 Follow_Up; every other type is discarded, and so is a
message on another transport, domain or VLAN. `ofs` is the offset that the exchange measures, where it does. A Sync of an accepted
master is answered by a Delay_Req (DESIGN CHOICE: the spec does not say when the port sends one), and TB_PTP_ASYM is added to the offset
(DESIGN CHOICE: the spec does not state its sign). -/
def ptpMessage (s : State) (type : Nat) (udp : Bool) (domain : Nat) (vlan : Option Nat) (cls : Nat) (ofs : Option Int) : State :=
  if !(udp = s.flag Reg.TB_PTP_CFG_TRANSPORT && domain = s.rd Reg.TB_PTP_CFG_DOMAIN && vlan = s.ptpVlan) || 4 ≤ type then s
  else if type = 0 then
    let good := decide (cls = 6 || cls = 7)
    let t := { s with tb := { s.tb with ptpMaster := good } }
    if good then t else refLost t clsPTP
  else
    let t := { s with tb := { s.tb with ptpSync := s.tb.ptpSync + b2n (type = 1), ptpDelay := s.tb.ptpDelay + b2n (type = 2) } }
    let t := beginQualifying t clsPTP
    let t := t.when (type = 1 && t.tb.ptpMaster) (fun u => u.emit (.ptp 1 (u.rd Reg.TB_PTP_CFG_DOMAIN) u.ptpVlan))
    match ofs with
    | none => t
    | some o => refMeasured t clsPTP (o + rne (s.rdS Reg.TB_PTP_ASYM_ASYM * 256) 1000)

def execPtpMessage (type : Nat) (udp : Bool) (domain : Nat) (vlan : Option Nat) (cls : Nat) (ofs : Option Int) (s : State) :
    Host.Outcome State Fault Refusal :=
  answer s (ptpMessage s type udp domain vlan cls ofs)

/-- The PTP window that ends at an AT second (R35): lost with fewer than 8 Sync messages or no delay measurement. A window that a step
of AT or a start has cut short is not judged (DEDUCED). -/
def ptpWindow (s : State) : State :=
  let t := { s with tb := { s.tb with ptpSync := 0, ptpDelay := 0, ptpWhole := true } }
  if s.tb.ptpWhole && (s.tb.ptpSync < 8 || s.tb.ptpDelay = 0) then refLost t clsPTP else t

/-- The class is qualified, or its 10 s run. -/
def State.refRuns (s : State) (k : Nat) : Bool := s.qualified k || s.tb.qualSince.get 0 k ≠ 0

/-- The last instant of a signal lies longer ago than `span`. -/
def State.silent (s : State) (last : Option Nat) (span : Nat) : Bool :=
  match last with | some t => s.elapsed t span | none => false

/-- The losses of R35 that come of silence or at an AT second: EXT 1 s + 1 µs after its last edge, LINK after 3 ms without a transfer, and
the window of PTP. Every other loss comes with its own row. -/
def refWatch (s : State) : State :=
  let t := if s.now % cclkSec = 0 then ptpWindow s else s
  let t := if t.refRuns clsEXT && t.silent t.tb.ppsLast (cclkSec + cclkUs 1) then refLost t clsEXT else t
  if t.refRuns clsLINK && t.silent t.tb.linkLast (3 * cclkMs) then refLost t clsLINK else t

/-- A transfer from the upstream neighbour on side `sd` (R35, R38, R344): `mean` is the offset in ps. It keeps LINK through a change of
the upstream hub whose jump is at most 1 ns; a larger jump is LINK's loss, and its requalification begins. The residual of ±100 ps is
judged while the hub steers on LINK, once the loop has removed what a slew, a step or such a jump left (DEDUCED: R41 lets the loop follow
up to 100 ns, and an offset of a reference that the hub does not steer on is no residual). -/
def linkTransfer (s : State) (sd : Nat) (mean : Int) : State :=
  let frm := some (sd, s.rd Reg.OV_STAT_LEADER_ID)
  let turned := s.tb.linkFrom.isSome && s.tb.linkFrom ≠ frm
  let jump := turned && 1000 < iabs (mean - s.tb.linkOfs)
  let pull := !jump && (turned || s.tb.linkPull) && 100 < iabs mean
  let t := { s with tb := { s.tb with linkLast := some s.run, linkOfs := mean, linkFrom := frm, linkPull := pull } }
  let steers := t.tbState = tbLOCKED && t.tbRef = clsLINK
  if !t.refMeets clsLINK then refLost t clsLINK
  else if jump || (steers && !pull && 100 < iabs mean) then beginQualifying (refLost t clsLINK) clsLINK
  else refMeasured (beginQualifying t clsLINK) clsLINK (rne (mean * 256) 1000)

/-- The oven reports stable (R361): classes may begin to qualify. -/
def execOscOvenStable (s : State) : Host.Outcome State Fault Refusal := answer s { s with tb := { s.tb with oven := true } }

/-! ## Holdover (R44, R45) -/

/-- The worst-case time error of R45 after `t` seconds, in ns; between the listed instants the spec states none. -/
def holdBound (t : Nat) : Nat :=
  if t = 10 then 2 else if t = 600 then 50 else if t = 3600 then 200 else if t = 14400 then 1000
  else if t = 86400 then 100000 else Config.holdBound t

/-- TB_HOLD_EST once per second; beyond LIMIT (0 acts as 1) the hub enters FREE. -/
def holdEst (s : State) : State :=
  if s.tbState = tbHOLDOVER then
    let b := holdBound ((s.run - s.tb.holdSince) / cclkSec)
    let t := s.wrSat Reg.TB_HOLD_EST_EST (if s.rd Reg.TB_HOLD_EST_TRAIN < 24 then 4 * b else b)
    if max 1 (t.rd Reg.TB_HOLD_LIMIT) < t.rd Reg.TB_HOLD_EST_EST then enterFree t else t
  else s

def execHoldEstUpdate (s : State) : Host.Outcome State Fault Refusal := answer s (holdEst s)

/-! ## Counters and the snapshot -/

def tbCnts : List Fld := [Reg.TB_CNT_SWITCHES, Reg.TB_CNT_SCHED_LATE, Reg.TB_CNT_ANG_MISSED, Reg.TB_CNT_ANG_UNPRED, Reg.TB_CNT_ANG_LATE_REMOTE]

/-- A write of TB_CNT_CLR (R392). -/
def execTbCntClr (src : WrSrc) (clr : Nat) (s : State) : Host.Outcome State Fault Refusal :=
  answer s (s.write src .TB_CNT_CLR 0 0 false (fun t => t.clearCnts tbCnts clr))

/-- A read of the first word of TB_AT_SNAP latches the whole (R413). -/
def atSnap (s : State) : State :=
  let a := at96 s.now
  ((((s.wr Reg.TB_AT_SNAP_FRAC a.frac).wr Reg.TB_AT_SNAP_NS a.ns).wr Reg.TB_AT_SNAP_SECONDS a.sec).wr Reg.TB_AT_SNAP_BEAT
    (s.bn % 64000)).wr Reg.TB_AT_SNAP_STATE s.tbState

def execTbAtSnap (s : State) : Host.Outcome State Fault Refusal := answer s (atSnap s)

/-! ## The timing outputs (R46) -/

/-- 10M_OUT carries the synthesised 10 MHz. -/
def State.out10M (s : State) : Bool := s.mode ≠ mDORMANT && s.tbState ≠ tbACQUIRE

/-- The level of 1PPS_OUT. -/
def State.outPps (s : State) : Bool :=
  let w := max 1 (min 500 (s.rd Reg.TB_OUT_CFG_PPS_WIDTH))
  let on := s.tbState = tbLOCKED || s.tbState = tbSWITCHING || s.tbState = tbHOLDOVER || (s.tbState = tbFREE && s.flag Reg.TB_OUT_CFG_FREE_PPS)
  s.mode ≠ mDORMANT && on && s.now % cclkSec < w * cclkMs

end Sys2Proof.Machine
end

