-- ==== Sys2Proof/Machine/Ovnas.lean ====
section
/-! DEFINITION. Ovnas (R333 to R359, R364, R406): lanes, frames and credits, time transfer, routes, roles, and the messages between
the hubs of a pack. Ports 0 and 1 face west, 2 and 3 east; port p has lanes 2p and 2p + 1; a side is 0 west, 1 east. -/

namespace Sys2Proof.Machine

/-! ## Lanes (R334, R335, R364) -/

def lDOWN : Nat := 0
def lTRAINING : Nat := 1
def lNOT_READY : Nat := 2
def lUP : Nat := 3

def laneFld (l : Nat) : Fld := if l % 2 = 0 then Reg.OV_PORT_STAT_LANE0 (l / 2) else Reg.OV_PORT_STAT_LANE1 (l / 2)
def State.laneState (s : State) (l : Nat) : Nat := s.rd (laneFld l)
def State.laneUp (s : State) (l : Nat) : Bool := s.laneState l = lUP
def State.lane (s : State) (l : Nat) : Lane := s.ov.lanes.get {} l
def State.modLane (s : State) (l : Nat) (g : Lane → Lane) : State :=
  { s with ov := { s.ov with lanes := s.ov.lanes.put {} l (g (s.lane l)) } }

def sideLanes (sd : Nat) : List Nat := [4 * sd, 4 * sd + 1, 4 * sd + 2, 4 * sd + 3]
def State.sideUp (s : State) (sd : Nat) : Bool := (sideLanes sd).any s.laneUp
def State.upLane (s : State) (sd : Nat) : Option Nat := (sideLanes sd).find? s.laneUp

def ovBark (s : State) (code : Nat) (warn : Bool) (payload : List Nat) : State := s.bark 5 code warn payload

/-- OVW and OVE (R30, R335, R349): OUT while a port of the side has both lanes DOWN, or after the loss of the identity. An image that
does not list the side leaves it NONE. An entry that SELFTEST has not set yet waits for it. -/
def sideParts (s : State) : State :=
  [0, 1].foldl (fun u sd =>
    let dead := [2 * sd, 2 * sd + 1].any (fun p => s.laneState (2 * p) = lDOWN && s.laneState (2 * p + 1) = lDOWN)
    let waits := (s.mode = mBOOT || s.mode = mDORMANT) && u.rd (partFld (30 + sd)) = pNONE
    if u.listed (30 + sd) && !waits then u.setPart (30 + sd) (if dead || u.ov.dup then pOUT else pIN) else u) s

/-! ## Routes (R346, R347) -/

def State.peer (s : State) (h : Nat) : Peer := s.ov.peers.get {} h
def State.modPeer (s : State) (h : Nat) (g : Peer → Peer) : State :=
  { s with ov := { s.ov with peers := s.ov.peers.put {} h (g (s.peer h)) } }

/-- The side of a route, as OV_ROUTE codes it: 0 none, 1 west, 2 east, 3 this hub. Fewer hops win; a tie goes west. -/
def State.routeSide (s : State) (h : Nat) : Nat :=
  let p := s.peer h
  let w := s.sideUp 0 && p.hopsW ≠ 0
  let e := s.sideUp 1 && p.hopsE ≠ 0
  if h = s.me then 3 else if w && (!e || p.hopsW ≤ p.hopsE) then 1 else if e then 2 else 0

/-- Show the route to hub `h`, and whether it can be reached. -/
def showRoute (s : State) (h : Nat) : State :=
  let sd := s.routeSide h
  let p := s.peer h
  let t := ((s.wr (Reg.OV_ROUTE_SIDE h) sd).wr (Reg.OV_ROUTE_HOPS h) (if sd = 1 then p.hopsW else if sd = 2 then p.hopsE else 0)).wrSat
    (Reg.OV_ROUTE_DELAY h) (if sd = 0 || sd = 3 then 0 else p.path)
  if h = s.me then t
  else
    let t := t.modPeer h (fun q => { q with reach := decide (sd ≠ 0) })
    { t with ov := { t.ov with forwards := t.ov.forwards.map (fun f =>
      if f.target = h then { f with lostAt := if sd ≠ 0 then none else (match f.lostAt with | none => some t.run | some x => some x) } else f) } }

/-- A side hears the leader: its last heartbeat is younger than LOSS_MS. -/
def State.lossMs (s : State) : Nat := max 5 (min 30 (s.rd Reg.OV_PACK_CFG_LOSS_MS)) * cclkMs
def State.hears (s : State) (sd : Nat) : Option Nat :=
  match (if sd = 0 then s.ov.hbWest else s.ov.hbEast) with
  | some q => if s.sideUp sd && !s.elapsed q.2 s.lossMs then some q.1 else none
  | none => none

/-- TOPO and the upstream side (R346), and bark OV_TOPOLOGY when one of them changes. A hub with an UP side that hears the heartbeat on
neither reads CHAIN, as the leader of a chain does (DEDUCED). -/
def showTopo (s : State) : State :=
  let w := s.hears 0
  let e := s.hears 1
  let topo := if !s.sideUp 0 && !s.sideUp 1 then 0 else if w.isSome && e.isSome then 2 else 1
  let up := match w, e with
    | some a, some b => if a ≤ b then 0 else 1
    | some _, none => 0
    | none, some _ => 1
    | none, none => s.rd Reg.OV_STAT_UPSTREAM
  let hops := match w, e with
    | some a, some b => min a b
    | some a, none => a
    | none, some b => b
    | none, none => s.rd Reg.OV_STAT_HOPS
  let t := ((s.wr Reg.OV_STAT_TOPO topo).wr Reg.OV_STAT_UPSTREAM up).wr Reg.OV_STAT_HOPS (if s.follows then hops else 0)
  if topo ≠ s.rd Reg.OV_STAT_TOPO || up ≠ s.rd Reg.OV_STAT_UPSTREAM then ovBark t 0x0506 false [topo, up] else t

/-- This hub has raw streams open or pending (R359). -/
def State.rawOpen (s : State) : Bool := s.defs.any (fun d => d.clock = 3)

/-- HUBS, RAW_HUBS and MAX_DELAY (R346, R355, R359). -/
def showPack (s : State) : State :=
  let ps := (s.ov.peers.filter (fun p => p.2.reach)).map (fun p => p.2)
  let t := s.wr Reg.OV_PACK_STAT_HUBS (ps.length + 1)
  if s.follows then t
  else (t.wrSat Reg.OV_PACK_STAT_RAW_HUBS ((ps.filter (fun p => p.raw)).length + b2n s.rawOpen)).wrSat Reg.OV_PACK_STAT_MAX_DELAY
    ((ps.foldl (fun m p => max m p.delay) 0) / 1000)

/-- Build the routes again after a change. A hub that takes the other side is a reroute: HEALS, its bark, and the completions that
the leader has not acknowledged go again (R347, R355). -/
def rerouteAll (s : State) : State :=
  let hs := s.ov.peers.map (fun p => p.1)
  let t := hs.foldl showRoute s
  let turned := hs.any (fun h => s.rd (Reg.OV_ROUTE_SIDE h) ≠ 0 && t.rd (Reg.OV_ROUTE_SIDE h) ≠ 0 && s.rd (Reg.OV_ROUTE_SIDE h) ≠ t.rd (Reg.OV_ROUTE_SIDE h))
  let t := showPack (showTopo t)
  isoUpdate (if turned then
    let u := ovBark (t.count Reg.OV_CNT_HEALS) 0x0505 true []
    u.ov.kept.foldl (fun v c => v.send 9 (match c.via with | .message l => l | .ring => 255) [c.tag, c.index, c.result, c.endCause]) u
  else t)

/-! ## Frames (R336 to R343) -/

/-- The header of a frame before its FCRC. -/
def frameHead (f : Frame) : List Nat :=
  leBytes 4 f.seq ++ [(f.vl % 4 + 4 * f.type) % 256, f.src % 256, f.dst % 256, f.hops % 256] ++ leBytes 2 f.len
    ++ [b2n f.first + 2 * b2n f.last, f.buf % 256] ++ (List.range 4).map (fun v => f.credit.getD v 0 % 256) ++ leBytes 4 f.ack
    ++ leBytes 4 f.msg ++ leBytes 4 f.ofs

/-- FCRC of a frame (R336): over the header's first 28 bytes and the whole payload of 1,024 bytes. -/
def frameCrc (f : Frame) : Nat := crc32 (frameHead f ++ f.payload.take 1024 ++ List.replicate (1024 - f.payload.length) 0)

/-- The receiver takes the frame: FCRC right, a known type, on the VL of its type (R337). Type 0 is known too: the table has no type for
LINK_DOWN and HANDOVER, which R347 and R352 send (DESIGN CHOICE). -/
def frameOk (f : Frame) : Bool := f.fcrc = frameCrc f && f.type ≤ 13 && f.vl = vlOf f.type

/-- A frame with its FCRC. -/
def sealFrame (f : Frame) : Frame := { f with fcrc := frameCrc f }

/-- The frames of a message (R336, R338); SEQ, CREDIT, ACK and FCRC come when each is sent. -/
def framesOf (m : Msg) : List Frame :=
  let n := max 1 ((m.data.length + 1023) / 1024)
  (List.range n).map (fun i =>
    let part := (m.data.drop (1024 * i)).take 1024
    { seq := 0, vl := vlOf m.type, type := m.type, src := m.src, dst := m.dst, hops := 0, len := max 1 part.length, first := decide (i = 0),
      last := decide (i + 1 = n), buf := m.buf, credit := [], ack := 0, msg := m.id, ofs := 1024 * i, payload := part, fcrc := 0 })

/-- The lanes a message takes: its own, or the lowest UP lane of its side, of the side of its route, or of both sides for every hub. -/
def State.msgLanes (s : State) (m : Msg) : List Nat :=
  if 4 ≤ m.side then [m.side - 4].filter s.laneUp
  else if m.side ≤ 1 then [m.side].filterMap s.upLane
  else if m.dst = 255 then [0, 1].filterMap s.upLane
  else match s.routeSide m.dst with | 1 => [0].filterMap s.upLane | 2 => [1].filterMap s.upLane | _ => []

/-- Each message that a lane can carry is put on it, whole (R338); one for a hub without a route waits for it, and floods skip a side that
is down. -/
def allocMsgs (s : State) : State :=
  s.ov.txq.foldl (fun t m =>
    let ls := t.msgLanes m
    if ls.isEmpty && m.dst ≠ 255 && m.side = 2 then { t with ov := { t.ov with txq := t.ov.txq ++ [m] } }
    else ls.foldl (fun u l => u.modLane l (fun k => { k with toSend := k.toSend ++ (framesOf m).map (fun f => (f, 8)) })) t)
    { s with ov := { s.ov with txq := [] } }

/-- A receive buffer of VL `v` of lane `l` is free: its credit is owed to the neighbour (R342). A frame of this hub, of lane 8, fills
none. -/
def State.owes (s : State) (l v : Nat) : State :=
  if l < 8 then s.modLane l (fun k => { k with owe := (List.range 4).map (fun w => k.owe.getD w 0 + b2n (w = v)) }) else s

def State.held (s : State) (l v : Nat) : Nat := s.rd (Reg.OV_CREDIT_HELD l v)

/-- The VL whose frame leaves next on lane `l` (R341): VL0, then VL1, then VL2 and VL3 three to one; one without a frame or a
credit is passed over. -/
def State.nextVl (s : State) (l : Nat) : Option Nat :=
  let k := s.lane l
  let can (v : Nat) : Bool := k.toSend.any (fun e => e.1.vl = v) && 0 < s.held l v
  if can 0 then some 0 else if can 1 then some 1
  else if can 2 && !(can 3 && 3 ≤ k.vl2) then some 2 else if can 3 then some 3 else none

/-- The frame that lane `l` can send now: of the VL that is next, while the replay buffer has room (R340, R341). -/
def State.nextFrame (s : State) (l : Nat) : Option (Frame × Nat) :=
  match s.nextVl l with
  | none => none
  | some v => if s.laneUp l && (s.lane l).replay.length < 1024 then (s.lane l).toSend.find? (fun e => e.1.vl = v) else none

/-- The frame as it leaves lane `l`: the next SEQ, the credits owed, and the ACK of the last frame received in order (R336, R342). -/
def State.outFrame (s : State) (l : Nat) (f : Frame) : Frame :=
  sealFrame { f with seq := s.rd (Reg.OV_LANE_CNT_SEQ_TX l), ack := (s.rd (Reg.OV_LANE_CNT_SEQ_RX l) + (2 ^ 32 - 1)) % 2 ^ 32,
                     credit := (List.range 4).map (fun w => min 255 ((s.lane l).owe.getD w 0)) }

/-- With no frame to send, the credits owed go back in ordered sets, one for each VL (R342). -/
def creditSets (s : State) (l : Nat) : State :=
  if s.laneUp l && (s.lane l).owe.any (fun n => n ≠ 0) then
    let t := (List.range 4).foldl (fun u v =>
      let n := (s.lane l).owe.getD v 0
      if n = 0 then u else u.emit (.ordered l 3 (v + 4 * n))) s
    t.modLane l (fun k => { k with owe := [] })
  else s

/-- One frame leaves lane `l`: it takes the next SEQ, one credit and the credits owed, stands in the replay buffer until it is
acknowledged, and frees the buffer it filled (R340, R342, R343). -/
def sendFrame (s : State) (l : Nat) : State :=
  match s.nextFrame l with
  | none => creditSets s l
  | some e =>
    let f := s.outFrame l e.1
    let t := s.modLane l (fun k => { k with
      toSend := k.toSend.erase e, replay := k.replay ++ [f], owe := (List.range 4).map (fun w => k.owe.getD w 0 - f.credit.getD w 0),
      vl2 := if f.vl = 2 then k.vl2 + 1 else if f.vl = 3 then 0 else k.vl2 })
    let t := (t.wr (Reg.OV_LANE_CNT_SEQ_TX l) (f.seq + 1)).wr (Reg.OV_CREDIT_HELD l f.vl) (s.held l f.vl - 1)
    ((t.countMod (Reg.OV_CREDIT_IN_FLIGHT l f.vl)).owes e.2 f.vl).emit (.frame l f)

/-- The transmitters of the eight lanes: messages onto lanes, and a frame or the credits of each lane. -/
def ovPump (s : State) : State :=
  if s.ov.txq.isEmpty && s.ov.lanes.all (fun e => e.2.toSend.isEmpty && e.2.owe.isEmpty) then s
  else (List.range 8).foldl sendFrame (allocMsgs s)

/-- Credits come back for VL `v` (R343). -/
def creditBack (s : State) (l v n : Nat) : State :=
  let m := min n (s.rd (Reg.OV_CREDIT_IN_FLIGHT l v))
  (s.wr (Reg.OV_CREDIT_HELD l v) (s.held l v + m)).wr (Reg.OV_CREDIT_IN_FLIGHT l v) (s.rd (Reg.OV_CREDIT_IN_FLIGHT l v) - m)

/-- The frames up to SEQ `a` are acknowledged (R339, R340): they leave the replay buffer. Those of a message that is not
acknowledged whole are kept, for a lane that goes DOWN. -/
def ackTo (k : Lane) (a : Nat) : Lane :=
  let old (f : Frame) : Bool := f.seq = a || serialAfter 32 a f.seq
  let done := k.replay.filter old
  let kept := k.kept ++ done
  let whole (f : Frame) : Bool := kept.any (fun g => g.last && g.src = f.src && g.vl = f.vl && g.msg = f.msg)
  { k with replay := k.replay.filter (fun f => !old f), kept := kept.filter (fun f => !whole f) }

/-- A frame of a message for this hub joins its message (R338). A whole message of type 6 and above waits for its row; those of time and
control, types 1 to 5, come with their rows at once. -/
def assemble (s : State) (l : Nat) (f : Frame) : State :=
  let mine (p : Partial) : Bool := p.src = f.src && p.vl = f.vl
  let k := s.lane l
  let bytes := f.payload.take f.len
  let cur := k.partials.find? (fun p => mine p && p.msg = f.msg)
  let rest := k.partials.filter (fun p => !mine p)
  let next : Option Partial := if f.first then some { src := f.src, vl := f.vl, msg := f.msg, type := f.type, data := bytes }
    else match cur with
      | some p => if p.data.length = f.ofs && p.data.length + f.len ≤ 1048640 then some { p with data := p.data ++ bytes } else none
      | none => none
  match next with
  | none => s.modLane l (fun k => { k with partials := rest })
  | some p =>
    if f.last then
      let t := s.modLane l (fun k => { k with partials := rest })
      if f.type ≤ 5 then t else { t with ov := { t.ov with inbox := t.ov.inbox ++ [p] } }
    else s.modLane l (fun k => { k with partials := rest ++ [p] })

/-- The lane of side `sd` on which a frame goes on: that of the earlier frames of its message, which is carried whole on one lane (R338);
a first frame takes the lowest UP lane. -/
def State.msgLane (s : State) (sd : Nat) (f : Frame) : Option Nat :=
  let same (g : Frame) : Bool := g.src = f.src && g.vl = f.vl && g.msg = f.msg
  match (sideLanes sd).find? (fun m => s.laneUp m && !f.first &&
      ((s.lane m).kept.any same || (s.lane m).replay.any same || (s.lane m).toSend.any (fun e => same e.1))) with
  | some m => some m
  | none => s.upLane sd

/-- The lane on which a frame goes on to the next hub (R336, R341, R348): for every hub, or for another one; none for one that has
travelled 64 hops, which is discarded, and for this hub's own flood when it has come round. A TT ends here (R344); a
HEARTBEAT goes on as HEARTBEAT_RECEIVE floods it, with its own hop count (R346). -/
def State.onward (s : State) (l : Nat) (f : Frame) : Option Nat :=
  let sd := if f.dst = 255 then 1 - l / 4 else match s.routeSide f.dst with | 1 => 0 | 2 => 1 | _ => 2
  if f.src = s.me || f.dst = s.me || 64 ≤ f.hops + 1 || !s.domOn 27 || 2 ≤ sd || (f.dst = 255 && f.type ≤ 2) then none else s.msgLane sd f

/-- A frame goes on, and fills its receive buffer until it is sent; one that does not go on is consumed, and its buffer is free (R342). -/
def forwardFrame (s : State) (l : Nat) (f : Frame) : State :=
  match s.onward l f with
  | some m => s.modLane m (fun k => { k with toSend := k.toSend ++ [({ f with hops := f.hops + 1, credit := [], ack := 0 }, l)] })
  | none => s.owes l f.vl

/-- OV_FRAME_RECEIVE (R336 to R343): a frame that is discarded is counted, and a missing one is asked for with one NAK; every other is
taken in SEQ order. One that was taken before, resent after a retrain, fills no buffer: its credit is owed again (DESIGN CHOICE). `corr` and `uncorr` are the codewords corrected and uncorrectable since the last frame. -/
def frameReceive (s : State) (l : Nat) (f : Frame) (corr uncorr : Nat) : State :=
  let s := (s.countN (Reg.OV_LANE_CNT_FEC_CORR l) corr).countN (Reg.OV_LANE_CNT_FEC_UNCORR l) uncorr
  let want := s.rd (Reg.OV_LANE_CNT_SEQ_RX l)
  let nak (t : State) : State :=
    if (s.lane l).nak then t else (t.modLane l (fun k => { k with nak := true })).emit (.ordered l 2 want)
  if s.laneState l < lNOT_READY then s
  else if !frameOk f then nak (s.count (Reg.OV_LANE_CNT_CRC_ERR l))
  else if f.seq ≠ want then (if serialAfter 32 want f.seq then s.owes l f.vl else nak s)
  else
    let t := (s.wr (Reg.OV_LANE_CNT_SEQ_RX l) (want + 1)).modLane l (fun k => ackTo { k with nak := false } f.ack)
    let t := (List.range 4).foldl (fun u v => creditBack u l v (f.credit.getD v 0)) t
    let t := if f.dst = s.me || (f.dst = 255 && f.src ≠ s.me) then assemble t l f else t
    forwardFrame t l f

def execOvFrameReceive (l : Nat) (f : Frame) (corr uncorr : Nat) (s : State) : Host.Outcome State Fault Refusal :=
  guardItem (l < 8) (answer s (frameReceive s l f corr uncorr))

/-- OV_NAK: the transmitter resends from SEQ `q`, go-back-N (R340). -/
def ovNak (s : State) (l q : Nat) : State :=
  let fs := (s.lane l).replay.filter (fun f => f.seq = q || serialAfter 32 f.seq q)
  fs.foldl (fun t f => t.emit (.frame l f)) (s.countN (Reg.OV_LANE_CNT_RETX l) fs.length)

def execOvNak (l q : Nat) (s : State) : Host.Outcome State Fault Refusal := guardItem (l < 8) (answer s (ovNak s l q))

/-- OV_CREDIT_SET: credits come back, or are advertised anew at the transition to UP, where the frames resent from the replay buffer are
in flight (R340, R342, R343). -/
def creditSet (s : State) (l : Nat) (advert : Bool) (cs : List Nat) : State :=
  (List.range 4).foldl (fun t v =>
    let n := ((s.lane l).replay.filter (fun f => f.vl = v)).length
    if advert then (t.wrSat (Reg.OV_CREDIT_HELD l v) (cs.getD v 0 - n)).wrSat (Reg.OV_CREDIT_IN_FLIGHT l v) n
    else creditBack t l v (cs.getD v 0)) s

def execOvCreditSet (l : Nat) (advert : Bool) (cs : List Nat) (s : State) : Host.Outcome State Fault Refusal :=
  guardItem (l < 8) (answer s (creditSet s l advert cs))

/-! ## Lane events -/

/-- Frame buffers a receiving lane holds, by VL (R342). -/
def vlCredits (v : Nat) : Nat := if v = 0 then 32 else if v = 1 then 64 else if v = 2 then 640 else 288

/-- The credit book of a lane without a partner. The books start again from the advertised counts, so no credit is owed, and the frames
from this lane that wait elsewhere fill no buffer of the new book (R343). -/
def noCredits (s : State) (l : Nat) : State :=
  let t := (List.range 8).foldl (fun u m => u.modLane m (fun k => { k with
    toSend := k.toSend.map (fun e => (e.1, if e.2 = l then 8 else e.2)), owe := if m = l then [] else k.owe })) s
  (List.range 4).foldl (fun u v => (u.wr (Reg.OV_CREDIT_HELD l v) 0).wr (Reg.OV_CREDIT_IN_FLIGHT l v) 0) t

/-- A lane that is locked takes the state its neighbour and this hub give it; on reaching UP it advertises its credits and resends what is
not acknowledged, with no credit of the former book. -/
def laneSettle (s : State) (l : Nat) : State :=
  let up := s.ov.linkReady && !s.ov.dup && (s.lane l).ready
  if s.laneState l < lNOT_READY then s
  else if up && s.laneState l ≠ lUP then
    let t := ovBark (s.wr (laneFld l) lUP) 0x0501 false [l]
    let t := (List.range 4).foldl (fun u v => u.emit (.ordered l 3 (v + 4 * vlCredits v))) t
    let t := t.modLane l (fun k => { k with replay := k.replay.map (fun f => sealFrame { f with credit := [] }) })
    let fs := (t.lane l).replay
    fs.foldl (fun u f => u.emit (.frame l f)) (t.countN (Reg.OV_LANE_CNT_RETX l) fs.length)
  else if !up && s.laneState l = lUP then noCredits (s.wr (laneFld l) lNOT_READY) l else s

/-- OV_LANE_UP: the lane has block lock, sends NOT_READY or READY, and reaches UP once both hubs are ready (R334). -/
def ovLaneUp (s : State) (l : Nat) (copper : Bool) : State :=
  let p := l / 2
  if s.laneUp l || !s.domOn (21 + p) || !s.flag (Reg.OV_PORT_CFG_EN p) || 3 ≤ s.ov.modules.get 0 l then s
  else
    let t := (s.wr (laneFld l) lNOT_READY).wrB (Reg.OV_PORT_STAT_MEDIA p) copper
    let t := t.emit (.ordered l (if t.ov.linkReady && !t.ov.dup then 1 else 0) 0)
    sideParts (rerouteAll (laneSettle t l))

def execOvLaneUp (l : Nat) (copper : Bool) (s : State) : Host.Outcome State Fault Refusal :=
  guardItem (l < 8) (answer s (ovLaneUp s l copper))

/-- OV_READY_SET: what the neighbour announces (R334). -/
def ovReadySet (s : State) (l : Nat) (ready : Bool) : State :=
  if s.laneState l < lNOT_READY then s
  else
    let first := ready && !(s.lane l).readyEver
    let t := s.modLane l (fun k => { k with ready := ready, readyEver := k.readyEver || ready })
    let t := t.when first (fun u => ovBark u 0x0504 false [l])
    rerouteAll (laneSettle t l)

def execOvReadySet (l : Nat) (ready : Bool) (s : State) : Host.Outcome State Fault Refusal :=
  guardItem (l < 8) (answer s (ovReadySet s l ready))

/-- A side has gone down: its neighbours learn it on the other side, and the routes through it go (R347). -/
def sideLost (s : State) (sd : Nat) : State :=
  let t := s.sendOn (1 - sd) 0 255 [s.me, sd]
  let t := t.ov.peers.foldl (fun u p => u.modPeer p.1 (fun q => if sd = 0 then { q with hopsW := 0 } else { q with hopsE := 0 })) t
  rerouteAll { t with ov := if sd = 0 then { t.ov with hbWest := none } else { t.ov with hbEast := none } }

/-- A lane goes DOWN (R335, R338, R340): partial messages are discarded; what is not acknowledged goes whole to another UP lane of the
side, or waits for this one. Its SEQ begins anew at 0 in both directions, as at the neighbour (DESIGN CHOICE). -/
def laneDown (s : State) (l : Nat) : State :=
  if s.laneState l = lDOWN then s
  else
    let was := s.laneUp l
    let k := s.lane l
    let t := noCredits (s.wr (laneFld l) lDOWN) l
    let t := (t.wr (Reg.OV_LANE_CNT_SEQ_TX l) 0).wr (Reg.OV_LANE_CNT_SEQ_RX l) 0
    let fs := (k.kept ++ k.replay).map (fun f => (f, 8)) ++ (t.lane l).toSend
    let t := t.modLane l (fun x => { x with partials := [], nak := false, ready := false, kept := [], replay := [], toSend := fs, vl2 := 0 })
    let t := match t.upLane (l / 4) with
      | some m => (t.modLane l (fun x => { x with toSend := [] })).modLane m (fun x => { x with toSend := x.toSend ++ fs })
      | none => t
    let p := l / 2
    let t := if t.laneState (2 * p) = lDOWN && t.laneState (2 * p + 1) = lDOWN then t.wr (Reg.OV_PORT_STAT_NEIGHBOUR p) 255 else t
    let t := ovBark t 0x0502 true [l]
    sideParts (if was && !t.sideUp (l / 4) then sideLost t (l / 4) else t)

def execOvLaneDown (l : Nat) (s : State) : Host.Outcome State Fault Refusal := guardItem (l < 8) (answer s (laneDown s l))

/-- A lane retrains (R335, R343): the book is suspended until the lane returns to UP. -/
def ovRetrain (s : State) (l : Nat) : State :=
  if s.laneState l < lNOT_READY then s
  else
    let t := noCredits ((s.wr (laneFld l) lTRAINING).count (Reg.OV_LANE_CNT_RETRAINS l)) l
    let t := ovBark ((t.modLane l (fun k => { k with nak := false })).emit (.ordered l 4 0)) 0x0503 true [l]
    if s.laneUp l && !t.sideUp (l / 4) then sideLost t (l / 4) else t

/-- OV_RETRAIN: the neighbour has sent a RETRAIN ordered set, or `uncorr` codewords were uncorrectable within 1 ms. -/
def execOvRetrain (l : Nat) (asked : Bool) (uncorr : Nat) (s : State) : Host.Outcome State Fault Refusal :=
  guardItem (l < 8) (answer s (if asked || 16 < uncorr then ovRetrain s l else s))

/-- The link layer is ready (R364): READY goes out on every locked lane, and a LEAD hub begins CLAIM_WAIT (R350). -/
def linkReadyOn (s : State) : State :=
  let t := { s with ov := { s.ov with linkReady := true, readyAt := some s.run, claimAt := if s.ov.lead then some s.run else none } }
  let t := t.wrB Reg.OV_STAT_CLAIMING t.ov.lead
  (List.range 8).foldl (fun u l => if lNOT_READY ≤ u.laneState l then laneSettle (u.emit (.ordered l 1 0)) l else u) t

/-- Every lane returns to NOT_READY (R349, R364). -/
def linkReadyOff (s : State) : State :=
  (List.range 8).foldl (fun u l => if lNOT_READY ≤ u.laneState l then laneSettle (u.emit (.ordered l 0 0)) l else u)
    { s with ov := { s.ov with linkReady := false } }

/-! ## Time transfer (R344) -/

/-- The lowest UP lane of port `p`. -/
def State.portLane (s : State) (p : Nat) : Option Nat := [2 * p, 2 * p + 1].find? s.laneUp

/-- TT_SEND: every UP port sends, on its lowest UP lane, its departure time and what it knows of the neighbour's last TT. -/
def ttSend (s : State) (t1s : List Nat) : State :=
  (List.range 4).foldl (fun u p =>
    match u.portLane p with
    | some l => u.sendOn (4 + l) 1 (u.rd (Reg.OV_PORT_STAT_NEIGHBOUR p)) [t1s.getD p 0, u.ov.ttArr.get 0 p, u.ov.ttDep.get 0 p]
    | none => u) s

def execTtSend (t1s : List Nat) (s : State) : Host.Outcome State Fault Refusal := answer s (ttSend s t1s)

/-- 2^-16 ns to ps, rounded. -/
def ttPs (n : Int) (d : Nat) : Int := rne (n * 1000) (65536 * d)

/-- Offsets of the UP ports of the upstream side, and their mean. -/
def State.upPorts (s : State) : List Nat :=
  [2 * s.rd Reg.OV_STAT_UPSTREAM, 2 * s.rd Reg.OV_STAT_UPSTREAM + 1].filter (fun p => s.laneUp (2 * p) || s.laneUp (2 * p + 1))

def State.meanOffset (s : State) : Int := rne (s.upPorts.map (fun p => s.rdS (Reg.OV_PORT_STAT_OFFSET p))).sum s.upPorts.length

/-- RESIDUAL of every port: the mean on a follower's upstream ports, else 0. -/
def residual (s : State) : State :=
  (List.range 4).foldl (fun u p =>
    u.wrS (Reg.OV_PORT_STAT_RESIDUAL p) (if s.follows && s.upPorts.contains p then s.meanOffset else 0)) s

/-- TT_RECEIVE: link delay and offset from the four times, in 2^-16 ns, as R344 states them. A transfer on a port towards the leader
serves LINK. -/
def ttReceive (s : State) (p t1 t2 t3 t4 : Nat) : State :=
  let d : Int := ((t2 : Int) - t1) + ((t4 : Int) - t3)
  let o : Int := ((t4 : Int) - t3) - ((t2 : Int) - t1)
  let t := s.wrSat (Reg.OV_PORT_STAT_DELAY p) (ttPs d 2).toNat
  let t := t.wrS (Reg.OV_PORT_STAT_OFFSET p) (ttPs o 2 - s.rdS (Reg.OV_PORT_CFG_ASYM p))
  let t := residual { t with ov := { t.ov with ttArr := t.ov.ttArr.put 0 p t4, ttDep := t.ov.ttDep.put 0 p t1 } }
  if t.follows && t.upPorts.contains p then linkTransfer t (p / 2) t.meanOffset else t

def execTtReceive (p t1 t2 t3 t4 : Nat) (s : State) : Host.Outcome State Fault Refusal :=
  guardItem (p < 4) (answer s (if s.laneUp (2 * p) || s.laneUp (2 * p + 1) then ttReceive s p t1 t2 t3 t4 else s))

/-! ## Heartbeat and topology (R346, R349 to R352) -/

/-- HEARTBEAT_SEND: the leader, every 1 ms, on both sides. -/
def heartbeatSend (s : State) : State :=
  if s.follows || !s.ov.linkReady then s
  else s.send 2 255 [s.me, s.rd Reg.OV_STAT_DEPUTY_ID, s.rd Reg.TB_STATE_STATE, s.rd Reg.OV_PACK_STAT_RAW_HUBS, 0]

def execHeartbeatSend (s : State) : Host.Outcome State Fault Refusal := answer s (heartbeatSend s)

/-- A leader takes the role of hub `leader` of this heartbeat: deputy when it names this hub, else follower. -/
def joinPack (s : State) (leader deputy : Nat) : State :=
  let old := s.rd Reg.OV_STAT_LEADER_ID
  let took := if old ≠ leader && old ≠ 255 then decide (leader = s.rd Reg.OV_STAT_DEPUTY_ID) else s.ov.tookOver
  let t := ((s.wr Reg.OV_STAT_LEADER_ID leader).wr Reg.OV_STAT_DEPUTY_ID deputy).wr Reg.OV_STAT_ROLE (if deputy = s.me then 2 else 0)
  let t := t.clr Reg.OV_STAT_CLAIMING
  { t with ov := { t.ov with claimAt := none, tookOver := took, resend := t.ov.resend || decide (old ≠ leader && old ≠ 255) } }

/-- HEARTBEAT_RECEIVE on port `p`, with the hop count as it arrives. The hub counts one hop more, floods the message onward on its other
side, and joins the pack; of two leaders the one with the lower ID keeps the role (R350). -/
def heartbeatReceive (s : State) (p leader deputy tb raw hops : Nat) : State :=
  let sd := p / 2
  let t := { s with ov := if sd = 0 then { s.ov with hbWest := some (hops + 1, s.run) } else { s.ov with hbEast := some (hops + 1, s.run) } }
  let t := { t with ov := { t.ov with hbLast := some t.run } }
  if leader = s.me then showTopo t
  else if !s.follows && s.me < leader then s
  else
    let t := t.when (!s.follows) (fun u => ovBark (u.count Reg.OV_CNT_DEMOTIONS) 0x0508 true [])
    let t := joinPack t leader deputy
    let t := (t.wr Reg.TB_STATE_UPSTREAM tb).wr Reg.OV_PACK_STAT_RAW_HUBS raw
    let t := if t.refRuns clsLINK && !t.refMeets clsLINK then refLost t clsLINK else t
    let t := t.modPeer leader (fun q => if sd = 0 then { q with known := true, hopsW := hops + 1 } else { q with known := true, hopsE := hops + 1 })
    rerouteAll (t.sendFor leader (1 - sd) 2 255 [leader, deputy, tb, raw, hops + 1])

def execHeartbeatReceive (p leader deputy tb raw hops : Nat) (s : State) : Host.Outcome State Fault Refusal :=
  guardItem (p < 4 && leader < 64) (answer s (heartbeatReceive s p leader deputy tb raw hops))

/-- The host rings are READY, with a doorbell read in the last 50 ms (R352). -/
def State.ringsFresh (s : State) : Bool := s.ringsOn && s.hp.dbEver && !s.elapsed s.hp.dbLast (50 * cclkMs)

/-- TOPOLOGY_SEND: every hub, every 1 ms, on both sides. -/
def topologySend (s : State) : State :=
  if !s.ov.linkReady then s
  else s.send 3 255 [s.me, s.rd Reg.HUB_SERIAL_SERIAL, s.rd Reg.OV_STAT_ROLE, (s.hears 0).getD 0, (s.hears 1).getD 0,
    s.rd Reg.OV_STAT_PATH_DELAY, (s.ov.readyAt).getD 0, b2n s.ringsFresh, b2n s.rawOpen]

def execTopologySend (s : State) : Host.Outcome State Fault Refusal := answer s (topologySend s)

/-- A duplicate of this hub's ID that sent READY earlier (R349): this hub loses its place until it restarts with another ID. -/
def duplicate (s : State) : State :=
  if s.ov.dup then s
  else isoUpdate (rerouteAll (sideParts (ovBark (linkReadyOff { s with ov := { s.ov with dup := true } }) 0x050B true [s.me])))

/-- TOPOLOGY_RECEIVE on port `p`: the sender's ID, serial number, role, delay from the leader, the instant at which it first sent READY
(on this hub's run clock), its rings and raw streams, and the hops and delay along the path. -/
def topologyReceive (s : State) (p id serial role delay readyAt : Nat) (rings raw : Bool) (hops path : Nat) : State :=
  let sd := p / 2
  if id = s.me then
    (if serial = s.rd Reg.HUB_SERIAL_SERIAL then s
     else match s.ov.readyAt with
      | some r => if readyAt < r then duplicate s else s
      | none => s)
  else
    let t := s.modPeer id (fun q => { q with
      known := true, serial := serial, role := role, delay := delay, last := s.run, rings := rings, raw := raw,
      path := path, hopsW := if sd = 0 then hops else q.hopsW, hopsE := if sd = 1 then hops else q.hopsE })
    let t := if hops = 1 then t.wr (Reg.OV_PORT_STAT_NEIGHBOUR p) id else t
    let t := if hops = 1 && t.follows && t.rd Reg.OV_STAT_UPSTREAM = sd then
        t.wrSat Reg.OV_STAT_PATH_DELAY (delay + (rne ((t.rd (Reg.OV_PORT_STAT_DELAY p) : Nat) : Int) 1000).toNat)
      else if !t.follows then t.wr Reg.OV_STAT_PATH_DELAY 0 else t
    rerouteAll (if id = t.rd Reg.OV_STAT_DEPUTY_ID then { t with ov := { t.ov with deputyLost := false } } else t)

def execTopologyReceive (p id serial role delay readyAt : Nat) (rings raw : Bool) (hops path : Nat) (s : State) :
    Host.Outcome State Fault Refusal :=
  guardItem (p < 4 && id < 64 && 1 ≤ hops) (answer s (topologyReceive s p id serial role delay readyAt rings raw hops path))

/-- LINK_DOWN_NOTICE from hub `from_`, arrived on port `p` (R347): the routes that go on beyond that hub on this side are dropped, and
the notice goes onward. -/
def linkDownNotice (s : State) (p from_ : Nat) : State :=
  let sd := p / 2
  let d := if sd = 0 then (s.peer from_).hopsW else (s.peer from_).hopsE
  let t := s.ov.peers.foldl (fun u q => u.modPeer q.1 (fun x =>
    if sd = 0 then { x with hopsW := if d < x.hopsW then 0 else x.hopsW } else { x with hopsE := if d < x.hopsE then 0 else x.hopsE })) s
  let far (h : Option (Nat × Nat)) : Option (Nat × Nat) := match h with | some q => if d < q.1 then none else some q | none => none
  let t := { t with ov := if sd = 0 then { t.ov with hbWest := far t.ov.hbWest } else { t.ov with hbEast := far t.ov.hbEast } }
  rerouteAll (if from_ = s.me then t else t.sendFor from_ (1 - sd) 0 255 [from_, sd])

def execLinkDownNotice (p from_ : Nat) (s : State) : Host.Outcome State Fault Refusal :=
  guardItem (p < 4 && from_ < 64) (answer s (linkDownNotice s p from_))

/-- This hub leads from now on: LINK, which is never qualified on the leader, is lost (R37). -/
def lead (s : State) : State :=
  let t := ((((s.wr Reg.OV_STAT_ROLE 1).wr Reg.OV_STAT_LEADER_ID s.me).wr Reg.OV_STAT_DEPUTY_ID s.ov.deputyId).clr Reg.OV_STAT_CLAIMING).clr
    Reg.TB_STATE_UPSTREAM
  let t := if t.refRuns clsLINK then refLost t clsLINK else t
  isoUpdate (showPack (heartbeatSend ((t.clr Reg.OV_STAT_HOPS).clr Reg.OV_STAT_PATH_DELAY)))

/-- OV_LEADER_CLAIM (R350): a LEAD hub that has heard no heartbeat for CLAIM_WAIT. -/
def leaderClaim (s : State) : State :=
  match s.ov.claimAt with
  | none => s
  | some c =>
    if s.follows && s.ov.lead && s.elapsed c (max 3 (s.rd Reg.OV_PACK_CFG_CLAIM_WAIT) * cclkMs) then
      ovBark (lead { s with ov := { s.ov with claimAt := none } }) 0x0507 false [s.me]
    else s

def execOvLeaderClaim (s : State) : Host.Outcome State Fault Refusal := answer s (leaderClaim s)

/-- The deputy takes over (R351, R353): its rings become the pack's as they stand. -/
def takeOver (s : State) (former : Nat) : State :=
  ovBark (lead (s.count Reg.OV_CNT_TAKEOVERS)) 0x0509 true [former]

/-- OV_LEADER_LOST (R351, R354): no heartbeat for LOSS_MS. The leader's leashes break, and the deputy takes over. -/
def leaderLost (s : State) : State :=
  match s.ov.hbLast with
  | none => s
  | some t0 =>
    let l := s.rd Reg.OV_STAT_LEADER_ID
    if s.follows && l ≠ 255 && s.elapsed t0 s.lossMs then
      let t := ovBark (s.count Reg.OV_CNT_LEADER_LOSSES) 0x050A true [l]
      let t := loseOwner t (if t.ov.tookOver then 5 else 4)
      let t := if t.rd Reg.OV_STAT_ROLE = 2 then takeOver t l
        else { t with ov := { t.ov with hbLast := none } }
      isoUpdate (showTopo t)
    else s

def execOvLeaderLost (s : State) : Host.Outcome State Fault Refusal := answer s (leaderLost s)

/-- OV_DEPUTY_LOST (R354): the leader has heard no TOPOLOGY from the deputy for LOSS_MS. -/
def deputyLost (s : State) : State :=
  let d := s.rd Reg.OV_STAT_DEPUTY_ID
  if !s.follows && d ≠ 255 && d ≠ s.me && (s.peer d).known && !s.ov.deputyLost && s.elapsed (s.peer d).last s.lossMs then
    loseOwner (ovBark { s with ov := { s.ov with deputyLost := true } } 0x050D true [d]) 5
  else s

def execOvDeputyLost (s : State) : Host.Outcome State Fault Refusal := answer s (deputyLost s)

/-- OV_HANDOVER (R352): a leader isolated for HANDOVER_MS, with the deputy's rings READY and fresh. -/
def handover (s : State) : State :=
  let d := s.rd Reg.OV_STAT_DEPUTY_ID
  let ms := s.rd Reg.OV_PACK_CFG_HANDOVER_MS
  match s.hub.isoSince with
  | none => s
  | some t0 =>
    if !s.follows && ms ≠ 0 && s.elapsed t0 (ms * cclkMs) && d ≠ 255 && (s.peer d).reach && (s.peer d).rings then
      let t := s.send 0 d [s.me]
      let t := { t with ov := { t.ov with hbLast := some t.run, claimAt := none } }
      isoUpdate (ovBark (t.wr Reg.OV_STAT_ROLE 0) 0x050C true [d])
    else s

def execOvHandover (s : State) : Host.Outcome State Fault Refusal := answer s (handover s)

/-- HANDOVER_RECEIVE: the deputy takes over at once. -/
def handoverReceive (s : State) (from_ : Nat) : State := if s.rd Reg.OV_STAT_ROLE = 2 then takeOver s from_ else s

def execHandoverReceive (from_ : Nat) (s : State) : Host.Outcome State Fault Refusal :=
  guardItem (from_ < 64) (answer s (handoverReceive s from_))

/-! ## Forwarded commands (R312, R355) -/

/-- The oldest message of a type from a hub that has arrived whole is taken. -/
def takeMsg (s : State) (type src : Nat) : State :=
  match s.ov.inbox.find? (fun p => p.type = type && p.src = src) with
  | none => s
  | some p => { s with ov := { s.ov with inbox := s.ov.inbox.erase p } }

/-- COMMAND_MESSAGE: the target has validated the command, and accepts it. -/
def commandMessage (s : State) (h : CmdHdr) (from_ : Nat) : State :=
  let k := { h with via := .message from_ }
  let t := takeMsg s 8 from_
  if t.hp.inflight.any (fun f => sameCmd f.hdr k) then t
  else State.send { t with hp := { t.hp with inflight := t.hp.inflight ++ [{ hdr := k, begun := false }] } } 9 from_ [h.tag, h.index, 0]

def execCommandMessage (h : CmdHdr) (from_ : Nat) (s : State) : Host.Outcome State Fault Refusal :=
  guardItem (from_ < 64) (answer s (commandMessage s h from_))

/-- A forwarded command leaves the commands outstanding; its completion names the hub that executed or refused it. -/
def forwardDone (s : State) (h : CmdHdr) (hub : Nat) (st : Status) (result endCause : Nat) : State :=
  let t := { s with ov := { s.ov with forwards := s.ov.forwards.filter (fun f => !sameCmd f.hdr h) } }
  if t.hp.inflight.any (fun f => sameCmd f.hdr h) then
    let t := { t with hp := { t.hp with inflight := t.hp.inflight.filter (fun f => !sameCmd f.hdr h) } }
    if t.ringsOn then { t with hp := { t.hp with cplWait := t.hp.cplWait ++ [{ t.cplOf h st result endCause with hub := hub }] } }
    else t.dropCpl 1
  else t

/-- COMPLETION_MESSAGE, kind 0 ACCEPT, 1 COMPLETION, 2 the leader's acknowledgement (R355). -/
def completionMessage (s : State) (kind hub tag index : Nat) (st : Status) (result endCause : Nat) : State :=
  let t := takeMsg s 9 hub
  let mine (f : Forward) : Bool := f.target = hub && f.hdr.tag = tag && f.hdr.index = index
  if kind = 2 then { t with ov := { t.ov with kept := t.ov.kept.filter (fun c => !(c.tag = tag && c.index = index)) } }
  else match t.ov.forwards.find? mine with
    | none => if kind = 1 then t.send 9 hub [tag, index, 2] else t
    | some f =>
      if kind = 0 then { t with ov := { t.ov with forwards := t.ov.forwards.map (fun g => if mine g then { g with accepted := true } else g) } }
      else (forwardDone t f.hdr hub st result endCause).send 9 hub [tag, index, 2]

def execCompletionMessage (kind hub tag index : Nat) (st : Status) (result endCause : Nat) (s : State) : Host.Outcome State Fault Refusal :=
  guardItem (kind ≤ 2 && hub < 64) (answer s (completionMessage s kind hub tag index st result endCause))

/-- FORWARD_TIMEOUT: the commands whose target has been unreachable for 50 ms complete TIMEOUT. -/
def forwardTimeout (s : State) : State :=
  let due := s.ov.forwards.filter (fun f => match f.lostAt with | some t0 => s.elapsed t0 (50 * cclkMs) | none => false)
  due.foldl (fun t f => forwardDone { t with free := t.free + 1 } f.hdr t.me .timeout
    (if refusedZero f.hdr.opcode then 0 else Config.refusedResult t.free) 0) s

def execForwardTimeout (s : State) : Host.Outcome State Fault Refusal := answer s (forwardTimeout s)

/-! ## Buffer space and records across the pack (R356, R357) -/

def grantQuantum : Nat := 65536

/-- Free space of a buffer that nobody has reserved. -/
def State.bufFree (s : State) (b : Nat) : Nat :=
  let x := s.sbuf b
  if x.log2 = 0 then 0
  else 2 ^ x.log2 - (x.head + 2 ^ 32 - x.tail % 2 ^ 32) % 2 ^ 32 - s.ov.reserved.get 0 b - (x.queue.map (fun r => r.data.length)).sum

/-- The hub that is served next for buffer `b`: in turn across the hubs that request. -/
def State.nextHub (s : State) (b : Nat) : Option Nat :=
  let hs := (List.range 64).filter (fun h => s.ov.requested.get 0 (h * 256 + b) ≠ 0)
  match hs.find? (fun h => s.ov.lastHub.get 64 b < h) with
  | some h => some h
  | none => hs.head?

/-- Grant one quantum of buffer `b`, where it is free. -/
def grantOne (s : State) (b : Nat) : State :=
  match s.nextHub b with
  | none => s
  | some h =>
    if s.follows || s.bufFree b < grantQuantum then s
    else
      let k := h * 256 + b
      let t := { s with ov := { s.ov with
        requested := s.ov.requested.put 0 k (s.ov.requested.get 0 k - grantQuantum),
        reserved := s.ov.reserved.put 0 b (s.ov.reserved.get 0 b + grantQuantum),
        lastHub := s.ov.lastHub.put 64 b h } }
      t.send 6 h [b, grantQuantum]

/-- Grant what is asked for, a quantum a buffer. -/
def grantSpace (s : State) : State :=
  if s.ov.requested.isEmpty then s else ((s.ov.requested.map (fun e => e.1 % 256)).eraseDups).foldl grantOne s

/-- REQUEST_MESSAGE: a follower's pending bytes for a buffer. -/
def requestMessage (s : State) (hub b bytes : Nat) : State :=
  let t := takeMsg s 6 hub
  if t.follows then t else grantOne { t with ov := { t.ov with requested := t.ov.requested.put 0 (hub * 256 + b) bytes } } b

def execRequestMessage (hub b bytes : Nat) (s : State) : Host.Outcome State Fault Refusal :=
  guardItem (hub < 64 && b < 256) (answer s (requestMessage s hub b bytes))

/-- GRANT_MESSAGE: the follower may send that much more. -/
def grantMessage (s : State) (from_ b bytes : Nat) : State :=
  let t := takeMsg s 6 from_
  if t.follows then { t with ov := { t.ov with granted := t.ov.granted.put 0 b (t.ov.granted.get 0 b + bytes) } } else t

def execGrantMessage (from_ b bytes : Nat) (s : State) : Host.Outcome State Fault Refusal :=
  guardItem (from_ < 64 && b < 256) (answer s (grantMessage s from_ b bytes))

/-- RECORD_MESSAGE of type 11 or 12: the leader takes a record whose SEQ lies beyond the last one taken for its stream, and a replayed
one; it discards every other. -/
def recordMessage (s : State) (type hub b i seq n : Nat) (replay : Bool) (data : List Nat) : State :=
  let t := takeMsg s type hub
  let k := hub * 65536 + i
  let t := { t with ov := { t.ov with reserved := t.ov.reserved.put 0 b (t.ov.reserved.get 0 b - data.length) } }
  if t.follows || (!replay && seq < t.ov.written.get 0 k) then t
  else
    let t := if replay then t else { t with ov := { t.ov with written := t.ov.written.put 0 k (seq + n) } }
    let now := t.atOnce b data.length
    let r : RecOut := { stream := i, seq := seq, n := n, buf := b, data := data.set 3 hub, late := !now, replay := replay }
    let u := t.modBuf b (fun x => { x with queue := x.queue ++ [r], backlog := x.backlog || !now })
    if !now && !(s.sbuf b).backlog then u.bark 6 0x0606 true [b] else u

def execRecordMessage (type hub b i seq n : Nat) (replay : Bool) (data : List Nat) (s : State) : Host.Outcome State Fault Refusal :=
  guardItem ((type = 11 || type = 12) && hub < 64 && b < 256 && i < 1024) (answer s (recordMessage s type hub b i seq n replay data))

/-- DELIVERED_NOTICE: the records of stream `i` before SEQ `seq` are confirmed; a replayed one counts towards its REPLAY. -/
def deliveredNotice (s : State) (from_ i seq : Nat) (replay : Bool) : State :=
  let t := takeMsg s 7 from_
  let mine (u : Unconf) : Bool := u.rcd.stream = i && u.rcd.replay == replay && u.rcd.seq + u.rcd.n ≤ seq
  match t.ov.unconf.find? mine with
  | none => t
  | some u =>
    let t := { t with ov := { t.ov with unconf := t.ov.unconf.filter (fun x => !mine x) } }
    if replay then replayDone t i u.rcd.buf else t.modStream i (fun x => { x with conf := seq })

def execDeliveredNotice (from_ i seq : Nat) (replay : Bool) (s : State) : Host.Outcome State Fault Refusal :=
  guardItem (from_ < 64 && i < 1024) (answer s (deliveredNotice s from_ i seq replay))

/-- DELIVERY_RESEND: 20 ms without a confirmation, or a takeover: everything from the first unconfirmed record goes again on VL3; the
second copy carries LATE. -/
def deliveryResend (s : State) : State :=
  if s.follows && s.leaderPath && (s.ov.resend || s.ov.unconf.any (fun u => s.elapsed u.sentAt (20 * cclkMs))) then
    let t := s.ov.unconf.foldl (fun v u =>
      v.send 12 (v.rd Reg.OV_STAT_LEADER_ID) ([u.rcd.buf, u.rcd.stream, u.rcd.seq, u.rcd.n, b2n u.rcd.replay]
        ++ (if u.rcd.replay then u.rcd.data else markLate u.rcd.data))) s
    { t with ov := { t.ov with resend := false, unconf := t.ov.unconf.map (fun u => { u with sentAt := t.run }) } }
  else s

def execDeliveryResend (s : State) : Host.Outcome State Fault Refusal := answer s (deliveryResend s)

/-- BARK_MESSAGE (R358): the leader inserts the packet and keeps its HUB field. -/
def barkMessage (s : State) (hub src code : Nat) (warn : Bool) (time : Nat) (payload : List Nat) (afterLoss : Bool) : State :=
  let b : Bark := { src := src, code := code, warn := warn, hub := hub, time := time, payload := payload, afterLoss := afterLoss }
  let t := takeMsg s 10 hub
  if t.queueUp then queuePut t b else sidePut t b

def execBarkMessage (hub src code : Nat) (warn : Bool) (time : Nat) (payload : List Nat) (afterLoss : Bool) (s : State) :
    Host.Outcome State Fault Refusal :=
  guardItem (hub < 64) (answer s (barkMessage s hub src code warn time payload afterLoss))

/-- BULK_MESSAGE from a hub (R312, R337), kind 0 data for the host at `addr`: the leader writes them to host memory; kind 1 an entry of
PACK_STATUS of that hub, its bytes 3 to 35; kind 2 data that a command of this hub reads: they come with the command's own row. -/
def bulkMessage (s : State) (hub kind addr : Nat) (data : List Nat) : State :=
  let t := takeMsg s 13 hub
  if kind = 0 then (if t.follows then t else t.emit (.dma addr data))
  else if kind = 1 then t.modPeer hub (fun q => { q with entry := data.take 33 })
  else t

def execBulkMessage (hub kind addr : Nat) (data : List Nat) (s : State) : Host.Outcome State Fault Refusal :=
  guardItem (hub < 64 && kind ≤ 2) (answer s (bulkMessage s hub kind addr data))

/-! ## Counters and modules -/

def ovCnts : List Fld := [Reg.OV_CNT_HEALS, Reg.OV_CNT_TAKEOVERS, Reg.OV_CNT_DEMOTIONS, Reg.OV_CNT_LEADER_LOSSES]

def laneCnts (l : Nat) : List Fld :=
  [Reg.OV_LANE_CNT_FEC_CORR l, Reg.OV_LANE_CNT_FEC_UNCORR l, Reg.OV_LANE_CNT_CRC_ERR l, Reg.OV_LANE_CNT_RETX l, Reg.OV_LANE_CNT_RETRAINS l]

/-- OV_CNT_CLR: bits 0 to 3 the counters, bit 4 every lane counter. -/
def execOvCntClr (src : WrSrc) (clr : Nat) (s : State) : Host.Outcome State Fault Refusal :=
  answer s (s.write src .OV_CNT_CLR 0 0 false (fun t =>
    (t.clearCnts ovCnts clr).when (bit clr 4) (fun u => (List.range 8).foldl (fun w l => w.clearCnts (laneCnts l) 31) u)))

/-- MODULE_SEATED (R406): cages 0 to 7 lanes, 8 the timing port; the module's power class; whether it is of a qualified type, and of the
right kind (a copper 1000BASE-T module in the timing port is not). -/
def moduleSeated (s : State) (cage : Nat) (qualified rightKind : Bool) (cls : Nat) : State :=
  let set (t : State) (v : Nat) : State := { t with ov := { t.ov with modules := t.ov.modules.put 0 cage v } }
  if 2 < cls || !rightKind then ovBark (set s 3) 0x050F true [cage, cls]
  else if qualified then set s 1 else ovBark (set s 2) 0x050E true [cage]

def execModuleSeated (cage : Nat) (qualified rightKind : Bool) (cls : Nat) (s : State) : Host.Outcome State Fault Refusal :=
  guardItem (cage < 9) (answer s (moduleSeated s cage qualified rightKind cls))

end Sys2Proof.Machine
end

