-- ==== Sys2Proof/Machine/Map.lean ====
section
/-! DEFINITION. The map of BAR0 (R412 to R414): where a byte stands, what a read returns, and what a block keeps while its
domain is off (R419). -/

namespace Sys2Proof.Machine

/-- A byte of the map: its register, card, element, and its place in the register. -/
structure Spot where
  place : RegPlace
  k : Nat
  i : Nat
  off : Nat
  deriving DecidableEq, Repr

/-- The byte `b` of BAR0 in a register, where it has it. -/
def spotIn (b : Nat) (p : RegPlace) : Option Spot :=
  if b < p.base + p.ofs then none
  else
    let d := b - (p.base + p.ofs)
    let k := d / p.cardStride
    let r := d % p.cardStride
    if k < p.cards && r / p.stride < p.count && r % p.stride < p.bytes then
      some { place := p, k := k, i := r / p.stride, off := r % p.stride }
    else none

/-- The register that holds byte `b` of BAR0; none at reserved offsets. -/
def spotAt (b : Nat) : Option Spot := regPlaces.findSome? (spotIn b)

/-- The first byte of the register element. -/
def Spot.base (q : Spot) : Nat := q.place.base + q.place.cardStride * q.k + q.place.ofs + q.place.stride * q.i

/-- The fields of the register element. -/
def Spot.fields (q : Spot) : List FieldDesc := q.place.id.fields q.i q.k

/-- A field of the register element, in the register store. -/
def Spot.fld (q : Spot) (d : FieldDesc) : Fld := ⟨8 * q.base + d.lsb, d.width, d.rst⟩

/-! ## What is kept while a domain is off (R57, R419) -/

/-- The stored configuration registers: those whose chapter says that reads return stored values while the domain is off. DV_
names its stored registers only as its configuration registers: the RW registers of settings (DEDUCED). FC_ is judged by
field. -/
def storedReg : RegId → Bool
  | .RDC_CFG | .RDC_LOOP | .RDC_HARM_CFG | .RDC_HARM_ACT | .PFI_CFG | .PFI_MIN_EDGE | .PFI_FUSE | .PFI_PB_CFG | .EE_CFG
  | .DV_CFG | .DV_AX_CFG | .DV_LIM_LO | .DV_LIM_HI | .DV_HEAT | .AO_CFG | .AO_CODE | .AO_CLEAR_CODE
  | .MT_SCAN_MASK | .MT_CAL_CFG | .MT_CH_CFG | .OV_PORT_CFG => true
  | _ => false

/-- A field reads its stored value while its domain is off. -/
def keptRead (r : RegId) (k key : Nat) : Bool := storedReg r || r = .MT_LAST || r = .MT_CNT || stagedKey k key

/-- A field keeps its value while its domain is off, shown or not: beside those, the variant of the last card (R57), and the
hardware lines and counts that the core sees without the card. -/
def keptField (r : RegId) (k key : Nat) : Bool :=
  keptRead r k key || key = (Reg.FC_CARD_STAT_LAST_VARIANT k).key || key = Reg.DV_CARD_STAT_AOCLR0.key
    || key = Reg.DV_CARD_STAT_AOCLR1.key || key = Reg.DV_CARD_STAT_HALT.key

/-- Reset the registers of a domain that goes off, and what waits for a boundary in them. -/
def resetRegs (s : State) (d : Nat) : State :=
  let goes (key : Nat) : Bool :=
    match spotAt (key / 8) with
    | none => false
    | some q => regDomain q.place.id q.k q.i = some d && !keptField q.place.id q.k key
  let off (key : Nat) : Bool :=
    match spotAt (key / 8) with
    | none => false
    | some q => regDomain q.place.id q.k q.i = some d
  { s with regs := s.regs.filter (fun e => !goes e.1), lag := s.lag.filter (fun e => !off e.1), hold := s.hold.filter (fun e => !off e.1) }

/-! ## Fields that show what the state holds elsewhere -/

/-- CARD_ID and CARD_STAT of a slot: VARIANT 0 shows no card. -/
def State.variantOf (s : State) (p : Nat) : Nat := let x := s.slot p; if x.card then x.variant else 0
def State.hwrevOf (s : State) (p : Nat) : Nat := let x := s.slot p; if x.card then x.hwrev else 0

/-- Bytes of records formed and not yet delivered, and the first instant of a record, in 2^-16 ns. -/
def State.undelivered (s : State) : Nat :=
  (s.hp.bufs.map (fun e => ((e.2.queue.filter (fun r => !r.replay)).map (fun r => r.data.length)).sum)).sum
def recAt (r : RecOut) : Nat :=
  leNat ((r.data.drop 22).take 6) * (10 ^ 9 * 65536) + leNat ((r.data.drop 18).take 4) * 65536 + leNat ((r.data.drop 16).take 2)

/-- Seconds from the oldest record held to the newest. -/
def State.storeSpan (s : State) : Nat :=
  let l := s.rd_.store.flatMap (fun e => e.2.map recAt)
  match l with
  | [] => 0
  | a :: r => (rne ((r.foldl max a - r.foldl min a : Nat) : Int) (10 ^ 9 * 65536)).toNat

/-- The longest settling span of a channel: L of the longest filter in use on it (R90, R98). -/
def State.spanOf (s : State) (f c : Nat) : Nat :=
  match filterUses (32 * f + c) s.defs with
  | [] => filterLen false 0
  | l => (l.map (fun u => filterLen (u.2.1 = 1) u.2.2)).foldl max 0

/-- Supervisor run time of the trial out of SELFTEST (R375). -/
def State.proofTime (s : State) : Nat := s.hub.proofDone + (match s.hub.proofSince with | none => 0 | some t => s.run - t)

/-- The value a field shows where the state holds it elsewhere. -/
def State.shown (s : State) (r : RegId) (k i lsb : Nat) : Option Nat :=
  match r, lsb with
  | .TB_SCHED_STAT, 0 => some s.tb.sched.length
  | .TB_STATE, 8 => some (s.rd Reg.TB_STATE_QUAL % 8 + 8)
  | .TB_HOLD_EST, 24 => if s.tb.trainSince.isSome then some (min 255 s.trainHours) else none
  | .FC_CARD_ID, 0 => some (s.variantOf k)
  | .FC_CARD_ID, 8 => some (s.hwrevOf k)
  | .FC_CARD_STAT, 0 => some (b2n (s.slot k).card)
  | .FC_CARD_STAT, 1 => some (b2n (s.domOn k))
  | .FC_CARD_STAT, 2 => some (b2n (s.fcUp k))
  | .FC_CFG_STAT, 0 => some (b2n (decide (s.shadow k ≠ s.active k)))
  | .FC_CH_STAT, 6 =>
    some (b2n ((s.chan k i).held.any (fun q => match q.2 with | none => false | some b => b ≤ s.now && s.now < b + s.spanOf k i)))
  | .FC_CH_STAT, 7 => some (b2n ((s.chan k i).heldAt s.now))
  | .FC_CONV_STAT, 4 => some (b2n (!s.inRotation k i))
  | .FC_CONV_STAT, 16 => some (min 65535 ((s.run - (s.chan k i).calAt) / (3600 * cclkSec)))
  | .FC_REFCAL_CTRL, 17 => some (min 32767 ((s.run - (s.card k).refAt) / (86400 * cclkSec)))
  | .MT_CARD_ID, 0 => some (s.variantOf 19)
  | .MT_CARD_ID, 8 => some (s.hwrevOf 19)
  | .MT_CARD_STAT, 0 => some (b2n (s.slot 19).card)
  | .MT_CARD_STAT, 1 => some (b2n (s.domOn 20))
  | .MT_CARD_STAT, 2 => some (b2n s.mtUp)
  | .AX_CARD_ID, 0 => some (s.variantOf (16 + k))
  | .AX_CARD_ID, 8 => some (s.hwrevOf (16 + k))
  | .AX_CARD_STAT, 0 => some (b2n (s.slot (16 + k)).card)
  | .AX_CARD_STAT, 1 => some (b2n (s.domOn (16 + k)))
  | .AX_CARD_STAT, 2 => some (b2n (s.axUp k))
  | .DV_CARD_ID, 0 => some (s.variantOf 18)
  | .DV_CARD_ID, 8 => some (s.hwrevOf 18)
  | .DV_CARD_STAT, 0 => some (b2n (s.slot 18).card)
  | .DV_CARD_STAT, 1 => some (b2n (s.domOn 18))
  | .DV_CARD_STAT, 3 => some (b2n (s.inService 18 && s.domOn 18))
  | .DV_AX_STAT, 32 => some (unsigned 32 (pSeq (s.axis i) s.run))
  | .DV_AX_STAT, 96 => some (unsigned 16 (s.setPoints i (pSeq (s.axis i) s.run)).1)
  | .DV_AX_STAT, 112 => some (unsigned 16 (s.setPoints i (pSeq (s.axis i) s.run)).2)
  | .AO_STAT, 32 => some (unsigned 24 (s.aoCodeNow i))
  | .HP_STAT, 32 => some s.inFlight
  | .KN_STAT, 2 => some (b2n (s.elapsed s.pw.refresh.lastEnd (90 * 86400 * cclkSec + 1)))
  | .KN_STAT, 16 => some (Config.sparePct s.run % 256)
  | .KN_BANK_STATE, 16 => some (if s.flag Reg.KN_BANK_STATE_TRIAL then 600 - min 600 (s.proofTime / cclkSec) else 0)
  | .RD_CURVE_DATA, 0 => some s.stgEntry
  | .RS_STAT, 0 => some (b2n s.retains)
  | .RS_STAT, 1 => some (b2n (s.hasGrant 1 0x61))
  | .RS_STAT, 8 => some (min 100 (rne ((s.undelivered * 100 : Nat) : Int) (2 ^ 36)).toNat)
  | .RS_STAT, 32 => some (satU 32 s.storeSpan)
  | _, _ => none

/-! ## Reads (R412, R413) -/

/-- The value a read of a field returns: 0 while its domain is off, unless it is stored. -/
def State.readFld (s : State) (q : Spot) (d : FieldDesc) : Nat :=
  if s.regOn q.place.id q.k q.i || keptRead q.place.id q.k (q.fld d).key then
    ((s.shown q.place.id q.k q.i d.lsb).getD (s.rd (q.fld d))) % 2 ^ d.width
  else 0

/-- The value of a register element. -/
def State.readReg (s : State) (q : Spot) : Nat := (q.fields.map (fun d => s.readFld q d * 2 ^ d.lsb)).sum

/-- The MSI-X table and the pending bits of the HP_ block (R300). -/
def msixTable : Nat := 0x1800
def msixPba : Nat := 0x1C00
def msixVectors : Nat := 64

/-- The 32-bit word of BAR0 at byte `b`, a multiple of 4. Reserved offsets read 0. -/
def State.readWord (s : State) (b : Nat) : Nat :=
  if msixTable ≤ b && b < msixTable + 16 * msixVectors then (if s.domOn 25 then s.msixWord ((b - msixTable) / 4) else 0)
  else if msixPba ≤ b && b < msixPba + 8 then
    (if s.domOn 25 then ((s.hp.vecPend.map (fun v => 2 ^ v)).sum / 2 ^ (8 * (b - msixPba))) % 2 ^ 32 else 0)
  else
    match spotAt b with
    | none => 0
    | some q => s.readReg q / 2 ^ (8 * q.off) % 2 ^ 32

/-- `n` words from byte `b` on. -/
def State.readWords (s : State) (b n : Nat) : List Nat := (List.range n).map (fun j => s.readWord (b + 4 * j))

end Sys2Proof.Machine
end

