-- ==== Sys2Proof/Machine/Parts.lean ====
section
/-! DEFINITION. Parts, slots and domains (R13, R14, R20, R30, R381, R387, R420, R421): what a domain loses when it goes off, what
happens when it comes up, how a card enters service and leaves it. Slots are numbered as the PART byte of R316. -/

namespace Sys2Proof.Machine

/-- The HUB_PART_STATE entry of a PART byte. -/
def partEntry (p : Nat) : Nat := if p < 24 then p else p - 2

/-- The domain of a part: cards, D0's logic, M0 and the processors; none for power cards and fan trays. -/
def partDom (p : Nat) : Option Nat :=
  if p ≤ 18 then some p else if p = 19 then some 20 else if p = 28 || p = 29 then some p else none

/-- PART bytes of function cards. -/
def isCard (p : Nat) : Bool := p < 20

/-- Complete a command whose result the spec does not name. -/
def completeFree (s : State) (h : CmdHdr) (st : Status) : State := (s.complete h st (Config.refusedResult s.free)).fresh

/-! ## Firmware (R369) -/

/-- A section of an image. -/
def Image.sect (i : Image) (type : Nat) : List Nat :=
  match i.sects.find? (fun q => q.type = type) with
  | none => []
  | some q => q.data

/-- FW_CORE: the management firmware and the pipeline microcode, each behind its length word. -/
def fwParts (b : List Nat) : List Nat × List Nat :=
  let n := leNat (b.take 4)
  let r := b.drop (4 + n)
  ((b.drop 4).take n, (r.drop 4).take (leNat (r.take 4)))

/-- The firmware that an image holds for a slot. -/
def Image.fwOf (i : Image) (p : Nat) : List Nat :=
  if p < 16 then i.sect 5 else if p < 18 then i.sect 6 else if p = 18 then i.sect 7 else if p = 19 then i.sect 8
  else (fwParts (i.sect 4)).1

/-! ## Calibration by serial number (R111, R193, R384) -/

def calRefs (serial : Nat) : Nat := serial * 256
def calTable (serial c : Nat) : Nat := serial * 256 + 64 + c
def calGains (serial c : Nat) : Nat := serial * 256 + 128 + c

/-- Coefficients of the five settings of a converter, as the kennel keeps them, and back. -/
def coefWords (l : Sparse Coef) : List Nat :=
  (List.range 5).flatMap (fun n => [unsigned 64 (l.get {} n).gain, unsigned 64 (l.get {} n).ofs])
def wordCoefs (l : List Nat) : Sparse Coef :=
  (List.range 5).foldl (fun (m : Sparse Coef) n => m.put {} n { gain := signed 64 (l.getD (2 * n) 0), ofs := signed 64 (l.getD (2 * n + 1) 0) }) []

/-- The kennel keeps the coefficients and references of the field card that leaves. -/
def saveCal (s : State) (f : Nat) : State :=
  let n := s.serialOf f
  let k := s.card f
  let put (u : State) (key : Nat) (l : List Nat) : State := { u with kn := { u.kn with cal := u.kn.cal.put [] key l } }
  let t := put (put s (calRefs n) [unsigned 64 k.refs.1, unsigned 64 k.refs.2, k.refAt]) (calGains n 32) (0 :: coefWords k.spare.coefs)
  k.chans.foldl (fun u e => put u (calGains n e.1) (e.2.calAt :: coefWords e.2.coefs)) t

/-- The coefficients, references and masks of the card that enters, by its serial number; a card that the kennel does not know starts
with its factory values and no masking (R121). -/
def loadCal (s : State) (f : Nat) : State :=
  let n := s.serialOf f
  let t := match s.kn.cal.get [] (calRefs n) with
    | [a, b, r] => s.modCard f (fun k => { k with refs := (signed 64 a, signed 64 b), refAt := r })
    | _ => s
  let t := match s.kn.cal.get [] (calGains n 32) with
    | _ :: l => t.modSpare f (fun q => { q with coefs := wordCoefs l })
    | [] => t
  (List.range 32).foldl (fun u c =>
    let u := match s.kn.cal.get [] (calGains n c) with
      | r :: l => u.modChan f c (fun k => { k with coefs := wordCoefs l, calAt := r })
      | [] => u
    u.wrB (Reg.FC_CONV_STAT_MASKED f c) (s.kn.masks.contains (n * 32 + c))) t

/-! ## A domain goes off (R13, R20, R21, R385) -/

/-- The records that wait in the retention store are lost with it, and counted (R20, R388); the replays that read them end. -/
def storeLost (s : State) : State :=
  let gone := s.hp.bufs.flatMap (fun e => e.2.queue.filter (fun r => r.late && !r.replay))
  let t := gone.foldl (fun u r => ((u.countN (Reg.RD_STREAM_STAT_LOST r.stream) r.n).count Reg.RD_CNT_GAP_RUNS).bark 1 0x0132 true [r.stream, r.seq, r.n]) s
  let t := t.hp.bufs.foldl (fun u e => u.modBuf e.1 (fun x => { x with
    queue := x.queue.filter (fun r => !r.late && !r.replay), backlog := false, lateN := 0,
    users := x.users - (s.hp.replays.filter (fun q => q.buf = e.1)).length })) t
  let t := s.hp.replays.foldl (fun u q => u.complete q.hdr .ok q.done) { t with hp := { t.hp with replays := [] } }
  { t with rd_ := { t.rd_ with store := [] }, ov := { t.ov with unconf := [] } }

/-- What stays of a converter and of a card without power: the faults of the card that stands in the slot, its coefficients and what its
factory gave it; commits that wait. -/
def Chan.off (x : Chan) : Chan :=
  { coefs := x.coefs, calAt := x.calAt, capBad := x.capBad, dead := if x.dead.any (fun q => q.2.isNone) then [(0, none)] else [] }
def Card.off (k : Card) : Card :=
  { due := k.due, reverted := k.reverted, serial := k.serial, factory := k.factory, tau := k.tau,
    spare := { coefs := k.spare.coefs, out := k.spare.out }, chans := Sparse.mapD {} (fun _ x => x.off) k.chans }

/-- What a domain loses, before its registers are reset. -/
def domainLoss (s : State) (d : Nat) : State :=
  if d ≤ 15 then
    (saveCal (settleDeferred ((dropTurn s d).dropGrant 1 (spCid d)) d) d).modCard d Card.off
  else if d ≤ 17 then
    let k := d - 16
    let t := (List.range 16).foldl (fun u c => learnFail u (16 * k + c) 2) s
    let t := (List.range 16).foldl (fun u c => { u with ax := { u.ax with rdc := u.ax.rdc.put {} (16 * k + c) {} } }) t
    let t := { t with ax := { t.ax with acts := t.ax.acts.filter (fun q => q.1 / 16 ≠ k) } }
    (List.range 8).foldl (fun u i => { u with ax := { u.ax with
      pfi := u.ax.pfi.put {} (8 * k + i) { lastF := (u.pfi (8 * k + i)).lastF },
      ee := u.ax.ee.put {} (8 * k + i) {},
      pb := if i < 4 then u.ax.pb.put {} (4 * k + i) {} else u.ax.pb } }) t
  else if d = 18 then
    let t := muzzleAxes s axMUZZLED ecFAULT
    let t := (List.range 16).foldl (fun u a => (u.dropGrant 0 (axCid a)).dropGrant 1 (aoCid a)) t
    { t with aos := [], dv := { t.dv with axes := [], groups := [], groupNext := [], utabNext := none } }
  else if d = 19 then bridgeLost s
  else if d = 20 then (mtGone s).dropGrant 1 0x60
  else if d ≤ 24 then laneDown (laneDown s (2 * (d - 21))) (2 * (d - 21) + 1)
  else if d = 25 then
    let t := hpLinkDown s
    ({ t with hp := { t.hp with
      ready := false, dbEver := false, hostLost := false, msix := [], vecPend := [], vecLast := [],
      bufs := t.hp.bufs.mapD {} (fun _ b => { b with base := 0, log2 := 0, vec := 0, head := 0, tail := 0 }) } }).when
      (t.inService 28) (fun u => u.setPart 28 pOUT)
  else if d = 26 then (storeLost s).when (s.inService 29) (fun u => u.setPart 29 pOUT)
  else if d = 27 then
    let t := queueOff s
    { t with le := {}, rd_ := { t.rd_ with stg := [], act := [], prev := [], actAt := [] }, tb := { t.tb with gens := [], sched := [] } }
  else (loseOwner s (d - 26)).when (s.inService (d - 2)) (fun u => u.setPart (d - 2) pOUT)

/-- A domain goes off: what it holds is lost, its reservation returns, and its registers are reset but for those that stay. -/
def domainDown (s : State) (d : Nat) : State :=
  if s.domOn d then resetRegs (((domainLoss s d).switchDom d false).dropGrant 1 d) d
  else s.withdraw 1 d

/-! ## Entry into service (R57, R59, R96, R129, R193, R231, R420, R421) -/

/-- The spare of a card that enters: OUT and PARKED stay with the card (R116, R117). -/
def enterSpare (s : State) (f : Nat) : State :=
  if (s.spare f).out then s.setPhase f spOUT
  else match s.maskedCh f with
    | some c => substOn ((s.wr (Reg.FC_SPARE_STAT_PARKED_CH f) c).setPhase f spPARKED) f c s.now
    | none => s.setPhase f (if s.flag (Reg.FC_SPARE_CTRL_EN f) then spIDLE else spPAUSED)

/-- The charge stages that failed the last injection check (R112). -/
def capMarks (s : State) (f : Nat) (bad : List Nat) : State :=
  (List.range 32).foldl (fun u c => if (u.chan f c).capBad = bad.contains c then u else u.modChan f c (fun k => { k with capBad := bad.contains c })) s

/-- A field card enters: its coefficients, the active configuration in full, a stage of a first card as fitted, the lines that are active,
and CFG_REJECT for the first channel whose STAGE the variant does not fit. Another card than the last one starts anew (R121). -/
def enterField (s : State) (f : Nat) : State :=
  let v := (s.slot f).variant
  let fresh := s.rd (Reg.FC_CARD_STAT_LAST_VARIANT f) = 0 && (List.range 32).all (fun c =>
    s.rd (Reg.FC_CH_CFG_STAGE f c) = 0 && s.act (Reg.FC_CH_CFG_STAGE f c) = 0)
  let t := if fresh then
      (List.range 32).foldl (fun u c =>
        let x := Reg.FC_CH_CFG_STAGE f c
        let w := u.wr x (fittedStage v c)
        { w with fc := { w.fc with act := w.fc.act.put x.rst x.key (fittedStage v c) } }) s
    else s
  let n := s.serialOf f
  let t := if (s.card f).serial = some n then t else t.modCard f (fun k => { due := k.due, reverted := k.reverted, serial := some n })
  let t := (loadCal t f).wr (Reg.FC_CARD_STAT_LAST_VARIANT f) v
  let t := loadActive (t.modCard f (fun k => { k with since := t.now })) f
  let t := blankSync (beginCycle (enterSpare t f) f t.run) f t.now
  match (List.range 32).find? (fun c => fittedStage v c ≠ t.act (Reg.FC_CH_CFG_STAGE f c)) with
  | none => t
  | some c => cfgReject t f (1, c, 4)

/-- The table of a channel whose card enters: the kennel's for the same serial number, otherwise the image's CAL entry (R381). -/
def State.tableFor (s : State) (serial c : Nat) : Nat :=
  match s.kn.cal.get [] (calTable serial c) with
  | [] =>
    match s.image.cal.find? (fun e => leNat (e.take 8) = serial && e.getD 8 0 = 1 && e.getD 9 0 = c) with
    | none => 0
    | some e => leNat ((e.drop 16).take 128)
  | l => leNat l

/-- An axis card enters: tables of its serial number, every channel and input anew. `bad` lists the local channels that fail the
check of R199. -/
def enterAxis (s : State) (k : Nat) (bad : List Nat) : State :=
  let n := (s.slot (16 + k)).serial
  let t := (List.range 16).foldl (fun u i =>
    let c := 16 * k + i
    let u := u.wr (Reg.RDC_HARM_ACT_TABLE c) (s.tableFor n i)
    let u := rdcStart (rdcEnterCfg u c) c
    if bad.contains i && u.rd (Reg.RDC_CFG_EN c) = 1 then rdcConv u c else u) s
  (List.range 8).foldl (fun u i => eeChanged (pfiStart u (8 * k + i)) (8 * k + i) []) t

/-- The card of slot `p` begins its service with the active image's firmware: its entry reads IN_SERVICE. -/
def enterService (s : State) (p : Nat) (bad : List Nat) : State :=
  let t := s.modSlot p (fun x => { x with entering := false, serviceCmd := none, takenOut := false, selfMuzzled := false, fw := s.image.fwOf p })
  let t := t.setPart (partEntry p) pIN
  if p < 16 then capMarks (enterField t p) p bad
  else if p < 18 then enterAxis t (p - 16) bad
  else if p = 19 then mtRestart (showPeriod (mtJudge t))
  else t

/-- A function card whose every enabled channel fails the check of R199 counts as failed. -/
def axisFails (s : State) (k : Nat) (bad : List Nat) : Bool :=
  let en := (List.range 16).filter (fun i => s.rd (Reg.RDC_CFG_EN (16 * k + i)) = 1)
  !en.isEmpty && en.all bad.contains

/-- A part takes its way into service: its domain is asked for, and its self-test follows once it is powered and loaded (R420,
R421). A command may wait for it. -/
def partEnter (s : State) (p : Nat) (h : Option CmdHdr) : State :=
  match partDom p with
  | none => s
  | some d =>
    let t := s.modSlot p (fun x => { x with entering := true, serviceCmd := h, takenOut := false, late := false })
    if t.domOn d then t else requestDomain t d h

/-- A part leaves service: its entry takes `code`, its domains go off, and the commands that wait for it fail. -/
def partLeave (s : State) (p code : Nat) : State :=
  let h := (s.slot p).serviceCmd
  let held := (s.slot p).heldCmds
  let t := s.modSlot p (fun x => { x with
    entering := false, late := false, serviceCmd := none, standby := none, held := [], heldCmds := [], selfMuzzled := false })
  let t := t.setPart (partEntry p) code
  let t := if p = 18 then domainDown t 19 else t
  let t := match partDom p with | none => t | some d => domainDown t d
  held.foldl (fun u q => completeFree u q.1 .hwFault) (t.completeO h .hwFault pOUT)

/-! ## A domain comes up (R20, R284, R301, R421) -/

/-- A granted domain comes up. A card then loads and tests itself; a command that asked for the domain alone completes. The
retention store, the host port and the processors read IN_SERVICE with their domain when the image lists them. -/
def domainUp (s : State) (d : Nat) : State :=
  let h := s.pw.domCmd.get none d
  let t := s.switchDom d true
  let t := { t with pw := { t.pw with domCmd := t.pw.domCmd.put none d none } }
  let t := if d = 18 && (s.slot 18).entering && !t.domOn 19 && !t.hasGrant 1 19 then requestDomain t 19 none else t
  let t := if d = 18 then (List.range 16).foldl deglitch t else t
  let t := if d = 27 then queueOn t else t
  let t := if d = 25 then { t with hp := { t.hp with ready := true, dbEver := false } } else t
  let t := if d = 25 && t.listed 28 then t.setPart 28 pIN else t
  let t := if d = 26 && t.listed 29 then t.setPart 29 pIN else t
  let t := if (d = 28 || d = 29) && t.listed (d - 2) && !(t.slot d).entering then t.setPart (d - 2) pIN else t
  if (t.slot (domSlot d)).entering then t else match h with | none => t | some h => completeFree t h .ok

/-- CARD_SELFTEST_DONE (R421): the self-test of a card outside a start ends; `bad` lists the channels of an axis card that fail
the check of R199, or the charge stages of a field card that fail the injection check of R112. A processor's entry ends in the same way. -/
def cardSelftestDone (s : State) (p : Nat) (pass : Bool) (bad : List Nat) : State :=
  let x := s.slot p
  match partDom p with
  | none => s
  | some d =>
    if x.entering && s.domOn d && s.sampling then
      if pass && !(p = 16 && axisFails s 0 bad) && !(p = 17 && axisFails s 1 bad) then (enterService s p bad).completeO x.serviceCmd .ok pIN
      else
        let t := s.modSlot p (fun y => { y with entering := false, serviceCmd := none })
        (t.setPart (partEntry p) pOUT).completeO x.serviceCmd .hwFault pOUT
    else s

def execCardSelftestDone (p : Nat) (pass : Bool) (bad : List Nat) (s : State) : Host.Outcome State Fault Refusal :=
  guardItem (p < 20 || p = 28 || p = 29) (answer s (cardSelftestDone s p pass bad))

/-! ## Slots (R13, R14, R30, R420) -/

/-- What a slot without a card in service reads: OPEN without card and panel; NONE or OUT as the image leaves it out or lists it. -/
def State.emptyCode (s : State) (p : Nat) : Nat :=
  let x := s.slot p
  if !x.card && !x.panel then pOPEN else if s.listed (partEntry p) then pOUT else pNONE

/-- CARD_PULLED: a function card or a power card is removed. Its domain goes off and the slot reads OPEN; the bark is for a
removal without CARD_SERVICE. The feed of a power card goes absent. -/
def cardPulled (s : State) (p : Nat) : State :=
  let x := s.slot p
  if !x.card then s
  else if !s.hub.aon then s.modSlot p (fun y => { y with card := false })
  else
    let t := if p = 20 || p = 21 then
        (s.setFeed (p - 20) true false (if s.feedState (p - 20) = 2 then s.run else s.feedChg (p - 20))).wr (Reg.PW_FEED_STATE (p - 20)) 0
          |>.wrB (if p = 20 then Reg.PW_DOMAIN_STAT_AON_A else Reg.PW_DOMAIN_STAT_AON_B) false
      else s
    let t := partLeave (t.modSlot p (fun y => { y with card := false })) p pOPEN
    t.when (!x.takenOut) (fun u => u.bark 1 0x0116 true [p])

def execCardPulled (p : Nat) (s : State) : Host.Outcome State Fault Refusal := guardItem (p < 22) (answer s (cardPulled s p))

/-- The connectors are keyed (R3): a function slot takes a card of its own type, which its VARIANT code tells: 1 to 3 in a field slot, 1 in
the other function slots. A power card has no VARIANT. -/
def cardFits (p variant : Nat) : Bool := if p < 16 then 1 ≤ variant && variant ≤ 3 else if p < 20 then variant = 1 else true

/-- The domains of an empty slot, which DOMAIN_ON may have switched on, go off: the card that comes is held off. -/
def holdOff (s : State) (p : Nat) : State :=
  match partDom p with
  | none => s
  | some d => domainDown (if p = 18 then domainDown s 19 else s) d

/-- CARD_SEATED: the variant, hardware revision and serial number that the card gives. A card that does not fit the slot cannot be
seated (R3). A card the image leaves out is held off (R14); a listed one enters by itself, at once where the hub samples, unless
CARD_SERVICE took the last one out; in BOOT and SELFTEST it waits for the mode that follows SELFTEST, and in DORMANT for step 8 of
the next start (R420). Without power only the presence contact changes. -/
def cardSeated (s : State) (p variant hwrev serial : Nat) : State :=
  let x := s.slot p
  if x.card || x.panel || !cardFits p variant then s
  else
    let t := s.modSlot p (fun y => { y with card := true, variant := variant, hwrev := hwrev, serial := serial, linkLost := none, fw := [] })
    if !s.hub.aon then t
    else if p = 20 || p = 21 then
      if s.listed p then t.setPart p pOUT else t.setPart p pNONE
    else if !s.listed p then holdOff (t.setPart p pNONE) p
    else
      let t := t.setPart p pOUT
      if x.takenOut then holdOff t p
      else if s.sampling then partEnter t p none
      else if s.mode = mDORMANT then t
      else t.modSlot p (fun y => { y with entering := true, late := true })

def execCardSeated (p variant hwrev serial : Nat) (s : State) : Host.Outcome State Fault Refusal :=
  guardItem (p < 22 && variant < 256 && hwrev < 256) (answer s (cardSeated s p variant hwrev serial))

/-- BLANK_PANEL_CHANGE (R4, R30): the sensing contact of a JAB-00 panel moves an empty slot between OPEN and OUT or NONE, in every
mode in which the hub has power. -/
def blankPanel (s : State) (p : Nat) (fitted : Bool) : State :=
  if (s.slot p).card || (s.slot p).panel = fitted then s
  else
    let t := s.modSlot p (fun y => { y with panel := fitted })
    t.when s.hub.aon (fun u => u.setPart (partEntry p) (u.emptyCode p))

def execBlankPanelChange (p : Nat) (fitted : Bool) (s : State) : Host.Outcome State Fault Refusal :=
  guardItem (p < 22 || (24 ≤ p && p < 28)) (answer s (blankPanel s p fitted))

/-! ## The card watches its clock and its link (R387) -/

/-- The card muzzles every output it carries, and holds the muzzle until the core loads its configuration again. -/
def muzzleCard (s : State) (p : Nat) : State :=
  let t := s.modSlot p (fun x => { x with selfMuzzled := true })
  if p < 16 then showSources t p
  else if p < 18 then (List.range 8).foldl (fun u i => eeMuzzle u (8 * (p - 16) + i)) ((List.range 16).foldl (fun u i => rdcDrop u (16 * (p - 16) + i)) t)
  else if p = 18 then clearAos (muzzleAxes t axMUZZLED ecFAULT)
  else t

/-- CARD_CLOCK_LOST: MCLK, the beat marker or the card link is missing at the card. -/
def execCardClockLost (p : Nat) (s : State) : Host.Outcome State Fault Refusal :=
  guardItem (p < 20) (answer s (match partDom p with
    | none => s
    | some d => if (s.slot p).card && s.domOn d then muzzleCard s p else s))

/-- CARD_LINK_LOST: no valid frame for 4 beats. The card reads OUT and is restarted once; a second loss within 10 min leaves it
OUT until CARD_SERVICE IN. -/
def cardLinkLost (s : State) (p : Nat) : State :=
  if !s.inService (partEntry p) then s
  else
    let x := s.slot p
    let again := match x.linkLost with | none => false | some t0 => !s.elapsed t0 (600 * cclkSec)
    let t := (partLeave (muzzleCard s p) p pOUT).bark 1 0x0119 true [p]
    let t := t.modSlot p (fun y => { y with linkLost := some s.run })
    if again then t else partEnter t p none

def execCardLinkLost (p : Nat) (s : State) : Host.Outcome State Fault Refusal := guardItem (p < 20) (answer s (cardLinkLost s p))

end Sys2Proof.Machine
end

