-- ==== Sys2Proof/Machine/Begin.lean ====
section
/-! DEFINITION. The beginning of a start (R360, R363 to R367), the muzzle that every trigger of a start calls for (R24, R28), and
the switch of the management processors (R17). -/

namespace Sys2Proof.Machine

/-! ## Muzzling (R23, R24, R28) -/

/-- Stepper bridges, heaters and analogue outputs take their muzzled states, with end cause MODE. -/
def muzzleActuation (s : State) : State := clearAos (muzzleAxes s (if s.halted then axHALTED else axMUZZLED) ecMODE)

/-- Every output is muzzled. -/
def muzzleAll (s : State) : State := (List.range 16).foldl eeMuzzle (muzzleActuation s)

/-! ## Management processors (R17) -/

/-- The active processor. -/
def State.activeMp (s : State) : Nat := s.rd Reg.HUB_MODE_ACTIVE_MP

/-- Commands that the journal shows as begun complete with HW_FAULT, and are not executed again; the others are executed. The
command that itself asks for the switch goes on (R17: the hub then acts on the former active processor; DEDUCED). -/
def abandon (s : State) (own : Option CmdHdr) : State :=
  (s.hp.inflight.filter (fun f => f.begun && !(match own with | none => false | some h => sameCmd f.hdr h))).foldl (fun u f =>
    (completeFree u f.hdr .hwFault).bark 1 0x0118 true [f.hdr.tag, f.hdr.index]) s

/-- The standby becomes active. -/
def mpSwitch (s : State) (own : Option CmdHdr) : State :=
  let was := s.activeMp
  abandon (loseOwner ((s.wr Reg.HUB_MODE_ACTIVE_MP (1 - was)).bark 1 0x0117 true [1 - was]) (2 + was)) own

/-- MP_SWITCH: the active processor fails while the other is in service: the other becomes active, and the failed one reads OUT. -/
def mpFail (s : State) : State :=
  let was := s.activeMp
  if s.inService (26 + was) && s.inService (27 - was) then (mpSwitch s none).setPart (26 + was) pOUT else s

def execMpSwitch (s : State) : Host.Outcome State Fault Refusal := answer s (mpFail s)

/-! ## Banks at a start (R360, R367, R375, R376) -/

def bankSt (b : Nat) : Fld := Reg.KN_BANK_INFO_STATE b
def bEMPTY : Nat := 0
def bWRITING : Nat := 1
def bCOMMITTED : Nat := 2
def bACTIVE : Nat := 3
def bPENDING : Nat := 4
def bPREVIOUS : Nat := 5
def bFAILED : Nat := 6
def bFACTORY : Nat := 7

def State.activeBank (s : State) : Nat := s.rd Reg.KN_BANK_STATE_ACTIVE
def State.prevBank (s : State) : Nat := s.rd Reg.KN_BANK_STATE_PREVIOUS

/-- Set the state of bank A or B; bank F always reads FACTORY. -/
def setBank (s : State) (b st : Nat) : State := if b = 1 || b = 2 then s.wr (bankSt b) st else s

/-- The pending bank, if any. -/
def State.pendingBank (s : State) : Option Nat :=
  if s.rd (bankSt 1) = bPENDING then some 1 else if s.rd (bankSt 2) = bPENDING then some 2
  else if s.rd Reg.KN_BANK_STATE_NEXT = 0 && s.activeBank ≠ 0 then some 0 else none

/-- A pending bank gives way: it returns to what it was, PREVIOUS or COMMITTED (R375, R376). -/
def unpend (s : State) : State :=
  let t := match s.pendingBank with
    | none => s
    | some b => if s.prevBank = b then setBank s b bPREVIOUS else setBank s b bCOMMITTED
  t.wr Reg.KN_BANK_STATE_NEXT t.activeBank

/-- Bank `b` becomes active, and the bank that was active previous (R375). A bank other than F begins its trial unless its image is
proven. -/
def activateBank (s : State) (b : Nat) : State :=
  let old := s.activeBank
  if b = old then s.wr Reg.KN_BANK_STATE_NEXT b
  else
    let p := s.prevBank
    let t := if p = 3 || p = b then s else setBank s p bCOMMITTED
    let t := setBank (setBank t old bPREVIOUS) b bACTIVE
    let trial := b ≠ 0 && !(s.kn.images.get {} b).proven
    let t := (((t.wr Reg.KN_BANK_STATE_ACTIVE b).wr Reg.KN_BANK_STATE_NEXT b).wr Reg.KN_BANK_STATE_PREVIOUS old).wrB Reg.KN_BANK_STATE_TRIAL trial
    { t with hub := { t.hub with proofSince := none, proofDone := 0 } }

/-- After three failures the previous bank boots, or bank F (R367): the failing bank reads FAILED, and a pending bank returns to
COMMITTED (R376). -/
def fallBack (s : State) : State :=
  let bad := s.activeBank
  let p := if s.prevBank = 3 then 0 else s.prevBank
  let t := unpend s
  let t := setBank (setBank t bad bFAILED) p bACTIVE
  let t := (((t.wr Reg.KN_BANK_STATE_ACTIVE p).wr Reg.KN_BANK_STATE_NEXT p).wr Reg.KN_BANK_STATE_PREVIOUS 3).clr Reg.KN_BANK_STATE_TRIAL
  let t := { t with hub := { t.hub with failedAt := [], failsF := 0, proofSince := none, proofDone := 0 } }
  (t.clr Reg.HUB_START_CAUSE_FAILS).bark 1 (if p = 0 then 0x0124 else 0x0123) true []

/-- The bank that this start boots (step 1 of R361), and whether the start is a trial. -/
def chooseBank (s : State) (factory : Bool) : State × Bool :=
  if factory then (activateBank (unpend s) 0, false)
  else if 3 ≤ s.rd Reg.HUB_START_CAUSE_FAILS && s.activeBank ≠ 0 then (fallBack s, false)
  else
    match s.pendingBank with
    | none => (s, false)
    | some b =>
      let t := activateBank s b
      (t, t.flag Reg.KN_BANK_STATE_TRIAL)

/-! ## A start begins (R360, R363, R364, R424) -/

/-- Checkpoints of every open stream (R365). -/
def checkpoints (s : State) (final : Bool) : State := s.openStreams.foldl (fun u i => checkpoint u i final) s

/-- The timing unit is reset: AT counts from 0 in ACQUIRE (R361, step 3). -/
def timeReset (s : State) : State :=
  { s with now := 0, lag := [], tb := {}, regs := s.regs.filter (fun e => !(8 * 0x2000 ≤ e.1 && e.1 < 8 * 0x4000)) }

/-- All switched domains go off, in descending order. -/
def allDown (s : State) : State := (List.range 30).foldl (fun u j => domainDown u (29 - j)) s

/-- A start begins: the bank is chosen, HUB_START_CAUSE is written, START_BEGIN is raised, every output is muzzled, the rings are
disabled and every lane sends NOT_READY; a cold start finds every domain off and time lost. Answers the state and whether bank F
came by fallback. -/
def startOp (s : State) (cause : Nat) (cold factory : Bool) : State × Bool :=
  let fell := !factory && 3 ≤ s.rd Reg.HUB_START_CAUSE_FAILS && s.activeBank ≠ 0
  let q := chooseBank s factory
  let t := q.1
  let b := t.activeBank
  let g := (t.kn.images.get {} b).gen
  let t := ((((((t.wr Reg.HUB_START_CAUSE_CAUSE cause).wrB Reg.HUB_START_CAUSE_KIND (!cold)).clr Reg.HUB_START_CAUSE_TIME_KEPT).clr
    Reg.HUB_START_CAUSE_RETENTION_KEPT).wrB Reg.HUB_START_CAUSE_TRIAL q.2).wr Reg.HUB_START_CAUSE_BANK b).wr Reg.HUB_START_CAUSE_GENERATION g
  let t := (t.count Reg.KN_CNT_STARTS).bark 1 0x0120 false [cause, b2n (!cold), b, g]
  let t := linkReadyOff (disableRings (muzzleAll t))
  let t := if cold then
      let u := timeReset (allDown t)
      { u with tb := { u.tb with pendCopy := t.tb.sched.length } }
    else t
  -- the last valid F of each position input does not outlive a hub start (R231)
  let t := (List.range 16).foldl (fun u i => u.modPfi i (fun k => { k with lastF := none })) t
  ({ t with hub := { t.hub with starting := true, cardsWait := false, retry := false, button := none, buttonAtPower := false,
                                startAt := t.run, testReturn := none } }, fell && b = 0)

/-- A start begins, and HUB_MODE enters BOOT at the next beat boundary with `modeCause`; a start that was on its way is
replaced (R360). -/
def startBegin (s : State) (cause modeCause : Nat) (cold factory : Bool) : State :=
  let q := startOp s cause cold factory
  let c := if q.2 && cause = 0x08 then 0x11 else modeCause
  { q.1 with hub := { q.1.hub with trigs := (q.1.hub.trigs.filter (fun t => match t with
    | .boot _ | .steps | .tested _ _ => false
    | _ => true)) ++ [.boot c] } }

/-! ## Failed starts (R366, R367) -/

/-- A failed start is counted. -/
def countFail (s : State) : State :=
  let l := s.hub.failedAt ++ [s.run]
  let t := (s.wr Reg.HUB_START_CAUSE_FAILS (min 7 l.length)).count Reg.KN_CNT_FAILED_STARTS
  { t with hub := { t.hub with
    failedAt := l, failAt := s.run, failsF := if s.activeBank = 0 then s.hub.failsF + 1 else 0,
    proofSince := if t.mode = mSELFTEST then none else s.hub.proofSince.map (fun _ => s.run), proofDone := 0 } }

/-- The supervisor restarts the hub (R22, R391): it counts as a failed start before the running image is proven (R366). -/
def supervisorRestart (s : State) (cause modeCause : Nat) : State :=
  let t := if s.flag Reg.KN_BANK_STATE_TRIAL then countFail s else s
  startBegin t cause modeCause false false

/-- WATCHDOG: PD27 or both processors have been silent for 1 s. In DORMANT neither runs. -/
def execWatchdog (s : State) : Host.Outcome State Fault Refusal :=
  answer s (if s.mode = mDORMANT then s else supervisorRestart s 0x04 0x14)

/-- OSC_FAULT (R388): the oscillator has stopped. -/
def execOscFault (s : State) : Host.Outcome State Fault Refusal :=
  answer s (supervisorRestart (s.bark 2 0x020F true []) 0x03 0x03)

/-- START_FAILED: a step of the running start fails, or the status set in SELFTEST; the retry waits. -/
def startFail (s : State) (step : Nat) : State :=
  let t := (countFail s).wr Reg.HUB_START_CAUSE_FAIL_STEP step
  { t with hub := { t.hub with retry := true } }.bark 1 0x0122 true [step]

def execStartFailed (step : Nat) (s : State) : Host.Outcome State Fault Refusal :=
  guardItem ([2, 4, 5, 7].contains step) (answer s (if s.hub.starting && !s.hub.retry && s.mode = mBOOT then startFail s step else s))

/-- The interval before a retry: 20 ms, or on bank F 10 s doubling up to 10 min (R366, R367). -/
def State.retryAfter (s : State) : Nat :=
  if s.activeBank = 0 then min 600 (10 * 2 ^ (min 6 (s.hub.failsF - 1))) * cclkSec else 20 * cclkMs

def execStartRetry (s : State) : Host.Outcome State Fault Refusal :=
  answer s (if s.hub.retry && s.elapsed s.hub.failAt s.retryAfter then startBegin s 0x08 0x10 false false else s)

/-- FAILED_START_AGE_OUT: failures older than 10 min of run time drop out. -/
def execFailedStartAgeOut (s : State) : Host.Outcome State Fault Refusal :=
  answer s (let l := s.hub.failedAt.filter (fun t => !s.elapsed t (600 * cclkSec))
         { s with hub := { s.hub with failedAt := l } }.wr Reg.HUB_START_CAUSE_FAILS (min 7 l.length))

/-! ## Power and the reset button (R24, R360, R396) -/

/-- What stays without power: the kennel, the chassis identity and the energy books it keeps, the physical slots and
inputs, and the model's own counters. -/
def unpowered (s : State) : State :=
  let stay (key : Nat) : Bool :=
    let b := key / 8
    b < 0x10 || (0x6000 ≤ b && b < 0x7000) || key = Reg.HUB_START_CAUSE_FAILS.key || key = Reg.HUB_START_CAUSE_FAIL_STEP.key
      || key = Reg.PW_ENERGY_FEED_A.key || key = Reg.PW_ENERGY_FEED_B.key || key = Reg.PW_ENERGY_DRIVE.key
      || key = Reg.DV_CARD_STAT_HALT.key || key = Reg.DV_CARD_STAT_AOCLR0.key || key = Reg.DV_CARD_STAT_AOCLR1.key
  { State.reset with
    pending := s.pending, regs := s.regs.filter (fun e => stay e.1), run := s.run, kn := { s.kn with identBy := none }, out := s.out, free := s.free,
    hub := { State.reset.hub with
      aon := false, starting := false, failedAt := s.hub.failedAt, failsF := s.hub.failsF,
      slots := s.hub.slots.mapD {} (fun _ x => { card := x.card, panel := x.panel, variant := x.variant, hwrev := x.hwrev, serial := x.serial, fw := x.fw }) },
    dv := { State.reset.dv with haltA := s.dv.haltA, haltB := s.dv.haltB },
    bq := { log := s.bq.log },
    pw := { State.reset.pw with scrub := { s.pw.scrub with blockAt := none }, refresh := { s.pw.refresh with blockAt := none } },
    ov := { State.reset.ov with modules := s.ov.modules } }

/-- AON_POWER_LOSS: both feeds are gone, and the stored energy has carried AON for at least 50 ms of DORMANT. No power: no
mode and no register is read; MODE is kept at 0. -/
def aonLoss (s : State) : State :=
  if s.hub.aon && s.mode = mDORMANT && s.feedState 0 ≠ 2 && s.feedState 1 ≠ 2 && s.elapsed s.hub.modeAt (50 * cclkMs) then
    (unpowered s).wr Reg.HUB_MODE_MODE mDORMANT
  else s

def execAonPowerLoss (s : State) : Host.Outcome State Fault Refusal := answer s (aonLoss s)

/-- The trays that stand in their slots as AON comes up run without a test of their own (DESIGN CHOICE: R299 tests a tray that is
seated, and R362 gives the start mode before such a test would end). -/
def fansUp (s : State) : State :=
  (List.range 4).foldl (fun u v => if (u.slot (24 + v)).card then u.wr (Reg.PW_FAN_STATE v) fanOK else u) s

/-- AON_POWER_UP: the supervisor starts, in BOOT. Without the button the cold start begins at once; while the button is held the
supervisor waits (R360). -/
def aonUp (s : State) (held : Bool) : State :=
  if s.hub.aon then s
  else
    let t := (((fansUp s).wr Reg.HUB_MODE_MODE mBOOT).wr Reg.HUB_MODE_PREV mDORMANT).wr Reg.HUB_MODE_CAUSE 0x01
    let t := { t with hub := { t.hub with aon := true } }
    if held then { t with hub := { t.hub with button := some t.run, buttonAtPower := true } } else startBegin t 0x01 0x01 true false

def execAonPowerUp (held : Bool) (s : State) : Host.Outcome State Fault Refusal := answer s (aonUp s held)

/-- A press begins: it stands as the confirmation of R378 and R379 from this moment on. It confirms an identity write that waits:
the chassis memory takes the new ID, which applies at the next start. -/
def buttonPress (s : State) : State :=
  let t := { s with hub := { s.hub with button := some s.run, buttonAtPower := false, pressAt := some s.run } }
  match s.kn.identBy with
  | none => t
  | some by_ =>
    if s.run ≤ by_ then
      let n := s.rd Reg.KN_IDENT_NEW_ID
      (({ t with kn := { t.kn with identBy := none } }.wr Reg.KN_IDENT_ID n).set Reg.KN_IDENT_WRITTEN).bark 4 0x0409 true [n]
    else t

def execResetButtonPress (s : State) : Host.Outcome State Fault Refusal := answer s (if s.hub.aon then buttonPress s else s)

/-- A press or a wake clears HUB_WAKE_AT.ARM in DORMANT (R24). -/
def disarm (s : State) : State := s.when (s.mode = mDORMANT) (fun u => u.clr Reg.HUB_WAKE_AT_ARM)

/-- A release: a warm start within 10 s; the power-on start where the button was held as AON came up; nothing after a hold that
has begun its start. -/
def buttonRelease (s : State) : State :=
  match s.hub.button with
  | none => s
  | some t0 =>
    if s.hub.buttonAtPower then startBegin s 0x01 0x01 true false
    else if s.elapsed t0 (10 * cclkSec) then { s with hub := { s.hub with button := none } }
    else startBegin (disarm s) 0x02 0x02 false false

def execResetButtonRelease (s : State) : Host.Outcome State Fault Refusal := answer s (buttonRelease s)

/-- A hold that reaches 10 s: a cold start, the timing unit reset. -/
def execResetButtonHold (s : State) : Host.Outcome State Fault Refusal :=
  answer s (match s.hub.button with
    | none => s
    | some t0 => if !s.hub.buttonAtPower && s.elapsed t0 (10 * cclkSec) then startBegin (disarm s) 0x09 0x12 true false else s)

/-- Held while AON comes up, and for 3 s after: a cold start from bank F. -/
def execFactoryBoot (s : State) : Host.Outcome State Fault Refusal :=
  answer s (match s.hub.button with
    | none => s
    | some t0 => if s.hub.buttonAtPower && s.elapsed t0 (3 * cclkSec) then startBegin s 0x0A 0x13 true true else s)

/-! ## Feeds and wakes (R24) -/

/-- LOW_FEEDS: both feeds out of range for 10 ms. Every output is muzzled; the domains go off with the entry to DORMANT. A start that
runs ends, and is no failed start (R360). -/
def lowFeeds (s : State) : State :=
  let low (f : Nat) : Bool := s.feedState f ≠ 2 && s.elapsed (s.feedChg f) (10 * cclkMs)
  if s.mode ≠ mDORMANT && low 0 && low 1 then
    let t := muzzleAll s
    { t with hub := { t.hub with
      starting := false, retry := false,
      trigs := (t.hub.trigs.filter (fun q => match q with | .boot _ | .steps | .tested _ _ | .lowFeeds => false | _ => true)) ++ [.lowFeeds] } }
  else s

def execLowFeeds (s : State) : Host.Outcome State Fault Refusal := answer s (lowFeeds s)

/-- FEED_RESTORED_WAKE: in DORMANT by low feeds, a feed has been in range for 1 s. -/
def execFeedRestoredWake (s : State) : Host.Outcome State Fault Refusal :=
  answer s (let back (f : Nat) : Bool := s.feedState f = 2 && s.elapsed (s.feedChg f) cclkSec
         if s.mode = mDORMANT && s.hub.aon && s.hub.dormantLow && !s.hub.starting && (back 0 || back 1) then startBegin s 0x0B 0x16 false false else s)

/-- HUB_WAKE_AT: the armed AT second is reached, or past, in DORMANT. -/
def execHubWakeAt (s : State) : Host.Outcome State Fault Refusal :=
  answer s (if s.mode = mDORMANT && s.hub.aon && !s.hub.starting && s.flag Reg.HUB_WAKE_AT_ARM && s.rd Reg.HUB_WAKE_AT_SECONDS ≤ s.now / cclkSec then
      startBegin (disarm s) 0x07 0x0F false false else s)

end Sys2Proof.Machine
end

