-- ==== Sys2Proof/Machine/Governor.lean ====
section
/-! DEFINITION. The evaluation of the budget governor (R288), with what a grant sets going, the checks of the books (R391), and the
requests for domains (R20, R316). -/

namespace Sys2Proof.Machine

/-- What a grant sets going at its boundary: a domain comes up, an arena drives. The other consumers look at their grant
themselves. -/
def onGrant (s : State) (r : Resv) : State :=
  if r.book = 1 && r.cid < 30 then domainUp s r.cid
  else if r.book = 0 && 0x30 ≤ r.cid && r.cid < 0x40 then arenaGranted s (r.cid - 0x30)
  else s

/-- Background tasks work; releases, budget changes, cuts and restorations, grants; then the registers show the books (R286, R288 to R290). -/
def governor (s : State) : State :=
  let t := applyCuts (applyBudgets (applyReleases (bgWork (bgWork s 0x61) 0x62)))
  let q0 := serve (t.waitOrder 0) t
  let q1 := serve (q0.1.waitOrder 1) q0.1
  let t := (q0.2 ++ q1.2).foldl onGrant q1.1
  bgAsk (bookRegs (bookRegs (countWaits t) 0) 1)

/-- A book fails its check (R391): 0 and 1 the token books of drive and service, which are rebuilt from the reservations held; 2 + l
the credit book of lane l, which retrains; 10 a slot or record book, for which the supervisor restarts the hub. -/
def bookFault (s : State) (b : Nat) : State :=
  let v := if b < 2 then [s.rd (Reg.PW_BOOK_GRANTED b), s.rd (Reg.PW_BOOK_FREE b), s.budgetOf b] else []
  let t := s.bark 1 0x011A true (b :: v)
  if b < 2 then bookRegs t b else if b < 10 then ovRetrain t (b - 2) else supervisorRestart t 0x03 0x03

/-- GOVERNOR_EVALUATE, with the books that the hub finds at fault at this boundary; the slot and record books, checked when a record
is formed, are judged here too (DESIGN CHOICE). -/
def execGovernorEvaluate (bad : List Nat) (s : State) : Host.Outcome State Fault Refusal :=
  guardItem (bad.all (fun b => b ≤ 10)) (answer s (bad.foldl bookFault (governor s)))

/-! ## Switching domains (R20, R316) -/

/-- The domains that carry a live path to the outside (R20). -/
def State.livePaths (s : State) : List Nat :=
  [25, 21, 22, 23, 24].filter (fun d => s.domOn d &&
    (if d = 25 then s.flag Reg.HP_STAT_LINK_UP else s.laneUp (2 * (d - 21)) || s.laneUp (2 * (d - 21) + 1)))

/-- The hub depends on domain `d` for its minimum service set (R20, R21): the only powered processor, the last outside domain, the
only live path, and PD27, which the list of R20 leaves to its first sentence (DEDUCED). -/
def State.needsDomain (s : State) (d : Nat) : Bool :=
  if d = 27 then true
  else if d = 28 then !s.domOn 29
  else if d = 29 then !s.domOn 28
  else if 21 ≤ d && d ≤ 25 then
    [25, 21, 22, 23, 24].all (fun e => e = d || !s.domOn e) || s.livePaths = [d]
  else false

/-- A domain is switched off on request. The part it feeds reads OUT; the active processor hands over first (R17). -/
def domainOff (s : State) (d : Nat) (own : Option CmdHdr) : State :=
  if !s.domOn d then s.withdraw 1 d
  else
    let t := if (d = 28 || d = 29) && s.activeMp = d - 28 then mpSwitch s own else s
    let p := domSlot d
    if p < 255 && (t.inService (partEntry p) || (t.slot p).entering) then partLeave t p pOUT else domainDown t d

/-- A domain is asked for, with the command that waits for it. -/
def domainOn (s : State) (d : Nat) (h : Option CmdHdr) : State :=
  if s.domOn d then (match h with | none => s | some h => completeFree s h .ok) else requestDomain s d h

/-- CARD_SERVICE DOMAIN_OFF. -/
def domainOffCmd (s : State) (h : CmdHdr) (d : Nat) : State :=
  let t := s.begin h
  if t.barred then t.refuse h .modeForbids
  else if 30 ≤ d then t.refuse h .badParam
  else if t.domOn d && t.needsDomain d then t.refuse h .modeForbids
  else completeFree (domainOff t d (some h)) h .ok

def execDomainOff (h : CmdHdr) (d : Nat) (s : State) : Host.Outcome State Fault Refusal := answer s (domainOffCmd s h d)

/-- CARD_SERVICE DOMAIN_ON: it completes when the domain is up, or BUDGET_DENIED under R289. -/
def domainOnCmd (s : State) (h : CmdHdr) (d : Nat) : State :=
  let t := s.begin h
  if t.barred then t.refuse h .modeForbids
  else if 30 ≤ d then t.refuse h .badParam
  else domainOn t d (some h)

def execDomainOn (h : CmdHdr) (d : Nat) (s : State) : Host.Outcome State Fault Refusal := answer s (domainOnCmd s h d)

/-- A write of PW_DOMAIN_CTRL.REQ: each bit that differs from its domain's state is a request, as by CARD_SERVICE. A refused bit
returns to the state of its domain. -/
def domainCtrl (s : State) (req : Nat) : State :=
  (List.range 30).foldl (fun u d =>
    if bit req d = u.domOn d then u
    else if bit req d then (domainOn u d none).wr Reg.PW_DOMAIN_CTRL_REQ (setBit (u.rd Reg.PW_DOMAIN_CTRL_REQ) d true)
    else if u.needsDomain d then u
    else domainOff u d none) s

def execPwDomainCtrlWrite (src : WrSrc) (req : Nat) (s : State) : Host.Outcome State Fault Refusal :=
  answer s (s.write src .PW_DOMAIN_CTRL 0 0 false (fun t => domainCtrl t req))

/-! ## CARD_SERVICE (R316, R381) -/

/-- A PART byte that CARD_SERVICE may name with a part. -/
def partByte (p : Nat) : Bool := p < 22 || (24 ≤ p && p < 30)

/-- The entry of a part as a command's result. -/
def State.partCode (s : State) (p : Nat) : Nat := s.rd (partFld (partEntry p))

/-- OUT of the part would cost the hub its last processor, its last feed, or a second fan tray (R20, R316). -/
def State.outForbidden (s : State) (p : Nat) : Bool :=
  if p = 28 then s.inService 26 && !s.inService 27
  else if p = 29 then s.inService 27 && !s.inService 26
  else if p = 20 || p = 21 then s.feedState (21 - p) ≠ 2 || !s.inService (41 - p)
  else if 24 ≤ p && p < 28 then (List.range 4).any (fun v => 24 + v ≠ p && !s.inService (22 + v))
  else false

/-- A part is taken out of service. A part that gave none keeps its entry. -/
def serviceOut (s : State) (h : CmdHdr) (p : Nat) : State :=
  let mark (u : State) : State := u.modSlot p (fun x => { x with takenOut := true })
  if p = 20 || p = 21 then
    if s.inService p then mark ((s.setFeed (p - 20) true false s.run).setPart p pOUT) else mark s
  else if 24 ≤ p && p < 28 then
    if s.inService (p - 2) then mark ((fanStop s (p - 24)).setPart (p - 2) pOUT) else mark s
  else
    let t := if (p = 28 || p = 29) && s.inService (p - 2) && s.activeMp = p - 28 then mpSwitch s (some h) else s
    if t.inService (partEntry p) || (t.slot p).entering then mark (partLeave t p pOUT)
    else mark (match partDom p with | none => t | some d => domainDown t d)

/-- A part is brought into service: the command completes when it is, or at once where there is nothing in the slot, or nothing to
do. -/
def serviceIn (s : State) (h : CmdHdr) (p : Nat) : State :=
  let x := s.slot p
  if p < 28 && !x.card then s.complete h .hwFault (s.partCode p)
  else if s.inService (partEntry p) then s.complete h .ok pIN
  else
    let t := s.completeO x.serviceCmd .hwFault (s.partCode p)
    if p = 20 || p = 21 then
      let f := p - 20
      let load := t.feedState f = 2 && !(t.feedState (1 - f) = 2 && t.feedLoad (1 - f))
      (t.setFeed f true load t.run).modSlot p (fun y => { y with takenOut := false, serviceCmd := some h })
    else if 24 ≤ p && p < 28 then fanTestOp (t.modSlot p (fun y => { y with takenOut := false, serviceCmd := some h })) (p - 24)
    else partEnter (t.setPart (partEntry p) pOUT) p (some h)

/-- CARD_SERVICE OUT. -/
def serviceOutCmd (s : State) (h : CmdHdr) (p : Nat) : State :=
  let t := s.begin h
  if t.barred then t.refuse h .modeForbids
  else if !partByte p then t.refuse h .badParam
  else if t.outForbidden p then t.refuse h .modeForbids
  else
    let u := serviceOut t h p
    u.complete h .ok (u.partCode p)

def execCardServiceOut (h : CmdHdr) (p : Nat) (s : State) : Host.Outcome State Fault Refusal := answer s (serviceOutCmd s h p)

/-- CARD_SERVICE IN. -/
def serviceInCmd (s : State) (h : CmdHdr) (p : Nat) : State :=
  let t := s.begin h
  if t.barred then t.refuse h .modeForbids
  else if !partByte p then t.refuse h .badParam
  else serviceIn t h p

def execCardServiceIn (h : CmdHdr) (p : Nat) (s : State) : Host.Outcome State Fault Refusal := answer s (serviceInCmd s h p)

/-- CARD_SERVICE RESTART: OUT, then IN, with the refusals of OUT. -/
def serviceRestartCmd (s : State) (h : CmdHdr) (p : Nat) : State :=
  let t := s.begin h
  if t.barred then t.refuse h .modeForbids
  else if !partByte p then t.refuse h .badParam
  else if t.outForbidden p then t.refuse h .modeForbids
  else serviceIn (serviceOut t h p) h p

def execCardServiceRestart (h : CmdHdr) (p : Nat) (s : State) : Host.Outcome State Fault Refusal := answer s (serviceRestartCmd s h p)

/-! ## Firmware (R369, R381) -/

/-- The image from which UPDATE loads: the pending one, if there is one, else the active one. -/
def State.updateImage (s : State) : Image :=
  match s.pendingBank with
  | none => s.image
  | some b => s.kn.images.get {} b

/-- The drive card may be updated: no axis moves, waits for its budget, or runs in a group. -/
def State.d0Still (s : State) : Bool :=
  (List.range 16).all (fun a => s.axState a ≠ axMOVING && s.axState a ≠ axWAIT) && s.dv.groups.isEmpty && s.dv.groupNext.isEmpty

/-- CARD_SERVICE UPDATE: the part runs on while its firmware is loaded, until CARD_UPDATE_SWITCH. The active processor hands over
first; an axis card ends its learning. -/
def serviceUpdateCmd (s : State) (h : CmdHdr) (p : Nat) : State :=
  let t := s.begin h
  if t.barred then t.refuse h .modeForbids
  else if !partByte p || p = 20 || p = 21 || (24 ≤ p && p < 28) then t.refuse h .badParam
  else if (p = 28 || p = 29) && t.activeMp = p - 28 && t.outForbidden p then t.refuse h .modeForbids
  else if (p = 18 && !t.d0Still) || (t.slot p).standby.isSome then t.refuse h .badParam
  else if !t.inService (partEntry p) then t.complete h .hwFault (t.partCode p)
  else
    let u := if (p = 28 || p = 29) && t.activeMp = p - 28 then mpSwitch t (some h) else t
    let u := if p = 16 || p = 17 then (List.range 16).foldl (fun w i => learnFail w (16 * (p - 16) + i) 5) u else u
    u.modSlot p (fun x => { x with standby := some (t.updateImage.fwOf p), serviceCmd := some h })

def execCardServiceUpdate (h : CmdHdr) (p : Nat) (s : State) : Host.Outcome State Fault Refusal := answer s (serviceUpdateCmd s h p)

end Sys2Proof.Machine
end

