-- ==== Sys2Proof/Machine/Modes.lean ====
section
/-! DEFINITION. The mode machine (R23 to R30): its requests, its levels, the choice among triggers, and what the entry to a mode
does to every output class. -/

namespace Sys2Proof.Machine

/-! ## Levels and requests (R24, R26) -/

/-- PW_THERM_STAT.STATE reads CRITICAL. -/
def State.critical (s : State) : Bool := s.rd Reg.PW_THERM_STAT_STATE = 3

/-- /STOW has stood asserted for 10 ms or more. -/
def State.stowHeld (s : State) : Bool := s.hub.stowSince.isSome

/-- RUN, DEGRADED or COMMISSION. -/
def State.active3 (s : State) : Bool := s.mode = mRUN || s.mode = mDEGRADED || s.mode = mCOMMISSION

/-- A level of R24 that stands before every request (R27): the thermal critical limit, or /STOW. -/
def State.levelActs (s : State) : Bool := (s.critical && (s.active3 || s.mode = mSTOW)) || (s.stowHeld && s.active3)

/-- A mode request as it is judged: nothing to do, a refusal, or a transition. -/
inductive ReqAns where
  | done
  | refused (st : Status)
  | go
  deriving DecidableEq, Repr

/-- The targets permitted from the present mode (R26). -/
def State.permitted (s : State) (target : Nat) : Bool :=
  if s.mode = mSAFE then [mBOOT, mSELFTEST, mCOMMISSION, mRUN, mSTOW, mDORMANT].contains target
  else if s.mode = mCOMMISSION then [mBOOT, mSELFTEST, mSAFE, mRUN, mSTOW].contains target
  else if s.mode = mRUN || s.mode = mDEGRADED then [mSAFE, mCOMMISSION, mSTOW].contains target
  else if s.mode = mSTOW then [mSAFE, mRUN].contains target
  else false

/-- Judge a request against the present mode and levels (R26, and the order of R310). -/
def judgeReq (s : State) (target : Nat) : ReqAns :=
  if target = s.mode || (target = mRUN && s.mode = mDEGRADED) then .done
  else if s.barred then .refused .modeForbids
  else if target = mDEGRADED || 7 < target then .refused .badParam
  else if !s.permitted target then .refused .modeForbids
  else if (target = mRUN || target = mCOMMISSION) && s.stowHeld then .refused .modeForbids
  else if (target = mRUN || target = mCOMMISSION || target = mSTOW) && s.critical then .refused .modeForbids
  else if target = mRUN && s.activeBank = 0 then .refused .modeForbids
  else .go

/-- A request is answered: a command completes with HUB_MODE.MODE as its result; a GO sets DONE. -/
def reqDone (s : State) (h : Option CmdHdr) : State :=
  match h with
  | none => s.set Reg.HUB_MODE_REQ_DONE
  | some h => s.complete h .ok s.mode

/-- A request is refused. -/
def reqRefused (s : State) (h : Option CmdHdr) (st : Status) : State :=
  let t := s.bark 1 0x0111 true []
  match h with
  | none => t.set Reg.HUB_MODE_REQ_REJECT
  | some h => t.refuse h st

/-- A request is submitted. It is judged at once where no other trigger and no level stands before it; otherwise it waits for its
turn (R27). -/
def submitReq (s : State) (target : Nat) (h : Option CmdHdr) : State :=
  let wait := s.trigger (.request target h)
  if !s.hub.trigs.isEmpty || s.levelActs then wait
  else
    match judgeReq s target with
    | .done => reqDone s h
    | .refused st => reqRefused s h st
    | .go => wait

/-- MODE_SET. It is carried out in SELFTEST too (R311), where every target but the present mode is refused. -/
def execModeSet (h : CmdHdr) (target : Nat) (s : State) : Host.Outcome State Fault Refusal :=
  answer s (submitReq (s.begin h) target (some h))

/-- A write of HUB_MODE_REQ.GO, as a request of HUB_MODE_REQ.TARGET; a CFG_WRITE's GO is the same request (R12). -/
def execHubModeReqGo (src : WrSrc) (s : State) : Host.Outcome State Fault Refusal :=
  answer s (s.write src .HUB_MODE_REQ 0 0 false (fun t => submitReq t (t.rd Reg.HUB_MODE_REQ_TARGET) none))

/-! ## Entry to a mode (R28, R50, R64, R88, R121, R136, R174, R202, R249, R279, R326, R365) -/

/-- Pending events are discarded, with their number (R50). -/
def discardSched (s : State) : State :=
  let n := if s.domOn 27 then s.tb.sched.length else s.tb.pendCopy
  let t := { s with tb := { s.tb with sched := [], pendCopy := 0 } }
  t.when (n ≠ 0) (fun u => u.bark 2 0x020E true [n])

/-- The hub stops sampling: turns end, channels are OFF, the scan stops, streams close their records; checkpoints are FINAL for
DORMANT and for a warm start (R365). -/
def stopSampling (s : State) (final : Bool) : State :=
  let t := (List.range 16).foldl eeMuzzle ((List.range 32).foldl rdcOff (endAllTurns s))
  let t := (List.range 16).foldl showSources t
  let t := match t.mt.run with
    | some r => (match r.urgent with | some (h, c) => { t with mt := { t.mt with urgents := (h, r.ch, c) :: t.mt.urgents } } | none => t)
    | none => t
  let t := streamSuspend (mtStop t)
  if final then checkpoints t true else t

/-- The hub samples again: the active configurations apply in full, the amplifiers start, streams account for what they
missed, and the cards that wait enter service. -/
def startSampling (s : State) : State :=
  let t := (List.range 16).foldl (fun u f => if u.fcUp f then beginCycle (loadActive u f) f u.run else u) s
  let t := (List.range 16).foldl showSources t
  let t := (List.range 32).foldl (fun u c => if u.axUp (c / 16) then rdcStart u c else u) t
  let t := if t.mtUp then mtRestart t else t
  let t := t.openStreams.foldl streamResume t
  (List.range 20).foldl (fun u p =>
    let x := u.slot p
    if x.entering && x.card && s.listed p then partEnter u p x.serviceCmd else u) t

/-- Stepper axes on entry from mode `old` (R28, R29, R279). A stow move that still runs or waits when the hub leaves STOW for RUN or
DEGRADED goes on to its stow position: R29 speaks only of axes that have reached theirs (DESIGN CHOICE). -/
def enterAxes (s : State) (old : Nat) : State :=
  let rest := if s.halted then axHALTED else axMUZZLED
  if s.mode = mRUN || s.mode = mDEGRADED then s
  else if s.mode = mSTOW then (List.range 16).foldl stowAxis s
  else
    let t := muzzleAxes s rest ecMODE
    if s.mode = mCOMMISSION && old ≠ mCOMMISSION then (List.range 16).foldl (fun u a => u.modAxis a (fun y => { y with heatLive := false })) t else t

/-- Analogue outputs on entry: at the clear code in every mode but RUN and DEGRADED. -/
def enterAos (s : State) (old : Nat) : State :=
  if s.mode = mRUN || s.mode = mDEGRADED then s
  else
    let t := clearAos s
    if s.mode = mCOMMISSION && old ≠ mCOMMISSION then (List.range 16).foldl (fun u o => u.modAo o (fun y => { y with live := false })) t else t

/-- /STOW stands asserted in SAFE: barked once per assertion (R24). -/
def stowIgnored (s : State) : State :=
  if s.mode = mSAFE && s.stowHeld && !s.hub.stowIgnored then
    ({ s with hub := { s.hub with stowIgnored := true } }).bark 1 0x0113 true []
  else s

/-- The entry to DORMANT: every switched domain goes off in descending order, and the parts they feed read OUT. -/
def goDormant (s : State) (cause : Nat) : State :=
  let t := [18, 19, 28, 29].foldl (fun u p => if u.inService (partEntry p) then u.setPart (partEntry p) pOUT else u)
    ((List.range 18).foldl (fun u p => if u.inService p then u.setPart p pOUT else u) s)
  let t := allDown t
  { t with hub := { t.hub with dormantLow := cause = 0x0E, starting := false } }

/-- The trial's ten minutes run out of SELFTEST alone (R375): they stop at its entry, and start or go on as it is left. -/
def proofClock (s : State) (old : Nat) : State :=
  if s.mode = mSELFTEST then { s with hub := { s.hub with proofDone := s.proofTime, proofSince := none } }
  else if old = mSELFTEST && s.sampling && s.flag Reg.KN_BANK_STATE_TRIAL && s.hub.proofSince.isNone then { s with hub := { s.hub with proofSince := some s.run } }
  else s

/-- HUB_MODE takes a new mode at this beat boundary (R23): MODE_ENTER carries the AT of the boundary, the new mode, the previous
one and the cause; every output class takes its state. -/
def enterMode (s : State) (m cause : Nat) : State :=
  let old := s.mode
  let eng := s.engine
  let was := s.sampling
  let now3 := decide (3 ≤ m)
  let t := if was && !now3 then stopSampling s (m = mDORMANT || (m = mBOOT && s.flag Reg.HUB_START_CAUSE_KIND)) else s
  let t := ((t.wr Reg.HUB_MODE_MODE m).wr Reg.HUB_MODE_PREV old).wr Reg.HUB_MODE_CAUSE cause
  let w := atWord t.now
  let warn := m = mDORMANT || m = mSAFE || m = mDEGRADED || m = mSTOW
  let t := t.bark 1 0x0110 warn [w % 2 ^ 32, bits w 32 32, bits w 64 32, m, old, cause]
  let act3 (k : Nat) : Bool := k = mRUN || k = mDEGRADED || k = mCOMMISSION
  let t := { t with hub := { t.hub with modeAt := t.run, stowDone := false,
                                        activeSince := if act3 m && !act3 old then t.run else t.hub.activeSince } }
  let t := proofClock t old
  let t := if m = mBOOT || m = mDORMANT then closeWindows (discardSched t) else t
  let t := enterAos (enterAxes t old) old
  let t := if !was && now3 then startSampling t else t
  let t := engineMode t eng (m ≠ old)
  let t := if t.popMode then t else endPop t
  let t := if m = mDORMANT then goDormant t cause else t
  stowIgnored (isoUpdate (pollUpdate (sideParts t)))

/-! ## The choice among triggers (R27) -/

/-- Remove one trigger. -/
def dropTrig (s : State) (q : Trig) : State := { s with hub := { s.hub with trigs := s.hub.trigs.erase q } }

/-- A permitted request takes effect, and completes where HUB_MODE takes its target. -/
def actReq (s : State) (target : Nat) (h : Option CmdHdr) : State :=
  let cause := match h with | none => 0x08 | some _ => 0x07
  if target = mBOOT then
    let q := startOp (reqDone (s.wr Reg.HUB_MODE_MODE mBOOT) h |>.wr Reg.HUB_MODE_MODE s.mode) 0x05 false false
    enterMode q.1 mBOOT cause
  else
    let m := if target = mRUN && s.anyPartLost then mDEGRADED else target
    let t := if target = mSELFTEST then { s with hub := { s.hub with testReturn := some s.mode } } else s
    reqDone (enterMode t m cause) h

/-- Requests in the order fetched: those that change nothing are answered until one acts. -/
def actReqs (s : State) : List Trig → State
  | [] => s
  | .request target h :: rest =>
    let t := dropTrig s (.request target h)
    match judgeReq t target with
    | .done => actReqs (reqDone t h) rest
    | .refused st => actReqs (reqRefused t h st) rest
    | .go => actReq t target h
  | _ :: rest => actReqs s rest

/-- Part state changes, the lowest of the triggers. -/
def actParts (s : State) : State :=
  if s.mode = mRUN && s.anyPartLost then enterMode s mDEGRADED 0x0A
  else if s.mode = mDEGRADED && !s.anyPartLost then enterMode s mRUN 0x0B
  else s

/-- MODE_CHANGE: of the triggers that stand at this beat boundary the highest acts, and the others are judged against the mode it
produces, at the next boundary. -/
def modeChange (s : State) : State :=
  let boot := s.hub.trigs.findSome? (fun q => match q with | .boot c => some c | _ => none)
  match boot with
  | some c => enterMode (dropTrig s (.boot c)) mBOOT c
  | none =>
    if s.hub.trigs.contains .lowFeeds then
      let t := dropTrig s .lowFeeds
      if s.mode = mDORMANT then t else enterMode t mDORMANT 0x0E
    else if s.hub.trigs.contains .steps then
      let t := dropTrig s .steps
      if s.mode = mBOOT then enterMode t mSELFTEST 0x04 else t
    else
      match s.hub.trigs.findSome? (fun q => match q with | .tested m c => some (m, c) | _ => none) with
      | some (m, c) =>
        let t := dropTrig s (.tested m c)
        if s.mode = mSELFTEST then enterMode t m c else t
      | none =>
        if s.critical && (s.active3 || s.mode = mSTOW) then enterMode s mSAFE 0x0C
        else if s.stowHeld && s.active3 then enterMode s mSTOW 0x09
        else if s.hub.trigs.contains .isolation && s.active3 then enterMode (dropTrig s .isolation) mSAFE 0x0D
        else
          let t := dropTrig s .isolation
          if t.hub.trigs.isEmpty then actParts t else actReqs t t.hub.trigs

def execModeChange (s : State) : Host.Outcome State Fault Refusal := answer s (modeChange s)

/-! ## The thermal level (R23, R24, R294 to R296) -/

/-- PW_THERM_STAT.STATE has come to CRITICAL: the trigger is decided here, so the actuation outputs are muzzled now, and HUB_MODE follows
at the next beat boundary (R23). -/
def thermMuzzle (s t : State) : State := t.when (!s.critical && t.critical && (t.active3 || t.mode = mSTOW)) muzzleActuation

def execTempSensorRead (temps : List (Option Int)) (s : State) : Host.Outcome State Fault Refusal :=
  answer s (thermMuzzle s (sensorRead s temps))

def execThermalModelUpdate (pIn pBridge : Nat) (s : State) : Host.Outcome State Fault Refusal :=
  answer s (thermMuzzle s (thermalModel s pIn pBridge))

/-! ## /STOW and isolation (R24, R25) -/

/-- STOW_INPUT: /STOW has now stood asserted for 10 ms. -/
def execStowInput (s : State) : Host.Outcome State Fault Refusal :=
  answer s (stowIgnored (if s.stowHeld then s else { s with hub := { s.hub with stowSince := some s.run } }))

/-- STOW_RELEASE: the level ends, and STOW_IGNORED may be raised again. -/
def execStowRelease (s : State) : Host.Outcome State Fault Refusal :=
  answer s { s with hub := { s.hub with stowSince := none, stowIgnored := false } }

/-- ISO_TIME as it acts, in CCLK; none when it is disabled. -/
def State.isoTime (s : State) : Option Nat :=
  let n := s.rd Reg.HUB_GUARD_ISO_TIME
  if n = 0 then none else some (max 100 n * cclkMs)

/-- ISOLATION_TIMEOUT: the hub has been isolated, in RUN, DEGRADED or COMMISSION, for ISO_TIME. Its outputs are muzzled. -/
def isolationTimeout (s : State) : State :=
  match s.hub.isoSince, s.isoTime with
  | some t0, some n =>
    if s.active3 && s.elapsed (max t0 s.hub.activeSince) n && !s.hub.trigs.contains .isolation then (muzzleActuation s).trigger .isolation else s
  | _, _ => s

def execIsolationTimeout (s : State) : Host.Outcome State Fault Refusal := answer s (isolationTimeout s)

end Sys2Proof.Machine
end

