-- ==== Sys2Proof/Machine/Kennel.lean ====
section
/-! DEFINITION. The kennel (R365, R368 to R379): images and their checks, banks, keys, identity, mirrors, the calibration store. -/

namespace Sys2Proof.Machine

/-! ## The layout of an image (R315, R368 to R372) -/

/-- A write list in the layout of R315; a last entry that is cut short is left out. -/
def parseWrites : Nat → List Nat → List CfgWr
  | 0, _ => []
  | fuel + 1, b =>
    if b.length < 8 then []
    else
      let n := leAt b 4 2
      let step := 8 + (n + 7) / 8 * 8
      if b.length < 8 + n then [] else { ofs := leAt b 0 4, data := (b.drop 8).take n } :: parseWrites fuel (b.drop step)

/-- Entries with a 16-byte head whose data length `len` reads from the head. -/
def parseEntries (len : List Nat → Nat) : Nat → List Nat → List (List Nat)
  | 0, _ => []
  | fuel + 1, b =>
    if b.length < 16 then []
    else
      let n := 16 + len (b.take 16)
      b.take n :: parseEntries len fuel (b.drop n)

/-- Data bytes of a CAL entry, and of a CURVES entry (R371). -/
def calLen (h : List Nat) : Nat := leAt h 10 2
def curveLen (h : List Nat) : Nat := 8 * curveWords (curveKind (leAt h 0 1)) (leAt h 2 2)

/-- KEYS in entries of 40 bytes. -/
def parseKeys : Nat → List Nat → List (List Nat)
  | 0, _ => []
  | fuel + 1, b => if b.isEmpty then [] else b.take 40 :: parseKeys fuel (b.drop 40)

/-- A section entry of the header: type, offset, length, CRC. -/
structure SectHead where
  type : Nat
  zero : Nat
  ofs : Nat
  len : Nat
  crc : Nat
  deriving DecidableEq, Repr

def sectHead (b : List Nat) (j : Nat) : SectHead :=
  let o := 32 + 16 * j
  { type := leAt b o 1, zero := leAt b (o + 1) 3, ofs := leAt b (o + 4) 4, len := leAt b (o + 8) 4, crc := leAt b (o + 12) 4 }

/-- The sections that NSECT says are present. -/
def sectHeads (b : List Nat) : List SectHead := (List.range (min 9 (leAt b 21 1))).map (sectHead b)

def sectData (b : List Nat) (q : SectHead) : List Nat := (b.drop q.ofs).take q.len

/-- The image that the bytes of a bank hold. -/
def parseImage (b : List Nat) : Image :=
  let ss : List Sect := (sectHeads b).map (fun q => { type := q.type, data := sectData b q })
  let sec (k : Nat) : List Nat := match ss.find? (fun q => q.type = k) with | none => [] | some q => q.data
  let c := sec 1
  { gen := leAt b 8 4, floor := leAt b 16 4, keySlot := leAt b 20 1, compat := leAt b 22 2,
    hubId := leAt c 0 1, lead := decide (leAt c 1 1 = 1), deputy := leAt c 2 1, startMode := leAt c 3 1, parts := leAt c 4 8,
    regs := parseWrites c.length (c.drop 64), curves := parseEntries curveLen (sec 3).length (sec 3),
    cal := parseEntries calLen (sec 2).length (sec 2), keys := parseKeys (sec 9).length (sec 9), sects := ss, proven := false }

/-! ## The checks of IMAGE_COMMIT (R374) -/

/-- Check 1: the write pointer is the committed length, and TOTAL_LEN equals both. -/
def lengthOk (b : List Nat) (wptr len : Nat) : Bool := wptr = len && leAt b 12 4 = len

/-- The rules of R369, and the zero bytes of R368. -/
def sectionsOk (b : List Nat) : Bool :=
  let n := leAt b 21 1
  let total := leAt b 12 4
  let l := sectHeads b
  let types := l.map (fun q => q.type)
  6 ≤ n && n ≤ 9 && types.all (fun k => 1 ≤ k && k ≤ 9) && types.eraseDups = types && [1, 4, 5, 6, 7, 8].all types.contains
    && l.all (fun q => q.zero = 0 && 256 ≤ q.ofs && q.ofs % 4 = 0 && q.ofs + q.len ≤ total)
    && (List.range (n - 1)).all (fun j => (sectHead b j).ofs + (sectHead b j).len ≤ (sectHead b (j + 1)).ofs && (sectHead b j).ofs < (sectHead b (j + 1)).ofs)
    && leNat ((b.drop (32 + 16 * n)).take (16 * (9 - n))) = 0

/-- Check 2: the header's fixed fields and CRC, the sections, and every SCRC. -/
def formOk (b : List Nat) : Bool :=
  leAt b 0 4 = 0x4C524E52 && leAt b 4 2 = 1 && leAt b 6 2 = 256 && 1 ≤ leAt b 8 4 && leAt b 12 4 % 4 = 0 && 4096 ≤ leAt b 12 4
    && leAt b 30 2 = 0 && leAt b 176 8 = 0 && leAt b 188 4 = 0 && leAt b 184 4 = crc32 (b.take 184)
    && sectionsOk b && (sectHeads b).all (fun q => q.crc = crc32 (sectData b q))

/-- The digest that SIG signs (R377). -/
def imageDigest (b : List Nat) : List Nat := Config.sha512 (b.take 192 ++ (sectHeads b).flatMap (sectData b))

def signedBy (b key : List Nat) : Bool := Config.ed25519 key (imageDigest b) ((b.drop 192).take 64)

/-- Fields of a KEYS entry (R372). -/
def keyAction (e : List Nat) : Nat := leAt e 0 1
def keySlotOf (e : List Nat) : Nat := leAt e 1 1
def keyBytes (e : List Nat) : List Nat := (e.drop 8).take 32

/-- Customer slot `k` is enrolled. -/
def State.enrolled (s : State) (k : Nat) : Bool := 1 ≤ k && k ≤ 3 && bit (s.rd Reg.KN_SEC_SLOTS) (k - 1)

/-- The reset button was pressed within the last 30 s (R378). -/
def State.pressed (s : State) : Bool :=
  match s.hub.pressAt with
  | none => false
  | some t => s.run ≤ t + 30 * cclkSec

/-- Check 3: a standing key for KEY_SLOT has signed the image; or, while no customer slot is enrolled, with the button pressed,
a key that its own KEYS section enrols in KEY_SLOT (R378). -/
def authOk (s : State) (b : List Nat) (i : Image) : Bool :=
  if i.keySlot = 0 then s.flag Reg.KN_SEC_FACTORY_EN && signedBy b Config.factoryKey
  else if s.enrolled i.keySlot then signedBy b (s.kn.keys.get [] i.keySlot)
  else
    s.rd Reg.KN_SEC_SLOTS = 0 && s.pressed && i.keySlot ≤ 3
      && i.keys.any (fun e => keyAction e = 1 && keySlotOf e = i.keySlot && signedBy b (keyBytes e))

/-- An entry of KEYS acts on the enrolled slots (bits 0 to 2) and the factory key (bit 3). -/
def keyEffect (w : Nat) (e : List Nat) : Nat :=
  let k := keySlotOf e - 1
  if keyAction e = 1 then setBits w k 1 1
  else if keyAction e = 2 then setBits w k 1 0
  else if keyAction e = 3 then setBits w 3 1 0
  else if keyAction e = 4 then setBits w 3 1 1
  else w

/-- The entries of KEYS are laid out as R372 says. -/
def keyForm (e : List Nat) : Bool :=
  e.length = 40 && 1 ≤ keyAction e && keyAction e ≤ 4 && (2 < keyAction e || (1 ≤ keySlotOf e && keySlotOf e ≤ 3))
    && leAt e 2 6 = 0 && (keyAction e = 1 || leNat (keyBytes e) = 0)

/-- KEYS keeps R372: the signing slot is not revoked, and a key remains. -/
def keysOk (s : State) (i : Image) : Bool :=
  let w := i.keys.foldl keyEffect (s.rd Reg.KN_SEC_SLOTS + 8 * s.rd Reg.KN_SEC_FACTORY_EN)
  i.keys.all keyForm && !i.keys.any (fun e => keyAction e = 2 && keySlotOf e = i.keySlot) && w % 16 ≠ 0

/-- Check 5. -/
def fitsHub (s : State) (i : Image) : Bool :=
  i.compat ≤ s.rd Reg.HUB_REV_CORE_HWREV && i.hubId = s.rd Reg.KN_IDENT_ID && 3 ≤ i.startMode && i.startMode ≤ 5

/-- The first check that fails, and its status (R374). -/
def commitCheck (s : State) (b : List Nat) (wptr len : Nat) : Option (Nat × Status) :=
  let i := parseImage b
  if !lengthOk b wptr len then some (1, .imageCrc)
  else if !formOk b then some (2, .imageCrc)
  else if !authOk s b i then some (3, .imageAuthFail)
  else if i.gen < s.rd Reg.KN_SEC_FLOOR || !keysOk s i then some (4, .imageAuthFail)
  else if !fitsHub s i then some (5, .badParam)
  else none

/-! ## Banks (R373 to R376) -/

def State.bankState (s : State) (b : Nat) : Nat := s.rd (bankSt b)

/-- A leash with GUARD 5 on a bank. -/
def State.bankLeash (s : State) (h : CmdHdr) (b : Nat) : Option Status := s.leashStatus (s.ownerOf h.via) [(5, b)]

/-- A bank holds nothing. -/
def emptyBank (s : State) (b : Nat) : State :=
  let t := (((s.wr (bankSt b) bEMPTY).clr (Reg.KN_BANK_INFO_GENERATION b)).clr (Reg.KN_BANK_INFO_WPTR b)).clr (Reg.KN_BANK_INFO_TOTAL_LEN b)
  let t := if t.prevBank = b then t.wr Reg.KN_BANK_STATE_PREVIOUS 3 else t
  { t with kn := { t.kn with data := t.kn.data.put [] b [], images := t.kn.images.put {} b {} } }

/-- IMAGE_WRITE would break R373. -/
def writeRefused (s : State) (b ofs len : Nat) : Bool :=
  (ofs ≠ 0 && ofs ≠ s.rd (Reg.KN_BANK_INFO_WPTR b)) || s.bankState b = bACTIVE || s.bankState b = bPENDING || 268435456 < ofs + len

/-- The data go into the bank, which reads WRITING; at offset 0 they come first, and whatever it held is gone. -/
def bankWrite (s : State) (b ofs : Nat) (data : List Nat) : State :=
  let old := if ofs = 0 then [] else s.kn.data.get [] b
  let t := (emptyBank s b).wr (bankSt b) bWRITING
  { (t.wr (Reg.KN_BANK_INFO_WPTR b) (ofs + data.length)) with kn := { t.kn with data := t.kn.data.put [] b (old ++ data) } }

/-- IMAGE_WRITE, with the bytes that its DMA reads at ADDR. -/
def imageWriteCmd (s : State) (h : CmdHdr) (addr ofs bank : Nat) (data : List Nat) : State :=
  let t := s.begin h
  let n := data.length
  if t.barred then t.refuse h .modeForbids
  else match t.bankLeash h bank with
    | some st => t.refuse h st
    | none =>
      if !(bank = 1 || bank = 2) || n < 4 || 1048576 < n || n % 4 ≠ 0 || !addrOk addr n || writeRefused t bank ofs n then t.refuse h .badParam
      else (bankWrite t bank ofs data).complete h .ok n

def execImageWrite (h : CmdHdr) (addr ofs bank : Nat) (data : List Nat) (s : State) : Host.Outcome State Fault Refusal :=
  answer s (imageWriteCmd s h addr ofs bank data)

/-- The bank passes every check: it reads COMMITTED and carries its generation. -/
def commitOk (s : State) (b : Nat) (i : Image) (len : Nat) : State :=
  let t := ((s.wr (bankSt b) bCOMMITTED).wr (Reg.KN_BANK_INFO_GENERATION b) i.gen).wr (Reg.KN_BANK_INFO_TOTAL_LEN b) len
  let t := if t.prevBank = b then t.wr Reg.KN_BANK_STATE_PREVIOUS 3 else t
  { t with kn := { t.kn with images := t.kn.images.put {} b i } }.bark 4 0x0401 false [i.gen]

/-- IMAGE_COMMIT at the end of its checks. A bank that is ACTIVE or PENDING is not committed (DESIGN CHOICE: as in R373). -/
def imageCommitCmd (s : State) (h : CmdHdr) (bank len : Nat) : State :=
  let t := s.begin h
  if t.barred then t.refuse h .modeForbids
  else match t.bankLeash h bank with
    | some st => t.refuse h st
    | none =>
      if !(bank = 1 || bank = 2) || t.bankState bank = bACTIVE || t.bankState bank = bPENDING then t.refuse h .badParam
      else
        let b := t.kn.data.get [] bank
        match commitCheck t b (t.rd (Reg.KN_BANK_INFO_WPTR bank)) len with
        | some (n, st) => completeFree ((emptyBank t bank).bark 4 0x0402 true [n]) h st
        | none => (commitOk t bank (parseImage b) len).complete h .ok (parseImage b).gen

def execImageCommit (h : CmdHdr) (bank len : Nat) (s : State) : Host.Outcome State Fault Refusal := answer s (imageCommitCmd s h bank len)

/-- Bank `b` is PENDING, in the place of any other; its completion goes out before the restart that WHEN 1 begins (R375). -/
def activateOp (s : State) (h : CmdHdr) (b when_ : Nat) : State :=
  let g := (s.kn.images.get {} b).gen
  let t := ((setBank (unpend s) b bPENDING).wr Reg.KN_BANK_STATE_NEXT b).complete h .ok g
  let t := t.bark 4 0x0403 false [b, g]
  if when_ = 1 then startBegin t 0x06 0x15 false false else t

/-- IMAGE_ACTIVATE. -/
def imageActivateCmd (s : State) (h : CmdHdr) (bank when_ : Nat) : State :=
  let t := s.begin h
  if t.barred then t.refuse h .modeForbids
  else match t.bankLeash h bank with
    | some st => t.refuse h st
    | none =>
      if 2 < bank || 1 < when_ || !(bank = 0 || t.bankState bank = bCOMMITTED || t.bankState bank = bPREVIOUS) then t.refuse h .badParam
      else activateOp t h bank when_

def execImageActivate (h : CmdHdr) (bank when_ : Nat) (s : State) : Host.Outcome State Fault Refusal := answer s (imageActivateCmd s h bank when_)

/-- ROLLBACK (R376): bank F and its generation 0 are exempt from FLOOR. -/
def rollbackCmd (s : State) (h : CmdHdr) (when_ : Nat) : State :=
  let t := s.begin h
  let b := t.prevBank
  if t.barred then t.refuse h .modeForbids
  else match t.bankLeash h b with
    | some st => t.refuse h st
    | none =>
      if 1 < when_ || b = 3 || (b ≠ 0 && (t.kn.images.get {} b).gen < t.rd Reg.KN_SEC_FLOOR) then t.refuse h .badParam
      else activateOp t h b when_

def execRollback (h : CmdHdr) (when_ : Nat) (s : State) : Host.Outcome State Fault Refusal := answer s (rollbackCmd s h when_)

/-! ## Proof (R372, R375) -/

/-- A KEYS entry takes effect. -/
def applyKey (s : State) (e : List Nat) : State :=
  let w := keyEffect (s.rd Reg.KN_SEC_SLOTS + 8 * s.rd Reg.KN_SEC_FACTORY_EN) e
  let t := (s.wr Reg.KN_SEC_SLOTS (w % 8)).wr Reg.KN_SEC_FACTORY_EN (w / 8)
  if keyAction e = 1 then { t with kn := { t.kn with keys := t.kn.keys.put [] (keySlotOf e) (keyBytes e) } }
  else if keyAction e = 2 then { t with kn := { t.kn with keys := t.kn.keys.put [] (keySlotOf e) [] } }
  else t

/-- IMAGE_PROVEN: ten minutes of supervisor run time out of SELFTEST. -/
def imageProven (s : State) : State :=
  if s.flag Reg.KN_BANK_STATE_TRIAL && s.hub.proofSince.isSome && 600 * cclkSec ≤ s.proofTime then
    let b := s.activeBank
    let i := s.image
    let t := s.clr Reg.KN_BANK_STATE_TRIAL
    let t := { t with kn := { t.kn with images := t.kn.images.put {} b { i with proven := true } }, hub := { t.hub with proofSince := none, proofDone := 0 } }
    let t := if i.keys.isEmpty then t else (i.keys.foldl applyKey t).bark 4 0x0405 true []
    let t := if t.rd Reg.KN_SEC_FLOOR < i.floor then (t.wr Reg.KN_SEC_FLOOR i.floor).bark 4 0x0406 false [i.floor] else t
    t.bark 1 0x0125 false [i.gen]
  else s

def execImageProven (s : State) : Host.Outcome State Fault Refusal := answer s (imageProven s)

/-! ## Identity, journal, checkpoints, counters (R365, R370, R379, R392) -/

/-- KN_IDENT.WRITE: it waits for its confirmation for 30 s. A NEW_ID above 63 is refused at once (DESIGN CHOICE). -/
def identWrite (s : State) : State :=
  if 63 < s.rd Reg.KN_IDENT_NEW_ID then s.set Reg.KN_IDENT_REFUSED
  else { s with kn := { s.kn with identBy := some (s.run + 30 * cclkSec) } }

def execKnIdentWrite (src : WrSrc) (s : State) : Host.Outcome State Fault Refusal := answer s (s.write src .KN_IDENT 0 0 false identWrite)

/-- IDENT_CONFIRM_EXPIRY: 30 s have passed without a press. -/
def identExpiry (s : State) : State :=
  match s.kn.identBy with
  | none => s
  | some e => if e < s.run then { s with kn := { s.kn with identBy := none } }.set Reg.KN_IDENT_REFUSED else s

def execIdentConfirmExpiry (s : State) : Host.Outcome State Fault Refusal := answer s (identExpiry s)

def execKnJournalDrop (src : WrSrc) (s : State) : Host.Outcome State Fault Refusal :=
  answer s (s.write src .KN_CTRL 0 0 false (fun t => { t with kn := { t.kn with journalDrop := true } }))

def execKnCheckpoint (src : WrSrc) (s : State) : Host.Outcome State Fault Refusal :=
  answer s (s.write src .KN_CTRL 0 0 false (fun t => checkpoints t false))

def knCnts : List Fld := [Reg.KN_CNT_ECC_CORR, Reg.KN_CNT_MIRROR_REPAIRS, Reg.KN_CNT_FAILED_STARTS, Reg.KN_CNT_STARTS]

def execKnCntClr (src : WrSrc) (clr : Nat) (s : State) : Host.Outcome State Fault Refusal :=
  answer s (s.write src .KN_CNT_CLR 0 0 false (fun t => t.clearCnts knCnts clr))

/-- KN_MIRROR_FAIL: `corrected` pages are put right by their ECC; `pages` pages of a mirror are rewritten from the other; and
where `fail` holds the mirror leaves service (0 A, 1 B). -/
def mirrorFail (s : State) (m corrected pages : Nat) (fail : Bool) : State :=
  let t := s.countN Reg.KN_CNT_ECC_CORR corrected
  let t := (List.range pages).foldl (fun u _ => (u.count Reg.KN_CNT_MIRROR_REPAIRS).bark 4 0x0407 true [m]) t
  if fail && !t.kn.mirrorsOut.contains m then
    ({ t with kn := { t.kn with mirrorsOut := t.kn.mirrorsOut ++ [m] } }.clr (if m = 0 then Reg.KN_STAT_MIRROR_A else Reg.KN_STAT_MIRROR_B)).bark 4 0x0408 true [m]
  else t

def execKnMirrorFail (m corrected pages : Nat) (fail : Bool) (s : State) : Host.Outcome State Fault Refusal :=
  guardItem (m < 2) (answer s (mirrorFail s m corrected pages fail))

/-! ## CURVES and CAL of an image (R371, R381, R382) -/

/-- A curve of the image becomes the active copy, where it is valid: at a start before anything samples, or at an adoption as by
ACTIVATE. -/
def imageCurve (s : State) (announce : Bool) (e : List Nat) : State :=
  let c := leAt e 0 1
  let l := (List.range (curveWords (curveKind c) (leAt e 2 2))).map (fun j => leAt e (16 + 8 * j) 8)
  if 32 ≤ c && c < 128 && curveReason c (leAt e 2 2) l = 0 then
    let t := takeCurve s c l
    if announce then (curveBreak t c).bark 1 0x0134 false [c] else t
  else s

def applyCurves (s : State) (i : Image) (announce : Bool) : State := i.curves.foldl (fun u e => imageCurve u announce e) s

/-- A reference value in volts, in 10^-9 of the factory value less that value. -/
def refOf (serial which w : Nat) : Int :=
  let f := Config.refFactory serial which
  match real64 w with
  | none => 0
  | some v => if f = 0 then 0 else rne ((v - f) * 1000000000 * f.sign) f.natAbs

/-- A CAL entry of the trial's generation acts on the card of its serial number, and goes to the calibration store. -/
def applyCal (s : State) (e : List Nat) : State :=
  let n := leAt e 0 8
  let c := leAt e 9 1
  if leAt e 8 1 = 1 then
    (List.range 2).foldl (fun u k =>
      let x := u.slot (16 + k)
      if x.card && x.serial = n && c < 16 then
        let t := { u with kn := { u.kn with cal := u.kn.cal.put [] (calTable n c) ((e.drop 16).take 128) } }
        t.wr (Reg.RDC_HARM_ACT_TABLE (16 * k + c)) (leNat ((e.drop 16).take 128))
      else u) s
  else if leAt e 8 1 = 2 then
    (List.range 16).foldl (fun u f =>
      let x := u.slot f
      if x.card && x.serial = n then
        let r := (refOf n 0 (leAt e 16 8), refOf n 1 (leAt e 24 8))
        let t := u.modCard f (fun k => { k with refs := r })
        { t with kn := { t.kn with cal := t.kn.cal.put [] (calRefs n) [unsigned 64 r.1, unsigned 64 r.2, (t.card f).refAt] } }
      else u) s
  else s

end Sys2Proof.Machine
end

