-- ==== Sys2Proof/Machine/RegWrite.lean ====
section
/-! DEFINITION. Writes of the register map (R12, R16, R412 to R419): what a write of whole words does to the registers it touches,
whether it comes directly from the host or by CFG_WRITE and CFG_BATCH; direct writes, and reads that act. -/

namespace Sys2Proof.Machine

/-! ## Words and elements -/

/-- The 32-bit words of an entry, by byte address. -/
def wordsFrom : Nat → Nat → List Nat → List (Nat × Nat)
  | 0, _, _ => []
  | n + 1, b, l => (b, leNat (l.take 4)) :: wordsFrom n (b + 4) (l.drop 4)

def entryWords (w : CfgWr) : List (Nat × Nat) := wordsFrom (w.data.length / 4) w.ofs w.data

/-- The register elements that words touch, in ascending order. -/
def elemsOf (ws : List (Nat × Nat)) : List Spot :=
  ((ws.filterMap (fun w => spotAt w.1)).map (fun q => { q with off := 0 })).eraseDups

/-- The words of an element, by their number in it. -/
def wordsIn (q : Spot) (ws : List (Nat × Nat)) : List (Nat × Nat) :=
  (ws.filter (fun w => q.base ≤ w.1 && w.1 < q.base + q.place.bytes)).map (fun w => ((w.1 - q.base) / 4, w.2))

def wordVal (ws : List (Nat × Nat)) (j : Nat) : Option Nat := (ws.find? (fun w => w.1 = j)).map (fun w => w.2)

/-- The word that holds a field's most significant bit. -/
def FieldDesc.top (d : FieldDesc) : Nat := (d.lsb + d.width - 1) / 32

def FieldDesc.soft (d : FieldDesc) : Bool := d.acc = .rw || d.acc = .rwh

/-- The holding copy of a word: the register itself where nothing is held (R414), which of RD_CURVE_DATA is the entry at ADDR (R148). -/
def State.heldWord (s : State) (q : Spot) (d : FieldDesc) (j : Nat) : Nat :=
  match s.hold.get 0 (8 * q.base + 32 * j) with
  | 0 => bits ((if q.place.id = .RD_CURVE_DATA then s.stgEntry else s.rd (q.fld d)) * 2 ^ d.lsb) (32 * j) 32
  | v + 1 => v

/-- The value that a field takes, when the word of its most significant bit is among those written (R414). -/
def newValue (s : State) (q : Spot) (ws : List (Nat × Nat)) (d : FieldDesc) : Option Nat :=
  match wordVal ws d.top with
  | none => none
  | some _ =>
    let lo := d.lsb / 32
    let v := ((List.range (d.top + 1 - lo)).map (fun n => (wordVal ws (lo + n)).getD (s.heldWord q d (lo + n)) * 2 ^ (32 * n))).sum
    some (v / 2 ^ (d.lsb - 32 * lo) % 2 ^ d.width)

/-- Software-owned fields that take a value. -/
def softWrites (s : State) (q : Spot) (ws : List (Nat × Nat)) : List (FieldDesc × Nat) :=
  q.fields.filterMap (fun d => if d.soft then (newValue s q ws d).map (fun v => (d, v)) else none)

/-- Lower words of fields that still wait for their uppermost word go into the holding copy; those of fields that have taken effect
leave it. -/
def holdWords (s : State) (q : Spot) (ws : List (Nat × Nat)) : State :=
  let waits (j : Nat) : Bool := q.fields.any (fun d => d.soft && d.lsb / 32 ≤ j && j < d.top && (wordVal ws d.top).isNone)
  let done (j : Nat) : Bool := q.fields.any (fun d => d.soft && d.lsb / 32 ≤ j && j < d.top && (wordVal ws d.top).isSome)
  let t := (List.range (q.place.bytes / 4)).foldl (fun u j => if done j then { u with hold := u.hold.put 0 (8 * q.base + 32 * j) 0 } else u) s
  ws.foldl (fun u w => if waits w.1 then { u with hold := u.hold.put 0 (8 * q.base + 32 * w.1) (w.2 + 1) } else u) t

def putFields (s : State) (q : Spot) (fs : List (FieldDesc × Nat)) : State := fs.foldl (fun u e => u.wr (q.fld e.1) e.2) s

/-- The new value of the field at `lsb`, if it has one; else the value it has. -/
def fieldOr (s : State) (q : Spot) (fs : List (FieldDesc × Nat)) (f : Fld) : Nat :=
  match fs.find? (fun e => (q.fld e.1).key = f.key) with
  | some e => e.2
  | none => s.rd f

/-! ## What a software-owned field does when it is written -/

/-- The state a meaning leaves. -/
def leaves (s : State) (o : Host.Outcome State Fault Refusal) : State :=
  match o with
  | .next t => t
  | _ => s

/-- Keys of the fields that change. -/
def changedKeys (s : State) (q : Spot) (fs : List (FieldDesc × Nat)) : List Nat :=
  (fs.filter (fun e => s.rd (q.fld e.1) ≠ e.2)).map (fun e => (q.fld e.1).key)

/-- Write fields that act at the edge `e`; `hook` tells the block at once when that is now. -/
def lagFields (s : State) (q : Spot) (fs : List (FieldDesc × Nat)) (e : Nat) (hook : State → List Nat → State) : State :=
  let ks := changedKeys s q fs
  let t := fs.foldl (fun u x => u.addLag s (q.fld x.1) e) (putFields s q fs)
  if e ≤ s.now then hook t ks else t

/-- The boundary at which a write of an axis card acts (R200, R230). -/
def axEdge (s : State) (src : WrSrc) : Nat := if src = .direct then beatNext s.now else beatCeil s.now

/-- Classes that a write masks while they are in use, or are the target of a slew, are lost (R35, R40). -/
def maskRefs (s t : State) : State :=
  (List.range 3).foldl (fun u k =>
    if bit (s.rd Reg.TB_REF_SEL_ENABLE) k && !bit (u.rd Reg.TB_REF_SEL_ENABLE) k then refLost u k else u) t

/-- EN = 0 pauses a rotation that stands between turns; EN = 1 lets it go on (R121). -/
def spareEnable (s : State) (f : Nat) : State :=
  if s.flag (Reg.FC_SPARE_CTRL_EN f) then (if s.spPhase f = spPAUSED then s.setPhase f spIDLE else s)
  else if s.spPhase f = spIDLE || s.spPhase f = spWAIT then (s.setPhase f spPAUSED).withdraw 1 (spCid f)
  else s

/-- TB_TOD_SET is accepted in ACQUIRE and FREE (R36). -/
def State.todOpen (s : State) : Bool := s.tbState = tbACQUIRE || s.tbState = tbFREE

/-- Write the fields `fs` of an element whose domain is on. -/
def storeOn (s : State) (src : WrSrc) (q : Spot) (fs : List (FieldDesc × Nat)) : State :=
  let k := q.k
  let i := q.i
  let plain := putFields s q fs
  if fs.isEmpty then s
  else match q.place.id with
  | .PW_DOMAIN_CTRL => domainCtrl s (fieldOr s q fs Reg.PW_DOMAIN_CTRL_REQ)
  | .DV_HEAT => heatWrite s i (fun o => fieldOr s q fs (Reg.DV_HEAT_DUTY i o))
  | .AO_CODE => aoCodeWrite s src i (fieldOr s q fs (Reg.AO_CODE_CODE i))
  | .AO_CFG =>
    let t := plain.modAo i (fun y => { y with leashHeld := false, live := y.live || s.mode = mCOMMISSION })
    if t.domOn 27 then loopRejudge t [] else t
  | .MT_SCAN_MASK => mtMaskWrite s (fieldOr s q fs Reg.MT_SCAN_MASK_MASK)
  | .MT_CH_CFG => mtAsk (showPeriod (mtCheckCfg plain i))
  | .BQ_CTRL => bqHostPop s src (fieldOr s q fs Reg.BQ_CTRL_HOST_POP)
  | .DV_UTAB_DATA => utabData s (fieldOr s q fs Reg.DV_UTAB_DATA_DATA)
  | .DV_AX_CFG => if plain.domOn 27 then loopRejudge plain [] else plain
  | .RD_CURVE_SEL => showCurve plain
  | .HP_CTRL => hpCtrlEn s (fieldOr s q fs Reg.HP_CTRL_EN) []
  | .LE_BANK_SEL => if src = .direct then bankSelDirect s (fieldOr s q fs Reg.LE_BANK_SEL_SEL) else plain
  | .TB_TOD_SET => if s.todOpen then plain else if src = .direct then s.discard q.base else s
  | .TB_REF_SEL => maskRefs s plain
  | .FC_SPARE_CTRL => spareEnable plain k
  | .OV_PORT_CFG => if plain.flag (Reg.OV_PORT_CFG_EN i) then plain else laneDown (laneDown plain (2 * i)) (2 * i + 1)
  | .RDC_CFG | .RDC_LOOP | .RDC_HARM_CFG => lagFields s q fs (axEdge s src) (fun t ks => rdcChanged t (16 * k + i) ks)
  | .PFI_CFG | .PFI_MIN_EDGE | .PFI_FUSE => lagFields s q fs (axEdge s src) (fun t ks => pfiChanged t (8 * k + i) ks)
  | .PFI_PB_CFG => lagFields s q fs (axEdge s src) (fun t _ => t)
  | .EE_CFG => lagFields s q fs (axEdge s src) (fun t ks => eeChanged t (8 * k + i) ks)
  | .LE_LOOP_CFG => loopRejudge (lagFields s q fs (s.loopEdge i) (fun t _ => t)) [i]
  | .LE_LOOP_BANK => loopRejudge plain [i / 2]
  | .LE_ARENA_CFG => loopRejudge (lagFields s q fs (s.arenaEdge i) (fun t _ => t)) []
  | .RD_CURVE_DATA => curveData s 2 (some (fieldOr s q fs Reg.RD_CURVE_DATA_DATA))
  | _ => plain

/-! ## W1C and W1S bits -/

/-- The bits of `v` that stand in the words written, at a field. -/
def writtenBits (ws : List (Nat × Nat)) (d : FieldDesc) : Nat :=
  match wordVal ws (d.lsb / 32) with
  | none => 0
  | some v => v / 2 ^ (d.lsb % 32) % 2 ^ d.width

/-- Clear the bits of a flag field that are written 1. -/
def clearFlag (s : State) (f : Fld) (v : Nat) : State :=
  s.wr f ((List.range f.width).foldl (fun n j => if bit v j then setBits n j 1 0 else n) (s.rd f))

def clearFlags (s : State) (q : Spot) (ws : List (Nat × Nat)) : State :=
  q.fields.foldl (fun u d => if d.acc = .w1c then clearFlag u (q.fld d) (writtenBits ws d) else u) s

/-- The command bit at `lsb` acts, with the value `v` of its field; a field of several clear bits gives them at their place. -/
def actBit (s : State) (src : WrSrc) (r : RegId) (k i lsb v : Nat) : State :=
  let clr := v * 2 ^ lsb
  match r, lsb with
  | .HUB_MODE_REQ, _ => leaves s (execHubModeReqGo src s)
  | .HUB_WR_STAT, _ => s.clr Reg.HUB_WR_STAT_DISCARDS
  | .TB_REF_SEL, _ => s.set Reg.TB_REF_SEL_STEP_ONCE
  | .TB_CNT_CLR, _ => leaves s (execTbCntClr src clr s)
  | .FC_APPLY, 0 => if src = .direct then leaves s (execFcApply src k s) else s
  | .FC_APPLY, _ => leaves s (execFcRevert src k s)
  | .FC_CNT_CLR, _ => leaves s (execFcCntClr src k clr s)
  | .FC_CH_CTRL, 0 => leaves s (execQreset src k i s)
  | .FC_CH_CTRL, _ => leaves s (execCarryClr src k i s)
  | .FC_SPARE_CTRL, 24 => leaves s (execSpareForce src k (s.rd (Reg.FC_SPARE_CTRL_FORCE_CH k)) s)
  | .FC_SPARE_CTRL, _ => leaves s (execSpareRestore src k (s.rd (Reg.FC_SPARE_CTRL_FORCE_CH k)) s)
  | .FC_SPARE_CNT_CLR, _ => leaves s (execFcSpareCntClr src k clr s)
  | .FC_REFCAL_CTRL, _ => leaves s (execRefcalStart src k s)
  | .MT_CNT_CLR, _ => leaves s (execMtCntClr src clr s)
  | .RD_CURVE_CTRL, 0 => leaves s (execRdCurveActivate src s)
  | .RD_CURVE_CTRL, 1 => leaves s (execRdCurveDelete src s)
  | .RD_CURVE_CTRL, _ => leaves s (execRdCurveRevert src s)
  | .RD_CNT_CLR, _ => leaves s (execRdCntClr src clr s)
  | .RDC_CTRL, 0 => (leaves s (execRdcReacq src (16 * k + i) (Config.recheck s.free) s)).fresh
  | .RDC_CTRL, 1 => leaves s (execRdcCntClr src (16 * k + i) s)
  | .RDC_CTRL, 2 => leaves s (execRdcLearn src (16 * k + i) s)
  | .RDC_CTRL, 3 => leaves s (execRdcAbort src (16 * k + i) s)
  | .RDC_CTRL, 4 => leaves s (execRdcHarmActivate src (16 * k + i) s)
  | .RDC_CTRL, _ => leaves s (execRdcHarmClear src (16 * k + i) s)
  | .PFI_CTRL, 0 => leaves s (execPfiIdxArm src (8 * k + i) s)
  | .PFI_CTRL, 1 => leaves s (execPfiSetCount src (8 * k + i) s)
  | .PFI_CTRL, 2 => leaves s (execPfiSetTurns src (8 * k + i) s)
  | .PFI_CTRL, 3 => leaves s (execPfiResume src (8 * k + i) s)
  | .PFI_CTRL, 4 => leaves s (execPfiReanchor src (8 * k + i) s)
  | .PFI_CTRL, _ => leaves s (execPfiCntClr src (8 * k + i) s)
  | .PFI_PB_CFG, 4 => leaves s (execPbArm src (4 * k + i) s)
  | .PFI_PB_CFG, _ => leaves s (execPbMissedClr src (4 * k + i) s)
  | .EE_CTRL, 0 => leaves s (execEeRestart src (8 * k + i) s)
  | .EE_CTRL, _ => leaves s (execEeCntClr src (8 * k + i) s)
  | .LE_CNT_CLR, _ => leaves s (execLeCntClr src clr s)
  | .LE_ARENA_CTRL, 0 => leaves s (execLeArenaArm src i s)
  | .LE_ARENA_CTRL, 1 => leaves s (execLeArenaDisarm src i s)
  | .LE_ARENA_CTRL, _ => leaves s (execLeArenaRestart src i s)
  | .LE_LOOP_CTRL, 0 => leaves s (execLeIClr src i s)
  | .LE_LOOP_CTRL, 1 => leaves s (execLeISet src i (s.rd (Reg.LE_LOOP_CTRL_I_VAL i)) s)
  | .LE_LOOP_CTRL, _ => leaves s (execLeLoopRestart src i s)
  | .DV_CNT_CLR, _ => leaves s (execDvCntClr src clr s)
  | .DV_UTAB_CTRL, 0 => leaves s (execDvUtabActivate src s)
  | .DV_UTAB_CTRL, _ => leaves s (execDvUtabRevert src s)
  | .DV_AX_CTRL, 0 => leaves s (execDvSetPos src i (s.rdS (Reg.DV_AX_CTRL_VALUE i)) s)
  | .DV_AX_CTRL, 1 => leaves s (execDvClrFault src i s)
  | .DV_AX_CTRL, 2 => leaves s (execDvMuzzle src i s)
  | .DV_AX_CTRL, _ => leaves s (execDvEnergise src i s)
  | .AO_CNT_CLR, _ => leaves s (execAoCntClr src clr s)
  | .PW_CNT_CLR, _ => leaves s (execPwCntClr src clr s)
  | .HP_CNT_CLR, _ => leaves s (execHpCntClr src clr s)
  | .BQ_CTRL, _ => leaves s (execBqFlush src s)
  | .BQ_CNT_CLR, _ => leaves s (execBqCntClr src clr s)
  | .LK_CTRL, _ => leaves s (execLkBreakWrite src (s.rd Reg.LK_CTRL_N) s)
  | .LK_CNT_CLR, _ => leaves s (execLkCntClr src clr s)
  | .OV_CNT_CLR, _ => leaves s (execOvCntClr src clr s)
  | .KN_IDENT, _ => leaves s (execKnIdentWrite src s)
  | .KN_CTRL, 0 => leaves s (execKnJournalDrop src s)
  | .KN_CTRL, _ => leaves s (execKnCheckpoint src s)
  | .KN_CNT_CLR, _ => leaves s (execKnCntClr src clr s)
  | .RS_CNT_CLR, _ => s.write src .RS_CNT_CLR 0 0 false (fun t => t.clearCnts [Reg.RS_CNT_ECC_CORR, Reg.RS_CNT_ECC_UNCORR] clr)
  | _, _ => s

def actBits (s : State) (src : WrSrc) (q : Spot) (ws : List (Nat × Nat)) : State :=
  q.fields.foldl (fun u d =>
    if d.acc = .w1s then (let v := writtenBits ws d; if v = 0 then u else actBit u src q.place.id q.k q.i d.lsb v) else u) s

/-! ## A write to one element (R415, R416, R419, R423) -/

/-- The set-up registers of R303, which take no write while EN = 1. -/
def setupReg : RegId → Bool
  | .HP_DB_BASE | .HP_STATUS_BASE | .HP_SBUF_TAB | .HP_CMD_RING | .HP_CPL_RING | .HP_EVT_RING | .HP_DB_POLL => true
  | _ => false

/-- A field takes writes into its stored copy while its domain is off (R419). -/
def storedFld (q : Spot) (d : FieldDesc) : Bool := d.soft && (storedReg q.place.id || stagedKey q.k (q.fld d).key)

/-- The card in whose standby store new firmware is being loaded, and whose changes are held (R381); the staged registers of a field
card lie in the core, and their commits wait by themselves. -/
def State.updating (s : State) (q : Spot) : Option Nat :=
  match regDomain q.place.id q.k q.i with
  | none => none
  | some d =>
    let p := domSlot d
    if p < 20 && (s.slot p).standby.isSome && s.domOn d && q.fields.any (fun x => x.soft && !stagedKey q.k (q.fld x).key)
        && q.place.id ≠ .FC_APPLY then some p else none

/-- Stored fields of an element whose domain is off (R419): the core keeps and judges the settings of the metrology scan itself (R128,
R132). -/
def storeOff (s : State) (q : Spot) (fs : List (FieldDesc × Nat)) : State :=
  if fs.isEmpty then s
  else match q.place.id with
  | .MT_CH_CFG => mtCheckCfg (putFields s q fs) q.i
  | .MT_SCAN_MASK => mtMaskWrite s (fieldOr s q fs Reg.MT_SCAN_MASK_MASK)
  | _ => putFields s q fs

/-- Words of an element as a list of writes. -/
def asWrites (q : Spot) (ws : List (Nat × Nat)) : List CfgWr := ws.map (fun w => { ofs := q.base + 4 * w.1, data := leBytes 4 w.2 })

/-- A write of the words `ws` of one element, as far as it is taken. -/
def applyElem (s : State) (src : WrSrc) (q : Spot) (ws : List (Nat × Nat)) : State :=
  let r := q.place.id
  if src = .direct && (!s.modeTakes r || (setupReg r && s.flag Reg.HP_CTRL_EN)) then s.discard q.base
  else match s.updating q with
  | some p => s.modSlot p (fun x => { x with held := x.held ++ asWrites q ws })
  | none =>
    let on := s.regOn r q.k q.i
    let opened := src = .cfg || s.leashOpen (s.resOf r q.k q.i)
    let soft := q.fields.any (fun d => d.soft && ws.any (fun w => d.lsb / 32 ≤ w.1 && w.1 ≤ d.top))
    let stores := on || q.fields.any (storedFld q)
    let fs := (softWrites s q ws).filter (fun e => on || storedFld q e.1)
    let t := if opened && stores then holdWords s q ws else s
    let t := if !opened then t else if on then storeOn t src q fs else storeOff t q fs
    let t := if on then actBits (clearFlags t q ws) src q ws else t
    if src = .direct && ((soft && !(opened && stores)) || (!on && !stores)) then t.discard q.base else t

/-- One entry of a write list, at one edge. -/
def applyEntry (s : State) (src : WrSrc) (w : CfgWr) : State :=
  (elemsOf (entryWords w)).foldl (fun u q => applyElem u src q (wordsIn q (entryWords w))) s

/-! ## The journal (R370) -/

/-- Bytes of the journal, an entry counted as in the layout of R315 (DESIGN CHOICE). -/
def journalBytes (l : List JEntry) : Nat := (l.map (fun e => (e.writes.map (fun w => 8 + (w.data.length + 7) / 8 * 8)).sum)).sum

/-- Words of a map of fields, outside AON and the HP_ block, as writes. -/
def mapWrites (m : Sparse Nat) : List CfgWr :=
  let words := (m.map (fun e => e.1 / 32 * 4)).eraseDups
  (words.filter (fun b => match spotAt b with
    | none => false
    | some q => (regDomain q.place.id q.k q.i).isSome && !q.place.id.isHp && q.fields.any (fun d => d.soft && d.lsb / 32 ≤ q.off / 4 && q.off / 4 ≤ d.top))).map
    (fun b => match spotAt b with
      | none => { ofs := b, data := [0, 0, 0, 0] }
      | some q => { ofs := b, data := leBytes 4 (((q.fields.filter (fun d => d.soft)).map (fun d => m.get d.rst (q.fld d).key * 2 ^ d.lsb)).sum / 2 ^ (8 * q.off) % 2 ^ 32) })

/-- The present configuration as one list of writes: the active configurations of the field cards, the registers, the user curves and
the user microstep tables. -/
def snapshot (s : State) : List CfgWr :=
  let w4 (b v : Nat) : CfgWr := { ofs := b, data := leBytes 4 v }
  let cards := (List.range 16).flatMap (fun f => if (s.active f).isEmpty then [] else mapWrites (s.active f) ++ [w4 (ofsOf .FC_APPLY f 0) 1])
  let curve (e : Nat × List Nat) : List CfgWr :=
    let k := curveKind e.1
    let n := if k = 3 then e.2.length / 2 else if k = 4 then e.2.length / 10 else 1
    if e.2.isEmpty then [] else
      [w4 (ofsOf .RD_CURVE_SEL 0 0) (setBits (setBits 0 (Reg.RD_CURVE_SEL_CURVE.key % 32) Reg.RD_CURVE_SEL_CURVE.width e.1)
          (Reg.RD_CURVE_SEL_N.key % 32) Reg.RD_CURVE_SEL_N.width n), w4 (ofsOf .RD_CURVE_ADDR 0 0) 0]
        ++ e.2.map (fun x => { ofs := ofsOf .RD_CURVE_DATA 0 0, data := leBytes 8 x }) ++ [w4 (ofsOf .RD_CURVE_CTRL 0 0) 1]
  let tables := (s.dv.utabAct.map (fun e => e.1 / 256)).eraseDups.flatMap (fun tab =>
    [w4 (ofsOf .DV_UTAB_SEL 0 0) tab, w4 (ofsOf .DV_UTAB_ADDR 0 0) 0]
      ++ (List.range 256).map (fun j => w4 (ofsOf .DV_UTAB_DATA 0 0) (s.dv.utabAct.get 0 (256 * tab + j))) ++ [w4 (ofsOf .DV_UTAB_CTRL 0 0) 1])
  cards ++ s.rd_.act.flatMap curve ++ tables ++ mapWrites s.regs

/-- A journal that its 16 MiB no longer hold becomes a single snapshot entry. -/
def compactJournal (s : State) : State :=
  if 16 * 2 ^ 20 < journalBytes s.kn.journal then
    { s with kn := { s.kn with journal := [{ writes := snapshot s, direct := true }] } }.bark 4 0x040A false []
  else s

/-- The journal takes the writes of an accepted command or direct write. -/
def journalTake (s : State) (ws : List CfgWr) (direct : Bool) : State := compactJournal (s.journal ws direct)

/-! ## Direct writes (R413, R415, R416) -/

/-- A write of the MSI-X table (R300). -/
def msixOwn (b : Nat) : Bool := msixTable ≤ b && b < msixTable + 16 * msixVectors

/-- One record of a discarded write, whatever parts of it were discarded. -/
def oneDiscard (s t : State) (ofs : Nat) : State :=
  let n := s.rd Reg.HUB_WR_STAT_DISCARDS
  if n < t.rd Reg.HUB_WR_STAT_DISCARDS then (t.wr Reg.HUB_WR_STAT_DISCARDS n).discard ofs else t

/-- REGISTER_WRITE: a direct write of `size` bytes at byte `ofs` of BAR0. -/
def registerWrite (s : State) (ofs size data : Nat) : State :=
  if s.mode = mDORMANT then s
  else if !((size = 4 || size = 8) && ofs % size = 0) then s.discard ofs
  else
    let w : CfgWr := { ofs := ofs, data := leBytes size data }
    if msixOwn ofs then
      if s.modeTakes .HP_CTRL && s.domOn 25 then (entryWords w).foldl (fun u x => msixWrite u ((x.1 - msixTable) / 4) x.2) s else s.discard ofs
    else
      let es := elemsOf (entryWords w)
      if es.isEmpty then s.discard ofs
      else
        let t := oneDiscard s (applyEntry s .direct w) ofs
        let t := { t with kn := { t.kn with journal := s.kn.journal } }
        let kept := es.any (fun q => (regDomain q.place.id q.k q.i).isSome && !q.place.id.isHp)
        if kept && t.rd Reg.HUB_WR_STAT_DISCARDS ≤ s.rd Reg.HUB_WR_STAT_DISCARDS then journalTake t [w] true else t

def execRegisterWrite (ofs size data : Nat) (s : State) : Host.Outcome State Fault Refusal :=
  guardItem (ofs < 0x100000) (answer s (registerWrite s ofs size data))

/-- DISC_CLR: the counter of discarded writes returns to 0. -/
def execDiscClr (src : WrSrc) (s : State) : Host.Outcome State Fault Refusal :=
  answer s (s.write src .HUB_WR_STAT 0 0 false (fun t => t.clr Reg.HUB_WR_STAT_DISCARDS))

/-! ## Reads that act (R148, R326, R413) -/

/-- What the read of the word at byte `b` does before its value is taken: a register that latches, pops or counts. -/
def readActs (s : State) (b : Nat) : State :=
  match spotAt b with
  | none => s
  | some q =>
    if !s.regOn q.place.id q.k q.i && q.place.id ≠ .MT_LAST then s
    else match q.place.id, q.off with
    | .TB_AT_SNAP, 0 => atSnap s
    | .RD_VIEW, 0 => viewLatch s
    | .RDC_LIVE, 0 => liveLatch s (16 * q.k + q.i)
    | .PFI_LIVE, 0 => pfiLatch s (8 * q.k + q.i)
    | .PFI_PB_LATCH, 0 => pbRead s (4 * q.k + q.i)
    | .MT_LAST, 0 => mtLatch s q.i
    | .RD_CURVE_DATA, 0 => curveData s 0 none
    | .BQ_POP, 0 => bqPopRead s
    | .DV_UTAB_DATA, 0 => s.wr Reg.DV_UTAB_DATA_DATA (s.dv.utabStg.get 0 (256 * s.utabSel + s.rd Reg.DV_UTAB_ADDR_ADDR))
    | _, _ => s

/-- What it does afterwards: an access that steps an address. -/
def readSteps (s : State) (b : Nat) : State :=
  match spotAt b with
  | none => s
  | some q =>
    if !s.regOn q.place.id q.k q.i then s
    else match q.place.id, q.off with
    | .RD_CURVE_DATA, 4 => stepAddr s
    | .DV_UTAB_DATA, 0 => s.wr Reg.DV_UTAB_ADDR_ADDR (s.rd Reg.DV_UTAB_ADDR_ADDR + 1)
    | _, _ => s

/-- Read `n` words from byte `b` on, in ascending order; each register that latches is latched once. -/
def readRun : Nat → Nat → State → State × List Nat
  | 0, _, s => (s, [])
  | n + 1, b, s =>
    let t := readActs s b
    let v := t.readWord b
    let q := readRun n (b + 4) (readSteps t b)
    (q.1, v :: q.2)

end Sys2Proof.Machine
end

