-- ==== Sys2Proof/Machine/CfgCmd.lean ====
section
/-! DEFINITION. NOP, CFG_WRITE, CFG_BATCH and CFG_READ (R58, R201, R246, R248, R280, R310 to R315, R326, R423): what they are checked
for at acceptance, and what they do at their instant. -/

namespace Sys2Proof.Machine

/-! ## Checks of a write list -/

/-- The word may be written by CFG_WRITE: an offset with a field for software, outside the HP_ block, and no LK_CTRL.BREAK (R311,
R330). -/
def wordFits (w : Nat × Nat) : Bool :=
  match spotAt w.1 with
  | none => false
  | some q =>
    !q.place.id.isHp && q.fields.any (fun d => d.acc ≠ .ro && d.acc ≠ .cnt && d.lsb / 32 ≤ q.off / 4 && q.off / 4 ≤ d.top)
      && !(q.place.id = .LK_CTRL && bit w.2 5)

/-- OFFSET and LEN of an entry, and every word of it (R313, R315). -/
def entryFits (w : CfgWr) : Bool :=
  let n := w.data.length
  w.ofs % 4 = 0 && 4 ≤ n && n ≤ 32 && n % 4 = 0 && w.ofs + n ≤ 0x100000 && (entryWords w).all wordFits

/-- The mode, or TB_STATE, forbids the word (R36, R326). -/
def wordForbidden (s : State) (w : Nat × Nat) : Bool :=
  match spotAt w.1 with
  | none => false
  | some q => (q.place.id = .TB_TOD_SET && !s.todOpen) || (q.place.id = .BQ_CTRL && bit w.2 0 && !s.popMode)

def listForbidden (s : State) (ws : List CfgWr) : Bool := (ws.flatMap entryWords).any (wordForbidden s)

/-- Command bits that no resource holds: those that only muzzle, and the clears of counters (R423). -/
def freeBit (r : RegId) (lsb : Nat) : Bool := (r = .DV_AX_CTRL && lsb = 2) || (r = .LE_ARENA_CTRL && lsb = 1)

/-- The guarded resources that a word changes (R423). -/
def wordRes (s : State) (w : Nat × Nat) : List Res :=
  match spotAt w.1 with
  | none => []
  | some q =>
    let j := q.off / 4
    if q.place.id = .LE_BANK_SEL then
      ((List.range 32).filter (fun b => bits w.2 b 1 ≠ bits (s.rd Reg.LE_BANK_SEL_SEL) (32 * j + b) 1)).map
        (fun b => (2, s.rd (Reg.LE_LOOP_CFG_ARENA (32 * j + b))))
    else if q.fields.any (fun d =>
        (d.soft && d.lsb / 32 ≤ j && j ≤ d.top) || (d.acc = .w1s && !freeBit q.place.id d.lsb && writtenBits [(j, w.2)] d ≠ 0))
      then s.resOf q.place.id q.k q.i
    else []

def listLeash (s : State) (h : CmdHdr) (ws : List CfgWr) : Option Status :=
  s.leashStatus (s.ownerOf h.via) ((ws.flatMap entryWords).flatMap (wordRes s))

/-! ## The configuration that will stand (R58) -/

/-- The software-owned fields of a list take their values, and nothing else happens. -/
def putList (s : State) (ws : List CfgWr) : State :=
  ws.foldl (fun u w => (elemsOf (entryWords w)).foldl (fun v q =>
    let l := wordsIn q (entryWords w)
    putFields (holdWords v q l) q (softWrites v q l)) u) s

/-- The configuration once every earlier pending command has applied. -/
def State.standing (s : State) (e : Nat) : State :=
  (schedOrder (s.tb.sched.filter (fun q => q.at_ ≤ e))).foldl (fun u q => match q.act with
    | .cfg _ ws _ => putList u ws
    | .bankSwap m v => bankSelect u m v
    | _ => u) s

/-- Elements of a register that a list touches, by card and element. -/
def touched (ws : List CfgWr) (rs : List RegId) : List (Nat × Nat) :=
  ((elemsOf (ws.flatMap entryWords)).filter (fun q => rs.contains q.place.id)).map (fun q => (q.k, q.i))

/-- Field cards whose staged configuration a list writes, or whose APPLY it sets. -/
def stagedCards (ws : List CfgWr) : List Nat :=
  (((ws.flatMap entryWords).filter (fun w => match spotAt w.1 with
    | none => false
    | some q => (q.place.id = .FC_APPLY && bit w.2 0) || q.fields.any (fun d => d.soft && stagedKey q.k (q.fld d).key && d.lsb / 32 ≤ q.off / 4))).filterMap
    (fun w => (spotAt w.1).map (fun q => q.k))).eraseDups

/-- An invalid setting counts against a list that writes it, or that makes it invalid. -/
def newlyBad (bad : (Fld → Nat) → Nat → Bool) (n : Nat) (was now : State) (mine : List Nat) : Bool :=
  (List.range n).any (fun x => bad now.rd x && (mine.contains x || !bad was.rd x))

/-- The list `ws` would leave an invalid setting: `was` is the configuration before it, `now` the one after it. -/
def leavesBad (was now : State) (ws : List CfgWr) : Bool :=
  let own (n : Nat) (rs : List RegId) : List Nat := (touched ws rs).map (fun e => n * e.1 + e.2)
  let banks := own 0 [.LE_LOOP_BANK]
  (stagedCards ws).any (fun f => (cfgFault (now.shadow f) (now.stageVariant f) f).isSome)
    || newlyBad rdcInvalidCfg 32 was now (own 16 [.RDC_CFG])
    || newlyBad pfiInvalidCfg 16 was now (own 8 [.PFI_CFG, .PFI_FUSE])
    || newlyBad eeInvalidCfg 16 was now (own 8 [.EE_CFG])
    || newlyBad (loopBad now) 64 was now (own 0 [.LE_LOOP_CFG] ++ banks.map (fun b => b / 2))
    || newlyBad (arenaBad now) 16 was now (own 0 [.LE_ARENA_CFG])
    || (was.runLike && banks.any (fun b => bits (was.rd Reg.LE_BANK_SEL_SEL) (b / 2) 1 = b % 2))
    || (own 0 [.DV_AX_CFG, .DV_LIM_LO, .DV_LIM_HI]).any now.axBad
    || (own 0 [.MT_CH_CFG]).any now.mtChBad
    || (ws.flatMap entryWords).any (fun w => match spotAt w.1 with
        | none => false
        | some q => q.place.id = .DV_AX_CTRL && q.off = 0 && bit w.2 0 && was.axState q.i = axMOVING)

/-- The list is refused for its parameters at acceptance: the number of the first entry that fails (R315). An invalid setting counts
against the first entry with which it stands. -/
def listFault (s : State) (e : Nat) (ws : List CfgWr) : Option Nat :=
  match (List.range ws.length).find? (fun j => match ws[j]? with | none => false | some w => !entryFits w) with
  | some j => some j
  | none =>
    let was := s.standing e
    if leavesBad was (putList was ws) ws then
      some (((List.range ws.length).find? (fun j => leavesBad was (putList was (ws.take (j + 1))) (ws.take (j + 1)))).getD (ws.length - 1))
    else none

/-! ## At the instant -/

/-- The writes of a list at one CCLK edge, as one change: staged configurations commit. -/
def applyList (s : State) (ws : List CfgWr) : State :=
  (stagedCards ws).foldl (fun u f => commitCard u f true) (ws.foldl (fun u w => applyEntry u .cfg w) s)

/-- Cards in whose update a list falls. -/
def heldBy (s : State) (ws : List CfgWr) : List Nat := ((elemsOf (ws.flatMap entryWords)).filterMap s.updating).eraseDups

/-- A CFG_WRITE or CFG_BATCH applies at its instant and completes, unless a card's update holds some of it (R381). A commit that fails
at its instant completes BAD_PARAM (R58). -/
def cfgFire (s : State) (h : CmdHdr) (ws : List CfgWr) (result : Nat) : State :=
  if listForbidden s ws then s.complete h .modeForbids
  else
    let bad := (stagedCards ws).any (fun f => (cfgFault ((putList s ws).shadow f) (s.stageVariant f) f).isSome)
    let t := applyList s ws
    match (heldBy s ws).getLast? with
    | some p => t.modSlot p (fun x => { x with heldCmds := x.heldCmds ++ [(h, result)] })
    | none => if bad then t.complete h .badParam else t.complete h .ok result

/-- The words of LE_BANK_SEL, and the rest, of a list that holds both (R246). -/
def isBank (b : Nat) : Bool := 0x70010 ≤ b && b < 0x70018
def splitBank (ws : List CfgWr) : List CfgWr :=
  ws.flatMap (fun w => if (entryWords w).any (fun x => isBank x.1) then
    ((entryWords w).filter (fun x => !isBank x.1)).map (fun x => ({ ofs := x.1, data := leBytes 4 x.2 } : CfgWr)) else [w])

/-- The request that the bank words of a list make, once their upper word is among them. -/
def bankRequest (s : State) (ws : List CfgWr) : Option Nat :=
  let l := (ws.flatMap entryWords).filter (fun x => isBank x.1)
  if l.any (fun x => x.1 = 0x70014) then
    some ((putList s (l.map (fun x => { ofs := x.1, data := leBytes 4 x.2 }))).rd Reg.LE_BANK_SEL_SEL) else none

/-- Enter the list in the scheduler; bank swaps beside other writes are an event of their own (R48, R246). -/
def cfgEnter (s : State) (h : CmdHdr) (e : Nat) (ws : List CfgWr) (result : Nat) : State :=
  match bankRequest s ws with
  | some v =>
    if bankOnly ws then schedEnter s e (.cfg h ws result) else schedEnter (schedEnter s e (.cfg h (splitBank ws) result)) e (.bankSwap (2 ^ 64 - 1) v)
  | none => schedEnter s e (.cfg h ws result)

/-- Entries of the scheduler that a list takes. -/
def cfgEntries (s : State) (ws : List CfgWr) : Nat := if (bankRequest s ws).isSome && !bankOnly ws then 2 else 1

/-- Accept a list, for now or for its instant. The journal takes it (R370). -/
def cfgAccept (s : State) (h : CmdHdr) (ws : List CfgWr) (result : Nat) : State :=
  if h.inst = .none then cfgFire (journalTake s ws false) h ws result
  else
    let e := instEdge s.now h.inst
    match schedJudge s e with
    | .late => cfgFire (schedLate (journalTake s ws false)) h ws result
    | .entered =>
      if 4096 < s.tb.sched.length + cfgEntries s ws then (s.bark 2 0x020D true []).refuse h .badParam
      else cfgEnter (journalTake s ws false) h e ws result
    | .refused => (s.bark 2 0x020A true []).refuse h .badParam
    | .full => (s.bark 2 0x020D true []).refuse h .badParam

/-- The RESULT of a list: entries applied of a CFG_BATCH (0x04), 0 of a CFG_WRITE. -/
def cfgResult (h : CmdHdr) (ws : List CfgWr) : Nat := if h.opcode = 4 then ws.length else 0

/-- Mode and leashes, then the parameters, in the order of R310; a failing entry of a batch is named. -/
def cfgCmd (s : State) (h : CmdHdr) (ws : List CfgWr) : State :=
  if s.barred || listForbidden s ws then s.complete h .modeForbids
  else match listLeash s h ws with
    | some st => s.complete h st
    | none => match listFault s (instEdge s.now h.inst) ws with
      | some j => s.complete h .badParam (if h.opcode = 4 then j else 0)
      | none => cfgAccept s h ws (cfgResult h ws)

/-! ## The commands -/

/-- NOP. -/
def nopCmd (s : State) (h : CmdHdr) : State :=
  let t := s.begin h
  atInstant t h (.nop h) (fun u => u.complete h .ok)

def execNop (h : CmdHdr) (s : State) : Host.Outcome State Fault Refusal := answer s (nopCmd s h)

/-- CFG_WRITE of the bytes `data` at `ofs`. -/
def execCfgWrite (h : CmdHdr) (ofs : Nat) (data : List Nat) (s : State) : Host.Outcome State Fault Refusal :=
  answer s (cfgCmd (s.begin h) h [{ ofs := ofs, data := data }])

/-- Entries of a CFG_BATCH list; an entry that is cut short, or whose bytes 6 and 7 are not 0, has no data and fails its check. -/
def parseBatch : Nat → List Nat → List CfgWr
  | 0, _ => []
  | fuel + 1, b =>
    if b.isEmpty then []
    else
      let n := leAt b 4 2
      let step := 8 + (n + 7) / 8 * 8
      let good := 8 ≤ b.length && step ≤ b.length && leAt b 6 2 = 0
      { ofs := leAt b 0 4, data := if good then (b.drop 8).take n else [] } :: parseBatch fuel (b.drop step)

/-- CFG_BATCH with the list that its DMA reads at `addr`. -/
def cfgBatch (s : State) (h : CmdHdr) (addr : Nat) (list : List Nat) : State :=
  let t := s.begin h
  let n := list.length
  if t.barred then t.complete h .modeForbids
  else if n < 8 || 65536 < n || !addrOk addr n then t.complete h .badParam
  else cfgCmd t h (parseBatch n list)

def execCfgBatch (h : CmdHdr) (addr : Nat) (list : List Nat) (s : State) : Host.Outcome State Fault Refusal :=
  answer s (cfgBatch s h addr list)

/-- CFG_READ at its edge: the words go to `addr`. -/
def cfgReadNow (s : State) (h : CmdHdr) (ofs len addr : Nat) : State :=
  let q := readRun (len / 4) ofs s
  (q.1.resultTo h addr (q.2.flatMap (leBytes 4))).complete h .ok len

/-- CFG_READ, which SELFTEST permits too (R311). -/
def cfgRead (s : State) (h : CmdHdr) (ofs len addr : Nat) : State :=
  let t := s.begin h
  if ofs % 4 ≠ 0 || len < 4 || 256 < len || len % 4 ≠ 0 || 0x100000 < ofs + len || !addrOk addr len then t.refuse h .badParam
  else atInstant t h (.cfgRead h ofs len addr) (fun u => cfgReadNow u h ofs len addr)

def execCfgRead (h : CmdHdr) (ofs len addr : Nat) (s : State) : Host.Outcome State Fault Refusal := answer s (cfgRead s h ofs len addr)

end Sys2Proof.Machine
end

