-- ==== Sys2Proof/Machine/Fetch.lean ====
section
/-! DEFINITION. CMD_FETCH (R307, R309, R310, R312, R353, R355) and PACK_STATUS (R317). -/

namespace Sys2Proof.Machine

/-! ## Descriptors (R307, R313) -/

/-- The parameter bytes that an opcode uses, as spans (first byte, length); none where there is no such opcode. -/
def paramSpans (op : Nat) : Option (List (Nat × Nat)) :=
  match op with
  | 0x01 => some []
  | 0x02 => some [(24, 6), (32, 32)]
  | 0x03 => some [(24, 6), (32, 8)]
  | 0x04 => some [(24, 12)]
  | 0x10 => some [(24, 9)]
  | 0x11 => some [(24, 2)]
  | 0x12 => some [(24, 3), (32, 16)]
  | 0x20 => some [(24, 2), (28, 6), (36, 8)]
  | 0x21 => some [(24, 3), (28, 2), (32, 16)]
  | 0x22 => some [(24, 4)]
  | 0x23 => some [(24, 4), (28, 14), (44, 4)]
  | 0x30 => some [(24, 1)]
  | 0x31 => some [(24, 3)]
  | 0x40 => some [(24, 17)]
  | 0x41 => some [(24, 1), (28, 4)]
  | 0x42 => some [(24, 2)]
  | 0x43 => some [(25, 1)]
  | 0x50 => some [(24, 4)]
  | 0x51 => some [(24, 1), (28, 4)]
  | 0x60 => some [(24, 1), (32, 8)]
  | 0x70 => some [(32, 8)]
  | _ => none

/-- Every parameter byte outside the spans is 0. -/
def unusedZero (desc : List Nat) (spans : List (Nat × Nat)) : Bool :=
  (List.range 40).all (fun j => spans.any (fun q => q.1 ≤ 24 + j && 24 + j < q.1 + q.2) || desc.getD (24 + j) 0 = 0)

/-- Opcodes for which an instant is permitted. -/
def instantOps : List Nat := [0x01, 0x02, 0x03, 0x04, 0x10, 0x11, 0x20, 0x21, 0x22, 0x23]

/-- WHEN, as its flags read it: BEAT names a beat, TIMED alone an AT96, and neither nothing. -/
def whenOf (desc : List Nat) : Inst :=
  let fl := desc.getD 1 0
  if bit fl 1 then .beat (leAt desc 8 8) else if bit fl 0 then .edge (edgeOf (at96Of (leAt desc 8 12))) else .none

/-- The framing of a descriptor is good: flags, target, reserved and unused bytes, and an instant only where one is permitted. BEAT
without TIMED names no instant, so its flags are not good (DEDUCED). -/
def framingOk (desc : List Nat) (spans : List (Nat × Nat)) : Bool :=
  let fl := desc.getD 1 0
  let tg := desc.getD 2 0
  let timed := bit fl 0
  let beat := bit fl 1
  fl < 8 && (timed || !beat) && (tg < 64 || tg = 255) && desc.getD 3 0 = 0 && unusedZero desc spans
    && (!timed || instantOps.contains (desc.getD 0 0))
    && (if beat then leAt desc 16 8 = 0 else if timed then leAt desc 20 4 = 0 else leAt desc 8 16 = 0)

/-- The header that the hub keeps of a descriptor. -/
def hdrOf (desc : List Nat) (index : Nat) : CmdHdr :=
  { tag := leAt desc 4 4, opcode := desc.getD 0 0, quiet := bit (desc.getD 1 0) 2, inst := whenOf desc, index := index, via := .ring }

/-! ## CMD_FETCH -/

/-- The hub fetches: rings active and polled, a descriptor waits, and fewer than 1,024 commands are in flight. -/
def State.fetches (s : State) : Bool :=
  s.ringsOn && s.flag Reg.HP_STAT_LINK_UP && s.flag Reg.HP_STAT_POLLING && s.inFlight < 1024 && s.hp.cmdPi ≠ s.hp.cmdCi

/-- What the rings of a hub that does not lead carry out (R353): the deputy's NOP, PACK_STATUS and CFG_READ, with TARGET 0xFF. -/
def State.ringTakes (s : State) (op target : Nat) : Bool :=
  !s.follows || (s.rd Reg.OV_STAT_ROLE = 2 && target = 255 && [0x01, 0x03, 0x70].contains op)

/-- Send the command to its hub; the data that it reads from host memory go with it (R312). A stream that a hub opens begins its SEQ
anew (R357). -/
def forward (s : State) (h : CmdHdr) (target : Nat) (desc data : List Nat) : State :=
  let t : State := { s with ov := { s.ov with forwards := s.ov.forwards ++ [{ hdr := h, target := target, accepted := false, lostAt := none }] } }
  let t := if h.opcode = 0x10 then { t with ov := { t.ov with written := t.ov.written.put 0 (target * 65536 + leAt data 0 2) 0 } } else t
  let t := t.send 8 target desc
  if data.isEmpty then t else t.send 13 target (h.tag :: data)

/-- A descriptor is fetched and validated in the order of R310: opcode, framing, target. A command for this hub is accepted, and its
own row carries it out; one for another hub is forwarded. -/
def cmdFetch (s : State) (desc data : List Nat) : State :=
  if !s.fetches then s
  else
    let h := hdrOf desc s.hp.cmdCi
    let target := desc.getD 2 0
    let t := { s with hp := { s.hp with cmdCi := (s.hp.cmdCi + 1) % 2 ^ 16, toAnnounce := true, inflight := s.hp.inflight ++ [({ hdr := h, begun := false } : Flight)] } }
    match paramSpans h.opcode with
    | none => t.refuse h .badOpcode
    | some spans =>
      if !framingOk desc spans then t.refuse h .badParam
      else if !t.ringTakes h.opcode target then t.refuse h .hubUnreachable
      else if target = 255 || target = t.me then t
      else if (t.peer target).reach then forward t h target desc data
      else t.refuse h .hubUnreachable

def execCmdFetch (desc data : List Nat) (s : State) : Host.Outcome State Fault Refusal :=
  guardItem (desc.length = 64) (answer s (cmdFetch s desc data))

/-! ## PACK_STATUS -/

/-- Bytes 3 to 35 of this hub's entry. -/
def ownEntry (s : State) : List Nat :=
  [s.mode, s.rd Reg.TB_STATE_STATE, s.rd Reg.TB_STATE_REF, s.rd Reg.OV_STAT_HOPS, 0] ++ (List.range 32).foldr (fun p l =>
    if p % 4 = 0 then (s.rd (partFld p) + 4 * s.rd (partFld (p + 1)) + 16 * s.rd (partFld (p + 2)) + 64 * s.rd (partFld (p + 3))) :: l else l) []
    ++ atBytes s.now ++ leBytes 4 (s.rd Reg.BQ_LOST_LOST) ++ leBytes 4 s.image.gen

/-- Byte 1 of an entry: 0 absent, 1 reachable, 2 known but unreachable. -/
def State.presence (s : State) (n : Nat) : Nat :=
  if n = s.me then 1 else if !(s.peer n).known then 0 else if (s.peer n).reach then 1 else 2

/-- The 64 bytes of a hub's entry. -/
def packEntry (s : State) (n : Nat) : List Nat :=
  let v := s.presence n
  if v = 0 then [n, 0] ++ List.replicate 62 0
  else
    let e := if n = s.me then ownEntry s else (s.peer n).entry
    let role := if n = s.me then s.rd Reg.OV_STAT_ROLE else (s.peer n).role
    [n, v, role] ++ (e ++ List.replicate (33 - e.length) 0) ++ List.replicate 28 0

/-- PACK_STATUS: the block goes to `addr`, and the result counts the hubs that are not absent. SELFTEST permits it. -/
def packStatus (s : State) (h : CmdHdr) (addr : Nat) : State :=
  let t := s.begin h
  if !addrOk addr 4096 then t.refuse h .badParam
  else (t.resultTo h addr ((List.range 64).flatMap (packEntry t))).complete h .ok ((List.range 64).filter (fun n => t.presence n ≠ 0)).length

def execPackStatus (h : CmdHdr) (addr : Nat) (s : State) : Host.Outcome State Fault Refusal := answer s (packStatus s h addr)

end Sys2Proof.Machine
end

