-- ==== Sys2Proof/Machine/Retention.lean ====
section
/-! DEFINITION. Faults of the retention store (R388) and its counters (R392). -/

namespace Sys2Proof.Machine

/-- A corrected error: counted, and barked at most once per second. -/
def rsCorr (s : State) : State :=
  if s.retains then (s.count Reg.RS_CNT_ECC_CORR).barkEvery cclkSec 0 7 0x0701 false [] else s

def execRsEccCorr (s : State) : Host.Outcome State Fault Refusal := answer s (rsCorr s)

/-- An uncorrectable error in the record of stream `i` that begins at `seq`: a gap run replaces it, in the store and where it still
waits, and its slots are counted in LOST. -/
def rsUncorr (s : State) (i seq : Nat) : State :=
  if !s.retains then s
  else
    match (Sparse.get [] i s.rd_.store).find? (fun r => r.seq = seq) with
    | none => s
    | some r =>
      let g := gapRun s r r.n
      let t := { s with rd_ := { s.rd_ with store := s.rd_.store.put [] i ((Sparse.get ([] : List RecOut) i s.rd_.store).map (fun (k : RecOut) => if k.seq = seq then g else k)) } }
      let t := t.modBuf r.buf (fun b => { b with queue := b.queue.map (fun (k : RecOut) => if sameRec i seq k then { g with late := k.late } else k) })
      let t := { t with ov := { t.ov with unconf := t.ov.unconf.map (fun (k : Unconf) => if sameRec i seq k.rcd then { k with rcd := { g with late := k.rcd.late } } else k) } }
      (((t.countN (Reg.RD_STREAM_STAT_LOST i) r.n).count Reg.RD_CNT_GAP_RUNS).count Reg.RS_CNT_ECC_UNCORR).bark 7 0x0702 true [i, seq]

def execRsEccUncorr (i seq : Nat) (s : State) : Host.Outcome State Fault Refusal :=
  guardItem (i < 1024) (answer s (rsUncorr s i seq))

/-- The store fails: what waits in it is lost, and RS reads OUT. -/
def rsFail (s : State) : State := if s.retains then (storeLost (s.bark 7 0x0703 true [])).setPart 29 pOUT else s

def execRsDeviceFail (s : State) : Host.Outcome State Fault Refusal := answer s (rsFail s)

/-- RS_CNT_CLR. -/
def execRsCntClr (src : WrSrc) (clr : Nat) (s : State) : Host.Outcome State Fault Refusal :=
  answer s (s.write src .RS_CNT_CLR 0 0 false (fun t =>
    (t.clearCnts [Reg.RS_CNT_ECC_CORR, Reg.RS_CNT_ECC_UNCORR] clr).journalW src .RS_CNT_CLR 0 0 clr))

end Sys2Proof.Machine
end

