-- ==== Sys2Proof/Machine/Update.lean ====
section
/-! DEFINITION. CARD_UPDATE_SWITCH (R381) and the adoption of a pending image (R382). -/

namespace Sys2Proof.Machine

/-- The core pipeline microcode that an image holds (R369). -/
def Image.microcode (i : Image) : List Nat := (fwParts (i.sect 4)).2

/-- Every processor and function card in service runs the image's firmware (R382). -/
def State.runsFirmware (s : State) (i : Image) : Bool :=
  (List.range 20 ++ [28, 29]).all (fun p => !s.inService (partEntry p) || (s.slot p).fw = i.fwOf p)

/-- The conditions of R382 for the pending bank `b`. -/
def State.adoptable (s : State) (b : Nat) : Bool :=
  let i := Sparse.get ({} : Image) b s.kn.images
  s.runsFirmware i && i.microcode = s.hub.microcode && i.sect 1 = s.image.sect 1 && s.rd Reg.KN_SEC_FLOOR ≤ i.gen

/-- The pending image is adopted without a start, where its conditions hold: it becomes active, its curves activate and its CAL
entries act; the journal goes on under its generation. -/
def adopt (s : State) : State :=
  match s.pendingBank with
  | none => s
  | some b =>
    if !s.adoptable b then s
    else
      let t := activateBank s b
      let i := t.image
      let t := { t with kn := { t.kn with journalGen := i.gen },
                        hub := { t.hub with proofSince := if t.flag Reg.KN_BANK_STATE_TRIAL && t.sampling then some t.run else none } }
      i.cal.foldl applyCal ((applyCurves t i true).bark 4 0x0404 false [i.gen])

/-- The card of slot `p` switches to its new firmware at a beat boundary: the changes that were held apply in order, their
commands and the UPDATE complete, and a pending image may be adopted. A field card first finishes its running spare turn. -/
def updateSwitch (s : State) (p : Nat) : State :=
  let x := s.slot p
  match x.standby with
  | none => s
  | some w =>
    if p < 16 && s.turning p then s
    else
      let t := s.modSlot p (fun y => { y with fw := w, standby := none, held := [], heldCmds := [], serviceCmd := none })
      let t := x.held.foldl (fun u e => applyEntry u .cfg e) t
      let t := x.heldCmds.foldl (fun u q => u.complete q.1 .ok q.2) t
      adopt (t.completeO x.serviceCmd .ok pIN)

def execCardUpdateSwitch (p : Nat) (s : State) : Host.Outcome State Fault Refusal :=
  guardItem (p < 20 || p = 28 || p = 29) (answer s (updateSwitch s p))

end Sys2Proof.Machine
end

