-- ==== Sys2Proof/Machine/Start.lean ====
section
/-! DEFINITION. The steps of a start and the end of SELFTEST (R24, R361 to R365, R370, R421). -/

namespace Sys2Proof.Machine

/-! ## Steps 2 to 6 of R361 -/

/-- The start is a warm one (HUB_START_CAUSE.KIND). -/
def State.warm (s : State) : Bool := s.flag Reg.HUB_START_CAUSE_KIND

/-- A domain comes on at its step, granted ahead of every request (R288). -/
def powerDom (s : State) (d : Nat) : State := if s.domOn d then s else domainUp (s.grantNow 1 1 d (standing d)) d

/-- Step 2: the chassis identity, with a blank one as ID 63 (R379); the kennel's mirrors and bank F. -/
def stepIdentity (s : State) : State :=
  let n := s.rd Reg.KN_IDENT_ID
  let t := ((s.wr Reg.HUB_ID_ID (if n = 255 then 63 else n)).wrB Reg.HUB_ID_BLANK (decide (n = 255))).wr (bankSt 0) bFACTORY
  (t.wrB Reg.KN_STAT_MIRROR_A (!t.kn.mirrorsOut.contains 0)).wrB Reg.KN_STAT_MIRROR_B (!t.kn.mirrorsOut.contains 1)

/-- SIG of an image verifies at a start, under the factory key of the ROM for slot 0, under the key of its slot, or, before its own KEYS are
applied at proof, under the key that they enrol in its slot (R377, R378). -/
def State.sigOk (s : State) (b : List Nat) (i : Image) : Bool :=
  if i.keySlot = 0 then signedBy b Config.factoryKey
  else if s.enrolled i.keySlot then signedBy b (s.kn.keys.get [] i.keySlot)
  else !i.proven && i.keys.any (fun e => keyAction e = 1 && keySlotOf e = i.keySlot && signedBy b (keyBytes e))

/-- The image of the bank that boots passes step 2: its structure, every SCRC, SIG and FLOOR (R377). Bank F, which no write reaches, is
sound, and exempt from FLOOR (R376). -/
def State.bootSound (s : State) : Bool :=
  let d := s.kn.data.get [] s.activeBank
  s.activeBank = 0 || (formOk d && s.rd Reg.KN_SEC_FLOOR ≤ s.image.gen && s.sigOk d s.image)

/-- Step 3: a warm start keeps time in LOCKED, SWITCHING and HOLDOVER within its limit; another start is in ACQUIRE, where a class
that is qualified already is stepped to once TOD_VALID is 1 (R40). -/
def stepTimeKeep (s : State) : State :=
  let k := s.tbState
  if s.warm && (k = tbLOCKED || k = tbSWITCHING || (k = tbHOLDOVER && s.rd Reg.TB_HOLD_EST_EST ≤ max 1 (s.rd Reg.TB_HOLD_LIMIT))) then
    s.set Reg.HUB_START_CAUSE_TIME_KEPT
  else
    let t := (((s.wr Reg.TB_STATE_STATE tbACQUIRE).wr Reg.TB_STATE_REF clsLOCAL).clr Reg.TB_STATE_LOCKOUT).clr Reg.TB_HOLD_EST_EST
    { t with tb := { t.tb with stepTo := if t.todValid then t.best else none, trainSince := none } }

/-- Step 4: the core and both processors restart, with their firmware; what PD27 held of the field cards' waiting commits is lost. `bad`
are the entries of parts that do not come up. -/
def stepCore (s : State) (bad : List Nat) : State :=
  let i := s.image
  let t := domainDown (domainDown (domainDown s 29) 28) 27
  let t := (List.range 16).foldl (fun u f => u.modCard f (fun k => { k with due := [], deferred := [], reverted := false })) t
  let t := (List.range 30).foldl (fun u p => u.modSlot p (fun x => { x with standby := none, held := [], heldCmds := [], serviceCmd := none })) t
  let t := { t with hub := { t.hub with microcode := i.microcode }, rd_ := { t.rd_ with latest := [] } }
  let t := [28, 29].foldl (fun u p => u.modSlot p (fun x => { x with fw := i.fwOf p, entering := false })) t
  let t := powerDom (powerDom (powerDom t 27) 28) 29
  let t := [26, 27].foldl (fun u p => if bad.contains p && u.listed p then u.setPart p pOUT else u) t
  let first := if s.warm then t.activeMp else 0
  abandon (t.wr Reg.HUB_MODE_ACTIVE_MP (if t.inService (26 + first) then first else 1 - first)) none

/-- Step 5: the outside paths. -/
def stepPaths (s : State) (bad : List Nat) : State :=
  let t := [25, 21, 22, 23, 24].foldl powerDom s
  if bad.contains 28 then (domainDown t 25).when (t.listed 28) (fun u => u.setPart 28 pOUT) else t

/-- Step 6: the retention store, kept in a warm start that finds PD26 on, else cleared. -/
def stepStore (s : State) (bad : List Nat) : State :=
  let kept := s.warm && s.domOn 26 && !bad.contains 29
  let t := if s.domOn 26 then (s.when (s.listed 29) (fun u => u.setPart 29 pIN)) else powerDom s 26
  let t := t.wrB Reg.HUB_START_CAUSE_RETENTION_KEPT kept
  let t := if kept then t else storeLost t
  if bad.contains 29 && t.listed 29 then t.setPart 29 pOUT else t

/-! ## Step 7: configuration (R370) -/

/-- A field that software owns, outside AON and outside the HP_ block. -/
def coreOwned (key : Nat) : Bool :=
  match spotAt (key / 8) with
  | none => false
  | some q => (regDomain q.place.id q.k q.i).isSome && !q.place.id.isHp && q.fields.any (fun d => d.soft && (q.fld d).key = key)

/-- The registers before the list: those the journal answers for stand at their reset values; a stage is as fitted in the last card that
was in service. -/
def startRegs (s : State) : State :=
  let t := { s with regs := s.regs.filter (fun e => !coreOwned e.1), hold := [], fc := { s.fc with act := [] } }
  (List.range 16).foldl (fun u f =>
    let v := u.rd (Reg.FC_CARD_STAT_LAST_VARIANT f)
    (List.range 32).foldl (fun w c =>
      let x := Reg.FC_CH_CFG_STAGE f c
      let w := w.wr x (fittedStage v c)
      { w with fc := { w.fc with act := w.fc.act.put x.rst x.key (fittedStage v c) } }) u) t

/-- Registers whose writes are requests rather than configuration: the list and the journal do not repeat them. -/
def requestReg : RegId → Bool
  | .PW_DOMAIN_CTRL | .TB_TOD_SET | .BQ_CTRL | .HUB_MODE_REQ | .DV_UTAB_DATA => true
  | _ => false

/-- The window through which user curves are written. -/
def curvePort : RegId → Bool
  | .RD_CURVE_SEL | .RD_CURVE_ADDR | .RD_CURVE_DATA | .RD_CURVE_CTRL => true
  | _ => false

/-- A card's shadow becomes active, or its commit is rejected. -/
def commitNow (s : State) (f : Nat) : State :=
  match cfgFault (s.shadow f) (s.stageVariant f) f with
  | some q => cfgReject s f q
  | none => s.setActive f (s.shadow f)

/-- The command bits of FC_APPLY in a direct write. -/
def applyBits (s : State) (q : Spot) (ws : List (Nat × Nat)) : State :=
  match q.place.id, wordVal ws 0 with
  | .FC_APPLY, some v =>
    let t := if bit v 0 then commitNow s q.k else s
    if bit v 1 then { t with regs := overlay (t.active q.k) (t.regs.filter (fun e => !stagedKey q.k e.1)) } else t
  | _, _ => s

/-- One element of an entry of the list or the journal: software-owned fields take their values, the window of the curves acts,
and a direct FC_APPLY commits or reverts. Other command bits do not act again. -/
def replayElem (s : State) (direct : Bool) (q : Spot) (ws : List (Nat × Nat)) : State :=
  if requestReg q.place.id then s
  else if curvePort q.place.id then applyElem s .cfg q ws
  else
    let t := putFields (holdWords s q ws) q (softWrites s q ws)
    if direct then applyBits t q ws else t

/-- One entry; one made by command commits the staged registers it writes. -/
def replayEntry (s : State) (e : JEntry) : State :=
  let t := e.writes.foldl (fun u w => (elemsOf (entryWords w)).foldl (fun v q => replayElem v e.direct q (wordsIn q (entryWords w))) u) s
  if e.direct then t else (stagedCards e.writes).foldl commitNow t

/-- Fields whose value differs between two stores. -/
def changedFlds (a b : Sparse Nat) : List Nat := ((a.filter (fun e => !b.contains e)) ++ (b.filter (fun e => !a.contains e))).map (fun e => e.1)

/-- Give the fields of `u` to `s`, each register as one write where its domain is on. -/
def takeConfig (s u : State) : State :=
  let qs := ((changedFlds s.regs u.regs).filterMap (fun k => (spotAt (k / 8)).map (fun q => { q with off := 0 }))).eraseDups
  qs.foldl (fun t q =>
    let fs := (q.fields.filter (fun d => d.soft && s.rd (q.fld d) ≠ u.rd (q.fld d))).map (fun d => (d, u.rd (q.fld d)))
    let r := q.place.id
    if !t.regOn r q.k q.i || r = .AO_CODE || r = .DV_HEAT || r = .RD_CURVE_DATA then putFields t q fs else storeOn t .cfg q fs) s

/-- Step 7: the register list, the journal of this generation, CURVES, and CAL on a trial start, at one edge. -/
def stepConfig (s : State) : State :=
  let i := s.image
  let keep := s.kn.journalGen = i.gen && !s.kn.journalDrop
  let j := if keep then s.kn.journal else []
  let s := { s with kn := { s.kn with journal := j, journalGen := i.gen, journalDrop := false } }
  let u := ({ writes := i.regs, direct := false } :: j).foldl replayEntry (startRegs s)
  let t := takeConfig s u
  let t := { t with hold := [], fc := { t.fc with act := u.fc.act }, rd_ := { t.rd_ with stg := u.rd_.stg, act := u.rd_.act, prev := u.rd_.prev, actAt := u.rd_.actAt } }
  let t := (List.range 16).foldl (fun w f =>
    if u.flag (Reg.FC_CARD_STAT_CFG_REJECT f) && !s.flag (Reg.FC_CARD_STAT_CFG_REJECT f) then
      cfgReject w f (u.rd (Reg.FC_CFG_STAT_ITEM_KIND f), u.rd (Reg.FC_CFG_STAT_ITEM f), u.rd (Reg.FC_CFG_STAT_REASON f))
    else w) t
  let t := showCurve (applyCurves t i false)
  let t := if s.flag Reg.HUB_START_CAUSE_TRIAL then i.cal.foldl applyCal t else t
  loopRejudge t (List.range 64)

/-! ## Step 8: function cards -/

/-- A listed card that is off asks for its domain in the FOREGROUND class (R20, R288), is loaded, and waits for its self-test; one that
does not come up reads OUT. Cards that stayed powered keep running. A card the image leaves out is held off (R14), and so is one in a
slot that CARD_SERVICE took out, or one seated in BOOT or SELFTEST, whose turn comes at the mode that follows (R420). -/
def stepCard (bad : List Nat) (s : State) (p : Nat) : State :=
  match partDom p with
  | none => s
  | some d =>
    let x := s.slot p
    let ask (u : State) (d : Nat) : State := if u.domOn d then u else requestDomain u d none
    if !(x.card && s.listed p) || x.takenOut || x.late then holdOff s p
    else if s.domOn d then (if p = 18 then ask s 19 else s)
    else if bad.contains p then (s.modSlot p (fun y => { y with entering := false })).setPart p pOUT
    else
      let t := s.modSlot p (fun y => { y with entering := true, linkLost := none, selfMuzzled := false, fw := s.image.fwOf p })
      let t := ask t d
      if p = 18 then ask t 19 else t

/-- A card's domain waits for its grant. -/
def State.cardWaits (s : State) : Bool := s.pw.waits.any (fun r => r.book = 1 && r.cid ≤ 20)

/-- Step 8: the cards ask, and the governor, which evaluates at every beat boundary, serves them. -/
def stepCards (s : State) (bad : List Nat) : State := governor ((List.range 20).foldl (stepCard bad) s)

/-! ## Step 9: streams (R365) -/

/-- The largest number of ticks that a clock without beats can yield in 1 s: one instant per loop update of a generator (R54), the
conversions of the channel as it is set (R126), the samples of a window's source, or the tables that 120 turn/s close. -/
def maxTicks (s : State) (d : SDef) : Nat :=
  if d.clock = 1 then 1024000
  else if d.clock = 2 then
    let t := mtTime (s.rd (Reg.MT_CH_CFG_MODE d.index)) (s.rd (Reg.MT_CH_CFG_CONV d.index)) (s.rd (Reg.MT_CH_CFG_SETTLE d.index))
    (64000 + (t - 1)) / t
  else if d.reduce = 2 then
    let n := max 1 (d.rb % 65536)
    2 ^ d.redArg * ((120 + (n - 1)) / n)
  else if d.clock = 3 then 1024000 else (64000 + (2 ^ d.clockArg - 1)) / 2 ^ d.clockArg

/-- The state in which R142 is judged: a listed part that has no entry yet stands OUT. -/
def judgeParts (s : State) : State :=
  (List.range 32).foldl (fun u p => if u.listed p then (if u.rd (partFld p) = pNONE then u.wr (partFld p) pOUT else u) else u.wr (partFld p) pNONE) s

/-- A stream goes on from its checkpoint: with what was retained or FINAL at its SEQ; else behind one gap run of what was not
confirmed, and for a clock without beats of the ticks it may have had in 1 s. After a cold start it waits for TOD_VALID. -/
def resumeStream (s : State) (i : Nat) (c : Ckpt) : State :=
  let d := parseDef c.defn
  if !openOk (judgeParts s) d then
    ({ s with kn := { s.kn with ckpts := s.kn.ckpts.put none i none } }).bark 1 0x0126 true [i]
  else
    let safe := c.final || s.flag Reg.HUB_START_CAUSE_RETENTION_KEPT
    let steady := beatClocked d && d.reduce < 2
    let jump := if safe || steady then 0 else maxTicks s d
    let lost := if safe then 0 else c.seq - c.confirmed + jump
    let x : Stream := { defn := d, raw := c.defn, buf := c.buf, openAt := c.at_, next := c.at_, seq := c.seq + jump, brk := true, conf := c.confirmed,
                        phase := s.phaseOf d, waitTod := !s.warm && !s.todValid, began := decide (0 < c.seq) }
    let t := s.setStream i (some x)
    let t := { t with rd_ := { t.rd_ with lastDef := t.rd_.lastDef.put [] i c.defn } }
    let t := t.modBuf c.buf (fun b => { b with users := b.users + 1 })
    let t := showStream t i false
    if lost = 0 then t
    else
      let e := c.at_ - (if steady then (c.seq - c.confirmed) * x.period else 0)
      let u := ((t.countN (Reg.RD_STREAM_STAT_LOST i) lost).count Reg.RD_CNT_GAP_RUNS).bark 1 0x0132 true [i, c.confirmed, lost]
      if u.retains then deliver u (runRecord u d c.buf i c.confirmed lost false false false false e) else u

/-- Step 9. Replays ended with the core. -/
def stepStreams (s : State) : State :=
  let t := { s with rd_ := { s.rd_ with streams := [] },
                    hp := { s.hp with replays := [], bufs := s.hp.bufs.mapD {} (fun _ b => { b with users := 0, queue := b.queue.filter (fun r => !r.replay) }) } }
  showLoad (s.kn.ckpts.foldl (fun u e => match e.2 with | none => u | some c => resumeStream u e.1 c) t)

/-! ## START_STEPS_COMPLETE -/

/-- Step 10, and the pack role that the image gives; a chassis with a blank identity follows, and never sends READY (R379). -/
def stepEnd (s : State) : State :=
  let i := s.image
  let blank := s.rd Reg.KN_IDENT_ID = 255
  let t := { s with ov := { s.ov with lead := i.lead && !blank, deputyId := i.deputy },
                    hub := { s.hub with starting := false } }
  let t := if blank then t else linkReadyOn t
  (t.bark 1 0x0121 false [(t.run - t.hub.startAt) / cclkMs]).trigger .steps

/-- A start is on its way in BOOT, and no later trigger stands before it. -/
def State.inSteps (s : State) : Bool :=
  s.hub.aon && s.hub.starting && !s.hub.retry && s.mode = mBOOT && s.hub.trigs.all (fun q => match q with | .boot _ | .steps => false | _ => true)

/-- Steps 9 and 10 follow once no card waits for its grant, which has no limit during a start (R288, R289). -/
def stepsDone (s : State) : State :=
  if s.cardWaits then { s with hub := { s.hub with cardsWait := true } }
  else stepEnd (stepStreams { s with hub := { s.hub with cardsWait := false } })

/-- START_STEPS_COMPLETE stands for steps 2 to 10: `bad` are the entries of HUB_PART_STATE of the parts that do not come up. An image that
does not verify fails the start at step 2, the loss of both processors at step 4 (R361). Where a card waits for its grant the start stays in step 8,
and the row taken again after the grant ends it. -/
def startSteps (s : State) (bad : List Nat) : State :=
  if !s.inSteps then s
  else if s.hub.cardsWait then stepsDone s
  else
    let t := stepIdentity s
    if !t.bootSound then startFail t 2
    else if bad.contains 26 && bad.contains 27 then startFail t 4
    else stepsDone (stepCards (stepConfig (stepStore (stepPaths (stepCore (stepTimeKeep t) bad) bad) bad)) bad)

def execStartStepsComplete (bad : List Nat) (s : State) : Host.Outcome State Fault Refusal := answer s (startSteps s bad)

/-! ## SELFTEST_DONE (R24, R26, R30, R421) -/

/-- The local channels of an axis card that fail the check of R199. -/
def localBad (conv : List Nat) (p : Nat) : List Nat := (conv.filter (fun c => c / 16 + 16 = p)).map (fun c => c % 16)

/-- A card's own test fails: it was found bad, or every enabled channel of an axis card fails R199. -/
def State.testFails (s : State) (bad conv : List Nat) (p : Nat) : Bool :=
  bad.contains p || (16 ≤ p && p < 18 && axisFails s (p - 16) (localBad conv p))

/-- The cards that SELFTEST tests: those powered at step 8, or at a request every card in service (R26). -/
def State.tested (s : State) : List Nat :=
  (List.range 20).filter (fun p => if s.hub.testReturn.isSome then s.inService p else (s.slot p).entering && !(s.slot p).late && (s.slot p).card && (match partDom p with | none => false | some d => s.domOn d))

/-- A card's test ends: it enters service or reads OUT; channels that fail R199 are faulty. -/
def testCard (bad conv : List Nat) (s : State) (p : Nat) : State :=
  let l := localBad conv p
  if s.testFails bad conv p then (s.modSlot p (fun y => { y with entering := false })).setPart p pOUT
  else if s.inService p then
    l.foldl (fun u i => if u.rd (Reg.RDC_CFG_EN (16 * (p - 16) + i)) = 1 then rdcConv u (16 * (p - 16) + i) else u) s
  else enterService s p l

/-- Every other entry of HUB_PART_STATE (R30). A fan tray that the image leaves out is held off, and one that it newly lists begins
its test (R14). -/
def setEntries (bad : List Nat) (s : State) : State :=
  let t := (List.range 20).foldl (fun u p =>
    if u.inService p || (u.slot p).entering then u
    else if (u.slot p).card then u.setPart p (if u.listed p then pOUT else pNONE) else u.setPart p (u.emptyCode p)) s
  let t := [20, 21].foldl (fun u p =>
    if !(u.slot p).card then u.setPart p (u.emptyCode p)
    else if !u.listed p then u.setPart p pNONE
    else u.setPart p (if u.feedState (p - 20) = 2 && !u.feedLost (p - 20) && !(u.slot p).takenOut then pIN else pOUT)) t
  let t := (List.range 4).foldl (fun u v =>
    if !(u.slot (24 + v)).card then u.setPart (22 + v) (u.emptyCode (24 + v))
    else if !u.listed (22 + v) then ((fanStop u v).wr (Reg.PW_FAN_STATE v) fanABSENT).setPart (22 + v) pNONE
    else if u.fanState v = fanABSENT then (if u.fanOut v then u.setPart (22 + v) pOUT else fanTestOp u v)
    else u.setPart (22 + v) (if u.fanState v ≤ fanSLOW && !(u.slot (24 + v)).takenOut then pIN else pOUT)) t
  let own (u : State) (p d : Nat) : State :=
    if !u.listed p then u.setPart p pNONE else if bad.contains p || !u.domOn d then u.setPart p pOUT else u
  sideParts (own (own (own (own t 26 28) 27 29) 28 25) 29 26)

/-- The status set of R21 stands: its domains are on and their parts in service, a port group's part being its side. -/
def State.statusSet (s : State) : Bool :=
  s.domOn 27 && ((s.domOn 28 && s.inService 26) || (s.domOn 29 && s.inService 27))
    && ((s.domOn 25 && s.inService 28) || [21, 22, 23, 24].any (fun d => s.domOn d && s.inService (30 + (d - 21) / 2)))

/-- The mode that follows tests that pass: the one a request left, or the start mode; RUN becomes DEGRADED while a part is lost, and
bank F starts in SAFE. -/
def State.nextMode (s : State) : Nat :=
  match s.hub.testReturn with
  | some m => m
  | none =>
    let m := if s.activeBank = 0 then mSAFE else s.image.startMode
    if m = mRUN && s.anyPartLost then mDEGRADED else m

/-- Cards that stayed powered with other firmware queue an UPDATE (step 8). -/
def queueUpdates (s : State) : State :=
  (List.range 20).foldl (fun u p =>
    if u.inService p && (u.slot p).fw ≠ u.image.fwOf p && (u.slot p).standby.isNone then
      u.modSlot p (fun y => { y with standby := some (u.image.fwOf p) })
    else u) s

/-- SELFTEST_DONE: the last self-test has ended, not before the 100 ms of the core's. `core` is the core's own result, `bad` the
entries of the parts that fail, `conv` the resolver channels that fail R199, `caps` the charge stages, 32 f + c, that fail R112. -/
def selftestDone (s : State) (core : Bool) (bad conv caps : List Nat) : State :=
  if s.mode = mSELFTEST && !s.hub.retry && s.elapsed s.hub.modeAt (100 * cclkMs)
      && s.hub.trigs.all (fun q => match q with | .tested _ _ | .boot _ => false | _ => true) then
    let ps := s.tested
    let failed := ps.any (s.testFails bad conv) || [26, 27, 28, 29].any (fun p => bad.contains p && s.inService p)
    let t := setEntries bad (ps.foldl (testCard bad conv) s)
    let t := (ps.filter (fun p => p < 16)).foldl (fun u f => capMarks u f ((List.range 32).filter (fun c => caps.contains (32 * f + c)))) t
    let next := t.nextMode
    let clear (u : State) : State := { u with hub := { u.hub with testReturn := none } }
    if !core || !t.statusSet then
      let u := startFail (clear t) (Config.testFailStep t.free)
      u.fresh.trigger (.boot 0x06)
    else if failed then (clear t).trigger (.tested mSAFE 0x06)
    else (clear (if t.hub.testReturn.isNone then queueUpdates t else t)).trigger (.tested next 0x05)
  else s

def execSelftestDone (core : Bool) (bad conv caps : List Nat) (s : State) : Host.Outcome State Fault Refusal :=
  answer s (selftestDone s core bad conv caps)

end Sys2Proof.Machine
end

