-- ==== Sys2Proof/Machine/Fire.lean ====
section
/-! DEFINITION. What the time-domain scheduler does when an event fires (R48, R55). -/

namespace Sys2Proof.Machine

/-- The action of an event, at its edge `e`. -/
def fireAct (s : State) (e : Nat) : Act → State
  | .nop h => s.complete h .ok
  | .cfg h ws n => cfgFire s h ws n
  | .cfgRead h ofs len addr => cfgReadNow s h ofs len addr
  | .bankSwap m v => bankSelect s m v
  | .window l o => windowEdge s l o
  | .capture i => captureEvent s i e
  | .angleSlot _ gen => angleTick s gen e false
  | .moveStart h a kind value vmax acc dec => queueStart s a (mkMove h kind value vmax acc dec)
  | .groupStart h mask kind vmax acc dec targets => queueGroup s h mask kind vmax acc dec targets
  | .homeStart h a source n dir vel dist homePos stream thresh =>
    queueStart s a (mkHome h source n dir vel dist homePos stream thresh)
  | .stop h group a mask => stopNow s h (b2n group) a mask
  | .streamClose i => finishClose s i
  | .streamOpen i => if (s.stream i).isSome then showStream s i false else s

/-- Fire an event at its edge. -/
def fire (s : State) (q : Sched) : State := fireAct s q.at_ q.act

end Sys2Proof.Machine
end

