-- ==== Sys2Proof/Machine/Timebase.lean ====
section
/-! DEFINITION. Steps of AT (R43), TB_TOD_SET (R36), and the scheduler's firing (R48, R55). -/

namespace Sys2Proof.Machine

/-! ## Steps of AT (R43) -/

/-- An instant that a step of AT to `e` skips comes at `e`, as a late event; one that has passed keeps its distance. -/
def skipEdge (now e x : Nat) : Nat := if now < x then max x e else shiftEdge now e x

/-- A stream takes the grid in force after the step: the ticks of the old one wait, and its record breaks. -/
def Stream.stepAt (x : Stream) (now e : Nat) : Stream :=
  let mv := shiftEdge now e
  let y := if x.openAt ≤ now then x.leaveGrid now else x
  let o := skipEdge now e x.openAt
  { y with
    openAt := o, next := if beatClocked x.defn then y.gridFrom (max o e) else y.next,
    due := y.due.map (fun t => { t with place := mv t.place }), closeAt := y.closeAt.map (fun q => (skipEdge now e q.1, q.2)),
    breaks := (y.breaks.filter (fun b => b < now)).map mv ++ [e], rcd := y.rcd.map (fun r => { r with place := mv r.place }),
    blk := y.blk.map (fun b => { b with place := mv b.place }), hist := y.hist.map (fun q => (mv q.1, q.2)),
    win := y.win.map (fun w => (w.1.map (fun q => (mv q.1, q.2)), w.2)), trigs := y.trigs.map mv, lastValid := y.lastValid.map (fun q => (mv q.1, q.2)),
    angles := y.angles.map (fun q => (mv q.1, q.2)), tabCloses := y.tabCloses.map (fun q => (mv q.1, q.2)) }

/-- The latest slots, the earlier copies of the curves, and the running conversion, whose time is counted in beats, the one that the
step ends among them. -/
def shiftStore (s : State) (e : Nat) : State :=
  let mv := shiftEdge s.now e
  let step (r : MtRun) : MtRun := { r with start := e - (s.now - r.start + (cclkBeat - 1)) / cclkBeat * cclkBeat, was := (e, r.start) :: r.was }
  { s with
    rd_ := { s.rd_ with
      latest := Sparse.mapD {} (fun _ l => { l with at_ := mv l.at_, seen := Sparse.mapD 0 (fun _ x => mv x) l.seen }) s.rd_.latest,
      prev := Sparse.mapD [] (fun _ l => l.map (fun q => (skipEdge s.now e q.1, q.2))) s.rd_.prev,
      actAt := Sparse.mapD 0 (fun _ x => skipEdge s.now e x) s.rd_.actAt },
    mt := { s.mt with run := s.mt.run.map step, checkAt := s.mt.checkAt.map mv } }

/-- Streams, pending changes and inputs after a step of AT to `e`: what has passed keeps its distance. -/
def moveEdges (s : State) (e : Nat) : State :=
  let mv := shiftEdge s.now e
  let t := s.openStreams.foldl (fun u i => u.modStream i (fun x => if x.waitTod then x else x.stepAt s.now e)) (shiftStore s e)
  let t := (List.range 16).foldl (fun u i => u.modPfi i (fun k => { k with
    settle := mv k.settle, setFrom := mv k.setFrom, qLog := k.qLog.map (fun q => (mv q.1, q.2)), ixWait := k.ixWait.map (fun q => (mv q.1, q.2)), at_ := mv k.at_, atPrev := mv k.atPrev })) t
  let t := (List.range 32).foldl (fun u c => u.modRdc c (fun k => { k with cur := { k.cur with at_ := mv k.cur.at_ }, prev := { k.prev with at_ := mv k.prev.at_ } })) t
  let t := (List.range 64).foldl (fun u l => u.modLoop l (fun y => { y with spGood := y.spGood.map mv, fbGood := y.fbGood.map mv, eAt := mv y.eAt })) t
  { t with lag := t.lag.map (fun q => (q.1, q.2.1, mv q.2.2)), ax := { t.ax with acts := t.ax.acts.map (fun q => (q.1, mv q.2)) },
           tb := { t.tb with ptpSync := 0, ptpDelay := 0, ptpWhole := false, gens := Sparse.mapD {} (fun _ g => { g with tk := mv g.tk }) t.tb.gens,
                             steps := ((e, (e : Int) - s.now) :: t.tb.steps.map (fun q => (mv q.1, q.2))).take 64 } }

/-- AT changes to the edge `e`. Every stream closes its record before, and every event that the step skips fires at once as a
late event. Converter samples around the step carry SETTLING. -/
def stepTime (s : State) (e : Nat) : State :=
  let t := moveEdges (rdcStep (settleAll s e) e) e
  let ns := (((e : Int) - (s.now : Int)) * 15625) / 3840
  let skipped := schedOrder (t.tb.sched.filter (fun q => s.now ≤ q.at_ && q.at_ < e))
  let t := { t with now := e, tb := { t.tb with sched := t.tb.sched.filter (fun q => !(s.now ≤ q.at_ && q.at_ < e)) } }
  let t := fieldTick (t.openStreams.foldl streamSettle t)
  let t := t.bark 2 0x0208 true [unsigned 32 ns, unsigned 32 (ns / 4294967296)]
  skipped.foldl (fun u q => fire (schedLate u) q) t

/-- TIME_STEP: the step to the reference that a class asked for, at its second boundary (R40, R43). -/
def timeStep (s : State) (sec : Nat) : State :=
  match s.tb.stepTo with
  | none => s
  | some k =>
    let t := stepTime s (sec * cclkSec)
    let t := ((t.wr Reg.TB_STATE_STATE tbLOCKED).wr Reg.TB_STATE_REF k).clr Reg.TB_HOLD_EST_EST
    let t := if s.tbState = tbACQUIRE then t else t.clr Reg.TB_REF_SEL_STEP_ONCE
    { t with tb := { t.tb with stepTo := none, linkPull := decide (k = clsLINK), trainSince := if k ≤ 1 then some t.run else none } }

def execTimeStep (sec : Nat) (s : State) : Host.Outcome State Fault Refusal := answer s (timeStep s sec)

/-- TB_TOD_SET at the AT second boundary (R36). -/
def todSet (s : State) : State :=
  if !s.flag Reg.TB_TOD_SET_ARM then s
  else
    let t := s.clr Reg.TB_TOD_SET_ARM
    if s.tbState = tbACQUIRE || s.tbState = tbFREE then
      let t := t.set Reg.TB_STATE_TOD_VALID
      let sec := s.rd Reg.TB_TOD_SET_SECONDS
      if sec = s.now / cclkSec then t else stepTime t (sec * cclkSec + s.now % cclkSec)
    else t

def execTbTodSet (s : State) : Host.Outcome State Fault Refusal := answer s (todSet s)

/-! ## The scheduler -/

/-- SCHED_FIRE (R48): the first event that is due fires. An event that no command of the spec enters, a window edge or a capture in either
domain (R88, R154, R156), fires as the row brings it (DESIGN CHOICE). -/
def schedFire (s : State) : Option SchedEv → State
  | some (.window w opening) => windowEdge s w opening
  | some (.capture i) => captureEvent s i s.now
  | none =>
    match schedOrder (s.tb.sched.filter (fun q => q.at_ ≤ s.now)) with
    | [] => s
    | q :: _ => fire { s with tb := { s.tb with sched := s.tb.sched.filter (fun r => r.seq ≠ q.seq) } } q

def execSchedFire (ev : Option SchedEv) (s : State) : Host.Outcome State Fault Refusal := answer s (schedFire s ev)

/-- An angle instant of another hub (R51, R55): scheduled, or a gap slot when it has passed. One that finds all 4,096 entries in use
raises SCHED_FULL and yields a gap slot too (DESIGN CHOICE: R49 speaks of commands alone). -/
def angleInstant (s : State) (hub gen : Nat) (e : Nat) : State :=
  let s := if s.tb.remoteGens.contains gen then s else { s with tb := { s.tb with remoteGens := s.tb.remoteGens ++ [gen] } }
  if e < s.now then
    (angleGap (s.count Reg.TB_CNT_ANG_LATE_REMOTE) hub gen e).barkEvery cclkSec (64 * hub + gen) 2 0x020C true [hub, gen]
  else if 4096 ≤ s.tb.sched.length then angleGap (s.bark 2 0x020D true []) hub gen e
  else schedEnter s e (.angleSlot hub gen)

def execAngleInstant (hub gen : Nat) (e : Nat) (s : State) : Host.Outcome State Fault Refusal :=
  guardItem (hub < 64 && gen < 64) (answer s (angleInstant s hub gen e))

end Sys2Proof.Machine
end

