-- ==== Sys2Proof/Machine/Dispatch.lean ====
section
/-! DEFINITION. One arm per command: the direct call of its meaning. -/

namespace Sys2Proof.Machine

def exec (i : Instr) (s : State) : Host.Outcome State Fault Refusal :=
  match i with
  | .aonPowerUp held => Sys2Proof.Machine.execAonPowerUp held s
  | .resetButtonRelease => Sys2Proof.Machine.execResetButtonRelease s
  | .resetButtonHold => Sys2Proof.Machine.execResetButtonHold s
  | .factoryBoot => Sys2Proof.Machine.execFactoryBoot s
  | .watchdog => Sys2Proof.Machine.execWatchdog s
  | .feedStateChange f v => Sys2Proof.Machine.execFeedStateChange f v s
  | .pwFeedLost f => Sys2Proof.Machine.execPwFeedLost f s
  | .pwFeedRestored f => Sys2Proof.Machine.execPwFeedRestored f s
  | .lowFeeds => Sys2Proof.Machine.execLowFeeds s
  | .feedRestoredWake => Sys2Proof.Machine.execFeedRestoredWake s
  | .hubWakeAt => Sys2Proof.Machine.execHubWakeAt s
  | .startStepsComplete bad => Sys2Proof.Machine.execStartStepsComplete bad s
  | .startFailed step => Sys2Proof.Machine.execStartFailed step s
  | .startRetry => Sys2Proof.Machine.execStartRetry s
  | .selftestDone core bad conv caps => Sys2Proof.Machine.execSelftestDone core bad conv caps s
  | .cardSelftestDone p pass bad => Sys2Proof.Machine.execCardSelftestDone p pass bad s
  | .imageProven => Sys2Proof.Machine.execImageProven s
  | .streamCheckpoint => Sys2Proof.Machine.execStreamCheckpoint s
  | .modeChange => Sys2Proof.Machine.execModeChange s
  | .modeSet h target => Sys2Proof.Machine.execModeSet h target s
  | .hubModeReqGo src => Sys2Proof.Machine.execHubModeReqGo src s
  | .stowInput => Sys2Proof.Machine.execStowInput s
  | .stowAxisFail a => Sys2Proof.Machine.execStowAxisFail a s
  | .stowRateChange => Sys2Proof.Machine.execStowRateChange s
  | .isolationTimeout => Sys2Proof.Machine.execIsolationTimeout s
  | .cardPulled p => Sys2Proof.Machine.execCardPulled p s
  | .cardSeated p variant hwrev serial => Sys2Proof.Machine.execCardSeated p variant hwrev serial s
  | .mpSwitch => Sys2Proof.Machine.execMpSwitch s
  | .haltAssert ch => Sys2Proof.Machine.execHaltAssert ch s
  | .haltRelease ch => Sys2Proof.Machine.execHaltRelease ch s
  | .dvHaltDiscrepancy => Sys2Proof.Machine.execDvHaltDiscrepancy s
  | .aoclrEdge ch on => Sys2Proof.Machine.execAoclrEdge ch on s
  | .blankEdge line on => Sys2Proof.Machine.execBlankEdge line on s
  | .packBlankEdge line on e => Sys2Proof.Machine.execPackBlankEdge line on e s
  | .refQualified k ofs => Sys2Proof.Machine.execRefQualified k ofs s
  | .refLost k => Sys2Proof.Machine.execRefLost k s
  | .ppsInEdge cyc ofs => Sys2Proof.Machine.execPpsInEdge cyc ofs s
  | .ptpMessage type udp domain vlan cls ofs => Sys2Proof.Machine.execPtpMessage type udp domain vlan cls ofs s
  | .switchDone => Sys2Proof.Machine.execSwitchDone s
  | .lockoutEnd => Sys2Proof.Machine.execLockoutEnd s
  | .timeStep sec => Sys2Proof.Machine.execTimeStep sec s
  | .tbTodSet => Sys2Proof.Machine.execTbTodSet s
  | .holdEstUpdate => Sys2Proof.Machine.execHoldEstUpdate s
  | .schedFire ev => Sys2Proof.Machine.execSchedFire ev s
  | .angleInstant hub gen e => Sys2Proof.Machine.execAngleInstant hub gen e s
  | .tbCntClr src clr => Sys2Proof.Machine.execTbCntClr src clr s
  | .tbAtSnap => Sys2Proof.Machine.execTbAtSnap s
  | .fcApply src f => Sys2Proof.Machine.execFcApply src f s
  | .fcRevert src f => Sys2Proof.Machine.execFcRevert src f s
  | .commitBreak f => Sys2Proof.Machine.execCommitBreak f s
  | .commitMake f => Sys2Proof.Machine.execCommitMake f s
  | .commitRelease f => Sys2Proof.Machine.execCommitRelease f s
  | .qreset src f c => Sys2Proof.Machine.execQreset src f c s
  | .qresetAuto f c q => Sys2Proof.Machine.execQresetAuto f c q s
  | .qresetOpen f c => Sys2Proof.Machine.execQresetOpen f c s
  | .qresetRelease f c before after => Sys2Proof.Machine.execQresetRelease f c before after s
  | .carryClr src f c => Sys2Proof.Machine.execCarryClr src f c s
  | .excLimit f x => Sys2Proof.Machine.execExcLimit f x s
  | .excSenseFault f x => Sys2Proof.Machine.execExcSenseFault f x s
  | .excThermal f x => Sys2Proof.Machine.execExcThermal f x s
  | .cmFault f c pos neg shield posM negM shieldM => Sys2Proof.Machine.execCmFault f c pos neg shield posM negM shieldM s
  | .cmClear f c pos neg => Sys2Proof.Machine.execCmClear f c pos neg s
  | .overrange f c on => Sys2Proof.Machine.execOverrange f c on s
  | .leadSwap f x ms => Sys2Proof.Machine.execLeadSwap f x ms s
  | .fcCntClr src f clr => Sys2Proof.Machine.execFcCntClr src f clr s
  | .spareTurnStart f => Sys2Proof.Machine.execSpareTurnStart f s
  | .spareVerifyBlock f d m ovr => Sys2Proof.Machine.execSpareVerifyBlock f d m ovr s
  | .spareCalEnd f z p n m => Sys2Proof.Machine.execSpareCalEnd f z p n m s
  | .spareCheckEnd f z p => Sys2Proof.Machine.execSpareCheckEnd f z p s
  | .spareSelfCalEnd f rs refDiff => Sys2Proof.Machine.execSpareSelfCalEnd f rs refDiff s
  | .convFault f c => Sys2Proof.Machine.execConvFault f c s
  | .spareForce src f ch => Sys2Proof.Machine.execSpareForce src f ch s
  | .spareRestore src f ch => Sys2Proof.Machine.execSpareRestore src f ch s
  | .fcSpareCntClr src f clr => Sys2Proof.Machine.execFcSpareCntClr src f clr s
  | .refcalStart src f => Sys2Proof.Machine.execRefcalStart src f s
  | .refcalDone f a b => Sys2Proof.Machine.execRefcalDone f a b s
  | .mtChannelStart => Sys2Proof.Machine.execMtChannelStart s
  | .mtPhaseEnd v cm => Sys2Proof.Machine.execMtPhaseEnd v cm s
  | .mtOpen => Sys2Proof.Machine.execMtOpen s
  | .mtCheckSlotEnd z0 a0 z1 a1 => Sys2Proof.Machine.execMtCheckSlotEnd z0 a0 z1 a1 s
  | .mtUrgentRead h ch addr => Sys2Proof.Machine.execMtUrgentRead h ch addr s
  | .mtScanMaskWrite src mask => Sys2Proof.Machine.execMtScanMaskWrite src mask s
  | .mtCntClr src clr => Sys2Proof.Machine.execMtCntClr src clr s
  | .mtLastLatch c => Sys2Proof.Machine.execMtLastLatch c s
  | .streamOpen h raw buf entry => Sys2Proof.Machine.execStreamOpen h raw buf entry s
  | .streamClose h idx => Sys2Proof.Machine.execStreamClose h idx s
  | .replay h idx buf first last entry => Sys2Proof.Machine.execReplay h idx buf first last entry s
  | .streamTick idx v div phase ovr => Sys2Proof.Machine.execStreamTick idx v div phase ovr s
  | .recAgeExpiry idx => Sys2Proof.Machine.execRecAgeExpiry idx s
  | .streamGap idx => Sys2Proof.Machine.execStreamGap idx s
  | .cjInvalid idx => Sys2Proof.Machine.execCjInvalid idx s
  | .rdCurveData src part w => Sys2Proof.Machine.execRdCurveData src part w s
  | .rdCurveActivate src => Sys2Proof.Machine.execRdCurveActivate src s
  | .rdCurveDelete src => Sys2Proof.Machine.execRdCurveDelete src s
  | .rdCurveRevert src => Sys2Proof.Machine.execRdCurveRevert src s
  | .rdCntClr src clr => Sys2Proof.Machine.execRdCntClr src clr s
  | .rdViewLatch => Sys2Proof.Machine.execRdViewLatch s
  | .rdcUpdate rs ps => Sys2Proof.Machine.execRdcUpdate rs ps s
  | .rdcAcqStart c => Sys2Proof.Machine.execRdcAcqStart c s
  | .rdcLockTest c => Sys2Proof.Machine.execRdcLockTest c s
  | .rdcLos c => Sys2Proof.Machine.execRdcLos c s
  | .rdcAmpHigh c => Sys2Proof.Machine.execRdcAmpHigh c s
  | .rdcWireOpen c winds => Sys2Proof.Machine.execRdcWireOpen c winds s
  | .rdcCmFault c on => Sys2Proof.Machine.execRdcCmFault c on s
  | .rdcTrackLoss c => Sys2Proof.Machine.execRdcTrackLoss c s
  | .rdcExcIlim c ua => Sys2Proof.Machine.execRdcExcIlim c ua s
  | .rdcExcThermal c => Sys2Proof.Machine.execRdcExcThermal c s
  | .rdcConvFault c => Sys2Proof.Machine.execRdcConvFault c s
  | .rdcPairResolve c => Sys2Proof.Machine.execRdcPairResolve c s
  | .rdcPairSlip c => Sys2Proof.Machine.execRdcPairSlip c s
  | .rdcHarmDone c => Sys2Proof.Machine.execRdcHarmDone c s
  | .rdcHarmFail c => Sys2Proof.Machine.execRdcHarmFail c s
  | .rdcReacq src c pass => Sys2Proof.Machine.execRdcReacq src c pass s
  | .rdcLearn src c => Sys2Proof.Machine.execRdcLearn src c s
  | .rdcAbort src c => Sys2Proof.Machine.execRdcAbort src c s
  | .rdcHarmActivate src c => Sys2Proof.Machine.execRdcHarmActivate src c s
  | .rdcHarmClear src c => Sys2Proof.Machine.execRdcHarmClear src c s
  | .rdcCntClr src c => Sys2Proof.Machine.execRdcCntClr src c s
  | .rdcLiveLatch c => Sys2Proof.Machine.execRdcLiveLatch c s
  | .pfiEdge p la lb lz len sn cs => Sys2Proof.Machine.execPfiEdge p la lb lz len sn cs s
  | .pfiIndex idx => Sys2Proof.Machine.execPfiIndex idx s
  | .pfiLineFault p z sn cs => Sys2Proof.Machine.execPfiLineFault p z sn cs s
  | .pfiScAmp p => Sys2Proof.Machine.execPfiScAmp p s
  | .pfiScOverspeed p => Sys2Proof.Machine.execPfiScOverspeed p s
  | .pfiFbReady p => Sys2Proof.Machine.execPfiFbReady p s
  | .pfiFbDisagree idx => Sys2Proof.Machine.execPfiFbDisagree idx s
  | .pfiFused idx => Sys2Proof.Machine.execPfiFused idx s
  | .pfiFuseSlip idx => Sys2Proof.Machine.execPfiFuseSlip idx s
  | .pfiIdxArm src idx => Sys2Proof.Machine.execPfiIdxArm src idx s
  | .pfiSetCount src idx => Sys2Proof.Machine.execPfiSetCount src idx s
  | .pfiSetTurns src idx => Sys2Proof.Machine.execPfiSetTurns src idx s
  | .pfiResume src idx => Sys2Proof.Machine.execPfiResume src idx s
  | .pfiReanchor src idx => Sys2Proof.Machine.execPfiReanchor src idx s
  | .pfiCntClr src idx => Sys2Proof.Machine.execPfiCntClr src idx s
  | .pfiLiveLatch idx => Sys2Proof.Machine.execPfiLiveLatch idx s
  | .pbLatch p rise len ago => Sys2Proof.Machine.execPbLatch p rise len ago s
  | .pbArm src p => Sys2Proof.Machine.execPbArm src p s
  | .pbMissedClr src p => Sys2Proof.Machine.execPbMissedClr src p s
  | .pbLatchRead p => Sys2Proof.Machine.execPbLatchRead p s
  | .eeUpdate e => Sys2Proof.Machine.execEeUpdate e s
  | .eeRestart src e => Sys2Proof.Machine.execEeRestart src e s
  | .eeCntClr src e => Sys2Proof.Machine.execEeCntClr src e s
  | .loopEvaluate => Sys2Proof.Machine.execLoopEvaluate s
  | .leBankSelWrite word value => Sys2Proof.Machine.execLeBankSelWrite word value s
  | .leArenaArm src g => Sys2Proof.Machine.execLeArenaArm src g s
  | .leArenaDisarm src g => Sys2Proof.Machine.execLeArenaDisarm src g s
  | .leArenaRestart src g => Sys2Proof.Machine.execLeArenaRestart src g s
  | .leIClr src l => Sys2Proof.Machine.execLeIClr src l s
  | .leISet src l val => Sys2Proof.Machine.execLeISet src l val s
  | .leLoopRestart src l => Sys2Proof.Machine.execLeLoopRestart src l s
  | .leCntClr src clr => Sys2Proof.Machine.execLeCntClr src clr s
  | .driveBeatUpdate chops => Sys2Proof.Machine.execDriveBeatUpdate chops s
  | .move h axis kind value vmax acc dec => Sys2Proof.Machine.execMove h axis kind value vmax acc dec s
  | .groupMove h mask kind vmax acc dec targets => Sys2Proof.Machine.execGroupMove h mask kind vmax acc dec targets s
  | .stop h kind axis mask => Sys2Proof.Machine.execStop h kind axis mask s
  | .home h axis source n dir vel dist homePos stream thresh => Sys2Proof.Machine.execHome h axis source n dir vel dist homePos stream thresh s
  | .moveStart a => Sys2Proof.Machine.execMoveStart a s
  | .dvBudgetDenied a => Sys2Proof.Machine.execDvBudgetDenied a s
  | .holdDelayExpiry a => Sys2Proof.Machine.execHoldDelayExpiry a s
  | .dvHbConflict a => Sys2Proof.Machine.execDvHbConflict a s
  | .dvOvercurrent a out ma => Sys2Proof.Machine.execDvOvercurrent a out ma s
  | .dvOvertemp a temp => Sys2Proof.Machine.execDvOvertemp a temp s
  | .dvOpenPhase a phase => Sys2Proof.Machine.execDvOpenPhase a phase s
  | .dvHeatOpen a out ma => Sys2Proof.Machine.execDvHeatOpen a out ma s
  | .dvBridgePwr vb => Sys2Proof.Machine.execDvBridgePwr vb s
  | .dvSetPos src a value => Sys2Proof.Machine.execDvSetPos src a value s
  | .dvClrFault src a => Sys2Proof.Machine.execDvClrFault src a s
  | .dvMuzzle src a => Sys2Proof.Machine.execDvMuzzle src a s
  | .dvEnergise src a => Sys2Proof.Machine.execDvEnergise src a s
  | .dvCntClr src clr => Sys2Proof.Machine.execDvCntClr src clr s
  | .dvUtabData src data => Sys2Proof.Machine.execDvUtabData src data s
  | .dvUtabActivate src => Sys2Proof.Machine.execDvUtabActivate src s
  | .dvUtabRevert src => Sys2Proof.Machine.execDvUtabRevert src s
  | .dvHeatWrite src a d0 d1 d2 d3 => Sys2Proof.Machine.execDvHeatWrite src a d0 d1 d2 d3 s
  | .heatPeriod a => Sys2Proof.Machine.execHeatPeriod a s
  | .heaterRelease a => Sys2Proof.Machine.execHeaterRelease a s
  | .aoCodeWrite src o code => Sys2Proof.Machine.execAoCodeWrite src o code s
  | .aoCompliance o => Sys2Proof.Machine.execAoCompliance o s
  | .aoOpen o => Sys2Proof.Machine.execAoOpen o s
  | .aoOverload o => Sys2Proof.Machine.execAoOverload o s
  | .aoCntClr src clr => Sys2Proof.Machine.execAoCntClr src clr s
  | .governorEvaluate bad => Sys2Proof.Machine.execGovernorEvaluate bad s
  | .feedBudgetUpdate pA pB pBridge => Sys2Proof.Machine.execFeedBudgetUpdate pA pB pBridge s
  | .thermalModelUpdate pIn pBridge => Sys2Proof.Machine.execThermalModelUpdate pIn pBridge s
  | .tempSensorRead temps => Sys2Proof.Machine.execTempSensorRead temps s
  | .fanSpeedUpdate pIn pBridge fans => Sys2Proof.Machine.execFanSpeedUpdate pIn pBridge fans s
  | .fanOpen v f => Sys2Proof.Machine.execFanOpen v f s
  | .fanBlocked v f => Sys2Proof.Machine.execFanBlocked v f s
  | .fanTachoLost v f => Sys2Proof.Machine.execFanTachoLost v f s
  | .fanSlow v f => Sys2Proof.Machine.execFanSlow v f s
  | .fanRetry v f => Sys2Proof.Machine.execFanRetry v f s
  | .fanTrayRemoved v => Sys2Proof.Machine.execFanTrayRemoved v s
  | .fanTraySeated v => Sys2Proof.Machine.execFanTraySeated v s
  | .fanTestEnd v f => Sys2Proof.Machine.execFanTestEnd v f s
  | .pwSvcDenied d => Sys2Proof.Machine.execPwSvcDenied d s
  | .pwBgYield => Sys2Proof.Machine.execPwBgYield s
  | .pwBgOverdue cid => Sys2Proof.Machine.execPwBgOverdue cid s
  | .pwOverdraw pBridge => Sys2Proof.Machine.execPwOverdraw pBridge s
  | .overdrawClear => Sys2Proof.Machine.execOverdrawClear s
  | .pwDomainCtrlWrite src req => Sys2Proof.Machine.execPwDomainCtrlWrite src req s
  | .pwCntClr src clr => Sys2Proof.Machine.execPwCntClr src clr s
  | .hpLinkUp speed width => Sys2Proof.Machine.execHpLinkUp speed width s
  | .hpLinkDown => Sys2Proof.Machine.execHpLinkDown s
  | .hotReset => Sys2Proof.Machine.execHotReset s
  | .functionLevelReset => Sys2Proof.Machine.execFunctionLevelReset s
  | .hpCtrlEnWrite en entries => Sys2Proof.Machine.execHpCtrlEnWrite en entries s
  | .doorbellPoll ok cmdPi cplCi evtCi tails => Sys2Proof.Machine.execDoorbellPoll ok cmdPi cplCi evtCi tails s
  | .hostLost => Sys2Proof.Machine.execHostLost s
  | .cmdFetch desc data => Sys2Proof.Machine.execCmdFetch desc data s
  | .nop h => Sys2Proof.Machine.execNop h s
  | .cfgWrite h ofs data => Sys2Proof.Machine.execCfgWrite h ofs data s
  | .cfgRead h ofs len addr => Sys2Proof.Machine.execCfgRead h ofs len addr s
  | .cfgBatch h addr list => Sys2Proof.Machine.execCfgBatch h addr list s
  | .packStatus h addr => Sys2Proof.Machine.execPackStatus h addr s
  | .imageWrite h addr ofs bank data => Sys2Proof.Machine.execImageWrite h addr ofs bank data s
  | .imageCommit h bank len => Sys2Proof.Machine.execImageCommit h bank len s
  | .imageActivate h bank when_ => Sys2Proof.Machine.execImageActivate h bank when_ s
  | .rollback h when_ => Sys2Proof.Machine.execRollback h when_ s
  | .leashTake h n wait ms => Sys2Proof.Machine.execLeashTake h n wait ms s
  | .leashRelease h n epoch => Sys2Proof.Machine.execLeashRelease h n epoch s
  | .leashWaitTimeout => Sys2Proof.Machine.execLeashWaitTimeout s
  | .leashBreak o => Sys2Proof.Machine.execLeashBreak o s
  | .lkBreakWrite src n => Sys2Proof.Machine.execLkBreakWrite src n s
  | .lkCntClr src clr => Sys2Proof.Machine.execLkCntClr src clr s
  | .cardServiceOut h p => Sys2Proof.Machine.execCardServiceOut h p s
  | .cardServiceIn h p => Sys2Proof.Machine.execCardServiceIn h p s
  | .cardServiceRestart h p => Sys2Proof.Machine.execCardServiceRestart h p s
  | .cardServiceUpdate h p => Sys2Proof.Machine.execCardServiceUpdate h p s
  | .cardUpdateSwitch p => Sys2Proof.Machine.execCardUpdateSwitch p s
  | .domainOff h d => Sys2Proof.Machine.execDomainOff h d s
  | .domainOn h d => Sys2Proof.Machine.execDomainOn h d s
  | .completionWrite => Sys2Proof.Machine.execCompletionWrite s
  | .statusBlockWrite => Sys2Proof.Machine.execStatusBlockWrite s
  | .recordDeliver b => Sys2Proof.Machine.execRecordDeliver b s
  | .barkPost => Sys2Proof.Machine.execBarkPost s
  | .evtDrain => Sys2Proof.Machine.execEvtDrain s
  | .bqPopRead => Sys2Proof.Machine.execBqPopRead s
  | .bqHostPopWrite src v => Sys2Proof.Machine.execBqHostPopWrite src v s
  | .bqFlush src => Sys2Proof.Machine.execBqFlush src s
  | .bqCntClr src clr => Sys2Proof.Machine.execBqCntClr src clr s
  | .msixMessage v => Sys2Proof.Machine.execMsixMessage v s
  | .hpCntClr src clr => Sys2Proof.Machine.execHpCntClr src clr s
  | .ovLaneDown l => Sys2Proof.Machine.execOvLaneDown l s
  | .ovRetrain l asked uncorr => Sys2Proof.Machine.execOvRetrain l asked uncorr s
  | .ovLaneUp l copper => Sys2Proof.Machine.execOvLaneUp l copper s
  | .ovReadySet l ready => Sys2Proof.Machine.execOvReadySet l ready s
  | .ovFrameReceive l f corr uncorr => Sys2Proof.Machine.execOvFrameReceive l f corr uncorr s
  | .ovNak l q => Sys2Proof.Machine.execOvNak l q s
  | .ovCreditSet l advert cs => Sys2Proof.Machine.execOvCreditSet l advert cs s
  | .ttSend t1s => Sys2Proof.Machine.execTtSend t1s s
  | .ttReceive p t1 t2 t3 t4 => Sys2Proof.Machine.execTtReceive p t1 t2 t3 t4 s
  | .heartbeatSend => Sys2Proof.Machine.execHeartbeatSend s
  | .heartbeatReceive p leader deputy tb raw hops => Sys2Proof.Machine.execHeartbeatReceive p leader deputy tb raw hops s
  | .topologySend => Sys2Proof.Machine.execTopologySend s
  | .topologyReceive p id serial role delay readyAt rings raw hops path => Sys2Proof.Machine.execTopologyReceive p id serial role delay readyAt rings raw hops path s
  | .linkDownNotice p hub => Sys2Proof.Machine.execLinkDownNotice p hub s
  | .ovLeaderClaim => Sys2Proof.Machine.execOvLeaderClaim s
  | .ovLeaderLost => Sys2Proof.Machine.execOvLeaderLost s
  | .ovDeputyLost => Sys2Proof.Machine.execOvDeputyLost s
  | .ovHandover => Sys2Proof.Machine.execOvHandover s
  | .handoverReceive hub => Sys2Proof.Machine.execHandoverReceive hub s
  | .commandMessage h hub => Sys2Proof.Machine.execCommandMessage h hub s
  | .completionMessage kind hub tag index st result endCause => Sys2Proof.Machine.execCompletionMessage kind hub tag index st result endCause s
  | .forwardTimeout => Sys2Proof.Machine.execForwardTimeout s
  | .requestMessage hub b bytes => Sys2Proof.Machine.execRequestMessage hub b bytes s
  | .grantMessage hub b bytes => Sys2Proof.Machine.execGrantMessage hub b bytes s
  | .recordMessage type hub b idx seq n replay data => Sys2Proof.Machine.execRecordMessage type hub b idx seq n replay data s
  | .deliveredNotice hub idx seq replay => Sys2Proof.Machine.execDeliveredNotice hub idx seq replay s
  | .deliveryResend => Sys2Proof.Machine.execDeliveryResend s
  | .barkMessage hub src code warn time payload afterLoss => Sys2Proof.Machine.execBarkMessage hub src code warn time payload afterLoss s
  | .bulkMessage hub kind addr data => Sys2Proof.Machine.execBulkMessage hub kind addr data s
  | .ovCntClr src clr => Sys2Proof.Machine.execOvCntClr src clr s
  | .moduleSeated cage qualified rightKind cls => Sys2Proof.Machine.execModuleSeated cage qualified rightKind cls s
  | .knIdentWrite src => Sys2Proof.Machine.execKnIdentWrite src s
  | .knJournalDrop src => Sys2Proof.Machine.execKnJournalDrop src s
  | .knCheckpoint src => Sys2Proof.Machine.execKnCheckpoint src s
  | .knCntClr src clr => Sys2Proof.Machine.execKnCntClr src clr s
  | .knMirrorFail m corrected pages fail => Sys2Proof.Machine.execKnMirrorFail m corrected pages fail s
  | .cardLinkLost p => Sys2Proof.Machine.execCardLinkLost p s
  | .cardClockLost p => Sys2Proof.Machine.execCardClockLost p s
  | .oscFault => Sys2Proof.Machine.execOscFault s
  | .rsEccCorr => Sys2Proof.Machine.execRsEccCorr s
  | .rsEccUncorr idx seq => Sys2Proof.Machine.execRsEccUncorr idx seq s
  | .rsDeviceFail => Sys2Proof.Machine.execRsDeviceFail s
  | .rsCntClr src clr => Sys2Proof.Machine.execRsCntClr src clr s
  | .discClr src => Sys2Proof.Machine.execDiscClr src s
  | .registerWrite ofs size data => Sys2Proof.Machine.execRegisterWrite ofs size data s
  | .aonPowerLoss => Sys2Proof.Machine.execAonPowerLoss s
  | .resetButtonPress => Sys2Proof.Machine.execResetButtonPress s
  | .identConfirmExpiry => Sys2Proof.Machine.execIdentConfirmExpiry s
  | .stowRelease => Sys2Proof.Machine.execStowRelease s
  | .oscOvenStable => Sys2Proof.Machine.execOscOvenStable s
  | .failedStartAgeOut => Sys2Proof.Machine.execFailedStartAgeOut s
  | .aoBeatUpdate vs amps head => Sys2Proof.Machine.execAoBeatUpdate vs amps head s
  | .dvHotClear a temp => Sys2Proof.Machine.execDvHotClear a temp s
  | .excLimitEnd f x => Sys2Proof.Machine.execExcLimitEnd f x s
  | .pfiLineFaultClear idx z => Sys2Proof.Machine.execPfiLineFaultClear idx z s
  | .blankPanelChange p fitted => Sys2Proof.Machine.execBlankPanelChange p fitted s

end Sys2Proof.Machine
end

