-- ==== Sys2Proof/Machine/Tick.lean ====
section
/-! DEFINITION. What happens at a CCLK edge of itself, on an empty queue (DESIGN CHOICE): array time and the run clock advance,
changes of settings reach their boundary, streams that waited for TOD_VALID begin, and Ovnas sends. -/

namespace Sys2Proof.Machine

/-- Tell the blocks of the settings whose boundary has come (R200, R230). -/
def lagHooks (s : State) (keys : List Nat) : State :=
  let spots := (keys.filterMap (fun k => (spotAt (k / 8)).map (fun q => { q with off := 0 }))).eraseDups
  spots.foldl (fun t q =>
    let ks := keys.filter (fun k => q.base ≤ k / 8 && k / 8 < q.base + q.place.bytes)
    match q.place.id with
    | .RDC_CFG | .RDC_LOOP | .RDC_HARM_CFG => rdcChanged t (16 * q.k + q.i) ks
    | .PFI_CFG | .PFI_MIN_EDGE | .PFI_FUSE => pfiChanged t (8 * q.k + q.i) ks
    | .EE_CFG => eeChanged t (8 * q.k + q.i) ks
    | _ => t) s

/-- The settings whose boundary has come act from now on. -/
def settings (s : State) : State :=
  let due := s.lag.filter (fun q => q.2.2 ≤ s.now)
  if due.isEmpty then s
  else lagHooks { s with lag := s.lag.filter (fun q => s.now < q.2.2) } (due.map (fun q => q.1))

/-- A stream that waited for TOD_VALID goes on (R365); where AT now lies before its checkpoint it goes on from here. -/
def releaseStream (s : State) (i : Nat) : State :=
  match s.stream i with
  | none => s
  | some x =>
    if !x.waitTod then s
    else
      let y := { x with waitTod := false, openAt := min x.openAt s.now, next := if s.now < x.next then x.gridFrom s.now else x.next }
      showStream (streamResume (s.setStream i (some y)) i) i false

def releaseStreams (s : State) : State :=
  if s.todValid && s.sampling && s.domOn 27 then s.openStreams.foldl releaseStream s else s

/-- At a beat boundary the timing unit renews its copy of PENDING (R50). -/
def beatCopy (s : State) : State :=
  if s.now % cclkBeat = 0 && s.domOn 27 then { s with tb := { s.tb with pendCopy := s.tb.sched.length } } else s

/-- The last outside path has been down too long (R22): while the hub runs, the supervisor restarts it once no path has been live for
a span that the spec does not state, a free value. -/
def pathWatch (s : State) : State :=
  if !s.sampling || !s.livePaths.isEmpty then { s with hub := { s.hub with pathSince := none } }
  else
    match s.hub.pathSince with
    | none => { s with hub := { s.hub with pathSince := some s.run } }
    | some t0 => if s.elapsed t0 Config.pathWait && s.hub.trigs.all (fun q => match q with | .boot _ => false | _ => true) then
        supervisorRestart s 0x03 0x03 else s

/-- One CCLK edge; without AON no clock runs. -/
def tick (s : State) : State :=
  if !s.hub.aon then s
  else
    pathWatch (refWatch (grantSpace (ovPump (releaseStreams (beatCopy (fieldTick (harmTick (settings { s with now := s.now + 1, run := s.run + 1 }))))))))

end Sys2Proof.Machine
end

