-- ==== Sys2Proof/WellFormed.lean ====
section
/-! DEFINITION. Well-formed commands: every operand that names an element of the hub or of the pack names one that exists
(R7, R8), and a descriptor has its 64 bytes (R307). The ranges of a command's parameters are not in it: R310 checks
those, and a command outside them completes with its status. -/

namespace Sys2Proof

/-- The command names only elements that exist. -/
def Instr.wf (i : Instr) : Bool :=
  match i with
  | .aonPowerUp _ => true
  | .resetButtonRelease => true
  | .resetButtonHold => true
  | .factoryBoot => true
  | .watchdog => true
  | .feedStateChange f _ => f < 2
  | .pwFeedLost f => f < 2
  | .pwFeedRestored f => f < 2
  | .lowFeeds => true
  | .feedRestoredWake => true
  | .hubWakeAt => true
  | .startStepsComplete _ => true
  | .startFailed step => [2, 4, 5, 7].contains step
  | .startRetry => true
  | .selftestDone _ _ _ _ => true
  | .cardSelftestDone p _ _ => p < 20 || p = 28 || p = 29
  | .imageProven => true
  | .streamCheckpoint => true
  | .modeChange => true
  | .modeSet _ _ => true
  | .hubModeReqGo _ => true
  | .stowInput => true
  | .stowAxisFail a => a < 16
  | .stowRateChange => true
  | .isolationTimeout => true
  | .cardPulled p => p < 22
  | .cardSeated p variant hwrev _ => p < 22 && variant < 256 && hwrev < 256
  | .mpSwitch => true
  | .haltAssert ch => ch < 2
  | .haltRelease ch => ch < 2
  | .dvHaltDiscrepancy => true
  | .aoclrEdge ch _ => ch < 2
  | .blankEdge line _ => line < 2
  | .packBlankEdge line _ _ => line < 2
  | .refQualified k _ => k < 3
  | .refLost k => k < 3
  | .ppsInEdge _ _ => true
  | .ptpMessage _ _ _ _ _ _ => true
  | .switchDone => true
  | .lockoutEnd => true
  | .timeStep _ => true
  | .tbTodSet => true
  | .holdEstUpdate => true
  | .schedFire ev => match ev with | none => true | some (.window w _) => w < 4 | some (.capture i) => i < 1024
  | .angleInstant hub gen _ => hub < 64 && gen < 64
  | .tbCntClr _ _ => true
  | .tbAtSnap => true
  | .fcApply _ f => f < 16
  | .fcRevert _ f => f < 16
  | .commitBreak f => f < 16
  | .commitMake f => f < 16
  | .commitRelease f => f < 16
  | .qreset _ f c => f < 16 && c < 32
  | .qresetAuto f c _ => f < 16 && c < 32
  | .qresetOpen f c => f < 16 && c < 32
  | .qresetRelease f c _ _ => f < 16 && c < 32
  | .carryClr _ f c => f < 16 && c < 32
  | .excLimit f x => f < 16 && x < 8
  | .excSenseFault f x => f < 16 && x < 8
  | .excThermal f x => f < 16 && x < 8
  | .cmFault f c _ _ _ _ _ _ => f < 16 && c < 32
  | .cmClear f c _ _ => f < 16 && c < 32
  | .overrange f c _ => f < 16 && c < 32
  | .leadSwap f x _ => f < 16 && x < 8
  | .fcCntClr _ f _ => f < 16
  | .spareTurnStart f => f < 16
  | .spareVerifyBlock f _ _ _ => f < 16
  | .spareCalEnd f _ _ _ _ => f < 16
  | .spareCheckEnd f _ _ => f < 16
  | .spareSelfCalEnd f _ _ => f < 16
  | .convFault f c => f < 16 && c ≤ 32
  | .spareForce _ f ch => f < 16 && ch < 32
  | .spareRestore _ f ch => f < 16 && ch < 32
  | .fcSpareCntClr _ f _ => f < 16
  | .refcalStart _ f => f < 16
  | .refcalDone f _ _ => f < 16
  | .mtChannelStart => true
  | .mtPhaseEnd _ _ => true
  | .mtOpen => true
  | .mtCheckSlotEnd _ _ _ _ => true
  | .mtUrgentRead _ _ _ => true
  | .mtScanMaskWrite _ _ => true
  | .mtCntClr _ _ => true
  | .mtLastLatch c => c < 32
  | .streamOpen _ _ _ _ => true
  | .streamClose _ _ => true
  | .replay _ _ _ _ _ _ => true
  | .streamTick i _ _ phase _ => i < 1024 && phase < 2 ^ 48
  | .recAgeExpiry i => i < 1024
  | .streamGap i => i < 1024
  | .cjInvalid i => i < 1024
  | .rdCurveData _ _ _ => true
  | .rdCurveActivate _ => true
  | .rdCurveDelete _ => true
  | .rdCurveRevert _ => true
  | .rdCntClr _ _ => true
  | .rdViewLatch => true
  | .rdcUpdate rs ps => rs.all (fun m => m.ch < 32) && ps.all (fun m => m.i < 16)
  | .rdcAcqStart c => c < 32
  | .rdcLockTest c => c < 32
  | .rdcLos c => c < 32
  | .rdcAmpHigh c => c < 32
  | .rdcWireOpen c _ => c < 32
  | .rdcCmFault c _ => c < 32
  | .rdcTrackLoss c => c < 32
  | .rdcExcIlim c _ => c < 32
  | .rdcExcThermal c => c < 32
  | .rdcConvFault c => c < 32
  | .rdcPairResolve c => c < 32
  | .rdcPairSlip c => c < 32
  | .rdcHarmDone c => c < 32
  | .rdcHarmFail c => c < 32
  | .rdcReacq _ c _ => c < 32
  | .rdcLearn _ c => c < 32
  | .rdcAbort _ c => c < 32
  | .rdcHarmActivate _ c => c < 32
  | .rdcHarmClear _ c => c < 32
  | .rdcCntClr _ c => c < 32
  | .rdcLiveLatch c => c < 32
  | .pfiEdge i _ _ _ _ _ _ => i < 16
  | .pfiIndex i => i < 16
  | .pfiLineFault i _ _ _ => i < 16
  | .pfiScAmp i => i < 16
  | .pfiScOverspeed i => i < 16
  | .pfiFbReady i => i < 16
  | .pfiFbDisagree i => i < 16
  | .pfiFused i => i < 16
  | .pfiFuseSlip i => i < 16
  | .pfiIdxArm _ i => i < 16
  | .pfiSetCount _ i => i < 16
  | .pfiSetTurns _ i => i < 16
  | .pfiResume _ i => i < 16
  | .pfiReanchor _ i => i < 16
  | .pfiCntClr _ i => i < 16
  | .pfiLiveLatch i => i < 16
  | .pbLatch p _ _ _ => p < 8
  | .pbArm _ p => p < 8
  | .pbMissedClr _ p => p < 8
  | .pbLatchRead p => p < 8
  | .eeUpdate e => e < 16
  | .eeRestart _ e => e < 16
  | .eeCntClr _ e => e < 16
  | .loopEvaluate => true
  | .leBankSelWrite word _ => word < 2
  | .leArenaArm _ g => g < 16
  | .leArenaDisarm _ g => g < 16
  | .leArenaRestart _ g => g < 16
  | .leIClr _ l => l < 64
  | .leISet _ l _ => l < 64
  | .leLoopRestart _ l => l < 64
  | .leCntClr _ _ => true
  | .driveBeatUpdate chops => chops.all (fun q => q.a < 16 && q.br < 2 && q.cur.all (fun c => c.1 ≤ 3840))
  | .move _ _ _ _ _ _ _ => true
  | .groupMove _ _ _ _ _ _ _ => true
  | .stop _ _ _ _ => true
  | .home _ _ _ _ _ _ _ _ _ _ => true
  | .moveStart a => a < 16
  | .dvBudgetDenied a => a < 16
  | .holdDelayExpiry a => a < 16
  | .dvHbConflict a => a < 16
  | .dvOvercurrent a out _ => a < 16 && out < 4
  | .dvOvertemp a _ => a < 16
  | .dvOpenPhase a phase => a < 16 && phase < 2
  | .dvHeatOpen a out _ => a < 16 && out < 4
  | .dvBridgePwr _ => true
  | .dvSetPos _ a _ => a < 16
  | .dvClrFault _ a => a < 16
  | .dvMuzzle _ a => a < 16
  | .dvEnergise _ a => a < 16
  | .dvCntClr _ _ => true
  | .dvUtabData _ _ => true
  | .dvUtabActivate _ => true
  | .dvUtabRevert _ => true
  | .dvHeatWrite _ a _ _ _ _ => a < 16
  | .heatPeriod a => a < 16
  | .heaterRelease a => a < 16
  | .aoCodeWrite _ o _ => o < 16
  | .aoCompliance o => o < 16
  | .aoOpen o => o < 16
  | .aoOverload o => o < 16
  | .aoCntClr _ _ => true
  | .governorEvaluate bad => bad.all (fun b => b ≤ 10)
  | .feedBudgetUpdate _ _ _ => true
  | .thermalModelUpdate _ _ => true
  | .tempSensorRead _ => true
  | .fanSpeedUpdate _ _ _ => true
  | .fanOpen v _ => v < 4
  | .fanBlocked v _ => v < 4
  | .fanTachoLost v _ => v < 4
  | .fanSlow v _ => v < 4
  | .fanRetry v _ => v < 4
  | .fanTrayRemoved v => v < 4
  | .fanTraySeated v => v < 4
  | .fanTestEnd v _ => v < 4
  | .pwSvcDenied d => d < 30
  | .pwBgYield => true
  | .pwBgOverdue cid => cid = 0x61 || cid = 0x62
  | .pwOverdraw _ => true
  | .overdrawClear => true
  | .pwDomainCtrlWrite _ _ => true
  | .pwCntClr _ _ => true
  | .hpLinkUp speed width => 1 ≤ speed && speed ≤ 4 && [1, 2, 4, 8].contains width
  | .hpLinkDown => true
  | .hotReset => true
  | .functionLevelReset => true
  | .hpCtrlEnWrite _ _ => true
  | .doorbellPoll _ _ _ _ _ => true
  | .hostLost => true
  | .cmdFetch desc _ => desc.length = 64
  | .nop _ => true
  | .cfgWrite _ _ _ => true
  | .cfgRead _ _ _ _ => true
  | .cfgBatch _ _ _ => true
  | .packStatus _ _ => true
  | .imageWrite _ _ _ _ _ => true
  | .imageCommit _ _ _ => true
  | .imageActivate _ _ _ => true
  | .rollback _ _ => true
  | .leashTake _ _ _ _ => true
  | .leashRelease _ _ _ => true
  | .leashWaitTimeout => true
  | .leashBreak o => 1 ≤ o && o ≤ 5
  | .lkBreakWrite _ _ => true
  | .lkCntClr _ _ => true
  | .cardServiceOut _ _ => true
  | .cardServiceIn _ _ => true
  | .cardServiceRestart _ _ => true
  | .cardServiceUpdate _ _ => true
  | .cardUpdateSwitch p => p < 20 || p = 28 || p = 29
  | .domainOff _ _ => true
  | .domainOn _ _ => true
  | .completionWrite => true
  | .statusBlockWrite => true
  | .recordDeliver b => b < 256
  | .barkPost => true
  | .evtDrain => true
  | .bqPopRead => true
  | .bqHostPopWrite _ _ => true
  | .bqFlush _ => true
  | .bqCntClr _ _ => true
  | .msixMessage v => v < 64
  | .hpCntClr _ _ => true
  | .ovLaneDown l => l < 8
  | .ovRetrain l _ _ => l < 8
  | .ovLaneUp l _ => l < 8
  | .ovReadySet l _ => l < 8
  | .ovFrameReceive l _ _ _ => l < 8
  | .ovNak l _ => l < 8
  | .ovCreditSet l _ _ => l < 8
  | .ttSend _ => true
  | .ttReceive p _ _ _ _ => p < 4
  | .heartbeatSend => true
  | .heartbeatReceive p leader _ _ _ _ => p < 4 && leader < 64
  | .topologySend => true
  | .topologyReceive p id _ _ _ _ _ _ hops _ => p < 4 && id < 64 && 1 ≤ hops
  | .linkDownNotice p from_ => p < 4 && from_ < 64
  | .ovLeaderClaim => true
  | .ovLeaderLost => true
  | .ovDeputyLost => true
  | .ovHandover => true
  | .handoverReceive from_ => from_ < 64
  | .commandMessage _ from_ => from_ < 64
  | .completionMessage kind hub _ _ _ _ _ => kind ≤ 2 && hub < 64
  | .forwardTimeout => true
  | .requestMessage hub b _ => hub < 64 && b < 256
  | .grantMessage from_ b _ => from_ < 64 && b < 256
  | .recordMessage type hub b i _ _ _ _ => (type = 11 || type = 12) && hub < 64 && b < 256 && i < 1024
  | .deliveredNotice from_ i _ _ => from_ < 64 && i < 1024
  | .deliveryResend => true
  | .barkMessage hub _ _ _ _ _ _ => hub < 64
  | .bulkMessage hub kind _ _ => hub < 64 && kind ≤ 2
  | .ovCntClr _ _ => true
  | .moduleSeated cage _ _ _ => cage < 9
  | .knIdentWrite _ => true
  | .knJournalDrop _ => true
  | .knCheckpoint _ => true
  | .knCntClr _ _ => true
  | .knMirrorFail m _ _ _ => m < 2
  | .cardLinkLost p => p < 20
  | .cardClockLost p => p < 20
  | .oscFault => true
  | .rsEccCorr => true
  | .rsEccUncorr i _ => i < 1024
  | .rsDeviceFail => true
  | .rsCntClr _ _ => true
  | .discClr _ => true
  | .registerWrite ofs _ _ => ofs < 0x100000
  | .aonPowerLoss => true
  | .resetButtonPress => true
  | .identConfirmExpiry => true
  | .stowRelease => true
  | .oscOvenStable => true
  | .failedStartAgeOut => true
  | .aoBeatUpdate _ _ _ => true
  | .dvHotClear a _ => a < 16
  | .excLimitEnd f x => f < 16 && x < 8
  | .pfiLineFaultClear i _ => i < 16
  | .blankPanelChange p _ => p < 22 || (24 ≤ p && p < 28)

end Sys2Proof
end

