-- ==== Sys2Proof/Safety.lean ====
section
/-! DEFINITION. What the statements speak of: safe queues and runs, and what a step did, in the terms of the state before and after
it. -/

namespace Sys2Proof

open Sys2Proof.Machine

/-! ## Queues and runs -/

/-- The commands that wait name only elements that exist. -/
def queueWf (s : State) : Prop := ∀ c ∈ s.pending, c.wf = true

/-- `n` steps, while each answers a next state. -/
def run : Nat → State → Host.Outcome State Fault Refusal
  | 0, s => .next s
  | n + 1, s =>
    match step s with
    | .next t => run n t
    | .fault f => .fault f
    | .refused r => .refused r

/-! ## What a command did -/

/-- Every register field reads as before, but for those whose bit address is listed. -/
def onlyRegs (s t : State) (fs : List Fld) : Prop := ∀ f : Fld, f.key ∉ fs.map Fld.key → t.rd f = s.rd f

/-- Of a list of counters, those whose bit is set in the mask read 0, and the others as before. -/
def cleared (s t : State) (fs : List Fld) (mask : Nat) : Prop := ∀ (i : Nat) (f : Fld), fs[i]? = some f → t.rd f = if bit mask i then 0 else s.rd f

/-- A start is on its way, and HUB_MODE is to enter BOOT with the cause `c`. -/
def startsWith (t : State) (c : Nat) : Prop := t.hub.starting = true ∧ Trig.boot c ∈ t.hub.trigs

/-- Every output stands muzzled or off: no axis holds, moves or waits for its budget, and no emulation output counts. -/
def allMuzzled (t : State) : Prop :=
  (∀ a, a < 16 → t.axState a ≠ axHOLD ∧ t.axState a ≠ axMOVING ∧ t.axState a ≠ axWAIT) ∧ ∀ e, e < 16 → (t.emu e).muzzled = true

/-- What a trigger of R360 does at once: a start with this cause and kind begins in the place of any other, with every output muzzled,
the rings disabled and no lane READY, START_BEGIN is staged, and HUB_MODE is to enter BOOT with the cause `c`. A cold start has lost the time. -/
def beginsStart (s t : State) (cause c : Nat) (cold : Bool) : Prop :=
  t.hub.starting = true ∧ t.hub.retry = false ∧ t.hub.startAt = s.run ∧ t.hub.button = none ∧ startsWith t c ∧
  (t.hub.trigs.filter (fun q => match q with | .boot _ | .steps | .tested _ _ => true | _ => false)) = [.boot c] ∧
  t.rd Reg.HUB_START_CAUSE_CAUSE = cause ∧ t.rd Reg.HUB_START_CAUSE_KIND = b2n (!cold) ∧ t.rd Reg.HUB_START_CAUSE_BANK = t.activeBank ∧
  t.flag Reg.HP_CTRL_EN = false ∧ t.ov.linkReady = false ∧ allMuzzled t ∧
  (∃ b ∈ t.bq.staged, b.src = 1 ∧ b.code = 0x0120 ∧ b.payload.take 2 = [cause, b2n (!cold)]) ∧
  (cold = true → t.now = 0 ∧ t.tb.sched = [] ∧ ∀ d, d < 30 → t.domOn d = false)

/-- One bark of this source and code was staged behind those that waited, with the AT edge of the instant. -/
def barks (s t : State) (src code : Nat) : Prop :=
  ∃ b : Bark, t.bq.staged = s.bq.staged ++ [b] ∧ b.src = src ∧ b.code = code ∧ b.time = s.now

/-- The last bark staged has this source and code. -/
def lastBark (t : State) (src code : Nat) : Prop := ∃ (u : List Bark) (b : Bark), t.bq.staged = u ++ [b] ∧ b.src = src ∧ b.code = code

/-- A bark that is raised at most once per `span` for one element: it was staged, unless the span has not passed since the last. -/
def barksRarely (s t : State) (span elem src code : Nat) : Prop :=
  if s.bq.last.get 0 (barkKey code elem) = 0 ∨ s.elapsed (s.bq.last.get 0 (barkKey code elem) - 1) span = true then barks s t src code
  else t.bq = s.bq

/-- What RDC_STAT shows of a channel's state at every event of it. -/
def rdcShown (c : Nat) : List Fld :=
  [Reg.RDC_STAT_STATE c, Reg.RDC_STAT_VALID c, Reg.RDC_STAT_PAIR_VALID c, Reg.RDC_STAT_OR_NOW c, Reg.RDC_STAT_LEARNING c]

/-- No command in flight is `h`: it has completed. -/
def settled (t : State) (h : CmdHdr) : Prop := t.hp.inflight.any (fun f => sameCmd f.hdr h) = false

/-- The command is in flight. -/
def carried (t : State) (h : CmdHdr) : Prop := t.hp.inflight.any (fun f => sameCmd f.hdr h) = true

/-- One completion of `h` with the status `st` stands behind those that waited for the CPL ring. -/
def posts (s t : State) (h : CmdHdr) (st : Status) : Prop :=
  ∃ c : Cpl, t.hp.cplWait = s.hp.cplWait ++ [c] ∧ c.tag = h.tag ∧ c.index = h.index ∧ c.opcode = h.opcode ∧ c.status = st

/-- A command that came by an active CMD ring. -/
def byRing (s : State) (h : CmdHdr) : Prop := h.via = .ring ∧ s.ringsOn = true

/-- The background task `c` holds nothing, asks for nothing, and is not yet due (R292). -/
def bgIdle (s : State) (c : Nat) : Prop :=
  s.pw.grants.any (fun r => r.book = 1 && r.cid = c) = false ∧ s.waitsFor 1 c = false ∧ s.run < (s.bgTask c).passAt

/-! ## The gate of register commands -/

/-- The register whose gate a command of a register passes (R415, R419, R423): where the write comes from, the register with its card
and element, and whether a leash may hold it. No other command is a register write of this kind. -/
def gateOf (c : Instr) : Option (WrSrc × RegId × Nat × Nat × Bool) :=
  match c with
  | .hpCtrlEnWrite _ _ => some (.direct, .HP_CTRL, 0, 0, false)
  | .hubModeReqGo src => some (src, .HUB_MODE_REQ, 0, 0, false)
  | .tbCntClr src _ => some (src, .TB_CNT_CLR, 0, 0, false)
  | .fcApply src f => some (src, .FC_APPLY, f, 0, true)
  | .fcRevert src f => some (src, .FC_APPLY, f, 0, true)
  | .qreset src f c => some (src, .FC_CH_CTRL, f, c, true)
  | .carryClr src f c => some (src, .FC_CH_CTRL, f, c, true)
  | .fcCntClr src f _ => some (src, .FC_CNT_CLR, f, 0, false)
  | .spareForce src f _ => some (src, .FC_SPARE_CTRL, f, 0, true)
  | .spareRestore src f _ => some (src, .FC_SPARE_CTRL, f, 0, true)
  | .fcSpareCntClr src f _ => some (src, .FC_SPARE_CNT_CLR, f, 0, false)
  | .refcalStart src f => some (src, .FC_REFCAL_CTRL, f, 0, true)
  | .mtCntClr src _ => some (src, .MT_CNT_CLR, 0, 0, false)
  | .rdCurveData src _ (some _) => some (src, .RD_CURVE_DATA, 0, 0, true)
  | .rdCurveActivate src => some (src, .RD_CURVE_CTRL, 0, 0, true)
  | .rdCurveDelete src => some (src, .RD_CURVE_CTRL, 0, 0, true)
  | .rdCurveRevert src => some (src, .RD_CURVE_CTRL, 0, 0, true)
  | .rdCntClr src _ => some (src, .RD_CNT_CLR, 0, 0, false)
  | .rdcReacq src c _ => some (src, .RDC_CTRL, (c / 16), (c % 16), true)
  | .rdcLearn src c => some (src, .RDC_CTRL, (c / 16), (c % 16), true)
  | .rdcAbort src c => some (src, .RDC_CTRL, (c / 16), (c % 16), true)
  | .rdcHarmActivate src c => some (src, .RDC_CTRL, (c / 16), (c % 16), true)
  | .rdcHarmClear src c => some (src, .RDC_CTRL, (c / 16), (c % 16), true)
  | .rdcCntClr src c => some (src, .RDC_CTRL, (c / 16), (c % 16), true)
  | .pfiIdxArm src i => some (src, .PFI_CTRL, (i / 8), (i % 8), true)
  | .pfiSetCount src i => some (src, .PFI_CTRL, (i / 8), (i % 8), true)
  | .pfiSetTurns src i => some (src, .PFI_CTRL, (i / 8), (i % 8), true)
  | .pfiResume src i => some (src, .PFI_CTRL, (i / 8), (i % 8), true)
  | .pfiReanchor src i => some (src, .PFI_CTRL, (i / 8), (i % 8), true)
  | .pfiCntClr src i => some (src, .PFI_CTRL, (i / 8), (i % 8), true)
  | .pbArm src p => some (src, .PFI_PB_CFG, (p / 4), (p % 4), true)
  | .pbMissedClr src p => some (src, .PFI_PB_CFG, (p / 4), (p % 4), true)
  | .eeRestart src e => some (src, .EE_CTRL, (e / 8), (e % 8), true)
  | .eeCntClr src e => some (src, .EE_CTRL, (e / 8), (e % 8), true)
  | .leBankSelWrite _ _ => some (.direct, .LE_BANK_SEL, 0, 0, false)
  | .leArenaArm src g => some (src, .LE_ARENA_CTRL, 0, g, true)
  | .leArenaDisarm src g => some (src, .LE_ARENA_CTRL, 0, g, false)
  | .leArenaRestart src g => some (src, .LE_ARENA_CTRL, 0, g, true)
  | .leIClr src l => some (src, .LE_LOOP_CTRL, 0, l, true)
  | .leISet src l _ => some (src, .LE_LOOP_CTRL, 0, l, true)
  | .leLoopRestart src l => some (src, .LE_LOOP_CTRL, 0, l, true)
  | .leCntClr src _ => some (src, .LE_CNT_CLR, 0, 0, false)
  | .dvSetPos src a _ => some (src, .DV_AX_CTRL, 0, a, true)
  | .dvClrFault src a => some (src, .DV_AX_CTRL, 0, a, true)
  | .dvMuzzle src a => some (src, .DV_AX_CTRL, 0, a, false)
  | .dvEnergise src a => some (src, .DV_AX_CTRL, 0, a, true)
  | .dvCntClr src _ => some (src, .DV_CNT_CLR, 0, 0, false)
  | .dvUtabData src _ => some (src, .DV_UTAB_DATA, 0, 0, true)
  | .dvUtabActivate src => some (src, .DV_UTAB_CTRL, 0, 0, true)
  | .dvUtabRevert src => some (src, .DV_UTAB_CTRL, 0, 0, true)
  | .dvHeatWrite src a _ _ _ _ => some (src, .DV_HEAT, 0, a, true)
  | .aoCodeWrite src o _ => some (src, .AO_CODE, 0, o, true)
  | .aoCntClr src _ => some (src, .AO_CNT_CLR, 0, 0, false)
  | .pwDomainCtrlWrite src _ => some (src, .PW_DOMAIN_CTRL, 0, 0, false)
  | .pwCntClr src _ => some (src, .PW_CNT_CLR, 0, 0, false)
  | .lkBreakWrite src _ => some (src, .LK_CTRL, 0, 0, false)
  | .lkCntClr src _ => some (src, .LK_CNT_CLR, 0, 0, false)
  | .bqHostPopWrite src _ => some (src, .BQ_CTRL, 0, 0, false)
  | .bqFlush src => some (src, .BQ_CTRL, 0, 0, false)
  | .bqCntClr src _ => some (src, .BQ_CNT_CLR, 0, 0, false)
  | .hpCntClr src _ => some (src, .HP_CNT_CLR, 0, 0, false)
  | .ovCntClr src _ => some (src, .OV_CNT_CLR, 0, 0, false)
  | .knIdentWrite src => some (src, .KN_IDENT, 0, 0, false)
  | .knJournalDrop src => some (src, .KN_CTRL, 0, 0, false)
  | .knCheckpoint src => some (src, .KN_CTRL, 0, 0, false)
  | .knCntClr src _ => some (src, .KN_CNT_CLR, 0, 0, false)
  | .rsCntClr src _ => some (src, .RS_CNT_CLR, 0, 0, false)
  | .discClr src => some (src, .HUB_WR_STAT, 0, 0, false)
  | _ => none

end Sys2Proof
end

