-- ==== Sys2Proof/Certificates/Slice0/Obligations.lean ====
section
/-! DEFINITION. The statements for the provers: one `def Obligations.<Name> : Prop` each. Every family of commands and every kind of state
has its statements; each names the rules of spec/ it comes from, and says where it rests on a choice of the model. -/

open Sys2Proof Sys2Proof.Machine

/-- Starts (R24, R360, R361, R366, R367, R375 to R377, R388, R396): each trigger begins its start with its own cause and kind, and HUB_MODE is
to enter BOOT with the cause of its row, a retry that falls back to bank F with 0x11; then what ends a start, and what a failed start leaves.
Where the spec leaves a point of this open, the model's reading is log entries 31, 33, 108, 109, 110, 113, 137 and 147. -/
def Obligations.Starts : Prop := ∀ s : State,
  (s.hub.aon = false → ∃ t, exec (.aonPowerUp false) s = .next t ∧ t.hub.aon = true ∧ beginsStart s t 0x01 0x01 true) ∧
  (s.hub.aon = false → ∃ t, exec (.aonPowerUp true) s = .next t ∧ t.hub.aon = true ∧ t.hub.button = some s.run ∧
    t.hub.buttonAtPower = true ∧ t.rd Reg.HUB_MODE_MODE = 1 ∧ t.rd Reg.HUB_MODE_CAUSE = 1 ∧
    (∀ v, v < 4 → t.fanState v = if (s.slot (24 + v)).card then fanOK else s.fanState v) ∧
    t = { s with regs := t.regs, hub := t.hub } ∧ onlyRegs s t ([Reg.HUB_MODE_MODE, Reg.HUB_MODE_PREV, Reg.HUB_MODE_CAUSE] ++ (List.range 4).map Reg.PW_FAN_STATE)) ∧
  (∀ t0, s.hub.button = some t0 → s.hub.buttonAtPower = false → s.elapsed t0 (10 * cclkSec) = false →
    ∃ t, exec .resetButtonRelease s = .next t ∧ beginsStart s t 0x02 0x02 false) ∧
  (∀ t0, s.hub.button = some t0 → s.hub.buttonAtPower = true → ∃ t, exec .resetButtonRelease s = .next t ∧ beginsStart s t 0x01 0x01 true) ∧
  (∀ t0, s.hub.button = some t0 → s.hub.buttonAtPower = false → s.elapsed t0 (10 * cclkSec) = true →
    ∃ t, exec .resetButtonHold s = .next t ∧ beginsStart s t 0x09 0x12 true) ∧
  (∀ t0, s.hub.button = some t0 → s.hub.buttonAtPower = true → s.elapsed t0 (3 * cclkSec) = true →
    ∃ t, exec .factoryBoot s = .next t ∧ beginsStart s t 0x0A 0x13 true ∧ t.activeBank = 0) ∧
  (s.mode ≠ mDORMANT → ∃ t, exec .watchdog s = .next t ∧ beginsStart s t 0x04 0x14 false ∧
    (s.flag Reg.KN_BANK_STATE_TRIAL = true → s.hub.failedAt.length < 2 → t.hub.failedAt = s.hub.failedAt ++ [s.run])) ∧
  (∃ t, exec .oscFault s = .next t ∧ beginsStart s t 0x03 0x03 false ∧ ∃ b ∈ t.bq.staged, b.src = 2 ∧ b.code = 0x020F) ∧
  (s.hub.retry = true → s.elapsed s.hub.failAt s.retryAfter = true → ∃ t, exec .startRetry s = .next t ∧
    beginsStart s t 0x08 (if 3 ≤ s.rd Reg.HUB_START_CAUSE_FAILS ∧ s.activeBank ≠ 0 ∧ (s.prevBank = 3 ∨ s.prevBank = 0) then 0x11 else 0x10) false) ∧
  (s.mode = mDORMANT → s.hub.aon = true → s.hub.dormantLow = true → s.hub.starting = false → s.feedState 0 = 2 →
    s.elapsed (s.feedChg 0) cclkSec = true → ∃ t, exec .feedRestoredWake s = .next t ∧ beginsStart s t 0x0B 0x16 false) ∧
  (s.mode = mDORMANT → s.hub.aon = true → s.hub.starting = false → s.flag Reg.HUB_WAKE_AT_ARM = true →
    s.rd Reg.HUB_WAKE_AT_SECONDS ≤ s.now / cclkSec →
    ∃ t, exec .hubWakeAt s = .next t ∧ beginsStart s t 0x07 0x0F false ∧ t.rd Reg.HUB_WAKE_AT_ARM = 0) ∧
  (∀ bad : List Nat, s.inSteps = true → s.hub.cardsWait = false →
    ((stepIdentity s).bootSound = false → ∃ t, exec (.startStepsComplete bad) s = .next t ∧ t.hub.retry = true ∧ t.rd Reg.HUB_START_CAUSE_FAIL_STEP = 2) ∧
    ((stepIdentity s).bootSound = true → (bad.contains 26 && bad.contains 27) = true →
      ∃ t, exec (.startStepsComplete bad) s = .next t ∧ t.hub.retry = true ∧ t.rd Reg.HUB_START_CAUSE_FAIL_STEP = 4) ∧
    ((stepIdentity s).bootSound = true → (bad.contains 26 && bad.contains 27) = false → s.pw.waits = [] → (∀ p, p < 20 → (s.slot p).card = false) →
      ∃ t, exec (.startStepsComplete bad) s = .next t ∧ t.hub.trigs.contains .steps = true ∧ t.hub.starting = false ∧
        t.ov.linkReady = (s.ov.linkReady || decide (s.rd Reg.KN_IDENT_ID ≠ 255)) ∧ t.ov.lead = (s.image.lead && decide (s.rd Reg.KN_IDENT_ID ≠ 255)) ∧
        t.rd Reg.HUB_ID_BLANK = b2n (decide (s.rd Reg.KN_IDENT_ID = 255)) ∧ t.kn.journalGen = s.image.gen ∧
        (∀ d, d ∈ [27, 28, 29, 21, 22, 23, 24, 26] → t.domOn d = true) ∧ lastBark t 1 0x0121)) ∧
  (∀ bad : List Nat, s.inSteps = true → s.hub.cardsWait = true →
    (s.cardWaits = false → ∃ t, exec (.startStepsComplete bad) s = .next t ∧ t.hub.trigs.contains .steps = true ∧ t.hub.starting = false ∧ lastBark t 1 0x0121) ∧
    (s.cardWaits = true → exec (.startStepsComplete bad) s = .next s)) ∧
  (∀ step, [2, 4, 5, 7].contains step = true → s.hub.starting = true → s.hub.retry = false → s.mode = mBOOT →
    ∃ t, exec (.startFailed step) s = .next t ∧ t.hub.retry = true ∧ t.hub.failAt = s.run ∧ t.hub.failedAt = s.hub.failedAt ++ [s.run] ∧
      t.rd Reg.HUB_START_CAUSE_FAIL_STEP = step ∧ t.rd Reg.HUB_START_CAUSE_FAILS = min 7 (s.hub.failedAt.length + 1) ∧
      t.rd Reg.KN_CNT_FAILED_STARTS = satU 32 (s.rd Reg.KN_CNT_FAILED_STARTS + 1) ∧ barks s t 1 0x0122 ∧
      t = { s with regs := t.regs, hub := t.hub, bq := t.bq } ∧
      onlyRegs s t [Reg.HUB_START_CAUSE_FAIL_STEP, Reg.HUB_START_CAUSE_FAILS, Reg.KN_CNT_FAILED_STARTS]) ∧
  (∀ core bad conv caps, s.mode = mSELFTEST → s.hub.retry = false → s.hub.trigs = [] → s.elapsed s.hub.modeAt (100 * cclkMs) = true →
    ((!core || !(setEntries bad (s.tested.foldl (testCard bad conv) s)).statusSet) = true →
      ∃ t, exec (.selftestDone core bad conv caps) s = .next t ∧ t.hub.retry = true ∧ t.hub.failAt = s.run ∧ t.hub.trigs = [.boot 0x06] ∧
        t.hub.testReturn = none ∧ lastBark t 1 0x0122) ∧
    ((!core || !(setEntries bad (s.tested.foldl (testCard bad conv) s)).statusSet) = false →
      ∃ t, exec (.selftestDone core bad conv caps) s = .next t ∧ t.hub.testReturn = none ∧
        t.hub.trigs = [if s.tested.any (s.testFails bad conv) || [26, 27, 28, 29].any (fun p => bad.contains p && s.inService p) then .tested mSAFE 0x06
          else .tested (setEntries bad (s.tested.foldl (testCard bad conv) s)).nextMode 0x05] ∧
        ∀ p, p ∈ s.tested → s.testFails bad conv p = true → (s.slot p).card = true → s.listed p = true → t.rd (partFld p) = pOUT)) ∧
  (s.flag Reg.KN_BANK_STATE_TRIAL = true → s.hub.proofSince.isSome = true → 600 * cclkSec ≤ s.proofTime →
    ∃ t, exec .imageProven s = .next t ∧ t.hub.proofSince = none ∧ t.flag Reg.KN_BANK_STATE_TRIAL = false ∧
      (t.kn.images.get {} s.activeBank).proven = true ∧ (s.image.floor < 2 ^ 32 → t.rd Reg.KN_SEC_FLOOR = max (s.rd Reg.KN_SEC_FLOOR) s.image.floor) ∧ lastBark t 1 0x0125) ∧
  (∃ t, exec .failedStartAgeOut s = .next t ∧
    t.hub.failedAt = s.hub.failedAt.filter (fun x => !s.elapsed x (600 * cclkSec)) ∧
    t.rd Reg.HUB_START_CAUSE_FAILS = min 7 t.hub.failedAt.length ∧
    t = { s with regs := t.regs, hub := t.hub } ∧ onlyRegs s t [Reg.HUB_START_CAUSE_FAILS]) ∧
  (s.hub.aon = true → s.mode = mDORMANT → s.feedState 0 ≠ 2 → s.feedState 1 ≠ 2 → s.elapsed s.hub.modeAt (50 * cclkMs) = true →
    ∃ t, exec .aonPowerLoss s = .next t ∧ t.hub.aon = false ∧ t.kn.images = s.kn.images ∧ t.kn.journal = s.kn.journal ∧ t.kn.ckpts = s.kn.ckpts ∧
      t.now = 0 ∧ t.tb = {} ∧ t.le = {} ∧ t.hp = {} ∧ t.takes_ = []) ∧
  (s.hub.aon = true → s.kn.identBy = none → ∃ t, exec .resetButtonPress s = .next t ∧ t.hub.button = some s.run ∧
    t.hub.pressAt = some s.run ∧ t.hub.buttonAtPower = false ∧ t = { s with hub := t.hub }) ∧
  (∀ by_, s.hub.aon = true → s.kn.identBy = some by_ → s.run ≤ by_ → ∃ t, exec .resetButtonPress s = .next t ∧
    t.rd Reg.KN_IDENT_ID = s.rd Reg.KN_IDENT_NEW_ID % 2 ^ 8 ∧ t.rd Reg.KN_IDENT_WRITTEN = 1 ∧ t.kn.identBy = none ∧ barks s t 4 0x0409 ∧
    onlyRegs s t [Reg.KN_IDENT_ID, Reg.KN_IDENT_WRITTEN])

/-- Mode requests are answered by the table of R26: a request for the present mode completes OK at once, a refused one is barked and
completes with its status, and a permitted one waits for the beat boundary; behind another trigger, or a level that acts, every request
waits to be judged (R27).
Where the spec leaves a point of this open, the model's reading is log entry 30. -/
def Obligations.ModeRequests : Prop := ∀ s : State,
  (∀ h target, s.hub.trigs ≠ [] ∨ s.levelActs = true → ∃ t, exec (.modeSet h target) s = .next t ∧ carried t h ∧
    t.hub.trigs = s.hub.trigs ++ [.request target (some h)] ∧ t = { s with hp := t.hp, hub := t.hub }) ∧
  (∀ h, byRing s h → s.hub.trigs = [] → s.levelActs = false →
    (∃ t, exec (.modeSet h s.mode) s = .next t ∧ settled t h ∧ posts s t h .ok ∧ t = { s with hp := t.hp }) ∧
    (∀ target, target ≠ s.mode → ¬ (target = mRUN ∧ s.mode = mDEGRADED) → s.barred = true →
      ∃ t, exec (.modeSet h target) s = .next t ∧ settled t h ∧ posts s t h .modeForbids ∧ barks s t 1 0x0111) ∧
    (s.sampling = true → s.mode ≠ mDEGRADED →
      ∃ t, exec (.modeSet h mDEGRADED) s = .next t ∧ settled t h ∧ posts s t h .badParam ∧ barks s t 1 0x0111) ∧
    (∀ target, target ≠ s.mode → ¬ (target = mRUN ∧ s.mode = mDEGRADED) → s.sampling = true → target ≠ mDEGRADED → target ≤ 7 →
      s.permitted target = false → ∃ t, exec (.modeSet h target) s = .next t ∧ settled t h ∧ posts s t h .modeForbids ∧ barks s t 1 0x0111) ∧
    (∀ target, judgeReq s target = .go → ∃ t, exec (.modeSet h target) s = .next t ∧ carried t h ∧
      t.hub.trigs = [.request target (some h)] ∧ t = { s with hp := t.hp, hub := t.hub })) ∧
  (∀ src, s.takes src .HUB_MODE_REQ 0 0 false = true → s.hub.trigs = [] → s.levelActs = false →
    (s.rd Reg.HUB_MODE_REQ_TARGET = s.mode → ∃ t, exec (.hubModeReqGo src) s = .next t ∧ t.rd Reg.HUB_MODE_REQ_DONE = 1 ∧
      t = { s with regs := t.regs } ∧ onlyRegs s t [Reg.HUB_MODE_REQ_DONE]) ∧
    (∀ st, judgeReq s (s.rd Reg.HUB_MODE_REQ_TARGET) = .refused st → ∃ t, exec (.hubModeReqGo src) s = .next t ∧
      t.rd Reg.HUB_MODE_REQ_REJECT = 1 ∧ barks s t 1 0x0111 ∧ t = { s with regs := t.regs, bq := t.bq } ∧ onlyRegs s t [Reg.HUB_MODE_REQ_REJECT]) ∧
    (judgeReq s (s.rd Reg.HUB_MODE_REQ_TARGET) = .go → ∃ t, exec (.hubModeReqGo src) s = .next t ∧
      t.hub.trigs = [.request (s.rd Reg.HUB_MODE_REQ_TARGET) none] ∧ t = { s with hub := t.hub }))

/-- MODE_CHANGE: of the triggers that stand at the beat boundary the highest of R27 acts, and HUB_MODE shows the new mode, the mode
before and the cause.
Where the spec leaves a point of this open, the model's reading is log entries 29 and 128. -/
def Obligations.ModeChange : Prop := ∀ s : State,
  (∀ c, s.hub.trigs = [.boot c] → c < 256 → s.mode < 8 → ∃ t, exec .modeChange s = .next t ∧
    t.rd Reg.HUB_MODE_MODE = mBOOT ∧ t.rd Reg.HUB_MODE_PREV = s.mode ∧ t.rd Reg.HUB_MODE_CAUSE = c ∧ t.hub.modeAt = s.run ∧
    t.tb.sched = [] ∧ t.tb.pendCopy = 0) ∧
  (s.hub.trigs = [.steps] → s.mode = mBOOT → ∃ t, exec .modeChange s = .next t ∧
    t.rd Reg.HUB_MODE_MODE = mSELFTEST ∧ t.rd Reg.HUB_MODE_PREV = mBOOT ∧ t.rd Reg.HUB_MODE_CAUSE = 4) ∧
  (s.hub.trigs = [] → s.mode = mRUN → s.critical = false → s.stowHeld = false → s.anyPartLost = true →
    ∃ t, exec .modeChange s = .next t ∧ t.rd Reg.HUB_MODE_MODE = mDEGRADED ∧ t.rd Reg.HUB_MODE_PREV = mRUN ∧ t.rd Reg.HUB_MODE_CAUSE = 0x0A) ∧
  (s.hub.trigs = [] → s.mode = mDEGRADED → s.critical = false → s.stowHeld = false → s.anyPartLost = false →
    ∃ t, exec .modeChange s = .next t ∧ t.rd Reg.HUB_MODE_MODE = mRUN ∧ t.rd Reg.HUB_MODE_PREV = mDEGRADED ∧ t.rd Reg.HUB_MODE_CAUSE = 0x0B) ∧
  (s.hub.trigs = [.lowFeeds] → s.mode ≠ mDORMANT → ∃ t, exec .modeChange s = .next t ∧ t.rd Reg.HUB_MODE_MODE = mDORMANT ∧
    t.rd Reg.HUB_MODE_CAUSE = 0x0E ∧ t.hub.dormantLow = true ∧ ∀ d, d < 30 → t.domOn d = false) ∧
  (s.critical = true → s.hub.trigs = [] → s.active3 = true ∨ s.mode = mSTOW → ∃ t, exec .modeChange s = .next t ∧
    t.rd Reg.HUB_MODE_MODE = mSAFE ∧ t.rd Reg.HUB_MODE_CAUSE = 0x0C ∧ ∀ a, a < 16 → t.axState a ≠ axMOVING ∧ t.axState a ≠ axWAIT) ∧
  (s.critical = false → s.stowHeld = true → s.hub.trigs = [] → s.active3 = true → ∃ t, exec .modeChange s = .next t ∧
    t.rd Reg.HUB_MODE_MODE = mSTOW ∧ t.rd Reg.HUB_MODE_CAUSE = 0x09) ∧
  (s.hub.trigs = [] → s.mode = mSAFE → ∃ t, exec .modeChange s = .next t ∧ t = s)

/-- The inputs that call for a mode, and what they muzzle at once (R23 to R25, R29, R161).
Where the spec leaves a point of this open, the model's reading is log entries 29 and 31. -/
def Obligations.ModeInputs : Prop := ∀ s : State,
  (s.stowHeld = false → s.mode ≠ mSAFE → ∃ t, exec .stowInput s = .next t ∧ t.stowHeld = true ∧ t.hub.stowSince = some s.run ∧ t = { s with hub := t.hub }) ∧
  (s.mode = mSAFE → s.hub.stowIgnored = false → ∃ t, exec .stowInput s = .next t ∧ t.stowHeld = true ∧ t.hub.stowIgnored = true ∧
    barks s t 1 0x0113 ∧ t = { s with hub := t.hub, bq := t.bq }) ∧
  (∃ t, exec .stowRelease s = .next t ∧ t.stowHeld = false ∧ t.hub.stowIgnored = false ∧ t = { s with hub := t.hub }) ∧
  (∀ a, a < 16 → s.mode = mSTOW → (s.axis a).stowing = true → s.elapsed s.hub.modeAt (max 1 (s.rd Reg.HUB_GUARD_STOW_TIME) * cclkSec) = true →
    ∃ t, exec (.stowAxisFail a) s = .next t ∧ (t.axis a).stowing = false ∧ t.axState a ≠ axHOLD ∧ t.axState a ≠ axMOVING ∧ t.axState a ≠ axWAIT ∧
      lastBark t 1 0x0115) ∧
  (∀ i x, s.sampling = true → s.openStreams = [i] → s.stream i = some x → x.defn.reduce = 1 → x.defn.clockArg + x.defn.redArg < 6 →
    ∃ t, exec .stowRateChange s = .next t ∧ ∃ y, t.stream i = some y ∧ y.stowed = decide (s.mode = mSTOW)) ∧
  (∀ t0 n, s.hub.isoSince = some t0 → s.isoTime = some n → s.active3 = true → s.elapsed (max t0 s.hub.activeSince) n = true →
    s.hub.trigs.contains .isolation = false → ∃ t, exec .isolationTimeout s = .next t ∧ t.hub.trigs = s.hub.trigs ++ [.isolation] ∧
      ∀ a, a < 16 → t.axState a ≠ axHOLD ∧ t.axState a ≠ axMOVING ∧ t.axState a ≠ axWAIT) ∧
  (s.mode ≠ mDORMANT → s.feedState 0 ≠ 2 → s.feedState 1 ≠ 2 → s.elapsed (s.feedChg 0) (10 * cclkMs) = true →
    s.elapsed (s.feedChg 1) (10 * cclkMs) = true → ∃ t, exec .lowFeeds s = .next t ∧ allMuzzled t ∧
      t.hub.trigs = s.hub.trigs.filter (fun q => match q with | .boot _ | .steps | .tested _ _ | .lowFeeds => false | _ => true) ++ [.lowFeeds] ∧
      t.hub.starting = false ∧ t.hub.retry = false)

/-- The feeds (R394, R395): the class of a feed by its voltage, its loss after 1 ms and its return after 1 s. -/
def Obligations.Feeds : Prop := ∀ (s : State) (f : Nat), f < 2 →
  (∀ v, v < 2 ^ 16 → ∃ t, exec (.feedStateChange f v) s = .next t ∧ t.rd (Reg.PW_FEED_V f) = v ∧
    (v < 1800 → t.feedState f = 0) ∧ (7800 < v → t.feedState f = 3) ∧ (3500 ≤ v → v < 7600 → t.feedState f = 2) ∧
    (1800 ≤ v → v < 3300 → t.feedState f = 1) ∧
    (s.feedState f < 4 → 3300 ≤ v → v < 3500 → t.feedState f = if s.feedState f = 2 ∨ s.feedState f = 3 then 2 else 1) ∧
    (s.feedState f < 4 → 7600 ≤ v → v ≤ 7800 → t.feedState f = if s.feedState f = 3 then 3 else 2)) ∧
  (s.feedState f ≠ 2 → s.feedLost f = false → s.elapsed (s.feedChg f) cclkMs = true →
    ∃ t, exec (.pwFeedLost f) s = .next t ∧ t.feedLost f = true ∧ t.feedLoad f = false ∧ lastBark t 3 0x0308 ∧
      t.rd (partFld (20 + f)) = (if s.feedBarred f then s.rd (partFld (20 + f)) else pOUT) ∧
      t = { s with regs := t.regs, pw := t.pw, bq := t.bq } ∧ onlyRegs s t [partFld (20 + f)]) ∧
  (s.feedState f = 2 → s.feedLost f = true → s.feedHeld f = false → (s.slot (20 + f)).serviceCmd = none →
    s.elapsed (s.feedChg f) cclkSec = true → ∃ t, exec (.pwFeedRestored f) s = .next t ∧ t.feedLost f = false ∧ t.feedLoad f = true ∧
      t.rd (partFld (20 + f)) = pIN ∧ lastBark t 3 0x0309 ∧ onlyRegs s t [partFld (20 + f)] ∧
      t = { s with regs := t.regs, hub := t.hub, pw := t.pw, bq := t.bq })

/-- Slots and cards (R13, R14, R17, R30, R387, R421): what a card that is seated, pulled, tested or lost leaves in its slot and its
entry of HUB_PART_STATE.
Where the spec leaves a point of this open, the model's reading is log entries 34, 127 and 152. -/
def Obligations.CardsAndSlots : Prop := ∀ (s : State) (p : Nat),
  (∀ variant hwrev serial, p < 22 → variant < 256 → hwrev < 256 → (s.slot p).card = false → (s.slot p).panel = false →
    (cardFits p variant = false → exec (.cardSeated p variant hwrev serial) s = .next s) ∧
    (cardFits p variant = true → (∀ d, partDom p = some d → s.domOn d = false) → (p = 18 → s.domOn 19 = false) →
      ∃ t, exec (.cardSeated p variant hwrev serial) s = .next t ∧ (t.slot p).card = true ∧ (t.slot p).variant = variant ∧
      (t.slot p).hwrev = hwrev ∧ (t.slot p).serial = serial ∧ (∀ q, q ≠ p → t.slot q = s.slot q) ∧
      (s.hub.aon = true → t.rd (partFld (partEntry p)) = if s.listed (partEntry p) then pOUT else pNONE) ∧
      (s.hub.aon = true → p < 20 → s.listed p = true → (s.slot p).takenOut = false → s.sampling = true →
        (t.slot p).entering = true ∧ ∀ d, partDom p = some d → t.waitsFor 1 d = true ∨ s.hasGrant 1 d = true) ∧
      t = { s with regs := t.regs, hub := t.hub, pw := t.pw, bq := t.bq })) ∧
  (p < 22 → (s.slot p).card = true → s.hub.aon = true → ∃ t, exec (.cardPulled p) s = .next t ∧ (t.slot p).card = false ∧
    t.rd (partFld (partEntry p)) = pOPEN ∧ (∀ d, partDom p = some d → t.domOn d = false) ∧ ((s.slot p).takenOut = false → lastBark t 1 0x0116)) ∧
  (∀ fitted, p < 22 ∨ 24 ≤ p ∧ p < 28 → (s.slot p).card = false → (s.slot p).panel ≠ fitted →
    ∃ t, exec (.blankPanelChange p fitted) s = .next t ∧ (t.slot p).panel = fitted ∧
      (s.hub.aon = true → fitted = false → t.rd (partFld (partEntry p)) = pOPEN) ∧
      (s.hub.aon = true → fitted = true →
        t.rd (partFld (partEntry p)) = if s.listed (partEntry p) then pOUT else pNONE) ∧
      t = { s with regs := t.regs, hub := t.hub, bq := t.bq } ∧ onlyRegs s t [partFld (partEntry p)]) ∧
  (∀ d bad, p < 20 ∨ p = 28 ∨ p = 29 → partDom p = some d → (s.slot p).entering = true → s.domOn d = true → s.sampling = true →
    (s.slot p).serviceCmd = none →
    (∃ t, exec (.cardSelftestDone p false bad) s = .next t ∧ t.rd (partFld (partEntry p)) = pOUT ∧ (t.slot p).entering = false ∧
      t = { s with regs := t.regs, hub := t.hub, bq := t.bq } ∧ onlyRegs s t [partFld (partEntry p)]) ∧
    (p = 18 ∨ p = 28 ∨ p = 29 → ∃ t, exec (.cardSelftestDone p true bad) s = .next t ∧ t.rd (partFld (partEntry p)) = pIN ∧
      (t.slot p).entering = false ∧ (t.slot p).fw = s.image.fwOf p ∧ onlyRegs s t [partFld (partEntry p)]) ∧
    (axisFails s (p - 16) bad = false → ∃ t, exec (.cardSelftestDone p true bad) s = .next t ∧ t.rd (partFld (partEntry p)) = pIN ∧
      (t.slot p).entering = false ∧ (t.slot p).selfMuzzled = false ∧ (t.slot p).fw = s.image.fwOf p)) ∧
  (∀ d, p < 20 → partDom p = some d → (s.slot p).card = true → s.domOn d = true →
    ∃ t, exec (.cardClockLost p) s = .next t ∧ (t.slot p).selfMuzzled = true ∧
      (p = 18 → ∀ a, a < 16 → t.axState a ≠ axHOLD ∧ t.axState a ≠ axMOVING ∧ t.axState a ≠ axWAIT)) ∧
  (p < 20 → s.inService (partEntry p) = true → ∃ t, exec (.cardLinkLost p) s = .next t ∧ (t.slot p).linkLost = some s.run ∧
    t.rd (partFld (partEntry p)) = pOUT ∧ (∀ d, partDom p = some d → t.domOn d = false) ∧ (∃ b ∈ t.bq.staged, b.src = 1 ∧ b.code = 0x0119) ∧
    (t.slot p).entering = (match (s.slot p).linkLost with | none => true | some t0 => s.elapsed t0 (600 * cclkSec))) ∧
  (∀ w, p < 16 → (s.slot p).standby = some w → s.turning p = true → exec (.cardUpdateSwitch p) s = .next s) ∧
  (∀ w, p < 20 ∨ p = 28 ∨ p = 29 → (s.slot p).standby = some w → (s.slot p).held = [] → (s.slot p).heldCmds = [] → s.pendingBank = none →
    (s.slot p).serviceCmd = none → (p < 16 → s.turning p = false) → ∃ t, exec (.cardUpdateSwitch p) s = .next t ∧ (t.slot p).fw = w ∧ (t.slot p).standby = none ∧
      t = { s with hub := t.hub }) ∧
  (s.inService 26 = true → s.inService 27 = true →
    (∃ t, exec .mpSwitch s = .next t ∧ t.rd (partFld (26 + s.activeMp)) = pOUT) ∧
    (s.hp.inflight = [] → s.takes_ = [] → (∀ n, n < 32 → s.lkHeld n = false) → s.activeMp < 2 →
      ∃ t, exec .mpSwitch s = .next t ∧ t.activeMp = 1 - s.activeMp ∧ t.rd (partFld (26 + s.activeMp)) = pOUT ∧
        onlyRegs s t [Reg.HUB_MODE_ACTIVE_MP, partFld (26 + s.activeMp)] ∧ t = { s with regs := t.regs, bq := t.bq }))

/-- CARD_SERVICE (R316, R20, R381): where the mode bars it, it completes with MODE_FORBIDS; a PART byte or a domain that does not exist
gives BAD_PARAM; otherwise each form has its effect and completes.
Where the spec leaves a point of this open, the model's reading is log entries 34, 35, 36, 87 and 122. -/
def Obligations.CardService : Prop := ∀ (s : State) (h : CmdHdr) (p : Nat), byRing s h →
  (s.barred = true → ∀ i ∈ [Instr.cardServiceOut h p, .cardServiceIn h p, .cardServiceRestart h p, .cardServiceUpdate h p, .domainOff h p,
    .domainOn h p], ∃ t, exec i s = .next t ∧ settled t h ∧ posts s t h .modeForbids) ∧
  (s.barred = false → partByte p = false →
    ∀ i ∈ [Instr.cardServiceOut h p, .cardServiceIn h p, .cardServiceRestart h p, .cardServiceUpdate h p],
      ∃ t, exec i s = .next t ∧ settled t h ∧ posts s t h .badParam) ∧
  (s.barred = false → 30 ≤ p → ∀ i ∈ [Instr.domainOff h p, .domainOn h p], ∃ t, exec i s = .next t ∧ settled t h ∧ posts s t h .badParam) ∧
  (s.barred = false → partByte p = true → s.outForbidden p = true → ∀ i ∈ [Instr.cardServiceOut h p, .cardServiceRestart h p],
    ∃ t, exec i s = .next t ∧ settled t h ∧ posts s t h .modeForbids) ∧
  (s.barred = false → partByte p = true → s.outForbidden p = false → ∃ t, exec (.cardServiceOut h p) s = .next t ∧ settled t h ∧ (t.slot p).takenOut = true ∧ t.inService (partEntry p) = false ∧
    (p < 16 → s.inService p = true → (s.slot p).serviceCmd = none → (s.slot p).heldCmds = [] →
      t.rd (partFld p) = pOUT ∧ t.domOn p = false ∧ posts s t h .ok) ∧
    (20 ≤ p → p < 22 → s.inService p = true → t.rd (partFld p) = pOUT ∧ t.feedLoad (p - 20) = false ∧ (t.slot p).takenOut = true ∧ posts s t h .ok)) ∧
  (s.barred = false → partByte p = true → s.inService (partEntry p) = true → (28 ≤ p ∨ (s.slot p).card = true) →
    ∃ t, exec (.cardServiceIn h p) s = .next t ∧ settled t h ∧ posts s t h .ok ∧ t = { s with hp := t.hp }) ∧
  (∀ d, s.barred = false → p < 20 → partDom p = some d → (s.slot p).card = true → s.rd (partFld (partEntry p)) = pOUT →
    (s.slot p).serviceCmd = none →
    (∃ t, exec (.cardServiceIn h p) s = .next t ∧ carried t h ∧ (t.slot p).entering = true ∧ (t.slot p).serviceCmd = some h) ∧
    ((s.slot p).entering = false → s.domOn d = false →
      ∃ t, exec (.cardServiceRestart h p) s = .next t ∧ carried t h ∧ (t.slot p).entering = true ∧ (t.slot p).serviceCmd = some h)) ∧
  (s.barred = false → p < 16 ∨ p = 19 → s.inService (partEntry p) = true → (s.slot p).standby = none →
    ∃ t, exec (.cardServiceUpdate h p) s = .next t ∧ carried t h ∧ (t.slot p).standby = some (s.updateImage.fwOf p) ∧
      (t.slot p).serviceCmd = some h ∧ t = { s with hp := t.hp, hub := t.hub }) ∧
  (s.barred = false → p < 30 → s.domOn p = true → s.needsDomain p = true →
    ∃ t, exec (.domainOff h p) s = .next t ∧ settled t h ∧ posts s t h .modeForbids) ∧
  (s.barred = false → p < 30 → s.needsDomain p = false → ∃ t, exec (.domainOff h p) s = .next t ∧ settled t h ∧ t.domOn p = false) ∧
  (s.barred = false → p < 30 → s.domOn p = true → ∃ t, exec (.domainOn h p) s = .next t ∧ settled t h ∧ posts s t h .ok) ∧
  (s.barred = false → p < 30 → s.domOn p = false → ∃ t, exec (.domainOn h p) s = .next t ∧ carried t h ∧ t.waitsFor 1 p = true ∧
    t.pw.domCmd.get none p = some h ∧ t = { s with hp := t.hp, pw := t.pw })

/-- The reference classes (R35 to R41, R44, R45): a class that loses its criteria is no longer qualified and its offset reads 0, a class
that has met them for 10 s qualifies, a slew ends LOCKED behind a lock-out, and holdover shows its worst-case error.
Where the spec leaves a point of this open, the model's reading is log entries 39, 40, 130, 131, 132 and 133. -/
def Obligations.ReferenceMachine : Prop := ∀ s : State,
  (∀ k, k < 3 → s.qualified k = false → ∃ t, exec (.refLost k) s = .next t ∧ t.qualified k = false ∧ t.rd (Reg.TB_REF_OFS_OFS k) = 0 ∧
    t.tb.qualSince.get 0 k = 0 ∧ t = { s with regs := t.regs, tb := t.tb } ∧
    onlyRegs s t [Reg.TB_STATE_QUAL, Reg.TB_STATE_QUALIFYING, Reg.TB_REF_OFS_OFS k]) ∧
  (∀ k, k < 3 → s.qualified k = true → s.tbState = tbLOCKED → s.tbRef ≠ k → (k = clsLINK → s.leads = true) →
    ∃ t, exec (.refLost k) s = .next t ∧ t.qualified k = false ∧ t.rd (Reg.TB_REF_OFS_OFS k) = 0 ∧ barks s t 2 0x0202 ∧
    t = { s with regs := t.regs, tb := t.tb, bq := t.bq } ∧ onlyRegs s t [Reg.TB_STATE_QUAL, Reg.TB_STATE_QUALIFYING, Reg.TB_REF_OFS_OFS k]) ∧
  (∀ k, k < 2 → s.qualified k = true → s.tbState = tbLOCKED → s.tbRef = k → (∀ j, j < 3 → j ≠ k → s.qualified j = false) →
    ∃ t, exec (.refLost k) s = .next t ∧ t.qualified k = false ∧ t.tbRef = clsLOCAL ∧
    t.tbState = (if s.trainHours = 0 then tbFREE else tbHOLDOVER) ∧ lastBark t 2 (if s.trainHours = 0 then 0x0206 else 0x0205)) ∧
  (∀ k ofs since, k < 3 → s.tb.qualSince.get 0 k = since + 1 → s.elapsed since (10 * cclkSec) = true → s.classOpen k = true →
    s.tb.oven = true → s.qualified k = false → s.refMeets k = true → s.tbState = tbACQUIRE →
    ∃ t, exec (.refQualified k ofs) s = .next t ∧ t.qualified k = true ∧ t.todValid = true ∧ t.tb.stepTo = some k ∧ barks s t 2 0x0201 ∧
    t.tb.qualSince.get 0 k = 0 ∧ (-2 ^ 31 ≤ ofs → ofs < 2 ^ 31 → t.refOfs k = ofs) ∧ t = { s with regs := t.regs, tb := t.tb, bq := t.bq } ∧
    onlyRegs s t [Reg.TB_STATE_QUAL, Reg.TB_STATE_QUALIFYING, Reg.TB_REF_OFS_OFS k, Reg.TB_STATE_TOD_VALID]) ∧
  (∀ k ofs since, k < 3 → s.tb.qualSince.get 0 k = since + 1 → s.elapsed since (10 * cclkSec) = true → s.classOpen k = true →
    s.tb.oven = true → s.qualified k = false → s.refMeets k = true → s.tbState = tbLOCKED → s.inSlew ofs = false → s.tb.disagreed.contains k = false →
    ∃ t, exec (.refQualified k ofs) s = .next t ∧ t.qualified k = false ∧ t.tb.disagreed.contains k = true ∧ barks s t 2 0x0207) ∧
  (s.tbState = tbSWITCHING → s.tb.slewEnd ≤ s.run → ∃ t, exec .switchDone s = .next t ∧ t.tbState = tbLOCKED ∧
    t.tbRef = s.rd Reg.TB_STATE_TARGET % 4 ∧ t.flag Reg.TB_STATE_LOCKOUT = true ∧ t.tb.lockEnd = s.run + 10 * cclkSec ∧
    t.rd Reg.TB_HOLD_EST_EST = 0 ∧ barks s t 2 0x0204 ∧ t = { s with regs := t.regs, tb := t.tb, bq := t.bq } ∧
    onlyRegs s t [Reg.TB_STATE_STATE, Reg.TB_STATE_REF, Reg.TB_STATE_TARGET, Reg.TB_STATE_LOCKOUT, Reg.TB_HOLD_EST_EST]) ∧
  (s.flag Reg.TB_STATE_LOCKOUT = true → s.tb.lockEnd ≤ s.run → s.tbState ≠ tbLOCKED → ∃ t, exec .lockoutEnd s = .next t ∧
    t.flag Reg.TB_STATE_LOCKOUT = false ∧ t = { s with regs := t.regs } ∧ onlyRegs s t [Reg.TB_STATE_LOCKOUT]) ∧
  (∃ t, exec .oscOvenStable s = .next t ∧ t = { s with tb := { s.tb with oven := true } }) ∧
  (∀ cyc ofs, (cyc < 9999999 ∨ 10000001 < cyc) → s.qualified clsEXT = false →
    ∃ t, exec (.ppsInEdge cyc ofs) s = .next t ∧ t.qualified clsEXT = false ∧ t.tb.qualSince.get 0 clsEXT = 0) ∧
  (∀ cyc ofs, 9999999 ≤ cyc → cyc ≤ 10000001 → s.qualified clsEXT = false → s.classOpen clsEXT = true → s.tb.oven = true → s.todValid = true →
    s.tb.qualSince.get 0 clsEXT = 0 → ∃ t, exec (.ppsInEdge cyc ofs) s = .next t ∧ t.tb.qualSince.get 0 clsEXT = s.run + 1 ∧
    t.tb.ppsLast = some s.run ∧ bit (t.rd Reg.TB_STATE_QUALIFYING) clsEXT = true ∧ t = { s with regs := t.regs, tb := t.tb } ∧
    onlyRegs s t [Reg.TB_STATE_QUALIFYING]) ∧
  (∀ cyc (m : Int), 9999999 ≤ cyc → cyc ≤ 10000001 → s.qualified clsEXT = true → s.tbState = tbLOCKED → s.tbRef = clsPTP →
    s.rdS Reg.TB_EXT_DELAY_DELAY = 1000 * m → ∀ ofs : Int, -2 ^ 31 ≤ ofs - 256 * m → ofs - 256 * m < 2 ^ 31 →
    ∃ t, exec (.ppsInEdge cyc ofs) s = .next t ∧ t.refOfs clsEXT = ofs - 256 * m ∧ t.tb.ppsLast = some s.run ∧
    onlyRegs s t [Reg.TB_REF_OFS_OFS clsEXT] ∧ t = { s with regs := t.regs, tb := t.tb }) ∧
  (∀ udp domain cls ofs, (udp ≠ s.flag Reg.TB_PTP_CFG_TRANSPORT ∨ domain ≠ s.rd Reg.TB_PTP_CFG_DOMAIN) → ∀ type vlan,
    ∃ t, exec (.ptpMessage type udp domain vlan cls ofs) s = .next t ∧ t = s) ∧
  (∀ cls ofs, cls = 6 ∨ cls = 7 → ∃ t, exec (.ptpMessage 0 (s.flag Reg.TB_PTP_CFG_TRANSPORT) (s.rd Reg.TB_PTP_CFG_DOMAIN) s.ptpVlan cls ofs) s =
    .next t ∧ t = { s with tb := { s.tb with ptpMaster := true } }) ∧
  (∀ vlan type cls ofs, vlan ≠ s.ptpVlan → ∃ t, exec (.ptpMessage type (s.flag Reg.TB_PTP_CFG_TRANSPORT) (s.rd Reg.TB_PTP_CFG_DOMAIN) vlan cls ofs) s =
    .next t ∧ t = s) ∧
  (∀ type cls, type = 1 ∨ type = 2 → s.qualified clsPTP = false → s.tb.ptpMaster = true → s.tb.qualSince.get 0 clsPTP = 0 →
    s.classOpen clsPTP = true → s.tb.oven = true →
    ∃ t, exec (.ptpMessage type (s.flag Reg.TB_PTP_CFG_TRANSPORT) (s.rd Reg.TB_PTP_CFG_DOMAIN) s.ptpVlan cls none) s = .next t ∧
    t.tb.ptpSync = s.tb.ptpSync + (if type = 1 then 1 else 0) ∧ t.tb.ptpDelay = s.tb.ptpDelay + (if type = 2 then 1 else 0) ∧
    t.tb.qualSince.get 0 clsPTP = s.run + 1 ∧ onlyRegs s t [Reg.TB_STATE_QUALIFYING]) ∧
  (∀ n, s.tbState = tbHOLDOVER → (s.run - s.tb.holdSince) / cclkSec = n → holdBound n ≤ 1000 → 24 ≤ s.rd Reg.TB_HOLD_EST_TRAIN →
    1000 ≤ s.rd Reg.TB_HOLD_LIMIT → ∃ t, exec .holdEstUpdate s = .next t ∧ t.rd Reg.TB_HOLD_EST_EST = holdBound n ∧ t.tbState = tbHOLDOVER ∧
      t = { s with regs := t.regs } ∧ onlyRegs s t [Reg.TB_HOLD_EST_EST]) ∧
  (s.tbState = tbHOLDOVER → (s.run - s.tb.holdSince) / cclkSec = 86400 → s.rd Reg.TB_HOLD_LIMIT < 65536 →
    ∃ t, exec .holdEstUpdate s = .next t ∧ t.tbState = tbFREE ∧ t.tbRef = clsLOCAL ∧ t.rd Reg.TB_HOLD_EST_EST = 0 ∧ barks s t 2 0x0206) ∧
  (s.flag Reg.TB_STATE_LOCKOUT = true → s.tb.lockEnd ≤ s.run → s.tbState = tbLOCKED → s.tbRef = clsPTP → s.best = some clsEXT →
    ∃ t, exec .lockoutEnd s = .next t ∧ t.flag Reg.TB_STATE_LOCKOUT = false ∧ t.tbState = tbSWITCHING ∧ t.rd Reg.TB_STATE_TARGET = clsEXT ∧
    t.tb.slewEnd = s.run + cclkSec ∧ barks s t 2 0x0203)

/-- Steps of AT, the time of day and the scheduler (R36, R43, R48, R51, R55, R413): what changes the time, what fires when it is due,
and the snapshot that one read latches.
Where the spec leaves a point of this open, the model's reading is log entries 42, 43, 46, 129 and 148. -/
def Obligations.TimeAndScheduler : Prop := ∀ s : State,
  (∀ sec k, s.tb.stepTo = some k → ∃ t, exec (.timeStep sec) s = .next t ∧ t.tb.stepTo = none ∧ t.tb.trainSince = (if k ≤ 1 then some t.run else none) ∧
    t.tbState = tbLOCKED ∧ (k < 4 → t.tbRef = k) ∧ t.rd Reg.TB_HOLD_EST_EST = 0) ∧
  (∀ sec k, s.tb.stepTo = some k → k < 4 → s.openStreams = [] → s.tb.sched = [] → s.domOn 16 = false → s.domOn 17 = false → ∃ t, exec (.timeStep sec) s = .next t ∧
    t.now = sec * cclkSec ∧ t.tbState = tbLOCKED ∧ t.tbRef = k ∧ t.rd Reg.TB_HOLD_EST_EST = 0) ∧
  (s.flag Reg.TB_TOD_SET_ARM = true → s.tbState = tbACQUIRE ∨ s.tbState = tbFREE → s.rd Reg.TB_TOD_SET_SECONDS = s.now / cclkSec →
    ∃ t, exec .tbTodSet s = .next t ∧ t.todValid = true ∧ t.rd Reg.TB_TOD_SET_ARM = 0 ∧ t.now = s.now ∧ t = { s with regs := t.regs } ∧
      onlyRegs s t [Reg.TB_TOD_SET_ARM, Reg.TB_STATE_TOD_VALID]) ∧
  (s.flag Reg.TB_TOD_SET_ARM = true → s.tbState ≠ tbACQUIRE → s.tbState ≠ tbFREE → ∃ t, exec .tbTodSet s = .next t ∧
    t.rd Reg.TB_TOD_SET_ARM = 0 ∧ t = { s with regs := t.regs } ∧ onlyRegs s t [Reg.TB_TOD_SET_ARM]) ∧
  (∀ h q, s.tb.sched = [q] → q.act = .nop h → q.at_ ≤ s.now → byRing s h → carried s h →
    ∃ t, exec (.schedFire none) s = .next t ∧ t.tb.sched = [] ∧ settled t h ∧ posts s t h .ok ∧ t = { s with hp := t.hp, tb := t.tb }) ∧
  (∀ q, s.tb.sched = [q] → s.now < q.at_ → ∃ t, exec (.schedFire none) s = .next t ∧ t = s) ∧
  (∀ w o, w < 4 → bit s.fc.lines (4 + w) ≠ o → ∃ t, exec (.schedFire (some (.window w o))) s = .next t ∧ bit t.fc.lines (4 + w) = o ∧
    (∀ g, g < 16 → t.rd (Reg.FC_BLANK_STAT_LINES g) = setBit s.fc.lines (4 + w) o % 256)) ∧
  (∀ hub gen e, hub < 64 → gen < 64 → s.now ≤ e → s.tb.sched = [] → ∃ t, exec (.angleInstant hub gen e) s = .next t ∧
    (∃ q ∈ t.tb.sched, q.at_ = e ∧ q.act = .angleSlot hub gen) ∧ gen ∈ t.tb.remoteGens ∧ t = { s with tb := t.tb }) ∧
  (∃ t, exec .tbAtSnap s = .next t ∧ t.rd Reg.TB_AT_SNAP_SECONDS = (at96 s.now).sec % 2 ^ 48 ∧ t.rd Reg.TB_AT_SNAP_NS = (at96 s.now).ns % 2 ^ 32 ∧
    t.rd Reg.TB_AT_SNAP_FRAC = (at96 s.now).frac % 2 ^ 16 ∧ t.rd Reg.TB_AT_SNAP_BEAT = s.bn % 64000 ∧ t = { s with regs := t.regs } ∧
    onlyRegs s t [Reg.TB_AT_SNAP_SECONDS, Reg.TB_AT_SNAP_NS, Reg.TB_AT_SNAP_FRAC, Reg.TB_AT_SNAP_BEAT, Reg.TB_AT_SNAP_STATE])

/-- The companion clear bits (R392), of the hub, its engines and its cards: a write that is taken clears the counters whose bits are set, leaves
the others, and changes nothing else but the journal.
Where the spec leaves a point of this open, the model's reading is log entries 21 and 22. -/
def Obligations.CounterClears : Prop := ∀ (s : State) (src : WrSrc) (clr : Nat),
  (s.takes src .TB_CNT_CLR 0 0 false = true → ∃ t, exec (.tbCntClr src clr) s = .next t ∧ cleared s t tbCnts clr ∧ onlyRegs s t tbCnts ∧
    t = { s with regs := t.regs }) ∧
  (s.takes src .MT_CNT_CLR 0 0 false = true → ∃ t, exec (.mtCntClr src clr) s = .next t ∧ cleared s t mtCnts clr ∧ onlyRegs s t mtCnts ∧
    t = { s with regs := t.regs, kn := t.kn }) ∧
  (s.takes src .LE_CNT_CLR 0 0 false = true → ∃ t, exec (.leCntClr src clr) s = .next t ∧ cleared s t leCnts clr ∧ onlyRegs s t leCnts ∧
    t = { s with regs := t.regs, kn := t.kn }) ∧
  (s.takes src .DV_CNT_CLR 0 0 false = true → ∃ t, exec (.dvCntClr src clr) s = .next t ∧ cleared s t dvCnts clr ∧ onlyRegs s t dvCnts ∧
    t = { s with regs := t.regs, kn := t.kn }) ∧
  (s.takes src .AO_CNT_CLR 0 0 false = true → ∃ t, exec (.aoCntClr src clr) s = .next t ∧ cleared s t aoCnts clr ∧ onlyRegs s t aoCnts ∧
    t = { s with regs := t.regs, kn := t.kn }) ∧
  (s.takes src .PW_CNT_CLR 0 0 false = true → ∃ t, exec (.pwCntClr src clr) s = .next t ∧ cleared s t pwCnts clr ∧ onlyRegs s t pwCnts ∧
    t = { s with regs := t.regs }) ∧
  (s.takes .direct .HP_CNT_CLR 0 0 false = true → ∃ t, exec (.hpCntClr .direct clr) s = .next t ∧ cleared s t hpCnts clr ∧ onlyRegs s t hpCnts ∧
    t = { s with regs := t.regs }) ∧
  (s.takes src .BQ_CNT_CLR 0 0 false = true → ∃ t, exec (.bqCntClr src clr) s = .next t ∧
    cleared s t [Reg.BQ_LOST_LOST, Reg.BQ_FLUSHED_FLUSHED] clr ∧ onlyRegs s t [Reg.BQ_LOST_LOST, Reg.BQ_FLUSHED_FLUSHED] ∧
    t = { s with regs := t.regs, kn := t.kn }) ∧
  (s.takes src .LK_CNT_CLR 0 0 false = true → ∃ t, exec (.lkCntClr src clr) s = .next t ∧ cleared s t [Reg.LK_CNT_BREAKS] clr ∧
    onlyRegs s t [Reg.LK_CNT_BREAKS] ∧ t = { s with regs := t.regs }) ∧
  (s.takes src .KN_CNT_CLR 0 0 false = true → ∃ t, exec (.knCntClr src clr) s = .next t ∧ cleared s t knCnts clr ∧ onlyRegs s t knCnts ∧
    t = { s with regs := t.regs }) ∧
  (s.takes src .RS_CNT_CLR 0 0 false = true → ∃ t, exec (.rsCntClr src clr) s = .next t ∧
    cleared s t [Reg.RS_CNT_ECC_CORR, Reg.RS_CNT_ECC_UNCORR] clr ∧ onlyRegs s t [Reg.RS_CNT_ECC_CORR, Reg.RS_CNT_ECC_UNCORR] ∧
    t = { s with regs := t.regs, kn := t.kn }) ∧
  (s.takes src .OV_CNT_CLR 0 0 false = true → ∃ t, exec (.ovCntClr src clr) s = .next t ∧ cleared s t ovCnts clr ∧
    (bit clr 4 = true → ∀ l f, l < 8 → f ∈ laneCnts l → t.rd f = 0) ∧ (bit clr 4 = false → onlyRegs s t ovCnts) ∧ t = { s with regs := t.regs }) ∧
  (∀ f clr, f < 16 → s.takes src .FC_CNT_CLR f 0 false = true → ∃ t, exec (.fcCntClr src f clr) s = .next t ∧ cleared s t (fcCnts f) clr ∧
    (bit clr 4 = true → ∀ c, c < 32 → t.rd (Reg.FC_QRST_CNT_COUNT f c) = 0) ∧
    (bit clr 5 = true → ∀ g, g < 16 → t.rd (Reg.FC_BLANK_STAT_PACK_LATE g) = 0) ∧
    (bit clr 4 = false → bit clr 5 = false → onlyRegs s t (fcCnts f)) ∧ t = { s with regs := t.regs, kn := t.kn }) ∧
  (∀ f clr, f < 16 → s.takes src .FC_SPARE_CNT_CLR f 0 false = true → ∃ t, exec (.fcSpareCntClr src f clr) s = .next t ∧
    cleared s t (spareCnts f) clr ∧ onlyRegs s t (spareCnts f) ∧ t = { s with regs := t.regs, kn := t.kn }) ∧
  (∀ c, c < 32 → s.takes src .RDC_CTRL (c / 16) (c % 16) true = true → ∃ t, exec (.rdcCntClr src c) s = .next t ∧
    (∀ f ∈ rdcCnts c, t.rd f = 0) ∧ onlyRegs s t (rdcCnts c) ∧ t = { s with regs := t.regs, kn := t.kn }) ∧
  (∀ i, i < 16 → s.takes src .PFI_CTRL (i / 8) (i % 8) true = true → ∃ t, exec (.pfiCntClr src i) s = .next t ∧
    (∀ f ∈ pfiCnts i, t.rd f = 0) ∧ onlyRegs s t (pfiCnts i) ∧ t = { s with regs := t.regs, kn := t.kn }) ∧
  (∀ e, e < 16 → s.takes src .EE_CTRL (e / 8) (e % 8) true = true → ∃ t, exec (.eeCntClr src e) s = .next t ∧
    t.rd (Reg.EE_CNT_OVERRUNS e) = 0 ∧ t.rd (Reg.EE_CNT_RESUMES e) = 0 ∧ onlyRegs s t [Reg.EE_CNT_OVERRUNS e, Reg.EE_CNT_RESUMES e] ∧
    t = { s with regs := t.regs, kn := t.kn }) ∧
  (∀ p, p < 8 → s.takes src .PFI_PB_CFG (p / 4) (p % 4) true = true → ∃ t, exec (.pbMissedClr src p) s = .next t ∧
    t.rd (Reg.PFI_PB_STAT_MISSED p) = 0 ∧ onlyRegs s t [Reg.PFI_PB_STAT_MISSED p] ∧ t = { s with regs := t.regs, kn := t.kn })

/-- Commits of a field card (R57 to R64): APPLY validates the shadow and either lets it wait for its boundary or rejects it with the first
failing item; REVERT takes the active configuration back; the three boundaries of a commit break, make and release.
Where the spec leaves a point of this open, the model's reading is log entries 48 and 49. -/
def Obligations.FieldCommits : Prop := ∀ (s : State) (f : Nat), f < 16 →
  (∀ src, s.takes src .FC_APPLY f 0 true = true →
    (cfgFault (s.shadow f) (s.stageVariant f) f = none → ∃ t, exec (.fcApply src f) s = .next t ∧
      (t.card f).due.getLast?.map (fun c => (c.cfg, c.at_, c.scheduled, c.full, c.restart)) =
        some (s.shadow f, s.boundary (decide (src = .cfg)), decide (src = .cfg), false, (s.card f).reverted && !decide (src = .cfg)) ∧
      (t.card f).due.length = (s.card f).due.length + 1 ∧ (src = .direct → (t.card f).due.take (s.card f).due.length = (s.card f).due) ∧
      t = { s with fc := t.fc, kn := t.kn }) ∧
    (∀ k i code, cfgFault (s.shadow f) (s.stageVariant f) f = some (k, i, code) → k < 4 → i < 64 → code < 16 →
      ∃ t, exec (.fcApply src f) s = .next t ∧ t.flag (Reg.FC_CARD_STAT_CFG_REJECT f) = true ∧ t.rd (Reg.FC_CFG_STAT_REASON f) = code ∧
        t.rd (Reg.FC_CFG_STAT_ITEM f) = i ∧ t.rd (Reg.FC_CFG_STAT_ITEM_KIND f) = k ∧ barks s t (0x10 + f) ((0x10 + f) * 256 + 2) ∧
        t.card f = s.card f ∧ t = { s with regs := t.regs, bq := t.bq, kn := t.kn })) ∧
  (∀ src, s.takes src .FC_APPLY f 0 true = true → ∃ t, exec (.fcRevert src f) s = .next t ∧ (t.card f).reverted = true ∧
    (∀ g : Fld, stagedKey f g.key = false → t.rd g = s.rd g) ∧ t = { s with regs := t.regs, fc := t.fc, kn := t.kn }) ∧
  (∀ c, nextDue s.run (s.card f).due = some c → (s.card f).phase ≠ 0 → ∃ t, exec (.commitBreak f) s = .next t ∧
    t.flag (Reg.FC_CFG_STAT_QUEUED f) = true ∧ t = { s with regs := t.regs } ∧ onlyRegs s t [Reg.FC_CFG_STAT_QUEUED f]) ∧
  (nextDue s.run (s.card f).due = none → ∃ t, exec (.commitBreak f) s = .next t ∧ t.flag (Reg.FC_CFG_STAT_QUEUED f) = false ∧
    t = { s with regs := t.regs } ∧ onlyRegs s t [Reg.FC_CFG_STAT_QUEUED f]) ∧
  (∀ c, (s.card f).due = [c] → c.at_ ≤ s.run → c.full = false → (s.card f).phase = 0 → (s.slot f).standby = none → s.verifying f = none →
    ∃ t, exec (.commitBreak f) s = .next t ∧ t.flag (Reg.FC_CARD_STAT_CFG_APPLIED f) = true ∧ t.flag (Reg.FC_CFG_STAT_QUEUED f) = false ∧
    (t.card f).due = [] ∧ t.rd (Reg.FC_CNT_COMMITS f) = satU 32 (s.rd (Reg.FC_CNT_COMMITS f) + 1) ∧
    barks s t (0x10 + f) ((0x10 + f) * 256 + 1) ∧ t = { s with regs := t.regs, fc := t.fc, bq := t.bq }) ∧
  ((s.card f).phase = 1 → ∃ t, exec (.commitMake f) s = .next t ∧ (t.card f).phase = 2 ∧ (t.card f).openPins = [] ∧ t = { s with fc := t.fc }) ∧
  ((s.card f).phase = 2 → s.flag (Reg.FC_CFG_STAT_QUEUED f) = false → ∃ t, exec (.commitRelease f) s = .next t ∧ (t.card f).phase = 0 ∧
    (t.card f).affected = [] ∧ (t.card f).zeroed = [] ∧ t.rd (Reg.FC_CFG_STAT_SWITCHING f) = 0 ∧ t = { s with regs := t.regs, fc := t.fc })

/-- Charge resets (R65, R69 to R71): a reset holds its channel from its boundary, opens its switch one beat on, and releases with the charge
carried; CARRY_CLR clears the carry. An instrumentation stage has none.
Where the spec leaves a point of this open, the model's reading is log entry 50. -/
def Obligations.ChargeResets : Prop := ∀ (s : State) (f c : Nat), f < 16 → c < 32 →
  (s.takes .direct .FC_CH_CTRL f c true = true → s.act (Reg.FC_CH_CFG_STAGE f c) = 1 → ∃ t, exec (.qreset .direct f c) s = .next t ∧
    (t.chan f c).rstDue = some (beatNext s.now) ∧ (t.chan f c).causes = (s.chan f c).causes ∧ t = { s with fc := t.fc, kn := t.kn }) ∧
  (s.takes .cfg .FC_CH_CTRL f c true = true → s.act (Reg.FC_CH_CFG_STAGE f c) = 1 → (s.chan f c).rst = 0 → s.now % cclkBeat = 0 →
    ∃ t, exec (.qreset .cfg f c) s = .next t ∧ (t.chan f c).rst = 1 ∧ bit (t.chan f c).causes causeRESET = true ∧
      t.flag (Reg.FC_CH_STAT_QRST_BUSY f c) = true ∧ t.rd (Reg.FC_QRST_CNT_COUNT f c) = satU 32 (s.rd (Reg.FC_QRST_CNT_COUNT f c) + 1) ∧
      onlyRegs s t [Reg.FC_CH_STAT_QRST_BUSY f c, Reg.FC_QRST_CNT_COUNT f c] ∧ t = { s with regs := t.regs, fc := t.fc, kn := t.kn }) ∧
  (∀ src, s.takes src .FC_CH_CTRL f c true = true → s.act (Reg.FC_CH_CFG_STAGE f c) ≠ 1 → ∃ t, exec (.qreset src f c) s = .next t ∧
    t = { s with kn := t.kn }) ∧
  (∀ q, s.act (Reg.FC_CH_CFG_STAGE f c) = 1 → s.act (Reg.FC_CH_CFG_AUTO_RST f c) = 1 → 900000 ≤ Int.natAbs q → (s.chan f c).rst = 0 →
    (s.chan f c).rstDue = none → s.fcUp f = true →
    (s.now % cclkBeat = 0 → ∃ t, exec (.qresetAuto f c q) s = .next t ∧ (t.chan f c).rst = 1 ∧ bit (t.chan f c).causes causeRESET = true ∧
      t.flag (Reg.FC_CH_STAT_QRST_BUSY f c) = true ∧ t.rd (Reg.FC_QRST_CNT_COUNT f c) = satU 32 (s.rd (Reg.FC_QRST_CNT_COUNT f c) + 1) ∧
      t.rd (Reg.FC_CNT_QRST_AUTO f) = satU 32 (s.rd (Reg.FC_CNT_QRST_AUTO f) + 1) ∧ t = { s with regs := t.regs, fc := t.fc, bq := t.bq } ∧
      onlyRegs s t [Reg.FC_CH_STAT_QRST_BUSY f c, Reg.FC_QRST_CNT_COUNT f c, Reg.FC_CNT_QRST_AUTO f]) ∧
    (s.now % cclkBeat ≠ 0 → ∃ t, exec (.qresetAuto f c q) s = .next t ∧ (t.chan f c).rstDue = some (beatCeil s.now) ∧ (t.chan f c).rst = 0 ∧
      t.rd (Reg.FC_CNT_QRST_AUTO f) = satU 32 (s.rd (Reg.FC_CNT_QRST_AUTO f) + 1) ∧ t = { s with regs := t.regs, fc := t.fc, bq := t.bq } ∧
      onlyRegs s t [Reg.FC_CNT_QRST_AUTO f])) ∧
  (∀ q, Int.natAbs q < 900000 → ∃ t, exec (.qresetAuto f c q) s = .next t ∧ t = s) ∧
  ((s.chan f c).rst = 1 → ∃ t, exec (.qresetOpen f c) s = .next t ∧ (t.chan f c).rst = 2 ∧ (t.chan f c).causes = (s.chan f c).causes ∧
    t = { s with fc := t.fc }) ∧
  (∀ before after, (s.chan f c).rst = 2 → (s.chan f c).rstAgain = false → ∃ t, exec (.qresetRelease f c before after) s = .next t ∧
    (t.chan f c).rst = 0 ∧ bit (t.chan f c).causes causeRESET = false ∧ t.flag (Reg.FC_CH_STAT_QRST_BUSY f c) = false ∧
    (s.act (Reg.FC_CH_CFG_CARRY f c) ≠ 1 → (t.chan f c).carry = (s.chan f c).carry) ∧
    (s.act (Reg.FC_CH_CFG_CARRY f c) = 1 → ∃ lim : Int, lim = ((1000 * qrangePc (s.act (Reg.FC_CH_CFG_QRANGE f c)) * realOne : Nat) : Int) ∧
      (t.chan f c).carry = clamp (-lim) lim (fadd (s.chan f c).carry (fadd before (-after)))) ∧
    t = { s with regs := t.regs, fc := t.fc } ∧ onlyRegs s t [Reg.FC_CH_STAT_QRST_BUSY f c]) ∧
  (∀ before after, (s.chan f c).rst = 2 → (s.chan f c).rstAgain = true → ∃ t, exec (.qresetRelease f c before after) s = .next t ∧
    (t.chan f c).rst = 1 ∧ bit (t.chan f c).causes causeRESET = true ∧ t.flag (Reg.FC_CH_STAT_QRST_BUSY f c) = true ∧
    t.rd (Reg.FC_QRST_CNT_COUNT f c) = satU 32 (s.rd (Reg.FC_QRST_CNT_COUNT f c) + 1)) ∧
  (∀ src, s.takes src .FC_CH_CTRL f c true = true → ∃ t, exec (.carryClr src f c) s = .next t ∧ (t.chan f c).carry = 0 ∧
    (t.chan f c).carryAt = s.now ∧ (t.chan f c).carryOld = (s.chan f c).carry ∧ t = { s with fc := t.fc, kn := t.kn })

/-- Excitation sources (R75 to R77, R82, R387): limiting, compliance, the sense fault, the thermal shutdown, and the swap of a source.
Where the spec leaves a point of this open, the model's reading is log entries 51, 54 and 134. -/
def Obligations.Excitation : Prop := ∀ (s : State) (f x : Nat), f < 16 → x < 8 →
  (s.srcOn f x = true → s.flag (Reg.FC_EXC_STAT_LIMITING f x) = false → s.act (Reg.FC_EXC_CFG_MODE f x) = 3 →
    ∃ t, exec (.excLimit f x) s = .next t ∧ t.flag (Reg.FC_EXC_STAT_LIMITING f x) = true ∧ t.flag (Reg.FC_EXC_STAT_COMPLIANCE f x) = true ∧
      barks s t (0x10 + f) ((0x10 + f) * 256 + 0x31) ∧ t = { s with regs := t.regs, fc := t.fc, bq := t.bq } ∧
      onlyRegs s t [Reg.FC_EXC_STAT_LIMITING f x, Reg.FC_EXC_STAT_COMPLIANCE f x]) ∧
  (s.srcOn f x = true → s.flag (Reg.FC_EXC_STAT_LIMITING f x) = false → s.act (Reg.FC_EXC_CFG_MODE f x) ≠ 3 →
    ∃ t, exec (.excLimit f x) s = .next t ∧ t.flag (Reg.FC_EXC_STAT_LIMITING f x) = true ∧ t.flag (Reg.FC_EXC_STAT_ILIM f x) = true ∧
      barks s t (0x10 + f) ((0x10 + f) * 256 + 0x30) ∧ t = { s with regs := t.regs, fc := t.fc, bq := t.bq } ∧
      onlyRegs s t [Reg.FC_EXC_STAT_LIMITING f x, Reg.FC_EXC_STAT_ILIM f x]) ∧
  (∃ t, exec (.excLimitEnd f x) s = .next t ∧ t.flag (Reg.FC_EXC_STAT_LIMITING f x) = false ∧
    (t.card f).bad.get [] x = closeSpan s.now ((s.card f).bad.get [] x) ∧ t = { s with regs := t.regs, fc := t.fc } ∧
    onlyRegs s t [Reg.FC_EXC_STAT_LIMITING f x]) ∧
  (s.srcOn f x = true → s.act (Reg.FC_EXC_CFG_SENSE_EN f x) = 1 → s.flag (Reg.FC_EXC_STAT_SENSE_LOCAL f x) = false →
    ∃ t, exec (.excSenseFault f x) s = .next t ∧ t.flag (Reg.FC_EXC_STAT_SENSE_LOCAL f x) = true ∧ t.flag (Reg.FC_EXC_STAT_SENSE_FAULT f x) = true ∧
      barks s t (0x10 + f) ((0x10 + f) * 256 + 0x32) ∧ t = { s with regs := t.regs, bq := t.bq } ∧
      onlyRegs s t [Reg.FC_EXC_STAT_SENSE_LOCAL f x, Reg.FC_EXC_STAT_SENSE_FAULT f x]) ∧
  (s.srcOn f x = true → ∃ t, exec (.excThermal f x) s = .next t ∧ t.flag (Reg.FC_EXC_STAT_SHUTDOWN f x) = true ∧
    t.flag (Reg.FC_EXC_STAT_THERMAL f x) = true ∧ t.flag (Reg.FC_EXC_STAT_ACTIVE f x) = false ∧ t.flag (Reg.FC_EXC_STAT_LIMITING f x) = false ∧
    barks s t (0x10 + f) ((0x10 + f) * 256 + 0x33) ∧ t = { s with regs := t.regs, fc := t.fc, bq := t.bq } ∧
    onlyRegs s t [Reg.FC_EXC_STAT_SHUTDOWN f x, Reg.FC_EXC_STAT_THERMAL f x, Reg.FC_EXC_STAT_ACTIVE f x, Reg.FC_EXC_STAT_LIMITING f x]) ∧
  (s.act (Reg.FC_EXC_CFG_SWAP f x) ≠ 0 → s.act (Reg.FC_EXC_CFG_MODE f x) = 3 → s.bn % 2 ^ s.act (Reg.FC_EXC_CFG_SWAP_HALF f x) = 0 →
    ∃ t, exec (.leadSwap f x []) s = .next t ∧
      t.rd (Reg.FC_EXC_STAT_SWAP_PHASE f x) = b2n (!bit s.bn (s.act (Reg.FC_EXC_CFG_SWAP_HALF f x))) ∧ t = { s with regs := t.regs } ∧
      onlyRegs s t [Reg.FC_EXC_STAT_SWAP_PHASE f x]) ∧
  (∀ c bs q, c < 32 → s.act (Reg.FC_EXC_CFG_SWAP f x) ≠ 0 → s.act (Reg.FC_EXC_CFG_MODE f x) = 3 →
    s.bn % 2 ^ s.act (Reg.FC_EXC_CFG_SWAP_HALF f x) = 0 → s.act (Reg.FC_CH_CFG_LEAD f c) ≠ 0 → s.act (Reg.FC_CH_CFG_LEAD_SRC f c) = x →
    (s.leadMeans f c (s.now - 2 ^ s.act (Reg.FC_EXC_CFG_SWAP_HALF f x) * cclkBeat) bs (s.act (Reg.FC_EXC_CFG_SWAP_SETTLE f x))).1 = some q →
    (bit s.bn (s.act (Reg.FC_EXC_CFG_SWAP_HALF f x)) = false → ∃ t, exec (.leadSwap f x [(c, bs)]) s = .next t ∧
      (t.chan f c).leadV = q.1 ∧ (t.chan f c).leadI = q.2 ∧ (t.chan f c).leadHalf = true ∧ t = { s with regs := t.regs, fc := t.fc } ∧
      onlyRegs s t [Reg.FC_EXC_STAT_SWAP_PHASE f x]) ∧
    (bit s.bn (s.act (Reg.FC_EXC_CFG_SWAP_HALF f x)) = true → (s.chan f c).leadHalf = true → fadd (s.chan f c).leadI q.2 ≠ 0 →
      ∃ t, exec (.leadSwap f x [(c, bs)]) s = .next t ∧ (t.chan f c).leadHalf = false ∧
      ((t.chan f c).rVals.head?.map (fun r => r.1)) = some (fdiv (fadd (s.chan f c).leadV (if s.act (Reg.FC_CH_CFG_LEAD f c) = 1 then -q.1 else q.1))
        (fadd (s.chan f c).leadI q.2)) ∧ t = { s with regs := t.regs, fc := t.fc } ∧ onlyRegs s t [Reg.FC_EXC_STAT_SWAP_PHASE f x]))

/-- Blanking, common mode and overrange (R67, R86 to R95).
Where the spec leaves a point of this open, the model's reading is log entries 52 and 53. -/
def Obligations.FieldMonitors : Prop := ∀ (s : State) (f c : Nat), f < 16 → c < 32 →
  (∀ line on, line < 2 → bit s.fc.lines line ≠ on → ∃ t, exec (.blankEdge line on) s = .next t ∧ bit t.fc.lines line = on ∧
    (∀ g, g < 16 → t.rd (Reg.FC_BLANK_STAT_LINES g) = setBit s.fc.lines line on % 256)) ∧
  (∀ line on e, line < 2 → s.now < e + 61440 → ∃ t, exec (.packBlankEdge line on e) s = .next t ∧
    t = { s with fc := { s.fc with packDue := s.fc.packDue ++ [(e + 61440, line, on)] } }) ∧
  (∀ line on e, line < 2 → e + 61440 ≤ s.now → bit s.fc.lines (2 + line) ≠ on → ∃ t, exec (.packBlankEdge line on e) s = .next t ∧
    bit t.fc.lines (2 + line) = on ∧ (∀ g, g < 16 → t.rd (Reg.FC_BLANK_STAT_LINES g) = setBit s.fc.lines (2 + line) on % 256)) ∧
  (∀ pos neg shield pos' neg' shield', (s.chan f c).causes = 0 → s.flag (Reg.FC_CH_STAT_CM_FAULT f c) = false → s.fcUp f = true →
    pos + neg < 2 * signed 16 (s.act (Reg.FC_CH_CFG_CM_LO f c)) →
    ∃ t, exec (.cmFault f c pos neg shield pos' neg' shield') s = .next t ∧ t.flag (Reg.FC_CH_STAT_CM_FAULT f c) = true ∧
      t.flag (Reg.FC_CH_STAT_CM_SEEN f c) = true ∧ t.rd (Reg.FC_CNT_CM_EVENTS f) = satU 32 (s.rd (Reg.FC_CNT_CM_EVENTS f) + 1) ∧
      t.rd (Reg.FC_CH_STAT_CM_CLASS f c) = cmClass s f c pos neg shield pos' neg' shield' % 8 ∧ barks s t (0x10 + f) ((0x10 + f) * 256 + 0x10) ∧
      t = { s with regs := t.regs, fc := t.fc, bq := t.bq }) ∧
  (∀ pos neg, s.flag (Reg.FC_CH_STAT_CM_FAULT f c) = true → ∃ t, exec (.cmClear f c pos neg) s = .next t ∧
    t.flag (Reg.FC_CH_STAT_CM_FAULT f c) = false ∧ t.rd (Reg.FC_CH_STAT_CM_CLASS f c) = 0 ∧ barks s t (0x10 + f) ((0x10 + f) * 256 + 0x11) ∧
    t = { s with regs := t.regs, fc := t.fc, bq := t.bq } ∧
    onlyRegs s t [Reg.FC_CH_STAT_CM_FAULT f c, Reg.FC_CH_STAT_CM_CLASS f c, Reg.FC_CM_VAL_POS_MV f c, Reg.FC_CM_VAL_NEG_MV f c]) ∧
  ((s.chan f c).causes = 0 → s.flag (Reg.FC_CH_STAT_OVERRANGE f c) = false → ∃ t, exec (.overrange f c true) s = .next t ∧
    t.flag (Reg.FC_CH_STAT_OVERRANGE f c) = true ∧ t.flag (Reg.FC_CH_STAT_OR_SEEN f c) = true ∧
    t.rd (Reg.FC_CNT_OR_EVENTS f) = satU 32 (s.rd (Reg.FC_CNT_OR_EVENTS f) + 1) ∧ t = { s with regs := t.regs, fc := t.fc, bq := t.bq } ∧
    onlyRegs s t [Reg.FC_CH_STAT_OVERRANGE f c, Reg.FC_CH_STAT_OR_SEEN f c, Reg.FC_CNT_OR_EVENTS f]) ∧
  ((s.chan f c).causes = 0 → ∃ t, exec (.overrange f c false) s = .next t ∧ t.flag (Reg.FC_CH_STAT_OVERRANGE f c) = false ∧
    (t.chan f c).ovr = closeSpan s.now (s.chan f c).ovr ∧ t = { s with regs := t.regs, fc := t.fc } ∧ onlyRegs s t [Reg.FC_CH_STAT_OVERRANGE f c])

/-- The rotating spare (R105 to R121): a due turn starts once its power is granted, blocks are compared, a calibration is accepted or
repeated, a failed check takes the spare out, and FORCE and RESTORE choose the next turn.
Where the spec leaves a point of this open, the model's reading is log entries 55, 56 and 156. -/
def Obligations.SpareRotation : Prop := ∀ (s : State) (f : Nat), f < 16 →
  (∀ who due, s.spPhase f = spIDLE → s.maskedCh f = none → s.sampling = true → s.fcUp f = true → (s.spare f).refSince = none → s.flag (Reg.FC_SPARE_CTRL_EN f) = true →
    (s.spare f).cycleAt.isSome = true → s.nextTurn f = some (who, due) → due ≤ s.run →
    (s.hasGrant 1 (0x50 + f) = false → ∃ t, exec (.spareTurnStart f) s = .next t ∧ t.spPhase f = spWAIT ∧ t.waitsFor 1 (0x50 + f) = true ∧
      t = { s with regs := t.regs, pw := t.pw } ∧ onlyRegs s t [Reg.FC_SPARE_STAT_PHASE f]) ∧
    (s.hasGrant 1 (0x50 + f) = true → who = none → ∃ t, exec (.spareTurnStart f) s = .next t ∧ t.spPhase f = spSELF ∧
      t = { s with regs := t.regs, fc := t.fc } ∧ onlyRegs s t [Reg.FC_SPARE_STAT_PHASE f]) ∧
    (∀ c, s.hasGrant 1 (0x50 + f) = true → who = some c → c < 32 → (s.spare f).restore = false → ∃ t, exec (.spareTurnStart f) s = .next t ∧
      t.spPhase f = spFWD ∧ t.spCh f = c ∧ t = { s with regs := t.regs, fc := t.fc } ∧
      onlyRegs s t [Reg.FC_SPARE_STAT_PHASE f, Reg.FC_SPARE_STAT_CH f])) ∧
  (s.spPhase f = spPARKED → s.sampling = true → s.fcUp f = true → (s.spare f).refSince = none → (s.spare f).restore = true →
    (s.spare f).cycleAt.isSome = true → s.hasGrant 1 (0x50 + f) = true → ∃ t, exec (.spareTurnStart f) s = .next t ∧ t.spPhase f = spCAL ∧
      t.spCh f = s.rd (Reg.FC_SPARE_STAT_PARKED_CH f) ∧ (t.spare f).restoring = true ∧ t = { s with regs := t.regs, fc := t.fc } ∧
      onlyRegs s t [Reg.FC_SPARE_STAT_PHASE f, Reg.FC_SPARE_STAT_CH f]) ∧
  (∀ d m, s.spPhase f = spFWD ∨ s.spPhase f = spRET → s.blockReady f = true → s.blockTouched f (s.spCh f) = false →
    s.blockPasses f (s.spCh f) d m = true → (s.spare f).compared + 1 < s.spVerify f → ∃ t, exec (.spareVerifyBlock f d m false) s = .next t ∧
      (t.spare f).compared = (s.spare f).compared + 1 ∧ t = { s with fc := t.fc }) ∧
  (∀ d m, s.spPhase f = spFWD → s.blockReady f = true → s.blockTouched f (s.spCh f) = false → s.blockPasses f (s.spCh f) d m = true →
    s.spVerify f ≤ (s.spare f).compared + 1 → (s.card f).deferred = [] → ∃ t, exec (.spareVerifyBlock f d m false) s = .next t ∧
      t.spPhase f = spCAL ∧ t.flag (Reg.FC_CH_STAT_SUBST f (s.spCh f)) = true ∧
      (t.chan f (s.spCh f)).subst = openSpan s.now (s.chan f (s.spCh f)).subst ∧ t = { s with regs := t.regs, fc := t.fc } ∧
      onlyRegs s t [Reg.FC_SPARE_STAT_PHASE f, Reg.FC_CH_STAT_SUBST f (s.spCh f)]) ∧
  (∀ d m, s.spPhase f = spRET → s.blockReady f = true → s.blockTouched f (s.spCh f) = false → s.blockPasses f (s.spCh f) d m = true →
    s.spVerify f ≤ (s.spare f).compared + 1 → (s.card f).deferred = [] → (s.spare f).restoring = false →
    ∃ t, exec (.spareVerifyBlock f d m false) s = .next t ∧ t.flag (Reg.FC_CH_STAT_SUBST f (s.spCh f)) = false ∧
      (t.chan f (s.spCh f)).trial = none ∧ (∀ q, (s.chan f (s.spCh f)).trial = some q →
        (t.chan f (s.spCh f)).coefs.get {} (s.setting f (s.spCh f)) = q ∧ (t.chan f (s.spCh f)).calAt = s.run) ∧
      t = { s with regs := t.regs, fc := t.fc } ∧ onlyRegs s t [Reg.FC_CH_STAT_SUBST f (s.spCh f)]) ∧
  (∀ d m, s.spPhase f = spFWD → s.blockReady f = true → s.blockTouched f (s.spCh f) = false → s.blockPasses f (s.spCh f) d m = false →
    ∃ t, exec (.spareVerifyBlock f d m false) s = .next t ∧ t.spPhase f = spCHECK ∧
      t.rd (Reg.FC_SPARE_CNT_FWD_FAIL f) = satU 32 (s.rd (Reg.FC_SPARE_CNT_FWD_FAIL f) + 1) ∧ barks s t (0x10 + f) ((0x10 + f) * 256 + 0x51) ∧
      t = { s with regs := t.regs, fc := t.fc, bq := t.bq } ∧ onlyRegs s t [Reg.FC_SPARE_STAT_PHASE f, Reg.FC_SPARE_CNT_FWD_FAIL f]) ∧
  (∀ d m, s.spPhase f = spFWD ∨ s.spPhase f = spRET → s.blockReady f = true → (s.spare f).excluded + 1 < 4 * s.spVerify f →
    ∃ t, exec (.spareVerifyBlock f d m true) s = .next t ∧ (t.spare f).excluded = (s.spare f).excluded + 1 ∧ t = { s with fc := t.fc }) ∧
  (∀ z p n m c, c = s.spCh f → s.spPhase f = spCAL → s.phaseAged f (2 + 4 * s.calBeats f) = true → s.flag (Reg.FC_SPARE_STAT_REF_DRIFT f) = false →
    ∀ code, code = s.calVerdict f c (s.setting f c) ((s.chan f c).coefs.get {} (s.setting f c)) (s.spare f).calFault z p n m →
    (code = 0 → ∃ t, exec (.spareCalEnd f z p n m) s = .next t ∧ t.spPhase f = spRET ∧ (t.chan f c).trial = some (calCoef z p n) ∧
        (t.chan f c).coefs = (s.chan f c).coefs ∧ t = { s with regs := t.regs, fc := t.fc } ∧ onlyRegs s t [Reg.FC_SPARE_STAT_PHASE f]) ∧
    (code ≠ 0 → (s.spare f).calFails = 0 → ∃ t, exec (.spareCalEnd f z p n m) s = .next t ∧ t.spPhase f = spCAL ∧ (t.spare f).calFails = 1 ∧
        t.rd (Reg.FC_CONV_STAT_FAIL_CODE f c) = code ∧ (t.chan f c).trial = none ∧ barks s t (0x10 + f) ((0x10 + f) * 256 + 0x52) ∧
        t = { s with regs := t.regs, fc := t.fc, bq := t.bq } ∧ onlyRegs s t [Reg.FC_SPARE_STAT_PHASE f, Reg.FC_CONV_STAT_FAIL_CODE f c])) ∧
  (∀ z p, s.spPhase f = spCHECK → s.phaseAged f 2048 = true → (s.card f).deferred = [] →
    (checkPasses ((s.spare f).coefs.get {} (s.setting f (s.spCh f))) z p = true → ∃ t, exec (.spareCheckEnd f z p) s = .next t ∧
      t.spPhase f = spCAL ∧ t.flag (Reg.FC_CH_STAT_SUBST f (s.spCh f)) = true ∧ (s.now, some s.now) ∈ (t.chan f (s.spCh f)).held ∧
      t = { s with regs := t.regs, fc := t.fc } ∧ onlyRegs s t [Reg.FC_SPARE_STAT_PHASE f, Reg.FC_CH_STAT_SUBST f (s.spCh f)]) ∧
    (checkPasses ((s.spare f).coefs.get {} (s.setting f (s.spCh f))) z p = false → ∃ t, exec (.spareCheckEnd f z p) s = .next t ∧
      t.spPhase f = spOUT ∧ (t.spare f).out = true ∧ barks s t (0x10 + f) ((0x10 + f) * 256 + 0x54) ∧
      t = { s with regs := t.regs, fc := t.fc, pw := t.pw, bq := t.bq } ∧ onlyRegs s t [Reg.FC_SPARE_STAT_PHASE f])) ∧
  (∀ rs d, s.spPhase f = spSELF → s.phaseAged f ((s.spare f).selfSet.length * s.calBeats f) = true →
    (s.selfPasses f rs = true → ∃ t, exec (.spareSelfCalEnd f rs d) s = .next t ∧
      t.flag (Reg.FC_SPARE_STAT_REF_DRIFT f) = decide (20000 < Int.natAbs d) ∧
      t.rd (Reg.FC_SPARE_CNT_TURNS f) = satU 32 (s.rd (Reg.FC_SPARE_CNT_TURNS f) + 1) ∧
      (∀ n z p g m, rs = [(n, z, p, g, m)] → (s.spare f).selfSet = [n] → Int.natAbs d ≤ 20000 → (t.spare f).coefs.get {} n = calCoef z p g) ∧
      (20000 < Int.natAbs d → (t.spare f).coefs = (s.spare f).coefs)) ∧
    (s.selfPasses f rs = false → ∃ t, exec (.spareSelfCalEnd f rs d) s = .next t ∧ t.spPhase f = spOUT ∧ (t.spare f).out = true ∧
      lastBark t (0x10 + f) ((0x10 + f) * 256 + 0x54) ∧ t.flag (Reg.FC_SPARE_STAT_REF_DRIFT f) = decide (20000 < Int.natAbs d) ∧
      t = { s with regs := t.regs, fc := t.fc, pw := t.pw, bq := t.bq } ∧
      onlyRegs s t [Reg.FC_SPARE_STAT_PHASE f, Reg.FC_SPARE_STAT_REF_DRIFT f])) ∧
  (∀ src ch, ch < 32 → s.takes src .FC_SPARE_CTRL f 0 true = true → s.inRotation f ch = true → s.spPhase f ≠ spPARKED → s.spPhase f ≠ spOUT →
    ∃ t, exec (.spareForce src f ch) s = .next t ∧ (t.spare f).force = some ch ∧ t = { s with regs := t.regs, fc := t.fc, kn := t.kn } ∧
      onlyRegs s t [Reg.FC_SPARE_CTRL_FORCE_CH f]) ∧
  (∀ src ch, ch < 32 → s.takes src .FC_SPARE_CTRL f 0 true = true → s.spPhase f = spPARKED → s.rd (Reg.FC_SPARE_STAT_PARKED_CH f) = ch →
    ∃ t, exec (.spareRestore src f ch) s = .next t ∧ (t.spare f).restore = true ∧ t = { s with regs := t.regs, fc := t.fc, kn := t.kn } ∧
      onlyRegs s t [Reg.FC_SPARE_CTRL_FORCE_CH f])

/-- Converter faults and the recalibration of the references (R118, R119, R384).
Where the spec leaves a point of this open, the model's reading is log entries 123 and 157. -/
def Obligations.ConverterFaults : Prop := ∀ (s : State) (f : Nat), f < 16 →
  (∀ c, c < 32 → s.domOn f = true → s.flag (Reg.FC_CONV_STAT_MASKED f c) = true → ∃ t, exec (.convFault f c) s = .next t ∧ t = s) ∧
  (∀ c, c < 32 → s.domOn f = true → s.flag (Reg.FC_CONV_STAT_MASKED f c) = false → s.spPhase f = spCAL → s.spCh f = c →
    ∃ t, exec (.convFault f c) s = .next t ∧ (t.spare f).calFault = true ∧ t = { s with fc := t.fc }) ∧
  (∀ c, c < 32 → s.domOn f = true → s.flag (Reg.FC_CONV_STAT_MASKED f c) = false → (s.spPhase f = spCAL → s.spCh f ≠ c) →
    (s.maskedCh f).isSome = true ∨ s.spPhase f = spOUT →
    ∃ t, exec (.convFault f c) s = .next t ∧ (t.chan f c).dead = openSpan (s.now - 2 * cclkBeat) (s.chan f c).dead ∧
      barks s t (0x10 + f) ((0x10 + f) * 256 + 0x57) ∧ t = { s with fc := t.fc, bq := t.bq }) ∧
  (∀ c, c < 32 → s.domOn f = true → s.maskedCh f = none → (s.spPhase f = spCAL → s.spCh f ≠ c) → s.spPhase f ≠ spOUT →
    ∃ t, exec (.convFault f c) s = .next t ∧ t.flag (Reg.FC_CONV_STAT_MASKED f c) = true ∧ t.rd (Reg.FC_CONV_STAT_FAIL_CODE f c) = 6 ∧
      t.flag (Reg.FC_CH_STAT_SUBST f c) = true ∧ t.spPhase f = spPARKED ∧ t.rd (Reg.FC_SPARE_STAT_PARKED_CH f) = c ∧
      lastBark t (0x10 + f) ((0x10 + f) * 256 + 0x56)) ∧
  (s.domOn f = true → s.spPhase f ≠ spOUT → ∃ t, exec (.convFault f 32) s = .next t ∧ t.spPhase f = spOUT ∧ (t.spare f).out = true ∧
    lastBark t (0x10 + f) ((0x10 + f) * 256 + 0x54)) ∧
  (∀ src, s.takes src .FC_REFCAL_CTRL f 0 true = true →
    (s.act (Reg.FC_XPT_ROLE_ROLE f (s.rd (Reg.FC_REFCAL_CTRL_PIN_P f))) ≠ 0 → ∃ t, exec (.refcalStart src f) s = .next t ∧
      t.rd (Reg.FC_REFCAL_CTRL_REASON f) = 1 ∧ barks s t (0x10 + f) ((0x10 + f) * 256 + 0x61) ∧ t = { s with regs := t.regs, bq := t.bq, kn := t.kn } ∧
      onlyRegs s t [Reg.FC_REFCAL_CTRL_REASON f]) ∧
    (s.act (Reg.FC_XPT_ROLE_ROLE f (s.rd (Reg.FC_REFCAL_CTRL_PIN_P f))) = 0 → s.act (Reg.FC_XPT_ROLE_ROLE f (s.rd (Reg.FC_REFCAL_CTRL_PIN_N f))) = 0 →
      (s.rdS (Reg.FC_REFCAL_UV_UV f) < 4000000 ∨ 4900000 < s.rdS (Reg.FC_REFCAL_UV_UV f)) → ∃ t, exec (.refcalStart src f) s = .next t ∧
      t.rd (Reg.FC_REFCAL_CTRL_REASON f) = 2 ∧ barks s t (0x10 + f) ((0x10 + f) * 256 + 0x61) ∧ t = { s with regs := t.regs, bq := t.bq, kn := t.kn } ∧
      onlyRegs s t [Reg.FC_REFCAL_CTRL_REASON f]) ∧
    (s.act (Reg.FC_XPT_ROLE_ROLE f (s.rd (Reg.FC_REFCAL_CTRL_PIN_P f))) = 0 → s.act (Reg.FC_XPT_ROLE_ROLE f (s.rd (Reg.FC_REFCAL_CTRL_PIN_N f))) = 0 →
      4000000 ≤ s.rdS (Reg.FC_REFCAL_UV_UV f) → s.rdS (Reg.FC_REFCAL_UV_UV f) ≤ 4900000 → s.turning f = false →
      ∃ t, exec (.refcalStart src f) s = .next t ∧ t.rd (Reg.FC_REFCAL_CTRL_REASON f) = 0 ∧ t.rd (Reg.FC_REFCAL_CTRL_STATE f) = 2 ∧
        (t.spare f).refSince = some s.run ∧ t = { s with regs := t.regs, fc := t.fc, kn := t.kn } ∧
        onlyRegs s t [Reg.FC_REFCAL_CTRL_REASON f, Reg.FC_REFCAL_CTRL_STATE f])) ∧
  (∀ t0 a b, (s.spare f).refSince = some t0 → s.elapsed t0 (64 * cclkSec) = true → Int.natAbs (a - (s.card f).refs.1) ≤ 50000 →
    Int.natAbs (b - (s.card f).refs.2) ≤ 50000 → ∃ t, exec (.refcalDone f a b) s = .next t ∧ (t.card f).refs = (a, b) ∧ (t.card f).refAt = s.run ∧
      (t.spare f).refSince = none ∧ t.rd (Reg.FC_REFCAL_CTRL_STATE f) = 3 ∧ t.rd (Reg.FC_REFCAL_CTRL_REF_AGE f) = 0 ∧
      barks s t (0x10 + f) ((0x10 + f) * 256 + 0x60) ∧ t = { s with regs := t.regs, fc := t.fc, bq := t.bq }) ∧
  (∀ t0 a b, (s.spare f).refSince = some t0 → s.elapsed t0 (64 * cclkSec) = true → 50000 < Int.natAbs (a - (s.card f).refs.1) →
    ∃ t, exec (.refcalDone f a b) s = .next t ∧ (t.card f).refs = (s.card f).refs ∧ t.rd (Reg.FC_REFCAL_CTRL_REASON f) = 3 ∧
      t.rd (Reg.FC_REFCAL_CTRL_STATE f) = 0 ∧ barks s t (0x10 + f) ((0x10 + f) * 256 + 0x61) ∧ t = { s with regs := t.regs, fc := t.fc, bq := t.bq })

/-- The metrology scan (R126 to R137): the next channel starts, a settling delay gives way to a conversion, a conversion ends the channel, and
the check slot, the open source, the urgent read, the mask and the latched result do as their rules say.
Where the spec leaves a point of this open, the model's reading is log entries 57 and 58. -/
def Obligations.Metrology : Prop := ∀ s : State,
  (s.mt.run = none → s.mt.checkAt = none → s.sampling = true → s.mt.urgents = [] → s.scanEnds = false →
    (∀ c, s.nextScan = some c → c < 32 → ∃ t, exec .mtChannelStart s = .next t ∧ (∃ r, t.mt.run = some r ∧ r.ch = c ∧ r.start = s.now ∧ r.phase = 0 ∧
      r.converting = false ∧ r.urgent = none) ∧ t.mt.lastCh = some c ∧ t.rd Reg.MT_SCAN_STAT_CH = c ∧ t.rd Reg.MT_SCAN_STAT_PHASE = 1) ∧
    (s.nextScan = none → s.mt.empty = false → s.rd Reg.MT_SCAN_MASK_MASK = 0 → ∃ t, exec .mtChannelStart s = .next t ∧ t.mt.empty = true ∧
      t.mt.run = none ∧ barks s t 0x40 0x4008 ∧ t = { s with regs := t.regs, mt := t.mt, bq := t.bq }) ∧
    (s.nextScan = none → s.rd Reg.MT_SCAN_MASK_MASK ≠ 0 → ∃ t, exec .mtChannelStart s = .next t ∧ t.mt.run = none ∧
      t = { s with regs := t.regs, mt := t.mt })) ∧
  (s.mt.run = none → s.mt.checkAt = none → s.sampling = true → s.mt.urgents = [] → s.scanEnds = true → s.rd Reg.MT_CAL_CFG_EVERY ≠ 0 →
    s.rd Reg.MT_CAL_CFG_EVERY ≤ s.mt.scans + 1 → s.mtUp = true → s.hasGrant 1 0x60 = true → ∃ t, exec .mtChannelStart s = .next t ∧
      t.mt.checkAt = some s.now ∧ t.mt.scans = 0 ∧ t.mt.run = none ∧ t.rd Reg.MT_SCAN_STAT_PHASE = 3 ∧ t = { s with regs := t.regs, mt := t.mt }) ∧
  (∀ h c a rest, s.mt.run = none → s.mt.checkAt = none → s.sampling = true → s.mt.urgents = (h, c, a) :: rest → (s.slot 19).standby = none →
    ∃ t, exec .mtChannelStart s = .next t ∧ t.mt.urgents = rest ∧ (∃ r, t.mt.run = some r ∧ r.ch = c ∧ r.urgent = some (h, a)) ∧
      t.rd Reg.MT_SCAN_STAT_PHASE = 4 ∧ t = { s with regs := t.regs, mt := t.mt }) ∧
  (∀ r v cm, s.mt.run = some r → r.converting = false → r.urgent = none → ∃ t, exec (.mtPhaseEnd v cm) s = .next t ∧
    t.mt.run = some { r with converting := true } ∧ t.rd Reg.MT_SCAN_STAT_PHASE = 2 ∧ t = { s with regs := t.regs, mt := t.mt } ∧
    onlyRegs s t [Reg.MT_SCAN_STAT_PHASE]) ∧
  (∀ r v cm, s.mt.run = some r → r.converting = true → r.mode ≠ 1 → r.urgent = none → ∃ t, exec (.mtPhaseEnd v cm) s = .next t ∧
    t.mt.run = none ∧ t.rd Reg.MT_SCAN_STAT_PHASE = 0) ∧
  (∀ r v, s.mt.run = some r → r.converting = true → r.mode ≠ 1 → r.urgent = none → r.vals = [] → r.ovr = false → r.cm = false → r.open_ = false →
    s.mtUp = true → -mtFull r.range ≤ v → v ≤ mtFull r.range → ∃ t, exec (.mtPhaseEnd v false) s = .next t ∧ t.mt.run = none ∧
    (t.mt.results.get {} r.ch).value = satS 64 (rne (v * (2 ^ 40 : Nat)) realOne) ∧ (t.mt.results.get {} r.ch).flags = fVALID ∧
    (t.mt.results.get {} r.ch).bn = r.stamp / cclkBeat ∧ t.flag (Reg.MT_CH_STAT_OVERRANGE r.ch) = false ∧ t.bq = s.bq) ∧
  (∀ r, s.mt.run = some r → r.mode = 1 → r.converting = true → s.mtUp = true → ∃ t, exec .mtOpen s = .next t ∧
    t.mt.run = some { r with open_ := true } ∧ t.flag (Reg.MT_CH_STAT_OPEN r.ch) = true ∧ t.flag (Reg.MT_CH_STAT_OPEN_SEEN r.ch) = true ∧
    t.flag (Reg.MT_CH_STAT_OR_SEEN r.ch) = true ∧ t = { s with regs := t.regs, mt := t.mt, bq := t.bq } ∧
    onlyRegs s t [Reg.MT_CH_STAT_OPEN r.ch, Reg.MT_CH_STAT_OPEN_SEEN r.ch, Reg.MT_CH_STAT_OR_SEEN r.ch, Reg.MT_CNT_OR_EVENTS,
      Reg.MT_CNT_OPEN_EVENTS]) ∧
  (∀ t0 z0 a0 z1 a1, s.mt.checkAt = some t0 → t0 + 1440 * cclkMs ≤ s.now →
    (mtZeroOk 0 z0 = true → mtZeroOk 1 z1 = true → s.mtGainOk 0 z0 a0 = true → s.mtGainOk 1 z1 a1 = true →
      ∃ t, exec (.mtCheckSlotEnd z0 a0 z1 a1) s = .next t ∧ t.mt.checkAt = none ∧ t.rd Reg.MT_CARD_STAT_CHECK_FAIL = s.rd Reg.MT_CARD_STAT_CHECK_FAIL ∧
      t = { s with regs := t.regs, mt := t.mt, pw := t.pw }) ∧
    (mtZeroOk 0 z0 = false ∨ mtZeroOk 1 z1 = false ∨ s.mtGainOk 0 z0 a0 = false ∨ s.mtGainOk 1 z1 a1 = false →
      ∃ t, exec (.mtCheckSlotEnd z0 a0 z1 a1) s = .next t ∧ t.mt.checkAt = none ∧ t.flag Reg.MT_CARD_STAT_CHECK_FAIL = true ∧ barks s t 0x40 0x4004 ∧
      t = { s with regs := t.regs, mt := t.mt, pw := t.pw, bq := t.bq })) ∧
  (∀ h ch addr, byRing s h →
    (s.barred = true → ∃ t, exec (.mtUrgentRead h ch addr) s = .next t ∧ settled t h ∧ posts s t h .modeForbids) ∧
    (s.barred = false → 32 ≤ ch → ∃ t, exec (.mtUrgentRead h ch addr) s = .next t ∧ settled t h ∧ posts s t h .badParam) ∧
    (s.barred = false → ch < 32 → addrOk addr 32 = true → s.mt.urgents.length < 8 → s.mtUp = false →
      ∃ t, exec (.mtUrgentRead h ch addr) s = .next t ∧ settled t h ∧ posts s t h .hwFault) ∧
    (s.barred = false → ch < 32 → addrOk addr 32 = true → s.mt.urgents.length < 8 → s.mtUp = true →
      ∃ t, exec (.mtUrgentRead h ch addr) s = .next t ∧ carried t h ∧ t.mt.urgents = s.mt.urgents ++ [(h, ch, addr)] ∧
        t.rd Reg.MT_SCAN_STAT_URGENT_PENDING = s.mt.urgents.length + 1 ∧ t = { s with regs := t.regs, mt := t.mt, hp := t.hp } ∧
        onlyRegs s t [Reg.MT_SCAN_STAT_URGENT_PENDING])) ∧
  (∀ src mask, src = .cfg ∨ s.modeTakes .MT_SCAN_MASK = true → ∃ t, exec (.mtScanMaskWrite src mask) s = .next t ∧
    t.rd Reg.MT_SCAN_MASK_MASK = mask % 2 ^ 32 ∧ t = { s with regs := t.regs, pw := t.pw, kn := t.kn } ∧ onlyRegs s t [Reg.MT_SCAN_MASK_MASK, Reg.MT_SCAN_STAT_PERIOD]) ∧
  (∀ c, c < 32 → ∃ t, exec (.mtLastLatch c) s = .next t ∧ t.rd (Reg.MT_LAST_VALUE c) = unsigned 64 (s.mt.results.get {} c).value ∧
    t.rd (Reg.MT_LAST_BN c) = (s.mt.results.get {} c).bn % 2 ^ 64 ∧ t.rd (Reg.MT_LAST_FLAGS c) = (s.mt.results.get {} c).flags % 2 ^ 8 ∧
    t = { s with regs := t.regs } ∧ onlyRegs s t [Reg.MT_LAST_VALUE c, Reg.MT_LAST_BN c, Reg.MT_LAST_FLAGS c])

/-- STREAM_OPEN, STREAM_CLOSE and REPLAY (R141, R142, R310, R311, R321): what turns each away, and what an accepted one leaves.
Where the spec leaves a point of this open, the model's reading is log entries 28, 64, 66 and 150. -/
def Obligations.StreamCommands : Prop := ∀ (s : State) (h : CmdHdr), byRing s h →
  (s.barred = true → ∀ i raw buf first last entry, ∀ c ∈ [Instr.streamOpen h raw buf entry, .streamClose h i, .replay h i buf first last entry],
    ∃ t, exec c s = .next t ∧ settled t h ∧ posts s t h .modeForbids) ∧
  (∀ raw buf entry, s.barred = false → raw.length ≠ 56 ∨ openOk s (parseDef raw) = false ∨ bufOk s buf entry = false →
    ∃ t, exec (.streamOpen h raw buf entry) s = .next t ∧ settled t h ∧ posts s t h .badParam) ∧
  (∀ raw buf entry, s.barred = false → raw.length = 56 → openOk s (parseDef raw) = true → bufOk s buf entry = true → h.inst = .none →
    ∃ t, exec (.streamOpen h raw buf entry) s = .next t ∧ settled t h ∧ posts s t h .ok ∧
      (∃ x, t.stream (parseDef raw).id = some x ∧ x.defn = parseDef raw ∧ x.raw = raw ∧ x.buf = buf ∧ x.openAt = s.now ∧ x.seq = 0 ∧ x.closeAt = none) ∧
      (∀ j, j ≠ (parseDef raw).id → t.stream j = s.stream j) ∧ (t.sbuf buf).users = (s.sbuf buf).users + 1 ∧
      t.rd Reg.RD_STAT_OPEN = t.openStreams.length % 2 ^ 11 ∧ t.rd (Reg.RD_STREAM_STAT_STATE (parseDef raw).id) = 2 ∧
      t = { s with regs := t.regs, rd_ := t.rd_, hp := t.hp, kn := t.kn } ∧
      onlyRegs s t [Reg.RD_STAT_OPEN, Reg.RD_STAT_LOAD_PCT, Reg.RD_STREAM_STAT_STATE (parseDef raw).id]) ∧
  (∀ raw buf entry e, s.barred = false → raw.length = 56 → openOk s (parseDef raw) = true → bufOk s buf entry = true → h.inst = .edge e →
    s.now < e → s.tb.sched.length < 4096 →
    ∃ t, exec (.streamOpen h raw buf entry) s = .next t ∧ settled t h ∧ posts s t h .ok ∧
      (∃ x, t.stream (parseDef raw).id = some x ∧ x.defn = parseDef raw ∧ x.openAt = e ∧ x.seq = 0) ∧
      t.rd (Reg.RD_STREAM_STAT_STATE (parseDef raw).id) = 1 ∧
      (∃ q, t.tb.sched = s.tb.sched ++ [q] ∧ q.at_ = e ∧ q.act = .streamOpen (parseDef raw).id)) ∧
  (∀ i, s.barred = false → (s.stream i = none ∨ ∃ x, s.stream i = some x ∧ x.closeAt.isSome = true) →
    ∃ t, exec (.streamClose h i) s = .next t ∧ settled t h ∧ posts s t h .badParam) ∧
  (∀ i x, s.barred = false → i < 1024 → s.stream i = some x → x.closeAt = none → h.inst = .none → s.ahead x (x.lastSrc s.now) = true →
    ∃ t, exec (.streamClose h i) s = .next t ∧ settled t h ∧ posts s t h .ok ∧ t.stream i = none ∧ t.kn.ckpts.get none i = none ∧
      t.rd (Reg.RD_STREAM_STAT_STATE i) = 0 ∧ lastBark t 1 0x0131) ∧
  (∀ i x e, s.barred = false → i < 1024 → s.stream i = some x → x.closeAt = none → h.inst = .edge e → s.now < e → s.tb.sched.length < 4096 →
    ∃ t, exec (.streamClose h i) s = .next t ∧ carried t h ∧ t.stream i = some { x with closeAt := some (e, h) } ∧
      t.rd (Reg.RD_STREAM_STAT_STATE i) = 4 ∧ (∃ q, t.tb.sched = s.tb.sched ++ [q] ∧ q.at_ = e ∧ q.act = .streamClose i) ∧
      t = { s with regs := t.regs, rd_ := t.rd_, hp := t.hp, kn := t.kn, tb := t.tb } ∧ onlyRegs s t [Reg.RD_STREAM_STAT_STATE i]) ∧
  (∀ i buf first last entry, s.barred = false → s.formed i = none ∨ last < first ∨ 8 ≤ s.hp.replays.length ∨ bufOk s buf entry = false →
    ∃ t, exec (.replay h i buf first last entry) s = .next t ∧ settled t h ∧ posts s t h .badParam) ∧
  (∀ i buf first last entry n, s.barred = false → s.formed i = some n → first ≤ last → s.hp.replays.length < 8 → bufOk s buf entry = true →
    (n ≤ first → ∃ t, exec (.replay h i buf first last entry) s = .next t ∧ settled t h ∧ posts s t h .ok ∧ t = { s with hp := t.hp }) ∧
    (first < n → replayRecords s i buf first (min last (n - 1)) ≠ [] → ∃ t, exec (.replay h i buf first last entry) s = .next t ∧ carried t h ∧
      (t.sbuf buf).queue = (s.sbuf buf).queue ++ replayRecords s i buf first (min last (n - 1)) ∧
      t.hp.replays = s.hp.replays ++ [⟨h, i, buf, (replayRecords s i buf first (min last (n - 1))).length, 0⟩] ∧ t = { s with hp := t.hp }))

/-- A stream at work (R145, R159, R165 to R167, R365): a tick forms its slot and passes to the next, an aged record closes, an aged-out
record becomes a gap run, a lost cold junction is counted once, and the checkpoints follow the open streams.
Where the spec leaves a point of this open, the model's reading is log entries 63, 65, 111, 134, 135, 149 and 151. -/
def Obligations.StreamsAtWork : Prop := ∀ (s : State) (i : Nat), i < 1024 →
  (∀ x v div ph ovr, s.stream i = some x → s.sampling = true → s.domOn 27 = true → x.waitTod = false → x.closeAt = none →
    (∀ k, s.tickDue x = some k → ∃ t y, exec (.streamTick i v div ph ovr) s = .next t ∧ t.stream i = some y ∧ y.ticked = true ∧ y.defn = x.defn ∧
      (x.due = [] → y.next = x.next + x.srcPeriod ∧ y.due = []) ∧ (x.due ≠ [] → y.next = x.next ∧ y.due = x.due.drop 1) ∧
      (x.defn.reduce = 0 → x.tabCloses = [] → x.blk = none → y.seq = x.seq + 1) ∧ (∀ j, j ≠ i → t.stream j = s.stream j)) ∧
    (s.tickDue x = none → ∃ t, exec (.streamTick i v div ph ovr) s = .next t ∧ t = s)) ∧
  (∀ v div ph ovr, s.sampling = false → ∃ t, exec (.streamTick i v div ph ovr) s = .next t ∧ t = s) ∧
  (∀ x r, s.stream i = some x → x.rcd = some r →
    (r.place + x.defn.recAge * cclkMs ≤ s.now → ∃ t, exec (.recAgeExpiry i) s = .next t ∧ t.stream i = some { x with rcd := none } ∧
      (s.retains = true → (t.rd_.store.get [] i).length = (s.rd_.store.get [] i).length + 1) ∧ (∀ j, j ≠ i → t.stream j = s.stream j)) ∧
    (s.now < r.place + x.defn.recAge * cclkMs → ∃ t, exec (.recAgeExpiry i) s = .next t ∧ t = s)) ∧
  (∀ r rest, s.rd_.store.get [] i = r :: rest →
    ((s.sbuf r.buf).queue.any (sameRec i r.seq) = false → ∃ t, exec (.streamGap i) s = .next t ∧ t.rd_.store.get [] i = rest ∧ t = { s with rd_ := t.rd_ }) ∧
    ((s.sbuf r.buf).queue.any (sameRec i r.seq) = true → r.stream = i → gapBefore s r = none → ∃ t, exec (.streamGap i) s = .next t ∧ t.rd_.store.get [] i = rest ∧
      t.rd (Reg.RD_STREAM_STAT_LOST i) = satU 32 (s.rd (Reg.RD_STREAM_STAT_LOST i) + r.n) ∧ t.rd Reg.RD_CNT_GAP_RUNS = satU 32 (s.rd Reg.RD_CNT_GAP_RUNS + 1) ∧
      barks s t 1 0x0132 ∧ (t.sbuf r.buf).queue.length = (s.sbuf r.buf).queue.length ∧
      t = { s with regs := t.regs, rd_ := t.rd_, hp := t.hp, bq := t.bq } ∧ onlyRegs s t [Reg.RD_STREAM_STAT_LOST i, Reg.RD_CNT_GAP_RUNS]) ∧
    ((s.sbuf r.buf).queue.any (sameRec i r.seq) = true → (gapBefore s r).isSome = true → ∃ t, exec (.streamGap i) s = .next t ∧
      t.rd_.store.get [] i = rest ∧ t.rd (Reg.RD_STREAM_STAT_LOST i) = satU 32 (s.rd (Reg.RD_STREAM_STAT_LOST i) + r.n) ∧
      (t.sbuf r.buf).queue.any (sameRec i r.seq) = false ∧ t = { s with regs := t.regs, rd_ := t.rd_, hp := t.hp } ∧
      onlyRegs s t [Reg.RD_STREAM_STAT_LOST i])) ∧
  (∀ x, s.stream i = some x → curveKind x.defn.curve = 1 →
    ((s.coldJunction x.defn x.openAt s.now).2 = true → x.cjLost = false → ∃ t, exec (.cjInvalid i) s = .next t ∧ t.stream i = some { x with cjLost := true } ∧
      t.rd Reg.RD_CNT_CJ_INVALID = satU 32 (s.rd Reg.RD_CNT_CJ_INVALID + 1) ∧ barks s t 1 0x0136 ∧
      t = { s with regs := t.regs, rd_ := t.rd_, bq := t.bq } ∧ onlyRegs s t [Reg.RD_CNT_CJ_INVALID]) ∧
    ((s.coldJunction x.defn x.openAt s.now).2 = false → x.cjLost = true → ∃ t, exec (.cjInvalid i) s = .next t ∧
      t.stream i = some { x with cjLost := false } ∧ t = { s with rd_ := t.rd_ })) ∧
  (∃ t, exec .streamCheckpoint s = .next t ∧ t = { s with kn := t.kn } ∧
    ∀ x, s.stream i = some x → t.kn.ckpts.get none i = some (ckptOf x false))

/-- User curves and the read side of streams (R147 to R149, R413, R414): the data port steps through the staging copy, ACTIVATE takes a
valid copy or says why not, DELETE spares a curve in use, REVERT brings the active copy back, and RD_VIEW latches one stream.
Where the spec leaves a point of this open, the model's reading is log entry 67. -/
def Obligations.UserCurves : Prop := ∀ s : State,
  (∀ src v, s.takes src .RD_CURVE_DATA 0 0 true = true → v < 2 ^ 64 → ∃ t, exec (.rdCurveData src 2 (some v)) s = .next t ∧
    Sparse.get 0 (s.rd Reg.RD_CURVE_ADDR_ADDR) (Sparse.get [] s.curveSel t.rd_.stg) = v ∧
    t.rd Reg.RD_CURVE_ADDR_ADDR = (s.rd Reg.RD_CURVE_ADDR_ADDR + 1) % 1024 ∧ t.rd Reg.RD_CURVE_DATA_DATA = v ∧
    t = { s with regs := t.regs, hold := t.hold, rd_ := t.rd_, kn := t.kn } ∧ onlyRegs s t [Reg.RD_CURVE_ADDR_ADDR, Reg.RD_CURVE_DATA_DATA]) ∧
  (∀ src v, s.takes src .RD_CURVE_DATA 0 0 true = true → ∃ t, exec (.rdCurveData src 0 (some v)) s = .next t ∧ t.rd_ = s.rd_ ∧
    t = { s with hold := t.hold, kn := t.kn }) ∧
  (s.domOn 27 = true → ∃ t, exec (.rdCurveData .direct 0 none) s = .next t ∧ t.rd Reg.RD_CURVE_DATA_DATA = s.stgEntry % 2 ^ 64 ∧
    t = { s with regs := t.regs } ∧ onlyRegs s t [Reg.RD_CURVE_DATA_DATA]) ∧
  (s.domOn 27 = true → ∃ t, exec (.rdCurveData .direct 1 none) s = .next t ∧ t.rd Reg.RD_CURVE_DATA_DATA = s.stgEntry % 2 ^ 64 ∧
    t.rd Reg.RD_CURVE_ADDR_ADDR = (s.rd Reg.RD_CURVE_ADDR_ADDR + 1) % 1024 ∧ t = { s with regs := t.regs } ∧
    onlyRegs s t [Reg.RD_CURVE_DATA_DATA, Reg.RD_CURVE_ADDR_ADDR]) ∧
  (∀ src l, s.takes src .RD_CURVE_CTRL 0 0 true = true →
    l = (List.range (curveWords (curveKind s.curveSel) (s.rd Reg.RD_CURVE_SEL_N))).map (fun j => Sparse.get 0 j (s.rd_.stg.get [] s.curveSel)) →
    (curveReason s.curveSel (s.rd Reg.RD_CURVE_SEL_N) l = 0 → ∃ t, exec (.rdCurveActivate src) s = .next t ∧ t.rd_.act.get [] s.curveSel = l ∧
      t.rd_.actAt.get 0 s.curveSel = beatCeil s.now ∧ (∀ c, c ≠ s.curveSel → t.rd_.act.get [] c = s.rd_.act.get [] c) ∧
      t.flag Reg.RD_CURVE_STAT_DONE = true ∧ t.flag Reg.RD_CURVE_STAT_ACTIVE = true ∧ lastBark t 1 0x0134 ∧
      (s.defs.any (fun d => d.curve = s.curveSel) = false → barks s t 1 0x0134 ∧
        t = { s with regs := t.regs, rd_ := t.rd_, bq := t.bq, kn := t.kn } ∧
        onlyRegs s t [Reg.RD_CURVE_STAT_DONE, Reg.RD_CURVE_STAT_ACTIVE, Reg.RD_CURVE_STAT_IN_USE])) ∧
    (∀ code, curveReason s.curveSel (s.rd Reg.RD_CURVE_SEL_N) l = code → code ≠ 0 → ∃ t, exec (.rdCurveActivate src) s = .next t ∧
      t.rd Reg.RD_CURVE_STAT_REASON = code % 8 ∧ t.flag Reg.RD_CURVE_STAT_REJECT = true ∧ t.rd_ = s.rd_ ∧ t = { s with regs := t.regs, kn := t.kn } ∧
      onlyRegs s t [Reg.RD_CURVE_STAT_REASON, Reg.RD_CURVE_STAT_REJECT, Reg.RD_CURVE_STAT_ACTIVE, Reg.RD_CURVE_STAT_IN_USE])) ∧
  (∀ src, s.takes src .RD_CURVE_CTRL 0 0 true = true →
    (s.defs.any (fun d => d.curve = s.curveSel) = true → ∃ t, exec (.rdCurveDelete src) s = .next t ∧ t.rd Reg.RD_CURVE_STAT_REASON = 6 ∧
      t.flag Reg.RD_CURVE_STAT_REJECT = true ∧ t.rd_ = s.rd_) ∧
    (s.defs.any (fun d => d.curve = s.curveSel) = false → ∃ t, exec (.rdCurveDelete src) s = .next t ∧ t.rd_.act.get [] s.curveSel = [] ∧
      t.flag Reg.RD_CURVE_STAT_ACTIVE = false ∧ (∀ c, c ≠ s.curveSel → t.rd_.act.get [] c = s.rd_.act.get [] c) ∧
      t = { s with regs := t.regs, rd_ := t.rd_, kn := t.kn } ∧ onlyRegs s t [Reg.RD_CURVE_STAT_ACTIVE, Reg.RD_CURVE_STAT_IN_USE]) ∧
    (∃ t, exec (.rdCurveRevert src) s = .next t ∧ (∀ j, Sparse.get 0 j (t.rd_.stg.get [] s.curveSel) = (s.rd_.act.get [] s.curveSel).getD j 0) ∧
      t = { s with rd_ := t.rd_, kn := t.kn })) ∧
  (∀ src clr, s.takes src .RD_CNT_CLR 0 0 false = true → ∃ t, exec (.rdCntClr src clr) s = .next t ∧ cleared s t rdCnts clr ∧
    (bit clr 4 = true → s.rd Reg.RD_SEL_STREAM < 1024 → t.rd (Reg.RD_STREAM_STAT_LOST (s.rd Reg.RD_SEL_STREAM)) = 0) ∧
    (bit clr 5 = true → ∀ i, i < 1024 → t.rd (Reg.RD_STREAM_STAT_LOST i) = 0) ∧
    (bit clr 4 = false → bit clr 5 = false → onlyRegs s t rdCnts) ∧ t = { s with regs := t.regs, kn := t.kn }) ∧
  (s.domOn 27 = true → ∃ t, exec .rdViewLatch s = .next t ∧
    (∀ x, s.stream (s.rd Reg.RD_SEL_STREAM) = some x → t.rd Reg.RD_VIEW_DEF = leNat x.raw % 2 ^ 448 ∧ t.rd Reg.RD_VIEW_NEXT_SEQ = x.seq % 2 ^ 64) ∧
    (s.stream (s.rd Reg.RD_SEL_STREAM) = none → t.rd Reg.RD_VIEW_DEF = 0 ∧ t.rd Reg.RD_VIEW_NEXT_SEQ = 0) ∧
    t = { s with regs := t.regs } ∧ onlyRegs s t [Reg.RD_VIEW_DEF, Reg.RD_VIEW_NEXT_SEQ])

/-- Faults of a resolver channel (R194, R195, R185): a fault that drops the channel opens its loop and clears VALID, one that flags is
counted in OR_EVENTS, each sets its own W1C bit and barks at most once per second, and REACQ leaves every state but OFF.
Where the spec leaves a point of this open, the model's reading is log entry 70. -/
def Obligations.ResolverFaults : Prop := ∀ (s : State) (c : Nat), c < 32 →
  (s.rdcOn c = true → 2 ≤ (s.rdc c).lowRun → (s.rdc c).los = false → ∃ t, exec (.rdcLos c) s = .next t ∧ t.flag (Reg.RDC_STAT_LOS c) = true ∧
    t.rd (Reg.RDC_CNT_LOS c) = satU 32 (s.rd (Reg.RDC_CNT_LOS c) + 1) ∧ (t.rdc c).ph = 0 ∧ (t.rdc c).los = true ∧
    ((s.rdc c).up = true → t.rd (Reg.RDC_STAT_STATE c) = 1) ∧ t.rd (Reg.RDC_STAT_VALID c) = 0 ∧
    barksRarely s t cclkSec (c % 16) (axSrc (c / 16)) (axCode (c / 16) 4) ∧ t = { s with regs := t.regs, ax := t.ax, bq := t.bq } ∧
    onlyRegs s t (Reg.RDC_STAT_LOS c :: Reg.RDC_CNT_LOS c :: rdcShown c)) ∧
  (s.rdcOn c = true → 2 ≤ (s.rdc c).highRun → (s.rdc c).ampHigh = false → ∃ t, exec (.rdcAmpHigh c) s = .next t ∧
    t.flag (Reg.RDC_STAT_AMP_HIGH c) = true ∧ (t.rdc c).ampHigh = true ∧ t.rd (Reg.RDC_STAT_OR_NOW c) = 1 ∧
    t.rd (Reg.RDC_CNT_OR_EVENTS c) = satU 32 (s.rd (Reg.RDC_CNT_OR_EVENTS c) + 1) ∧ t = { s with regs := t.regs, ax := t.ax, bq := t.bq } ∧
    onlyRegs s t (Reg.RDC_STAT_AMP_HIGH c :: Reg.RDC_CNT_OR_EVENTS c :: rdcShown c)) ∧
  (∀ w, s.rdcOn c = true →
    (w % 4 ≠ 0 → s.eff (Reg.RDC_CFG_OWD c) = 1 → (s.rdc c).wire = false → ∃ t, exec (.rdcWireOpen c w) s = .next t ∧
      t.flag (Reg.RDC_STAT_WIRE_OPEN c) = true ∧ t.rd (Reg.RDC_STAT_OPEN_WIND c) = w % 4 ∧ (t.rdc c).wire = true ∧ (t.rdc c).ph = 0 ∧
      t.rd (Reg.RDC_STAT_VALID c) = 0 ∧ t = { s with regs := t.regs, ax := t.ax, bq := t.bq }) ∧
    (w % 4 = 0 → ∃ t, exec (.rdcWireOpen c w) s = .next t ∧ t.rd (Reg.RDC_STAT_OPEN_WIND c) = 0 ∧ (t.rdc c).wire = false ∧
      t = { s with regs := t.regs, ax := t.ax } ∧ onlyRegs s t (Reg.RDC_STAT_OPEN_WIND c :: rdcShown c))) ∧
  (s.rdcOn c = true →
    (s.flag (Reg.RDC_STAT_CM_NOW c) = false → ∃ t, exec (.rdcCmFault c true) s = .next t ∧ t.flag (Reg.RDC_STAT_CM_NOW c) = true ∧
      t.flag (Reg.RDC_STAT_CM_FAULT c) = true ∧ t.rd (Reg.RDC_CNT_OR_EVENTS c) = satU 32 (s.rd (Reg.RDC_CNT_OR_EVENTS c) + 1) ∧
      barksRarely s t cclkSec (c % 16) (axSrc (c / 16)) (axCode (c / 16) 9) ∧ t = { s with regs := t.regs, bq := t.bq } ∧
      onlyRegs s t [Reg.RDC_STAT_CM_NOW c, Reg.RDC_STAT_CM_FAULT c, Reg.RDC_CNT_OR_EVENTS c]) ∧
    (∃ t, exec (.rdcCmFault c false) s = .next t ∧ t.flag (Reg.RDC_STAT_CM_NOW c) = false)) ∧
  (s.rdcOwn c = true → 16 ≤ (s.rdc c).errRun ∨ 16 ≤ (s.rdc c).spdRun → ∃ t, exec (.rdcTrackLoss c) s = .next t ∧
    t.flag (Reg.RDC_STAT_TRACK_LOSS c) = true ∧ t.rd (Reg.RDC_CNT_TRACK_LOSS c) = satU 32 (s.rd (Reg.RDC_CNT_TRACK_LOSS c) + 1) ∧
    (t.rdc c).ph = 0 ∧ t.rd (Reg.RDC_STAT_VALID c) = 0 ∧ t = { s with regs := t.regs, ax := t.ax, bq := t.bq } ∧
    onlyRegs s t (Reg.RDC_STAT_TRACK_LOSS c :: Reg.RDC_CNT_TRACK_LOSS c :: rdcShown c)) ∧
  (s.ampOn c = true → (∀ ua, s.flag (Reg.RDC_STAT_EXC_LIMITING c) ≠ decide (s.ampIlim c * 1000 ≤ ua) → ∃ t, exec (.rdcExcIlim c ua) s = .next t ∧
      t.flag (Reg.RDC_STAT_EXC_LIMITING c) = decide (s.ampIlim c * 1000 ≤ ua) ∧
      (s.ampIlim c * 1000 ≤ ua → ∀ d ∈ s.excited c, t.flag (Reg.RDC_STAT_EXC_ILIM d) = true) ∧ t = { s with regs := t.regs, ax := t.ax, bq := t.bq }) ∧
    (∃ t, exec (.rdcExcThermal c) s = .next t ∧ t.flag (Reg.RDC_STAT_EXC_SHUTDOWN c) = true ∧ t.ampOn c = false ∧
      t.flag (Reg.RDC_STAT_EXC_LIMITING c) = false ∧
      (∀ d ∈ s.excited c, t.flag (Reg.RDC_STAT_EXC_THERMAL d) = true) ∧ t = { s with regs := t.regs, bq := t.bq })) ∧
  (s.rdcOn c = true → (s.rdc c).conv = false → ∃ t, exec (.rdcConvFault c) s = .next t ∧ t.flag (Reg.RDC_STAT_CONV_FAULT c) = true ∧
    (t.rdc c).conv = true ∧ (t.rdc c).ph = 0 ∧ ((s.rdc c).up = true → t.rd (Reg.RDC_STAT_STATE c) = 1) ∧ t = { s with regs := t.regs, ax := t.ax, bq := t.bq } ∧
    onlyRegs s t (Reg.RDC_STAT_CONV_FAULT c :: rdcShown c)) ∧
  (∀ src pass, s.takes src .RDC_CTRL (c / 16) (c % 16) true = true → s.rdcOn c = true →
    ∃ t, exec (.rdcReacq src c pass) s = .next t ∧ (t.rdc c).ph = 0 ∧ (t.rdc c).pair = false ∧ t.flag (Reg.RDC_STAT_EXC_SHUTDOWN c) = false ∧
      t.rd (Reg.RDC_STAT_VALID c) = 0 ∧ (s.flag (Reg.RDC_STAT_CONV_FAULT c) = false → (t.rdc c).retryAt = s.run ∧ (t.rdc c).conv = (s.rdc c).conv) ∧
      (s.flag (Reg.RDC_STAT_CONV_FAULT c) = true → (t.rdc c).conv = !pass ∧ (t.rdc c).retryAt = s.run + 64 * cclkBeat ∧
        (t.rdc c).ampOff = s.run + 64 * cclkBeat) ∧
      t = { s with regs := t.regs, ax := t.ax, kn := t.kn } ∧ onlyRegs s t (Reg.RDC_STAT_EXC_SHUTDOWN c :: rdcShown c))

/-- The resolver loop (R178, R181 to R189): a locked channel steps by the loop's equations, a try seeds or is refused, a test at update 64
locks or fails, and a pair resolves, stays ambiguous or slips.
Where the spec leaves a point of this open, the model's reading is log entries 68, 69, 71 and 153. -/
def Obligations.ResolverTracking : Prop := ∀ (s : State) (c : Nat), c < 32 →
  (∀ m : RdcIn, m.ch = c → s.rdcOn c = true → (s.rdc c).ph = 3 → (s.rdc c).holdTo ≤ s.now → ∃ t, exec (.rdcUpdate [m] []) s = .next t ∧
    (t.rdc c).sigAt = s.now ∧
    (isqrt (((t.rdc c).sig.s * (t.rdc c).sig.s + (t.rdc c).sig.c * (t.rdc c).sig.c).toNat * 2 ^ 120) ≠ 0 →
      (t.rdc c).omega = loopOmega (loopKI (s.fnActs c 0)) (loopErr 0 (t.rdc c).sig.s (t.rdc c).sig.c (s.rdc c).theta) (s.rdc c).omega ∧
      (t.rdc c).theta = loopTheta (loopKP (s.fnActs c 0) (s.zeta c)) (loopErr 0 (t.rdc c).sig.s (t.rdc c).sig.c (s.rdc c).theta) (t.rdc c).omega
        (s.rdc c).theta) ∧
    (s.paired c = false → s.eff (Reg.RDC_HARM_CFG_EN c) ≠ 1 → s.eff (Reg.RDC_CFG_INVERT c) ≠ 1 →
      (t.rdc c).cur.angle = (unsigned 32 (rne ((unsigned 40 (((s.rdc c).theta : Int) + s.lagComp c (s.rdc c).omega) : Nat) : Int) 256) + 2 ^ 32 -
        s.eff (Reg.RDC_CFG_ZERO c)) % 2 ^ 32 ∧ (t.rdc c).cur.speed = (s.rdc c).omega) ∧ (t.rdc c).cur.at_ = s.now) ∧
  (∀ m : RdcIn, m.ch = c → s.rdcOn c = true → (s.rdc c).ph = 3 → s.now < (s.rdc c).holdTo → ∃ t, exec (.rdcUpdate [m] []) s = .next t ∧
    (t.rdc c).omega = (s.rdc c).omega ∧ (t.rdc c).theta = unsigned 40 (((s.rdc c).theta : Int) + rne (s.rdc c).omega 1024000)) ∧
  (∀ m : RdcIn, m.ch = c → s.rdcOn c = false → ∃ t, exec (.rdcUpdate [m] []) s = .next t ∧
    t.rd (Reg.RDC_STAT_EXC_MV c) = satU 16 (rne (m.uv : Int) 1000).toNat ∧ (t.rdc c).uv = m.uv ∧
    (t.rdc c).cur.own = false ∧ (t.rdc c).cur.valid = false) ∧
  (s.mayAcquire c = true →
    ((s.seedSig c).delta.natAbs ≤ s.phWin c → ∃ t, exec (.rdcAcqStart c) s = .next t ∧ (t.rdc c).ph = 1 ∧
      (t.rdc c).tryAt = s.now ∧ (t.rdc c).seeds = [unsigned 48 (atan2 (s.seedSig c).s (s.seedSig c).c)] ∧
      (t.rdc c).phic = unsigned 48 ((s.ph0 c : Int) + (s.seedSig c).delta) ∧ t = { s with regs := t.regs, ax := t.ax } ∧
      onlyRegs s t (Reg.RDC_STAT_PH_EST c :: rdcShown c)) ∧
    (s.phWin c < (s.seedSig c).delta.natAbs → ∃ t, exec (.rdcAcqStart c) s = .next t ∧ (t.rdc c).ph = 0 ∧ (t.rdc c).phic = s.ph0 c ∧
      t.flag (Reg.RDC_STAT_PHASE c) = true ∧ t.rd (Reg.RDC_STAT_ACQ_TRIES c) = min 255 (s.rd (Reg.RDC_STAT_ACQ_TRIES c) + 1) ∧
      t = { s with regs := t.regs, ax := t.ax, bq := t.bq })) ∧
  (s.mayAcquire c = false → ∃ t, exec (.rdcAcqStart c) s = .next t ∧ t = s) ∧
  ((s.rdc c).ph = 2 → (s.rdc c).tryAt + 64 * 240 = s.now →
    ((s.rdc c).lockOk = true → ∃ t, exec (.rdcLockTest c) s = .next t ∧ (t.rdc c).ph = 3 ∧ t.rd (Reg.RDC_STAT_ACQ_TRIES c) = 0 ∧
      (t.rdc c).lockAt = s.now ∧ (t.rdc c).settle = s.now + cclkBeat ∧ (t.rdc c).cur.own = true ∧
      t.rd (Reg.RDC_CNT_LOCKS c) = satU 32 (s.rd (Reg.RDC_CNT_LOCKS c) + 1) ∧ barks s t (axSrc (c / 16)) (axCode (c / 16) 1) ∧
      t = { s with regs := t.regs, ax := t.ax, bq := t.bq } ∧ onlyRegs s t (Reg.RDC_STAT_ACQ_TRIES c :: Reg.RDC_CNT_LOCKS c :: rdcShown c)) ∧
    ((s.rdc c).lockOk = false → ∃ t, exec (.rdcLockTest c) s = .next t ∧ (t.rdc c).ph = 0 ∧
      t.rd (Reg.RDC_STAT_ACQ_TRIES c) = min 255 (s.rd (Reg.RDC_STAT_ACQ_TRIES c) + 1) ∧
      (8 ≤ min 255 (s.rd (Reg.RDC_STAT_ACQ_TRIES c) + 1) → (t.rdc c).retryAt = s.run + 64 * cclkBeat - 64 * 240) ∧
      t = { s with regs := t.regs, ax := t.ax, bq := t.bq })) ∧
  (s.pairTries c = true →
    (s.pairOut c (s.pairD c) = false → ∃ t, exec (.rdcPairResolve c) s = .next t ∧ (t.rdc c).pair = true ∧ (t.rdc c).slip = 0 ∧
      t.rd (Reg.RDC_STAT_NTURN c) = (t.rdc c).nTurn % 2 ^ 7 ∧ t.rd (Reg.RDC_STAT_PAIR_VALID c) = 1 ∧ t = { s with regs := t.regs, ax := t.ax } ∧
      onlyRegs s t (Reg.RDC_STAT_PAIR_D c :: Reg.RDC_STAT_NTURN c :: rdcShown c)) ∧
    (s.pairOut c (s.pairD c) = true → ∃ t, exec (.rdcPairResolve c) s = .next t ∧ t.flag (Reg.RDC_STAT_PAIR_AMBIG c) = true ∧ (t.rdc c).pair = false ∧ (t.rdc c).ambig = true ∧
      t = { s with regs := t.regs, ax := t.ax, bq := t.bq } ∧ onlyRegs s t [Reg.RDC_STAT_PAIR_D c, Reg.RDC_STAT_PAIR_AMBIG c])) ∧
  ((s.rdc c).pair = true → 16 ≤ (s.rdc c).slip → ∃ t, exec (.rdcPairSlip c) s = .next t ∧ (t.rdc c).pair = false ∧
    t.flag (Reg.RDC_STAT_PAIR_SLIP c) = true ∧ t.rd (Reg.RDC_STAT_PAIR_VALID c) = 0 ∧ t = { s with regs := t.regs, ax := t.ax, bq := t.bq } ∧
    onlyRegs s t (Reg.RDC_STAT_PAIR_SLIP c :: rdcShown c)) ∧
  (s.domOn (16 + c / 16) = true → ∃ t, exec (.rdcLiveLatch c) s = .next t ∧ t.rd (Reg.RDC_LIVE_ANGLE c) = (s.rdc c).live.angle % 2 ^ 32 ∧
    t.rd (Reg.RDC_LIVE_ELEC c) = (s.rdc c).live.elec % 2 ^ 32 ∧ t.rd (Reg.RDC_LIVE_AT c) = atWord (s.rdc c).live.at_ % 2 ^ 96 ∧
    t.rd (Reg.RDC_LIVE_SPEED c) = unsigned 32 (satS 32 (rne (s.rdc c).live.speed (2 ^ 16))) % 2 ^ 32 ∧ t = { s with regs := t.regs } ∧
    onlyRegs s t [Reg.RDC_LIVE_ANGLE c, Reg.RDC_LIVE_SPEED c, Reg.RDC_LIVE_ACCEL c, Reg.RDC_LIVE_ELEC c, Reg.RDC_LIVE_AT c])

/-- Harmonic learning (R190 to R193): LEARN starts on a locked channel, ABORT and a cause end it FAILED with its code, TURNS accepted turns
end it DONE or with code 4, ACTIVATE makes the staging table active with a beat of SETTLING, and CLEAR zeroes the staging table.
Where the spec leaves a point of this open, the model's reading is log entry 72. -/
def Obligations.HarmonicLearning : Prop := ∀ (s : State) (c : Nat), c < 32 →
  (∀ src, s.takes src .RDC_CTRL (c / 16) (c % 16) true = true →
    (s.rdcOwn c = true → ∃ t, exec (.rdcLearn src c) s = .next t ∧ t.rd (Reg.RDC_HARM_STAT_LSTATE c) = 1 ∧ t.rd (Reg.RDC_HARM_STAT_FAIL c) = 0 ∧
      t.rd (Reg.RDC_HARM_STAT_ACCEPTED c) = 0 ∧ t.rd (Reg.RDC_HARM_STAT_DISCARDED c) = 0 ∧ t.rd (Reg.RDC_STAT_LEARNING c) = 1 ∧
      (∃ l, (t.rdc c).learn = some l ∧ l.turns = max 4 (s.eff (Reg.RDC_HARM_CFG_TURNS c)) ∧ l.cause = 0 ∧ l.seen = false) ∧
      t = { s with regs := t.regs, ax := t.ax, kn := t.kn } ∧
      onlyRegs s t [Reg.RDC_HARM_STAT_LSTATE c, Reg.RDC_HARM_STAT_FAIL c, Reg.RDC_HARM_STAT_ACCEPTED c, Reg.RDC_HARM_STAT_DISCARDED c, Reg.RDC_STAT_LEARNING c]) ∧
    (s.rdcOwn c = false → ∃ t, exec (.rdcLearn src c) s = .next t ∧ t = { s with kn := t.kn }) ∧
    ((s.rdc c).learn.isSome = true → ∃ t, exec (.rdcAbort src c) s = .next t ∧ (t.rdc c).learn = none ∧ t.rd (Reg.RDC_HARM_STAT_LSTATE c) = 3 ∧
      t.rd (Reg.RDC_HARM_STAT_FAIL c) = 5 ∧ t.rd (Reg.RDC_STAT_LEARNING c) = 0 ∧ barks s t (axSrc (c / 16)) (axCode (c / 16) 0x11) ∧
      t = { s with regs := t.regs, ax := t.ax, bq := t.bq, kn := t.kn } ∧
      onlyRegs s t [Reg.RDC_HARM_STAT_LSTATE c, Reg.RDC_HARM_STAT_FAIL c, Reg.RDC_STAT_LEARNING c]) ∧
    (∃ t, exec (.rdcHarmClear src c) s = .next t ∧ (∀ h, 1 ≤ h → h ≤ 16 → t.rd (Reg.RDC_HARM_STG_A c h) = 0 ∧ t.rd (Reg.RDC_HARM_STG_B c h) = 0) ∧
      t = { s with regs := t.regs, kn := t.kn } ∧
      onlyRegs s t ((List.range 16).flatMap (fun i => [Reg.RDC_HARM_STG_A c (i + 1), Reg.RDC_HARM_STG_B c (i + 1)]))) ∧
    (src = .direct → ∃ t, exec (.rdcHarmActivate src c) s = .next t ∧ t.ax.acts = s.ax.acts.filter (fun q => q.1 ≠ c) ++ [(c, beatNext s.now)] ∧
      t = { s with ax := t.ax, kn := t.kn }) ∧
    (src = .cfg → ∃ t, exec (.rdcHarmActivate src c) s = .next t ∧ t.rd (Reg.RDC_HARM_ACT_TABLE c) = s.harmStg c % 2 ^ 1024 ∧
      s.now + cclkBeat ≤ (t.rdc c).settle ∧ barks s t (axSrc (c / 16)) (axCode (c / 16) 0x12) ∧ onlyRegs s t [Reg.RDC_HARM_ACT_TABLE c] ∧
      t = { s with regs := t.regs, ax := t.ax, bq := t.bq, kn := t.kn })) ∧
  (∀ l, (s.rdc c).learn = some l → l.cause ≠ 0 → l.cause < 8 → ∃ t, exec (.rdcHarmFail c) s = .next t ∧ (t.rdc c).learn = none ∧
    t.rd (Reg.RDC_HARM_STAT_LSTATE c) = 3 ∧ t.rd (Reg.RDC_HARM_STAT_FAIL c) = l.cause ∧ barks s t (axSrc (c / 16)) (axCode (c / 16) 0x11) ∧
    t = { s with regs := t.regs, ax := t.ax, bq := t.bq } ∧
    onlyRegs s t [Reg.RDC_HARM_STAT_LSTATE c, Reg.RDC_HARM_STAT_FAIL c, Reg.RDC_STAT_LEARNING c]) ∧
  (∀ l w, (s.rdc c).learn = some l → l.cause = 0 → l.turns ≤ s.rd (Reg.RDC_HARM_STAT_ACCEPTED c) →
    w = (List.range 16).map (fun i => (fun q : Int × Int => (rne (q.1 * (2 ^ 36 : Nat)) realOne, rne (q.2 * (2 ^ 36 : Nat)) realOne))
      (unLoop (loopKI (s.fnActs c 0)) (loopKP (s.fnActs c 0) (s.zeta c)) (rne l.wSum l.turns) (i + 1) (learnedCoef (binMeans l.acc) (i + 1)))) →
    (w.any (fun q => 2 ^ 31 ≤ q.1.natAbs || 2 ^ 31 ≤ q.2.natAbs) = true → ∃ t, exec (.rdcHarmDone c) s = .next t ∧ (t.rdc c).learn = none ∧
      t.rd (Reg.RDC_STAT_LEARNING c) = 0 ∧ t.rd (Reg.RDC_HARM_STAT_LSTATE c) = 3 ∧ t.rd (Reg.RDC_HARM_STAT_FAIL c) = 4 ∧
      barks s t (axSrc (c / 16)) (axCode (c / 16) 0x11)) ∧
    (w.any (fun q => 2 ^ 31 ≤ q.1.natAbs || 2 ^ 31 ≤ q.2.natAbs) = false → ∃ t, exec (.rdcHarmDone c) s = .next t ∧ (t.rdc c).learn = none ∧
      t.rd (Reg.RDC_STAT_LEARNING c) = 0 ∧ t.rd (Reg.RDC_HARM_STAT_LSTATE c) = 2 ∧ barks s t (axSrc (c / 16)) (axCode (c / 16) 0x10) ∧
      (∀ i, i < 16 → t.rdS (Reg.RDC_HARM_STG_A c (i + 1)) = (w.getD i (0, 0)).1 ∧ t.rdS (Reg.RDC_HARM_STG_B c (i + 1)) = (w.getD i (0, 0)).2))) ∧
  (∀ l, (s.rdc c).learn = some l → l.cause = 0 → s.rd (Reg.RDC_HARM_STAT_ACCEPTED c) < l.turns → ∃ t, exec (.rdcHarmDone c) s = .next t ∧ t = s)

/-- Fine position inputs at work (R204 to R208, R213 to R216): a short pulse is rejected, an edge counts by the mode's rule, a change of
both lines is a quadrature error, and a line, amplitude or speed fault takes the path it lies on.
Where the spec leaves a point of this open, the model's reading is log entries 73 and 154. -/
def Obligations.PositionCounting : Prop := ∀ (s : State) (i : Nat), i < 16 →
  (∀ la lb lz len sn cs, s.pfiOn i = true → s.pfiMode i ≠ pmSINCOS → (la ≠ (s.pfi i).a ∨ lb ≠ (s.pfi i).b) →
    (len < s.pfiFilt i → ∃ t, exec (.pfiEdge i la lb lz len sn cs) s = .next t ∧ t.rd (Reg.PFI_CNT_GLITCH i) = satU 32 (s.rd (Reg.PFI_CNT_GLITCH i) + 1) ∧
      t = { s with regs := t.regs } ∧ onlyRegs s t [Reg.PFI_CNT_GLITCH i]) ∧
    (∀ d, s.pfiFilt i ≤ len → (∀ e, (s.pfi i).edgeAt = some e → e + s.minEdge i ≤ s.run) → s.path i = pPULSE → (s.pfi i).c < 2 ^ 48 →
      decodeEdge (s.pfiMode i) (s.pfi i).a (s.pfi i).b la lb = some d → ∃ t, exec (.pfiEdge i la lb lz len sn cs) s = .next t ∧
      (t.pfi i).a = la ∧ (t.pfi i).b = lb ∧ (t.pfi i).z = lz ∧ (t.pfi i).edgeAt = some s.run ∧
      (t.pfi i).c = unsigned 48 (((s.pfi i).c : Int) + (if s.eff (Reg.PFI_CFG_INVERT i) = 1 then -d else d)) ∧
      t = { s with regs := t.regs, ax := t.ax } ∧ onlyRegs s t [Reg.PFI_STAT_HYST_PEND i]) ∧
    (s.pfiFilt i ≤ len → decodeEdge (s.pfiMode i) (s.pfi i).a (s.pfi i).b la lb = none → ∃ t, exec (.pfiEdge i la lb lz len sn cs) s = .next t ∧
      t.flag (Reg.PFI_STAT_QUAD_ERR i) = true ∧ t.rd (Reg.PFI_CNT_QUAD_ERR i) = satU 32 (s.rd (Reg.PFI_CNT_QUAD_ERR i) + 1) ∧
      t = { s with regs := t.regs, ax := t.ax, bq := t.bq })) ∧
  (∀ sn cs, s.pfiOn i = true → s.pfiMode i ≠ pmSINCOS → (s.pfi i).lineAB = false → ∃ t, exec (.pfiLineFault i false sn cs) s = .next t ∧
    (t.pfi i).lineAB = true ∧ t.flag (Reg.PFI_STAT_LINE_NOW i) = true ∧ t.flag (Reg.PFI_STAT_LINE_FAULT i) = true ∧
    (s.flag (Reg.PFI_STAT_FB_READY i) = false → t.flag (Reg.PFI_STAT_COUNT_VALID i) = false) ∧
    (s.flag (Reg.PFI_STAT_FB_READY i) = true → s.path i = pPULSE → t.path i = pFALLBACK ∧ t.flag (Reg.PFI_STAT_FB_SWITCH i) = true) ∧
    t = { s with regs := t.regs, ax := t.ax, bq := t.bq }) ∧
  (∀ z, ∃ t, exec (.pfiLineFaultClear i z) s = .next t ∧ (z = true → (t.pfi i).lineZ = false) ∧ (z = false → (t.pfi i).lineAB = false) ∧
    t = { s with regs := t.regs, ax := t.ax } ∧ onlyRegs s t [Reg.PFI_STAT_LINE_NOW i]) ∧
  (s.pfiOn i = true → (s.pfi i).scAmp = false → 2 ≤ (s.pfi i).ampOut → ∃ t, exec (.pfiScAmp i) s = .next t ∧
    (t.pfi i).scAmp = true ∧ t.flag (Reg.PFI_STAT_SC_AMP i) = true ∧
    (s.path i = pPULSE → t.flag (Reg.PFI_STAT_FB_READY i) = false ∧ t.flag (Reg.PFI_STAT_COUNT_VALID i) = s.flag (Reg.PFI_STAT_COUNT_VALID i)) ∧
    (s.path i ≠ pPULSE → t.flag (Reg.PFI_STAT_COUNT_VALID i) = false) ∧ t = { s with regs := t.regs, ax := t.ax, bq := t.bq }) ∧
  (s.pfiOn i = true → (s.pfi i).scAmp = true → 16 ≤ (s.pfi i).ampIn → ∃ t, exec (.pfiScAmp i) s = .next t ∧ (t.pfi i).scAmp = false ∧
    (t.pfi i).scOk = s.run ∧ t = { s with ax := t.ax }) ∧
  (s.pfiOn i = true → (s.pfi i).scFast = true → 16 ≤ (s.pfi i).slowRun → ∃ t, exec (.pfiScOverspeed i) s = .next t ∧ (t.pfi i).scFast = false ∧
    (t.pfi i).scOk = s.run ∧ t = { s with ax := t.ax }) ∧
  (s.pfiOn i = true → (s.pfi i).scFast = false → 2 ≤ (s.pfi i).fastRun → ∃ t, exec (.pfiScOverspeed i) s = .next t ∧ (t.pfi i).scFast = true ∧
    t.flag (Reg.PFI_STAT_SC_OVERSPEED i) = true ∧ (s.path i = pPULSE → t.flag (Reg.PFI_STAT_FB_READY i) = false) ∧
    (s.path i ≠ pPULSE → t.flag (Reg.PFI_STAT_COUNT_VALID i) = false) ∧ t = { s with regs := t.regs, ax := t.ax, bq := t.bq }) ∧
  (s.eff (Reg.PFI_CFG_FALLBACK i) = 1 → s.pfiOn i = true → s.pfiMode i = pmQUAD → s.path i = pPULSE → s.flag (Reg.PFI_STAT_FB_READY i) = false →
    (s.pfi i).scAmp = false → (s.pfi i).scFast = false → s.elapsed (s.pfi i).scOk (64 * cclkBeat) = true → (s.pfi i).c < 2 ^ 48 →
    ∃ t, exec (.pfiFbReady i) s = .next t ∧ t.flag (Reg.PFI_STAT_FB_READY i) = true ∧ t.converted i (s.pfi i).p = (s.pfi i).c ∧
      t = { s with regs := t.regs, ax := t.ax } ∧ onlyRegs s t [Reg.PFI_STAT_FB_READY i]) ∧
  (s.flag (Reg.PFI_STAT_FB_READY i) = true → 16 ≤ (s.pfi i).dis → ∃ t, exec (.pfiFbDisagree i) s = .next t ∧
    t.flag (Reg.PFI_STAT_FB_READY i) = false ∧ t.flag (Reg.PFI_STAT_COUNT_VALID i) = false ∧ t.flag (Reg.PFI_STAT_FB_DISAGREE i) = true ∧
    t.path i = s.path i ∧ t = { s with regs := t.regs, ax := t.ax, bq := t.bq })

/-- Fusion, the index and the operations of a position input (R209 to R211, R214, R219 to R223, R413).
Where the spec leaves a point of this open, the model's reading is log entries 74 and 154. -/
def Obligations.PositionFusion : Prop := ∀ (s : State) (i : Nat), i < 16 →
  (s.fuseEn i = true → s.fstate i = fsANCHOR → s.eff (Reg.PFI_FUSE_ANCHOR i) = 0 → (s.pfi i).winN = 2 ^ min 16 (s.eff (Reg.PFI_FUSE_AVG i)) →
    ∃ t, exec (.pfiFused i) s = .next t ∧ t.fstate i = fsFUSED ∧ (t.pfi i).qa = (s.pfi i).q ∧ (t.pfi i).lastF = some (t.pfi i).f ∧
      barks s t (axSrc (i / 8)) (axCode (i / 8) 0x29) ∧ t = { s with regs := t.regs, ax := t.ax, bq := t.bq } ∧
      onlyRegs s t [Reg.PFI_STAT_FSTATE i, Reg.PFI_STAT_FUSED_VALID i]) ∧
  (s.fstate i = fsFUSED → 16 ≤ (s.pfi i).slip → ∃ t, exec (.pfiFuseSlip i) s = .next t ∧ t.flag (Reg.PFI_STAT_FUSE_SLIP i) = true ∧
    t.rd (Reg.PFI_CNT_FUSE_SLIP i) = satU 32 (s.rd (Reg.PFI_CNT_FUSE_SLIP i) + 1) ∧
    t.fstate i = (if s.fuseEn i && s.pfiOn i then fsWAIT else fsOFF) ∧ (t.pfi i).slip = 0 ∧ t = { s with regs := t.regs, ax := t.ax, bq := t.bq } ∧
    onlyRegs s t [Reg.PFI_CNT_FUSE_SLIP i, Reg.PFI_STAT_FUSE_SLIP i, Reg.PFI_STAT_FSTATE i, Reg.PFI_STAT_FUSED_VALID i]) ∧
  (s.pfiOn i = true → s.eff (Reg.PFI_CFG_INDEX_MODE i) ≠ 0 → (s.pfi i).lineZ = false → (s.pfi i).ev = true →
    ∃ t, exec (.pfiIndex i) s = .next t ∧ (t.pfi i).idxC = (s.pfi i).c ∧ (t.pfi i).idxAt = s.now ∧ (t.pfi i).ev = false ∧
      t.flag (Reg.PFI_STAT_INDEX i) = true ∧
      (s.eff (Reg.PFI_CFG_INDEX_MODE i) = 2 → s.fuseEn i = false → (t.pfi i).c = s.eff (Reg.PFI_CFG_INDEX_VAL i) % 2 ^ 48 ∧
        (t.pfi i).q = s.eff (Reg.PFI_CFG_INDEX_VAL i) % 2 ^ 48 ∧ t.flag (Reg.PFI_STAT_COUNT_VALID i) = true) ∧
      (s.eff (Reg.PFI_CFG_INDEX_MODE i) = 3 → t.flag (Reg.PFI_STAT_IDX_ARMED i) = false) ∧
      (s.eff (Reg.PFI_CFG_INDEX_MODE i) = 1 → (t.pfi i).c = (s.pfi i).c ∧ (t.pfi i).q = (s.pfi i).q)) ∧
  (s.eff (Reg.PFI_CFG_INDEX_MODE i) = 0 ∨ (s.pfi i).lineZ = true ∨ (s.pfi i).ev = false → ∃ t, exec (.pfiIndex i) s = .next t ∧ t = s) ∧
  (∀ src, s.takes src .PFI_CTRL (i / 8) (i % 8) true = true →
    (s.eff (Reg.PFI_CFG_INDEX_MODE i) = 3 → ∃ t, exec (.pfiIdxArm src i) s = .next t ∧ t.flag (Reg.PFI_STAT_IDX_ARMED i) = true ∧
      t = { s with regs := t.regs, kn := t.kn } ∧ onlyRegs s t [Reg.PFI_STAT_IDX_ARMED i]) ∧
    (s.eff (Reg.PFI_CFG_INDEX_MODE i) ≠ 3 → ∃ t, exec (.pfiIdxArm src i) s = .next t ∧ t = { s with kn := t.kn }) ∧
    (∃ t, exec (.pfiSetCount src i) s = .next t ∧ (t.pfi i).setCount = some (s.rd (Reg.PFI_CTRL_VALUE i)) ∧ (t.pfi i).c = (s.pfi i).c ∧
      t = { s with ax := t.ax, kn := t.kn }) ∧
    (∃ t, exec (.pfiSetTurns src i) s = .next t ∧ (t.pfi i).setTurns = some (s.rd (Reg.PFI_CTRL_VALUE i) % 65536) ∧ (t.pfi i).fa = (s.pfi i).fa ∧
      t = { s with ax := t.ax, kn := t.kn }) ∧
    (s.path i = pFALLBACK → (s.pfi i).lineAB = false → ∃ t, exec (.pfiResume src i) s = .next t ∧ (t.pfi i).resume = true ∧
      t = { s with ax := t.ax, kn := t.kn }) ∧
    (s.path i ≠ pFALLBACK ∨ (s.pfi i).lineAB = true → ∃ t, exec (.pfiResume src i) s = .next t ∧ t = { s with kn := t.kn }) ∧
    (∃ t, exec (.pfiReanchor src i) s = .next t ∧ t.fstate i = (if s.fuseEn i && s.pfiOn i then fsWAIT else fsOFF) ∧ (t.pfi i).winN = 0 ∧
      t = { s with regs := t.regs, ax := t.ax, kn := t.kn } ∧ onlyRegs s t [Reg.PFI_STAT_FSTATE i, Reg.PFI_STAT_FUSED_VALID i])) ∧
  (s.domOn (16 + i / 8) = true → ∃ t, exec (.pfiLiveLatch i) s = .next t ∧ t.rd (Reg.PFI_LIVE_COUNT i) = (s.pfi i).q % 2 ^ 48 ∧
    t.rd (Reg.PFI_LIVE_RAW i) = (s.pfi i).c % 2 ^ 48 ∧ t.rd (Reg.PFI_LIVE_FUSED i) = (s.pfi i).f % 2 ^ 48 ∧
    t.rd (Reg.PFI_LIVE_AT i) = atWord (s.pfi i).at_ % 2 ^ 96 ∧ t.rd (Reg.PFI_LIVE_IDX_COUNT i) = (s.pfi i).idxC % 2 ^ 48 ∧
    t.rd (Reg.PFI_LIVE_IDX_AT i) = atWord (s.pfi i).idxAt % 2 ^ 96 ∧ t = { s with regs := t.regs } ∧
    onlyRegs s t [Reg.PFI_LIVE_IDX_COUNT i, Reg.PFI_LIVE_IDX_AT i, Reg.PFI_LIVE_COUNT i, Reg.PFI_LIVE_RAW i, Reg.PFI_LIVE_FUSED i, Reg.PFI_LIVE_SPEED i, Reg.PFI_LIVE_AT i])

/-- Probes and encoder emulation (R218, R226 to R230): an armed probe latches once, a continuous one outside its dead time, an emulation output
stops for a cause, resumes on its target, and emits at most 24 edges an update.
Where the spec leaves a point of this open, the model's reading is log entries 75, 76 and 154. -/
def Obligations.ProbesAndEmulation : Prop := ∀ s : State,
  (∀ p rise len ago, p < 8 → s.eff (Reg.PFI_PB_CFG_FILT p) ≤ len → s.eff (Reg.PFI_PB_CFG_EN p) = 1 → s.eff (Reg.PFI_PB_CFG_EDGE p) = 3 → s.axUp (p / 4) = true → s.sampling = true →
    (s.eff (Reg.PFI_PB_CFG_CONT p) ≠ 1 → s.flag (Reg.PFI_PB_STAT_ARMED p) = true → ∃ t, exec (.pbLatch p rise len ago) s = .next t ∧
      t.flag (Reg.PFI_PB_STAT_ARMED p) = false ∧ t.flag (Reg.PFI_PB_STAT_LATCHED p) = true ∧
      (t.probe p).word = latchWord s p ((s.probe p).n + 1) (s.now - ago) ∧ (t.probe p).last = some (s.run - ago) ∧ barks s t (axSrc (p / 4)) (axCode (p / 4) 0x30) ∧
      onlyRegs s t [Reg.PFI_PB_STAT_ARMED p, Reg.PFI_PB_STAT_LATCHED p]) ∧
    (s.eff (Reg.PFI_PB_CFG_CONT p) ≠ 1 → s.flag (Reg.PFI_PB_STAT_ARMED p) = false → ∃ t, exec (.pbLatch p rise len ago) s = .next t ∧ t = s) ∧
    (∀ l, s.eff (Reg.PFI_PB_CFG_CONT p) = 1 → (s.probe p).last = some l → s.run - ago < l + s.probeDead p → ∃ t, exec (.pbLatch p rise len ago) s = .next t ∧
      t.rd (Reg.PFI_PB_STAT_MISSED p) = satU 32 (s.rd (Reg.PFI_PB_STAT_MISSED p) + 1) ∧ t.probe p = s.probe p ∧
      barksRarely s t cclkSec (p % 4) (axSrc (p / 4)) (axCode (p / 4) 0x31) ∧ t = { s with regs := t.regs, bq := t.bq } ∧
      onlyRegs s t [Reg.PFI_PB_STAT_MISSED p])) ∧
  (∀ p src, p < 8 → s.takes src .PFI_PB_CFG (p / 4) (p % 4) true = true → s.eff (Reg.PFI_PB_CFG_CONT p) = 0 → ∃ t, exec (.pbArm src p) s = .next t ∧
    t.flag (Reg.PFI_PB_STAT_ARMED p) = true ∧ t = { s with regs := t.regs, kn := t.kn } ∧ onlyRegs s t [Reg.PFI_PB_STAT_ARMED p]) ∧
  (∀ p, p < 8 → s.domOn (16 + p / 4) = true → ∃ t, exec (.pbLatchRead p) s = .next t ∧ t.rd (Reg.PFI_PB_LATCH_AT p) = (s.probe p).word % 2 ^ 96 ∧
    t.rd (Reg.PFI_PB_LATCH_LATCH_NO p) = (s.probe p).word / 2 ^ 128 % 2 ^ 32 ∧
    (∀ i, i < 8 → t.rd (Reg.PFI_PB_LATCH_COUNT p i) = (s.probe p).word / 2 ^ (672 + 128 * i) % 2 ^ 48) ∧ t = { s with regs := t.regs }) ∧
  (∀ e, e < 16 → s.eeBarred e = true → (s.emu e).muzzled = false → ∃ t, exec (.eeUpdate e) s = .next t ∧ (t.emu e).muzzled = true ∧ (t.emu e).edges = [] ∧
    t.rd (Reg.EE_STAT_LIVE e) = 0 ∧ t.rd (Reg.EE_STAT_MUZZLED e) = 1 ∧ t = { s with regs := t.regs, ax := t.ax } ∧
    onlyRegs s t [Reg.EE_STAT_LIVE e, Reg.EE_STAT_MUZZLED e, Reg.EE_STAT_LAGGING e]) ∧
  (∀ e, e < 16 → s.eeBarred e = false → (s.emu e).changed = false → (s.emu e).muzzled = true →
    (s.eff (Reg.EE_CFG_AUTO_RESUME e) = 1 ∨ (s.emu e).restart = true → ∃ t, exec (.eeUpdate e) s = .next t ∧ (t.emu e).muzzled = false ∧
      (t.emu e).e = s.eeTarget e ∧ t.rd (Reg.EE_STAT_LIVE e) = 1 ∧ t.rd (Reg.EE_STAT_MUZZLED e) = 0 ∧ t.flag (Reg.EE_STAT_RESUMED e) = true ∧
      t.rd (Reg.EE_CNT_RESUMES e) = satU 32 (s.rd (Reg.EE_CNT_RESUMES e) + 1) ∧ barks s t (axSrc (e / 8)) (axCode (e / 8) 0x3A) ∧
      t = { s with regs := t.regs, ax := t.ax, bq := t.bq }) ∧
    (s.eff (Reg.EE_CFG_AUTO_RESUME e) ≠ 1 → (s.emu e).restart = false → ∃ t, exec (.eeUpdate e) s = .next t ∧ t = s)) ∧
  (∀ e, e < 16 → s.eeBarred e = false → (s.emu e).changed = false → (s.emu e).muzzled = false →
    ((s.emu e).target - (s.emu e).e).natAbs ≤ 24 → ∃ t, exec (.eeUpdate e) s = .next t ∧ (t.emu e).e = (s.emu e).target ∧
      (t.emu e).edges.length = ((s.emu e).target - (s.emu e).e).natAbs ∧ (t.emu e).t = s.eeTarget e ∧ t.rd (Reg.EE_STAT_LAGGING e) = 0 ∧
      t = { s with regs := t.regs, ax := t.ax } ∧ onlyRegs s t [Reg.EE_STAT_LAG e, Reg.EE_STAT_EMITTED e, Reg.EE_STAT_LAGGING e]) ∧
  (∀ e, e < 16 → s.eeBarred e = false → (s.emu e).changed = false → (s.emu e).muzzled = false →
    max 24 (s.eff (Reg.EE_CFG_LAG_MAX e)) < ((s.emu e).target - (s.emu e).e).natAbs → ∃ t, exec (.eeUpdate e) s = .next t ∧
      (t.emu e).muzzled = true ∧ (t.emu e).fault = true ∧ t.flag (Reg.EE_STAT_LAG_FAULT e) = true ∧ lastBark t (axSrc (e / 8)) (axCode (e / 8) 0x39)) ∧
  (∀ e src, e < 16 → s.takes src .EE_CTRL (e / 8) (e % 8) true = true → ∃ t, exec (.eeRestart src e) s = .next t ∧
    ((s.emu e).muzzled = true → (t.emu e).restart = true ∧ (t.emu e).fault = false) ∧ ((s.emu e).muzzled = false → t.emu e = s.emu e) ∧
    t = { s with ax := t.ax, kn := t.kn })

/-- The loop engine at a beat boundary (R233, R236, R237, R246, R249): a due loop takes its bank and its last demand, a loop that is off reads
OFF, an evaluated one reads RUN, HOLD, SRC_HOLD or FAULT, and a feedback stream that never gave a slot faults it with demand 0.
Where the spec leaves a point of this open, the model's reading is log entries 77, 78, 79, 80 and 155. -/
def Obligations.LoopBoundaries : Prop := ∀ s : State,
  (s.domOn 27 = false → ∃ t, exec .loopEvaluate s = .next t ∧ t = s) ∧
  (∀ l, l < 64 → s.domOn 27 = true → s.bn % 2 ^ s.loopP l = 0 → ∃ t, exec .loopEvaluate s = .next t ∧
    bits (t.rd Reg.LE_BANK_ACT_ACT) l 1 = bits (s.rd Reg.LE_BANK_SEL_SEL) l 1 ∧
    (s.engine ≠ 0 → s.loopOn l = true → (t.loop l).uNow = (s.loop l).u ∧ 2 ≤ t.rd (Reg.LE_LOOP_STAT_STATE l) ∧ t.rd (Reg.LE_LOOP_STAT_STATE l) ≤ 5) ∧
    (s.engine ≠ 0 → s.loopOn l = false → (t.loop l).uNow = 0 ∧ t.rd (Reg.LE_LOOP_STAT_STATE l) = 0) ∧
    (s.engine ≠ 0 → s.loopOn l = true → s.eff (Reg.LE_LOOP_CFG_FB_KIND l) = 1 → (s.rd_.latest.get {} (s.eff (Reg.LE_LOOP_CFG_FB_IDX l))).seen = [] →
      t.rd (Reg.LE_LOOP_STAT_STATE l) = 5 ∧ (t.loop l).u = 0 ∧ t.rd (Reg.LE_LOOP_STAT_U l) = 0))

/-- The command bits of loops and arenas, and bank requests (R243, R245, R246, R249, R414, R423): each is noted and acts at its boundary.
Where the spec leaves a point of this open, the model's reading is log entries 79 and 80. -/
def Obligations.LoopOperations : Prop := ∀ s : State,
  (∀ src g, g < 16 → s.takes src .LE_ARENA_CTRL 0 g true = true →
    (∃ t, exec (.leArenaArm src g) s = .next t ∧ t.flag (Reg.LE_ARENA_STAT_ARMED g) = true ∧ t = { s with regs := t.regs, dv := t.dv, aos := t.aos, kn := t.kn } ∧
      onlyRegs s t [Reg.LE_ARENA_STAT_ARMED g]) ∧
    ((s.arena g).stopped = true ∨ (s.arena g).satMuz = true → ∃ t, exec (.leArenaRestart src g) s = .next t ∧ (t.arena g).restart = true ∧
      t = { s with le := t.le, kn := t.kn }) ∧
    ((s.arena g).stopped = false → (s.arena g).satMuz = false → ∃ t, exec (.leArenaRestart src g) s = .next t ∧ t = { s with kn := t.kn })) ∧
  (∀ src g, g < 16 → s.takes src .LE_ARENA_CTRL 0 g false = true →
    (∃ t, exec (.leArenaDisarm src g) s = .next t ∧ t.flag (Reg.LE_ARENA_STAT_ARMED g) = false ∧
      (s.mode = mCOMMISSION → s.arenaOk g = true → (s.arena g).satMuz = false → t.rd (Reg.LE_ARENA_STAT_STATE g) = 1)) ∧
    (s.mode ≠ mCOMMISSION → ∃ t, exec (.leArenaDisarm src g) s = .next t ∧ t = { s with regs := t.regs, kn := t.kn } ∧
      onlyRegs s t [Reg.LE_ARENA_STAT_ARMED g])) ∧
  (∀ src l, l < 64 → s.takes src .LE_LOOP_CTRL 0 l true = true →
    (∃ t, exec (.leIClr src l) s = .next t ∧ t.loop l = { s.loop l with iClr := true } ∧ (∀ k, k ≠ l → t.loop k = s.loop k) ∧ t = { s with le := t.le, kn := t.kn }) ∧
    (∀ v, ∃ t, exec (.leISet src l v) s = .next t ∧ t.loop l = { s.loop l with iSet := some (signed 16 (v % 65536)) } ∧
      t.rd (Reg.LE_LOOP_CTRL_I_VAL l) = v % 65536 ∧ (∀ k, k ≠ l → t.loop k = s.loop k) ∧ t = { s with regs := t.regs, le := t.le, kn := t.kn } ∧
      onlyRegs s t [Reg.LE_LOOP_CTRL_I_VAL l]) ∧
    (∃ t, exec (.leLoopRestart src l) s = .next t ∧ t.loop l = { s.loop l with restart := true } ∧ (∀ k, k ≠ l → t.loop k = s.loop k) ∧
      t = { s with le := t.le, kn := t.kn })) ∧
  (∀ v, s.takes .direct .LE_BANK_SEL 0 0 false = true →
    (∃ t, exec (.leBankSelWrite 0 v) s = .next t ∧ t = { s with hold := t.hold, kn := t.kn }) ∧
    (∀ low, s.hold.get 0 Reg.LE_BANK_SEL_SEL.key = low + 1 → low < 2 ^ 32 → (∀ l, l < 64 → s.selOpen l = true) →
      ∃ t, exec (.leBankSelWrite 1 v) s = .next t ∧ t.rd Reg.LE_BANK_SEL_SEL = low + v % 2 ^ 32 * 2 ^ 32 ∧
        t = { s with regs := t.regs, hold := t.hold, kn := t.kn } ∧ onlyRegs s t [Reg.LE_BANK_SEL_SEL]))

/-- Analogue outputs (R19, R243, R274 to R279): at a beat a disabled output stands at its clear code and a free one takes its code, an edge
of /AOCLR clears its eight outputs at once, and each fault that has stood for two beats sets its bits.
Where the spec leaves a point of this open, the model's reading is log entry 84. -/
def Obligations.AnalogueOutputs : Prop := ∀ s : State,
  (∀ vs amps head, s.domOn 18 = false → ∃ t, exec (.aoBeatUpdate vs amps head) s = .next t ∧ t = s) ∧
  (∀ vs amps head o, s.domOn 18 = true → o < 16 → ∃ t, exec (.aoBeatUpdate vs amps head) s = .next t ∧
    (s.flag (Reg.AO_CFG_EN o) = false → t.rd (Reg.AO_STAT_CODE_NOW o) = s.rd (Reg.AO_CLEAR_CODE_CODE o) % 2 ^ 24 ∧ t.rd (Reg.AO_STAT_STATE o) = 0) ∧
    (s.aoFree o = true → (s.ao o).rangeNow = 0 → s.rd (Reg.AO_CFG_RANGE o) = 0 → s.aoSrc o = 0 → s.rd (Reg.AO_CFG_SLEW o) = 0 →
      t.rd (Reg.AO_STAT_CODE_NOW o) = s.rd (Reg.AO_CODE_CODE o) % 2 ^ 24 ∧ t.rd (Reg.AO_STAT_STATE o) = 3 ∧ t.rd (Reg.AO_STAT_CLIP o) = 0)) ∧
  (∀ ch, ch < 2 →
    (s.flag (if ch = 0 then Reg.DV_CARD_STAT_AOCLR0 else Reg.DV_CARD_STAT_AOCLR1) = false → ∃ t, exec (.aoclrEdge ch true) s = .next t ∧
      t.flag (if ch = 0 then Reg.DV_CARD_STAT_AOCLR0 else Reg.DV_CARD_STAT_AOCLR1) = true ∧ barks s t 0x31 0x3104 ∧
      (∀ k, k < 8 → t.rd (Reg.AO_STAT_CODE_NOW (8 * ch + k)) = s.rd (Reg.AO_CLEAR_CODE_CODE (8 * ch + k)) % 2 ^ 24 ∧
        t.flag (Reg.AO_STAT_CLR_PIN (8 * ch + k)) = true) ∧ t = { s with regs := t.regs, aos := t.aos, bq := t.bq }) ∧
    (s.flag (if ch = 0 then Reg.DV_CARD_STAT_AOCLR0 else Reg.DV_CARD_STAT_AOCLR1) = true → ∃ t, exec (.aoclrEdge ch false) s = .next t ∧
      t.flag (if ch = 0 then Reg.DV_CARD_STAT_AOCLR0 else Reg.DV_CARD_STAT_AOCLR1) = false ∧ barks s t 0x31 0x3104 ∧
      t = { s with regs := t.regs, bq := t.bq } ∧ onlyRegs s t [if ch = 0 then Reg.DV_CARD_STAT_AOCLR0 else Reg.DV_CARD_STAT_AOCLR1])) ∧
  (∀ src o code, o < 16 → s.arenaOn 3 o = none → s.takes src .AO_CODE 0 o true = true → ∃ t, exec (.aoCodeWrite src o code) s = .next t ∧
    t.rd (Reg.AO_CODE_CODE o) = code % 2 ^ 24 ∧ (t.ao o).leashHeld = false ∧ (s.mode = mCOMMISSION → (t.ao o).live = true) ∧
    t = { s with regs := t.regs, aos := t.aos, kn := t.kn } ∧ onlyRegs s t [Reg.AO_CODE_CODE o]) ∧
  (∀ o code, o < 16 → (s.arenaOn 3 o).isSome = true → ∃ t, exec (.aoCodeWrite .direct o code) s = .next t ∧
    t.rd Reg.HUB_WR_STAT_DISCARDS = satU 32 (s.rd Reg.HUB_WR_STAT_DISCARDS + 1) ∧ t = { s with regs := t.regs } ∧
    onlyRegs s t [Reg.HUB_WR_STAT_DISCARDS, Reg.HUB_WR_STAT_LAST_OFS]) ∧
  (∀ o, o < 16 → 2 ≤ (s.ao o).low → s.flag (Reg.AO_STAT_COMPLIANCE o) = false → ∃ t, exec (.aoCompliance o) s = .next t ∧
    t.flag (Reg.AO_STAT_COMPLIANCE o) = true ∧ t.flag (Reg.AO_STAT_COMPL_SEEN o) = true ∧
    t.rd Reg.AO_CNT_COMPL_EVENTS = satU 32 (s.rd Reg.AO_CNT_COMPL_EVENTS + 1) ∧ barks s t 0x31 0x3101 ∧ t = { s with regs := t.regs, bq := t.bq } ∧
    onlyRegs s t [Reg.AO_STAT_COMPLIANCE o, Reg.AO_STAT_COMPL_SEEN o, Reg.AO_CNT_COMPL_EVENTS]) ∧
  (∀ o, o < 16 → 2 ≤ (s.ao o).openN → s.flag (Reg.AO_STAT_OPEN o) = false → ∃ t, exec (.aoOpen o) s = .next t ∧
    t.flag (Reg.AO_STAT_OPEN o) = true ∧ t.flag (Reg.AO_STAT_OPEN_SEEN o) = true ∧ t.rd Reg.AO_CNT_OPEN_EVENTS = satU 32 (s.rd Reg.AO_CNT_OPEN_EVENTS + 1) ∧
    barks s t 0x31 0x3102 ∧ t = { s with regs := t.regs, bq := t.bq } ∧
    onlyRegs s t [Reg.AO_STAT_OPEN o, Reg.AO_STAT_OPEN_SEEN o, Reg.AO_CNT_OPEN_EVENTS]) ∧
  (∀ o, o < 16 → 2 ≤ (s.ao o).overN → s.flag (Reg.AO_STAT_OVERLOAD o) = false → ∃ t, exec (.aoOverload o) s = .next t ∧
    t.flag (Reg.AO_STAT_OVERLOAD o) = true ∧ t.flag (Reg.AO_STAT_OVERLOAD_SEEN o) = true ∧ barks s t 0x31 0x3103 ∧
    t = { s with regs := t.regs, bq := t.bq } ∧ onlyRegs s t [Reg.AO_STAT_OVERLOAD o, Reg.AO_STAT_OVERLOAD_SEEN o])

/-- MOVE, HOME, GROUP_MOVE and STOP (R243, R260 to R264, R267, R268, R310): the first check that fails gives the status; an accepted motion
waits for the next beat boundary with its command carried; STOP ends pulses at once, and what waits to start.
Where the spec leaves a point of this open, the model's reading is log entries 81, 82, 88, 138 and 139. -/
def Obligations.MotionCommands : Prop := ∀ (s : State) (h : CmdHdr), byRing s h →
  (∀ a kind value vmax acc dec,
    (∀ st, moveRefuse s h a kind value = some st → ∃ t, exec (.move h a kind value vmax acc dec) s = .next t ∧ settled t h ∧ posts s t h st) ∧
    (moveRefuse s h a kind value = none → h.inst = .none → (s.axis a).next = none → ∃ t, exec (.move h a kind value vmax acc dec) s = .next t ∧
      carried t h ∧ (t.axis a).next = some (mkMove h kind value vmax acc dec) ∧ (∀ b, b ≠ a → t.axis b = s.axis b) ∧
      t = { s with hp := t.hp, dv := t.dv, pw := t.pw })) ∧
  (∀ a source n dir vel dist pos stream thresh,
    (∀ st, homeRefuse s h a source n dir = some st →
      ∃ t, exec (.home h a source n dir vel dist pos stream thresh) s = .next t ∧ settled t h ∧ posts s t h st) ∧
    (homeRefuse s h a source n dir = none → h.inst = .none → (s.axis a).next = none →
      ∃ t, exec (.home h a source n dir vel dist pos stream thresh) s = .next t ∧ carried t h ∧
        (t.axis a).next = some (mkHome h source n dir vel dist pos stream thresh) ∧ t = { s with hp := t.hp, dv := t.dv, pw := t.pw })) ∧
  (∀ mask kind vmax acc dec targets,
    (∀ st, groupRefuse s h mask kind targets = some st → ∃ t, exec (.groupMove h mask kind vmax acc dec targets) s = .next t ∧ settled t h ∧ posts s t h st) ∧
    (groupRefuse s h mask kind targets = none → h.inst = .none → ∃ t, exec (.groupMove h mask kind vmax acc dec targets) s = .next t ∧ carried t h ∧
      (∃ g, t.dv.groupNext = s.dv.groupNext ++ [g] ∧ g.hdr = h ∧ g.mask = mask ∧ g.members = groupMembers s mask kind targets ∧ g.s = 0) ∧
      t = { s with hp := t.hp, dv := t.dv, pw := t.pw })) ∧
  (s.modeDrives = false ∨ s.halted = true → ∀ a kind value source n dir mask targets, moveRefuse s h a kind value = some .modeForbids ∧
    homeRefuse s h a source n dir = some .modeForbids ∧ groupRefuse s h mask kind targets = some .modeForbids) ∧
  (∀ kind a mask st, stopRefuse s kind a mask = some st → ∃ t, exec (.stop h kind a mask) s = .next t ∧ settled t h ∧ posts s t h st) ∧
  (∀ a, s.barred = false → a < 16 → h.inst = .none → s.arenaOn 1 a = none → s.inGroup a = false →
    (s.axState a = axMOVING → ∃ t, exec (.stop h 0 a 0) s = .next t ∧ settled t h ∧ t.axState a = axHOLD ∧ (t.axis a).vel = 0 ∧
      (t.axis a).motion = .still ∧ t.posValid a = false ∧ t.flag (Reg.DV_AX_STAT_INTERRUPTED a) = true ∧
      t.rd Reg.DV_CNT_INTERRUPTS = satU 32 (s.rd Reg.DV_CNT_INTERRUPTS + 1)) ∧
    ((s.axis a).waiting.isSome = true ∨ (s.axis a).next.isSome = true → ∃ t, exec (.stop h 0 a 0) s = .next t ∧ settled t h ∧
      (t.axis a).waiting = none ∧ (t.axis a).next = none ∧ t.axState a ≠ axWAIT) ∧
    (s.axState a ≠ axMOVING → (s.axis a).waiting = none → (s.axis a).next = none →
      ∃ t, exec (.stop h 0 a 0) s = .next t ∧ settled t h ∧ posts s t h .ok ∧ t = { s with hp := t.hp }))

/-- What happens at a drive's boundaries (R254 to R256, R259 to R261, R265): a queued motion starts, waits, or ends where it may no longer
start; a motion that waited too long is denied, the current falls after HOLD_DELAY, and a beat moves the generator by its law.
Where the spec leaves a point of this open, the model's reading is log entries 81, 89, 138, 141 and 142. -/
def Obligations.MotionBoundaries : Prop := ∀ (s : State) (a : Nat), a < 16 →
  (∀ m, (s.axis a).next = some m → s.d0Waits = false → s.axState a ≠ axMOVING → (s.axis a).waiting = none →
    (s.startBar a m = none → s.motionFunded a = true → ∃ t, exec (.moveStart a) s = .next t ∧ t.axState a = axMOVING ∧
      (t.axis a).motion = bindTarget (s.limApply a) s.now (s.axis a) m ∧
      (t.axis a).next = none ∧ (t.axis a).on = true ∧ t = { s with regs := t.regs, dv := t.dv } ∧
      onlyRegs s t [Reg.DV_AX_STAT_STATE a, Reg.DV_AX_STAT_AT_LIM_LO a, Reg.DV_AX_STAT_AT_LIM_HI a]) ∧
    (s.startBar a m = none → s.motionFunded a = false → ∃ t, exec (.moveStart a) s = .next t ∧ t.axState a = axWAIT ∧ (t.axis a).waiting = some (markDeferred m) ∧
      (t.axis a).next = none ∧ t.waitsFor 0 (axCid a) = true ∧ barks s t 0x30 0x3008 ∧ t = { s with regs := t.regs, dv := t.dv, pw := t.pw, bq := t.bq } ∧
      onlyRegs s t [Reg.DV_AX_STAT_STATE a]) ∧
    (∀ c h d, byRing s h → s.startBar a m = some c → motionHdr m = some (h, d) → (s.axis a).energise = false → ∃ t, exec (.moveStart a) s = .next t ∧ settled t h ∧
      (t.axis a).next = none ∧ t.axState a = s.axState a ∧ t.waitsFor 0 (axCid a) = false ∧ t = { s with hp := t.hp, dv := t.dv, pw := t.pw })) ∧
  (∀ m h d, s.dv.groups = [] → (s.axis a).waiting = some m → motionCls m ≠ 0 → motionHdr m = some (h, d) → s.axState a = axWAIT →
    s.elapsed (s.axis a).waitSince s.grantWait = true → ∃ t, exec (.dvBudgetDenied a) s = .next t ∧ settled t h ∧ (t.axis a).waiting = none ∧
      t.axState a = restState (s.axis a) ∧ t.rd Reg.DV_CNT_BUDGET_DENIED = satU 32 (s.rd Reg.DV_CNT_BUDGET_DENIED + 1) ∧ t.waitsFor 0 (axCid a) = false) ∧
  (s.axState a = axHOLD → (s.axis a).runCur = true → s.elapsed (s.axis a).stillSince (s.rd (Reg.DV_AX_CFG_HOLD_DELAY a) * cclkMs) = true →
    ∃ t, exec (.holdDelayExpiry a) s = .next t ∧ (t.axis a).runCur = false ∧ t.pw.releases = s.pw.releases ++ [(0, axCid a, s.holdW a)] ∧
      t = { s with regs := t.regs, dv := t.dv, pw := t.pw } ∧
      onlyRegs s t [Reg.DV_AX_STAT_POS a, Reg.DV_AX_STAT_VEL a, Reg.DV_AX_STAT_IA_SET a, Reg.DV_AX_STAT_IB_SET a]) ∧
  (∀ chops, s.domOn 18 = false → ∃ t, exec (.driveBeatUpdate chops) s = .next t ∧ t = s) ∧
  (∀ chops v, s.domOn 18 = true → s.dv.groups = [] → s.dv.groupNext = [] → (s.axis a).setPos = some v → s.axState a ≠ axMOVING →
    ∃ t, exec (.driveBeatUpdate chops) s = .next t ∧ (t.axis a).pos = v * uStep ∧ t.posValid a = true ∧ (t.axis a).setPos = none) ∧
  (∀ chops m d, s.domOn 18 = true → s.dv.groups = [] → s.dv.groupNext = [] → (s.axis a).setPos = none → s.axState a = axMOVING → s.axBad a = false →
    (s.axis a).useNow = s.axUse a → (s.axis a).invNow = s.rd (Reg.DV_AX_CFG_INVERT a) → s.limApply a = false → (s.axis a).motion = .move m → m.kind = 2 →
    d = clamp (-(s.vmaxOf a m.vmax)) (s.vmaxOf a m.vmax) (velOf m.value) → ∃ t, exec (.driveBeatUpdate chops) s = .next t ∧
      (t.axis a).vel = towards (s.axis a).vel d (s.accFor a m.acc) (s.decFor a m.dec) ∧ (t.axis a).pos = (s.axis a).pos + (t.axis a).vel)

/-- Faults of the drive card (R19, R252, R258, R270, R403). -/
def Obligations.DriveFaults : Prop := ∀ s : State,
  (∀ a, a < 16 → s.axState a ≠ axLOCKOUT →
    ∃ t, exec (.dvHbConflict a) s = .next t ∧ t.flag (Reg.DV_AX_STAT_HB_CONFLICT a) = true ∧
      t.rd Reg.DV_CNT_HB_CONFLICTS = satU 32 (s.rd Reg.DV_CNT_HB_CONFLICTS + 1) ∧ (t.axis a).on = false ∧
      t.axState a = (if 2 ≤ ((s.axis a).conflicts.filter (fun t => s.run < t + 60 * cclkSec)).length then axLOCKOUT else axFAULT)) ∧
  (∀ a out ma, a < 16 → out < 4 →
    ((s.axis a).useNow = 2 → 3000 < ma → ∃ t, exec (.dvOvercurrent a out ma) s = .next t ∧ bit (t.rd (Reg.DV_AX_STAT_HEAT_OFF a)) out = true ∧
      t.flag (Reg.DV_AX_STAT_HEAT_SHORT a) = true ∧ t.flag (Reg.DV_AX_STAT_OVERCURRENT a) = true ∧ barks s t 0x30 0x300E ∧ t.axState a = s.axState a ∧
      t.rd Reg.DV_CNT_OVERCURRENTS = satU 32 (s.rd Reg.DV_CNT_OVERCURRENTS + 1) ∧ t = { s with regs := t.regs, bq := t.bq }) ∧
    ((s.axis a).useNow ≠ 2 → 6000 < ma → s.axState a ≠ axLOCKOUT → ∃ t, exec (.dvOvercurrent a out ma) s = .next t ∧ t.axState a = axFAULT ∧
      t.rd Reg.DV_CNT_OVERCURRENTS = satU 32 (s.rd Reg.DV_CNT_OVERCURRENTS + 1) ∧
      t.flag (Reg.DV_AX_STAT_OVERCURRENT a) = true ∧ (t.axis a).on = false ∧ lastBark t 0x30 0x3002) ∧
    (ma ≤ (if (s.axis a).useNow = 2 then 3000 else 6000) → ∃ t, exec (.dvOvercurrent a out ma) s = .next t ∧ t = s)) ∧
  (∀ a temp, a < 16 → 145 < temp → (s.axis a).otFault = false → s.axState a ≠ axLOCKOUT → ∃ t, exec (.dvOvertemp a temp) s = .next t ∧ t.axState a = axFAULT ∧
    t.flag (Reg.DV_AX_STAT_OVERTEMP a) = true ∧ t.flag (Reg.DV_AX_STAT_HOT a) = true ∧ (t.axis a).otFault = true ∧ lastBark t 0x30 0x3003) ∧
  (∀ a temp, a < 16 → 120 < temp → temp ≤ 145 → s.flag (Reg.DV_AX_STAT_HOT a) = false → ∃ t, exec (.dvOvertemp a temp) s = .next t ∧ t.flag (Reg.DV_AX_STAT_HOT a) = true ∧
    t.axState a = s.axState a ∧ barksRarely s t cclkSec a 0x30 0x3003 ∧ t = { s with regs := t.regs, bq := t.bq } ∧
    onlyRegs s t [Reg.DV_AX_STAT_TEMP a, Reg.DV_AX_STAT_HOT a]) ∧
  (∀ a temp, a < 16 → temp ≤ 120 ∨ s.flag (Reg.DV_AX_STAT_HOT a) = true → temp ≤ 145 ∨ (s.axis a).otFault = true → ∃ t, exec (.dvOvertemp a temp) s = .next t ∧
    t.rdS (Reg.DV_AX_STAT_TEMP a) = satS 8 temp ∧ t = { s with regs := t.regs } ∧ onlyRegs s t [Reg.DV_AX_STAT_TEMP a]) ∧
  (∀ a temp, a < 16 → temp < 110 → ∃ t, exec (.dvHotClear a temp) s = .next t ∧ t.flag (Reg.DV_AX_STAT_HOT a) = false ∧ (t.axis a).otFault = false ∧
    t = { s with regs := t.regs, dv := t.dv } ∧ onlyRegs s t [Reg.DV_AX_STAT_TEMP a, Reg.DV_AX_STAT_HOT a]) ∧
  (∀ a ph f (c : Chop), a < 16 → ph < 2 → f = (if ph = 0 then Reg.DV_AX_STAT_OPEN_A a else Reg.DV_AX_STAT_OPEN_B a) →
    c = (if ph = 0 then (s.axis a).chopA else (s.axis a).chopB) →
    (∀ t0, c.openSince = some t0 → s.elapsed t0 cclkMs = true → s.flag f = false → ∃ t, exec (.dvOpenPhase a ph) s = .next t ∧ t.flag f = true ∧
      t.flag (Reg.DV_AX_STAT_OPEN_SEEN a) = true ∧ barksRarely s t cclkSec a 0x30 0x3004 ∧ t = { s with regs := t.regs, bq := t.bq } ∧
      onlyRegs s t [f, Reg.DV_AX_STAT_OPEN_SEEN a]) ∧
    (∀ t0, c.openSince = none → c.okSince = some t0 → s.elapsed t0 cclkMs = true → ∃ t, exec (.dvOpenPhase a ph) s = .next t ∧ t.flag f = false ∧
      t = { s with regs := t.regs } ∧ onlyRegs s t [f]) ∧
    ((c.openSince = none ∧ c.okSince = none) ∨ (c.openSince.isSome = true ∧ c.okSince = none ∧ s.flag f = true) → exec (.dvOpenPhase a ph) s = .next s)) ∧
  (∀ a out ma, a < 16 → out < 4 →
    ((s.axis a).useNow = 2 → 4096 * 24576 ≤ 10 * heatOnTime (s.axis a) out → ∃ t, exec (.dvHeatOpen a out ma) s = .next t ∧
      bit (t.rd (Reg.DV_AX_STAT_HEAT_OPEN a)) out = decide (ma < 50) ∧
      (ma < 50 → bit (s.rd (Reg.DV_AX_STAT_HEAT_OPEN a)) out = false → barksRarely s t cclkSec a 0x30 0x3005 ∧ t.flag (Reg.DV_AX_STAT_OPEN_SEEN a) = true) ∧
      t = { s with regs := t.regs, bq := t.bq } ∧ onlyRegs s t [Reg.DV_AX_STAT_HEAT_OPEN a, Reg.DV_AX_STAT_OPEN_SEEN a]) ∧
    ((s.axis a).useNow ≠ 2 ∨ 10 * heatOnTime (s.axis a) out < 4096 * 24576 → exec (.dvHeatOpen a out ma) s = .next s)) ∧
  (∀ vb, s.domOn 19 = true → 3000 ≤ vb → ∃ t, exec (.dvBridgePwr vb) s = .next t ∧ t.bridgePwr = true ∧ t = { s with regs := t.regs } ∧
    onlyRegs s t [Reg.DV_CARD_STAT_BRIDGE_V, Reg.DV_CARD_STAT_BRIDGE_PWR]) ∧
  (∀ vb, vb < 3000 → s.bridgePwr = true → ∃ t, exec (.dvBridgePwr vb) s = .next t ∧ t.bridgePwr = false ∧ lastBark t 0x30 0x300B ∧
    ∀ a, a < 16 → s.axState a ≠ axOFF → s.axState a ≠ axFAULT → s.axState a ≠ axLOCKOUT → t.axState a = axMUZZLED ∧ (t.axis a).on = false)

/-- /HALT (R19, R270, R403): asserted on one channel it muzzles every driving axis at once; it ends only when both channels are released; a
disagreement of 100 ms barks. -/
def Obligations.Halt : Prop := ∀ (s : State) (ch : Nat), ch < 2 →
  (s.halted = false → ∃ t, exec (.haltAssert ch) s = .next t ∧ t.halted = true ∧ t.flag Reg.DV_CARD_STAT_HALT = true ∧ lastBark t 0x30 0x300A ∧
    ∀ a, a < 16 → s.axState a ≠ axOFF → s.axState a ≠ axFAULT → s.axState a ≠ axLOCKOUT → t.axState a = axHALTED ∧ (t.axis a).on = false) ∧
  (s.halted = true → ∃ t, exec (.haltAssert ch) s = .next t ∧ t.halted = true ∧ t.flag Reg.DV_CARD_STAT_HALT = true ∧
    t = { s with regs := t.regs, dv := t.dv } ∧ onlyRegs s t [Reg.DV_CARD_STAT_HALT]) ∧
  ((ch = 0 → s.dv.haltB = false) → (ch = 1 → s.dv.haltA = false) → ∃ t, exec (.haltRelease ch) s = .next t ∧ t.halted = false ∧
    t.flag Reg.DV_CARD_STAT_HALT = false ∧ (∀ a, a < 16 → s.axState a = axHALTED → t.axState a = axMUZZLED) ∧
    t = { s with regs := t.regs, dv := t.dv }) ∧
  ((ch = 0 ∧ s.dv.haltB = true) ∨ (ch = 1 ∧ s.dv.haltA = true) → ∃ t, exec (.haltRelease ch) s = .next t ∧ t.halted = true ∧ t = { s with dv := t.dv }) ∧
  (∀ t0, s.dv.haltDis = some t0 → s.elapsed t0 (100 * cclkMs) = true → s.dv.haltBarked = none → ∃ t, exec .dvHaltDiscrepancy s = .next t ∧
    barks s t 0x30 0x3012 ∧ t.dv.haltBarked.isSome = true ∧ t = { s with dv := t.dv, bq := t.bq })

/-- Axis commands, user tables and heaters (R255, R265, R270 to R272, R279, R281).
Where the spec leaves a point of this open, the model's reading is log entries 83 and 140. -/
def Obligations.AxisOperations : Prop := ∀ s : State,
  (∀ src a v, a < 16 → s.takes src .DV_AX_CTRL 0 a true = true → s.axState a ≠ axMOVING → ∃ t, exec (.dvSetPos src a v) s = .next t ∧
    (t.axis a).setPos = some (signed 32 (unsigned 32 v)) ∧ t.rd (Reg.DV_AX_CTRL_VALUE a) = unsigned 32 v % 2 ^ 32 ∧
    t = { s with regs := t.regs, dv := t.dv, kn := t.kn } ∧ onlyRegs s t [Reg.DV_AX_CTRL_VALUE a]) ∧
  (∀ src a, a < 16 → s.takes src .DV_AX_CTRL 0 a true = true → ∃ t, exec (.dvClrFault src a) s = .next t ∧ t.rd (Reg.DV_AX_STAT_HEAT_OFF a) = 0 ∧
    (s.axState a = axFAULT → (s.axis a).otFault = false →
      t.axState a = (if (s.axis a).useNow = 0 then axOFF else if s.halted then axHALTED else axMUZZLED)) ∧ (s.axState a = axLOCKOUT → t.axState a = axLOCKOUT) ∧
    (s.axState a = axFAULT → (s.axis a).otFault = true → t.axState a = axFAULT) ∧ t = { s with regs := t.regs, kn := t.kn } ∧
    onlyRegs s t [Reg.DV_AX_STAT_HEAT_OFF a, Reg.DV_AX_STAT_STATE a]) ∧
  (∀ src a, a < 16 → s.takes src .DV_AX_CTRL 0 a false = true → s.axState a ≠ axOFF → s.axState a ≠ axFAULT → s.axState a ≠ axLOCKOUT →
    ∃ t, exec (.dvMuzzle src a) s = .next t ∧ t.axState a = (if s.halted then axHALTED else axMUZZLED) ∧ (t.axis a).on = false ∧ (t.axis a).vel = 0) ∧
  (∀ src a, a < 16 → s.takes src .DV_AX_CTRL 0 a true = true → s.axState a = axMUZZLED → s.axUse a = 1 → s.modeDrives = true → s.halted = false →
    s.bridgePwr = true → s.d0On = true → ∃ t, exec (.dvEnergise src a) s = .next t ∧ (t.axis a).energise = true ∧ t.waitsFor 0 (axCid a) = true ∧
      t = { s with dv := t.dv, pw := t.pw, kn := t.kn }) ∧
  (∀ src d, s.takes src .DV_UTAB_DATA 0 0 true = true → s.rd Reg.DV_UTAB_ADDR_ADDR < 256 → ∃ t, exec (.dvUtabData src d) s = .next t ∧
    t.dv.utabStg.get 0 (256 * s.utabSel + s.rd Reg.DV_UTAB_ADDR_ADDR) = d % 65536 ∧ t.rd Reg.DV_UTAB_ADDR_ADDR = (s.rd Reg.DV_UTAB_ADDR_ADDR + 1) % 256 ∧
    t = { s with regs := t.regs, dv := t.dv, kn := t.kn } ∧ onlyRegs s t [Reg.DV_UTAB_DATA_DATA, Reg.DV_UTAB_ADDR_ADDR]) ∧
  (∀ src, s.takes src .DV_UTAB_CTRL 0 0 true = true →
    (utabCheck s s.utabSel = 0 → ∃ t, exec (.dvUtabActivate src) s = .next t ∧
      t.dv.utabNext = some (s.utabSel, (List.range 256).map (fun i => s.dv.utabStg.get 0 (256 * s.utabSel + i))) ∧ t = { s with dv := t.dv, kn := t.kn }) ∧
    (utabCheck s s.utabSel ≠ 0 → ∃ t, exec (.dvUtabActivate src) s = .next t ∧ t.flag Reg.DV_UTAB_CTRL_REJECT = true ∧
      t.rd Reg.DV_UTAB_CTRL_REASON = utabCheck s s.utabSel ∧ t = { s with regs := t.regs, kn := t.kn } ∧
      onlyRegs s t [Reg.DV_UTAB_CTRL_REJECT, Reg.DV_UTAB_CTRL_REASON]) ∧
    (∃ t, exec (.dvUtabRevert src) s = .next t ∧
      (∀ i, i < 256 → t.dv.utabStg.get 0 (256 * s.utabSel + i) = s.dv.utabAct.get 0 (256 * s.utabSel + i)) ∧ t = { s with dv := t.dv, kn := t.kn })) ∧
  (∀ src a d0 d1 d2 d3, a < 16 → s.takes src .DV_HEAT 0 a true = true → ∃ t, exec (.dvHeatWrite src a d0 d1 d2 d3) s = .next t ∧
    (∀ o, o < 4 → t.rd (Reg.DV_HEAT_DUTY a o) = if (s.arenaOn 2 (4 * a + o)).isSome then s.rd (Reg.DV_HEAT_DUTY a o) else heatWord d0 d1 d2 d3 o % 2 ^ 16) ∧
    (s.mode = mCOMMISSION → (t.axis a).heatLive = true) ∧ t = { s with regs := t.regs, dv := t.dv, pw := t.pw, bq := t.bq, kn := t.kn }) ∧
  (∀ a, a < 16 → (s.axis a).useNow = 2 → s.heatMode a = false → ∃ t, exec (.heatPeriod a) s = .next t ∧ (t.axis a).duty = [0, 0, 0, 0] ∧
    t = { s with dv := t.dv }) ∧
  (∀ a, a < 16 → (s.axis a).useNow = 2 → ∃ t, exec (.heatPeriod a) s = .next t ∧
    (∀ o, o < 4 → bit (s.rd (Reg.DV_AX_STAT_HEAT_OFF a)) o = true → (t.axis a).duty.getD o 0 = 0) ∧ (t.axis a).dutyWas = (s.axis a).duty ∧
    (t.axis a).heatAt = s.run ∧ (t.axis a).heatLen = s.heatBeats ∧ t = { s with regs := t.regs, dv := t.dv, pw := t.pw, bq := t.bq }) ∧
  (∀ a, a < 16 → (s.axis a).useNow = 2 → s.heatMode a = true → s.axState a = axHOLD → s.hasGrant 0 (axCid a) = true → ∃ t, exec (.heatPeriod a) s = .next t ∧
    (∀ o, o < 4 → s.heatFunded a o = true → bit (s.rd (Reg.DV_AX_STAT_HEAT_OFF a)) o = false → (t.axis a).duty.getD o 0 = s.heatDuty a (s.heatWant a o)) ∧
    t = { s with dv := t.dv }) ∧
  (∀ a t0, a < 16 → (s.axis a).zeroSince = some t0 → (s.axis a).useNow = 2 → s.elapsed t0 cclkSec = true → s.hasGrant 0 (axCid a) = true →
    ∃ t, exec (.heaterRelease a) s = .next t ∧ t.axState a = axMUZZLED ∧ (t.axis a).duty = [0, 0, 0, 0] ∧ (t.axis a).on = false ∧ t.pw.releases = s.pw.releases ++ [(0, axCid a, 0)] ∧
      t = { s with regs := t.regs, dv := t.dv, pw := t.pw } ∧ onlyRegs s t [Reg.DV_AX_STAT_STATE a])

/-- The governor's evaluation (R285 to R290, R391): both books hold GRANTED + FREE = BUDGET; with no request waiting the drive budget,
its smallest term and f are those of the rules; one waiting request that fits is granted, one that does not waits and is counted; a
book at fault is rebuilt, retrained or restarts the hub.
Where the spec leaves a point of this open, the model's reading is log entry 86. -/
def Obligations.GovernorEvaluation : Prop := ∀ s : State,
  (∃ t, exec (.governorEvaluate []) s = .next t ∧ ∀ k, k < 2 →
    t.rd (Reg.PW_BOOK_GRANTED k) = satU 16 (t.grantedIn k) ∧ t.rd (Reg.PW_BOOK_FREE k) = unsigned 16 (satS 16 (t.freeIn k)) ∧
    (t.freeIn k < 0 ↔ (if k = 0 then t.pw.deficit0 else t.pw.deficit1) = true)) ∧
  (s.pw.waits = [] → s.pw.yielded = [] → s.pw.releases = [] → bgIdle s 0x61 → bgIdle s 0x62 → ∃ t, exec (.governorEvaluate []) s = .next t ∧
    t.budgetOf 0 = s.driveBudget % 2 ^ 16 ∧ t.rd (Reg.PW_BOOK_LIMIT 0) = s.driveLimit ∧ t.budgetOf 1 = serviceBudget ∧
    (s.rd (Reg.PW_BOOK_LIMIT 0) ≠ s.driveLimit → ∃ b ∈ t.bq.staged, b.src = 3 ∧ b.code = 0x0301) ∧
    t.rd Reg.PW_GOV_GOV_VAL = fQ15 t.pw.fNum t.pw.fDen ∧ (∀ g, g < 16 → t.rd (Reg.LE_ARENA_STAT_GOV_VAL g) = fQ15 t.pw.fNum t.pw.fDen) ∧
    (s.pw.ovr = none → s.govWant + s.govRest ≤ s.driveBudget % 2 ^ 16 → t.pw.fNum = 1 ∧ t.pw.fDen = 1) ∧
    (s.pw.ovr = none → s.govRest ≤ s.driveBudget % 2 ^ 16 → s.driveBudget % 2 ^ 16 < s.govWant + s.govRest →
      t.pw.fNum = s.driveBudget % 2 ^ 16 - s.govRest ∧ t.pw.fDen = s.govWant ∧ t.rd Reg.PW_GOV_GOV_VAL < 0x8000) ∧
    t.pw.releases = [] ∧ t = { s with regs := t.regs, pw := t.pw, bq := t.bq }) ∧
  (∀ r, s.pw.waits = [r] → s.pw.yielded = [] → s.pw.releases = [] → r.book = 1 → r.cls = 1 → 0x40 ≤ r.cid →
    bgIdle s 0x61 → bgIdle s 0x62 →
    (s.heldBy 1 r.cid = 0 → r.want + s.grantedIn 1 ≤ serviceBudget → ∃ t, exec (.governorEvaluate []) s = .next t ∧ t.hasGrant 1 r.cid = true ∧
      t.heldBy 1 r.cid = r.want ∧ t.waitsFor 1 r.cid = false) ∧
    (s.heldBy 1 r.cid = 0 → 0 < r.want → serviceBudget < r.want + s.grantedIn 1 → r.counted = false → ∃ t, exec (.governorEvaluate []) s = .next t ∧
      t.waitsFor 1 r.cid = true ∧ t.heldBy 1 r.cid = 0 ∧ t.rd Reg.PW_CNT_WAITS = satU 32 (s.rd Reg.PW_CNT_WAITS + 1))) ∧
  (∀ b, b < 2 → ∃ t, exec (.governorEvaluate [b]) s = .next t ∧ t.rd (Reg.PW_BOOK_GRANTED b) = satU 16 (t.grantedIn b) ∧
    ∃ k ∈ t.bq.staged, k.src = 1 ∧ k.code = 0x011A) ∧
  (∀ l, l < 8 → ∃ t, exec (.governorEvaluate [2 + l]) s = .next t ∧ ∃ k ∈ t.bq.staged, k.src = 1 ∧ k.code = 0x011A) ∧
  (∃ t, exec (.governorEvaluate [10]) s = .next t ∧ startsWith t 3)

/-- B_FEED and the thermal model (R283, R285, R294 to R296): the 10 ms update gives B_FEED, the feed powers and the energy books; the
model gives G, B_TH and D_W and the thermal state; a sensor read takes each reading or leaves the sensor out.
Where the spec leaves a point of this open, the model's reading is log entries 85 and 143. -/
def Obligations.ThermalModel : Prop := ∀ s : State,
  (∀ pA pB pBridge, ∃ t, exec (.feedBudgetUpdate pA pB pBridge) s = .next t ∧ t.pw.bFeed = s.feedLim - (pA + pB - pBridge) ∧
    t.rd (Reg.PW_FEED_P 0) = satU 16 pA ∧ t.rd (Reg.PW_FEED_P 1) = satU 16 pB ∧ t.rd Reg.PW_ENERGY_FEED_A = satU 64 (s.rd Reg.PW_ENERGY_FEED_A + pA) ∧
    t.rd Reg.PW_ENERGY_FEED_B = satU 64 (s.rd Reg.PW_ENERGY_FEED_B + pB) ∧ t.rd Reg.PW_ENERGY_DRIVE = satU 64 (s.rd Reg.PW_ENERGY_DRIVE + pBridge) ∧
    (t.pw.drawOk.isSome = true ↔ 10 * pBridge ≤ 11 * s.grantedIn 0 + 500) ∧ t = { s with regs := t.regs, pw := t.pw } ∧
    onlyRegs s t [Reg.PW_FEED_P 0, Reg.PW_FEED_P 1, Reg.PW_ENERGY_FEED_A, Reg.PW_ENERGY_FEED_B, Reg.PW_ENERGY_DRIVE]) ∧
  (∀ pIn pBridge, ∃ t, exec (.thermalModelUpdate pIn pBridge) s = .next t ∧
    (t.pw.bTh : Int) = max 0 (rne ((s.kAlt : Int) * (s.gNum : Int) * (70 * 16 - s.tIn)) Config.ratedRpm - ((pIn - pBridge : Nat) : Int) * 160000) ∧
    t.pw.dw = (if s.anyWarn then s.pw.dw - 2 else if s.allCool then min 16 (s.pw.dw + 1) else s.pw.dw) ∧
    t.rd Reg.PW_THERM_STAT_G = satU 8 s.gTotal ∧ (s.anyCrit = true → t.rd Reg.PW_THERM_STAT_STATE = 3) ∧
    (s.anyCrit = false → s.rd Reg.PW_THERM_STAT_STATE ≠ 3 → t.rd Reg.PW_THERM_STAT_STATE =
      if s.anyWarn then 2 else if t.pw.bTh < s.termCeil then 1 else 0) ∧
    (s.rd Reg.PW_THERM_STAT_STATE = 3 → s.pw.coolSince = none → t.rd Reg.PW_THERM_STAT_STATE = 3) ∧
    (t.rd Reg.PW_THERM_STAT_STATE ≠ s.rd Reg.PW_THERM_STAT_STATE →
      barks s t 0x60 (if t.rd Reg.PW_THERM_STAT_STATE = 0 then 0x6004 else 0x6000 + t.rd Reg.PW_THERM_STAT_STATE)) ∧
    t = { s with regs := t.regs, pw := t.pw, bq := t.bq } ∧
    onlyRegs s t [Reg.PW_THERM_STAT_DW, Reg.PW_THERM_STAT_B_TH, Reg.PW_THERM_STAT_G, Reg.PW_THERM_STAT_STATE]) ∧
  (∀ (temps : List (Option Int)) i, i < 24 →
    (∀ v, temps[i]? = some (some v) → -800 ≤ v → v ≤ 2400 → ∃ t, exec (.tempSensorRead temps) s = .next t ∧ t.rd (Reg.PW_TEMP_T i) = unsigned 16 v ∧
      t.flag (Reg.PW_TEMP_FAULT i) = false ∧ t.flag (Reg.PW_TEMP_WARN i) = decide (16 * sensorWarn i ≤ v) ∧
      t.flag (Reg.PW_TEMP_CRIT i) = decide (16 * sensorCrit i ≤ v) ∧ (16 * sensorCrit i ≤ v → 1 ≤ s.pw.critRun.get 0 i → t.rd Reg.PW_THERM_STAT_STATE = 3)) ∧
    ((∀ v, temps[i]? = some (some v) → v < -800 ∨ 2400 < v) → ∃ t, exec (.tempSensorRead temps) s = .next t ∧ t.flag (Reg.PW_TEMP_FAULT i) = true ∧
      t.rd (Reg.PW_TEMP_T i) = s.rd (Reg.PW_TEMP_T i) ∧ (s.flag (Reg.PW_TEMP_FAULT i) = false → ∃ b ∈ t.bq.staged, b.src = 0x60 ∧ b.code = 0x6005)) ∧
    ∃ t, exec (.tempSensorRead temps) s = .next t ∧ t = { s with regs := t.regs, pw := t.pw, bq := t.bq })

/-- Fans (R297 to R299): every second the readings are shown and the trays in OK or SLOW take one common speed; OPEN and BLOCKED remove the
drive and read OUT;
TACHO_LOST runs at 100 %; a retry restores a blocked tray or counts; a removed tray reads ABSENT and OPEN; a seated one is tested and
takes the state found.
Where the spec leaves a point of this open, the model's reading is log entries 85, 137 and 144. -/
def Obligations.FanTrays : Prop := ∀ s : State,
  (∀ pIn pBridge, ∃ t, exec (.fanSpeedUpdate pIn pBridge []) s = .next t ∧
    (∀ v, v < 4 → s.fanOut v = false → (s.fanState v = fanOK ∨ s.fanState v = fanSLOW) → t.rd (Reg.PW_FAN_SPEED v) = fanSpeed s pIn pBridge) ∧
    (∀ v, v < 4 → s.fanOut v = false → (s.fanState v = fanTACHO ∨ (s.fanState v = fanTEST ∧ s.pw.fanFound.get 0 v ≤ 1)) → t.rd (Reg.PW_FAN_SPEED v) = 100) ∧
    (58 * 16 ≤ s.tIn ∨ 2 ≤ s.rd Reg.PW_THERM_STAT_STATE → fanSpeed s pIn pBridge = 100) ∧ fanSpeed s pIn pBridge ≤ 100 ∧
    30 ≤ fanSpeed s pIn pBridge ∧ t = { s with regs := t.regs, pw := t.pw } ∧
    onlyRegs s t [Reg.PW_FAN_SPEED 0, Reg.PW_FAN_SPEED 1, Reg.PW_FAN_SPEED 2, Reg.PW_FAN_SPEED 3]) ∧
  (∀ pIn pBridge (fans : List FanIn) v f, v < 4 → fans[v]? = some f → ∃ t, exec (.fanSpeedUpdate pIn pBridge fans) s = .next t ∧
    t.rd (Reg.PW_FAN_RPM v) = satU 16 f.rpm ∧ t.rd (Reg.PW_FAN_CURRENT v) = satU 16 f.ma ∧
    (s.fanState v = fanSLOW → f.rpmExp * 7 ≤ f.rpm * 10 → t.fanState v = fanOK) ∧ (s.fanState v = fanSLOW → f.rpm * 10 < f.rpmExp * 7 → t.fanState v = fanSLOW) ∧
    (s.fanState v = fanTACHO → f.quiet < 500 → t.fanState v = fanOK) ∧ t = { s with regs := t.regs, pw := t.pw }) ∧
  (∀ v f, v < 4 → s.fanRuns v = true → s.fanState v ≠ fanTEST → (fanLow f = true → ∃ t, exec (.fanOpen v f) s = .next t ∧ t.fanState v = fanOPEN ∧ t.rd (Reg.PW_FAN_SPEED v) = 0 ∧
      t.rd (partFld (22 + v)) = pOUT ∧ t.pw.releases = s.pw.releases ++ [(1, 0x70 + v, 0)] ∧ lastBark t 0x60 0x6011 ∧
      t = { s with regs := t.regs, pw := t.pw, bq := t.bq } ∧
      onlyRegs s t [Reg.PW_FAN_STATE v, Reg.PW_FAN_SPEED v, Reg.PW_FAN_RPM v, Reg.PW_FAN_CURRENT v, partFld (22 + v)]) ∧
    (fanHigh f = true → fanNoTacho (s.rd (Reg.PW_FAN_SPEED v)) f = true → ∃ t, exec (.fanBlocked v f) s = .next t ∧ t.fanState v = fanBLOCKED ∧ t.rd (Reg.PW_FAN_SPEED v) = 0 ∧ t.rd (partFld (22 + v)) = pOUT ∧
      t.pw.fanLast.get 0 v = s.run ∧ lastBark t 0x60 0x6010 ∧ t = { s with regs := t.regs, pw := t.pw, bq := t.bq }) ∧
    (s.fanState v ≠ fanTACHO → fanMid f = true → fanNoTacho (s.rd (Reg.PW_FAN_SPEED v)) f = true → ∃ t, exec (.fanTachoLost v f) s = .next t ∧ t.fanState v = fanTACHO ∧ t.rd (Reg.PW_FAN_SPEED v) = 100 ∧
      barks s t 0x60 0x6012 ∧ t = { s with regs := t.regs, pw := t.pw, bq := t.bq } ∧
      onlyRegs s t [Reg.PW_FAN_STATE v, Reg.PW_FAN_SPEED v, Reg.PW_FAN_RPM v, Reg.PW_FAN_CURRENT v])) ∧
  (∀ v f, v < 4 → s.fanRuns v = true → s.fanState v = fanTEST → fanLow f = true → ∃ t, exec (.fanOpen v f) s = .next t ∧ t.fanState v = fanTEST ∧
    t.pw.fanFound.get 0 v = fanOPEN ∧ t.rd (Reg.PW_FAN_SPEED v) = 0 ∧ t = { s with regs := t.regs, pw := t.pw }) ∧
  (∀ v f, v < 4 → (fanLow f = false → exec (.fanOpen v f) s = .next s) ∧ (fanHigh f = false → exec (.fanBlocked v f) s = .next s) ∧
    (fanMid f = false → exec (.fanTachoLost v f) s = .next s) ∧ (fanBehind f = false → exec (.fanSlow v f) s = .next s)) ∧
  (∀ v f, v < 4 → s.fanState v = fanOK → s.fanOut v = false → fanBehind f = true → ∃ t, exec (.fanSlow v f) s = .next t ∧ t.fanState v = fanSLOW ∧
    t.rd (Reg.PW_FAN_RPM v) = satU 16 f.rpm ∧ barks s t 0x60 0x6013 ∧ t = { s with regs := t.regs, bq := t.bq } ∧
    onlyRegs s t [Reg.PW_FAN_STATE v, Reg.PW_FAN_RPM v, Reg.PW_FAN_CURRENT v]) ∧
  (∀ v f, v < 4 → s.fanState v = fanBLOCKED → s.fanOut v = false → s.rd (Reg.PW_FAN_RETRIES v) < 10 → s.elapsed (s.pw.fanLast.get 0 v) (60 * cclkSec) = true →
    (f.quiet < 500 → fanLow f = false → fanHigh f = false → ∃ t, exec (.fanRetry v f) s = .next t ∧ t.fanState v = fanOK ∧ t.rd (Reg.PW_FAN_SPEED v) = 100 ∧ t.rd (partFld (22 + v)) = pIN ∧
      lastBark t 0x60 0x6014) ∧
    (500 ≤ f.quiet ∨ fanLow f = true ∨ fanHigh f = true → ∃ t, exec (.fanRetry v f) s = .next t ∧ t.fanState v = fanBLOCKED ∧ t.rd (Reg.PW_FAN_RETRIES v) = s.rd (Reg.PW_FAN_RETRIES v) + 1 ∧
      t.pw.fanLast.get 0 v = s.run ∧ t = { s with regs := t.regs, pw := t.pw } ∧ onlyRegs s t [Reg.PW_FAN_RETRIES v, Reg.PW_FAN_RPM v, Reg.PW_FAN_CURRENT v])) ∧
  (∀ v, v < 4 → s.fanState v = fanBLOCKED → 10 ≤ s.rd (Reg.PW_FAN_RETRIES v) → ∀ f, ∃ t, exec (.fanRetry v f) s = .next t ∧ t = s) ∧
  (∀ v, v < 4 → s.hub.aon = false → exec (.fanTrayRemoved v) s = .next (s.modSlot (24 + v) (fun x => { x with card := false }))) ∧
  (∀ v, v < 4 → s.hub.aon = true → ∃ t, exec (.fanTrayRemoved v) s = .next t ∧ t.fanState v = fanABSENT ∧ t.rd (partFld (22 + v)) = pOPEN ∧
    t.rd (Reg.PW_FAN_SPEED v) = 0 ∧ (t.slot (24 + v)).card = false ∧ t.pw.releases = s.pw.releases ++ [(1, 0x70 + v, 0)] ∧
    (s.fanState v ≠ fanABSENT → (s.slot (24 + v)).takenOut = false → lastBark t 1 0x0116)) ∧
  (∀ v, v < 4 → s.fanState v = fanABSENT → s.hub.aon = true → (s.slot (24 + v)).card = false → (s.slot (24 + v)).panel = false → s.fanOut v = false →
    s.listed (22 + v) = true → ∃ t, exec (.fanTraySeated v) s = .next t ∧ t.fanState v = fanTEST ∧
    t.rd (Reg.PW_FAN_SPEED v) = 100 ∧ t.rd (partFld (22 + v)) = pOUT ∧ t.rd (Reg.PW_FAN_RETRIES v) = 0 ∧ (t.slot (24 + v)).card = true ∧
    t.pw.fanTest.get 0 v = s.run) ∧
  (∀ v, v < 4 → s.fanState v = fanABSENT → s.hub.aon = true → (s.slot (24 + v)).card = false → (s.slot (24 + v)).panel = false → s.listed (22 + v) = false → ∃ t, exec (.fanTraySeated v) s = .next t ∧ t.fanState v = fanABSENT ∧
    t.rd (partFld (22 + v)) = pNONE) ∧
  (∀ v f found, v < 4 → found = fanFinds (s.pw.fanFound.get 0 v) f → found ≤ 4 → s.fanState v = fanTEST → s.elapsed (s.pw.fanTest.get 0 v) (5 * cclkSec) = true →
    ∃ t, exec (.fanTestEnd v f) s = .next t ∧ t.fanState v = found ∧ t.rd (partFld (22 + v)) = (if found ≤ 2 then pIN else pOUT) ∧
      (t.slot (24 + v)).serviceCmd = none ∧ lastBark t 0x60 (if found = 0 then 0x6014 else if found = 1 then 0x6012 else if found = 2 then 0x6013
        else if found = 3 then 0x6010 else 0x6011))

/-- Waits, background work and requests for domains (R289, R292, R293, R316): a pass asks for its tokens, works block by block, and returns
them at its end.
Where the spec leaves a point of this open, the model's reading is log entries 87 and 145. -/
def Obligations.BudgetEvents : Prop := ∀ s : State,
  (∀ d r h, d < 30 → s.pw.waits.find? (fun r => r.book = 1 && r.cid = d) = some r → s.hub.starting = false → s.elapsed r.since s.svcWait = true →
    s.pw.domCmd.get none d = some h → ∃ t, exec (.pwSvcDenied d) s = .next t ∧ t.waitsFor 1 d = false ∧ settled t h ∧
      t.rd Reg.PW_CNT_DENIED = satU 32 (s.rd Reg.PW_CNT_DENIED + 1) ∧ barks s t 3 0x0305 ∧ (t.slot (domSlot d)).entering = false ∧ t.domOn d = s.domOn d) ∧
  (s.mustYield = true → s.preemptible = [0x61] → ∃ t, exec .pwBgYield s = .next t ∧ t.pw.releases = s.pw.releases ++ [(1, 0x61, 0)] ∧
    t.pw.yielded = s.pw.yielded ++ [0x61] ∧ t.rd Reg.PW_CNT_YIELDS = satU 32 (s.rd Reg.PW_CNT_YIELDS + 1) ∧ barks s t 3 0x0306 ∧
    t = { s with regs := t.regs, pw := t.pw, bq := t.bq } ∧ onlyRegs s t [Reg.PW_CNT_YIELDS]) ∧
  (s.mustYield = false → exec .pwBgYield s = .next s) ∧
  (∀ c, c = 0x61 ∨ c = 0x62 → s.pw.overdue.contains c = false → s.elapsed (s.bgTask c).lastEnd (bgLate c + 1) = true → ∃ t, exec (.pwBgOverdue c) s = .next t ∧ t.pw.overdue.contains c = true ∧
    (∀ r ∈ t.pw.waits, r.book = 1 → r.cid = c → r.cls = 1) ∧ (t.waitsFor 1 c = true ∨ t.hasGrant 1 c = true) ∧ barks s t 3 0x0307 ∧
    t = { s with pw := t.pw, bq := t.bq }) ∧
  (∀ c, c = 0x61 ∨ c = 0x62 → s.pw.overdue.contains c = true ∨ s.elapsed (s.bgTask c).lastEnd (bgLate c + 1) = false → exec (.pwBgOverdue c) s = .next s) ∧
  (∀ c, c = 0x61 ∨ c = 0x62 → bgIdle s (0xC3 - c) → s.bgCan c = true → (s.bgTask c).passAt ≤ s.run → s.pw.yielded = [] → s.pw.releases = [] →
    s.rd Reg.PW_THERM_STAT_STATE < 2 →
    (s.pw.waits = [] → s.pw.grants.any (fun r => r.book = 1 && r.cid = c) = false → bgTokens c + s.grantedIn 1 ≤ serviceBudget → ∃ t, exec (.governorEvaluate []) s = .next t ∧
      t.hasGrant 1 c = true ∧ t.heldBy 1 c = bgTokens c ∧ t.waitsFor 1 c = false) ∧
    (s.pw.waits = [] → s.hasGrant 1 c = true → (s.bgTask c).blockAt = none → ∃ t, exec (.governorEvaluate []) s = .next t ∧ t.hasGrant 1 c = true ∧
      t.bgTask c = { s.bgTask c with blockAt := some s.run }) ∧
    (∀ b, s.pw.waits = [] → s.hasGrant 1 c = true → (s.bgTask c).blockAt = some b → s.elapsed b cclkMs = true →
      ∃ t, exec (.governorEvaluate []) s = .next t ∧
      ((s.bgTask c).done + 1 < bgBlocks c → t.hasGrant 1 c = true ∧ t.bgTask c = { s.bgTask c with done := (s.bgTask c).done + 1, blockAt := some s.run }) ∧
      (bgBlocks c ≤ (s.bgTask c).done + 1 → s.run < (s.bgTask c).passAt + bgPeriod c → t.hasGrant 1 c = false ∧ t.pw.overdue.contains c = false ∧
        t.bgTask c = { passAt := (s.bgTask c).passAt + bgPeriod c, done := 0, blockAt := none, lastEnd := s.run }))) ∧
  (∀ src d, d < 30 → s.takes src .PW_DOMAIN_CTRL 0 0 false = true →
    (s.domOn d = false →
      ∃ t, exec (.pwDomainCtrlWrite src (setBit (s.rd Reg.PW_DOMAIN_STAT_ON) d true)) s = .next t ∧ t.waitsFor 1 d = true ∧
        bit (t.rd Reg.PW_DOMAIN_CTRL_REQ) d = true ∧ t = { s with regs := t.regs, pw := t.pw } ∧ onlyRegs s t [Reg.PW_DOMAIN_CTRL_REQ]) ∧
    (s.domOn d = true → s.needsDomain d = true → exec (.pwDomainCtrlWrite src (setBit (s.rd Reg.PW_DOMAIN_STAT_ON) d false)) s = .next s)) ∧
  (∀ req, s.takes .direct .PW_DOMAIN_CTRL 0 0 false = false → ∃ t, exec (.pwDomainCtrlWrite .direct req) s = .next t ∧
    t.rd Reg.HUB_WR_STAT_DISCARDS = satU 32 (s.rd Reg.HUB_WR_STAT_DISCARDS + 1) ∧ t = { s with regs := t.regs } ∧
    onlyRegs s t [Reg.HUB_WR_STAT_DISCARDS, Reg.HUB_WR_STAT_LAST_OFS])

/-- Overdraw (R291): bridge power beyond GRANTED by more than 10 % + 5 W sets OVERDRAW and multiplies f by GRANTED over the power, counts and barks
at most once per 10 s, and leaves every reservation outside the governed arenas; after 1 s within the limit it clears, and f returns to the value
of R290, which rises only while no request of the drive book waits. -/
def Obligations.Overdraw : Prop := ∀ s : State,
  (∀ p, 11 * s.grantedIn 0 + 500 < 10 * p → s.flag Reg.PW_GOV_OVERDRAW = false → ∃ t, exec (.pwOverdraw p) s = .next t ∧
    t.flag Reg.PW_GOV_OVERDRAW = true ∧ t.pw.fNum = s.pw.fNum * s.grantedIn 0 ∧ t.pw.fDen = s.pw.fDen * p ∧
    t.rd Reg.PW_CNT_OVERDRAW = satU 32 (s.rd Reg.PW_CNT_OVERDRAW + 1) ∧ barksRarely s t (10 * cclkSec) 0 3 0x0304 ∧
    t.rd Reg.PW_GOV_GOV_VAL = fQ15 t.pw.fNum t.pw.fDen ∧ (∀ r ∈ s.pw.grants, s.govArena r = false → r ∈ t.pw.grants) ∧
    (∀ r ∈ s.pw.grants, s.govArena r = true → { r with held := r.want * t.pw.fNum / t.pw.fDen } ∈ t.pw.grants) ∧
    t = { s with regs := t.regs, pw := t.pw, bq := t.bq }) ∧
  (∀ p, 10 * p ≤ 11 * s.grantedIn 0 + 500 → exec (.pwOverdraw p) s = .next s) ∧
  (∀ t0, s.pw.drawOk = some t0 → s.flag Reg.PW_GOV_OVERDRAW = true →
    (s.elapsed t0 cclkSec = true → ∃ t, exec .overdrawClear s = .next t ∧ t.flag Reg.PW_GOV_OVERDRAW = false ∧ t.pw.ovr = none ∧
      (s.pw.waits.any (fun r => r.book = 0) = false → t.pw.fNum = s.fAsked.1 ∧ t.pw.fDen = s.fAsked.2) ∧
      (fracLt s.pw.fNum s.pw.fDen s.fAsked.1 s.fAsked.2 = false → t.pw.fNum = s.fAsked.1 ∧ t.pw.fDen = s.fAsked.2) ∧
      (s.pw.waits.any (fun r => r.book = 0) = true → fracLt s.pw.fNum s.pw.fDen s.fAsked.1 s.fAsked.2 = true → t.pw.fNum = s.pw.fNum ∧ t.pw.fDen = s.pw.fDen) ∧
      t = { s with regs := t.regs, pw := t.pw }) ∧
    (s.elapsed t0 cclkSec = false → exec .overdrawClear s = .next s)) ∧
  (s.pw.drawOk = none → exec .overdrawClear s = .next s)

/-- The host link (R300 to R303, R305, R363): a link that comes up or goes down, a hot reset and a function-level reset, the set-up of
the rings and its checks, the doorbell poll, and the loss of the host.
Where the spec leaves a point of this open, the model's reading is log entries 24, 90 and 91. -/
def Obligations.HostLink : Prop := ∀ s : State,
  (∀ sp w, s.domOn 25 = true → 1 ≤ sp → sp ≤ 4 → w ∈ [1, 2, 4, 8] → ∃ t, exec (.hpLinkUp sp w) s = .next t ∧ t.flag Reg.HP_STAT_LINK_UP = true ∧
    t.rd Reg.HP_STAT_SPEED = sp ∧ t.rd Reg.HP_STAT_WIDTH = w ∧
    (s.flag Reg.HP_STAT_LINK_UP = false → ∃ b ∈ t.bq.staged, b.src = 6 ∧ b.code = 0x0601) ∧
    t = { s with regs := t.regs, hp := t.hp, hub := t.hub, bq := t.bq } ∧
    onlyRegs s t [Reg.HP_STAT_LINK_UP, Reg.HP_STAT_SPEED, Reg.HP_STAT_WIDTH, Reg.HP_STAT_POLLING]) ∧
  (s.flag Reg.HP_STAT_LINK_UP = true → ∃ t, exec .hpLinkDown s = .next t ∧ t.flag Reg.HP_STAT_LINK_UP = false ∧ t.rd Reg.HP_STAT_SPEED = 0 ∧
    t.rd Reg.HP_STAT_WIDTH = 0 ∧ t.ringsOn = false ∧ ∃ b ∈ t.bq.staged, b.src = 6 ∧ b.code = 0x0602) ∧
  (s.flag Reg.HP_STAT_LINK_UP = false → exec .hpLinkDown s = .next s) ∧
  (s.flag Reg.HP_CTRL_EN = true → ∀ i ∈ (if s.hp.ready then [Instr.hotReset, .functionLevelReset] else [.functionLevelReset]),
    ∃ t, exec i s = .next t ∧ t.ringsOn = false ∧ t.flag Reg.HP_CTRL_EN = false ∧ t.flag Reg.HP_STAT_POLLING = false ∧ t.hp.cplWait = [] ∧
      (s.takes_ = [] → (∀ n, n < 32 → s.lkHeld n = true → s.rd (Reg.LK_STAT_OWNER n) ≠ 1) → s.follows = true →
        t.rd Reg.HP_CNT_CPL_DROPPED = (if s.hp.cplWait = [] then s.rd Reg.HP_CNT_CPL_DROPPED
          else satU 32 (s.rd Reg.HP_CNT_CPL_DROPPED + s.hp.cplWait.length)) ∧ t = { s with regs := t.regs, hp := t.hp })) ∧
  (s.flag Reg.HP_CTRL_EN = false → ∀ i ∈ [Instr.hotReset, .functionLevelReset], exec i s = .next s) ∧
  (∀ entries, s.takes .direct .HP_CTRL 0 0 false = true → s.flag Reg.HP_CTRL_EN = false →
    (s.flag Reg.HP_STAT_LINK_UP = true → s.setupErr = 0 → ∃ t, exec (.hpCtrlEnWrite 1 entries) s = .next t ∧ t.ringsOn = true ∧
      t.rd Reg.HP_STAT_SETUP_ERR = 0 ∧ t.hp.cmdPi = 0 ∧ t.hp.cmdCi = 0 ∧ t.hp.cplPi = 0 ∧ t.hp.cplCi = 0 ∧ t.hp.evtPi = 0 ∧ t.hp.evtCi = 0 ∧
      t.hp.statSeq = (s.hp.statSeq + 1) % 2 ^ 32 ∧ (t.flag Reg.HP_STAT_POLLING = true ↔ s.mode ≠ mBOOT ∧ s.mode ≠ mDORMANT)) ∧
    (s.flag Reg.HP_STAT_LINK_UP = true → s.setupErr ≠ 0 → ∃ t, exec (.hpCtrlEnWrite 1 entries) s = .next t ∧ t.ringsOn = false ∧
      t.rd Reg.HP_STAT_SETUP_ERR = s.setupErr ∧ barks s t 6 0x0604 ∧ t = { s with regs := t.regs, hp := t.hp, bq := t.bq } ∧
      onlyRegs s t [Reg.HP_CTRL_EN, Reg.HP_CTRL_READY, Reg.HP_STAT_SETUP_ERR]) ∧
    (s.flag Reg.HP_STAT_LINK_UP = false → ∃ t, exec (.hpCtrlEnWrite 1 entries) s = .next t ∧ t.flag Reg.HP_CTRL_EN = false ∧
      t.rd Reg.HUB_WR_STAT_DISCARDS = satU 32 (s.rd Reg.HUB_WR_STAT_DISCARDS + 1) ∧ t = { s with regs := t.regs } ∧
      onlyRegs s t [Reg.HUB_WR_STAT_DISCARDS, Reg.HUB_WR_STAT_LAST_OFS])) ∧
  (∀ entries, s.takes .direct .HP_CTRL 0 0 false = true → s.flag Reg.HP_CTRL_EN = true →
    (∃ t, exec (.hpCtrlEnWrite 0 entries) s = .next t ∧ t.ringsOn = false ∧ t.flag Reg.HP_CTRL_EN = false) ∧
    exec (.hpCtrlEnWrite 1 entries) s = .next s) ∧
  (∀ ok p c e tails, s.flag Reg.HP_STAT_POLLING = false → exec (.doorbellPoll ok p c e tails) s = .next s) ∧
  (∀ p c e, s.flag Reg.HP_STAT_POLLING = true →
    (indexOk (s.rd Reg.HP_CMD_RING_N) p s.hp.cmdCi = true → indexOk (s.rd Reg.HP_CPL_RING_N) s.hp.cplPi c = true →
      indexOk (s.rd Reg.HP_EVT_RING_N) s.hp.evtPi e = true → ∃ t, exec (.doorbellPoll true p c e []) s = .next t ∧ t.hp.cmdPi = p % 2 ^ 16 ∧
        t.hp.cplCi = c % 2 ^ 16 ∧ t.hp.evtCi = e % 2 ^ 16 ∧ t.hp.dbLast = s.run ∧ t.hp.hostLost = false ∧ t.regs = s.regs) ∧
    (indexOk (s.rd Reg.HP_CMD_RING_N) p s.hp.cmdCi = false → ∃ t, exec (.doorbellPoll true p c e []) s = .next t ∧ t.hp.cmdPi = s.hp.cmdPi ∧
      t.flag Reg.HP_STAT_DB_BAD = true ∧ onlyRegs s t [Reg.HP_STAT_DB_BAD]) ∧
    (∀ tails, ∃ t, exec (.doorbellPoll false p c e tails) s = .next t ∧ t.flag Reg.HP_STAT_DB_ERR = true ∧
      t.rd Reg.HP_CNT_DB_ERRORS = satU 32 (s.rd Reg.HP_CNT_DB_ERRORS + 1) ∧ barksRarely s t cclkSec 0 6 0x0603 ∧
      t = { s with regs := t.regs, hp := t.hp, bq := t.bq } ∧ onlyRegs s t [Reg.HP_STAT_DB_ERR, Reg.HP_CNT_DB_ERRORS])) ∧
  (s.hp.dbEver = true → s.hp.hostLost = false → s.elapsed s.hp.dbLast (50 * cclkMs) = true → ∃ t, exec .hostLost s = .next t ∧
    t.hp.hostLost = true ∧ (s.takes_ = [] → ∀ n, n < 32 → s.lkHeld n = true → s.rd (Reg.LK_STAT_OWNER n) = 1 → t.lkBroken n = true)) ∧
  (s.hp.hostLost = true ∨ s.hp.dbEver = false → exec .hostLost s = .next s)

/-- Rings, the status block, records and messages (R306 to R310, R319 to R321, R331): what each writes to host memory, and where.
Where the spec leaves a point of this open, the model's reading is log entries 11, 25 and 95. -/
def Obligations.HostRings : Prop := ∀ s : State,
  (∀ desc data, desc.length = 64 → s.fetches = false → exec (.cmdFetch desc data) s = .next s) ∧
  (∀ desc data spans, desc.length = 64 → s.fetches = true → paramSpans (desc.getD 0 0) = some spans → framingOk desc spans = true →
    s.ringTakes (desc.getD 0 0) (desc.getD 2 0) = true → desc.getD 2 0 = 255 ∨ desc.getD 2 0 = s.me →
    ∃ t, exec (.cmdFetch desc data) s = .next t ∧ t.hp.cmdCi = (s.hp.cmdCi + 1) % 2 ^ 16 ∧ carried t (hdrOf desc s.hp.cmdCi) ∧
      t.inFlight = s.inFlight + 1 ∧ t = { s with hp := t.hp }) ∧
  (∀ desc data, desc.length = 64 → s.fetches = true → paramSpans (desc.getD 0 0) = none → ∃ t, exec (.cmdFetch desc data) s = .next t ∧
    settled t (hdrOf desc s.hp.cmdCi) ∧ posts s t (hdrOf desc s.hp.cmdCi) .badOpcode ∧ t = { s with hp := t.hp, free := t.free }) ∧
  (∀ desc data spans, desc.length = 64 → s.fetches = true → paramSpans (desc.getD 0 0) = some spans → framingOk desc spans = false →
    ∃ t, exec (.cmdFetch desc data) s = .next t ∧ settled t (hdrOf desc s.hp.cmdCi) ∧ posts s t (hdrOf desc s.hp.cmdCi) .badParam) ∧
  (∀ desc data spans, desc.length = 64 → s.fetches = true → paramSpans (desc.getD 0 0) = some spans → framingOk desc spans = true →
    s.ringTakes (desc.getD 0 0) (desc.getD 2 0) = true → desc.getD 2 0 ≠ 255 → desc.getD 2 0 ≠ s.me →
    ((s.peer (desc.getD 2 0)).reach = false → ∃ t, exec (.cmdFetch desc data) s = .next t ∧ posts s t (hdrOf desc s.hp.cmdCi) .hubUnreachable) ∧
    ((s.peer (desc.getD 2 0)).reach = true → ∃ t, exec (.cmdFetch desc data) s = .next t ∧ carried t (hdrOf desc s.hp.cmdCi) ∧
      (∃ f, t.ov.forwards = s.ov.forwards ++ [f] ∧ f.hdr = hdrOf desc s.hp.cmdCi ∧ f.target = desc.getD 2 0) ∧
      Out.ovnas 8 (desc.getD 2 0) desc ∈ t.out)) ∧
  (∀ h, byRing s h → h.inst = .none → ∃ t, exec (.nop h) s = .next t ∧ settled t h ∧ posts s t h .ok ∧ t = { s with hp := t.hp }) ∧
  (∀ c rest, s.hp.cplWait = c :: rest →
    (s.ringsOn = true → (s.hp.cplPi + 2 ^ 16 - s.hp.cplCi) % 2 ^ 16 < 2 ^ s.rd Reg.HP_CPL_RING_N → ∃ t, exec .completionWrite s = .next t ∧
      t.out = s.out ++ [.cpl (s.hp.cplPi % 2 ^ s.rd Reg.HP_CPL_RING_N) (1 - s.hp.cplPi / 2 ^ s.rd Reg.HP_CPL_RING_N % 2) c] ∧ t.hp.cplWait = rest ∧
      t.hp.cplPi = (s.hp.cplPi + 1) % 2 ^ 16 ∧ (c.quiet = false → t.hp.vecNew.contains 0 = true) ∧ (c.quiet = true → t.hp.vecNew = s.hp.vecNew) ∧
      t = { s with hp := t.hp, out := t.out }) ∧
    (s.ringsOn = false ∨ 2 ^ s.rd Reg.HP_CPL_RING_N ≤ (s.hp.cplPi + 2 ^ 16 - s.hp.cplCi) % 2 ^ 16 → exec .completionWrite s = .next s)) ∧
  (s.ringsOn = true → s.flag Reg.HP_STAT_LINK_UP = true → ∃ t, exec .statusBlockWrite s = .next t ∧
    Out.status (statusBlock s ((s.hp.statSeq + 1) % 2 ^ 32)) ∈ t.out ∧ t.hp.statSeq = (s.hp.statSeq + 1) % 2 ^ 32 ∧ t.hp.vecNew = [] ∧
    (∀ v, v ∈ t.hp.vecDue ↔ v ∈ s.hp.vecDue ∨ v ∈ s.hp.vecNew) ∧ t.regs = s.regs) ∧
  (∀ n, (statusBlock s n).length = 4096 ∧ leAt (statusBlock s n) 0 4 = s.hp.cmdCi % 2 ^ 32 ∧ leAt (statusBlock s n) 4 4 = s.hp.cplPi % 2 ^ 32 ∧
    leAt (statusBlock s n) 8 4 = s.hp.evtPi % 2 ^ 32 ∧ leAt (statusBlock s n) 0x1C 4 = n % 2 ^ 32 ∧ leAt (statusBlock s n) 0x24 4 = s.inFlight % 2 ^ 32 ∧
    ∀ b, b < 256 → leAt (statusBlock s n) (0x400 + 4 * b) 4 = (s.sbuf b).head % 2 ^ 32) ∧
  (∀ b r rest, b < 256 → (s.sbuf b).queue = r :: rest → s.canGo b [r.data.length] = true →
    (s.follows = false → r.replay = false → ∃ t, exec (.recordDeliver b) s = .next t ∧ (t.sbuf b).queue = rest ∧
      (t.sbuf b).head = ((s.sbuf b).head + bufNeed (s.sbuf b) (outData r).length) % 2 ^ 32 ∧
      Out.record b (if (s.sbuf b).head % 2 ^ (s.sbuf b).log2 + (outData r).length ≤ 2 ^ (s.sbuf b).log2 then (s.sbuf b).head % 2 ^ (s.sbuf b).log2 else 0)
        (if r.late then markLate r.data else r.data) ∈ t.out ∧
      t.rd Reg.HP_CNT_LATE_RECORDS = (if r.late then satU 32 (s.rd Reg.HP_CNT_LATE_RECORDS + 1) else s.rd Reg.HP_CNT_LATE_RECORDS)) ∧
    (s.follows = true → ∃ t, exec (.recordDeliver b) s = .next t ∧ (t.sbuf b).queue = rest ∧
      t.ov.granted.get 0 b = s.ov.granted.get 0 b - (outData r).length ∧ (∃ u, t.ov.unconf = s.ov.unconf ++ [u] ∧ u.rcd = r) ∧
      ∃ ws, Out.ovnas (if r.late || r.replay then 12 else 11) (s.rd Reg.OV_STAT_LEADER_ID) ws ∈ t.out)) ∧
  (∀ b, b < 256 → ((s.sbuf b).queue = [] ∨ ∃ r rest, (s.sbuf b).queue = r :: rest ∧ s.canGo b [r.data.length] = false) →
    exec (.recordDeliver b) s = .next s) ∧
  (∀ v, v < 64 → s.hp.vecDue.contains v = true → s.vecReady v = true →
    (s.vecMasked v = false → ∃ t, exec (.msixMessage v) s = .next t ∧
      t.out = s.out ++ [.msix v (s.msixWord (4 * v) + s.msixWord (4 * v + 1) * 2 ^ 32) (s.msixWord (4 * v + 2))] ∧ t.hp.vecDue.contains v = false ∧
      t.hp.vecLast.get 0 v = s.run + 1 ∧ t = { s with hp := t.hp, out := t.out }) ∧
    (s.vecMasked v = true → ∃ t, exec (.msixMessage v) s = .next t ∧ t.hp.vecPend.contains v = true ∧ t.out = s.out ∧
      t.hp.vecDue.contains v = false ∧ t = { s with hp := t.hp })) ∧
  (∀ v, v < 64 → s.hp.vecDue.contains v = false ∨ s.vecReady v = false → exec (.msixMessage v) s = .next s)

/-- Leashes (R328 to R330, R311): a free leash is taken with a new epoch, a broken one answers LEASH_BROKEN, one of another owner is
refused or waited for; a release needs the owner and the epoch and serves the first that waits; the loss of an owner, or LK_CTRL.BREAK,
breaks a leash.
Where the spec leaves a point of this open, the model's reading is log entry 99. -/
def Obligations.Leashes : Prop := ∀ (s : State) (h : CmdHdr), byRing s h → s.sampling = true →
  (∀ n wait ms st, leashTakeRefuse s n wait ms = some st → ∃ t, exec (.leashTake h n wait ms) s = .next t ∧ settled t h ∧ posts s t h st) ∧
  (∀ n wait ms, leashTakeRefuse s n wait ms = none →
    (s.lkHeld n = false ∨ s.lkBroken n = true → ∃ t, exec (.leashTake h n wait ms) s = .next t ∧ settled t h ∧
      posts s t h (if s.lkBroken n then .leashBroken else .ok) ∧ t.lkHeld n = true ∧ t.lkBroken n = false ∧ t.rd (Reg.LK_STAT_OWNER n) = 1 ∧
      t.lkEpoch n = (s.lkEpoch n + 1) % 2 ^ 32 ∧ t = { s with regs := t.regs, hp := t.hp } ∧
      onlyRegs s t [Reg.LK_STAT_HELD n, Reg.LK_STAT_BROKEN n, Reg.LK_STAT_OWNER n, Reg.LK_STAT_EPOCH n]) ∧
    (s.lkHeld n = true → s.lkBroken n = false → s.rd (Reg.LK_STAT_OWNER n) = 1 → ∃ t, exec (.leashTake h n wait ms) s = .next t ∧ settled t h ∧
      posts s t h .ok ∧ t = { s with hp := t.hp }) ∧
    (s.lkHeld n = true → s.lkBroken n = false → s.rd (Reg.LK_STAT_OWNER n) ≠ 1 →
      (wait = 0 → ∃ t, exec (.leashTake h n wait ms) s = .next t ∧ settled t h ∧ posts s t h .leashHeld ∧ t = { s with hp := t.hp, free := t.free }) ∧
      (wait = 1 → ∃ t, exec (.leashTake h n wait ms) s = .next t ∧ carried t h ∧ t = { s with hp := t.hp, takes_ := t.takes_ } ∧
        ∃ k, t.takes_ = s.takes_ ++ [k] ∧ k.leash = n ∧ k.owner = 1 ∧ k.hdr = h ∧ k.until_ = s.run + ms * cclkMs))) ∧
  (∀ n epoch, s.lkMatches n 1 epoch = false → ∃ t, exec (.leashRelease h n epoch) s = .next t ∧ settled t h ∧ posts s t h .badParam) ∧
  (∀ n epoch, s.lkMatches n 1 epoch = true →
    (s.takes_.find? (fun k => k.leash = n) = none → ∃ t, exec (.leashRelease h n epoch) s = .next t ∧ settled t h ∧ posts s t h .ok ∧
      t.lkHeld n = false ∧ t.rd (Reg.LK_STAT_OWNER n) = 0 ∧ t.lkEpoch n = s.lkEpoch n ∧ t = { s with regs := t.regs, hp := t.hp } ∧
      onlyRegs s t [Reg.LK_STAT_HELD n, Reg.LK_STAT_OWNER n]) ∧
    (∀ k, s.takes_.find? (fun k => k.leash = n) = some k → k.owner < 8 → ∃ t, exec (.leashRelease h n epoch) s = .next t ∧ settled t h ∧
      settled t k.hdr ∧ t.lkHeld n = true ∧ t.rd (Reg.LK_STAT_OWNER n) = k.owner ∧ t.lkEpoch n = (s.lkEpoch n + 1) % 2 ^ 32 ∧
      t.takes_ = s.takes_.erase k)) ∧
  (∃ t, exec .leashWaitTimeout s = .next t ∧ (∀ k, k ∈ t.takes_ ↔ k ∈ s.takes_ ∧ s.run < k.until_) ∧
    (∀ k ∈ s.takes_, k.until_ ≤ s.run → settled t k.hdr) ∧ ∀ n, n < 32 → t.lkHeld n = s.lkHeld n ∧ t.lkEpoch n = s.lkEpoch n) ∧
  (∀ o n, 1 ≤ o → o ≤ 5 → n < 32 → s.takes_ = [] → s.lkHeld n = true →
    (s.rd (Reg.LK_STAT_OWNER n) = o → ∃ t, exec (.leashBreak o) s = .next t ∧ t.lkHeld n = false ∧ t.lkBroken n = true ∧
      t.rd (Reg.LK_STAT_OWNER n) = 0 ∧ t.lkEpoch n = (s.lkEpoch n + 1) % 2 ^ 32 ∧ ∃ b ∈ t.bq.staged, b.src = 1 ∧ b.code = 0x0140) ∧
    (s.rd (Reg.LK_STAT_OWNER n) ≠ o → ∃ t, exec (.leashBreak o) s = .next t ∧ t.lkHeld n = true ∧ t.lkEpoch n = s.lkEpoch n)) ∧
  (∀ o, 1 ≤ o → o ≤ 5 → s.takes_ = [] → (∀ n, n < 32 → s.lkHeld n = true → s.rd (Reg.LK_STAT_OWNER n) ≠ o) → exec (.leashBreak o) s = .next s) ∧
  (∀ n, n < 32 → s.takes .direct .LK_CTRL 0 0 false = true → s.lkHeld n = true → s.takes_ = [] → ∃ t, exec (.lkBreakWrite .direct n) s = .next t ∧
    t.lkBroken n = true ∧ t.lkHeld n = false ∧ t.lkEpoch n = (s.lkEpoch n + 1) % 2 ^ 32 ∧
    t.rd Reg.LK_CNT_BREAKS = satU 32 (s.rd Reg.LK_CNT_BREAKS + 1) ∧ (s.guards n = (1, 0) → s.axState 0 = axHOLD → (t.axis 0).on = false) ∧
    (s.guards n = (0, 0) → barks s t 1 0x0140 ∧ t = { s with regs := t.regs, bq := t.bq })) ∧
  (∀ n, exec (.lkBreakWrite .cfg n) s = .next s)

/-- Barks (R322 to R327, R424): the oldest staged bark enters the queue, or the side buffer; the queue drains to the EVT ring, or a
follower's to the leader; HOST_POP hands it out word by word; FLUSH empties and counts it.
Where the spec leaves a point of this open, the model's reading is log entries 96, 97 and 98. -/
def Obligations.BarkQueue : Prop := ∀ s : State,
  (s.bq.staged = [] → exec .barkPost s = .next s) ∧
  (∀ b rest, s.bq.staged = b :: rest → s.queueUp = true → s.bqLevel + b.len ≤ queueWords → ∃ t, exec .barkPost s = .next t ∧
    t.bq.staged = rest ∧ t.bq.queue = s.bq.queue ++ [b] ∧ t.rd Reg.BQ_LOST_LOST = satU 32 (s.rd Reg.BQ_LOST_LOST) ∧ t.flag Reg.BQ_STATUS_EMPTY = false ∧
    (b.warn = false → t.bq.log = s.bq.log) ∧ (b.warn = true → t.bq.log = logTrim logUnits (s.bq.log ++ [b])) ∧
    t = { s with regs := t.regs, bq := t.bq }) ∧
  (∀ b rest, s.bq.staged = b :: rest → s.queueUp = true → queueWords < s.bqLevel + b.len → s.bq.popped = 0 → ∃ t, exec .barkPost s = .next t ∧
    t.bq.queue = (makeRoom queueWords b.len s.bq.queue).1 ++ [b] ∧ t.bq.loss = true ∧
    t.rd Reg.BQ_LOST_LOST = satU 32 (s.rd Reg.BQ_LOST_LOST + (makeRoom queueWords b.len s.bq.queue).2) ∧
    s.bq.queue.length = (makeRoom queueWords b.len s.bq.queue).1.length + (makeRoom queueWords b.len s.bq.queue).2 ∧
    lensOf t.bq.queue ≤ queueWords) ∧
  (∀ b rest, s.bq.staged = b :: rest → s.queueUp = false → ∃ t, exec .barkPost s = .next t ∧ t.bq.staged = rest ∧ t.bq.queue = s.bq.queue ∧
    t.bq.side = (makeRoom sideWords b.len s.bq.side).1 ++ [b] ∧ t.bq.sideLost = s.bq.sideLost + (makeRoom sideWords b.len s.bq.side).2 ∧
    t = { s with bq := t.bq }) ∧
  (s.bq.queue = [] ∨ s.flag Reg.BQ_CTRL_HOST_POP = true ∨ s.queueUp = false → exec .evtDrain s = .next s) ∧
  (∀ b rest, s.bq.queue = b :: rest → s.flag Reg.BQ_CTRL_HOST_POP = false → s.queueUp = true →
    (s.follows = false → s.ringsOn = true → (s.hp.evtPi + 2 ^ 16 - s.hp.evtCi) % 2 ^ 16 + b.entries ≤ 2 ^ s.rd Reg.HP_EVT_RING_N →
      ∃ t, exec .evtDrain s = .next t ∧ t.bq.queue = rest ∧ t.out = s.out ++ [.evt (s.hp.evtPi % 2 ^ s.rd Reg.HP_EVT_RING_N) (s.outBark b)] ∧
        t.hp.evtPi = (s.hp.evtPi + b.entries) % 2 ^ 16 ∧ t.bq.loss = false ∧ t.hp.vecNew.contains 1 = true ∧
        t = { s with regs := t.regs, bq := t.bq, out := t.out, hp := t.hp } ∧ onlyRegs s t [Reg.BQ_STATUS_EMPTY, Reg.BQ_STATUS_LEVEL]) ∧
    (s.follows = false → s.ringsOn = true → 2 ^ s.rd Reg.HP_EVT_RING_N < (s.hp.evtPi + 2 ^ 16 - s.hp.evtCi) % 2 ^ 16 + b.entries →
      exec .evtDrain s = .next s) ∧
    (s.follows = true → s.leaderPath = true → ∃ t, exec .evtDrain s = .next t ∧ t.bq.queue = rest ∧
      Out.ovnas 10 (s.rd Reg.OV_STAT_LEADER_ID) (s.outBark b).words ∈ t.out)) ∧
  (s.domOn 27 = true → s.flag Reg.BQ_CTRL_HOST_POP = false → ∃ t, exec .bqPopRead s = .next t ∧ t.rd Reg.BQ_POP_WORD = 0 ∧ t.bq.queue = s.bq.queue) ∧
  (s.domOn 27 = true → s.flag Reg.BQ_CTRL_HOST_POP = true →
    (s.bq.queue = [] → ∃ t, exec .bqPopRead s = .next t ∧ t.flag Reg.BQ_STATUS_UNDERRUN = true ∧ t.rd Reg.BQ_POP_WORD = s.bq.lastPop % 2 ^ 32 ∧
      t = { s with regs := t.regs } ∧ onlyRegs s t [Reg.BQ_STATUS_UNDERRUN, Reg.BQ_POP_WORD]) ∧
    (∀ b rest, s.bq.queue = b :: rest →
      (s.bq.popped = 0 → ∃ t, exec .bqPopRead s = .next t ∧ t.rd Reg.BQ_POP_WORD = ((s.outBark b).words.getD 0 0) % 2 ^ 32 ∧ t.bq.popped = 1 ∧ t.bq.queue = s.bq.queue) ∧
      (s.bq.popped ≠ 0 → s.bq.popped + 1 = b.len → ∃ t, exec .bqPopRead s = .next t ∧ t.rd Reg.BQ_POP_WORD = (b.words.getD s.bq.popped 0) % 2 ^ 32 ∧
        t.bq.popped = 0 ∧ t.bq.queue = rest))) ∧
  (∀ src, s.takes src .BQ_CTRL 0 0 false = true →
    (s.popMode = true → ∃ t, exec (.bqHostPopWrite src 1) s = .next t ∧ t.flag Reg.BQ_CTRL_HOST_POP = true ∧ t = { s with regs := t.regs, kn := t.kn } ∧
      onlyRegs s t [Reg.BQ_CTRL_HOST_POP]) ∧
    (s.popMode = false → exec (.bqHostPopWrite .cfg 1) s = .next s ∧ (src = .direct → ∃ t, exec (.bqHostPopWrite src 1) s = .next t ∧
      t.flag Reg.BQ_CTRL_HOST_POP = s.flag Reg.BQ_CTRL_HOST_POP ∧ t.rd Reg.HUB_WR_STAT_DISCARDS = satU 32 (s.rd Reg.HUB_WR_STAT_DISCARDS + 1))) ∧
    (s.flag Reg.BQ_CTRL_HOST_POP = true → s.bq.popped ≠ 0 → ∃ t, exec (.bqHostPopWrite src 0) s = .next t ∧ t.flag Reg.BQ_CTRL_HOST_POP = false ∧
      t.bq.queue = s.bq.queue.drop 1 ∧ t.bq.popped = 0 ∧ t.rd Reg.BQ_LOST_LOST = satU 32 (s.rd Reg.BQ_LOST_LOST + 1)) ∧
    (∃ t, exec (.bqFlush src) s = .next t ∧ t.bq.queue = [] ∧ t.flag Reg.BQ_STATUS_EMPTY = true ∧ t.rd Reg.BQ_STATUS_LEVEL = 0 ∧
      t.rd Reg.BQ_FLUSHED_FLUSHED = satU 32 (s.rd Reg.BQ_FLUSHED_FLUSHED + s.bq.queue.length) ∧
      (∃ b, t.bq.staged = b :: s.bq.staged ∧ b.src = 1 ∧ b.code = 0x0141) ∧ t = { s with regs := t.regs, bq := t.bq, kn := t.kn } ∧
      onlyRegs s t [Reg.BQ_STATUS_EMPTY, Reg.BQ_STATUS_LEVEL, Reg.BQ_FLUSHED_FLUSHED]))

/-- CFG_WRITE, CFG_BATCH, CFG_READ and PACK_STATUS (R310, R311, R313 to R315, R317): the first check that fails gives the status, a
batch names its failing entry, an accepted list changes the registers it writes, and what is read goes to the host address.
Where the spec leaves a point of this open, the model's reading is log entries 92, 101 and 125. -/
def Obligations.ConfigurationCommands : Prop := ∀ (s : State) (h : CmdHdr), byRing s h →
  (∀ ofs data, (s.barred = true ∨ listForbidden s [⟨ofs, data⟩] = true → ∃ t, exec (.cfgWrite h ofs data) s = .next t ∧ settled t h ∧
      posts s t h .modeForbids) ∧
    (∀ st, s.barred = false → listForbidden s [⟨ofs, data⟩] = false → listLeash s h [⟨ofs, data⟩] = some st →
      ∃ t, exec (.cfgWrite h ofs data) s = .next t ∧ settled t h ∧ posts s t h st) ∧
    (∀ j, s.barred = false → listForbidden s [⟨ofs, data⟩] = false → listLeash s h [⟨ofs, data⟩] = none →
      listFault (s.begin h) (instEdge s.now h.inst) [⟨ofs, data⟩] = some j → ∃ t, exec (.cfgWrite h ofs data) s = .next t ∧ settled t h ∧
        posts s t h .badParam ∧ t = { s with hp := t.hp })) ∧
  (∀ v e, s.barred = false → h.inst = .none → listFault (s.begin h) e [⟨0x4000, leBytes 4 v⟩] = none → e = instEdge s.now h.inst →
    ∃ t, exec (.cfgWrite h 0x4000 (leBytes 4 v)) s = .next t ∧ settled t h ∧ posts s t h .ok ∧ t.rd Reg.PW_CEIL_CEIL = v % 2 ^ 14 ∧
      t = { s with regs := t.regs, hp := t.hp, kn := t.kn, bq := t.bq } ∧ onlyRegs s t [Reg.PW_CEIL_CEIL]) ∧
  (∀ addr list, (s.barred = true → ∃ t, exec (.cfgBatch h addr list) s = .next t ∧ settled t h ∧ posts s t h .modeForbids) ∧
    (s.barred = false → (list.length < 8 ∨ 65536 < list.length ∨ addrOk addr list.length = false) →
      ∃ t, exec (.cfgBatch h addr list) s = .next t ∧ settled t h ∧ posts s t h .badParam) ∧
    (∀ j, s.barred = false → 8 ≤ list.length → list.length ≤ 65536 → addrOk addr list.length = true → h.opcode = 4 →
      listForbidden s (parseBatch list.length list) = false → listLeash s h (parseBatch list.length list) = none →
      listFault (s.begin h) (instEdge s.now h.inst) (parseBatch list.length list) = some j → ∃ t, exec (.cfgBatch h addr list) s = .next t ∧
        settled t h ∧ ∃ c, t.hp.cplWait = s.hp.cplWait ++ [c] ∧ c.tag = h.tag ∧ c.status = .badParam ∧ c.result = j % 2 ^ 32)) ∧
  (∀ v addr e, s.barred = false → h.inst = .none → h.opcode = 4 → addrOk addr 16 = true → e = instEdge s.now h.inst →
    listFault (s.begin h) e [⟨0x4000, leBytes 4 v⟩] = none →
    ∃ t, exec (.cfgBatch h addr (leBytes 4 0x4000 ++ [4, 0, 0, 0] ++ leBytes 4 v ++ [0, 0, 0, 0])) s = .next t ∧ settled t h ∧ posts s t h .ok ∧
      t.rd Reg.PW_CEIL_CEIL = v % 2 ^ 14 ∧ t = { s with regs := t.regs, hp := t.hp, kn := t.kn, bq := t.bq } ∧ onlyRegs s t [Reg.PW_CEIL_CEIL]) ∧
  (∀ ofs len addr,
    (ofs % 4 ≠ 0 ∨ len < 4 ∨ 256 < len ∨ len % 4 ≠ 0 ∨ 0x100000 < ofs + len ∨ addrOk addr len = false →
      ∃ t, exec (.cfgRead h ofs len addr) s = .next t ∧ settled t h ∧ posts s t h .badParam) ∧
    (ofs % 4 = 0 → 4 ≤ len → len ≤ 256 → len % 4 = 0 → ofs + len ≤ 0x100000 → addrOk addr len = true → h.inst = .none →
      ∃ t, exec (.cfgRead h ofs len addr) s = .next t ∧ settled t h ∧
        Out.dma addr ((readRun (len / 4) ofs (s.begin h)).2.flatMap (leBytes 4)) ∈ t.out ∧
        ((readRun (len / 4) ofs (s.begin h)).2.flatMap (leBytes 4)).length = len)) ∧
  (∀ addr, addrOk addr 4 = true → h.inst = .none → ∃ t, exec (.cfgRead h 0x10 4 addr) s = .next t ∧ settled t h ∧ posts s t h .ok ∧
    t.out = s.out ++ [.dma addr (leBytes 4 (s.rd Reg.HUB_MODE_MODE % 8 + s.rd Reg.HUB_MODE_PREV % 8 * 16 +
      s.rd Reg.HUB_MODE_CAUSE % 256 * 256 + s.rd Reg.HUB_MODE_ACTIVE_MP % 2 * 65536))] ∧ t = { s with hp := t.hp, out := t.out }) ∧
  (∀ addr, (addrOk addr 4096 = false → ∃ t, exec (.packStatus h addr) s = .next t ∧ settled t h ∧ posts s t h .badParam) ∧
    (addrOk addr 4096 = true → ∃ t, exec (.packStatus h addr) s = .next t ∧ settled t h ∧ posts s t h .ok ∧
      t.out = s.out ++ [.dma addr ((List.range 64).flatMap (packEntry (s.begin h)))] ∧ t = { s with hp := t.hp, out := t.out }))

/-- Direct writes (R12, R16, R413 to R416, R419): a write of the wrong size or alignment, to no register, or one that the mode does
not take is discarded and recorded; one that is taken writes its register alone; DORMANT takes none.
Where the spec leaves a point of this open, the model's reading is log entries 18, 19 and 20. -/
def Obligations.DirectWrites : Prop := ∀ s : State,
  (∀ ofs size data, ofs < 0x100000 → s.mode = mDORMANT → exec (.registerWrite ofs size data) s = .next s) ∧
  (∀ ofs size data, ofs < 0x100000 → s.mode ≠ mDORMANT → ((size ≠ 4 ∧ size ≠ 8) ∨ ofs % size ≠ 0) → ∃ t, exec (.registerWrite ofs size data) s = .next t ∧
    t.rd Reg.HUB_WR_STAT_DISCARDS = satU 32 (s.rd Reg.HUB_WR_STAT_DISCARDS + 1) ∧ t.rd Reg.HUB_WR_STAT_LAST_OFS = ofs ∧ t = { s with regs := t.regs } ∧
    onlyRegs s t [Reg.HUB_WR_STAT_DISCARDS, Reg.HUB_WR_STAT_LAST_OFS]) ∧
  (∀ data, s.mode = mBOOT ∨ s.mode = mSELFTEST ∨ s.mode = mSAFE ∨ s.mode = mCOMMISSION →
    ∃ t, exec (.registerWrite 0x4000 4 data) s = .next t ∧
      t.rd Reg.PW_CEIL_CEIL = data % 2 ^ 14 ∧ t = { s with regs := t.regs } ∧ onlyRegs s t [Reg.PW_CEIL_CEIL]) ∧
  (∀ data, s.runLike = true → s.rd Reg.HUB_WR_STAT_DISCARDS < 2 ^ 32 - 1 → ∃ t, exec (.registerWrite 0x4000 4 data) s = .next t ∧
    t.rd Reg.PW_CEIL_CEIL = s.rd Reg.PW_CEIL_CEIL ∧ t.rd Reg.HUB_WR_STAT_DISCARDS = s.rd Reg.HUB_WR_STAT_DISCARDS + 1 ∧
    t.rd Reg.HUB_WR_STAT_LAST_OFS = 0x4000 ∧ t = { s with regs := t.regs } ∧ onlyRegs s t [Reg.HUB_WR_STAT_DISCARDS, Reg.HUB_WR_STAT_LAST_OFS]) ∧
  (∀ v w, v < msixVectors → w < 4 → s.domOn 25 = true → s.modeTakes .HP_CTRL = true → s.hp.vecPend.contains v = false → ∀ data,
    s.mode ≠ mDORMANT → ∃ t, exec (.registerWrite (msixTable + 16 * v + 4 * w) 4 data) s = .next t ∧ t.msixWord (4 * v + w) = data % 2 ^ 32 ∧
      t = { s with hp := t.hp }) ∧
  (∀ src, s.takes src .HUB_WR_STAT 0 0 false = true → ∃ t, exec (.discClr src) s = .next t ∧ t.rd Reg.HUB_WR_STAT_DISCARDS = 0 ∧
    t = { s with regs := t.regs } ∧ onlyRegs s t [Reg.HUB_WR_STAT_DISCARDS]) ∧
  (s.takes .direct .HUB_WR_STAT 0 0 false = false → ∃ t, exec (.discClr .direct) s = .next t ∧
    t.rd Reg.HUB_WR_STAT_DISCARDS = satU 32 (s.rd Reg.HUB_WR_STAT_DISCARDS + 1) ∧ t = { s with regs := t.regs })

/-- Images and banks (R311, R373 to R376): data are appended to a bank in order, a commit takes the bank or empties it with the number of
the failed check, an activation makes a bank pending and restarts the hub where it says so, a rollback names the previous bank.
Where the spec leaves a point of this open, the model's reading is log entries 114, 115, 116 and 117. -/
def Obligations.Images : Prop := ∀ (s : State) (h : CmdHdr), byRing s h →
  (∀ addr ofs bank data when_ len, s.barred = true → ∀ i ∈ [Instr.imageWrite h addr ofs bank data, .imageCommit h bank len, .imageActivate h bank when_,
    .rollback h when_], ∃ t, exec i s = .next t ∧ settled t h ∧ posts s t h .modeForbids) ∧
  (∀ bank st addr ofs data when_ len, s.barred = false → s.bankLeash h bank = some st →
    ∀ i ∈ [Instr.imageWrite h addr ofs bank data, .imageCommit h bank len, .imageActivate h bank when_],
      ∃ t, exec i s = .next t ∧ settled t h ∧ posts s t h st) ∧
  (∀ addr ofs bank (data : List Nat), s.barred = false → bank = 1 ∨ bank = 2 → s.bankLeash h bank = none → 4 ≤ data.length → data.length ≤ 1048576 →
    data.length % 4 = 0 → addrOk addr data.length = true →
    (writeRefused s bank ofs data.length = true → ∃ t, exec (.imageWrite h addr ofs bank data) s = .next t ∧ settled t h ∧ posts s t h .badParam) ∧
    (writeRefused s bank ofs data.length = false → ∃ t, exec (.imageWrite h addr ofs bank data) s = .next t ∧ settled t h ∧ posts s t h .ok ∧
      t.bankState bank = bWRITING ∧ t.rd (Reg.KN_BANK_INFO_WPTR bank) = ofs + data.length ∧
      t.kn.data.get [] bank = (if ofs = 0 then [] else s.kn.data.get [] bank) ++ data ∧ t = { s with regs := t.regs, hp := t.hp, kn := t.kn } ∧
      onlyRegs s t [Reg.KN_BANK_INFO_STATE bank, Reg.KN_BANK_INFO_WPTR bank, Reg.KN_BANK_INFO_GENERATION bank, Reg.KN_BANK_INFO_TOTAL_LEN bank,
        Reg.KN_BANK_STATE_PREVIOUS])) ∧
  (∀ bank len, s.barred = false → bank = 1 ∨ bank = 2 → s.bankLeash h bank = none → s.bankState bank ≠ bACTIVE → s.bankState bank ≠ bPENDING →
    (∀ n st, commitCheck s (s.kn.data.get [] bank) (s.rd (Reg.KN_BANK_INFO_WPTR bank)) len = some (n, st) →
      ∃ t, exec (.imageCommit h bank len) s = .next t ∧ settled t h ∧ posts s t h st ∧ t.bankState bank = bEMPTY ∧ t.kn.data.get [] bank = [] ∧
        barks s t 4 0x0402) ∧
    (commitCheck s (s.kn.data.get [] bank) (s.rd (Reg.KN_BANK_INFO_WPTR bank)) len = none →
      ∃ t, exec (.imageCommit h bank len) s = .next t ∧ settled t h ∧ posts s t h .ok ∧ t.bankState bank = bCOMMITTED ∧
        t.rd (Reg.KN_BANK_INFO_GENERATION bank) = (parseImage (s.kn.data.get [] bank)).gen % 2 ^ 32 ∧
        t.kn.images.get {} bank = parseImage (s.kn.data.get [] bank) ∧ barks s t 4 0x0401)) ∧
  (∀ bank, s.barred = false → s.bankLeash h bank = none → bank = 1 ∨ bank = 2 → s.bankState bank = bCOMMITTED ∨ s.bankState bank = bPREVIOUS →
    (∃ t, exec (.imageActivate h bank 0) s = .next t ∧ settled t h ∧ posts s t h .ok ∧ t.bankState bank = bPENDING ∧ t.rd Reg.KN_BANK_STATE_NEXT = bank ∧
      barks s t 4 0x0403 ∧ t.hub = s.hub ∧ t.kn = s.kn) ∧
    (∃ t, exec (.imageActivate h bank 1) s = .next t ∧ settled t h ∧ startsWith t 0x15)) ∧
  (∀ bank when_, s.barred = false → s.bankLeash h bank = none → (2 < bank ∨ 1 < when_ ∨ (bank ≠ 0 ∧ s.bankState bank ≠ bCOMMITTED ∧
    s.bankState bank ≠ bPREVIOUS)) → ∃ t, exec (.imageActivate h bank when_) s = .next t ∧ settled t h ∧ posts s t h .badParam) ∧
  (s.barred = false → s.bankLeash h s.prevBank = none →
    (s.prevBank = 3 ∨ (s.prevBank ≠ 0 ∧ (s.kn.images.get {} s.prevBank).gen < s.rd Reg.KN_SEC_FLOOR) → ∀ w, ∃ t, exec (.rollback h w) s = .next t ∧
      settled t h ∧ posts s t h .badParam) ∧
    (s.prevBank = 1 ∨ s.prevBank = 2 → s.rd Reg.KN_SEC_FLOOR ≤ (s.kn.images.get {} s.prevBank).gen → ∃ t, exec (.rollback h 0) s = .next t ∧ settled t h ∧
      posts s t h .ok ∧ t.bankState s.prevBank = bPENDING ∧ t.rd Reg.KN_BANK_STATE_NEXT = s.prevBank ∧ barks s t 4 0x0403) ∧
    (s.prevBank = 0 → ∃ t, exec (.rollback h 0) s = .next t ∧ settled t h ∧ posts s t h .ok ∧ t.rd Reg.KN_BANK_STATE_NEXT = 0))

/-- The kennel and the retention store (R365, R370, R379, R384, R388): identity with its 30 s, the journal drop, checkpoints, mirrors,
corrected and uncorrectable errors, and the loss of the store.
Where the spec leaves a point of this open, the model's reading is log entries 118 and 120. -/
def Obligations.KennelAndStore : Prop := ∀ s : State,
  (∀ src, s.takes src .KN_IDENT 0 0 false = true →
    (s.rd Reg.KN_IDENT_NEW_ID ≤ 63 → ∃ t, exec (.knIdentWrite src) s = .next t ∧ t.kn.identBy = some (s.run + 30 * cclkSec) ∧ t = { s with kn := t.kn }) ∧
    (63 < s.rd Reg.KN_IDENT_NEW_ID → ∃ t, exec (.knIdentWrite src) s = .next t ∧ t.flag Reg.KN_IDENT_REFUSED = true ∧ t = { s with regs := t.regs } ∧
      onlyRegs s t [Reg.KN_IDENT_REFUSED])) ∧
  (∀ e, s.kn.identBy = some e → (e < s.run → ∃ t, exec .identConfirmExpiry s = .next t ∧ t.kn.identBy = none ∧ t.flag Reg.KN_IDENT_REFUSED = true ∧
      t = { s with regs := t.regs, kn := t.kn } ∧ onlyRegs s t [Reg.KN_IDENT_REFUSED]) ∧
    (s.run ≤ e → exec .identConfirmExpiry s = .next s)) ∧
  (s.kn.identBy = none → exec .identConfirmExpiry s = .next s) ∧
  (∀ src, s.takes src .KN_CTRL 0 0 false = true →
    (∃ t, exec (.knJournalDrop src) s = .next t ∧ t.kn.journalDrop = true ∧ t.kn.journal = s.kn.journal ∧ t = { s with kn := t.kn }) ∧
    (∃ t, exec (.knCheckpoint src) s = .next t ∧ (∀ i ∈ s.openStreams, ∀ x, s.stream i = some x → t.kn.ckpts.get none i = some (ckptOf x false)) ∧
      t = { s with kn := t.kn })) ∧
  (∀ m c p, m < 2 →
    (s.kn.mirrorsOut.contains m = false → ∃ t, exec (.knMirrorFail m c p true) s = .next t ∧ t.kn.mirrorsOut = s.kn.mirrorsOut ++ [m] ∧
      t.flag (if m = 0 then Reg.KN_STAT_MIRROR_A else Reg.KN_STAT_MIRROR_B) = false ∧
      t.rd Reg.KN_CNT_ECC_CORR = satU 32 (s.rd Reg.KN_CNT_ECC_CORR + c) ∧ lastBark t 4 0x0408 ∧ t = { s with regs := t.regs, kn := t.kn, bq := t.bq }) ∧
    (s.rd Reg.KN_CNT_MIRROR_REPAIRS < 2 ^ 32 → ∃ t, exec (.knMirrorFail m c p false) s = .next t ∧
      t.rd Reg.KN_CNT_ECC_CORR = satU 32 (s.rd Reg.KN_CNT_ECC_CORR + c) ∧ t.rd Reg.KN_CNT_MIRROR_REPAIRS = satU 32 (s.rd Reg.KN_CNT_MIRROR_REPAIRS + p) ∧
      t.bq.staged.length = s.bq.staged.length + p ∧ t = { s with regs := t.regs, bq := t.bq } ∧
      onlyRegs s t [Reg.KN_CNT_ECC_CORR, Reg.KN_CNT_MIRROR_REPAIRS])) ∧
  (s.retains = true → ∃ t, exec .rsEccCorr s = .next t ∧ t.rd Reg.RS_CNT_ECC_CORR = satU 32 (s.rd Reg.RS_CNT_ECC_CORR + 1) ∧
    barksRarely s t cclkSec 0 7 0x0701 ∧ t = { s with regs := t.regs, bq := t.bq } ∧ onlyRegs s t [Reg.RS_CNT_ECC_CORR]) ∧
  (s.retains = false → exec .rsEccCorr s = .next s ∧ exec .rsDeviceFail s = .next s ∧ ∀ i q, i < 1024 → exec (.rsEccUncorr i q) s = .next s) ∧
  (∀ i q r, i < 1024 → s.retains = true → (Sparse.get [] i s.rd_.store).find? (fun r => r.seq = q) = some r → ∃ t, exec (.rsEccUncorr i q) s = .next t ∧
    t.rd Reg.RS_CNT_ECC_UNCORR = satU 32 (s.rd Reg.RS_CNT_ECC_UNCORR + 1) ∧ t.rd (Reg.RD_STREAM_STAT_LOST i) = satU 32 (s.rd (Reg.RD_STREAM_STAT_LOST i) + r.n) ∧
    t.rd Reg.RD_CNT_GAP_RUNS = satU 32 (s.rd Reg.RD_CNT_GAP_RUNS + 1) ∧ barks s t 7 0x0702 ∧
    (∀ k ∈ Sparse.get ([] : List RecOut) i t.rd_.store, k.seq = q → k = gapRun s r r.n) ∧
    onlyRegs s t [Reg.RS_CNT_ECC_UNCORR, Reg.RD_STREAM_STAT_LOST i, Reg.RD_CNT_GAP_RUNS]) ∧
  (s.retains = true → ∃ t, exec .rsDeviceFail s = .next t ∧ t.rd (partFld 29) = pOUT ∧ t.rd_.store = [] ∧ t.retains = false ∧
    ∃ b ∈ t.bq.staged, b.src = 7 ∧ b.code = 0x0703)

/-- Lanes and frames (R334 to R343, R364): block lock and READY bring a lane up, a retrain suspends it, its loss takes its credits and
hands on what was not acknowledged; a frame is taken in SEQ order, asked for again or counted; a NAK resends; credits come back.
Where the spec leaves a point of this open, the model's reading is log entries 102, 103 and 146. -/
def Obligations.LanesAndFrames : Prop := ∀ (s : State) (l : Nat), l < 8 →
  (∀ copper, s.laneUp l = false → s.domOn (21 + l / 2) = true → s.flag (Reg.OV_PORT_CFG_EN (l / 2)) = true → s.ov.modules.get 0 l < 3 →
    ∃ t, exec (.ovLaneUp l copper) s = .next t ∧ t.laneState l = (if s.ov.linkReady && !s.ov.dup && (s.lane l).ready then lUP else lNOT_READY) ∧
      t.flag (Reg.OV_PORT_STAT_MEDIA (l / 2)) = copper ∧ Out.ordered l (if s.ov.linkReady && !s.ov.dup then 1 else 0) 0 ∈ t.out) ∧
  (∀ copper, s.laneUp l = true ∨ s.domOn (21 + l / 2) = false → exec (.ovLaneUp l copper) s = .next s) ∧
  (∀ ready, lNOT_READY ≤ s.laneState l → ∃ t, exec (.ovReadySet l ready) s = .next t ∧ (t.lane l).ready = ready ∧
    (ready = true → s.ov.linkReady = true → s.ov.dup = false → t.laneUp l = true) ∧ (ready = false → t.laneState l = lNOT_READY ∨ 3 < s.laneState l) ∧
    (ready = true → (s.lane l).readyEver = false → ∃ b ∈ t.bq.staged, b.src = 5 ∧ b.code = 0x0504)) ∧
  (∀ asked uncorr, asked = true ∨ 16 < uncorr → lNOT_READY ≤ s.laneState l → ∃ t, exec (.ovRetrain l asked uncorr) s = .next t ∧ t.laneState l = lTRAINING ∧ (∀ v, v < 4 → t.held l v = 0) ∧
    t.rd (Reg.OV_LANE_CNT_RETRAINS l) = satU 32 (s.rd (Reg.OV_LANE_CNT_RETRAINS l) + 1) ∧ Out.ordered l 4 0 ∈ t.out ∧
    ∃ b ∈ t.bq.staged, b.src = 5 ∧ b.code = 0x0503) ∧
  (∀ asked uncorr, s.laneState l < lNOT_READY ∨ (asked = false ∧ uncorr ≤ 16) → exec (.ovRetrain l asked uncorr) s = .next s) ∧
  (s.laneState l < lNOT_READY → ∀ ready, exec (.ovReadySet l ready) s = .next s) ∧
  (s.laneState l ≠ lDOWN → ∃ t, exec (.ovLaneDown l) s = .next t ∧ t.laneState l = lDOWN ∧ (∀ v, v < 4 → t.held l v = 0) ∧
    (t.lane l).partials = [] ∧ (t.lane l).replay = [] ∧ (t.lane l).kept = [] ∧ (t.lane l).owe = [] ∧ (∃ b ∈ t.bq.staged, b.src = 5 ∧ b.code = 0x0502) ∧
    t.rd (Reg.OV_LANE_CNT_SEQ_TX l) = 0 ∧ t.rd (Reg.OV_LANE_CNT_SEQ_RX l) = 0 ∧
    (∀ m, (sideLanes (l / 4)).find? (fun k => k ≠ l && s.laneUp k) = some m →
      (t.lane m).toSend = ((s.lane m).toSend ++ ((s.lane l).kept ++ (s.lane l).replay).map (fun f => (f, 8)) ++ (s.lane l).toSend).map
        (fun e : Frame × Nat => (e.1, if e.2 = l then 8 else e.2)) ∧ (t.lane l).toSend = [])) ∧
  (s.laneState l = lDOWN → exec (.ovLaneDown l) s = .next s) ∧
  (∀ f corr uncorr, ∃ t, exec (.ovFrameReceive l f corr uncorr) s = .next t ∧
    t.rd (Reg.OV_LANE_CNT_FEC_CORR l) = satU 32 (s.rd (Reg.OV_LANE_CNT_FEC_CORR l) + corr) ∧
    t.rd (Reg.OV_LANE_CNT_FEC_UNCORR l) = satU 32 (s.rd (Reg.OV_LANE_CNT_FEC_UNCORR l) + uncorr) ∧
    (lNOT_READY ≤ s.laneState l → frameOk f = false → t.rd (Reg.OV_LANE_CNT_CRC_ERR l) = satU 32 (s.rd (Reg.OV_LANE_CNT_CRC_ERR l) + 1) ∧
      t.rd (Reg.OV_LANE_CNT_SEQ_RX l) = s.rd (Reg.OV_LANE_CNT_SEQ_RX l) ∧ t.ov.inbox = s.ov.inbox ∧
      ((s.lane l).nak = false → t.out = s.out ++ [.ordered l 2 (s.rd (Reg.OV_LANE_CNT_SEQ_RX l))] ∧ (t.lane l).nak = true)) ∧
    (lNOT_READY ≤ s.laneState l → frameOk f = true → f.seq = s.rd (Reg.OV_LANE_CNT_SEQ_RX l) →
      t.rd (Reg.OV_LANE_CNT_SEQ_RX l) = (s.rd (Reg.OV_LANE_CNT_SEQ_RX l) + 1) % 2 ^ 32 ∧ t.out = s.out ∧ (t.lane l).nak = false ∧
      (f.dst = s.me → (t.lane l).owe.getD f.vl 0 = (s.lane l).owe.getD f.vl 0 + 1) ∧
      (f.dst = s.me → f.first = true → f.last = true → 6 ≤ f.type →
        ∃ p, t.ov.inbox = s.ov.inbox ++ [p] ∧ p.src = f.src ∧ p.type = f.type ∧ p.data = f.payload.take f.len)) ∧
    (f.seq ≠ s.rd (Reg.OV_LANE_CNT_SEQ_RX l) → t.rd (Reg.OV_LANE_CNT_SEQ_RX l) = s.rd (Reg.OV_LANE_CNT_SEQ_RX l) ∧ t.ov.inbox = s.ov.inbox) ∧
    (lNOT_READY ≤ s.laneState l → frameOk f = true → f.seq ≠ s.rd (Reg.OV_LANE_CNT_SEQ_RX l) →
      (serialAfter 32 (s.rd (Reg.OV_LANE_CNT_SEQ_RX l)) f.seq = true → (t.lane l).owe.getD f.vl 0 = (s.lane l).owe.getD f.vl 0 + 1 ∧ t.out = s.out) ∧
      (serialAfter 32 (s.rd (Reg.OV_LANE_CNT_SEQ_RX l)) f.seq = false → (s.lane l).nak = false →
        t.out = s.out ++ [.ordered l 2 (s.rd (Reg.OV_LANE_CNT_SEQ_RX l))] ∧ (t.lane l).nak = true))) ∧
  (∀ q, ∃ t, exec (.ovNak l q) s = .next t ∧
    t.out = s.out ++ ((s.lane l).replay.filter (fun f => f.seq = q || serialAfter 32 f.seq q)).map (fun f => Out.frame l f) ∧
    t.rd (Reg.OV_LANE_CNT_RETX l) = satU 32 (s.rd (Reg.OV_LANE_CNT_RETX l) + ((s.lane l).replay.filter (fun f => f.seq = q || serialAfter 32 f.seq q)).length) ∧
    t = { s with regs := t.regs, out := t.out } ∧ onlyRegs s t [Reg.OV_LANE_CNT_RETX l]) ∧
  (∀ cs, (∃ t, exec (.ovCreditSet l true cs) s = .next t ∧ (∀ v, v < 4 →
      t.held l v = satU 16 (cs.getD v 0 - ((s.lane l).replay.filter (fun f => f.vl = v)).length) ∧
      t.rd (Reg.OV_CREDIT_IN_FLIGHT l v) = satU 16 ((s.lane l).replay.filter (fun f => f.vl = v)).length) ∧ t = { s with regs := t.regs }) ∧
    ∃ t, exec (.ovCreditSet l false cs) s = .next t ∧ (∀ v, v < 4 → s.held l v + s.rd (Reg.OV_CREDIT_IN_FLIGHT l v) < 2 ^ 16 →
      t.held l v + t.rd (Reg.OV_CREDIT_IN_FLIGHT l v) = s.held l v + s.rd (Reg.OV_CREDIT_IN_FLIGHT l v) ∧
      t.held l v = s.held l v + min (cs.getD v 0) (s.rd (Reg.OV_CREDIT_IN_FLIGHT l v))) ∧ t = { s with regs := t.regs })

/-- Time transfer, heartbeats, topology and roles (R344, R346, R347, R349 to R354): what each message changes, who leads after a claim, a
takeover or a handover, and what the loss of the leader or of the deputy does.
Where the spec leaves a point of this open, the model's reading is log entries 104 and 105. -/
def Obligations.PackRoles : Prop := ∀ s : State,
  (∀ t1s, ∃ t, exec (.ttSend t1s) s = .next t ∧ t = { s with out := t.out, ov := t.ov } ∧
    ∀ p l, p < 4 → s.portLane p = some l →
      Out.ovnas 1 (s.rd (Reg.OV_PORT_STAT_NEIGHBOUR p)) [t1s.getD p 0, s.ov.ttArr.get 0 p, s.ov.ttDep.get 0 p] ∈ t.out ∧
      (t.ov.txq.any (fun m => m.type = 1 && m.side = 4 + l && m.dst = s.rd (Reg.OV_PORT_STAT_NEIGHBOUR p))) = true) ∧
  (∀ p t1 t2 t3 t4, p < 4 → s.laneUp (2 * p) = true ∨ s.laneUp (2 * p + 1) = true → ∃ t, exec (.ttReceive p t1 t2 t3 t4) s = .next t ∧
    t.rd (Reg.OV_PORT_STAT_DELAY p) = satU 32 (ttPs (((t2 : Int) - t1) + ((t4 : Int) - t3)) 2).toNat ∧
    t.rd (Reg.OV_PORT_STAT_OFFSET p) = unsigned 32 (ttPs (((t4 : Int) - t3) - ((t2 : Int) - t1)) 2 - s.rdS (Reg.OV_PORT_CFG_ASYM p)) ∧
    t.ov.ttArr.get 0 p = t4 ∧ t.ov.ttDep.get 0 p = t1 ∧
    (s.follows = true → t.upPorts.contains p = true → t.rdS (Reg.OV_PORT_STAT_RESIDUAL p) = satS 32 t.meanOffset) ∧
    (s.follows = false ∨ t.upPorts.contains p = false → t.rd (Reg.OV_PORT_STAT_RESIDUAL p) = 0 ∧ t = { s with regs := t.regs, ov := t.ov })) ∧
  (∀ p t1 t2 t3 t4, p < 4 → s.laneUp (2 * p) = false → s.laneUp (2 * p + 1) = false → exec (.ttReceive p t1 t2 t3 t4) s = .next s) ∧
  (s.follows = true ∨ s.ov.linkReady = false → exec .heartbeatSend s = .next s) ∧
  (s.follows = false → s.ov.linkReady = true → ∃ t, exec .heartbeatSend s = .next t ∧
    t.out = s.out ++ [.ovnas 2 255 [s.me, s.rd Reg.OV_STAT_DEPUTY_ID, s.rd Reg.TB_STATE_STATE, s.rd Reg.OV_PACK_STAT_RAW_HUBS, 0]] ∧
    t = { s with ov := t.ov, out := t.out }) ∧
  (s.ov.linkReady = true → ∃ t ws, exec .topologySend s = .next t ∧ t.out = s.out ++ [.ovnas 3 255 (s.me :: ws)] ∧ t = { s with ov := t.ov, out := t.out }) ∧
  (s.ov.linkReady = false → exec .topologySend s = .next s) ∧
  (∀ p leader deputy tb raw hops, p < 4 → leader < 64 → deputy < 256 → leader ≠ s.me →
    (s.follows = false → s.me < leader → exec (.heartbeatReceive p leader deputy tb raw hops) s = .next s) ∧
    (s.follows = true ∨ leader < s.me → ∃ t, exec (.heartbeatReceive p leader deputy tb raw hops) s = .next t ∧ t.rd Reg.OV_STAT_LEADER_ID = leader ∧
      t.rd Reg.OV_STAT_DEPUTY_ID = deputy ∧ t.rd Reg.OV_STAT_ROLE = (if deputy = s.me then 2 else 0) ∧
      Out.ovnas 2 255 [leader, deputy, tb, raw, hops + 1] ∈ t.out ∧ (s.follows = false →
        t.rd Reg.OV_CNT_DEMOTIONS = satU 32 (s.rd Reg.OV_CNT_DEMOTIONS + 1) ∧ ∃ b ∈ t.bq.staged, b.src = 5 ∧ b.code = 0x0508))) ∧
  (∀ p id serial role delay readyAt rings raw hops path, p < 4 → id < 64 → 1 ≤ hops →
    (id ≠ s.me → ∃ t, exec (.topologyReceive p id serial role delay readyAt rings raw hops path) s = .next t ∧ (t.peer id).known = true ∧
      (t.peer id).serial = serial ∧ (t.peer id).role = role ∧ (t.peer id).last = s.run ∧ (hops = 1 → t.rd (Reg.OV_PORT_STAT_NEIGHBOUR p) = id)) ∧
    (id = s.me → serial = s.rd Reg.HUB_SERIAL_SERIAL →
      exec (.topologyReceive p id serial role delay readyAt rings raw hops path) s = .next s) ∧
    (∀ r, id = s.me → serial ≠ s.rd Reg.HUB_SERIAL_SERIAL → s.ov.readyAt = some r → readyAt < r → s.ov.dup = false →
      ∃ t, exec (.topologyReceive p id serial role delay readyAt rings raw hops path) s = .next t ∧ t.ov.dup = true ∧ t.ov.linkReady = false ∧
        (∀ l, l < 8 → t.laneUp l = false) ∧ ∃ b ∈ t.bq.staged, b.src = 5 ∧ b.code = 0x050B)) ∧
  (∀ p from_, p < 4 → from_ < 64 → from_ ≠ s.me → ∃ t, exec (.linkDownNotice p from_) s = .next t ∧ Out.ovnas 0 255 [from_, p / 2] ∈ t.out ∧
    ∀ h, s.ov.peers.any (fun q => q.1 = h) = true → p / 2 = 0 → (s.peer from_).hopsW < (s.peer h).hopsW → (t.peer h).hopsW = 0) ∧
  (∀ c, s.ov.claimAt = some c → s.follows = true → s.ov.lead = true →
    s.elapsed c (max 3 (s.rd Reg.OV_PACK_CFG_CLAIM_WAIT) * cclkMs) = true → ∃ t, exec .ovLeaderClaim s = .next t ∧ t.follows = false ∧
      t.rd Reg.OV_STAT_LEADER_ID = s.me % 2 ^ 8 ∧ t.ov.claimAt = none ∧ lastBark t 5 0x0507) ∧
  (s.ov.claimAt = none → exec .ovLeaderClaim s = .next s) ∧
  (∀ t0, s.ov.hbLast = some t0 → s.follows = true → s.rd Reg.OV_STAT_LEADER_ID ≠ 255 → s.elapsed t0 s.lossMs = true → s.takes_ = [] →
    ∃ t, exec .ovLeaderLost s = .next t ∧ t.rd Reg.OV_CNT_LEADER_LOSSES = satU 32 (s.rd Reg.OV_CNT_LEADER_LOSSES + 1) ∧
      (∃ b ∈ t.bq.staged, b.src = 5 ∧ b.code = 0x050A) ∧
      (s.rd Reg.OV_STAT_ROLE = 2 → t.follows = false ∧ t.rd Reg.OV_CNT_TAKEOVERS = satU 32 (s.rd Reg.OV_CNT_TAKEOVERS + 1)) ∧
      ∀ n, n < 32 → s.lkHeld n = true → s.rd (Reg.LK_STAT_OWNER n) = (if s.ov.tookOver then 5 else 4) → t.lkBroken n = true) ∧
  (s.follows = false → exec .ovLeaderLost s = .next s) ∧
  (s.follows = false → s.rd Reg.OV_STAT_DEPUTY_ID ≠ 255 → s.rd Reg.OV_STAT_DEPUTY_ID ≠ s.me → (s.peer (s.rd Reg.OV_STAT_DEPUTY_ID)).known = true →
    s.ov.deputyLost = false → s.elapsed (s.peer (s.rd Reg.OV_STAT_DEPUTY_ID)).last s.lossMs = true → ∃ t, exec .ovDeputyLost s = .next t ∧
      t.ov.deputyLost = true ∧ ∃ b ∈ t.bq.staged, b.src = 5 ∧ b.code = 0x050D) ∧
  (s.follows = true → exec .ovDeputyLost s = .next s ∧ exec .ovHandover s = .next s) ∧
  (∀ t0, s.hub.isoSince = some t0 → s.follows = false → s.rd Reg.OV_PACK_CFG_HANDOVER_MS ≠ 0 →
    s.elapsed t0 (s.rd Reg.OV_PACK_CFG_HANDOVER_MS * cclkMs) = true → s.rd Reg.OV_STAT_DEPUTY_ID ≠ 255 →
    (s.peer (s.rd Reg.OV_STAT_DEPUTY_ID)).reach = true → (s.peer (s.rd Reg.OV_STAT_DEPUTY_ID)).rings = true → ∃ t, exec .ovHandover s = .next t ∧
      t.follows = true ∧ Out.ovnas 0 (s.rd Reg.OV_STAT_DEPUTY_ID) [s.me] ∈ t.out ∧ ∃ b ∈ t.bq.staged, b.src = 5 ∧ b.code = 0x050C) ∧
  (∀ f, f < 64 → (s.rd Reg.OV_STAT_ROLE = 2 → ∃ t, exec (.handoverReceive f) s = .next t ∧ t.follows = false ∧
      t.rd Reg.OV_CNT_TAKEOVERS = satU 32 (s.rd Reg.OV_CNT_TAKEOVERS + 1) ∧ lastBark t 5 0x0509) ∧
    (s.rd Reg.OV_STAT_ROLE ≠ 2 → exec (.handoverReceive f) s = .next s))

/-- Messages between the hubs of a pack (R312, R355 to R358, R406): forwarded commands and their completions, buffer space, records and
their confirmation, barks, bulk data, and modules.
Where the spec leaves a point of this open, the model's reading is log entries 100, 102, 106 and 107. -/
def Obligations.PackMessages : Prop := ∀ s : State,
  (∀ h from_, from_ < 64 →
    (s.hp.inflight.any (fun f => sameCmd f.hdr { h with via := .message from_ }) = false → ∃ t, exec (.commandMessage h from_) s = .next t ∧
      carried t { h with via := .message from_ } ∧ t.out = s.out ++ [.ovnas 9 from_ [h.tag, h.index, 0]]) ∧
    (s.hp.inflight.any (fun f => sameCmd f.hdr { h with via := .message from_ }) = true → ∃ t, exec (.commandMessage h from_) s = .next t ∧
      t.hp = s.hp ∧ t.out = s.out)) ∧
  (∀ f kind hub tag index st result endCause, kind ≤ 2 → hub < 64 →
    s.ov.forwards.find? (fun f => f.target = hub && f.hdr.tag = tag && f.hdr.index = index) = some f →
    (kind = 0 → ∃ t, exec (.completionMessage 0 hub tag index st result endCause) s = .next t ∧ t.hp = s.hp ∧
      t.ov.forwards.length = s.ov.forwards.length) ∧
    (kind = 1 → carried s f.hdr → s.ringsOn = true → ∃ t, exec (.completionMessage 1 hub tag index st result endCause) s = .next t ∧
      settled t f.hdr ∧ (∃ c, t.hp.cplWait = s.hp.cplWait ++ [c] ∧ c.tag = tag ∧ c.status = st ∧ c.hub = hub ∧ c.result = result % 2 ^ 32 ∧ c.index = index) ∧
      t.out = s.out ++ [.ovnas 9 hub [tag, index, 2]] ∧ t.ov.forwards.any (fun g => sameCmd g.hdr f.hdr) = false)) ∧
  (∀ hub tag index st result endCause, hub < 64 → ∃ t, exec (.completionMessage 2 hub tag index st result endCause) s = .next t ∧
    t.ov.kept = s.ov.kept.filter (fun c => !(c.tag = tag && c.index = index)) ∧ t = { s with ov := t.ov }) ∧
  (∀ f t0, s.ov.forwards = [f] → f.lostAt = some t0 → carried s f.hdr → s.ringsOn = true → s.elapsed t0 (50 * cclkMs) = true →
    ∃ t, exec .forwardTimeout s = .next t ∧ settled t f.hdr ∧ posts s t f.hdr .timeout ∧ t.ov.forwards = []) ∧
  (s.ov.forwards = [] → exec .forwardTimeout s = .next s) ∧
  (∀ hub b bytes, hub < 64 → b < 256 → s.follows = false → s.ov.requested = [] → 0 < bytes →
    (s.bufFree b < grantQuantum → ∃ t, exec (.requestMessage hub b bytes) s = .next t ∧ t.ov.requested.get 0 (hub * 256 + b) = bytes ∧ t.out = s.out) ∧
    (grantQuantum ≤ s.bufFree b → ∃ t, exec (.requestMessage hub b bytes) s = .next t ∧ t.ov.requested.get 0 (hub * 256 + b) = bytes - grantQuantum ∧
      t.ov.reserved.get 0 b = s.ov.reserved.get 0 b + grantQuantum ∧ t.out = s.out ++ [.ovnas 6 hub [b, grantQuantum]])) ∧
  (∀ from_ b bytes, from_ < 64 → b < 256 → ∃ t, exec (.grantMessage from_ b bytes) s = .next t ∧
    t.ov.granted.get 0 b = (if s.follows then s.ov.granted.get 0 b + bytes else s.ov.granted.get 0 b) ∧ t = { s with ov := t.ov }) ∧
  (∀ type hub b i seq n replay data, type = 11 ∨ type = 12 → hub < 64 → b < 256 → i < 1024 → s.follows = false →
    (replay = false → seq < s.ov.written.get 0 (hub * 65536 + i) → ∃ t, exec (.recordMessage type hub b i seq n replay data) s = .next t ∧
      t = { s with ov := t.ov } ∧ t.ov.written = s.ov.written) ∧
    (replay = true ∨ s.ov.written.get 0 (hub * 65536 + i) ≤ seq → ∃ t, exec (.recordMessage type hub b i seq n replay data) s = .next t ∧
      (∃ r, (t.sbuf b).queue = (s.sbuf b).queue ++ [r] ∧ r.stream = i ∧ r.seq = seq ∧ r.data = data.set 3 hub) ∧
      t.ov.written.get 0 (hub * 65536 + i) = (if replay then s.ov.written.get 0 (hub * 65536 + i) else seq + n))) ∧
  (∀ from_ i seq, from_ < 64 → i < 1024 → (∃ u ∈ s.ov.unconf, u.rcd.stream = i ∧ u.rcd.replay = false ∧ u.rcd.seq + u.rcd.n ≤ seq) →
    ∃ t, exec (.deliveredNotice from_ i seq false) s = .next t ∧
      (∀ u, u ∈ t.ov.unconf ↔ u ∈ s.ov.unconf ∧ ¬ (u.rcd.stream = i ∧ u.rcd.replay = false ∧ u.rcd.seq + u.rcd.n ≤ seq)) ∧
      ∀ x, s.stream i = some x → ∃ y, t.stream i = some y ∧ y.conf = seq) ∧
  (s.follows = true → s.leaderPath = true → (s.ov.resend = true ∨ ∃ u ∈ s.ov.unconf, s.elapsed u.sentAt (20 * cclkMs) = true) →
    ∃ t, exec .deliveryResend s = .next t ∧ t.ov.resend = false ∧ t.out.length = s.out.length + s.ov.unconf.length ∧
      t.ov.unconf = s.ov.unconf.map (fun u => { u with sentAt := s.run }) ∧ t = { s with ov := t.ov, out := t.out }) ∧
  (s.follows = false → exec .deliveryResend s = .next s) ∧
  (∀ hub src code warn time payload al, hub < 64 → s.queueUp = true → s.bqLevel + min 64 (4 + payload.length) ≤ queueWords →
    ∃ t, exec (.barkMessage hub src code warn time payload al) s = .next t ∧
      t.bq.queue = s.bq.queue ++ [{ src := src, code := code, warn := warn, hub := hub, time := time, payload := payload, afterLoss := al }] ∧
      t.bq.staged = s.bq.staged) ∧
  (∀ hub addr data, hub < 64 →
    (s.follows = false → ∃ t, exec (.bulkMessage hub 0 addr data) s = .next t ∧ t.out = s.out ++ [.dma addr data] ∧ t = { s with ov := t.ov, out := t.out }) ∧
    (∃ t, exec (.bulkMessage hub 1 addr data) s = .next t ∧ (t.peer hub).entry = data.take 33 ∧ t = { s with ov := t.ov })) ∧
  (∀ cage qualified rightKind cls, cage < 9 → ∃ t, exec (.moduleSeated cage qualified rightKind cls) s = .next t ∧
    t.ov.modules.get 0 cage = (if 2 < cls || !rightKind then 3 else if qualified then 1 else 2) ∧
    (2 < cls → barks s t 5 0x050F) ∧ (cls ≤ 2 → rightKind = true → qualified = false → barks s t 5 0x050E) ∧
    t = { s with ov := t.ov, bq := t.bq })

/-- The hub right after AON came up from no power (R360, R424): BOOT with cause 0x01 and a cold start begun, START_BEGIN staged, array
time and the run clock at 0, the reset values of the register tables, no card, no leash held, no completion and no command waiting, so that
the queue is one that QueueStaysSafe speaks of. That nothing else is under way at reset is the model's choice (log entries 1 and 2). -/
def Obligations.ResetState : Prop :=
  State.reset.pending = [] ∧ State.reset.mode = mBOOT ∧ State.reset.rd Reg.HUB_MODE_CAUSE = 1 ∧ State.reset.rd Reg.HUB_START_CAUSE_CAUSE = 1 ∧
  State.reset.hub.starting = true ∧ State.reset.now = 0 ∧ State.reset.run = 0 ∧ State.reset.tbState = tbACQUIRE ∧
  (∀ d, d < 30 → State.reset.domOn d = false) ∧ State.reset.rd Reg.PW_CEIL_CEIL = 6000 ∧ State.reset.rd Reg.PW_CFG_FEED_LIM = 11600 ∧
  State.reset.rd Reg.PW_CFG_FAN_MIN = 30 ∧ State.reset.rd Reg.PW_GOV_GOV_VAL = 0x7FFF ∧ State.reset.rd Reg.HUB_GUARD_ISO_TIME = 2000 ∧
  State.reset.rd Reg.KN_BANK_STATE_PREVIOUS = 3 ∧ State.reset.rd Reg.OV_STAT_LEADER_ID = 255 ∧ State.reset.ringsOn = false ∧
  (∀ n, n < 32 → State.reset.lkHeld n = false) ∧ (∀ p, p < 30 → (State.reset.slot p).card = false) ∧ State.reset.hp.inflight = [] ∧
  State.reset.hp.cplWait = [] ∧ State.reset.bq.queue = [] ∧ lastBark State.reset 1 0x0120 ∧ queueWf State.reset

/-- The step takes the command at the front of the queue and runs it with the queue's rest; on an empty queue one CCLK edge passes, and without
AON nothing happens. The empty queue's step is the model's choice (log entry 3). -/
def Obligations.StepRule : Prop := ∀ s : State,
  (∀ c rest, s.pending = c :: rest → step s = exec c { s with pending := rest }) ∧
  (s.pending = [] → s.hub.aon = true → ∃ t, step s = .next t ∧ t.now = s.now + 1 ∧ t.run = s.run + 1 ∧ t.pending = []) ∧
  (s.pending = [] → s.hub.aon = false → step s = .next s)

/-- Every command that names elements the hub has is carried out, and leaves the queue as it is; one that names an element the hub does not
have is a fault. No command is refused by the model. -/
def Obligations.EveryCommandAnswers : Prop := ∀ (c : Instr) (s : State),
  (c.wf = true → ∃ t, exec c s = .next t ∧ t.pending = s.pending) ∧ (c.wf = false → exec c s = .fault .noSuchItem)

/-- A queue of commands that name only elements the hub has stays one under every step, and the step answers a next state. -/
def Obligations.QueueStaysSafe : Prop := ∀ s : State, queueWf s → ∃ t, step s = .next t ∧ queueWf t ∧ t.pending = s.pending.tail

/-- Commands are carried out first in, first out, each once, and none stops the run: after n steps the first n have left the queue. -/
def Obligations.QueueDrains : Prop := ∀ (s : State) (n : Nat), queueWf s → ∃ t, run n s = .next t ∧ t.pending = s.pending.drop n ∧ queueWf t

/-- The canonical form of every array of the state: every change keeps it, a value that is written is read back and no other changes, and two
arrays in that form which read alike are the same list. This is the model's own form (log entry 4). -/
def Obligations.CanonicalArrays : Prop := ∀ (d : Nat) (m n : Sparse Nat), m.wf d = true → n.wf d = true →
  (∀ k v, (m.put d k v).wf d = true ∧ (m.put d k v).get d k = v ∧ ∀ j, j ≠ k → (m.put d k v).get d j = m.get d j) ∧
  (∀ p : Nat → Bool, Sparse.wf d (m.filter (fun e => p e.1)) = true ∧
    ∀ j, Sparse.get d j (m.filter (fun e => p e.1)) = if p j then m.get d j else d) ∧
  ((∀ k, m.get d k = n.get d k) → m = n)

/-- The gate of register commands (R16, R415, R416, R419, R423): a direct one that the mode, the domain or a leash does not let through only
adds to HUB_WR_STAT, and one of a CFG_WRITE whose domain is off is without effect; and when the gate opens.
Where the spec leaves a point of this open, the model's reading is log entries 19 and 20. -/
def Obligations.RegisterGate : Prop :=
  (∀ (c : Instr) (s : State) (src : WrSrc) (r : RegId) (k i : Nat) (l : Bool), c.wf = true → gateOf c = some (src, r, k, i, l) →
    s.takes src r k i l = false →
    (src = .direct → ∃ t, exec c s = .next t ∧ t.rd Reg.HUB_WR_STAT_DISCARDS = satU 32 (s.rd Reg.HUB_WR_STAT_DISCARDS + 1) ∧
      t.rd Reg.HUB_WR_STAT_LAST_OFS = ofsOf r k i % 2 ^ 20 ∧ t = { s with regs := t.regs } ∧
      onlyRegs s t [Reg.HUB_WR_STAT_DISCARDS, Reg.HUB_WR_STAT_LAST_OFS]) ∧
    (src = .cfg → exec c s = .next s)) ∧
  (∀ (s : State) (r : RegId) (k i : Nat) (l : Bool),
    (s.runLike = true → r.isHp = false → s.takes .direct r k i l = false) ∧ (s.mode = mDORMANT → s.takes .direct r k i l = false) ∧
    (∀ d src, regDomain r k i = some d → s.domOn d = false → s.takes src r k i l = false) ∧ (s.takes .cfg r k i l = s.regOn r k i) ∧
    (s.mode = mSAFE ∨ s.mode = mCOMMISSION ∨ s.mode = mSELFTEST → s.regOn r k i = true → s.resOf r k i = [] → s.takes .direct r k i l = true) ∧
    (∀ n, n < 32 → s.guards n ∈ s.resOf r k i → (s.guards n).1 ≠ 0 → s.lkHeld n = true → s.rd (Reg.LK_STAT_OWNER n) ≠ 1 →
      s.takes .direct r k i true = false))

/-- A bark packet (R322): its length word, code word, time and payload, and the number of its words. -/
def Obligations.BarkPacket : Prop := ∀ b : Bark,
  b.words.length = b.len ∧ 4 ≤ b.len ∧ b.len ≤ 64 ∧ bits (b.words.getD 0 0) 0 7 = b.len ∧ bits (b.words.getD 0 0) 7 1 = b2n b.afterLoss ∧
  bits (b.words.getD 0 0) 8 8 = b.src % 256 ∧ b.words.getD 0 0 < 2 ^ 16 ∧ bits (b.words.getD 1 0) 0 16 = b.code % 2 ^ 16 ∧
  bits (b.words.getD 1 0) 16 2 = b2n b.warn ∧ bits (b.words.getD 1 0) 18 6 = 0 ∧ bits (b.words.getD 1 0) 24 6 = b.hub % 64 ∧
  bits (b.words.getD 1 0) 30 2 = 0 ∧ b.words.getD 2 0 + b.words.getD 3 0 * 2 ^ 32 = b.time % 2 ^ 64 ∧
  ∀ j, j < 60 → j < b.payload.length → b.words.getD (4 + j) 0 = b.payload.getD j 0 % 2 ^ 32

/-- Array time (R32, R33): beat b of second S begins at S + b × 15,625 ns with FRAC 0 and has the number S × 64,000 + b; the n-th edge of it
carries the boundary's AT plus n × 15,625 / 3,840 ns rounded to the nearest 2^-16 ns; and an edge's AT names that edge again. -/
def Obligations.ArrayTime : Prop := ∀ S b n : Nat, b < 64000 → n < 3840 →
  (at96 (((S * 64000 + b) * 3840) + n)).sec = S ∧
  at96Sub (at96 ((S * 64000 + b) * 3840 + n)) = b * 15625 * 65536 + (rne ((n * 15625 * 65536 : Nat) : Int) 3840).toNat ∧
  (at96 ((S * 64000 + b) * 3840)).ns = b * 15625 ∧ (at96 ((S * 64000 + b) * 3840)).frac = 0 ∧ (S * 64000 + b) * 3840 % 10 = 0 ∧
  (∀ s : State, s.now = (S * 64000 + b) * 3840 + n → s.bn = S * 64000 + b) ∧ (at96 ((S * 64000 + b) * 3840 + n)).ns ≤ 999999999 ∧
  (S < 2 ^ 48 → S * 64000 + b < 2 ^ 64 ∧ edgeOf (at96Of (atWord ((S * 64000 + b) * 3840 + n))) = (S * 64000 + b) * 3840 + n)

/-- Serial order of SEQ values (R339). -/
def Obligations.SerialOrder : Prop := ∀ a b : Nat, a < 2 ^ 32 → b < 2 ^ 32 →
  (serialAfter 32 b a = true ↔ 1 ≤ (b + 2 ^ 32 - a) % 2 ^ 32 ∧ (b + 2 ^ 32 - a) % 2 ^ 32 ≤ 2 ^ 31 - 1) ∧
  (serialAfter 32 b a = true → serialAfter 32 a b = false)
end

