-- ==== Sys2Proof/Laws/Sparse.lean ====
section
/-! SUPPORT. Laws of the sparse maps: a read after a write, and the canonical form that every operation keeps. -/

namespace Sys2Proof.Machine

variable {α : Type}

@[simp] theorem Sparse.get_nil (d : α) (k : Nat) : Sparse.get d k [] = d := rfl

theorem Sparse.get_erase_self (d : α) (k : Nat) (m : Sparse α) : (m.erase k).get d k = d := by
  induction m with
  | nil => rfl
  | cons e r ih => obtain ⟨j, v⟩ := e; by_cases h : j = k <;> simp [Sparse.erase, Sparse.get, h, ih]

theorem Sparse.get_erase_ne (d : α) {k k' : Nat} (hk : k ≠ k') (m : Sparse α) : (m.erase k).get d k' = m.get d k' := by
  induction m with
  | nil => rfl
  | cons e r ih =>
    obtain ⟨j, v⟩ := e
    by_cases h : j = k
    · subst h; simp [Sparse.erase, Sparse.get, hk, ih]
    · simp [Sparse.erase, Sparse.get, h, ih]

theorem Sparse.get_insert_self (d v : α) (k : Nat) (m : Sparse α) : (m.insert k v).get d k = v := by
  induction m with
  | nil => simp [Sparse.insert, Sparse.get]
  | cons e r ih =>
    obtain ⟨j, w⟩ := e
    by_cases h : j = k
    · simp [Sparse.insert, Sparse.get, h]
    · by_cases h2 : k < j <;> simp [Sparse.insert, Sparse.get, h, h2, ih]

theorem Sparse.get_insert_ne (d v : α) {k k' : Nat} (hk : k ≠ k') (m : Sparse α) : (m.insert k v).get d k' = m.get d k' := by
  induction m with
  | nil => simp [Sparse.insert, Sparse.get, hk]
  | cons e r ih =>
    obtain ⟨j, w⟩ := e
    by_cases h : j = k
    · subst h; simp [Sparse.insert, Sparse.get, hk]
    · by_cases h2 : k < j <;> simp [Sparse.insert, Sparse.get, h, h2, hk, ih]

/-- A read of the key just written. -/
@[simp] theorem Sparse.get_put_self [DecidableEq α] (d v : α) (k : Nat) (m : Sparse α) : (m.put d k v).get d k = v := by
  unfold Sparse.put
  split
  · next h => rw [h, Sparse.get_erase_self]
  · exact Sparse.get_insert_self d v k m

/-- A write leaves every other key alone. -/
theorem Sparse.get_put_ne [DecidableEq α] (d d' v : α) {k k' : Nat} (hk : k ≠ k') (m : Sparse α) :
    (m.put d k v).get d' k' = m.get d' k' := by
  unfold Sparse.put
  split
  · exact Sparse.get_erase_ne d' hk m
  · exact Sparse.get_insert_ne d' v hk m

theorem Sparse.sortedFrom_mono {lo lo' : Nat} (h : lo' ≤ lo) (m : Sparse α) (hm : m.sortedFrom lo = true) :
    m.sortedFrom lo' = true := by
  cases m with
  | nil => rfl
  | cons e r => obtain ⟨j, v⟩ := e; simp [Sparse.sortedFrom] at hm ⊢; exact ⟨by omega, hm.2⟩

theorem Sparse.sortedFrom_erase (k : Nat) (m : Sparse α) : ∀ lo, m.sortedFrom lo = true → (m.erase k).sortedFrom lo = true := by
  induction m with
  | nil => intro lo _; rfl
  | cons e r ih =>
    obtain ⟨j, v⟩ := e
    intro lo h
    simp [Sparse.sortedFrom] at h
    by_cases hj : j = k
    · simp [Sparse.erase, hj]
      exact Sparse.sortedFrom_mono (by omega) _ (ih (j + 1) h.2)
    · simp [Sparse.erase, hj, Sparse.sortedFrom]
      exact ⟨h.1, ih (j + 1) h.2⟩

theorem Sparse.sortedFrom_insert (k : Nat) (v : α) (m : Sparse α) :
    ∀ lo, lo ≤ k → m.sortedFrom lo = true → (m.insert k v).sortedFrom lo = true := by
  induction m with
  | nil => intro lo hlo _; simp [Sparse.insert, Sparse.sortedFrom, hlo]
  | cons e r ih =>
    obtain ⟨j, w⟩ := e
    intro lo hlo h
    simp [Sparse.sortedFrom] at h
    by_cases hj : j = k
    · subst hj; simp [Sparse.insert, Sparse.sortedFrom, hlo, h.2]
    · by_cases hk : k < j
      · have hj' : k + 1 ≤ j := by omega
        simp [Sparse.insert, Sparse.sortedFrom, hj, hk, hlo, hj', h.2]
      · simp [Sparse.insert, Sparse.sortedFrom, hj, hk]
        exact ⟨h.1, ih (j + 1) (by omega) h.2⟩

theorem Sparse.noDefault_erase [DecidableEq α] (d : α) (k : Nat) (m : Sparse α) (h : m.noDefault d = true) :
    (m.erase k).noDefault d = true := by
  induction m with
  | nil => rfl
  | cons e r ih =>
    obtain ⟨j, v⟩ := e
    simp [Sparse.noDefault] at h ih
    by_cases hj : j = k <;> simp [Sparse.erase, hj, Sparse.noDefault] <;> grind

theorem Sparse.noDefault_insert [DecidableEq α] (d v : α) (k : Nat) (hv : v ≠ d) (m : Sparse α) (h : m.noDefault d = true) :
    (m.insert k v).noDefault d = true := by
  induction m with
  | nil => simp [Sparse.insert, Sparse.noDefault, hv]
  | cons e r ih =>
    obtain ⟨j, w⟩ := e
    simp [Sparse.noDefault] at h ih
    by_cases hj : j = k
    · simp [Sparse.insert, hj, Sparse.noDefault, hv]; grind
    · by_cases hk : k < j <;> simp [Sparse.insert, hj, hk, Sparse.noDefault, hv] <;> grind

/-- A write keeps the canonical form. -/
theorem Sparse.wf_put [DecidableEq α] (d v : α) (k : Nat) (m : Sparse α) (h : m.wf d = true) : (m.put d k v).wf d = true := by
  simp only [Sparse.wf, Bool.and_eq_true, Sparse.sorted] at h ⊢
  unfold Sparse.put
  split
  · exact ⟨Sparse.sortedFrom_erase k m 0 h.1, Sparse.noDefault_erase d k m h.2⟩
  · next hv => exact ⟨Sparse.sortedFrom_insert k v m 0 (Nat.zero_le k) h.1, Sparse.noDefault_insert d v k hv m h.2⟩

theorem Sparse.sortedFrom_filter (p : Nat × α → Bool) (m : Sparse α) :
    ∀ lo, m.sortedFrom lo = true → Sparse.sortedFrom lo (m.filter p) = true := by
  induction m with
  | nil => intro lo _; rfl
  | cons e r ih =>
    obtain ⟨j, v⟩ := e
    intro lo h
    simp [Sparse.sortedFrom] at h
    by_cases hp : p (j, v) = true
    · simp [hp, Sparse.sortedFrom]; exact ⟨h.1, ih (j + 1) h.2⟩
    · simp [hp]; exact Sparse.sortedFrom_mono (by omega) _ (ih (j + 1) h.2)

/-- Removing entries keeps the keys rising. -/
theorem Sparse.sorted_filter (p : Nat × α → Bool) (m : Sparse α) (h : m.sorted = true) : Sparse.sorted (m.filter p) = true :=
  Sparse.sortedFrom_filter p m 0 h

/-- A key below every listed key reads as the default. -/
theorem Sparse.get_of_lt (d : α) (m : Sparse α) : ∀ lo k, m.sortedFrom lo = true → k < lo → m.get d k = d := by
  induction m with
  | nil => intro _ _ _ _; rfl
  | cons e r ih =>
    obtain ⟨j, v⟩ := e
    intro lo k h hk
    simp [Sparse.sortedFrom] at h
    have hne : j ≠ k := by omega
    simp [Sparse.get, hne]
    exact ih (j + 1) k h.2 (by omega)

end Sys2Proof.Machine
end

