-- ==== Sys2Proof/Laws/State.lean ====
section
/-! SUPPORT. One law for each field of the state and each named operation: an operation leaves alone every field it does
not write. -/

namespace Sys2Proof.Machine

/-! `State.wr` -/

@[simp] theorem State.wr_pending (s : State) (f : Fld) (v : Nat) : (s.wr f v).pending = s.pending := rfl
@[simp] theorem State.wr_hold (s : State) (f : Fld) (v : Nat) : (s.wr f v).hold = s.hold := rfl
@[simp] theorem State.wr_lag (s : State) (f : Fld) (v : Nat) : (s.wr f v).lag = s.lag := rfl
@[simp] theorem State.wr_now (s : State) (f : Fld) (v : Nat) : (s.wr f v).now = s.now := rfl
@[simp] theorem State.wr_run (s : State) (f : Fld) (v : Nat) : (s.wr f v).run = s.run := rfl
@[simp] theorem State.wr_hub (s : State) (f : Fld) (v : Nat) : (s.wr f v).hub = s.hub := rfl
@[simp] theorem State.wr_tb (s : State) (f : Fld) (v : Nat) : (s.wr f v).tb = s.tb := rfl
@[simp] theorem State.wr_fc (s : State) (f : Fld) (v : Nat) : (s.wr f v).fc = s.fc := rfl
@[simp] theorem State.wr_mt (s : State) (f : Fld) (v : Nat) : (s.wr f v).mt = s.mt := rfl
@[simp] theorem State.wr_ax (s : State) (f : Fld) (v : Nat) : (s.wr f v).ax = s.ax := rfl
@[simp] theorem State.wr_rd_ (s : State) (f : Fld) (v : Nat) : (s.wr f v).rd_ = s.rd_ := rfl
@[simp] theorem State.wr_dv (s : State) (f : Fld) (v : Nat) : (s.wr f v).dv = s.dv := rfl
@[simp] theorem State.wr_aos (s : State) (f : Fld) (v : Nat) : (s.wr f v).aos = s.aos := rfl
@[simp] theorem State.wr_pw (s : State) (f : Fld) (v : Nat) : (s.wr f v).pw = s.pw := rfl
@[simp] theorem State.wr_hp (s : State) (f : Fld) (v : Nat) : (s.wr f v).hp = s.hp := rfl
@[simp] theorem State.wr_bq (s : State) (f : Fld) (v : Nat) : (s.wr f v).bq = s.bq := rfl
@[simp] theorem State.wr_takes_ (s : State) (f : Fld) (v : Nat) : (s.wr f v).takes_ = s.takes_ := rfl
@[simp] theorem State.wr_le (s : State) (f : Fld) (v : Nat) : (s.wr f v).le = s.le := rfl
@[simp] theorem State.wr_ov (s : State) (f : Fld) (v : Nat) : (s.wr f v).ov = s.ov := rfl
@[simp] theorem State.wr_kn (s : State) (f : Fld) (v : Nat) : (s.wr f v).kn = s.kn := rfl
@[simp] theorem State.wr_out (s : State) (f : Fld) (v : Nat) : (s.wr f v).out = s.out := rfl
@[simp] theorem State.wr_free (s : State) (f : Fld) (v : Nat) : (s.wr f v).free = s.free := rfl

/-! `State.set` -/

@[simp] theorem State.set_pending (s : State) (f : Fld) : (s.set f).pending = s.pending := rfl
@[simp] theorem State.set_hold (s : State) (f : Fld) : (s.set f).hold = s.hold := rfl
@[simp] theorem State.set_lag (s : State) (f : Fld) : (s.set f).lag = s.lag := rfl
@[simp] theorem State.set_now (s : State) (f : Fld) : (s.set f).now = s.now := rfl
@[simp] theorem State.set_run (s : State) (f : Fld) : (s.set f).run = s.run := rfl
@[simp] theorem State.set_hub (s : State) (f : Fld) : (s.set f).hub = s.hub := rfl
@[simp] theorem State.set_tb (s : State) (f : Fld) : (s.set f).tb = s.tb := rfl
@[simp] theorem State.set_fc (s : State) (f : Fld) : (s.set f).fc = s.fc := rfl
@[simp] theorem State.set_mt (s : State) (f : Fld) : (s.set f).mt = s.mt := rfl
@[simp] theorem State.set_ax (s : State) (f : Fld) : (s.set f).ax = s.ax := rfl
@[simp] theorem State.set_rd_ (s : State) (f : Fld) : (s.set f).rd_ = s.rd_ := rfl
@[simp] theorem State.set_dv (s : State) (f : Fld) : (s.set f).dv = s.dv := rfl
@[simp] theorem State.set_aos (s : State) (f : Fld) : (s.set f).aos = s.aos := rfl
@[simp] theorem State.set_pw (s : State) (f : Fld) : (s.set f).pw = s.pw := rfl
@[simp] theorem State.set_hp (s : State) (f : Fld) : (s.set f).hp = s.hp := rfl
@[simp] theorem State.set_bq (s : State) (f : Fld) : (s.set f).bq = s.bq := rfl
@[simp] theorem State.set_takes_ (s : State) (f : Fld) : (s.set f).takes_ = s.takes_ := rfl
@[simp] theorem State.set_le (s : State) (f : Fld) : (s.set f).le = s.le := rfl
@[simp] theorem State.set_ov (s : State) (f : Fld) : (s.set f).ov = s.ov := rfl
@[simp] theorem State.set_kn (s : State) (f : Fld) : (s.set f).kn = s.kn := rfl
@[simp] theorem State.set_out (s : State) (f : Fld) : (s.set f).out = s.out := rfl
@[simp] theorem State.set_free (s : State) (f : Fld) : (s.set f).free = s.free := rfl

/-! `State.clr` -/

@[simp] theorem State.clr_pending (s : State) (f : Fld) : (s.clr f).pending = s.pending := rfl
@[simp] theorem State.clr_hold (s : State) (f : Fld) : (s.clr f).hold = s.hold := rfl
@[simp] theorem State.clr_lag (s : State) (f : Fld) : (s.clr f).lag = s.lag := rfl
@[simp] theorem State.clr_now (s : State) (f : Fld) : (s.clr f).now = s.now := rfl
@[simp] theorem State.clr_run (s : State) (f : Fld) : (s.clr f).run = s.run := rfl
@[simp] theorem State.clr_hub (s : State) (f : Fld) : (s.clr f).hub = s.hub := rfl
@[simp] theorem State.clr_tb (s : State) (f : Fld) : (s.clr f).tb = s.tb := rfl
@[simp] theorem State.clr_fc (s : State) (f : Fld) : (s.clr f).fc = s.fc := rfl
@[simp] theorem State.clr_mt (s : State) (f : Fld) : (s.clr f).mt = s.mt := rfl
@[simp] theorem State.clr_ax (s : State) (f : Fld) : (s.clr f).ax = s.ax := rfl
@[simp] theorem State.clr_rd_ (s : State) (f : Fld) : (s.clr f).rd_ = s.rd_ := rfl
@[simp] theorem State.clr_dv (s : State) (f : Fld) : (s.clr f).dv = s.dv := rfl
@[simp] theorem State.clr_aos (s : State) (f : Fld) : (s.clr f).aos = s.aos := rfl
@[simp] theorem State.clr_pw (s : State) (f : Fld) : (s.clr f).pw = s.pw := rfl
@[simp] theorem State.clr_hp (s : State) (f : Fld) : (s.clr f).hp = s.hp := rfl
@[simp] theorem State.clr_bq (s : State) (f : Fld) : (s.clr f).bq = s.bq := rfl
@[simp] theorem State.clr_takes_ (s : State) (f : Fld) : (s.clr f).takes_ = s.takes_ := rfl
@[simp] theorem State.clr_le (s : State) (f : Fld) : (s.clr f).le = s.le := rfl
@[simp] theorem State.clr_ov (s : State) (f : Fld) : (s.clr f).ov = s.ov := rfl
@[simp] theorem State.clr_kn (s : State) (f : Fld) : (s.clr f).kn = s.kn := rfl
@[simp] theorem State.clr_out (s : State) (f : Fld) : (s.clr f).out = s.out := rfl
@[simp] theorem State.clr_free (s : State) (f : Fld) : (s.clr f).free = s.free := rfl

/-! `State.wrB` -/

@[simp] theorem State.wrB_pending (s : State) (f : Fld) (b : Bool) : (s.wrB f b).pending = s.pending := rfl
@[simp] theorem State.wrB_hold (s : State) (f : Fld) (b : Bool) : (s.wrB f b).hold = s.hold := rfl
@[simp] theorem State.wrB_lag (s : State) (f : Fld) (b : Bool) : (s.wrB f b).lag = s.lag := rfl
@[simp] theorem State.wrB_now (s : State) (f : Fld) (b : Bool) : (s.wrB f b).now = s.now := rfl
@[simp] theorem State.wrB_run (s : State) (f : Fld) (b : Bool) : (s.wrB f b).run = s.run := rfl
@[simp] theorem State.wrB_hub (s : State) (f : Fld) (b : Bool) : (s.wrB f b).hub = s.hub := rfl
@[simp] theorem State.wrB_tb (s : State) (f : Fld) (b : Bool) : (s.wrB f b).tb = s.tb := rfl
@[simp] theorem State.wrB_fc (s : State) (f : Fld) (b : Bool) : (s.wrB f b).fc = s.fc := rfl
@[simp] theorem State.wrB_mt (s : State) (f : Fld) (b : Bool) : (s.wrB f b).mt = s.mt := rfl
@[simp] theorem State.wrB_ax (s : State) (f : Fld) (b : Bool) : (s.wrB f b).ax = s.ax := rfl
@[simp] theorem State.wrB_rd_ (s : State) (f : Fld) (b : Bool) : (s.wrB f b).rd_ = s.rd_ := rfl
@[simp] theorem State.wrB_dv (s : State) (f : Fld) (b : Bool) : (s.wrB f b).dv = s.dv := rfl
@[simp] theorem State.wrB_aos (s : State) (f : Fld) (b : Bool) : (s.wrB f b).aos = s.aos := rfl
@[simp] theorem State.wrB_pw (s : State) (f : Fld) (b : Bool) : (s.wrB f b).pw = s.pw := rfl
@[simp] theorem State.wrB_hp (s : State) (f : Fld) (b : Bool) : (s.wrB f b).hp = s.hp := rfl
@[simp] theorem State.wrB_bq (s : State) (f : Fld) (b : Bool) : (s.wrB f b).bq = s.bq := rfl
@[simp] theorem State.wrB_takes_ (s : State) (f : Fld) (b : Bool) : (s.wrB f b).takes_ = s.takes_ := rfl
@[simp] theorem State.wrB_le (s : State) (f : Fld) (b : Bool) : (s.wrB f b).le = s.le := rfl
@[simp] theorem State.wrB_ov (s : State) (f : Fld) (b : Bool) : (s.wrB f b).ov = s.ov := rfl
@[simp] theorem State.wrB_kn (s : State) (f : Fld) (b : Bool) : (s.wrB f b).kn = s.kn := rfl
@[simp] theorem State.wrB_out (s : State) (f : Fld) (b : Bool) : (s.wrB f b).out = s.out := rfl
@[simp] theorem State.wrB_free (s : State) (f : Fld) (b : Bool) : (s.wrB f b).free = s.free := rfl

/-! `State.wrS` -/

@[simp] theorem State.wrS_pending (s : State) (f : Fld) (i : Int) : (s.wrS f i).pending = s.pending := rfl
@[simp] theorem State.wrS_hold (s : State) (f : Fld) (i : Int) : (s.wrS f i).hold = s.hold := rfl
@[simp] theorem State.wrS_lag (s : State) (f : Fld) (i : Int) : (s.wrS f i).lag = s.lag := rfl
@[simp] theorem State.wrS_now (s : State) (f : Fld) (i : Int) : (s.wrS f i).now = s.now := rfl
@[simp] theorem State.wrS_run (s : State) (f : Fld) (i : Int) : (s.wrS f i).run = s.run := rfl
@[simp] theorem State.wrS_hub (s : State) (f : Fld) (i : Int) : (s.wrS f i).hub = s.hub := rfl
@[simp] theorem State.wrS_tb (s : State) (f : Fld) (i : Int) : (s.wrS f i).tb = s.tb := rfl
@[simp] theorem State.wrS_fc (s : State) (f : Fld) (i : Int) : (s.wrS f i).fc = s.fc := rfl
@[simp] theorem State.wrS_mt (s : State) (f : Fld) (i : Int) : (s.wrS f i).mt = s.mt := rfl
@[simp] theorem State.wrS_ax (s : State) (f : Fld) (i : Int) : (s.wrS f i).ax = s.ax := rfl
@[simp] theorem State.wrS_rd_ (s : State) (f : Fld) (i : Int) : (s.wrS f i).rd_ = s.rd_ := rfl
@[simp] theorem State.wrS_dv (s : State) (f : Fld) (i : Int) : (s.wrS f i).dv = s.dv := rfl
@[simp] theorem State.wrS_aos (s : State) (f : Fld) (i : Int) : (s.wrS f i).aos = s.aos := rfl
@[simp] theorem State.wrS_pw (s : State) (f : Fld) (i : Int) : (s.wrS f i).pw = s.pw := rfl
@[simp] theorem State.wrS_hp (s : State) (f : Fld) (i : Int) : (s.wrS f i).hp = s.hp := rfl
@[simp] theorem State.wrS_bq (s : State) (f : Fld) (i : Int) : (s.wrS f i).bq = s.bq := rfl
@[simp] theorem State.wrS_takes_ (s : State) (f : Fld) (i : Int) : (s.wrS f i).takes_ = s.takes_ := rfl
@[simp] theorem State.wrS_le (s : State) (f : Fld) (i : Int) : (s.wrS f i).le = s.le := rfl
@[simp] theorem State.wrS_ov (s : State) (f : Fld) (i : Int) : (s.wrS f i).ov = s.ov := rfl
@[simp] theorem State.wrS_kn (s : State) (f : Fld) (i : Int) : (s.wrS f i).kn = s.kn := rfl
@[simp] theorem State.wrS_out (s : State) (f : Fld) (i : Int) : (s.wrS f i).out = s.out := rfl
@[simp] theorem State.wrS_free (s : State) (f : Fld) (i : Int) : (s.wrS f i).free = s.free := rfl

/-! `State.wrSat` -/

@[simp] theorem State.wrSat_pending (s : State) (f : Fld) (n : Nat) : (s.wrSat f n).pending = s.pending := rfl
@[simp] theorem State.wrSat_hold (s : State) (f : Fld) (n : Nat) : (s.wrSat f n).hold = s.hold := rfl
@[simp] theorem State.wrSat_lag (s : State) (f : Fld) (n : Nat) : (s.wrSat f n).lag = s.lag := rfl
@[simp] theorem State.wrSat_now (s : State) (f : Fld) (n : Nat) : (s.wrSat f n).now = s.now := rfl
@[simp] theorem State.wrSat_run (s : State) (f : Fld) (n : Nat) : (s.wrSat f n).run = s.run := rfl
@[simp] theorem State.wrSat_hub (s : State) (f : Fld) (n : Nat) : (s.wrSat f n).hub = s.hub := rfl
@[simp] theorem State.wrSat_tb (s : State) (f : Fld) (n : Nat) : (s.wrSat f n).tb = s.tb := rfl
@[simp] theorem State.wrSat_fc (s : State) (f : Fld) (n : Nat) : (s.wrSat f n).fc = s.fc := rfl
@[simp] theorem State.wrSat_mt (s : State) (f : Fld) (n : Nat) : (s.wrSat f n).mt = s.mt := rfl
@[simp] theorem State.wrSat_ax (s : State) (f : Fld) (n : Nat) : (s.wrSat f n).ax = s.ax := rfl
@[simp] theorem State.wrSat_rd_ (s : State) (f : Fld) (n : Nat) : (s.wrSat f n).rd_ = s.rd_ := rfl
@[simp] theorem State.wrSat_dv (s : State) (f : Fld) (n : Nat) : (s.wrSat f n).dv = s.dv := rfl
@[simp] theorem State.wrSat_aos (s : State) (f : Fld) (n : Nat) : (s.wrSat f n).aos = s.aos := rfl
@[simp] theorem State.wrSat_pw (s : State) (f : Fld) (n : Nat) : (s.wrSat f n).pw = s.pw := rfl
@[simp] theorem State.wrSat_hp (s : State) (f : Fld) (n : Nat) : (s.wrSat f n).hp = s.hp := rfl
@[simp] theorem State.wrSat_bq (s : State) (f : Fld) (n : Nat) : (s.wrSat f n).bq = s.bq := rfl
@[simp] theorem State.wrSat_takes_ (s : State) (f : Fld) (n : Nat) : (s.wrSat f n).takes_ = s.takes_ := rfl
@[simp] theorem State.wrSat_le (s : State) (f : Fld) (n : Nat) : (s.wrSat f n).le = s.le := rfl
@[simp] theorem State.wrSat_ov (s : State) (f : Fld) (n : Nat) : (s.wrSat f n).ov = s.ov := rfl
@[simp] theorem State.wrSat_kn (s : State) (f : Fld) (n : Nat) : (s.wrSat f n).kn = s.kn := rfl
@[simp] theorem State.wrSat_out (s : State) (f : Fld) (n : Nat) : (s.wrSat f n).out = s.out := rfl
@[simp] theorem State.wrSat_free (s : State) (f : Fld) (n : Nat) : (s.wrSat f n).free = s.free := rfl

/-! `State.countN` -/

@[simp] theorem State.countN_pending (s : State) (f : Fld) (n : Nat) : (s.countN f n).pending = s.pending := rfl
@[simp] theorem State.countN_hold (s : State) (f : Fld) (n : Nat) : (s.countN f n).hold = s.hold := rfl
@[simp] theorem State.countN_lag (s : State) (f : Fld) (n : Nat) : (s.countN f n).lag = s.lag := rfl
@[simp] theorem State.countN_now (s : State) (f : Fld) (n : Nat) : (s.countN f n).now = s.now := rfl
@[simp] theorem State.countN_run (s : State) (f : Fld) (n : Nat) : (s.countN f n).run = s.run := rfl
@[simp] theorem State.countN_hub (s : State) (f : Fld) (n : Nat) : (s.countN f n).hub = s.hub := rfl
@[simp] theorem State.countN_tb (s : State) (f : Fld) (n : Nat) : (s.countN f n).tb = s.tb := rfl
@[simp] theorem State.countN_fc (s : State) (f : Fld) (n : Nat) : (s.countN f n).fc = s.fc := rfl
@[simp] theorem State.countN_mt (s : State) (f : Fld) (n : Nat) : (s.countN f n).mt = s.mt := rfl
@[simp] theorem State.countN_ax (s : State) (f : Fld) (n : Nat) : (s.countN f n).ax = s.ax := rfl
@[simp] theorem State.countN_rd_ (s : State) (f : Fld) (n : Nat) : (s.countN f n).rd_ = s.rd_ := rfl
@[simp] theorem State.countN_dv (s : State) (f : Fld) (n : Nat) : (s.countN f n).dv = s.dv := rfl
@[simp] theorem State.countN_aos (s : State) (f : Fld) (n : Nat) : (s.countN f n).aos = s.aos := rfl
@[simp] theorem State.countN_pw (s : State) (f : Fld) (n : Nat) : (s.countN f n).pw = s.pw := rfl
@[simp] theorem State.countN_hp (s : State) (f : Fld) (n : Nat) : (s.countN f n).hp = s.hp := rfl
@[simp] theorem State.countN_bq (s : State) (f : Fld) (n : Nat) : (s.countN f n).bq = s.bq := rfl
@[simp] theorem State.countN_takes_ (s : State) (f : Fld) (n : Nat) : (s.countN f n).takes_ = s.takes_ := rfl
@[simp] theorem State.countN_le (s : State) (f : Fld) (n : Nat) : (s.countN f n).le = s.le := rfl
@[simp] theorem State.countN_ov (s : State) (f : Fld) (n : Nat) : (s.countN f n).ov = s.ov := rfl
@[simp] theorem State.countN_kn (s : State) (f : Fld) (n : Nat) : (s.countN f n).kn = s.kn := rfl
@[simp] theorem State.countN_out (s : State) (f : Fld) (n : Nat) : (s.countN f n).out = s.out := rfl
@[simp] theorem State.countN_free (s : State) (f : Fld) (n : Nat) : (s.countN f n).free = s.free := rfl

/-! `State.count` -/

@[simp] theorem State.count_pending (s : State) (f : Fld) : (s.count f).pending = s.pending := rfl
@[simp] theorem State.count_hold (s : State) (f : Fld) : (s.count f).hold = s.hold := rfl
@[simp] theorem State.count_lag (s : State) (f : Fld) : (s.count f).lag = s.lag := rfl
@[simp] theorem State.count_now (s : State) (f : Fld) : (s.count f).now = s.now := rfl
@[simp] theorem State.count_run (s : State) (f : Fld) : (s.count f).run = s.run := rfl
@[simp] theorem State.count_hub (s : State) (f : Fld) : (s.count f).hub = s.hub := rfl
@[simp] theorem State.count_tb (s : State) (f : Fld) : (s.count f).tb = s.tb := rfl
@[simp] theorem State.count_fc (s : State) (f : Fld) : (s.count f).fc = s.fc := rfl
@[simp] theorem State.count_mt (s : State) (f : Fld) : (s.count f).mt = s.mt := rfl
@[simp] theorem State.count_ax (s : State) (f : Fld) : (s.count f).ax = s.ax := rfl
@[simp] theorem State.count_rd_ (s : State) (f : Fld) : (s.count f).rd_ = s.rd_ := rfl
@[simp] theorem State.count_dv (s : State) (f : Fld) : (s.count f).dv = s.dv := rfl
@[simp] theorem State.count_aos (s : State) (f : Fld) : (s.count f).aos = s.aos := rfl
@[simp] theorem State.count_pw (s : State) (f : Fld) : (s.count f).pw = s.pw := rfl
@[simp] theorem State.count_hp (s : State) (f : Fld) : (s.count f).hp = s.hp := rfl
@[simp] theorem State.count_bq (s : State) (f : Fld) : (s.count f).bq = s.bq := rfl
@[simp] theorem State.count_takes_ (s : State) (f : Fld) : (s.count f).takes_ = s.takes_ := rfl
@[simp] theorem State.count_le (s : State) (f : Fld) : (s.count f).le = s.le := rfl
@[simp] theorem State.count_ov (s : State) (f : Fld) : (s.count f).ov = s.ov := rfl
@[simp] theorem State.count_kn (s : State) (f : Fld) : (s.count f).kn = s.kn := rfl
@[simp] theorem State.count_out (s : State) (f : Fld) : (s.count f).out = s.out := rfl
@[simp] theorem State.count_free (s : State) (f : Fld) : (s.count f).free = s.free := rfl

/-! `State.countMod` -/

@[simp] theorem State.countMod_pending (s : State) (f : Fld) : (s.countMod f).pending = s.pending := rfl
@[simp] theorem State.countMod_hold (s : State) (f : Fld) : (s.countMod f).hold = s.hold := rfl
@[simp] theorem State.countMod_lag (s : State) (f : Fld) : (s.countMod f).lag = s.lag := rfl
@[simp] theorem State.countMod_now (s : State) (f : Fld) : (s.countMod f).now = s.now := rfl
@[simp] theorem State.countMod_run (s : State) (f : Fld) : (s.countMod f).run = s.run := rfl
@[simp] theorem State.countMod_hub (s : State) (f : Fld) : (s.countMod f).hub = s.hub := rfl
@[simp] theorem State.countMod_tb (s : State) (f : Fld) : (s.countMod f).tb = s.tb := rfl
@[simp] theorem State.countMod_fc (s : State) (f : Fld) : (s.countMod f).fc = s.fc := rfl
@[simp] theorem State.countMod_mt (s : State) (f : Fld) : (s.countMod f).mt = s.mt := rfl
@[simp] theorem State.countMod_ax (s : State) (f : Fld) : (s.countMod f).ax = s.ax := rfl
@[simp] theorem State.countMod_rd_ (s : State) (f : Fld) : (s.countMod f).rd_ = s.rd_ := rfl
@[simp] theorem State.countMod_dv (s : State) (f : Fld) : (s.countMod f).dv = s.dv := rfl
@[simp] theorem State.countMod_aos (s : State) (f : Fld) : (s.countMod f).aos = s.aos := rfl
@[simp] theorem State.countMod_pw (s : State) (f : Fld) : (s.countMod f).pw = s.pw := rfl
@[simp] theorem State.countMod_hp (s : State) (f : Fld) : (s.countMod f).hp = s.hp := rfl
@[simp] theorem State.countMod_bq (s : State) (f : Fld) : (s.countMod f).bq = s.bq := rfl
@[simp] theorem State.countMod_takes_ (s : State) (f : Fld) : (s.countMod f).takes_ = s.takes_ := rfl
@[simp] theorem State.countMod_le (s : State) (f : Fld) : (s.countMod f).le = s.le := rfl
@[simp] theorem State.countMod_ov (s : State) (f : Fld) : (s.countMod f).ov = s.ov := rfl
@[simp] theorem State.countMod_kn (s : State) (f : Fld) : (s.countMod f).kn = s.kn := rfl
@[simp] theorem State.countMod_out (s : State) (f : Fld) : (s.countMod f).out = s.out := rfl
@[simp] theorem State.countMod_free (s : State) (f : Fld) : (s.countMod f).free = s.free := rfl

/-! `State.discard` -/

@[simp] theorem State.discard_pending (s : State) (ofs : Nat) : (s.discard ofs).pending = s.pending := rfl
@[simp] theorem State.discard_hold (s : State) (ofs : Nat) : (s.discard ofs).hold = s.hold := rfl
@[simp] theorem State.discard_lag (s : State) (ofs : Nat) : (s.discard ofs).lag = s.lag := rfl
@[simp] theorem State.discard_now (s : State) (ofs : Nat) : (s.discard ofs).now = s.now := rfl
@[simp] theorem State.discard_run (s : State) (ofs : Nat) : (s.discard ofs).run = s.run := rfl
@[simp] theorem State.discard_hub (s : State) (ofs : Nat) : (s.discard ofs).hub = s.hub := rfl
@[simp] theorem State.discard_tb (s : State) (ofs : Nat) : (s.discard ofs).tb = s.tb := rfl
@[simp] theorem State.discard_fc (s : State) (ofs : Nat) : (s.discard ofs).fc = s.fc := rfl
@[simp] theorem State.discard_mt (s : State) (ofs : Nat) : (s.discard ofs).mt = s.mt := rfl
@[simp] theorem State.discard_ax (s : State) (ofs : Nat) : (s.discard ofs).ax = s.ax := rfl
@[simp] theorem State.discard_rd_ (s : State) (ofs : Nat) : (s.discard ofs).rd_ = s.rd_ := rfl
@[simp] theorem State.discard_dv (s : State) (ofs : Nat) : (s.discard ofs).dv = s.dv := rfl
@[simp] theorem State.discard_aos (s : State) (ofs : Nat) : (s.discard ofs).aos = s.aos := rfl
@[simp] theorem State.discard_pw (s : State) (ofs : Nat) : (s.discard ofs).pw = s.pw := rfl
@[simp] theorem State.discard_hp (s : State) (ofs : Nat) : (s.discard ofs).hp = s.hp := rfl
@[simp] theorem State.discard_bq (s : State) (ofs : Nat) : (s.discard ofs).bq = s.bq := rfl
@[simp] theorem State.discard_takes_ (s : State) (ofs : Nat) : (s.discard ofs).takes_ = s.takes_ := rfl
@[simp] theorem State.discard_le (s : State) (ofs : Nat) : (s.discard ofs).le = s.le := rfl
@[simp] theorem State.discard_ov (s : State) (ofs : Nat) : (s.discard ofs).ov = s.ov := rfl
@[simp] theorem State.discard_kn (s : State) (ofs : Nat) : (s.discard ofs).kn = s.kn := rfl
@[simp] theorem State.discard_out (s : State) (ofs : Nat) : (s.discard ofs).out = s.out := rfl
@[simp] theorem State.discard_free (s : State) (ofs : Nat) : (s.discard ofs).free = s.free := rfl

/-! `State.switchDom` -/

@[simp] theorem State.switchDom_pending (s : State) (d : Nat) (v : Bool) : (s.switchDom d v).pending = s.pending := rfl
@[simp] theorem State.switchDom_hold (s : State) (d : Nat) (v : Bool) : (s.switchDom d v).hold = s.hold := rfl
@[simp] theorem State.switchDom_lag (s : State) (d : Nat) (v : Bool) : (s.switchDom d v).lag = s.lag := rfl
@[simp] theorem State.switchDom_now (s : State) (d : Nat) (v : Bool) : (s.switchDom d v).now = s.now := rfl
@[simp] theorem State.switchDom_run (s : State) (d : Nat) (v : Bool) : (s.switchDom d v).run = s.run := rfl
@[simp] theorem State.switchDom_hub (s : State) (d : Nat) (v : Bool) : (s.switchDom d v).hub = s.hub := rfl
@[simp] theorem State.switchDom_tb (s : State) (d : Nat) (v : Bool) : (s.switchDom d v).tb = s.tb := rfl
@[simp] theorem State.switchDom_fc (s : State) (d : Nat) (v : Bool) : (s.switchDom d v).fc = s.fc := rfl
@[simp] theorem State.switchDom_mt (s : State) (d : Nat) (v : Bool) : (s.switchDom d v).mt = s.mt := rfl
@[simp] theorem State.switchDom_ax (s : State) (d : Nat) (v : Bool) : (s.switchDom d v).ax = s.ax := rfl
@[simp] theorem State.switchDom_rd_ (s : State) (d : Nat) (v : Bool) : (s.switchDom d v).rd_ = s.rd_ := rfl
@[simp] theorem State.switchDom_dv (s : State) (d : Nat) (v : Bool) : (s.switchDom d v).dv = s.dv := rfl
@[simp] theorem State.switchDom_aos (s : State) (d : Nat) (v : Bool) : (s.switchDom d v).aos = s.aos := rfl
@[simp] theorem State.switchDom_pw (s : State) (d : Nat) (v : Bool) : (s.switchDom d v).pw = s.pw := rfl
@[simp] theorem State.switchDom_hp (s : State) (d : Nat) (v : Bool) : (s.switchDom d v).hp = s.hp := rfl
@[simp] theorem State.switchDom_bq (s : State) (d : Nat) (v : Bool) : (s.switchDom d v).bq = s.bq := rfl
@[simp] theorem State.switchDom_takes_ (s : State) (d : Nat) (v : Bool) : (s.switchDom d v).takes_ = s.takes_ := rfl
@[simp] theorem State.switchDom_le (s : State) (d : Nat) (v : Bool) : (s.switchDom d v).le = s.le := rfl
@[simp] theorem State.switchDom_ov (s : State) (d : Nat) (v : Bool) : (s.switchDom d v).ov = s.ov := rfl
@[simp] theorem State.switchDom_kn (s : State) (d : Nat) (v : Bool) : (s.switchDom d v).kn = s.kn := rfl
@[simp] theorem State.switchDom_out (s : State) (d : Nat) (v : Bool) : (s.switchDom d v).out = s.out := rfl
@[simp] theorem State.switchDom_free (s : State) (d : Nat) (v : Bool) : (s.switchDom d v).free = s.free := rfl

/-! `State.bark` -/

@[simp] theorem State.bark_pending (s : State) (src code : Nat) (warn : Bool) (payload : List Nat) : (s.bark src code warn payload).pending = s.pending := rfl
@[simp] theorem State.bark_regs (s : State) (src code : Nat) (warn : Bool) (payload : List Nat) : (s.bark src code warn payload).regs = s.regs := rfl
@[simp] theorem State.bark_hold (s : State) (src code : Nat) (warn : Bool) (payload : List Nat) : (s.bark src code warn payload).hold = s.hold := rfl
@[simp] theorem State.bark_lag (s : State) (src code : Nat) (warn : Bool) (payload : List Nat) : (s.bark src code warn payload).lag = s.lag := rfl
@[simp] theorem State.bark_now (s : State) (src code : Nat) (warn : Bool) (payload : List Nat) : (s.bark src code warn payload).now = s.now := rfl
@[simp] theorem State.bark_run (s : State) (src code : Nat) (warn : Bool) (payload : List Nat) : (s.bark src code warn payload).run = s.run := rfl
@[simp] theorem State.bark_hub (s : State) (src code : Nat) (warn : Bool) (payload : List Nat) : (s.bark src code warn payload).hub = s.hub := rfl
@[simp] theorem State.bark_tb (s : State) (src code : Nat) (warn : Bool) (payload : List Nat) : (s.bark src code warn payload).tb = s.tb := rfl
@[simp] theorem State.bark_fc (s : State) (src code : Nat) (warn : Bool) (payload : List Nat) : (s.bark src code warn payload).fc = s.fc := rfl
@[simp] theorem State.bark_mt (s : State) (src code : Nat) (warn : Bool) (payload : List Nat) : (s.bark src code warn payload).mt = s.mt := rfl
@[simp] theorem State.bark_ax (s : State) (src code : Nat) (warn : Bool) (payload : List Nat) : (s.bark src code warn payload).ax = s.ax := rfl
@[simp] theorem State.bark_rd_ (s : State) (src code : Nat) (warn : Bool) (payload : List Nat) : (s.bark src code warn payload).rd_ = s.rd_ := rfl
@[simp] theorem State.bark_dv (s : State) (src code : Nat) (warn : Bool) (payload : List Nat) : (s.bark src code warn payload).dv = s.dv := rfl
@[simp] theorem State.bark_aos (s : State) (src code : Nat) (warn : Bool) (payload : List Nat) : (s.bark src code warn payload).aos = s.aos := rfl
@[simp] theorem State.bark_pw (s : State) (src code : Nat) (warn : Bool) (payload : List Nat) : (s.bark src code warn payload).pw = s.pw := rfl
@[simp] theorem State.bark_hp (s : State) (src code : Nat) (warn : Bool) (payload : List Nat) : (s.bark src code warn payload).hp = s.hp := rfl
@[simp] theorem State.bark_takes_ (s : State) (src code : Nat) (warn : Bool) (payload : List Nat) : (s.bark src code warn payload).takes_ = s.takes_ := rfl
@[simp] theorem State.bark_le (s : State) (src code : Nat) (warn : Bool) (payload : List Nat) : (s.bark src code warn payload).le = s.le := rfl
@[simp] theorem State.bark_ov (s : State) (src code : Nat) (warn : Bool) (payload : List Nat) : (s.bark src code warn payload).ov = s.ov := rfl
@[simp] theorem State.bark_kn (s : State) (src code : Nat) (warn : Bool) (payload : List Nat) : (s.bark src code warn payload).kn = s.kn := rfl
@[simp] theorem State.bark_out (s : State) (src code : Nat) (warn : Bool) (payload : List Nat) : (s.bark src code warn payload).out = s.out := rfl
@[simp] theorem State.bark_free (s : State) (src code : Nat) (warn : Bool) (payload : List Nat) : (s.bark src code warn payload).free = s.free := rfl
@[simp] theorem State.bark_rd (s : State) (src code : Nat) (warn : Bool) (payload : List Nat) (r : Fld) : (s.bark src code warn payload).rd r = s.rd r := rfl

/-! `State.emit` -/

@[simp] theorem State.emit_pending (s : State) (o : Out) : (s.emit o).pending = s.pending := rfl
@[simp] theorem State.emit_regs (s : State) (o : Out) : (s.emit o).regs = s.regs := rfl
@[simp] theorem State.emit_hold (s : State) (o : Out) : (s.emit o).hold = s.hold := rfl
@[simp] theorem State.emit_lag (s : State) (o : Out) : (s.emit o).lag = s.lag := rfl
@[simp] theorem State.emit_now (s : State) (o : Out) : (s.emit o).now = s.now := rfl
@[simp] theorem State.emit_run (s : State) (o : Out) : (s.emit o).run = s.run := rfl
@[simp] theorem State.emit_hub (s : State) (o : Out) : (s.emit o).hub = s.hub := rfl
@[simp] theorem State.emit_tb (s : State) (o : Out) : (s.emit o).tb = s.tb := rfl
@[simp] theorem State.emit_fc (s : State) (o : Out) : (s.emit o).fc = s.fc := rfl
@[simp] theorem State.emit_mt (s : State) (o : Out) : (s.emit o).mt = s.mt := rfl
@[simp] theorem State.emit_ax (s : State) (o : Out) : (s.emit o).ax = s.ax := rfl
@[simp] theorem State.emit_rd_ (s : State) (o : Out) : (s.emit o).rd_ = s.rd_ := rfl
@[simp] theorem State.emit_dv (s : State) (o : Out) : (s.emit o).dv = s.dv := rfl
@[simp] theorem State.emit_aos (s : State) (o : Out) : (s.emit o).aos = s.aos := rfl
@[simp] theorem State.emit_pw (s : State) (o : Out) : (s.emit o).pw = s.pw := rfl
@[simp] theorem State.emit_hp (s : State) (o : Out) : (s.emit o).hp = s.hp := rfl
@[simp] theorem State.emit_bq (s : State) (o : Out) : (s.emit o).bq = s.bq := rfl
@[simp] theorem State.emit_takes_ (s : State) (o : Out) : (s.emit o).takes_ = s.takes_ := rfl
@[simp] theorem State.emit_le (s : State) (o : Out) : (s.emit o).le = s.le := rfl
@[simp] theorem State.emit_ov (s : State) (o : Out) : (s.emit o).ov = s.ov := rfl
@[simp] theorem State.emit_kn (s : State) (o : Out) : (s.emit o).kn = s.kn := rfl
@[simp] theorem State.emit_free (s : State) (o : Out) : (s.emit o).free = s.free := rfl
@[simp] theorem State.emit_rd (s : State) (o : Out) (r : Fld) : (s.emit o).rd r = s.rd r := rfl

/-! `State.sendOn` -/

@[simp] theorem State.sendOn_pending (s : State) (side type dst : Nat) (words : List Nat) : (s.sendOn side type dst words).pending = s.pending := rfl
@[simp] theorem State.sendOn_regs (s : State) (side type dst : Nat) (words : List Nat) : (s.sendOn side type dst words).regs = s.regs := rfl
@[simp] theorem State.sendOn_hold (s : State) (side type dst : Nat) (words : List Nat) : (s.sendOn side type dst words).hold = s.hold := rfl
@[simp] theorem State.sendOn_lag (s : State) (side type dst : Nat) (words : List Nat) : (s.sendOn side type dst words).lag = s.lag := rfl
@[simp] theorem State.sendOn_now (s : State) (side type dst : Nat) (words : List Nat) : (s.sendOn side type dst words).now = s.now := rfl
@[simp] theorem State.sendOn_run (s : State) (side type dst : Nat) (words : List Nat) : (s.sendOn side type dst words).run = s.run := rfl
@[simp] theorem State.sendOn_hub (s : State) (side type dst : Nat) (words : List Nat) : (s.sendOn side type dst words).hub = s.hub := rfl
@[simp] theorem State.sendOn_tb (s : State) (side type dst : Nat) (words : List Nat) : (s.sendOn side type dst words).tb = s.tb := rfl
@[simp] theorem State.sendOn_fc (s : State) (side type dst : Nat) (words : List Nat) : (s.sendOn side type dst words).fc = s.fc := rfl
@[simp] theorem State.sendOn_mt (s : State) (side type dst : Nat) (words : List Nat) : (s.sendOn side type dst words).mt = s.mt := rfl
@[simp] theorem State.sendOn_ax (s : State) (side type dst : Nat) (words : List Nat) : (s.sendOn side type dst words).ax = s.ax := rfl
@[simp] theorem State.sendOn_rd_ (s : State) (side type dst : Nat) (words : List Nat) : (s.sendOn side type dst words).rd_ = s.rd_ := rfl
@[simp] theorem State.sendOn_dv (s : State) (side type dst : Nat) (words : List Nat) : (s.sendOn side type dst words).dv = s.dv := rfl
@[simp] theorem State.sendOn_aos (s : State) (side type dst : Nat) (words : List Nat) : (s.sendOn side type dst words).aos = s.aos := rfl
@[simp] theorem State.sendOn_pw (s : State) (side type dst : Nat) (words : List Nat) : (s.sendOn side type dst words).pw = s.pw := rfl
@[simp] theorem State.sendOn_hp (s : State) (side type dst : Nat) (words : List Nat) : (s.sendOn side type dst words).hp = s.hp := rfl
@[simp] theorem State.sendOn_bq (s : State) (side type dst : Nat) (words : List Nat) : (s.sendOn side type dst words).bq = s.bq := rfl
@[simp] theorem State.sendOn_takes_ (s : State) (side type dst : Nat) (words : List Nat) : (s.sendOn side type dst words).takes_ = s.takes_ := rfl
@[simp] theorem State.sendOn_le (s : State) (side type dst : Nat) (words : List Nat) : (s.sendOn side type dst words).le = s.le := rfl
@[simp] theorem State.sendOn_kn (s : State) (side type dst : Nat) (words : List Nat) : (s.sendOn side type dst words).kn = s.kn := rfl
@[simp] theorem State.sendOn_free (s : State) (side type dst : Nat) (words : List Nat) : (s.sendOn side type dst words).free = s.free := rfl
@[simp] theorem State.sendOn_rd (s : State) (side type dst : Nat) (words : List Nat) (r : Fld) : (s.sendOn side type dst words).rd r = s.rd r := rfl

/-! `State.send` -/

@[simp] theorem State.send_pending (s : State) (type dst : Nat) (words : List Nat) : (s.send type dst words).pending = s.pending := rfl
@[simp] theorem State.send_regs (s : State) (type dst : Nat) (words : List Nat) : (s.send type dst words).regs = s.regs := rfl
@[simp] theorem State.send_hold (s : State) (type dst : Nat) (words : List Nat) : (s.send type dst words).hold = s.hold := rfl
@[simp] theorem State.send_lag (s : State) (type dst : Nat) (words : List Nat) : (s.send type dst words).lag = s.lag := rfl
@[simp] theorem State.send_now (s : State) (type dst : Nat) (words : List Nat) : (s.send type dst words).now = s.now := rfl
@[simp] theorem State.send_run (s : State) (type dst : Nat) (words : List Nat) : (s.send type dst words).run = s.run := rfl
@[simp] theorem State.send_hub (s : State) (type dst : Nat) (words : List Nat) : (s.send type dst words).hub = s.hub := rfl
@[simp] theorem State.send_tb (s : State) (type dst : Nat) (words : List Nat) : (s.send type dst words).tb = s.tb := rfl
@[simp] theorem State.send_fc (s : State) (type dst : Nat) (words : List Nat) : (s.send type dst words).fc = s.fc := rfl
@[simp] theorem State.send_mt (s : State) (type dst : Nat) (words : List Nat) : (s.send type dst words).mt = s.mt := rfl
@[simp] theorem State.send_ax (s : State) (type dst : Nat) (words : List Nat) : (s.send type dst words).ax = s.ax := rfl
@[simp] theorem State.send_rd_ (s : State) (type dst : Nat) (words : List Nat) : (s.send type dst words).rd_ = s.rd_ := rfl
@[simp] theorem State.send_dv (s : State) (type dst : Nat) (words : List Nat) : (s.send type dst words).dv = s.dv := rfl
@[simp] theorem State.send_aos (s : State) (type dst : Nat) (words : List Nat) : (s.send type dst words).aos = s.aos := rfl
@[simp] theorem State.send_pw (s : State) (type dst : Nat) (words : List Nat) : (s.send type dst words).pw = s.pw := rfl
@[simp] theorem State.send_hp (s : State) (type dst : Nat) (words : List Nat) : (s.send type dst words).hp = s.hp := rfl
@[simp] theorem State.send_bq (s : State) (type dst : Nat) (words : List Nat) : (s.send type dst words).bq = s.bq := rfl
@[simp] theorem State.send_takes_ (s : State) (type dst : Nat) (words : List Nat) : (s.send type dst words).takes_ = s.takes_ := rfl
@[simp] theorem State.send_le (s : State) (type dst : Nat) (words : List Nat) : (s.send type dst words).le = s.le := rfl
@[simp] theorem State.send_kn (s : State) (type dst : Nat) (words : List Nat) : (s.send type dst words).kn = s.kn := rfl
@[simp] theorem State.send_free (s : State) (type dst : Nat) (words : List Nat) : (s.send type dst words).free = s.free := rfl
@[simp] theorem State.send_rd (s : State) (type dst : Nat) (words : List Nat) (r : Fld) : (s.send type dst words).rd r = s.rd r := rfl

/-! `State.trigger` -/

@[simp] theorem State.trigger_pending (s : State) (q : Trig) : (s.trigger q).pending = s.pending := rfl
@[simp] theorem State.trigger_regs (s : State) (q : Trig) : (s.trigger q).regs = s.regs := rfl
@[simp] theorem State.trigger_hold (s : State) (q : Trig) : (s.trigger q).hold = s.hold := rfl
@[simp] theorem State.trigger_lag (s : State) (q : Trig) : (s.trigger q).lag = s.lag := rfl
@[simp] theorem State.trigger_now (s : State) (q : Trig) : (s.trigger q).now = s.now := rfl
@[simp] theorem State.trigger_run (s : State) (q : Trig) : (s.trigger q).run = s.run := rfl
@[simp] theorem State.trigger_tb (s : State) (q : Trig) : (s.trigger q).tb = s.tb := rfl
@[simp] theorem State.trigger_fc (s : State) (q : Trig) : (s.trigger q).fc = s.fc := rfl
@[simp] theorem State.trigger_mt (s : State) (q : Trig) : (s.trigger q).mt = s.mt := rfl
@[simp] theorem State.trigger_ax (s : State) (q : Trig) : (s.trigger q).ax = s.ax := rfl
@[simp] theorem State.trigger_rd_ (s : State) (q : Trig) : (s.trigger q).rd_ = s.rd_ := rfl
@[simp] theorem State.trigger_dv (s : State) (q : Trig) : (s.trigger q).dv = s.dv := rfl
@[simp] theorem State.trigger_aos (s : State) (q : Trig) : (s.trigger q).aos = s.aos := rfl
@[simp] theorem State.trigger_pw (s : State) (q : Trig) : (s.trigger q).pw = s.pw := rfl
@[simp] theorem State.trigger_hp (s : State) (q : Trig) : (s.trigger q).hp = s.hp := rfl
@[simp] theorem State.trigger_bq (s : State) (q : Trig) : (s.trigger q).bq = s.bq := rfl
@[simp] theorem State.trigger_takes_ (s : State) (q : Trig) : (s.trigger q).takes_ = s.takes_ := rfl
@[simp] theorem State.trigger_le (s : State) (q : Trig) : (s.trigger q).le = s.le := rfl
@[simp] theorem State.trigger_ov (s : State) (q : Trig) : (s.trigger q).ov = s.ov := rfl
@[simp] theorem State.trigger_kn (s : State) (q : Trig) : (s.trigger q).kn = s.kn := rfl
@[simp] theorem State.trigger_out (s : State) (q : Trig) : (s.trigger q).out = s.out := rfl
@[simp] theorem State.trigger_free (s : State) (q : Trig) : (s.trigger q).free = s.free := rfl
@[simp] theorem State.trigger_rd (s : State) (q : Trig) (r : Fld) : (s.trigger q).rd r = s.rd r := rfl

/-! `State.modSlot` -/

@[simp] theorem State.modSlot_pending (s : State) (p : Nat) (g : Slot → Slot) : (s.modSlot p g).pending = s.pending := rfl
@[simp] theorem State.modSlot_regs (s : State) (p : Nat) (g : Slot → Slot) : (s.modSlot p g).regs = s.regs := rfl
@[simp] theorem State.modSlot_hold (s : State) (p : Nat) (g : Slot → Slot) : (s.modSlot p g).hold = s.hold := rfl
@[simp] theorem State.modSlot_lag (s : State) (p : Nat) (g : Slot → Slot) : (s.modSlot p g).lag = s.lag := rfl
@[simp] theorem State.modSlot_now (s : State) (p : Nat) (g : Slot → Slot) : (s.modSlot p g).now = s.now := rfl
@[simp] theorem State.modSlot_run (s : State) (p : Nat) (g : Slot → Slot) : (s.modSlot p g).run = s.run := rfl
@[simp] theorem State.modSlot_tb (s : State) (p : Nat) (g : Slot → Slot) : (s.modSlot p g).tb = s.tb := rfl
@[simp] theorem State.modSlot_fc (s : State) (p : Nat) (g : Slot → Slot) : (s.modSlot p g).fc = s.fc := rfl
@[simp] theorem State.modSlot_mt (s : State) (p : Nat) (g : Slot → Slot) : (s.modSlot p g).mt = s.mt := rfl
@[simp] theorem State.modSlot_ax (s : State) (p : Nat) (g : Slot → Slot) : (s.modSlot p g).ax = s.ax := rfl
@[simp] theorem State.modSlot_rd_ (s : State) (p : Nat) (g : Slot → Slot) : (s.modSlot p g).rd_ = s.rd_ := rfl
@[simp] theorem State.modSlot_dv (s : State) (p : Nat) (g : Slot → Slot) : (s.modSlot p g).dv = s.dv := rfl
@[simp] theorem State.modSlot_aos (s : State) (p : Nat) (g : Slot → Slot) : (s.modSlot p g).aos = s.aos := rfl
@[simp] theorem State.modSlot_pw (s : State) (p : Nat) (g : Slot → Slot) : (s.modSlot p g).pw = s.pw := rfl
@[simp] theorem State.modSlot_hp (s : State) (p : Nat) (g : Slot → Slot) : (s.modSlot p g).hp = s.hp := rfl
@[simp] theorem State.modSlot_bq (s : State) (p : Nat) (g : Slot → Slot) : (s.modSlot p g).bq = s.bq := rfl
@[simp] theorem State.modSlot_takes_ (s : State) (p : Nat) (g : Slot → Slot) : (s.modSlot p g).takes_ = s.takes_ := rfl
@[simp] theorem State.modSlot_le (s : State) (p : Nat) (g : Slot → Slot) : (s.modSlot p g).le = s.le := rfl
@[simp] theorem State.modSlot_ov (s : State) (p : Nat) (g : Slot → Slot) : (s.modSlot p g).ov = s.ov := rfl
@[simp] theorem State.modSlot_kn (s : State) (p : Nat) (g : Slot → Slot) : (s.modSlot p g).kn = s.kn := rfl
@[simp] theorem State.modSlot_out (s : State) (p : Nat) (g : Slot → Slot) : (s.modSlot p g).out = s.out := rfl
@[simp] theorem State.modSlot_free (s : State) (p : Nat) (g : Slot → Slot) : (s.modSlot p g).free = s.free := rfl
@[simp] theorem State.modSlot_rd (s : State) (p : Nat) (g : Slot → Slot) (r : Fld) : (s.modSlot p g).rd r = s.rd r := rfl

/-! `State.modAxis` -/

@[simp] theorem State.modAxis_pending (s : State) (a : Nat) (g : Axis → Axis) : (s.modAxis a g).pending = s.pending := rfl
@[simp] theorem State.modAxis_regs (s : State) (a : Nat) (g : Axis → Axis) : (s.modAxis a g).regs = s.regs := rfl
@[simp] theorem State.modAxis_hold (s : State) (a : Nat) (g : Axis → Axis) : (s.modAxis a g).hold = s.hold := rfl
@[simp] theorem State.modAxis_lag (s : State) (a : Nat) (g : Axis → Axis) : (s.modAxis a g).lag = s.lag := rfl
@[simp] theorem State.modAxis_now (s : State) (a : Nat) (g : Axis → Axis) : (s.modAxis a g).now = s.now := rfl
@[simp] theorem State.modAxis_run (s : State) (a : Nat) (g : Axis → Axis) : (s.modAxis a g).run = s.run := rfl
@[simp] theorem State.modAxis_hub (s : State) (a : Nat) (g : Axis → Axis) : (s.modAxis a g).hub = s.hub := rfl
@[simp] theorem State.modAxis_tb (s : State) (a : Nat) (g : Axis → Axis) : (s.modAxis a g).tb = s.tb := rfl
@[simp] theorem State.modAxis_fc (s : State) (a : Nat) (g : Axis → Axis) : (s.modAxis a g).fc = s.fc := rfl
@[simp] theorem State.modAxis_mt (s : State) (a : Nat) (g : Axis → Axis) : (s.modAxis a g).mt = s.mt := rfl
@[simp] theorem State.modAxis_ax (s : State) (a : Nat) (g : Axis → Axis) : (s.modAxis a g).ax = s.ax := rfl
@[simp] theorem State.modAxis_rd_ (s : State) (a : Nat) (g : Axis → Axis) : (s.modAxis a g).rd_ = s.rd_ := rfl
@[simp] theorem State.modAxis_aos (s : State) (a : Nat) (g : Axis → Axis) : (s.modAxis a g).aos = s.aos := rfl
@[simp] theorem State.modAxis_pw (s : State) (a : Nat) (g : Axis → Axis) : (s.modAxis a g).pw = s.pw := rfl
@[simp] theorem State.modAxis_hp (s : State) (a : Nat) (g : Axis → Axis) : (s.modAxis a g).hp = s.hp := rfl
@[simp] theorem State.modAxis_bq (s : State) (a : Nat) (g : Axis → Axis) : (s.modAxis a g).bq = s.bq := rfl
@[simp] theorem State.modAxis_takes_ (s : State) (a : Nat) (g : Axis → Axis) : (s.modAxis a g).takes_ = s.takes_ := rfl
@[simp] theorem State.modAxis_le (s : State) (a : Nat) (g : Axis → Axis) : (s.modAxis a g).le = s.le := rfl
@[simp] theorem State.modAxis_ov (s : State) (a : Nat) (g : Axis → Axis) : (s.modAxis a g).ov = s.ov := rfl
@[simp] theorem State.modAxis_kn (s : State) (a : Nat) (g : Axis → Axis) : (s.modAxis a g).kn = s.kn := rfl
@[simp] theorem State.modAxis_out (s : State) (a : Nat) (g : Axis → Axis) : (s.modAxis a g).out = s.out := rfl
@[simp] theorem State.modAxis_free (s : State) (a : Nat) (g : Axis → Axis) : (s.modAxis a g).free = s.free := rfl
@[simp] theorem State.modAxis_rd (s : State) (a : Nat) (g : Axis → Axis) (r : Fld) : (s.modAxis a g).rd r = s.rd r := rfl

/-! `State.modAo` -/

@[simp] theorem State.modAo_pending (s : State) (o : Nat) (g : Ao → Ao) : (s.modAo o g).pending = s.pending := rfl
@[simp] theorem State.modAo_regs (s : State) (o : Nat) (g : Ao → Ao) : (s.modAo o g).regs = s.regs := rfl
@[simp] theorem State.modAo_hold (s : State) (o : Nat) (g : Ao → Ao) : (s.modAo o g).hold = s.hold := rfl
@[simp] theorem State.modAo_lag (s : State) (o : Nat) (g : Ao → Ao) : (s.modAo o g).lag = s.lag := rfl
@[simp] theorem State.modAo_now (s : State) (o : Nat) (g : Ao → Ao) : (s.modAo o g).now = s.now := rfl
@[simp] theorem State.modAo_run (s : State) (o : Nat) (g : Ao → Ao) : (s.modAo o g).run = s.run := rfl
@[simp] theorem State.modAo_hub (s : State) (o : Nat) (g : Ao → Ao) : (s.modAo o g).hub = s.hub := rfl
@[simp] theorem State.modAo_tb (s : State) (o : Nat) (g : Ao → Ao) : (s.modAo o g).tb = s.tb := rfl
@[simp] theorem State.modAo_fc (s : State) (o : Nat) (g : Ao → Ao) : (s.modAo o g).fc = s.fc := rfl
@[simp] theorem State.modAo_mt (s : State) (o : Nat) (g : Ao → Ao) : (s.modAo o g).mt = s.mt := rfl
@[simp] theorem State.modAo_ax (s : State) (o : Nat) (g : Ao → Ao) : (s.modAo o g).ax = s.ax := rfl
@[simp] theorem State.modAo_rd_ (s : State) (o : Nat) (g : Ao → Ao) : (s.modAo o g).rd_ = s.rd_ := rfl
@[simp] theorem State.modAo_dv (s : State) (o : Nat) (g : Ao → Ao) : (s.modAo o g).dv = s.dv := rfl
@[simp] theorem State.modAo_pw (s : State) (o : Nat) (g : Ao → Ao) : (s.modAo o g).pw = s.pw := rfl
@[simp] theorem State.modAo_hp (s : State) (o : Nat) (g : Ao → Ao) : (s.modAo o g).hp = s.hp := rfl
@[simp] theorem State.modAo_bq (s : State) (o : Nat) (g : Ao → Ao) : (s.modAo o g).bq = s.bq := rfl
@[simp] theorem State.modAo_takes_ (s : State) (o : Nat) (g : Ao → Ao) : (s.modAo o g).takes_ = s.takes_ := rfl
@[simp] theorem State.modAo_le (s : State) (o : Nat) (g : Ao → Ao) : (s.modAo o g).le = s.le := rfl
@[simp] theorem State.modAo_ov (s : State) (o : Nat) (g : Ao → Ao) : (s.modAo o g).ov = s.ov := rfl
@[simp] theorem State.modAo_kn (s : State) (o : Nat) (g : Ao → Ao) : (s.modAo o g).kn = s.kn := rfl
@[simp] theorem State.modAo_out (s : State) (o : Nat) (g : Ao → Ao) : (s.modAo o g).out = s.out := rfl
@[simp] theorem State.modAo_free (s : State) (o : Nat) (g : Ao → Ao) : (s.modAo o g).free = s.free := rfl
@[simp] theorem State.modAo_rd (s : State) (o : Nat) (g : Ao → Ao) (r : Fld) : (s.modAo o g).rd r = s.rd r := rfl

/-! `State.modLoop` -/

@[simp] theorem State.modLoop_pending (s : State) (l : Nat) (g : Loop → Loop) : (s.modLoop l g).pending = s.pending := rfl
@[simp] theorem State.modLoop_regs (s : State) (l : Nat) (g : Loop → Loop) : (s.modLoop l g).regs = s.regs := rfl
@[simp] theorem State.modLoop_hold (s : State) (l : Nat) (g : Loop → Loop) : (s.modLoop l g).hold = s.hold := rfl
@[simp] theorem State.modLoop_lag (s : State) (l : Nat) (g : Loop → Loop) : (s.modLoop l g).lag = s.lag := rfl
@[simp] theorem State.modLoop_now (s : State) (l : Nat) (g : Loop → Loop) : (s.modLoop l g).now = s.now := rfl
@[simp] theorem State.modLoop_run (s : State) (l : Nat) (g : Loop → Loop) : (s.modLoop l g).run = s.run := rfl
@[simp] theorem State.modLoop_hub (s : State) (l : Nat) (g : Loop → Loop) : (s.modLoop l g).hub = s.hub := rfl
@[simp] theorem State.modLoop_tb (s : State) (l : Nat) (g : Loop → Loop) : (s.modLoop l g).tb = s.tb := rfl
@[simp] theorem State.modLoop_fc (s : State) (l : Nat) (g : Loop → Loop) : (s.modLoop l g).fc = s.fc := rfl
@[simp] theorem State.modLoop_mt (s : State) (l : Nat) (g : Loop → Loop) : (s.modLoop l g).mt = s.mt := rfl
@[simp] theorem State.modLoop_ax (s : State) (l : Nat) (g : Loop → Loop) : (s.modLoop l g).ax = s.ax := rfl
@[simp] theorem State.modLoop_rd_ (s : State) (l : Nat) (g : Loop → Loop) : (s.modLoop l g).rd_ = s.rd_ := rfl
@[simp] theorem State.modLoop_dv (s : State) (l : Nat) (g : Loop → Loop) : (s.modLoop l g).dv = s.dv := rfl
@[simp] theorem State.modLoop_aos (s : State) (l : Nat) (g : Loop → Loop) : (s.modLoop l g).aos = s.aos := rfl
@[simp] theorem State.modLoop_pw (s : State) (l : Nat) (g : Loop → Loop) : (s.modLoop l g).pw = s.pw := rfl
@[simp] theorem State.modLoop_hp (s : State) (l : Nat) (g : Loop → Loop) : (s.modLoop l g).hp = s.hp := rfl
@[simp] theorem State.modLoop_bq (s : State) (l : Nat) (g : Loop → Loop) : (s.modLoop l g).bq = s.bq := rfl
@[simp] theorem State.modLoop_takes_ (s : State) (l : Nat) (g : Loop → Loop) : (s.modLoop l g).takes_ = s.takes_ := rfl
@[simp] theorem State.modLoop_ov (s : State) (l : Nat) (g : Loop → Loop) : (s.modLoop l g).ov = s.ov := rfl
@[simp] theorem State.modLoop_kn (s : State) (l : Nat) (g : Loop → Loop) : (s.modLoop l g).kn = s.kn := rfl
@[simp] theorem State.modLoop_out (s : State) (l : Nat) (g : Loop → Loop) : (s.modLoop l g).out = s.out := rfl
@[simp] theorem State.modLoop_free (s : State) (l : Nat) (g : Loop → Loop) : (s.modLoop l g).free = s.free := rfl
@[simp] theorem State.modLoop_rd (s : State) (l : Nat) (g : Loop → Loop) (r : Fld) : (s.modLoop l g).rd r = s.rd r := rfl

/-! `State.modArena` -/

@[simp] theorem State.modArena_pending (s : State) (g : Nat) (f : Arena → Arena) : (s.modArena g f).pending = s.pending := rfl
@[simp] theorem State.modArena_regs (s : State) (g : Nat) (f : Arena → Arena) : (s.modArena g f).regs = s.regs := rfl
@[simp] theorem State.modArena_hold (s : State) (g : Nat) (f : Arena → Arena) : (s.modArena g f).hold = s.hold := rfl
@[simp] theorem State.modArena_lag (s : State) (g : Nat) (f : Arena → Arena) : (s.modArena g f).lag = s.lag := rfl
@[simp] theorem State.modArena_now (s : State) (g : Nat) (f : Arena → Arena) : (s.modArena g f).now = s.now := rfl
@[simp] theorem State.modArena_run (s : State) (g : Nat) (f : Arena → Arena) : (s.modArena g f).run = s.run := rfl
@[simp] theorem State.modArena_hub (s : State) (g : Nat) (f : Arena → Arena) : (s.modArena g f).hub = s.hub := rfl
@[simp] theorem State.modArena_tb (s : State) (g : Nat) (f : Arena → Arena) : (s.modArena g f).tb = s.tb := rfl
@[simp] theorem State.modArena_fc (s : State) (g : Nat) (f : Arena → Arena) : (s.modArena g f).fc = s.fc := rfl
@[simp] theorem State.modArena_mt (s : State) (g : Nat) (f : Arena → Arena) : (s.modArena g f).mt = s.mt := rfl
@[simp] theorem State.modArena_ax (s : State) (g : Nat) (f : Arena → Arena) : (s.modArena g f).ax = s.ax := rfl
@[simp] theorem State.modArena_rd_ (s : State) (g : Nat) (f : Arena → Arena) : (s.modArena g f).rd_ = s.rd_ := rfl
@[simp] theorem State.modArena_dv (s : State) (g : Nat) (f : Arena → Arena) : (s.modArena g f).dv = s.dv := rfl
@[simp] theorem State.modArena_aos (s : State) (g : Nat) (f : Arena → Arena) : (s.modArena g f).aos = s.aos := rfl
@[simp] theorem State.modArena_pw (s : State) (g : Nat) (f : Arena → Arena) : (s.modArena g f).pw = s.pw := rfl
@[simp] theorem State.modArena_hp (s : State) (g : Nat) (f : Arena → Arena) : (s.modArena g f).hp = s.hp := rfl
@[simp] theorem State.modArena_bq (s : State) (g : Nat) (f : Arena → Arena) : (s.modArena g f).bq = s.bq := rfl
@[simp] theorem State.modArena_takes_ (s : State) (g : Nat) (f : Arena → Arena) : (s.modArena g f).takes_ = s.takes_ := rfl
@[simp] theorem State.modArena_ov (s : State) (g : Nat) (f : Arena → Arena) : (s.modArena g f).ov = s.ov := rfl
@[simp] theorem State.modArena_kn (s : State) (g : Nat) (f : Arena → Arena) : (s.modArena g f).kn = s.kn := rfl
@[simp] theorem State.modArena_out (s : State) (g : Nat) (f : Arena → Arena) : (s.modArena g f).out = s.out := rfl
@[simp] theorem State.modArena_free (s : State) (g : Nat) (f : Arena → Arena) : (s.modArena g f).free = s.free := rfl
@[simp] theorem State.modArena_rd (s : State) (g : Nat) (f : Arena → Arena) (r : Fld) : (s.modArena g f).rd r = s.rd r := rfl

/-! `State.journal` -/

@[simp] theorem State.journal_pending (s : State) (ws : List CfgWr) (direct : Bool) : (s.journal ws direct).pending = s.pending := rfl
@[simp] theorem State.journal_regs (s : State) (ws : List CfgWr) (direct : Bool) : (s.journal ws direct).regs = s.regs := rfl
@[simp] theorem State.journal_hold (s : State) (ws : List CfgWr) (direct : Bool) : (s.journal ws direct).hold = s.hold := rfl
@[simp] theorem State.journal_lag (s : State) (ws : List CfgWr) (direct : Bool) : (s.journal ws direct).lag = s.lag := rfl
@[simp] theorem State.journal_now (s : State) (ws : List CfgWr) (direct : Bool) : (s.journal ws direct).now = s.now := rfl
@[simp] theorem State.journal_run (s : State) (ws : List CfgWr) (direct : Bool) : (s.journal ws direct).run = s.run := rfl
@[simp] theorem State.journal_hub (s : State) (ws : List CfgWr) (direct : Bool) : (s.journal ws direct).hub = s.hub := rfl
@[simp] theorem State.journal_tb (s : State) (ws : List CfgWr) (direct : Bool) : (s.journal ws direct).tb = s.tb := rfl
@[simp] theorem State.journal_fc (s : State) (ws : List CfgWr) (direct : Bool) : (s.journal ws direct).fc = s.fc := rfl
@[simp] theorem State.journal_mt (s : State) (ws : List CfgWr) (direct : Bool) : (s.journal ws direct).mt = s.mt := rfl
@[simp] theorem State.journal_ax (s : State) (ws : List CfgWr) (direct : Bool) : (s.journal ws direct).ax = s.ax := rfl
@[simp] theorem State.journal_rd_ (s : State) (ws : List CfgWr) (direct : Bool) : (s.journal ws direct).rd_ = s.rd_ := rfl
@[simp] theorem State.journal_dv (s : State) (ws : List CfgWr) (direct : Bool) : (s.journal ws direct).dv = s.dv := rfl
@[simp] theorem State.journal_aos (s : State) (ws : List CfgWr) (direct : Bool) : (s.journal ws direct).aos = s.aos := rfl
@[simp] theorem State.journal_pw (s : State) (ws : List CfgWr) (direct : Bool) : (s.journal ws direct).pw = s.pw := rfl
@[simp] theorem State.journal_hp (s : State) (ws : List CfgWr) (direct : Bool) : (s.journal ws direct).hp = s.hp := rfl
@[simp] theorem State.journal_bq (s : State) (ws : List CfgWr) (direct : Bool) : (s.journal ws direct).bq = s.bq := rfl
@[simp] theorem State.journal_takes_ (s : State) (ws : List CfgWr) (direct : Bool) : (s.journal ws direct).takes_ = s.takes_ := rfl
@[simp] theorem State.journal_le (s : State) (ws : List CfgWr) (direct : Bool) : (s.journal ws direct).le = s.le := rfl
@[simp] theorem State.journal_ov (s : State) (ws : List CfgWr) (direct : Bool) : (s.journal ws direct).ov = s.ov := rfl
@[simp] theorem State.journal_out (s : State) (ws : List CfgWr) (direct : Bool) : (s.journal ws direct).out = s.out := rfl
@[simp] theorem State.journal_free (s : State) (ws : List CfgWr) (direct : Bool) : (s.journal ws direct).free = s.free := rfl
@[simp] theorem State.journal_rd (s : State) (ws : List CfgWr) (direct : Bool) (r : Fld) : (s.journal ws direct).rd r = s.rd r := rfl

/-! `State.fresh` -/

@[simp] theorem State.fresh_pending (s : State) : (s.fresh).pending = s.pending := rfl
@[simp] theorem State.fresh_regs (s : State) : (s.fresh).regs = s.regs := rfl
@[simp] theorem State.fresh_hold (s : State) : (s.fresh).hold = s.hold := rfl
@[simp] theorem State.fresh_lag (s : State) : (s.fresh).lag = s.lag := rfl
@[simp] theorem State.fresh_now (s : State) : (s.fresh).now = s.now := rfl
@[simp] theorem State.fresh_run (s : State) : (s.fresh).run = s.run := rfl
@[simp] theorem State.fresh_hub (s : State) : (s.fresh).hub = s.hub := rfl
@[simp] theorem State.fresh_tb (s : State) : (s.fresh).tb = s.tb := rfl
@[simp] theorem State.fresh_fc (s : State) : (s.fresh).fc = s.fc := rfl
@[simp] theorem State.fresh_mt (s : State) : (s.fresh).mt = s.mt := rfl
@[simp] theorem State.fresh_ax (s : State) : (s.fresh).ax = s.ax := rfl
@[simp] theorem State.fresh_rd_ (s : State) : (s.fresh).rd_ = s.rd_ := rfl
@[simp] theorem State.fresh_dv (s : State) : (s.fresh).dv = s.dv := rfl
@[simp] theorem State.fresh_aos (s : State) : (s.fresh).aos = s.aos := rfl
@[simp] theorem State.fresh_pw (s : State) : (s.fresh).pw = s.pw := rfl
@[simp] theorem State.fresh_hp (s : State) : (s.fresh).hp = s.hp := rfl
@[simp] theorem State.fresh_bq (s : State) : (s.fresh).bq = s.bq := rfl
@[simp] theorem State.fresh_takes_ (s : State) : (s.fresh).takes_ = s.takes_ := rfl
@[simp] theorem State.fresh_le (s : State) : (s.fresh).le = s.le := rfl
@[simp] theorem State.fresh_ov (s : State) : (s.fresh).ov = s.ov := rfl
@[simp] theorem State.fresh_kn (s : State) : (s.fresh).kn = s.kn := rfl
@[simp] theorem State.fresh_out (s : State) : (s.fresh).out = s.out := rfl
@[simp] theorem State.fresh_rd (s : State) (r : Fld) : (s.fresh).rd r = s.rd r := rfl

/-! `State.news` -/

@[simp] theorem State.news_pending (s : State) (v : Nat) : (s.news v).pending = s.pending := rfl
@[simp] theorem State.news_regs (s : State) (v : Nat) : (s.news v).regs = s.regs := rfl
@[simp] theorem State.news_hold (s : State) (v : Nat) : (s.news v).hold = s.hold := rfl
@[simp] theorem State.news_lag (s : State) (v : Nat) : (s.news v).lag = s.lag := rfl
@[simp] theorem State.news_now (s : State) (v : Nat) : (s.news v).now = s.now := rfl
@[simp] theorem State.news_run (s : State) (v : Nat) : (s.news v).run = s.run := rfl
@[simp] theorem State.news_hub (s : State) (v : Nat) : (s.news v).hub = s.hub := rfl
@[simp] theorem State.news_tb (s : State) (v : Nat) : (s.news v).tb = s.tb := rfl
@[simp] theorem State.news_fc (s : State) (v : Nat) : (s.news v).fc = s.fc := rfl
@[simp] theorem State.news_mt (s : State) (v : Nat) : (s.news v).mt = s.mt := rfl
@[simp] theorem State.news_ax (s : State) (v : Nat) : (s.news v).ax = s.ax := rfl
@[simp] theorem State.news_rd_ (s : State) (v : Nat) : (s.news v).rd_ = s.rd_ := rfl
@[simp] theorem State.news_dv (s : State) (v : Nat) : (s.news v).dv = s.dv := rfl
@[simp] theorem State.news_aos (s : State) (v : Nat) : (s.news v).aos = s.aos := rfl
@[simp] theorem State.news_pw (s : State) (v : Nat) : (s.news v).pw = s.pw := rfl
@[simp] theorem State.news_bq (s : State) (v : Nat) : (s.news v).bq = s.bq := rfl
@[simp] theorem State.news_takes_ (s : State) (v : Nat) : (s.news v).takes_ = s.takes_ := rfl
@[simp] theorem State.news_le (s : State) (v : Nat) : (s.news v).le = s.le := rfl
@[simp] theorem State.news_ov (s : State) (v : Nat) : (s.news v).ov = s.ov := rfl
@[simp] theorem State.news_kn (s : State) (v : Nat) : (s.news v).kn = s.kn := rfl
@[simp] theorem State.news_out (s : State) (v : Nat) : (s.news v).out = s.out := rfl
@[simp] theorem State.news_free (s : State) (v : Nat) : (s.news v).free = s.free := rfl
@[simp] theorem State.news_rd (s : State) (v : Nat) (r : Fld) : (s.news v).rd r = s.rd r := rfl

/-! `State.barkEvery` -/

@[simp] theorem State.barkEvery_pending (s : State) (span elem src code : Nat) (warn : Bool) (payload : List Nat) : (s.barkEvery span elem src code warn payload).pending = s.pending := by
  unfold State.barkEvery; (try dsimp only); (repeat' split) <;> rfl
@[simp] theorem State.barkEvery_regs (s : State) (span elem src code : Nat) (warn : Bool) (payload : List Nat) : (s.barkEvery span elem src code warn payload).regs = s.regs := by
  unfold State.barkEvery; (try dsimp only); (repeat' split) <;> rfl
@[simp] theorem State.barkEvery_hold (s : State) (span elem src code : Nat) (warn : Bool) (payload : List Nat) : (s.barkEvery span elem src code warn payload).hold = s.hold := by
  unfold State.barkEvery; (try dsimp only); (repeat' split) <;> rfl
@[simp] theorem State.barkEvery_lag (s : State) (span elem src code : Nat) (warn : Bool) (payload : List Nat) : (s.barkEvery span elem src code warn payload).lag = s.lag := by
  unfold State.barkEvery; (try dsimp only); (repeat' split) <;> rfl
@[simp] theorem State.barkEvery_now (s : State) (span elem src code : Nat) (warn : Bool) (payload : List Nat) : (s.barkEvery span elem src code warn payload).now = s.now := by
  unfold State.barkEvery; (try dsimp only); (repeat' split) <;> rfl
@[simp] theorem State.barkEvery_run (s : State) (span elem src code : Nat) (warn : Bool) (payload : List Nat) : (s.barkEvery span elem src code warn payload).run = s.run := by
  unfold State.barkEvery; (try dsimp only); (repeat' split) <;> rfl
@[simp] theorem State.barkEvery_hub (s : State) (span elem src code : Nat) (warn : Bool) (payload : List Nat) : (s.barkEvery span elem src code warn payload).hub = s.hub := by
  unfold State.barkEvery; (try dsimp only); (repeat' split) <;> rfl
@[simp] theorem State.barkEvery_tb (s : State) (span elem src code : Nat) (warn : Bool) (payload : List Nat) : (s.barkEvery span elem src code warn payload).tb = s.tb := by
  unfold State.barkEvery; (try dsimp only); (repeat' split) <;> rfl
@[simp] theorem State.barkEvery_fc (s : State) (span elem src code : Nat) (warn : Bool) (payload : List Nat) : (s.barkEvery span elem src code warn payload).fc = s.fc := by
  unfold State.barkEvery; (try dsimp only); (repeat' split) <;> rfl
@[simp] theorem State.barkEvery_mt (s : State) (span elem src code : Nat) (warn : Bool) (payload : List Nat) : (s.barkEvery span elem src code warn payload).mt = s.mt := by
  unfold State.barkEvery; (try dsimp only); (repeat' split) <;> rfl
@[simp] theorem State.barkEvery_ax (s : State) (span elem src code : Nat) (warn : Bool) (payload : List Nat) : (s.barkEvery span elem src code warn payload).ax = s.ax := by
  unfold State.barkEvery; (try dsimp only); (repeat' split) <;> rfl
@[simp] theorem State.barkEvery_rd_ (s : State) (span elem src code : Nat) (warn : Bool) (payload : List Nat) : (s.barkEvery span elem src code warn payload).rd_ = s.rd_ := by
  unfold State.barkEvery; (try dsimp only); (repeat' split) <;> rfl
@[simp] theorem State.barkEvery_dv (s : State) (span elem src code : Nat) (warn : Bool) (payload : List Nat) : (s.barkEvery span elem src code warn payload).dv = s.dv := by
  unfold State.barkEvery; (try dsimp only); (repeat' split) <;> rfl
@[simp] theorem State.barkEvery_aos (s : State) (span elem src code : Nat) (warn : Bool) (payload : List Nat) : (s.barkEvery span elem src code warn payload).aos = s.aos := by
  unfold State.barkEvery; (try dsimp only); (repeat' split) <;> rfl
@[simp] theorem State.barkEvery_pw (s : State) (span elem src code : Nat) (warn : Bool) (payload : List Nat) : (s.barkEvery span elem src code warn payload).pw = s.pw := by
  unfold State.barkEvery; (try dsimp only); (repeat' split) <;> rfl
@[simp] theorem State.barkEvery_hp (s : State) (span elem src code : Nat) (warn : Bool) (payload : List Nat) : (s.barkEvery span elem src code warn payload).hp = s.hp := by
  unfold State.barkEvery; (try dsimp only); (repeat' split) <;> rfl
@[simp] theorem State.barkEvery_takes_ (s : State) (span elem src code : Nat) (warn : Bool) (payload : List Nat) : (s.barkEvery span elem src code warn payload).takes_ = s.takes_ := by
  unfold State.barkEvery; (try dsimp only); (repeat' split) <;> rfl
@[simp] theorem State.barkEvery_le (s : State) (span elem src code : Nat) (warn : Bool) (payload : List Nat) : (s.barkEvery span elem src code warn payload).le = s.le := by
  unfold State.barkEvery; (try dsimp only); (repeat' split) <;> rfl
@[simp] theorem State.barkEvery_ov (s : State) (span elem src code : Nat) (warn : Bool) (payload : List Nat) : (s.barkEvery span elem src code warn payload).ov = s.ov := by
  unfold State.barkEvery; (try dsimp only); (repeat' split) <;> rfl
@[simp] theorem State.barkEvery_kn (s : State) (span elem src code : Nat) (warn : Bool) (payload : List Nat) : (s.barkEvery span elem src code warn payload).kn = s.kn := by
  unfold State.barkEvery; (try dsimp only); (repeat' split) <;> rfl
@[simp] theorem State.barkEvery_out (s : State) (span elem src code : Nat) (warn : Bool) (payload : List Nat) : (s.barkEvery span elem src code warn payload).out = s.out := by
  unfold State.barkEvery; (try dsimp only); (repeat' split) <;> rfl
@[simp] theorem State.barkEvery_free (s : State) (span elem src code : Nat) (warn : Bool) (payload : List Nat) : (s.barkEvery span elem src code warn payload).free = s.free := by
  unfold State.barkEvery; (try dsimp only); (repeat' split) <;> rfl
@[simp] theorem State.barkEvery_rd (s : State) (span elem src code : Nat) (warn : Bool) (payload : List Nat) (r : Fld) : (s.barkEvery span elem src code warn payload).rd r = s.rd r := by
  unfold State.barkEvery; (try dsimp only); (repeat' split) <;> rfl

/-! `State.begin` -/

@[simp] theorem State.begin_pending (s : State) (h : CmdHdr) : (s.begin h).pending = s.pending := by
  unfold State.begin; (try dsimp only); (repeat' split) <;> rfl
@[simp] theorem State.begin_regs (s : State) (h : CmdHdr) : (s.begin h).regs = s.regs := by
  unfold State.begin; (try dsimp only); (repeat' split) <;> rfl
@[simp] theorem State.begin_hold (s : State) (h : CmdHdr) : (s.begin h).hold = s.hold := by
  unfold State.begin; (try dsimp only); (repeat' split) <;> rfl
@[simp] theorem State.begin_lag (s : State) (h : CmdHdr) : (s.begin h).lag = s.lag := by
  unfold State.begin; (try dsimp only); (repeat' split) <;> rfl
@[simp] theorem State.begin_now (s : State) (h : CmdHdr) : (s.begin h).now = s.now := by
  unfold State.begin; (try dsimp only); (repeat' split) <;> rfl
@[simp] theorem State.begin_run (s : State) (h : CmdHdr) : (s.begin h).run = s.run := by
  unfold State.begin; (try dsimp only); (repeat' split) <;> rfl
@[simp] theorem State.begin_hub (s : State) (h : CmdHdr) : (s.begin h).hub = s.hub := by
  unfold State.begin; (try dsimp only); (repeat' split) <;> rfl
@[simp] theorem State.begin_tb (s : State) (h : CmdHdr) : (s.begin h).tb = s.tb := by
  unfold State.begin; (try dsimp only); (repeat' split) <;> rfl
@[simp] theorem State.begin_fc (s : State) (h : CmdHdr) : (s.begin h).fc = s.fc := by
  unfold State.begin; (try dsimp only); (repeat' split) <;> rfl
@[simp] theorem State.begin_mt (s : State) (h : CmdHdr) : (s.begin h).mt = s.mt := by
  unfold State.begin; (try dsimp only); (repeat' split) <;> rfl
@[simp] theorem State.begin_ax (s : State) (h : CmdHdr) : (s.begin h).ax = s.ax := by
  unfold State.begin; (try dsimp only); (repeat' split) <;> rfl
@[simp] theorem State.begin_rd_ (s : State) (h : CmdHdr) : (s.begin h).rd_ = s.rd_ := by
  unfold State.begin; (try dsimp only); (repeat' split) <;> rfl
@[simp] theorem State.begin_dv (s : State) (h : CmdHdr) : (s.begin h).dv = s.dv := by
  unfold State.begin; (try dsimp only); (repeat' split) <;> rfl
@[simp] theorem State.begin_aos (s : State) (h : CmdHdr) : (s.begin h).aos = s.aos := by
  unfold State.begin; (try dsimp only); (repeat' split) <;> rfl
@[simp] theorem State.begin_pw (s : State) (h : CmdHdr) : (s.begin h).pw = s.pw := by
  unfold State.begin; (try dsimp only); (repeat' split) <;> rfl
@[simp] theorem State.begin_bq (s : State) (h : CmdHdr) : (s.begin h).bq = s.bq := by
  unfold State.begin; (try dsimp only); (repeat' split) <;> rfl
@[simp] theorem State.begin_takes_ (s : State) (h : CmdHdr) : (s.begin h).takes_ = s.takes_ := by
  unfold State.begin; (try dsimp only); (repeat' split) <;> rfl
@[simp] theorem State.begin_le (s : State) (h : CmdHdr) : (s.begin h).le = s.le := by
  unfold State.begin; (try dsimp only); (repeat' split) <;> rfl
@[simp] theorem State.begin_ov (s : State) (h : CmdHdr) : (s.begin h).ov = s.ov := by
  unfold State.begin; (try dsimp only); (repeat' split) <;> rfl
@[simp] theorem State.begin_kn (s : State) (h : CmdHdr) : (s.begin h).kn = s.kn := by
  unfold State.begin; (try dsimp only); (repeat' split) <;> rfl
@[simp] theorem State.begin_out (s : State) (h : CmdHdr) : (s.begin h).out = s.out := by
  unfold State.begin; (try dsimp only); (repeat' split) <;> rfl
@[simp] theorem State.begin_free (s : State) (h : CmdHdr) : (s.begin h).free = s.free := by
  unfold State.begin; (try dsimp only); (repeat' split) <;> rfl
@[simp] theorem State.begin_rd (s : State) (h : CmdHdr) (r : Fld) : (s.begin h).rd r = s.rd r := by
  unfold State.begin; (try dsimp only); (repeat' split) <;> rfl

/-! `State.journalB` -/

@[simp] theorem State.journalB_pending (s : State) (src : WrSrc) (q : RegId) (k i off : Nat) (data : List Nat) : (s.journalB src q k i off data).pending = s.pending := by
  unfold State.journalB; (try dsimp only); (repeat' split) <;> rfl
@[simp] theorem State.journalB_regs (s : State) (src : WrSrc) (q : RegId) (k i off : Nat) (data : List Nat) : (s.journalB src q k i off data).regs = s.regs := by
  unfold State.journalB; (try dsimp only); (repeat' split) <;> rfl
@[simp] theorem State.journalB_hold (s : State) (src : WrSrc) (q : RegId) (k i off : Nat) (data : List Nat) : (s.journalB src q k i off data).hold = s.hold := by
  unfold State.journalB; (try dsimp only); (repeat' split) <;> rfl
@[simp] theorem State.journalB_lag (s : State) (src : WrSrc) (q : RegId) (k i off : Nat) (data : List Nat) : (s.journalB src q k i off data).lag = s.lag := by
  unfold State.journalB; (try dsimp only); (repeat' split) <;> rfl
@[simp] theorem State.journalB_now (s : State) (src : WrSrc) (q : RegId) (k i off : Nat) (data : List Nat) : (s.journalB src q k i off data).now = s.now := by
  unfold State.journalB; (try dsimp only); (repeat' split) <;> rfl
@[simp] theorem State.journalB_run (s : State) (src : WrSrc) (q : RegId) (k i off : Nat) (data : List Nat) : (s.journalB src q k i off data).run = s.run := by
  unfold State.journalB; (try dsimp only); (repeat' split) <;> rfl
@[simp] theorem State.journalB_hub (s : State) (src : WrSrc) (q : RegId) (k i off : Nat) (data : List Nat) : (s.journalB src q k i off data).hub = s.hub := by
  unfold State.journalB; (try dsimp only); (repeat' split) <;> rfl
@[simp] theorem State.journalB_tb (s : State) (src : WrSrc) (q : RegId) (k i off : Nat) (data : List Nat) : (s.journalB src q k i off data).tb = s.tb := by
  unfold State.journalB; (try dsimp only); (repeat' split) <;> rfl
@[simp] theorem State.journalB_fc (s : State) (src : WrSrc) (q : RegId) (k i off : Nat) (data : List Nat) : (s.journalB src q k i off data).fc = s.fc := by
  unfold State.journalB; (try dsimp only); (repeat' split) <;> rfl
@[simp] theorem State.journalB_mt (s : State) (src : WrSrc) (q : RegId) (k i off : Nat) (data : List Nat) : (s.journalB src q k i off data).mt = s.mt := by
  unfold State.journalB; (try dsimp only); (repeat' split) <;> rfl
@[simp] theorem State.journalB_ax (s : State) (src : WrSrc) (q : RegId) (k i off : Nat) (data : List Nat) : (s.journalB src q k i off data).ax = s.ax := by
  unfold State.journalB; (try dsimp only); (repeat' split) <;> rfl
@[simp] theorem State.journalB_rd_ (s : State) (src : WrSrc) (q : RegId) (k i off : Nat) (data : List Nat) : (s.journalB src q k i off data).rd_ = s.rd_ := by
  unfold State.journalB; (try dsimp only); (repeat' split) <;> rfl
@[simp] theorem State.journalB_dv (s : State) (src : WrSrc) (q : RegId) (k i off : Nat) (data : List Nat) : (s.journalB src q k i off data).dv = s.dv := by
  unfold State.journalB; (try dsimp only); (repeat' split) <;> rfl
@[simp] theorem State.journalB_aos (s : State) (src : WrSrc) (q : RegId) (k i off : Nat) (data : List Nat) : (s.journalB src q k i off data).aos = s.aos := by
  unfold State.journalB; (try dsimp only); (repeat' split) <;> rfl
@[simp] theorem State.journalB_pw (s : State) (src : WrSrc) (q : RegId) (k i off : Nat) (data : List Nat) : (s.journalB src q k i off data).pw = s.pw := by
  unfold State.journalB; (try dsimp only); (repeat' split) <;> rfl
@[simp] theorem State.journalB_hp (s : State) (src : WrSrc) (q : RegId) (k i off : Nat) (data : List Nat) : (s.journalB src q k i off data).hp = s.hp := by
  unfold State.journalB; (try dsimp only); (repeat' split) <;> rfl
@[simp] theorem State.journalB_bq (s : State) (src : WrSrc) (q : RegId) (k i off : Nat) (data : List Nat) : (s.journalB src q k i off data).bq = s.bq := by
  unfold State.journalB; (try dsimp only); (repeat' split) <;> rfl
@[simp] theorem State.journalB_takes_ (s : State) (src : WrSrc) (q : RegId) (k i off : Nat) (data : List Nat) : (s.journalB src q k i off data).takes_ = s.takes_ := by
  unfold State.journalB; (try dsimp only); (repeat' split) <;> rfl
@[simp] theorem State.journalB_le (s : State) (src : WrSrc) (q : RegId) (k i off : Nat) (data : List Nat) : (s.journalB src q k i off data).le = s.le := by
  unfold State.journalB; (try dsimp only); (repeat' split) <;> rfl
@[simp] theorem State.journalB_ov (s : State) (src : WrSrc) (q : RegId) (k i off : Nat) (data : List Nat) : (s.journalB src q k i off data).ov = s.ov := by
  unfold State.journalB; (try dsimp only); (repeat' split) <;> rfl
@[simp] theorem State.journalB_out (s : State) (src : WrSrc) (q : RegId) (k i off : Nat) (data : List Nat) : (s.journalB src q k i off data).out = s.out := by
  unfold State.journalB; (try dsimp only); (repeat' split) <;> rfl
@[simp] theorem State.journalB_free (s : State) (src : WrSrc) (q : RegId) (k i off : Nat) (data : List Nat) : (s.journalB src q k i off data).free = s.free := by
  unfold State.journalB; (try dsimp only); (repeat' split) <;> rfl
@[simp] theorem State.journalB_rd (s : State) (src : WrSrc) (q : RegId) (k i off : Nat) (data : List Nat) (r : Fld) : (s.journalB src q k i off data).rd r = s.rd r := by
  unfold State.journalB; (try dsimp only); (repeat' split) <;> rfl

/-! `State.setPart` -/

@[simp] theorem State.setPart_pending (s : State) (p code : Nat) : (s.setPart p code).pending = s.pending := by
  unfold State.setPart; (try dsimp only); (repeat' split) <;> rfl
@[simp] theorem State.setPart_hold (s : State) (p code : Nat) : (s.setPart p code).hold = s.hold := by
  unfold State.setPart; (try dsimp only); (repeat' split) <;> rfl
@[simp] theorem State.setPart_lag (s : State) (p code : Nat) : (s.setPart p code).lag = s.lag := by
  unfold State.setPart; (try dsimp only); (repeat' split) <;> rfl
@[simp] theorem State.setPart_now (s : State) (p code : Nat) : (s.setPart p code).now = s.now := by
  unfold State.setPart; (try dsimp only); (repeat' split) <;> rfl
@[simp] theorem State.setPart_run (s : State) (p code : Nat) : (s.setPart p code).run = s.run := by
  unfold State.setPart; (try dsimp only); (repeat' split) <;> rfl
@[simp] theorem State.setPart_hub (s : State) (p code : Nat) : (s.setPart p code).hub = s.hub := by
  unfold State.setPart; (try dsimp only); (repeat' split) <;> rfl
@[simp] theorem State.setPart_tb (s : State) (p code : Nat) : (s.setPart p code).tb = s.tb := by
  unfold State.setPart; (try dsimp only); (repeat' split) <;> rfl
@[simp] theorem State.setPart_fc (s : State) (p code : Nat) : (s.setPart p code).fc = s.fc := by
  unfold State.setPart; (try dsimp only); (repeat' split) <;> rfl
@[simp] theorem State.setPart_mt (s : State) (p code : Nat) : (s.setPart p code).mt = s.mt := by
  unfold State.setPart; (try dsimp only); (repeat' split) <;> rfl
@[simp] theorem State.setPart_ax (s : State) (p code : Nat) : (s.setPart p code).ax = s.ax := by
  unfold State.setPart; (try dsimp only); (repeat' split) <;> rfl
@[simp] theorem State.setPart_rd_ (s : State) (p code : Nat) : (s.setPart p code).rd_ = s.rd_ := by
  unfold State.setPart; (try dsimp only); (repeat' split) <;> rfl
@[simp] theorem State.setPart_dv (s : State) (p code : Nat) : (s.setPart p code).dv = s.dv := by
  unfold State.setPart; (try dsimp only); (repeat' split) <;> rfl
@[simp] theorem State.setPart_aos (s : State) (p code : Nat) : (s.setPart p code).aos = s.aos := by
  unfold State.setPart; (try dsimp only); (repeat' split) <;> rfl
@[simp] theorem State.setPart_pw (s : State) (p code : Nat) : (s.setPart p code).pw = s.pw := by
  unfold State.setPart; (try dsimp only); (repeat' split) <;> rfl
@[simp] theorem State.setPart_hp (s : State) (p code : Nat) : (s.setPart p code).hp = s.hp := by
  unfold State.setPart; (try dsimp only); (repeat' split) <;> rfl
@[simp] theorem State.setPart_takes_ (s : State) (p code : Nat) : (s.setPart p code).takes_ = s.takes_ := by
  unfold State.setPart; (try dsimp only); (repeat' split) <;> rfl
@[simp] theorem State.setPart_le (s : State) (p code : Nat) : (s.setPart p code).le = s.le := by
  unfold State.setPart; (try dsimp only); (repeat' split) <;> rfl
@[simp] theorem State.setPart_ov (s : State) (p code : Nat) : (s.setPart p code).ov = s.ov := by
  unfold State.setPart; (try dsimp only); (repeat' split) <;> rfl
@[simp] theorem State.setPart_kn (s : State) (p code : Nat) : (s.setPart p code).kn = s.kn := by
  unfold State.setPart; (try dsimp only); (repeat' split) <;> rfl
@[simp] theorem State.setPart_out (s : State) (p code : Nat) : (s.setPart p code).out = s.out := by
  unfold State.setPart; (try dsimp only); (repeat' split) <;> rfl
@[simp] theorem State.setPart_free (s : State) (p code : Nat) : (s.setPart p code).free = s.free := by
  unfold State.setPart; (try dsimp only); (repeat' split) <;> rfl

/-! `State.dropCpl` -/

@[simp] theorem State.dropCpl_pending (s : State) (n : Nat) : (s.dropCpl n).pending = s.pending := by
  unfold State.dropCpl; (try dsimp only); (repeat' split) <;> rfl
@[simp] theorem State.dropCpl_hold (s : State) (n : Nat) : (s.dropCpl n).hold = s.hold := by
  unfold State.dropCpl; (try dsimp only); (repeat' split) <;> rfl
@[simp] theorem State.dropCpl_lag (s : State) (n : Nat) : (s.dropCpl n).lag = s.lag := by
  unfold State.dropCpl; (try dsimp only); (repeat' split) <;> rfl
@[simp] theorem State.dropCpl_now (s : State) (n : Nat) : (s.dropCpl n).now = s.now := by
  unfold State.dropCpl; (try dsimp only); (repeat' split) <;> rfl
@[simp] theorem State.dropCpl_run (s : State) (n : Nat) : (s.dropCpl n).run = s.run := by
  unfold State.dropCpl; (try dsimp only); (repeat' split) <;> rfl
@[simp] theorem State.dropCpl_hub (s : State) (n : Nat) : (s.dropCpl n).hub = s.hub := by
  unfold State.dropCpl; (try dsimp only); (repeat' split) <;> rfl
@[simp] theorem State.dropCpl_tb (s : State) (n : Nat) : (s.dropCpl n).tb = s.tb := by
  unfold State.dropCpl; (try dsimp only); (repeat' split) <;> rfl
@[simp] theorem State.dropCpl_fc (s : State) (n : Nat) : (s.dropCpl n).fc = s.fc := by
  unfold State.dropCpl; (try dsimp only); (repeat' split) <;> rfl
@[simp] theorem State.dropCpl_mt (s : State) (n : Nat) : (s.dropCpl n).mt = s.mt := by
  unfold State.dropCpl; (try dsimp only); (repeat' split) <;> rfl
@[simp] theorem State.dropCpl_ax (s : State) (n : Nat) : (s.dropCpl n).ax = s.ax := by
  unfold State.dropCpl; (try dsimp only); (repeat' split) <;> rfl
@[simp] theorem State.dropCpl_rd_ (s : State) (n : Nat) : (s.dropCpl n).rd_ = s.rd_ := by
  unfold State.dropCpl; (try dsimp only); (repeat' split) <;> rfl
@[simp] theorem State.dropCpl_dv (s : State) (n : Nat) : (s.dropCpl n).dv = s.dv := by
  unfold State.dropCpl; (try dsimp only); (repeat' split) <;> rfl
@[simp] theorem State.dropCpl_aos (s : State) (n : Nat) : (s.dropCpl n).aos = s.aos := by
  unfold State.dropCpl; (try dsimp only); (repeat' split) <;> rfl
@[simp] theorem State.dropCpl_pw (s : State) (n : Nat) : (s.dropCpl n).pw = s.pw := by
  unfold State.dropCpl; (try dsimp only); (repeat' split) <;> rfl
@[simp] theorem State.dropCpl_bq (s : State) (n : Nat) : (s.dropCpl n).bq = s.bq := by
  unfold State.dropCpl; (try dsimp only); (repeat' split) <;> rfl
@[simp] theorem State.dropCpl_takes_ (s : State) (n : Nat) : (s.dropCpl n).takes_ = s.takes_ := by
  unfold State.dropCpl; (try dsimp only); (repeat' split) <;> rfl
@[simp] theorem State.dropCpl_le (s : State) (n : Nat) : (s.dropCpl n).le = s.le := by
  unfold State.dropCpl; (try dsimp only); (repeat' split) <;> rfl
@[simp] theorem State.dropCpl_ov (s : State) (n : Nat) : (s.dropCpl n).ov = s.ov := by
  unfold State.dropCpl; (try dsimp only); (repeat' split) <;> rfl
@[simp] theorem State.dropCpl_kn (s : State) (n : Nat) : (s.dropCpl n).kn = s.kn := by
  unfold State.dropCpl; (try dsimp only); (repeat' split) <;> rfl
@[simp] theorem State.dropCpl_out (s : State) (n : Nat) : (s.dropCpl n).out = s.out := by
  unfold State.dropCpl; (try dsimp only); (repeat' split) <;> rfl
@[simp] theorem State.dropCpl_free (s : State) (n : Nat) : (s.dropCpl n).free = s.free := by
  unfold State.dropCpl; (try dsimp only); (repeat' split) <;> rfl

/-! `State.journalW` -/

@[simp] theorem State.journalW_pending (s : State) (src : WrSrc) (q : RegId) (k i v : Nat) : (s.journalW src q k i v).pending = s.pending := s.journalB_pending src q k i 0 (leBytes 4 v)
@[simp] theorem State.journalW_regs (s : State) (src : WrSrc) (q : RegId) (k i v : Nat) : (s.journalW src q k i v).regs = s.regs := s.journalB_regs src q k i 0 (leBytes 4 v)
@[simp] theorem State.journalW_hold (s : State) (src : WrSrc) (q : RegId) (k i v : Nat) : (s.journalW src q k i v).hold = s.hold := s.journalB_hold src q k i 0 (leBytes 4 v)
@[simp] theorem State.journalW_lag (s : State) (src : WrSrc) (q : RegId) (k i v : Nat) : (s.journalW src q k i v).lag = s.lag := s.journalB_lag src q k i 0 (leBytes 4 v)
@[simp] theorem State.journalW_now (s : State) (src : WrSrc) (q : RegId) (k i v : Nat) : (s.journalW src q k i v).now = s.now := s.journalB_now src q k i 0 (leBytes 4 v)
@[simp] theorem State.journalW_run (s : State) (src : WrSrc) (q : RegId) (k i v : Nat) : (s.journalW src q k i v).run = s.run := s.journalB_run src q k i 0 (leBytes 4 v)
@[simp] theorem State.journalW_hub (s : State) (src : WrSrc) (q : RegId) (k i v : Nat) : (s.journalW src q k i v).hub = s.hub := s.journalB_hub src q k i 0 (leBytes 4 v)
@[simp] theorem State.journalW_tb (s : State) (src : WrSrc) (q : RegId) (k i v : Nat) : (s.journalW src q k i v).tb = s.tb := s.journalB_tb src q k i 0 (leBytes 4 v)
@[simp] theorem State.journalW_fc (s : State) (src : WrSrc) (q : RegId) (k i v : Nat) : (s.journalW src q k i v).fc = s.fc := s.journalB_fc src q k i 0 (leBytes 4 v)
@[simp] theorem State.journalW_mt (s : State) (src : WrSrc) (q : RegId) (k i v : Nat) : (s.journalW src q k i v).mt = s.mt := s.journalB_mt src q k i 0 (leBytes 4 v)
@[simp] theorem State.journalW_ax (s : State) (src : WrSrc) (q : RegId) (k i v : Nat) : (s.journalW src q k i v).ax = s.ax := s.journalB_ax src q k i 0 (leBytes 4 v)
@[simp] theorem State.journalW_rd_ (s : State) (src : WrSrc) (q : RegId) (k i v : Nat) : (s.journalW src q k i v).rd_ = s.rd_ := s.journalB_rd_ src q k i 0 (leBytes 4 v)
@[simp] theorem State.journalW_dv (s : State) (src : WrSrc) (q : RegId) (k i v : Nat) : (s.journalW src q k i v).dv = s.dv := s.journalB_dv src q k i 0 (leBytes 4 v)
@[simp] theorem State.journalW_aos (s : State) (src : WrSrc) (q : RegId) (k i v : Nat) : (s.journalW src q k i v).aos = s.aos := s.journalB_aos src q k i 0 (leBytes 4 v)
@[simp] theorem State.journalW_pw (s : State) (src : WrSrc) (q : RegId) (k i v : Nat) : (s.journalW src q k i v).pw = s.pw := s.journalB_pw src q k i 0 (leBytes 4 v)
@[simp] theorem State.journalW_hp (s : State) (src : WrSrc) (q : RegId) (k i v : Nat) : (s.journalW src q k i v).hp = s.hp := s.journalB_hp src q k i 0 (leBytes 4 v)
@[simp] theorem State.journalW_bq (s : State) (src : WrSrc) (q : RegId) (k i v : Nat) : (s.journalW src q k i v).bq = s.bq := s.journalB_bq src q k i 0 (leBytes 4 v)
@[simp] theorem State.journalW_takes_ (s : State) (src : WrSrc) (q : RegId) (k i v : Nat) : (s.journalW src q k i v).takes_ = s.takes_ := s.journalB_takes_ src q k i 0 (leBytes 4 v)
@[simp] theorem State.journalW_le (s : State) (src : WrSrc) (q : RegId) (k i v : Nat) : (s.journalW src q k i v).le = s.le := s.journalB_le src q k i 0 (leBytes 4 v)
@[simp] theorem State.journalW_ov (s : State) (src : WrSrc) (q : RegId) (k i v : Nat) : (s.journalW src q k i v).ov = s.ov := s.journalB_ov src q k i 0 (leBytes 4 v)
@[simp] theorem State.journalW_out (s : State) (src : WrSrc) (q : RegId) (k i v : Nat) : (s.journalW src q k i v).out = s.out := s.journalB_out src q k i 0 (leBytes 4 v)
@[simp] theorem State.journalW_free (s : State) (src : WrSrc) (q : RegId) (k i v : Nat) : (s.journalW src q k i v).free = s.free := s.journalB_free src q k i 0 (leBytes 4 v)
@[simp] theorem State.journalW_rd (s : State) (src : WrSrc) (q : RegId) (k i v : Nat) (r : Fld) : (s.journalW src q k i v).rd r = s.rd r := s.journalB_rd src q k i 0 (leBytes 4 v) r

/-! `State.keepQueue` -/

@[simp] theorem State.keepQueue_pending (t s : State) : (t.keepQueue s).pending = s.pending := rfl
@[simp] theorem State.keepQueue_regs (t s : State) : (t.keepQueue s).regs = t.regs := rfl
@[simp] theorem State.keepQueue_hold (t s : State) : (t.keepQueue s).hold = t.hold := rfl
@[simp] theorem State.keepQueue_lag (t s : State) : (t.keepQueue s).lag = t.lag := rfl
@[simp] theorem State.keepQueue_now (t s : State) : (t.keepQueue s).now = t.now := rfl
@[simp] theorem State.keepQueue_run (t s : State) : (t.keepQueue s).run = t.run := rfl
@[simp] theorem State.keepQueue_hub (t s : State) : (t.keepQueue s).hub = t.hub := rfl
@[simp] theorem State.keepQueue_tb (t s : State) : (t.keepQueue s).tb = t.tb := rfl
@[simp] theorem State.keepQueue_fc (t s : State) : (t.keepQueue s).fc = t.fc := rfl
@[simp] theorem State.keepQueue_mt (t s : State) : (t.keepQueue s).mt = t.mt := rfl
@[simp] theorem State.keepQueue_ax (t s : State) : (t.keepQueue s).ax = t.ax := rfl
@[simp] theorem State.keepQueue_rd_ (t s : State) : (t.keepQueue s).rd_ = t.rd_ := rfl
@[simp] theorem State.keepQueue_dv (t s : State) : (t.keepQueue s).dv = t.dv := rfl
@[simp] theorem State.keepQueue_aos (t s : State) : (t.keepQueue s).aos = t.aos := rfl
@[simp] theorem State.keepQueue_pw (t s : State) : (t.keepQueue s).pw = t.pw := rfl
@[simp] theorem State.keepQueue_hp (t s : State) : (t.keepQueue s).hp = t.hp := rfl
@[simp] theorem State.keepQueue_bq (t s : State) : (t.keepQueue s).bq = t.bq := rfl
@[simp] theorem State.keepQueue_takes_ (t s : State) : (t.keepQueue s).takes_ = t.takes_ := rfl
@[simp] theorem State.keepQueue_le (t s : State) : (t.keepQueue s).le = t.le := rfl
@[simp] theorem State.keepQueue_ov (t s : State) : (t.keepQueue s).ov = t.ov := rfl
@[simp] theorem State.keepQueue_kn (t s : State) : (t.keepQueue s).kn = t.kn := rfl
@[simp] theorem State.keepQueue_out (t s : State) : (t.keepQueue s).out = t.out := rfl
@[simp] theorem State.keepQueue_free (t s : State) : (t.keepQueue s).free = t.free := rfl
@[simp] theorem State.keepQueue_rd (t s : State) (r : Fld) : (t.keepQueue s).rd r = t.rd r := rfl

end Sys2Proof.Machine
end

