-- ==== Sys2Proof/Laws/Ops.lean ====
section
/-! SUPPORT. What each shared operation does, said once: the register store, barks, completions, the gate of register
writes, and the answer of a command. -/

namespace Sys2Proof.Machine

/-! ## The register store -/

/-- A field reads as written, cut to its width. -/
@[simp] theorem State.rd_wr_self (s : State) (f : Fld) (v : Nat) : (s.wr f v).rd f = v % 2 ^ f.width := by
  simp [State.rd, State.wr]

/-- A write leaves every other field alone. -/
theorem State.rd_wr_ne (s : State) {f g : Fld} (v : Nat) (h : f.key ≠ g.key) : (s.wr f v).rd g = s.rd g := by
  simp [State.rd, State.wr, Sparse.get_put_ne _ _ _ h]

@[simp] theorem State.rd_set_self (s : State) (f : Fld) : (s.set f).rd f = 1 % 2 ^ f.width := s.rd_wr_self f 1

@[simp] theorem State.rd_clr_self (s : State) (f : Fld) : (s.clr f).rd f = 0 := by simp [State.clr]

@[simp] theorem State.rd_wrB_self (s : State) (f : Fld) (b : Bool) : (s.wrB f b).rd f = b2n b % 2 ^ f.width := s.rd_wr_self f _

theorem satU_lt (w n : Nat) : satU w n < 2 ^ w := by
  unfold satU
  have := Nat.two_pow_pos w
  split <;> omega

@[simp] theorem satU_mod (w n : Nat) : satU w n % 2 ^ w = satU w n := Nat.mod_eq_of_lt (satU_lt w n)

@[simp] theorem State.rd_countN_self (s : State) (f : Fld) (n : Nat) : (s.countN f n).rd f = satU f.width (s.rd f + n) := by
  simp [State.countN]

/-- A counter counts one, and stands at its end. -/
@[simp] theorem State.rd_count_self (s : State) (f : Fld) : (s.count f).rd f = satU f.width (s.rd f + 1) := by
  simp [State.count]

@[simp] theorem State.rd_wrSat_self (s : State) (f : Fld) (n : Nat) : (s.wrSat f n).rd f = satU f.width n := by
  simp [State.wrSat]

theorem State.rd_set_ne (s : State) {f g : Fld} (h : f.key ≠ g.key) : (s.set f).rd g = s.rd g := s.rd_wr_ne 1 h
theorem State.rd_clr_ne (s : State) {f g : Fld} (h : f.key ≠ g.key) : (s.clr f).rd g = s.rd g := s.rd_wr_ne 0 h
theorem State.rd_wrB_ne (s : State) {f g : Fld} (b : Bool) (h : f.key ≠ g.key) : (s.wrB f b).rd g = s.rd g := s.rd_wr_ne _ h
theorem State.rd_wrS_ne (s : State) {f g : Fld} (i : Int) (h : f.key ≠ g.key) : (s.wrS f i).rd g = s.rd g := s.rd_wr_ne _ h
theorem State.rd_wrSat_ne (s : State) {f g : Fld} (n : Nat) (h : f.key ≠ g.key) : (s.wrSat f n).rd g = s.rd g := s.rd_wr_ne _ h
theorem State.rd_countN_ne (s : State) {f g : Fld} (n : Nat) (h : f.key ≠ g.key) : (s.countN f n).rd g = s.rd g := s.rd_wr_ne _ h
theorem State.rd_count_ne (s : State) {f g : Fld} (h : f.key ≠ g.key) : (s.count f).rd g = s.rd g := s.rd_wr_ne _ h
theorem State.rd_countMod_ne (s : State) {f g : Fld} (h : f.key ≠ g.key) : (s.countMod f).rd g = s.rd g := s.rd_wr_ne _ h

/-- A register write keeps the store's keys rising. -/
theorem State.wr_sorted (s : State) (f : Fld) (v : Nat) (h : s.regs.sorted = true) : (s.wr f v).regs.sorted = true := by
  simp only [State.wr, Sparse.put, Sparse.sorted] at *
  split
  · exact Sparse.sortedFrom_erase _ _ 0 h
  · exact Sparse.sortedFrom_insert _ _ _ 0 (Nat.zero_le _) h

/-! ## Barks -/

/-- A bark is staged behind those that wait. -/
theorem State.bark_staged (s : State) (src code : Nat) (warn : Bool) (payload : List Nat) :
    (s.bark src code warn payload).bq.staged = s.bq.staged ++
      [{ src := src, code := code, warn := warn, hub := s.me, time := s.now, payload := payload, afterLoss := false }] := rfl

/-! ## Answers -/

/-- Every answer is a next state, with the queue as it was. -/
theorem answer_next (s t : State) : ∃ u, answer s t = .next u ∧ u.pending = s.pending := ⟨_, rfl, rfl⟩

/-- A row that names an element that exists answers. -/
theorem guardItem_next {ok : Bool} (h : ok = true) (s t : State) :
    ∃ u, guardItem ok (answer s t) = .next u ∧ u.pending = s.pending := by subst h; exact ⟨_, rfl, rfl⟩

/-- A row that names no element of the hub stops. -/
theorem guardItem_fault {ok : Bool} (h : ok = false) (o : Host.Outcome State Fault Refusal) :
    guardItem ok o = .fault .noSuchItem := by subst h; rfl

/-! ## The gate of register writes -/

/-- A write that is taken acts. -/
theorem State.write_taken (s : State) {src : WrSrc} {r : RegId} {k i : Nat} {l : Bool} (act : State → State)
    (h : s.takes src r k i l = true) : s.write src r k i l act = act s := by simp [State.write, h]

/-- A direct write that is not taken is discarded and recorded (R416). -/
theorem State.write_discarded (s : State) {r : RegId} {k i : Nat} {l : Bool} (act : State → State)
    (h : s.takes .direct r k i l = false) : s.write .direct r k i l act = s.discard (ofsOf r k i) := by simp [State.write, h]

/-- A CFG_WRITE that is not taken leaves everything as it is (R419). -/
theorem State.write_cfg_dropped (s : State) {r : RegId} {k i : Nat} {l : Bool} (act : State → State)
    (h : s.takes .cfg r k i l = false) : s.write .cfg r k i l act = s := by simp [State.write, h]

/-! ## Completions -/

/-- The commands in flight after a completion: those that are not the completed one. -/
theorem State.complete_inflight (s : State) (h : CmdHdr) (st : Status) (r e : Nat) :
    (s.complete h st r e).hp.inflight = s.hp.inflight.filter (fun f => !sameCmd f.hdr h) := by
  unfold State.complete
  split
  · dsimp only
    split
    · split
      · rfl
      · unfold State.dropCpl; rfl
    · rfl
  · next hn =>
    refine (List.filter_eq_self.2 ?_).symm
    intro f hf
    simp only [List.any_eq_true, not_exists, not_and] at hn
    simpa using hn f hf

/-- With the rings active, a command in flight that came by the ring leaves a completion that waits for its write (R309). -/
theorem State.complete_ring (s : State) (h : CmdHdr) (st : Status) (r e : Nat) (hv : h.via = .ring) (hr : s.ringsOn = true)
    (hf : s.hp.inflight.any (fun f => sameCmd f.hdr h) = true) :
    (s.complete h st r e).hp.cplWait = s.hp.cplWait ++ [s.cplOf h st r e] := by
  simp [State.complete, hf, hv, hr]

/-- A command that has begun is in flight. -/
theorem State.begin_inflight (s : State) (h : CmdHdr) : (s.begin h).hp.inflight.any (fun f => sameCmd f.hdr h) = true := by
  unfold State.begin
  split
  · next hh =>
    simp only [List.any_eq_true] at hh ⊢
    obtain ⟨f, hf, hs⟩ := hh
    exact ⟨_, List.mem_map_of_mem hf, by simp [hs]⟩
  · simp [sameCmd]

end Sys2Proof.Machine
end

