-- ==== Sys2Proof/Laws/Safety.lean ====
section
/-! SUPPORT. Laws of the words of Safety: what they say does not look at the queue, and what the operations of commands give. -/

namespace Sys2Proof

open Sys2Proof.Machine

/-! ## The queue does not count -/

@[simp] theorem onlyRegs_keepQueue (s t u : State) (fs : List Fld) : onlyRegs s (t.keepQueue u) fs = onlyRegs s t fs := rfl
@[simp] theorem startsWith_keepQueue (t u : State) (c : Nat) : startsWith (t.keepQueue u) c = startsWith t c := rfl
@[simp] theorem barks_keepQueue (s t u : State) (a b : Nat) : barks s (t.keepQueue u) a b = barks s t a b := rfl
@[simp] theorem lastBark_keepQueue (t u : State) (a b : Nat) : lastBark (t.keepQueue u) a b = lastBark t a b := rfl
@[simp] theorem settled_keepQueue (t u : State) (h : CmdHdr) : settled (t.keepQueue u) h = settled t h := rfl
@[simp] theorem carried_keepQueue (t u : State) (h : CmdHdr) : carried (t.keepQueue u) h = carried t h := rfl
@[simp] theorem posts_keepQueue (s t u : State) (h : CmdHdr) (st : Status) : posts s (t.keepQueue u) h st = posts s t h st := rfl

/-- A command whose effect is `u` answers it, and leaves the queue alone. -/
theorem answer_of {s u : State} {P : State → Prop} (h : P (u.keepQueue s)) : ∃ t, answer s u = .next t ∧ P t := ⟨_, rfl, h⟩

/-- A row that names an element that exists answers its effect. -/
theorem guard_of {ok : Bool} {s u : State} {P : State → Prop} (hk : ok = true) (h : P (u.keepQueue s)) :
    ∃ t, guardItem ok (answer s u) = .next t ∧ P t := by subst hk; exact ⟨_, rfl, h⟩

/-! ## Registers -/

theorem onlyRegs_wr (s : State) (f : Fld) (v : Nat) : onlyRegs s (s.wr f v) [f] := by
  intro g hg
  simp at hg
  exact State.rd_wr_ne s v (Ne.symm hg)

theorem onlyRegs_refl (s : State) (fs : List Fld) : onlyRegs s s fs := fun _ _ => rfl

/-- A further write adds its field to what may have changed. -/
theorem onlyRegs_snoc {s t : State} {fs : List Fld} (h : onlyRegs s t fs) (f : Fld) (v : Nat) : onlyRegs s (t.wr f v) (f :: fs) := by
  intro g hg
  simp at hg
  rw [State.rd_wr_ne t v (Ne.symm hg.1)]
  exact h g (by simpa using hg.2)

/-- The clear bits of a list of counters touch those counters alone. -/
theorem clearCnts_onlyRegs (s : State) (fs : List Fld) (mask : Nat) : onlyRegs s (s.clearCnts fs mask) fs := by
  unfold State.clearCnts
  have key : ∀ (l : List (Fld × Nat)) (u : State) (g : Fld), g.key ∉ l.map (fun p => p.1.key) →
      (l.foldl (fun t p => t.when (bit mask p.2) (fun u => u.clr p.1)) u).rd g = u.rd g := by
    intro l
    induction l with
    | nil => intro u g _; rfl
    | cons a r ih =>
      intro u g hg
      simp at hg
      rw [List.foldl_cons, ih _ g (by simpa using hg.2)]
      unfold State.when
      split
      · exact State.rd_clr_ne u (Ne.symm hg.1)
      · rfl
  intro g hg
  refine key _ s g ?_
  simp only [List.mem_map, not_exists, not_and] at hg ⊢
  rintro ⟨f, n⟩ hm
  exact hg f (List.fst_mem_of_mem_zipIdx hm)

/-- Each clear bit clears its own counter. -/
theorem clearCnts_cleared (s : State) (fs : List Fld) (mask : Nat) (hn : (fs.map Fld.key).Nodup) :
    cleared s (s.clearCnts fs mask) fs mask := by
  have key : ∀ (l : List Fld) (n : Nat) (u : State), (l.map Fld.key).Nodup → ∀ (i : Nat) (f : Fld), l[i]? = some f →
      ((l.zipIdx n).foldl (fun t p => t.when (bit mask p.2) (fun u => u.clr p.1)) u).rd f = if bit mask (n + i) then 0 else u.rd f := by
    intro l
    induction l with
    | nil => intro n u _ i f h; simp at h
    | cons a r ih =>
      intro n u hnd i f h
      have keep : ∀ (l : List (Fld × Nat)) (u : State) (g : Fld), g.key ∉ l.map (fun p => p.1.key) →
          (l.foldl (fun t p => t.when (bit mask p.2) (fun u => u.clr p.1)) u).rd g = u.rd g := by
        intro l
        induction l with
        | nil => intro u g _; rfl
        | cons b q ihq =>
          intro u g hg
          simp at hg
          rw [List.foldl_cons, ihq _ g (by simpa using hg.2)]
          unfold State.when
          split
          · exact State.rd_clr_ne u (Ne.symm hg.1)
          · rfl
      simp only [List.map_cons, List.nodup_cons] at hnd
      cases i with
      | zero =>
        simp at h
        subst h
        rw [List.zipIdx_cons, List.foldl_cons, keep]
        · unfold State.when; by_cases hb : bit mask n = true <;> simp [hb]
        · simp only [List.mem_map, not_exists, not_and]
          rintro ⟨g, k⟩ hm he
          exact hnd.1 (List.mem_map.2 ⟨g, List.fst_mem_of_mem_zipIdx hm, he⟩)
      | succ i =>
        simp at h
        rw [List.zipIdx_cons, List.foldl_cons, ih (n + 1) _ hnd.2 i f h]
        have hf : f ∈ r := List.mem_of_getElem? h
        have hne : a.key ≠ f.key := fun he => hnd.1 (List.mem_map.2 ⟨f, hf, he.symm⟩)
        have hw : (u.when (bit mask n) (fun u => u.clr a)).rd f = u.rd f := by
          unfold State.when; split
          · exact State.rd_clr_ne u hne
          · rfl
        rw [hw, show n + 1 + i = n + (i + 1) by omega]
  intro i f h
  have := key fs 0 s hn i f h
  simpa [State.clearCnts] using this

@[simp] theorem cleared_keepQueue (s t u : State) (fs : List Fld) (m : Nat) : cleared s (t.keepQueue u) fs m = cleared s t fs m := rfl

/-! ## Barks -/

theorem barks_bark (s t : State) (src code : Nat) (warn : Bool) (p : List Nat) (h : t.bq.staged = s.bq.staged) (hn : t.now = s.now) :
    barks s (t.bark src code warn p) src code := ⟨_, by rw [State.bark_staged, h], rfl, rfl, hn⟩

theorem lastBark_bark (t : State) (src code : Nat) (warn : Bool) (p : List Nat) : lastBark (t.bark src code warn p) src code :=
  ⟨_, _, rfl, rfl, rfl⟩

/-! ## Starts -/

/-- A start that begins is on its way to BOOT: with 0x11 where a card mismatch asks for its one retry, and else with its own cause. -/
theorem startBegin_starts (s : State) (a c : Nat) (k f : Bool) :
    startsWith (startBegin s a c k f) (if (startOp s a k f).2 && a = 0x08 then 0x11 else c) := by
  have h : (startOp s a k f).1.hub.starting = true := by unfold startOp; dsimp only
  unfold startsWith startBegin
  simp [h]

/-- A factory boot is on its way with its own cause. -/
theorem startBegin_factory (s : State) (a c : Nat) (k : Bool) : startsWith (startBegin s a c k true) c := by
  unfold startsWith startBegin
  dsimp only
  have h : (startOp s a k true).1.hub.starting = true := by unfold startOp; dsimp only
  have h2 : (startOp s a k true).2 = false := by simp [startOp]
  simp [h, h2]

/-! ## Commands -/

@[simp] theorem begin_cplWait (s : State) (h : CmdHdr) : (s.begin h).hp.cplWait = s.hp.cplWait := by
  unfold State.begin; split <;> rfl

@[simp] theorem begin_ringsOn (s : State) (h : CmdHdr) : (s.begin h).ringsOn = s.ringsOn := by simp [State.ringsOn, State.flag]

@[simp] theorem begin_mode (s : State) (h : CmdHdr) : (s.begin h).mode = s.mode := by simp [State.mode]

@[simp] theorem begin_barred (s : State) (h : CmdHdr) : (s.begin h).barred = s.barred := by simp [State.barred, State.sampling]

theorem filter_settled (l : List Flight) (h : CmdHdr) :
    (l.filter (fun f => !sameCmd f.hdr h)).any (fun f => sameCmd f.hdr h) = false := by
  induction l with
  | nil => rfl
  | cons a r ih => by_cases hh : sameCmd a.hdr h = true <;> simp [hh, List.filter]

/-- A command that completes is no longer in flight. -/
theorem complete_settled (s : State) (h : CmdHdr) (st : Status) (r e : Nat) : settled (s.complete h st r e) h := by
  unfold settled; rw [State.complete_inflight]; exact filter_settled _ _

/-- A command that begins is in flight. -/
theorem begin_carried (s : State) (h : CmdHdr) : carried (s.begin h) h := State.begin_inflight s h

/-- A command in flight that completes over active rings posts its completion. -/
theorem complete_posts (s t : State) (h : CmdHdr) (st : Status) (r e : Nat) (h1 : h.via = .ring) (h2 : t.ringsOn = true)
    (h3 : carried t h) (h4 : t.hp.cplWait = s.hp.cplWait) : posts s (t.complete h st r e) h st :=
  ⟨t.cplOf h st r e, by rw [State.complete_ring _ _ _ _ _ h1 h2 h3, h4], rfl, rfl, rfl, rfl⟩

/-- A command of the ring that begins and completes at once posts its completion. -/
theorem begin_complete_posts (s : State) (h : CmdHdr) (st : Status) (r e : Nat) (hr : byRing s h) :
    posts s ((s.begin h).complete h st r e) h st :=
  complete_posts s _ h st r e hr.1 (by simpa using hr.2) (begin_carried s h) (by simp)

/-- Accepting a command changes the commands in flight alone. -/
theorem begin_frame (s : State) (h : CmdHdr) : s.begin h = { s with hp := (s.begin h).hp } := by unfold State.begin; split <;> rfl

/-- A completion over active rings changes the host port's books alone. -/
theorem complete_ring_frame (s : State) (h : CmdHdr) (st : Status) (r e : Nat) (h1 : h.via = .ring) (h2 : s.ringsOn = true) :
    s.complete h st r e = { s with hp := (s.complete h st r e).hp } := by
  unfold State.complete
  split
  · simp only [h1, h2, if_true]
  · rfl

/-- A refusal completes the command. -/
theorem refuse_settled (s : State) (h : CmdHdr) (st : Status) : settled (s.refuse h st) h := by
  unfold State.refuse; split
  · exact complete_settled _ _ _ _ _
  · exact complete_settled s h st _ _

/-- A command of the ring that is turned away posts its status. -/
theorem begin_refuse_posts (s : State) (h : CmdHdr) (st : Status) (hr : byRing s h) : posts s ((s.begin h).refuse h st) h st := by
  unfold State.refuse; split
  · exact begin_complete_posts s h st _ _ hr
  · exact begin_complete_posts s h st _ _ hr

end Sys2Proof
end

