-- ==== Sys2Proof/Tests/Slice0.lean ====
section
/-! SUPPORT. Tests: for each statement that has hypotheses, concrete states and operands that meet them together; ill-formed
terms that the well-formedness check refuses; and the worked examples of the spec, with their numbers. -/

namespace Sys2Proof.Tests

open Sys2Proof Sys2Proof.Machine

set_option Elab.async false

/-! ## States to test on -/

/-- Register fields written one after another. -/
def put (s : State) (l : List (Fld × Nat)) : State := l.foldl (fun t p => t.wr p.1 p.2) s

/-- A hub in RUN: every part in service, every domain on, rings enabled and ready, leader, AT locked with its time of day known. -/
def tUp : State :=
  { regs := [(128, 5)] ++ (List.range 32).map (fun p => (320 + 2 * p, 1)) ++
      [(32768, 1), (32769, 1), (65536, 2), (65552, 1), (131232, 2 ^ 30 - 1), (262144, 1), (3145762, 1)],
    now := 1000 * 3840, run := 5000000000, hub := { starting := false } }

/-- A command header: tag 1, opcode 5, no instant, ring slot 2. -/
def tHdr : CmdHdr := { tag := 1, opcode := 5, quiet := false, inst := .none, index := 2, via := .ring }

/-- A stream definition: ID 5, field channel 0, beat clock, raw, unity gain. -/
def tDef : SDef :=
  { id := 5, kind := 0, out := 0, index := 0, clock := 0, clockArg := 0, filter := 0, reduce := 0, redArg := 0, stat := 0, curve := 0,
    format := 0, q := 0, opts := 0, gain := 0x3FF0000000000000, offset := 0, recCount := 10, recAge := 100, cj := 0, ra := 0, rb := 0,
    trig := 0, trigFlag := 0, tail := [0, 0, 0, 0, 0, 0] }

/-- A frame with one whole empty command message from hub 3 to hub 63. -/
def tFrame : Frame :=
  { seq := 0, vl := 1, type := 8, src := 3, dst := 63, hops := 1, len := 0, first := true, last := true, buf := 0, credit := [], ack := 0,
    msg := 6, ofs := 0, payload := [], fcrc := 0 }

/-! ## Witnesses -/

theorem witness_Starts :
    (∃ (s : State) (v : Nat), v < 4 ∧ s.hub.aon = false) ∧
    (∃ (s : State) (t0 : Nat), s.hub.button = some t0 ∧ s.hub.buttonAtPower = false ∧ s.elapsed t0 (10 * cclkSec) = false) ∧
    (∃ (s : State) (t0 : Nat), s.hub.button = some t0 ∧ s.hub.buttonAtPower = false ∧ s.elapsed t0 (10 * cclkSec) = true) ∧
    (∃ (s : State) (t0 : Nat), s.hub.button = some t0 ∧ s.hub.buttonAtPower = true ∧ s.elapsed t0 (3 * cclkSec) = true) ∧
    (∃ (s : State), s.mode ≠ mDORMANT ∧ s.flag Reg.KN_BANK_STATE_TRIAL = true ∧ s.hub.failedAt.length < 2) ∧
    (∃ (s : State), s.hub.retry = true ∧ s.elapsed s.hub.failAt s.retryAfter = true) ∧
    (∃ (s : State), s.mode = mDORMANT ∧ s.hub.aon = true ∧ s.hub.dormantLow = true ∧ s.hub.starting = false ∧ s.feedState 0 = 2 ∧
     s.elapsed (s.feedChg 0) cclkSec = true) ∧
    (∃ (s : State), s.mode = mDORMANT ∧ s.hub.aon = true ∧ s.hub.starting = false ∧ s.flag Reg.HUB_WAKE_AT_ARM = true ∧
     s.rd Reg.HUB_WAKE_AT_SECONDS ≤ s.now / cclkSec) ∧
    (∃ (s : State) (bad : List Nat), s.inSteps = true ∧ s.hub.cardsWait = false ∧ (stepIdentity s).bootSound = false) ∧
    (∃ (s : State) (bad : List Nat) (d : Nat), d ∈ [27, 28, 29, 21, 22, 23, 24, 26] ∧ s.inSteps = true ∧
     s.hub.cardsWait = false ∧ (stepIdentity s).bootSound = true ∧ (bad.contains 26 && bad.contains 27) = false ∧ s.pw.waits = [] ∧
     (∀ (p : Nat), p < 20 → (s.slot p).card = false)) ∧
    (∃ (s : State) (bad : List Nat), s.inSteps = true ∧ s.hub.cardsWait = true ∧ s.cardWaits = false) ∧
    (∃ (s : State) (bad : List Nat), s.inSteps = true ∧ s.hub.cardsWait = true ∧ s.cardWaits = true) ∧
    (∃ (s : State) (step : Nat), [2, 4, 5, 7].contains step = true ∧ s.hub.starting = true ∧ s.hub.retry = false ∧
     s.mode = mBOOT) ∧
    (∃ (s : State) (core : Bool) (bad conv caps : List Nat), s.mode = mSELFTEST ∧ s.hub.retry = false ∧ s.hub.trigs = [] ∧
     s.elapsed s.hub.modeAt (100 * cclkMs) = true ∧ (!core || !(setEntries bad (List.foldl (testCard bad conv) s s.tested)).statusSet) = true) ∧
    (∃ (s : State) (core : Bool) (bad conv caps : List Nat), s.mode = mSELFTEST ∧ s.hub.retry = false ∧ s.hub.trigs = [] ∧
     s.elapsed s.hub.modeAt (100 * cclkMs) = true ∧ (!core || !(setEntries bad (List.foldl (testCard bad conv) s s.tested)).statusSet) = false) ∧
    (∃ (s : State), s.flag Reg.KN_BANK_STATE_TRIAL = true ∧ s.hub.proofSince.isSome = true ∧ 600 * cclkSec ≤ s.proofTime ∧
     s.image.floor < 2 ^ 32) ∧
    (∃ (s : State), s.hub.aon = true ∧ s.mode = mDORMANT ∧ s.feedState 0 ≠ 2 ∧ s.feedState 1 ≠ 2 ∧
     s.elapsed s.hub.modeAt (50 * cclkMs) = true) ∧
    (∃ (s : State), s.hub.aon = true ∧ s.kn.identBy = none) ∧
    (∃ (s : State) (by_ : Nat), s.kn.identBy = some by_ ∧ s.hub.aon = true ∧ s.run ≤ by_) ∧
    (∃ (s : State) (bad : List Nat), s.inSteps = true ∧ s.hub.cardsWait = false ∧ (stepIdentity s).bootSound = true ∧
     (bad.contains 26 && bad.contains 27) = true) :=
  ⟨⟨{ State.reset with hub := { aon := false } }, 3, by decide +kernel⟩,
   ⟨{ State.reset with hub := { button := (some 0) } }, 0, by decide +kernel⟩,
   ⟨{ tUp with hub := { starting := false, button := (some 4) } }, 4, by decide +kernel⟩,
   ⟨{ tUp with hub := { starting := false, button := (some 7), buttonAtPower := true } }, 7, by decide +kernel⟩,
   ⟨(put tUp [(Reg.KN_BANK_STATE_TRIAL, 1)]), by decide +kernel⟩,
   ⟨{ tUp with hub := { starting := false, retry := true } }, by decide +kernel⟩,
   ⟨{ (put tUp [(Reg.HUB_MODE_MODE, 0), (Reg.PW_FEED_STATE 0, 2)]) with hub := { starting := false, dormantLow := true } }, by decide +kernel⟩,
   ⟨(put tUp [(Reg.HUB_MODE_MODE, 0), (Reg.HUB_WAKE_AT_ARM, 1)]), by decide +kernel⟩,
   ⟨(put State.reset [(Reg.KN_BANK_STATE_ACTIVE, 1)]), [], by decide +kernel⟩,
   ⟨State.reset, [5, 4], 29, by decide +kernel⟩,
   ⟨{ State.reset with hub := { cardsWait := true } }, [0, 0, 16, 0, 0, 0, 0, 0, 17, 0, 0, 0, 0, 0, 0, 0], by decide +kernel⟩,
   ⟨{ State.reset with hub := { cardsWait := true }, pw := { waits := [{ book := 1, cls := 1, cid := 3, want := 50, held := 0, bn := 0, since := 0, counted := false }] } }, [], by decide +kernel⟩,
   ⟨State.reset, 4, by decide +kernel⟩,
   ⟨(put tUp [(Reg.HUB_MODE_MODE, 2)]), false, [153, 0, 3, 0, 0, 0, 0, 0, 0, 0, 0, 0, 0, 0, 0, 0, 0, 0, 0, 0, 0, 0, 0, 0, 0, 0, 0, 0, 0, 0, 0, 0, 0, 0, 0, 0, 0, 0, 0, 0, 0, 0, 0, 0, 0, 0, 0, 0, 0, 0, 0, 0, 0, 0, 0, 0, 0, 0, 0, 0, 0, 0, 0, 0], [5, 0, 0, 0, 0, 0, 0, 0, 0, 0, 0, 0, 0, 0, 0, 0, 0, 0, 0, 0, 0, 0, 240, 63, 0, 0, 0, 0, 0, 0, 0, 0, 10, 0, 100, 0, 0, 0, 0, 0, 0, 0, 0, 0, 0, 0, 0, 0, 0, 0, 0, 0, 0, 0, 0, 0], [3, 2, 0, 0, 3, 3, 1, 1, 0, 0, 1, 0, 1, 0, 1, 2], by decide +kernel⟩,
   ⟨(put tUp [(Reg.HUB_MODE_MODE, 2)]), true, [2, 0, 255, 0, 0, 0, 0, 0, 0, 0, 0, 0, 0, 0, 0, 0, 0, 0, 0, 0, 0, 0, 0, 0, 0, 0, 0, 0, 0, 0, 0, 0, 0, 0, 0, 0, 0, 0, 0, 0, 0, 0, 0, 0, 0, 0, 0, 0, 0, 0, 0, 0, 0, 0, 0, 0, 0, 0, 0, 0, 0, 0, 0, 0], [3, 5], [0, 0, 16, 0, 0, 0, 0, 0, 17, 0, 0, 0, 0, 0, 0, 0], by decide +kernel⟩,
   ⟨{ (put State.reset [(Reg.KN_BANK_STATE_TRIAL, 1)]) with hub := { proofSince := (some 0), proofDone := 147456000000 } }, by decide +kernel⟩,
   ⟨(put tUp [(Reg.HUB_MODE_MODE, 0)]), by decide +kernel⟩,
   ⟨tUp, by decide +kernel⟩,
   ⟨{ State.reset with kn := { identBy := (some 5) } }, 5, by decide +kernel⟩,
   ⟨State.reset, [26, 27], by decide +kernel⟩⟩

theorem witness_ModeRequests :
    (∃ (s : State) (h : CmdHdr) (target : Nat), byRing s h ∧ s.hub.trigs = [] ∧ s.levelActs = false ∧ target ≠ s.mode ∧
     (¬(target = mRUN ∧ s.mode = mDEGRADED)) ∧ s.barred = true) ∧
    (∃ (s : State) (h : CmdHdr), byRing s h ∧ s.hub.trigs = [] ∧ s.levelActs = false ∧ s.sampling = true ∧
     s.mode ≠ mDEGRADED) ∧
    (∃ (s : State) (h : CmdHdr) (target : Nat), byRing s h ∧ s.hub.trigs = [] ∧ s.levelActs = false ∧ target ≠ s.mode ∧
     (¬(target = mRUN ∧ s.mode = mDEGRADED)) ∧ s.sampling = true ∧ target ≠ mDEGRADED ∧ target ≤ 7 ∧ s.permitted target = false) ∧
    (∃ (s : State) (h : CmdHdr) (target : Nat), byRing s h ∧ s.hub.trigs = [] ∧ s.levelActs = false ∧
     judgeReq s target = ReqAns.go) ∧
    (∃ (s : State) (src : WrSrc), s.takes src RegId.HUB_MODE_REQ 0 0 false = true ∧ s.hub.trigs = [] ∧ s.levelActs = false ∧
     s.rd Reg.HUB_MODE_REQ_TARGET = s.mode) ∧
    (∃ (s : State) (src : WrSrc) (st : Status), s.takes src RegId.HUB_MODE_REQ 0 0 false = true ∧ s.hub.trigs = [] ∧
     s.levelActs = false ∧ judgeReq s (s.rd Reg.HUB_MODE_REQ_TARGET) = ReqAns.refused st) ∧
    (∃ (s : State) (src : WrSrc), s.takes src RegId.HUB_MODE_REQ 0 0 false = true ∧ s.hub.trigs = [] ∧ s.levelActs = false ∧
     judgeReq s (s.rd Reg.HUB_MODE_REQ_TARGET) = ReqAns.go) :=
  ⟨⟨(put tUp [(Reg.HUB_MODE_MODE, 2)]), { tHdr with tag := 106, opcode := 24, index := 6 }, 4, by unfold byRing; decide +kernel⟩,
   ⟨tUp, { tHdr with tag := 155, opcode := 59, index := 1 }, by unfold byRing; decide +kernel⟩,
   ⟨tUp, { tHdr with opcode := 118, quiet := true, index := 6 }, 1, by unfold byRing; decide +kernel⟩,
   ⟨tUp, { tHdr with tag := 197, opcode := 110, quiet := true, inst := (.edge 3299), index := 3 }, 4, by unfold byRing; decide +kernel⟩,
   ⟨(put tUp [(Reg.HUB_MODE_MODE, 3)]), .cfg, by decide +kernel⟩,
   ⟨State.reset, .direct, Sys2Proof.Status.modeForbids, by decide +kernel⟩,
   ⟨(put tUp [(Reg.HUB_MODE_MODE, 4)]), .direct, by decide +kernel⟩⟩

theorem witness_ModeChange :
    (∃ (s : State) (c : Nat), c < 256 ∧ s.hub.trigs = [Trig.boot c] ∧ s.mode < 8) ∧
    (∃ (s : State), s.hub.trigs = [Trig.steps] ∧ s.mode = mBOOT) ∧
    (∃ (s : State), s.hub.trigs = [] ∧ s.mode = mRUN ∧ s.critical = false ∧ s.stowHeld = false ∧ s.anyPartLost = true) ∧
    (∃ (s : State), s.hub.trigs = [] ∧ s.mode = mDEGRADED ∧ s.critical = false ∧ s.stowHeld = false ∧ s.anyPartLost = false) ∧
    (∃ (s : State) (d : Nat), d < 30 ∧ s.hub.trigs = [Trig.lowFeeds] ∧ s.mode ≠ mDORMANT) ∧
    (∃ (s : State) (a : Nat), a < 16 ∧ s.critical = true ∧ s.hub.trigs = [] ∧ (s.active3 = true ∨ s.mode = mSTOW)) ∧
    (∃ (s : State), s.hub.trigs = [] ∧ s.mode = mSAFE) :=
  ⟨⟨{ State.reset with hub := { trigs := [Sys2Proof.Machine.Trig.boot 0] } }, 0, by decide +kernel⟩,
   ⟨{ State.reset with hub := { trigs := [Sys2Proof.Machine.Trig.steps] } }, by decide +kernel⟩,
   ⟨(put tUp [(Reg.HUB_PART_STATE_FIELD 3, 2)]), by decide +kernel⟩,
   ⟨(put tUp [(Reg.HUB_MODE_MODE, 6)]), by decide +kernel⟩,
   ⟨{ State.reset with hub := { trigs := [Sys2Proof.Machine.Trig.lowFeeds] } }, 6, by decide +kernel⟩,
   ⟨(put tUp [(Reg.PW_BOOK_DEFICIT_MS 3, 3)]), 1, by decide +kernel⟩,
   ⟨(put tUp [(Reg.HUB_MODE_MODE, 3)]), by decide +kernel⟩⟩

theorem witness_ModeInputs :
    (∃ (s : State), s.stowHeld = false ∧ s.mode ≠ mSAFE) ∧
    (∃ (s : State), s.mode = mSAFE ∧ s.hub.stowIgnored = false) ∧
    (∃ (s : State) (a : Nat), a < 16 ∧ s.mode = mSTOW ∧ (s.axis a).stowing = true ∧
     s.elapsed s.hub.modeAt (max 1 (s.rd Reg.HUB_GUARD_STOW_TIME) * cclkSec) = true) ∧
    (∃ (s : State) (i : Nat) (x : Machine.Stream), s.stream i = some x ∧ s.sampling = true ∧ s.openStreams = [i] ∧
     x.defn.reduce = 1 ∧ x.defn.clockArg + x.defn.redArg < 6) ∧
    (∃ (s : State) (t0 n a : Nat), s.hub.isoSince = some t0 ∧ s.isoTime = some n ∧ a < 16 ∧ s.active3 = true ∧
     s.elapsed (max t0 s.hub.activeSince) n = true ∧ s.hub.trigs.contains Trig.isolation = false) ∧
    (∃ (s : State), s.mode ≠ mDORMANT ∧ s.feedState 0 ≠ 2 ∧ s.feedState 1 ≠ 2 ∧ s.elapsed (s.feedChg 0) (10 * cclkMs) = true ∧
     s.elapsed (s.feedChg 1) (10 * cclkMs) = true) :=
  ⟨⟨tUp, by decide +kernel⟩,
   ⟨(put tUp [(Reg.HUB_MODE_MODE, 3)]), by decide +kernel⟩,
   ⟨{ (put tUp [(Reg.HUB_MODE_MODE, 7)]) with run := 29491200000, dv := { axes := [(4, { stowing := true })] } }, 4, by decide +kernel⟩,
   ⟨{ (put tUp [(Reg.HUB_MODE_MODE, 4)]) with rd_ := { streams := [(3, (some { defn := { tDef with id := 4, kind := 2, clock := 1, reduce := 1, redArg := 1, stat := 2, format := 6, recAge := 1, cj := 1, ra := 1, trig := 1, trigFlag := 1 }, raw := [0, 0, 0, 0, 0, 0, 0, 0], buf := 3, openAt := 0, next := 6, conf := 56583, stowed := true, prevFlags := 6 }))] } }, 3, { defn := { tDef with id := 4, kind := 2, clock := 1, reduce := 1, redArg := 1, stat := 2, format := 6, recAge := 1, cj := 1, ra := 1, trig := 1, trigFlag := 1 }, raw := [0, 0, 0, 0, 0, 0, 0, 0], buf := 3, openAt := 0, next := 6, conf := 56583, stowed := true, prevFlags := 6 }, by decide +kernel⟩,
   ⟨{ tUp with hub := { isoSince := (some 1), starting := false } }, 1, 491520000, 6, by decide +kernel⟩,
   ⟨tUp, by decide +kernel⟩⟩

theorem witness_Feeds :
    (∃ (s : State) (f v : Nat), f < 2 ∧ v < 2 ^ 16 ∧ v < 1800) ∧
    (∃ (s : State) (f v : Nat), f < 2 ∧ v < 2 ^ 16 ∧ 7800 < v) ∧
    (∃ (s : State) (f v : Nat), f < 2 ∧ v < 2 ^ 16 ∧ 3500 ≤ v ∧ v < 7600) ∧
    (∃ (s : State) (f v : Nat), f < 2 ∧ v < 2 ^ 16 ∧ 1800 ≤ v ∧ v < 3300) ∧
    (∃ (s : State) (f v : Nat), f < 2 ∧ v < 2 ^ 16 ∧ s.feedState f < 4 ∧ 3300 ≤ v ∧ v < 3500) ∧
    (∃ (s : State) (f v : Nat), f < 2 ∧ v < 2 ^ 16 ∧ s.feedState f < 4 ∧ 7600 ≤ v ∧ v ≤ 7800) ∧
    (∃ (s : State) (f : Nat), f < 2 ∧ s.feedState f ≠ 2 ∧ s.feedLost f = false ∧ s.elapsed (s.feedChg f) cclkMs = true) ∧
    (∃ (s : State) (f : Nat), f < 2 ∧ s.feedState f = 2 ∧ s.feedLost f = true ∧ s.feedHeld f = false ∧
     (s.slot (20 + f)).serviceCmd = none ∧ s.elapsed (s.feedChg f) cclkSec = true) :=
  ⟨⟨tUp, 1, 0, by decide +kernel⟩,
   ⟨tUp, 0, 65535, by decide +kernel⟩,
   ⟨tUp, 1, 3500, by decide +kernel⟩,
   ⟨tUp, 1, 1800, by decide +kernel⟩,
   ⟨(put tUp [(Reg.HUB_MODE_MODE, 3)]), 1, 3499, by decide +kernel⟩,
   ⟨tUp, 1, 7800, by decide +kernel⟩,
   ⟨tUp, 1, by decide +kernel⟩,
   ⟨{ (put tUp [(Reg.PW_BOOK_FREE 3, 2)]) with pw := { lostB := true } }, 1, by decide +kernel⟩⟩

theorem witness_CardsAndSlots :
    (∃ (s : State) (p variant hwrev serial : Nat), p < 22 ∧ variant < 256 ∧ hwrev < 256 ∧ (s.slot p).card = false ∧
     (s.slot p).panel = false ∧ cardFits p variant = false) ∧
    (∃ (s : State) (p variant hwrev serial q : Nat), p < 22 ∧ variant < 256 ∧ hwrev < 256 ∧ (s.slot p).card = false ∧
     (s.slot p).panel = false ∧ cardFits p variant = true ∧ (∀ (d : Nat), partDom p = some d → s.domOn d = false) ∧ (p = 18 → s.domOn 19 = false) ∧
     q ≠ p) ∧
    (∃ (s : State) (p variant hwrev serial d : Nat), p < 22 ∧ variant < 256 ∧ hwrev < 256 ∧ partDom p = some d ∧
     (s.slot p).card = false ∧ (s.slot p).panel = false ∧ cardFits p variant = true ∧ (∀ (d : Nat), partDom p = some d → s.domOn d = false) ∧
     (p = 18 → s.domOn 19 = false) ∧ s.hub.aon = true ∧ p < 20 ∧ s.listed p = true ∧ (s.slot p).takenOut = false ∧ s.sampling = true) ∧
    (∃ (s : State) (p d : Nat), p < 22 ∧ partDom p = some d ∧ (s.slot p).card = true ∧ s.hub.aon = true) ∧
    (∃ (s : State) (p : Nat), p < 22 ∧ (s.slot p).card = true ∧ s.hub.aon = true ∧ (s.slot p).takenOut = false) ∧
    (∃ (s : State) (p : Nat) (fitted : Bool), fitted = true ∧ (p < 22 ∨ 24 ≤ p ∧ p < 28) ∧ (s.slot p).card = false ∧
     (s.slot p).panel ≠ fitted ∧ s.hub.aon = true) ∧
    (∃ (s : State) (p d : Nat) (bad : List Nat), partDom p = some d ∧ (p < 20 ∨ p = 28 ∨ p = 29) ∧
     (s.slot p).entering = true ∧ s.domOn d = true ∧ s.sampling = true ∧ (s.slot p).serviceCmd = none ∧ (p = 18 ∨ p = 28 ∨ p = 29)) ∧
    (∃ (s : State) (p d : Nat) (bad : List Nat), partDom p = some d ∧ (p < 20 ∨ p = 28 ∨ p = 29) ∧
     (s.slot p).entering = true ∧ s.domOn d = true ∧ s.sampling = true ∧ (s.slot p).serviceCmd = none ∧ axisFails s (p - 16) bad = false) ∧
    (∃ (s : State) (p d a : Nat), p < 20 ∧ p = 18 ∧ partDom p = some d ∧ a < 16 ∧ (s.slot p).card = true ∧
     s.domOn d = true) ∧
    (∃ (s : State) (p d : Nat), p < 20 ∧ partDom p = some d ∧ s.inService (partEntry p) = true) ∧
    (∃ (s : State) (p : Nat) (w : List Nat), p < 16 ∧ (s.slot p).standby = some w ∧ s.turning p = true) ∧
    (∃ (s : State) (p : Nat) (w : List Nat), (s.slot p).standby = some w ∧ (p < 20 ∨ p = 28 ∨ p = 29) ∧
     (s.slot p).held = [] ∧ (s.slot p).heldCmds = [] ∧ s.pendingBank = none ∧ (s.slot p).serviceCmd = none ∧ (p < 16 → s.turning p = false)) ∧
    (∃ (s : State) (p : Nat), s.inService 26 = true ∧ s.inService 27 = true ∧ s.hp.inflight = [] ∧ s.takes_ = [] ∧
     (∀ (n : Nat), n < 32 → s.lkHeld n = false) ∧ s.activeMp < 2) :=
  ⟨⟨tUp, 0, 24, 6, 0, by decide +kernel⟩,
   ⟨tUp, 21, 255, 255, 6, 0, by decide +kernel⟩,
   ⟨(put State.reset [(Reg.HUB_MODE_MODE, 5)]), 5, 3, 255, 3, 5, by decide +kernel⟩,
   ⟨{ State.reset with hub := { slots := [(0, { card := true })] } }, 0, 0, by decide +kernel⟩,
   ⟨{ State.reset with hub := { slots := [(5, { card := true })] } }, 5, by decide +kernel⟩,
   ⟨tUp, 7, true, by decide +kernel⟩,
   ⟨{ tUp with hub := { slots := [(28, { entering := true })], starting := false } }, 28, 28, [1], by decide +kernel⟩,
   ⟨{ tUp with hub := { slots := [(8, { entering := true })], starting := false } }, 8, 8, [7], by decide +kernel⟩,
   ⟨{ tUp with hub := { slots := [(18, { card := true })], starting := false } }, 18, 18, 15, by decide +kernel⟩,
   ⟨tUp, 4, 4, by decide +kernel⟩,
   ⟨{ (put State.reset [(Reg.FC_SPARE_STAT_PHASE 0, 2)]) with hub := { slots := [(0, { standby := (some []) })] } }, 0, [], by decide +kernel⟩,
   ⟨{ State.reset with hub := { slots := [(4, { standby := (some []) })] } }, 4, [], by decide +kernel⟩,
   ⟨tUp, 7, by decide +kernel⟩⟩

theorem witness_CardService :
    (∃ (s : State) (h : CmdHdr) (p : Nat) (i : Instr), i ∈ [Instr.cardServiceOut h p, Instr.cardServiceIn h p, Instr.cardServiceRestart h p, Instr.cardServiceUpdate h p, Instr.domainOff h p, Instr.domainOn h p] ∧
     byRing s h ∧ s.barred = true) ∧
    (∃ (s : State) (h : CmdHdr) (p : Nat) (i : Instr), i ∈ [Instr.cardServiceOut h p, Instr.cardServiceIn h p, Instr.cardServiceRestart h p, Instr.cardServiceUpdate h p] ∧
     byRing s h ∧ s.barred = false ∧ partByte p = false) ∧
    (∃ (s : State) (h : CmdHdr) (p : Nat) (i : Instr), i ∈ [Instr.domainOff h p, Instr.domainOn h p] ∧ byRing s h ∧
     s.barred = false ∧ 30 ≤ p) ∧
    (∃ (s : State) (h : CmdHdr) (p : Nat) (i : Instr), i ∈ [Instr.cardServiceOut h p, Instr.cardServiceRestart h p] ∧
     byRing s h ∧ s.barred = false ∧ partByte p = true ∧ s.outForbidden p = true) ∧
    (∃ (s : State) (h : CmdHdr) (p : Nat), p < 16 ∧ byRing s h ∧ s.barred = false ∧ partByte p = true ∧
     s.outForbidden p = false ∧ s.inService p = true ∧ (s.slot p).serviceCmd = none ∧ (s.slot p).heldCmds = []) ∧
    (∃ (s : State) (h : CmdHdr) (p : Nat), p < 22 ∧ byRing s h ∧ s.barred = false ∧ partByte p = true ∧
     s.outForbidden p = false ∧ 20 ≤ p ∧ s.inService p = true) ∧
    (∃ (s : State) (h : CmdHdr) (p : Nat), byRing s h ∧ s.barred = false ∧ partByte p = true ∧
     s.inService (partEntry p) = true ∧ (28 ≤ p ∨ (s.slot p).card = true)) ∧
    (∃ (s : State) (h : CmdHdr) (p d : Nat), p < 20 ∧ partDom p = some d ∧ byRing s h ∧ s.barred = false ∧
     (s.slot p).card = true ∧ s.rd (partFld (partEntry p)) = pOUT ∧ (s.slot p).serviceCmd = none ∧ (s.slot p).entering = false ∧ s.domOn d = false) ∧
    (∃ (s : State) (h : CmdHdr) (p : Nat), byRing s h ∧ s.barred = false ∧ (p < 16 ∨ p = 19) ∧
     s.inService (partEntry p) = true ∧ (s.slot p).standby = none) ∧
    (∃ (s : State) (h : CmdHdr) (p : Nat), p < 30 ∧ byRing s h ∧ s.barred = false ∧ s.domOn p = true ∧
     s.needsDomain p = true) ∧
    (∃ (s : State) (h : CmdHdr) (p : Nat), p < 30 ∧ byRing s h ∧ s.barred = false ∧ s.needsDomain p = false) ∧
    (∃ (s : State) (h : CmdHdr) (p : Nat), p < 30 ∧ byRing s h ∧ s.barred = false ∧ s.domOn p = false) :=
  ⟨⟨(put tUp [(Reg.HUB_MODE_MODE, 2)]), { tHdr with tag := 168, quiet := true, index := 5 }, 7800, (Instr.cardServiceRestart { tag := 168, opcode := 5, quiet := true, inst := Inst.none, index := 5, via := Via.ring } 7800), by unfold byRing; decide +kernel⟩,
   ⟨tUp, { tHdr with tag := 216, opcode := 60, inst := (.beat 2), index := 0 }, 30919, (Instr.cardServiceOut { tag := 216, opcode := 60, quiet := false, inst := Inst.beat 2, index := 0, via := Via.ring } 30919), by unfold byRing; decide +kernel⟩,
   ⟨tUp, { tHdr with tag := 181, index := 1 }, 45, (Instr.domainOn { tag := 181, opcode := 5, quiet := false, inst := Inst.none, index := 1, via := Via.ring } 45), by unfold byRing; decide +kernel⟩,
   ⟨tUp, { tHdr with tag := 3, opcode := 23, index := 6 }, 20, (Instr.cardServiceRestart { tag := 3, opcode := 23, quiet := false, inst := Inst.none, index := 6, via := Via.ring } 20), by unfold byRing; decide +kernel⟩,
   ⟨(put tUp [(Reg.PW_FEED_STATE 0, 2), (Reg.PW_BOOK_FREE 3, 2)]), { tHdr with tag := 184, opcode := 100, quiet := true, index := 3 }, 15, by unfold byRing; decide +kernel⟩,
   ⟨(put tUp [(Reg.PW_FEED_STATE 0, 2), (Reg.PW_BOOK_FREE 3, 2)]), { tHdr with tag := 37, opcode := 29, quiet := true, index := 1 }, 21, by unfold byRing; decide +kernel⟩,
   ⟨tUp, { tHdr with tag := 187, opcode := 26, index := 7 }, 29, by unfold byRing; decide +kernel⟩,
   ⟨{ (put tUp [(Reg.HUB_PART_STATE_FIELD 0, 2), (Reg.PW_DOMAIN_STAT_ON, 1073741822)]) with hub := { slots := [(0, { card := true })], starting := false } }, { tHdr with tag := 121, opcode := 81, quiet := true, index := 3 }, 0, 0, by unfold byRing; decide +kernel⟩,
   ⟨tUp, { tHdr with tag := 199, opcode := 60, inst := (.edge 393536), index := 0 }, 8, by unfold byRing; decide +kernel⟩,
   ⟨(put tUp [(Reg.HUB_MODE_MODE, 4)]), { tHdr with tag := 11, opcode := 123, index := 0 }, 27, by unfold byRing; decide +kernel⟩,
   ⟨tUp, { tHdr with tag := 157, opcode := 36, quiet := true, inst := (.beat 126), index := 7 }, 1, by unfold byRing; decide +kernel⟩,
   ⟨(put tUp [(Reg.PW_DOMAIN_STAT_ON, 536870911)]), { tHdr with tag := 179, opcode := 92, quiet := true, inst := (.edge 11), index := 0 }, 29, by unfold byRing; decide +kernel⟩⟩

theorem witness_ReferenceMachine :
    (∃ (s : State) (k : Nat), k < 3 ∧ s.qualified k = true ∧ s.tbState = tbLOCKED ∧ s.tbRef ≠ k ∧
     (k = clsLINK → s.leads = true)) ∧
    (∃ (s : State) (k : Nat), k < 2 ∧ s.qualified k = true ∧ s.tbState = tbLOCKED ∧ s.tbRef = k ∧
     (∀ (j : Nat), j < 3 → j ≠ k → s.qualified j = false)) ∧
    (∃ (s : State) (k : Nat) (ofs : Int) (since : Nat), k < 3 ∧ ofs < 2 ^ 31 ∧
     Sparse.get 0 k s.tb.qualSince = since + 1 ∧ s.elapsed since (10 * cclkSec) = true ∧ s.classOpen k = true ∧ s.tb.oven = true ∧
     s.qualified k = false ∧ s.refMeets k = true ∧ s.tbState = tbACQUIRE ∧ -2 ^ 31 ≤ ofs) ∧
    (∃ (s : State) (k : Nat) (ofs : Int) (since : Nat), k < 3 ∧ Sparse.get 0 k s.tb.qualSince = since + 1 ∧
     s.elapsed since (10 * cclkSec) = true ∧ s.classOpen k = true ∧ s.tb.oven = true ∧ s.qualified k = false ∧ s.refMeets k = true ∧
     s.tbState = tbLOCKED ∧ s.inSlew ofs = false ∧ s.tb.disagreed.contains k = false) ∧
    (∃ (s : State), s.tbState = tbSWITCHING ∧ s.tb.slewEnd ≤ s.run) ∧
    (∃ (s : State), s.flag Reg.TB_STATE_LOCKOUT = true ∧ s.tb.lockEnd ≤ s.run ∧ s.tbState ≠ tbLOCKED) ∧
    (∃ (s : State) (cyc : Nat) (ofs : Int), (cyc < 9999999 ∨ 10000001 < cyc) ∧ s.qualified clsEXT = false) ∧
    (∃ (s : State) (cyc : Nat) (ofs : Int), 9999999 ≤ cyc ∧ cyc ≤ 10000001 ∧ s.qualified clsEXT = false ∧
     s.classOpen clsEXT = true ∧ s.tb.oven = true ∧ s.todValid = true ∧ Sparse.get 0 clsEXT s.tb.qualSince = 0) ∧
    (∃ (s : State) (cyc : Nat) (m ofs : Int), 9999999 ≤ cyc ∧ cyc ≤ 10000001 ∧ s.qualified clsEXT = true ∧
     s.tbState = tbLOCKED ∧ s.tbRef = clsPTP ∧ s.rdS Reg.TB_EXT_DELAY_DELAY = 1000 * m ∧ -2 ^ 31 ≤ ofs - 256 * m ∧ ofs - 256 * m < 2 ^ 31) ∧
    (∃ (s : State) (udp : Bool) (domain cls : Nat) (ofs : Option Int) (type : Nat) (vlan : Option Nat), (udp ≠ s.flag Reg.TB_PTP_CFG_TRANSPORT ∨ domain ≠ s.rd Reg.TB_PTP_CFG_DOMAIN)) ∧
    (∃ (s : State) (cls : Nat) (ofs : Option Int), (cls = 6 ∨ cls = 7)) ∧
    (∃ (s : State) (vlan : Option Nat) (type cls : Nat) (ofs : Option Int), vlan ≠ s.ptpVlan) ∧
    (∃ (s : State) (type cls : Nat), (type = 1 ∨ type = 2) ∧ s.qualified clsPTP = false ∧ s.tb.ptpMaster = true ∧
     Sparse.get 0 clsPTP s.tb.qualSince = 0 ∧ s.classOpen clsPTP = true ∧ s.tb.oven = true) ∧
    (∃ (s : State), s.tbState = tbHOLDOVER ∧ (s.run - s.tb.holdSince) / cclkSec = 86400 ∧
     s.rd Reg.TB_HOLD_LIMIT < 65536) :=
  ⟨⟨(put tUp [(Reg.TB_STATE_STATE, 1), (Reg.TB_STATE_QUAL, 2)]), 1, by decide +kernel⟩,
   ⟨(put tUp [(Reg.TB_STATE_STATE, 1), (Reg.TB_STATE_REF, 0), (Reg.TB_STATE_QUAL, 1)]), 0, by decide +kernel⟩,
   ⟨{ (put tUp [(Reg.TB_STATE_STATE, (Reg.TB_STATE_STATE).rst)]) with tb := { qualSince := [(0, 2)], oven := true } }, 0, 6, 1, by decide +kernel⟩,
   ⟨{ (put tUp [(Reg.TB_STATE_STATE, 1)]) with tb := { qualSince := [(0, 2)], oven := true } }, 0, 6000018, 1, by decide +kernel⟩,
   ⟨tUp, by decide +kernel⟩,
   ⟨(put tUp [(Reg.TB_STATE_LOCKOUT, 1)]), by decide +kernel⟩,
   ⟨tUp, 4, 2400, by decide +kernel⟩,
   ⟨{ tUp with tb := { oven := true } }, 10000000, 0, by decide +kernel⟩,
   ⟨(put tUp [(Reg.TB_STATE_STATE, 1), (Reg.TB_STATE_REF, 1), (Reg.TB_STATE_QUAL, 1), (Reg.TB_EXT_DELAY_DELAY, 1500000)]), 10000000, 1500, 5, by decide +kernel⟩,
   ⟨tUp, false, 131, 5, (some 5000015), 28473, (some 2), by decide +kernel⟩,
   ⟨tUp, 6, (some 2400), by decide +kernel⟩,
   ⟨tUp, (some 2), 7, 0, (some (-6)), by decide +kernel⟩,
   ⟨{ tUp with tb := { oven := true, ptpMaster := true } }, 2, 7, by decide +kernel⟩,
   ⟨{ (put tUp [(Reg.TB_STATE_STATE, 3)]) with run := 21233664000000 }, by decide +kernel⟩⟩

theorem witness_TimeAndScheduler :
    (∃ (s : State) (sec k : Nat), k < 4 ∧ s.tb.stepTo = some k ∧ s.openStreams = [] ∧ s.tb.sched = [] ∧
     s.domOn 16 = false ∧ s.domOn 17 = false) ∧
    (∃ (s : State), s.flag Reg.TB_TOD_SET_ARM = true ∧ (s.tbState = tbACQUIRE ∨ s.tbState = tbFREE) ∧
     s.rd Reg.TB_TOD_SET_SECONDS = s.now / cclkSec) ∧
    (∃ (s : State), s.flag Reg.TB_TOD_SET_ARM = true ∧ s.tbState ≠ tbACQUIRE ∧ s.tbState ≠ tbFREE) ∧
    (∃ (s : State) (h : CmdHdr) (q : Sched), s.tb.sched = [q] ∧ q.act = Act.nop h ∧ q.at_ ≤ s.now ∧ byRing s h ∧
     carried s h) ∧
    (∃ (s : State) (q : Sched), s.tb.sched = [q] ∧ s.now < q.at_) ∧
    (∃ (s : State) (w : Nat) (o : Bool) (g : Nat), w < 4 ∧ g < 16 ∧ bit s.fc.lines (4 + w) ≠ o) ∧
    (∃ (s : State) (hub gen e : Nat), hub < 64 ∧ gen < 64 ∧ s.now ≤ e ∧ s.tb.sched = []) :=
  ⟨⟨{ State.reset with tb := { stepTo := (some 3) } }, 48, 3, by decide +kernel⟩,
   ⟨(put State.reset [(Reg.TB_TOD_SET_ARM, 1)]), by decide +kernel⟩,
   ⟨(put tUp [(Reg.TB_TOD_SET_ARM, 1)]), by decide +kernel⟩,
   ⟨{ tUp with tb := { sched := [{ at_ := 7, kind := 1, seq := 1, act := (.nop tHdr) }] }, hp := { inflight := [{ hdr := tHdr, begun := false }] } }, tHdr, { at_ := 7, kind := 1, seq := 1, act := (.nop tHdr) }, by unfold byRing carried; decide +kernel⟩,
   ⟨{ State.reset with tb := { sched := [{ at_ := 7, kind := 0, seq := 0, act := (.nop tHdr) }] } }, { at_ := 7, kind := 0, seq := 0, act := (.nop tHdr) }, by decide +kernel⟩,
   ⟨tUp, 0, true, 11, by decide +kernel⟩,
   ⟨State.reset, 0, 17, 393536, by decide +kernel⟩⟩

theorem witness_CounterClears :
    (∃ (s : State) (src : WrSrc) (clr : Nat), s.takes src RegId.TB_CNT_CLR 0 0 false = true) ∧
    (∃ (s : State) (src : WrSrc) (clr : Nat), s.takes src RegId.MT_CNT_CLR 0 0 false = true) ∧
    (∃ (s : State) (src : WrSrc) (clr : Nat), s.takes src RegId.LE_CNT_CLR 0 0 false = true) ∧
    (∃ (s : State) (src : WrSrc) (clr : Nat), s.takes src RegId.DV_CNT_CLR 0 0 false = true) ∧
    (∃ (s : State) (src : WrSrc) (clr : Nat), s.takes src RegId.AO_CNT_CLR 0 0 false = true) ∧
    (∃ (s : State) (src : WrSrc) (clr : Nat), s.takes src RegId.PW_CNT_CLR 0 0 false = true) ∧
    (∃ (s : State) (src : WrSrc) (clr : Nat), s.takes WrSrc.direct RegId.HP_CNT_CLR 0 0 false = true) ∧
    (∃ (s : State) (src : WrSrc) (clr : Nat), s.takes src RegId.BQ_CNT_CLR 0 0 false = true) ∧
    (∃ (s : State) (src : WrSrc) (clr : Nat), s.takes src RegId.LK_CNT_CLR 0 0 false = true) ∧
    (∃ (s : State) (src : WrSrc) (clr : Nat), s.takes src RegId.KN_CNT_CLR 0 0 false = true) ∧
    (∃ (s : State) (src : WrSrc) (clr : Nat), s.takes src RegId.RS_CNT_CLR 0 0 false = true) ∧
    (∃ (s : State) (src : WrSrc) (clr l : Nat) (f : Fld), l < 8 ∧ f ∈ laneCnts l ∧
     s.takes src RegId.OV_CNT_CLR 0 0 false = true ∧ bit clr 4 = true) ∧
    (∃ (s : State) (src : WrSrc) (clr : Nat), s.takes src RegId.OV_CNT_CLR 0 0 false = true ∧ bit clr 4 = false) ∧
    (∃ (s : State) (src : WrSrc) (clr f clr c : Nat), f < 16 ∧ c < 32 ∧ s.takes src RegId.FC_CNT_CLR f 0 false = true ∧
     bit clr 4 = true) ∧
    (∃ (s : State) (src : WrSrc) (clr f clr g : Nat), f < 16 ∧ g < 16 ∧ s.takes src RegId.FC_CNT_CLR f 0 false = true ∧
     bit clr 5 = true) ∧
    (∃ (s : State) (src : WrSrc) (clr f clr : Nat), f < 16 ∧ s.takes src RegId.FC_CNT_CLR f 0 false = true ∧
     bit clr 4 = false ∧ bit clr 5 = false) ∧
    (∃ (s : State) (src : WrSrc) (clr f clr : Nat), f < 16 ∧ s.takes src RegId.FC_SPARE_CNT_CLR f 0 false = true) ∧
    (∃ (s : State) (src : WrSrc) (clr c : Nat) (f : Fld), c < 32 ∧ f ∈ rdcCnts c ∧
     s.takes src RegId.RDC_CTRL (c / 16) (c % 16) true = true) ∧
    (∃ (s : State) (src : WrSrc) (clr i : Nat) (f : Fld), i < 16 ∧ f ∈ pfiCnts i ∧
     s.takes src RegId.PFI_CTRL (i / 8) (i % 8) true = true) ∧
    (∃ (s : State) (src : WrSrc) (clr e : Nat), e < 16 ∧ s.takes src RegId.EE_CTRL (e / 8) (e % 8) true = true) ∧
    (∃ (s : State) (src : WrSrc) (clr p : Nat), p < 8 ∧ s.takes src RegId.PFI_PB_CFG (p / 4) (p % 4) true = true) :=
  ⟨⟨State.reset, .direct, 1, by decide +kernel⟩,
   ⟨(put tUp [(Reg.HUB_MODE_MODE, 3)]), .direct, 7, by decide +kernel⟩,
   ⟨(put tUp [(Reg.HUB_MODE_MODE, 3)]), .cfg, 4, by decide +kernel⟩,
   ⟨(put tUp [(Reg.HUB_MODE_MODE, 4)]), .cfg, 5, by decide +kernel⟩,
   ⟨(put tUp [(Reg.HUB_MODE_MODE, 3)]), .cfg, 6, by decide +kernel⟩,
   ⟨State.reset, .cfg, 11, by decide +kernel⟩,
   ⟨tUp, .direct, 393536, by decide +kernel⟩,
   ⟨(put tUp [(Reg.HUB_MODE_MODE, 4)]), .direct, 7, by decide +kernel⟩,
   ⟨State.reset, .direct, 3, by decide +kernel⟩,
   ⟨State.reset, .cfg, 14, by decide +kernel⟩,
   ⟨(put tUp [(Reg.HUB_MODE_MODE, 3)]), .cfg, 0, by decide +kernel⟩,
   ⟨State.reset, .direct, 54, 1, { key := 270624, width := 32, rst := 0 }, by decide +kernel⟩,
   ⟨State.reset, .cfg, 14, by decide +kernel⟩,
   ⟨(put tUp [(Reg.HUB_MODE_MODE, 3)]), .cfg, 4, 0, 26, 0, by decide +kernel⟩,
   ⟨(put tUp [(Reg.HUB_MODE_MODE, 3)]), .cfg, 7, 4, 361140, 15, by decide +kernel⟩,
   ⟨(put tUp [(Reg.HUB_MODE_MODE, 3)]), .direct, 45388, 1, 5, by decide +kernel⟩,
   ⟨(put tUp [(Reg.HUB_MODE_MODE, 3)]), .direct, 109, 10, 7, by decide +kernel⟩,
   ⟨(put tUp [(Reg.HUB_MODE_MODE, 4)]), .direct, 282885, 0, { key := 2671648, width := 32, rst := 0 }, by decide +kernel⟩,
   ⟨(put tUp [(Reg.HUB_MODE_MODE, 3)]), .direct, 7, 15, { key := 3032000, width := 32, rst := 0 }, by decide +kernel⟩,
   ⟨(put tUp [(Reg.HUB_MODE_MODE, 3)]), .direct, 2, 1, by decide +kernel⟩,
   ⟨(put tUp [(Reg.HUB_MODE_MODE, 4)]), .cfg, 65536, 2, by decide +kernel⟩⟩

theorem witness_FieldCommits :
    (∃ (s : State) (f : Nat) (src : WrSrc), f < 16 ∧ src = WrSrc.direct ∧ s.takes src RegId.FC_APPLY f 0 true = true ∧
     cfgFault (s.shadow f) (s.stageVariant f) f = none) ∧
    (∃ (s : State) (f : Nat) (src : WrSrc) (k i code : Nat), f < 16 ∧ k < 4 ∧ i < 64 ∧ code < 16 ∧
     cfgFault (s.shadow f) (s.stageVariant f) f = some (k, i, code) ∧ s.takes src RegId.FC_APPLY f 0 true = true) ∧
    (∃ (s : State) (f : Nat) (src : WrSrc) (g : Fld), f < 16 ∧ s.takes src RegId.FC_APPLY f 0 true = true ∧
     stagedKey f g.key = false) ∧
    (∃ (s : State) (f : Nat), f < 16 ∧ nextDue s.run (s.card f).due = none) ∧
    (∃ (s : State) (f : Nat) (c : Commit), f < 16 ∧ (s.card f).due = [c] ∧ c.at_ ≤ s.run ∧ c.full = false ∧
     (s.card f).phase = 0 ∧ (s.slot f).standby = none ∧ s.verifying f = none) ∧
    (∃ (s : State) (f : Nat), f < 16 ∧ (s.card f).phase = 1) ∧
    (∃ (s : State) (f : Nat), f < 16 ∧ (s.card f).phase = 2 ∧ s.flag (Reg.FC_CFG_STAT_QUEUED f) = false) :=
  ⟨⟨(put tUp [(Reg.HUB_MODE_MODE, 4)]), 0, .direct, by decide +kernel⟩,
   ⟨(put tUp [(Reg.HUB_MODE_MODE, 4), (Reg.FC_XPT_ROLE_ROLE 1 2, 5), (Reg.FC_XPT_ROLE_TARGET 1 2, 9)]), 1, .cfg, 0, 2, 5, by decide +kernel⟩,
   ⟨(put tUp [(Reg.HUB_MODE_MODE, 3)]), 15, .cfg, { key := 0, width := 32, rst := 0 }, by decide +kernel⟩,
   ⟨tUp, 10, by decide +kernel⟩,
   ⟨{ tUp with fc := { cards := [(0, { due := [{ cfg := [], at_ := 1, scheduled := true, full := false, restart := true }] })] } }, 0, { cfg := [], at_ := 1, scheduled := true, full := false, restart := true }, by decide +kernel⟩,
   ⟨{ tUp with fc := { cards := [(6, { phase := 1 })] } }, 6, by decide +kernel⟩,
   ⟨{ tUp with fc := { cards := [(0, { phase := 2 })] } }, 0, by decide +kernel⟩⟩

theorem witness_ChargeResets :
    (∃ (s : State) (f c : Nat), f < 16 ∧ c < 32 ∧ s.takes WrSrc.direct RegId.FC_CH_CTRL f c true = true ∧
     s.act (Reg.FC_CH_CFG_STAGE f c) = 1) ∧
    (∃ (s : State) (f c : Nat), f < 16 ∧ c < 32 ∧ s.takes WrSrc.cfg RegId.FC_CH_CTRL f c true = true ∧
     s.act (Reg.FC_CH_CFG_STAGE f c) = 1 ∧ (s.chan f c).rst = 0 ∧ s.now % cclkBeat = 0) ∧
    (∃ (s : State) (f c : Nat) (src : WrSrc), f < 16 ∧ c < 32 ∧ s.takes src RegId.FC_CH_CTRL f c true = true ∧
     s.act (Reg.FC_CH_CFG_STAGE f c) ≠ 1) ∧
    (∃ (s : State) (f c : Nat) (q : Int), f < 16 ∧ c < 32 ∧ s.act (Reg.FC_CH_CFG_STAGE f c) = 1 ∧
     s.act (Reg.FC_CH_CFG_AUTO_RST f c) = 1 ∧ 900000 ≤ q.natAbs ∧ (s.chan f c).rst = 0 ∧ (s.chan f c).rstDue = none ∧ s.fcUp f = true ∧
     s.now % cclkBeat = 0) ∧
    (∃ (s : State) (f c : Nat) (q : Int), f < 16 ∧ c < 32 ∧ q.natAbs < 900000) ∧
    (∃ (s : State) (f c : Nat), f < 16 ∧ c < 32 ∧ (s.chan f c).rst = 1) ∧
    (∃ (s : State) (f c : Nat) (before after : Int), f < 16 ∧ c < 32 ∧ (s.chan f c).rst = 2 ∧
     (s.chan f c).rstAgain = false ∧ s.act (Reg.FC_CH_CFG_CARRY f c) ≠ 1) ∧
    (∃ (s : State) (f c : Nat) (before after : Int), f < 16 ∧ c < 32 ∧ (s.chan f c).rst = 2 ∧
     (s.chan f c).rstAgain = false ∧ s.act (Reg.FC_CH_CFG_CARRY f c) = 1) ∧
    (∃ (s : State) (f c : Nat) (before after : Int), f < 16 ∧ c < 32 ∧ (s.chan f c).rst = 2 ∧ (s.chan f c).rstAgain = true) :=
  ⟨⟨{ (put tUp [(Reg.HUB_MODE_MODE, 3)]) with fc := { act := [(802560, 1)] } }, 2, 31, by decide +kernel⟩,
   ⟨{ (put tUp [(Reg.HUB_MODE_MODE, 3)]) with fc := { act := [(802560, 1)] } }, 2, 31, by decide +kernel⟩,
   ⟨(put tUp [(Reg.HUB_MODE_MODE, 3)]), 4, 6, .direct, by decide +kernel⟩,
   ⟨{ tUp with fc := { act := [(925696, 1)] } }, 3, 0, 1799005397, by decide +kernel⟩,
   ⟨tUp, 7, 2, 0, by decide +kernel⟩,
   ⟨{ tUp with fc := { cards := [(3, { chans := [(0, { rst := 1 })] })] } }, 3, 0, by decide +kernel⟩,
   ⟨{ tUp with fc := { cards := [(0, { chans := [(0, { rst := 2 })] })] } }, 0, 0, 1500, (-14), by decide +kernel⟩,
   ⟨{ tUp with fc := { cards := [(0, { chans := [(1, { rst := 2 })] })], act := [(532744, 1)] } }, 0, 1, 1500, 0, by decide +kernel⟩,
   ⟨{ tUp with fc := { cards := [(2, { chans := [(0, { rst := 2, rstAgain := true })] })] } }, 2, 0, 3, 2, by decide +kernel⟩⟩

theorem witness_Excitation :
    (∃ (s : State) (f x : Nat), f < 16 ∧ x < 8 ∧ s.srcOn f x = true ∧ s.flag (Reg.FC_EXC_STAT_LIMITING f x) = false ∧
     s.act (Reg.FC_EXC_CFG_MODE f x) = 3) ∧
    (∃ (s : State) (f x : Nat), f < 16 ∧ x < 8 ∧ s.srcOn f x = true ∧ s.flag (Reg.FC_EXC_STAT_LIMITING f x) = false ∧
     s.act (Reg.FC_EXC_CFG_MODE f x) ≠ 3) ∧
    (∃ (s : State) (f x : Nat), f < 16 ∧ x < 8 ∧ s.srcOn f x = true ∧ s.act (Reg.FC_EXC_CFG_SENSE_EN f x) = 1 ∧
     s.flag (Reg.FC_EXC_STAT_SENSE_LOCAL f x) = false) ∧
    (∃ (s : State) (f x c : Nat) (bs : List (Int × Int × Bool)) (q : Int × Int), f < 16 ∧ x < 8 ∧ c < 32 ∧
     (s.leadMeans f c (s.now - 2 ^ s.act (Reg.FC_EXC_CFG_SWAP_HALF f x) * cclkBeat) bs (s.act (Reg.FC_EXC_CFG_SWAP_SETTLE f x))).fst = some q ∧
     s.act (Reg.FC_EXC_CFG_SWAP f x) ≠ 0 ∧ s.act (Reg.FC_EXC_CFG_MODE f x) = 3 ∧ s.bn % 2 ^ s.act (Reg.FC_EXC_CFG_SWAP_HALF f x) = 0 ∧
     s.act (Reg.FC_CH_CFG_LEAD f c) ≠ 0 ∧ s.act (Reg.FC_CH_CFG_LEAD_SRC f c) = x ∧ bit s.bn (s.act (Reg.FC_EXC_CFG_SWAP_HALF f x)) = false) ∧
    (∃ (s : State) (f x c : Nat) (bs : List (Int × Int × Bool)) (q : Int × Int), f < 16 ∧ x < 8 ∧ c < 32 ∧
     (s.leadMeans f c (s.now - 2 ^ s.act (Reg.FC_EXC_CFG_SWAP_HALF f x) * cclkBeat) bs (s.act (Reg.FC_EXC_CFG_SWAP_SETTLE f x))).fst = some q ∧
     s.act (Reg.FC_EXC_CFG_SWAP f x) ≠ 0 ∧ s.act (Reg.FC_EXC_CFG_MODE f x) = 3 ∧ s.bn % 2 ^ s.act (Reg.FC_EXC_CFG_SWAP_HALF f x) = 0 ∧
     s.act (Reg.FC_CH_CFG_LEAD f c) ≠ 0 ∧ s.act (Reg.FC_CH_CFG_LEAD_SRC f c) = x ∧ bit s.bn (s.act (Reg.FC_EXC_CFG_SWAP_HALF f x)) = true ∧
     (s.chan f c).leadHalf = true ∧ fadd (s.chan f c).leadI q.snd ≠ 0) :=
  ⟨⟨{ tUp with fc := { act := [(792320, 3)] } }, 2, 7, by decide +kernel⟩,
   ⟨{ tUp with fc := { act := [(528384, 1)] } }, 0, 0, by decide +kernel⟩,
   ⟨{ tUp with fc := { act := [(792320, 1), (792323, 1)] } }, 2, 7, by decide +kernel⟩,
   ⟨{ State.reset with fc := { act := [(528384, 3), (528388, 1), (533011, 1)] } }, 0, 0, 2, [((-53652), ((-900000000000), false)), (7, ((-900000000000), true)), (1, (3000009, true))], (1, 3000009), by decide +kernel⟩,
   ⟨{ tUp with now := 675840, fc := { cards := [(1, { chans := [(4, { leadHalf := true })] })], act := [(659456, 3), (659460, 1), (664595, 1)] } }, 1, 0, 4, [((-2), (393537180608, true)), ((-274545), ((-800), false)), (6, ((-800), true))], (6, (-800)), by decide +kernel⟩⟩

theorem witness_FieldMonitors :
    (∃ (s : State) (f c line : Nat) (on : Bool) (g : Nat), f < 16 ∧ c < 32 ∧ line < 2 ∧ g < 16 ∧ bit s.fc.lines line ≠ on) ∧
    (∃ (s : State) (f c line : Nat) (on : Bool) (e : Nat), f < 16 ∧ c < 32 ∧ line < 2 ∧ s.now < e + 61440) ∧
    (∃ (s : State) (f c line : Nat) (on : Bool) (e g : Nat), f < 16 ∧ c < 32 ∧ line < 2 ∧ g < 16 ∧ e + 61440 ≤ s.now ∧
     bit s.fc.lines (2 + line) ≠ on) ∧
    (∃ (s : State) (f c : Nat) (pos neg shield pos' neg' shield' : Int), f < 16 ∧ c < 32 ∧ (s.chan f c).causes = 0 ∧
     s.flag (Reg.FC_CH_STAT_CM_FAULT f c) = false ∧ s.fcUp f = true ∧ pos + neg < 2 * signed 16 (s.act (Reg.FC_CH_CFG_CM_LO f c))) ∧
    (∃ (s : State) (f c : Nat), f < 16 ∧ c < 32 ∧ (s.chan f c).causes = 0 ∧ s.flag (Reg.FC_CH_STAT_OVERRANGE f c) = false) :=
  ⟨⟨tUp, 1, 31, 1, true, 3, by decide +kernel⟩,
   ⟨State.reset, 3, 0, 1, false, 4, by decide +kernel⟩,
   ⟨tUp, 0, 7, 0, true, 6, 6, by decide +kernel⟩,
   ⟨tUp, 1, 2, (-1), (-900000000000), 28, 7, 4, 60057180171, by decide +kernel⟩,
   ⟨tUp, 15, 1, by decide +kernel⟩⟩

theorem witness_SpareRotation :
    (∃ (s : State) (f : Nat) (who : Option Nat) (due : Nat), f < 16 ∧ s.nextTurn f = some (who, due) ∧
     s.spPhase f = spIDLE ∧ s.maskedCh f = none ∧ s.sampling = true ∧ s.fcUp f = true ∧ (s.spare f).refSince = none ∧
     s.flag (Reg.FC_SPARE_CTRL_EN f) = true ∧ (s.spare f).cycleAt.isSome = true ∧ due ≤ s.run ∧ s.hasGrant 1 (80 + f) = false) ∧
    (∃ (s : State) (f : Nat) (who : Option Nat) (due : Nat), f < 16 ∧ who = none ∧ s.nextTurn f = some (who, due) ∧
     s.spPhase f = spIDLE ∧ s.maskedCh f = none ∧ s.sampling = true ∧ s.fcUp f = true ∧ (s.spare f).refSince = none ∧
     s.flag (Reg.FC_SPARE_CTRL_EN f) = true ∧ (s.spare f).cycleAt.isSome = true ∧ due ≤ s.run ∧ s.hasGrant 1 (80 + f) = true) ∧
    (∃ (s : State) (f : Nat) (who : Option Nat) (due c : Nat), f < 16 ∧ s.nextTurn f = some (who, due) ∧ c < 32 ∧
     who = some c ∧ s.spPhase f = spIDLE ∧ s.maskedCh f = none ∧ s.sampling = true ∧ s.fcUp f = true ∧ (s.spare f).refSince = none ∧
     s.flag (Reg.FC_SPARE_CTRL_EN f) = true ∧ (s.spare f).cycleAt.isSome = true ∧ due ≤ s.run ∧ s.hasGrant 1 (80 + f) = true ∧
     (s.spare f).restore = false) ∧
    (∃ (s : State) (f : Nat), f < 16 ∧ s.spPhase f = spPARKED ∧ s.sampling = true ∧ s.fcUp f = true ∧
     (s.spare f).refSince = none ∧ (s.spare f).restore = true ∧ (s.spare f).cycleAt.isSome = true ∧ s.hasGrant 1 (80 + f) = true) ∧
    (∃ (s : State) (f : Nat) (d : Int) (m : Nat), f < 16 ∧ (s.spPhase f = spFWD ∨ s.spPhase f = spRET) ∧
     s.blockReady f = true ∧ s.blockTouched f (s.spCh f) = false ∧ s.blockPasses f (s.spCh f) d m = true ∧ (s.spare f).compared + 1 < s.spVerify f) ∧
    (∃ (s : State) (f : Nat) (d : Int) (m : Nat), f < 16 ∧ s.spPhase f = spFWD ∧ s.blockReady f = true ∧
     s.blockTouched f (s.spCh f) = false ∧ s.blockPasses f (s.spCh f) d m = true ∧ s.spVerify f ≤ (s.spare f).compared + 1 ∧ (s.card f).deferred = []) ∧
    (∃ (s : State) (f : Nat) (d : Int) (m : Nat), f < 16 ∧ s.spPhase f = spRET ∧ s.blockReady f = true ∧
     s.blockTouched f (s.spCh f) = false ∧ s.blockPasses f (s.spCh f) d m = true ∧ s.spVerify f ≤ (s.spare f).compared + 1 ∧ (s.card f).deferred = [] ∧
     (s.spare f).restoring = false) ∧
    (∃ (s : State) (f : Nat) (d : Int) (m : Nat), f < 16 ∧ s.spPhase f = spFWD ∧ s.blockReady f = true ∧
     s.blockTouched f (s.spCh f) = false ∧ s.blockPasses f (s.spCh f) d m = false) ∧
    (∃ (s : State) (f : Nat) (d : Int) (m : Nat), f < 16 ∧ (s.spPhase f = spFWD ∨ s.spPhase f = spRET) ∧
     s.blockReady f = true ∧ (s.spare f).excluded + 1 < 4 * s.spVerify f) ∧
    (∃ (s : State) (f : Nat) (z p n m : List Int) (c code : Nat), f < 16 ∧ c = s.spCh f ∧
     code = s.calVerdict f c (s.setting f c) (Sparse.get { } (s.setting f c) (s.chan f c).coefs) (s.spare f).calFault z p n m ∧ s.spPhase f = spCAL ∧
     s.phaseAged f (2 + 4 * s.calBeats f) = true ∧ s.flag (Reg.FC_SPARE_STAT_REF_DRIFT f) = false ∧ code = 0) ∧
    (∃ (s : State) (f : Nat) (z p n m : List Int) (c code : Nat), f < 16 ∧ c = s.spCh f ∧
     code = s.calVerdict f c (s.setting f c) (Sparse.get { } (s.setting f c) (s.chan f c).coefs) (s.spare f).calFault z p n m ∧ s.spPhase f = spCAL ∧
     s.phaseAged f (2 + 4 * s.calBeats f) = true ∧ s.flag (Reg.FC_SPARE_STAT_REF_DRIFT f) = false ∧ code ≠ 0 ∧ (s.spare f).calFails = 0) ∧
    (∃ (s : State) (f : Nat) (z p : List Int), f < 16 ∧ s.spPhase f = spCHECK ∧ s.phaseAged f 2048 = true ∧
     (s.card f).deferred = [] ∧ checkPasses (Sparse.get { } (s.setting f (s.spCh f)) (s.spare f).coefs) z p = true) ∧
    (∃ (s : State) (f : Nat) (z p : List Int), f < 16 ∧ s.spPhase f = spCHECK ∧ s.phaseAged f 2048 = true ∧
     (s.card f).deferred = [] ∧ checkPasses (Sparse.get { } (s.setting f (s.spCh f)) (s.spare f).coefs) z p = false) ∧
    (∃ (s : State) (f : Nat) (rs : List (Nat × List Int × List Int × List Int × List Int)) (d : Int), f < 16 ∧
     s.spPhase f = spSELF ∧ s.phaseAged f ((s.spare f).selfSet.length * s.calBeats f) = true ∧ s.selfPasses f rs = true ∧ 20000 < d.natAbs) ∧
    (∃ (s : State) (f : Nat) (rs : List (Nat × List Int × List Int × List Int × List Int)) (d : Int), f < 16 ∧
     s.spPhase f = spSELF ∧ s.phaseAged f ((s.spare f).selfSet.length * s.calBeats f) = true ∧ s.selfPasses f rs = false) ∧
    (∃ (s : State) (f : Nat) (src : WrSrc) (ch : Nat), f < 16 ∧ ch < 32 ∧
     s.takes src RegId.FC_SPARE_CTRL f 0 true = true ∧ s.inRotation f ch = true ∧ s.spPhase f ≠ spPARKED ∧ s.spPhase f ≠ spOUT) ∧
    (∃ (s : State) (f : Nat) (src : WrSrc) (ch : Nat), f < 16 ∧ ch < 32 ∧
     s.takes src RegId.FC_SPARE_CTRL f 0 true = true ∧ s.spPhase f = spPARKED ∧ s.rd (Reg.FC_SPARE_STAT_PARKED_CH f) = ch) :=
  ⟨⟨{ tUp with fc := { cards := [(3, { spare := { cycleAt := (some 1) } })] } }, 3, none, 1, by decide +kernel⟩,
   ⟨{ tUp with fc := { cards := [(0, { spare := { cycleAt := (some 1) } })] }, pw := { grants := [{ book := 1, cls := 2, cid := 80, want := 50, held := 50, bn := 0, since := 0, counted := false }] } }, 0, none, 1, by decide +kernel⟩,
   ⟨{ tUp with fc := { cards := [(2, { spare := { cycleAt := (some 0), force := (some 7) } })] }, pw := { grants := [{ book := 1, cls := 2, cid := 82, want := 50, held := 50, bn := 0, since := 0, counted := false }] } }, 2, (some 7), 0, 7, by decide +kernel⟩,
   ⟨{ (put tUp [(Reg.FC_SPARE_STAT_PHASE 0, 6)]) with fc := { cards := [(0, { spare := { cycleAt := (some 0), restore := true } })] }, pw := { grants := [{ book := 1, cls := 2, cid := 80, want := 50, held := 50, bn := 0, since := 0, counted := false }] } }, 0, by decide +kernel⟩,
   ⟨{ (put tUp [(Reg.FC_SPARE_CTRL_VERIFY 7, 7), (Reg.FC_SPARE_STAT_PHASE 7, 2)]) with fc := { cards := [(7, { spare := { compared := 2 } })] } }, 7, 0, 7, by decide +kernel⟩,
   ⟨{ (put tUp [(Reg.FC_SPARE_STAT_PHASE 0, 2)]) with fc := { cards := [(0, { spare := { compared := 7 } })] } }, 0, 3000009, 2, by decide +kernel⟩,
   ⟨{ (put tUp [(Reg.FC_SPARE_STAT_PHASE 0, 4)]) with fc := { cards := [(0, { spare := { compared := 7 } })] } }, 0, 7599, 1799, by decide +kernel⟩,
   ⟨(put tUp [(Reg.FC_SPARE_STAT_PHASE 0, 2)]), 0, 450000000000, 1, by decide +kernel⟩,
   ⟨(put tUp [(Reg.FC_SPARE_STAT_PHASE 0, 2)]), 0, 2400, 4, by decide +kernel⟩,
   ⟨(put tUp [(Reg.FC_SPARE_STAT_PHASE 1, 3)]), 1, [0, 0, 0, 0, 0, 0, 0, 0, 0, 0, 0, 0, 0, 0, 0, 0, 0, 0, 0, 0, 0, 0, 0, 0, 0, 0, 0, 0, 0, 0, 0, 0, 0, 0, 0, 0, 0, 0, 0, 0, 0, 0, 0, 0, 0, 0, 0, 0, 0, 0, 0, 0, 0, 0, 0, 0, 0, 0, 0, 0, 0, 0, 0, 0, 0, 0], [900000000000, 900000000000, 900000000000, 900000000000, 900000000000, 900000000000, 900000000000, 900000000000, 900000000000, 900000000000, 900000000000, 900000000000, 900000000000, 900000000000, 900000000000, 900000000000, 900000000000, 900000000000, 900000000000, 900000000000, 900000000000, 900000000000, 900000000000, 900000000000, 900000000000, 900000000000, 900000000000, 900000000000, 900000000000, 900000000000, 900000000000, 900000000000, 900000000000, 900000000000, 900000000000, 900000000000, 900000000000, 900000000000, 900000000000, 900000000000, 900000000000, 900000000000, 900000000000, 900000000000, 900000000000, 900000000000, 900000000000, 900000000000, 900000000000, 900000000000, 900000000000, 900000000000, 900000000000, 900000000000, 900000000000, 900000000000, 900000000000, 900000000000, 900000000000, 900000000000, 900000000000, 900000000000, 900000000000, 900000000000, 900000000000, 900000000000], [(-900000000000), (-900000000000), (-900000000000), (-900000000000), (-900000000000), (-900000000000), (-900000000000), (-900000000000), (-900000000000), (-900000000000), (-900000000000), (-900000000000), (-900000000000), (-900000000000), (-900000000000), (-900000000000), (-900000000000), (-900000000000), (-900000000000), (-900000000000), (-900000000000), (-900000000000), (-900000000000), (-900000000000), (-900000000000), (-900000000000), (-900000000000), (-900000000000), (-900000000000), (-900000000000), (-900000000000), (-900000000000), (-900000000000), (-900000000000), (-900000000000), (-900000000000), (-900000000000), (-900000000000), (-900000000000), (-900000000000), (-900000000000), (-900000000000), (-900000000000), (-900000000000), (-900000000000), (-900000000000), (-900000000000), (-900000000000), (-900000000000), (-900000000000), (-900000000000), (-900000000000), (-900000000000), (-900000000000), (-900000000000), (-900000000000), (-900000000000), (-900000000000), (-900000000000), (-900000000000), (-900000000000), (-900000000000), (-900000000000), (-900000000000), (-900000000000), (-900000000000)], [450000000000, 450000000000, 450000000000, 450000000000, 450000000000, 450000000000, 450000000000, 450000000000, 450000000000, 450000000000, 450000000000, 450000000000, 450000000000, 450000000000, 450000000000, 450000000000, 450000000000, 450000000000, 450000000000, 450000000000, 450000000000, 450000000000, 450000000000, 450000000000, 450000000000, 450000000000, 450000000000, 450000000000, 450000000000, 450000000000, 450000000000, 450000000000, 450000000000, 450000000000, 450000000000, 450000000000, 450000000000, 450000000000, 450000000000, 450000000000, 450000000000, 450000000000, 450000000000, 450000000000, 450000000000, 450000000000, 450000000000, 450000000000, 450000000000, 450000000000, 450000000000, 450000000000, 450000000000, 450000000000, 450000000000, 450000000000, 450000000000, 450000000000, 450000000000, 450000000000, 450000000000, 450000000000, 450000000000, 450000000000, 450000000000, 450000000000], 0, 0, by decide +kernel⟩,
   ⟨(put tUp [(Reg.FC_SPARE_STAT_PHASE 7, 3)]), 7, [0, 0, 0, 0, 0, 0, 0, 0, 0, 0, 0, 0, 0, 0, 0, 0, 0, 0, 0, 0, 0, 0, 0, 0, 0, 0, 0, 0, 0, 0, 0, 0, 0, 0, 0, 0, 0, 0, 0, 0, 0, 0, 0, 0, 0, 0, 0, 0, 0, 0, 0, 0, 0, 0, 0, 0, 0, 0, 0, 0, 0, 0, 0, 0, 0, 0], [(-900000000000), (-900000000000), (-900000000000), (-900000000000), (-900000000000), (-900000000000), (-900000000000), (-900000000000), (-900000000000), (-900000000000), (-900000000000), (-900000000000), (-900000000000), (-900000000000), (-900000000000), (-900000000000), (-900000000000), (-900000000000), (-900000000000), (-900000000000), (-900000000000), (-900000000000), (-900000000000), (-900000000000), (-900000000000), (-900000000000), (-900000000000), (-900000000000), (-900000000000), (-900000000000), (-900000000000), (-900000000000), (-900000000000), (-900000000000), (-900000000000), (-900000000000), (-900000000000), (-900000000000), (-900000000000), (-900000000000), (-900000000000), (-900000000000), (-900000000000), (-900000000000), (-900000000000), (-900000000000), (-900000000000), (-900000000000), (-900000000000), (-900000000000), (-900000000000), (-900000000000), (-900000000000), (-900000000000), (-900000000000), (-900000000000), (-900000000000), (-900000000000), (-900000000000), (-900000000000), (-900000000000), (-900000000000), (-900000000000), (-900000000000), (-900000000000), (-900000000000)], [1000000007, 1000000007, 1000000007, 1000000007, 1000000007, 1000000007, 1000000007, 1000000007, 1000000007, 1000000007, 1000000007, 1000000007, 1000000007, 1000000007, 1000000007, 1000000007, 1000000007, 1000000007, 1000000007, 1000000007, 1000000007, 1000000007, 1000000007, 1000000007, 1000000007, 1000000007, 1000000007, 1000000007, 1000000007, 1000000007, 1000000007, 1000000007, 1000000007, 1000000007, 1000000007, 1000000007, 1000000007, 1000000007, 1000000007, 1000000007, 1000000007, 1000000007, 1000000007, 1000000007, 1000000007, 1000000007, 1000000007, 1000000007, 1000000007, 1000000007, 1000000007, 1000000007, 1000000007, 1000000007, 1000000007, 1000000007, 1000000007, 1000000007, 1000000007, 1000000007, 1000000007, 1000000007, 1000000007, 1000000007, 1000000007, 1000000007], [0, 0, 0, 0, 0, 0, 0, 0, 0, 0, 0, 0, 0, 0, 0, 0, 0, 0, 0, 0, 0, 0, 0, 0, 0, 0, 0, 0, 0, 0, 0, 0, 0, 0, 0, 0, 0, 0, 0, 0, 0, 0, 0, 0, 0, 0, 0, 0, 0, 0, 0, 0, 0, 0, 0, 0, 0, 0, 0, 0, 0, 0, 0, 0, 0, 0], 0, 2, by decide +kernel⟩,
   ⟨(put tUp [(Reg.FC_SPARE_STAT_PHASE 3, 9)]), 3, [0, 0, 0, 0, 0, 0, 0, 0, 0, 0, 0, 0, 0, 0, 0, 0, 0, 0, 0, 0, 0, 0, 0, 0, 0, 0, 0, 0, 0, 0, 0, 0, 0, 0, 0, 0, 0, 0, 0, 0, 0, 0, 0, 0, 0, 0, 0, 0, 0, 0, 0, 0, 0, 0, 0, 0, 0, 0, 0, 0, 0, 0, 0, 0, 0, 0], [900000000000, 900000000000, 900000000000, 900000000000, 900000000000, 900000000000, 900000000000, 900000000000, 900000000000, 900000000000, 900000000000, 900000000000, 900000000000, 900000000000, 900000000000, 900000000000, 900000000000, 900000000000, 900000000000, 900000000000, 900000000000, 900000000000, 900000000000, 900000000000, 900000000000, 900000000000, 900000000000, 900000000000, 900000000000, 900000000000, 900000000000, 900000000000, 900000000000, 900000000000, 900000000000, 900000000000, 900000000000, 900000000000, 900000000000, 900000000000, 900000000000, 900000000000, 900000000000, 900000000000, 900000000000, 900000000000, 900000000000, 900000000000, 900000000000, 900000000000, 900000000000, 900000000000, 900000000000, 900000000000, 900000000000, 900000000000, 900000000000, 900000000000, 900000000000, 900000000000, 900000000000, 900000000000, 900000000000, 900000000000, 900000000000, 900000000000], by decide +kernel⟩,
   ⟨(put tUp [(Reg.FC_SPARE_STAT_PHASE 0, 9)]), 0, [(-900000000000), (-900000000000), (-900000000000), (-900000000000), (-900000000000), (-900000000000), (-900000000000), (-900000000000), (-900000000000), (-900000000000), (-900000000000), (-900000000000), (-900000000000), (-900000000000), (-900000000000), (-900000000000), (-900000000000), (-900000000000), (-900000000000), (-900000000000), (-900000000000), (-900000000000), (-900000000000), (-900000000000), (-900000000000), (-900000000000), (-900000000000), (-900000000000), (-900000000000), (-900000000000), (-900000000000), (-900000000000), (-900000000000), (-900000000000), (-900000000000), (-900000000000), (-900000000000), (-900000000000), (-900000000000), (-900000000000), (-900000000000), (-900000000000), (-900000000000), (-900000000000), (-900000000000), (-900000000000), (-900000000000), (-900000000000), (-900000000000), (-900000000000), (-900000000000), (-900000000000), (-900000000000), (-900000000000), (-900000000000), (-900000000000), (-900000000000), (-900000000000), (-900000000000), (-900000000000), (-900000000000), (-900000000000), (-900000000000), (-900000000000), (-900000000000), (-900000000000)], [0, 0, 0, 0, 0, 0, 0, 0, 0, 0, 0, 0, 0, 0, 0, 0, 0, 0, 0, 0, 0, 0, 0, 0, 0, 0, 0, 0, 0, 0, 0, 0, 0, 0, 0, 0, 0, 0, 0, 0, 0, 0, 0, 0, 0, 0, 0, 0, 0, 0, 0, 0, 0, 0, 0, 0, 0, 0, 0, 0, 0, 0, 0, 0, 0, 0], by decide +kernel⟩,
   ⟨(put tUp [(Reg.FC_SPARE_TOL_CAL_STEP 8, 5), (Reg.FC_SPARE_STAT_PHASE 8, 1)]), 8, [], 450000000000, by decide +kernel⟩,
   ⟨{ (put tUp [(Reg.FC_SPARE_STAT_PHASE 2, 1)]) with fc := { cards := [(2, { spare := { selfSet := [11] } })] } }, 2, [(0, ([0, 0, 0, 0, 0, 0, 0, 0, 0, 0, 0, 0, 0, 0, 0, 0, 0, 0, 0, 0, 0, 0, 0, 0, 0, 0, 0, 0, 0, 0, 0, 0, 0, 0, 0, 0, 0, 0, 0, 0, 0, 0, 0, 0, 0, 0, 0, 0, 0, 0, 0, 0, 0, 0, 0, 0, 0, 0, 0, 0, 0, 0, 0, 0, 0, 0], ([900000000000, 900000000000, 900000000000, 900000000000, 900000000000, 900000000000, 900000000000, 900000000000, 900000000000, 900000000000, 900000000000, 900000000000, 900000000000, 900000000000, 900000000000, 900000000000, 900000000000, 900000000000, 900000000000, 900000000000, 900000000000, 900000000000, 900000000000, 900000000000, 900000000000, 900000000000, 900000000000, 900000000000, 900000000000, 900000000000, 900000000000, 900000000000, 900000000000, 900000000000, 900000000000, 900000000000, 900000000000, 900000000000, 900000000000, 900000000000, 900000000000, 900000000000, 900000000000, 900000000000, 900000000000, 900000000000, 900000000000, 900000000000, 900000000000, 900000000000, 900000000000, 900000000000, 900000000000, 900000000000, 900000000000, 900000000000, 900000000000, 900000000000, 900000000000, 900000000000, 900000000000, 900000000000, 900000000000, 900000000000, 900000000000, 900000000000], ([(-900000000000), (-900000000000), (-900000000000), (-900000000000), (-900000000000), (-900000000000), (-900000000000), (-900000000000), (-900000000000), (-900000000000), (-900000000000), (-900000000000), (-900000000000), (-900000000000), (-900000000000), (-900000000000), (-900000000000), (-900000000000), (-900000000000), (-900000000000), (-900000000000), (-900000000000), (-900000000000), (-900000000000), (-900000000000), (-900000000000), (-900000000000), (-900000000000), (-900000000000), (-900000000000), (-900000000000), (-900000000000), (-900000000000), (-900000000000), (-900000000000), (-900000000000), (-900000000000), (-900000000000), (-900000000000), (-900000000000), (-900000000000), (-900000000000), (-900000000000), (-900000000000), (-900000000000), (-900000000000), (-900000000000), (-900000000000), (-900000000000), (-900000000000), (-900000000000), (-900000000000), (-900000000000), (-900000000000), (-900000000000), (-900000000000), (-900000000000), (-900000000000), (-900000000000), (-900000000000), (-900000000000), (-900000000000), (-900000000000), (-900000000000), (-900000000000), (-900000000000)], [450000000000, 450000000000, 450000000000, 450000000000, 450000000000, 450000000000, 450000000000, 450000000000, 450000000000, 450000000000, 450000000000, 450000000000, 450000000000, 450000000000, 450000000000, 450000000000, 450000000000, 450000000000, 450000000000, 450000000000, 450000000000, 450000000000, 450000000000, 450000000000, 450000000000, 450000000000, 450000000000, 450000000000, 450000000000, 450000000000, 450000000000, 450000000000, 450000000000, 450000000000, 450000000000, 450000000000, 450000000000, 450000000000, 450000000000, 450000000000, 450000000000, 450000000000, 450000000000, 450000000000, 450000000000, 450000000000, 450000000000, 450000000000, 450000000000, 450000000000, 450000000000, 450000000000, 450000000000, 450000000000, 450000000000, 450000000000, 450000000000, 450000000000, 450000000000, 450000000000, 450000000000, 450000000000, 450000000000, 450000000000, 450000000000, 450000000000]))))], 0, by decide +kernel⟩,
   ⟨{ (put tUp [(Reg.HUB_MODE_MODE, 3)]) with fc := { act := [(534803, 2)] } }, 0, .cfg, 9, by decide +kernel⟩,
   ⟨(put tUp [(Reg.HUB_MODE_MODE, 3), (Reg.FC_SPARE_STAT_PHASE 0, 6)]), 0, .direct, 0, by decide +kernel⟩⟩

theorem witness_ConverterFaults :
    (∃ (s : State) (f c : Nat), f < 16 ∧ c < 32 ∧ s.domOn f = true ∧ s.flag (Reg.FC_CONV_STAT_MASKED f c) = false ∧
     s.spPhase f = spCAL ∧ s.spCh f = c) ∧
    (∃ (s : State) (f c : Nat), f < 16 ∧ c < 32 ∧ s.domOn f = true ∧ s.maskedCh f = none ∧
     (s.spPhase f = spCAL → s.spCh f ≠ c) ∧ s.spPhase f ≠ spOUT) ∧
    (∃ (s : State) (f : Nat) (src : WrSrc), f < 16 ∧ s.takes src RegId.FC_REFCAL_CTRL f 0 true = true ∧
     s.act (Reg.FC_XPT_ROLE_ROLE f (s.rd (Reg.FC_REFCAL_CTRL_PIN_P f))) ≠ 0) ∧
    (∃ (s : State) (f : Nat) (src : WrSrc), f < 16 ∧ s.takes src RegId.FC_REFCAL_CTRL f 0 true = true ∧
     s.act (Reg.FC_XPT_ROLE_ROLE f (s.rd (Reg.FC_REFCAL_CTRL_PIN_P f))) = 0 ∧ s.act (Reg.FC_XPT_ROLE_ROLE f (s.rd (Reg.FC_REFCAL_CTRL_PIN_N f))) = 0 ∧
     (s.rdS (Reg.FC_REFCAL_UV_UV f) < 4000000 ∨ 4900000 < s.rdS (Reg.FC_REFCAL_UV_UV f))) ∧
    (∃ (s : State) (f : Nat) (src : WrSrc), f < 16 ∧ s.takes src RegId.FC_REFCAL_CTRL f 0 true = true ∧
     s.act (Reg.FC_XPT_ROLE_ROLE f (s.rd (Reg.FC_REFCAL_CTRL_PIN_P f))) = 0 ∧ s.act (Reg.FC_XPT_ROLE_ROLE f (s.rd (Reg.FC_REFCAL_CTRL_PIN_N f))) = 0 ∧
     4000000 ≤ s.rdS (Reg.FC_REFCAL_UV_UV f) ∧ s.rdS (Reg.FC_REFCAL_UV_UV f) ≤ 4900000 ∧ s.turning f = false) ∧
    (∃ (s : State) (f t0 : Nat) (a b : Int), f < 16 ∧ (s.spare f).refSince = some t0 ∧
     s.elapsed t0 (64 * cclkSec) = true ∧ (a - (s.card f).refs.fst).natAbs ≤ 50000 ∧ (b - (s.card f).refs.snd).natAbs ≤ 50000) ∧
    (∃ (s : State) (f t0 : Nat) (a b : Int), f < 16 ∧ (s.spare f).refSince = some t0 ∧
     s.elapsed t0 (64 * cclkSec) = true ∧ 50000 < (a - (s.card f).refs.fst).natAbs) :=
  ⟨⟨(put tUp [(Reg.FC_SPARE_STAT_PHASE 7, 3)]), 7, 0, by decide +kernel⟩,
   ⟨tUp, 7, 7, by decide +kernel⟩,
   ⟨{ (put tUp [(Reg.HUB_MODE_MODE, 4)]) with fc := { act := [(919552, 1)] } }, 3, .direct, by decide +kernel⟩,
   ⟨(put tUp [(Reg.HUB_MODE_MODE, 3)]), 6, .direct, by decide +kernel⟩,
   ⟨(put tUp [(Reg.HUB_MODE_MODE, 3), (Reg.FC_REFCAL_UV_UV 0, 4000000)]), 0, .direct, by decide +kernel⟩,
   ⟨{ tUp with run := 15728640006, fc := { cards := [(6, { spare := { refSince := (some 6) } })] } }, 6, 6, (-800), (-2), by decide +kernel⟩,
   ⟨{ tUp with run := 15728640005, fc := { cards := [(6, { spare := { refSince := (some 5) } })] } }, 6, 5, (-900000000000), 450000000000, by decide +kernel⟩⟩

theorem witness_Metrology :
    (∃ (s : State) (c : Nat), c < 32 ∧ s.nextScan = some c ∧ s.mt.run = none ∧ s.mt.checkAt = none ∧ s.sampling = true ∧
     s.mt.urgents = [] ∧ s.scanEnds = false) ∧
    (∃ (s : State), s.mt.run = none ∧ s.mt.checkAt = none ∧ s.sampling = true ∧ s.mt.urgents = [] ∧ s.scanEnds = false ∧
     s.nextScan = none ∧ s.mt.empty = false ∧ s.rd Reg.MT_SCAN_MASK_MASK = 0) ∧
    (∃ (s : State) (h : CmdHdr) (c a : Nat) (rest : List (CmdHdr × Nat × Nat)), s.mt.urgents = (h, c, a) :: rest ∧
     s.mt.run = none ∧ s.mt.checkAt = none ∧ s.sampling = true ∧ (s.slot 19).standby = none) ∧
    (∃ (s : State) (r : MtRun) (v : Int) (cm : Bool), s.mt.run = some r ∧ r.converting = false ∧ r.urgent = none) ∧
    (∃ (s : State) (r : MtRun) (v : Int) (cm : Bool), s.mt.run = some r ∧ r.converting = true ∧ r.mode ≠ 1 ∧ r.urgent = none) ∧
    (∃ (s : State) (r : MtRun) (v : Int), s.mt.run = some r ∧ r.converting = true ∧ r.mode ≠ 1 ∧ r.urgent = none ∧
     r.vals = [] ∧ r.ovr = false ∧ r.cm = false ∧ r.open_ = false ∧ s.mtUp = true ∧ -mtFull r.range ≤ v ∧ v ≤ mtFull r.range) ∧
    (∃ (s : State) (r : MtRun), s.mt.run = some r ∧ r.mode = 1 ∧ r.converting = true ∧ s.mtUp = true) ∧
    (∃ (s : State) (h : CmdHdr) (ch addr : Nat), byRing s h ∧ s.barred = true) ∧
    (∃ (s : State) (h : CmdHdr) (ch addr : Nat), byRing s h ∧ s.barred = false ∧ 32 ≤ ch) ∧
    (∃ (s : State) (h : CmdHdr) (ch addr : Nat), ch < 32 ∧ byRing s h ∧ s.barred = false ∧ addrOk addr 32 = true ∧
     s.mt.urgents.length < 8 ∧ s.mtUp = false) ∧
    (∃ (s : State) (h : CmdHdr) (ch addr : Nat), ch < 32 ∧ byRing s h ∧ s.barred = false ∧ addrOk addr 32 = true ∧
     s.mt.urgents.length < 8 ∧ s.mtUp = true) ∧
    (∃ (s : State) (src : WrSrc) (mask : Nat), (src = WrSrc.cfg ∨ s.modeTakes RegId.MT_SCAN_MASK = true)) :=
  ⟨⟨(put tUp [(Reg.MT_SCAN_MASK_MASK, 255)]), 0, by decide +kernel⟩,
   ⟨{ tUp with mt := { empty := false } }, by decide +kernel⟩,
   ⟨{ tUp with mt := { urgents := [({ tHdr with tag := 197, opcode := 25, index := 5 }, (1, 5))] } }, { tHdr with tag := 197, opcode := 25, index := 5 }, 1, 5, [], by decide +kernel⟩,
   ⟨{ tUp with mt := { run := (some { ch := 3, start := 6, mode := 7, range := 4, conv := 6, cur := 24, ref := 7, settle := 7600, phase := 3, converting := false, vals := [], ovr := false, open_ := false, cm := false, urgent := none }) } }, { ch := 3, start := 6, mode := 7, range := 4, conv := 6, cur := 24, ref := 7, settle := 7600, phase := 3, converting := false, vals := [], ovr := false, open_ := false, cm := false, urgent := none }, 3000009, false, by decide +kernel⟩,
   ⟨{ tUp with mt := { run := (some { ch := 0, start := 0, mode := 4, range := 3, conv := 6, cur := 3, ref := 4, settle := 6, phase := 5, converting := true, vals := [], ovr := false, open_ := true, cm := false, urgent := none }) } }, { ch := 0, start := 0, mode := 4, range := 3, conv := 6, cur := 3, ref := 4, settle := 6, phase := 5, converting := true, vals := [], ovr := false, open_ := true, cm := false, urgent := none }, (-3), true, by decide +kernel⟩,
   ⟨{ (put tUp [(Reg.HUB_MODE_MODE, 4)]) with mt := { run := (some { ch := 11, start := 0, mode := 3, range := 9, conv := 7, cur := 25, ref := 28, settle := 7, phase := 4, converting := true, vals := [], ovr := false, open_ := false, cm := false, urgent := none }) } }, { ch := 11, start := 0, mode := 3, range := 9, conv := 7, cur := 25, ref := 28, settle := 7, phase := 4, converting := true, vals := [], ovr := false, open_ := false, cm := false, urgent := none }, 516022, by decide +kernel⟩,
   ⟨{ tUp with mt := { run := (some { ch := 24, start := 2, mode := 1, range := 5, conv := 2, cur := 3, ref := 14, settle := 2, phase := 6, converting := true, vals := [], ovr := true, open_ := false, cm := true, urgent := none }) } }, { ch := 24, start := 2, mode := 1, range := 5, conv := 2, cur := 3, ref := 14, settle := 2, phase := 6, converting := true, vals := [], ovr := true, open_ := false, cm := true, urgent := none }, by decide +kernel⟩,
   ⟨(put tUp [(Reg.HUB_MODE_MODE, 2)]), { tHdr with tag := 251, opcode := 100, inst := (.beat 0), index := 7 }, 6, 12, by unfold byRing; decide +kernel⟩,
   ⟨tUp, { tHdr with tag := 87, opcode := 126, quiet := true }, 45381, 17730, by unfold byRing; decide +kernel⟩,
   ⟨(put tUp [(Reg.HUB_PART_STATE_MET, (Reg.HUB_PART_STATE_MET).rst)]), { tHdr with tag := 119, opcode := 70, quiet := true }, 31, 273, by unfold byRing; decide +kernel⟩,
   ⟨tUp, { tHdr with tag := 135, opcode := 29, quiet := true, inst := (.beat 3), index := 4 }, 7, 3300, by unfold byRing; decide +kernel⟩,
   ⟨tUp, .cfg, 52, by decide +kernel⟩⟩

theorem witness_StreamCommands :
    (∃ (s : State) (h : CmdHdr) (i : Nat) (raw : List Nat) (buf first last : Nat) (entry : List Nat) (c : Instr), c ∈ [Instr.streamOpen h raw buf entry, Instr.streamClose h i, Instr.replay h i buf first last entry] ∧
     byRing s h ∧ s.barred = true) ∧
    (∃ (s : State) (h : CmdHdr) (raw : List Nat) (buf : Nat) (entry : List Nat), byRing s h ∧ s.barred = false ∧
     (raw.length ≠ 56 ∨ openOk s (parseDef raw) = false ∨ bufOk s buf entry = false)) ∧
    (∃ (s : State) (h : CmdHdr) (raw : List Nat) (buf : Nat) (entry : List Nat) (j : Nat), byRing s h ∧ s.barred = false ∧
     raw.length = 56 ∧ openOk s (parseDef raw) = true ∧ bufOk s buf entry = true ∧ h.inst = Inst.none ∧ j ≠ (parseDef raw).id) ∧
    (∃ (s : State) (h : CmdHdr) (i : Nat), byRing s h ∧ s.barred = false ∧ (s.stream i = none ∨ ∃ x, s.stream i = some x ∧
     x.closeAt.isSome = true)) ∧
    (∃ (s : State) (h : CmdHdr) (i : Nat) (x : Machine.Stream), i < 1024 ∧ s.stream i = some x ∧ byRing s h ∧
     s.barred = false ∧ x.closeAt = none ∧ h.inst = Inst.none ∧ s.ahead x (x.lastSrc s.now) = true) ∧
    (∃ (s : State) (h : CmdHdr) (i : Nat) (x : Machine.Stream) (e : Nat), i < 1024 ∧ s.stream i = some x ∧ byRing s h ∧
     s.barred = false ∧ x.closeAt = none ∧ h.inst = Inst.edge e ∧ s.now < e ∧ s.tb.sched.length < 4096) ∧
    (∃ (s : State) (h : CmdHdr) (i buf first last : Nat) (entry : List Nat), byRing s h ∧ s.barred = false ∧
     (s.formed i = none ∨ last < first ∨ 8 ≤ s.hp.replays.length ∨ bufOk s buf entry = false)) ∧
    (∃ (s : State) (h : CmdHdr) (i buf first last : Nat) (entry : List Nat) (n : Nat), s.formed i = some n ∧ byRing s h ∧
     s.barred = false ∧ first ≤ last ∧ s.hp.replays.length < 8 ∧ bufOk s buf entry = true ∧ n ≤ first) ∧
    (∃ (s : State) (h : CmdHdr) (i buf first last : Nat) (entry : List Nat) (n : Nat), s.formed i = some n ∧ byRing s h ∧
     s.barred = false ∧ first ≤ last ∧ s.hp.replays.length < 8 ∧ bufOk s buf entry = true ∧ first < n ∧
     replayRecords s i buf first (min last (n - 1)) ≠ []) ∧
    (∃ (s : State) (h : CmdHdr) (raw : List Nat) (buf : Nat) (entry : List Nat) (e : Nat), byRing s h ∧
     s.barred = false ∧ raw.length = 56 ∧ openOk s (parseDef raw) = true ∧ bufOk s buf entry = true ∧ h.inst = Inst.edge e ∧ s.now < e ∧
     s.tb.sched.length < 4096) :=
  ⟨⟨(put tUp [(Reg.HUB_MODE_MODE, 2)]), { tHdr with tag := 168, quiet := true, index := 5 }, 7800, [6], 4, 7, 5, [4, 3, 89358, 23], (Instr.streamOpen { tag := 168, opcode := 5, quiet := true, inst := Inst.none, index := 5, via := Via.ring } [6] 4 [4, 3, 89358, 23]), by unfold byRing; decide +kernel⟩,
   ⟨tUp, { tHdr with tag := 245, opcode := 74, quiet := true, index := 6 }, [9, 3, 7, 6], 11, [2, 0, 2, 3, 3, 2, 0, 2, 1, 1, 1, 3, 3, 0, 2, 1, 3, 3, 3, 0, 2, 1, 0, 1, 0, 0, 0, 0, 3, 1, 2, 0, 1, 3, 1, 3, 1, 0, 2, 1, 1, 1, 0, 0, 2, 0, 2, 3, 2, 3, 2, 2, 3, 2, 2, 1, 1, 0, 0, 2, 0, 3, 3, 3], by unfold byRing; decide +kernel⟩,
   ⟨tUp, { tHdr with tag := 207, opcode := 118, index := 5 }, [2, 0, 0, 0, 0, 0, 0, 0, 0, 0, 0, 0, 0, 2, 0, 0, 0, 0, 0, 0, 0, 0, 240, 63, 0, 0, 0, 0, 0, 0, 0, 0, 10, 0, 100, 0, 0, 0, 0, 0, 0, 0, 0, 0, 0, 0, 0, 0, 0, 0, 0, 0, 0, 0, 0, 0], 0, [0, 0, 16, 0, 0, 0, 0, 0, 16, 0, 0, 0, 0, 0, 0, 0], 6, by unfold byRing; decide +kernel⟩,
   ⟨tUp, { tHdr with tag := 143, opcode := 72, inst := (.edge 5), index := 0 }, 3, by unfold byRing; decide +kernel⟩,
   ⟨{ tUp with rd_ := { streams := [(6, (some { defn := { tDef with id := 2, kind := 3, index := 2, clock := 1, clockArg := 2, reduce := 2, redArg := 2, stat := 1, format := 1, opts := 2, recAge := 1, cj := 2, rb := 2, trigFlag := 6 }, raw := [0, 0, 16, 0, 0, 0, 0, 0, 15, 0, 0, 0, 0, 0, 0, 0], buf := 3, openAt := 22, next := 7, conf := 229, waitTod := true, trigs := [6], prevUsed := (some (-2)), tabCloses := [(5, 0)] }))] } }, { tHdr with tag := 83, opcode := 108, index := 7 }, 6, { defn := { tDef with id := 2, kind := 3, index := 2, clock := 1, clockArg := 2, reduce := 2, redArg := 2, stat := 1, format := 1, opts := 2, recAge := 1, cj := 2, rb := 2, trigFlag := 6 }, raw := [0, 0, 16, 0, 0, 0, 0, 0, 15, 0, 0, 0, 0, 0, 0, 0], buf := 3, openAt := 22, next := 7, conf := 229, waitTod := true, trigs := [6], prevUsed := (some (-2)), tabCloses := [(5, 0)] }, by unfold byRing; decide +kernel⟩,
   ⟨{ tUp with now := 0, rd_ := { streams := [(7, (some { defn := { tDef with id := 7, kind := 4, out := 2, clockArg := 4, reduce := 3, stat := 6, curve := 1, format := 5, opts := 8, cj := 1, rb := 2, trig := 1, trigFlag := 6 }, raw := [6, 6, 30], buf := 1, openAt := 246, next := 3, phase := 3, seq := 46353, stowed := true, blk := (some { place := 950915, at_ := 1, slow := false, acc := { n := 3, sum := 1799005397, m2 := 5, hi := 7, first := 2000006, offline := true } }), cross := (-2), clamped := true, angles := [(6, (some 0)), (5, (some 6)), (4, (some 5))], tabCloses := [(4, 7), (65535, 3)] }))] } }, { tHdr with tag := 171, opcode := 20, quiet := true, inst := (.edge 6), index := 7 }, 7, { defn := { tDef with id := 7, kind := 4, out := 2, clockArg := 4, reduce := 3, stat := 6, curve := 1, format := 5, opts := 8, cj := 1, rb := 2, trig := 1, trigFlag := 6 }, raw := [6, 6, 30], buf := 1, openAt := 246, next := 3, phase := 3, seq := 46353, stowed := true, blk := (some { place := 950915, at_ := 1, slow := false, acc := { n := 3, sum := 1799005397, m2 := 5, hi := 7, first := 2000006, offline := true } }), cross := (-2), clamped := true, angles := [(6, (some 0)), (5, (some 6)), (4, (some 5))], tabCloses := [(4, 7), (65535, 3)] }, 6, by unfold byRing; decide +kernel⟩,
   ⟨tUp, { tHdr with tag := 25, opcode := 90, index := 4 }, 3, 4, 4, 5, [], by unfold byRing; decide +kernel⟩,
   ⟨{ tUp with rd_ := { streams := [(3, (some { defn := { tDef with id := 3 }, raw := [], buf := 1, openAt := 0, next := 3840, seq := 7 }))] } }, { tHdr with tag := 185, opcode := 107, quiet := true, index := 7 }, 3, 2, 15, 853779, [0, 0, 16, 0, 0, 0, 0, 0, 16, 0, 0, 0, 0, 0, 0, 0], 7, by unfold byRing; decide +kernel⟩,
   ⟨{ tUp with rd_ := { streams := [(5, (some { defn := tDef, raw := [], buf := 1, openAt := 0, next := 3840, seq := 7 }))] } }, { tHdr with tag := 99, opcode := 124, quiet := true, inst := (.beat 2), index := 1 }, 5, 13, 0, 3, [0, 0, 16, 0, 0, 0, 0, 0, 16, 0, 0, 0, 0, 0, 0, 0], 7, by unfold byRing; decide +kernel⟩,
   ⟨tUp, { tHdr with inst := (.edge 4000000) }, [7, 0, 0, 0, 0, 0, 0, 0, 0, 0, 0, 0, 0, 3, 0, 0, 0, 0, 0, 0, 0, 0, 240, 63, 0, 0, 0, 0, 0, 0, 0, 0, 10, 0, 100, 0, 0, 0, 0, 0, 0, 0, 0, 0, 0, 0, 0, 0, 0, 0, 0, 0, 0, 0, 0, 0], 2, [0, 0, 16, 0, 0, 0, 0, 0, 17, 0, 0, 0, 0, 0, 0, 0], 4000000, by unfold byRing; decide +kernel⟩⟩

theorem witness_StreamsAtWork :
    (∃ (s : State) (i : Nat) (x : Machine.Stream) (v div : Int) (ph : Nat) (ovr : Bool) (k : Tick), i < 1024 ∧
     s.stream i = some x ∧ s.tickDue x = some k ∧ s.sampling = true ∧ s.domOn 27 = true ∧ x.waitTod = false ∧ x.closeAt = none) ∧
    (∃ (s : State) (i : Nat) (x : Machine.Stream) (v div : Int) (ph : Nat) (ovr : Bool), i < 1024 ∧ s.stream i = some x ∧
     s.sampling = true ∧ s.domOn 27 = true ∧ x.waitTod = false ∧ x.closeAt = none ∧ s.tickDue x = none) ∧
    (∃ (s : State) (i : Nat) (v div : Int) (ph : Nat) (ovr : Bool), i < 1024 ∧ s.sampling = false) ∧
    (∃ (s : State) (i : Nat) (x : Machine.Stream) (r : Rec), i < 1024 ∧ s.stream i = some x ∧ x.rcd = some r ∧
     r.place + x.defn.recAge * cclkMs ≤ s.now ∧ s.retains = true) ∧
    (∃ (s : State) (i : Nat) (x : Machine.Stream) (r : Rec) (j : Nat), i < 1024 ∧ s.stream i = some x ∧ x.rcd = some r ∧
     r.place + x.defn.recAge * cclkMs ≤ s.now ∧ j ≠ i) ∧
    (∃ (s : State) (i : Nat) (x : Machine.Stream) (r : Rec), i < 1024 ∧ s.stream i = some x ∧ x.rcd = some r ∧
     s.now < r.place + x.defn.recAge * cclkMs) ∧
    (∃ (s : State) (i : Nat) (r : RecOut) (rest : List RecOut), i < 1024 ∧ Sparse.get [] i s.rd_.store = r :: rest ∧
     (s.sbuf r.buf).queue.any (sameRec i r.seq) = false) ∧
    (∃ (s : State) (i : Nat) (r : RecOut) (rest : List RecOut), i < 1024 ∧ Sparse.get [] i s.rd_.store = r :: rest ∧
     (s.sbuf r.buf).queue.any (sameRec i r.seq) = true ∧ r.stream = i ∧ gapBefore s r = none) ∧
    (∃ (s : State) (i : Nat) (r : RecOut) (rest : List RecOut), i < 1024 ∧ Sparse.get [] i s.rd_.store = r :: rest ∧
     (s.sbuf r.buf).queue.any (sameRec i r.seq) = true ∧ (gapBefore s r).isSome = true) ∧
    (∃ (s : State) (i : Nat) (x : Machine.Stream), i < 1024 ∧ s.stream i = some x ∧ curveKind x.defn.curve = 1 ∧
     (s.coldJunction x.defn x.openAt s.now).snd = true ∧ x.cjLost = false) ∧
    (∃ (s : State) (i : Nat) (x : Machine.Stream), i < 1024 ∧ s.stream i = some x ∧ curveKind x.defn.curve = 1 ∧
     (s.coldJunction x.defn x.openAt s.now).snd = false ∧ x.cjLost = true) :=
  ⟨⟨{ tUp with rd_ := { streams := [(0, (some { defn := { tDef with id := 4, kind := 2, out := 2, index := 2, reduce := 2, redArg := 4, curve := 40, format := 5, opts := 63, recAge := 1, cj := 1, ra := 2, rb := 2, trig := 2, trigFlag := 7 }, raw := [15], buf := 4, openAt := 0, next := 6, good := 3, began := true }))] } }, 0, { defn := { tDef with id := 4, kind := 2, out := 2, index := 2, reduce := 2, redArg := 4, curve := 40, format := 5, opts := 63, recAge := 1, cj := 1, ra := 2, rb := 2, trig := 2, trigFlag := 7 }, raw := [15], buf := 4, openAt := 0, next := 6, good := 3, began := true }, 57785, (-900000000000), 11, false, { at_ := 6, place := 6, gap := false, val := 0, flags := 0 }, by decide +kernel⟩,
   ⟨{ tUp with rd_ := { streams := [(0, (some { defn := { tDef with id := 7, kind := 1, clock := 1, clockArg := 3, reduce := 2, redArg := 4, stat := 3, format := 1, opts := 8, recAge := 1, ra := 2, rb := 1, trig := 3 }, raw := [5, 7], buf := 6, openAt := 5, next := 2, phase := 7, trigs := [5, 4, 5], prevFlags := 7 }))] } }, 0, { defn := { tDef with id := 7, kind := 1, clock := 1, clockArg := 3, reduce := 2, redArg := 4, stat := 3, format := 1, opts := 8, recAge := 1, ra := 2, rb := 1, trig := 3 }, raw := [5, 7], buf := 6, openAt := 5, next := 2, phase := 7, trigs := [5, 4, 5], prevFlags := 7 }, 4, (-1), 5, false, by decide +kernel⟩,
   ⟨State.reset, 0, 5000015, 2400, 3300, true, by decide +kernel⟩,
   ⟨{ (put tUp [(Reg.HUB_MODE_MODE, 3)]) with rd_ := { streams := [(191, (some { defn := { tDef with id := 0, kind := 1, out := 2, clockArg := 3, redArg := 5, curve := 40, format := 2, recAge := 1, rb := 1, trig := 3, trigFlag := 2 }, raw := [0, 0, 16, 0, 0, 0, 0, 0, 15, 0, 0, 0, 0, 0, 0, 0], buf := 186, openAt := 14, next := 6, seq := 7, rcd := (some { seq := 2, place := 246093, stow := true, slots := [], run := (some 3), brk := true }) }))] } }, 191, { defn := { tDef with id := 0, kind := 1, out := 2, clockArg := 3, redArg := 5, curve := 40, format := 2, recAge := 1, rb := 1, trig := 3, trigFlag := 2 }, raw := [0, 0, 16, 0, 0, 0, 0, 0, 15, 0, 0, 0, 0, 0, 0, 0], buf := 186, openAt := 14, next := 6, seq := 7, rcd := (some { seq := 2, place := 246093, stow := true, slots := [], run := (some 3), brk := true }) }, { seq := 2, place := 246093, stow := true, slots := [], run := (some 3), brk := true }, by decide +kernel⟩,
   ⟨{ (put tUp [(Reg.HUB_MODE_MODE, 3)]) with rd_ := { streams := [(0, (some { defn := { tDef with id := 0, kind := 2, out := 2, clock := 3, redArg := 5, stat := 2, curve := 40, recCount := 1, recAge := 1, cj := 2, rb := 1, trig := 1, trigFlag := 7 }, raw := [4, 5], buf := 3299, openAt := 3, next := 2, phase := 25, rcd := (some { seq := 1023, place := 1, stow := true, slots := [], run := (some 2), brk := true }), began := true, trigs := [2, 7, 11721, 0], prevFlags := 3 }))] } }, 0, { defn := { tDef with id := 0, kind := 2, out := 2, clock := 3, redArg := 5, stat := 2, curve := 40, recCount := 1, recAge := 1, cj := 2, rb := 1, trig := 1, trigFlag := 7 }, raw := [4, 5], buf := 3299, openAt := 3, next := 2, phase := 25, rcd := (some { seq := 1023, place := 1, stow := true, slots := [], run := (some 2), brk := true }), began := true, trigs := [2, 7, 11721, 0], prevFlags := 3 }, { seq := 1023, place := 1, stow := true, slots := [], run := (some 2), brk := true }, 54932, by decide +kernel⟩,
   ⟨{ tUp with rd_ := { streams := [(7, (some { defn := { tDef with id := 0, kind := 3, index := 2, clockArg := 3, reduce := 1, redArg := 3, stat := 8, format := 5, opts := 1, cj := 2, ra := 2, trigFlag := 3 }, raw := [0, 0, 16, 0, 0, 0, 0, 0, 16, 0, 0, 0, 0, 0, 0, 0], buf := 2, openAt := 7, next := 48, phase := 7, seq := 745996, good := 129311, rcd := (some { seq := 3, place := 20, stow := true, slots := [], run := (some 6), brk := false }), cjLost := true }))] } }, 7, { defn := { tDef with id := 0, kind := 3, index := 2, clockArg := 3, reduce := 1, redArg := 3, stat := 8, format := 5, opts := 1, cj := 2, ra := 2, trigFlag := 3 }, raw := [0, 0, 16, 0, 0, 0, 0, 0, 16, 0, 0, 0, 0, 0, 0, 0], buf := 2, openAt := 7, next := 48, phase := 7, seq := 745996, good := 129311, rcd := (some { seq := 3, place := 20, stow := true, slots := [], run := (some 6), brk := false }), cjLost := true }, { seq := 3, place := 20, stow := true, slots := [], run := (some 6), brk := false }, by decide +kernel⟩,
   ⟨{ tUp with rd_ := { store := [(5, [{ stream := 6, seq := 16, n := 8, buf := 7, data := [], late := false, replay := true }])] } }, 5, { stream := 6, seq := 16, n := 8, buf := 7, data := [], late := false, replay := true }, [], by decide +kernel⟩,
   ⟨{ tUp with rd_ := { store := [(0, [{ stream := 0, seq := 5, n := 3, buf := 2, data := [], late := true, replay := true }])] }, hp := { bufs := [(2, { queue := [{ stream := 0, seq := 5, n := 1, buf := 0, data := [], late := false, replay := false }] })] } }, 0, { stream := 0, seq := 5, n := 3, buf := 2, data := [], late := true, replay := true }, [], by decide +kernel⟩,
   ⟨{ tUp with rd_ := { store := [(0, [{ stream := 19, seq := 1, n := 1028, buf := 1, data := [], late := true, replay := false }])] }, hp := { bufs := [(1, { queue := [{ stream := 19, seq := 0, n := 1, buf := 1, data := [0, 0, 0, 0, 0, 0, 0, 1], late := true, replay := false }, { stream := 0, seq := 1, n := 1, buf := 0, data := [], late := false, replay := false }] })] } }, 0, { stream := 19, seq := 1, n := 1028, buf := 1, data := [], late := true, replay := false }, [], by decide +kernel⟩,
   ⟨{ tUp with rd_ := { streams := [(15, (some { defn := { tDef with id := 2, kind := 4, clock := 2, clockArg := 3, reduce := 2, redArg := 3, stat := 8, curve := 1, format := 2, opts := 4, recCount := 2, ra := 1, trig := 2 }, raw := [3, 1, 1, 1, 0, 3, 0, 3], buf := 0, openAt := 4, next := 7, seq := 7801, good := 4, conf := 7, prevUsed := (some 4), prevFlags := 24 }))] } }, 15, { defn := { tDef with id := 2, kind := 4, clock := 2, clockArg := 3, reduce := 2, redArg := 3, stat := 8, curve := 1, format := 2, opts := 4, recCount := 2, ra := 1, trig := 2 }, raw := [3, 1, 1, 1, 0, 3, 0, 3], buf := 0, openAt := 4, next := 7, seq := 7801, good := 4, conf := 7, prevUsed := (some 4), prevFlags := 24 }, by decide +kernel⟩,
   ⟨{ tUp with rd_ := { streams := [(0, (some { defn := { tDef with id := 2, kind := 2, clock := 3, clockArg := 4, reduce := 3, redArg := 4, stat := 3, curve := 1, format := 6, opts := 63, recCount := 2, rb := 2, trig := 1, trigFlag := 2 }, raw := [0, 0, 3, 1, 3, 3, 0, 3, 3, 1, 2, 3, 1, 3, 2, 1, 1, 2, 3, 3, 3, 1, 0, 3, 0, 3, 3, 0, 1, 0, 2, 1], buf := 5, openAt := 5, next := 0, phase := 16, due := [{ at_ := 3, place := 4, gap := false, val := (-7), flags := 6 }], conf := 3, hist := [(4, { at_ := 23, word := 5, flags := 6 })], prevFlags := 1, cjLost := true }))] } }, 0, { defn := { tDef with id := 2, kind := 2, clock := 3, clockArg := 4, reduce := 3, redArg := 4, stat := 3, curve := 1, format := 6, opts := 63, recCount := 2, rb := 2, trig := 1, trigFlag := 2 }, raw := [0, 0, 3, 1, 3, 3, 0, 3, 3, 1, 2, 3, 1, 3, 2, 1, 1, 2, 3, 3, 3, 1, 0, 3, 0, 3, 3, 0, 1, 0, 2, 1], buf := 5, openAt := 5, next := 0, phase := 16, due := [{ at_ := 3, place := 4, gap := false, val := (-7), flags := 6 }], conf := 3, hist := [(4, { at_ := 23, word := 5, flags := 6 })], prevFlags := 1, cjLost := true }, by decide +kernel⟩⟩

theorem witness_UserCurves :
    (∃ (s : State) (src : WrSrc) (v : Nat), v < 2 ^ 64 ∧ s.takes src RegId.RD_CURVE_DATA 0 0 true = true) ∧
    (∃ (s : State) (src : WrSrc) (l : List Nat) (code : Nat), l = List.map (fun j => Sparse.get 0 j (Sparse.get [] s.curveSel s.rd_.stg)) (List.range (curveWords (curveKind s.curveSel) (s.rd Reg.RD_CURVE_SEL_N))) ∧
     s.takes src RegId.RD_CURVE_CTRL 0 0 true = true ∧ curveReason s.curveSel (s.rd Reg.RD_CURVE_SEL_N) l = code ∧ code ≠ 0) ∧
    (∃ (s : State) (src : WrSrc), s.takes src RegId.RD_CURVE_CTRL 0 0 true = true ∧
     (s.defs.any fun d => decide (d.curve = s.curveSel)) = true) ∧
    (∃ (s : State) (src : WrSrc) (c : Nat), s.takes src RegId.RD_CURVE_CTRL 0 0 true = true ∧
     (s.defs.any fun d => decide (d.curve = s.curveSel)) = false ∧ c ≠ s.curveSel) ∧
    (∃ (s : State) (src : WrSrc) (j : Nat), s.takes src RegId.RD_CURVE_CTRL 0 0 true = true) ∧
    (∃ (s : State) (src : WrSrc) (clr : Nat), s.takes src RegId.RD_CNT_CLR 0 0 false = true ∧ bit clr 4 = true ∧
     s.rd Reg.RD_SEL_STREAM < 1024) ∧
    (∃ (s : State) (src : WrSrc) (clr i : Nat), i < 1024 ∧ s.takes src RegId.RD_CNT_CLR 0 0 false = true ∧ bit clr 5 = true) ∧
    (∃ (s : State) (src : WrSrc) (clr : Nat), s.takes src RegId.RD_CNT_CLR 0 0 false = true ∧ bit clr 4 = false ∧
     bit clr 5 = false) ∧
    (∃ (s : State) (x : Machine.Stream), s.stream (s.rd Reg.RD_SEL_STREAM) = some x ∧ s.domOn 27 = true) ∧
    (∃ (s : State), s.domOn 27 = true ∧ s.stream (s.rd Reg.RD_SEL_STREAM) = none) :=
  ⟨⟨(put tUp [(Reg.HUB_MODE_MODE, 3)]), .direct, 277661, by decide +kernel⟩,
   ⟨(put tUp [(Reg.HUB_MODE_MODE, 3)]), .direct, [], 1, by decide +kernel⟩,
   ⟨{ (put tUp [(Reg.HUB_MODE_MODE, 3)]) with rd_ := { streams := [(5, (some { defn := { tDef with curve := 32 }, raw := [], buf := 1, openAt := 0, next := 3840 }))] } }, .direct, by decide +kernel⟩,
   ⟨(put tUp [(Reg.HUB_MODE_MODE, 3)]), .cfg, 4, by decide +kernel⟩,
   ⟨(put tUp [(Reg.HUB_MODE_MODE, 3)]), .cfg, 0, by decide +kernel⟩,
   ⟨(put tUp [(Reg.HUB_MODE_MODE, 4)]), .cfg, 30, by decide +kernel⟩,
   ⟨(put tUp [(Reg.HUB_MODE_MODE, 3)]), .cfg, 614268, 1023, by decide +kernel⟩,
   ⟨(put tUp [(Reg.HUB_MODE_MODE, 3)]), .cfg, 7, by decide +kernel⟩,
   ⟨{ tUp with rd_ := { streams := [(0, (some { defn := { tDef with kind := 4, index := 3, clockArg := 5, reduce := 1, redArg := 1, stat := 1, format := 1, opts := 63, recCount := 1, cj := 1, ra := 1, rb := 1, trigFlag := 4 }, raw := [5, 1799, 153392], buf := 2, openAt := 44224, next := 7, ticked := true, waitTod := true, began := true, win := (some ([], 6)) }))] } }, { defn := { tDef with kind := 4, index := 3, clockArg := 5, reduce := 1, redArg := 1, stat := 1, format := 1, opts := 63, recCount := 1, cj := 1, ra := 1, rb := 1, trigFlag := 4 }, raw := [5, 1799, 153392], buf := 2, openAt := 44224, next := 7, ticked := true, waitTod := true, began := true, win := (some ([], 6)) }, by decide +kernel⟩,
   ⟨tUp, by decide +kernel⟩⟩

theorem witness_ResolverFaults :
    (∃ (s : State) (c : Nat), c < 32 ∧ s.rdcOn c = true ∧ 2 ≤ (s.rdc c).lowRun ∧ (s.rdc c).los = false ∧
     (s.rdc c).up = true) ∧
    (∃ (s : State) (c : Nat), c < 32 ∧ s.rdcOn c = true ∧ 2 ≤ (s.rdc c).highRun ∧ (s.rdc c).ampHigh = false) ∧
    (∃ (s : State) (c w : Nat), c < 32 ∧ s.rdcOn c = true ∧ w % 4 ≠ 0 ∧ s.eff (Reg.RDC_CFG_OWD c) = 1 ∧
     (s.rdc c).wire = false) ∧
    (∃ (s : State) (c w : Nat), c < 32 ∧ s.rdcOn c = true ∧ w % 4 = 0) ∧
    (∃ (s : State) (c : Nat), c < 32 ∧ s.rdcOn c = true ∧ s.flag (Reg.RDC_STAT_CM_NOW c) = false) ∧
    (∃ (s : State) (c : Nat), c < 32 ∧ s.rdcOwn c = true ∧ (16 ≤ (s.rdc c).errRun ∨ 16 ≤ (s.rdc c).spdRun)) ∧
    (∃ (s : State) (c ua : Nat), c < 32 ∧ s.ampOn c = true ∧
     s.flag (Reg.RDC_STAT_EXC_LIMITING c) ≠ decide (s.ampIlim c * 1000 ≤ ua)) ∧
    (∃ (s : State) (c : Nat), c < 32 ∧ s.rdcOn c = true ∧ (s.rdc c).conv = false ∧ (s.rdc c).up = true) ∧
    (∃ (s : State) (c : Nat) (src : WrSrc) (pass : Bool), c < 32 ∧
     s.takes src RegId.RDC_CTRL (c / 16) (c % 16) true = true ∧ s.rdcOn c = true ∧ s.flag (Reg.RDC_STAT_CONV_FAULT c) = false) ∧
    (∃ (s : State) (c : Nat) (src : WrSrc) (pass : Bool), c < 32 ∧
     s.takes src RegId.RDC_CTRL (c / 16) (c % 16) true = true ∧ s.rdcOn c = true ∧ s.flag (Reg.RDC_STAT_CONV_FAULT c) = true) :=
  ⟨⟨{ (put tUp [(Reg.RDC_CFG_EN 2, 1)]) with ax := { rdc := [(2, { lowRun := 2, up := true })] } }, 2, by decide +kernel⟩,
   ⟨{ (put tUp [(Reg.RDC_CFG_EN 0, 1)]) with ax := { rdc := [(0, { highRun := 2 })] } }, 0, by decide +kernel⟩,
   ⟨(put tUp [(Reg.RDC_CFG_EN 2, 1), (Reg.RDC_CFG_OWD 2, 1)]), 2, 5, by decide +kernel⟩,
   ⟨(put tUp [(Reg.RDC_CFG_EN 0, 1)]), 0, 16, by decide +kernel⟩,
   ⟨(put tUp [(Reg.RDC_CFG_EN 3, 1)]), 3, by decide +kernel⟩,
   ⟨{ (put tUp [(Reg.RDC_CFG_EN 1, 1)]) with ax := { rdc := [(1, { ph := 3, errRun := 16 })] } }, 1, by decide +kernel⟩,
   ⟨(put tUp [(Reg.RDC_CFG_EXC_EN 5, 1)]), 5, 393536, by decide +kernel⟩,
   ⟨{ (put tUp [(Reg.RDC_CFG_EN 4, 1)]) with ax := { rdc := [(4, { up := true })] } }, 4, by decide +kernel⟩,
   ⟨(put tUp [(Reg.HUB_MODE_MODE, 4), (Reg.RDC_CFG_EN 0, 1)]), 0, .direct, true, by decide +kernel⟩,
   ⟨(put tUp [(Reg.HUB_MODE_MODE, 3), (Reg.RDC_CFG_EN 1, 1), (Reg.RDC_STAT_CONV_FAULT 1, 1)]), 1, .cfg, false, by decide +kernel⟩⟩

theorem witness_ResolverTracking :
    (∃ (s : State) (c : Nat) (m : RdcIn), c < 32 ∧ m.ch = c ∧ s.rdcOn c = true ∧ (s.rdc c).ph = 3 ∧
     (s.rdc c).holdTo ≤ s.now ∧ s.paired c = false ∧ s.eff (Reg.RDC_HARM_CFG_EN c) ≠ 1 ∧ s.eff (Reg.RDC_CFG_INVERT c) ≠ 1) ∧
    (∃ (s : State) (c : Nat) (m : RdcIn), c < 32 ∧ m.ch = c ∧ s.rdcOn c = false) ∧
    (∃ (s : State) (c : Nat), c < 32 ∧ s.mayAcquire c = true ∧ (s.seedSig c).delta.natAbs ≤ s.phWin c) ∧
    (∃ (s : State) (c : Nat), c < 32 ∧ s.mayAcquire c = true ∧ s.phWin c < (s.seedSig c).delta.natAbs) ∧
    (∃ (s : State) (c : Nat), c < 32 ∧ s.mayAcquire c = false) ∧
    (∃ (s : State) (c : Nat), c < 32 ∧ (s.rdc c).ph = 2 ∧ (s.rdc c).tryAt + 64 * 240 = s.now ∧ (s.rdc c).lockOk = true) ∧
    (∃ (s : State) (c : Nat), c < 32 ∧ (s.rdc c).ph = 2 ∧ (s.rdc c).tryAt + 64 * 240 = s.now ∧
     (s.rdc c).lockOk = false) ∧
    (∃ (s : State) (c : Nat), c < 32 ∧ s.pairTries c = true ∧ s.pairOut c (s.pairD c) = false) ∧
    (∃ (s : State) (c : Nat), c < 32 ∧ s.pairTries c = true ∧ s.pairOut c (s.pairD c) = true) ∧
    (∃ (s : State) (c : Nat), c < 32 ∧ (s.rdc c).pair = true ∧ 16 ≤ (s.rdc c).slip) ∧
    (∃ (s : State) (c : Nat), c < 32 ∧ s.domOn (16 + c / 16) = true) :=
  ⟨⟨{ (put tUp [(Reg.RDC_CFG_EN 5, 1), (Reg.RDC_HARM_CFG_EN 5, 0)]) with ax := { rdc := [(5, { ph := 3 })] } }, 5, { ch := 5, sn := [767175, (-1829080), (-526507), (-1084250), (-957593), (-1479705), (-410296), (-1910301), (-1091241), 553597, 1710550, 1247900, (-1854865), (-1181144), (-691427), 1899377, (-99406), 1959030, 274292, (-1501932), 565184, 780818, 1216349, (-1672141)], cs := [(-813690), 1046494, 1044790, (-1456089)], uv := 5 }, by decide +kernel⟩,
   ⟨tUp, 5, { ch := 5, sn := [1797564, (-63178), (-438339), 1479326], cs := [(-934385), 28457, (-642791), 980469, 60722, (-883766), 1237561, 496294, 569542, 540208, 1022373, (-1004583), (-1761577), 1932734, 1941808, 325000, 160700, (-260364), 1210617, 1269995, (-1144181), (-1818504), (-53110), 780009], uv := 1 }, by decide +kernel⟩,
   ⟨{ (put State.reset [(Reg.HUB_MODE_MODE, 5), (Reg.HUB_PART_STATE_AX0, 1), (Reg.PW_DOMAIN_STAT_ON, 65536), (Reg.RDC_CFG_EN 1, 1), (Reg.RDC_CFG_EXC_EN 1, 1)]) with run := 245760, ax := { rdc := [(1, { inRun := 2 })] } }, 1, by decide +kernel⟩,
   ⟨{ (put State.reset [(Reg.HUB_MODE_MODE, 5), (Reg.HUB_PART_STATE_AX0, 1), (Reg.PW_DOMAIN_STAT_ON, 65536), (Reg.RDC_CFG_EN 0, 1), (Reg.RDC_CFG_EXC_EN 0, 1), (Reg.RDC_CFG_PH_WIN 0, 0)]) with run := 245760, ax := { rdc := [(0, { sig := { s := 100, c := 3, sq := 50, cq := 70 }, inRun := 2 })] } }, 0, by decide +kernel⟩,
   ⟨tUp, 3, by decide +kernel⟩,
   ⟨{ tUp with now := 15360, ax := { rdc := [(6, { ph := 2 })] } }, 6, by decide +kernel⟩,
   ⟨{ tUp with now := 15360, ax := { rdc := [(6, { ph := 2, lockOk := false })] } }, 6, by decide +kernel⟩,
   ⟨{ (put tUp [(Reg.RDC_CFG_EN 0, 1), (Reg.RDC_CFG_PAIR_EN 0, 1)]) with ax := { rdc := [(0, { ph := 3, cur := { at_ := 3840000, own := true, valid := true } })] } }, 0, by decide +kernel⟩,
   ⟨{ (put tUp [(Reg.RDC_CFG_EN 0, 1), (Reg.RDC_CFG_PAIR_EN 0, 1), (Reg.RDC_CFG_PAIR_TOL 0, 0)]) with ax := { rdc := [(0, { ph := 3, thH := 274877906944, cur := { at_ := 3840000, own := true, valid := true } })] } }, 0, by decide +kernel⟩,
   ⟨{ tUp with ax := { rdc := [(9, { pair := true, slip := 16 })] } }, 9, by decide +kernel⟩,
   ⟨tUp, 0, by decide +kernel⟩⟩

theorem witness_HarmonicLearning :
    (∃ (s : State) (c : Nat) (src : WrSrc), c < 32 ∧ s.takes src RegId.RDC_CTRL (c / 16) (c % 16) true = true ∧
     s.rdcOwn c = true) ∧
    (∃ (s : State) (c : Nat) (src : WrSrc), c < 32 ∧ s.takes src RegId.RDC_CTRL (c / 16) (c % 16) true = true ∧
     s.rdcOwn c = false) ∧
    (∃ (s : State) (c : Nat) (src : WrSrc), c < 32 ∧ s.takes src RegId.RDC_CTRL (c / 16) (c % 16) true = true ∧
     (s.rdc c).learn.isSome = true) ∧
    (∃ (s : State) (c : Nat) (src : WrSrc) (h : Nat), c < 32 ∧
     s.takes src RegId.RDC_CTRL (c / 16) (c % 16) true = true ∧ 1 ≤ h ∧ h ≤ 16) ∧
    (∃ (s : State) (c : Nat) (src : WrSrc), c < 32 ∧ src = WrSrc.direct ∧
     s.takes src RegId.RDC_CTRL (c / 16) (c % 16) true = true) ∧
    (∃ (s : State) (c : Nat) (src : WrSrc), c < 32 ∧ src = WrSrc.cfg ∧
     s.takes src RegId.RDC_CTRL (c / 16) (c % 16) true = true) ∧
    (∃ (s : State) (c : Nat) (l : Learn), c < 32 ∧ (s.rdc c).learn = some l ∧ l.cause ≠ 0 ∧ l.cause < 8) ∧
    (∃ (s : State) (c : Nat) (l : Learn) (w : List (Int × Int)) (i : Nat), c < 32 ∧ (s.rdc c).learn = some l ∧
     w = List.map (fun i => (fun q => (rne (q.fst * ↑(2 ^ 36)) realOne, rne (q.snd * ↑(2 ^ 36)) realOne)) (unLoop (loopKI (s.fnActs c 0)) (loopKP (s.fnActs c 0) (s.zeta c)) (rne l.wSum l.turns) (i + 1) (learnedCoef (binMeans l.acc) (i + 1)))) (List.range 16) ∧
     i < 16 ∧ l.cause = 0 ∧ l.turns ≤ s.rd (Reg.RDC_HARM_STAT_ACCEPTED c) ∧
     (w.any fun q => decide (2 ^ 31 ≤ q.fst.natAbs) || decide (2 ^ 31 ≤ q.snd.natAbs)) = false) ∧
    (∃ (s : State) (c : Nat) (l : Learn), c < 32 ∧ (s.rdc c).learn = some l ∧ l.cause = 0 ∧
     s.rd (Reg.RDC_HARM_STAT_ACCEPTED c) < l.turns) ∧
    (∃ (s : State) (c : Nat) (l : Learn) (w : List (Int × Int)), c < 32 ∧ (s.rdc c).learn = some l ∧
     w = List.map (fun i => (fun q => (rne (q.fst * ↑(2 ^ 36)) realOne, rne (q.snd * ↑(2 ^ 36)) realOne)) (unLoop (loopKI (s.fnActs c 0)) (loopKP (s.fnActs c 0) (s.zeta c)) (rne l.wSum l.turns) (i + 1) (learnedCoef (binMeans l.acc) (i + 1)))) (List.range 16) ∧
     l.cause = 0 ∧ l.turns ≤ s.rd (Reg.RDC_HARM_STAT_ACCEPTED c) ∧
     (w.any fun q => decide (2 ^ 31 ≤ q.fst.natAbs) || decide (2 ^ 31 ≤ q.snd.natAbs)) = true) :=
  ⟨⟨{ (put tUp [(Reg.HUB_MODE_MODE, 3), (Reg.RDC_CFG_EN 0, 1)]) with ax := { rdc := [(0, { ph := 3 })] } }, 0, .direct, by decide +kernel⟩,
   ⟨(put tUp [(Reg.HUB_MODE_MODE, 3)]), 21, .cfg, by decide +kernel⟩,
   ⟨{ (put tUp [(Reg.HUB_MODE_MODE, 3)]) with ax := { rdc := [(7, { learn := (some { ref := 0, turns := 1 }) })] } }, 7, .direct, by decide +kernel⟩,
   ⟨(put tUp [(Reg.HUB_MODE_MODE, 3)]), 0, .direct, 2, by decide +kernel⟩,
   ⟨(put tUp [(Reg.HUB_MODE_MODE, 3)]), 2, .direct, by decide +kernel⟩,
   ⟨(put tUp [(Reg.HUB_MODE_MODE, 3)]), 0, .cfg, by decide +kernel⟩,
   ⟨{ tUp with ax := { rdc := [(0, { learn := (some { ref := 0, turns := 1, cause := 1 }) })] } }, 0, { ref := 0, turns := 1, cause := 1 }, by decide +kernel⟩,
   ⟨{ tUp with ax := { rdc := [(2, { learn := (some { ref := 0, turns := 0 }) })] } }, 2, { ref := 0, turns := 0 }, [(0, 0), (0, 0), (0, 0), (0, 0), (0, 0), (0, 0), (0, 0), (0, 0), (0, 0), (0, 0), (0, 0), (0, 0), (0, 0), (0, 0), (0, 0), (0, 0)], 0, by decide +kernel⟩,
   ⟨{ tUp with ax := { rdc := [(1, { learn := (some { ref := 0, turns := 1 }) })] } }, 1, { ref := 0, turns := 1 }, by decide +kernel⟩,
   ⟨{ tUp with ax := { rdc := [(3, { learn := (some { ref := 0, turns := 0, acc := [(0, (1, 1180591620717411303424))] }) })] } }, 3, { ref := 0, turns := 0, acc := [(0, (1, 1180591620717411303424))] }, [(137438306658, 421656767), (137436366223, 843309565), (137433132184, 1264954425), (137428604572, 1686587379), (137422783429, 2108204459), (137415668811, 2529801695), (137407260785, 2951375120), (137397559429, 3372920765), (137386564835, 3794434663), (137374277106, 4215912847), (137360696358, 4637351348), (137345822719, 5058746201), (137329656329, 5480093440), (137312197340, 5901389097), (137293445916, 6322629208), (137273402233, 6743809809)], by decide +kernel⟩⟩

theorem witness_PositionCounting :
    (∃ (s : State) (i : Nat) (la lb lz : Bool) (len : Nat) (sn cs : Int), i < 16 ∧ s.pfiOn i = true ∧
     s.pfiMode i ≠ pmSINCOS ∧ (la ≠ (s.pfi i).a ∨ lb ≠ (s.pfi i).b) ∧ len < s.pfiFilt i) ∧
    (∃ (s : State) (i : Nat) (la lb lz : Bool) (len : Nat) (sn cs d : Int), i < 16 ∧
     decodeEdge (s.pfiMode i) (s.pfi i).a (s.pfi i).b la lb = some d ∧ s.pfiOn i = true ∧ s.pfiMode i ≠ pmSINCOS ∧
     (la ≠ (s.pfi i).a ∨ lb ≠ (s.pfi i).b) ∧ s.pfiFilt i ≤ len ∧ (∀ (e : Nat), (s.pfi i).edgeAt = some e → e + s.minEdge i ≤ s.run) ∧ s.path i = pPULSE ∧
     (s.pfi i).c < 2 ^ 48) ∧
    (∃ (s : State) (i : Nat) (la lb lz : Bool) (len : Nat) (sn cs : Int), i < 16 ∧ s.pfiOn i = true ∧
     s.pfiMode i ≠ pmSINCOS ∧ (la ≠ (s.pfi i).a ∨ lb ≠ (s.pfi i).b) ∧ s.pfiFilt i ≤ len ∧ decodeEdge (s.pfiMode i) (s.pfi i).a (s.pfi i).b la lb = none) ∧
    (∃ (s : State) (i : Nat) (sn cs : Int), i < 16 ∧ s.pfiOn i = true ∧ s.pfiMode i ≠ pmSINCOS ∧
     (s.pfi i).lineAB = false ∧ s.flag (Reg.PFI_STAT_FB_READY i) = false) ∧
    (∃ (s : State) (i : Nat) (sn cs : Int), i < 16 ∧ s.pfiOn i = true ∧ s.pfiMode i ≠ pmSINCOS ∧
     (s.pfi i).lineAB = false ∧ s.flag (Reg.PFI_STAT_FB_READY i) = true ∧ s.path i = pPULSE) ∧
    (∃ (s : State) (i : Nat) (z : Bool), i < 16 ∧ z = true) ∧
    (∃ (s : State) (i : Nat) (z : Bool), i < 16 ∧ z = false) ∧
    (∃ (s : State) (i : Nat), i < 16 ∧ s.pfiOn i = true ∧ (s.pfi i).scAmp = false ∧ 2 ≤ (s.pfi i).ampOut ∧
     s.path i = pPULSE) ∧
    (∃ (s : State) (i : Nat), i < 16 ∧ s.pfiOn i = true ∧ (s.pfi i).scAmp = false ∧ 2 ≤ (s.pfi i).ampOut ∧
     s.path i ≠ pPULSE) ∧
    (∃ (s : State) (i : Nat), i < 16 ∧ s.pfiOn i = true ∧ (s.pfi i).scAmp = true ∧ 16 ≤ (s.pfi i).ampIn) ∧
    (∃ (s : State) (i : Nat), i < 16 ∧ s.pfiOn i = true ∧ (s.pfi i).scFast = true ∧ 16 ≤ (s.pfi i).slowRun) ∧
    (∃ (s : State) (i : Nat), i < 16 ∧ s.pfiOn i = true ∧ (s.pfi i).scFast = false ∧ 2 ≤ (s.pfi i).fastRun ∧
     s.path i = pPULSE) ∧
    (∃ (s : State) (i : Nat), i < 16 ∧ s.pfiOn i = true ∧ (s.pfi i).scFast = false ∧ 2 ≤ (s.pfi i).fastRun ∧
     s.path i ≠ pPULSE) ∧
    (∃ (s : State) (i : Nat), i < 16 ∧ s.eff (Reg.PFI_CFG_FALLBACK i) = 1 ∧ s.pfiOn i = true ∧ s.pfiMode i = pmQUAD ∧
     s.path i = pPULSE ∧ s.flag (Reg.PFI_STAT_FB_READY i) = false ∧ (s.pfi i).scAmp = false ∧ (s.pfi i).scFast = false ∧
     s.elapsed (s.pfi i).scOk (64 * cclkBeat) = true ∧ (s.pfi i).c < 2 ^ 48) ∧
    (∃ (s : State) (i : Nat), i < 16 ∧ s.flag (Reg.PFI_STAT_FB_READY i) = true ∧ 16 ≤ (s.pfi i).dis) :=
  ⟨⟨(put tUp [(Reg.PFI_CFG_MODE 9, 1)]), 9, true, false, false, 0, (-4), 27, by decide +kernel⟩,
   ⟨(put tUp [(Reg.PFI_CFG_MODE 0, 1), (Reg.PFI_STAT_PATH 0, 1)]), 0, true, false, true, 18, 1, 1500, 1, by decide +kernel⟩,
   ⟨(put tUp [(Reg.PFI_CFG_MODE 0, 1)]), 0, true, true, true, 5, 7800023400, 1500, by decide +kernel⟩,
   ⟨(put tUp [(Reg.PFI_CFG_MODE 0, 1)]), 0, 3300009900, 2000006, by decide +kernel⟩,
   ⟨(put tUp [(Reg.PFI_CFG_MODE 4, 1), (Reg.PFI_STAT_PATH 4, 1), (Reg.PFI_STAT_FB_READY 4, 1)]), 4, 2400, (-5), by decide +kernel⟩,
   ⟨tUp, 0, true, by decide +kernel⟩,
   ⟨tUp, 0, false, by decide +kernel⟩,
   ⟨{ (put tUp [(Reg.PFI_CFG_MODE 4, 1), (Reg.PFI_STAT_PATH 4, 1)]) with ax := { pfi := [(4, { ampOut := 2 })] } }, 4, by decide +kernel⟩,
   ⟨{ (put tUp [(Reg.PFI_CFG_MODE 0, 1)]) with ax := { pfi := [(0, { ampOut := 2 })] } }, 0, by decide +kernel⟩,
   ⟨{ (put tUp [(Reg.PFI_CFG_MODE 0, 1)]) with ax := { pfi := [(0, { scAmp := true, ampIn := 16 })] } }, 0, by decide +kernel⟩,
   ⟨{ (put tUp [(Reg.PFI_CFG_MODE 0, 1)]) with ax := { pfi := [(0, { scFast := true, slowRun := 16 })] } }, 0, by decide +kernel⟩,
   ⟨{ (put tUp [(Reg.PFI_CFG_MODE 2, 1), (Reg.PFI_STAT_PATH 2, 1)]) with ax := { pfi := [(2, { fastRun := 2 })] } }, 2, by decide +kernel⟩,
   ⟨{ (put tUp [(Reg.PFI_CFG_MODE 6, 1)]) with ax := { pfi := [(6, { fastRun := 2 })] } }, 6, by decide +kernel⟩,
   ⟨(put tUp [(Reg.PFI_CFG_MODE 6, 1), (Reg.PFI_CFG_FALLBACK 6, 1), (Reg.PFI_STAT_PATH 6, 1)]), 6, by decide +kernel⟩,
   ⟨{ (put tUp [(Reg.PFI_STAT_FB_READY 0, 1)]) with ax := { pfi := [(0, { dis := 16 })] } }, 0, by decide +kernel⟩⟩

theorem witness_PositionFusion :
    (∃ (s : State) (i : Nat), i < 16 ∧ s.fuseEn i = true ∧ s.fstate i = fsANCHOR ∧ s.eff (Reg.PFI_FUSE_ANCHOR i) = 0 ∧
     (s.pfi i).winN = 2 ^ min 16 (s.eff (Reg.PFI_FUSE_AVG i))) ∧
    (∃ (s : State) (i : Nat), i < 16 ∧ s.fstate i = fsFUSED ∧ 16 ≤ (s.pfi i).slip) ∧
    (∃ (s : State) (i : Nat), i < 16 ∧ s.pfiOn i = true ∧ s.eff (Reg.PFI_CFG_INDEX_MODE i) ≠ 0 ∧ (s.pfi i).lineZ = false ∧
     (s.pfi i).ev = true ∧ s.eff (Reg.PFI_CFG_INDEX_MODE i) = 2 ∧ s.fuseEn i = false) ∧
    (∃ (s : State) (i : Nat), i < 16 ∧ s.pfiOn i = true ∧ s.eff (Reg.PFI_CFG_INDEX_MODE i) ≠ 0 ∧ (s.pfi i).lineZ = false ∧
     (s.pfi i).ev = true ∧ s.eff (Reg.PFI_CFG_INDEX_MODE i) = 3) ∧
    (∃ (s : State) (i : Nat), i < 16 ∧ s.pfiOn i = true ∧ s.eff (Reg.PFI_CFG_INDEX_MODE i) ≠ 0 ∧ (s.pfi i).lineZ = false ∧
     (s.pfi i).ev = true ∧ s.eff (Reg.PFI_CFG_INDEX_MODE i) = 1) ∧
    (∃ (s : State) (i : Nat), i < 16 ∧
     (s.eff (Reg.PFI_CFG_INDEX_MODE i) = 0 ∨ (s.pfi i).lineZ = true ∨ (s.pfi i).ev = false)) ∧
    (∃ (s : State) (i : Nat) (src : WrSrc), i < 16 ∧ s.takes src RegId.PFI_CTRL (i / 8) (i % 8) true = true ∧
     s.eff (Reg.PFI_CFG_INDEX_MODE i) = 3) ∧
    (∃ (s : State) (i : Nat) (src : WrSrc), i < 16 ∧ s.takes src RegId.PFI_CTRL (i / 8) (i % 8) true = true ∧
     s.eff (Reg.PFI_CFG_INDEX_MODE i) ≠ 3) ∧
    (∃ (s : State) (i : Nat) (src : WrSrc), i < 16 ∧ s.takes src RegId.PFI_CTRL (i / 8) (i % 8) true = true ∧
     s.path i = pFALLBACK ∧ (s.pfi i).lineAB = false) ∧
    (∃ (s : State) (i : Nat) (src : WrSrc), i < 16 ∧ s.takes src RegId.PFI_CTRL (i / 8) (i % 8) true = true ∧
     (s.path i ≠ pFALLBACK ∨ (s.pfi i).lineAB = true)) ∧
    (∃ (s : State) (i : Nat), i < 16 ∧ s.domOn (16 + i / 8) = true) :=
  ⟨⟨{ (put tUp [(Reg.PFI_FUSE_EN 2, 1), (Reg.PFI_STAT_FSTATE 2, 2)]) with ax := { pfi := [(2, { winN := 1024 })] } }, 2, by decide +kernel⟩,
   ⟨{ (put tUp [(Reg.PFI_STAT_FSTATE 4, 3)]) with ax := { pfi := [(4, { slip := 16 })] } }, 4, by decide +kernel⟩,
   ⟨{ (put tUp [(Reg.PFI_CFG_MODE 5, 1), (Reg.PFI_CFG_INDEX_MODE 5, 2)]) with ax := { pfi := [(5, { ev := true })] } }, 5, by decide +kernel⟩,
   ⟨{ (put tUp [(Reg.PFI_CFG_MODE 7, 1), (Reg.PFI_CFG_INDEX_MODE 7, 3)]) with ax := { pfi := [(7, { ev := true })] } }, 7, by decide +kernel⟩,
   ⟨{ (put tUp [(Reg.PFI_CFG_MODE 2, 1), (Reg.PFI_CFG_INDEX_MODE 2, 1)]) with ax := { pfi := [(2, { ev := true })] } }, 2, by decide +kernel⟩,
   ⟨tUp, 2, by decide +kernel⟩,
   ⟨(put tUp [(Reg.HUB_MODE_MODE, 3), (Reg.PFI_CFG_INDEX_MODE 5, 3)]), 5, .direct, by decide +kernel⟩,
   ⟨(put tUp [(Reg.HUB_MODE_MODE, 3)]), 9, .direct, by decide +kernel⟩,
   ⟨(put tUp [(Reg.HUB_MODE_MODE, 3), (Reg.PFI_STAT_PATH 5, 3)]), 5, .direct, by decide +kernel⟩,
   ⟨(put tUp [(Reg.HUB_MODE_MODE, 3)]), 15, .direct, by decide +kernel⟩,
   ⟨tUp, 3, by decide +kernel⟩⟩

theorem witness_ProbesAndEmulation :
    (∃ (s : State) (p : Nat) (rise : Bool) (len ago : Nat), p < 8 ∧ s.eff (Reg.PFI_PB_CFG_FILT p) ≤ len ∧
     s.eff (Reg.PFI_PB_CFG_EN p) = 1 ∧ s.eff (Reg.PFI_PB_CFG_EDGE p) = 3 ∧ s.axUp (p / 4) = true ∧ s.sampling = true ∧
     s.eff (Reg.PFI_PB_CFG_CONT p) ≠ 1 ∧ s.flag (Reg.PFI_PB_STAT_ARMED p) = true) ∧
    (∃ (s : State) (p : Nat) (rise : Bool) (len ago : Nat), p < 8 ∧ s.eff (Reg.PFI_PB_CFG_FILT p) ≤ len ∧
     s.eff (Reg.PFI_PB_CFG_EN p) = 1 ∧ s.eff (Reg.PFI_PB_CFG_EDGE p) = 3 ∧ s.axUp (p / 4) = true ∧ s.sampling = true ∧
     s.eff (Reg.PFI_PB_CFG_CONT p) ≠ 1 ∧ s.flag (Reg.PFI_PB_STAT_ARMED p) = false) ∧
    (∃ (s : State) (p : Nat) (rise : Bool) (len ago l : Nat), p < 8 ∧ (s.probe p).last = some l ∧
     s.eff (Reg.PFI_PB_CFG_FILT p) ≤ len ∧ s.eff (Reg.PFI_PB_CFG_EN p) = 1 ∧ s.eff (Reg.PFI_PB_CFG_EDGE p) = 3 ∧ s.axUp (p / 4) = true ∧
     s.sampling = true ∧ s.eff (Reg.PFI_PB_CFG_CONT p) = 1 ∧ s.run - ago < l + s.probeDead p) ∧
    (∃ (s : State) (p : Nat) (src : WrSrc), p < 8 ∧ s.takes src RegId.PFI_PB_CFG (p / 4) (p % 4) true = true ∧
     s.eff (Reg.PFI_PB_CFG_CONT p) = 0) ∧
    (∃ (s : State) (p i : Nat), p < 8 ∧ i < 8 ∧ s.domOn (16 + p / 4) = true) ∧
    (∃ (s : State) (e : Nat), e < 16 ∧ s.eeBarred e = true ∧ (s.emu e).muzzled = false) ∧
    (∃ (s : State) (e : Nat), e < 16 ∧ s.eeBarred e = false ∧ (s.emu e).changed = false ∧ (s.emu e).muzzled = true ∧
     (s.eff (Reg.EE_CFG_AUTO_RESUME e) = 1 ∨ (s.emu e).restart = true)) ∧
    (∃ (s : State) (e : Nat), e < 16 ∧ s.eeBarred e = false ∧ (s.emu e).changed = false ∧ (s.emu e).muzzled = true ∧
     s.eff (Reg.EE_CFG_AUTO_RESUME e) ≠ 1 ∧ (s.emu e).restart = false) ∧
    (∃ (s : State) (e : Nat), e < 16 ∧ s.eeBarred e = false ∧ (s.emu e).changed = false ∧ (s.emu e).muzzled = false ∧
     ((s.emu e).target - (s.emu e).e).natAbs ≤ 24) ∧
    (∃ (s : State) (e : Nat) (src : WrSrc), e < 16 ∧ s.takes src RegId.EE_CTRL (e / 8) (e % 8) true = true ∧
     (s.emu e).muzzled = true) ∧
    (∃ (s : State) (e : Nat) (src : WrSrc), e < 16 ∧ s.takes src RegId.EE_CTRL (e / 8) (e % 8) true = true ∧
     (s.emu e).muzzled = false) :=
  ⟨⟨(put tUp [(Reg.PFI_PB_CFG_EN 0, 1), (Reg.PFI_PB_CFG_EDGE 0, 3), (Reg.PFI_PB_STAT_ARMED 0, 1)]), 0, true, 5, 205, by decide +kernel⟩,
   ⟨(put tUp [(Reg.PFI_PB_CFG_EN 2, 1), (Reg.PFI_PB_CFG_EDGE 2, 3)]), 2, false, 40391, 11, by decide +kernel⟩,
   ⟨{ (put State.reset [(Reg.HUB_MODE_MODE, 5), (Reg.HUB_PART_STATE_AX0, 1), (Reg.PW_DOMAIN_STAT_ON, 65536), (Reg.PFI_PB_CFG_EN 3, 1), (Reg.PFI_PB_CFG_EDGE 3, 3), (Reg.PFI_PB_CFG_CONT 3, 1)]) with ax := { pb := [(3, { last := (some 6) })] } }, 3, true, 2, 1, 6, by decide +kernel⟩,
   ⟨(put tUp [(Reg.HUB_MODE_MODE, 3)]), 7, .direct, by decide +kernel⟩,
   ⟨tUp, 4, 0, by decide +kernel⟩,
   ⟨{ tUp with ax := { ee := [(7, { muzzled := false })] } }, 7, by decide +kernel⟩,
   ⟨{ (put tUp [(Reg.RDC_CFG_EN 0, 1), (Reg.EE_CFG_EN 6, 1)]) with ax := { rdc := [(0, { ph := 3, cur := { own := true, valid := true } })] } }, 6, by decide +kernel⟩,
   ⟨{ (put tUp [(Reg.RDC_CFG_EN 0, 1), (Reg.EE_CFG_EN 3, 1), (Reg.EE_CFG_AUTO_RESUME 3, 0)]) with ax := { rdc := [(0, { ph := 3, cur := { own := true, valid := true } })] } }, 3, by decide +kernel⟩,
   ⟨{ (put tUp [(Reg.RDC_CFG_EN 0, 1), (Reg.EE_CFG_EN 1, 1)]) with ax := { rdc := [(0, { ph := 3, cur := { own := true, valid := true } })], ee := [(1, { muzzled := false })] } }, 1, by decide +kernel⟩,
   ⟨(put tUp [(Reg.HUB_MODE_MODE, 3)]), 15, .cfg, by decide +kernel⟩,
   ⟨{ (put tUp [(Reg.HUB_MODE_MODE, 3)]) with ax := { ee := [(4, { muzzled := false })] } }, 4, .cfg, by decide +kernel⟩⟩

theorem witness_LoopBoundaries :
    (∃ (s : State), s.domOn 27 = false) ∧
    (∃ (s : State) (l : Nat), l < 64 ∧ s.domOn 27 = true ∧ s.bn % 2 ^ s.loopP l = 0 ∧ s.engine ≠ 0 ∧ s.loopOn l = false) ∧
    (∃ (s : State) (l : Nat), l < 64 ∧ s.domOn 27 = true ∧ s.bn % 2 ^ s.loopP l = 0 ∧ s.engine ≠ 0 ∧ s.loopOn l = true ∧
     s.eff (Reg.LE_LOOP_CFG_FB_KIND l) = 1 ∧ (Sparse.get { } (s.eff (Reg.LE_LOOP_CFG_FB_IDX l)) s.rd_.latest).seen = []) :=
  ⟨⟨State.reset, by decide +kernel⟩,
   ⟨(put State.reset [(Reg.HUB_MODE_MODE, 5), (Reg.PW_DOMAIN_STAT_ON, 134217728)]), 63, by decide +kernel⟩,
   ⟨(put State.reset [(Reg.HUB_MODE_MODE, 5), (Reg.PW_DOMAIN_STAT_ON, 134217728), (Reg.LE_LOOP_CFG_EN 1, 1)]), 1, by decide +kernel⟩⟩

theorem witness_LoopOperations :
    (∃ (s : State) (src : WrSrc) (g : Nat), g < 16 ∧ s.takes src RegId.LE_ARENA_CTRL 0 g true = true ∧
     ((s.arena g).stopped = true ∨ (s.arena g).satMuz = true)) ∧
    (∃ (s : State) (src : WrSrc) (g : Nat), g < 16 ∧ s.takes src RegId.LE_ARENA_CTRL 0 g true = true ∧
     (s.arena g).stopped = false ∧ (s.arena g).satMuz = false) ∧
    (∃ (s : State) (src : WrSrc) (g : Nat), g < 16 ∧ s.takes src RegId.LE_ARENA_CTRL 0 g false = true ∧
     s.mode ≠ mCOMMISSION) ∧
    (∃ (s : State) (src : WrSrc) (l v k : Nat), l < 64 ∧ s.takes src RegId.LE_LOOP_CTRL 0 l true = true ∧ k ≠ l) ∧
    (∃ (s : State) (v low : Nat), low < 2 ^ 32 ∧ s.takes WrSrc.direct RegId.LE_BANK_SEL 0 0 false = true ∧
     Sparse.get 0 Reg.LE_BANK_SEL_SEL.key s.hold = low + 1 ∧ (∀ (l : Nat), l < 64 → s.selOpen l = true)) :=
  ⟨⟨{ (put tUp [(Reg.HUB_MODE_MODE, 3)]) with le := { arenas := [(4, { stopped := true })] } }, .direct, 4, by decide +kernel⟩,
   ⟨(put tUp [(Reg.HUB_MODE_MODE, 3)]), .cfg, 0, by decide +kernel⟩,
   ⟨(put tUp [(Reg.HUB_MODE_MODE, 3)]), .direct, 1, by decide +kernel⟩,
   ⟨(put tUp [(Reg.HUB_MODE_MODE, 3)]), .direct, 0, 7, 4, by decide +kernel⟩,
   ⟨{ (put tUp [(Reg.HUB_MODE_MODE, 4)]) with hold := [(3670144, 7)] }, 393536, 6, by decide +kernel⟩⟩

theorem witness_AnalogueOutputs :
    (∃ (s : State) (vs amps head : List Int), s.domOn 18 = false) ∧
    (∃ (s : State) (vs amps head : List Int) (o : Nat), o < 16 ∧ s.domOn 18 = true ∧ s.flag (Reg.AO_CFG_EN o) = false) ∧
    (∃ (s : State) (ch k : Nat), ch < 2 ∧ k < 8 ∧
     (s.flag (if ch = 0 then Reg.DV_CARD_STAT_AOCLR0 else Reg.DV_CARD_STAT_AOCLR1) = false)) ∧
    (∃ (s : State) (ch : Nat), ch < 2 ∧
     (s.flag (if ch = 0 then Reg.DV_CARD_STAT_AOCLR0 else Reg.DV_CARD_STAT_AOCLR1) = true)) ∧
    (∃ (s : State) (src : WrSrc) (o code : Nat), o < 16 ∧ s.arenaOn 3 o = none ∧
     s.takes src RegId.AO_CODE 0 o true = true ∧ s.mode = mCOMMISSION) ∧
    (∃ (s : State) (o code : Nat), o < 16 ∧ (s.arenaOn 3 o).isSome = true) ∧
    (∃ (s : State) (o : Nat), o < 16 ∧ 2 ≤ (s.ao o).low ∧ s.flag (Reg.AO_STAT_COMPLIANCE o) = false) ∧
    (∃ (s : State) (o : Nat), o < 16 ∧ 2 ≤ (s.ao o).openN ∧ s.flag (Reg.AO_STAT_OPEN o) = false) ∧
    (∃ (s : State) (o : Nat), o < 16 ∧ 2 ≤ (s.ao o).overN ∧ s.flag (Reg.AO_STAT_OVERLOAD o) = false) :=
  ⟨⟨State.reset, [(-4)], [(-3), 15000045], [4000012, 7000021], by decide +kernel⟩,
   ⟨tUp, [], [], [(-3), 15], 0, by decide +kernel⟩,
   ⟨tUp, 1, 2, by decide +kernel⟩,
   ⟨(put tUp [(Reg.DV_CARD_STAT_AOCLR1, 1)]), 1, by decide +kernel⟩,
   ⟨(put tUp [(Reg.HUB_MODE_MODE, 4)]), .cfg, 7, 5, by decide +kernel⟩,
   ⟨(put tUp [(Reg.LE_ARENA_CFG_EN 0, 1), (Reg.LE_ARENA_CFG_OUT_KIND 0, 3)]), 0, 3, by decide +kernel⟩,
   ⟨{ tUp with aos := [(3, { low := 2 })] }, 3, by decide +kernel⟩,
   ⟨{ tUp with aos := [(0, { openN := 2 })] }, 0, by decide +kernel⟩,
   ⟨{ tUp with aos := [(3, { overN := 2 })] }, 3, by decide +kernel⟩⟩

theorem witness_MotionCommands :
    (∃ (s : State) (h : CmdHdr) (a kind : Nat) (value : Int) (vmax acc dec : Nat) (st : Status), moveRefuse s h a kind value = some st ∧
     byRing s h) ∧
    (∃ (s : State) (h : CmdHdr) (a kind : Nat) (value : Int) (vmax acc dec b : Nat), byRing s h ∧
     moveRefuse s h a kind value = none ∧ h.inst = Inst.none ∧ (s.axis a).next = none ∧ b ≠ a) ∧
    (∃ (s : State) (h : CmdHdr) (a source n dir : Nat) (vel : Int) (dist : Nat) (pos : Int) (stream thresh : Nat) (st : Status), homeRefuse s h a source n dir = some st ∧
     byRing s h) ∧
    (∃ (s : State) (h : CmdHdr) (a source n dir : Nat) (vel : Int) (dist : Nat) (pos : Int) (stream thresh : Nat), byRing s h ∧
     homeRefuse s h a source n dir = none ∧ h.inst = Inst.none ∧ (s.axis a).next = none) ∧
    (∃ (s : State) (h : CmdHdr) (mask kind vmax acc dec : Nat) (targets : List Int) (st : Status), groupRefuse s h mask kind targets = some st ∧
     byRing s h) ∧
    (∃ (s : State) (h : CmdHdr) (mask kind vmax acc dec : Nat) (targets : List Int), byRing s h ∧
     groupRefuse s h mask kind targets = none ∧ h.inst = Inst.none) ∧
    (∃ (s : State) (h : CmdHdr) (a kind : Nat) (value : Int) (source n dir mask : Nat) (targets : List Int), byRing s h ∧
     (s.modeDrives = false ∨ s.halted = true)) ∧
    (∃ (s : State) (h : CmdHdr) (kind a mask : Nat) (st : Status), stopRefuse s kind a mask = some st ∧ byRing s h) ∧
    (∃ (s : State) (h : CmdHdr) (a : Nat), a < 16 ∧ byRing s h ∧ s.barred = false ∧ h.inst = Inst.none ∧
     s.arenaOn 1 a = none ∧ s.inGroup a = false ∧ s.axState a = axMOVING) ∧
    (∃ (s : State) (h : CmdHdr) (a : Nat), a < 16 ∧ byRing s h ∧ s.barred = false ∧ h.inst = Inst.none ∧
     s.arenaOn 1 a = none ∧ s.inGroup a = false ∧ ((s.axis a).waiting.isSome = true ∨ (s.axis a).next.isSome = true)) ∧
    (∃ (s : State) (h : CmdHdr) (a : Nat), a < 16 ∧ byRing s h ∧ s.barred = false ∧ h.inst = Inst.none ∧
     s.arenaOn 1 a = none ∧ s.inGroup a = false ∧ s.axState a ≠ axMOVING ∧ (s.axis a).waiting = none ∧ (s.axis a).next = none) :=
  ⟨⟨tUp, { tHdr with tag := 127, opcode := 4, quiet := true, index := 0 }, 4, 21, (-1), 805747, 7, 20019, Sys2Proof.Status.badParam, by unfold byRing; decide +kernel⟩,
   ⟨(put tUp [(Reg.PW_BOOK_BUDGET 0, 11600), (Reg.DV_AX_CFG_USE 5, 1), (Reg.DV_AX_STAT_STATE 5, 1)]), { tHdr with tag := 140, opcode := 17, index := 3 }, 5, 1, 1, 2, 0, 272048, 40125, by unfold byRing; decide +kernel⟩,
   ⟨tUp, { tHdr with tag := 85, opcode := 32, inst := (.beat 256), index := 1 }, 4, 2, 6, 11, 450000000000, 2, (-2), 3, 1, Sys2Proof.Status.badParam, by unfold byRing; decide +kernel⟩,
   ⟨(put tUp [(Reg.PW_BOOK_BUDGET 0, 11600), (Reg.DV_AX_CFG_USE 7, 1), (Reg.DV_AX_STAT_STATE 7, 1)]), { tHdr with tag := 112, opcode := 83, index := 0 }, 7, 1, 3, 0, 2400, 4, 19312, 6, 7, by unfold byRing; decide +kernel⟩,
   ⟨tUp, { tHdr with tag := 246, opcode := 83, index := 7 }, 3, 6, 4, 1, 5, [26, 2400, 3, 2400], Sys2Proof.Status.badParam, by unfold byRing; decide +kernel⟩,
   ⟨(put tUp [(Reg.PW_BOOK_BUDGET 0, 11600), (Reg.DV_AX_CFG_USE 0, 1), (Reg.DV_AX_CFG_USE 1, 1), (Reg.DV_AX_CFG_USE 2, 1), (Reg.DV_AX_CFG_USE 3, 1), (Reg.DV_AX_STAT_STATE 0, 1), (Reg.DV_AX_STAT_STATE 1, 1), (Reg.DV_AX_STAT_STATE 2, 1), (Reg.DV_AX_STAT_STATE 3, 1)]), { tHdr with tag := 147, opcode := 87 }, 3, 1, 15, 4, 6, [4, 900000000000, (-4), 900000000000], by unfold byRing; decide +kernel⟩,
   ⟨(put tUp [(Reg.HUB_MODE_MODE, 3)]), { tHdr with tag := 20, opcode := 103, index := 5 }, 24, 0, (-62545), 12, 10, 35235, 3, [5, 0, 7, 16], by unfold byRing; decide +kernel⟩,
   ⟨tUp, { tHdr with tag := 14, opcode := 87, quiet := true, index := 5 }, 4, 0, 3, Sys2Proof.Status.badParam, by unfold byRing; decide +kernel⟩,
   ⟨(put tUp [(Reg.DV_AX_STAT_STATE 7, 3)]), { tHdr with tag := 160, opcode := 27 }, 7, by unfold byRing; decide +kernel⟩,
   ⟨{ (put tUp [(Reg.DV_AX_STAT_STATE 0, 3), (Reg.DV_AX_STAT_STATE 1, 3), (Reg.DV_AX_STAT_STATE 2, 3), (Reg.DV_AX_STAT_STATE 3, 3), (Reg.DV_AX_STAT_STATE 4, 3), (Reg.DV_AX_STAT_STATE 5, 3), (Reg.DV_AX_STAT_STATE 6, 3), (Reg.DV_AX_STAT_STATE 7, 3), (Reg.DV_AX_STAT_STATE 8, 3), (Reg.DV_AX_STAT_STATE 9, 3), (Reg.DV_AX_STAT_STATE 10, 3), (Reg.DV_AX_STAT_STATE 11, 3), (Reg.DV_AX_STAT_STATE 12, 3), (Reg.DV_AX_STAT_STATE 13, 3), (Reg.DV_AX_STAT_STATE 14, 3), (Reg.DV_AX_STAT_STATE 15, 3)]) with dv := { axes := [(0, { next := (some (.move { hdr := (some { tHdr with tag := 7, opcode := 32, index := 3 }), kind := 0, value := 100, vmax := 10, acc := 10, dec := 10, deferred := false, stow := false })), on := true }), (1, { next := (some (.move { hdr := (some { tHdr with tag := 7, opcode := 32, index := 3 }), kind := 0, value := 100, vmax := 10, acc := 10, dec := 10, deferred := false, stow := false })) }), (2, { next := (some (.move { hdr := (some { tHdr with tag := 7, opcode := 32, index := 3 }), kind := 0, value := 100, vmax := 10, acc := 10, dec := 10, deferred := false, stow := false })), on := true }), (3, { next := (some (.move { hdr := (some { tHdr with tag := 7, opcode := 32, index := 3 }), kind := 0, value := 100, vmax := 10, acc := 10, dec := 10, deferred := false, stow := false })) }), (4, { next := (some (.move { hdr := (some { tHdr with tag := 7, opcode := 32, index := 3 }), kind := 0, value := 100, vmax := 10, acc := 10, dec := 10, deferred := false, stow := false })), on := true }), (5, { next := (some (.move { hdr := (some { tHdr with tag := 7, opcode := 32, index := 3 }), kind := 0, value := 100, vmax := 10, acc := 10, dec := 10, deferred := false, stow := false })) }), (6, { next := (some (.move { hdr := (some { tHdr with tag := 7, opcode := 32, index := 3 }), kind := 0, value := 100, vmax := 10, acc := 10, dec := 10, deferred := false, stow := false })), on := true }), (7, { next := (some (.move { hdr := (some { tHdr with tag := 7, opcode := 32, index := 3 }), kind := 0, value := 100, vmax := 10, acc := 10, dec := 10, deferred := false, stow := false })) }), (8, { next := (some (.move { hdr := (some { tHdr with tag := 7, opcode := 32, index := 3 }), kind := 0, value := 100, vmax := 10, acc := 10, dec := 10, deferred := false, stow := false })), on := true }), (9, { next := (some (.move { hdr := (some { tHdr with tag := 7, opcode := 32, index := 3 }), kind := 0, value := 100, vmax := 10, acc := 10, dec := 10, deferred := false, stow := false })) }), (10, { next := (some (.move { hdr := (some { tHdr with tag := 7, opcode := 32, index := 3 }), kind := 0, value := 100, vmax := 10, acc := 10, dec := 10, deferred := false, stow := false })), on := true }), (11, { next := (some (.move { hdr := (some { tHdr with tag := 7, opcode := 32, index := 3 }), kind := 0, value := 100, vmax := 10, acc := 10, dec := 10, deferred := false, stow := false })) }), (12, { next := (some (.move { hdr := (some { tHdr with tag := 7, opcode := 32, index := 3 }), kind := 0, value := 100, vmax := 10, acc := 10, dec := 10, deferred := false, stow := false })), on := true }), (13, { next := (some (.move { hdr := (some { tHdr with tag := 7, opcode := 32, index := 3 }), kind := 0, value := 100, vmax := 10, acc := 10, dec := 10, deferred := false, stow := false })) }), (14, { next := (some (.move { hdr := (some { tHdr with tag := 7, opcode := 32, index := 3 }), kind := 0, value := 100, vmax := 10, acc := 10, dec := 10, deferred := false, stow := false })), on := true }), (15, { next := (some (.move { hdr := (some { tHdr with tag := 7, opcode := 32, index := 3 }), kind := 0, value := 100, vmax := 10, acc := 10, dec := 10, deferred := false, stow := false })) })] }, hp := { inflight := [{ hdr := { tHdr with tag := 7, opcode := 32, index := 3 }, begun := true }] } }, { tHdr with tag := 40, opcode := 69, quiet := true }, 15, by unfold byRing; decide +kernel⟩,
   ⟨tUp, { tHdr with tag := 152, opcode := 46, index := 3 }, 0, by unfold byRing; decide +kernel⟩⟩

theorem witness_MotionBoundaries :
    (∃ (s : State) (a : Nat) (m : Motion), a < 16 ∧ (s.axis a).next = some m ∧ s.d0Waits = false ∧
     s.axState a ≠ axMOVING ∧ (s.axis a).waiting = none ∧ s.startBar a m = none ∧ s.motionFunded a = true) ∧
    (∃ (s : State) (a : Nat) (m : Motion), a < 16 ∧ (s.axis a).next = some m ∧ s.d0Waits = false ∧
     s.axState a ≠ axMOVING ∧ (s.axis a).waiting = none ∧ s.startBar a m = none ∧ s.motionFunded a = false) ∧
    (∃ (s : State) (a : Nat) (m : Motion) (c : Nat) (h : CmdHdr) (d : Bool), a < 16 ∧ (s.axis a).next = some m ∧
     s.startBar a m = some c ∧ motionHdr m = some (h, d) ∧ s.d0Waits = false ∧ s.axState a ≠ axMOVING ∧ (s.axis a).waiting = none ∧ byRing s h ∧
     (s.axis a).energise = false) ∧
    (∃ (s : State) (a : Nat) (m : Motion) (h : CmdHdr) (d : Bool), a < 16 ∧ (s.axis a).waiting = some m ∧
     motionHdr m = some (h, d) ∧ s.dv.groups = [] ∧ motionCls m ≠ 0 ∧ s.axState a = axWAIT ∧ s.elapsed (s.axis a).waitSince s.grantWait = true) ∧
    (∃ (s : State) (a : Nat), a < 16 ∧ s.axState a = axHOLD ∧ (s.axis a).runCur = true ∧
     s.elapsed (s.axis a).stillSince (s.rd (Reg.DV_AX_CFG_HOLD_DELAY a) * cclkMs) = true) ∧
    (∃ (s : State) (a : Nat) (chops : List ChopIn), a < 16 ∧ s.domOn 18 = false) ∧
    (∃ (s : State) (a : Nat) (chops : List ChopIn) (v : Int), a < 16 ∧ (s.axis a).setPos = some v ∧ s.domOn 18 = true ∧
     s.dv.groups = [] ∧ s.dv.groupNext = [] ∧ s.axState a ≠ axMOVING) ∧
    (∃ (s : State) (a : Nat) (chops : List ChopIn) (m : Move) (d : Int), a < 16 ∧
     d = clamp (-s.vmaxOf a m.vmax) (s.vmaxOf a m.vmax) (velOf m.value) ∧ s.domOn 18 = true ∧ s.dv.groups = [] ∧ s.dv.groupNext = [] ∧
     (s.axis a).setPos = none ∧ s.axState a = axMOVING ∧ s.axBad a = false ∧ (s.axis a).useNow = s.axUse a ∧
     (s.axis a).invNow = s.rd (Reg.DV_AX_CFG_INVERT a) ∧ s.limApply a = false ∧ (s.axis a).motion = Motion.move m ∧ m.kind = 2) :=
  ⟨⟨{ (put tUp [(Reg.PW_BOOK_BUDGET 0, 11600), (Reg.DV_AX_CFG_USE 0, 1)]) with dv := { axes := [(0, { next := (some .arena) })] }, pw := { grants := [{ book := 0, cls := 2, cid := 32, want := 0, held := 0, bn := 0, since := 0, counted := false }] } }, 0, .arena, by decide +kernel⟩,
   ⟨{ (put tUp [(Reg.PW_BOOK_BUDGET 0, 11600), (Reg.DV_AX_CFG_USE 0, 1)]) with dv := { axes := [(0, { next := (some .arena) })] } }, 0, .arena, by decide +kernel⟩,
   ⟨{ (put tUp [(Reg.DV_AX_CFG_USE 9, 2)]) with dv := { axes := [(9, { next := (some (.move { hdr := (some { tHdr with tag := 144, opcode := 7 }), kind := 4, value := 7, vmax := 1, acc := 7, dec := 2, deferred := true, stow := true })) })] } }, 9, (.move { hdr := (some { tHdr with tag := 144, opcode := 7 }), kind := 4, value := 7, vmax := 1, acc := 7, dec := 2, deferred := true, stow := true }), 8, { tHdr with tag := 144, opcode := 7 }, true, by unfold byRing; decide +kernel⟩,
   ⟨{ (put tUp [(Reg.DV_AX_STAT_STATE 0, 4)]) with dv := { axes := [(0, { waiting := (some (.move { hdr := (some { tHdr with tag := 80, index := 4 }), kind := 4, value := 7, vmax := 1, acc := 1, dec := 1, deferred := true, stow := false })) })] } }, 0, (.move { hdr := (some { tHdr with tag := 80, index := 4 }), kind := 4, value := 7, vmax := 1, acc := 1, dec := 1, deferred := true, stow := false }), { tHdr with tag := 80, index := 4 }, true, by decide +kernel⟩,
   ⟨{ (put tUp [(Reg.DV_AX_STAT_STATE 6, 2)]) with dv := { axes := [(6, { runCur := true })] } }, 6, by decide +kernel⟩,
   ⟨State.reset, 3, [{ a := 4, br := 1, cur := [(0, 1123843), (900, 78479), (1800, 1589784), (2700, 1904798)] }, { a := 7, br := 0, cur := [(0, (-703700)), (900, 1213140), (1800, (-1449113)), (2700, (-369181))] }, { a := 11, br := 1, cur := [] }], by decide +kernel⟩,
   ⟨{ tUp with dv := { axes := [(1, { setPos := (some 0) })] } }, 1, [{ a := 14, br := 1, cur := [(0, 1412687), (900, (-1554244)), (1800, 374480), (2700, (-780953))] }, { a := 15, br := 0, cur := [] }], 0, by decide +kernel⟩,
   ⟨{ (put tUp [(Reg.DV_AX_STAT_STATE 0, 3)]) with dv := { axes := [(0, { motion := (.move { hdr := none, kind := 2, value := 5, vmax := 1, acc := 1, dec := 0, deferred := true, stow := true }) })] } }, 0, [{ a := 5, br := 1, cur := [] }, { a := 10, br := 1, cur := [(0, (-239402)), (900, (-744149)), (1800, 1950956), (2700, 387545)] }, { a := 5, br := 1, cur := [] }, { a := 6, br := 0, cur := [] }], { hdr := none, kind := 2, value := 5, vmax := 1, acc := 1, dec := 0, deferred := true, stow := true }, 335544, by decide +kernel⟩⟩

theorem witness_DriveFaults :
    (∃ (s : State) (a out ma : Nat), a < 16 ∧ out < 4 ∧ (s.axis a).useNow = 2 ∧ 3000 < ma) ∧
    (∃ (s : State) (a out ma : Nat), a < 16 ∧ out < 4 ∧ (s.axis a).useNow ≠ 2 ∧ 6000 < ma ∧ s.axState a ≠ axLOCKOUT) ∧
    (∃ (s : State) (a out ma : Nat), a < 16 ∧ out < 4 ∧ (ma ≤ if (s.axis a).useNow = 2 then 3000 else 6000)) ∧
    (∃ (s : State) (a : Nat) (temp : Int), a < 16 ∧ 145 < temp ∧ (s.axis a).otFault = false ∧ s.axState a ≠ axLOCKOUT) ∧
    (∃ (s : State) (a : Nat) (temp : Int), a < 16 ∧ 120 < temp ∧ temp ≤ 145 ∧ s.flag (Reg.DV_AX_STAT_HOT a) = false) ∧
    (∃ (s : State) (a : Nat) (temp : Int), a < 16 ∧ (temp ≤ 120 ∨ s.flag (Reg.DV_AX_STAT_HOT a) = true) ∧
     (temp ≤ 145 ∨ (s.axis a).otFault = true)) ∧
    (∃ (s : State) (a : Nat) (temp : Int), a < 16 ∧ temp < 110) ∧
    (∃ (s : State) (a ph : Nat) (f : Fld) (c : Chop), a < 16 ∧ ph < 2 ∧
     (f = if ph = 0 then Reg.DV_AX_STAT_OPEN_A a else Reg.DV_AX_STAT_OPEN_B a) ∧ (c = if ph = 0 then (s.axis a).chopA else (s.axis a).chopB) ∧
     (c.openSince = none ∧ c.okSince = none ∨ c.openSince.isSome = true ∧ c.okSince = none ∧ s.flag f = true)) ∧
    (∃ (s : State) (a out ma : Nat), a < 16 ∧ out < 4 ∧ ma < 50 ∧ (s.axis a).useNow = 2 ∧
     4096 * 24576 ≤ 10 * heatOnTime (s.axis a) out ∧ bit (s.rd (Reg.DV_AX_STAT_HEAT_OPEN a)) out = false) ∧
    (∃ (s : State) (a out ma : Nat), a < 16 ∧ out < 4 ∧
     ((s.axis a).useNow ≠ 2 ∨ 10 * heatOnTime (s.axis a) out < 4096 * 24576)) ∧
    (∃ (s : State) (vb : Nat), s.domOn 19 = true ∧ 3000 ≤ vb) ∧
    (∃ (s : State) (vb a : Nat), vb < 3000 ∧ a < 16 ∧ s.bridgePwr = true ∧ s.axState a ≠ axOFF ∧ s.axState a ≠ axFAULT ∧
     s.axState a ≠ axLOCKOUT) ∧
    (∃ (s : State) (a ph : Nat) (f : Fld) (c : Chop) (t0 : Nat), a < 16 ∧ ph < 2 ∧
     (f = if ph = 0 then Reg.DV_AX_STAT_OPEN_A a else Reg.DV_AX_STAT_OPEN_B a) ∧ (c = if ph = 0 then (s.axis a).chopA else (s.axis a).chopB) ∧
     c.openSince = some t0 ∧ s.elapsed t0 cclkMs = true ∧ s.flag f = false) ∧
    (∃ (s : State) (a ph : Nat) (f : Fld) (c : Chop) (t0 : Nat), a < 16 ∧ ph < 2 ∧
     (f = if ph = 0 then Reg.DV_AX_STAT_OPEN_A a else Reg.DV_AX_STAT_OPEN_B a) ∧ (c = if ph = 0 then (s.axis a).chopA else (s.axis a).chopB) ∧
     c.okSince = some t0 ∧ c.openSince = none ∧ s.elapsed t0 cclkMs = true) :=
  ⟨⟨{ tUp with dv := { axes := [(6, { useNow := 2 })] } }, 6, 3, 638539, by decide +kernel⟩,
   ⟨tUp, 0, 0, 24422, by decide +kernel⟩,
   ⟨tUp, 0, 1, 5, by decide +kernel⟩,
   ⟨tUp, 7, 7000021, by decide +kernel⟩,
   ⟨State.reset, 7, 138, by decide +kernel⟩,
   ⟨tUp, 3, (-900000000000), by decide +kernel⟩,
   ⟨tUp, 15, 6, by decide +kernel⟩,
   ⟨tUp, 6, 0, { key := 3157512, width := 1, rst := 0 }, { }, by decide +kernel⟩,
   ⟨{ tUp with dv := { axes := [(1, { useNow := 2, duty := [4096, 4096, 4096, 4096] })] } }, 1, 3, 5, by decide +kernel⟩,
   ⟨tUp, 0, 0, 6, by decide +kernel⟩,
   ⟨tUp, 24333, by decide +kernel⟩,
   ⟨(put tUp [(Reg.DV_AX_STAT_STATE 2, 1)]), 2, 2, by decide +kernel⟩,
   ⟨{ tUp with dv := { axes := [(0, { chopA := { ph := 1, since := 9, openSince := (some 5) }, chopB := { ph := 1, since := 9, openSince := (some 5) } }), (1, { chopA := { ph := 1, since := 9, openSince := (some 5) }, chopB := { ph := 1, since := 9, openSince := (some 5) } }), (7, { chopA := { ph := 1, since := 9, openSince := (some 5) }, chopB := { ph := 1, since := 9, openSince := (some 5) } })] } }, 0, 1, { key := 3155977, width := 1, rst := 0 }, { ph := 1, since := 9, openSince := (some 5) }, 5, by decide +kernel⟩,
   ⟨{ tUp with dv := { axes := [(0, { chopA := { ph := 1, since := 9, okSince := (some 7) }, chopB := { ph := 1, since := 9, okSince := (some 7) } }), (1, { chopA := { ph := 1, since := 9, okSince := (some 7) }, chopB := { ph := 1, since := 9, okSince := (some 7) } }), (7, { chopA := { ph := 1, since := 9, okSince := (some 7) }, chopB := { ph := 1, since := 9, okSince := (some 7) } })] } }, 1, 0, { key := 3156232, width := 1, rst := 0 }, { ph := 1, since := 9, okSince := (some 7) }, 7, by decide +kernel⟩⟩

theorem witness_Halt :
    (∃ (s : State) (ch a : Nat), ch < 2 ∧ a < 16 ∧ s.halted = false ∧ s.axState a ≠ axOFF ∧ s.axState a ≠ axFAULT ∧
     s.axState a ≠ axLOCKOUT) ∧
    (∃ (s : State) (ch : Nat), ch < 2 ∧ s.halted = true) ∧
    (∃ (s : State) (ch a : Nat), ch < 2 ∧ a < 16 ∧ (ch = 0 → s.dv.haltB = false) ∧ (ch = 1 → s.dv.haltA = false) ∧
     s.axState a = axHALTED) ∧
    (∃ (s : State) (ch : Nat), ch < 2 ∧ (ch = 0 ∧ s.dv.haltB = true ∨ ch = 1 ∧ s.dv.haltA = true)) ∧
    (∃ (s : State) (ch t0 : Nat), ch < 2 ∧ s.dv.haltDis = some t0 ∧ s.elapsed t0 (100 * cclkMs) = true ∧ s.dv.haltBarked = none) :=
  ⟨⟨(put tUp [(Reg.DV_AX_STAT_STATE 1, 1)]), 0, 1, by decide +kernel⟩,
   ⟨{ tUp with dv := { haltA := true, haltB := true } }, 1, by decide +kernel⟩,
   ⟨(put tUp [(Reg.DV_AX_STAT_STATE 0, 5)]), 0, 0, by decide +kernel⟩,
   ⟨{ tUp with dv := { haltB := true } }, 0, by decide +kernel⟩,
   ⟨{ tUp with dv := { haltDis := (some 7) } }, 0, 7, by decide +kernel⟩⟩

theorem witness_AxisOperations :
    (∃ (s : State) (src : WrSrc) (a : Nat) (v : Int), a < 16 ∧ s.takes src RegId.DV_AX_CTRL 0 a true = true ∧
     s.axState a ≠ axMOVING) ∧
    (∃ (s : State) (src : WrSrc) (a : Nat), a < 16 ∧ s.takes src RegId.DV_AX_CTRL 0 a true = true ∧
     s.axState a = axFAULT ∧ (s.axis a).otFault = false) ∧
    (∃ (s : State) (src : WrSrc) (a : Nat), a < 16 ∧ s.takes src RegId.DV_AX_CTRL 0 a true = true ∧
     s.axState a = axLOCKOUT) ∧
    (∃ (s : State) (src : WrSrc) (a : Nat), a < 16 ∧ s.takes src RegId.DV_AX_CTRL 0 a true = true ∧
     s.axState a = axFAULT ∧ (s.axis a).otFault = true) ∧
    (∃ (s : State) (src : WrSrc) (a : Nat), a < 16 ∧ s.takes src RegId.DV_AX_CTRL 0 a false = true ∧ s.axState a ≠ axOFF ∧
     s.axState a ≠ axFAULT ∧ s.axState a ≠ axLOCKOUT) ∧
    (∃ (s : State) (src : WrSrc) (a : Nat), a < 16 ∧ s.takes src RegId.DV_AX_CTRL 0 a true = true ∧
     s.axState a = axMUZZLED ∧ s.axUse a = 1 ∧ s.modeDrives = true ∧ s.halted = false ∧ s.bridgePwr = true ∧ s.d0On = true) ∧
    (∃ (s : State) (src : WrSrc) (d : Nat), s.takes src RegId.DV_UTAB_DATA 0 0 true = true ∧
     s.rd Reg.DV_UTAB_ADDR_ADDR < 256) ∧
    (∃ (s : State) (src : WrSrc), s.takes src RegId.DV_UTAB_CTRL 0 0 true = true ∧ utabCheck s s.utabSel = 0) ∧
    (∃ (s : State) (src : WrSrc), s.takes src RegId.DV_UTAB_CTRL 0 0 true = true ∧ utabCheck s s.utabSel ≠ 0) ∧
    (∃ (s : State) (src : WrSrc) (i : Nat), i < 256 ∧ s.takes src RegId.DV_UTAB_CTRL 0 0 true = true) ∧
    (∃ (s : State) (src : WrSrc) (a d0 d1 d2 d3 o : Nat), a < 16 ∧ o < 4 ∧ s.takes src RegId.DV_HEAT 0 a true = true) ∧
    (∃ (s : State) (src : WrSrc) (a d0 d1 d2 d3 : Nat), a < 16 ∧ s.takes src RegId.DV_HEAT 0 a true = true ∧
     s.mode = mCOMMISSION) ∧
    (∃ (s : State) (a : Nat), a < 16 ∧ (s.axis a).useNow = 2 ∧ s.heatMode a = false) ∧
    (∃ (s : State) (a o : Nat), a < 16 ∧ o < 4 ∧ (s.axis a).useNow = 2 ∧ s.heatMode a = true ∧ s.axState a = axHOLD ∧
     s.hasGrant 0 (axCid a) = true ∧ s.heatFunded a o = true ∧ bit (s.rd (Reg.DV_AX_STAT_HEAT_OFF a)) o = false) ∧
    (∃ (s : State) (a t0 : Nat), a < 16 ∧ (s.axis a).zeroSince = some t0 ∧ (s.axis a).useNow = 2 ∧
     s.elapsed t0 cclkSec = true ∧ s.hasGrant 0 (axCid a) = true) :=
  ⟨⟨(put tUp [(Reg.HUB_MODE_MODE, 4)]), .direct, 13, 0, by decide +kernel⟩,
   ⟨(put tUp [(Reg.HUB_MODE_MODE, 3), (Reg.DV_AX_STAT_STATE 4, 6)]), .cfg, 4, by decide +kernel⟩,
   ⟨(put tUp [(Reg.HUB_MODE_MODE, 4), (Reg.DV_AX_STAT_STATE 0, 7)]), .direct, 0, by decide +kernel⟩,
   ⟨{ (put tUp [(Reg.HUB_MODE_MODE, 4), (Reg.DV_AX_STAT_STATE 5, 6)]) with dv := { axes := [(5, { otFault := true })] } }, .direct, 5, by decide +kernel⟩,
   ⟨(put tUp [(Reg.HUB_MODE_MODE, 3), (Reg.DV_AX_STAT_STATE 0, 1)]), .cfg, 0, by decide +kernel⟩,
   ⟨(put tUp [(Reg.DV_AX_CFG_USE 0, 1), (Reg.DV_AX_STAT_STATE 0, 1)]), .cfg, 0, by decide +kernel⟩,
   ⟨(put tUp [(Reg.HUB_MODE_MODE, 3)]), .cfg, 19, by decide +kernel⟩,
   ⟨(put tUp [(Reg.HUB_MODE_MODE, 4)]), .direct, by decide +kernel⟩,
   ⟨{ (put tUp [(Reg.HUB_MODE_MODE, 3)]) with dv := { utabStg := [(259, 9)] } }, .cfg, by decide +kernel⟩,
   ⟨(put tUp [(Reg.HUB_MODE_MODE, 3)]), .direct, 5, by decide +kernel⟩,
   ⟨(put tUp [(Reg.HUB_MODE_MODE, 3)]), .cfg, 0, 2, 26, 393536, 7, 1, by decide +kernel⟩,
   ⟨(put tUp [(Reg.HUB_MODE_MODE, 4)]), .cfg, 6, 64, 5, 2, 5, by decide +kernel⟩,
   ⟨{ State.reset with dv := { axes := [(6, { useNow := 2 })] } }, 6, by decide +kernel⟩,
   ⟨{ (put tUp [(Reg.DV_AX_STAT_STATE 7, 2)]) with dv := { axes := [(7, { useNow := 2 })] }, pw := { grants := [{ book := 0, cls := 2, cid := 39, want := 50, held := 50, bn := 0, since := 0, counted := false }] } }, 7, 3, by decide +kernel⟩,
   ⟨{ tUp with dv := { axes := [(7, { useNow := 2, zeroSince := (some 2) })] }, pw := { grants := [{ book := 0, cls := 2, cid := 39, want := 50, held := 50, bn := 0, since := 0, counted := false }] } }, 7, 2, by decide +kernel⟩⟩

theorem witness_GovernorEvaluation :
    (∃ (s : State) (k : Nat), k < 2) ∧
    (∃ (s : State), s.pw.waits = [] ∧ s.pw.yielded = [] ∧ s.pw.releases = [] ∧ bgIdle s 97 ∧ bgIdle s 98 ∧
     s.rd (Reg.PW_BOOK_LIMIT 0) ≠ s.driveLimit) ∧
    (∃ (s : State) (g : Nat), g < 16 ∧ s.pw.waits = [] ∧ s.pw.yielded = [] ∧ s.pw.releases = [] ∧ bgIdle s 97 ∧
     bgIdle s 98) ∧
    (∃ (s : State), s.pw.waits = [] ∧ s.pw.yielded = [] ∧ s.pw.releases = [] ∧ bgIdle s 97 ∧ bgIdle s 98 ∧
     s.pw.ovr = none ∧ s.govWant + s.govRest ≤ s.driveBudget % 2 ^ 16) ∧
    (∃ (s : State) (r : Resv), s.pw.waits = [r] ∧ s.pw.yielded = [] ∧ s.pw.releases = [] ∧ r.book = 1 ∧ r.cls = 1 ∧
     64 ≤ r.cid ∧ bgIdle s 97 ∧ bgIdle s 98 ∧ s.heldBy 1 r.cid = 0 ∧ r.want + s.grantedIn 1 ≤ serviceBudget) ∧
    (∃ (s : State) (r : Resv), s.pw.waits = [r] ∧ s.pw.yielded = [] ∧ s.pw.releases = [] ∧ r.book = 1 ∧ r.cls = 1 ∧
     64 ≤ r.cid ∧ bgIdle s 97 ∧ bgIdle s 98 ∧ s.heldBy 1 r.cid = 0 ∧ 0 < r.want ∧ serviceBudget < r.want + s.grantedIn 1 ∧ r.counted = false) ∧
    (∃ (s : State) (b : Nat), b < 2) ∧
    (∃ (s : State) (l : Nat), l < 8) :=
  ⟨⟨tUp, 1, by decide +kernel⟩,
   ⟨{ (put State.reset [(Reg.PW_BOOK_LIMIT 0, 1)]) with pw := { scrub := { passAt := 10 }, refresh := { passAt := 10 } } }, by unfold bgIdle; decide +kernel⟩,
   ⟨{ State.reset with pw := { scrub := { passAt := 10 }, refresh := { passAt := 10 } } }, 1, by unfold bgIdle; decide +kernel⟩,
   ⟨{ State.reset with pw := { scrub := { passAt := 10 }, refresh := { passAt := 10 } } }, by unfold bgIdle; decide +kernel⟩,
   ⟨{ State.reset with pw := { waits := [{ book := 1, cls := 1, cid := 65, want := 1, held := 1, bn := 1, since := 0, counted := true }], scrub := { passAt := 10 }, refresh := { passAt := 10 } } }, { book := 1, cls := 1, cid := 65, want := 1, held := 1, bn := 1, since := 0, counted := true }, by unfold bgIdle; decide +kernel⟩,
   ⟨{ State.reset with pw := { waits := [{ book := 1, cls := 1, cid := 65, want := 6000, held := 1, bn := 3, since := 0, counted := false }], scrub := { passAt := 10 }, refresh := { passAt := 10 } } }, { book := 1, cls := 1, cid := 65, want := 6000, held := 1, bn := 3, since := 0, counted := false }, by unfold bgIdle; decide +kernel⟩,
   ⟨tUp, 0, by decide +kernel⟩,
   ⟨tUp, 7, by decide +kernel⟩⟩

theorem witness_ThermalModel :
    (∃ (s : State) (pIn pBridge : Nat), s.anyCrit = true) ∧
    (∃ (s : State) (pIn pBridge : Nat), s.anyCrit = false ∧ s.rd Reg.PW_THERM_STAT_STATE ≠ 3) ∧
    (∃ (s : State) (pIn pBridge : Nat), s.rd Reg.PW_THERM_STAT_STATE = 3 ∧ s.pw.coolSince = none) ∧
    (∃ (s : State) (temps : List (Option Int)) (i : Nat) (v : Int), i < 24 ∧ temps[i]? = some (some v) ∧ -800 ≤ v ∧
     v ≤ 2400 ∧ 16 * sensorCrit i ≤ v ∧ 1 ≤ Sparse.get 0 i s.pw.critRun) :=
  ⟨⟨{ tUp with pw := { critRun := [(0, 2)], read := [0] } }, 2, 5, by decide +kernel⟩,
   ⟨tUp, 2, 1, by decide +kernel⟩,
   ⟨(put tUp [(Reg.PW_BOOK_DEFICIT_MS 3, 3)]), 5, 24, by decide +kernel⟩,
   ⟨{ (put tUp [(Reg.HUB_MODE_MODE, 4)]) with pw := { critRun := [(0, 1)] } }, [(some 2400)], 0, 2400, by decide +kernel⟩⟩

theorem witness_FanTrays :
    (∃ (s : State) (pIn pBridge v : Nat), v < 4 ∧ s.fanOut v = false ∧ (s.fanState v = fanOK ∨ s.fanState v = fanSLOW)) ∧
    (∃ (s : State) (pIn pBridge v : Nat), v < 4 ∧ s.fanOut v = false ∧ (s.fanState v = fanTACHO ∨ s.fanState v = fanTEST ∧
     Sparse.get 0 v s.pw.fanFound ≤ 1)) ∧
    (∃ (s : State) (pIn pBridge : Nat) (fans : List FanIn) (v : Nat) (f : FanIn), v < 4 ∧ fans[v]? = some f ∧
     s.fanState v = fanSLOW ∧ f.rpmExp * 7 ≤ f.rpm * 10) ∧
    (∃ (s : State) (pIn pBridge : Nat) (fans : List FanIn) (v : Nat) (f : FanIn), v < 4 ∧ fans[v]? = some f ∧
     s.fanState v = fanSLOW ∧ f.rpm * 10 < f.rpmExp * 7) ∧
    (∃ (s : State) (pIn pBridge : Nat) (fans : List FanIn) (v : Nat) (f : FanIn), v < 4 ∧ fans[v]? = some f ∧
     s.fanState v = fanTACHO ∧ f.quiet < 500) ∧
    (∃ (s : State) (v : Nat) (f : FanIn), v < 4 ∧ s.fanRuns v = true ∧ s.fanState v ≠ fanTEST ∧ fanLow f = true) ∧
    (∃ (s : State) (v : Nat) (f : FanIn), v < 4 ∧ s.fanRuns v = true ∧ s.fanState v ≠ fanTEST ∧ fanHigh f = true ∧
     fanNoTacho (s.rd (Reg.PW_FAN_SPEED v)) f = true) ∧
    (∃ (s : State) (v : Nat) (f : FanIn), v < 4 ∧ s.fanRuns v = true ∧ s.fanState v ≠ fanTEST ∧ s.fanState v ≠ fanTACHO ∧
     fanMid f = true ∧ fanNoTacho (s.rd (Reg.PW_FAN_SPEED v)) f = true) ∧
    (∃ (s : State) (v : Nat) (f : FanIn), v < 4 ∧ s.fanRuns v = true ∧ s.fanState v = fanTEST ∧ fanLow f = true) ∧
    (∃ (s : State) (v : Nat) (f : FanIn), v < 4 ∧ fanMid f = false) ∧
    (∃ (s : State) (v : Nat) (f : FanIn), v < 4 ∧ fanBehind f = false) ∧
    (∃ (s : State) (v : Nat) (f : FanIn), v < 4 ∧ s.fanState v = fanOK ∧ s.fanOut v = false ∧ fanBehind f = true) ∧
    (∃ (s : State) (v : Nat) (f : FanIn), v < 4 ∧ s.fanState v = fanBLOCKED ∧ s.fanOut v = false ∧
     s.rd (Reg.PW_FAN_RETRIES v) < 10 ∧ s.elapsed (Sparse.get 0 v s.pw.fanLast) (60 * cclkSec) = true ∧ f.quiet < 500 ∧ fanLow f = false ∧
     fanHigh f = false) ∧
    (∃ (s : State) (v : Nat) (f : FanIn), v < 4 ∧ s.fanState v = fanBLOCKED ∧ s.fanOut v = false ∧
     s.rd (Reg.PW_FAN_RETRIES v) < 10 ∧ s.elapsed (Sparse.get 0 v s.pw.fanLast) (60 * cclkSec) = true ∧
     (500 ≤ f.quiet ∨ fanLow f = true ∨ fanHigh f = true)) ∧
    (∃ (s : State) (v : Nat) (f : FanIn), v < 4 ∧ s.fanState v = fanBLOCKED ∧ 10 ≤ s.rd (Reg.PW_FAN_RETRIES v)) ∧
    (∃ (s : State) (v : Nat), v < 4 ∧ s.hub.aon = false) ∧
    (∃ (s : State) (v : Nat), v < 4 ∧ s.hub.aon = true ∧ s.fanState v ≠ fanABSENT ∧ (s.slot (24 + v)).takenOut = false) ∧
    (∃ (s : State) (v : Nat), v < 4 ∧ s.fanState v = fanABSENT ∧ s.hub.aon = true ∧ (s.slot (24 + v)).card = false ∧
     (s.slot (24 + v)).panel = false ∧ s.fanOut v = false ∧ s.listed (22 + v) = true) ∧
    (∃ (s : State) (v : Nat), v < 4 ∧ s.fanState v = fanABSENT ∧ s.hub.aon = true ∧ (s.slot (24 + v)).card = false ∧
     (s.slot (24 + v)).panel = false ∧ s.listed (22 + v) = false) ∧
    (∃ (s : State) (v : Nat) (f : FanIn) (found : Nat), v < 4 ∧ found = fanFinds (Sparse.get 0 v s.pw.fanFound) f ∧ found ≤ 4 ∧
     s.fanState v = fanTEST ∧ s.elapsed (Sparse.get 0 v s.pw.fanTest) (5 * cclkSec) = true) :=
  ⟨⟨(put tUp [(Reg.PW_FAN_STATE 2, 0)]), 3, 6, 2, by decide +kernel⟩,
   ⟨(put tUp [(Reg.PW_FAN_STATE 1, 1)]), 6, 333586, 1, by decide +kernel⟩,
   ⟨(put tUp [(Reg.PW_FAN_STATE 0, 2)]), 393536, 4, [{ rpm := 70000, rpmExp := 9000, ma := 70000, iExp := 600, quiet := 600, slow := 9000 }, { rpm := 0, rpmExp := 5000, ma := 70000, iExp := 600, quiet := 600, slow := 0 }, { rpm := 1000, rpmExp := 9000, ma := 300, iExp := 400, quiet := 0, slow := 5000 }, { rpm := 0, rpmExp := 5000, ma := 60, iExp := 600, quiet := 0, slow := 5000 }], 0, { rpm := 70000, rpmExp := 9000, ma := 70000, iExp := 600, quiet := 600, slow := 9000 }, by decide +kernel⟩,
   ⟨(put tUp [(Reg.PW_FAN_STATE 0, 2)]), 31, 4, [{ rpm := 1000, rpmExp := 5000, ma := 300, iExp := 400, quiet := 0, slow := 0 }, { rpm := 0, rpmExp := 9000, ma := 300, iExp := 400, quiet := 499, slow := 9000 }, { rpm := 1000, rpmExp := 5000, ma := 60, iExp := 600, quiet := 500, slow := 5000 }], 0, { rpm := 1000, rpmExp := 5000, ma := 300, iExp := 400, quiet := 0, slow := 0 }, by decide +kernel⟩,
   ⟨(put tUp [(Reg.PW_FAN_STATE 0, 1)]), 20, 5, [{ rpm := 70000, rpmExp := 9000, ma := 10, iExp := 400, quiet := 499, slow := 9000 }, { rpm := 1000, rpmExp := 9000, ma := 700, iExp := 600, quiet := 0, slow := 9000 }, { rpm := 5000, rpmExp := 5000, ma := 300, iExp := 600, quiet := 600, slow := 0 }, { rpm := 0, rpmExp := 5000, ma := 70000, iExp := 400, quiet := 499, slow := 5000 }], 0, { rpm := 70000, rpmExp := 9000, ma := 10, iExp := 400, quiet := 499, slow := 9000 }, by decide +kernel⟩,
   ⟨(put tUp [(Reg.PW_FAN_STATE 0, 0)]), 0, { rpm := 9000, rpmExp := 5000, ma := 0, iExp := 400, quiet := 500, slow := 0 }, by decide +kernel⟩,
   ⟨(put tUp [(Reg.PW_FAN_STATE 3, 0), (Reg.PW_FAN_SPEED 3, 100)]), 3, { rpm := 0, rpmExp := 5000, ma := 700, iExp := 400, quiet := 600, slow := 5000 }, by decide +kernel⟩,
   ⟨(put tUp [(Reg.PW_FAN_STATE 0, 0), (Reg.PW_FAN_SPEED 0, 100)]), 0, { rpm := 1000, rpmExp := 5000, ma := 60, iExp := 100, quiet := 500, slow := 5000 }, by decide +kernel⟩,
   ⟨(put tUp [(Reg.PW_FAN_STATE 3, 6)]), 3, { rpm := 0, rpmExp := 9000, ma := 10, iExp := 400, quiet := 0, slow := 9000 }, by decide +kernel⟩,
   ⟨tUp, 3, { rpm := 5000, rpmExp := 9000, ma := 60, iExp := 400, quiet := 600, slow := 9000 }, by decide +kernel⟩,
   ⟨tUp, 3, { rpm := 70000, rpmExp := 5000, ma := 60, iExp := 600, quiet := 0, slow := 5000 }, by decide +kernel⟩,
   ⟨(put tUp [(Reg.PW_FAN_STATE 2, 0)]), 2, { rpm := 5000, rpmExp := 9000, ma := 700, iExp := 100, quiet := 0, slow := 5000 }, by decide +kernel⟩,
   ⟨{ (put tUp [(Reg.PW_FAN_STATE 0, 3)]) with run := 14745600000 }, 0, { rpm := 9000, rpmExp := 5000, ma := 60, iExp := 400, quiet := 499, slow := 5000 }, by decide +kernel⟩,
   ⟨{ (put tUp [(Reg.PW_FAN_STATE 3, 3)]) with run := 14745600000 }, 3, { rpm := 70000, rpmExp := 9000, ma := 70000, iExp := 100, quiet := 600, slow := 0 }, by decide +kernel⟩,
   ⟨(put tUp [(Reg.PW_FAN_STATE 0, 3), (Reg.PW_FAN_RETRIES 0, 10)]), 0, { rpm := 9000, rpmExp := 9000, ma := 0, iExp := 600, quiet := 499, slow := 5000 }, by decide +kernel⟩,
   ⟨{ State.reset with hub := { aon := false } }, 2, by decide +kernel⟩,
   ⟨(put tUp [(Reg.PW_FAN_STATE 3, 6)]), 3, by decide +kernel⟩,
   ⟨tUp, 3, by decide +kernel⟩,
   ⟨{ tUp with kn := { images := [(0, { parts := 6148844322492339541 })] } }, 1, by decide +kernel⟩,
   ⟨(put tUp [(Reg.PW_FAN_STATE 0, 6)]), 0, { rpm := 5000, rpmExp := 9000, ma := 70000, iExp := 600, quiet := 0, slow := 5000 }, 2, by decide +kernel⟩⟩

theorem witness_BudgetEvents :
    (∃ (s : State) (d : Nat) (r : Resv) (h : CmdHdr), d < 30 ∧
     List.find? (fun r => decide (r.book = 1) && decide (r.cid = d)) s.pw.waits = some r ∧ Sparse.get none d s.pw.domCmd = some h ∧
     s.hub.starting = false ∧ s.elapsed r.since s.svcWait = true) ∧
    (∃ (s : State), s.mustYield = true ∧ s.preemptible = [97]) ∧
    (∃ (s : State), s.mustYield = false) ∧
    (∃ (s : State) (c : Nat), (c = 97 ∨ c = 98) ∧ s.pw.overdue.contains c = false ∧
     s.elapsed (s.bgTask c).lastEnd (bgLate c + 1) = true) ∧
    (∃ (s : State) (c : Nat), (c = 97 ∨ c = 98) ∧
     (s.pw.overdue.contains c = true ∨ s.elapsed (s.bgTask c).lastEnd (bgLate c + 1) = false)) ∧
    (∃ (s : State) (c : Nat), (c = 97 ∨ c = 98) ∧ bgIdle s (195 - c) ∧ s.bgCan c = true ∧ (s.bgTask c).passAt ≤ s.run ∧
     s.pw.yielded = [] ∧ s.pw.releases = [] ∧ s.rd Reg.PW_THERM_STAT_STATE < 2 ∧ s.pw.waits = [] ∧
     (s.pw.grants.any fun r => decide (r.book = 1) && decide (r.cid = c)) = false ∧ bgTokens c + s.grantedIn 1 ≤ serviceBudget) ∧
    (∃ (s : State) (c : Nat), (c = 97 ∨ c = 98) ∧ bgIdle s (195 - c) ∧ s.bgCan c = true ∧ (s.bgTask c).passAt ≤ s.run ∧
     s.pw.yielded = [] ∧ s.pw.releases = [] ∧ s.rd Reg.PW_THERM_STAT_STATE < 2 ∧ s.pw.waits = [] ∧ s.hasGrant 1 c = true ∧ (s.bgTask c).blockAt = none) ∧
    (∃ (s : State) (c b : Nat), (s.bgTask c).blockAt = some b ∧ (c = 97 ∨ c = 98) ∧ bgIdle s (195 - c) ∧ s.bgCan c = true ∧
     (s.bgTask c).passAt ≤ s.run ∧ s.pw.yielded = [] ∧ s.pw.releases = [] ∧ s.rd Reg.PW_THERM_STAT_STATE < 2 ∧ s.pw.waits = [] ∧ s.hasGrant 1 c = true ∧
     s.elapsed b cclkMs = true ∧ (s.bgTask c).done + 1 < bgBlocks c) ∧
    (∃ (s : State) (src : WrSrc) (d : Nat), d < 30 ∧ s.takes src RegId.PW_DOMAIN_CTRL 0 0 false = true ∧ s.domOn d = false) ∧
    (∃ (s : State) (src : WrSrc) (d : Nat), d < 30 ∧ s.takes src RegId.PW_DOMAIN_CTRL 0 0 false = true ∧ s.domOn d = true ∧
     s.needsDomain d = true) ∧
    (∃ (s : State) (req : Nat), s.takes WrSrc.direct RegId.PW_DOMAIN_CTRL 0 0 false = false) ∧
    (∃ (s : State) (c b : Nat), (s.bgTask c).blockAt = some b ∧ (c = 97 ∨ c = 98) ∧ bgIdle s (195 - c) ∧ s.bgCan c = true ∧
     (s.bgTask c).passAt ≤ s.run ∧ s.pw.yielded = [] ∧ s.pw.releases = [] ∧ s.rd Reg.PW_THERM_STAT_STATE < 2 ∧ s.pw.waits = [] ∧ s.hasGrant 1 c = true ∧
     s.elapsed b cclkMs = true ∧ bgBlocks c ≤ (s.bgTask c).done + 1 ∧ s.run < (s.bgTask c).passAt + bgPeriod c) :=
  ⟨⟨{ tUp with pw := { waits := [{ book := 1, cls := 2, cid := 1, want := 6000, held := 1, bn := 3, since := 0, counted := true }], domCmd := [(1, (some { tHdr with tag := 197, opcode := 21 }))] } }, 1, { book := 1, cls := 2, cid := 1, want := 6000, held := 1, bn := 3, since := 0, counted := true }, { tHdr with tag := 197, opcode := 21 }, by decide +kernel⟩,
   ⟨{ (put tUp [(Reg.PW_BOOK_DEFICIT_MS 3, 2)]) with pw := { grants := [{ book := 1, cls := 2, cid := 97, want := 50, held := 50, bn := 0, since := 0, counted := false }] } }, by decide +kernel⟩,
   ⟨(put tUp [(Reg.PW_BOOK_BUDGET 1, 6000)]), by decide +kernel⟩,
   ⟨{ tUp with run := 42467328000001 }, 97, by decide +kernel⟩,
   ⟨tUp, 97, by decide +kernel⟩,
   ⟨{ tUp with pw := { refresh := { passAt := 5000000010 } } }, 97, by unfold bgIdle; decide +kernel⟩,
   ⟨{ tUp with pw := { grants := [{ book := 1, cls := 2, cid := 98, want := 50, held := 50, bn := 0, since := 0, counted := false }], scrub := { passAt := 5000000010 } } }, 98, by unfold bgIdle; decide +kernel⟩,
   ⟨{ tUp with pw := { grants := [{ book := 1, cls := 2, cid := 97, want := 50, held := 50, bn := 0, since := 0, counted := false }], scrub := { blockAt := (some 2) }, refresh := { passAt := 5000000010 } } }, 97, 2, by unfold bgIdle; decide +kernel⟩,
   ⟨State.reset, .direct, 7, by decide +kernel⟩,
   ⟨(put tUp [(Reg.HUB_MODE_MODE, 3)]), .cfg, 27, by decide +kernel⟩,
   ⟨tUp, 393536, by decide +kernel⟩,
   ⟨{ tUp with pw := { grants := [{ book := 1, cls := 2, cid := 98, want := 50, held := 50, bn := 0, since := 0, counted := false }], scrub := { passAt := 5000000010, done := 16390, blockAt := (some 7), lastEnd := 3 }, refresh := { passAt := 4999999996, done := 16390, blockAt := (some 732903), lastEnd := 3 } } }, 98, 732903, by unfold bgIdle; decide +kernel⟩⟩

theorem witness_Overdraw :
    (∃ (s : State) (p : Nat), 11 * s.grantedIn 0 + 500 < 10 * p ∧ s.flag Reg.PW_GOV_OVERDRAW = false) ∧
    (∃ (s : State) (p : Nat), 10 * p ≤ 11 * s.grantedIn 0 + 500) ∧
    (∃ (s : State) (t0 : Nat), s.pw.drawOk = some t0 ∧ s.flag Reg.PW_GOV_OVERDRAW = true ∧ s.elapsed t0 cclkSec = true ∧
     (s.pw.waits.any fun r => decide (r.book = 0)) = false) ∧
    (∃ (s : State) (t0 : Nat), s.pw.drawOk = some t0 ∧ s.flag Reg.PW_GOV_OVERDRAW = true ∧ s.elapsed t0 cclkSec = true ∧
     fracLt s.pw.fNum s.pw.fDen s.fAsked.fst s.fAsked.snd = false) ∧
    (∃ (s : State) (t0 : Nat), s.pw.drawOk = some t0 ∧ s.flag Reg.PW_GOV_OVERDRAW = true ∧ s.elapsed t0 cclkSec = false) ∧
    (∃ (s : State), s.pw.drawOk = none) :=
  ⟨⟨tUp, 2437, by decide +kernel⟩,
   ⟨tUp, 29, by decide +kernel⟩,
   ⟨{ (put tUp [(Reg.PW_BOOK_GRANTED 2, 1)]) with pw := { drawOk := (some 0) } }, 0, by decide +kernel⟩,
   ⟨{ (put tUp [(Reg.PW_BOOK_GRANTED 2, 1)]) with pw := { drawOk := (some 7) } }, 7, by decide +kernel⟩,
   ⟨{ (put State.reset [(Reg.PW_BOOK_GRANTED 2, 1)]) with pw := { drawOk := (some 2) } }, 2, by decide +kernel⟩,
   ⟨tUp, by decide +kernel⟩⟩

theorem witness_HostLink :
    (∃ (s : State) (sp w : Nat), w ∈ [1, 2, 4, 8] ∧ s.domOn 25 = true ∧ 1 ≤ sp ∧ sp ≤ 4 ∧ s.flag Reg.HP_STAT_LINK_UP = false) ∧
    (∃ (s : State) (i : Instr), i ∈ [Instr.hotReset, Instr.functionLevelReset] ∧ s.flag Reg.HP_CTRL_EN = false) ∧
    (∃ (s : State) (entries : List (Nat × List Nat)), s.takes WrSrc.direct RegId.HP_CTRL 0 0 false = true ∧
     s.flag Reg.HP_CTRL_EN = false ∧ s.flag Reg.HP_STAT_LINK_UP = true ∧ s.setupErr = 0) ∧
    (∃ (s : State) (entries : List (Nat × List Nat)), s.takes WrSrc.direct RegId.HP_CTRL 0 0 false = true ∧
     s.flag Reg.HP_CTRL_EN = false ∧ s.flag Reg.HP_STAT_LINK_UP = true ∧ s.setupErr ≠ 0) ∧
    (∃ (s : State) (entries : List (Nat × List Nat)), s.takes WrSrc.direct RegId.HP_CTRL 0 0 false = true ∧
     s.flag Reg.HP_CTRL_EN = false ∧ s.flag Reg.HP_STAT_LINK_UP = false) ∧
    (∃ (s : State) (entries : List (Nat × List Nat)), s.takes WrSrc.direct RegId.HP_CTRL 0 0 false = true ∧
     s.flag Reg.HP_CTRL_EN = true) ∧
    (∃ (s : State) (ok : Bool) (p c e : Nat) (tails : List Nat), s.flag Reg.HP_STAT_POLLING = false) ∧
    (∃ (s : State) (p c e : Nat), s.flag Reg.HP_STAT_POLLING = true ∧ indexOk (s.rd Reg.HP_CMD_RING_N) p s.hp.cmdCi = true ∧
     indexOk (s.rd Reg.HP_CPL_RING_N) s.hp.cplPi c = true ∧ indexOk (s.rd Reg.HP_EVT_RING_N) s.hp.evtPi e = true) ∧
    (∃ (s : State) (p c e : Nat), s.flag Reg.HP_STAT_POLLING = true ∧ indexOk (s.rd Reg.HP_CMD_RING_N) p s.hp.cmdCi = false) ∧
    (∃ (s : State) (p c e : Nat) (tails : List Nat), s.flag Reg.HP_STAT_POLLING = true) ∧
    (∃ (s : State) (n : Nat), n < 32 ∧ s.hp.dbEver = true ∧ s.hp.hostLost = false ∧
     s.elapsed s.hp.dbLast (50 * cclkMs) = true ∧ s.takes_ = [] ∧ s.lkHeld n = true ∧ s.rd (Reg.LK_STAT_OWNER n) = 1) ∧
    (∃ (s : State), (s.hp.hostLost = true ∨ s.hp.dbEver = false)) :=
  ⟨⟨tUp, 1, 1, by decide +kernel⟩,
   ⟨State.reset, (Instr.functionLevelReset), by decide +kernel⟩,
   ⟨(put tUp [(Reg.HP_STAT_LINK_UP, 1), (Reg.HP_DB_BASE_BASE, 1), (Reg.HP_STATUS_BASE_BASE, 2), (Reg.HP_SBUF_TAB_BASE, 3), (Reg.HP_CMD_RING_N, 4), (Reg.HP_CMD_RING_BASE, 16), (Reg.HP_CPL_RING_N, 4), (Reg.HP_CPL_RING_BASE, 32), (Reg.HP_EVT_RING_N, 4), (Reg.HP_EVT_RING_BASE, 48), (Reg.HP_CTRL_EN, (Reg.HP_CTRL_EN).rst)]), [], by decide +kernel⟩,
   ⟨(put tUp [(Reg.HP_STAT_LINK_UP, 1), (Reg.HP_CTRL_EN, (Reg.HP_CTRL_EN).rst)]), [(3, [0, 0, 16, 0, 0, 0, 0, 0, 16, 0, 0, 0, 0, 0, 0, 0])], by decide +kernel⟩,
   ⟨(put tUp [(Reg.HP_CTRL_EN, (Reg.HP_CTRL_EN).rst)]), [], by decide +kernel⟩,
   ⟨tUp, [(0, [5, 6, 6, 7]), (0, [6, 28, 4]), (11, [98, 5, 5]), (5, [55360, 14, 6])], by decide +kernel⟩,
   ⟨tUp, false, 217, 29, 3, [2, 0, 2, 0, 0, 3, 2, 3, 1, 1, 3, 1], by decide +kernel⟩,
   ⟨(put tUp [(Reg.HP_STAT_POLLING, 1)]), 0, 0, 0, by decide +kernel⟩,
   ⟨(put tUp [(Reg.HP_STAT_POLLING, 1)]), 2, 28, 4, by decide +kernel⟩,
   ⟨(put tUp [(Reg.HP_STAT_POLLING, 1)]), 1, 22, 4, [16, 1, 255, 0, 0, 0, 0, 0, 0, 0, 0, 0, 0, 0, 0, 0, 0, 0, 0, 0, 0, 0, 0, 0, 0, 0, 0, 0, 0, 0, 0, 0, 0, 0, 0, 0, 0, 0, 0, 0, 0, 0, 0, 0, 0, 0, 0, 0, 0, 0, 0, 0, 0, 0, 0, 0, 0, 0, 0, 0, 0, 0, 0, 0], by decide +kernel⟩,
   ⟨{ (put tUp [(Reg.LK_STAT_HELD 7, 1), (Reg.LK_STAT_OWNER 7, 1)]) with hp := { dbEver := true } }, 7, by decide +kernel⟩,
   ⟨{ tUp with hp := { hostLost := true } }, by decide +kernel⟩⟩

theorem witness_HostRings :
    (∃ (s : State) (desc data : List Nat), desc.length = 64 ∧ s.fetches = false) ∧
    (∃ (s : State) (desc data : List Nat) (spans : List (Nat × Nat)), paramSpans (desc.getD 0 0) = some spans ∧
     desc.length = 64 ∧ s.fetches = true ∧ framingOk desc spans = true ∧ s.ringTakes (desc.getD 0 0) (desc.getD 2 0) = true ∧
     (desc.getD 2 0 = 255 ∨ desc.getD 2 0 = s.me)) ∧
    (∃ (s : State) (desc data : List Nat), desc.length = 64 ∧ s.fetches = true ∧ paramSpans (desc.getD 0 0) = none) ∧
    (∃ (s : State) (desc data : List Nat) (spans : List (Nat × Nat)), paramSpans (desc.getD 0 0) = some spans ∧
     desc.length = 64 ∧ s.fetches = true ∧ framingOk desc spans = false) ∧
    (∃ (s : State) (desc data : List Nat) (spans : List (Nat × Nat)), paramSpans (desc.getD 0 0) = some spans ∧
     desc.length = 64 ∧ s.fetches = true ∧ framingOk desc spans = true ∧ s.ringTakes (desc.getD 0 0) (desc.getD 2 0) = true ∧ desc.getD 2 0 ≠ 255 ∧
     desc.getD 2 0 ≠ s.me ∧ (s.peer (desc.getD 2 0)).reach = false) ∧
    (∃ (s : State) (desc data : List Nat) (spans : List (Nat × Nat)), paramSpans (desc.getD 0 0) = some spans ∧
     desc.length = 64 ∧ s.fetches = true ∧ framingOk desc spans = true ∧ s.ringTakes (desc.getD 0 0) (desc.getD 2 0) = true ∧ desc.getD 2 0 ≠ 255 ∧
     desc.getD 2 0 ≠ s.me ∧ (s.peer (desc.getD 2 0)).reach = true) ∧
    (∃ (s : State) (h : CmdHdr), byRing s h ∧ h.inst = Inst.none) ∧
    (∃ (s : State) (c : Cpl) (rest : List Cpl), s.hp.cplWait = c :: rest ∧ s.ringsOn = true ∧
     (s.hp.cplPi + 2 ^ 16 - s.hp.cplCi) % 2 ^ 16 < 2 ^ s.rd Reg.HP_CPL_RING_N ∧ c.quiet = false) ∧
    (∃ (s : State) (c : Cpl) (rest : List Cpl), s.hp.cplWait = c :: rest ∧ s.ringsOn = true ∧
     (s.hp.cplPi + 2 ^ 16 - s.hp.cplCi) % 2 ^ 16 < 2 ^ s.rd Reg.HP_CPL_RING_N ∧ c.quiet = true) ∧
    (∃ (s : State) (c : Cpl) (rest : List Cpl), s.hp.cplWait = c :: rest ∧
     (s.ringsOn = false ∨ 2 ^ s.rd Reg.HP_CPL_RING_N ≤ (s.hp.cplPi + 2 ^ 16 - s.hp.cplCi) % 2 ^ 16)) ∧
    (∃ (s : State) (v : Nat), s.ringsOn = true ∧ s.flag Reg.HP_STAT_LINK_UP = true) ∧
    (∃ (s : State) (n b : Nat), b < 256) ∧
    (∃ (s : State) (b : Nat) (r : RecOut) (rest : List RecOut), b < 256 ∧ (s.sbuf b).queue = r :: rest ∧
     s.canGo b [r.data.length] = true ∧ s.follows = false ∧ r.replay = false) ∧
    (∃ (s : State) (b : Nat) (r : RecOut) (rest : List RecOut), b < 256 ∧ (s.sbuf b).queue = r :: rest ∧
     s.canGo b [r.data.length] = true ∧ s.follows = true) ∧
    (∃ (s : State) (v : Nat), v < 64 ∧ s.hp.vecDue.contains v = true ∧ s.vecReady v = true ∧ s.vecMasked v = false) ∧
    (∃ (s : State) (v : Nat), v < 64 ∧ s.hp.vecDue.contains v = true ∧ s.vecReady v = true ∧ s.vecMasked v = true) ∧
    (∃ (s : State) (v : Nat), v < 64 ∧ (s.hp.vecDue.contains v = false ∨ s.vecReady v = false)) :=
  ⟨⟨tUp, [32, 0, 63, 0, 0, 0, 0, 0, 0, 0, 0, 0, 0, 0, 0, 0, 0, 0, 0, 0, 0, 0, 0, 0, 0, 0, 0, 0, 0, 0, 0, 0, 0, 0, 0, 0, 0, 0, 0, 0, 0, 0, 0, 0, 0, 0, 0, 0, 0, 0, 0, 0, 0, 0, 0, 0, 0, 0, 0, 0, 0, 0, 0, 0], [153, 0, 3, 0, 0, 0, 0, 0, 0, 0, 0, 0, 0, 0, 0, 0, 0, 0, 0, 0, 0, 0, 0, 0, 0, 0, 0, 0, 0, 0, 0, 0, 0, 0, 0, 0, 0, 0, 0, 0, 0, 0, 0, 0, 0, 0, 0, 0, 0, 0, 0, 0, 0, 0, 0, 0, 0, 0, 0, 0, 0, 0, 0, 0], by decide +kernel⟩,
   ⟨{ (put tUp [(Reg.HP_STAT_LINK_UP, 1), (Reg.HP_STAT_POLLING, 1)]) with hp := { cmdPi := 1 } }, [48, 0, 255, 0, 0, 0, 0, 0, 0, 0, 0, 0, 0, 0, 0, 0, 0, 0, 0, 0, 0, 0, 0, 0, 0, 0, 0, 0, 0, 0, 0, 0, 0, 0, 0, 0, 0, 0, 0, 0, 0, 0, 0, 0, 0, 0, 0, 0, 0, 0, 0, 0, 0, 0, 0, 0, 0, 0, 0, 0, 0, 0, 0, 0], [0, 0, 16, 0, 0, 0, 0, 0, 15, 0, 0, 0, 0, 0, 0, 0], [(24, 1)], by decide +kernel⟩,
   ⟨{ (put tUp [(Reg.HP_STAT_LINK_UP, 1), (Reg.HP_STAT_POLLING, 1)]) with hp := { cmdPi := 1 } }, [0, 1, 3, 0, 1, 2, 2, 0, 1, 2, 1, 2, 0, 1, 2, 1, 2, 3, 1, 1, 1, 1, 2, 3, 0, 0, 1, 0, 1, 3, 2, 3, 0, 2, 0, 1, 2, 2, 3, 2, 3, 3, 0, 0, 2, 0, 0, 0, 1, 2, 2, 0, 1, 2, 0, 0, 2, 3, 1, 3, 0, 0, 2, 3], [153, 0, 63, 0, 7, 7, 0, 0, 0, 0, 0, 0, 0, 0, 0, 0, 0, 0, 0, 0, 0, 0, 0, 0, 0, 0, 0, 0, 0, 0, 0, 0, 0, 0, 0, 0, 0, 0, 0, 0, 0, 0, 0, 0, 0, 0, 0, 0, 0, 0, 0, 0, 0, 0, 0, 0, 0, 0, 0, 0, 0, 0, 0, 0], by decide +kernel⟩,
   ⟨{ (put tUp [(Reg.HP_STAT_LINK_UP, 1), (Reg.HP_STAT_POLLING, 1)]) with hp := { cmdPi := 1 } }, [66, 1, 63, 0, 0, 0, 0, 0, 0, 0, 0, 0, 0, 0, 0, 0, 0, 0, 0, 0, 0, 0, 0, 0, 0, 0, 0, 0, 0, 0, 0, 0, 0, 0, 0, 0, 0, 0, 0, 0, 0, 0, 0, 0, 0, 0, 0, 0, 0, 0, 0, 0, 0, 0, 0, 0, 0, 0, 0, 0, 0, 0, 0, 0], [], [(24, 2)], by decide +kernel⟩,
   ⟨{ (put tUp [(Reg.HP_STAT_LINK_UP, 1), (Reg.HP_STAT_POLLING, 1)]) with hp := { cmdPi := 1 } }, [49, 0, 0, 0, 7, 7, 0, 0, 0, 0, 0, 0, 0, 0, 0, 0, 0, 0, 0, 0, 0, 0, 0, 0, 0, 0, 0, 0, 0, 0, 0, 0, 0, 0, 0, 0, 0, 0, 0, 0, 0, 0, 0, 0, 0, 0, 0, 0, 0, 0, 0, 0, 0, 0, 0, 0, 0, 0, 0, 0, 0, 0, 0, 0], [4, 174], [(24, 3)], by decide +kernel⟩,
   ⟨{ (put tUp [(Reg.HP_STAT_LINK_UP, 1), (Reg.HP_STAT_POLLING, 1)]) with hp := { cmdPi := 1 }, ov := { peers := [(3, { reach := true })] } }, [112, 0, 3, 0, 0, 0, 0, 0, 0, 0, 0, 0, 0, 0, 0, 0, 0, 0, 0, 0, 0, 0, 0, 0, 0, 0, 0, 0, 0, 0, 0, 0, 0, 0, 0, 0, 0, 0, 0, 0, 0, 0, 0, 0, 0, 0, 0, 0, 0, 0, 0, 0, 0, 0, 0, 0, 0, 0, 0, 0, 0, 0, 0, 0], [], [(32, 8)], by decide +kernel⟩,
   ⟨tUp, { tHdr with tag := 24, opcode := 94, index := 0 }, by unfold byRing; decide +kernel⟩,
   ⟨{ tUp with hp := { cplWait := [{ tag := 29, status := Sys2Proof.Status.ok, opcode := 2, hub := 3499, result := 0, index := 2, endCause := 3, quiet := false, via := .ring }] } }, { tag := 29, status := Sys2Proof.Status.ok, opcode := 2, hub := 3499, result := 0, index := 2, endCause := 3, quiet := false, via := .ring }, [], by decide +kernel⟩,
   ⟨{ tUp with hp := { cplWait := [{ tag := 19, status := Sys2Proof.Status.hwFault, opcode := 4, hub := 1, result := 4, index := 2, endCause := 1, quiet := true, via := .ring }] } }, { tag := 19, status := Sys2Proof.Status.hwFault, opcode := 4, hub := 1, result := 4, index := 2, endCause := 1, quiet := true, via := .ring }, [], by decide +kernel⟩,
   ⟨{ State.reset with hp := { cplWait := [{ tag := 2, status := Sys2Proof.Status.ok, opcode := 3, hub := 0, result := 5, index := 220, endCause := 3, quiet := true, via := .ring }] } }, { tag := 2, status := Sys2Proof.Status.ok, opcode := 3, hub := 0, result := 5, index := 220, endCause := 3, quiet := true, via := .ring }, [], by decide +kernel⟩,
   ⟨(put tUp [(Reg.HP_STAT_LINK_UP, 1)]), 4, by decide +kernel⟩,
   ⟨tUp, 4, 255, by decide +kernel⟩,
   ⟨{ tUp with hp := { bufs := [(2, { log2 := 20, users := 1, queue := [{ stream := 3, seq := 2, n := 5, buf := 2, data := [2], late := true, replay := false }] })] } }, 2, { stream := 3, seq := 2, n := 5, buf := 2, data := [2], late := true, replay := false }, [], by decide +kernel⟩,
   ⟨{ (put State.reset [(Reg.OV_STAT_LEADER_ID, 1)]) with hp := { bufs := [(255, { queue := [{ stream := 10, seq := 9, n := 4, buf := 1, data := [], late := true, replay := true }] })] }, ov := { peers := [(1, { reach := true })] } }, 255, { stream := 10, seq := 9, n := 4, buf := 1, data := [], late := true, replay := true }, [], by decide +kernel⟩,
   ⟨{ tUp with hp := { vecDue := [0], msix := [(3, 1)] } }, 0, by decide +kernel⟩,
   ⟨{ tUp with hp := { vecDue := [0] } }, 0, by decide +kernel⟩,
   ⟨tUp, 47, by decide +kernel⟩⟩

theorem witness_Leashes :
    (∃ (s : State) (h : CmdHdr) (n wait ms : Nat) (st : Status), leashTakeRefuse s n wait ms = some st ∧ byRing s h ∧
     s.sampling = true) ∧
    (∃ (s : State) (h : CmdHdr) (n wait ms : Nat), byRing s h ∧ s.sampling = true ∧ leashTakeRefuse s n wait ms = none ∧
     (s.lkHeld n = false ∨ s.lkBroken n = true)) ∧
    (∃ (s : State) (h : CmdHdr) (n wait ms : Nat), byRing s h ∧ s.sampling = true ∧ leashTakeRefuse s n wait ms = none ∧
     s.lkHeld n = true ∧ s.lkBroken n = false ∧ s.rd (Reg.LK_STAT_OWNER n) = 1) ∧
    (∃ (s : State) (h : CmdHdr) (n wait ms : Nat), wait = 0 ∧ byRing s h ∧ s.sampling = true ∧
     leashTakeRefuse s n wait ms = none ∧ s.lkHeld n = true ∧ s.lkBroken n = false ∧ s.rd (Reg.LK_STAT_OWNER n) ≠ 1) ∧
    (∃ (s : State) (h : CmdHdr) (n wait ms : Nat), wait = 1 ∧ byRing s h ∧ s.sampling = true ∧
     leashTakeRefuse s n wait ms = none ∧ s.lkHeld n = true ∧ s.lkBroken n = false ∧ s.rd (Reg.LK_STAT_OWNER n) ≠ 1) ∧
    (∃ (s : State) (h : CmdHdr) (n epoch : Nat), byRing s h ∧ s.sampling = true ∧ s.lkMatches n 1 epoch = false) ∧
    (∃ (s : State) (h : CmdHdr) (n epoch : Nat), byRing s h ∧ s.sampling = true ∧ s.lkMatches n 1 epoch = true ∧
     List.find? (fun k => decide (k.leash = n)) s.takes_ = none) ∧
    (∃ (s : State) (h : CmdHdr) (n epoch : Nat) (k : Take), List.find? (fun k => decide (k.leash = n)) s.takes_ = some k ∧
     byRing s h ∧ s.sampling = true ∧ s.lkMatches n 1 epoch = true ∧ k.owner < 8) ∧
    (∃ (s : State) (h : CmdHdr) (k : Take), k ∈ s.takes_ ∧ byRing s h ∧ s.sampling = true ∧ k.until_ ≤ s.run) ∧
    (∃ (s : State) (h : CmdHdr) (o n : Nat), n < 32 ∧ byRing s h ∧ s.sampling = true ∧ 1 ≤ o ∧ o ≤ 5 ∧ s.takes_ = [] ∧
     s.lkHeld n = true ∧ s.rd (Reg.LK_STAT_OWNER n) = o) ∧
    (∃ (s : State) (h : CmdHdr) (o n : Nat), n < 32 ∧ byRing s h ∧ s.sampling = true ∧ 1 ≤ o ∧ o ≤ 5 ∧ s.takes_ = [] ∧
     s.lkHeld n = true ∧ s.rd (Reg.LK_STAT_OWNER n) ≠ o) ∧
    (∃ (s : State) (h : CmdHdr) (o : Nat), byRing s h ∧ s.sampling = true ∧ 1 ≤ o ∧ o ≤ 5 ∧ s.takes_ = [] ∧
     (∀ (n : Nat), n < 32 → s.lkHeld n = true → s.rd (Reg.LK_STAT_OWNER n) ≠ o)) ∧
    (∃ (s : State) (h : CmdHdr) (n : Nat), n < 32 ∧ byRing s h ∧ s.sampling = true ∧
     s.takes WrSrc.direct RegId.LK_CTRL 0 0 false = true ∧ s.lkHeld n = true ∧ s.takes_ = [] ∧ s.guards n = (1, 0) ∧ s.axState 0 = axHOLD) ∧
    (∃ (s : State) (h : CmdHdr) (n : Nat), n < 32 ∧ byRing s h ∧ s.sampling = true ∧
     s.takes WrSrc.direct RegId.LK_CTRL 0 0 false = true ∧ s.lkHeld n = true ∧ s.takes_ = [] ∧ s.guards n = (0, 0)) :=
  ⟨⟨tUp, { tHdr with tag := 234, opcode := 125, quiet := true, index := 5 }, 1, 3, 3, Sys2Proof.Status.badParam, by unfold byRing; decide +kernel⟩,
   ⟨tUp, { tHdr with tag := 150, opcode := 72, inst := (.beat 1), index := 4 }, 0, 1, 2, by unfold byRing; decide +kernel⟩,
   ⟨(put tUp [(Reg.LK_STAT_HELD 0, 1), (Reg.LK_STAT_OWNER 0, 1)]), { tHdr with tag := 151, opcode := 68, index := 5 }, 0, 0, 2, by unfold byRing; decide +kernel⟩,
   ⟨(put tUp [(Reg.LK_STAT_HELD 0, 1)]), { tHdr with tag := 19, opcode := 115, quiet := true, index := 5 }, 0, 0, 3, by unfold byRing; decide +kernel⟩,
   ⟨(put tUp [(Reg.LK_STAT_HELD 0, 1)]), { tHdr with tag := 178, opcode := 122, quiet := true, inst := (.edge 7), index := 5 }, 0, 1, 2, by unfold byRing; decide +kernel⟩,
   ⟨tUp, { tHdr with tag := 104, opcode := 33, quiet := true, inst := (.beat 4), index := 5 }, 3, 3, by unfold byRing; decide +kernel⟩,
   ⟨(put tUp [(Reg.LK_STAT_HELD 1, 1), (Reg.LK_STAT_OWNER 1, 1)]), { tHdr with tag := 188, opcode := 93, quiet := true, index := 3 }, 1, 0, by unfold byRing; decide +kernel⟩,
   ⟨{ (put tUp [(Reg.LK_STAT_HELD 2, 1), (Reg.LK_STAT_OWNER 2, 1)]) with takes_ := [{ leash := 2, owner := 4, hdr := { tHdr with tag := 76, opcode := 70, index := 6 }, until_ := 2 }] }, { tHdr with tag := 94, opcode := 93, index := 1 }, 2, 0, { leash := 2, owner := 4, hdr := { tHdr with tag := 76, opcode := 70, index := 6 }, until_ := 2 }, by unfold byRing; decide +kernel⟩,
   ⟨{ tUp with hp := { inflight := [{ hdr := tHdr, begun := false }] }, takes_ := [{ leash := 1, owner := 2, hdr := tHdr, until_ := 3 }] }, { tHdr with tag := 143, opcode := 63, quiet := true, inst := (.beat 69), index := 6 }, { leash := 1, owner := 2, hdr := tHdr, until_ := 3 }, by unfold byRing; decide +kernel⟩,
   ⟨(put tUp [(Reg.LK_STAT_HELD 0, 1), (Reg.LK_STAT_OWNER 0, 2)]), { tHdr with tag := 2, opcode := 76, quiet := true, index := 0 }, 2, 0, by unfold byRing; decide +kernel⟩,
   ⟨(put tUp [(Reg.LK_STAT_HELD 2, 1)]), { tHdr with tag := 226, opcode := 6, quiet := true, index := 6 }, 3, 2, by unfold byRing; decide +kernel⟩,
   ⟨tUp, { tHdr with tag := 106, opcode := 56, index := 1 }, 2, by unfold byRing; decide +kernel⟩,
   ⟨(put tUp [(Reg.HUB_MODE_MODE, 3), (Reg.LK_STAT_HELD 0, 1), (Reg.LK_CFG_GUARD 0, 1), (Reg.DV_AX_STAT_STATE 0, 2)]), { tHdr with tag := 178, opcode := 106, quiet := true, index := 0 }, 0, by unfold byRing; decide +kernel⟩,
   ⟨(put tUp [(Reg.HUB_MODE_MODE, 3), (Reg.LK_STAT_HELD 3, 1)]), { tHdr with tag := 68, opcode := 17, index := 5 }, 3, by unfold byRing; decide +kernel⟩⟩

theorem witness_BarkQueue :
    (∃ (s : State), s.bq.staged = []) ∧
    (∃ (s : State) (b : Bark) (rest : List Bark), s.bq.staged = b :: rest ∧ s.queueUp = true ∧ s.bqLevel + b.len ≤ queueWords ∧
     b.warn = false) ∧
    (∃ (s : State) (b : Bark) (rest : List Bark), s.bq.staged = b :: rest ∧ s.queueUp = true ∧ s.bqLevel + b.len ≤ queueWords ∧
     b.warn = true) ∧
    (∃ (s : State) (b : Bark) (rest : List Bark), s.bq.staged = b :: rest ∧ s.queueUp = false) ∧
    (∃ (s : State), (s.bq.queue = [] ∨ s.flag Reg.BQ_CTRL_HOST_POP = true ∨ s.queueUp = false)) ∧
    (∃ (s : State) (b : Bark) (rest : List Bark), s.bq.queue = b :: rest ∧ s.flag Reg.BQ_CTRL_HOST_POP = false ∧
     s.queueUp = true ∧ s.follows = false ∧ s.ringsOn = true ∧ (s.hp.evtPi + 2 ^ 16 - s.hp.evtCi) % 2 ^ 16 + b.entries ≤ 2 ^ s.rd Reg.HP_EVT_RING_N) ∧
    (∃ (s : State) (b : Bark) (rest : List Bark), s.bq.queue = b :: rest ∧ s.flag Reg.BQ_CTRL_HOST_POP = false ∧
     s.queueUp = true ∧ s.follows = false ∧ s.ringsOn = true ∧ 2 ^ s.rd Reg.HP_EVT_RING_N < (s.hp.evtPi + 2 ^ 16 - s.hp.evtCi) % 2 ^ 16 + b.entries) ∧
    (∃ (s : State) (b : Bark) (rest : List Bark), s.bq.queue = b :: rest ∧ s.flag Reg.BQ_CTRL_HOST_POP = false ∧
     s.queueUp = true ∧ s.follows = true ∧ s.leaderPath = true) ∧
    (∃ (s : State), s.domOn 27 = true ∧ s.flag Reg.BQ_CTRL_HOST_POP = false) ∧
    (∃ (s : State), s.domOn 27 = true ∧ s.flag Reg.BQ_CTRL_HOST_POP = true ∧ s.bq.queue = []) ∧
    (∃ (s : State) (b : Bark) (rest : List Bark), s.bq.queue = b :: rest ∧ s.domOn 27 = true ∧
     s.flag Reg.BQ_CTRL_HOST_POP = true ∧ s.bq.popped = 0) ∧
    (∃ (s : State) (b : Bark) (rest : List Bark), s.bq.queue = b :: rest ∧ s.domOn 27 = true ∧
     s.flag Reg.BQ_CTRL_HOST_POP = true ∧ s.bq.popped ≠ 0 ∧ s.bq.popped + 1 = b.len) ∧
    (∃ (s : State) (src : WrSrc), s.takes src RegId.BQ_CTRL 0 0 false = true ∧ s.popMode = true) ∧
    (∃ (s : State) (src : WrSrc), src = WrSrc.direct ∧ s.takes src RegId.BQ_CTRL 0 0 false = true ∧ s.popMode = false) :=
  ⟨⟨tUp, by decide +kernel⟩,
   ⟨{ tUp with bq := { staged := [{ src := 39, code := 1, warn := false, hub := 46, time := 6, payload := [], afterLoss := true }] } }, { src := 39, code := 1, warn := false, hub := 46, time := 6, payload := [], afterLoss := true }, [], by decide +kernel⟩,
   ⟨{ tUp with bq := { staged := [{ src := 3, code := 2, warn := true, hub := 2, time := 4, payload := [], afterLoss := true }] } }, { src := 3, code := 2, warn := true, hub := 2, time := 4, payload := [], afterLoss := true }, [], by decide +kernel⟩,
   ⟨{ State.reset with bq := { staged := [{ src := 0, code := 5, warn := true, hub := 26, time := 2, payload := [], afterLoss := false }] } }, { src := 0, code := 5, warn := true, hub := 26, time := 2, payload := [], afterLoss := false }, [], by decide +kernel⟩,
   ⟨tUp, by decide +kernel⟩,
   ⟨{ tUp with bq := { queue := [{ src := 59, code := 5, warn := true, hub := 38, time := 6, payload := [], afterLoss := true }] } }, { src := 59, code := 5, warn := true, hub := 38, time := 6, payload := [], afterLoss := true }, [], by decide +kernel⟩,
   ⟨{ tUp with bq := { queue := [{ src := 49, code := 7, warn := true, hub := 41, time := 6, payload := [2, 0, 0, 0, 1, 3, 0, 0, 1, 3, 1, 1, 2, 0, 1, 0], afterLoss := true }] } }, { src := 49, code := 7, warn := true, hub := 41, time := 6, payload := [2, 0, 0, 0, 1, 3, 0, 0, 1, 3, 1, 1, 2, 0, 1, 0], afterLoss := true }, [], by decide +kernel⟩,
   ⟨{ (put tUp [(Reg.OV_STAT_LEADER_ID, 1), (Reg.OV_STAT_ROLE, (Reg.OV_STAT_ROLE).rst)]) with bq := { queue := [{ src := 51, code := 0, warn := true, hub := 12, time := 7, payload := [], afterLoss := true }] }, ov := { peers := [(1, { reach := true })] } }, { src := 51, code := 0, warn := true, hub := 12, time := 7, payload := [], afterLoss := true }, [], by decide +kernel⟩,
   ⟨tUp, by decide +kernel⟩,
   ⟨(put tUp [(Reg.BQ_CTRL_HOST_POP, 1)]), by decide +kernel⟩,
   ⟨{ (put tUp [(Reg.BQ_CTRL_HOST_POP, 1)]) with bq := { queue := [{ src := 5, code := 7, warn := false, hub := 38, time := 0, payload := [], afterLoss := true }] } }, { src := 5, code := 7, warn := false, hub := 38, time := 0, payload := [], afterLoss := true }, [], by decide +kernel⟩,
   ⟨{ (put tUp [(Reg.BQ_CTRL_HOST_POP, 1)]) with bq := { queue := [{ src := 40, code := 5, warn := true, hub := 43, time := 3, payload := [7], afterLoss := false }], popped := 4 } }, { src := 40, code := 5, warn := true, hub := 43, time := 3, payload := [7], afterLoss := false }, [], by decide +kernel⟩,
   ⟨(put tUp [(Reg.HUB_MODE_MODE, 3)]), .direct, by decide +kernel⟩,
   ⟨(put State.reset [(Reg.PW_DOMAIN_STAT_ON, 134217728)]), .direct, by decide +kernel⟩⟩

theorem witness_ConfigurationCommands :
    (∃ (s : State) (h : CmdHdr) (ofs : Nat) (data : List Nat), byRing s h ∧
     (s.barred = true ∨ listForbidden s [{ ofs := ofs, data := data }] = true)) ∧
    (∃ (s : State) (h : CmdHdr) (ofs : Nat) (data : List Nat) (st : Status), listLeash s h [{ ofs := ofs, data := data }] = some st ∧
     byRing s h ∧ s.barred = false ∧ listForbidden s [{ ofs := ofs, data := data }] = false) ∧
    (∃ (s : State) (h : CmdHdr) (ofs : Nat) (data : List Nat) (j : Nat), listFault (s.begin h) (instEdge s.now h.inst) [{ ofs := ofs, data := data }] = some j ∧
     byRing s h ∧ s.barred = false ∧ listForbidden s [{ ofs := ofs, data := data }] = false ∧ listLeash s h [{ ofs := ofs, data := data }] = none) ∧
    (∃ (s : State) (h : CmdHdr) (addr : Nat) (list : List Nat), byRing s h ∧ s.barred = true) ∧
    (∃ (s : State) (h : CmdHdr) (addr : Nat) (list : List Nat), byRing s h ∧ s.barred = false ∧
     (list.length < 8 ∨ 65536 < list.length ∨ addrOk addr list.length = false)) ∧
    (∃ (s : State) (h : CmdHdr) (addr : Nat) (list : List Nat) (j : Nat), listFault (s.begin h) (instEdge s.now h.inst) (parseBatch list.length list) = some j ∧
     byRing s h ∧ s.barred = false ∧ 8 ≤ list.length ∧ list.length ≤ 65536 ∧ addrOk addr list.length = true ∧ h.opcode = 4 ∧
     listForbidden s (parseBatch list.length list) = false ∧ listLeash s h (parseBatch list.length list) = none) ∧
    (∃ (s : State) (h : CmdHdr) (v addr e : Nat), e = instEdge s.now h.inst ∧ byRing s h ∧ s.barred = false ∧
     h.inst = Inst.none ∧ h.opcode = 4 ∧ addrOk addr 16 = true ∧ listFault (s.begin h) e [{ ofs := 16384, data := leBytes 4 v }] = none) ∧
    (∃ (s : State) (h : CmdHdr) (ofs len addr : Nat), byRing s h ∧
     (ofs % 4 ≠ 0 ∨ len < 4 ∨ 256 < len ∨ len % 4 ≠ 0 ∨ 1048576 < ofs + len ∨ addrOk addr len = false)) ∧
    (∃ (s : State) (h : CmdHdr) (ofs len addr : Nat), byRing s h ∧ ofs % 4 = 0 ∧ 4 ≤ len ∧ len ≤ 256 ∧
     len % 4 = 0 ∧ ofs + len ≤ 1048576 ∧ addrOk addr len = true ∧ h.inst = Inst.none) ∧
    (∃ (s : State) (h : CmdHdr) (addr : Nat), byRing s h ∧ addrOk addr 4 = true ∧ h.inst = Inst.none) ∧
    (∃ (s : State) (h : CmdHdr) (addr : Nat), byRing s h ∧ addrOk addr 4096 = false) ∧
    (∃ (s : State) (h : CmdHdr) (addr : Nat), byRing s h ∧ addrOk addr 4096 = true) :=
  ⟨⟨(put tUp [(Reg.HUB_MODE_MODE, 2)]), { tHdr with tag := 168, quiet := true, index := 5 }, 7800, [6], by unfold byRing; decide +kernel⟩,
   ⟨(put tUp [(Reg.LK_STAT_HELD 3, 1), (Reg.LK_STAT_OWNER 3, 2), (Reg.LK_CFG_GUARD 3, 1), (Reg.LK_CFG_INDEX 3, 2)]), { tHdr with tag := 188, opcode := 56, index := 0 }, 393536, [0, 0, 0, 0, 0, 0, 0, 0, 0, 0, 0, 0, 0, 2, 0, 0, 0, 0, 0, 0, 0, 0, 240, 63, 0, 0, 0, 0, 0, 0, 0, 0, 10, 0, 100, 0, 0, 0, 0, 0, 0, 0, 0, 0, 0, 0, 0, 0, 0, 0, 0, 0, 0, 0, 0, 0], Sys2Proof.Status.leashHeld, by unfold byRing; decide +kernel⟩,
   ⟨tUp, { tHdr with tag := 199, opcode := 75, index := 3 }, 14, [113, 0, 255, 0, 7, 7, 0, 0, 0, 0, 0, 0, 0, 0, 0, 0, 0, 0, 0, 0, 0, 0, 0, 0, 0, 0, 0, 0, 0, 0, 0, 0, 0, 0, 0, 0, 0, 0, 0, 0, 0, 0, 0, 0, 0, 0, 0, 0, 0, 0, 0, 0, 0, 0, 0, 0, 0, 0, 0, 0, 0, 0, 0, 0], 0, by unfold byRing; decide +kernel⟩,
   ⟨(put tUp [(Reg.HUB_MODE_MODE, 2)]), { tHdr with tag := 7, opcode := 93, quiet := true, index := 7 }, 7, [4, 97, 7], by unfold byRing; decide +kernel⟩,
   ⟨tUp, { tHdr with tag := 110, opcode := 27, quiet := true, index := 3 }, 2, [730242, 1], by unfold byRing; decide +kernel⟩,
   ⟨tUp, { tHdr with tag := 170, opcode := 4, index := 5 }, 1, [2, 0, 255, 0, 7, 7, 0, 0, 0, 0, 0, 0, 0, 0, 0, 0, 0, 0, 0, 0, 0, 0, 0, 0, 0, 0, 0, 0, 0, 0, 0, 0, 0, 0, 0, 0, 0, 0, 0, 0, 0, 0, 0, 0, 0, 0, 0, 0, 0, 0, 0, 0, 0, 0, 0, 0, 0, 0, 0, 0, 0, 0, 0, 0], 0, by unfold byRing; decide +kernel⟩,
   ⟨{ tUp with now := 1 }, { tHdr with tag := 109, opcode := 4, quiet := true }, 609386, 3, 1, by unfold byRing; decide +kernel⟩,
   ⟨tUp, { tHdr with tag := 176, opcode := 15, index := 5 }, 7, 6, 901601, by unfold byRing; decide +kernel⟩,
   ⟨tUp, { tHdr with tag := 33, opcode := 121, index := 6 }, 393536, 4, 5, by unfold byRing; decide +kernel⟩,
   ⟨tUp, { tHdr with tag := 81, opcode := 72, index := 0 }, 7, by unfold byRing; decide +kernel⟩,
   ⟨tUp, { tHdr with tag := 232, opcode := 30, index := 4 }, 0, by unfold byRing; decide +kernel⟩,
   ⟨tUp, { tHdr with tag := 110, opcode := 91, quiet := true, index := 1 }, 1, by unfold byRing; decide +kernel⟩⟩

theorem witness_DirectWrites :
    (∃ (s : State) (ofs size data : Nat), ofs < 1048576 ∧ s.mode = mDORMANT) ∧
    (∃ (s : State) (ofs size data : Nat), ofs < 1048576 ∧ s.mode ≠ mDORMANT ∧ (size ≠ 4 ∧ size ≠ 8 ∨ ofs % size ≠ 0)) ∧
    (∃ (s : State) (data : Nat), (s.mode = mBOOT ∨ s.mode = mSELFTEST ∨ s.mode = mSAFE ∨ s.mode = mCOMMISSION)) ∧
    (∃ (s : State) (data : Nat), s.runLike = true ∧ s.rd Reg.HUB_WR_STAT_DISCARDS < 2 ^ 32 - 1) ∧
    (∃ (s : State) (v w data : Nat), v < msixVectors ∧ w < 4 ∧ s.domOn 25 = true ∧ s.modeTakes RegId.HP_CTRL = true ∧
     s.hp.vecPend.contains v = false ∧ s.mode ≠ mDORMANT) ∧
    (∃ (s : State) (src : WrSrc), s.takes src RegId.HUB_WR_STAT 0 0 false = true) ∧
    (∃ (s : State), s.takes WrSrc.direct RegId.HUB_WR_STAT 0 0 false = false) :=
  ⟨⟨(put tUp [(Reg.HUB_MODE_MODE, 0)]), 1048575, 5, 14, by decide +kernel⟩,
   ⟨tUp, 0, 0, 53857, by decide +kernel⟩,
   ⟨State.reset, 6, by decide +kernel⟩,
   ⟨tUp, 0, by decide +kernel⟩,
   ⟨tUp, 2, 3, 5, by decide +kernel⟩,
   ⟨State.reset, .direct, by decide +kernel⟩,
   ⟨tUp, by decide +kernel⟩⟩

theorem witness_Images :
    (∃ (s : State) (h : CmdHdr) (addr ofs bank : Nat) (data : List Nat) (when_ len : Nat) (i : Instr), i ∈ [Instr.imageWrite h addr ofs bank data, Instr.imageCommit h bank len, Instr.imageActivate h bank when_, Instr.rollback h when_] ∧
     byRing s h ∧ s.barred = true) ∧
    (∃ (s : State) (h : CmdHdr) (bank : Nat) (st : Status) (addr ofs : Nat) (data : List Nat) (when_ len : Nat) (i : Instr), s.bankLeash h bank = some st ∧
     i ∈ [Instr.imageWrite h addr ofs bank data, Instr.imageCommit h bank len, Instr.imageActivate h bank when_] ∧ byRing s h ∧ s.barred = false) ∧
    (∃ (s : State) (h : CmdHdr) (addr ofs bank : Nat) (data : List Nat), byRing s h ∧ s.barred = false ∧ (bank = 1 ∨ bank = 2) ∧
     s.bankLeash h bank = none ∧ 4 ≤ data.length ∧ data.length ≤ 1048576 ∧ data.length % 4 = 0 ∧ addrOk addr data.length = true ∧
     writeRefused s bank ofs data.length = true) ∧
    (∃ (s : State) (h : CmdHdr) (addr ofs bank : Nat) (data : List Nat), byRing s h ∧ s.barred = false ∧ (bank = 1 ∨ bank = 2) ∧
     s.bankLeash h bank = none ∧ 4 ≤ data.length ∧ data.length ≤ 1048576 ∧ data.length % 4 = 0 ∧ addrOk addr data.length = true ∧
     writeRefused s bank ofs data.length = false) ∧
    (∃ (s : State) (h : CmdHdr) (bank len n : Nat) (st : Status), commitCheck s (Sparse.get [] bank s.kn.data) (s.rd (Reg.KN_BANK_INFO_WPTR bank)) len = some (n, st) ∧
     byRing s h ∧ s.barred = false ∧ (bank = 1 ∨ bank = 2) ∧ s.bankLeash h bank = none ∧ s.bankState bank ≠ bACTIVE ∧ s.bankState bank ≠ bPENDING) ∧
    (∃ (s : State) (h : CmdHdr) (bank : Nat), byRing s h ∧ s.barred = false ∧ s.bankLeash h bank = none ∧ (bank = 1 ∨ bank = 2) ∧
     (s.bankState bank = bCOMMITTED ∨ s.bankState bank = bPREVIOUS)) ∧
    (∃ (s : State) (h : CmdHdr) (bank when_ : Nat), byRing s h ∧ s.barred = false ∧ s.bankLeash h bank = none ∧
     (2 < bank ∨ 1 < when_ ∨ bank ≠ 0 ∧ s.bankState bank ≠ bCOMMITTED ∧ s.bankState bank ≠ bPREVIOUS)) ∧
    (∃ (s : State) (h : CmdHdr) (w : Nat), byRing s h ∧ s.barred = false ∧ s.bankLeash h s.prevBank = none ∧
     (s.prevBank = 3 ∨ s.prevBank ≠ 0 ∧ (Sparse.get { } s.prevBank s.kn.images).gen < s.rd Reg.KN_SEC_FLOOR)) ∧
    (∃ (s : State) (h : CmdHdr), byRing s h ∧ s.barred = false ∧ s.bankLeash h s.prevBank = none ∧
     (s.prevBank = 1 ∨ s.prevBank = 2) ∧ s.rd Reg.KN_SEC_FLOOR ≤ (Sparse.get { } s.prevBank s.kn.images).gen) ∧
    (∃ (s : State) (h : CmdHdr), byRing s h ∧ s.barred = false ∧ s.bankLeash h s.prevBank = none ∧ s.prevBank = 0) :=
  ⟨⟨(put tUp [(Reg.HUB_MODE_MODE, 2)]), { tHdr with tag := 168, quiet := true, index := 5 }, 7800, 7, 6, [16, 0, 63, 0, 0, 0, 0, 0, 0, 0, 0, 0, 0, 0, 0, 0, 0, 0, 0, 0, 0, 0, 0, 0, 0, 0, 0, 0, 0, 0, 0, 0, 0, 0, 0, 0, 0, 0, 0, 0, 0, 0, 0, 0, 0, 0, 0, 0, 0, 0, 0, 0, 0, 0, 0, 0, 0, 0, 0, 0, 0, 0, 0, 0], 0, 4, (Instr.imageWrite { tag := 168, opcode := 5, quiet := true, inst := Inst.none, index := 5, via := Via.ring } 7800 7 6 [16, 0, 63, 0, 0, 0, 0, 0, 0, 0, 0, 0, 0, 0, 0, 0, 0, 0, 0, 0, 0, 0, 0, 0, 0, 0, 0, 0, 0, 0, 0, 0, 0, 0, 0, 0, 0, 0, 0, 0, 0, 0, 0, 0, 0, 0, 0, 0, 0, 0, 0, 0, 0, 0, 0, 0, 0, 0, 0, 0, 0, 0, 0, 0]), by unfold byRing; decide +kernel⟩,
   ⟨(put tUp [(Reg.LK_STAT_HELD 3, 1), (Reg.LK_STAT_OWNER 3, 2), (Reg.LK_CFG_GUARD 3, 5), (Reg.LK_CFG_INDEX 3, 2)]), { tHdr with tag := 184, opcode := 74 }, 2, Sys2Proof.Status.leashHeld, 7, 1, [32, 1, 63, 0, 7, 7, 0, 0, 0, 0, 0, 0, 0, 0, 0, 0, 0, 0, 0, 0, 0, 0, 0, 0, 0, 0, 0, 0, 0, 0, 0, 0, 0, 0, 0, 0, 0, 0, 0, 0, 0, 0, 0, 0, 0, 0, 0, 0, 0, 0, 0, 0, 0, 0, 0, 0, 0, 0, 0, 0, 0, 0, 0, 0], 3, 2, (Instr.imageWrite { tag := 184, opcode := 74, quiet := false, inst := Inst.none, index := 2, via := Via.ring } 7 1 2 [32, 1, 63, 0, 7, 7, 0, 0, 0, 0, 0, 0, 0, 0, 0, 0, 0, 0, 0, 0, 0, 0, 0, 0, 0, 0, 0, 0, 0, 0, 0, 0, 0, 0, 0, 0, 0, 0, 0, 0, 0, 0, 0, 0, 0, 0, 0, 0, 0, 0, 0, 0, 0, 0, 0, 0, 0, 0, 0, 0, 0, 0, 0, 0]), by unfold byRing; decide +kernel⟩,
   ⟨tUp, { tHdr with tag := 240, opcode := 116, quiet := true, inst := (.beat 11), index := 7 }, 7, 7, 2, [0, 0, 0, 0, 0, 0, 0, 0, 0, 0, 0, 0, 0, 0, 0, 0, 0, 0, 0, 0, 0, 0, 240, 63, 0, 0, 0, 0, 0, 0, 0, 0, 10, 0, 100, 0, 0, 0, 0, 0, 0, 0, 0, 0, 0, 0, 0, 0, 0, 0, 0, 0, 0, 0, 0, 0], by unfold byRing; decide +kernel⟩,
   ⟨tUp, { tHdr with tag := 109, opcode := 100, index := 1 }, 4, 0, 1, [6, 0, 0, 0, 0, 0, 0, 0, 0, 0, 0, 0, 0, 2, 0, 0, 0, 0, 0, 0, 0, 0, 240, 63, 0, 0, 0, 0, 0, 0, 0, 0, 10, 0, 100, 0, 0, 0, 0, 0, 0, 0, 0, 0, 0, 0, 0, 0, 0, 0, 0, 0, 0, 0, 0, 0], by unfold byRing; decide +kernel⟩,
   ⟨tUp, { tHdr with opcode := 7, index := 7 }, 2, 2, 1, Sys2Proof.Status.imageCrc, by unfold byRing; decide +kernel⟩,
   ⟨(put tUp [(Reg.KN_BANK_INFO_STATE 2, 2)]), { tHdr with tag := 107, opcode := 117, quiet := true, index := 5 }, 2, by unfold byRing; decide +kernel⟩,
   ⟨tUp, { tHdr with tag := 105, opcode := 53, inst := (.beat 3), index := 7 }, 3, 435035, by unfold byRing; decide +kernel⟩,
   ⟨tUp, { tHdr with tag := 183, opcode := 4, quiet := true, index := 4 }, 4, by unfold byRing; decide +kernel⟩,
   ⟨(put tUp [(Reg.KN_BANK_STATE_PREVIOUS, 1)]), { tHdr with tag := 46, opcode := 98, quiet := true }, by unfold byRing; decide +kernel⟩,
   ⟨(put tUp [(Reg.KN_BANK_STATE_PREVIOUS, 0)]), { tHdr with tag := 211, opcode := 91, index := 5 }, by unfold byRing; decide +kernel⟩⟩

theorem witness_KennelAndStore :
    (∃ (s : State) (src : WrSrc), s.takes src RegId.KN_IDENT 0 0 false = true ∧ s.rd Reg.KN_IDENT_NEW_ID ≤ 63) ∧
    (∃ (s : State) (e : Nat), s.kn.identBy = some e ∧ e < s.run) ∧
    (∃ (s : State) (e : Nat), s.kn.identBy = some e ∧ s.run ≤ e) ∧
    (∃ (s : State), s.kn.identBy = none) ∧
    (∃ (s : State) (src : WrSrc) (x : Machine.Stream) (i : Nat), i ∈ s.openStreams ∧
     s.takes src RegId.KN_CTRL 0 0 false = true ∧ s.stream i = some x) ∧
    (∃ (s : State) (m c p : Nat), m < 2 ∧ s.kn.mirrorsOut.contains m = false) ∧
    (∃ (s : State) (m c p : Nat), m < 2 ∧ s.rd Reg.KN_CNT_MIRROR_REPAIRS < 2 ^ 32) ∧
    (∃ (s : State) (i q : Nat), i < 1024 ∧ s.retains = false) ∧
    (∃ (s : State) (i q : Nat) (r k : RecOut), i < 1024 ∧
     List.find? (fun r => decide (r.seq = q)) (Sparse.get [] i s.rd_.store) = some r ∧ s.retains = true ∧ k.seq = q) :=
  ⟨⟨State.reset, .cfg, by decide +kernel⟩,
   ⟨{ tUp with kn := { identBy := (some 0) } }, 0, by decide +kernel⟩,
   ⟨{ State.reset with kn := { identBy := (some 1) } }, 1, by decide +kernel⟩,
   ⟨tUp, by decide +kernel⟩,
   ⟨{ (put tUp [(Reg.HUB_MODE_MODE, 3)]) with rd_ := { streams := [(0, (some { defn := { tDef with id := 3, kind := 3, out := 1, index := 2, clock := 2, reduce := 1, redArg := 3, stat := 5, curve := 1, format := 1, opts := 63, cj := 2, rb := 2, trig := 2 }, raw := [2, 7, 5, 0], buf := 61989, openAt := 5, next := 1, began := true, trigs := [5, 5, 2, 5] }))] } }, .cfg, { defn := { tDef with id := 3, kind := 3, out := 1, index := 2, clock := 2, reduce := 1, redArg := 3, stat := 5, curve := 1, format := 1, opts := 63, cj := 2, rb := 2, trig := 2 }, raw := [2, 7, 5, 0], buf := 61989, openAt := 5, next := 1, began := true, trigs := [5, 5, 2, 5] }, 0, by decide +kernel⟩,
   ⟨tUp, 1, 0, 0, by decide +kernel⟩,
   ⟨tUp, 0, 3, 0, by decide +kernel⟩,
   ⟨State.reset, 4, 0, by decide +kernel⟩,
   ⟨{ tUp with rd_ := { store := [(221, [{ stream := 13, seq := 2, n := 2, buf := 27, data := [3, 7], late := false, replay := true }])] } }, 221, 2, { stream := 13, seq := 2, n := 2, buf := 27, data := [3, 7], late := false, replay := true }, { stream := 1, seq := 2, n := 10, buf := 1, data := [0, 0, 16, 0, 0, 0, 0, 0, 16, 0, 0, 0, 0, 0, 0, 0], late := false, replay := false }, by decide +kernel⟩⟩

theorem witness_LanesAndFrames :
    (∃ (s : State) (l : Nat) (copper : Bool), l < 8 ∧ s.laneUp l = false ∧ s.domOn (21 + l / 2) = true ∧
     s.flag (Reg.OV_PORT_CFG_EN (l / 2)) = true ∧ Sparse.get 0 l s.ov.modules < 3) ∧
    (∃ (s : State) (l : Nat) (copper : Bool), l < 8 ∧ (s.laneUp l = true ∨ s.domOn (21 + l / 2) = false)) ∧
    (∃ (s : State) (l : Nat) (ready : Bool), l < 8 ∧ ready = true ∧ lNOT_READY ≤ s.laneState l ∧ s.ov.linkReady = true ∧
     s.ov.dup = false) ∧
    (∃ (s : State) (l : Nat) (ready : Bool), l < 8 ∧ ready = false ∧ lNOT_READY ≤ s.laneState l) ∧
    (∃ (s : State) (l : Nat) (ready : Bool), l < 8 ∧ ready = true ∧ lNOT_READY ≤ s.laneState l ∧
     (s.lane l).readyEver = false) ∧
    (∃ (s : State) (l : Nat) (asked : Bool) (uncorr v : Nat), l < 8 ∧ v < 4 ∧ (asked = true ∨ 16 < uncorr) ∧
     lNOT_READY ≤ s.laneState l) ∧
    (∃ (s : State) (l : Nat) (asked : Bool) (uncorr : Nat), l < 8 ∧ (s.laneState l < lNOT_READY ∨ asked = false ∧
     uncorr ≤ 16)) ∧
    (∃ (s : State) (l : Nat) (ready : Bool), l < 8 ∧ s.laneState l < lNOT_READY) ∧
    (∃ (s : State) (l v : Nat), l < 8 ∧ v < 4 ∧ s.laneState l ≠ lDOWN) ∧
    (∃ (s : State) (l m : Nat), l < 8 ∧ List.find? (fun k => decide (k ≠ l) && s.laneUp k) (sideLanes (l / 4)) = some m ∧
     s.laneState l ≠ lDOWN) ∧
    (∃ (s : State) (l : Nat), l < 8 ∧ s.laneState l = lDOWN) ∧
    (∃ (s : State) (l q : Nat), l < 8) ∧
    (∃ (s : State) (l : Nat) (cs : List Nat) (v : Nat), l < 8 ∧ v < 4 ∧
     s.held l v + s.rd (Reg.OV_CREDIT_IN_FLIGHT l v) < 2 ^ 16) :=
  ⟨⟨tUp, 7, true, by decide +kernel⟩,
   ⟨(put tUp [(Reg.OV_PORT_STAT_LANE0 2, 3)]), 4, true, by decide +kernel⟩,
   ⟨{ (put tUp [(Reg.OV_PORT_STAT_LANE1 3, 2)]) with ov := { linkReady := true } }, 7, true, by decide +kernel⟩,
   ⟨(put tUp [(Reg.OV_PORT_STAT_LANE1 1, 2)]), 3, false, by decide +kernel⟩,
   ⟨(put tUp [(Reg.OV_PORT_STAT_LANE1 2, 2)]), 5, true, by decide +kernel⟩,
   ⟨(put tUp [(Reg.OV_PORT_STAT_LANE0 0, 2)]), 0, true, 4, 3, by decide +kernel⟩,
   ⟨tUp, 7, true, 1, by decide +kernel⟩,
   ⟨tUp, 5, false, by decide +kernel⟩,
   ⟨(put tUp [(Reg.OV_PORT_STAT_LANE1 3, 1)]), 7, 0, by decide +kernel⟩,
   ⟨(put tUp [(Reg.OV_PORT_STAT_LANE0 0, 3), (Reg.OV_PORT_STAT_LANE1 0, 3), (Reg.OV_PORT_STAT_LANE0 1, 3), (Reg.OV_PORT_STAT_LANE1 1, 3), (Reg.OV_PORT_STAT_LANE0 2, 3), (Reg.OV_PORT_STAT_LANE1 2, 3), (Reg.OV_PORT_STAT_LANE0 3, 3), (Reg.OV_PORT_STAT_LANE1 3, 3)]), 3, 0, by decide +kernel⟩,
   ⟨tUp, 0, by decide +kernel⟩,
   ⟨tUp, 7, 3, by decide +kernel⟩,
   ⟨tUp, 4, [64, 0, 0, 0, 0, 0, 0, 0, 0, 0, 0, 0, 0, 0, 0, 0, 0, 0, 0, 0, 0, 0, 0, 0, 0, 0, 0, 0, 0, 0, 0, 0, 0, 0, 0, 0, 0, 0, 0, 0, 0, 0, 0, 0, 0, 0, 0, 0, 0, 0, 0, 0, 0, 0, 0, 0, 0, 0, 0, 0, 0, 0, 0, 0], 3, by decide +kernel⟩⟩

theorem witness_PackRoles :
    (∃ (s : State) (p t1 t2 t3 t4 : Nat), p < 4 ∧ (s.laneUp (2 * p) = true ∨ s.laneUp (2 * p + 1) = true) ∧ s.follows = true) ∧
    (∃ (s : State) (p t1 t2 t3 t4 : Nat), p < 4 ∧ s.laneUp (2 * p) = false ∧ s.laneUp (2 * p + 1) = false) ∧
    (∃ (s : State), (s.follows = true ∨ s.ov.linkReady = false)) ∧
    (∃ (s : State), s.follows = false ∧ s.ov.linkReady = true) ∧
    (∃ (s : State), s.ov.linkReady = false) ∧
    (∃ (s : State) (p leader deputy tb raw hops : Nat), p < 4 ∧ leader < 64 ∧ deputy < 256 ∧ leader ≠ s.me ∧
     s.follows = false ∧ s.me < leader) ∧
    (∃ (s : State) (p leader deputy tb raw hops : Nat), p < 4 ∧ leader < 64 ∧ deputy < 256 ∧ leader ≠ s.me ∧
     (s.follows = true ∨ leader < s.me) ∧ s.follows = false) ∧
    (∃ (s : State) (p id serial role delay readyAt : Nat) (rings raw : Bool) (hops path : Nat), p < 4 ∧ id < 64 ∧ hops = 1 ∧
     1 ≤ hops ∧ id ≠ s.me) ∧
    (∃ (s : State) (p id serial role delay readyAt : Nat) (rings raw : Bool) (hops path : Nat), p < 4 ∧ id < 64 ∧ id = s.me ∧
     serial = s.rd Reg.HUB_SERIAL_SERIAL ∧ 1 ≤ hops) ∧
    (∃ (s : State) (p id serial role delay readyAt : Nat) (rings raw : Bool) (hops path r l : Nat), p < 4 ∧ id < 64 ∧
     id = s.me ∧ s.ov.readyAt = some r ∧ l < 8 ∧ 1 ≤ hops ∧ serial ≠ s.rd Reg.HUB_SERIAL_SERIAL ∧ readyAt < r ∧ s.ov.dup = false) ∧
    (∃ (s : State) (p from_ : Nat), p < 4 ∧ from_ < 64 ∧ from_ ≠ s.me) ∧
    (∃ (s : State) (c : Nat), s.ov.claimAt = some c ∧ s.follows = true ∧ s.ov.lead = true ∧
     s.elapsed c (max 3 (s.rd Reg.OV_PACK_CFG_CLAIM_WAIT) * cclkMs) = true) ∧
    (∃ (s : State), s.ov.claimAt = none) ∧
    (∃ (s : State) (t0 : Nat), s.ov.hbLast = some t0 ∧ s.follows = true ∧ s.rd Reg.OV_STAT_LEADER_ID ≠ 255 ∧
     s.elapsed t0 s.lossMs = true ∧ s.takes_ = [] ∧ s.rd Reg.OV_STAT_ROLE = 2) ∧
    (∃ (s : State) (t0 n : Nat), s.ov.hbLast = some t0 ∧ n < 32 ∧ s.follows = true ∧ s.rd Reg.OV_STAT_LEADER_ID ≠ 255 ∧
     s.elapsed t0 s.lossMs = true ∧ s.takes_ = [] ∧ s.lkHeld n = true ∧ (s.rd (Reg.LK_STAT_OWNER n) = if s.ov.tookOver = true then 5 else 4)) ∧
    (∃ (s : State), s.follows = false ∧ s.rd Reg.OV_STAT_DEPUTY_ID ≠ 255 ∧ s.rd Reg.OV_STAT_DEPUTY_ID ≠ s.me ∧
     (s.peer (s.rd Reg.OV_STAT_DEPUTY_ID)).known = true ∧ s.ov.deputyLost = false ∧
     s.elapsed (s.peer (s.rd Reg.OV_STAT_DEPUTY_ID)).last s.lossMs = true) ∧
    (∃ (s : State) (t0 : Nat), s.hub.isoSince = some t0 ∧ s.follows = false ∧ s.rd Reg.OV_PACK_CFG_HANDOVER_MS ≠ 0 ∧
     s.elapsed t0 (s.rd Reg.OV_PACK_CFG_HANDOVER_MS * cclkMs) = true ∧ s.rd Reg.OV_STAT_DEPUTY_ID ≠ 255 ∧
     (s.peer (s.rd Reg.OV_STAT_DEPUTY_ID)).reach = true ∧ (s.peer (s.rd Reg.OV_STAT_DEPUTY_ID)).rings = true) ∧
    (∃ (s : State) (f : Nat), f < 64 ∧ s.rd Reg.OV_STAT_ROLE = 2) ∧
    (∃ (s : State) (f : Nat), f < 64 ∧ s.rd Reg.OV_STAT_ROLE ≠ 2) :=
  ⟨⟨(put State.reset [(Reg.OV_PORT_STAT_LANE0 2, 3)]), 2, 486492, 4, 6, 0, by decide +kernel⟩,
   ⟨tUp, 0, 0, 6, 2, 1, by decide +kernel⟩,
   ⟨State.reset, by decide +kernel⟩,
   ⟨{ tUp with ov := { linkReady := true } }, by decide +kernel⟩,
   ⟨tUp, by decide +kernel⟩,
   ⟨(put tUp [(Reg.HUB_ID_ID, 0)]), 3, 7, 0, 1, 64, 5, by decide +kernel⟩,
   ⟨tUp, 0, 44, 6, 6, 6, 7, by decide +kernel⟩,
   ⟨tUp, 3, 4, 7, 1, 393536, 6, true, true, 1, 275, by decide +kernel⟩,
   ⟨(put tUp [(Reg.HUB_ID_ID, 5)]), 3, 5, 0, 2, 19, 63920, true, false, 7, 2, by decide +kernel⟩,
   ⟨{ tUp with ov := { readyAt := (some 3) } }, 0, 63, 6, 1, 2, 2, true, false, 287, 0, 3, 7, by decide +kernel⟩,
   ⟨tUp, 0, 27, by decide +kernel⟩,
   ⟨{ State.reset with run := 2457604, ov := { lead := true, claimAt := (some 4) } }, 4, by decide +kernel⟩,
   ⟨tUp, by decide +kernel⟩,
   ⟨{ (put tUp [(Reg.OV_STAT_ROLE, 2), (Reg.OV_STAT_LEADER_ID, 0)]) with ov := { hbLast := (some 3) } }, 3, by decide +kernel⟩,
   ⟨{ (put State.reset [(Reg.LK_STAT_HELD 0, 1), (Reg.LK_STAT_OWNER 0, 4), (Reg.OV_STAT_LEADER_ID, 0)]) with run := 4915206, ov := { hbLast := (some 6) } }, 6, 0, by decide +kernel⟩,
   ⟨{ (put tUp [(Reg.OV_STAT_DEPUTY_ID, 0)]) with ov := { peers := [(0, { known := true })] } }, by decide +kernel⟩,
   ⟨{ (put tUp [(Reg.OV_STAT_DEPUTY_ID, 0)]) with hub := { isoSince := (some 4), starting := false }, ov := { peers := [(0, { reach := true, rings := true })] } }, 4, by decide +kernel⟩,
   ⟨(put tUp [(Reg.OV_STAT_ROLE, 2)]), 63, by decide +kernel⟩,
   ⟨tUp, 51, by decide +kernel⟩⟩

theorem witness_PackMessages :
    (∃ (s : State) (h : CmdHdr) (from_ : Nat), from_ < 64 ∧
     (s.hp.inflight.any fun f => sameCmd f.hdr { tag := h.tag, opcode := h.opcode, quiet := h.quiet, inst := h.inst, index := h.index, via := Via.message from_ }) = false) ∧
    (∃ (s : State) (h : CmdHdr) (from_ : Nat), from_ < 64 ∧
     (s.hp.inflight.any fun f => sameCmd f.hdr { tag := h.tag, opcode := h.opcode, quiet := h.quiet, inst := h.inst, index := h.index, via := Via.message from_ }) = true) ∧
    (∃ (s : State) (hub tag index : Nat) (st : Status) (result endCause : Nat), hub < 64) ∧
    (∃ (s : State) (f : Forward) (t0 : Nat), f.lostAt = some t0 ∧ s.ov.forwards = [f] ∧ carried s f.hdr ∧ s.ringsOn = true ∧
     s.elapsed t0 (50 * cclkMs) = true) ∧
    (∃ (s : State), s.ov.forwards = []) ∧
    (∃ (s : State) (hub b bytes : Nat), hub < 64 ∧ b < 256 ∧ s.follows = false ∧ s.ov.requested = [] ∧ 0 < bytes ∧
     s.bufFree b < grantQuantum) ∧
    (∃ (s : State) (hub b bytes : Nat), hub < 64 ∧ b < 256 ∧ s.follows = false ∧ s.ov.requested = [] ∧ 0 < bytes ∧
     grantQuantum ≤ s.bufFree b) ∧
    (∃ (s : State) (from_ b bytes : Nat), from_ < 64 ∧ b < 256) ∧
    (∃ (s : State) (type hub b i seq n : Nat) (replay : Bool) (data : List Nat), hub < 64 ∧ b < 256 ∧ i < 1024 ∧
     replay = false ∧ (type = 11 ∨ type = 12) ∧ s.follows = false ∧ seq < Sparse.get 0 (hub * 65536 + i) s.ov.written) ∧
    (∃ (s : State) (type hub b i seq n : Nat) (replay : Bool) (data : List Nat), hub < 64 ∧ b < 256 ∧ i < 1024 ∧
     (type = 11 ∨ type = 12) ∧ s.follows = false ∧ (replay = true ∨ Sparse.get 0 (hub * 65536 + i) s.ov.written ≤ seq)) ∧
    (∃ (s : State) (from_ i seq : Nat) (u : Unconf), from_ < 64 ∧ i < 1024 ∧ (∃ u, u ∈ s.ov.unconf ∧ u.rcd.stream = i ∧
     u.rcd.replay = false ∧ u.rcd.seq + u.rcd.n ≤ seq)) ∧
    (∃ (s : State) (from_ i seq : Nat) (x : Machine.Stream), from_ < 64 ∧ i < 1024 ∧ s.stream i = some x ∧
     (∃ u, u ∈ s.ov.unconf ∧ u.rcd.stream = i ∧ u.rcd.replay = false ∧ u.rcd.seq + u.rcd.n ≤ seq)) ∧
    (∃ (s : State), s.follows = true ∧ s.leaderPath = true ∧ (s.ov.resend = true ∨ ∃ u, u ∈ s.ov.unconf ∧
     s.elapsed u.sentAt (20 * cclkMs) = true)) ∧
    (∃ (s : State) (hub src code : Nat) (warn : Bool) (time : Nat) (payload : List Nat) (al : Bool), hub < 64 ∧
     s.queueUp = true ∧ s.bqLevel + min 64 (4 + payload.length) ≤ queueWords) ∧
    (∃ (s : State) (hub addr : Nat) (data : List Nat), hub < 64 ∧ s.follows = false) ∧
    (∃ (s : State) (cage : Nat) (qualified rightKind : Bool) (cls : Nat), cage < 9 ∧ 2 < cls) ∧
    (∃ (s : State) (cage : Nat) (qualified rightKind : Bool) (cls : Nat), cage < 9 ∧ qualified = false ∧ rightKind = true ∧
     cls ≤ 2) :=
  ⟨⟨tUp, { tHdr with tag := 69, opcode := 12, index := 6 }, 27, by decide +kernel⟩,
   ⟨{ tUp with hp := { inflight := [{ hdr := { tHdr with tag := 194, opcode := 7, via := .message 63 }, begun := false }] } }, { tHdr with tag := 194, opcode := 7 }, 63, by decide +kernel⟩,
   ⟨tUp, 5, 0, 0, Sys2Proof.Status.timeout, 2, 11, by decide +kernel⟩,
   ⟨{ tUp with hp := { inflight := [{ hdr := tHdr, begun := false }] }, ov := { forwards := [{ hdr := tHdr, target := 3, accepted := true, lostAt := (some 0) }] } }, { hdr := tHdr, target := 3, accepted := true, lostAt := (some 0) }, 0, by unfold carried; decide +kernel⟩,
   ⟨tUp, by decide +kernel⟩,
   ⟨tUp, 20, 255, 2, by decide +kernel⟩,
   ⟨{ tUp with hp := { bufs := [(5, { log2 := 20, users := 1 })] } }, 1, 5, 1, by decide +kernel⟩,
   ⟨tUp, 63, 255, 3, by decide +kernel⟩,
   ⟨{ tUp with ov := { written := [(2, 1)] } }, 12, 0, 1, 2, 0, 11, false, [2, 3, 4], by decide +kernel⟩,
   ⟨tUp, 11, 4, 13, 953, 11, 1, true, [66, 0, 63, 0, 0, 0, 0, 0, 0, 0, 0, 0, 0, 0, 0, 0, 0, 0, 0, 0, 0, 0, 0, 0, 0, 0, 0, 0, 0, 0, 0, 0, 0, 0, 0, 0, 0, 0, 0, 0, 0, 0, 0, 0, 0, 0, 0, 0, 0, 0, 0, 0, 0, 0, 0, 0, 0, 0, 0, 0, 0, 0, 0, 0], by decide +kernel⟩,
   ⟨{ tUp with ov := { unconf := [{ rcd := { stream := 6, seq := 0, n := 1, buf := 0, data := [], late := false, replay := false }, sentAt := 0 }] } }, 3, 6, 1, { rcd := { stream := 0, seq := 7, n := 2, buf := 534076, data := [7, 4, 2], late := true, replay := false }, sentAt := 4 }, by decide +kernel⟩,
   ⟨{ State.reset with rd_ := { streams := [(3, (some { defn := { tDef with id := 6, clock := 2, clockArg := 2, reduce := 1, redArg := 1, stat := 6, curve := 16, format := 5, recCount := 2, recAge := 1, ra := 1, rb := 1, trig := 3, trigFlag := 5 }, raw := [25, 3, 7], buf := 76659, openAt := 4, next := 5, seq := 16098, prevUsed := (some 814267), cjLost := true }))] }, ov := { unconf := [{ rcd := { stream := 3, seq := 1, n := 1, buf := 0, data := [], late := false, replay := false }, sentAt := 0 }] } }, 0, 3, 2, { defn := { tDef with id := 6, clock := 2, clockArg := 2, reduce := 1, redArg := 1, stat := 6, curve := 16, format := 5, recCount := 2, recAge := 1, ra := 1, rb := 1, trig := 3, trigFlag := 5 }, raw := [25, 3, 7], buf := 76659, openAt := 4, next := 5, seq := 16098, prevUsed := (some 814267), cjLost := true }, by decide +kernel⟩,
   ⟨{ (put State.reset [(Reg.OV_STAT_LEADER_ID, 1)]) with ov := { peers := [(1, { reach := true })], resend := true } }, by decide +kernel⟩,
   ⟨tUp, 0, 3, 1, true, 3, [0, 0, 16, 0, 0, 0, 0, 0, 16, 0, 0, 0, 0, 0, 0, 0], false, by decide +kernel⟩,
   ⟨tUp, 3, 1, [3], by decide +kernel⟩,
   ⟨tUp, 0, false, true, 3, by decide +kernel⟩,
   ⟨tUp, 0, false, true, 2, by decide +kernel⟩⟩

theorem witness_StepRule :
    (∃ (s : State) (c : Instr) (rest : List Instr), s.pending = c :: rest) ∧
    (∃ (s : State), s.pending = [] ∧ s.hub.aon = true) ∧
    (∃ (s : State), s.pending = [] ∧ s.hub.aon = false) :=
  ⟨⟨{ tUp with pending := [Instr.barkPost] }, (Instr.barkPost), [], by decide +kernel⟩,
   ⟨tUp, by decide +kernel⟩,
   ⟨{ State.reset with hub := { aon := false } }, by decide +kernel⟩⟩

theorem witness_BarkPacket_1 : ∃ (b : Bark) (j : Nat), j < 60 ∧ j < b.payload.length :=
  ⟨{ src := 1, code := 0x0120, warn := false, hub := 63, time := 0, payload := [1, 0, 0, 0], afterLoss := false }, 3, by decide⟩

theorem witness_BarkQueue_4 : ∃ (s : State) (b : Bark) (rest : List Bark), s.bq.staged = b :: rest ∧ s.queueUp = true ∧
    queueWords < s.bqLevel + b.len ∧ s.bq.popped = 0 :=
  ⟨{ tUp with bq := { queue := List.replicate 256 { src := 1, code := 2, warn := false, hub := 0, time := 0, payload := List.replicate 60 0,
                                                    afterLoss := false },
                      staged := [{ src := 1, code := 2, warn := false, hub := 0, time := 0, payload := [], afterLoss := false }] } },
    _, [], rfl, by decide +kernel⟩

theorem witness_FieldMonitors_5 : ∃ (s : State) (f : Nat) (c : Nat) (pos : Int) (neg : Int), f < 16 ∧ c < 32 ∧
    s.flag (Reg.FC_CH_STAT_CM_FAULT f c) = true :=
  ⟨put tUp [(Reg.FC_CH_STAT_CM_FAULT 0 31, 1)], 0, 31, 5, 0, by decide +kernel⟩

theorem witness_HostLink_2 : ∃ (s : State) (i : Instr), i ∈ (if s.hp.ready = true then [Instr.hotReset, Instr.functionLevelReset]
    else [Instr.functionLevelReset]) ∧ s.flag Reg.HP_CTRL_EN = true ∧ s.takes_ = [] ∧
    (∀ n, n < 32 → s.lkHeld n = true → s.rd (Reg.LK_STAT_OWNER n) ≠ 1) ∧ s.follows = true :=
  ⟨{ put tUp [(Reg.OV_STAT_ROLE, 0)] with hp := { ready := true } }, .hotReset, by decide +kernel⟩

theorem witness_HostRings_15 : ∃ (s : State) (b : Nat), b < 256 ∧
    ((s.sbuf b).queue = [] ∨ ∃ r rest, (s.sbuf b).queue = r :: rest ∧ s.canGo b [r.data.length] = false) :=
  ⟨tUp, 0, by decide, Or.inl (by decide +kernel)⟩

theorem witness_KennelAndStore_2 : ∃ (s : State) (src : WrSrc), s.takes src RegId.KN_IDENT 0 0 false = true ∧ 63 < s.rd Reg.KN_IDENT_NEW_ID :=
  ⟨put tUp [(Reg.HUB_MODE_MODE, 3), (Reg.KN_IDENT_NEW_ID, 64)], .direct, by decide +kernel⟩

theorem witness_LanesAndFrames_12 : ∃ (s : State) (l : Nat) (f : Frame) (corr : Nat) (uncorr : Nat), l < 8 ∧ lNOT_READY ≤ s.laneState l ∧
    frameOk f = false ∧ (s.lane l).nak = false :=
  ⟨put tUp [(Reg.OV_PORT_STAT_LANE1 3, 2)], 7, { tFrame with type := 14 }, 1, 256, by decide +kernel, by decide +kernel,
    by simp [frameOk, tFrame], by decide +kernel⟩

theorem crcStep_append (l m : List Nat) : ∀ c, crcStep c (l ++ m) = crcStep (crcStep c l) m := by
  induction l with
  | nil => intro c; rfl
  | cons b l ih => intro c; exact ih _

theorem crcStep_head : crcStep 0xFFFFFFFF (frameHead tFrame) = 945339855 := by decide +kernel

theorem crcStep_zeros (k c d e : Nat) (h : crcStep c (List.replicate 128 0) = d) (g : crcStep d (List.replicate k 0) = e) :
    crcStep c (List.replicate (128 + k) 0) = e := by
  rw [← List.replicate_append_replicate, crcStep_append, h, g]

theorem crcStep_zeros_0 : crcStep 945339855 (List.replicate 128 0) = 2975296084 := by decide +kernel

theorem crcStep_zeros_1 : crcStep 2975296084 (List.replicate 128 0) = 2732501184 := by decide +kernel

theorem crcStep_zeros_2 : crcStep 2732501184 (List.replicate 128 0) = 865113583 := by decide +kernel

theorem crcStep_zeros_3 : crcStep 865113583 (List.replicate 128 0) = 702793997 := by decide +kernel

theorem crcStep_zeros_4 : crcStep 702793997 (List.replicate 128 0) = 617360302 := by decide +kernel

theorem crcStep_zeros_5 : crcStep 617360302 (List.replicate 128 0) = 2463673926 := by decide +kernel

theorem crcStep_zeros_6 : crcStep 2463673926 (List.replicate 128 0) = 3883245442 := by decide +kernel

theorem crcStep_zeros_7 : crcStep 3883245442 (List.replicate 128 0) = 455757579 := by decide +kernel

theorem frameCrc_of (f : Frame) (v : Nat)
    (h : crcStep 0xFFFFFFFF (frameHead f ++ f.payload.take 1024 ++ List.replicate (1024 - f.payload.length) 0) = v) :
    frameCrc f = Nat.xor v 0xFFFFFFFF := by
  unfold frameCrc crc32
  rw [h]

theorem frameCrc_tFrame : frameCrc tFrame = 3839209716 := by
  have z : crcStep 945339855 (List.replicate (128 + (128 + (128 + (128 + (128 + (128 + (128 + 128))))))) 0) = 455757579 :=
    crcStep_zeros _ _ _ _ crcStep_zeros_0 (crcStep_zeros _ _ _ _ crcStep_zeros_1 (crcStep_zeros _ _ _ _ crcStep_zeros_2
      (crcStep_zeros _ _ _ _ crcStep_zeros_3 (crcStep_zeros _ _ _ _ crcStep_zeros_4 (crcStep_zeros _ _ _ _ crcStep_zeros_5
        (crcStep_zeros _ _ _ _ crcStep_zeros_6 crcStep_zeros_7))))))
  have e : tFrame.payload = [] := rfl
  have n : 1024 - ([] : List Nat).length = (128 + (128 + (128 + (128 + (128 + (128 + (128 + 128))))))) := rfl
  refine (frameCrc_of tFrame 455757579 ?_).trans (by decide)
  rw [e, List.take_nil, List.append_nil, n, crcStep_append, crcStep_head, z]

/-- The same frame with its FCRC. -/
def tSealed : Frame := { tFrame with fcrc := 3839209716 }

theorem frameOk_tSealed : frameOk tSealed = true := by
  have h : frameCrc tSealed = 3839209716 := frameCrc_tFrame
  unfold frameOk
  rw [h]
  decide

theorem witness_LanesAndFrames_13 : ∃ (s : State) (l : Nat) (f : Frame) (corr : Nat) (uncorr : Nat), l < 8 ∧ lNOT_READY ≤ s.laneState l ∧
    frameOk f = true ∧ f.seq = s.rd (Reg.OV_LANE_CNT_SEQ_RX l) ∧ f.dst = s.me ∧ f.first = true ∧ f.last = true ∧ 6 ≤ f.type :=
  ⟨put tUp [(Reg.OV_PORT_STAT_LANE0 0, 2)], 0, tSealed, 5, 7, by decide +kernel, by decide +kernel, frameOk_tSealed, by decide +kernel,
    by decide +kernel, rfl, rfl, by decide⟩

theorem witness_LanesAndFrames_14 : ∃ (s : State) (l : Nat) (f : Frame) (corr : Nat) (uncorr : Nat), l < 8 ∧ lNOT_READY ≤ s.laneState l ∧
    frameOk f = true ∧ f.seq ≠ s.rd (Reg.OV_LANE_CNT_SEQ_RX l) ∧ serialAfter 32 (s.rd (Reg.OV_LANE_CNT_SEQ_RX l)) f.seq = true :=
  ⟨put tUp [(Reg.OV_PORT_STAT_LANE0 0, 2), (Reg.OV_LANE_CNT_SEQ_RX 0, 1)], 0, tSealed, 5, 7, by decide +kernel, by decide +kernel,
    frameOk_tSealed, by decide +kernel, by decide +kernel⟩

theorem witness_LanesAndFrames_15 : ∃ (s : State) (l : Nat) (f : Frame) (corr : Nat) (uncorr : Nat), l < 8 ∧ lNOT_READY ≤ s.laneState l ∧
    frameOk f = true ∧ f.seq ≠ s.rd (Reg.OV_LANE_CNT_SEQ_RX l) ∧ serialAfter 32 (s.rd (Reg.OV_LANE_CNT_SEQ_RX l)) f.seq = false ∧
    (s.lane l).nak = false :=
  ⟨put tUp [(Reg.OV_PORT_STAT_LANE1 3, 2), (Reg.OV_LANE_CNT_SEQ_RX 7, 2 ^ 32 - 1)], 7, tSealed, 5, 7, by decide +kernel, by decide +kernel,
    frameOk_tSealed, by decide +kernel, by decide +kernel, by decide +kernel⟩

theorem witness_ReferenceMachine_14 : ∃ (s : State) (n : Nat), s.tbState = tbHOLDOVER ∧ (s.run - s.tb.holdSince) / cclkSec = n ∧
    holdBound n ≤ 1000 ∧ 24 ≤ s.rd Reg.TB_HOLD_EST_TRAIN ∧ 1000 ≤ s.rd Reg.TB_HOLD_LIMIT :=
  ⟨{ put tUp [(Reg.TB_STATE_STATE, 3), (Reg.TB_HOLD_EST_TRAIN, 24)] with run := 10 * 245760000 }, 10, by decide +kernel⟩

theorem witness_ThermalModel_5 : ∃ (s : State) (temps : List (Option Int)) (i : Nat), i < 24 ∧
    (∀ v : Int, temps[i]? = some (some v) → v < -800 ∨ 2400 < v) ∧ s.flag (Reg.PW_TEMP_FAULT i) = false :=
  ⟨tUp, [], 0, by decide, (by intro v h; cases h), by decide +kernel⟩

/-- A state with one command forwarded to hub 3. -/
def tForward : State :=
  { tUp with ov := { forwards := [{ hdr := tHdr, target := 3, accepted := true, lostAt := none }] },
             hp := { inflight := [{ hdr := tHdr, begun := true }] } }

theorem witness_PackMessages_forwarded : ∃ (s : State) (f : Forward) (hub : Nat) (tag : Nat) (index : Nat), hub < 64 ∧
    s.ov.forwards.find? (fun f => f.target = hub && f.hdr.tag = tag && f.hdr.index = index) = some f ∧ carried s f.hdr ∧ s.ringsOn = true :=
  ⟨tForward, { hdr := tHdr, target := 3, accepted := true, lostAt := none }, 3, 1, 2, by unfold carried; decide +kernel⟩

theorem witness_ConverterFaults_1 : ∃ (s : State) (f c : Nat), f < 16 ∧ c < 32 ∧ s.domOn f = true ∧ s.flag (Reg.FC_CONV_STAT_MASKED f c) = true :=
  ⟨put tUp [(Reg.FC_CONV_STAT_MASKED 2 31, 1)], 2, 31, by decide +kernel⟩

theorem witness_Metrology_scan_end : ∃ (s : State), s.mt.run = none ∧ s.mt.checkAt = none ∧ s.sampling = true ∧ s.mt.urgents = [] ∧
    s.scanEnds = false ∧ s.nextScan = none ∧ s.mt.empty = false ∧ s.rd Reg.MT_SCAN_MASK_MASK = 0 :=
  ⟨{ put tUp [(Reg.MT_SCAN_MASK_MASK, 0)] with mt := { empty := false } }, by decide +kernel⟩

theorem witness_Metrology_all_bad : ∃ (s : State), s.mt.run = none ∧ s.mt.checkAt = none ∧ s.sampling = true ∧ s.mt.urgents = [] ∧
    s.scanEnds = false ∧ s.nextScan = none ∧ s.rd Reg.MT_SCAN_MASK_MASK ≠ 0 :=
  ⟨put tUp [(Reg.MT_SCAN_MASK_MASK, 2), (Reg.MT_CH_CFG_MODE 1, 1), (Reg.MT_CH_CFG_REF 1, 3), (Reg.MT_CH_CFG_CUR 1, 3)], by decide +kernel⟩

/-- REF_A as the factory measured it passes, whatever it is. -/
theorem mtGainOk_factory (s : State) (r : Nat) : s.mtGainOk r 0 (Config.mtFactory (s.slot 19).serial r) = true := by
  simp [State.mtGainOk]

theorem witness_Metrology_8 : ∃ (s : State) (t0 : Nat) (z0 a0 z1 a1 : Int), s.mt.checkAt = some t0 ∧ t0 + 1440 * cclkMs ≤ s.now ∧
    mtZeroOk 0 z0 = true ∧ mtZeroOk 1 z1 = true ∧ s.mtGainOk 0 z0 a0 = true ∧ s.mtGainOk 1 z1 a1 = true :=
  ⟨{ tUp with now := 1440 * cclkMs, mt := { checkAt := some 0 } }, 0, 0, _, 0, _, rfl, by decide +kernel, by decide +kernel, by decide +kernel,
    mtGainOk_factory _ _, mtGainOk_factory _ _⟩

theorem witness_Metrology_9 : ∃ (s : State) (t0 : Nat) (z0 a0 z1 a1 : Int), s.mt.checkAt = some t0 ∧ t0 + 1440 * cclkMs ≤ s.now ∧
    (mtZeroOk 0 z0 = false ∨ mtZeroOk 1 z1 = false ∨ s.mtGainOk 0 z0 a0 = false ∨ s.mtGainOk 1 z1 a1 = false) :=
  ⟨{ tUp with now := 1440 * cclkMs, mt := { checkAt := some 0 } }, 0, (realOne : Int), 0, 0, 0, rfl, by decide +kernel,
    Or.inl (by decide +kernel)⟩

theorem witness_SpareRotation_return : ∃ (s : State) (f m : Nat) (d : Int) (q : Coef), f < 16 ∧ (s.chan f (s.spCh f)).trial = some q ∧
    s.spPhase f = spRET ∧ s.blockReady f = true ∧ s.blockTouched f (s.spCh f) = false ∧ s.blockPasses f (s.spCh f) d m = true ∧
    s.spVerify f ≤ (s.spare f).compared + 1 ∧ (s.card f).deferred = [] ∧ (s.spare f).restoring = false :=
  ⟨{ put tUp [(Reg.FC_SPARE_STAT_PHASE 15, spRET), (Reg.FC_SPARE_CTRL_VERIFY 15, 1)] with
      fc := { cards := [(15, { chans := [(0, { trial := some {} })] })] } }, 15, 0, 0, {}, by decide +kernel⟩

theorem witness_SpareRotation_self : ∃ (s : State) (f n : Nat) (z p g m : List Int) (d : Int), f < 16 ∧ s.spPhase f = spSELF ∧
    s.phaseAged f ((s.spare f).selfSet.length * s.calBeats f) = true ∧ s.selfPasses f [(n, z, p, g, m)] = true ∧ (s.spare f).selfSet = [n] ∧
    Int.natAbs d ≤ 20000 :=
  ⟨{ put tUp [(Reg.FC_SPARE_STAT_PHASE 15, spSELF)] with fc := { cards := [(15, { spare := { selfSet := [1] } })] } }, 15, 1,
    List.replicate 66 0, List.replicate 66 900000000000, List.replicate 66 (-900000000000), List.replicate 66 450000000000, 20000,
    by decide +kernel⟩

theorem witness_PackRoles_ready : ∃ s : State, s.ov.linkReady = true := ⟨{ tUp with ov := { linkReady := true } }, rfl⟩

theorem witness_UserCurves_accepted : ∃ (s : State) (src : WrSrc) (l : List Nat), s.takes src .RD_CURVE_CTRL 0 0 true = true ∧
    l = (List.range (curveWords (curveKind s.curveSel) (s.rd Reg.RD_CURVE_SEL_N))).map (fun j => Sparse.get 0 j (s.rd_.stg.get [] s.curveSel)) ∧
    curveReason s.curveSel (s.rd Reg.RD_CURVE_SEL_N) l = 0 :=
  ⟨put tUp [(Reg.HUB_MODE_MODE, 3), (Reg.RD_CURVE_SEL_CURVE, 112), (Reg.RD_CURVE_SEL_N, 1)], .direct, [0, 0, 0], by decide +kernel⟩

/-- An image as the checks of a commit want it, but for its signature: six sections, and a CONFIG preamble for hub 63 that starts in SAFE. -/
def tCfg : List Nat := [63, 0, 255, 3] ++ List.replicate 60 0

def tHead : List Nat :=
  [0x52, 0x4E, 0x52, 0x4C, 1, 0, 0, 1, 5, 0, 0, 0, 0, 0x10, 0, 0, 0, 0, 0, 0, 0, 6, 0, 0] ++ List.replicate 8 0
    ++ [1, 0, 0, 0, 0, 1, 0, 0, 64, 0, 0, 0] ++ leBytes 4 1968144275
    ++ [4, 0, 0, 0, 0x40, 1, 0, 0] ++ List.replicate 8 0 ++ [5, 0, 0, 0, 0x80, 1, 0, 0] ++ List.replicate 8 0
    ++ [6, 0, 0, 0, 0xC0, 1, 0, 0] ++ List.replicate 8 0 ++ [7, 0, 0, 0, 0, 2, 0, 0] ++ List.replicate 8 0
    ++ [8, 0, 0, 0, 0x40, 2, 0, 0] ++ List.replicate 8 0 ++ List.replicate 56 0

def tImage : List Nat := tHead ++ leBytes 4 893728335 ++ List.replicate 68 0 ++ tCfg

def tBank : State :=
  { put tUp [(Reg.KN_IDENT_ID, 63), (bankSt 1, bWRITING), (Reg.KN_BANK_INFO_WPTR 1, 4096)] with kn := { data := [(1, tImage)] } }

/-- The signature check is opaque, so the hypotheses of a commit that passes can be met only where it accepts. -/
theorem witness_Images_commit (sig : Config.ed25519 Config.factoryKey (imageDigest tImage) (List.replicate 64 0) = true) :
    ∃ (s : State) (h : CmdHdr) (bank len : Nat), byRing s h ∧ s.barred = false ∧ (bank = 1 ∨ bank = 2) ∧ s.bankLeash h bank = none ∧
      s.bankState bank ≠ bACTIVE ∧ s.bankState bank ≠ bPENDING ∧
      commitCheck s (s.kn.data.get [] bank) (s.rd (Reg.KN_BANK_INFO_WPTR bank)) len = none := by
  refine ⟨tBank, tHdr, 1, 4096, by unfold byRing; decide +kernel, by decide +kernel, Or.inl rfl, by decide +kernel, by decide +kernel,
    by decide +kernel, ?_⟩
  have e1 : tBank.kn.data.get [] 1 = tImage := by decide +kernel
  have e2 : tBank.rd (Reg.KN_BANK_INFO_WPTR 1) = 4096 := by decide +kernel
  have e3 : lengthOk tImage 4096 4096 = true := by decide +kernel
  have e4 : formOk tImage = true := by decide +kernel
  have e5 : (parseImage tImage).keySlot = 0 := by decide +kernel
  have e6 : tBank.flag Reg.KN_SEC_FACTORY_EN = true := by decide +kernel
  have e7 : (tImage.drop 192).take 64 = List.replicate 64 0 := by decide +kernel
  have e8 : authOk tBank tImage (parseImage tImage) = true := by
    unfold authOk signedBy
    rw [e5, e6, e7, sig]
    rfl
  have e9 : ((parseImage tImage).gen < tBank.rd Reg.KN_SEC_FLOOR || !keysOk tBank (parseImage tImage)) = false := by decide +kernel
  have e10 : fitsHub tBank (parseImage tImage) = true := by decide +kernel
  rw [e1, e2]
  unfold commitCheck
  simp only [e3, e4, e8, e9, e10]
  rfl

theorem witness_RegisterGate_1 : ∃ (c : Instr) (s : State) (r : RegId) (k i : Nat) (l : Bool), c.wf = true ∧
    gateOf c = some (.direct, r, k, i, l) ∧ s.takes .direct r k i l = false :=
  ⟨.fcApply .direct 15, tUp, .FC_APPLY, 15, 0, true, by decide +kernel, by decide +kernel, by decide +kernel⟩

theorem witness_RegisterGate_2 : ∃ (c : Instr) (s : State) (r : RegId) (k i : Nat) (l : Bool), c.wf = true ∧
    gateOf c = some (.cfg, r, k, i, l) ∧ s.takes .cfg r k i l = false :=
  ⟨.dvSetPos .cfg 15 0, put tUp [(Reg.PW_DOMAIN_STAT_ON, 0)], .DV_AX_CTRL, 0, 15, true, by decide +kernel, by decide +kernel, by decide +kernel⟩

theorem witness_RegisterGate_3 : ∃ (s : State) (r : RegId) (k i : Nat), (s.mode = mSAFE ∨ s.mode = mCOMMISSION ∨ s.mode = mSELFTEST) ∧
    s.regOn r k i = true ∧ s.resOf r k i = [] :=
  ⟨put tUp [(Reg.HUB_MODE_MODE, 3)], .TB_REF_SEL, 0, 0, by decide +kernel⟩

theorem witness_RegisterGate_4 : ∃ (s : State) (r : RegId) (k i n : Nat), n < 32 ∧ s.guards n ∈ s.resOf r k i ∧ (s.guards n).1 ≠ 0 ∧
    s.lkHeld n = true ∧ s.rd (Reg.LK_STAT_OWNER n) ≠ 1 :=
  ⟨put tUp [(Reg.LK_CFG_GUARD 31, 1), (Reg.LK_CFG_INDEX 31, 15), (Reg.LK_STAT_HELD 31, 1), (Reg.LK_STAT_OWNER 31, 2)], .DV_AX_CTRL, 0, 15, 31,
    by decide +kernel⟩

theorem witness_EveryCommandAnswers : (∃ c : Instr, c.wf = true) ∧ ∃ c : Instr, c.wf = false :=
  ⟨⟨.aonPowerUp false, by decide +kernel⟩, ⟨.fcApply .direct 16, by decide +kernel⟩⟩

theorem witness_QueueStaysSafe : ∃ s : State, queueWf s ∧ s.pending ≠ [] :=
  ⟨{ tUp with pending := [.barkPost, .hotReset] }, by unfold queueWf; decide +kernel⟩

theorem witness_QueueDrains : ∃ (s : State) (n : Nat), queueWf s ∧ 0 < n ∧ n < s.pending.length :=
  ⟨{ tUp with pending := [.barkPost, .hotReset] }, 1, by unfold queueWf; decide +kernel⟩

theorem witness_CanonicalArrays : ∃ (d : Nat) (m n : Sparse Nat), m.wf d = true ∧ n.wf d = true ∧ ∀ k, m.get d k = n.get d k :=
  ⟨0, [(3, 7), (9, 1)], [(3, 7), (9, 1)], by decide, by decide, fun _ => rfl⟩

theorem witness_ArrayTime : ∃ (S b n : Nat) (s : State), b < 64000 ∧ n < 3840 ∧ s.now = (S * 64000 + b) * 3840 + n ∧ S < 2 ^ 48 :=
  ⟨1, 63999, 3839, { tUp with now := (64000 + 63999) * 3840 + 3839 }, by decide +kernel⟩

theorem witness_SerialOrder : ∃ a b : Nat, a < 2 ^ 32 ∧ b < 2 ^ 32 ∧ serialAfter 32 b a = true := ⟨0xFFFFFFFF, 0, by decide +kernel⟩

/-! ## Well-formedness: each check refuses a term beyond it, and takes the last one within it -/

/-- A resolver sample of channel 0. -/
def tRdc : RdcIn := { ch := 0, sn := [], cs := [], uv := 0 }

/-- Readings of a fan tray. -/
def tFan : FanIn := { rpm := 0, rpmExp := 0, ma := 0, iExp := 0, quiet := 0, slow := 0 }

theorem test_wf_refuses_1 :
    ([.feedStateChange 2 0, .pwFeedLost 2, .pwFeedRestored 2, .startFailed 3, .cardSelftestDone 20 false [], .cardSelftestDone 30 false [],
     .stowAxisFail 16, .cardPulled 22, .cardSeated 22 0 0 0, .cardSeated 0 256 0 0, .cardSeated 0 0 256 0, .haltAssert 2, .haltRelease 2,
     .aoclrEdge 2 false, .blankEdge 2 false, .packBlankEdge 2 false 0, .refQualified 3 0, .refLost 3, .schedFire (some (.window 4 true)),
     .schedFire (some (.capture 1024)), .angleInstant 64 0 0, .angleInstant 0 64 0, .fcApply .direct 16, .fcRevert .direct 16,
     .commitBreak 16, .commitMake 16, .commitRelease 16, .qreset .direct 16 0, .qreset .direct 0 32, .qresetAuto 16 0 0,
     .qresetAuto 0 32 0, .qresetOpen 16 0] : List Instr).all (fun i => i.wf == false) = true := by decide +kernel

theorem test_wf_refuses_2 :
    ([.qresetOpen 0 32, .qresetRelease 16 0 0 0, .qresetRelease 0 32 0 0, .carryClr .direct 16 0, .carryClr .direct 0 32, .excLimit 16 0,
     .excLimit 0 8, .excSenseFault 16 0, .excSenseFault 0 8, .excThermal 16 0, .excThermal 0 8, .cmFault 16 0 0 0 0 0 0 0,
     .cmFault 0 32 0 0 0 0 0 0, .cmClear 16 0 0 0, .cmClear 0 32 0 0, .overrange 16 0 false, .overrange 0 32 false, .leadSwap 16 0 [],
     .leadSwap 0 8 [], .fcCntClr .direct 16 0, .spareTurnStart 16, .spareVerifyBlock 16 0 0 false, .spareCalEnd 16 [] [] [] [],
     .spareCheckEnd 16 [] [], .spareSelfCalEnd 16 [] 0, .convFault 16 0, .convFault 0 33, .spareForce .direct 16 0,
     .spareForce .direct 0 32, .spareRestore .direct 16 0, .spareRestore .direct 0 32, .fcSpareCntClr .direct 16 0] : List Instr).all (fun i => i.wf == false) = true := by decide +kernel

theorem test_wf_refuses_3 :
    ([.refcalStart .direct 16, .refcalDone 16 0 0, .mtLastLatch 32, .streamTick 1024 0 0 0 false, .streamTick 0 0 0 281474976710656 false,
     .recAgeExpiry 1024, .streamGap 1024, .cjInvalid 1024, .rdcUpdate [{ tRdc with ch := 32 }] [], .rdcUpdate [] [⟨16, [], []⟩],
     .rdcAcqStart 32, .rdcLockTest 32, .rdcLos 32, .rdcAmpHigh 32, .rdcWireOpen 32 0, .rdcCmFault 32 false, .rdcTrackLoss 32,
     .rdcExcIlim 32 0, .rdcExcThermal 32, .rdcConvFault 32, .rdcPairResolve 32, .rdcPairSlip 32, .rdcHarmDone 32, .rdcHarmFail 32,
     .rdcReacq .direct 32 false, .rdcLearn .direct 32, .rdcAbort .direct 32, .rdcHarmActivate .direct 32, .rdcHarmClear .direct 32,
     .rdcCntClr .direct 32, .rdcLiveLatch 32, .pfiEdge 16 false false false 0 0 0] : List Instr).all (fun i => i.wf == false) = true := by decide +kernel

theorem test_wf_refuses_4 :
    ([.pfiIndex 16, .pfiLineFault 16 false 0 0, .pfiScAmp 16, .pfiScOverspeed 16, .pfiFbReady 16, .pfiFbDisagree 16, .pfiFused 16,
     .pfiFuseSlip 16, .pfiIdxArm .direct 16, .pfiSetCount .direct 16, .pfiSetTurns .direct 16, .pfiResume .direct 16,
     .pfiReanchor .direct 16, .pfiCntClr .direct 16, .pfiLiveLatch 16, .pbLatch 8 false 0 0, .pbArm .direct 8, .pbMissedClr .direct 8,
     .pbLatchRead 8, .eeUpdate 16, .eeRestart .direct 16, .eeCntClr .direct 16, .leBankSelWrite 2 0, .leArenaArm .direct 16,
     .leArenaDisarm .direct 16, .leArenaRestart .direct 16, .leIClr .direct 64, .leISet .direct 64 0, .leLoopRestart .direct 64,
     .driveBeatUpdate [⟨16, 0, []⟩], .driveBeatUpdate [⟨0, 2, []⟩], .driveBeatUpdate [⟨0, 0, [(3841, 0)]⟩]] : List Instr).all (fun i => i.wf == false) = true := by decide +kernel

theorem test_wf_refuses_5 :
    ([.moveStart 16, .dvBudgetDenied 16, .holdDelayExpiry 16, .dvHbConflict 16, .dvOvercurrent 16 0 0, .dvOvercurrent 0 4 0,
     .dvOvertemp 16 0, .dvOpenPhase 16 0, .dvOpenPhase 0 2, .dvHeatOpen 16 0 0, .dvHeatOpen 0 4 0, .dvSetPos .direct 16 0,
     .dvClrFault .direct 16, .dvMuzzle .direct 16, .dvEnergise .direct 16, .dvHeatWrite .direct 16 0 0 0 0, .heatPeriod 16,
     .heaterRelease 16, .aoCodeWrite .direct 16 0, .aoCompliance 16, .aoOpen 16, .aoOverload 16, .governorEvaluate [11], .fanOpen 4 tFan,
     .fanBlocked 4 tFan, .fanTachoLost 4 tFan, .fanSlow 4 tFan, .fanRetry 4 tFan, .fanTrayRemoved 4, .fanTraySeated 4, .fanTestEnd 4 tFan,
     .pwSvcDenied 30] : List Instr).all (fun i => i.wf == false) = true := by decide +kernel

theorem test_wf_refuses_6 :
    ([.pwBgOverdue 0x60, .pwBgOverdue 0x63, .hpLinkUp 0 1, .hpLinkUp 5 1, .hpLinkUp 1 3, .cmdFetch (List.replicate 63 0) [],
     .cmdFetch (List.replicate 65 0) [], .leashBreak 0, .leashBreak 6, .cardUpdateSwitch 20, .cardUpdateSwitch 27, .cardUpdateSwitch 30,
     .recordDeliver 256, .msixMessage 64, .ovLaneDown 8, .ovRetrain 8 false 0, .ovLaneUp 8 false, .ovReadySet 8 false,
     .ovFrameReceive 8 tFrame 0 0, .ovNak 8 0, .ovCreditSet 8 false [], .ttReceive 4 0 0 0 0, .heartbeatReceive 4 0 0 0 0 0,
     .heartbeatReceive 0 64 0 0 0 0, .topologyReceive 4 0 0 0 0 0 false false 1 0, .topologyReceive 0 64 0 0 0 0 false false 1 0,
     .topologyReceive 0 0 0 0 0 0 false false 0 0, .linkDownNotice 4 0, .linkDownNotice 0 64, .handoverReceive 64, .commandMessage tHdr 64,
     .completionMessage 3 0 0 0 .ok 0 0] : List Instr).all (fun i => i.wf == false) = true := by decide +kernel

theorem test_wf_refuses_7 :
    ([.completionMessage 0 64 0 0 .ok 0 0, .requestMessage 64 0 0, .requestMessage 0 256 0, .grantMessage 64 0 0, .grantMessage 0 256 0,
     .recordMessage 10 0 0 0 0 0 false [], .recordMessage 13 0 0 0 0 0 false [], .recordMessage 11 64 0 0 0 0 false [],
     .recordMessage 11 0 256 0 0 0 false [], .recordMessage 11 0 0 1024 0 0 false [], .deliveredNotice 64 0 0 false,
     .deliveredNotice 0 1024 0 false, .barkMessage 64 0 0 false 0 [] false, .bulkMessage 64 0 0 [], .bulkMessage 0 3 0 [],
     .moduleSeated 9 false false 0, .knMirrorFail 2 0 0 false, .cardLinkLost 20, .cardClockLost 20, .rsEccUncorr 1024 0,
     .registerWrite 1048576 0 0, .dvHotClear 16 0, .excLimitEnd 16 0, .excLimitEnd 0 8, .pfiLineFaultClear 16 false,
     .blankPanelChange 22 false, .blankPanelChange 28 false] : List Instr).all (fun i => i.wf == false) = true := by decide +kernel

theorem test_wf_accepts_1 :
    ([.feedStateChange 1 0, .pwFeedLost 1, .pwFeedRestored 1, .startFailed 7, .cardSelftestDone 19 false [], .cardSelftestDone 28 false [],
     .cardSelftestDone 29 false [], .stowAxisFail 15, .cardPulled 21, .cardSeated 21 255 255 0, .haltAssert 1, .haltRelease 1,
     .aoclrEdge 1 false, .blankEdge 1 false, .packBlankEdge 1 false 0, .refQualified 2 0, .refLost 2, .schedFire (some (.window 3 true)),
     .schedFire (some (.capture 1023)), .angleInstant 63 63 0, .fcApply .direct 15, .fcRevert .direct 15, .commitBreak 15, .commitMake 15,
     .commitRelease 15, .qreset .direct 15 31, .qresetAuto 15 31 0, .qresetOpen 15 31, .qresetRelease 15 31 0 0, .carryClr .direct 15 31,
     .excLimit 15 7, .excSenseFault 15 7] : List Instr).all (fun i => i.wf) = true := by decide +kernel

theorem test_wf_accepts_2 :
    ([.excThermal 15 7, .cmFault 15 31 0 0 0 0 0 0, .cmClear 15 31 0 0, .overrange 15 31 false, .leadSwap 15 7 [], .fcCntClr .direct 15 0,
     .spareTurnStart 15, .spareVerifyBlock 15 0 0 false, .spareCalEnd 15 [] [] [] [], .spareCheckEnd 15 [] [], .spareSelfCalEnd 15 [] 0,
     .convFault 15 32, .spareForce .direct 15 31, .spareRestore .direct 15 31, .fcSpareCntClr .direct 15 0, .refcalStart .direct 15,
     .refcalDone 15 0 0, .mtLastLatch 31, .streamTick 1023 0 0 281474976710655 false, .recAgeExpiry 1023, .streamGap 1023, .cjInvalid 1023,
     .rdcUpdate [{ tRdc with ch := 31 }] [⟨15, [], []⟩], .rdcAcqStart 31, .rdcLockTest 31, .rdcLos 31, .rdcAmpHigh 31, .rdcWireOpen 31 0,
     .rdcCmFault 31 false, .rdcTrackLoss 31, .rdcExcIlim 31 0, .rdcExcThermal 31] : List Instr).all (fun i => i.wf) = true := by decide +kernel

theorem test_wf_accepts_3 :
    ([.rdcConvFault 31, .rdcPairResolve 31, .rdcPairSlip 31, .rdcHarmDone 31, .rdcHarmFail 31, .rdcReacq .direct 31 false,
     .rdcLearn .direct 31, .rdcAbort .direct 31, .rdcHarmActivate .direct 31, .rdcHarmClear .direct 31, .rdcCntClr .direct 31,
     .rdcLiveLatch 31, .pfiEdge 15 false false false 0 0 0, .pfiIndex 15, .pfiLineFault 15 false 0 0, .pfiScAmp 15, .pfiScOverspeed 15,
     .pfiFbReady 15, .pfiFbDisagree 15, .pfiFused 15, .pfiFuseSlip 15, .pfiIdxArm .direct 15, .pfiSetCount .direct 15,
     .pfiSetTurns .direct 15, .pfiResume .direct 15, .pfiReanchor .direct 15, .pfiCntClr .direct 15, .pfiLiveLatch 15,
     .pbLatch 7 false 0 0, .pbArm .direct 7, .pbMissedClr .direct 7, .pbLatchRead 7] : List Instr).all (fun i => i.wf) = true := by decide +kernel

theorem test_wf_accepts_4 :
    ([.eeUpdate 15, .eeRestart .direct 15, .eeCntClr .direct 15, .leBankSelWrite 1 0, .leArenaArm .direct 15, .leArenaDisarm .direct 15,
     .leArenaRestart .direct 15, .leIClr .direct 63, .leISet .direct 63 0, .leLoopRestart .direct 63,
     .driveBeatUpdate [⟨15, 1, [(3840, 900)]⟩], .moveStart 15, .dvBudgetDenied 15, .holdDelayExpiry 15, .dvHbConflict 15,
     .dvOvercurrent 15 3 0, .dvOvertemp 15 0, .dvOpenPhase 15 1, .dvHeatOpen 15 3 0, .dvSetPos .direct 15 0, .dvClrFault .direct 15,
     .dvMuzzle .direct 15, .dvEnergise .direct 15, .dvHeatWrite .direct 15 0 0 0 0, .heatPeriod 15, .heaterRelease 15,
     .aoCodeWrite .direct 15 0, .aoCompliance 15, .aoOpen 15, .aoOverload 15, .governorEvaluate [0, 10], .fanOpen 3 tFan] : List Instr).all (fun i => i.wf) = true := by decide +kernel

theorem test_wf_accepts_5 :
    ([.fanBlocked 3 tFan, .fanTachoLost 3 tFan, .fanSlow 3 tFan, .fanRetry 3 tFan, .fanTrayRemoved 3, .fanTraySeated 3, .fanTestEnd 3 tFan,
     .pwSvcDenied 29, .pwBgOverdue 0x61, .pwBgOverdue 0x62, .hpLinkUp 1 1, .hpLinkUp 4 8, .cmdFetch (List.replicate 64 0) [],
     .leashBreak 1, .leashBreak 5, .cardUpdateSwitch 19, .cardUpdateSwitch 29, .recordDeliver 255, .msixMessage 63, .ovLaneDown 7,
     .ovRetrain 7 false 0, .ovLaneUp 7 false, .ovReadySet 7 false, .ovFrameReceive 7 tFrame 0 0, .ovNak 7 0, .ovCreditSet 7 false [],
     .ttReceive 3 0 0 0 0, .heartbeatReceive 3 63 0 0 0 0, .topologyReceive 3 63 0 0 0 0 false false 1 0, .linkDownNotice 3 63,
     .handoverReceive 63, .commandMessage tHdr 63] : List Instr).all (fun i => i.wf) = true := by decide +kernel

theorem test_wf_accepts_6 :
    ([.completionMessage 2 63 0 0 .ok 0 0, .requestMessage 63 255 0, .grantMessage 63 255 0, .recordMessage 11 63 255 1023 0 0 false [],
     .recordMessage 12 0 0 0 0 0 false [], .deliveredNotice 63 1023 0 false, .barkMessage 63 0 0 false 0 [] false, .bulkMessage 63 2 0 [],
     .moduleSeated 8 false false 0, .knMirrorFail 1 0 0 false, .cardLinkLost 19, .cardClockLost 19, .rsEccUncorr 1023 0,
     .registerWrite 1048575 0 0, .dvHotClear 15 0, .excLimitEnd 15 7, .pfiLineFaultClear 15 false, .blankPanelChange 21 false,
     .blankPanelChange 24 false, .blankPanelChange 27 false] : List Instr).all (fun i => i.wf) = true := by decide +kernel

/-! ## Worked examples of the spec, with the numbers it gives -/

/-- The bits of a field in the word of its register that holds it. -/
def fieldOf (w : Nat) (f : Fld) : Nat := bits w (f.key % 32) f.width

/-- R11: 0x0000_1000 minus 0xFFFF_F000 is 0x0000_2000, and forward. -/
theorem test_angle_difference : modDiff 32 0x1000 0xFFFFF000 = 8192 := by decide +kernel

/-- Chapter 2, strain every 1/4,096 turn: 49,233 CCLK after beat 26,800 is beat 26,812 plus 3,153 CCLK, 418,950,329 ns, FRAC 0x9700. -/
theorem test_edge_stamp : (at96 (26812 * 3840 + 3153)).ns = 418950329 ∧ (at96 (26812 * 3840 + 3153)).frac = 0x9700 ∧
    26800 * 3840 + 49233 = 26812 * 3840 + 3153 := by decide +kernel

/-- The same example: from angle 0x2A3F_F6AA the next point of grid 12 is 2,390 steps ahead. -/
theorem test_next_grid_point :
    ((put tUp [(Reg.TB_ANG_GRID 3, 12)]).gridNext 3 0x2A3FF6AA true).2 = 2390 := by decide +kernel

/-- Chapter 3, quarter bridge: pin roles, source and channel words. -/
theorem test_quarter_bridge_words : fieldOf 0x0105 (Reg.FC_XPT_ROLE_ROLE 2 3) = 5 ∧
    (put tUp [(Reg.FC_EXC_CFG_MODE 2 0, 2), (Reg.FC_EXC_CFG_SENSE_EN 2 0, 1)]).readWord 0x18200 = 0x0000090A ∧
    fieldOf 0x4206 (Reg.FC_CH_CFG_GAIN 2 0) = 3 ∧ fieldOf 0x4206 (Reg.FC_CH_CFG_OWD 2 0) = 1 ∧ fieldOf 0x4206 (Reg.FC_CH_CFG_RATIO 2 0) = 1 ∧
    fieldOf 0x4206 (Reg.FC_CH_CFG_RATIO_SRC 2 0) = 0 := by decide +kernel

/-- Chapter 5, Pt1000 on MC4: the fields of 0x0028_00D1, and 1,440 ms a channel, 92,160 beats. -/
theorem test_metrology_channel : fieldOf 0x002800D1 (Reg.MT_CH_CFG_MODE 4) = 1 ∧ fieldOf 0x002800D1 (Reg.MT_CH_CFG_RANGE 4) = 0 ∧
    fieldOf 0x002800D1 (Reg.MT_CH_CFG_CONV 4) = 4 ∧ fieldOf 0x002800D1 (Reg.MT_CH_CFG_SETTLE 4) = 40 ∧ mtTime 1 4 40 = 92160 := by decide +kernel

/-- The same example: four phases give 1,078.9063 Ω. -/
theorem test_metrology_resistance : (res4 (fratio 10000021 10000)
    [fratio 10789725 100000000, fratio 9999981 100000000, fratio (-9999861) 100000000, fratio (-10788185) 100000000]).map
      (fun r => rne (r * 10000) realOne) = some 10789063 := by decide +kernel

/-- Chapter 6, block-mean strain stream: its definition. -/
def tStrain : SDef :=
  { tDef with id := 65, index := 64, clockArg := 6, reduce := 1, redArg := 6, stat := 1, curve := 64, format := 2, q := 16, recCount := 16,
              recAge := 2000 }

/-- The same example: 824.679536 µε is 0x0338_ADF6 in S32 with Q 16. -/
theorem test_strain_word : formatWord tStrain 0 (fratio 824679536 1000000) 0 = (0x0338ADF6, false) := by decide +kernel

/-- The same example: the load is 4,015.625 units a second. -/
theorem test_strain_load : loadOf tStrain = 4015625 * 65536 / 1000 := by decide +kernel

/-- The record of the same example: 16 slots from beat 8,192 of second 1,750,000,000, of which the first reads 824.6795 µε. -/
def tRecord : List Nat :=
  let slot (j : Nat) : SlotV := { at_ := (1750000000 * 64000 + 8192 + 4096 * j) * 3840, word := 0x0338ADF6, flags := 1 }
  encodeRec 1 tStrain { seq := 281104, place := 0, stow := false, slots := (List.range 16).map slot, run := none, brk := false } 0

/-- The same example: the header and slot 0, in memory order; 116 bytes padded to 120. -/
theorem test_strain_record : tRecord.take 28 =
      [0x41, 0, 2, 1, 0x10, 0, 1, 0, 0x10, 0x4A, 4, 0, 0, 0, 0, 0, 0, 0, 0, 0x20, 0xA1, 7, 0x80, 0xE1, 0x4E, 0x68, 0, 0] ∧
    (tRecord.drop 32).take 4 = [0xF6, 0xAD, 0x38, 3] ∧ tRecord.getD 96 0 = 1 ∧ tRecord.length = 120 := by decide +kernel

/-- Chapter 6, 512 RAW streams at 64,000 S/s: 66,560,000 units a second, 65,536,000 with STOW_KEEP (here one stream of the 512). -/
theorem test_raw_load : loadOf { tDef with opts := 0 } * 512 = 66560000 * 65536 := by decide +kernel

/-- Chapter 7, 1×/32× resolver: FREQ of exactly 7,500 Hz is 10 × 2^33, and the fine gear of 800 Hz is limited to 468.75 Hz. -/
theorem test_resolver_gear : (put tUp [(Reg.RDC_CFG_FREQ 4, 0x1400000000), (Reg.RDC_CFG_EXC_SRC 5, 4), (Reg.RDC_LOOP_FN 5, 200)]).fnActs 5 2 =
    46875 * 2 ^ 37 / 100 := by decide +kernel

/-- Chapter 8, ground-station antenna: a million counts after Qa the fused angle reads 0x0000_59C4_1234. -/
theorem test_fused_angle : ({ put tUp [(Reg.PFI_FUSE_EN 0, 1), (Reg.PFI_FUSE_CPT 0, 26214400)] with
    ax := { pfi := [(0, { fa := 0x50001234, qa := 1234567, q := 2234567 })] } }).fusedAngle 0 = 0x59C41234 := by decide +kernel

/-- Chapter 9, panel actuator: the notch of 42 Hz and 8 Hz at 1 ms has b0 = b2 = 0.98408, b1 = −1.90002, a1 = −1.88284 and a2 = 0.95098. -/
theorem test_notch : (notchCoef 84 16 6).map (fun w => rne (w * 100000) (2 ^ 29)) = [98408, -190002, 98408, -188284, 95098] := by decide +kernel

/-- The state of the next example: three trays, ALT of 5,000 m, inlets at 45 °C. -/
def tHot : State :=
  { put tUp ([(Reg.PW_THERM_CFG_ALT, 5000), (Reg.PW_FAN_STATE 0, fanOK), (Reg.PW_FAN_STATE 1, fanBLOCKED), (Reg.PW_FAN_STATE 2, fanOK),
        (Reg.PW_FAN_STATE 3, fanOK)] ++ (List.range 4).map (fun i => (Reg.PW_TEMP_T i, 720)))
      with pw := { read := [0, 1, 2, 3] } }

/-- Chapter 11, two fans lost at 5,000 m: k_alt is 0.8, T_IN 45 °C, and a tray that runs counts 6 W/K whatever the rated speed is. -/
theorem test_thermal_figures : tHot.kAlt = 8000 ∧ tHot.tIn = 45 * 16 := by decide +kernel

theorem test_thermal_conductance :
    tHot.gNum = 60 * Config.ratedRpm + (0 + (60 * Config.ratedRpm + (60 * Config.ratedRpm + 0))) := by rfl

/-- The same example: B_TH is 1,450 W with three trays and 250 W with two (in 1/16,000 of 0.1 W), for a rated speed of one. -/
theorem test_thermal_budget : (tHot.kAlt : Int) * (3 * 60) * (70 * 16 - tHot.tIn) - 2150 * 160000 = 14500 * 16000 ∧
    (tHot.kAlt : Int) * (2 * 60) * (70 * 16 - tHot.tIn) - 2150 * 160000 = 2500 * 16000 := by decide +kernel

/-- The same example: f = (250 − 54) / 300 gives GOV_VAL 0x53A0; f of 1 gives 0x7FFF. -/
theorem test_gov_val : fQ15 196 300 = 0x53A0 ∧ fQ15 1 1 = 0x7FFF := by decide +kernel

/-- Chapter 12, a host that pauses: a record of 1,024 S32 slots has 5,156 bytes, padded to 5,160. -/
theorem test_record_padding : 5156 + (padTo 8 5156).length = 5160 := by decide +kernel

/-- R322 and chapter 14: START_BEGIN of a cold start as it stands after reset, in words. -/
theorem test_start_begin : State.reset.bq.staged.map Bark.words = [[0x0108, 0x3F000120, 0, 0, 1, 0, 0, 0]] := by decide +kernel

/-- The register tables: words of HUB_MODE_REQ, HUB_GUARD and PW_CEIL at reset. -/
theorem test_reset_words : State.reset.readWord 0x0014 = 3 ∧ State.reset.readWord 0x0018 = 2000 + 120 * 65536 := by decide +kernel

/-- R163: the check of a record is CRC-32; its check value over the digits 1 to 9 is 0xCBF4_3926 (the CRC's own published value). -/
theorem test_crc : crc32 [0x31, 0x32, 0x33, 0x34, 0x35, 0x36, 0x37, 0x38, 0x39] = 0xCBF43926 := by decide +kernel

/-- Chapter 3, sense and source: the commands of the decoder are none, for the table gives no row bits. -/
theorem test_no_word_spells_a_command : decodeTableWord 32 0 = none ∧ decodeTableWord 8 255 = none := by decide +kernel

end Sys2Proof.Tests
end

