-- ==== Sys2Proof/Proofs/SparseArrays.lean ====
section
/-! PROOFS. The sparse maps: a filter of keys, and that reads fix a map in canonical form. -/

namespace Sys2Proof.Machine

variable {α : Type}

/-- Dropping keys leaves the reads of the others alone; a dropped key reads as the default. -/
theorem Sparse.get_filter_key (d : α) (p : Nat → Bool) (m : Sparse α) (k : Nat) :
    Sparse.get d k (m.filter (fun e => p e.1)) = if p k then m.get d k else d := by
  induction m with
  | nil => simp
  | cons e r ih =>
    obtain ⟨j, v⟩ := e
    by_cases hj : j = k
    · subst hj
      by_cases hp : p j <;> simp [hp, Sparse.get, ih]
    · by_cases hp : p j <;> simp [hp, Sparse.get, hj, ih]

/-- Dropping entries keeps the canonical form. -/
theorem Sparse.wf_filter [DecidableEq α] (d : α) (p : Nat × α → Bool) (m : Sparse α) (h : m.wf d = true) :
    Sparse.wf d (m.filter p) = true := by
  simp only [Sparse.wf, Bool.and_eq_true] at h ⊢
  refine ⟨Sparse.sorted_filter p m h.1, ?_⟩
  simp only [Sparse.noDefault, List.all_eq_true] at h ⊢
  exact fun e he => h.2 e (List.mem_of_mem_filter he)

theorem Sparse.get_cons_self (d v : α) (k : Nat) (r : Sparse α) : Sparse.get d k ((k, v) :: r) = v := by simp [Sparse.get]

theorem Sparse.get_cons_ne (d v : α) {j k : Nat} (h : j ≠ k) (r : Sparse α) : Sparse.get d k ((j, v) :: r) = r.get d k := by
  simp [Sparse.get, h]

/-- Where no entry is a default, the first key does not read as the default. -/
theorem Sparse.get_head_ne_default [DecidableEq α] {d v : α} {j : Nat} {r : Sparse α} (h : Sparse.noDefault d ((j, v) :: r) = true) :
    Sparse.get d j ((j, v) :: r) ≠ d := by
  rw [Sparse.get_cons_self]
  simp only [Sparse.noDefault, List.all_cons, Bool.and_eq_true, decide_eq_true_eq] at h
  exact h.1

/-- A listed key that lies below every key of another map tells the two maps apart. -/
theorem Sparse.get_head_ne_of_lt {d v : α} {j lo : Nat} {r n : Sparse α} (hv : v ≠ d) (hn : n.sortedFrom lo = true)
    (hj : j < lo) : Sparse.get d j ((j, v) :: r) ≠ n.get d j := by
  rw [Sparse.get_cons_self, Sparse.get_of_lt d n lo j hn hj]
  exact hv

/-- Maps in canonical form that read alike are the same list, from any lower bound of their keys on. -/
theorem Sparse.eq_of_get_eq_from [DecidableEq α] (d : α) (m : Sparse α) : ∀ (lo : Nat) (n : Sparse α),
    m.sortedFrom lo = true → m.noDefault d = true → n.sortedFrom lo = true → n.noDefault d = true →
    (∀ k, m.get d k = n.get d k) → m = n := by
  induction m with
  | nil =>
    rintro lo (_ | ⟨⟨j, v⟩, r⟩) _ _ _ hd h
    · rfl
    · exact absurd (h j).symm (Sparse.get_head_ne_default hd)
  | cons e r ih =>
    obtain ⟨j, v⟩ := e
    rintro lo (_ | ⟨⟨j', v'⟩, r'⟩) hs hd hs' hd' h
    · exact absurd (h j) (Sparse.get_head_ne_default hd)
    · simp only [Sparse.sortedFrom, Sparse.noDefault, List.all_cons, Bool.and_eq_true, decide_eq_true_eq] at hs hd hs' hd'
      obtain ⟨-, hr⟩ := hs
      obtain ⟨hv, hdr⟩ := hd
      obtain ⟨-, hr'⟩ := hs'
      obtain ⟨hv', hdr'⟩ := hd'
      have hkey : j = j' := by
        rcases Nat.lt_trichotomy j j' with hlt | heq | hgt
        · exact absurd (h j) (Sparse.get_head_ne_of_lt hv (lo := j') (by simp [Sparse.sortedFrom, hr']) hlt)
        · exact heq
        · exact absurd (h j').symm (Sparse.get_head_ne_of_lt hv' (lo := j) (by simp [Sparse.sortedFrom, hr]) hgt)
      subst hkey
      have hval : v = v' := by simpa [Sparse.get_cons_self] using h j
      subst hval
      congr 1
      refine ih (j + 1) r' hr hdr hr' hdr' fun k => ?_
      by_cases hk : j = k
      · subst hk
        rw [Sparse.get_of_lt d r _ j hr (Nat.lt_succ_self j), Sparse.get_of_lt d r' _ j hr' (Nat.lt_succ_self j)]
      · simpa [Sparse.get_cons_ne d v hk] using h k

/-- Maps in canonical form are fixed by what they read. -/
theorem Sparse.eq_of_get_eq [DecidableEq α] {d : α} {m n : Sparse α} (hm : m.wf d = true) (hn : n.wf d = true)
    (h : ∀ k, m.get d k = n.get d k) : m = n := by
  simp only [Sparse.wf, Bool.and_eq_true] at hm hn
  exact Sparse.eq_of_get_eq_from d m 0 n hm.1 hm.2 hn.1 hn.2 h

end Sys2Proof.Machine

namespace Sys2Proof

open Sys2Proof.Machine

/-- Settles O56: writes and filters keep the canonical form and read back, and `Sparse.eq_of_get_eq` gives that reads fix the list. -/
theorem canonicalArrays : Obligations.CanonicalArrays := by
  intro d m n hm hn
  refine ⟨fun k v => ⟨Sparse.wf_put d v k m hm, Sparse.get_put_self d v k m, fun j hj => Sparse.get_put_ne d d v hj.symm m⟩,
    fun p => ⟨Sparse.wf_filter d _ m hm, Sparse.get_filter_key d p m⟩, Sparse.eq_of_get_eq hm hn⟩

end Sys2Proof
end

