-- ==== Sys2Proof/Proofs/Answers.lean ====
section
/-! PROOFS. Every command on elements of the hub answers and leaves the queue alone, so a queue of them stays one and drains (R7, R8). -/

namespace Sys2Proof

open Sys2Proof.Machine

/-- Every command that names elements the hub has answers with some effect, and with the queue as it was. The guard of each row is the
check of `Instr.wf`, but for three rows: two have no guard, and that of STREAM_TICK leaves the range of the phase open. -/
theorem exec_answers (c : Instr) (s : State) (h : c.wf = true) : ∃ t, exec c s = .next t ∧ t.pending = s.pending := by
  cases c
  case schedFire ev => exact answer_next s (schedFire s ev)
  case driveBeatUpdate chops => exact answer_next s (driveBeat s chops)
  case streamTick i v div phase ovr =>
    have hi : decide (i < 1024) = true := by simp [Instr.wf] at h; simp [h.1]
    exact guardItem_next hi s (streamTick s i v div phase ovr)
  all_goals exact guardItem_next h s _

/-- SCHED_FIRE has no guard: it answers for every event, on elements of the hub or not. -/
theorem exec_schedFire_answers (ev : Option SchedEv) (s : State) : ∃ t, exec (.schedFire ev) s = .next t ∧ t.pending = s.pending :=
  answer_next s (schedFire s ev)

/-- Refutes O53: SCHED_FIRE for an edge of window 4, where the hub has windows 0 to 3, is not well-formed and answers a next state. -/
theorem not_everyCommandAnswers : ¬ Obligations.EveryCommandAnswers := by
  intro h
  obtain ⟨-, hfault⟩ := h (.schedFire (some (.window 4 true))) State.reset
  obtain ⟨t, hnext, -⟩ := exec_schedFire_answers (some (.window 4 true)) State.reset
  have hwf : (Instr.schedFire (some (.window 4 true))).wf = false := by decide
  exact nomatch hnext.symm.trans (hfault hwf)

/-- The queue after one step is what stood behind its front. -/
theorem step_answers_tail (s : State) (h : queueWf s) : ∃ t, step s = .next t ∧ t.pending = s.pending.tail := by
  cases hq : s.pending with
  | nil =>
    obtain ⟨t, ht, hp⟩ := answer_next s (tick s)
    exact ⟨t, by simpa [step, hq] using ht, by simp [hp, hq]⟩
  | cons c rest =>
    obtain ⟨t, ht, hp⟩ := exec_answers c { s with pending := rest } (h c (by simp [hq]))
    exact ⟨t, by simpa [step, hq] using ht, hp⟩

/-- Settles O54: the queue after a step is the tail of the queue before it. -/
theorem queueStaysSafe : Obligations.QueueStaysSafe := by
  intro s h
  obtain ⟨t, ht, hp⟩ := step_answers_tail s h
  exact ⟨t, ht, fun c hc => h c (List.mem_of_mem_tail (hp ▸ hc)), hp⟩

/-- Settles O55, by induction on the number of steps. -/
theorem queueDrains : Obligations.QueueDrains := by
  intro s n
  induction n generalizing s with
  | zero => exact fun h => ⟨s, rfl, rfl, h⟩
  | succ n ih =>
    intro h
    obtain ⟨t, ht, hwf, hp⟩ := queueStaysSafe s h
    obtain ⟨u, hu, hq, hwfu⟩ := ih t hwf
    exact ⟨u, by simpa [run, ht] using hu, by rw [hq, hp, List.drop_tail], hwfu⟩

end Sys2Proof
end

