-- ==== Sys2Proof/Proofs/DirectWrites.lean ====
section
/-! PROOFS. Direct register writes (R413 to R416, R300): what a discarded write records, a write of PW_CEIL, which is a register of one
field in AON, and a write of one word of the MSI-X table. -/

namespace Sys2Proof.Machine

/-! ## Bytes and answers -/

theorem leNat_leBytes (k : Nat) : ∀ n, leNat (leBytes k n) = n % 256 ^ k := by
  induction k with
  | zero => intro n; simp [leBytes, leNat, Nat.mod_one]
  | succ k ih =>
    intro n
    rw [leBytes, leNat, ih, Nat.mod_mod, Nat.pow_succ', Nat.mod_mul]

@[simp] theorem length_leBytes (k n : Nat) : (leBytes k n).length = k := by
  induction k generalizing n with
  | zero => rfl
  | succ k ih => simp [leBytes, ih]

theorem State.keepQueue_eq {s t : State} (h : t.pending = s.pending) : t.keepQueue s = t := by
  unfold State.keepQueue; rw [← h]

/-- REGISTER_WRITE inside BAR0 answers the effect of the write. -/
theorem exec_registerWrite {s t : State} {ofs size data : Nat} (ho : ofs < 0x100000) (h : registerWrite s ofs size data = t)
    (hq : t.pending = s.pending) : exec (.registerWrite ofs size data) s = .next t := by
  have hg : exec (.registerWrite ofs size data) s = guardItem (ofs < 0x100000) (answer s (registerWrite s ofs size data)) := rfl
  rw [hg, h, answer, State.keepQueue_eq hq]
  simp [guardItem, ho]

/-- A field takes its value cut to its width. -/
theorem State.wr_mod (s : State) (f : Fld) (v : Nat) : s.wr f (v % 2 ^ f.width) = s.wr f v := by
  simp [State.wr]

/-! ## Discards (R416) -/

@[simp] theorem State.rd_discard_count (s : State) (ofs : Nat) :
    (s.discard ofs).rd Reg.HUB_WR_STAT_DISCARDS = satU 32 (s.rd Reg.HUB_WR_STAT_DISCARDS + 1) := by
  rw [State.discard, State.rd_count_self, State.rd_wr_ne _ _ (by decide)]
  rfl

@[simp] theorem State.rd_discard_ofs (s : State) (ofs : Nat) : (s.discard ofs).rd Reg.HUB_WR_STAT_LAST_OFS = ofs % 2 ^ 20 := by
  rw [State.discard, State.rd_count_ne _ (by decide), State.rd_wr_self]
  rfl

end Sys2Proof.Machine

namespace Sys2Proof

open Sys2Proof.Machine

theorem onlyRegs_trans {s t u : State} {fs : List Fld} (h : onlyRegs s t fs) (h' : onlyRegs t u fs) : onlyRegs s u fs :=
  fun f hf => (h' f hf).trans (h f hf)

/-- A further write of a field that may have changed already. -/
theorem onlyRegs_wr_of_mem {s t : State} {fs : List Fld} (h : onlyRegs s t fs) {f : Fld} (hf : f ∈ fs) (v : Nat) :
    onlyRegs s (t.wr f v) fs := by
  intro g hg
  have hne : f.key ≠ g.key := fun he => hg (he ▸ List.mem_map_of_mem hf)
  rw [State.rd_wr_ne t v hne]
  exact h g hg

theorem discard_onlyRegs (s : State) (ofs : Nat) : onlyRegs s (s.discard ofs) [Reg.HUB_WR_STAT_DISCARDS, Reg.HUB_WR_STAT_LAST_OFS] :=
  onlyRegs_snoc (onlyRegs_wr s Reg.HUB_WR_STAT_LAST_OFS ofs) Reg.HUB_WR_STAT_DISCARDS _

end Sys2Proof

namespace Sys2Proof.Machine

/-- A direct write whose elements discarded nothing leaves no record. -/
theorem oneDiscard_of_le {s t : State} (ofs : Nat) (h : t.rd Reg.HUB_WR_STAT_DISCARDS ≤ s.rd Reg.HUB_WR_STAT_DISCARDS) :
    oneDiscard s t ofs = t := by
  simp [oneDiscard, Nat.not_lt.2 h]

theorem oneDiscard_of_lt {s t : State} (ofs : Nat) (h : s.rd Reg.HUB_WR_STAT_DISCARDS < t.rd Reg.HUB_WR_STAT_DISCARDS) :
    oneDiscard s t ofs = (t.wr Reg.HUB_WR_STAT_DISCARDS (s.rd Reg.HUB_WR_STAT_DISCARDS)).discard ofs := by
  simp [oneDiscard, h]

/-! ## Writes that reach no register -/

theorem registerWrite_dormant {s : State} (h : s.mode = mDORMANT) (ofs size data : Nat) : registerWrite s ofs size data = s := by
  simp [registerWrite, h]

/-- A write of the wrong size or alignment is discarded. -/
theorem registerWrite_misfit {s : State} (hm : s.mode ≠ mDORMANT) {ofs size : Nat} (data : Nat)
    (h : (size ≠ 4 ∧ size ≠ 8) ∨ ofs % size ≠ 0) : registerWrite s ofs size data = s.discard ofs := by
  have hfit : ((size = 4 || size = 8) && ofs % size = 0 : Bool) = false := by
    rcases h with ⟨h4, h8⟩ | ha
    · simp [h4, h8]
    · simp [ha]
  simp [registerWrite, hm, hfit]

/-! ## One aligned word -/

theorem entryWords_word (ofs v : Nat) : entryWords { ofs := ofs, data := leBytes 4 v } = [(ofs, v % 2 ^ 32)] := by
  have hv : leNat ((leBytes 4 v).take 4) = v % 2 ^ 32 := by
    rw [List.take_of_length_le (by simp), leNat_leBytes, show 256 ^ 4 = 2 ^ 32 by norm_num]
  simp [entryWords, wordsFrom, hv]

/-- A word of the MSI-X table, in a mode that takes the HP_ block and with its domain on. -/
theorem registerWrite_msix {s : State} (hm : s.mode ≠ mDORMANT) (hd : s.domOn 25 = true) (ht : s.modeTakes .HP_CTRL = true)
    {v w : Nat} (hv : v < msixVectors) (hw : w < 4) (data : Nat) :
    registerWrite s (msixTable + 16 * v + 4 * w) 4 data = msixWrite s (4 * v + w) (data % 2 ^ 32) := by
  unfold msixVectors at hv
  have hfit : (msixTable + 16 * v + 4 * w) % 4 = 0 := by unfold msixTable; omega
  have hown : msixOwn (msixTable + 16 * v + 4 * w) = true := by
    unfold msixOwn msixVectors msixTable; simp; omega
  have hidx : (msixTable + 16 * v + 4 * w - msixTable) / 4 = 4 * v + w := by omega
  simp [registerWrite, hm, hfit, hown, hd, ht, entryWords_word, hidx]

/-- With no message of its vector pending, a write of the MSI-X table changes the table alone. -/
theorem msixWrite_not_pending {s : State} {i : Nat} (w : Nat) (h : s.hp.vecPend.contains (i / 4) = false) :
    msixWrite s i w = { s with hp := { s.hp with msix := s.hp.msix.put 0 i (Nat.xor (w % 2 ^ 32) (b2n (i % 4 = 3))) } } := by
  simp only [msixWrite, h, Bool.false_and, Bool.false_eq_true, if_false]

/-- The word written is read back. -/
theorem msixWrite_msixWord {s : State} {i : Nat} (w : Nat) (h : s.hp.vecPend.contains (i / 4) = false) :
    (msixWrite s i w).msixWord i = w % 2 ^ 32 := by
  simp only [msixWrite_not_pending w h, State.msixWord, Sparse.get_put_self]
  exact Nat.xor_xor_cancel_right _ _

/-- Where every field lies in one word, a write waits for no other word, and the holding copies stay as they are. -/
theorem holdWords_of_oneWord (s : State) {q : Spot} (ws : List (Nat × Nat)) (h : ∀ d ∈ q.fields, d.top = d.lsb / 32) :
    holdWords s q ws = s := by
  have hnone (j : Nat) (g : FieldDesc → Bool) :
      q.fields.any (fun d => d.soft && d.lsb / 32 ≤ j && j < d.top && g d) = false := by
    rw [List.any_eq_false]
    intro d hd hc
    simp only [h d hd, Bool.and_eq_true, decide_eq_true_eq] at hc
    omega
  have hid {α : Type} (l : List α) : l.foldl (fun (u : State) _ => u) s = s := by
    induction l with
    | nil => rfl
    | cons a l ih => exact ih
  simp only [holdWords, hnone, Bool.false_eq_true, if_false, hid]

/-! ## PW_CEIL -/

/-- The place of PW_CEIL: a word of AON with one field. -/
def ceilSpot : Spot := { place := ⟨.PW_CEIL, 0x4000, 0x100000, 1, 0x0, 4, 1, 4⟩, k := 0, i := 0, off := 0 }

/-- The one field of PW_CEIL. -/
def ceilDesc : FieldDesc := ⟨0, 14, .rw, 6000⟩

theorem spotAt_ceil : spotAt 0x4000 = some ceilSpot := by rfl

@[simp] theorem ceilSpot_base : ceilSpot.base = 0x4000 := rfl

@[simp] theorem ceilSpot_fields : ceilSpot.fields = [ceilDesc] := rfl

@[simp] theorem ceilSpot_fld : ceilSpot.fld ceilDesc = Reg.PW_CEIL_CEIL := rfl

theorem elemsOf_ceil (v : Nat) : elemsOf [(0x4000, v)] = [ceilSpot] := by
  have hfirst : { ceilSpot with off := 0 } = ceilSpot := rfl
  simp [elemsOf, spotAt_ceil, hfirst, List.eraseDups_cons]

theorem wordsIn_ceil (v : Nat) : wordsIn ceilSpot [(0x4000, v)] = [(0, v)] := by
  have hbytes : ceilSpot.place.bytes = 4 := rfl
  simp [wordsIn, hbytes]

theorem softWrites_ceil (s : State) (v : Nat) : softWrites s ceilSpot [(0, v)] = [(ceilDesc, v % 2 ^ 14)] := by
  simp [softWrites, newValue, wordVal, ceilDesc, FieldDesc.soft, FieldDesc.top]

theorem holdWords_ceil (s : State) (ws : List (Nat × Nat)) : holdWords s ceilSpot ws = s :=
  holdWords_of_oneWord s ws (by simp [ceilDesc, FieldDesc.top])

/-- PW_CEIL holds no flag and no command bit, and its store has no further effect. -/
theorem storeOn_ceil (s : State) (src : WrSrc) (v : Nat) :
    storeOn s src ceilSpot [(ceilDesc, v % 2 ^ 14)] = s.wr Reg.PW_CEIL_CEIL v := by
  have hput : storeOn s src ceilSpot [(ceilDesc, v % 2 ^ 14)] = s.wr Reg.PW_CEIL_CEIL (v % 2 ^ 14) := rfl
  rw [hput]
  exact State.wr_mod s Reg.PW_CEIL_CEIL v

theorem clearFlags_ceil (s : State) (ws : List (Nat × Nat)) : clearFlags s ceilSpot ws = s := rfl

theorem actBits_ceil (s : State) (src : WrSrc) (ws : List (Nat × Nat)) : actBits s src ceilSpot ws = s := rfl

/-- What a write of PW_CEIL does where it is taken: its field takes the value. -/
theorem applyElem_ceil (s : State) (src : WrSrc) (v : Nat) (h : src = .direct → s.modeTakes .PW_CEIL = true) :
    applyElem s src ceilSpot [(0, v)] = s.wr Reg.PW_CEIL_CEIL v := by
  have hid : ceilSpot.place.id = .PW_CEIL := rfl
  have hgate : (src = .direct && (!s.modeTakes .PW_CEIL || (setupReg .PW_CEIL && s.flag Reg.HP_CTRL_EN)) : Bool) = false := by
    cases src
    · simp [h rfl, setupReg]
    · rfl
  have hup : s.updating ceilSpot = none := rfl
  have hon : s.regOn .PW_CEIL ceilSpot.k ceilSpot.i = true := rfl
  have hopen : s.leashOpen (s.resOf .PW_CEIL ceilSpot.k ceilSpot.i) = true := rfl
  simp [applyElem, hid, hgate, hup, hon, hopen, softWrites_ceil, holdWords_ceil, -Nat.reducePow, storeOn_ceil, clearFlags_ceil,
    actBits_ceil]

theorem applyElem_ceil_discard {s : State} (h : s.modeTakes .PW_CEIL = false) (v : Nat) :
    applyElem s .direct ceilSpot [(0, v)] = s.discard 0x4000 := by
  have hid : ceilSpot.place.id = .PW_CEIL := rfl
  simp [applyElem, hid, h]

/-- A direct write of PW_CEIL is what its element's write is, one discard recorded at most. -/
theorem registerWrite_ceil {s : State} (hm : s.mode ≠ mDORMANT) (data : Nat) :
    registerWrite s 0x4000 4 data =
      (let t := oneDiscard s (applyElem s .direct ceilSpot [(0, data % 2 ^ 32)]) 0x4000
       { t with kn := { t.kn with journal := s.kn.journal } }) := by
  have hown : msixOwn 0x4000 = false := by decide
  have hentry : applyEntry s .direct { ofs := 0x4000, data := leBytes 4 data } = applyElem s .direct ceilSpot [(0, data % 2 ^ 32)] := by
    simp [applyEntry, entryWords_word, elemsOf_ceil, wordsIn_ceil]
  have hkept : ([ceilSpot].any fun q => (regDomain q.place.id q.k q.i).isSome && !q.place.id.isHp) = false := rfl
  simp [registerWrite, hm, hown, entryWords_word, elemsOf_ceil, hentry, -List.any_cons, hkept]

/-- In a mode that takes it, a direct write of PW_CEIL writes its field alone. -/
theorem registerWrite_ceil_taken {s : State} (hm : s.mode ≠ mDORMANT) (ht : s.modeTakes .PW_CEIL = true) (data : Nat) :
    registerWrite s 0x4000 4 data = s.wr Reg.PW_CEIL_CEIL (data % 2 ^ 32) := by
  have hsame : (s.wr Reg.PW_CEIL_CEIL (data % 2 ^ 32)).rd Reg.HUB_WR_STAT_DISCARDS = s.rd Reg.HUB_WR_STAT_DISCARDS :=
    State.rd_wr_ne _ _ (by decide)
  rw [registerWrite_ceil hm, applyElem_ceil s .direct _ (fun _ => ht), oneDiscard_of_le _ hsame.le]
  rfl

/-- In a mode that does not, its discard is recorded; `oneDiscard` sets the count back, and counts the write once. -/
theorem registerWrite_ceil_discard {s : State} (hm : s.mode ≠ mDORMANT) (ht : s.modeTakes .PW_CEIL = false)
    (hn : s.rd Reg.HUB_WR_STAT_DISCARDS < 2 ^ 32 - 1) (data : Nat) :
    registerWrite s 0x4000 4 data =
      ((s.discard 0x4000).wr Reg.HUB_WR_STAT_DISCARDS (s.rd Reg.HUB_WR_STAT_DISCARDS)).discard 0x4000 := by
  have hmore : s.rd Reg.HUB_WR_STAT_DISCARDS < (s.discard 0x4000).rd Reg.HUB_WR_STAT_DISCARDS := by
    rw [State.rd_discard_count, satU]
    split <;> omega
  rw [registerWrite_ceil hm, applyElem_ceil_discard ht, oneDiscard_of_lt _ hmore]
  rfl

end Sys2Proof.Machine

namespace Sys2Proof

open Sys2Proof.Machine

/-- The modes in which the software may write outside the HP_ block take PW_CEIL (R415). -/
theorem modeTakes_ceil_of_mode {s : State} (h : s.mode = mBOOT ∨ s.mode = mSELFTEST ∨ s.mode = mSAFE ∨ s.mode = mCOMMISSION) :
    s.mode ≠ mDORMANT ∧ s.modeTakes .PW_CEIL = true := by
  have hhp : RegId.isHp .PW_CEIL = false := rfl
  rcases h with h | h | h | h <;>
    simp [State.modeTakes, State.runLike, hhp, h, mDORMANT, mBOOT, mSELFTEST, mSAFE, mCOMMISSION, mRUN, mDEGRADED, mSTOW]

/-- RUN, DEGRADED and STOW take the HP_ block alone (R16). -/
theorem modeTakes_ceil_of_runLike {s : State} (h : s.runLike = true) : s.mode ≠ mDORMANT ∧ s.modeTakes .PW_CEIL = false := by
  have hhp : RegId.isHp .PW_CEIL = false := rfl
  refine ⟨fun hd => ?_, by simp [State.modeTakes, hhp, h]⟩
  simp [State.runLike, hd, mDORMANT, mRUN, mDEGRADED, mSTOW] at h

theorem exec_registerWrite_misfit (s : State) {ofs size : Nat} (data : Nat) (ho : ofs < 0x100000) (hm : s.mode ≠ mDORMANT)
    (hfit : (size ≠ 4 ∧ size ≠ 8) ∨ ofs % size ≠ 0) : ∃ t, exec (.registerWrite ofs size data) s = .next t ∧
      t.rd Reg.HUB_WR_STAT_DISCARDS = satU 32 (s.rd Reg.HUB_WR_STAT_DISCARDS + 1) ∧ t.rd Reg.HUB_WR_STAT_LAST_OFS = ofs ∧
      t = { s with regs := t.regs } ∧ onlyRegs s t [Reg.HUB_WR_STAT_DISCARDS, Reg.HUB_WR_STAT_LAST_OFS] := by
  refine ⟨s.discard ofs, exec_registerWrite ho (registerWrite_misfit hm data hfit) rfl, s.rd_discard_count ofs, ?_, rfl,
    discard_onlyRegs s ofs⟩
  rw [State.rd_discard_ofs]
  exact Nat.mod_eq_of_lt (by omega)

theorem exec_registerWrite_ceil_taken (s : State) (data : Nat)
    (h : s.mode = mBOOT ∨ s.mode = mSELFTEST ∨ s.mode = mSAFE ∨ s.mode = mCOMMISSION) :
    ∃ t, exec (.registerWrite 0x4000 4 data) s = .next t ∧
      t.rd Reg.PW_CEIL_CEIL = data % 2 ^ 14 ∧ t = { s with regs := t.regs } ∧ onlyRegs s t [Reg.PW_CEIL_CEIL] := by
  obtain ⟨hm, ht⟩ := modeTakes_ceil_of_mode h
  refine ⟨_, exec_registerWrite (by decide) (registerWrite_ceil_taken hm ht data) rfl, ?_, rfl, onlyRegs_wr s _ _⟩
  rw [State.rd_wr_self]
  exact Nat.mod_mod_of_dvd data (by decide)

theorem exec_registerWrite_ceil_discard (s : State) (data : Nat) (h : s.runLike = true) (hn : s.rd Reg.HUB_WR_STAT_DISCARDS < 2 ^ 32 - 1) :
    ∃ t, exec (.registerWrite 0x4000 4 data) s = .next t ∧
      t.rd Reg.PW_CEIL_CEIL = s.rd Reg.PW_CEIL_CEIL ∧ t.rd Reg.HUB_WR_STAT_DISCARDS = s.rd Reg.HUB_WR_STAT_DISCARDS + 1 ∧
      t.rd Reg.HUB_WR_STAT_LAST_OFS = 0x4000 ∧ t = { s with regs := t.regs } ∧
      onlyRegs s t [Reg.HUB_WR_STAT_DISCARDS, Reg.HUB_WR_STAT_LAST_OFS] := by
  obtain ⟨hm, ht⟩ := modeTakes_ceil_of_runLike h
  have honly : onlyRegs s (((s.discard 0x4000).wr Reg.HUB_WR_STAT_DISCARDS (s.rd Reg.HUB_WR_STAT_DISCARDS)).discard 0x4000)
      [Reg.HUB_WR_STAT_DISCARDS, Reg.HUB_WR_STAT_LAST_OFS] :=
    onlyRegs_trans (onlyRegs_wr_of_mem (discard_onlyRegs s 0x4000) (by simp) _) (discard_onlyRegs _ 0x4000)
  refine ⟨_, exec_registerWrite (by decide) (registerWrite_ceil_discard hm ht hn data) rfl, honly _ (by decide), ?_,
    State.rd_discard_ofs _ _, rfl, honly⟩
  have hwidth : Reg.HUB_WR_STAT_DISCARDS.width = 32 := rfl
  rw [State.rd_discard_count, State.rd_wr_self, hwidth, Nat.mod_eq_of_lt (by omega), satU]
  split <;> omega

theorem exec_registerWrite_msix (s : State) {v w : Nat} (data : Nat) (hv : v < msixVectors) (hw : w < 4) (hd : s.domOn 25 = true)
    (ht : s.modeTakes .HP_CTRL = true) (hp : s.hp.vecPend.contains v = false) (hm : s.mode ≠ mDORMANT) :
    ∃ t, exec (.registerWrite (msixTable + 16 * v + 4 * w) 4 data) s = .next t ∧ t.msixWord (4 * v + w) = data % 2 ^ 32 ∧
      t = { s with hp := t.hp } := by
  have hin : msixTable + 16 * v + 4 * w < 0x100000 := by unfold msixVectors at hv; unfold msixTable; omega
  have hp' : s.hp.vecPend.contains ((4 * v + w) / 4) = false := by rwa [show (4 * v + w) / 4 = v by omega]
  have hw' := msixWrite_not_pending (data % 2 ^ 32) hp'
  refine ⟨_, exec_registerWrite hin (registerWrite_msix hm hd ht hv hw data) (by rw [hw']), ?_, by rw [hw']⟩
  rw [msixWrite_msixWord _ hp', Nat.mod_mod]

/-- Settles O45: each clause is what `registerWrite` or the gate of DISC_CLR does in its case. -/
theorem directWrites : Obligations.DirectWrites := by
  intro s
  refine ⟨fun ofs size data ho hd => exec_registerWrite ho (registerWrite_dormant hd ofs size data) rfl,
    fun ofs size data ho hm hfit => exec_registerWrite_misfit s data ho hm hfit,
    exec_registerWrite_ceil_taken s, exec_registerWrite_ceil_discard s,
    fun v w hv hw hd ht hp data hm => exec_registerWrite_msix s data hv hw hd ht hp hm, ?_, ?_⟩
  · intro src ht
    refine answer_of ?_
    rw [State.write_taken s _ ht]
    exact ⟨State.rd_clr_self s _, rfl, onlyRegs_wr s Reg.HUB_WR_STAT_DISCARDS 0⟩
  · intro ht
    refine answer_of ?_
    rw [State.write_discarded s _ ht]
    exact ⟨s.rd_discard_count _, rfl⟩

end Sys2Proof
end

