-- ==== Sys2Proof/Proofs/RegisterGate.lean ====
section
/-! PROOFS. The gate of register commands (R16, R415, R416, R419, R423): what a command leaves that its gate stops, and when the gate opens. -/

namespace Sys2Proof.Machine

/-- What a write that its gate stops leaves: a direct one its record (R416), one of a CFG_WRITE nothing (R419). -/
def State.shutWrite (s : State) (src : WrSrc) (r : RegId) (k i : Nat) : State := if src = .direct then s.discard (ofsOf r k i) else s

theorem State.write_shut (s : State) {src : WrSrc} {r : RegId} {k i : Nat} {l : Bool} (act : State → State)
    (h : s.takes src r k i l = false) : s.write src r k i l act = s.shutWrite src r k i := by
  simp [State.write, State.shutWrite, h]

theorem guardItem_write_shut {ok : Bool} (hok : ok = true) (s : State) {src : WrSrc} {r : RegId} {k i : Nat} {l : Bool}
    (act : State → State) (h : s.takes src r k i l = false) :
    guardItem ok (answer s (s.write src r k i l act)) = answer s (s.shutWrite src r k i) := by
  rw [hok, s.write_shut act h]; rfl

end Sys2Proof.Machine

namespace Sys2Proof
open Sys2Proof.Machine

/-- A command of a register whose gate is shut answers what its write leaves; three commands reach their gate by a way of their own. -/
theorem exec_of_shut {c : Instr} {s : State} {src : WrSrc} {r : RegId} {k i : Nat} {l : Bool} (hwf : c.wf = true)
    (hg : gateOf c = some (src, r, k, i, l)) (h : s.takes src r k i l = false) :
    exec c s = answer s (s.shutWrite src r k i) := by
  cases c
  case aoCodeWrite src' o code =>
    cases hg
    have hao : aoCodeWrite s src i code = s.shutWrite src .AO_CODE 0 i := by
      unfold aoCodeWrite
      split
      · next hc => simp_all [State.shutWrite]
      · exact s.write_shut _ h
    have hexec : exec (.aoCodeWrite src i code) s = guardItem (i < 16) (answer s (aoCodeWrite s src i code)) := rfl
    rw [hexec, hao, show decide (i < 16) = true from hwf]; rfl
  case lkBreakWrite src' n =>
    cases hg
    cases src
    · have hexec : exec (.lkBreakWrite .direct n) s = answer s (s.write .direct .LK_CTRL 0 0 false (fun t => breakLeash (t.wr Reg.LK_CTRL_N n) (n % 32))) := rfl
      rw [hexec, s.write_shut _ h]
    · rfl
  case hpCntClr src' clr =>
    cases hg
    cases src
    · have hexec : exec (.hpCntClr .direct clr) s = answer s (s.write .direct .HP_CNT_CLR 0 0 false (fun t => t.clearCnts hpCnts clr)) := rfl
      rw [hexec, s.write_shut _ h]
    · rfl
  case rdCurveData src' part w =>
    cases w
    · exact nomatch hg
    · cases hg; exact guardItem_write_shut hwf s _ h
  all_goals simp only [gateOf, Option.some.injEq, Prod.mk.injEq, reduceCtorEq] at hg
  all_goals
    obtain ⟨rfl, rfl, rfl, rfl, rfl⟩ := hg
    exact guardItem_write_shut hwf s _ h

theorem takes_of_off {s : State} {r : RegId} {k i d : Nat} (hr : regDomain r k i = some d) (hd : s.domOn d = false) (src : WrSrc) (l : Bool) :
    s.takes src r k i l = false := by
  simp [State.takes, State.regOn, hr, hd]

/-- A leash that another owner holds shuts the registers that it guards (R423). -/
theorem leashOpen_of_held {s : State} {n : Nat} {rs : List Res} (hn : n < 32) (hr : s.guards n ∈ rs) (hg : (s.guards n).1 ≠ 0)
    (hh : s.lkHeld n = true) (ho : s.rd (Reg.LK_STAT_OWNER n) ≠ 1) : s.leashOpen rs = false := by
  have hon : n ∈ rs.flatMap s.leashesOn := List.mem_flatMap.2 ⟨s.guards n, hr, by simp [State.leashesOn, hn, hg]⟩
  have hany : (rs.flatMap s.leashesOn).any (fun n => s.flag (Reg.LK_STAT_HELD n) && s.rd (Reg.LK_STAT_OWNER n) ≠ 1) = true :=
    List.any_eq_true.2 ⟨n, hon, by simpa [State.lkHeld] using ⟨hh, ho⟩⟩
  unfold State.leashOpen State.leashStatus
  dsimp only
  split_ifs <;> simp_all

theorem leashOpen_nil (s : State) : s.leashOpen [] = true := rfl

/-- Settles O57, by the write behind a gate that is shut. -/
theorem registerGate : Obligations.RegisterGate := by
  refine ⟨fun c s src r k i l hwf hg h => ⟨?_, ?_⟩, fun s r k i l => ⟨?_, ?_, ?_, ?_, ?_, ?_⟩⟩
  · rintro rfl
    rw [exec_of_shut hwf hg h]
    exact answer_of ⟨s.rd_discard_count _, s.rd_discard_ofs _, rfl, discard_onlyRegs s _⟩
  · rintro rfl
    exact exec_of_shut hwf hg h
  · intro hm hr
    simp [State.takes, State.modeTakes, hm, hr]
  · intro hm
    simp [State.takes, State.modeTakes, hm]
  · exact fun d src hr hd => takes_of_off hr hd src l
  · simp [State.takes]
  · intro hm hon hres
    have ht : s.modeTakes r = true := by
      rcases hm with hm | hm | hm <;>
        simp [State.modeTakes, State.runLike, hm, mSAFE, mCOMMISSION, mSELFTEST, mDORMANT, mBOOT, mRUN, mDEGRADED, mSTOW]
    simp [State.takes, hon, ht, hres, leashOpen_nil]
  · intro n hn hr hg hh ho
    simp [State.takes, leashOpen_of_held hn hr hg hh ho]
end Sys2Proof
end

