-- ==== Sys2Proof/Proofs/MotionEnds.lean ====
section
/-! PROOFS. The end of a motion (R262, R264, R268, R385): what the muzzle of axes may change, and where it leaves every axis. -/

namespace Sys2Proof.Machine

/-! ## What the end of a motion may change -/

/-- Bit addresses of the registers that the end of a motion and its completion write: the books of dropped completions, INTERRUPTS, and
STATE, POS_VALID, GROUP, INTERRUPTED, VEL, IA_SET and IB_SET of an axis. -/
def muzzleKey (k : Nat) : Prop :=
  k = Reg.HP_CNT_CPL_DROPPED.key ∨ k = Reg.HP_STAT_CPL_DROP.key ∨ k = Reg.DV_CNT_INTERRUPTS.key ∨
    8 * 0x60500 ≤ k ∧ k % 256 ∈ [0, 3, 5, 21, 64, 96, 112]

/-- A state without the parts that the end of a motion may change. -/
def State.sansMotion (s : State) : State :=
  { s with
    regs := [], out := []
    dv := { s.dv with axes := [], groups := [], groupNext := [] }
    pw := { s.pw with waits := [], releases := [] }
    bq := { s.bq with staged := [] }
    hp := { s.hp with inflight := [], cplWait := [], toAnnounce := false, vecNew := [] }
    ov := { s.ov with txq := [], msgId := [], kept := [] } }

/-- What of an axis the end of its motion leaves alone. -/
def Axis.sansMotion (x : Axis) : Axis :=
  { x with pos := 0, vel := 0, motion := .still, waiting := none, next := none, energise := false, seqFrom := 0, chopA := {}, chopB := {},
           stillSince := 0, runCur := false, on := false, duty := [], dutyWas := [], demand := 0 }

/-- `t` comes from `s` by ending motions: nothing else has changed, barks are added, and no axis is energised. -/
structure MotionEnds (s t : State) : Prop where
  rest : t.sansMotion = s.sansMotion
  rd : ∀ f : Fld, ¬ muzzleKey f.key → t.rd f = s.rd f
  staged : s.bq.staged <+: t.bq.staged
  axis : ∀ a, (t.axis a).sansMotion = (s.axis a).sansMotion
  off : ∀ a, (s.axis a).on = false → (t.axis a).on = false

theorem MotionEnds.refl (s : State) : MotionEnds s s :=
  ⟨rfl, fun _ _ => rfl, List.prefix_rfl, fun _ => rfl, fun _ h => h⟩

theorem MotionEnds.trans {s t u : State} (h : MotionEnds s t) (k : MotionEnds t u) : MotionEnds s u :=
  ⟨k.rest.trans h.rest, fun f hf => (k.rd f hf).trans (h.rd f hf), h.staged.trans k.staged, fun a => (k.axis a).trans (h.axis a),
    fun a ha => k.off a (h.off a ha)⟩

theorem MotionEnds.hub {s t : State} (h : MotionEnds s t) : t.hub = s.hub := by
  have hr := congrArg State.hub h.rest
  exact hr

theorem MotionEnds.run {s t : State} (h : MotionEnds s t) : t.run = s.run := by
  have hr := congrArg State.run h.rest
  exact hr

theorem MotionEnds.halted {s t : State} (h : MotionEnds s t) : t.halted = s.halted := by
  have hr := congrArg State.halted h.rest
  exact hr

/-- A register below DV_AX_STAT stays, but for the counters that the end of a motion advances. -/
theorem not_muzzleKey_of_lt {k : Nat} (h : k < 8 * 0x60500 ∧ k ∉ [Reg.HP_CNT_CPL_DROPPED.key, Reg.HP_STAT_CPL_DROP.key, Reg.DV_CNT_INTERRUPTS.key]) :
    ¬ muzzleKey k := by
  obtain ⟨hlt, hne⟩ := h
  simp only [List.mem_cons, List.not_mem_nil, or_false, not_or] at hne
  rintro (rfl | rfl | rfl | ⟨hle, -⟩)
  · exact hne.1 rfl
  · exact hne.2.1 rfl
  · exact hne.2.2 rfl
  · omega

/-- The other fields of DV_AX_STAT stay. -/
theorem not_muzzleKey_stat {k : Nat} (a n : Nat) (hk : k = 8 * (0x60500 + 32 * a) + n) (hn : n < 256 ∧ n ∉ [0, 3, 5, 21, 64, 96, 112]) :
    ¬ muzzleKey k := by
  have hmod : k % 256 = n := by omega
  rintro (h | h | h | ⟨-, h⟩)
  · have : Reg.HP_CNT_CPL_DROPPED.key < 8 * 0x60500 := by decide
    omega
  · have : Reg.HP_STAT_CPL_DROP.key < 8 * 0x60500 := by decide
    omega
  · have : Reg.DV_CNT_INTERRUPTS.key < 8 * 0x60500 := by decide
    omega
  · exact hn.2 (hmod ▸ h)

theorem axis_modAxis (s : State) (a b : Nat) (g : Axis → Axis) : (s.modAxis a g).axis b = if a = b then g (s.axis a) else s.axis b := by
  unfold State.modAxis State.axis
  split
  · next h => subst h; exact Sparse.get_put_self _ _ _ _
  · next h => exact Sparse.get_put_ne _ _ _ h _

theorem MotionEnds.foldl {α : Type} {f : State → α → State} (h : ∀ s a, MotionEnds s (f s a)) (l : List α) (s : State) :
    MotionEnds s (l.foldl f s) := by
  induction l generalizing s with
  | nil => exact .refl s
  | cons a l ih => exact (h s a).trans (ih _)

@[simp] theorem axis_modAxis_self (s : State) (a : Nat) (g : Axis → Axis) : (s.modAxis a g).axis a = g (s.axis a) :=
  (axis_modAxis s a a g).trans (if_pos rfl)

section
variable {s t : State} (h : MotionEnds s t)
include h

theorem MotionEnds.wr {f : Fld} {v : Nat} (hf : muzzleKey f.key) : MotionEnds s (t.wr f v) :=
  h.trans ⟨rfl, fun _ hg => State.rd_wr_ne t v fun he => hg (he ▸ hf), List.prefix_rfl, fun _ => rfl, fun _ h => h⟩

theorem MotionEnds.bark {src code : Nat} {warn : Bool} {p : List Nat} : MotionEnds s (t.bark src code warn p) :=
  h.trans ⟨rfl, fun _ _ => rfl, ⟨_, (State.bark_staged t src code warn p).symm⟩, fun _ => rfl, fun _ h => h⟩

theorem MotionEnds.withdraw {book cid : Nat} : MotionEnds s (t.withdraw book cid) :=
  h.trans ⟨rfl, fun _ _ => rfl, List.prefix_rfl, fun _ => rfl, fun _ h => h⟩

theorem MotionEnds.release {book cid keep : Nat} : MotionEnds s (t.release book cid keep) :=
  h.trans ⟨rfl, fun _ _ => rfl, List.prefix_rfl, fun _ => rfl, fun _ h => h⟩

theorem MotionEnds.modAxis {a : Nat} {g : Axis → Axis} (hg : ∀ x, (g x).sansMotion = x.sansMotion)
    (hoff : ∀ x, x.on = false → (g x).on = false) : MotionEnds s (t.modAxis a g) := by
  refine h.trans ⟨rfl, fun _ _ => rfl, List.prefix_rfl, fun b => ?_, fun b hb => ?_⟩ <;> rw [axis_modAxis]
  · split
    · next h => subst h; exact hg _
    · rfl
  · split
    · next h => subst h; exact hoff _ hb
    · exact hb

theorem MotionEnds.dropCpl {n : Nat} : MotionEnds s (t.dropCpl n) := by
  unfold State.dropCpl
  split
  · exact h
  · exact ((h.wr (.inl rfl)).wr (.inr (.inl rfl))).trans ⟨rfl, fun _ _ => rfl, List.prefix_rfl, fun _ => rfl, fun _ h => h⟩

/-- The completion of a command is part of the end of a motion. -/
theorem MotionEnds.complete {c : CmdHdr} {st : Status} {r e : Nat} : MotionEnds s (t.complete c st r e) := by
  have hleave (l : List Flight) (c : List Cpl) : MotionEnds s { t with hp := { t.hp with inflight := l, cplWait := c } } :=
    h.trans ⟨rfl, fun _ _ => rfl, List.prefix_rfl, fun _ => rfl, fun _ h => h⟩
  unfold State.complete
  split
  · dsimp only
    split
    · split
      · exact hleave _ _
      · exact (hleave _ t.hp.cplWait).dropCpl
    · exact h.trans ⟨rfl, fun _ _ => rfl, List.prefix_rfl, fun _ => rfl, fun _ h => h⟩
  · exact h

/-- A register of DV_AX_STAT that the end of a motion writes, by its bit. -/
theorem MotionEnds.stat (f : Nat → Fld) {a v : Nat} (n : Nat) (hk : (f a).key = 8 * (0x60500 + 32 * a) + n)
    (hn : n ∈ [0, 3, 5, 21, 64, 96, 112]) : MotionEnds s (t.wr (f a) v) := by
  have hlt : n < 256 := by
    simp only [List.mem_cons, List.not_mem_nil, or_false] at hn
    omega
  have hmod : (f a).key % 256 = n := by omega
  exact h.wr (.inr (.inr (.inr ⟨by omega, hmod ▸ hn⟩)))

theorem MotionEnds.state {a v : Nat} : MotionEnds s (t.wr (Reg.DV_AX_STAT_STATE a) v) :=
  h.stat Reg.DV_AX_STAT_STATE 0 rfl (by decide)

/-! ## The operations that end a motion -/

theorem MotionEnds.postEnd {a c : Nat} {m : Motion} : MotionEnds s (postEnd t a m c) := by
  unfold Machine.postEnd
  split
  · exact h
  · exact h.complete

theorem MotionEnds.endWaiting {a c : Nat} : MotionEnds s (endWaiting t a c) := by
  have hpost {u : State} (hu : MotionEnds s u) (o : Option Motion) :
      MotionEnds s (match o with | none => u | some m => Machine.postEnd u a m c) := by
    cases o
    · exact hu
    · exact hu.postEnd
  unfold Machine.endWaiting
  refine .withdraw (.modAxis (hpost (hpost h _) _) ?_ ?_)
  · exact fun _ => rfl
  · exact fun _ h => h

theorem MotionEnds.stopPulses {a c : Nat} : MotionEnds s (stopPulses t a c) := by
  unfold Machine.stopPulses
  split
  · refine .stat ?_ Reg.DV_AX_STAT_VEL 64 rfl (by decide)
    refine .state (.modAxis ?_ ?_ ?_)
    · refine .postEnd (.bark (.wr ?_ (.inr (.inr (.inl rfl)))))
      refine .stat (.stat ?_ Reg.DV_AX_STAT_POS_VALID 3 rfl (by decide)) Reg.DV_AX_STAT_INTERRUPTED 21 rfl (by decide)
      exact h.modAxis (fun _ => rfl) fun _ h => h
    · exact fun _ => rfl
    · exact fun _ h => h
  · exact h

theorem MotionEnds.deenergise {a st : Nat} : MotionEnds s (deenergise t a st) := by
  have hvalid (c : Bool) : MotionEnds s (t.when c fun u => u.clr (Reg.DV_AX_STAT_POS_VALID a)) := by
    cases c
    · exact h
    · exact h.stat Reg.DV_AX_STAT_POS_VALID 3 rfl (by decide)
  unfold Machine.deenergise
  refine .release (.modAxis ?_ ?_ ?_)
  · refine .stat (.stat ?_ Reg.DV_AX_STAT_IB_SET 112 rfl (by decide)) Reg.DV_AX_STAT_VEL 64 rfl (by decide)
    exact .stat (.state (hvalid _)) Reg.DV_AX_STAT_IA_SET 96 rfl (by decide)
  · exact fun _ => rfl
  · exact fun _ _ => rfl

end

/-- The members of a group stop. -/
def stopMembers (s : State) (g : Group) (c : Nat) : State :=
  g.members.foldl (fun w q => (stopPulses w q.1 c).clr (Reg.DV_AX_STAT_GROUP q.1)) s

/-- A group that waits for its budget gives its axes back. -/
def restMembers (s : State) (g : Group) : State :=
  g.members.foldl (fun w q => if w.axState q.1 = axWAIT then
    w.wr (Reg.DV_AX_STAT_STATE q.1) (if (w.axis q.1).on then axHOLD else axMUZZLED) else w) (s.withdraw 0 (axCid g.lead))

theorem motionEnds_stopMembers (s : State) (g : Group) (c : Nat) : MotionEnds s (stopMembers s g c) :=
  .foldl (fun s _ => .stat (MotionEnds.refl s).stopPulses Reg.DV_AX_STAT_GROUP 5 rfl (by decide)) g.members s

theorem motionEnds_restMembers (s : State) (g : Group) : MotionEnds s (restMembers s g) := by
  refine (MotionEnds.refl s).withdraw.trans (.foldl (fun s q => ?_) g.members _)
  split
  · exact (MotionEnds.refl s).state
  · exact .refl s

/-- One group of an axis ends. -/
def stopGroup (c : Nat) (u : State) (g : Group) : State :=
  let u1 := stopMembers u g c
  let done := (g.members.filter (fun q => axisP (u1.axis q.1) = q.2.1 + q.2.2)).foldl (fun n q => n + 2 ^ q.1) 0
  let u2 := if g.waiting then restMembers u1 g else u1
  u2.complete g.hdr (endStatus c g.deferred) done c

/-- The groups of an axis leave the card. -/
def dropGroups (s : State) (a : Nat) : State :=
  { s with dv := { s.dv with groups := s.dv.groups.filter (fun g => !bit g.mask a),
                             groupNext := s.dv.groupNext.filter (fun g => !bit g.mask a) } }

theorem stopGroupsOf_eq (s : State) (a c : Nat) :
    stopGroupsOf s a c = ((s.dv.groups ++ s.dv.groupNext).filter (fun g => bit g.mask a)).foldl (stopGroup c) (dropGroups s a) := rfl

theorem motionEnds_stopGroup (c : Nat) (s : State) (g : Group) : MotionEnds s (stopGroup c s g) := by
  refine .complete (.trans (motionEnds_stopMembers s g c) ?_)
  split
  · exact motionEnds_restMembers _ g
  · exact .refl _

theorem motionEnds_stopGroupsOf (s : State) (a c : Nat) : MotionEnds s (stopGroupsOf s a c) := by
  have hdrop : MotionEnds s (dropGroups s a) := ⟨rfl, fun _ _ => rfl, List.prefix_rfl, fun _ => rfl, fun _ h => h⟩
  rw [stopGroupsOf_eq]
  exact hdrop.trans (.foldl (motionEnds_stopGroup c) _ _)

/-- What of a muzzle comes before the axis is de-energised. -/
def endMotion (s : State) (a c : Nat) : State :=
  endWaiting (stopPulses (if s.inGroup a then stopGroupsOf s a c else s) a c) a c

theorem muzzleAxis_eq (s : State) (a st c : Nat) : muzzleAxis s a st c = deenergise (endMotion s a c) a st := rfl

theorem motionEnds_endMotion (s : State) (a c : Nat) : MotionEnds s (endMotion s a c) := by
  refine .endWaiting (.stopPulses ?_)
  split
  · exact motionEnds_stopGroupsOf s a c
  · exact .refl s

theorem motionEnds_muzzleAxis (s : State) (a st c : Nat) : MotionEnds s (muzzleAxis s a st c) := (motionEnds_endMotion s a c).deenergise

theorem motionEnds_muzzleLive (s : State) (a st c : Nat) : MotionEnds s (muzzleLive s a st c) := by
  unfold muzzleLive
  dsimp only
  split
  · exact .refl s
  · exact motionEnds_muzzleAxis s a st c

theorem motionEnds_muzzleAxes (s : State) (st c : Nat) : MotionEnds s (muzzleAxes s st c) :=
  .foldl (fun s a => motionEnds_muzzleLive s a st c) _ s

/-! ## The states of the axes -/

@[simp] theorem State.keepQueue_axState (t s : State) (a : Nat) : (t.keepQueue s).axState a = t.axState a := rfl
@[simp] theorem State.keepQueue_axis (t s : State) (a : Nat) : (t.keepQueue s).axis a = t.axis a := rfl
@[simp] theorem State.keepQueue_flag (t s : State) (f : Fld) : (t.keepQueue s).flag f = t.flag f := rfl
@[simp] theorem State.bark_axState (s : State) (src code : Nat) (w : Bool) (p : List Nat) (a : Nat) : (s.bark src code w p).axState a = s.axState a := rfl
@[simp] theorem State.bark_axis (s : State) (src code : Nat) (w : Bool) (p : List Nat) (a : Nat) : (s.bark src code w p).axis a = s.axis a := rfl
@[simp] theorem State.bark_flag (s : State) (src code : Nat) (w : Bool) (p : List Nat) (f : Fld) : (s.bark src code w p).flag f = s.flag f := rfl
@[simp] theorem State.modAxis_axState (s : State) (a b : Nat) (g : Axis → Axis) : (s.modAxis a g).axState b = s.axState b := rfl
@[simp] theorem State.modAxis_flag (s : State) (a : Nat) (g : Axis → Axis) (f : Fld) : (s.modAxis a g).flag f = s.flag f := rfl
@[simp] theorem State.wr_axis (s : State) (f : Fld) (v a : Nat) : (s.wr f v).axis a = s.axis a := rfl
@[simp] theorem State.keepQueue_halted (t s : State) : (t.keepQueue s).halted = t.halted := rfl

/-- Where an axis may stand after motions have ended: where it stood, or at rest if it moved or waited. -/
def restsFrom (x y : Nat) : Prop := y = x ∨ ((x = axMOVING ∨ x = axWAIT) ∧ (y = axHOLD ∨ y = axMUZZLED))

theorem restsFrom_trans {x y z : Nat} (h : restsFrom x y) (k : restsFrom y z) : restsFrom x z := by
  unfold restsFrom axMOVING axWAIT axHOLD axMUZZLED at *
  omega

theorem key_state_ne {a b : Nat} (h : a ≠ b) : (Reg.DV_AX_STAT_STATE a).key ≠ (Reg.DV_AX_STAT_STATE b).key := by
  simp only [Reg.DV_AX_STAT_STATE]
  omega

theorem axState_wr_stat (s : State) (f : Nat → Fld) (a b v n : Nat) (hk : (f a).key = 8 * (0x60500 + 32 * a) + n) (hn : n % 256 ≠ 0) :
    (s.wr (f a) v).axState b = s.axState b := by
  refine State.rd_wr_ne s v ?_
  rw [hk]
  simp only [Reg.DV_AX_STAT_STATE]
  omega

theorem axState_wr_state (s : State) (a b v : Nat) :
    (s.wr (Reg.DV_AX_STAT_STATE a) v).axState b = if a = b then v % 8 else s.axState b := by
  split
  · next h => subst h; exact State.rd_wr_self s _ v
  · next h => exact State.rd_wr_ne s v (key_state_ne h)

theorem axState_complete (s : State) (h : CmdHdr) (st : Status) (r e b : Nat) : (s.complete h st r e).axState b = s.axState b := by
  unfold State.complete
  split
  · dsimp only
    split
    · split
      · rfl
      · have hne1 : Reg.HP_CNT_CPL_DROPPED.key ≠ (Reg.DV_AX_STAT_STATE b).key := by simp only [Reg.HP_CNT_CPL_DROPPED, Reg.DV_AX_STAT_STATE]; omega
        have hne2 : Reg.HP_STAT_CPL_DROP.key ≠ (Reg.DV_AX_STAT_STATE b).key := by simp only [Reg.HP_STAT_CPL_DROP, Reg.DV_AX_STAT_STATE]; omega
        simp only [State.axState, State.dropCpl]
        exact (State.rd_set_ne _ hne2).trans (State.rd_countN_ne _ _ hne1)
    · rfl
  · rfl

theorem axState_postEnd (s : State) (a : Nat) (m : Motion) (c b : Nat) : (postEnd s a m c).axState b = s.axState b := by
  unfold postEnd
  split
  · rfl
  · exact axState_complete _ _ _ _ _ _

theorem axState_endWaiting (s : State) (a c b : Nat) : (endWaiting s a c).axState b = s.axState b := by
  have hpost (s : State) (o : Option Motion) : (match o with | none => s | some m => postEnd s a m c).axState b = s.axState b := by
    cases o
    · rfl
    · exact axState_postEnd _ _ _ _ _
  exact (hpost _ _).trans (hpost _ _)

theorem axState_stopPulses (s : State) (a c b : Nat) :
    (stopPulses s a c).axState b = if a = b ∧ s.axState a = axMOVING then axHOLD else s.axState b := by
  unfold stopPulses
  split
  · next hm =>
    have hcnt (u : State) (v : Nat) : (u.wr Reg.DV_CNT_INTERRUPTS v).axState b = u.axState b :=
      State.rd_wr_ne u v (by simp only [Reg.DV_CNT_INTERRUPTS, Reg.DV_AX_STAT_STATE]; omega)
    dsimp only
    rw [axState_wr_stat _ Reg.DV_AX_STAT_VEL a b 0 64 rfl (by decide), axState_wr_state]
    by_cases hab : a = b
    · simp [hab, hab ▸ hm, axHOLD]
    · simp only [hab, false_and, if_false]
      refine (axState_postEnd _ a _ c b).trans ((hcnt _ _).trans ?_)
      refine (axState_wr_stat _ Reg.DV_AX_STAT_INTERRUPTED a b 1 21 rfl (by decide)).trans ?_
      exact axState_wr_stat _ Reg.DV_AX_STAT_POS_VALID a b 0 3 rfl (by decide)
  · next hm => simp [hm]

theorem restsFrom_stopPulses (s : State) (a c b : Nat) : restsFrom (s.axState b) ((stopPulses s a c).axState b) := by
  rw [axState_stopPulses]
  split
  · next h => exact .inr ⟨.inl (h.1 ▸ h.2), .inl rfl⟩
  · exact .inl rfl

theorem restsFrom_foldl {α : Type} {f : State → α → State} (b : Nat) (h : ∀ s q, restsFrom (s.axState b) ((f s q).axState b)) (l : List α)
    (s : State) : restsFrom (s.axState b) ((l.foldl f s).axState b) := by
  induction l generalizing s with
  | nil => exact .inl rfl
  | cons q l ih => exact restsFrom_trans (h s q) (ih _)

theorem restsFrom_stopGroup (c : Nat) (s : State) (g : Group) (b : Nat) : restsFrom (s.axState b) ((stopGroup c s g).axState b) := by
  have hstop : restsFrom (s.axState b) ((stopMembers s g c).axState b) := by
    refine restsFrom_foldl b (fun s q => ?_) _ s
    rw [show (stopPulses s q.1 c).clr (Reg.DV_AX_STAT_GROUP q.1) = (stopPulses s q.1 c).wr (Reg.DV_AX_STAT_GROUP q.1) 0 from rfl,
      axState_wr_stat _ Reg.DV_AX_STAT_GROUP q.1 b 0 5 rfl (by decide)]
    exact restsFrom_stopPulses s q.1 c b
  have hrest (s : State) : restsFrom (s.axState b) ((restMembers s g).axState b) := by
    refine restsFrom_foldl b (fun w q => ?_) g.members (s.withdraw 0 (axCid g.lead))
    split
    · next hw =>
      rw [axState_wr_state]
      split
      · next h =>
        subst h
        refine .inr ⟨.inr hw, ?_⟩
        split
        · exact .inl rfl
        · exact .inr rfl
      · exact .inl rfl
    · exact .inl rfl
  unfold stopGroup
  dsimp only
  rw [axState_complete]
  split
  · exact restsFrom_trans hstop (hrest _)
  · exact hstop

theorem restsFrom_endMotion (s : State) (a c b : Nat) : restsFrom (s.axState b) ((endMotion s a c).axState b) := by
  have hgroups : restsFrom (s.axState b) ((if s.inGroup a then stopGroupsOf s a c else s).axState b) := by
    split
    · rw [stopGroupsOf_eq]
      exact restsFrom_foldl b (fun s g => restsFrom_stopGroup c s g b) _ (dropGroups s a)
    · exact .inl rfl
  unfold endMotion
  rw [axState_endWaiting]
  exact restsFrom_trans hgroups (restsFrom_stopPulses _ a c b)

theorem axState_deenergise (s : State) (a st b : Nat) : (deenergise s a st).axState b = if a = b then st % 8 else s.axState b := by
  have hvalid (s : State) (c : Bool) : (s.when c fun u => u.clr (Reg.DV_AX_STAT_POS_VALID a)).axState b = s.axState b := by
    cases c
    · rfl
    · exact axState_wr_stat s Reg.DV_AX_STAT_POS_VALID a b 0 3 rfl (by decide)
  have hlast (u : State) : (((u.wr (Reg.DV_AX_STAT_IA_SET a) 0).wr (Reg.DV_AX_STAT_IB_SET a) 0).wr (Reg.DV_AX_STAT_VEL a) 0).axState b = u.axState b :=
    (axState_wr_stat _ Reg.DV_AX_STAT_VEL a b 0 64 rfl (by decide)).trans
      ((axState_wr_stat _ Reg.DV_AX_STAT_IB_SET a b 0 112 rfl (by decide)).trans (axState_wr_stat _ Reg.DV_AX_STAT_IA_SET a b 0 96 rfl (by decide)))
  unfold deenergise
  refine (hlast _).trans ?_
  rw [axState_wr_state, hvalid]

theorem axis_deenergise_off (s : State) (a st : Nat) : ((deenergise s a st).axis a).on = false := by
  have hrel (u : State) (b c k : Nat) : (u.release b c k).axis a = u.axis a := rfl
  unfold deenergise
  dsimp only
  rw [hrel, axis_modAxis, if_pos rfl]

/-- A muzzled axis stands where it was sent. -/
theorem axState_muzzleAxis_self (s : State) (a c : Nat) {st : Nat} (h : st < 8) : (muzzleAxis s a st c).axState a = st := by
  rw [muzzleAxis_eq, axState_deenergise, if_pos rfl, Nat.mod_eq_of_lt h]

theorem axis_muzzleAxis_off (s : State) (a st c : Nat) : ((muzzleAxis s a st c).axis a).on = false := axis_deenergise_off _ a st

/-- The muzzle of one axis brings at most other members of its groups to rest. -/
theorem restsFrom_muzzleAxis {a b : Nat} (h : a ≠ b) (s : State) (st c : Nat) : restsFrom (s.axState b) ((muzzleAxis s a st c).axState b) := by
  rw [muzzleAxis_eq, axState_deenergise, if_neg h]
  exact restsFrom_endMotion s a c b

theorem restsFrom_muzzleLive {a b : Nat} (h : a ≠ b) (s : State) (st c : Nat) : restsFrom (s.axState b) ((muzzleLive s a st c).axState b) := by
  unfold muzzleLive
  dsimp only
  split
  · exact .inl rfl
  · exact restsFrom_muzzleAxis h s st c

/-- A state in which no muzzle finds an axis to drive. -/
def idleState (x : Nat) : Prop := x = axOFF ∨ x = axFAULT ∨ x = axLOCKOUT

theorem muzzleLive_self (s : State) (a c : Nat) {st : Nat} (h : st < 8) :
    (idleState (s.axState a) ∧ muzzleLive s a st c = s) ∨ (¬ idleState (s.axState a) ∧ (muzzleLive s a st c).axState a = st ∧
      ((muzzleLive s a st c).axis a).on = false) := by
  unfold muzzleLive
  dsimp only
  split
  · next hi => exact .inl ⟨by simpa [idleState, or_assoc] using hi, rfl⟩
  · next hi =>
    exact .inr ⟨by simpa [idleState, or_assoc] using hi, axState_muzzleAxis_self s a c h, axis_muzzleAxis_off s a st c⟩

/-- Where a rest state, which is no driving state, is left alone by the muzzle of other axes. -/
theorem restsFrom_eq {x y : Nat} (h : restsFrom x y) (hm : x ≠ axMOVING) (hw : x ≠ axWAIT) : y = x := by
  rcases h with h | ⟨h | h, -⟩
  · exact h
  · exact absurd h hm
  · exact absurd h hw

theorem idleState_iff_of_restsFrom {x y : Nat} (h : restsFrom x y) : idleState y ↔ idleState x := by
  unfold restsFrom idleState axOFF axFAULT axLOCKOUT axMOVING axWAIT axHOLD axMUZZLED at *
  omega

/-- The states that the muzzle of all axes leaves. -/
def muzzledState (x : Nat) : Prop := x = axMUZZLED ∨ x = axHALTED

/-- What the muzzle of a list of axes makes of one axis: it keeps an idle state, and else stands muzzled if it is in the list, or was so. -/
theorem muzzleFold {st : Nat} (hst : muzzledState st) (c a : Nat) (l : List Nat) (s : State) :
    (idleState (s.axState a) → (l.foldl (fun u a => muzzleLive u a st c) s).axState a = s.axState a) ∧
    (¬ idleState (s.axState a) → a ∈ l ∨ (s.axState a = st ∧ (s.axis a).on = false) →
      (l.foldl (fun u a => muzzleLive u a st c) s).axState a = st ∧ ((l.foldl (fun u a => muzzleLive u a st c) s).axis a).on = false) := by
  have hlt : st < 8 ∧ ¬ idleState st ∧ st ≠ axMOVING ∧ st ≠ axWAIT := by
    unfold muzzledState axMUZZLED axHALTED at hst
    unfold idleState axOFF axFAULT axLOCKOUT axMOVING axWAIT
    omega
  obtain ⟨hlt, hni, hm, hw⟩ := hlt
  induction l generalizing s with
  | nil => exact ⟨fun _ => rfl, fun _ h => h.resolve_left (by simp)⟩
  | cons b l ih =>
    obtain ⟨ihIdle, ihLive⟩ := ih (muzzleLive s b st c)
    rw [List.foldl_cons]
    by_cases hb : b = a
    · subst hb
      rcases muzzleLive_self s b c hlt with ⟨hi, he⟩ | ⟨hi, he, hoff⟩
      · rw [he] at ihIdle ihLive ⊢
        exact ⟨ihIdle, fun hn => absurd hi hn⟩
      · exact ⟨fun hn => absurd hn hi, fun _ _ => ihLive (by rw [he]; exact hni) (.inr ⟨he, hoff⟩)⟩
    · have hr := restsFrom_muzzleLive hb s st c
      refine ⟨fun hi => ?_, fun hi hor => ihLive (fun h => hi ((idleState_iff_of_restsFrom hr).1 h)) (hor.imp (fun h => ?_) fun ⟨h1, h2⟩ => ?_)⟩
      · rw [ihIdle ((idleState_iff_of_restsFrom hr).2 hi)]
        unfold idleState axOFF axFAULT axLOCKOUT at hi
        exact restsFrom_eq hr (by unfold axMOVING; omega) (by unfold axWAIT; omega)
      · exact (List.mem_cons.1 h).resolve_left (Ne.symm hb)
      · exact ⟨(restsFrom_eq hr (h1 ▸ hm) (h1 ▸ hw)).trans h1, (motionEnds_muzzleLive s b st c).off a h2⟩

/-- After the muzzle of every axis, one that was idle is as it was. -/
theorem axState_muzzleAxes_idle {s : State} {st a : Nat} (hst : muzzledState st) (c : Nat) (hi : idleState (s.axState a)) :
    (muzzleAxes s st c).axState a = s.axState a := (muzzleFold hst c a _ s).1 hi

/-- After the muzzle of every axis, one that was not idle stands muzzled, with its phases off. -/
theorem muzzleAxes_live {s : State} {st a : Nat} (hst : muzzledState st) (c : Nat) (ha : a < 16) (hi : ¬ idleState (s.axState a)) :
    (muzzleAxes s st c).axState a = st ∧ ((muzzleAxes s st c).axis a).on = false :=
  (muzzleFold hst c a _ s).2 hi (.inl (List.mem_range.2 ha))

/-- After the muzzle of every axis none drives. -/
theorem muzzleAxes_rests (s : State) {st a : Nat} (hst : muzzledState st) (c : Nat) (ha : a < 16) :
    (muzzleAxes s st c).axState a ≠ axHOLD ∧ (muzzleAxes s st c).axState a ≠ axMOVING ∧ (muzzleAxes s st c).axState a ≠ axWAIT := by
  by_cases hi : idleState (s.axState a)
  · rw [axState_muzzleAxes_idle hst c hi]
    unfold idleState axOFF axFAULT axLOCKOUT at hi
    unfold axHOLD axMOVING axWAIT
    omega
  · rw [(muzzleAxes_live hst c ha hi).1]
    unfold muzzledState axMUZZLED axHALTED at hst
    unfold axHOLD axMOVING axWAIT
    omega

end Sys2Proof.Machine
end

