-- ==== Sys2Proof/Proofs/Halt.lean ====
section
/-! PROOFS. /HALT (R19, R270, R403). -/

namespace Sys2Proof.Machine

theorem axState_wr_card (s : State) {f : Fld} (hf : f.key < 8 * 0x60500) (v a : Nat) : (s.wr f v).axState a = s.axState a :=
  State.rd_wr_ne s v (by simp only [Reg.DV_AX_STAT_STATE]; omega)

/-- One channel of /HALT is asserted. -/
def haltOn (s : State) (ch : Nat) : State :=
  (haltWatch s { s with dv := { s.dv with haltA := s.dv.haltA || ch = 0, haltB := s.dv.haltB || ch = 1 } }).set Reg.DV_CARD_STAT_HALT

theorem haltAssert_eq (s : State) (ch : Nat) :
    haltAssert s ch = if s.halted then haltOn s ch else (muzzleAxes (haltOn s ch) axHALTED ecHALTED).bark 0x30 0x300A true [] := rfl

theorem haltOn_halted {ch : Nat} (h : ch < 2) (s : State) : (haltOn s ch).halted = true := by
  have hch : ch = 0 ∨ ch = 1 := by omega
  have hor : (haltOn s ch).halted = ((s.dv.haltA || ch = 0) || (s.dv.haltB || ch = 1)) := rfl
  rw [hor]
  rcases hch with rfl | rfl <;> simp

theorem haltOn_flag (s : State) (ch : Nat) : (haltOn s ch).flag Reg.DV_CARD_STAT_HALT = true := by
  rw [haltOn, State.flag, State.rd_set_self]; rfl

/-- One channel of /HALT is released. -/
def haltOff (s : State) (ch : Nat) : State :=
  haltWatch s { s with dv := { s.dv with haltA := s.dv.haltA && ch ≠ 0, haltB := s.dv.haltB && ch ≠ 1 } }

/-- The halted axes read MUZZLED. -/
def unhaltAxes (s : State) : State :=
  (List.range 16).foldl (fun u a => if u.axState a = axHALTED then u.wr (Reg.DV_AX_STAT_STATE a) axMUZZLED else u) s

theorem haltRelease_eq (s : State) (ch : Nat) :
    haltRelease s ch = if (haltOff s ch).halted then haltOff s ch else unhaltAxes ((haltOff s ch).clr Reg.DV_CARD_STAT_HALT) := rfl

theorem haltOff_halted (s : State) (ch : Nat) : (haltOff s ch).halted = ((s.dv.haltA && ch ≠ 0) || (s.dv.haltB && ch ≠ 1)) := rfl

/-- The states of the listed axes after a release. -/
theorem unhalt_fold (l : List Nat) (s : State) (a : Nat) :
    (l.foldl (fun u a => if u.axState a = axHALTED then u.wr (Reg.DV_AX_STAT_STATE a) axMUZZLED else u) s).axState a =
      if a ∈ l ∧ s.axState a = axHALTED then axMUZZLED else s.axState a := by
  induction l generalizing s with
  | nil => simp
  | cons b l ih =>
    rw [List.foldl_cons, ih]
    by_cases hb : s.axState b = axHALTED
    · rw [if_pos hb, axState_wr_state]
      by_cases hab : b = a
      · subst hab; simp [hb, axMUZZLED, axHALTED]
      · simp [hab, Ne.symm hab]
    · rw [if_neg hb]
      by_cases hab : b = a
      · subst hab; simp [hb]
      · simp [Ne.symm hab]

theorem axState_unhaltAxes (s : State) {a : Nat} (ha : a < 16) :
    (unhaltAxes s).axState a = if s.axState a = axHALTED then axMUZZLED else s.axState a := by
  rw [unhaltAxes, unhalt_fold]
  simp [List.mem_range.2 ha]

/-- A release changes registers from DV_AX_STAT on alone. -/
theorem unhaltAxes_frame (s : State) : ∃ r, unhaltAxes s = { s with regs := r } ∧
    ∀ f : Fld, f.key < 8 * 0x60500 → State.rd { s with regs := r } f = s.rd f := by
  have key (l : List Nat) (s : State) : ∃ r, l.foldl (fun u a => if u.axState a = axHALTED then u.wr (Reg.DV_AX_STAT_STATE a) axMUZZLED else u) s =
      { s with regs := r } ∧ ∀ f : Fld, f.key < 8 * 0x60500 → State.rd { s with regs := r } f = s.rd f := by
    induction l generalizing s with
    | nil => exact ⟨s.regs, rfl, fun _ _ => rfl⟩
    | cons b l ih =>
      rw [List.foldl_cons]
      split
      · obtain ⟨r, he, hr⟩ := ih (s.wr (Reg.DV_AX_STAT_STATE b) axMUZZLED)
        refine ⟨r, he, fun f hf => (hr f hf).trans (State.rd_wr_ne s _ ?_)⟩
        simp only [Reg.DV_AX_STAT_STATE]
        omega
      · exact ih s
  exact key (List.range 16) s

end Sys2Proof.Machine

namespace Sys2Proof
open Sys2Proof.Machine

/-- Settles O33. -/
theorem halt : Obligations.Halt := by
  intro s ch hch
  refine ⟨fun hno => ?_, fun hyes => ?_, fun hB hA => ?_, fun hother => ?_, fun t0 hdis hlong hbark => ?_⟩
  · have hm := motionEnds_muzzleAxes (haltOn s ch) axHALTED ecHALTED
    have hlive (a : Nat) := muzzleAxes_live (s := haltOn s ch) (a := a) (.inr rfl) ecHALTED
    have hrd := hm.rd Reg.DV_CARD_STAT_HALT (not_muzzleKey_of_lt (by decide))
    refine guard_of (decide_eq_true hch) ?_
    rw [haltAssert_eq, if_neg (by simp [hno])]
    generalize muzzleAxes (haltOn s ch) axHALTED ecHALTED = u at *
    refine ⟨hm.halted.trans (haltOn_halted hch s), ?_, lastBark_bark _ _ _ _ _, fun a ha hoff hfault hlock => ?_⟩
    · exact (congrArg (fun n => decide (n = 1)) hrd).trans (haltOn_flag s ch)
    · have hst : (haltOn s ch).axState a = s.axState a := axState_wr_card _ (by decide) 1 a
      exact hlive a ha (by rw [hst]; simp [idleState, hoff, hfault, hlock])
  · refine guard_of (decide_eq_true hch) ?_
    rw [haltAssert_eq, if_pos hyes]
    refine ⟨haltOn_halted hch s, haltOn_flag s ch, rfl, ?_⟩
    exact onlyRegs_wr s Reg.DV_CARD_STAT_HALT 1
  · have hoff : (haltOff s ch).halted = false := by
      have hch' : ch = 0 ∨ ch = 1 := by omega
      rw [haltOff_halted]
      rcases hch' with rfl | rfl
      · simp [hB]
      · simp [hA]
    obtain ⟨r, hframe, hlow⟩ := unhaltAxes_frame ((haltOff s ch).clr Reg.DV_CARD_STAT_HALT)
    have hst (a : Nat) := axState_unhaltAxes ((haltOff s ch).clr Reg.DV_CARD_STAT_HALT) (a := a)
    refine guard_of (decide_eq_true hch) ?_
    rw [haltRelease_eq, if_neg (by simp [hoff])]
    rw [hframe] at hst ⊢
    refine ⟨hoff, ?_, fun a ha hs => ?_, rfl⟩
    · rw [State.keepQueue_flag, State.flag, hlow _ (by decide), State.rd_clr_self]
      rfl
    · have h0 : ((haltOff s ch).clr Reg.DV_CARD_STAT_HALT).axState a = s.axState a := axState_wr_card _ (by decide) 0 a
      rw [State.keepQueue_axState, hst a ha, h0, if_pos hs]
  · have hon : (haltOff s ch).halted = true := by
      rw [haltOff_halted]
      rcases hother with ⟨rfl, h⟩ | ⟨rfl, h⟩ <;> simp [h]
    refine guard_of (decide_eq_true hch) ?_
    rw [haltRelease_eq, if_pos hon]
    exact ⟨hon, rfl⟩
  · have hcall : haltDiscrepancy s = ({ s with dv := { s.dv with haltBarked := some (if s.dv.haltA then 0 else 1) } }).bark 0x30 0x3012 true
        [if s.dv.haltA then 0 else 1] := by simp [haltDiscrepancy, hdis, hlong, hbark]
    refine answer_of ?_
    rw [hcall]
    exact ⟨barks_bark s _ _ _ _ _ rfl rfl, rfl, rfl⟩
end Sys2Proof
end

