-- ==== Sys2Proof/Proofs/FieldFacts.lean ====
section
/-! PROOFS. Bits, signed fields, rare barks and the frame of registers: facts that the drives, the domains and the parts share. -/

namespace Sys2Proof.Machine

/-! ## Bits -/

theorem bit_eq_testBit (n i : Nat) : bit n i = n.testBit i := by
  rw [bit, Nat.testBit_eq_decide_div_mod_eq]

theorem bit_mod {n w i : Nat} (h : i < w) : bit (n % 2 ^ w) i = bit n i := by
  simp [bit_eq_testBit, Nat.testBit_mod_two_pow, h]

theorem setBit_eq (n d : Nat) (v : Bool) : setBit n d v = 2 ^ d * (b2n v + 2 * (n / 2 ^ (d + 1))) + n % 2 ^ d := by
  have hv : b2n v % 2 ^ 1 = b2n v := by cases v <;> rfl
  rw [setBit, setBits, hv]
  ring

/-- A bit that is set or cleared, and the others as they were. -/
theorem bit_setBit (n d e : Nat) (v : Bool) : bit (setBit n d v) e = if e = d then v else bit n e := by
  rw [bit_eq_testBit, bit_eq_testBit, setBit_eq, Nat.testBit_two_pow_mul_add _ (Nat.mod_lt n (Nat.two_pow_pos d))]
  rcases Nat.lt_trichotomy e d with hlt | rfl | hgt
  · simp [hlt, Nat.ne_of_lt hlt, Nat.testBit_mod_two_pow]
  · cases v <;> simp [b2n, Nat.testBit_zero]
  · obtain ⟨k, rfl⟩ : ∃ k, e = d + (k + 1) := ⟨e - d - 1, by omega⟩
    have hb : b2n v < 2 := by cases v <;> decide
    have hq : (b2n v + 2 * (n / 2 ^ (d + 1))) / 2 = n / 2 ^ (d + 1) := by omega
    have hsub : d + (k + 1) - d = k + 1 := by omega
    rw [if_neg (by omega), if_neg (by omega), hsub, Nat.testBit_succ, hq, Nat.testBit_div_two_pow]
    congr 1
    omega

/-! ## Signed fields -/

/-- A number in the range of its width is read back. -/
theorem signed_unsigned {w : Nat} {i : Int} (hw : 0 < w) (hlo : -((2 ^ (w - 1) : Nat) : Int) ≤ i) (hhi : i ≤ ((2 ^ (w - 1) : Nat) : Int) - 1) :
    signed w (unsigned w i % 2 ^ w) = i := by
  obtain ⟨k, rfl⟩ : ∃ k, w = k + 1 := ⟨w - 1, by omega⟩
  have hp : (2 : Nat) ^ (k + 1) = 2 * 2 ^ k := Nat.pow_succ'
  have hpos : 0 < 2 ^ k := Nat.two_pow_pos k
  simp only [Nat.add_sub_cancel] at hlo hhi
  unfold signed unsigned
  rw [hp]
  generalize 2 ^ k = m at *
  have hmod : i % ((2 * m : Nat) : Int) = if 0 ≤ i then i else i + (2 * m : Nat) := by
    split
    · exact Int.emod_eq_of_lt (by omega) (by omega)
    · rw [← Int.add_emod_right, Int.emod_eq_of_lt (by omega) (by omega)]
  have hlt : (i % ((2 * m : Nat) : Int)).toNat < 2 * m := by rw [hmod]; split <;> omega
  dsimp only
  rw [Nat.mod_mod, Nat.mod_eq_of_lt hlt, hmod]
  split <;> split <;> omega

theorem satS_range {w : Nat} (i : Int) : -((2 ^ (w - 1) : Nat) : Int) ≤ satS w i ∧ satS w i ≤ ((2 ^ (w - 1) : Nat) : Int) - 1 := by
  have hpos : 0 < 2 ^ (w - 1) := Nat.two_pow_pos _
  unfold satS clamp
  omega

/-- A signed field is read as it was written, at the ends of its range where it passes them. -/
theorem State.rdS_wrS_self (s : State) {f : Fld} {n : Nat} (i : Int) (hf : f.width = n + 1 := by rfl) : (s.wrS f i).rdS f = satS f.width i := by
  rw [State.rdS, State.wrS, State.rd_wr_self]
  exact signed_unsigned (by omega) (satS_range i).1 (satS_range i).2

/-! ## Flags -/

theorem State.flag_set_self (s : State) {f : Fld} (hf : f.width = 1 := by rfl) : (s.set f).flag f = true := by
  rw [State.flag, State.rd_set_self, hf]
  rfl

theorem State.flag_clr_self (s : State) (f : Fld) : (s.clr f).flag f = false := by
  rw [State.flag, State.rd_clr_self]
  rfl

theorem State.flag_set_ne (s : State) {f g : Fld} (h : f.key ≠ g.key) : (s.set f).flag g = s.flag g := by
  rw [State.flag, State.rd_set_ne s h]
  rfl

theorem State.flag_count_ne (s : State) {f g : Fld} (h : f.key ≠ g.key) : (s.count f).flag g = s.flag g := by
  rw [State.flag, State.rd_count_ne s h]
  rfl

theorem State.flag_wr_ne (s : State) {f g : Fld} (v : Nat) (h : f.key ≠ g.key) : (s.wr f v).flag g = s.flag g := by
  rw [State.flag, State.rd_wr_ne s v h]
  rfl

/-- Flags of fields that read alike are alike. -/
theorem State.flag_congr {s t : State} {f : Fld} (h : t.rd f = s.rd f) : t.flag f = s.flag f := by
  rw [State.flag, h]
  rfl

@[simp] theorem State.barkEvery_flag (s : State) (span elem src code : Nat) (w : Bool) (p : List Nat) (f : Fld) :
    (s.barkEvery span elem src code w p).flag f = s.flag f := by
  rw [State.flag, State.barkEvery_rd]
  rfl

@[simp] theorem State.barkEvery_axState (s : State) (span elem src code : Nat) (w : Bool) (p : List Nat) (a : Nat) :
    (s.barkEvery span elem src code w p).axState a = s.axState a := State.barkEvery_rd _ _ _ _ _ _ _ _

end Sys2Proof.Machine

namespace Sys2Proof

open Sys2Proof.Machine

/-! ## Rare barks -/

@[simp] theorem barksRarely_keepQueue (s t u : State) (span elem a b : Nat) : barksRarely s (t.keepQueue u) span elem a b = barksRarely s t span elem a b := rfl

/-- A rare bark over registers that have changed: it is staged, or the bark queue is as it was. -/
theorem barksRarely_barkEvery (s t : State) (span elem src code : Nat) (warn : Bool) (p : List Nat) (hbq : t.bq = s.bq := by rfl)
    (hrun : t.run = s.run := by rfl) (hnow : t.now = s.now := by rfl) : barksRarely s (t.barkEvery span elem src code warn p) span elem src code := by
  have helapsed (n : Nat) : t.elapsed n span = s.elapsed n span := by rw [State.elapsed, hrun]; rfl
  unfold barksRarely State.barkEvery
  dsimp only
  rw [hbq, helapsed]
  by_cases h : s.bq.last.get 0 (barkKey code elem) = 0 ∨ s.elapsed (s.bq.last.get 0 (barkKey code elem) - 1) span = true
  · rw [if_pos h, if_pos (by simpa using h)]
    exact barks_bark _ _ _ _ _ _ rfl hnow
  · rw [if_neg h, if_neg (by simpa using h)]
    exact hbq

/-- A rare bark changes the bark queue alone. -/
theorem barkEvery_frame (s : State) (span elem src code : Nat) (warn : Bool) (p : List Nat) :
    s.barkEvery span elem src code warn p = { s with bq := (s.barkEvery span elem src code warn p).bq } := by
  unfold State.barkEvery
  dsimp only
  split <;> rfl

/-! ## Frames of registers -/

/-- A state with the same registers reads alike. -/
theorem onlyRegs_of_rd {s t u : State} {fs : List Fld} (h : onlyRegs s t fs) (hu : ∀ f, u.rd f = t.rd f) : onlyRegs s u fs :=
  fun f hf => (hu f).trans (h f hf)

theorem onlyRegs_mono {s t : State} {fs gs : List Fld} (h : onlyRegs s t fs) (hs : fs ⊆ gs) : onlyRegs s t gs :=
  fun f hf => h f fun hm => hf (List.map_subset _ hs hm)

end Sys2Proof
end

