-- ==== Sys2Proof/Proofs/DriveFaults.lean ====
section
/-! PROOFS. Faults of the drive card (R19, R252, R258, R270, R403). -/

namespace Sys2Proof.Machine

/-! ## Fields of DV_AX_STAT -/

/-- Fields of DV_AX_STAT at different bits are different fields. -/
theorem key_stat_ne {j k : Nat} (a b m n : Nat) (hj : j = 8 * (0x60500 + 32 * a) + m) (hk : k = 8 * (0x60500 + 32 * b) + n) (h : m % 256 ≠ n % 256) :
    j ≠ k := by omega

/-- A field below DV_AX_STAT is none of it. -/
theorem key_card_ne {j k : Nat} (a m : Nat) (hj : j = 8 * (0x60500 + 32 * a) + m) (hk : k < 8 * 0x60500) : j ≠ k := by omega

/-- Fields of one axis have different bits. -/
theorem stat_ne (f g : Nat → Fld) (a : Nat) {m n : Nat} (hf : (f a).key = 8 * (0x60500 + 32 * a) + m) (hg : (g a).key = 8 * (0x60500 + 32 * a) + n)
    (h : m % 256 ≠ n % 256) : (f a).key ≠ (g a).key := key_stat_ne a a m n hf hg h

end Sys2Proof.Machine
namespace Sys2Proof
open Sys2Proof.Machine

/-! ## Half-bridge conflicts (R258) -/

/-- The conflicts of the last 60 s, this one among them. -/
def recentConflicts (s : State) (a : Nat) : List Nat := (s.axis a).conflicts.filter (fun t => s.run < t + 60 * cclkSec) ++ [s.run]

theorem hbConflict_eq {s : State} {a : Nat} (h : s.axState a ≠ axLOCKOUT) :
    ∃ code, hbConflict s a = ((muzzleAxis ((s.set (Reg.DV_AX_STAT_HB_CONFLICT a)).count Reg.DV_CNT_HB_CONFLICTS) a
      (if 3 ≤ (recentConflicts s a).length then axLOCKOUT else axFAULT) ecFAULT).modAxis a
        fun y => { y with conflicts := recentConflicts s a }).bark 0x30 code true [a] := by
  unfold hbConflict
  dsimp only
  rw [if_neg h]
  by_cases h3 : 3 ≤ (recentConflicts s a).length
  · have h3' : 3 ≤ ((s.axis a).conflicts.filter (fun t => s.run < t + 60 * cclkSec) ++ [s.run]).length := h3
    simp only [h3, h3', decide_true, if_true]
    exact ⟨_, rfl⟩
  · have h3' : ¬ 3 ≤ ((s.axis a).conflicts.filter (fun t => s.run < t + 60 * cclkSec) ++ [s.run]).length := h3
    simp only [h3, h3', decide_false, Bool.false_eq_true, if_false]
    exact ⟨_, rfl⟩

theorem exec_dvHbConflict (s : State) {a : Nat} (ha : a < 16) (h : s.axState a ≠ axLOCKOUT) :
    ∃ t, exec (.dvHbConflict a) s = .next t ∧ t.flag (Reg.DV_AX_STAT_HB_CONFLICT a) = true ∧
      t.rd Reg.DV_CNT_HB_CONFLICTS = satU 32 (s.rd Reg.DV_CNT_HB_CONFLICTS + 1) ∧ (t.axis a).on = false ∧
      t.axState a = (if 2 ≤ ((s.axis a).conflicts.filter (fun t => s.run < t + 60 * cclkSec)).length then axLOCKOUT else axFAULT) := by
  obtain ⟨code, hcall⟩ := hbConflict_eq h
  refine guard_of (decide_eq_true ha) ?_
  rw [hcall]
  have hm := motionEnds_muzzleAxis ((s.set (Reg.DV_AX_STAT_HB_CONFLICT a)).count Reg.DV_CNT_HB_CONFLICTS) a
    (if 3 ≤ (recentConflicts s a).length then axLOCKOUT else axFAULT) ecFAULT
  have hst := axState_muzzleAxis_self ((s.set (Reg.DV_AX_STAT_HB_CONFLICT a)).count Reg.DV_CNT_HB_CONFLICTS) a ecFAULT
    (st := if 3 ≤ (recentConflicts s a).length then axLOCKOUT else axFAULT) (by split <;> decide)
  have hon := axis_muzzleAxis_off ((s.set (Reg.DV_AX_STAT_HB_CONFLICT a)).count Reg.DV_CNT_HB_CONFLICTS) a
    (if 3 ≤ (recentConflicts s a).length then axLOCKOUT else axFAULT) ecFAULT
  generalize muzzleAxis _ a _ ecFAULT = u at hm hst hon ⊢
  have hne : (Reg.DV_AX_STAT_HB_CONFLICT a).key ≠ Reg.DV_CNT_HB_CONFLICTS.key := key_card_ne a 16 rfl (by decide)
  refine ⟨?_, ?_, ?_, ?_⟩
  · have hrd : u.rd (Reg.DV_AX_STAT_HB_CONFLICT a) = 1 := by
      rw [hm.rd _ (not_muzzleKey_stat a 16 rfl (by decide)), State.rd_count_ne _ hne.symm, State.rd_set_self]
      rfl
    exact decide_eq_true hrd
  · refine (hm.rd _ (not_muzzleKey_of_lt (by decide))).trans ?_
    rw [State.rd_count_self, State.rd_set_ne _ hne]
    rfl
  · rw [State.keepQueue_axis, State.bark_axis, axis_modAxis_self]
    exact hon
  · refine (show _ = u.axState a from rfl).trans (hst.trans ?_)
    have hlen : (recentConflicts s a).length = ((s.axis a).conflicts.filter (fun t => s.run < t + 60 * cclkSec)).length + 1 := by
      simp [recentConflicts]
    simp only [hlen, Nat.reduceLeDiff]

/-! ## Overcurrent (R270) -/

theorem exec_dvOvercurrent_heater (s : State) {a out ma : Nat} (ha : a < 16) (ho : out < 4) (hu : (s.axis a).useNow = 2) (hma : 3000 < ma) :
    ∃ t, exec (.dvOvercurrent a out ma) s = .next t ∧ bit (t.rd (Reg.DV_AX_STAT_HEAT_OFF a)) out = true ∧
      t.flag (Reg.DV_AX_STAT_HEAT_SHORT a) = true ∧ t.flag (Reg.DV_AX_STAT_OVERCURRENT a) = true ∧ barks s t 0x30 0x300E ∧ t.axState a = s.axState a ∧
      t.rd Reg.DV_CNT_OVERCURRENTS = satU 32 (s.rd Reg.DV_CNT_OVERCURRENTS + 1) ∧ t = { s with regs := t.regs, bq := t.bq } := by
  have hcall : overcurrent s a out ma =
      ((((s.set (Reg.DV_AX_STAT_OVERCURRENT a)).count Reg.DV_CNT_OVERCURRENTS).wr (Reg.DV_AX_STAT_HEAT_OFF a)
        (setBit (s.rd (Reg.DV_AX_STAT_HEAT_OFF a)) (out % 4) true)).set (Reg.DV_AX_STAT_HEAT_SHORT a)).bark 0x30 0x300E true [a, out % 4] := by
    simp [overcurrent, hu, Nat.not_le.2 hma]
  have hoff := stat_ne Reg.DV_AX_STAT_HEAT_SHORT Reg.DV_AX_STAT_HEAT_OFF a rfl rfl (by decide)
  have hcur := stat_ne Reg.DV_AX_STAT_HEAT_SHORT Reg.DV_AX_STAT_OVERCURRENT a rfl rfl (by decide)
  have hcur' := stat_ne Reg.DV_AX_STAT_HEAT_OFF Reg.DV_AX_STAT_OVERCURRENT a rfl rfl (by decide)
  have hcnt (f : Nat → Fld) (n : Nat) (hf : (f a).key = 8 * (0x60500 + 32 * a) + n) : (f a).key ≠ Reg.DV_CNT_OVERCURRENTS.key :=
    key_card_ne a n hf (by decide)
  refine guard_of (by simp [ha, ho]) ?_
  rw [hcall]
  refine ⟨?_, ?_, ?_, ?_, ?_, ?_, rfl⟩
  · rw [State.keepQueue_rd, State.bark_rd, State.rd_set_ne _ hoff, State.rd_wr_self, Nat.mod_eq_of_lt ho]
    exact (bit_mod ho).trans ((bit_setBit _ _ _ _).trans (if_pos rfl))
  · rw [State.keepQueue_flag, State.bark_flag]
    exact State.flag_set_self _
  · rw [State.keepQueue_flag, State.bark_flag, State.flag_set_ne _ hcur, State.flag_wr_ne _ _ hcur',
      State.flag_count_ne _ (hcnt Reg.DV_AX_STAT_OVERCURRENT 17 rfl).symm]
    exact State.flag_set_self s
  · rw [barks_keepQueue]
    exact barks_bark _ _ _ _ _ _ rfl rfl
  · rw [State.keepQueue_axState, State.bark_axState]
    refine (axState_wr_stat _ Reg.DV_AX_STAT_HEAT_SHORT a a 1 22 rfl (by decide)).trans ?_
    refine (axState_wr_stat _ Reg.DV_AX_STAT_HEAT_OFF a a _ 128 rfl (by decide)).trans ?_
    exact (axState_wr_card _ (by decide) _ a).trans (axState_wr_stat s Reg.DV_AX_STAT_OVERCURRENT a a 1 17 rfl (by decide))
  · rw [State.keepQueue_rd, State.bark_rd, State.rd_set_ne _ (hcnt Reg.DV_AX_STAT_HEAT_SHORT 22 rfl),
      State.rd_wr_ne _ _ (hcnt Reg.DV_AX_STAT_HEAT_OFF 128 rfl), State.rd_count_self, State.rd_set_ne _ (hcnt Reg.DV_AX_STAT_OVERCURRENT 17 rfl)]
    rfl

/-- A fault that muzzles an axis: it reads FAULT with its phases off, and the registers that no muzzle writes are as they were. -/
theorem muzzleAxis_fault (s : State) (a : Nat) :
    (muzzleAxis s a axFAULT ecFAULT).axState a = axFAULT ∧ ((muzzleAxis s a axFAULT ecFAULT).axis a).on = false ∧
      MotionEnds s (muzzleAxis s a axFAULT ecFAULT) :=
  ⟨axState_muzzleAxis_self s a ecFAULT (by decide), axis_muzzleAxis_off s a axFAULT ecFAULT, motionEnds_muzzleAxis s a axFAULT ecFAULT⟩

theorem exec_dvOvercurrent_stepper (s : State) {a out ma : Nat} (ha : a < 16) (ho : out < 4) (hu : (s.axis a).useNow ≠ 2) (hma : 6000 < ma)
    (hst : s.axState a ≠ axLOCKOUT) : ∃ t, exec (.dvOvercurrent a out ma) s = .next t ∧ t.axState a = axFAULT ∧
      t.rd Reg.DV_CNT_OVERCURRENTS = satU 32 (s.rd Reg.DV_CNT_OVERCURRENTS + 1) ∧
      t.flag (Reg.DV_AX_STAT_OVERCURRENT a) = true ∧ (t.axis a).on = false ∧ lastBark t 0x30 0x3002 := by
  have hcall : overcurrent s a out ma =
      (muzzleAxis ((s.set (Reg.DV_AX_STAT_OVERCURRENT a)).count Reg.DV_CNT_OVERCURRENTS) a axFAULT ecFAULT).bark 0x30 0x3002 true [a] := by
    simp [overcurrent, hu, Nat.not_le.2 hma, hst]
  have hne : (Reg.DV_AX_STAT_OVERCURRENT a).key ≠ Reg.DV_CNT_OVERCURRENTS.key := key_card_ne a 17 rfl (by decide)
  obtain ⟨hfault, hon, hm⟩ := muzzleAxis_fault ((s.set (Reg.DV_AX_STAT_OVERCURRENT a)).count Reg.DV_CNT_OVERCURRENTS) a
  refine guard_of (by simp [ha, ho]) ?_
  rw [hcall]
  generalize muzzleAxis _ a axFAULT ecFAULT = u at hfault hon hm ⊢
  refine ⟨hfault, ?_, ?_, hon, lastBark_bark _ _ _ _ _⟩
  · refine (hm.rd _ (not_muzzleKey_of_lt (by decide))).trans ?_
    rw [State.rd_count_self, State.rd_set_ne _ hne]
    rfl
  · refine (State.flag_congr (hm.rd _ (not_muzzleKey_stat a 17 rfl (by decide)))).trans ?_
    rw [State.flag_count_ne _ hne.symm]
    exact State.flag_set_self s

theorem exec_dvOvercurrent_below (s : State) {a out ma : Nat} (ha : a < 16) (ho : out < 4) (hma : ma ≤ (if (s.axis a).useNow = 2 then 3000 else 6000)) :
    ∃ t, exec (.dvOvercurrent a out ma) s = .next t ∧ t = s := by
  have hcall : overcurrent s a out ma = s := if_pos hma
  refine guard_of (by simp [ha, ho]) ?_
  rw [hcall]
  rfl

/-! ## Overtemperature (R270) -/

/-- A bridge temperature as it is shown, with HOT at its onset. -/
def showTemp (s : State) (a : Nat) (temp : Int) : State :=
  let t := s.wrS (Reg.DV_AX_STAT_TEMP a) temp
  if 120 < temp && !s.flag (Reg.DV_AX_STAT_HOT a) then (t.set (Reg.DV_AX_STAT_HOT a)).barkEvery cclkSec a 0x30 0x3003 true [a] else t

theorem overtemp_eq (s : State) (a : Nat) (temp : Int) : overtemp s a temp =
    if 145 < temp && !(s.axis a).otFault then
      (if s.axState a = axLOCKOUT then ((showTemp s a temp).set (Reg.DV_AX_STAT_OVERTEMP a)).modAxis a (fun y => { y with otFault := true })
        else muzzleAxis (((showTemp s a temp).set (Reg.DV_AX_STAT_OVERTEMP a)).modAxis a (fun y => { y with otFault := true })) a axFAULT ecFAULT).bark
          0x30 0x3003 true [a]
    else showTemp s a temp := rfl

/-- Where HOT is set or the bridge is no warmer than 120 °C, its temperature alone is shown. -/
theorem showTemp_known {s : State} {a : Nat} {temp : Int} (h : temp ≤ 120 ∨ s.flag (Reg.DV_AX_STAT_HOT a) = true) :
    showTemp s a temp = s.wrS (Reg.DV_AX_STAT_TEMP a) temp := by
  refine if_neg ?_
  rcases h with h | h <;> simp [h]

theorem showTemp_onset {s : State} {a : Nat} {temp : Int} (h : 120 < temp) (hf : s.flag (Reg.DV_AX_STAT_HOT a) = false) :
    showTemp s a temp = ((s.wrS (Reg.DV_AX_STAT_TEMP a) temp).set (Reg.DV_AX_STAT_HOT a)).barkEvery cclkSec a 0x30 0x3003 true [a] :=
  if_pos (by simp [h, hf])

/-- Above 120 °C HOT stands. -/
theorem showTemp_hot {s : State} {a : Nat} {temp : Int} (h : 120 < temp) : (showTemp s a temp).flag (Reg.DV_AX_STAT_HOT a) = true := by
  cases hf : s.flag (Reg.DV_AX_STAT_HOT a)
  · rw [showTemp_onset h hf, State.barkEvery_flag]
    exact State.flag_set_self _
  · rw [showTemp_known (.inr hf)]
    exact (State.flag_wr_ne s _ (stat_ne Reg.DV_AX_STAT_TEMP Reg.DV_AX_STAT_HOT a rfl rfl (by decide))).trans hf

theorem exec_dvOvertemp_fault (s : State) {a : Nat} {temp : Int} (ha : a < 16) (ht : 145 < temp) (hot : (s.axis a).otFault = false)
    (hst : s.axState a ≠ axLOCKOUT) : ∃ t, exec (.dvOvertemp a temp) s = .next t ∧ t.axState a = axFAULT ∧
    t.flag (Reg.DV_AX_STAT_OVERTEMP a) = true ∧ t.flag (Reg.DV_AX_STAT_HOT a) = true ∧ (t.axis a).otFault = true ∧ lastBark t 0x30 0x3003 := by
  have hhot := showTemp_hot (s := s) (a := a) (lt_trans (by decide : (120 : Int) < 145) ht)
  refine guard_of (decide_eq_true ha) ?_
  rw [overtemp_eq, if_pos (by simp [ht, hot]), if_neg hst]
  generalize showTemp s a temp = u at hhot ⊢
  obtain ⟨hfault, -, hm⟩ := muzzleAxis_fault ((u.set (Reg.DV_AX_STAT_OVERTEMP a)).modAxis a (fun y => { y with otFault := true })) a
  generalize muzzleAxis _ a axFAULT ecFAULT = v at hfault hm ⊢
  refine ⟨hfault, ?_, ?_, ?_, lastBark_bark _ _ _ _ _⟩
  · exact (State.flag_congr (hm.rd _ (not_muzzleKey_stat a 18 rfl (by decide)))).trans (State.flag_set_self u)
  · refine (State.flag_congr (hm.rd _ (not_muzzleKey_stat a 10 rfl (by decide)))).trans ?_
    rw [State.modAxis_flag, State.flag_set_ne u]
    · exact hhot
    · exact stat_ne Reg.DV_AX_STAT_OVERTEMP Reg.DV_AX_STAT_HOT a rfl rfl (by decide)
  · have hax := congrArg Axis.otFault (hm.axis a)
    rw [axis_modAxis_self] at hax
    exact hax

theorem exec_dvOvertemp_hot (s : State) {a : Nat} {temp : Int} (ha : a < 16) (hlo : 120 < temp) (hhi : temp ≤ 145)
    (hf : s.flag (Reg.DV_AX_STAT_HOT a) = false) : ∃ t, exec (.dvOvertemp a temp) s = .next t ∧ t.flag (Reg.DV_AX_STAT_HOT a) = true ∧
    t.axState a = s.axState a ∧ barksRarely s t cclkSec a 0x30 0x3003 ∧ t = { s with regs := t.regs, bq := t.bq } ∧
    onlyRegs s t [Reg.DV_AX_STAT_TEMP a, Reg.DV_AX_STAT_HOT a] := by
  have hcall : overtemp s a temp = showTemp s a temp := by rw [overtemp_eq, if_neg (by simp [not_lt.2 hhi])]
  have hhot := showTemp_hot (s := s) (a := a) hlo
  refine guard_of (decide_eq_true ha) ?_
  rw [hcall]
  rw [showTemp_onset hlo hf] at hhot ⊢
  refine ⟨hhot, ?_, ?_, ?_, ?_⟩
  · rw [State.keepQueue_axState, State.barkEvery_axState]
    exact (axState_wr_stat _ Reg.DV_AX_STAT_HOT a a 1 10 rfl (by decide)).trans (axState_wr_stat s Reg.DV_AX_STAT_TEMP a a _ 136 rfl (by decide))
  · rw [barksRarely_keepQueue]
    exact barksRarely_barkEvery s _ _ _ _ _ _ _
  · rw [barkEvery_frame]; rfl
  · refine onlyRegs_of_rd (onlyRegs_mono (onlyRegs_snoc (onlyRegs_wr s _ _) (Reg.DV_AX_STAT_HOT a) 1) ?_) (State.barkEvery_rd _ _ _ _ _ _ _)
    simp

theorem exec_dvOvertemp_known (s : State) {a : Nat} {temp : Int} (ha : a < 16) (hlo : temp ≤ 120 ∨ s.flag (Reg.DV_AX_STAT_HOT a) = true)
    (hhi : temp ≤ 145 ∨ (s.axis a).otFault = true) : ∃ t, exec (.dvOvertemp a temp) s = .next t ∧
    t.rdS (Reg.DV_AX_STAT_TEMP a) = satS 8 temp ∧ t = { s with regs := t.regs } ∧ onlyRegs s t [Reg.DV_AX_STAT_TEMP a] := by
  have hcall : overtemp s a temp = s.wrS (Reg.DV_AX_STAT_TEMP a) temp := by
    rw [overtemp_eq, if_neg (by rcases hhi with h | h <;> simp [h]), showTemp_known hlo]
  refine guard_of (decide_eq_true ha) ?_
  rw [hcall]
  exact ⟨State.rdS_wrS_self s temp, rfl, onlyRegs_wr s _ _⟩

theorem exec_dvHotClear_cool (s : State) {a : Nat} {temp : Int} (ha : a < 16) (ht : temp < 110) : ∃ t, exec (.dvHotClear a temp) s = .next t ∧
    t.flag (Reg.DV_AX_STAT_HOT a) = false ∧ (t.axis a).otFault = false ∧ t = { s with regs := t.regs, dv := t.dv } ∧
    onlyRegs s t [Reg.DV_AX_STAT_TEMP a, Reg.DV_AX_STAT_HOT a] := by
  have hcall : hotClear s a temp =
      ((s.wrS (Reg.DV_AX_STAT_TEMP a) temp).clr (Reg.DV_AX_STAT_HOT a)).modAxis a (fun y => { y with otFault := false }) := if_pos ht
  refine guard_of (decide_eq_true ha) ?_
  rw [hcall]
  refine ⟨State.flag_clr_self _ _, ?_, rfl, ?_⟩
  · rw [State.keepQueue_axis, axis_modAxis_self]
  · exact onlyRegs_mono (onlyRegs_snoc (onlyRegs_wr s _ _) (Reg.DV_AX_STAT_HOT a) 0) (by simp)

/-! ## Open phases (R270) -/

/-- A condition that has stood for 1 ms. -/
def stood (s : State) (o : Option Nat) : Bool := match o with | none => false | some t => s.elapsed t cclkMs

theorem openPhase_eq (s : State) (a ph : Nat) {f : Fld} {c : Chop} (hf : f = (if ph = 0 then Reg.DV_AX_STAT_OPEN_A a else Reg.DV_AX_STAT_OPEN_B a))
    (hc : c = (if ph = 0 then (s.axis a).chopA else (s.axis a).chopB)) : openPhase s a ph =
      if stood s c.openSince then
        (if s.flag f then s else ((s.set f).set (Reg.DV_AX_STAT_OPEN_SEEN a)).barkEvery cclkSec a 0x30 0x3004 true [a])
      else if stood s c.okSince then s.clr f else s := by
  subst hf hc; rfl

/-- The flag of an open phase is a bit of DV_AX_STAT beside OPEN_SEEN. -/
theorem openFlag_key {a ph : Nat} {f : Fld} (hf : f = (if ph = 0 then Reg.DV_AX_STAT_OPEN_A a else Reg.DV_AX_STAT_OPEN_B a)) :
    f.width = 1 ∧ (Reg.DV_AX_STAT_OPEN_SEEN a).key ≠ f.key := by
  subst hf
  split
  · exact ⟨rfl, stat_ne Reg.DV_AX_STAT_OPEN_SEEN Reg.DV_AX_STAT_OPEN_A a rfl rfl (by decide)⟩
  · exact ⟨rfl, stat_ne Reg.DV_AX_STAT_OPEN_SEEN Reg.DV_AX_STAT_OPEN_B a rfl rfl (by decide)⟩

theorem exec_dvOpenPhase (s : State) {a ph : Nat} {f : Fld} {c : Chop} (ha : a < 16) (hph : ph < 2)
    (hf : f = (if ph = 0 then Reg.DV_AX_STAT_OPEN_A a else Reg.DV_AX_STAT_OPEN_B a)) (hc : c = (if ph = 0 then (s.axis a).chopA else (s.axis a).chopB)) :
    (∀ t0, c.openSince = some t0 → s.elapsed t0 cclkMs = true → s.flag f = false → ∃ t, exec (.dvOpenPhase a ph) s = .next t ∧ t.flag f = true ∧
      t.flag (Reg.DV_AX_STAT_OPEN_SEEN a) = true ∧ barksRarely s t cclkSec a 0x30 0x3004 ∧ t = { s with regs := t.regs, bq := t.bq } ∧
      onlyRegs s t [f, Reg.DV_AX_STAT_OPEN_SEEN a]) ∧
    (∀ t0, c.openSince = none → c.okSince = some t0 → s.elapsed t0 cclkMs = true → ∃ t, exec (.dvOpenPhase a ph) s = .next t ∧ t.flag f = false ∧
      t = { s with regs := t.regs } ∧ onlyRegs s t [f]) ∧
    ((c.openSince = none ∧ c.okSince = none) ∨ (c.openSince.isSome = true ∧ c.okSince = none ∧ s.flag f = true) → exec (.dvOpenPhase a ph) s = .next s) := by
  obtain ⟨hw, hne⟩ := openFlag_key hf
  have hok : (a < 16 && ph < 2 : Bool) = true := by simp [ha, hph]
  refine ⟨fun t0 ho he hfl => ?_, fun t0 ho hk he => ?_, fun h => ?_⟩
  · refine guard_of hok ?_
    rw [openPhase_eq s a ph hf hc, if_pos (by simp [stood, ho, he]), if_neg (by simp [hfl])]
    refine ⟨?_, ?_, ?_, ?_, ?_⟩
    · rw [State.keepQueue_flag, State.barkEvery_flag, State.flag_set_ne _ hne]
      exact State.flag_set_self s hw
    · rw [State.keepQueue_flag, State.barkEvery_flag]
      exact State.flag_set_self _
    · rw [barksRarely_keepQueue]
      exact barksRarely_barkEvery s _ _ _ _ _ _ _
    · rw [barkEvery_frame]; rfl
    · exact onlyRegs_of_rd (onlyRegs_mono (onlyRegs_snoc (onlyRegs_wr s f 1) (Reg.DV_AX_STAT_OPEN_SEEN a) 1) (by simp)) (State.barkEvery_rd _ _ _ _ _ _ _)
  · refine guard_of hok ?_
    rw [openPhase_eq s a ph hf hc, if_neg (by simp [stood, ho]), if_pos (by simp [stood, hk, he])]
    exact ⟨State.flag_clr_self s f, rfl, onlyRegs_wr s f 0⟩
  · have hcall : openPhase s a ph = s := by
      rw [openPhase_eq s a ph hf hc]
      rcases h with ⟨ho, hk⟩ | ⟨-, hk, hfl⟩
      · simp [stood, ho, hk]
      · simp [stood, hk, hfl]
    have hexec : exec (.dvOpenPhase a ph) s = guardItem (a < 16 && ph < 2) (answer s (openPhase s a ph)) := rfl
    rw [hexec, hcall, hok]
    rfl

/-! ## Open heater outputs (R270) -/

theorem exec_dvHeatOpen_on (s : State) {a out ma : Nat} (ha : a < 16) (ho : out < 4) (hu : (s.axis a).useNow = 2)
    (ht : 4096 * 24576 ≤ 10 * heatOnTime (s.axis a) out) : ∃ t, exec (.dvHeatOpen a out ma) s = .next t ∧
      bit (t.rd (Reg.DV_AX_STAT_HEAT_OPEN a)) out = decide (ma < 50) ∧
      (ma < 50 → bit (s.rd (Reg.DV_AX_STAT_HEAT_OPEN a)) out = false → barksRarely s t cclkSec a 0x30 0x3005 ∧ t.flag (Reg.DV_AX_STAT_OPEN_SEEN a) = true) ∧
      t = { s with regs := t.regs, bq := t.bq } ∧ onlyRegs s t [Reg.DV_AX_STAT_HEAT_OPEN a, Reg.DV_AX_STAT_OPEN_SEEN a] := by
  have hbit (v : Bool) : bit ((s.wr (Reg.DV_AX_STAT_HEAT_OPEN a) (setBit (s.rd (Reg.DV_AX_STAT_HEAT_OPEN a)) out v)).rd (Reg.DV_AX_STAT_HEAT_OPEN a)) out = v := by
    rw [State.rd_wr_self]
    exact (bit_mod ho).trans ((bit_setBit _ _ _ _).trans (if_pos rfl))
  have hcall : heatOpen s a out ma =
      if ma < 50 then
        if bit (s.rd (Reg.DV_AX_STAT_HEAT_OPEN a)) out then
          s.wr (Reg.DV_AX_STAT_HEAT_OPEN a) (setBit (s.rd (Reg.DV_AX_STAT_HEAT_OPEN a)) out true)
        else ((s.wr (Reg.DV_AX_STAT_HEAT_OPEN a) (setBit (s.rd (Reg.DV_AX_STAT_HEAT_OPEN a)) out true)).set (Reg.DV_AX_STAT_OPEN_SEEN a)).barkEvery
          cclkSec a 0x30 0x3005 true [a, out]
      else s.wr (Reg.DV_AX_STAT_HEAT_OPEN a) (setBit (s.rd (Reg.DV_AX_STAT_HEAT_OPEN a)) out false) := by
    simp [heatOpen, hu, Nat.not_lt.2 ht]
  refine guard_of (by simp [ha, ho]) ?_
  rw [hcall]
  by_cases hma : ma < 50
  · rw [if_pos hma, decide_eq_true hma]
    cases hb : bit (s.rd (Reg.DV_AX_STAT_HEAT_OPEN a)) out
    · rw [if_neg Bool.false_ne_true]
      refine ⟨?_, fun _ _ => ⟨?_, ?_⟩, ?_, ?_⟩
      · rw [State.keepQueue_rd, State.barkEvery_rd,
          State.rd_set_ne _ (stat_ne Reg.DV_AX_STAT_OPEN_SEEN Reg.DV_AX_STAT_HEAT_OPEN a rfl rfl (by decide))]
        exact hbit true
      · rw [barksRarely_keepQueue]
        exact barksRarely_barkEvery s _ _ _ _ _ _ _
      · rw [State.keepQueue_flag, State.barkEvery_flag]
        exact State.flag_set_self _
      · rw [barkEvery_frame]; rfl
      · exact onlyRegs_of_rd (onlyRegs_mono (onlyRegs_snoc (onlyRegs_wr s _ _) (Reg.DV_AX_STAT_OPEN_SEEN a) 1) (by simp))
          (State.barkEvery_rd _ _ _ _ _ _ _)
    · rw [if_pos rfl]
      exact ⟨hbit true, fun _ h => absurd h (by decide), rfl, onlyRegs_mono (onlyRegs_wr s _ _) (by simp)⟩
  · rw [if_neg hma, decide_eq_false hma]
    exact ⟨hbit false, fun h => absurd h hma, rfl, onlyRegs_mono (onlyRegs_wr s _ _) (by simp)⟩

theorem exec_dvHeatOpen_idle (s : State) {a out : Nat} (ma : Nat) (ha : a < 16) (ho : out < 4)
    (h : (s.axis a).useNow ≠ 2 ∨ 10 * heatOnTime (s.axis a) out < 4096 * 24576) : exec (.dvHeatOpen a out ma) s = .next s := by
  have hcall : heatOpen s a out ma = s := by
    refine if_pos ?_
    rcases h with h | h <;> simp [h]
  have hexec : exec (.dvHeatOpen a out ma) s = guardItem (a < 16 && out < 4) (answer s (heatOpen s a out ma)) := rfl
  rw [hexec, hcall, show (a < 16 && out < 4 : Bool) = true by simp [ha, ho]]
  rfl

/-! ## Bridge power (R252, R270) -/

theorem exec_dvBridgePwr_on (s : State) {vb : Nat} (hd : s.domOn 19 = true) (hv : 3000 ≤ vb) : ∃ t, exec (.dvBridgePwr vb) s = .next t ∧
    t.bridgePwr = true ∧ t = { s with regs := t.regs } ∧ onlyRegs s t [Reg.DV_CARD_STAT_BRIDGE_V, Reg.DV_CARD_STAT_BRIDGE_PWR] := by
  have hcall : bridgeMeasure s vb = (s.wrSat Reg.DV_CARD_STAT_BRIDGE_V vb).set Reg.DV_CARD_STAT_BRIDGE_PWR := if_pos (by simp [hd, hv])
  refine answer_of ?_
  rw [hcall]
  exact ⟨State.flag_set_self _, rfl, onlyRegs_mono (onlyRegs_snoc (onlyRegs_wr s _ _) Reg.DV_CARD_STAT_BRIDGE_PWR 1) (by simp)⟩

theorem bridgeLost_powered {s : State} (h : s.bridgePwr = true) :
    bridgeLost s = (muzzleAxes (s.clr Reg.DV_CARD_STAT_BRIDGE_PWR) axMUZZLED ecFAULT).bark 0x30 0x300B true [] := if_pos h

theorem exec_dvBridgePwr_off (s : State) {vb : Nat} (hv : vb < 3000) (hp : s.bridgePwr = true) : ∃ t, exec (.dvBridgePwr vb) s = .next t ∧
    t.bridgePwr = false ∧ lastBark t 0x30 0x300B ∧
    ∀ a, a < 16 → s.axState a ≠ axOFF → s.axState a ≠ axFAULT → s.axState a ≠ axLOCKOUT → t.axState a = axMUZZLED ∧ (t.axis a).on = false := by
  have hpwr : (s.wrSat Reg.DV_CARD_STAT_BRIDGE_V vb).bridgePwr = true := (State.flag_wr_ne s _ (by decide)).trans hp
  have hcall : bridgeMeasure s vb = bridgeLost (s.wrSat Reg.DV_CARD_STAT_BRIDGE_V vb) := if_neg (by simp [Nat.not_le.2 hv])
  refine answer_of ?_
  rw [hcall, bridgeLost_powered hpwr]
  have hm := motionEnds_muzzleAxes ((s.wrSat Reg.DV_CARD_STAT_BRIDGE_V vb).clr Reg.DV_CARD_STAT_BRIDGE_PWR) axMUZZLED ecFAULT
  have hlive (a : Nat) := muzzleAxes_live (s := (s.wrSat Reg.DV_CARD_STAT_BRIDGE_V vb).clr Reg.DV_CARD_STAT_BRIDGE_PWR) (a := a) (.inl rfl) ecFAULT
  generalize muzzleAxes _ axMUZZLED ecFAULT = u at hm hlive ⊢
  refine ⟨?_, lastBark_bark _ _ _ _ _, fun a ha hoff hfault hlock => ?_⟩
  · exact (State.flag_congr (hm.rd Reg.DV_CARD_STAT_BRIDGE_PWR (not_muzzleKey_of_lt (by decide)))).trans (State.flag_clr_self _ _)
  · have hst : ((s.wrSat Reg.DV_CARD_STAT_BRIDGE_V vb).clr Reg.DV_CARD_STAT_BRIDGE_PWR).axState a = s.axState a :=
      (axState_wr_card _ (by decide) 0 a).trans (axState_wr_card s (by decide) _ a)
    exact hlive a ha (by rw [hst]; simp [idleState, hoff, hfault, hlock])

/-- Settles O32: each fault of the drive card by its lemma. -/
theorem driveFaults : Obligations.DriveFaults := by
  intro s
  refine ⟨fun a ha h => exec_dvHbConflict s ha h, fun a out ma ha ho => ⟨?_, ?_, ?_⟩, fun a temp ha => exec_dvOvertemp_fault s ha,
    fun a temp ha => exec_dvOvertemp_hot s ha, fun a temp ha => exec_dvOvertemp_known s ha, fun a temp ha => exec_dvHotClear_cool s ha,
    fun a ph f c ha hph => exec_dvOpenPhase s ha hph, fun a out ma ha ho => ⟨?_, ?_⟩, fun vb => exec_dvBridgePwr_on s,
    fun vb => exec_dvBridgePwr_off s⟩
  · exact exec_dvOvercurrent_heater s ha ho
  · exact exec_dvOvercurrent_stepper s ha ho
  · exact exec_dvOvercurrent_below s ha ho
  · exact exec_dvHeatOpen_on s ha ho
  · exact exec_dvHeatOpen_idle s ma ha ho
end Sys2Proof
end

