-- ==== Sys2Proof/Proofs/AnalogueOutputs.lean ====
section
/-! PROOFS. Analogue outputs (R19, R243, R274 to R279): what a beat or a clear of one output may change, and the codes it leaves. -/

namespace Sys2Proof.Machine

/-! ## What a step of one output may change -/

/-- A bit of AO_STAT of output `o` other than CFG_BAD. -/
def aoStatKey (o k : Nat) : Prop :=
  8 * (0x64300 + 16 * o) ≤ k ∧ k < 8 * (0x64300 + 16 * o) + 128 ∧ k ≠ 8 * (0x64300 + 16 * o) + 11

/-- What of an output its codes leave alone: its holds, and the demand of its arena. -/
def Ao.holds (y : Ao) : Bool × Bool × Option Int := (y.leashHeld, y.live, y.demand)

/-- `t` comes from `s` by steps of output `o`: of what an output reads, its AO_STAT, its codes and its reservation alone have changed. -/
structure OutputMoves (o : Nat) (s t : State) : Prop where
  hub : t.hub = s.hub
  rd : ∀ f : Fld, ¬ aoStatKey o f.key → t.rd f = s.rd f
  ao : ∀ b, b ≠ o → t.ao b = s.ao b
  holds : (t.ao o).holds = (s.ao o).holds

theorem aoStatKey_add {k : Nat} (o m : Nat) (hk : k = 8 * (0x64300 + 16 * o) + m) (hm : m < 128 ∧ m ≠ 11) : aoStatKey o k := by
  unfold aoStatKey; omega

theorem not_aoStatKey_of_lt {k : Nat} (o : Nat) (hk : k < 8 * 0x64300) : ¬ aoStatKey o k := by
  unfold aoStatKey; omega

theorem not_aoStatKey_other {k o b : Nat} (m : Nat) (hk : k = 8 * (0x64300 + 16 * o) + m) (hm : m < 128) (hb : b ≠ o) : ¬ aoStatKey b k := by
  unfold aoStatKey; omega

/-- Fields of one output have different bits. -/
theorem aoStat_ne {j k : Nat} (o m n : Nat) (hj : j = 8 * (0x64300 + 16 * o) + m) (hk : k = 8 * (0x64300 + 16 * o) + n) (h : m ≠ n) : j ≠ k := by omega

theorem ao_modAo (s : State) (o b : Nat) (g : Ao → Ao) : (s.modAo o g).ao b = if o = b then g (s.ao o) else s.ao b := by
  unfold State.modAo State.ao
  split
  · next h => subst h; exact Sparse.get_put_self _ _ _ _
  · next h => exact Sparse.get_put_ne _ _ _ h _

@[simp] theorem ao_modAo_self (s : State) (o : Nat) (g : Ao → Ao) : (s.modAo o g).ao o = g (s.ao o) := (ao_modAo s o o g).trans (if_pos rfl)

theorem OutputMoves.refl (o : Nat) (s : State) : OutputMoves o s s := ⟨rfl, fun _ _ => rfl, fun _ _ => rfl, rfl⟩

theorem OutputMoves.trans {o : Nat} {s t u : State} (h : OutputMoves o s t) (k : OutputMoves o t u) : OutputMoves o s u :=
  ⟨k.hub.trans h.hub, fun f hf => (k.rd f hf).trans (h.rd f hf), fun b hb => (k.ao b hb).trans (h.ao b hb), k.holds.trans h.holds⟩

section
variable {o : Nat} {s t : State} (h : OutputMoves o s t)
include h

theorem OutputMoves.wr {f : Fld} {v : Nat} (hf : aoStatKey o f.key) : OutputMoves o s (t.wr f v) :=
  h.trans ⟨rfl, fun _ hg => State.rd_wr_ne t v fun he => hg (he ▸ hf), fun _ _ => rfl, rfl⟩

theorem OutputMoves.bark {src code : Nat} {warn : Bool} {p : List Nat} : OutputMoves o s (t.bark src code warn p) :=
  h.trans ⟨rfl, fun _ _ => rfl, fun _ _ => rfl, rfl⟩

theorem OutputMoves.request {book cls cid want : Nat} : OutputMoves o s (t.request book cls cid want) :=
  h.trans ⟨rfl, fun _ _ => rfl, fun _ _ => rfl, rfl⟩

theorem OutputMoves.release {book cid keep : Nat} : OutputMoves o s (t.release book cid keep) :=
  h.trans ⟨rfl, fun _ _ => rfl, fun _ _ => rfl, rfl⟩

theorem OutputMoves.modAo {g : Ao → Ao} (hg : ∀ y, (g y).holds = y.holds) : OutputMoves o s (t.modAo o g) :=
  h.trans ⟨rfl, fun _ _ => rfl, fun b hb => (ao_modAo t o b g).trans (if_neg hb.symm), by rw [ao_modAo_self]; exact hg _⟩

theorem OutputMoves.deglitch : OutputMoves o s (deglitch t o) := by
  unfold Machine.deglitch
  refine h.modAo ?_
  exact fun _ => rfl

theorem OutputMoves.setCode {v : Int} {st : Nat} : OutputMoves o s (setCode t o v st) := by
  refine .wr (.wr ?_ (aoStatKey_add o 32 rfl (by decide))) (aoStatKey_add o 0 rfl (by decide))
  split
  · exact h.deglitch
  · exact h

theorem OutputMoves.clearAo : OutputMoves o s (clearAo t o) := h.setCode.wr (aoStatKey_add o 6 rfl (by decide))

theorem OutputMoves.aoWait : OutputMoves o s (aoWait t o) := (h.wr (aoStatKey_add o 6 rfl (by decide))).setCode

theorem OutputMoves.clrWhen {b : Bool} {f : Fld} (hf : aoStatKey o f.key) : OutputMoves o s (t.when b fun u => u.clr f) := by
  cases b
  · exact h
  · exact h.wr hf

theorem OutputMoves.aoJudge {v i head : Int} : OutputMoves o s (aoJudge t o v i head) := by
  refine .clrWhen (.clrWhen (.clrWhen (.modAo ((h.wr ?_).wr ?_) ?_) ?_) ?_) ?_
  · exact aoStatKey_add o 64 rfl (by decide)
  · exact aoStatKey_add o 96 rfl (by decide)
  · exact fun _ => rfl
  · exact aoStatKey_add o 3 rfl (by decide)
  · exact aoStatKey_add o 4 rfl (by decide)
  · exact aoStatKey_add o 5 rfl (by decide)

theorem OutputMoves.aoRange : OutputMoves o s (aoRange t o) := by
  unfold Machine.aoRange
  dsimp only
  split
  · exact h
  · split
    · refine h.deglitch.modAo ?_
      exact fun _ => rfl
    · refine .clearAo (.modAo (.deglitch (h.clearAo.modAo ?_)) ?_)
      · exact fun _ => rfl
      · exact fun _ => rfl

theorem OutputMoves.aoSine : OutputMoves o s (aoSine t o) := by
  unfold Machine.aoSine
  refine h.modAo ?_
  exact fun _ => rfl

theorem OutputMoves.aoReserve : OutputMoves o s (aoReserve t o) := by
  unfold Machine.aoReserve
  split
  · exact h.release
  · exact h

theorem OutputMoves.aoDrive : OutputMoves o s (aoDrive t o) := by
  unfold Machine.aoDrive
  dsimp only
  split
  · split
    · exact h.aoWait
    · exact h.aoWait.request.bark
  · exact h.setCode.wr (aoStatKey_add o 6 rfl (by decide))

end

/-- An output before it takes its code at a beat. -/
def aoReady (s : State) (o : Nat) (v i head : Int) : State :=
  let t := aoReserve (aoSine (aoRange (aoJudge s o v i head) o) o) o
  t.wrB (Reg.AO_STAT_CLR_PIN o) (t.aoPin o)

theorem aoBeat_eq (s : State) (o : Nat) (v i head : Int) :
    aoBeat s o v i head = if (aoReady s o v i head).aoFree o then aoDrive (aoReady s o v i head) o else clearAo (aoReady s o v i head) o := rfl

theorem outputMoves_aoReady (s : State) (o : Nat) (v i head : Int) : OutputMoves o s (aoReady s o v i head) :=
  (OutputMoves.refl o s).aoJudge.aoRange.aoSine.aoReserve.wr (aoStatKey_add o 7 rfl (by decide))

theorem outputMoves_aoBeat (s : State) (o : Nat) (v i head : Int) : OutputMoves o s (aoBeat s o v i head) := by
  rw [aoBeat_eq]
  split
  · exact (outputMoves_aoReady s o v i head).aoDrive
  · exact (outputMoves_aoReady s o v i head).clearAo

/-! ## Several outputs -/

/-- Nothing that output `o` reads has changed. -/
structure OutputKept (o : Nat) (s t : State) : Prop where
  hub : t.hub = s.hub
  rd : ∀ f : Fld, (∀ b, b ≠ o → ¬ aoStatKey b f.key) → t.rd f = s.rd f
  ao : t.ao o = s.ao o

theorem OutputKept.trans {o : Nat} {s t u : State} (h : OutputKept o s t) (k : OutputKept o t u) : OutputKept o s u :=
  ⟨k.hub.trans h.hub, fun f hf => (k.rd f hf).trans (h.rd f hf), k.ao.trans h.ao⟩

theorem OutputKept.low {o : Nat} {s t : State} (h : OutputKept o s t) {f : Fld} (hf : f.key < 8 * 0x64300) : t.rd f = s.rd f :=
  h.rd f fun b _ => not_aoStatKey_of_lt b hf

theorem OutputKept.stat {o : Nat} {s t : State} (h : OutputKept o s t) {f : Fld} (m : Nat) (hf : f.key = 8 * (0x64300 + 16 * o) + m) (hm : m < 128) :
    t.rd f = s.rd f := h.rd f fun _ hb => not_aoStatKey_other m hf hm hb

/-- The steps of other outputs keep an output. -/
theorem OutputMoves.kept {o b : Nat} {s t : State} (h : OutputMoves b s t) (hb : b ≠ o) : OutputKept o s t :=
  ⟨h.hub, fun f hf => h.rd f (hf b hb), h.ao o hb.symm⟩

theorem outputKept_foldl {g : State → Nat → State} (hg : ∀ s b, OutputMoves b s (g s b)) {o : Nat} {l : List Nat} (h : o ∉ l) (s : State) :
    OutputKept o s (l.foldl g s) := by
  induction l generalizing s with
  | nil => exact ⟨rfl, fun _ _ => rfl, rfl⟩
  | cons b l ih =>
    obtain ⟨hb, hl⟩ := not_or.1 (mt List.mem_cons.2 h)
    exact ((hg s b).kept (Ne.symm hb)).trans (ih hl _)

/-- A step of each of several outputs: output `o` takes its own between those of the others. -/
theorem exists_own_step {g : State → Nat → State} (hg : ∀ s b, OutputMoves b s (g s b)) {o : Nat} {l : List Nat} (hn : l.Nodup) (h : o ∈ l) (s : State) :
    ∃ u, OutputKept o s u ∧ OutputKept o (g u o) (l.foldl g s) := by
  obtain ⟨l₁, l₂, rfl⟩ := List.append_of_mem h
  rw [List.nodup_middle, List.nodup_cons, List.mem_append, not_or] at hn
  rw [List.foldl_append, List.foldl_cons]
  exact ⟨_, outputKept_foldl hg hn.1.1 s, outputKept_foldl hg hn.1.2 _⟩

/-- Steps of outputs leave every register below AO_STAT. -/
theorem rd_foldl_low {g : State → Nat → State} (hg : ∀ s b, OutputMoves b s (g s b)) (l : List Nat) (s : State) {f : Fld} (hf : f.key < 8 * 0x64300) :
    (l.foldl g s).rd f = s.rd f := by
  induction l generalizing s with
  | nil => rfl
  | cons b l ih => exact (ih _).trans ((hg s b).rd f (not_aoStatKey_of_lt b hf))

/-! ## What an output reads -/

/-- Whether an output is free depends on its registers, its holds and its card alone. -/
theorem aoFree_congr {s t : State} {o : Nat} (ho : o < 16) (hhub : t.hub = s.hub) (hlow : ∀ f : Fld, f.key < 8 * 0x64300 → t.rd f = s.rd f)
    (hbad : t.rd (Reg.AO_STAT_CFG_BAD o) = s.rd (Reg.AO_STAT_CFG_BAD o)) (hao : (t.ao o).holds = (s.ao o).holds) : t.aoFree o = s.aoFree o := by
  simp only [Ao.holds, Prod.mk.injEq] at hao
  obtain ⟨hheld, hlive, hdemand⟩ := hao
  have hsrc : t.aoSrc o = s.aoSrc o := by
    unfold State.aoSrc
    rw [hlow _ (by simp only [Reg.AO_CFG_SRC]; omega)]
  have hen : t.flag (Reg.AO_CFG_EN o) = s.flag (Reg.AO_CFG_EN o) := State.flag_congr (hlow _ (by simp only [Reg.AO_CFG_EN]; omega))
  have hmode : t.aoMode o = s.aoMode o := by
    unfold State.aoMode State.mode
    rw [hlow _ (by decide), hlive]
  have hd0 : t.d0On = s.d0On := by
    unfold State.d0On State.inService State.domOn State.slot
    rw [hlow _ (by decide), hlow _ (by decide), hhub]
  have hpin : t.aoPin o = s.aoPin o := by
    unfold State.aoPin
    split <;> exact State.flag_congr (hlow _ (by decide))
  unfold State.aoFree
  rw [hsrc, hen, hmode, hd0, hpin, hheld, hdemand, State.flag_congr hbad]

theorem OutputKept.aoFree {s t : State} {o : Nat} (h : OutputKept o s t) (ho : o < 16) : t.aoFree o = s.aoFree o :=
  aoFree_congr ho h.hub (fun _ hf => h.low hf) (h.stat 11 rfl (by decide)) (by rw [h.ao])

theorem OutputMoves.aoFree {s t : State} {o : Nat} (h : OutputMoves o s t) (ho : o < 16) : t.aoFree o = s.aoFree o :=
  aoFree_congr ho h.hub (fun _ hf => h.rd _ (not_aoStatKey_of_lt o hf)) (h.rd _ fun hk => hk.2.2 rfl) h.holds

theorem aoFree_disabled {s : State} {o : Nat} (h : s.flag (Reg.AO_CFG_EN o) = false) : s.aoFree o = false := by
  simp [State.aoFree, h]

/-! ## Codes -/

/-- A code is the same 24 bits in either range. -/
theorem unsigned_codeVal (r c : Nat) : unsigned 24 (codeVal r c) % 2 ^ 24 = c % 2 ^ 24 := by
  unfold unsigned codeVal signed
  dsimp only
  split_ifs <;> omega

theorem setCode_code (s : State) (o : Nat) (v : Int) (st : Nat) : (setCode s o v st).rd (Reg.AO_STAT_CODE_NOW o) = unsigned 24 v % 2 ^ 24 :=
  (State.rd_wr_ne _ _ (aoStat_ne o 0 32 rfl rfl (by decide))).trans (State.rd_wr_self _ _ _)

theorem setCode_state (s : State) (o : Nat) (v : Int) (st : Nat) : (setCode s o v st).rd (Reg.AO_STAT_STATE o) = st % 2 ^ 3 :=
  State.rd_wr_self _ _ _

theorem clearAo_code (s : State) (o : Nat) : (clearAo s o).rd (Reg.AO_STAT_CODE_NOW o) = s.rd (Reg.AO_CLEAR_CODE_CODE o) % 2 ^ 24 :=
  (State.rd_wr_ne _ _ (aoStat_ne o 6 32 rfl rfl (by decide))).trans ((setCode_code _ _ _ _).trans (unsigned_codeVal _ _))

theorem clearAo_state_disabled {s : State} {o : Nat} (h : s.flag (Reg.AO_CFG_EN o) = false) : (clearAo s o).rd (Reg.AO_STAT_STATE o) = 0 := by
  refine (State.rd_wr_ne _ _ (aoStat_ne o 6 0 rfl rfl (by decide))).trans ((setCode_state _ _ _ _).trans ?_)
  rw [h]
  rfl

/-- A code of ±10.24 V lies in its range. -/
theorem clamp_codeVal (c : Nat) : clamp (codeLo 0) (codeHi 0) (codeVal 0 c) = codeVal 0 c := by
  have hlo : codeLo 0 = -8388608 := rfl
  have hhi : codeHi 0 = 8388607 := rfl
  unfold clamp codeVal signed
  dsimp only
  rw [hlo, hhi]
  split_ifs <;> omega

/-- A voltage output on its own code, without a slew limit, takes it at once. -/
theorem aoDrive_code {s : State} {o : Nat} (hr : (s.ao o).rangeNow = 0) (hsrc : s.aoSrc o = 0) (hslew : s.rd (Reg.AO_CFG_SLEW o) = 0) :
    (aoDrive s o).rd (Reg.AO_STAT_CODE_NOW o) = s.rd (Reg.AO_CODE_CODE o) % 2 ^ 24 ∧ (aoDrive s o).rd (Reg.AO_STAT_STATE o) = 3 ∧
      (aoDrive s o).rd (Reg.AO_STAT_CLIP o) = 0 := by
  have hwant : s.aoWant o = codeVal 0 (s.rd (Reg.AO_CODE_CODE o)) := by rw [State.aoWant, if_pos hsrc, hr]
  have hcall : aoDrive s o = (setCode s o (codeVal 0 (s.rd (Reg.AO_CODE_CODE o))) 3).wrB (Reg.AO_STAT_CLIP o) false := by
    unfold aoDrive
    dsimp only
    rw [hwant, hr, clamp_codeVal, hslew, if_neg (by simp [State.aoLoop, hr])]
    simp [slewTo]
  rw [hcall]
  refine ⟨?_, ?_, State.rd_wr_self _ _ _⟩
  · exact (State.rd_wr_ne _ _ (aoStat_ne o 6 32 rfl rfl (by decide))).trans ((setCode_code _ _ _ _).trans (unsigned_codeVal _ _))
  · exact (State.rd_wr_ne _ _ (aoStat_ne o 6 0 rfl rfl (by decide))).trans (setCode_state _ _ _ _)

@[simp] theorem State.when_clr_ao (t : State) (b : Bool) (f : Fld) (o : Nat) : (t.when b fun u => u.clr f).ao o = t.ao o := by cases b <;> rfl

theorem aoJudge_rangeNow (s : State) (o : Nat) (v i head : Int) : ((aoJudge s o v i head).ao o).rangeNow = (s.ao o).rangeNow := by
  unfold aoJudge
  dsimp only
  rw [State.when_clr_ao, State.when_clr_ao, State.when_clr_ao, ao_modAo_self]
  rfl

theorem aoRange_rangeNow {s : State} {o : Nat} (h : s.rd (Reg.AO_CFG_RANGE o) = (s.ao o).rangeNow) :
    ((aoRange s o).ao o).rangeNow = (s.ao o).rangeNow := by
  unfold aoRange
  dsimp only
  rw [if_pos h, if_pos h]
  split
  · rfl
  · rw [ao_modAo_self]
    exact h

theorem aoReserve_ao (s : State) (o b : Nat) : (aoReserve s o).ao b = s.ao b := by
  unfold aoReserve
  split <;> rfl

/-- An output whose range does not change keeps it over the beat. -/
theorem aoReady_rangeNow {s : State} {o : Nat} (ho : o < 16) (v i head : Int) (h : s.rd (Reg.AO_CFG_RANGE o) = (s.ao o).rangeNow) :
    ((aoReady s o v i head).ao o).rangeNow = (s.ao o).rangeNow := by
  have hlow : ¬ aoStatKey o (Reg.AO_CFG_RANGE o).key := not_aoStatKey_of_lt o (by simp only [Reg.AO_CFG_RANGE]; omega)
  have hj := aoJudge_rangeNow s o v i head
  have hr : (aoJudge s o v i head).rd (Reg.AO_CFG_RANGE o) = ((aoJudge s o v i head).ao o).rangeNow := by
    rw [(OutputMoves.refl o s).aoJudge.rd _ hlow, hj, h]
  refine Eq.trans ?_ ((aoRange_rangeNow hr).trans hj)
  unfold aoReady
  rw [State.wrB, show ∀ u : State, ∀ f n, (u.wr f n).ao o = u.ao o from fun _ _ _ => rfl, aoReserve_ao, aoSine, ao_modAo_self]

theorem aoBeat_disabled {s : State} {o : Nat} (ho : o < 16) (v i head : Int) (h : s.flag (Reg.AO_CFG_EN o) = false) :
    (aoBeat s o v i head).rd (Reg.AO_STAT_CODE_NOW o) = s.rd (Reg.AO_CLEAR_CODE_CODE o) % 2 ^ 24 ∧
      (aoBeat s o v i head).rd (Reg.AO_STAT_STATE o) = 0 := by
  have hm := outputMoves_aoReady s o v i head
  have hen : (aoReady s o v i head).flag (Reg.AO_CFG_EN o) = false :=
    (State.flag_congr (hm.rd _ (not_aoStatKey_of_lt o (by simp only [Reg.AO_CFG_EN]; omega)))).trans h
  rw [aoBeat_eq, aoFree_disabled hen, if_neg Bool.false_ne_true, clearAo_code, clearAo_state_disabled hen,
    hm.rd _ (not_aoStatKey_of_lt o (by simp only [Reg.AO_CLEAR_CODE_CODE]; omega))]
  exact ⟨rfl, rfl⟩

theorem aoBeat_free {s : State} {o : Nat} (ho : o < 16) (v i head : Int) (hfree : s.aoFree o = true) (hr : (s.ao o).rangeNow = 0)
    (hrange : s.rd (Reg.AO_CFG_RANGE o) = 0) (hsrc : s.aoSrc o = 0) (hslew : s.rd (Reg.AO_CFG_SLEW o) = 0) :
    (aoBeat s o v i head).rd (Reg.AO_STAT_CODE_NOW o) = s.rd (Reg.AO_CODE_CODE o) % 2 ^ 24 ∧
      (aoBeat s o v i head).rd (Reg.AO_STAT_STATE o) = 3 ∧ (aoBeat s o v i head).rd (Reg.AO_STAT_CLIP o) = 0 := by
  have hm := outputMoves_aoReady s o v i head
  have hlow (f : Fld) (hf : f.key < 8 * 0x64300) := hm.rd f (not_aoStatKey_of_lt o hf)
  have hsrc' : (aoReady s o v i head).aoSrc o = 0 := by
    rw [← hsrc]
    unfold State.aoSrc
    rw [hlow _ (by simp only [Reg.AO_CFG_SRC]; omega)]
  rw [aoBeat_eq, hm.aoFree ho, if_pos hfree, ← hlow (Reg.AO_CODE_CODE o) (by simp only [Reg.AO_CODE_CODE]; omega)]
  exact aoDrive_code ((aoReady_rangeNow ho v i head (hrange.trans hr.symm)).trans hr) hsrc'
    ((hlow _ (by simp only [Reg.AO_CFG_SLEW]; omega)).trans hslew)

theorem State.journalW_ao (s : State) (src : WrSrc) (r : RegId) (k i v o : Nat) : (s.journalW src r k i v).ao o = s.ao o := by
  unfold State.journalW State.journalB
  split <;> rfl

end Sys2Proof.Machine

namespace Sys2Proof
open Sys2Proof.Machine

/-! ## A beat (R274) -/

theorem exec_aoBeatUpdate_off {s : State} (vs amps head : List Int) (h : s.domOn 18 = false) :
    ∃ t, exec (.aoBeatUpdate vs amps head) s = .next t ∧ t = s := by
  have hcall : aosBeat s vs amps head = s := if_neg (by simp [h])
  refine answer_of ?_
  rw [hcall]
  rfl

/-- A beat with PD18 on: output `o` takes its own step between those of the others, which leave what it reads and what it shows. -/
theorem exec_aoBeatUpdate_on {s : State} (vs amps head : List Int) {o : Nat} (h : s.domOn 18 = true) (ho : o < 16) :
    ∃ t, exec (.aoBeatUpdate vs amps head) s = .next t ∧
      (s.flag (Reg.AO_CFG_EN o) = false → t.rd (Reg.AO_STAT_CODE_NOW o) = s.rd (Reg.AO_CLEAR_CODE_CODE o) % 2 ^ 24 ∧ t.rd (Reg.AO_STAT_STATE o) = 0) ∧
      (s.aoFree o = true → (s.ao o).rangeNow = 0 → s.rd (Reg.AO_CFG_RANGE o) = 0 → s.aoSrc o = 0 → s.rd (Reg.AO_CFG_SLEW o) = 0 →
        t.rd (Reg.AO_STAT_CODE_NOW o) = s.rd (Reg.AO_CODE_CODE o) % 2 ^ 24 ∧ t.rd (Reg.AO_STAT_STATE o) = 3 ∧ t.rd (Reg.AO_STAT_CLIP o) = 0) := by
  have hcall : aosBeat s vs amps head =
      (List.range 16).foldl (fun u b => aoBeat u b (vs.getD b 0) (amps.getD b 0) (head.getD b 24000000)) s := if_pos h
  obtain ⟨u, hbefore, hafter⟩ := exists_own_step (g := fun u b => aoBeat u b (vs.getD b 0) (amps.getD b 0) (head.getD b 24000000))
    (fun u b => outputMoves_aoBeat u b _ _ _) List.nodup_range (List.mem_range.2 ho) s
  refine answer_of ?_
  rw [hcall]
  generalize List.foldl _ s _ = t at hafter ⊢
  simp only [State.keepQueue_rd]
  rw [hafter.stat (f := Reg.AO_STAT_CODE_NOW o) 32 rfl (by decide), hafter.stat (f := Reg.AO_STAT_STATE o) 0 rfl (by decide),
    hafter.stat (f := Reg.AO_STAT_CLIP o) 6 rfl (by decide)]
  refine ⟨fun hen => ?_, fun hfree hr hrange hsrc hslew => ?_⟩
  · rw [← hbefore.low (f := Reg.AO_CLEAR_CODE_CODE o) (by simp only [Reg.AO_CLEAR_CODE_CODE]; omega)]
    exact aoBeat_disabled ho _ _ _ ((State.flag_congr (hbefore.low (by simp only [Reg.AO_CFG_EN]; omega))).trans hen)
  · rw [← hbefore.low (f := Reg.AO_CODE_CODE o) (by simp only [Reg.AO_CODE_CODE]; omega)]
    have hsrc' : u.aoSrc o = 0 := by
      rw [← hsrc]
      unfold State.aoSrc
      rw [hbefore.low (by simp only [Reg.AO_CFG_SRC]; omega)]
    exact aoBeat_free ho _ _ _ ((hbefore.aoFree ho).trans hfree) (by rw [hbefore.ao, hr])
      ((hbefore.low (by simp only [Reg.AO_CFG_RANGE]; omega)).trans hrange) hsrc' ((hbefore.low (by simp only [Reg.AO_CFG_SLEW]; omega)).trans hslew)

/-! ## The clear inputs (R19, R276) -/

/-- Only registers and outputs have changed. -/
def onlyOutputs (s t : State) : Prop := t = { s with regs := t.regs, aos := t.aos }

theorem onlyOutputs_trans {s t u : State} (h : onlyOutputs s t) (k : onlyOutputs t u) : onlyOutputs s u := by
  unfold onlyOutputs at *
  rw [k, h]

theorem onlyOutputs_setCode (s : State) (o : Nat) (v : Int) (st : Nat) : onlyOutputs s (setCode s o v st) := by
  unfold onlyOutputs setCode
  dsimp only
  split <;> rfl

theorem onlyOutputs_clearAo (s : State) (o : Nat) : onlyOutputs s (clearAo s o) := onlyOutputs_trans (onlyOutputs_setCode s o _ _) rfl

theorem onlyOutputs_foldl {g : State → Nat → State} (hg : ∀ s b, onlyOutputs s (g s b)) (l : List Nat) (s : State) : onlyOutputs s (l.foldl g s) := by
  induction l generalizing s with
  | nil => rfl
  | cons b l ih => exact onlyOutputs_trans (hg s b) (ih _)

/-- The flag of a clear input. -/
def clrInput (ch : Nat) : Fld := if ch = 0 then Reg.DV_CARD_STAT_AOCLR0 else Reg.DV_CARD_STAT_AOCLR1

theorem clrInput_key (ch : Nat) : (clrInput ch).width = 1 ∧ (clrInput ch).key < 8 * 0x64000 := by
  unfold clrInput
  split <;> decide

/-- An output that its input clears. -/
def pinClear (s : State) (o : Nat) : State := (clearAo s o).set (Reg.AO_STAT_CLR_PIN o)

theorem outputMoves_pinClear (s : State) (o : Nat) : OutputMoves o s (pinClear s o) :=
  (OutputMoves.refl o s).clearAo.wr (aoStatKey_add o 7 rfl (by decide))

theorem onlyOutputs_pinClear (s : State) (o : Nat) : onlyOutputs s (pinClear s o) :=
  onlyOutputs_trans (onlyOutputs_clearAo s o) rfl

theorem pinClear_code (s : State) (o : Nat) : (pinClear s o).rd (Reg.AO_STAT_CODE_NOW o) = s.rd (Reg.AO_CLEAR_CODE_CODE o) % 2 ^ 24 :=
  (State.rd_wr_ne _ _ (aoStat_ne o 7 32 rfl rfl (by decide))).trans (clearAo_code s o)

/-- The outputs of a clear input. -/
def inputOutputs (ch : Nat) : List Nat := (List.range 8).map (fun k => 8 * ch + k)

theorem nodup_inputOutputs (ch : Nat) : (inputOutputs ch).Nodup :=
  List.nodup_range.map fun a b (h : 8 * ch + a = 8 * ch + b) => by omega

theorem exec_aoclrEdge_assert {s : State} {ch : Nat} (hch : ch < 2) (h : s.flag (clrInput ch) = false) : ∃ t, exec (.aoclrEdge ch true) s = .next t ∧
    t.flag (clrInput ch) = true ∧ barks s t 0x31 0x3104 ∧
    (∀ k, k < 8 → t.rd (Reg.AO_STAT_CODE_NOW (8 * ch + k)) = s.rd (Reg.AO_CLEAR_CODE_CODE (8 * ch + k)) % 2 ^ 24 ∧
      t.flag (Reg.AO_STAT_CLR_PIN (8 * ch + k)) = true) ∧ t = { s with regs := t.regs, aos := t.aos, bq := t.bq } := by
  obtain ⟨hw, hlow⟩ := clrInput_key ch
  have hcall : aoclrEdge s ch true = ((inputOutputs ch).foldl pinClear (s.set (clrInput ch))).bark 0x31 0x3104 false [8 * ch, 1] :=
    if_neg (fun hf => Bool.false_ne_true (h.symm.trans hf))
  have hset := rd_foldl_low outputMoves_pinClear (inputOutputs ch) (s.set (clrInput ch)) (f := clrInput ch) (by omega)
  have hframe := onlyOutputs_foldl onlyOutputs_pinClear (inputOutputs ch) (s.set (clrInput ch))
  have hown (k : Nat) (hk : k < 8) := exists_own_step outputMoves_pinClear (nodup_inputOutputs ch) (List.mem_map_of_mem (List.mem_range.2 hk))
    (s.set (clrInput ch))
  refine guard_of (decide_eq_true hch) ?_
  rw [hcall]
  generalize List.foldl pinClear _ _ = t at hset hframe hown ⊢
  unfold onlyOutputs at hframe
  refine ⟨?_, ?_, fun k hk => ?_, ?_⟩
  · exact (State.flag_congr hset).trans (State.flag_set_self s hw)
  · rw [barks_keepQueue]
    rw [hframe]
    exact barks_bark _ _ _ _ _ _ rfl rfl
  · obtain ⟨u, hbefore, hafter⟩ := hown k hk
    rw [State.keepQueue_rd, State.bark_rd, State.keepQueue_flag, State.bark_flag]
    refine ⟨?_, ?_⟩
    · rw [hafter.stat 32 rfl (by decide), pinClear_code, hbefore.low (by simp only [Reg.AO_CLEAR_CODE_CODE]; omega), State.rd_set_ne]
      simp only [Reg.AO_CLEAR_CODE_CODE]
      omega
    · exact (State.flag_congr (hafter.stat 7 rfl (by decide))).trans (State.flag_set_self _)
  · rw [hframe]
    rfl

theorem exec_aoclrEdge_release {s : State} {ch : Nat} (hch : ch < 2) (h : s.flag (clrInput ch) = true) : ∃ t, exec (.aoclrEdge ch false) s = .next t ∧
    t.flag (clrInput ch) = false ∧ barks s t 0x31 0x3104 ∧ t = { s with regs := t.regs, bq := t.bq } ∧ onlyRegs s t [clrInput ch] := by
  have hcall : aoclrEdge s ch false = (s.clr (clrInput ch)).bark 0x31 0x3104 false [8 * ch, 0] :=
    if_neg (fun hf => Bool.false_ne_true (hf.symm.trans h))
  refine guard_of (decide_eq_true hch) ?_
  rw [hcall]
  refine ⟨State.flag_clr_self s _, ?_, rfl, onlyRegs_wr s _ 0⟩
  rw [barks_keepQueue]
  exact barks_bark _ _ _ _ _ _ rfl rfl

/-! ## AO_CODE (R243, R274, R279) -/

/-- The write of an output's code, before its record in the journal. -/
def codeWritten (s : State) (o code : Nat) : State :=
  ((s.wr (Reg.AO_CODE_CODE o) code).modAo o (fun y => { y with leashHeld := false })).when (s.mode = mCOMMISSION)
    (fun u => u.modAo o (fun y => { y with live := true }))

theorem codeWritten_ao (s : State) (o code : Nat) : ((codeWritten s o code).ao o).leashHeld = false ∧
    (s.mode = mCOMMISSION → ((codeWritten s o code).ao o).live = true) := by
  unfold codeWritten State.when
  split
  · rw [ao_modAo_self, ao_modAo_self]
    exact ⟨rfl, fun _ => rfl⟩
  · next h =>
    rw [ao_modAo_self]
    exact ⟨rfl, fun hm => absurd (decide_eq_true hm) h⟩

theorem codeWritten_frame (s : State) (o code : Nat) :
    codeWritten s o code = { s with regs := (s.wr (Reg.AO_CODE_CODE o) code).regs, aos := (codeWritten s o code).aos } := by
  unfold codeWritten State.when
  split <;> rfl

theorem exec_aoCodeWrite_taken {s : State} {src : WrSrc} {o : Nat} (code : Nat) (ho : o < 16) (harena : s.arenaOn 3 o = none)
    (htakes : s.takes src .AO_CODE 0 o true = true) : ∃ t, exec (.aoCodeWrite src o code) s = .next t ∧
    t.rd (Reg.AO_CODE_CODE o) = code % 2 ^ 24 ∧ (t.ao o).leashHeld = false ∧ (s.mode = mCOMMISSION → (t.ao o).live = true) ∧
    t = { s with regs := t.regs, aos := t.aos, kn := t.kn } ∧ onlyRegs s t [Reg.AO_CODE_CODE o] := by
  have hcall : aoCodeWrite s src o code = (codeWritten s o code).journalW src .AO_CODE 0 o code := by
    unfold aoCodeWrite
    rw [if_neg (by simp [harena]), State.write_taken s _ htakes]
    rfl
  have hframe := codeWritten_frame s o code
  obtain ⟨hheld, hlive⟩ := codeWritten_ao s o code
  refine guard_of (decide_eq_true ho) ?_
  rw [hcall]
  generalize codeWritten s o code = u at hframe hheld hlive ⊢
  have hrd (f : Fld) : ((u.journalW src .AO_CODE 0 o code).keepQueue s).rd f = (s.wr (Reg.AO_CODE_CODE o) code).rd f := by
    rw [State.keepQueue_rd, State.journalW_rd, hframe]
    rfl
  refine ⟨(hrd _).trans (State.rd_wr_self s _ _), ?_, fun hm => ?_, ?_, fun f hf => (hrd f).trans (onlyRegs_wr s _ _ f hf)⟩
  · exact (congrArg Ao.leashHeld (State.journalW_ao u src .AO_CODE 0 o code o)).trans hheld
  · exact (congrArg Ao.live (State.journalW_ao u src .AO_CODE 0 o code o)).trans (hlive hm)
  · rw [hframe]
    unfold State.journalW State.journalB
    split <;> rfl

theorem exec_aoCodeWrite_arena {s : State} {o : Nat} (code : Nat) (ho : o < 16) (harena : (s.arenaOn 3 o).isSome = true) :
    ∃ t, exec (.aoCodeWrite .direct o code) s = .next t ∧
    t.rd Reg.HUB_WR_STAT_DISCARDS = satU 32 (s.rd Reg.HUB_WR_STAT_DISCARDS + 1) ∧ t = { s with regs := t.regs } ∧
    onlyRegs s t [Reg.HUB_WR_STAT_DISCARDS, Reg.HUB_WR_STAT_LAST_OFS] := by
  have hcall : aoCodeWrite s .direct o code = s.discard (ofsOf .AO_CODE 0 o) := if_pos (by simp [harena])
  refine guard_of (decide_eq_true ho) ?_
  rw [hcall]
  exact ⟨State.rd_discard_count s _, rfl, discard_onlyRegs s _⟩

/-! ## Faults (R278) -/

/-- A fault of an output that is flagged, counted and barked. -/
def countedFault (s : State) (o code : Nat) (f seen cnt : Fld) : State := (((s.set f).set seen).count cnt).bark 0x31 code true [o]

theorem countedFault_flags (s : State) (o code : Nat) {f seen cnt : Fld} (hf : f.width = 1) (hs : seen.width = 1) (hseen : seen.key ≠ f.key)
    (hcnt : cnt.key ≠ f.key ∧ cnt.key ≠ seen.key) (hw : cnt.width = 32) :
    (countedFault s o code f seen cnt).flag f = true ∧ (countedFault s o code f seen cnt).flag seen = true ∧
      (countedFault s o code f seen cnt).rd cnt = satU 32 (s.rd cnt + 1) ∧ barks s (countedFault s o code f seen cnt) 0x31 code ∧
      countedFault s o code f seen cnt = { s with regs := (countedFault s o code f seen cnt).regs, bq := (countedFault s o code f seen cnt).bq } ∧
      onlyRegs s (countedFault s o code f seen cnt) [f, seen, cnt] := by
  unfold countedFault
  refine ⟨?_, ?_, ?_, barks_bark _ _ _ _ _ _ rfl rfl, rfl, ?_⟩
  · rw [State.bark_flag, State.flag_count_ne _ hcnt.1, State.flag_set_ne _ hseen]
    exact State.flag_set_self s hf
  · rw [State.bark_flag, State.flag_count_ne _ hcnt.2]
    exact State.flag_set_self _ hs
  · rw [State.bark_rd, State.rd_count_self, State.rd_set_ne _ hcnt.2.symm, State.rd_set_ne _ hcnt.1.symm, hw]
  · exact onlyRegs_mono (onlyRegs_snoc (onlyRegs_snoc (onlyRegs_wr s f 1) seen 1) cnt _) (by simp)


theorem exec_aoCompliance {s : State} {o : Nat} (ho : o < 16) (hn : 2 ≤ (s.ao o).low) (h : s.flag (Reg.AO_STAT_COMPLIANCE o) = false) :
    exec (.aoCompliance o) s = .next (countedFault s o 0x3101 (Reg.AO_STAT_COMPLIANCE o) (Reg.AO_STAT_COMPL_SEEN o) Reg.AO_CNT_COMPL_EVENTS) := by
  have hcall : aoCompliance s o = countedFault s o 0x3101 (Reg.AO_STAT_COMPLIANCE o) (Reg.AO_STAT_COMPL_SEEN o) Reg.AO_CNT_COMPL_EVENTS :=
    if_pos (by simp [hn, h])
  have hexec : exec (.aoCompliance o) s = guardItem (o < 16) (answer s (aoCompliance s o)) := rfl
  rw [hexec, hcall, show decide (o < 16) = true from decide_eq_true ho]
  rfl

theorem exec_aoOpen {s : State} {o : Nat} (ho : o < 16) (hn : 2 ≤ (s.ao o).openN) (h : s.flag (Reg.AO_STAT_OPEN o) = false) :
    exec (.aoOpen o) s = .next (countedFault s o 0x3102 (Reg.AO_STAT_OPEN o) (Reg.AO_STAT_OPEN_SEEN o) Reg.AO_CNT_OPEN_EVENTS) := by
  have hcall : aoOpen s o = countedFault s o 0x3102 (Reg.AO_STAT_OPEN o) (Reg.AO_STAT_OPEN_SEEN o) Reg.AO_CNT_OPEN_EVENTS :=
    if_pos (by simp [hn, h])
  have hexec : exec (.aoOpen o) s = guardItem (o < 16) (answer s (aoOpen s o)) := rfl
  rw [hexec, hcall, show decide (o < 16) = true from decide_eq_true ho]
  rfl

theorem exec_aoOverload {s : State} {o : Nat} (ho : o < 16) (hn : 2 ≤ (s.ao o).overN) (h : s.flag (Reg.AO_STAT_OVERLOAD o) = false) :
    ∃ t, exec (.aoOverload o) s = .next t ∧ t.flag (Reg.AO_STAT_OVERLOAD o) = true ∧ t.flag (Reg.AO_STAT_OVERLOAD_SEEN o) = true ∧
    barks s t 0x31 0x3103 ∧ t = { s with regs := t.regs, bq := t.bq } ∧ onlyRegs s t [Reg.AO_STAT_OVERLOAD o, Reg.AO_STAT_OVERLOAD_SEEN o] := by
  have hcall : aoOverload s o = ((s.set (Reg.AO_STAT_OVERLOAD o)).set (Reg.AO_STAT_OVERLOAD_SEEN o)).bark 0x31 0x3103 true [o] :=
    if_pos (by simp [hn, h])
  refine guard_of (decide_eq_true ho) ?_
  rw [hcall]
  refine ⟨?_, State.flag_set_self _, ?_, rfl, ?_⟩
  · rw [State.keepQueue_flag, State.bark_flag, State.flag_set_ne _ (aoStat_ne o 10 5 rfl rfl (by decide))]
    exact State.flag_set_self s
  · rw [barks_keepQueue]
    exact barks_bark _ _ _ _ _ _ rfl rfl
  · exact onlyRegs_mono (onlyRegs_snoc (onlyRegs_wr s (Reg.AO_STAT_OVERLOAD o) 1) (Reg.AO_STAT_OVERLOAD_SEEN o) 1) (by simp)

/-- A counter of AO_CNT is no field of the AO_STAT of one of the 16 outputs. -/
theorem aoCnt_ne {j k o : Nat} (m : Nat) (ho : o < 16) (hj : 8 * 0x64400 ≤ j) (hk : k = 8 * (0x64300 + 16 * o) + m) (hm : m < 128) : j ≠ k := by omega

/-- Settles O29: the outputs step one after the other, and each leaves what the others read. -/
theorem analogueOutputs : Obligations.AnalogueOutputs := by
  intro s
  refine ⟨fun vs amps head => exec_aoBeatUpdate_off vs amps head, fun vs amps head o => exec_aoBeatUpdate_on vs amps head,
    fun ch hch => ⟨exec_aoclrEdge_assert hch, exec_aoclrEdge_release hch⟩, fun src o code => exec_aoCodeWrite_taken code,
    fun o code => exec_aoCodeWrite_arena code, fun o ho hn h => ⟨_, exec_aoCompliance ho hn h, ?_⟩,
    fun o ho hn h => ⟨_, exec_aoOpen ho hn h, ?_⟩, fun o => exec_aoOverload⟩
  · exact countedFault_flags s o 0x3101 rfl rfl (aoStat_ne o 8 3 rfl rfl (by decide))
      ⟨aoCnt_ne 3 ho (by decide) rfl (by decide), aoCnt_ne 8 ho (by decide) rfl (by decide)⟩ rfl
  · exact countedFault_flags s o 0x3102 rfl rfl (aoStat_ne o 9 4 rfl rfl (by decide))
      ⟨aoCnt_ne 4 ho (by decide) rfl (by decide), aoCnt_ne 9 ho (by decide) rfl (by decide)⟩ rfl

end Sys2Proof
end

