-- ==== Sys2Proof/Proofs/ModeRequests.lean ====
section
/-! PROOFS. Mode requests (R26, R27): how a request is judged, and what its answer changes. -/

namespace Sys2Proof
open Sys2Proof.Machine

/-! ## Judging a request -/

theorem judgeReq_begin (s : State) (h : CmdHdr) (target : Nat) : judgeReq (s.begin h) target = judgeReq s target := by
  rw [begin_frame]
  rfl

theorem judgeReq_same (s : State) : judgeReq s s.mode = .done := if_pos (by simp)

section
variable {s : State} {target : Nat} (hne : target ≠ s.mode) (hrun : ¬ (target = mRUN ∧ s.mode = mDEGRADED))
include hne hrun

/-- A request for another mode is judged by what bars it. -/
theorem judgeReq_other : judgeReq s target =
    if s.barred then .refused .modeForbids
    else if target = mDEGRADED || 7 < target then .refused .badParam
    else if !s.permitted target then .refused .modeForbids
    else if (target = mRUN || target = mCOMMISSION) && s.stowHeld then .refused .modeForbids
    else if (target = mRUN || target = mCOMMISSION || target = mSTOW) && s.critical then .refused .modeForbids
    else if target = mRUN && s.activeBank = 0 then .refused .modeForbids
    else .go :=
  if_neg (by simpa using ⟨hne, not_and.1 hrun⟩)

theorem judgeReq_barred (h : s.barred = true) : judgeReq s target = .refused .modeForbids := by
  rw [judgeReq_other hne hrun, if_pos h]

theorem judgeReq_notPermitted (hs : s.sampling = true) (hd : target ≠ mDEGRADED) (h7 : target ≤ 7) (hp : s.permitted target = false) :
    judgeReq s target = .refused .modeForbids := by
  rw [judgeReq_other hne hrun, if_neg (by simp [State.barred, hs]), if_neg (by simp [hd, Nat.not_lt.2 h7]), if_pos (by simp [hp])]

end

theorem judgeReq_degraded {s : State} (hs : s.sampling = true) (hm : s.mode ≠ mDEGRADED) : judgeReq s mDEGRADED = .refused .badParam := by
  rw [judgeReq_other hm.symm (fun h => absurd h.1 (by decide)), if_neg (by simp [State.barred, hs]), if_pos (by simp)]

/-! ## What the answer changes -/

/-- Behind another trigger, or a level that acts, a request waits. -/
theorem submitReq_wait {s : State} (target : Nat) (h : Option CmdHdr) (hw : s.hub.trigs ≠ [] ∨ s.levelActs = true) :
    submitReq s target h = s.trigger (.request target h) := by
  refine if_pos ?_
  rcases hw with hw | hw
  · simp [hw]
  · simp [hw]

section
variable {s : State} (htrigs : s.hub.trigs = []) (hlevel : s.levelActs = false)
include htrigs hlevel

/-- Where nothing stands before it a request is judged at once. -/
theorem submitReq_judged (target : Nat) (h : Option CmdHdr) : submitReq s target h =
    match judgeReq s target with
    | .done => reqDone s h
    | .refused st => reqRefused s h st
    | .go => s.trigger (.request target h) := if_neg (by simp [htrigs, hlevel])

theorem submitReq_done {target : Nat} (h : Option CmdHdr) (hj : judgeReq s target = .done) : submitReq s target h = reqDone s h := by
  rw [submitReq_judged htrigs hlevel, hj]

theorem submitReq_refused {target : Nat} {st : Status} (h : Option CmdHdr) (hj : judgeReq s target = .refused st) :
    submitReq s target h = reqRefused s h st := by
  rw [submitReq_judged htrigs hlevel, hj]

theorem submitReq_go {target : Nat} (h : Option CmdHdr) (hj : judgeReq s target = .go) : submitReq s target h = s.trigger (.request target h) := by
  rw [submitReq_judged htrigs hlevel, hj]

end

theorem begin_levelActs (s : State) (h : CmdHdr) : (s.begin h).levelActs = s.levelActs := by
  rw [begin_frame]
  rfl

/-! ## MODE_SET -/

/-- A request that waits or goes carries its command. -/
theorem exec_modeSet_trigger {s : State} {h : CmdHdr} {target : Nat}
    (hcall : submitReq (s.begin h) target (some h) = (s.begin h).trigger (.request target (some h))) :
    ∃ t, exec (.modeSet h target) s = .next t ∧ carried t h ∧ t.hub.trigs = s.hub.trigs ++ [.request target (some h)] ∧
      t = { s with hp := t.hp, hub := t.hub } := by
  refine answer_of ?_
  rw [hcall]
  refine ⟨begin_carried s h, ?_, ?_⟩
  · rw [State.keepQueue_hub, State.trigger, State.begin_hub]
  · rw [begin_frame]
    rfl

theorem exec_modeSet_done {s : State} {h : CmdHdr} (hr : byRing s h) (htrigs : s.hub.trigs = []) (hlevel : s.levelActs = false) :
    ∃ t, exec (.modeSet h s.mode) s = .next t ∧ settled t h ∧ posts s t h .ok ∧ t = { s with hp := t.hp } := by
  have hj : judgeReq (s.begin h) s.mode = .done := (judgeReq_begin s h _).trans (judgeReq_same s)
  have hcall := submitReq_done (s := s.begin h) (by simpa using htrigs) ((begin_levelActs s h).trans hlevel) (some h) hj
  have hframe : (s.begin h).complete h .ok (s.begin h).mode = { s with hp := ((s.begin h).complete h .ok (s.begin h).mode).hp } := by
    rw [complete_ring_frame (s.begin h) h _ _ _ hr.1 (by simpa using hr.2), begin_frame]
  refine answer_of ?_
  rw [hcall]
  refine ⟨complete_settled _ h _ _ _, begin_complete_posts s h _ _ _ hr, ?_⟩
  have hdone : reqDone (s.begin h) (some h) = (s.begin h).complete h .ok (s.begin h).mode := rfl
  rw [hdone, hframe]
  rfl

/-- A refused request is barked, and its command completes with the status. -/
theorem exec_modeSet_refused {s : State} {h : CmdHdr} {target : Nat} {st : Status} (hr : byRing s h) (htrigs : s.hub.trigs = [])
    (hlevel : s.levelActs = false) (hj : judgeReq s target = .refused st) :
    ∃ t, exec (.modeSet h target) s = .next t ∧ settled t h ∧ posts s t h st ∧ barks s t 1 0x0111 := by
  have hcall := submitReq_refused (s := s.begin h) (by simpa using htrigs) ((begin_levelActs s h).trans hlevel) (some h)
    ((judgeReq_begin s h target).trans hj)
  refine answer_of ?_
  rw [hcall]
  have hrefused : reqRefused (s.begin h) (some h) st = ((s.begin h).bark 1 0x0111 true []).refuse h st := rfl
  rw [hrefused]
  have hon : ((s.begin h).bark 1 0x0111 true []).ringsOn = true := (begin_ringsOn s h).trans hr.2
  refine ⟨refuse_settled _ h st, ?_, ?_⟩
  · rw [posts_keepQueue]
    unfold State.refuse
    split
    · exact complete_posts s _ h st _ _ hr.1 hon (begin_carried s h) (by simp)
    · exact complete_posts s _ h st _ _ hr.1 hon (begin_carried s h) (by simp)
  · rw [barks_keepQueue]
    have hb : barks s ((s.begin h).bark 1 0x0111 true []) 1 0x0111 := barks_bark _ _ _ _ _ _ (by simp) (by simp)
    have hbq : (((s.begin h).bark 1 0x0111 true []).refuse h st).bq = ((s.begin h).bark 1 0x0111 true []).bq := by
      unfold State.refuse
      split
      · rw [complete_ring_frame _ h _ _ _ hr.1 hon]
      · rw [complete_ring_frame _ h _ _ _ hr.1 hon]
    unfold barks
    rw [hbq]
    exact hb

/-! ## HUB_MODE_REQ.GO -/

section
variable {s : State} {src : WrSrc} (htakes : s.takes src .HUB_MODE_REQ 0 0 false = true) (htrigs : s.hub.trigs = []) (hlevel : s.levelActs = false)
include htakes htrigs hlevel

theorem exec_hubModeReqGo_done (hm : s.rd Reg.HUB_MODE_REQ_TARGET = s.mode) : ∃ t, exec (.hubModeReqGo src) s = .next t ∧
    t.rd Reg.HUB_MODE_REQ_DONE = 1 ∧ t = { s with regs := t.regs } ∧ onlyRegs s t [Reg.HUB_MODE_REQ_DONE] := by
  refine answer_of ?_
  rw [State.write_taken s _ htakes, submitReq_done htrigs hlevel none (hm ▸ judgeReq_same s)]
  exact ⟨State.rd_wr_self s Reg.HUB_MODE_REQ_DONE 1, rfl, onlyRegs_wr s Reg.HUB_MODE_REQ_DONE 1⟩

theorem exec_hubModeReqGo_refused {st : Status} (hj : judgeReq s (s.rd Reg.HUB_MODE_REQ_TARGET) = .refused st) :
    ∃ t, exec (.hubModeReqGo src) s = .next t ∧ t.rd Reg.HUB_MODE_REQ_REJECT = 1 ∧ barks s t 1 0x0111 ∧
      t = { s with regs := t.regs, bq := t.bq } ∧ onlyRegs s t [Reg.HUB_MODE_REQ_REJECT] := by
  have hrefused : reqRefused s none st = (s.bark 1 0x0111 true []).set Reg.HUB_MODE_REQ_REJECT := rfl
  refine answer_of ?_
  rw [State.write_taken s _ htakes, submitReq_refused htrigs hlevel none hj, hrefused]
  refine ⟨State.rd_wr_self s Reg.HUB_MODE_REQ_REJECT 1, ?_, rfl, onlyRegs_wr s Reg.HUB_MODE_REQ_REJECT 1⟩
  rw [barks_keepQueue]
  exact barks_bark s s _ _ _ _ rfl rfl

theorem exec_hubModeReqGo_go (hj : judgeReq s (s.rd Reg.HUB_MODE_REQ_TARGET) = .go) : ∃ t, exec (.hubModeReqGo src) s = .next t ∧
    t.hub.trigs = [.request (s.rd Reg.HUB_MODE_REQ_TARGET) none] ∧ t = { s with hub := t.hub } := by
  refine answer_of ?_
  rw [State.write_taken s _ htakes, submitReq_go htrigs hlevel none hj]
  refine ⟨?_, rfl⟩
  rw [State.keepQueue_hub, State.trigger, htrigs]
  rfl

end

/-- Settles O2: each request by how it is judged. -/
theorem modeRequests : Obligations.ModeRequests := by
  intro s
  refine ⟨fun h target hw => ?_, fun h hr htrigs hlevel => ⟨exec_modeSet_done hr htrigs hlevel, fun target hne hrun hb => ?_, fun hs hm => ?_,
    fun target hne hrun hs hd h7 hp => ?_, fun target hj => ?_⟩, fun src htakes htrigs hlevel =>
      ⟨exec_hubModeReqGo_done htakes htrigs hlevel, fun st => exec_hubModeReqGo_refused htakes htrigs hlevel, exec_hubModeReqGo_go htakes htrigs hlevel⟩⟩
  · refine exec_modeSet_trigger (submitReq_wait target (some h) ?_)
    rwa [State.begin_hub, begin_levelActs]
  · exact exec_modeSet_refused hr htrigs hlevel (judgeReq_barred hne hrun hb)
  · exact exec_modeSet_refused hr htrigs hlevel (judgeReq_degraded hs hm)
  · exact exec_modeSet_refused hr htrigs hlevel (judgeReq_notPermitted hne hrun hs hd h7 hp)
  · have hgo := exec_modeSet_trigger (submitReq_go (s := s.begin h) (by simpa using htrigs) ((begin_levelActs s h).trans hlevel) (some h)
      ((judgeReq_begin s h target).trans hj))
    rwa [htrigs] at hgo

end Sys2Proof
end

