-- ==== Sys2Proof/Proofs/ModeInputs.lean ====
section
/-! PROOFS. Inputs that call for a mode (R23 to R25, R29, R161): the muzzle of the outputs, and the rate of a stream in STOW. -/

namespace Sys2Proof.Machine

/-! ## The muzzle of the actuation outputs (R385) -/

/-- Where a muzzle for the mode sends an axis. -/
def modeRest (s : State) : Nat := if s.halted then axHALTED else axMUZZLED

theorem muzzledState_modeRest (s : State) : muzzledState (modeRest s) := by
  unfold modeRest
  split
  · exact .inr rfl
  · exact .inl rfl

theorem onlyOutputs_clearAos (s : State) : onlyOutputs s (clearAos s) := onlyOutputs_foldl onlyOutputs_clearAo _ s

theorem onlyOutputs_hub {s t : State} (h : onlyOutputs s t) : t.hub = s.hub := by
  unfold onlyOutputs at h
  rw [h]

theorem rd_clearAos_low (s : State) {f : Fld} (hf : f.key < 8 * 0x64300) : (clearAos s).rd f = s.rd f :=
  rd_foldl_low (fun s o => (OutputMoves.refl o s).clearAo) _ s hf

theorem axState_clearAos (s : State) {a : Nat} (ha : a < 16) : (clearAos s).axState a = s.axState a :=
  rd_clearAos_low s (by simp only [Reg.DV_AX_STAT_STATE]; omega)

theorem muzzleActuation_eq (s : State) : muzzleActuation s = clearAos (muzzleAxes s (modeRest s) ecMODE) := rfl

theorem muzzleActuation_hub (s : State) : (muzzleActuation s).hub = s.hub := by
  rw [muzzleActuation_eq, onlyOutputs_hub (onlyOutputs_clearAos _)]
  exact (motionEnds_muzzleAxes s (modeRest s) ecMODE).hub

/-- After the muzzle of the actuation outputs no axis drives. -/
theorem muzzleActuation_rests (s : State) {a : Nat} (ha : a < 16) : (muzzleActuation s).axState a ≠ axHOLD ∧
    (muzzleActuation s).axState a ≠ axMOVING ∧ (muzzleActuation s).axState a ≠ axWAIT := by
  rw [muzzleActuation_eq, axState_clearAos _ ha]
  exact muzzleAxes_rests s (muzzledState_modeRest s) ecMODE ha

/-! ## The muzzle of the emulators -/

theorem emu_modEmu (s : State) (e b : Nat) (g : Emu → Emu) : (s.modEmu e g).emu b = if e = b then g (s.emu e) else s.emu b := by
  unfold State.modEmu State.emu
  split
  · next h => subst h; exact Sparse.get_put_self _ _ _ _
  · next h => exact Sparse.get_put_ne _ _ _ h _

theorem emu_eeMuzzle (s : State) (e b : Nat) (h : e = b ∨ (s.emu b).muzzled = true) : ((eeMuzzle s e).emu b).muzzled = true := by
  have hemu : (eeMuzzle s e).emu b = (s.modEmu e fun k => { k with e := s.eeCount e, muzzled := true, edges := [], changed := false }).emu b := rfl
  rw [hemu, emu_modEmu]
  split
  · rfl
  · next hne => exact h.resolve_left hne

theorem eeMuzzle_hub (s : State) (e : Nat) : (eeMuzzle s e).hub = s.hub := rfl

/-- The muzzle of an emulator changes EE_STAT alone, which lies below the drive card. -/
theorem rd_eeMuzzle (s : State) {e : Nat} (he : e < 16) {f : Fld} (hf : 8 * 0x60000 ≤ f.key) : (eeMuzzle s e).rd f = s.rd f := by
  unfold eeMuzzle
  rw [State.rd_clr_ne, State.rd_set_ne, State.rd_clr_ne]
  · rfl
  · simp only [Reg.EE_STAT_LIVE]; omega
  · simp only [Reg.EE_STAT_MUZZLED]; omega
  · simp only [Reg.EE_STAT_LAGGING]; omega

/-- The muzzle of a list of emulators. -/
theorem foldl_eeMuzzle (l : List Nat) (hl : ∀ e ∈ l, e < 16) (s : State) : (l.foldl eeMuzzle s).hub = s.hub ∧
    (∀ f : Fld, 8 * 0x60000 ≤ f.key → (l.foldl eeMuzzle s).rd f = s.rd f) ∧
    ∀ b, b ∈ l ∨ (s.emu b).muzzled = true → ((l.foldl eeMuzzle s).emu b).muzzled = true := by
  induction l generalizing s with
  | nil => exact ⟨rfl, fun _ _ => rfl, fun b h => h.resolve_left (by simp)⟩
  | cons e l ih =>
    obtain ⟨hhub, hrd, hemu⟩ := ih (fun b hb => hl b (List.mem_cons_of_mem e hb)) (eeMuzzle s e)
    refine ⟨hhub.trans (eeMuzzle_hub s e), fun f hf => (hrd f hf).trans (rd_eeMuzzle s (hl e List.mem_cons_self) hf), fun b hb => hemu b ?_⟩
    rcases hb with hb | hb
    · rcases List.mem_cons.1 hb with rfl | hb
      · exact .inr (emu_eeMuzzle s b b (.inl rfl))
      · exact .inl hb
    · exact .inr (emu_eeMuzzle s e b (.inr hb))

theorem muzzleAll_hub (s : State) : (muzzleAll s).hub = s.hub :=
  ((foldl_eeMuzzle _ (fun _ => List.mem_range.1) (muzzleActuation s)).1).trans (muzzleActuation_hub s)

theorem allMuzzled_muzzleAll (s : State) : allMuzzled (muzzleAll s) := by
  obtain ⟨-, hrd, hemu⟩ := foldl_eeMuzzle (List.range 16) (fun _ => List.mem_range.1) (muzzleActuation s)
  refine ⟨fun a ha => ?_, fun e he => hemu e (.inl (List.mem_range.2 he))⟩
  have hst : (muzzleAll s).axState a = (muzzleActuation s).axState a := hrd _ (by simp only [Reg.DV_AX_STAT_STATE]; omega)
  rw [hst]
  exact muzzleActuation_rests s ha

/-! ## The rate of a stream (R161) -/

/-- Whether a stream that is open runs at its reduced rate. -/
def State.slowRate (s : State) (i : Nat) : Option Bool := (s.stream i).map Stream.stowed

theorem slowRate_of_stream {s : State} {i : Nat} {x : Stream} (h : s.stream i = some x) : s.slowRate i = some x.stowed := by
  rw [State.slowRate, h]
  rfl

theorem slowRate_setStream (s : State) (i : Nat) (x : Stream) : (s.setStream i (some x)).slowRate i = some x.stowed :=
  slowRate_of_stream (s := s.setStream i (some x)) (Sparse.get_put_self none (some x) i s.rd_.streams)

/-- A stream that takes other records, breaks or values keeps its rate. -/
theorem slowRate_setStream_same {s : State} {i : Nat} {x y : Stream} (h : s.stream i = some x) (hy : y.stowed = x.stowed) :
    (s.setStream i (some y)).slowRate i = s.slowRate i := by
  rw [slowRate_setStream, slowRate_of_stream h, hy]

theorem slowRate_modStream (s : State) (i : Nat) {g : Stream → Stream} (hg : ∀ x, (g x).stowed = x.stowed) :
    (s.modStream i g).slowRate i = s.slowRate i := by
  unfold State.modStream
  split
  · rfl
  · next x h => exact slowRate_setStream_same h (hg x)

theorem slowRate_bark (s : State) (src code : Nat) (w : Bool) (p : List Nat) (i : Nat) : (s.bark src code w p).slowRate i = s.slowRate i := rfl

theorem slowRate_wr (s : State) (f : Fld) (v i : Nat) : (s.wr f v).slowRate i = s.slowRate i := rfl

theorem slowRate_deliver (s : State) (r : RecOut) (i : Nat) : (deliver s r).slowRate i = s.slowRate i := by
  unfold deliver
  dsimp only
  split
  · rfl
  · split_ifs <;> rfl

theorem slowRate_closeRec (s : State) (i : Nat) (table capture : Bool) : (closeRec s i table capture).slowRate i = s.slowRate i := by
  unfold closeRec
  split
  · rfl
  · next x h =>
    split
    · rfl
    · dsimp only
      rw [slowRate_deliver]
      exact slowRate_setStream_same h rfl

theorem slowRate_breakTo (s : State) (i p : Nat) : (breakTo s i p).slowRate i = s.slowRate i := by
  unfold breakTo
  split
  · rfl
  · split
    · refine (slowRate_modStream _ i ?_).trans ((slowRate_modStream _ i ?_).trans (slowRate_closeRec s i false false))
      · exact fun _ => rfl
      · exact fun _ => rfl
    · rfl

theorem slowRate_countSlots (s : State) (i : Nat) (ws : List SlotV) : (countSlots s i ws).slowRate i = s.slowRate i := by
  unfold countSlots
  split
  · rfl
  · next x h =>
    dsimp only
    split
    · exact slowRate_setStream_same h rfl
    · exact slowRate_setStream_same h rfl

theorem slowRate_wholeRec (s : State) (i p : Nat) (ws : List SlotV) (table : Bool) : (wholeRec s i p ws table).slowRate i = s.slowRate i := by
  unfold wholeRec
  dsimp only
  rw [← slowRate_breakTo s i p]
  generalize breakTo s i p = u
  split
  · rfl
  · next x h =>
    split
    · rfl
    · rw [slowRate_closeRec, slowRate_countSlots]
      exact slowRate_setStream_same h rfl

theorem slowRate_closeTable (s : State) (i e at_ : Nat) : (closeTable s i e at_).slowRate i = s.slowRate i := by
  unfold closeTable
  split
  · rfl
  · next x h =>
    dsimp only
    rw [slowRate_wholeRec]
    exact slowRate_setStream_same h rfl

theorem slowRate_homeEvent (s : State) (want : Homing → Bool) (e i : Nat) : (homeEvent s want e).slowRate i = s.slowRate i := by
  unfold homeEvent
  generalize List.range 16 = l
  induction l generalizing s with
  | nil => rfl
  | cons a l ih =>
    refine (ih _).trans ?_
    dsimp only
    split
    · split
      · split <;> rfl
      · rfl
    · rfl
    · rfl
    · rfl
    · rfl

theorem slowRate_noteSlot (s : State) (i p : Nat) (w : SlotV) (y : Int) : (noteSlot s i p w y).slowRate i = s.slowRate i := by
  unfold noteSlot
  dsimp only
  have hlatest (l : Sparse Latest) : ({ s with rd_ := { s.rd_ with latest := l } } : State).slowRate i = s.slowRate i := rfl
  rw [← hlatest]
  generalize ({ s with rd_ := _ } : State) = u
  unfold noteValue
  split
  · rfl
  · next x h =>
    split
    · rfl
    · dsimp only
      split
      · exact slowRate_setStream_same h rfl
      · rw [slowRate_homeEvent]
        exact slowRate_setStream_same h rfl

/-- A stream at some rate is open. -/
theorem exists_stream_of_slowRate {s : State} {i : Nat} {b : Bool} (h : s.slowRate i = some b) : ∃ x, s.stream i = some x ∧ x.stowed = b :=
  Option.map_eq_some_iff.1 h

theorem slowRate_putSlot (s : State) (i p : Nat) (slow : Bool) (v : SlotV) : (putSlot s i p slow v).slowRate i = s.slowRate i := by
  have hclose (c : Bool) (u : State) : (if c then u else closeRec u i false false).slowRate i = u.slowRate i := by
    cases c
    · exact slowRate_closeRec u i false false
    · rfl
  have hlast (c : Bool) (u : State) : (if c then closeRec u i false false else u).slowRate i = u.slowRate i := by
    cases c
    · rfl
    · exact slowRate_closeRec u i false false
  unfold putSlot
  dsimp only
  rw [← slowRate_breakTo s i p]
  generalize breakTo s i p = u
  split
  · rfl
  · next x0 h =>
    have hu := slowRate_of_stream h
    rw [← hclose (x0.rcd.all fun r => r.takes x0.defn v) u] at hu
    generalize (if x0.rcd.all fun r => r.takes x0.defn v then u else closeRec u i false false) = w at hu ⊢
    obtain ⟨x, hx, hst⟩ := exists_stream_of_slowRate hu
    rw [hlast, hx, slowRate_of_stream h, ← hst]
    split
    · exact slowRate_setStream _ _ _
    · exact slowRate_setStream _ _ _

theorem slowRate_emitBlock (s : State) (i : Nat) : (emitBlock s i).slowRate i = s.slowRate i := by
  unfold emitBlock
  split
  · rfl
  · next x h =>
    split
    · rfl
    · dsimp only
      rw [slowRate_noteSlot, slowRate_putSlot]
      exact slowRate_setStream_same h rfl

/-- The breaks of a stream that its ticks have passed, as they stood in `w`. -/
def passBreaks (w s : State) (i : Nat) : State :=
  match s.stream i with
  | none => s
  | some y => if y.defn.reduce ≤ 1 && y.blk.isNone then
      (match (y.breaks.filter (fun b => w.ahead y b)).getLast? with | some b => breakTo s i b | none => s) else s

/-- The tables of a stream that its ticks have passed. -/
def passTables (s : State) (i : Nat) (x : Stream) : State :=
  (x.tabCloses.filter (fun q => s.ahead x q.1)).foldl (fun u q => closeTable u i q.1 q.2)
    (s.setStream i (some { x with tabCloses := x.tabCloses.filter (fun q => !s.ahead x q.1) }))

theorem streamSettle_eq {s : State} {i : Nat} {x : Stream} (h : s.stream i = some x) : streamSettle s i =
    passBreaks s (if x.blk.any (fun b => x.tick.all (fun k => (x.blockOf k).1 ≠ b.at_)) then emitBlock (passTables s i x) i else passTables s i x) i := by
  unfold streamSettle
  rw [h]
  rfl

theorem slowRate_passBreaks (w s : State) (i : Nat) : (passBreaks w s i).slowRate i = s.slowRate i := by
  unfold passBreaks
  split
  · rfl
  · split
    · split
      · exact slowRate_breakTo s i _
      · rfl
    · rfl

theorem slowRate_passTables {s : State} {i : Nat} {x : Stream} (h : s.stream i = some x) : (passTables s i x).slowRate i = s.slowRate i := by
  have htables (l : List (Nat × Nat)) (u : State) : (l.foldl (fun u q => closeTable u i q.1 q.2) u).slowRate i = u.slowRate i := by
    induction l generalizing u with
    | nil => rfl
    | cons q l ih => exact (ih _).trans (slowRate_closeTable u i q.1 q.2)
  exact (htables _ _).trans (slowRate_setStream_same h rfl)

/-- What waits for ticks of a stream does not change its rate. -/
theorem slowRate_streamSettle {s : State} {i : Nat} {x : Stream} (h : s.stream i = some x) : (streamSettle s i).slowRate i = s.slowRate i := by
  rw [streamSettle_eq h, slowRate_passBreaks]
  split
  · rw [slowRate_emitBlock, slowRate_passTables h]
  · exact slowRate_passTables h

theorem stowed_takeRate (x : Stream) (on : Bool) (e : Nat) : (x.takeRate on e).stowed = on := by
  unfold Stream.takeRate
  dsimp only
  split <;> rfl

/-- A block stream below the rate of R161 takes the rate of the mode. -/
theorem slowRate_stowRate {s : State} {i : Nat} {x : Stream} (h : s.stream i = some x) (hred : stowReduced x.defn = true) :
    (stowRate s i).slowRate i = some (decide (s.mode = mSTOW)) := by
  unfold stowRate
  rw [h]
  dsimp only
  split
  · next hc =>
    rw [slowRate_of_stream h]
    simpa [hred] using hc
  · have hset := slowRate_setStream s i (x.takeRate (decide (s.mode = mSTOW)) s.now)
    obtain ⟨y, hy, -⟩ := exists_stream_of_slowRate hset
    rw [slowRate_streamSettle hy, hset, stowed_takeRate]

end Sys2Proof.Machine

namespace Sys2Proof
open Sys2Proof.Machine

/-! ## The inputs (R23 to R25, R29) -/

theorem exec_stowInput {s : State} (hm : s.mode ≠ mSAFE) (h : s.stowHeld = false) :
    ∃ t, exec .stowInput s = .next t ∧ t.stowHeld = true ∧ t.hub.stowSince = some s.run ∧ t = { s with hub := t.hub } := by
  have hcall : stowIgnored (if s.stowHeld then s else { s with hub := { s.hub with stowSince := some s.run } }) =
      { s with hub := { s.hub with stowSince := some s.run } } := by
    rw [if_neg (by simp [h])]
    refine if_neg fun hc => hm ?_
    simp only [Bool.and_eq_true, decide_eq_true_eq] at hc
    exact hc.1.1
  refine answer_of ?_
  rw [hcall]
  exact ⟨rfl, rfl, rfl⟩

/-- In SAFE an assertion is ignored, and barked once. -/
theorem exec_stowInput_ignored {s : State} (hm : s.mode = mSAFE) (h : s.hub.stowIgnored = false) : ∃ t, exec .stowInput s = .next t ∧
    t.stowHeld = true ∧ t.hub.stowIgnored = true ∧ barks s t 1 0x0113 ∧ t = { s with hub := t.hub, bq := t.bq } := by
  have hignore {u : State} (hu : u = { s with hub := u.hub }) (hheld : u.stowHeld = true) (hi : u.hub.stowIgnored = false) :
      stowIgnored u = ({ u with hub := { u.hub with stowIgnored := true } }).bark 1 0x0113 true [] := by
    refine if_pos ?_
    have hmode : u.mode = mSAFE := by rw [hu]; exact hm
    simp [hmode, hheld, hi]
  refine answer_of ?_
  cases hs : s.stowHeld
  · rw [if_neg Bool.false_ne_true, hignore (u := { s with hub := { s.hub with stowSince := some s.run } }) rfl rfl h]
    refine ⟨rfl, rfl, ?_, rfl⟩
    rw [barks_keepQueue]
    exact barks_bark _ _ _ _ _ _ rfl rfl
  · rw [if_pos rfl, hignore (u := s) rfl hs h]
    refine ⟨hs, rfl, ?_, rfl⟩
    rw [barks_keepQueue]
    exact barks_bark _ _ _ _ _ _ rfl rfl

/-- An axis that has not reached its stow position in time is muzzled. -/
theorem exec_stowAxisFail {s : State} {a : Nat} (ha : a < 16) (hm : s.mode = mSTOW) (hs : (s.axis a).stowing = true)
    (he : s.elapsed s.hub.modeAt (max 1 (s.rd Reg.HUB_GUARD_STOW_TIME) * cclkSec) = true) : ∃ t, exec (.stowAxisFail a) s = .next t ∧
    (t.axis a).stowing = false ∧ t.axState a ≠ axHOLD ∧ t.axState a ≠ axMOVING ∧ t.axState a ≠ axWAIT ∧ lastBark t 1 0x0115 := by
  have hcall : stowFail s a = ((muzzleLive s a (modeRest s) ecMODE).modAxis a (fun y => { y with stowing := false })).bark 1 0x0115 true [a] :=
    if_pos (by simp [hm, hs, he])
  have hrests : (muzzleLive s a (modeRest s) ecMODE).axState a ≠ axHOLD ∧ (muzzleLive s a (modeRest s) ecMODE).axState a ≠ axMOVING ∧
      (muzzleLive s a (modeRest s) ecMODE).axState a ≠ axWAIT := by
    have hst := muzzledState_modeRest s
    unfold muzzledState axMUZZLED axHALTED at hst
    rcases muzzleLive_self s a ecMODE (st := modeRest s) (by omega) with ⟨hi, he⟩ | ⟨-, he, -⟩
    · rw [he]
      unfold idleState axOFF axFAULT axLOCKOUT at hi
      unfold axHOLD axMOVING axWAIT
      omega
    · rw [he]
      unfold axHOLD axMOVING axWAIT
      omega
  obtain ⟨hhold, hmove, hwait⟩ := hrests
  refine guard_of (decide_eq_true ha) ?_
  rw [hcall]
  generalize muzzleLive s a (modeRest s) ecMODE = u at hhold hmove hwait ⊢
  refine ⟨?_, hhold, hmove, hwait, lastBark_bark _ _ _ _ _⟩
  rw [State.keepQueue_axis, State.bark_axis, axis_modAxis_self]

theorem exec_stowRateChange {s : State} {i : Nat} {x : Stream} (hs : s.sampling = true) (ho : s.openStreams = [i]) (hx : s.stream i = some x)
    (hred : x.defn.reduce = 1) (hrate : x.defn.clockArg + x.defn.redArg < 6) :
    ∃ t, exec .stowRateChange s = .next t ∧ ∃ y, t.stream i = some y ∧ y.stowed = decide (s.mode = mSTOW) := by
  have hcall : (if s.sampling then s.openStreams.foldl stowRate s else s) = stowRate s i := by rw [if_pos hs, ho]; rfl
  refine answer_of ?_
  rw [hcall]
  exact exists_stream_of_slowRate (slowRate_stowRate hx (by simp [stowReduced, hred, hrate]))

theorem exec_isolationTimeout {s : State} {t0 n : Nat} (h0 : s.hub.isoSince = some t0) (hn : s.isoTime = some n) (ha : s.active3 = true)
    (he : s.elapsed (max t0 s.hub.activeSince) n = true) (hi : s.hub.trigs.contains .isolation = false) :
    ∃ t, exec .isolationTimeout s = .next t ∧ t.hub.trigs = s.hub.trigs ++ [.isolation] ∧
      ∀ a, a < 16 → t.axState a ≠ axHOLD ∧ t.axState a ≠ axMOVING ∧ t.axState a ≠ axWAIT := by
  have hcall : isolationTimeout s = (muzzleActuation s).trigger .isolation := by
    unfold isolationTimeout
    rw [h0, hn]
    exact if_pos (by simp only [ha, he, hi, Bool.not_false, Bool.and_self])
  have hhub := muzzleActuation_hub s
  have hrests (a : Nat) (ha : a < 16) := muzzleActuation_rests s ha
  refine answer_of ?_
  rw [hcall]
  generalize muzzleActuation s = u at hhub hrests ⊢
  refine ⟨?_, hrests⟩
  rw [State.keepQueue_hub, State.trigger, hhub]

theorem exec_lowFeeds {s : State} (hm : s.mode ≠ mDORMANT) (ha : s.feedState 0 ≠ 2) (hb : s.feedState 1 ≠ 2)
    (hea : s.elapsed (s.feedChg 0) (10 * cclkMs) = true) (heb : s.elapsed (s.feedChg 1) (10 * cclkMs) = true) :
    ∃ t, exec .lowFeeds s = .next t ∧ allMuzzled t ∧
      t.hub.trigs = s.hub.trigs.filter (fun q => match q with | .boot _ | .steps | .tested _ _ | .lowFeeds => false | _ => true) ++ [.lowFeeds] ∧
      t.hub.starting = false ∧ t.hub.retry = false := by
  have hhub := muzzleAll_hub s
  have hall := allMuzzled_muzzleAll s
  have hcall : lowFeeds s =
      { muzzleAll s with hub := { (muzzleAll s).hub with
        starting := false, retry := false,
        trigs := ((muzzleAll s).hub.trigs.filter (fun q => match q with | .boot _ | .steps | .tested _ _ | .lowFeeds => false | _ => true)) ++ [.lowFeeds] } } :=
    if_pos (by simp [hm, ha, hb, hea, heb])
  refine answer_of ?_
  rw [hcall]
  generalize muzzleAll s = u at hhub hall ⊢
  rw [hhub]
  exact ⟨hall, rfl, rfl, rfl⟩

/-- Settles O4: each input by its own lemma. -/
theorem modeInputs : Obligations.ModeInputs := by
  intro s
  exact ⟨fun h hm => exec_stowInput hm h, exec_stowInput_ignored, answer_of ⟨rfl, rfl, rfl⟩, fun a => exec_stowAxisFail,
    fun i x => exec_stowRateChange, fun t0 n => exec_isolationTimeout, exec_lowFeeds⟩

end Sys2Proof
end

