-- ==== Sys2Proof/Proofs/CardsAndSlots.lean ====
section
/-! PROOFS. Cards and slots (R17): a register state in which the switch of the processors has no effect. -/

namespace Sys2Proof
open Sys2Proof.Machine

/-- Both processors in service, and a number in HUB_MODE.ACTIVE_MP that its one bit cannot hold: it names neither of them. -/
def strayMp : State :=
  { State.reset with regs := ((Sparse.put 0 Reg.HUB_MODE_ACTIVE_MP.key 5 []).put 0 (partFld 26).key pIN).put 0 (partFld 27).key pIN }

theorem strayMp_activeMp : strayMp.activeMp = 5 := by decide

/-- No processor of that number is in service, so the switch does nothing. -/
theorem mpFail_strayMp : mpFail strayMp = strayMp := by
  unfold mpFail
  rw [strayMp_activeMp]
  exact if_neg (by decide)

/-- Refutes O6: its first clause of the switch takes any number of ACTIVE_MP. Where the register reads 5 the entry that it names, OVE, reads
NONE before and after, and not OUT. -/
theorem not_cardsAndSlots : ¬ Obligations.CardsAndSlots := by
  intro h
  obtain ⟨-, -, -, -, -, -, -, -, hswitch⟩ := h strayMp 0
  obtain ⟨⟨t, hexec, hout⟩, -⟩ := hswitch (by decide) (by decide)
  have hnext : exec .mpSwitch strayMp = .next (strayMp.keepQueue strayMp) := by
    have hcall : exec .mpSwitch strayMp = answer strayMp (mpFail strayMp) := rfl
    rw [hcall, mpFail_strayMp]
    rfl
  have ht : t = strayMp.keepQueue strayMp := by
    rw [hnext] at hexec
    exact (Host.Outcome.next.inj hexec).symm
  rw [ht, strayMp_activeMp] at hout
  exact absurd hout (by decide)

end Sys2Proof
end

