-- ==== Sys2Proof/Proofs/Starts.lean ====
section
/-! PROOFS. Starts (R360, R361): a register state in which HUB_START_CAUSE.BANK cannot show the active bank. -/

namespace Sys2Proof
open Sys2Proof.Machine

/-- A number in KN_BANK_STATE.ACTIVE that its two bits cannot hold; NEXT names a bank, so that none is pending. -/
def strayBank : State :=
  { State.reset with regs := (Sparse.put 0 Reg.KN_BANK_STATE_ACTIVE.key 5 []).put 0 Reg.KN_BANK_STATE_NEXT.key 1 }

/-- BANK takes the two low bits of that number, and the active bank stays. -/
theorem exec_oscFault_strayBank :
    (match exec .oscFault strayBank with | .next t => (t.rd Reg.HUB_START_CAUSE_BANK, t.activeBank) | _ => (0, 0)) = (1, 5) := by
  decide +kernel

/-- Refutes O1: where KN_BANK_STATE.ACTIVE reads 5, a start by OSC_FAULT, whose clause has no premise, leaves BANK at 1 and the active bank
at 5, and not the one equal to the other. -/
theorem not_starts : ¬ Obligations.Starts := by
  intro h
  obtain ⟨-, -, -, -, -, -, -, hosc, -⟩ := h strayBank
  obtain ⟨t, hexec, hbegins, -⟩ := hosc
  obtain ⟨-, -, -, -, -, -, -, -, hbank, -⟩ := hbegins
  have hvalues := exec_oscFault_strayBank
  rw [hexec] at hvalues
  obtain ⟨h1, h5⟩ := Prod.mk.inj hvalues
  rw [h1, h5] at hbank
  exact absurd hbank (by decide)

end Sys2Proof
end

