-- ==== Sys2Proof/Proofs/ArrayTime.lean ====
section
/-! PROOFS. Array time (R31 to R33): the place of a CCLK edge inside its beat, and the way from an edge to its AT and back. -/

namespace Sys2Proof.Machine

/-- The AT of the `n`-th edge of a beat after the boundary, in units of 2^-16 ns (R33). -/
def edgeOfs (n : Nat) : Nat := (rne ((n * 15625 * 65536 : Nat) : Int) 3840).toNat

/-- Of the remainders of a third none is a half, so no tie is to be broken. -/
theorem rne_thirds (m : Nat) : (rne ((m * 1280 : Nat) : Int) 3840).toNat = (m + 1) / 3 := by
  have hquot : ((m * 1280 : Nat) : Int) / ((3840 : Nat) : Int) = ((m / 3 : Nat) : Int) := by omega
  have hrem : ((m * 1280 : Nat) : Int) % ((3840 : Nat) : Int) = ((m % 3 * 1280 : Nat) : Int) := by omega
  rw [rne, hquot, hrem]
  split_ifs <;> omega

/-- An edge lies 800,000/3 units of 2^-16 ns after the one before. -/
theorem edgeOfs_eq (n : Nat) : edgeOfs n = (n * 800000 + 1) / 3 := by
  have hnum : n * 15625 * 65536 = n * 800000 * 1280 := by omega
  rw [edgeOfs, hnum, rne_thirds]

/-- Every edge of a beat carries an AT before the next boundary. -/
theorem edgeOfs_lt {n : Nat} (hn : n < 3840) : edgeOfs n < 15625 * 65536 := by rw [edgeOfs_eq]; omega

theorem at96_edge (S : Nat) {b n : Nat} (hb : b < 64000) (hn : n < 3840) : at96 ((S * 64000 + b) * 3840 + n) =
    { sec := S, ns := (b * (15625 * 65536) + edgeOfs n) / 65536, frac := (b * (15625 * 65536) + edgeOfs n) % 65536 } := by
  have hsec : ((S * 64000 + b) * 3840 + n) / cclkSec = S := by unfold cclkSec; omega
  have hbeat : ((S * 64000 + b) * 3840 + n) % cclkSec / cclkBeat = b := by unfold cclkSec cclkBeat; omega
  have hedge : ((S * 64000 + b) * 3840 + n) % cclkSec % cclkBeat = n := by unfold cclkSec cclkBeat; omega
  simp only [at96, hsec, hbeat, hedge]
  rfl

theorem at96_ns_le (S : Nat) {b n : Nat} (hb : b < 64000) (hn : n < 3840) : (at96 ((S * 64000 + b) * 3840 + n)).ns ≤ 999999999 := by
  have hlt := edgeOfs_lt hn
  rw [at96_edge S hb hn]
  dsimp only
  omega

theorem at96Sub_edge (S : Nat) {b n : Nat} (hb : b < 64000) (hn : n < 3840) :
    at96Sub (at96 ((S * 64000 + b) * 3840 + n)) = b * 15625 * 65536 + edgeOfs n := by
  rw [at96_edge S hb hn, at96Sub]
  dsimp only
  omega

/-- A boundary lies on a whole ns. -/
theorem at96_boundary (S : Nat) {b : Nat} (hb : b < 64000) : at96 ((S * 64000 + b) * 3840) = { sec := S, ns := b * 15625, frac := 0 } := by
  have h := at96_edge S hb (n := 0) (by decide)
  rw [edgeOfs_eq, Nat.add_zero] at h
  rw [h, At96.mk.injEq]
  omega

/-- An AT96 word in the range of its fields is read back. -/
theorem at96Of_word {a : At96} (hs : a.sec < 2 ^ 48) (hn : a.ns < 2 ^ 32) (hf : a.frac < 2 ^ 16) :
    at96Of (a.frac + a.ns * 2 ^ 16 + a.sec * 2 ^ 48) = a := by
  obtain ⟨sec, ns, frac⟩ := a
  simp only [at96Of, bits, At96.mk.injEq] at *
  omega

theorem at96Of_atWord {e : Nat} (hs : (at96 e).sec < 2 ^ 48) (hn : (at96 e).ns < 2 ^ 32) : at96Of (atWord e) = at96 e :=
  at96Of_word hs hn (Nat.mod_lt _ (by decide))

/-- The edge before the AT of the `n`-th one is the `n`-th itself where its AT was rounded up, and else the one before, which is too early. -/
theorem edgeOf_at96 (S : Nat) {b n : Nat} (hb : b < 64000) (hn : n < 3840) :
    edgeOf (at96 ((S * 64000 + b) * 3840 + n)) = (S * 64000 + b) * 3840 + n := by
  have hlt := edgeOfs_lt hn
  have hsec : (at96 ((S * 64000 + b) * 3840 + n)).sec = S := by rw [at96_edge S hb hn]
  have hbeat : (b * 15625 * 65536 + edgeOfs n) / (15625 * 65536) = b := by omega
  have hrest : (b * 15625 * 65536 + edgeOfs n) % (15625 * 65536) = edgeOfs n := by omega
  have hround (k : Nat) : (rne ((k * 15625 * 65536 : Nat) : Int) cclkBeat).toNat = edgeOfs k := rfl
  simp only [edgeOf, at96Sub_edge S hb hn, hsec, hbeat, hrest, hround, decide_eq_true_eq]
  simp only [edgeOfs_eq, cclkBeat, cclkSec]
  split_ifs <;> omega

end Sys2Proof.Machine

namespace Sys2Proof
open Sys2Proof.Machine

/-- Settles O59, by the AT of an edge in terms of its beat and its place in it. -/
theorem arrayTime : Obligations.ArrayTime := by
  intro S b n hb hn
  have hns := at96_ns_le S hb hn
  have hsec : (at96 ((S * 64000 + b) * 3840 + n)).sec = S := by rw [at96_edge S hb hn]
  refine ⟨hsec, at96Sub_edge S hb hn, by rw [at96_boundary S hb], by rw [at96_boundary S hb], by omega, fun s hs => ?_, hns,
    fun hS => ⟨by omega, ?_⟩⟩
  · rw [State.bn, hs, cclkBeat]
    omega
  · rw [at96Of_atWord (by omega) (by omega), edgeOf_at96 S hb hn]

end Sys2Proof
end

