-- ==== Sys2Proof/Proofs/FieldFrame.lean ====
section
/-! PROOFS. What the field cards do by themselves at an edge (R63, R69, R87 to R91, R107 to R113), and at a step of AT (R43): which parts of
the state it reaches. -/

namespace Sys2Proof.Machine

/-- Only registers, field cards, reservations and barks have changed. -/
def onlyField (s t : State) : Prop := t = { s with regs := t.regs, fc := t.fc, pw := t.pw, bq := t.bq }

theorem onlyField_now {s t : State} (h : onlyField s t) : t.now = s.now := by
  unfold onlyField at h
  rw [h]

theorem onlyField_refl (s : State) : onlyField s s := rfl

theorem onlyField_trans {s t u : State} (h : onlyField s t) (k : onlyField t u) : onlyField s u := by
  unfold onlyField at *
  rw [k, h]

theorem onlyField_ite {c : Prop} [Decidable c] {s t u : State} (ht : onlyField s t) (hu : onlyField s u) : onlyField s (if c then t else u) := by
  split
  · exact ht
  · exact hu

theorem onlyField_foldl {α : Type} {g : State → α → State} (hg : ∀ s a, onlyField s (g s a)) (l : List α) (s : State) :
    onlyField s (l.foldl g s) := by
  induction l generalizing s with
  | nil => rfl
  | cons a l ih => exact onlyField_trans (hg s a) (ih _)

/-! ## The operations on one part -/

theorem onlyField_wr (s : State) (f : Fld) (v : Nat) : onlyField s (s.wr f v) := rfl

theorem onlyField_count (s : State) (f : Fld) : onlyField s (s.count f) := rfl

theorem onlyField_bark (s : State) (src code : Nat) (w : Bool) (p : List Nat) : onlyField s (s.bark src code w p) := rfl

theorem onlyField_release (s : State) (book cid keep : Nat) : onlyField s (s.release book cid keep) := rfl

theorem onlyField_modCard (s : State) (f : Nat) (g : Card → Card) : onlyField s (s.modCard f g) := rfl

theorem onlyField_modChan (s : State) (f c : Nat) (g : Chan → Chan) : onlyField s (s.modChan f c g) := rfl

theorem onlyField_setField (s : State) (x : FcSt) : onlyField s { s with fc := x } := rfl

/-! ## Blanking -/

theorem onlyField_blankSync (s : State) (f e : Nat) : onlyField s (blankSync s f e) :=
  onlyField_foldl (fun u _ => onlyField_ite (onlyField_refl u) (onlyField_modChan u _ _ _)) _ s

theorem onlyField_setLine (s : State) (line : Nat) (on : Bool) : onlyField s (setLine s line on) := by
  have hsync (e : Nat) (u : State) : onlyField u ((List.range 16).foldl (fun w f => blankSync w f e) u) :=
    onlyField_foldl (fun w f => onlyField_blankSync w f e) _ u
  have hlines (l : Nat) (u : State) : onlyField u ((List.range 16).foldl (fun w f => w.wr (Reg.FC_BLANK_STAT_LINES f) l) u) :=
    onlyField_foldl (fun w f => onlyField_wr w _ l) _ u
  exact onlyField_ite (onlyField_refl s) (onlyField_trans (onlyField_setField s _) (onlyField_trans (hlines _ _) (hsync _ _)))

theorem onlyField_packTick (s : State) : onlyField s (packTick s) :=
  onlyField_ite (onlyField_refl s) (onlyField_trans (onlyField_setField s _) (onlyField_foldl (fun u _ => onlyField_setLine u _ _) _ _))

/-! ## Charge resets -/

theorem onlyField_beginReset (s : State) (f c : Nat) : onlyField s (beginReset s f c) := onlyField_ite rfl (onlyField_ite rfl rfl)

theorem onlyField_resetsDue (s : State) : onlyField s (resetsDue s) := by
  refine onlyField_foldl (fun u q => onlyField_foldl (fun w k => ?_) _ u) _ s
  split
  · exact onlyField_ite (onlyField_beginReset w _ _) (onlyField_refl w)
  · exact onlyField_refl w

/-! ## Commits that were deferred -/

theorem onlyField_commitChans (s : State) (f : Nat) (old new : Sparse Nat) (aff : List Nat) : onlyField s (commitChans s f old new aff) := by
  unfold commitChans
  extract_lets d t c
  have ht : onlyField s t := by
    refine onlyField_foldl (fun u i => ?_) _ s
    have hcarry : onlyField u (if d Reg.FC_CH_CFG_STAGE i || d Reg.FC_CH_CFG_QRANGE i then u.modChan f i (fun k => k.setCarry s.now 0) else u) :=
      onlyField_ite (onlyField_modChan u _ _ _) (onlyField_refl u)
    exact onlyField_ite (onlyField_trans hcarry (onlyField_modChan _ _ _ _)) hcarry
  exact onlyField_ite (onlyField_trans ht (onlyField_modCard t f _)) ht

theorem onlyField_commitSrcs (s : State) (f : Nat) (c : Commit) (old new : Sparse Nat) : onlyField s (commitSrcs s f c old new) := by
  refine onlyField_foldl (fun u x => ?_) _ s
  extract_lets ch u1 u2
  have h1 : onlyField u u1 := onlyField_ite (onlyField_wr u _ 0) (onlyField_refl u)
  have h2 : onlyField u u2 := onlyField_ite (onlyField_trans h1 (u := shutOff u1 f x) rfl) h1
  exact onlyField_ite (onlyField_trans h2 (u := limitOff u2 f x) rfl) h2

theorem onlyField_showPins (s : State) (f : Nat) : onlyField s (showPins s f) :=
  onlyField_foldl (fun u _ => onlyField_trans (onlyField_trans (onlyField_wr u _ _) (onlyField_wr _ _ _)) (onlyField_wr _ _ _)) _ s

theorem onlyField_showSources (s : State) (f : Nat) : onlyField s (showSources s f) := onlyField_foldl (fun u _ => onlyField_wr u _ _) _ s

theorem onlyField_switchCard (s : State) (f : Nat) (c : Commit) (old new : Sparse Nat) : onlyField s (switchCard s f c old new) := by
  unfold switchCard
  extract_lets aff pins xs t1 t2 busy t3
  have h1 : onlyField s t1 := onlyField_trans (onlyField_setField s _) (onlyField_foldl (fun u _ => onlyField_modChan u _ _ _) _ _)
  have h2 : onlyField s t2 := onlyField_trans h1 (onlyField_trans (onlyField_commitChans t1 f old new aff)
    (onlyField_trans (onlyField_commitSrcs _ f c old new) (onlyField_blankSync _ f s.now)))
  have h3 : onlyField s t3 := onlyField_trans h2 (onlyField_modCard t2 f _)
  exact onlyField_trans h3 (onlyField_trans (onlyField_wr t3 _ _) (onlyField_trans (onlyField_showPins _ f) (onlyField_showSources _ f)))

theorem onlyField_clearDeferred (s : State) (f : Nat) : onlyField s (clearDeferred s f) := rfl

theorem onlyField_applyDeferred (s : State) (f : Nat) : onlyField s (applyDeferred s f) := by
  have hclear := onlyField_clearDeferred s f
  exact onlyField_ite (onlyField_refl s) (onlyField_ite (onlyField_trans hclear (onlyField_trans (onlyField_modCard _ f _) (onlyField_wr _ _ 1)))
    (onlyField_trans hclear (onlyField_switchCard _ _ _ _ _)))

/-! ## Turns of the spare -/

theorem onlyField_freeSpare (s : State) (f : Nat) : onlyField s (freeSpare s f) := by
  unfold freeSpare
  extract_lets t1 t2 p t3
  have h1 : onlyField s t1 := onlyField_trans (onlyField_modCard s f _) (onlyField_release _ 1 _ 0)
  have h2 : onlyField s t2 := by
    refine onlyField_trans h1 ?_
    unfold t2
    split
    · exact onlyField_trans (onlyField_wr t1 _ _) (onlyField_wr _ _ _)
    · exact onlyField_wr t1 _ _
  have h3 : onlyField s t3 := by
    refine onlyField_trans h2 ?_
    unfold t3
    split
    · exact onlyField_ite (onlyField_modCard t2 f _) (onlyField_refl t2)
    · exact onlyField_refl t2
  exact onlyField_ite (onlyField_trans h3 (onlyField_trans (onlyField_wr t3 _ _) (onlyField_modCard _ f _))) h3

theorem onlyField_endTurn (s : State) (f : Nat) : onlyField s (endTurn s f) :=
  onlyField_trans (onlyField_trans (onlyField_count s _) (onlyField_count _ _)) (onlyField_freeSpare _ f)

theorem onlyField_handOver (s : State) (f c : Nat) : onlyField s (handOver s f c).1 := rfl

theorem onlyField_spareEnds (s : State) (f : Nat) (e : SpareEnd) : onlyField s (spareEnds s f e) := by
  cases e with
  | free => exact onlyField_trans (onlyField_freeSpare s f) (onlyField_applyDeferred _ f)
  | handback =>
    exact onlyField_trans (onlyField_trans (onlyField_handOver s f _) (onlyField_modCard _ f _)) (onlyField_applyDeferred _ f)
  | finish d => exact onlyField_trans (onlyField_endTurn s f) (onlyField_bark _ _ _ _ _)

theorem onlyField_sparesDue (s : State) : onlyField s (sparesDue s) := by
  refine onlyField_foldl (fun u f => ?_) _ s
  split
  · exact onlyField_ite (onlyField_spareEnds u _ _) (onlyField_refl u)
  · exact onlyField_refl u

theorem onlyField_fieldTick (s : State) : onlyField s (fieldTick s) :=
  onlyField_ite (onlyField_trans (onlyField_packTick s) (onlyField_trans (onlyField_resetsDue _) (onlyField_sparesDue _))) (onlyField_packTick s)

/-! ## A step of AT -/

theorem onlyField_modChans (g : Nat → Chan → Chan) (s : State) (f : Nat) (cs : List Nat) :
    onlyField s (cs.foldl (fun u c => u.modChan f c (g c)) s) :=
  onlyField_foldl (fun u c => onlyField_modChan u f c (g c)) cs s

theorem onlyField_stepHold (s : State) (f e : Nat) : onlyField s (stepHold s f e) :=
  onlyField_ite (onlyField_refl s) (onlyField_trans (onlyField_modChans _ s f _) (onlyField_trans (onlyField_modCard _ f _) (onlyField_wr _ _ 1)))

theorem onlyField_settleAll (s : State) (e : Nat) : onlyField s (settleAll s e) :=
  onlyField_foldl (fun u f => onlyField_trans (onlyField_modCard u f _)
    (onlyField_trans (onlyField_modChans _ _ f _) (onlyField_stepHold _ f e))) _ s

end Sys2Proof.Machine
end

