-- ==== Sys2Proof/Proofs/TimeSteps.lean ====
section
/-! PROOFS. Steps of AT, the time of day, what the scheduler fires, and the AT snapshot (R36, R43, R48, R51, R55, R88, R413). -/

namespace Sys2Proof.Machine

theorem answer_eq {s t : State} (h : t.pending = s.pending) : answer s t = .next t := by
  rw [answer, State.keepQueue_eq h]

/-- A further write of a register changes registers alone. -/
theorem wr_frame {s t : State} (h : t = { s with regs := t.regs }) (f : Fld) (v : Nat) : t.wr f v = { s with regs := (t.wr f v).regs } := by
  rw [State.wr, h]

/-- What no step of a fold changes, the fold does not change. -/
theorem foldl_keeps {α β : Type} {p : State → β} {g : State → α → State} (hg : ∀ s a, p (g s a) = p s) (l : List α) (s : State) :
    p (l.foldl g s) = p s := by
  induction l generalizing s with
  | nil => rfl
  | cons a l ih => exact (ih _).trans (hg s a)

/-- Fields with addresses of their own that are written one after the other each read as written. -/
theorem rd_foldl_wr {fld : Nat → Fld} (hinj : ∀ a b, (fld a).key = (fld b).key → a = b) (v : Nat) {g : Nat} {l : List Nat} (hg : g ∈ l) (s : State) :
    (l.foldl (fun u a => u.wr (fld a) v) s).rd (fld g) = v % 2 ^ (fld g).width := by
  induction l using List.reverseRecOn with
  | nil => exact absurd hg List.not_mem_nil
  | append_singleton l a ih =>
    rw [List.foldl_concat]
    by_cases ha : a = g
    · rw [ha, State.rd_wr_self]
    · rw [State.rd_wr_ne _ _ fun he => ha (hinj _ _ he)]
      exact ih (by simpa [Ne.symm ha] using hg)

/-! ## Steps of AT (R43) -/

/-- The scheduler's entries and the streams: what decides which events and which records a step of AT meets. -/
def State.plan (s : State) : List Sched × Sparse (Option Stream) := (s.tb.sched, s.rd_.streams)

theorem plan_of_onlyField {s t : State} (h : onlyField s t) : t.plan = s.plan := by
  unfold onlyField at h
  rw [h]
  rfl

theorem plan_modRdc (s : State) (c : Nat) (g : Rdc → Rdc) : (s.modRdc c g).plan = s.plan := rfl

theorem plan_modPfi (s : State) (i : Nat) (g : Pfi → Pfi) : (s.modPfi i g).plan = s.plan := rfl

theorem plan_modLoop (s : State) (l : Nat) (g : Loop → Loop) : (s.modLoop l g).plan = s.plan := rfl

theorem plan_shiftStore (s : State) (e : Nat) : (shiftStore s e).plan = s.plan := rfl

theorem plan_places (t : State) (lag : List (Nat × Nat × Nat)) (ax : AxSt) (syncs delays : Nat) (whole : Bool) (gens : Sparse AngGen)
    (steps : List (Nat × Int)) :
    State.plan { t with
      lag := lag, ax := ax, tb := { t.tb with ptpSync := syncs, ptpDelay := delays, ptpWhole := whole, gens := gens, steps := steps } } = t.plan := rfl

theorem plan_rdcStep (s : State) (e : Nat) : (rdcStep s e).plan = s.plan := foldl_keeps (fun u c => plan_modRdc u c _) _ s

/-- With no stream open, what moves with a step of AT is neither an entry of the scheduler nor a stream. -/
theorem plan_moveEdges {s : State} (e : Nat) (h : s.openStreams = []) : (moveEdges s e).plan = s.plan := by
  unfold moveEdges
  extract_lets mv t0 t1 t2 t3
  have h0 : t0.plan = s.plan := by
    unfold t0
    rw [h]
    exact plan_shiftStore s e
  have h1 : t1.plan = t0.plan := foldl_keeps (fun u i => plan_modPfi u i _) _ t0
  have h2 : t2.plan = t1.plan := foldl_keeps (fun u c => plan_modRdc u c _) _ t1
  have h3 : t3.plan = t2.plan := foldl_keeps (fun u l => plan_modLoop u l _) _ t2
  exact (plan_places t3 _ _ _ _ _ _ _).trans (by rw [h3, h2, h1, h0])

theorem sched_of_plan {s t : State} (h : t.plan = s.plan) : t.tb.sched = s.tb.sched := congrArg Prod.fst h

theorem openStreams_of_plan {s t : State} (h : t.plan = s.plan) : t.openStreams = s.openStreams := by
  have hs : t.rd_.streams = s.rd_.streams := congrArg Prod.snd h
  rw [State.openStreams, hs]
  rfl

theorem openStreams_setTime (t : State) (e : Nat) (l : List Sched) :
    State.openStreams { t with now := e, tb := { t.tb with sched := l } } = t.openStreams := rfl

/-- With no stream open and nothing scheduled, a step of AT ends at its edge. -/
theorem stepTime_now {s : State} (e : Nat) (ho : s.openStreams = []) (hs : s.tb.sched = []) : (stepTime s e).now = e := by
  have hbefore : (rdcStep (settleAll s e) e).plan = s.plan := (plan_rdcStep _ e).trans (plan_of_onlyField (onlyField_settleAll s e))
  unfold stepTime
  extract_lets t ns skipped _ u v w
  have hplan : t.plan = s.plan := (plan_moveEdges e ((openStreams_of_plan hbefore).trans ho)).trans hbefore
  have hsched : t.tb.sched = [] := (sched_of_plan hplan).trans hs
  have hskipped : skipped = [] := by
    unfold skipped
    rw [hsched]
    rfl
  have hopen : u.openStreams = [] := (openStreams_setTime t e _).trans ((openStreams_of_plan hplan).trans ho)
  have hv : v = fieldTick u := by
    unfold v
    rw [hopen]
    rfl
  rw [hskipped]
  calc w.now = v.now := State.bark_now v 2 0x0208 true _
    _ = u.now := by rw [hv, onlyField_now (onlyField_fieldTick u)]
    _ = e := rfl

/-- The registers after a step of AT to class `k`: LOCKED on the class, and no error of a holdover. -/
def lockRegs (t : State) (acquiring : Bool) (k : Nat) : State :=
  let u := ((t.wr Reg.TB_STATE_STATE tbLOCKED).wr Reg.TB_STATE_REF k).clr Reg.TB_HOLD_EST_EST
  if acquiring then u else u.clr Reg.TB_REF_SEL_STEP_ONCE

theorem timeStep_of_due {s : State} {k : Nat} (sec : Nat) (h : s.tb.stepTo = some k) :
    timeStep s sec =
      (let t := lockRegs (stepTime s (sec * cclkSec)) (decide (s.tbState = tbACQUIRE)) k
       { t with tb := { t.tb with stepTo := none, linkPull := decide (k = clsLINK), trainSince := if k ≤ 1 then some t.run else none } }) := by
  simp only [timeStep, h, lockRegs, decide_eq_true_eq]

theorem lockRegs_now (t : State) (b : Bool) (k : Nat) : (lockRegs t b k).now = t.now := by cases b <;> rfl

theorem rd_lockRegs (t : State) (b : Bool) (k : Nat) : (lockRegs t b k).rd Reg.TB_STATE_STATE = tbLOCKED ∧
    (lockRegs t b k).rd Reg.TB_STATE_REF = k % 4 ∧ (lockRegs t b k).rd Reg.TB_HOLD_EST_EST = 0 := by
  have hu : ∀ f : Fld, f.key ≠ Reg.TB_REF_SEL_STEP_ONCE.key →
      (lockRegs t b k).rd f = (((t.wr Reg.TB_STATE_STATE tbLOCKED).wr Reg.TB_STATE_REF k).clr Reg.TB_HOLD_EST_EST).rd f := by
    intro f hf
    cases b
    · exact State.rd_clr_ne _ (Ne.symm hf)
    · rfl
  refine ⟨?_, ?_, ?_⟩ <;> rw [hu _ (by decide)]
  · rw [State.rd_clr_ne _ (by decide), State.rd_wr_ne _ _ (by decide), State.rd_wr_self]
    rfl
  · rw [State.rd_clr_ne _ (by decide), State.rd_wr_self]
    rfl
  · exact State.rd_clr_self _ _

end Sys2Proof.Machine

namespace Sys2Proof
open Sys2Proof.Machine

/-- Where a class has asked for a step, the step ends LOCKED on it. -/
theorem exec_timeStep {s : State} {k : Nat} (sec : Nat) (h : s.tb.stepTo = some k) : ∃ t, exec (.timeStep sec) s = .next t ∧
    t.now = (stepTime s (sec * cclkSec)).now ∧ t.tb.stepTo = none ∧ t.tb.trainSince = (if k ≤ 1 then some t.run else none) ∧
    t.tbState = tbLOCKED ∧ (k < 4 → t.tbRef = k) ∧ t.rd Reg.TB_HOLD_EST_EST = 0 := by
  have hcall : exec (.timeStep sec) s = answer s (timeStep s sec) := rfl
  obtain ⟨hstate, href, hest⟩ := rd_lockRegs (stepTime s (sec * cclkSec)) (decide (s.tbState = tbACQUIRE)) k
  rw [hcall, timeStep_of_due sec h]
  exact answer_of ⟨lockRegs_now _ _ k, rfl, rfl, hstate, fun hk => href.trans (Nat.mod_eq_of_lt hk), hest⟩

/-! ## The time of day (R36) -/

theorem exec_tbTodSet_present {s : State} (harm : s.flag Reg.TB_TOD_SET_ARM = true) (hstate : s.tbState = tbACQUIRE ∨ s.tbState = tbFREE)
    (hsec : s.rd Reg.TB_TOD_SET_SECONDS = s.now / cclkSec) : ∃ t, exec .tbTodSet s = .next t ∧ t.todValid = true ∧
      t.rd Reg.TB_TOD_SET_ARM = 0 ∧ t.now = s.now ∧ t = { s with regs := t.regs } ∧
      onlyRegs s t [Reg.TB_TOD_SET_ARM, Reg.TB_STATE_TOD_VALID] := by
  have hset : todSet s = (s.clr Reg.TB_TOD_SET_ARM).set Reg.TB_STATE_TOD_VALID := by
    simp [todSet, harm, hstate, hsec]
  refine ⟨_, (congrArg (answer s) hset).trans (answer_eq rfl), State.flag_set_self _, ?_, rfl, rfl, ?_⟩
  · rw [State.rd_set_ne _ (by decide), State.rd_clr_self]
  · exact onlyRegs_wr_of_mem (onlyRegs_wr_of_mem (onlyRegs_refl s _) (by simp) 0) (by simp) 1

theorem exec_tbTodSet_refused {s : State} (harm : s.flag Reg.TB_TOD_SET_ARM = true) (ha : s.tbState ≠ tbACQUIRE) (hf : s.tbState ≠ tbFREE) :
    ∃ t, exec .tbTodSet s = .next t ∧ t.rd Reg.TB_TOD_SET_ARM = 0 ∧ t = { s with regs := t.regs } ∧ onlyRegs s t [Reg.TB_TOD_SET_ARM] := by
  have hset : todSet s = s.clr Reg.TB_TOD_SET_ARM := by
    simp [todSet, harm, ha, hf]
  exact ⟨_, (congrArg (answer s) hset).trans (answer_eq rfl), State.rd_clr_self s _, rfl, onlyRegs_wr s _ 0⟩

/-! ## The scheduler (R48, R51, R55) -/

/-- A NOP at its instant leaves the scheduler and completes. -/
theorem exec_schedFire_nop {s : State} {h : CmdHdr} {q : Sched} (hs : s.tb.sched = [q]) (hact : q.act = .nop h) (hdue : q.at_ ≤ s.now)
    (hr : byRing s h) (hc : carried s h) : ∃ t, exec (.schedFire none) s = .next t ∧ t.tb.sched = [] ∧ settled t h ∧ posts s t h .ok ∧
      t = { s with hp := t.hp, tb := t.tb } := by
  obtain ⟨hvia, hrings⟩ := hr
  have hfire : schedFire s none = ({ s with tb := { s.tb with sched := [] } } : State).complete h .ok := by
    simp [schedFire, hs, hdue, schedOrder, insertSched, fire, fireAct, hact]
  have hcall : exec (.schedFire none) s = answer s (schedFire s none) := rfl
  have hframe := complete_ring_frame { s with tb := { s.tb with sched := [] } } h .ok 0 0 hvia hrings
  rw [hcall, hfire]
  refine answer_of ⟨?_, complete_settled _ _ _ _ _, complete_posts s _ h .ok 0 0 hvia hrings hc rfl, ?_⟩
  · rw [hframe]
    rfl
  · rw [hframe]
    rfl

theorem exec_schedFire_early {s : State} {q : Sched} (hs : s.tb.sched = [q]) (h : s.now < q.at_) :
    ∃ t, exec (.schedFire none) s = .next t ∧ t = s := by
  have hfire : schedFire s none = s := by
    simp [schedFire, hs, schedOrder, Nat.not_le.2 h]
  exact ⟨_, (congrArg (answer s) hfire).trans (answer_eq rfl), rfl⟩

end Sys2Proof

namespace Sys2Proof.Machine

/-- The holds of a card's channels move no line. -/
theorem blankSync_lines (s : State) (f e : Nat) : (blankSync s f e).fc.lines = s.fc.lines ∧ ∀ g, (blankSync s f e).rd g = s.rd g := by
  refine ⟨foldl_keeps (p := fun u => u.fc.lines) (fun u c => ?_) _ s, fun g => foldl_keeps (p := fun u => u.rd g) (fun u c => ?_) _ s⟩
  · extract_lets on
    split <;> rfl
  · extract_lets on
    split <;> rfl

/-- A line that changes shows on every field card. -/
theorem setLine_lines {s : State} {line : Nat} {on : Bool} (h : bit s.fc.lines line ≠ on) :
    (setLine s line on).fc.lines = setBit s.fc.lines line on ∧
    ∀ g, g < 16 → (setLine s line on).rd (Reg.FC_BLANK_STAT_LINES g) = setBit s.fc.lines line on % 256 := by
  unfold setLine
  rw [if_neg h]
  extract_lets l _ t
  have hsync := foldl_keeps (p := fun u => u.fc.lines) (g := fun u f => blankSync u f (mclkCeil s.now)) (fun u f => (blankSync_lines u f _).1) (List.range 16)
  have hwr := foldl_keeps (p := fun u => u.fc.lines) (g := fun u f => u.wr (Reg.FC_BLANK_STAT_LINES f) l) (fun _ _ => rfl) (List.range 16) t
  refine ⟨(hsync _).trans hwr, fun g hg => ?_⟩
  have hrd := foldl_keeps (p := fun u => u.rd (Reg.FC_BLANK_STAT_LINES g)) (g := fun u f => blankSync u f (mclkCeil s.now))
    (fun u f => (blankSync_lines u f _).2 _) (List.range 16)
  have hinj : ∀ a b, (Reg.FC_BLANK_STAT_LINES a).key = (Reg.FC_BLANK_STAT_LINES b).key → a = b := by
    intro a b hab
    simp only [Reg.FC_BLANK_STAT_LINES] at hab
    omega
  exact (hrd _).trans (rd_foldl_wr hinj l (List.mem_range.2 hg) t)

end Sys2Proof.Machine

namespace Sys2Proof
open Sys2Proof.Machine

theorem exec_schedFire_window {s : State} {w : Nat} {o : Bool} (hw : w < 4) (h : bit s.fc.lines (4 + w) ≠ o) :
    ∃ t, exec (.schedFire (some (.window w o))) s = .next t ∧ bit t.fc.lines (4 + w) = o ∧
      (∀ g, g < 16 → t.rd (Reg.FC_BLANK_STAT_LINES g) = setBit s.fc.lines (4 + w) o % 256) := by
  have hfire : schedFire s (some (.window w o)) = setLine s (4 + w) o := if_pos hw
  have hcall : exec (.schedFire (some (.window w o))) s = answer s (schedFire s (some (.window w o))) := rfl
  obtain ⟨hlines, hshown⟩ := setLine_lines h
  rw [hcall, hfire]
  refine answer_of ⟨?_, hshown⟩
  calc bit (setLine s (4 + w) o).fc.lines (4 + w) = o := by rw [hlines, bit_setBit, if_pos rfl]

/-- An angle instant of another hub that has not passed is scheduled, and its generator is known as one of another hub. -/
theorem exec_angleInstant {s : State} {hub gen e : Nat} (hhub : hub < 64) (hgen : gen < 64) (he : s.now ≤ e) (hs : s.tb.sched = []) :
    ∃ t, exec (.angleInstant hub gen e) s = .next t ∧ (∃ q ∈ t.tb.sched, q.at_ = e ∧ q.act = .angleSlot hub gen) ∧ gen ∈ t.tb.remoteGens ∧
      t = { s with tb := t.tb } := by
  have hok : (decide (hub < 64) && decide (gen < 64)) = true := by simp [hhub, hgen]
  refine guard_of hok ?_
  unfold angleInstant
  extract_lets _ u
  have hu : u = { s with tb := u.tb } ∧ u.tb.sched = [] ∧ gen ∈ u.tb.remoteGens := by
    unfold u
    split
    · next hin => exact ⟨rfl, hs, by simpa using hin⟩
    · exact ⟨rfl, hs, List.mem_append_right _ (List.mem_singleton_self gen)⟩
  obtain ⟨hframe, hempty, hknown⟩ := hu
  have hnow : ¬ e < u.now := by
    rw [hframe]
    exact Nat.not_lt.2 he
  have hroom : ¬ 4096 ≤ u.tb.sched.length := by simp [hempty]
  rw [if_neg hnow, if_neg hroom]
  refine ⟨⟨_, List.mem_append_right _ (List.mem_singleton_self _), rfl, rfl⟩, hknown, ?_⟩
  rw [hframe]
  rfl

/-! ## The snapshot (R413) -/

theorem exec_tbAtSnap (s : State) : ∃ t, exec .tbAtSnap s = .next t ∧ t.rd Reg.TB_AT_SNAP_SECONDS = (at96 s.now).sec % 2 ^ 48 ∧
    t.rd Reg.TB_AT_SNAP_NS = (at96 s.now).ns % 2 ^ 32 ∧ t.rd Reg.TB_AT_SNAP_FRAC = (at96 s.now).frac % 2 ^ 16 ∧
    t.rd Reg.TB_AT_SNAP_BEAT = s.bn % 64000 ∧ t = { s with regs := t.regs } ∧
    onlyRegs s t [Reg.TB_AT_SNAP_SECONDS, Reg.TB_AT_SNAP_NS, Reg.TB_AT_SNAP_FRAC, Reg.TB_AT_SNAP_BEAT, Reg.TB_AT_SNAP_STATE] := by
  have hcall : exec .tbAtSnap s = answer s (atSnap s) := rfl
  have hpending : (atSnap s).pending = s.pending := by
    unfold atSnap
    rw [State.wr_pending, State.wr_pending, State.wr_pending, State.wr_pending, State.wr_pending]
  have hbeat : s.bn % 64000 % 2 ^ 16 = s.bn % 64000 := Nat.mod_eq_of_lt (by omega)
  refine ⟨_, hcall.trans (answer_eq hpending), ?_, ?_, ?_, ?_, wr_frame (wr_frame (wr_frame (wr_frame (wr_frame rfl _ _) _ _) _ _) _ _) _ _, ?_⟩
  · simp only [atSnap]
    rw [State.rd_wr_ne _ _ (by decide), State.rd_wr_ne _ _ (by decide), State.rd_wr_self]
    rfl
  · simp only [atSnap]
    rw [State.rd_wr_ne _ _ (by decide), State.rd_wr_ne _ _ (by decide), State.rd_wr_ne _ _ (by decide), State.rd_wr_self]
    rfl
  · simp only [atSnap]
    rw [State.rd_wr_ne _ _ (by decide), State.rd_wr_ne _ _ (by decide), State.rd_wr_ne _ _ (by decide), State.rd_wr_ne _ _ (by decide),
      State.rd_wr_self]
    rfl
  · simp only [atSnap]
    rw [State.rd_wr_ne _ _ (by decide), State.rd_wr_self]
    exact hbeat
  · refine onlyRegs_wr_of_mem (onlyRegs_wr_of_mem (onlyRegs_wr_of_mem (onlyRegs_wr_of_mem (onlyRegs_wr_of_mem (onlyRegs_refl s _) ?_ _) ?_ _) ?_ _) ?_ _) ?_ _ <;>
      simp

/-- Settles O9: each row of the time base and the scheduler by what it does. -/
theorem timeAndScheduler : Obligations.TimeAndScheduler := by
  intro s
  refine ⟨fun sec k h => ?_, fun sec k h hk ho hs _ _ => ?_, exec_tbTodSet_present, exec_tbTodSet_refused,
    fun h q hs hact hdue hr hc => exec_schedFire_nop hs hact hdue hr hc, fun q hs h => exec_schedFire_early hs h,
    fun w o hw h => exec_schedFire_window hw h, fun hub gen e hhub hgen he hs => exec_angleInstant hhub hgen he hs, exec_tbAtSnap s⟩
  · obtain ⟨t, hexec, -, hrest⟩ := exec_timeStep sec h
    exact ⟨t, hexec, hrest⟩
  · obtain ⟨t, hexec, hnow, -, -, hstate, href, hest⟩ := exec_timeStep sec h
    exact ⟨t, hexec, hnow.trans (stepTime_now _ ho hs), hstate, href hk, hest⟩

end Sys2Proof
end

