-- ==== Sys2Proof/Proofs/References.lean ====
section
/-! PROOFS. The reference classes (R35 to R41, R44, R45): what a class that begins, meets or loses its criteria leaves, the end of a slew
and of its lock-out, and the error bound of a holdover. -/

namespace Sys2Proof.Machine

/-! ## Registers and the time base -/

/-- A state with another time base. -/
def State.setTb (s : State) (x : TbSt) : State := { s with tb := x }

@[simp] theorem rd_setTb (s : State) (x : TbSt) (f : Fld) : (s.setTb x).rd f = s.rd f := rfl

/-- Only registers and the time base have changed. -/
def onlyTb (s t : State) : Prop := t = { s with regs := t.regs, tb := t.tb }

theorem onlyTb_trans {s t u : State} (h : onlyTb s t) (k : onlyTb t u) : onlyTb s u := by
  unfold onlyTb at *
  rw [k, h]

theorem onlyTb_wr (s : State) (f : Fld) (v : Nat) : onlyTb s (s.wr f v) := rfl

theorem onlyTb_setTb (s : State) (x : TbSt) : onlyTb s (s.setTb x) := rfl

/-- What only registers and the time base have changed keeps the queue, the time, the clock and the barks. -/
theorem onlyTb_kept {s t : State} (h : onlyTb s t) : t.pending = s.pending ∧ t.now = s.now ∧ t.run = s.run ∧ t.bq = s.bq := by
  unfold onlyTb at h
  rw [h]
  exact ⟨rfl, rfl, rfl, rfl⟩

theorem onlyTb_bark {s t : State} (h : onlyTb s t) (src code : Nat) (w : Bool) (p : List Nat) :
    t.bark src code w p = { s with regs := (t.bark src code w p).regs, tb := (t.bark src code w p).tb, bq := (t.bark src code w p).bq } := by
  rw [State.bark, h]

/-! ## The registers of a class -/

theorem qualified_setQual (s : State) (k : Nat) (b : Bool) {j : Nat} (hj : j < 4) :
    (s.setQual k b).qualified j = if j = k then b else s.qualified j := by
  unfold State.qualified State.setQual
  rw [State.rd_wr_self]
  exact (bit_mod hj).trans (bit_setBit _ _ _ _)

theorem bit_setQualifying (s : State) (k : Nat) (b : Bool) {j : Nat} (hj : j < 4) :
    bit ((s.setQualifying k b).rd Reg.TB_STATE_QUALIFYING) j = if j = k then b else bit (s.rd Reg.TB_STATE_QUALIFYING) j := by
  have hrd : (s.setQualifying k b).rd Reg.TB_STATE_QUALIFYING = setBit (s.rd Reg.TB_STATE_QUALIFYING) k b % 2 ^ 4 := State.rd_wr_self s _ _
  rw [hrd, bit_mod hj, bit_setBit]

theorem qualSince_setQualifying (s : State) (k : Nat) (b : Bool) :
    (s.setQualifying k b).tb.qualSince.get 0 k = if b then s.run + 1 else 0 := Sparse.get_put_self _ _ _ _

theorem onlyTb_setQualifying (s : State) (k : Nat) (b : Bool) : onlyTb s (s.setQualifying k b) := rfl

theorem rd_setQualifying_ne (s : State) (k : Nat) (b : Bool) {f : Fld} (hf : Reg.TB_STATE_QUALIFYING.key ≠ f.key) :
    (s.setQualifying k b).rd f = s.rd f := State.rd_wr_ne s _ hf

/-- The offsets of the classes lie between the other registers of the time base. -/
theorem ofs_key_ne {k : Nat} (hk : k < 3) {f : Fld} (hf : f.key < 8 * 0x2030 ∨ 8 * 0x2040 ≤ f.key) : (Reg.TB_REF_OFS_OFS k).key ≠ f.key := by
  simp only [Reg.TB_REF_OFS_OFS]
  omega

/-- An offset in the range of its register shows as it is. -/
theorem refOfs_wrS (s : State) (k : Nat) {ofs : Int} (hlo : -2 ^ 31 ≤ ofs) (hhi : ofs < 2 ^ 31) :
    (s.wrS (Reg.TB_REF_OFS_OFS k) ofs).refOfs k = ofs := by
  have hsat : satS 32 ofs = ofs := by
    unfold satS clamp
    rw [if_neg (by omega), if_neg (by omega)]
  exact (s.rdS_wrS_self ofs).trans hsat

theorem bark_tbState (s : State) (src code : Nat) (w : Bool) (p : List Nat) : (s.bark src code w p).tbState = s.tbState := rfl

theorem bark_tbRef (s : State) (src code : Nat) (w : Bool) (p : List Nat) : (s.bark src code w p).tbRef = s.tbRef := rfl

theorem bark_qualified (s : State) (src code : Nat) (w : Bool) (p : List Nat) (k : Nat) : (s.bark src code w p).qualified k = s.qualified k := rfl

theorem bark_trainHours (s : State) (src code : Nat) (w : Bool) (p : List Nat) : (s.bark src code w p).trainHours = s.trainHours := rfl

theorem bark_leads (s : State) (src code : Nat) (w : Bool) (p : List Nat) : (s.bark src code w p).leads = s.leads := rfl

/-! ## The best class (R40) -/

theorem best_none {s : State} (h : ∀ j, j < 3 → s.qualified j = false) : s.best = none := by
  simp [State.best, h]

/-- The lock-out does not count in the choice of the best class. -/
theorem best_clr_lockout (s : State) : (s.clr Reg.TB_STATE_LOCKOUT).best = s.best := by
  have hrd {f : Fld} (hf : Reg.TB_STATE_LOCKOUT.key ≠ f.key) : (s.clr Reg.TB_STATE_LOCKOUT).rd f = s.rd f := State.rd_clr_ne s hf
  have hleads : (s.clr Reg.TB_STATE_LOCKOUT).leads = s.leads := by rw [State.leads, hrd (by decide)]; rfl
  have hqual (k : Nat) : (s.clr Reg.TB_STATE_LOCKOUT).qualified k = s.qualified k := by rw [State.qualified, hrd (by decide)]; rfl
  have hopen (k : Nat) : (s.clr Reg.TB_STATE_LOCKOUT).classOpen k = s.classOpen k := by rw [State.classOpen, hrd (by decide), hleads]; rfl
  have hrank (k : Nat) : (s.clr Reg.TB_STATE_LOCKOUT).rank k = s.rank k := by
    rw [State.rank, hleads, State.flag_congr (hrd (by decide))]
    rfl
  have hofs (k : Nat) : (s.clr Reg.TB_STATE_LOCKOUT).refOfs k = s.refOfs k := by
    have hne : Reg.TB_STATE_LOCKOUT.key ≠ (Reg.TB_REF_OFS_OFS k).key := by
      simp only [Reg.TB_STATE_LOCKOUT, Reg.TB_REF_OFS_OFS]
      omega
    rw [State.refOfs, State.rdS, hrd hne]
    rfl
  have hslew (x : Int) : (s.clr Reg.TB_STATE_LOCKOUT).inSlew x = s.inSlew x := by rw [State.inSlew, State.slewMax, hrd (by decide)]; rfl
  simp only [State.best, hqual, hopen, hrank, hofs, hslew]

/-! ## The loss of a class (R35, R40) -/

/-- Class `k` is neither qualified nor on the way to it. -/
def dropRef (s : State) (k : Nat) : State :=
  let t := ((s.setQual k false).setQualifying k false).wr (Reg.TB_REF_OFS_OFS k) 0
  t.setTb { t.tb with disagreed := t.tb.disagreed.filter (fun j => j ≠ k), stepTo := if t.tb.stepTo = some k then none else t.tb.stepTo }

theorem dropRef_qualified (s : State) {j k : Nat} (hk : k < 3) (hj : j < 4) : (dropRef s k).qualified j = if j = k then false else s.qualified j := by
  have hrd : (dropRef s k).rd Reg.TB_STATE_QUAL = (s.setQual k false).rd Reg.TB_STATE_QUAL :=
    (State.rd_wr_ne _ 0 (ofs_key_ne hk (by decide))).trans (rd_setQualifying_ne _ k false (by decide))
  rw [State.qualified, hrd]
  exact qualified_setQual s k false hj

theorem dropRef_ofs (s : State) (k : Nat) : (dropRef s k).rd (Reg.TB_REF_OFS_OFS k) = 0 := State.rd_wr_self _ _ 0

theorem dropRef_qualSince (s : State) (k : Nat) : (dropRef s k).tb.qualSince.get 0 k = 0 := qualSince_setQualifying _ k false

theorem rd_dropRef (s : State) {k : Nat} (hk : k < 3) {f : Fld} (hf : f.key < 8 * 0x2030 ∨ 8 * 0x2040 ≤ f.key)
    (hq : Reg.TB_STATE_QUAL.key ≠ f.key ∧ Reg.TB_STATE_QUALIFYING.key ≠ f.key) : (dropRef s k).rd f = s.rd f :=
  (State.rd_wr_ne _ 0 (ofs_key_ne hk hf)).trans ((rd_setQualifying_ne _ k false hq.2).trans (State.rd_wr_ne s _ hq.1))

theorem dropRef_tbState (s : State) {k : Nat} (hk : k < 3) : (dropRef s k).tbState = s.tbState := rd_dropRef s hk (by decide) (by decide)

theorem dropRef_tbRef (s : State) {k : Nat} (hk : k < 3) : (dropRef s k).tbRef = s.tbRef := rd_dropRef s hk (by decide) (by decide)

theorem dropRef_leads (s : State) {k : Nat} (hk : k < 3) : (dropRef s k).leads = s.leads := by
  rw [State.leads, rd_dropRef s hk (by decide) (by decide)]
  rfl

theorem dropRef_trainHours (s : State) (k : Nat) : (dropRef s k).trainHours = s.trainHours := rfl

theorem onlyTb_dropRef (s : State) (k : Nat) : onlyTb s (dropRef s k) :=
  onlyTb_trans (onlyTb_wr s _ _) (onlyTb_trans (onlyTb_setQualifying _ k false) (onlyTb_trans (onlyTb_wr _ _ 0) (onlyTb_setTb _ _)))

theorem refLost_unqualified {s : State} {k : Nat} (h : s.qualified k = false) : refLost s k = dropRef s k := by
  unfold refLost
  rw [h]
  rfl

/-- What the loss of a qualified class leads to, after its bark. -/
def afterLoss (t : State) (k : Nat) : State :=
  let t := if k = clsLINK && !t.leads then packLinkLost t else t
  if t.tbState = tbLOCKED && t.tbRef = k then loseRef t
  else if t.tbState = tbSWITCHING && t.rd Reg.TB_STATE_TARGET = k then loseRef t
  else t

theorem refLost_qualified {s : State} {k : Nat} (h : s.qualified k = true) : refLost s k = afterLoss ((dropRef s k).bark 2 0x0202 true [k]) k := by
  unfold refLost
  rw [h]
  rfl

theorem afterLoss_notUsed {t : State} {k : Nat} (hstate : t.tbState = tbLOCKED) (href : t.tbRef ≠ k) (hlead : k = clsLINK → t.leads = true) :
    afterLoss t k = t := by
  have hpack : (decide (k = clsLINK) && !t.leads) = false := by
    by_cases hc : k = clsLINK
    · rw [hlead hc, Bool.not_true, Bool.and_false]
    · rw [decide_eq_false hc, Bool.false_and]
  simp [afterLoss, hpack, hstate, href, tbLOCKED, tbSWITCHING]

theorem afterLoss_inUse {t : State} {k : Nat} (hk : k < 2) (hstate : t.tbState = tbLOCKED) (href : t.tbRef = k) : afterLoss t k = loseRef t := by
  have hlink : k ≠ clsLINK := Nat.ne_of_lt hk
  simp [afterLoss, hlink, hstate, href]

/-! ## FREE and HOLDOVER (R44, R45) -/

theorem rd_enterFree (s : State) : (enterFree s).tbState = tbFREE ∧ (enterFree s).tbRef = clsLOCAL ∧ (enterFree s).rd Reg.TB_HOLD_EST_EST = 0 ∧
    ∀ k, (enterFree s).qualified k = s.qualified k := by
  refine ⟨?_, ?_, ?_, fun k => ?_⟩ <;>
    simp (disch := decide) only [enterFree, State.tbState, State.tbRef, State.qualified, State.bark_rd, State.rd_clr_self, State.rd_clr_ne,
      State.rd_wr_self, State.rd_wr_ne] <;> rfl

/-- The hub runs free with one bark more, and the queue as it was. -/
theorem enterFree_barks {s t : State} (h : onlyTb s t) : (enterFree t).pending = s.pending ∧ Sys2Proof.barks s (enterFree t) 2 0x0206 := by
  obtain ⟨hpending, hnow, -, hbq⟩ :=
    onlyTb_kept (onlyTb_trans h (onlyTb_trans (onlyTb_wr t _ tbFREE) (onlyTb_trans (onlyTb_wr _ _ clsLOCAL) (onlyTb_wr _ Reg.TB_HOLD_EST_EST 0))))
  exact ⟨(State.bark_pending _ _ _ _ _).trans hpending, Sys2Proof.barks_bark s _ _ _ _ _ (congrArg BqSt.staged hbq) hnow⟩

/-- With no class left the hub holds over, or runs free where it has no hour of training. -/
theorem rd_enterHoldover (s : State) : (enterHoldover s).tbRef = clsLOCAL ∧
    (enterHoldover s).tbState = (if s.trainHours = 0 then tbFREE else tbHOLDOVER) ∧
    (∀ k, (enterHoldover s).qualified k = s.qualified k) ∧
    Sys2Proof.lastBark (enterHoldover s) 2 (if s.trainHours = 0 then 0x0206 else 0x0205) := by
  unfold enterHoldover
  extract_lets h t1 _ t2
  have href : t2.rd Reg.TB_STATE_REF = clsLOCAL := State.rd_wr_self (s.wrSat Reg.TB_HOLD_EST_TRAIN h) Reg.TB_STATE_REF clsLOCAL
  have hqual : t2.rd Reg.TB_STATE_QUAL = s.rd Reg.TB_STATE_QUAL :=
    (State.rd_wr_ne (f := Reg.TB_STATE_REF) (g := Reg.TB_STATE_QUAL) (s.wrSat Reg.TB_HOLD_EST_TRAIN h) clsLOCAL (by decide)).trans
      (State.rd_wrSat_ne s h (by decide))
  clear_value t2
  by_cases hh : h = 0
  · obtain ⟨hstate, hfree, -, hkept⟩ := rd_enterFree t2
    rw [if_pos hh, if_pos hh, if_pos hh]
    exact ⟨hfree, hstate, fun k => (hkept k).trans (congrArg (bit · k) hqual), Sys2Proof.lastBark_bark _ _ _ _ _⟩
  · rw [if_neg hh, if_neg hh, if_neg hh]
    refine ⟨?_, ?_, fun k => ?_, Sys2Proof.lastBark_bark _ _ _ _ _⟩ <;>
      simp (disch := decide) only [State.tbState, State.tbRef, State.qualified, State.bark_rd, State.rd_clr_ne, State.rd_wr_self,
        State.rd_wr_ne, href, hqual]
    rfl

/-! ## A class that qualifies (R35, R36, R40) -/

/-- Class `k` is qualified, at the offset `ofs`; PTP and LINK bring the time of day with them. -/
def withRef (s : State) (k : Nat) (ofs : Int) : State :=
  let t := ((s.setQual k true).setQualifying k false).wrS (Reg.TB_REF_OFS_OFS k) ofs
  if k = clsEXT then t else t.set Reg.TB_STATE_TOD_VALID

section
variable {s : State} {k since : Nat} (ofs : Int) (hsince : s.tb.qualSince.get 0 k = since + 1) (helapsed : s.elapsed since (10 * cclkSec) = true)
  (hopen : s.classOpen k = true) (hoven : s.tb.oven = true) (hqual : s.qualified k = false) (hmeets : s.refMeets k = true)
include hsince helapsed hopen hoven hqual hmeets

/-- A class that has met its criteria for 10 s qualifies, but for one that disagrees with the time in force. -/
theorem refQualified_ready : refQualified s k ofs =
    if (s.tbState = tbLOCKED || s.tbState = tbSWITCHING) && !s.inSlew ofs then disagree s k
    else onQualified ((withRef s k ofs).bark 2 0x0201 false [k]) k ofs := by
  unfold refQualified
  simp only [hsince, helapsed, hopen, hoven, hqual, hmeets, Nat.add_sub_cancel, ne_eq, Nat.add_eq_zero_iff, one_ne_zero, and_false,
    not_false_eq_true, decide_true, Bool.not_false, Bool.and_true, if_true]
  rfl

end

/-- The marks of a class that has qualified, before those of the time of day. -/
def markRef (s : State) (k : Nat) (ofs : Int) : State := ((s.setQual k true).setQualifying k false).wrS (Reg.TB_REF_OFS_OFS k) ofs

theorem withRef_eq (s : State) (k : Nat) (ofs : Int) :
    withRef s k ofs = if k = clsEXT then markRef s k ofs else (markRef s k ofs).set Reg.TB_STATE_TOD_VALID := rfl

theorem rd_markRef (s : State) {k : Nat} (hk : k < 3) (ofs : Int) {f : Fld} (hf : f.key < 8 * 0x2030 ∨ 8 * 0x2040 ≤ f.key)
    (hq : Reg.TB_STATE_QUAL.key ≠ f.key ∧ Reg.TB_STATE_QUALIFYING.key ≠ f.key) : (markRef s k ofs).rd f = s.rd f :=
  (State.rd_wrS_ne _ ofs (ofs_key_ne hk hf)).trans ((rd_setQualifying_ne _ k false hq.2).trans (State.rd_wr_ne s _ hq.1))

/-- Past the time of day, a class that has qualified shows what its marks show. -/
theorem rd_withRef (s : State) (k : Nat) (ofs : Int) {f : Fld} (hf : Reg.TB_STATE_TOD_VALID.key ≠ f.key) :
    (withRef s k ofs).rd f = (markRef s k ofs).rd f := by
  rw [withRef_eq]
  split
  · rfl
  · exact State.rd_set_ne _ hf

theorem withRef_tb (s : State) (k : Nat) (ofs : Int) : (withRef s k ofs).tb = (markRef s k ofs).tb := by
  rw [withRef_eq]
  split <;> rfl

theorem withRef_qualified (s : State) {k : Nat} (hk : k < 3) (ofs : Int) : (withRef s k ofs).qualified k = true := by
  have hrd : (withRef s k ofs).rd Reg.TB_STATE_QUAL = (s.setQual k true).rd Reg.TB_STATE_QUAL :=
    (rd_withRef s k ofs (by decide)).trans
      ((State.rd_wrS_ne _ ofs (ofs_key_ne hk (by decide))).trans (rd_setQualifying_ne _ k false (by decide)))
  rw [State.qualified, hrd]
  exact (qualified_setQual s k true (by omega)).trans (if_pos rfl)

theorem withRef_refOfs (s : State) {k : Nat} (hk : k < 3) {ofs : Int} (hlo : -2 ^ 31 ≤ ofs) (hhi : ofs < 2 ^ 31) :
    (withRef s k ofs).refOfs k = ofs := by
  rw [State.refOfs, State.rdS, rd_withRef s k ofs (Ne.symm (ofs_key_ne hk (by decide)))]
  exact refOfs_wrS _ k hlo hhi

/-- The time of day is valid with every class: EXT needs it, and the others bring it. -/
theorem withRef_todValid {s : State} {k : Nat} (hk : k < 3) (ofs : Int) (hmeets : s.refMeets k = true) : (withRef s k ofs).todValid = true := by
  rw [withRef_eq]
  split
  · next hext =>
    have htod : s.todValid = true := by simpa [State.refMeets, hext] using hmeets
    exact (State.flag_congr (rd_markRef s hk ofs (by decide) (by decide))).trans htod
  · exact State.flag_set_self _

theorem withRef_onlyRegs (s : State) (k : Nat) (ofs : Int) : Sys2Proof.onlyRegs s (withRef s k ofs)
    [Reg.TB_STATE_QUAL, Reg.TB_STATE_QUALIFYING, Reg.TB_REF_OFS_OFS k, Reg.TB_STATE_TOD_VALID] := by
  have hmark : Sys2Proof.onlyRegs s (markRef s k ofs)
      [Reg.TB_STATE_QUAL, Reg.TB_STATE_QUALIFYING, Reg.TB_REF_OFS_OFS k, Reg.TB_STATE_TOD_VALID] := by
    refine Sys2Proof.onlyRegs_wr_of_mem (t := (s.setQual k true).setQualifying k false) ?_ (by simp) _
    refine Sys2Proof.onlyRegs_wr_of_mem (t := s.setQual k true) ?_ (by simp) _
    exact Sys2Proof.onlyRegs_wr_of_mem (Sys2Proof.onlyRegs_refl s _) (by simp) _
  rw [withRef_eq]
  split
  · exact hmark
  · exact Sys2Proof.onlyRegs_wr_of_mem hmark (by simp) 1

theorem onlyTb_withRef (s : State) (k : Nat) (ofs : Int) : onlyTb s (withRef s k ofs) := by
  have hmark : onlyTb s (markRef s k ofs) := onlyTb_trans (onlyTb_wr s _ _) (onlyTb_trans (onlyTb_setQualifying _ k false) (onlyTb_wr _ _ _))
  rw [withRef_eq]
  split
  · exact hmark
  · exact onlyTb_trans hmark (onlyTb_wr _ _ 1)

end Sys2Proof.Machine

namespace Sys2Proof
open Sys2Proof.Machine

/-! ## REF_LOST -/

theorem exec_refLost {s : State} {k : Nat} (hk : k < 3) : exec (.refLost k) s = answer s (refLost s k) := if_pos (decide_eq_true hk)

theorem dropRef_onlyRegs (s : State) (k : Nat) :
    onlyRegs s (dropRef s k) [Reg.TB_STATE_QUAL, Reg.TB_STATE_QUALIFYING, Reg.TB_REF_OFS_OFS k] := by
  refine onlyRegs_wr_of_mem (t := (s.setQual k false).setQualifying k false) (f := Reg.TB_REF_OFS_OFS k) ?_ (by simp) 0
  refine onlyRegs_wr_of_mem (t := s.setQual k false) ?_ (by simp) _
  exact onlyRegs_wr_of_mem (onlyRegs_refl s _) (by simp) _

theorem exec_refLost_unqualified {s : State} {k : Nat} (hk : k < 3) (h : s.qualified k = false) : ∃ t, exec (.refLost k) s = .next t ∧
    t.qualified k = false ∧ t.rd (Reg.TB_REF_OFS_OFS k) = 0 ∧ t.tb.qualSince.get 0 k = 0 ∧ t = { s with regs := t.regs, tb := t.tb } ∧
    onlyRegs s t [Reg.TB_STATE_QUAL, Reg.TB_STATE_QUALIFYING, Reg.TB_REF_OFS_OFS k] := by
  obtain ⟨hpending, -⟩ := onlyTb_kept (onlyTb_dropRef s k)
  rw [exec_refLost hk, refLost_unqualified h]
  exact ⟨_, answer_eq hpending, (dropRef_qualified s hk (by omega)).trans (if_pos rfl), dropRef_ofs s k, dropRef_qualSince s k, onlyTb_dropRef s k,
    dropRef_onlyRegs s k⟩

/-- The loss of a class that is not in use is barked. -/
theorem exec_refLost_notUsed {s : State} {k : Nat} (hk : k < 3) (h : s.qualified k = true) (hstate : s.tbState = tbLOCKED) (href : s.tbRef ≠ k)
    (hlead : k = clsLINK → s.leads = true) : ∃ t, exec (.refLost k) s = .next t ∧ t.qualified k = false ∧
      t.rd (Reg.TB_REF_OFS_OFS k) = 0 ∧ barks s t 2 0x0202 ∧ t = { s with regs := t.regs, tb := t.tb, bq := t.bq } ∧
      onlyRegs s t [Reg.TB_STATE_QUAL, Reg.TB_STATE_QUALIFYING, Reg.TB_REF_OFS_OFS k] := by
  have hlost : refLost s k = (dropRef s k).bark 2 0x0202 true [k] := by
    rw [refLost_qualified h, afterLoss_notUsed]
    · rw [bark_tbState, dropRef_tbState s hk, hstate]
    · rwa [bark_tbRef, dropRef_tbRef s hk]
    · rwa [bark_leads, dropRef_leads s hk]
  obtain ⟨hpending, hnow, -, hbq⟩ := onlyTb_kept (onlyTb_dropRef s k)
  rw [exec_refLost hk, hlost]
  refine ⟨_, answer_eq ((State.bark_pending _ _ _ _ _).trans hpending), ?_, ?_, barks_bark s _ _ _ _ _ (congrArg BqSt.staged hbq) hnow,
    onlyTb_bark (onlyTb_dropRef s k) _ _ _ _, onlyRegs_of_rd (dropRef_onlyRegs s k) fun f => State.bark_rd _ _ _ _ _ f⟩
  · rw [bark_qualified, dropRef_qualified s hk (by omega), if_pos rfl]
  · rw [State.bark_rd, dropRef_ofs]

/-- The loss of the class in use, with no other left, ends in HOLDOVER or FREE. -/
theorem exec_refLost_inUse {s : State} {k : Nat} (hk : k < 2) (h : s.qualified k = true) (hstate : s.tbState = tbLOCKED) (href : s.tbRef = k)
    (hothers : ∀ j, j < 3 → j ≠ k → s.qualified j = false) : ∃ t, exec (.refLost k) s = .next t ∧ t.qualified k = false ∧ t.tbRef = clsLOCAL ∧
      t.tbState = (if s.trainHours = 0 then tbFREE else tbHOLDOVER) ∧ lastBark t 2 (if s.trainHours = 0 then 0x0206 else 0x0205) := by
  have hk3 : k < 3 := by omega
  have hlost : refLost s k = enterHoldover ((dropRef s k).bark 2 0x0202 true [k]) := by
    have hbest : ((dropRef s k).bark 2 0x0202 true [k]).best = none := by
      refine best_none fun j hj => (dropRef_qualified s hk3 (by omega)).trans ?_
      split
      · rfl
      · next hne => exact hothers j hj hne
    rw [refLost_qualified h, afterLoss_inUse hk, loseRef, hbest]
    · rw [bark_tbState, dropRef_tbState s hk3, hstate]
    · rw [bark_tbRef, dropRef_tbRef s hk3, href]
  have htrain : ((dropRef s k).bark 2 0x0202 true [k]).trainHours = s.trainHours := by
    rw [bark_trainHours, dropRef_trainHours]
  obtain ⟨hlocal, hnext, hqual, hbark⟩ := rd_enterHoldover ((dropRef s k).bark 2 0x0202 true [k])
  rw [htrain] at hnext hbark
  rw [exec_refLost hk3, hlost]
  refine answer_of ⟨(hqual k).trans ?_, hlocal, hnext, hbark⟩
  rw [bark_qualified, dropRef_qualified s hk3 (by omega), if_pos rfl]

/-! ## REF_QUALIFIED -/

theorem exec_refQualified {s : State} {k : Nat} (hk : k < 3) (ofs : Int) : exec (.refQualified k ofs) s = answer s (refQualified s k ofs) :=
  if_pos (decide_eq_true hk)

section
variable {s : State} {k since : Nat} (ofs : Int) (hk : k < 3) (hsince : s.tb.qualSince.get 0 k = since + 1)
  (helapsed : s.elapsed since (10 * cclkSec) = true) (hopen : s.classOpen k = true) (hoven : s.tb.oven = true) (hqual : s.qualified k = false)
  (hmeets : s.refMeets k = true)
include hk hsince helapsed hopen hoven hqual hmeets

/-- In ACQUIRE the first class that qualifies asks for a step to it. -/
theorem exec_refQualified_acquire (hstate : s.tbState = tbACQUIRE) : ∃ t, exec (.refQualified k ofs) s = .next t ∧ t.qualified k = true ∧
    t.todValid = true ∧ t.tb.stepTo = some k ∧ barks s t 2 0x0201 ∧ t.tb.qualSince.get 0 k = 0 ∧
    (-2 ^ 31 ≤ ofs → ofs < 2 ^ 31 → t.refOfs k = ofs) ∧ t = { s with regs := t.regs, tb := t.tb, bq := t.bq } ∧
    onlyRegs s t [Reg.TB_STATE_QUAL, Reg.TB_STATE_QUALIFYING, Reg.TB_REF_OFS_OFS k, Reg.TB_STATE_TOD_VALID] := by
  have hacquire : (withRef s k ofs).tbState = tbACQUIRE :=
    (rd_withRef s k ofs (by decide)).trans ((rd_markRef s hk ofs (by decide) (by decide)).trans hstate)
  have hvalid := withRef_todValid hk ofs hmeets
  have hjudged : refQualified s k ofs =
      ((withRef s k ofs).setTb { (withRef s k ofs).tb with stepTo := some k }).bark 2 0x0201 false [k] := by
    rw [refQualified_ready ofs hsince helapsed hopen hoven hqual hmeets, hstate]
    have hs : ((withRef s k ofs).bark 2 0x0201 false [k]).tbState = tbACQUIRE := hacquire
    have hv : ((withRef s k ofs).bark 2 0x0201 false [k]).todValid = true := hvalid
    simp only [onQualified, hs, hv, tbACQUIRE, tbLOCKED, tbSWITCHING, if_true]
    rfl
  have hframe := onlyTb_trans (onlyTb_withRef s k ofs) (onlyTb_setTb _ { (withRef s k ofs).tb with stepTo := some k })
  obtain ⟨hpending, hnow, -, hbq⟩ := onlyTb_kept hframe
  rw [exec_refQualified hk, hjudged]
  refine ⟨_, answer_eq ((State.bark_pending _ _ _ _ _).trans hpending), withRef_qualified s hk ofs, hvalid, rfl,
    barks_bark s _ _ _ _ _ (congrArg BqSt.staged hbq) hnow, ?_, fun hlo hhi => withRef_refOfs s hk hlo hhi, onlyTb_bark hframe _ _ _ _,
    onlyRegs_of_rd (withRef_onlyRegs s k ofs) fun f => State.bark_rd _ _ _ _ _ f⟩
  exact (congrArg (fun x : TbSt => x.qualSince.get 0 k) (withRef_tb s k ofs)).trans (qualSince_setQualifying _ k false)

/-- A class that disagrees with the time in force is withheld, and barked once. -/
theorem exec_refQualified_disagrees (hstate : s.tbState = tbLOCKED) (hslew : s.inSlew ofs = false) (hnew : s.tb.disagreed.contains k = false) :
    ∃ t, exec (.refQualified k ofs) s = .next t ∧ t.qualified k = false ∧ t.tb.disagreed.contains k = true ∧ barks s t 2 0x0207 := by
  have hjudged : refQualified s k ofs = ({ s with tb := { s.tb with disagreed := s.tb.disagreed ++ [k] } } : State).bark 2 0x0207 true [k] := by
    rw [refQualified_ready ofs hsince helapsed hopen hoven hqual hmeets, hstate, hslew, disagree, hnew]
    rfl
  rw [exec_refQualified hk, hjudged]
  exact answer_of ⟨hqual, by simp, barks_bark s _ _ _ _ _ rfl rfl⟩

end

/-! ## The end of a slew and of its lock-out (R40 to R42) -/

/-- The registers at the end of a slew: LOCKED on its target, and locked out. -/
def lockTarget (s : State) : State :=
  (((s.wr Reg.TB_STATE_STATE tbLOCKED).wr Reg.TB_STATE_REF (s.rd Reg.TB_STATE_TARGET)).wr Reg.TB_STATE_TARGET clsLOCAL).set Reg.TB_STATE_LOCKOUT

theorem onlyTb_lockTarget (s : State) : onlyTb s (lockTarget s) :=
  onlyTb_trans (onlyTb_wr s _ _) (onlyTb_trans (onlyTb_wr _ _ _) (onlyTb_trans (onlyTb_wr _ _ _) (onlyTb_wr _ _ 1)))

theorem switchDone_due {s : State} (hstate : s.tbState = tbSWITCHING) (hend : s.tb.slewEnd ≤ s.run) : ∃ x : TbSt,
    x.lockEnd = s.run + 10 * cclkSec ∧
    switchDone s = (((lockTarget s).setTb x).clr Reg.TB_HOLD_EST_EST).bark 2 0x0204 false [] := by
  unfold switchDone
  rw [hstate, decide_eq_true hend]
  exact ⟨_, rfl, rfl⟩

theorem exec_switchDone {s : State} (hstate : s.tbState = tbSWITCHING) (hend : s.tb.slewEnd ≤ s.run) : ∃ t, exec .switchDone s = .next t ∧
    t.tbState = tbLOCKED ∧ t.tbRef = s.rd Reg.TB_STATE_TARGET % 4 ∧ t.flag Reg.TB_STATE_LOCKOUT = true ∧ t.tb.lockEnd = s.run + 10 * cclkSec ∧
    t.rd Reg.TB_HOLD_EST_EST = 0 ∧ barks s t 2 0x0204 ∧ t = { s with regs := t.regs, tb := t.tb, bq := t.bq } ∧
    onlyRegs s t [Reg.TB_STATE_STATE, Reg.TB_STATE_REF, Reg.TB_STATE_TARGET, Reg.TB_STATE_LOCKOUT, Reg.TB_HOLD_EST_EST] := by
  obtain ⟨x, hlock, hdone⟩ := switchDone_due hstate hend
  have hcall : exec .switchDone s = answer s (switchDone s) := rfl
  have honly : onlyRegs s (lockTarget s) [Reg.TB_STATE_STATE, Reg.TB_STATE_REF, Reg.TB_STATE_TARGET,
      Reg.TB_STATE_LOCKOUT, Reg.TB_HOLD_EST_EST] := by
    refine onlyRegs_wr_of_mem (onlyRegs_wr_of_mem (onlyRegs_wr_of_mem (onlyRegs_wr_of_mem (onlyRegs_refl s _) ?_ _) ?_ _) ?_ _) ?_ 1 <;> simp
  have hframe : onlyTb s (((lockTarget s).setTb x).clr Reg.TB_HOLD_EST_EST) :=
    onlyTb_trans (onlyTb_lockTarget s) (onlyTb_trans (onlyTb_setTb _ x) (onlyTb_wr _ _ 0))
  obtain ⟨hpending, hnow, -, hbq⟩ := onlyTb_kept hframe
  rw [hcall, hdone]
  refine ⟨_, answer_eq ((State.bark_pending _ _ _ _ _).trans hpending), ?_, ?_, ?_, hlock, State.rd_clr_self _ _,
    barks_bark s _ _ _ _ _ (congrArg BqSt.staged hbq) hnow, onlyTb_bark hframe _ _ _ _,
    onlyRegs_wr_of_mem (t := (lockTarget s).setTb x) (f := Reg.TB_HOLD_EST_EST) honly (by simp) 0⟩ <;>
    simp (disch := decide) only [State.tbState, State.tbRef, State.flag, State.bark_rd, State.rd_clr_ne, rd_setTb, lockTarget, State.rd_set_ne,
      State.rd_set_self, State.rd_wr_self, State.rd_wr_ne] <;> rfl

theorem exec_lockoutEnd_quiet {s : State} (hlock : s.flag Reg.TB_STATE_LOCKOUT = true) (hend : s.tb.lockEnd ≤ s.run) (hstate : s.tbState ≠ tbLOCKED) :
    ∃ t, exec .lockoutEnd s = .next t ∧ t.flag Reg.TB_STATE_LOCKOUT = false ∧ t = { s with regs := t.regs } ∧
      onlyRegs s t [Reg.TB_STATE_LOCKOUT] := by
  have hs : (s.clr Reg.TB_STATE_LOCKOUT).tbState ≠ tbLOCKED := by
    rwa [State.tbState, State.rd_clr_ne s (by decide)]
  have hdone : lockoutEnd s = s.clr Reg.TB_STATE_LOCKOUT := by
    unfold lockoutEnd
    rw [hlock, decide_eq_true hend]
    simp only [Bool.and_self, if_true, hs, decide_false, Bool.false_and]
    split <;> rfl
  have hcall : exec .lockoutEnd s = answer s (lockoutEnd s) := rfl
  rw [hcall, hdone]
  exact ⟨_, answer_eq rfl, State.flag_clr_self s _, rfl, onlyRegs_wr s _ 0⟩

/-- The registers at the start of a slew to class `k`. -/
def slewRegs (s : State) (k : Nat) : State :=
  (((s.wr Reg.TB_STATE_STATE tbSWITCHING).wr Reg.TB_STATE_TARGET k).clr Reg.TB_HOLD_EST_EST).count Reg.TB_CNT_SWITCHES

theorem rd_startSlew (s : State) (k : Nat) (f : Fld) : (startSlew s k).rd f = (slewRegs s k).rd f := rfl

/-- With a better class qualified, the end of a lock-out starts the slew to it. -/
theorem exec_lockoutEnd_slew {s : State} (hlock : s.flag Reg.TB_STATE_LOCKOUT = true) (hend : s.tb.lockEnd ≤ s.run) (hstate : s.tbState = tbLOCKED)
    (href : s.tbRef = clsPTP) (hbest : s.best = some clsEXT) : ∃ t, exec .lockoutEnd s = .next t ∧ t.flag Reg.TB_STATE_LOCKOUT = false ∧
      t.tbState = tbSWITCHING ∧ t.rd Reg.TB_STATE_TARGET = clsEXT ∧ t.tb.slewEnd = s.run + cclkSec ∧ barks s t 2 0x0203 := by
  have hs : (s.clr Reg.TB_STATE_LOCKOUT).tbState = tbLOCKED := (State.rd_clr_ne s (by decide)).trans hstate
  have hr : (s.clr Reg.TB_STATE_LOCKOUT).tbRef = clsPTP := (State.rd_clr_ne s (by decide)).trans href
  have hrank (u : State) : u.rank clsEXT < u.rank clsPTP := by simp [State.rank, clsEXT, clsPTP, clsLINK]
  have hdone : lockoutEnd s = startSlew (s.clr Reg.TB_STATE_LOCKOUT) clsEXT := by
    unfold lockoutEnd
    rw [hlock, decide_eq_true hend]
    simp only [Bool.and_self, if_true, best_clr_lockout, hbest, hs, hr, hrank, decide_true]
  have hcall : exec .lockoutEnd s = answer s (lockoutEnd s) := rfl
  rw [hcall, hdone]
  refine ⟨_, answer_eq rfl, ?_, ?_, ?_, rfl, barks_bark s _ _ _ _ _ rfl rfl⟩ <;>
    simp (disch := decide) only [State.flag, State.tbState, rd_startSlew, slewRegs, State.rd_count_ne, State.rd_clr_ne, State.rd_clr_self,
      State.rd_wr_self, State.rd_wr_ne] <;> rfl

/-! ## The reference inputs (R35, R39) -/

/-- An edge of 1PPS_IN is noted. -/
def notePps (s : State) : State := s.setTb { s.tb with ppsLast := some s.run }

theorem notePps_qualified (s : State) (k : Nat) : (notePps s).qualified k = s.qualified k := rfl

theorem ppsEdge_misplaced (s : State) {cyc : Nat} (ofs : Int) (hcyc : cyc < 9999999 ∨ 10000001 < cyc) :
    ppsEdge s cyc ofs = refLost (notePps s) clsEXT := by
  have hplace : (decide (9999999 ≤ cyc) && decide (cyc ≤ 10000001)) = false := by
    rw [Bool.and_eq_false_iff, decide_eq_false_iff_not, decide_eq_false_iff_not]
    omega
  unfold ppsEdge
  rw [hplace]
  rfl

theorem exec_ppsInEdge_misplaced {s : State} {cyc : Nat} (ofs : Int) (hcyc : cyc < 9999999 ∨ 10000001 < cyc) (h : s.qualified clsEXT = false) :
    ∃ t, exec (.ppsInEdge cyc ofs) s = .next t ∧ t.qualified clsEXT = false ∧ t.tb.qualSince.get 0 clsEXT = 0 := by
  have hcall : exec (.ppsInEdge cyc ofs) s = answer s (ppsEdge s cyc ofs) := rfl
  rw [hcall, ppsEdge_misplaced s ofs hcyc, refLost_unqualified ((notePps_qualified s _).trans h)]
  exact ⟨_, answer_eq rfl, (dropRef_qualified _ (by decide) (by decide)).trans (if_pos rfl), dropRef_qualSince _ _⟩

/-- An edge in its place is measured, once its class may have begun to qualify. -/
theorem ppsEdge_inPlace (s : State) {cyc : Nat} (ofs : Int) (hlo : 9999999 ≤ cyc) (hhi : cyc ≤ 10000001) : ppsEdge s cyc ofs =
    refMeasured (beginQualifying (notePps s) clsEXT) clsEXT
      (ofs - rne (s.rdS Reg.TB_EXT_DELAY_DELAY * 256) 1000) := by
  unfold ppsEdge
  rw [decide_eq_true hlo, decide_eq_true hhi]
  rfl

theorem refMeasured_unqualified {s : State} {k : Nat} (ofs : Int) (h : s.qualified k = false) : refMeasured s k ofs = s := by
  unfold refMeasured
  rw [h]
  rfl

theorem beginQualifying_qualified {s : State} {k : Nat} (h : s.qualified k = true) : beginQualifying s k = s := by
  simp [beginQualifying, h]

theorem beginQualifying_open {s : State} {k : Nat} (hopen : s.classOpen k = true) (hoven : s.tb.oven = true) (hqual : s.qualified k = false)
    (hsince : s.tb.qualSince.get 0 k = 0) (hmeets : s.refMeets k = true) : beginQualifying s k = s.setQualifying k true := by
  simp [beginQualifying, hopen, hoven, hqual, hsince, hmeets]

theorem setQualifying_qualified (s : State) (k j : Nat) (b : Bool) : (s.setQualifying k b).qualified j = s.qualified j :=
  congrArg (bit · j) (rd_setQualifying_ne s k b (by decide))

/-- The first edge in its place begins the 10 s of EXT. -/
theorem exec_ppsInEdge_begins {s : State} {cyc : Nat} (ofs : Int) (hlo : 9999999 ≤ cyc) (hhi : cyc ≤ 10000001) (hqual : s.qualified clsEXT = false)
    (hopen : s.classOpen clsEXT = true) (hoven : s.tb.oven = true) (htod : s.todValid = true) (hsince : s.tb.qualSince.get 0 clsEXT = 0) :
    ∃ t, exec (.ppsInEdge cyc ofs) s = .next t ∧ t.tb.qualSince.get 0 clsEXT = s.run + 1 ∧ t.tb.ppsLast = some s.run ∧
      bit (t.rd Reg.TB_STATE_QUALIFYING) clsEXT = true ∧ t = { s with regs := t.regs, tb := t.tb } ∧
      onlyRegs s t [Reg.TB_STATE_QUALIFYING] := by
  have hbegin : beginQualifying (notePps s) clsEXT = (notePps s).setQualifying clsEXT true :=
    beginQualifying_open (s := notePps s) hopen hoven hqual hsince htod
  have hcall : exec (.ppsInEdge cyc ofs) s = answer s (ppsEdge s cyc ofs) := rfl
  rw [hcall, ppsEdge_inPlace s ofs hlo hhi, hbegin, refMeasured_unqualified _ ((setQualifying_qualified (notePps s) _ _ _).trans hqual)]
  exact ⟨_, answer_eq rfl, qualSince_setQualifying _ _ _, rfl, (bit_setQualifying _ _ _ (by decide)).trans (if_pos rfl), rfl,
    onlyRegs_wr s _ _⟩

theorem rne_ps (m : Int) : rne (1000 * m * 256) 1000 = 256 * m := by
  have hquot : 1000 * m * 256 / ((1000 : Nat) : Int) = 256 * m := by omega
  have hrem : 1000 * m * 256 % ((1000 : Nat) : Int) = 0 := by omega
  rw [rne, hquot, hrem]
  rfl

/-- A qualified class that is not in use shows its offset while the hub is LOCKED. -/
theorem refMeasured_notUsed {s : State} {k : Nat} (hk : k < 3) (ofs : Int) (hqual : s.qualified k = true) (hstate : s.tbState = tbLOCKED)
    (href : s.tbRef ≠ k) : refMeasured s k ofs = s.wrS (Reg.TB_REF_OFS_OFS k) ofs := by
  have hs : (s.wrS (Reg.TB_REF_OFS_OFS k) ofs).tbState = tbLOCKED := (State.rd_wrS_ne s ofs (ofs_key_ne hk (by decide))).trans hstate
  have hr : (s.wrS (Reg.TB_REF_OFS_OFS k) ofs).tbRef ≠ k := by
    rwa [State.tbRef, State.rd_wrS_ne s ofs (ofs_key_ne hk (by decide))]
  simp [refMeasured, hqual, hs, hr, tbLOCKED, tbHOLDOVER, tbFREE]

/-- The cable delay is taken off what an edge measures. -/
theorem exec_ppsInEdge_measures {s : State} {cyc : Nat} {m : Int} (hlo : 9999999 ≤ cyc) (hhi : cyc ≤ 10000001) (hqual : s.qualified clsEXT = true)
    (hstate : s.tbState = tbLOCKED) (href : s.tbRef = clsPTP) (hdelay : s.rdS Reg.TB_EXT_DELAY_DELAY = 1000 * m) {ofs : Int}
    (hmin : -2 ^ 31 ≤ ofs - 256 * m) (hmax : ofs - 256 * m < 2 ^ 31) : ∃ t, exec (.ppsInEdge cyc ofs) s = .next t ∧
      t.refOfs clsEXT = ofs - 256 * m ∧ t.tb.ppsLast = some s.run ∧ onlyRegs s t [Reg.TB_REF_OFS_OFS clsEXT] ∧
      t = { s with regs := t.regs, tb := t.tb } := by
  have hbegin : beginQualifying (notePps s) clsEXT = notePps s := beginQualifying_qualified (s := notePps s) hqual
  have hused : s.tbRef ≠ clsEXT := by
    rw [href]
    decide
  have hcall : exec (.ppsInEdge cyc ofs) s = answer s (ppsEdge s cyc ofs) := rfl
  rw [hcall, ppsEdge_inPlace s ofs hlo hhi, hbegin, hdelay, rne_ps,
    refMeasured_notUsed (s := notePps s) (by decide) _ hqual hstate hused]
  exact ⟨_, answer_eq rfl, refOfs_wrS _ clsEXT hmin hmax, rfl, onlyRegs_wr s _ _, rfl⟩

theorem exec_ptpMessage_discarded {s : State} {type domain cls : Nat} {udp : Bool} {vlan : Option Nat} {ofs : Option Int}
    (h : (udp = s.flag Reg.TB_PTP_CFG_TRANSPORT && domain = s.rd Reg.TB_PTP_CFG_DOMAIN && vlan = s.ptpVlan) = false) :
    ∃ t, exec (.ptpMessage type udp domain vlan cls ofs) s = .next t ∧ t = s := by
  have hdrop : ptpMessage s type udp domain vlan cls ofs = s := by
    unfold ptpMessage
    rw [h]
    rfl
  have hcall : exec (.ptpMessage type udp domain vlan cls ofs) s = answer s (ptpMessage s type udp domain vlan cls ofs) := rfl
  rw [hcall, hdrop]
  exact ⟨_, answer_eq rfl, rfl⟩

/-- An Announce of a grandmaster of clockClass 6 or 7 is taken. -/
theorem exec_ptpMessage_announce {s : State} {cls : Nat} (ofs : Option Int) (h : cls = 6 ∨ cls = 7) :
    ∃ t, exec (.ptpMessage 0 (s.flag Reg.TB_PTP_CFG_TRANSPORT) (s.rd Reg.TB_PTP_CFG_DOMAIN) s.ptpVlan cls ofs) s = .next t ∧
      t = { s with tb := { s.tb with ptpMaster := true } } := by
  have hgood : ptpMessage s 0 (s.flag Reg.TB_PTP_CFG_TRANSPORT) (s.rd Reg.TB_PTP_CFG_DOMAIN) s.ptpVlan cls ofs =
      { s with tb := { s.tb with ptpMaster := true } } := by
    simp [ptpMessage, h]
  have hcall : exec (.ptpMessage 0 (s.flag Reg.TB_PTP_CFG_TRANSPORT) (s.rd Reg.TB_PTP_CFG_DOMAIN) s.ptpVlan cls ofs) s =
    answer s (ptpMessage s 0 (s.flag Reg.TB_PTP_CFG_TRANSPORT) (s.rd Reg.TB_PTP_CFG_DOMAIN) s.ptpVlan cls ofs) := rfl
  rw [hcall, hgood]
  exact ⟨_, answer_eq rfl, rfl⟩

/-- A message of the PTP window is counted. -/
def countPtp (s : State) (type : Nat) : State :=
  { s with tb := { s.tb with ptpSync := s.tb.ptpSync + b2n (type = 1), ptpDelay := s.tb.ptpDelay + b2n (type = 2) } }

/-- A Sync or a Delay_Resp that is taken counts, and may begin the 10 s; a Sync of an accepted master is answered. -/
theorem ptpMessage_counted (s : State) {type : Nat} (cls : Nat) (htype : type = 1 ∨ type = 2) :
    ptpMessage s type (s.flag Reg.TB_PTP_CFG_TRANSPORT) (s.rd Reg.TB_PTP_CFG_DOMAIN) s.ptpVlan cls none =
      (let u := beginQualifying (countPtp s type) clsPTP
       u.when (type = 1 && u.tb.ptpMaster) (fun v => v.emit (.ptp 1 (v.rd Reg.TB_PTP_CFG_DOMAIN) v.ptpVlan))) := by
  have hmine : (decide (s.flag Reg.TB_PTP_CFG_TRANSPORT = s.flag Reg.TB_PTP_CFG_TRANSPORT) &&
      decide (s.rd Reg.TB_PTP_CFG_DOMAIN = s.rd Reg.TB_PTP_CFG_DOMAIN) && decide (s.ptpVlan = s.ptpVlan)) = true := by simp
  unfold ptpMessage
  rw [hmine]
  rcases htype with rfl | rfl <;> rfl

/-- What is sent leaves the time base and the registers alone. -/
theorem when_emit (u : State) (c : Bool) (o : State → Out) : (u.when c fun v => v.emit (o v)).tb = u.tb ∧
    (u.when c fun v => v.emit (o v)).regs = u.regs ∧ (u.when c fun v => v.emit (o v)).pending = u.pending := by
  cases c <;> exact ⟨rfl, rfl, rfl⟩

/-- The first message of an accepted master begins the 10 s of PTP. -/
theorem exec_ptpMessage_begins {s : State} {type : Nat} (cls : Nat) (htype : type = 1 ∨ type = 2) (hqual : s.qualified clsPTP = false)
    (hmaster : s.tb.ptpMaster = true) (hsince : s.tb.qualSince.get 0 clsPTP = 0) (hopen : s.classOpen clsPTP = true) (hoven : s.tb.oven = true) :
    ∃ t, exec (.ptpMessage type (s.flag Reg.TB_PTP_CFG_TRANSPORT) (s.rd Reg.TB_PTP_CFG_DOMAIN) s.ptpVlan cls none) s = .next t ∧
      t.tb.ptpSync = s.tb.ptpSync + (if type = 1 then 1 else 0) ∧ t.tb.ptpDelay = s.tb.ptpDelay + (if type = 2 then 1 else 0) ∧
      t.tb.qualSince.get 0 clsPTP = s.run + 1 ∧ onlyRegs s t [Reg.TB_STATE_QUALIFYING] := by
  have hbegin : beginQualifying (countPtp s type) clsPTP = (countPtp s type).setQualifying clsPTP true :=
    beginQualifying_open (s := countPtp s type) hopen hoven hqual hsince hmaster
  have hcall : exec (.ptpMessage type (s.flag Reg.TB_PTP_CFG_TRANSPORT) (s.rd Reg.TB_PTP_CFG_DOMAIN) s.ptpVlan cls none) s =
    answer s (ptpMessage s type (s.flag Reg.TB_PTP_CFG_TRANSPORT) (s.rd Reg.TB_PTP_CFG_DOMAIN) s.ptpVlan cls none) := rfl
  have hcount (p : Prop) [Decidable p] : b2n (decide p) = if p then 1 else 0 := by simp [b2n]
  rw [hcall, ptpMessage_counted s cls htype, hbegin]
  have hqualifying : onlyRegs s ((countPtp s type).setQualifying clsPTP true) [Reg.TB_STATE_QUALIFYING] := onlyRegs_wr (countPtp s type) _ _
  obtain ⟨htb, hregs, hpending⟩ := when_emit ((countPtp s type).setQualifying clsPTP true)
    (type = 1 && ((countPtp s type).setQualifying clsPTP true).tb.ptpMaster) fun v => .ptp 1 (v.rd Reg.TB_PTP_CFG_DOMAIN) v.ptpVlan
  refine ⟨_, answer_eq hpending, ?_, ?_, ?_, onlyRegs_of_rd hqualifying fun f => ?_⟩
  · rw [htb, ← hcount]
    rfl
  · rw [htb, ← hcount]
    rfl
  · rw [htb]
    exact qualSince_setQualifying _ _ _
  · rw [State.rd, hregs]
    rfl

/-! ## HOLD_EST_UPDATE (R44, R45) -/

/-- Once per second the register shows the bound, fourfold with little training. -/
def showBound (s : State) : State :=
  let b := holdBound ((s.run - s.tb.holdSince) / cclkSec)
  s.wrSat Reg.TB_HOLD_EST_EST (if s.rd Reg.TB_HOLD_EST_TRAIN < 24 then 4 * b else b)

theorem onlyTb_showBound (s : State) : onlyTb s (showBound s) := onlyTb_wr s _ _

theorem holdEst_holdover {s : State} (h : s.tbState = tbHOLDOVER) : holdEst s =
    if max 1 (s.rd Reg.TB_HOLD_LIMIT) < (showBound s).rd Reg.TB_HOLD_EST_EST then enterFree (showBound s) else showBound s := by
  have hlimit : (showBound s).rd Reg.TB_HOLD_LIMIT = s.rd Reg.TB_HOLD_LIMIT := State.rd_wrSat_ne s _ (by decide)
  rw [← hlimit]
  exact if_pos h

/-- A bound within the limit shows, and the holdover goes on. -/
theorem exec_holdEstUpdate_within {s : State} {n : Nat} (hstate : s.tbState = tbHOLDOVER) (hn : (s.run - s.tb.holdSince) / cclkSec = n)
    (hbound : holdBound n ≤ 1000) (htrain : 24 ≤ s.rd Reg.TB_HOLD_EST_TRAIN) (hlimit : 1000 ≤ s.rd Reg.TB_HOLD_LIMIT) :
    ∃ t, exec .holdEstUpdate s = .next t ∧ t.rd Reg.TB_HOLD_EST_EST = holdBound n ∧ t.tbState = tbHOLDOVER ∧ t = { s with regs := t.regs } ∧
      onlyRegs s t [Reg.TB_HOLD_EST_EST] := by
  have hshow : showBound s = s.wrSat Reg.TB_HOLD_EST_EST (holdBound n) := by
    rw [showBound, hn, if_neg (Nat.not_lt.2 htrain)]
  have hest : (s.wrSat Reg.TB_HOLD_EST_EST (holdBound n)).rd Reg.TB_HOLD_EST_EST = holdBound n :=
    (State.rd_wrSat_self s _ _).trans (if_pos (Nat.lt_of_le_of_lt hbound (by decide)))
  have hdone : holdEst s = s.wrSat Reg.TB_HOLD_EST_EST (holdBound n) := by
    rw [holdEst_holdover hstate, hshow, hest, if_neg (by omega)]
  have hcall : exec .holdEstUpdate s = answer s (holdEst s) := rfl
  rw [hcall, hdone]
  exact ⟨_, answer_eq (State.wrSat_pending s _ _), hest, (State.rd_wrSat_ne s _ (by decide)).trans hstate, wr_frame rfl _ _, onlyRegs_wr s _ _⟩

/-- After a day the bound of 100 µs lies beyond every limit. -/
theorem exec_holdEstUpdate_day {s : State} (hstate : s.tbState = tbHOLDOVER) (hn : (s.run - s.tb.holdSince) / cclkSec = 86400)
    (hlimit : s.rd Reg.TB_HOLD_LIMIT < 65536) : ∃ t, exec .holdEstUpdate s = .next t ∧ t.tbState = tbFREE ∧ t.tbRef = clsLOCAL ∧
      t.rd Reg.TB_HOLD_EST_EST = 0 ∧ barks s t 2 0x0206 := by
  have hday : holdBound 86400 = 100000 := rfl
  have hest : 100000 ≤ (showBound s).rd Reg.TB_HOLD_EST_EST := by
    rw [showBound, hn, hday, State.rd_wrSat_self, satU]
    have hwidth : Reg.TB_HOLD_EST_EST.width = 24 := rfl
    rw [hwidth]
    split_ifs <;> omega
  have hdone : holdEst s = enterFree (showBound s) := by
    rw [holdEst_holdover hstate, if_pos (by omega)]
  have hcall : exec .holdEstUpdate s = answer s (holdEst s) := rfl
  obtain ⟨hfree, hlocal, hzero, -⟩ := rd_enterFree (showBound s)
  obtain ⟨hpending, hbark⟩ := enterFree_barks (onlyTb_showBound s)
  rw [hcall, hdone]
  exact ⟨_, answer_eq hpending, hfree, hlocal, hzero, hbark⟩

/-- Settles O8: each row of the reference machine in the case that its clause names. -/
theorem referenceMachine : Obligations.ReferenceMachine := by
  intro s
  refine ⟨fun k hk h => exec_refLost_unqualified hk h, fun k hk h hs hr hl => exec_refLost_notUsed hk h hs hr hl,
    fun k hk h hs hr ho => exec_refLost_inUse hk h hs hr ho,
    fun k ofs since hk hsince he hopen hoven hq hm hs => exec_refQualified_acquire ofs hk hsince he hopen hoven hq hm hs,
    fun k ofs since hk hsince he hopen hoven hq hm hs hslew hnew => exec_refQualified_disagrees ofs hk hsince he hopen hoven hq hm hs hslew hnew,
    exec_switchDone, exec_lockoutEnd_quiet, ⟨_, rfl, rfl⟩, fun cyc ofs hcyc h => exec_ppsInEdge_misplaced ofs hcyc h,
    fun cyc ofs hlo hhi hq hopen hoven htod hsince => exec_ppsInEdge_begins ofs hlo hhi hq hopen hoven htod hsince,
    fun cyc m hlo hhi hq hs hr hd ofs hmin hmax => exec_ppsInEdge_measures hlo hhi hq hs hr hd hmin hmax,
    fun udp domain cls ofs hne type vlan => ?_, fun cls ofs h => exec_ptpMessage_announce ofs h, fun vlan type cls ofs hne => ?_,
    fun type cls htype hq hm hsince hopen hoven => exec_ptpMessage_begins cls htype hq hm hsince hopen hoven,
    fun n hs hn hb ht hl => exec_holdEstUpdate_within hs hn hb ht hl, exec_holdEstUpdate_day, exec_lockoutEnd_slew⟩
  · refine exec_ptpMessage_discarded ?_
    rcases hne with h | h <;> simp [h]
  · exact exec_ptpMessage_discarded (by simp [hne])

end Sys2Proof
end

