-- ==== Sys2Proof/Proofs/FieldChannels.lean ====
section
/-! PROOFS. Cards and channels of the field inputs: what a read finds after a change (R57, R63, R90), which fields share no bit, and the
frames of their operations. -/

namespace Sys2Proof.Machine

/-! ## Cards and channels -/

theorem card_modCard_self (s : State) (f : Nat) (g : Card → Card) : (s.modCard f g).card f = g (s.card f) := Sparse.get_put_self _ _ _ _

@[simp] theorem chan_modChan_self (s : State) (f c : Nat) (g : Chan → Chan) : (s.modChan f c g).chan f c = g (s.chan f c) := by
  rw [State.chan, State.modChan, card_modCard_self]
  exact Sparse.get_put_self _ _ _ _

@[simp] theorem chan_set (s : State) (g : Fld) (f c : Nat) : (s.set g).chan f c = s.chan f c := rfl
@[simp] theorem chan_clr (s : State) (g : Fld) (f c : Nat) : (s.clr g).chan f c = s.chan f c := rfl
@[simp] theorem chan_count (s : State) (g : Fld) (f c : Nat) : (s.count g).chan f c = s.chan f c := rfl

/-- A change of a card that leaves its channels alone. -/
theorem chan_modCard (s : State) (f c : Nat) {g : Card → Card} (hg : ∀ k, (g k).chans = k.chans) : (s.modCard f g).chan f c = s.chan f c := by
  rw [State.chan, card_modCard_self, hg]
  rfl

theorem bad_srcSpan_self (s : State) (f x : Nat) (on : Bool) (e : Nat) :
    ((s.srcSpan f x false on e).card f).bad.get [] x = (if on then openSpan e else closeSpan e) ((s.card f).bad.get [] x) := by
  rw [State.srcSpan, card_modCard_self]
  exact Sparse.get_put_self _ _ _ _

/-! ## Holds (R63, R90) -/

theorem bit_hold (x : Chan) (cause e : Nat) : bit (x.hold cause e).causes cause = true :=
  (bit_setBit x.causes cause cause true).trans (if_pos rfl)

/-- At a release the cause is gone, and the carry term stays. -/
theorem unhold_spec (x : Chan) (cause e : Nat) : bit (x.unhold cause e).causes cause = false ∧ (x.unhold cause e).carry = x.carry := by
  unfold Chan.unhold
  extract_lets m
  by_cases h : bit x.causes cause = true
  · rw [if_neg (by simp [h])]
    exact ⟨(bit_setBit x.causes cause cause false).trans (if_pos rfl), rfl⟩
  · rw [if_pos (by simp [h])]
    exact ⟨Bool.eq_false_iff.2 h, rfl⟩

/-! ## Fields of a card and of its elements -/

/-- Fields of the same element of a card, in the same register or in two registers of a word each. -/
theorem elem_ne {j k : Nat} (f c a b m n : Nat) (hj : j = 8 * (a + 0x4000 * f + 4 * c) + m) (hk : k = 8 * (b + 0x4000 * f + 4 * c) + n)
    (h : 8 * a + m ≠ 8 * b + n) : j ≠ k := by omega

/-- A field of an element lies above those of the card that all elements share. -/
theorem elem_card_ne {j k : Nat} (f c a b m n : Nat) (hj : j = 8 * (a + 0x4000 * f + 4 * c) + m) (hk : k = 8 * (b + 0x4000 * f) + n)
    (h : 8 * b + n < 8 * a + m) : j ≠ k := by omega

/-! ## Frames -/

theorem onlyField_pending {s t : State} (h : onlyField s t) : t.pending = s.pending := by
  unfold onlyField at h
  rw [h]

/-- A row of an element that exists, whose effect leaves the queue alone, answers that effect. -/
theorem guardItem_answer {ok : Bool} {s t : State} (hok : ok = true) (ht : t.pending = s.pending) : guardItem ok (answer s t) = .next t := by
  rw [guardItem, if_pos hok, answer_eq ht]

/-- A row of an element of a card, both of which exist. -/
theorem item_answer {s t u : State} {a b m n : Nat} (ha : a < m) (hb : b < n) (hu : u = t) (ht : t.pending = s.pending) :
    guardItem (a < m && b < n) (answer s u) = .next t := by
  rw [hu]
  exact guardItem_answer (by simp [ha, hb]) ht

theorem journalW_frame (s : State) (src : WrSrc) (r : RegId) (k i v : Nat) :
    s.journalW src r k i v = { s with kn := (s.journalW src r k i v).kn } := by
  unfold State.journalW State.journalB
  split <;> rfl

theorem chan_journalW (s : State) (src : WrSrc) (r : RegId) (k i v f c : Nat) : (s.journalW src r k i v).chan f c = s.chan f c := by
  rw [State.chan, State.card, State.journalW_fc]
  rfl

/-- Only registers and field cards have changed. -/
def onlyInputs (s t : State) : Prop := t = { s with regs := t.regs, fc := t.fc }

theorem onlyInputs.refl (s : State) : onlyInputs s s := rfl

theorem onlyInputs.wr {s t : State} (h : onlyInputs s t) (f : Fld) (v : Nat) : onlyInputs s (t.wr f v) := by
  unfold onlyInputs at *
  rw [State.wr, h]

theorem onlyInputs.modCard {s t : State} (h : onlyInputs s t) (f : Nat) (g : Card → Card) : onlyInputs s (t.modCard f g) := by
  unfold onlyInputs at *
  rw [State.modCard, h]

theorem onlyInputs.modChan {s t : State} (h : onlyInputs s t) (f c : Nat) (g : Chan → Chan) : onlyInputs s (t.modChan f c g) := h.modCard f _

/-- Only registers, field cards and barks have changed. -/
def onlyCards (s t : State) : Prop := t = { s with regs := t.regs, fc := t.fc, bq := t.bq }

theorem onlyCards_trans {s t u : State} (h : onlyCards s t) (k : onlyCards t u) : onlyCards s u := by
  unfold onlyCards at *
  rw [k, h]

theorem onlyCards_refl (s : State) : onlyCards s s := rfl

theorem onlyCards_modCard (s : State) (f : Nat) (g : Card → Card) : onlyCards s (s.modCard f g) := rfl

theorem onlyCards_of_onlyInputs {s t : State} (h : onlyInputs s t) : onlyCards s t := by
  unfold onlyInputs onlyCards at *
  rw [h]

theorem onlyCards_barkEvery (s : State) (span elem src code : Nat) (warn : Bool) (p : List Nat) :
    onlyCards s (s.barkEvery span elem src code warn p) := by
  unfold onlyCards
  rw [State.barkEvery_regs, State.barkEvery_fc]
  exact barkEvery_frame s span elem src code warn p

theorem onlyCards_pending {s t : State} (h : onlyCards s t) : t.pending = s.pending := by
  unfold onlyCards at h
  rw [h]

/-- A bark on top of changes of registers and field cards. -/
theorem onlyInputs.bark {s t : State} (h : onlyInputs s t) (src code : Nat) (warn : Bool) (p : List Nat) :
    onlyCards s (t.bark src code warn p) ∧ (t.bark src code warn p).pending = s.pending ∧ Sys2Proof.barks s (t.bark src code warn p) src code := by
  have hcards : onlyCards s (t.bark src code warn p) := onlyCards_trans (onlyCards_of_onlyInputs h) rfl
  unfold onlyInputs at h
  exact ⟨hcards, onlyCards_pending hcards, Sys2Proof.barks_bark _ _ _ _ _ _ (by rw [h]) (by rw [h])⟩

end Sys2Proof.Machine
end

