-- ==== Sys2Proof/Proofs/ChargeResets.lean ====
section
/-! PROOFS. Charge resets of a channel (R65, R69 to R71): the boundary they wait for, how they begin, open and release, and the carry term. -/

namespace Sys2Proof.Machine

/-! ## Beat boundaries -/

theorem lt_beatNext (e : Nat) : e < beatNext e := by
  unfold beatNext cclkBeat
  omega

theorem beatCeil_boundary {e : Nat} (h : e % cclkBeat = 0) : beatCeil e = e := by
  unfold beatCeil cclkBeat at *
  omega

theorem lt_beatCeil {e : Nat} (h : e % cclkBeat ≠ 0) : e < beatCeil e := by
  unfold beatCeil cclkBeat at *
  omega

/-! ## The beginning of a reset (R69, R70) -/

theorem startReset_waits {s : State} {f c b : Nat} (h : s.now < b) : startReset s f c b = s.modChan f c (fun k => { k with rstDue := some b }) :=
  if_neg (Nat.not_le.2 h)

theorem startReset_now {s : State} {f c b : Nat} (h : b = s.now) : startReset s f c b = beginReset s f c := if_pos (Nat.le_of_eq h)

/-- The channel as its reset begins at `e`. -/
def Chan.begun (k : Chan) (e : Nat) : Chan := { Chan.hold { k with rstDue := none } causeRESET e with rst := 1 }

/-- With no reset under way the channel is held, its switch closes, and the reset is counted. -/
theorem beginReset_idle {s : State} {f c : Nat} (h : (s.chan f c).rst = 0) :
    ((beginReset s f c).chan f c).rst = 1 ∧ bit ((beginReset s f c).chan f c).causes causeRESET = true ∧
    (beginReset s f c).flag (Reg.FC_CH_STAT_QRST_BUSY f c) = true ∧
    (beginReset s f c).rd (Reg.FC_QRST_CNT_COUNT f c) = satU 32 (s.rd (Reg.FC_QRST_CNT_COUNT f c) + 1) ∧
    onlyRegs s (beginReset s f c) [Reg.FC_CH_STAT_QRST_BUSY f c, Reg.FC_QRST_CNT_COUNT f c] ∧
    onlyInputs s (beginReset s f c) := by
  have hkey : (Reg.FC_CH_STAT_QRST_BUSY f c).key ≠ (Reg.FC_QRST_CNT_COUNT f c).key := elem_ne f c 0x10800 0x10900 5 0 rfl rfl (by decide)
  have hbegin : beginReset s f c = ((((s.modChan f c fun k => { k with rstDue := none }).modChan f c fun k =>
      { k.hold causeRESET s.now with rst := 1 }).set (Reg.FC_CH_STAT_QRST_BUSY f c)).count (Reg.FC_QRST_CNT_COUNT f c)) := by
    unfold beginReset
    rw [h]
    rfl
  have hchan : (beginReset s f c).chan f c = (s.chan f c).begun s.now := by
    rw [hbegin, chan_count, chan_set, chan_modChan_self, chan_modChan_self]
    rfl
  rw [hchan, hbegin]
  refine ⟨rfl, bit_hold { s.chan f c with rstDue := none } causeRESET s.now, ?_, ?_, ?_,
    ((((onlyInputs.refl s).modChan f c _).modChan f c _).wr _ _).wr _ _⟩
  · rw [State.flag_count_ne _ hkey.symm]
    exact State.flag_set_self _
  · rw [State.rd_count_self, State.rd_set_ne _ hkey]
    rfl
  · exact onlyRegs_mono (onlyRegs_snoc (onlyRegs_wr s (Reg.FC_CH_STAT_QRST_BUSY f c) 1) (Reg.FC_QRST_CNT_COUNT f c) _) (by simp)

theorem onlyField_startReset (s : State) (f c b : Nat) : onlyField s (startReset s f c b) :=
  onlyField_ite (onlyField_beginReset s f c) (onlyField_modChan s f c _)

end Sys2Proof.Machine

namespace Sys2Proof
open Sys2Proof.Machine

/-! ## Resets by a write -/

theorem exec_qreset {s : State} {src : WrSrc} {f c : Nat} (hf : f < 16) (hc : c < 32) (h : s.takes src .FC_CH_CTRL f c true = true) :
    exec (.qreset src f c) s = .next ((qreset s src f c).journalW src .FC_CH_CTRL f c 1) := by
  have hcall : exec (.qreset src f c) s = guardItem (f < 16 && c < 32) (answer s (s.write src .FC_CH_CTRL f c true
    fun t => (qreset t src f c).journalW src .FC_CH_CTRL f c 1)) := rfl
  have hreset : onlyField s (qreset s src f c) := onlyField_ite (onlyField_startReset s f c _) (onlyField_refl s)
  rw [hcall, State.write_taken s _ h]
  exact item_answer hf hc rfl ((State.journalW_pending _ _ _ _ _ _).trans (onlyField_pending hreset))

/-- A direct write waits for the next boundary, which lies ahead. -/
theorem exec_qreset_direct {s : State} {f c : Nat} (hf : f < 16) (hc : c < 32) (h : s.takes .direct .FC_CH_CTRL f c true = true)
    (hstage : s.act (Reg.FC_CH_CFG_STAGE f c) = 1) : ∃ t, exec (.qreset .direct f c) s = .next t ∧
    (t.chan f c).rstDue = some (beatNext s.now) ∧ (t.chan f c).causes = (s.chan f c).causes ∧ t = { s with fc := t.fc, kn := t.kn } := by
  have hwait : qreset s .direct f c = s.modChan f c (fun k => { k with rstDue := some (beatNext s.now) }) :=
    (if_pos hstage).trans (startReset_waits (lt_beatNext s.now))
  refine ⟨_, exec_qreset hf hc h, ?_⟩
  rw [hwait, chan_journalW, chan_modChan_self, State.journalW_fc]
  exact ⟨rfl, rfl, journalW_frame _ _ _ _ _ _⟩

/-- A CFG_WRITE at a boundary begins its reset there. -/
theorem exec_qreset_cfg {s : State} {f c : Nat} (hf : f < 16) (hc : c < 32) (h : s.takes .cfg .FC_CH_CTRL f c true = true)
    (hstage : s.act (Reg.FC_CH_CFG_STAGE f c) = 1) (hidle : (s.chan f c).rst = 0) (hnow : s.now % cclkBeat = 0) :
    ∃ t, exec (.qreset .cfg f c) s = .next t ∧ (t.chan f c).rst = 1 ∧ bit (t.chan f c).causes causeRESET = true ∧
      t.flag (Reg.FC_CH_STAT_QRST_BUSY f c) = true ∧ t.rd (Reg.FC_QRST_CNT_COUNT f c) = satU 32 (s.rd (Reg.FC_QRST_CNT_COUNT f c) + 1) ∧
      onlyRegs s t [Reg.FC_CH_STAT_QRST_BUSY f c, Reg.FC_QRST_CNT_COUNT f c] ∧ t = { s with regs := t.regs, fc := t.fc, kn := t.kn } := by
  have hbegin : qreset s .cfg f c = beginReset s f c := (if_pos hstage).trans (startReset_now (beatCeil_boundary hnow))
  obtain ⟨hrst, hcause, hbusy, hcount, hregs, hframe⟩ := beginReset_idle hidle
  refine ⟨_, exec_qreset hf hc h, ?_⟩
  rw [hbegin, chan_journalW, State.journalW_rd, State.journalW_regs, State.journalW_fc]
  refine ⟨hrst, hcause, (State.flag_congr (State.journalW_rd _ _ _ _ _ _ _)).trans hbusy, hcount,
    onlyRegs_of_rd hregs fun g => State.journalW_rd _ _ _ _ _ _ g, (journalW_frame _ _ _ _ _ _).trans ?_⟩
  exact congrArg (fun t : State => { t with kn := ((beginReset s f c).journalW .cfg .FC_CH_CTRL f c 1).kn }) hframe

theorem exec_qreset_instrumentation {s : State} {src : WrSrc} {f c : Nat} (hf : f < 16) (hc : c < 32)
    (h : s.takes src .FC_CH_CTRL f c true = true) (hstage : s.act (Reg.FC_CH_CFG_STAGE f c) ≠ 1) :
    ∃ t, exec (.qreset src f c) s = .next t ∧ t = { s with kn := t.kn } := by
  have hnone : qreset s src f c = s := if_neg hstage
  refine ⟨_, exec_qreset hf hc h, ?_⟩
  rw [hnone]
  exact journalW_frame s _ _ _ _ _

end Sys2Proof

namespace Sys2Proof.Machine

/-! ## Automatic resets (R70) -/

/-- An automatic reset of card `f`, the `n`-th since the last QRESET_AUTO bark, barks at most once a second. -/
def noteAuto (t : State) (f n : Nat) : State :=
  if t.bq.last.get 0 (barkKey (fcCode f 0x20) f) = 0 || t.elapsed (t.bq.last.get 0 (barkKey (fcCode f 0x20) f) - 1) cclkSec then
    (t.modCard f (fun k => { k with autoN := 0 })).barkEvery cclkSec f (fcSrc f) (fcCode f 0x20) false [n]
  else t.modCard f (fun k => { k with autoN := n })

theorem noteAuto_spec (t : State) (f n c : Nat) : (noteAuto t f n).chan f c = t.chan f c ∧ (∀ g, (noteAuto t f n).rd g = t.rd g) ∧
    onlyCards t (noteAuto t f n) := by
  unfold noteAuto
  split
  · refine ⟨?_, fun g => State.barkEvery_rd _ _ _ _ _ _ _ g, onlyCards_trans (onlyCards_modCard t f _) (onlyCards_barkEvery _ _ _ _ _ _ _)⟩
    rw [State.chan, State.card, State.barkEvery_fc]
    exact chan_modCard t f c fun _ => rfl
  · exact ⟨chan_modCard t f c fun _ => rfl, fun _ => rfl, rfl⟩

theorem qresetAuto_low {s : State} {f c : Nat} {q : Int} (h : q.natAbs < 900000) : qresetAuto s f c q = s :=
  if_neg (by simp [Nat.not_le.2 h])

theorem qresetAuto_due {s : State} {f c : Nat} {q : Int} (hstage : s.act (Reg.FC_CH_CFG_STAGE f c) = 1)
    (hauto : s.act (Reg.FC_CH_CFG_AUTO_RST f c) = 1) (hq : 900000 ≤ q.natAbs) (hidle : (s.chan f c).rst = 0)
    (hdue : (s.chan f c).rstDue = none) (hup : s.fcUp f = true) : qresetAuto s f c q =
    noteAuto ((startReset s f c (beatCeil s.now)).count (Reg.FC_CNT_QRST_AUTO f)) f ((s.card f).autoN + 1) :=
  if_pos (by simp [hstage, hauto, hq, hidle, hdue, hup])

end Sys2Proof.Machine

namespace Sys2Proof
open Sys2Proof.Machine

theorem exec_qresetAuto {s : State} {f c : Nat} {q : Int} (hf : f < 16) (hc : c < 32) (h : onlyCards s (qresetAuto s f c q)) :
    exec (.qresetAuto f c q) s = .next (qresetAuto s f c q) := item_answer hf hc rfl (onlyCards_pending h)

theorem exec_qresetAuto_low {s : State} {f c : Nat} {q : Int} (hf : f < 16) (hc : c < 32) (h : q.natAbs < 900000) :
    ∃ t, exec (.qresetAuto f c q) s = .next t ∧ t = s := by
  have hnone : qresetAuto s f c q = s := qresetAuto_low h
  exact ⟨_, exec_qresetAuto hf hc (by rw [hnone]; exact onlyCards_refl s), hnone⟩

section
variable {s : State} {f c : Nat} {q : Int} (hf : f < 16) (hc : c < 32) (hstage : s.act (Reg.FC_CH_CFG_STAGE f c) = 1)
  (hauto : s.act (Reg.FC_CH_CFG_AUTO_RST f c) = 1) (hq : 900000 ≤ q.natAbs) (hidle : (s.chan f c).rst = 0)
  (hdue : (s.chan f c).rstDue = none) (hup : s.fcUp f = true)
include hf hc hstage hauto hq hidle hdue hup

/-- At a boundary an automatic reset begins. -/
theorem exec_qresetAuto_begins (hnow : s.now % cclkBeat = 0) : ∃ t, exec (.qresetAuto f c q) s = .next t ∧ (t.chan f c).rst = 1 ∧
    bit (t.chan f c).causes causeRESET = true ∧ t.flag (Reg.FC_CH_STAT_QRST_BUSY f c) = true ∧
    t.rd (Reg.FC_QRST_CNT_COUNT f c) = satU 32 (s.rd (Reg.FC_QRST_CNT_COUNT f c) + 1) ∧
    t.rd (Reg.FC_CNT_QRST_AUTO f) = satU 32 (s.rd (Reg.FC_CNT_QRST_AUTO f) + 1) ∧ t = { s with regs := t.regs, fc := t.fc, bq := t.bq } ∧
    onlyRegs s t [Reg.FC_CH_STAT_QRST_BUSY f c, Reg.FC_QRST_CNT_COUNT f c, Reg.FC_CNT_QRST_AUTO f] := by
  have hbusyKey : (Reg.FC_CH_STAT_QRST_BUSY f c).key ≠ (Reg.FC_CNT_QRST_AUTO f).key := elem_card_ne f c 0x10800 0x10020 5 64 rfl rfl (by decide)
  have hcountKey : (Reg.FC_QRST_CNT_COUNT f c).key ≠ (Reg.FC_CNT_QRST_AUTO f).key := elem_card_ne f c 0x10900 0x10020 0 64 rfl rfl (by decide)
  have hstart : qresetAuto s f c q = noteAuto ((beginReset s f c).count (Reg.FC_CNT_QRST_AUTO f)) f ((s.card f).autoN + 1) := by
    rw [qresetAuto_due hstage hauto hq hidle hdue hup, startReset_now (beatCeil_boundary hnow)]
  obtain ⟨hrst, hcause, hbusy, hcount, hregs, hframe⟩ := beginReset_idle hidle
  obtain ⟨hchan, hrd, hnote⟩ := noteAuto_spec ((beginReset s f c).count (Reg.FC_CNT_QRST_AUTO f)) f ((s.card f).autoN + 1) c
  rw [← hstart] at hchan hrd hnote
  have hall := onlyCards_trans (onlyCards_of_onlyInputs (hframe.wr _ _)) hnote
  refine ⟨_, exec_qresetAuto hf hc hall, ?_, ?_, ?_, ?_, ?_, hall, ?_⟩
  · rw [hchan]
    exact hrst
  · rw [hchan]
    exact hcause
  · rw [State.flag_congr (hrd _), State.flag_count_ne _ hbusyKey.symm]
    exact hbusy
  · rw [hrd, State.rd_count_ne _ hcountKey.symm]
    exact hcount
  · rw [hrd, State.rd_count_self, hregs _ (by simpa using ⟨hbusyKey.symm, hcountKey.symm⟩)]
    rfl
  · exact onlyRegs_of_rd (onlyRegs_mono (onlyRegs_snoc hregs (Reg.FC_CNT_QRST_AUTO f) _) (by simp)) hrd

/-- Within a beat an automatic reset waits for the end of the beat. -/
theorem exec_qresetAuto_waits (hnow : s.now % cclkBeat ≠ 0) : ∃ t, exec (.qresetAuto f c q) s = .next t ∧
    (t.chan f c).rstDue = some (beatCeil s.now) ∧ (t.chan f c).rst = 0 ∧
    t.rd (Reg.FC_CNT_QRST_AUTO f) = satU 32 (s.rd (Reg.FC_CNT_QRST_AUTO f) + 1) ∧ t = { s with regs := t.regs, fc := t.fc, bq := t.bq } ∧
    onlyRegs s t [Reg.FC_CNT_QRST_AUTO f] := by
  have hstart : qresetAuto s f c q = noteAuto ((s.modChan f c fun k => { k with rstDue := some (beatCeil s.now) }).count
      (Reg.FC_CNT_QRST_AUTO f)) f ((s.card f).autoN + 1) := by
    rw [qresetAuto_due hstage hauto hq hidle hdue hup, startReset_waits (lt_beatCeil hnow)]
  obtain ⟨hchan, hrd, hnote⟩ := noteAuto_spec ((s.modChan f c fun k => { k with rstDue := some (beatCeil s.now) }).count
    (Reg.FC_CNT_QRST_AUTO f)) f ((s.card f).autoN + 1) c
  rw [← hstart] at hchan hrd hnote
  have hset := hchan.trans (chan_modChan_self s f c fun k => { k with rstDue := some (beatCeil s.now) })
  have hall := onlyCards_trans (onlyCards_of_onlyInputs (((onlyInputs.refl s).modChan f c _).wr _ _)) hnote
  refine ⟨_, exec_qresetAuto hf hc hall, ?_, ?_, ?_, hall, ?_⟩
  · rw [hset]
  · rw [hset]
    exact hidle
  · rw [hrd, State.rd_count_self]
    rfl
  · exact onlyRegs_of_rd (onlyRegs_wr s (Reg.FC_CNT_QRST_AUTO f) _) hrd

end

/-! ## The switch opens, and the hold releases (R69 to R71) -/

theorem exec_qresetOpen {s : State} {f c : Nat} (hf : f < 16) (hc : c < 32) (h : (s.chan f c).rst = 1) : ∃ t, exec (.qresetOpen f c) s = .next t ∧
    (t.chan f c).rst = 2 ∧ (t.chan f c).causes = (s.chan f c).causes ∧ t = { s with fc := t.fc } := by
  have hopen : qresetOpen s f c = s.modChan f c (fun k => { k with rst := 2 }) := if_pos h
  refine ⟨_, item_answer hf hc hopen rfl, ?_⟩
  rw [chan_modChan_self]
  exact ⟨rfl, rfl, rfl⟩

end Sys2Proof

namespace Sys2Proof.Machine

/-- The end of the carry term's range: 1,000 × QRANGE (R71). -/
def carryLim (s : State) (f c : Nat) : Int := ((1000 * qrangePc (s.act (Reg.FC_CH_CFG_QRANGE f c)) * realOne : Nat) : Int)

/-- The channel with the charge of its reset in the carry term, where CARRY asks for it. -/
def Chan.carriedOver (k : Chan) (s : State) (f c : Nat) (before after : Int) : Chan :=
  if s.act (Reg.FC_CH_CFG_CARRY f c) = 1 then
    k.setCarry s.now (clamp (-carryLim s f c) (carryLim s f c) (fadd k.carry (fadd before (-after)))) else k

/-- The channel at the release of its reset, its carry term with it. -/
def Chan.released (k : Chan) (s : State) (f c : Nat) (before after : Int) : Chan :=
  { (if (k.carriedOver s f c before after).rstAgain then k.carriedOver s f c before after
    else (k.carriedOver s f c before after).unhold causeRESET s.now) with rst := 0, rstAgain := false }

/-- The release, but for a reset that begins there. -/
def releaseReset (s : State) (f c : Nat) (before after : Int) : State :=
  (s.modChan f c fun k => k.released s f c before after).clr (Reg.FC_CH_STAT_QRST_BUSY f c)

theorem qresetRelease_open {s : State} {f c : Nat} (before after : Int) (h : (s.chan f c).rst = 2) : qresetRelease s f c before after =
    if (s.chan f c).rstAgain then beginReset (releaseReset s f c before after) f c else releaseReset s f c before after := if_pos h

theorem onlyField_releaseReset (s : State) (f c : Nat) (before after : Int) : onlyField s (releaseReset s f c before after) := rfl

theorem chan_releaseReset (s : State) (f c : Nat) (before after : Int) :
    (releaseReset s f c before after).chan f c = (s.chan f c).released s f c before after := by
  rw [releaseReset, chan_clr, chan_modChan_self]

theorem setCarry_carry (k : Chan) (e : Nat) (v : Int) : (k.setCarry e v).carry = v := rfl

theorem setCarry_rstAgain (k : Chan) (e : Nat) (v : Int) : (k.setCarry e v).rstAgain = k.rstAgain := rfl

theorem carriedOver_spec (k : Chan) (s : State) (f c : Nat) (before after : Int) :
    (k.carriedOver s f c before after).rstAgain = k.rstAgain ∧ (k.carriedOver s f c before after).carry =
      if s.act (Reg.FC_CH_CFG_CARRY f c) = 1 then clamp (-carryLim s f c) (carryLim s f c) (fadd k.carry (fadd before (-after))) else k.carry := by
  unfold Chan.carriedOver
  by_cases h : s.act (Reg.FC_CH_CFG_CARRY f c) = 1
  · rw [if_pos h, if_pos h]
    exact ⟨setCarry_rstAgain _ _ _, setCarry_carry _ _ _⟩
  · rw [if_neg h, if_neg h]
    exact ⟨rfl, rfl⟩

/-- A channel that is released for good: its hold ends, and the carry term has its charge. -/
theorem released_spec {k : Chan} (s : State) (f c : Nat) (before after : Int) (h : k.rstAgain = false) :
    bit (k.released s f c before after).causes causeRESET = false ∧
    (k.released s f c before after).carry = (k.carriedOver s f c before after).carry := by
  obtain ⟨hcause, hcarry⟩ := unhold_spec (k.carriedOver s f c before after) causeRESET s.now
  have hagain : ¬ (k.carriedOver s f c before after).rstAgain = true := by simp [carriedOver_spec, h]
  unfold Chan.released
  rw [if_neg hagain]
  exact ⟨hcause, hcarry⟩

end Sys2Proof.Machine

namespace Sys2Proof
open Sys2Proof.Machine

theorem exec_qresetRelease_ends {s : State} {f c : Nat} (before after : Int) (hf : f < 16) (hc : c < 32) (h : (s.chan f c).rst = 2)
    (hagain : (s.chan f c).rstAgain = false) : ∃ t, exec (.qresetRelease f c before after) s = .next t ∧
    (t.chan f c).rst = 0 ∧ bit (t.chan f c).causes causeRESET = false ∧ t.flag (Reg.FC_CH_STAT_QRST_BUSY f c) = false ∧
    (s.act (Reg.FC_CH_CFG_CARRY f c) ≠ 1 → (t.chan f c).carry = (s.chan f c).carry) ∧
    (s.act (Reg.FC_CH_CFG_CARRY f c) = 1 → ∃ lim : Int, lim = ((1000 * qrangePc (s.act (Reg.FC_CH_CFG_QRANGE f c)) * realOne : Nat) : Int) ∧
      (t.chan f c).carry = clamp (-lim) lim (fadd (s.chan f c).carry (fadd before (-after)))) ∧
    t = { s with regs := t.regs, fc := t.fc } ∧ onlyRegs s t [Reg.FC_CH_STAT_QRST_BUSY f c] := by
  have hend : qresetRelease s f c before after = releaseReset s f c before after := by
    rw [qresetRelease_open before after h, if_neg (by simp [hagain])]
  obtain ⟨hcause, hkept⟩ := released_spec s f c before after hagain
  have hcarry := hkept.trans (carriedOver_spec (s.chan f c) s f c before after).2
  refine ⟨_, item_answer hf hc hend (onlyField_pending (onlyField_releaseReset s f c before after)), ?_⟩
  rw [chan_releaseReset]
  refine ⟨rfl, hcause, State.flag_clr_self _ _, fun hne => hcarry.trans (if_neg hne), fun heq => ⟨carryLim s f c, rfl, hcarry.trans (if_pos heq)⟩,
    rfl, onlyRegs_wr s (Reg.FC_CH_STAT_QRST_BUSY f c) 0⟩

/-- A reset that fell due as the running one opened its switch begins at the release. -/
theorem exec_qresetRelease_again {s : State} {f c : Nat} (before after : Int) (hf : f < 16) (hc : c < 32) (h : (s.chan f c).rst = 2)
    (hagain : (s.chan f c).rstAgain = true) : ∃ t, exec (.qresetRelease f c before after) s = .next t ∧
    (t.chan f c).rst = 1 ∧ bit (t.chan f c).causes causeRESET = true ∧ t.flag (Reg.FC_CH_STAT_QRST_BUSY f c) = true ∧
    t.rd (Reg.FC_QRST_CNT_COUNT f c) = satU 32 (s.rd (Reg.FC_QRST_CNT_COUNT f c) + 1) := by
  have hend : qresetRelease s f c before after = beginReset (releaseReset s f c before after) f c := by
    rw [qresetRelease_open before after h, if_pos hagain]
  have hidle : ((releaseReset s f c before after).chan f c).rst = 0 := congrArg Chan.rst (chan_releaseReset s f c before after)
  have hkey : (Reg.FC_CH_STAT_QRST_BUSY f c).key ≠ (Reg.FC_QRST_CNT_COUNT f c).key := elem_ne f c 0x10800 0x10900 5 0 rfl rfl (by decide)
  have hbefore : (releaseReset s f c before after).rd (Reg.FC_QRST_CNT_COUNT f c) = s.rd (Reg.FC_QRST_CNT_COUNT f c) := State.rd_clr_ne _ hkey
  obtain ⟨hrst, hcause, hbusy, hcount, -⟩ := beginReset_idle hidle
  rw [hbefore] at hcount
  have hfield := onlyField_trans (onlyField_releaseReset s f c before after) (onlyField_beginReset _ f c)
  exact ⟨_, item_answer hf hc hend (onlyField_pending hfield), hrst, hcause, hbusy, hcount⟩

/-! ## CARRY_CLR (R71) -/

theorem exec_carryClr {s : State} {src : WrSrc} {f c : Nat} (hf : f < 16) (hc : c < 32) (h : s.takes src .FC_CH_CTRL f c true = true) :
    ∃ t, exec (.carryClr src f c) s = .next t ∧ (t.chan f c).carry = 0 ∧
    (t.chan f c).carryAt = s.now ∧ (t.chan f c).carryOld = (s.chan f c).carry ∧ t = { s with fc := t.fc, kn := t.kn } := by
  have hcall : exec (.carryClr src f c) s = guardItem (f < 16 && c < 32) (answer s (s.write src .FC_CH_CTRL f c true
    fun t => (t.modChan f c fun k => k.setCarry s.now 0).journalW src .FC_CH_CTRL f c 2)) := rfl
  rw [hcall, State.write_taken s _ h]
  refine ⟨_, item_answer hf hc rfl (State.journalW_pending _ _ _ _ _ _), ?_⟩
  rw [chan_journalW, chan_modChan_self, State.journalW_fc]
  exact ⟨rfl, rfl, rfl, journalW_frame _ _ _ _ _ _⟩

/-- Settles O12: each row of the reset's course, from the write or the charge that asks for it to the release. -/
theorem chargeResets : Obligations.ChargeResets := by
  intro s f c hf hc
  exact ⟨exec_qreset_direct hf hc, exec_qreset_cfg hf hc, fun src => exec_qreset_instrumentation hf hc,
    fun q hstage hauto hq hidle hdue hup => ⟨exec_qresetAuto_begins hf hc hstage hauto hq hidle hdue hup,
      exec_qresetAuto_waits hf hc hstage hauto hq hidle hdue hup⟩,
    fun q => exec_qresetAuto_low hf hc, exec_qresetOpen hf hc, fun before after => exec_qresetRelease_ends before after hf hc,
    fun before after => exec_qresetRelease_again before after hf hc, fun src => exec_carryClr hf hc⟩

end Sys2Proof
end

