-- ==== Sys2Proof/Proofs/Excitation.lean ====
section
/-! PROOFS. Excitation sources (R75 to R77, R81 to R84, R387): limiting, the sense fault, the thermal shutdown, and the halves of a source that
swaps. -/

namespace Sys2Proof.Machine

/-! ## Fields of FC_EXC_STAT -/

/-- Fields of one source have different bits. -/
theorem excStat_ne {j k : Nat} (f x m n : Nat) (hj : j = 8 * (0x10300 + 0x4000 * f + 4 * x) + m) (hk : k = 8 * (0x10300 + 0x4000 * f + 4 * x) + n)
    (h : m ≠ n) : j ≠ k := elem_ne f x 0x10300 0x10300 m n hj hk (by omega)

/-! ## Limiting (R75) -/

/-- A source that begins to limit, with the flag of its kind. -/
def limitOn (s : State) (f x : Nat) (kind : Fld) : State :=
  ((s.srcSpan f x false true (s.now / cclkBeat * cclkBeat)).set (Reg.FC_EXC_STAT_LIMITING f x)).set kind

theorem excLimit_compliance {s : State} {f x : Nat} (hon : s.srcOn f x = true) (h : s.flag (Reg.FC_EXC_STAT_LIMITING f x) = false)
    (hmode : s.act (Reg.FC_EXC_CFG_MODE f x) = 3) :
    excLimit s f x = (limitOn s f x (Reg.FC_EXC_STAT_COMPLIANCE f x)).bark (fcSrc f) (fcCode f 0x31) true [x] :=
  (if_pos (by simp [hon, h])).trans (if_pos hmode)

theorem excLimit_ilim {s : State} {f x : Nat} (hon : s.srcOn f x = true) (h : s.flag (Reg.FC_EXC_STAT_LIMITING f x) = false)
    (hmode : s.act (Reg.FC_EXC_CFG_MODE f x) ≠ 3) :
    excLimit s f x = (limitOn s f x (Reg.FC_EXC_STAT_ILIM f x)).bark (fcSrc f) (fcCode f 0x30) true [x] :=
  (if_pos (by simp [hon, h])).trans (if_neg hmode)

theorem onlyInputs_limitOn (s : State) (f x : Nat) (kind : Fld) : onlyInputs s (limitOn s f x kind) :=
  (((onlyInputs.refl s).modCard f _).wr _ 1).wr kind 1

theorem limitOn_flags (s : State) (f x : Nat) {kind : Fld} (hw : kind.width = 1) (hk : kind.key ≠ (Reg.FC_EXC_STAT_LIMITING f x).key) :
    (limitOn s f x kind).flag (Reg.FC_EXC_STAT_LIMITING f x) = true ∧ (limitOn s f x kind).flag kind = true := by
  refine ⟨?_, State.flag_set_self _ hw⟩
  rw [limitOn, State.flag_set_ne _ hk]
  exact State.flag_set_self _

end Sys2Proof.Machine

namespace Sys2Proof
open Sys2Proof.Machine

theorem onlyRegs_limitOn (s : State) (f x : Nat) (kind : Fld) : onlyRegs s (limitOn s f x kind) [Reg.FC_EXC_STAT_LIMITING f x, kind] :=
  onlyRegs_mono (onlyRegs_snoc (onlyRegs_wr s (Reg.FC_EXC_STAT_LIMITING f x) 1) kind 1) (by simp)

theorem exec_excLimit_compliance {s : State} {f x : Nat} (hf : f < 16) (hx : x < 8) (hon : s.srcOn f x = true)
    (h : s.flag (Reg.FC_EXC_STAT_LIMITING f x) = false) (hmode : s.act (Reg.FC_EXC_CFG_MODE f x) = 3) :
    ∃ t, exec (.excLimit f x) s = .next t ∧ t.flag (Reg.FC_EXC_STAT_LIMITING f x) = true ∧ t.flag (Reg.FC_EXC_STAT_COMPLIANCE f x) = true ∧
      barks s t (0x10 + f) ((0x10 + f) * 256 + 0x31) ∧ t = { s with regs := t.regs, fc := t.fc, bq := t.bq } ∧
      onlyRegs s t [Reg.FC_EXC_STAT_LIMITING f x, Reg.FC_EXC_STAT_COMPLIANCE f x] := by
  obtain ⟨hlimit, hkind⟩ := limitOn_flags s f x (kind := Reg.FC_EXC_STAT_COMPLIANCE f x) rfl (excStat_ne f x 9 1 rfl rfl (by decide))
  obtain ⟨hcards, hpending, hbark⟩ := (onlyInputs_limitOn s f x (Reg.FC_EXC_STAT_COMPLIANCE f x)).bark (fcSrc f) (fcCode f 0x31) true [x]
  refine ⟨_, item_answer hf hx (excLimit_compliance hon h hmode) hpending, ?_⟩
  rw [State.bark_flag, State.bark_flag]
  exact ⟨hlimit, hkind, hbark, hcards, onlyRegs_limitOn s f x _⟩

theorem exec_excLimit_ilim {s : State} {f x : Nat} (hf : f < 16) (hx : x < 8) (hon : s.srcOn f x = true)
    (h : s.flag (Reg.FC_EXC_STAT_LIMITING f x) = false) (hmode : s.act (Reg.FC_EXC_CFG_MODE f x) ≠ 3) :
    ∃ t, exec (.excLimit f x) s = .next t ∧ t.flag (Reg.FC_EXC_STAT_LIMITING f x) = true ∧ t.flag (Reg.FC_EXC_STAT_ILIM f x) = true ∧
      barks s t (0x10 + f) ((0x10 + f) * 256 + 0x30) ∧ t = { s with regs := t.regs, fc := t.fc, bq := t.bq } ∧
      onlyRegs s t [Reg.FC_EXC_STAT_LIMITING f x, Reg.FC_EXC_STAT_ILIM f x] := by
  obtain ⟨hlimit, hkind⟩ := limitOn_flags s f x (kind := Reg.FC_EXC_STAT_ILIM f x) rfl (excStat_ne f x 8 1 rfl rfl (by decide))
  obtain ⟨hcards, hpending, hbark⟩ := (onlyInputs_limitOn s f x (Reg.FC_EXC_STAT_ILIM f x)).bark (fcSrc f) (fcCode f 0x30) true [x]
  refine ⟨_, item_answer hf hx (excLimit_ilim hon h hmode) hpending, ?_⟩
  rw [State.bark_flag, State.bark_flag]
  exact ⟨hlimit, hkind, hbark, hcards, onlyRegs_limitOn s f x _⟩

theorem exec_excLimitEnd {s : State} {f x : Nat} (hf : f < 16) (hx : x < 8) : ∃ t, exec (.excLimitEnd f x) s = .next t ∧
    t.flag (Reg.FC_EXC_STAT_LIMITING f x) = false ∧ (t.card f).bad.get [] x = closeSpan s.now ((s.card f).bad.get [] x) ∧
    t = { s with regs := t.regs, fc := t.fc } ∧ onlyRegs s t [Reg.FC_EXC_STAT_LIMITING f x] :=
  ⟨limitOff s f x, item_answer hf hx rfl rfl, State.flag_clr_self _ _, bad_srcSpan_self s f x false s.now, rfl,
    onlyRegs_wr s (Reg.FC_EXC_STAT_LIMITING f x) 0⟩

/-! ## Sense faults and shutdowns (R76, R77) -/

theorem exec_excSenseFault {s : State} {f x : Nat} (hf : f < 16) (hx : x < 8) (hon : s.srcOn f x = true)
    (hsense : s.act (Reg.FC_EXC_CFG_SENSE_EN f x) = 1) (h : s.flag (Reg.FC_EXC_STAT_SENSE_LOCAL f x) = false) :
    ∃ t, exec (.excSenseFault f x) s = .next t ∧ t.flag (Reg.FC_EXC_STAT_SENSE_LOCAL f x) = true ∧ t.flag (Reg.FC_EXC_STAT_SENSE_FAULT f x) = true ∧
      barks s t (0x10 + f) ((0x10 + f) * 256 + 0x32) ∧ t = { s with regs := t.regs, bq := t.bq } ∧
      onlyRegs s t [Reg.FC_EXC_STAT_SENSE_LOCAL f x, Reg.FC_EXC_STAT_SENSE_FAULT f x] := by
  have hlocal : excSense s f x = ((s.set (Reg.FC_EXC_STAT_SENSE_LOCAL f x)).set (Reg.FC_EXC_STAT_SENSE_FAULT f x)).bark (fcSrc f) (fcCode f 0x32)
      true [x] := if_pos (by simp [hon, hsense, h])
  refine ⟨_, item_answer hf hx hlocal rfl, ?_, ?_, barks_bark _ _ _ _ _ _ rfl rfl, rfl, ?_⟩
  · rw [State.bark_flag, State.flag_set_ne _ (excStat_ne f x 10 3 rfl rfl (by decide))]
    exact State.flag_set_self s
  · rw [State.bark_flag]
    exact State.flag_set_self _
  · exact onlyRegs_mono (onlyRegs_snoc (onlyRegs_wr s (Reg.FC_EXC_STAT_SENSE_LOCAL f x) 1) (Reg.FC_EXC_STAT_SENSE_FAULT f x) 1) (by simp)

end Sys2Proof

namespace Sys2Proof.Machine

/-- The source that is over its temperature limits no more, and its shutdown counts against the samples that use it. -/
def shutStart (s : State) (f x : Nat) : State := (limitOff s f x).srcSpan f x true true s.now

/-- The flags of a shutdown. -/
def shutShown (t : State) (f x : Nat) : State :=
  ((t.set (Reg.FC_EXC_STAT_SHUTDOWN f x)).set (Reg.FC_EXC_STAT_THERMAL f x)).clr (Reg.FC_EXC_STAT_ACTIVE f x)

theorem excThermal_on {s : State} {f x : Nat} (h : s.srcOn f x = true) :
    excThermal s f x = (shutShown (shutStart s f x) f x).bark (fcSrc f) (fcCode f 0x33) true [x] := if_pos h

theorem onlyInputs_shut (s : State) (f x : Nat) : onlyInputs s (shutShown (shutStart s f x) f x) :=
  ((((((onlyInputs.refl s).modCard f _).wr _ 0).modCard f _).wr _ 1).wr _ 1).wr _ 0

theorem shutShown_flags (t : State) (f x : Nat) : (shutShown t f x).flag (Reg.FC_EXC_STAT_SHUTDOWN f x) = true ∧
    (shutShown t f x).flag (Reg.FC_EXC_STAT_THERMAL f x) = true ∧ (shutShown t f x).flag (Reg.FC_EXC_STAT_ACTIVE f x) = false ∧
    (shutShown t f x).flag (Reg.FC_EXC_STAT_LIMITING f x) = t.flag (Reg.FC_EXC_STAT_LIMITING f x) := by
  unfold shutShown
  refine ⟨?_, ?_, State.flag_clr_self _ _, ?_⟩
  · rw [State.clr, State.flag_wr_ne _ 0 (excStat_ne f x 0 4 rfl rfl (by decide)), State.flag_set_ne _ (excStat_ne f x 11 4 rfl rfl (by decide))]
    exact State.flag_set_self t
  · rw [State.clr, State.flag_wr_ne _ 0 (excStat_ne f x 0 11 rfl rfl (by decide))]
    exact State.flag_set_self _
  · rw [State.clr, State.flag_wr_ne _ 0 (excStat_ne f x 0 1 rfl rfl (by decide)), State.flag_set_ne _ (excStat_ne f x 11 1 rfl rfl (by decide)),
      State.flag_set_ne _ (excStat_ne f x 4 1 rfl rfl (by decide))]

end Sys2Proof.Machine

namespace Sys2Proof
open Sys2Proof.Machine

theorem onlyRegs_shut (s : State) (f x : Nat) : onlyRegs s (shutShown (shutStart s f x) f x)
    [Reg.FC_EXC_STAT_SHUTDOWN f x, Reg.FC_EXC_STAT_THERMAL f x, Reg.FC_EXC_STAT_ACTIVE f x, Reg.FC_EXC_STAT_LIMITING f x] := by
  have hstart : onlyRegs s (shutStart s f x) [Reg.FC_EXC_STAT_LIMITING f x] := onlyRegs_wr s (Reg.FC_EXC_STAT_LIMITING f x) 0
  have hshown := onlyRegs_snoc (onlyRegs_snoc (onlyRegs_snoc hstart (Reg.FC_EXC_STAT_SHUTDOWN f x) 1) (Reg.FC_EXC_STAT_THERMAL f x) 1)
    (Reg.FC_EXC_STAT_ACTIVE f x) 0
  exact onlyRegs_mono hshown (by simp)

theorem exec_excThermal {s : State} {f x : Nat} (hf : f < 16) (hx : x < 8) (h : s.srcOn f x = true) : ∃ t, exec (.excThermal f x) s = .next t ∧
    t.flag (Reg.FC_EXC_STAT_SHUTDOWN f x) = true ∧
    t.flag (Reg.FC_EXC_STAT_THERMAL f x) = true ∧ t.flag (Reg.FC_EXC_STAT_ACTIVE f x) = false ∧ t.flag (Reg.FC_EXC_STAT_LIMITING f x) = false ∧
    barks s t (0x10 + f) ((0x10 + f) * 256 + 0x33) ∧ t = { s with regs := t.regs, fc := t.fc, bq := t.bq } ∧
    onlyRegs s t [Reg.FC_EXC_STAT_SHUTDOWN f x, Reg.FC_EXC_STAT_THERMAL f x, Reg.FC_EXC_STAT_ACTIVE f x, Reg.FC_EXC_STAT_LIMITING f x] := by
  obtain ⟨hshut, hthermal, hactive, hlimit⟩ := shutShown_flags (shutStart s f x) f x
  have hended : (shutStart s f x).flag (Reg.FC_EXC_STAT_LIMITING f x) = false := State.flag_clr_self _ _
  obtain ⟨hcards, hpending, hbark⟩ := (onlyInputs_shut s f x).bark (fcSrc f) (fcCode f 0x33) true [x]
  refine ⟨_, item_answer hf hx (excThermal_on h) hpending, ?_⟩
  rw [State.bark_flag, State.bark_flag, State.bark_flag, State.bark_flag]
  exact ⟨hshut, hthermal, hactive, hlimit.trans hended, hbark, hcards, onlyRegs_shut s f x⟩

end Sys2Proof

namespace Sys2Proof.Machine

/-! ## Halves of a lead compensation (R81 to R84) -/

/-- The means of the half of channel `c` that ends now. -/
def halfMeans (s : State) (f c : Nat) (bs : List (Int × Int × Bool)) : Option (Int × Int) × Nat :=
  s.leadMeans f c (s.now - 2 ^ s.act (Reg.FC_EXC_CFG_SWAP_HALF f (s.act (Reg.FC_CH_CFG_LEAD_SRC f c))) * cclkBeat) bs
    (s.act (Reg.FC_EXC_CFG_SWAP_SETTLE f (s.act (Reg.FC_CH_CFG_LEAD_SRC f c))))

theorem leadHalf_first {s : State} {f c : Nat} {bs : List (Int × Int × Bool)} {q : Int × Int} (h : (halfMeans s f c bs).1 = some q) :
    leadHalf s f c false bs =
      s.modChan f c (fun y => { y with leadV := q.1, leadI := q.2, leadFl := (halfMeans s f c bs).2, leadHalf := true }) := by
  have hmeans : leadHalf s f c false bs = s.modChan f c (fun y => match (halfMeans s f c bs).1 with
      | some q => { y with leadV := q.1, leadI := q.2, leadFl := (halfMeans s f c bs).2, leadHalf := true }
      | none => { y with leadHalf := false }) := rfl
  rw [hmeans, h]

/-- The R value of a period: the halves' voltages over their currents. -/
def leadR (s : State) (f c : Nat) (q : Int × Int) : Int :=
  fdiv (fadd (s.chan f c).leadV (if s.act (Reg.FC_CH_CFG_LEAD f c) = 1 then -q.1 else q.1)) (fadd (s.chan f c).leadI q.2)

/-- A period whose two halves were measured forms its R value. -/
theorem leadHalf_second {s : State} {f c : Nat} {bs : List (Int × Int × Bool)} {q : Int × Int} (h : (halfMeans s f c bs).1 = some q)
    (hfirst : (s.chan f c).leadHalf = true) (hden : fadd (s.chan f c).leadI q.2 ≠ 0) : ∃ e fl, leadHalf s f c true bs =
      s.modChan f c (fun y => { y with leadHalf := false, rVals := ((leadR s f c q, e, fl) :: y.rVals).take 8 }) := by
  unfold leadHalf
  extract_lets k x half m q' num den known fl
  have hq : q' = q := congrArg (fun o => o.getD (0, 0)) h
  have hsome : m.1 = some q := h
  have hden' : den ≠ 0 := by
    unfold den
    rw [hq]
    exact hden
  have hknown : known = true := by simp [known, k, hfirst, hsome, hden']
  have hvalue : fdiv num den = leadR s f c q := by
    unfold num den leadR
    rw [hq, apply_ite (fadd (s.chan f c).leadV)]
  refine ⟨s.now - half, fl, ?_⟩
  rw [if_neg (by decide), if_pos hknown, if_pos hknown, hvalue]

/-! ## A source that swaps -/

/-- The phase that source `x` shows from the end of a half on: `first` says that the half that begins is the first of its period. -/
def showSwap (s : State) (f x : Nat) (first : Bool) : State := s.wrB (Reg.FC_EXC_STAT_SWAP_PHASE f x) (!first)

theorem halfMeans_showSwap (s : State) (f x c : Nat) (first : Bool) (bs : List (Int × Int × Bool)) :
    (halfMeans (showSwap s f x first) f c bs).1 = (halfMeans s f c bs).1 := rfl

section
variable {s : State} {f x : Nat} (hswap : s.act (Reg.FC_EXC_CFG_SWAP f x) ≠ 0) (hmode : s.act (Reg.FC_EXC_CFG_MODE f x) = 3)
  (hbn : s.bn % 2 ^ s.act (Reg.FC_EXC_CFG_SWAP_HALF f x) = 0)
include hswap hmode hbn

theorem leadSwap_none : leadSwap s f x [] =
    showSwap s f x (bit s.bn (s.act (Reg.FC_EXC_CFG_SWAP_HALF f x))) := if_neg (by simp [hswap, hmode, hbn])

theorem leadSwap_one {c : Nat} (bs : List (Int × Int × Bool)) (hc : c < 32) (hlead : s.act (Reg.FC_CH_CFG_LEAD f c) ≠ 0)
    (hsrc : s.act (Reg.FC_CH_CFG_LEAD_SRC f c) = x) : leadSwap s f x [(c, bs)] =
    leadHalf (showSwap s f x (bit s.bn (s.act (Reg.FC_EXC_CFG_SWAP_HALF f x)))) f c (bit s.bn (s.act (Reg.FC_EXC_CFG_SWAP_HALF f x))) bs := by
  have hserved : ([(c, bs)].filter fun q => q.1 < 32 && s.act (Reg.FC_CH_CFG_LEAD f q.1) ≠ 0 && s.act (Reg.FC_CH_CFG_LEAD_SRC f q.1) = x)
      = [(c, bs)] := by simp [hc, hlead, hsrc]
  unfold leadSwap
  extract_lets m first t
  rw [if_neg (by simp [hswap, hmode, hbn, m]), hserved]
  rfl

end

end Sys2Proof.Machine

namespace Sys2Proof
open Sys2Proof.Machine

theorem onlyRegs_showSwap (s : State) (f x : Nat) (first : Bool) : onlyRegs s (showSwap s f x first) [Reg.FC_EXC_STAT_SWAP_PHASE f x] :=
  onlyRegs_wr s _ _

section
variable {s : State} {f x : Nat} (hf : f < 16) (hx : x < 8) (hswap : s.act (Reg.FC_EXC_CFG_SWAP f x) ≠ 0)
  (hmode : s.act (Reg.FC_EXC_CFG_MODE f x) = 3) (hbn : s.bn % 2 ^ s.act (Reg.FC_EXC_CFG_SWAP_HALF f x) = 0)
include hf hx hswap hmode hbn

theorem exec_leadSwap_none : ∃ t, exec (.leadSwap f x []) s = .next t ∧
    t.rd (Reg.FC_EXC_STAT_SWAP_PHASE f x) = b2n (!bit s.bn (s.act (Reg.FC_EXC_CFG_SWAP_HALF f x))) ∧ t = { s with regs := t.regs } ∧
    onlyRegs s t [Reg.FC_EXC_STAT_SWAP_PHASE f x] := by
  refine ⟨_, item_answer hf hx (leadSwap_none hswap hmode hbn) rfl, ?_, rfl, onlyRegs_showSwap s f x _⟩
  rw [showSwap, State.rd_wrB_self]
  cases bit s.bn (s.act (Reg.FC_EXC_CFG_SWAP_HALF f x)) <;> rfl

variable {c : Nat} {bs : List (Int × Int × Bool)} {q : Int × Int} (hc : c < 32) (hlead : s.act (Reg.FC_CH_CFG_LEAD f c) ≠ 0)
  (hsrc : s.act (Reg.FC_CH_CFG_LEAD_SRC f c) = x)
  (hmeans : (s.leadMeans f c (s.now - 2 ^ s.act (Reg.FC_EXC_CFG_SWAP_HALF f x) * cclkBeat) bs (s.act (Reg.FC_EXC_CFG_SWAP_SETTLE f x))).1 = some q)
include hc hlead hsrc hmeans

/-- The first half of a period keeps its means. -/
theorem exec_leadSwap_first (hbit : bit s.bn (s.act (Reg.FC_EXC_CFG_SWAP_HALF f x)) = false) : ∃ t, exec (.leadSwap f x [(c, bs)]) s = .next t ∧
    (t.chan f c).leadV = q.1 ∧ (t.chan f c).leadI = q.2 ∧ (t.chan f c).leadHalf = true ∧ t = { s with regs := t.regs, fc := t.fc } ∧
    onlyRegs s t [Reg.FC_EXC_STAT_SWAP_PHASE f x] := by
  subst hsrc
  have hhalf := leadSwap_one hswap hmode hbn bs hc hlead rfl
  rw [hbit, leadHalf_first ((halfMeans_showSwap s f _ c false bs).trans hmeans)] at hhalf
  refine ⟨_, item_answer hf hx hhalf rfl, ?_⟩
  rw [chan_modChan_self]
  exact ⟨rfl, rfl, rfl, rfl, onlyRegs_showSwap s f _ false⟩

/-- The second half of a period forms its R value. -/
theorem exec_leadSwap_second (hbit : bit s.bn (s.act (Reg.FC_EXC_CFG_SWAP_HALF f x)) = true) (hfirst : (s.chan f c).leadHalf = true)
    (hden : fadd (s.chan f c).leadI q.2 ≠ 0) : ∃ t, exec (.leadSwap f x [(c, bs)]) s = .next t ∧ (t.chan f c).leadHalf = false ∧
    ((t.chan f c).rVals.head?.map (fun r => r.1)) = some (fdiv (fadd (s.chan f c).leadV (if s.act (Reg.FC_CH_CFG_LEAD f c) = 1 then -q.1 else q.1))
      (fadd (s.chan f c).leadI q.2)) ∧ t = { s with regs := t.regs, fc := t.fc } ∧ onlyRegs s t [Reg.FC_EXC_STAT_SWAP_PHASE f x] := by
  subst hsrc
  have hhalf := leadSwap_one hswap hmode hbn bs hc hlead rfl
  rw [hbit] at hhalf
  obtain ⟨e, fl, hvalue⟩ := leadHalf_second ((halfMeans_showSwap s f (s.act (Reg.FC_CH_CFG_LEAD_SRC f c)) c true bs).trans hmeans) hfirst hden
  refine ⟨_, item_answer hf hx (hhalf.trans hvalue) rfl, ?_⟩
  rw [chan_modChan_self]
  exact ⟨rfl, rfl, rfl, onlyRegs_showSwap s f _ true⟩

end

/-- Settles O13: each row of a source, and the two halves of a swap by the means of each. -/
theorem excitation : Obligations.Excitation := by
  intro s f x hf hx
  exact ⟨exec_excLimit_compliance hf hx, exec_excLimit_ilim hf hx, exec_excLimitEnd hf hx, exec_excSenseFault hf hx, exec_excThermal hf hx,
    exec_leadSwap_none hf hx, fun c bs q hc hswap hmode hbn hlead hsrc hmeans =>
      ⟨exec_leadSwap_first hf hx hswap hmode hbn hc hlead hsrc hmeans, exec_leadSwap_second hf hx hswap hmode hbn hc hlead hsrc hmeans⟩⟩

end Sys2Proof
end

