-- ==== Sys2Proof/Proofs/FieldMonitors.lean ====
section
/-! PROOFS. Blanking lines, common-mode faults and overrange (R67, R86 to R95). -/

namespace Sys2Proof.Machine

/-! ## Blanking lines (R86 to R89) -/

theorem le_mclkCeil (e : Nat) : e ≤ mclkCeil e := by
  unfold mclkCeil
  omega

theorem packBlank_early {s : State} {line e : Nat} {on : Bool} (h : s.now < e + 61440) :
    packBlank s line on e = { s with fc := { s.fc with packDue := s.fc.packDue ++ [(e + 61440, line, on)] } } := if_pos h

/-- The show of an edge that was late, on every card, and its bark. -/
def showLate (t : State) (n card line : Nat) : State :=
  ((List.range 16).foldl (fun u f => u.wrSat (Reg.FC_BLANK_STAT_PACK_LATE f) n) t).barkEvery cclkSec 0 (fcSrc card) (fcCode card 0x40) true [line]

theorem packBlank_late {s : State} {line e : Nat} {on : Bool} (h : e + 61440 ≤ s.now) : packBlank s line on e =
    if e + 61440 < s.now then showLate (setLine s (2 + line) on) (s.rd (Reg.FC_BLANK_STAT_PACK_LATE 0) + 1) s.firstCard line
    else setLine s (2 + line) on := if_neg (Nat.not_lt.2 h)

/-- The lines stand and show as before, and the queue is the same. -/
def linesKept (s t : State) : Prop :=
  t.fc.lines = s.fc.lines ∧ (∀ g, t.rd (Reg.FC_BLANK_STAT_LINES g) = s.rd (Reg.FC_BLANK_STAT_LINES g)) ∧ t.pending = s.pending

theorem linesKept_refl (s : State) : linesKept s s := ⟨rfl, fun _ => rfl, rfl⟩

theorem linesKept_trans {s t u : State} (h : linesKept s t) (k : linesKept t u) : linesKept s u := by
  obtain ⟨hlines, hrd, hpending⟩ := h
  obtain ⟨klines, krd, kpending⟩ := k
  exact ⟨klines.trans hlines, fun g => (krd g).trans (hrd g), kpending.trans hpending⟩

theorem linesKept_packLate (n : Nat) (l : List Nat) (t : State) :
    linesKept t (l.foldl (fun u f => u.wrSat (Reg.FC_BLANK_STAT_PACK_LATE f) n) t) := by
  induction l generalizing t with
  | nil => exact linesKept_refl t
  | cons f l ih =>
    have hkey (g : Nat) : (Reg.FC_BLANK_STAT_PACK_LATE f).key ≠ (Reg.FC_BLANK_STAT_LINES g).key := by
      simp only [Reg.FC_BLANK_STAT_PACK_LATE, Reg.FC_BLANK_STAT_LINES]
      omega
    have hstep : linesKept t (t.wrSat (Reg.FC_BLANK_STAT_PACK_LATE f) n) := ⟨rfl, fun g => State.rd_wrSat_ne t n (hkey g), rfl⟩
    exact linesKept_trans hstep (ih _)

theorem linesKept_showLate (t : State) (n card line : Nat) : linesKept t (showLate t n card line) :=
  linesKept_trans (linesKept_packLate n (List.range 16) t)
    ⟨congrArg FcSt.lines (State.barkEvery_fc _ _ _ _ _ _ _), fun _ => State.barkEvery_rd _ _ _ _ _ _ _ _, State.barkEvery_pending _ _ _ _ _ _ _⟩

theorem linesKept_send (s : State) (type dst : Nat) (words : List Nat) : linesKept s (s.send type dst words) :=
  ⟨congrArg FcSt.lines (State.send_fc _ _ _ _), fun _ => State.send_rd _ _ _ _ _, State.send_pending _ _ _ _⟩

theorem packBlank_early_kept {s : State} {line e : Nat} {on : Bool} (h : s.now < e + 61440) : linesKept s (packBlank s line on e) := by
  rw [packBlank_early h]
  exact ⟨rfl, fun _ => rfl, rfl⟩

theorem packBlank_late_kept {s : State} {line e : Nat} {on : Bool} (h : e + 61440 ≤ s.now) :
    linesKept (setLine s (2 + line) on) (packBlank s line on e) := by
  rw [packBlank_late h]
  split
  · exact linesKept_showLate _ _ _ _
  · exact linesKept_refl _

/-- The leader sends the edge to the pack, whose instant lies ahead for itself too. -/
theorem blankEdge_kept {s : State} {line : Nat} {on : Bool} (h : bit s.fc.lines line ≠ on) :
    linesKept (setLine s line on) (blankEdge s line on) := by
  have hnow : (setLine s line on).now = s.now := onlyField_now (onlyField_setLine s line on)
  unfold blankEdge
  rw [if_neg h]
  extract_lets t
  split
  · have hahead : (t.send 4 255 [line, b2n on, mclkCeil s.now]).now < mclkCeil s.now + 61440 := by
      rw [State.send_now, hnow]
      exact Nat.lt_of_le_of_lt (le_mclkCeil s.now) (by omega)
    exact linesKept_trans (linesKept_send t _ _ _) (packBlank_early_kept hahead)
  · exact linesKept_refl t

end Sys2Proof.Machine

namespace Sys2Proof
open Sys2Proof.Machine

/-- An effect that shows a line that changes as its setting does. -/
theorem line_answer {s t : State} {l line : Nat} {on : Bool} (hl : l < 2) (h : bit s.fc.lines line ≠ on) (hkept : linesKept (setLine s line on) t) :
    ∃ u, guardItem (l < 2) (answer s t) = .next u ∧ bit u.fc.lines line = on ∧
      ∀ g, g < 16 → u.rd (Reg.FC_BLANK_STAT_LINES g) = setBit s.fc.lines line on % 256 := by
  obtain ⟨hlines, hrd, hpending⟩ := hkept
  obtain ⟨hset, hshown⟩ := setLine_lines h
  refine ⟨t, guardItem_answer (decide_eq_true hl) (hpending.trans (onlyField_pending (onlyField_setLine s line on))), ?_,
    fun g hg => (hrd g).trans (hshown g hg)⟩
  rw [hlines, hset, bit_setBit, if_pos rfl]

theorem exec_blankEdge {s : State} {line : Nat} {on : Bool} (hl : line < 2) (h : bit s.fc.lines line ≠ on) :
    ∃ t, exec (.blankEdge line on) s = .next t ∧ bit t.fc.lines line = on ∧
    (∀ g, g < 16 → t.rd (Reg.FC_BLANK_STAT_LINES g) = setBit s.fc.lines line on % 256) := line_answer hl h (blankEdge_kept h)

theorem exec_packBlankEdge_early {s : State} {line e : Nat} {on : Bool} (hl : line < 2) (h : s.now < e + 61440) :
    ∃ t, exec (.packBlankEdge line on e) s = .next t ∧ t = { s with fc := { s.fc with packDue := s.fc.packDue ++ [(e + 61440, line, on)] } } := by
  have hwait := packBlank_early (line := line) (on := on) h
  exact ⟨_, guardItem_answer (decide_eq_true hl) (by rw [hwait]), hwait⟩

theorem exec_packBlankEdge_late {s : State} {line e : Nat} {on : Bool} (hl : line < 2) (he : e + 61440 ≤ s.now)
    (h : bit s.fc.lines (2 + line) ≠ on) : ∃ t, exec (.packBlankEdge line on e) s = .next t ∧ bit t.fc.lines (2 + line) = on ∧
    (∀ g, g < 16 → t.rd (Reg.FC_BLANK_STAT_LINES g) = setBit s.fc.lines (2 + line) on % 256) := line_answer hl h (packBlank_late_kept he)

end Sys2Proof

namespace Sys2Proof.Machine

/-! ## Common-mode faults (R92 to R94) -/

/-- Fields of the FC_CH_STAT of one channel have different bits. -/
theorem chStat_ne {j k : Nat} (f c m n : Nat) (hj : j = 8 * (0x10800 + 0x4000 * f + 4 * c) + m) (hk : k = 8 * (0x10800 + 0x4000 * f + 4 * c) + n)
    (h : m ≠ n) : j ≠ k := elem_ne f c 0x10800 0x10800 m n hj hk (by omega)

/-- The flags, the class and the count of a common-mode fault. -/
def cmShown (t : State) (f c cls : Nat) : State :=
  (((t.set (Reg.FC_CH_STAT_CM_FAULT f c)).set (Reg.FC_CH_STAT_CM_SEEN f c)).wr (Reg.FC_CH_STAT_CM_CLASS f c) cls).count (Reg.FC_CNT_CM_EVENTS f)

theorem cmShown_reads (t : State) (f c cls : Nat) : (cmShown t f c cls).flag (Reg.FC_CH_STAT_CM_FAULT f c) = true ∧
    (cmShown t f c cls).flag (Reg.FC_CH_STAT_CM_SEEN f c) = true ∧
    (cmShown t f c cls).rd (Reg.FC_CNT_CM_EVENTS f) = satU 32 (t.rd (Reg.FC_CNT_CM_EVENTS f) + 1) ∧
    (cmShown t f c cls).rd (Reg.FC_CH_STAT_CM_CLASS f c) = cls % 8 := by
  have hfault : (Reg.FC_CH_STAT_CM_FAULT f c).key ≠ (Reg.FC_CNT_CM_EVENTS f).key := elem_card_ne f c 0x10800 0x10020 0 0 rfl rfl (by decide)
  have hseen : (Reg.FC_CH_STAT_CM_SEEN f c).key ≠ (Reg.FC_CNT_CM_EVENTS f).key := elem_card_ne f c 0x10800 0x10020 8 0 rfl rfl (by decide)
  have hcls : (Reg.FC_CH_STAT_CM_CLASS f c).key ≠ (Reg.FC_CNT_CM_EVENTS f).key := elem_card_ne f c 0x10800 0x10020 1 0 rfl rfl (by decide)
  unfold cmShown
  refine ⟨?_, ?_, ?_, ?_⟩
  · rw [State.flag_count_ne _ hfault.symm, State.flag_wr_ne _ cls (chStat_ne f c 1 0 rfl rfl (by decide)),
      State.flag_set_ne _ (chStat_ne f c 8 0 rfl rfl (by decide))]
    exact State.flag_set_self t
  · rw [State.flag_count_ne _ hseen.symm, State.flag_wr_ne _ cls (chStat_ne f c 1 8 rfl rfl (by decide))]
    exact State.flag_set_self _
  · rw [State.rd_count_self, State.rd_wr_ne _ cls hcls, State.rd_set_ne _ hseen, State.rd_set_ne _ hfault]
    rfl
  · rw [State.rd_count_ne _ hcls.symm, State.rd_wr_self]
    rfl

theorem rd_showCm_low (s : State) (f c : Nat) (pos neg : Int) {g : Fld} (h : g.key < 8 * (0x10980 + 0x4000 * f)) :
    (showCm s f c pos neg).rd g = s.rd g := by
  have hpos : (Reg.FC_CM_VAL_POS_MV f c).key ≠ g.key := by
    simp only [Reg.FC_CM_VAL_POS_MV]
    omega
  have hneg : (Reg.FC_CM_VAL_NEG_MV f c).key ≠ g.key := by
    simp only [Reg.FC_CM_VAL_NEG_MV]
    omega
  rw [showCm, State.rd_wr_ne _ _ hneg, State.rd_wr_ne _ _ hpos]

/-- The channel's common-mode span begins two beats back. -/
def cmBegun (s : State) (f c : Nat) (pos neg : Int) : State :=
  (showCm s f c pos neg).modChan f c (fun k => { k with cm := openSpan (s.now - 2 * cclkBeat) k.cm })

/-- A common-mode fault of class `cls` that begins. -/
def cmFaulted (s : State) (f c : Nat) (pos neg : Int) (cls : Nat) : State :=
  (cmShown (cmBegun s f c pos neg) f c cls).bark (fcSrc f) (fcCode f 0x10) true [c, cls]

theorem onlyInputs_showCm (s : State) (f c : Nat) (pos neg : Int) : onlyInputs s (showCm s f c pos neg) := ((onlyInputs.refl s).wr _ _).wr _ _

theorem onlyInputs_cmShown (s : State) (f c : Nat) (pos neg : Int) (cls : Nat) : onlyInputs s (cmShown (cmBegun s f c pos neg) f c cls) :=
  (((((onlyInputs_showCm s f c pos neg).modChan f c _).wr _ 1).wr _ 1).wr _ cls).wr _ _

theorem cmFault_low {s : State} {f c : Nat} {pos neg : Int} (shield pos' neg' shield' : Int) (hfree : (s.chan f c).causes = 0)
    (h : s.flag (Reg.FC_CH_STAT_CM_FAULT f c) = false) (hup : s.fcUp f = true) (hlow : pos + neg < 2 * signed 16 (s.act (Reg.FC_CH_CFG_CM_LO f c))) :
    cmFault s f c pos neg shield pos' neg' shield' = cmFaulted s f c pos neg (cmClass s f c pos neg shield pos' neg' shield') := by
  unfold cmFault
  extract_lets t cls out t1
  have hout : out = true := by simp [out, hlow]
  rw [if_neg (by simp [hfree]), if_neg (by simp [h]), if_pos (by simp [hout, hup])]
  rfl

/-- The channel's fault is over, its class with it. -/
def cmEnded (s : State) (f c : Nat) (pos neg : Int) : State :=
  (((showCm s f c pos neg).clr (Reg.FC_CH_STAT_CM_FAULT f c)).clr (Reg.FC_CH_STAT_CM_CLASS f c)).modChan f c
    (fun k => { k with cm := closeSpan s.now k.cm })

theorem onlyInputs_cmEnded (s : State) (f c : Nat) (pos neg : Int) : onlyInputs s (cmEnded s f c pos neg) :=
  (((onlyInputs_showCm s f c pos neg).wr _ 0).wr _ 0).modChan f c _

theorem cmClear_on {s : State} {f c : Nat} (pos neg : Int) (h : s.flag (Reg.FC_CH_STAT_CM_FAULT f c) = true) :
    cmClear s f c pos neg = (cmEnded s f c pos neg).bark (fcSrc f) (fcCode f 0x11) false [c] := if_pos h

end Sys2Proof.Machine

namespace Sys2Proof
open Sys2Proof.Machine

theorem exec_cmFault {s : State} {f c : Nat} {pos neg shield pos' neg' shield' : Int} (hf : f < 16) (hc : c < 32) (hfree : (s.chan f c).causes = 0)
    (h : s.flag (Reg.FC_CH_STAT_CM_FAULT f c) = false) (hup : s.fcUp f = true)
    (hlow : pos + neg < 2 * signed 16 (s.act (Reg.FC_CH_CFG_CM_LO f c))) :
    ∃ t, exec (.cmFault f c pos neg shield pos' neg' shield') s = .next t ∧ t.flag (Reg.FC_CH_STAT_CM_FAULT f c) = true ∧
      t.flag (Reg.FC_CH_STAT_CM_SEEN f c) = true ∧ t.rd (Reg.FC_CNT_CM_EVENTS f) = satU 32 (s.rd (Reg.FC_CNT_CM_EVENTS f) + 1) ∧
      t.rd (Reg.FC_CH_STAT_CM_CLASS f c) = cmClass s f c pos neg shield pos' neg' shield' % 8 ∧ barks s t (0x10 + f) ((0x10 + f) * 256 + 0x10) ∧
      t = { s with regs := t.regs, fc := t.fc, bq := t.bq } := by
  have hevents : (Reg.FC_CNT_CM_EVENTS f).key < 8 * (0x10980 + 0x4000 * f) := by
    simp only [Reg.FC_CNT_CM_EVENTS]
    omega
  obtain ⟨hfault, hseen, hcount, hcls⟩ := cmShown_reads (cmBegun s f c pos neg) f c (cmClass s f c pos neg shield pos' neg' shield')
  have hbefore : (cmBegun s f c pos neg).rd (Reg.FC_CNT_CM_EVENTS f) = s.rd (Reg.FC_CNT_CM_EVENTS f) := rd_showCm_low s f c pos neg hevents
  rw [hbefore] at hcount
  obtain ⟨hcards, hpending, hbark⟩ := (onlyInputs_cmShown s f c pos neg (cmClass s f c pos neg shield pos' neg' shield')).bark (fcSrc f) (fcCode f 0x10)
    true [c, cmClass s f c pos neg shield pos' neg' shield']
  refine ⟨_, item_answer hf hc (cmFault_low shield pos' neg' shield' hfree h hup hlow) hpending, ?_⟩
  rw [cmFaulted, State.bark_flag, State.bark_flag, State.bark_rd, State.bark_rd]
  exact ⟨hfault, hseen, hcount, hcls, hbark, hcards⟩

theorem exec_cmClear {s : State} {f c : Nat} (pos neg : Int) (hf : f < 16) (hc : c < 32) (h : s.flag (Reg.FC_CH_STAT_CM_FAULT f c) = true) :
    ∃ t, exec (.cmClear f c pos neg) s = .next t ∧
    t.flag (Reg.FC_CH_STAT_CM_FAULT f c) = false ∧ t.rd (Reg.FC_CH_STAT_CM_CLASS f c) = 0 ∧ barks s t (0x10 + f) ((0x10 + f) * 256 + 0x11) ∧
    t = { s with regs := t.regs, fc := t.fc, bq := t.bq } ∧
    onlyRegs s t [Reg.FC_CH_STAT_CM_FAULT f c, Reg.FC_CH_STAT_CM_CLASS f c, Reg.FC_CM_VAL_POS_MV f c, Reg.FC_CM_VAL_NEG_MV f c] := by
  have hshow : onlyRegs s (showCm s f c pos neg) [Reg.FC_CM_VAL_NEG_MV f c, Reg.FC_CM_VAL_POS_MV f c] :=
    onlyRegs_snoc (onlyRegs_wr s (Reg.FC_CM_VAL_POS_MV f c) _) (Reg.FC_CM_VAL_NEG_MV f c) _
  have hclear := onlyRegs_snoc (onlyRegs_snoc hshow (Reg.FC_CH_STAT_CM_FAULT f c) 0) (Reg.FC_CH_STAT_CM_CLASS f c) 0
  have hkey : (Reg.FC_CH_STAT_CM_CLASS f c).key ≠ (Reg.FC_CH_STAT_CM_FAULT f c).key := chStat_ne f c 1 0 rfl rfl (by decide)
  have hended : (cmEnded s f c pos neg).flag (Reg.FC_CH_STAT_CM_FAULT f c) = false := (State.flag_wr_ne _ 0 hkey).trans (State.flag_clr_self _ _)
  obtain ⟨hcards, hpending, hbark⟩ := (onlyInputs_cmEnded s f c pos neg).bark (fcSrc f) (fcCode f 0x11) false [c]
  refine ⟨_, item_answer hf hc (cmClear_on pos neg h) hpending, ?_⟩
  rw [State.bark_flag, State.bark_rd]
  exact ⟨hended, State.rd_clr_self _ _, hbark, hcards, onlyRegs_mono hclear (by simp)⟩

end Sys2Proof

namespace Sys2Proof.Machine

/-! ## Overrange (R67) -/

/-- The overrange span, the flags and the count of an overrange that rises. -/
def ovrShown (s : State) (f c : Nat) : State :=
  (((s.modChan f c fun k => { k with ovr := openSpan s.now k.ovr }).set (Reg.FC_CH_STAT_OVERRANGE f c)).set (Reg.FC_CH_STAT_OR_SEEN f c)).count
    (Reg.FC_CNT_OR_EVENTS f)

theorem overrange_rises {s : State} {f c : Nat} (hfree : (s.chan f c).causes = 0) (h : s.flag (Reg.FC_CH_STAT_OVERRANGE f c) = false) :
    overrange s f c true = (ovrShown s f c).barkEvery cclkSec (32 * f + c) (fcSrc f) (fcCode f 0x12) true [c] :=
  (if_neg (by simp [hfree])).trans (if_pos (by simp [h]))

theorem overrange_falls {s : State} {f c : Nat} (hfree : (s.chan f c).causes = 0) : overrange s f c false =
    (s.modChan f c fun k => { k with ovr := closeSpan s.now k.ovr }).clr (Reg.FC_CH_STAT_OVERRANGE f c) := if_neg (by simp [hfree])

end Sys2Proof.Machine

namespace Sys2Proof
open Sys2Proof.Machine

theorem ovrShown_reads (s : State) (f c : Nat) : (ovrShown s f c).flag (Reg.FC_CH_STAT_OVERRANGE f c) = true ∧
    (ovrShown s f c).flag (Reg.FC_CH_STAT_OR_SEEN f c) = true ∧
    (ovrShown s f c).rd (Reg.FC_CNT_OR_EVENTS f) = satU 32 (s.rd (Reg.FC_CNT_OR_EVENTS f) + 1) ∧
    onlyRegs s (ovrShown s f c) [Reg.FC_CH_STAT_OVERRANGE f c, Reg.FC_CH_STAT_OR_SEEN f c, Reg.FC_CNT_OR_EVENTS f] := by
  have hover : (Reg.FC_CH_STAT_OVERRANGE f c).key ≠ (Reg.FC_CNT_OR_EVENTS f).key := elem_card_ne f c 0x10800 0x10020 4 32 rfl rfl (by decide)
  have hseen : (Reg.FC_CH_STAT_OR_SEEN f c).key ≠ (Reg.FC_CNT_OR_EVENTS f).key := elem_card_ne f c 0x10800 0x10020 9 32 rfl rfl (by decide)
  unfold ovrShown
  refine ⟨?_, ?_, ?_, ?_⟩
  · rw [State.flag_count_ne _ hover.symm, State.flag_set_ne _ (chStat_ne f c 9 4 rfl rfl (by decide))]
    exact State.flag_set_self _
  · rw [State.flag_count_ne _ hseen.symm]
    exact State.flag_set_self _
  · rw [State.rd_count_self, State.rd_set_ne _ hseen, State.rd_set_ne _ hover]
    rfl
  · exact onlyRegs_mono (onlyRegs_snoc (onlyRegs_snoc (onlyRegs_wr s (Reg.FC_CH_STAT_OVERRANGE f c) 1) (Reg.FC_CH_STAT_OR_SEEN f c) 1)
      (Reg.FC_CNT_OR_EVENTS f) _) (by simp)

theorem exec_overrange_rises {s : State} {f c : Nat} (hf : f < 16) (hc : c < 32) (hfree : (s.chan f c).causes = 0)
    (h : s.flag (Reg.FC_CH_STAT_OVERRANGE f c) = false) : ∃ t, exec (.overrange f c true) s = .next t ∧
    t.flag (Reg.FC_CH_STAT_OVERRANGE f c) = true ∧ t.flag (Reg.FC_CH_STAT_OR_SEEN f c) = true ∧
    t.rd (Reg.FC_CNT_OR_EVENTS f) = satU 32 (s.rd (Reg.FC_CNT_OR_EVENTS f) + 1) ∧ t = { s with regs := t.regs, fc := t.fc, bq := t.bq } ∧
    onlyRegs s t [Reg.FC_CH_STAT_OVERRANGE f c, Reg.FC_CH_STAT_OR_SEEN f c, Reg.FC_CNT_OR_EVENTS f] := by
  obtain ⟨hover, hseen, hcount, hregs⟩ := ovrShown_reads s f c
  have hall : onlyCards s ((ovrShown s f c).barkEvery cclkSec (32 * f + c) (fcSrc f) (fcCode f 0x12) true [c]) :=
    onlyCards_trans (t := ovrShown s f c) rfl (onlyCards_barkEvery _ _ _ _ _ _ _)
  refine ⟨_, item_answer hf hc (overrange_rises hfree h) (onlyCards_pending hall), ?_, ?_, ?_, hall,
    onlyRegs_of_rd hregs fun g => State.barkEvery_rd _ _ _ _ _ _ _ g⟩
  · rw [State.barkEvery_flag, hover]
  · rw [State.barkEvery_flag, hseen]
  · rw [State.barkEvery_rd, hcount]

theorem exec_overrange_falls {s : State} {f c : Nat} (hf : f < 16) (hc : c < 32) (hfree : (s.chan f c).causes = 0) :
    ∃ t, exec (.overrange f c false) s = .next t ∧ t.flag (Reg.FC_CH_STAT_OVERRANGE f c) = false ∧
    (t.chan f c).ovr = closeSpan s.now (s.chan f c).ovr ∧ t = { s with regs := t.regs, fc := t.fc } ∧ onlyRegs s t [Reg.FC_CH_STAT_OVERRANGE f c] := by
  refine ⟨_, item_answer hf hc (overrange_falls hfree) rfl, State.flag_clr_self _ _, ?_, rfl,
    onlyRegs_wr s (Reg.FC_CH_STAT_OVERRANGE f c) 0⟩
  rw [chan_clr, chan_modChan_self]

/-- Settles O14: each row of the lines and of the channels' monitors by what it does. -/
theorem fieldMonitors : Obligations.FieldMonitors := by
  intro s f c hf hc
  exact ⟨fun _ _ => exec_blankEdge, fun _ _ _ => exec_packBlankEdge_early, fun _ _ _ => exec_packBlankEdge_late,
    fun _ _ _ _ _ _ => exec_cmFault hf hc, fun pos neg => exec_cmClear pos neg hf hc, exec_overrange_rises hf hc, exec_overrange_falls hf hc⟩

end Sys2Proof
end

