-- ==== Sys2Proof/Proofs/SpareTurns.lean ====
section
/-! PROOFS. Turns of the rotating spare (R106, R116): a register state in which FC_SPARE_STAT.CH cannot show the parked channel. -/

namespace Sys2Proof
open Sys2Proof.Machine

/-- A card that gives service in RUN, its spare parked with its power granted and RESTORE asked for, and a number in
FC_SPARE_STAT.PARKED_CH that its five bits cannot hold. -/
def strayParked : State :=
  { State.reset with
    regs := ((((Sparse.put 1 Reg.HUB_MODE_MODE.key mRUN []).put 0 (partFld 0).key pIN).put 0 Reg.PW_DOMAIN_STAT_ON.key 1).put 0
      (Reg.FC_SPARE_STAT_PHASE 0).key spPARKED).put 0 (Reg.FC_SPARE_STAT_PARKED_CH 0).key 32
    fc := { cards := [(0, { spare := { cycleAt := some 0, restore := true } })] }
    pw := { grants := [{ book := 1, cls := 2, cid := spCid 0, want := 4, held := 4, bn := 0, since := 0, counted := true }] } }

/-- The turn of RESTORE begins, and CH takes the five low bits of that number. -/
theorem exec_spareTurnStart_strayParked :
    (match exec (.spareTurnStart 0) strayParked with | .next t => (t.spPhase 0, t.spCh 0) | _ => (0, 32)) = (spCAL, 0) := by
  decide +kernel

/-- Refutes O15: its clause of RESTORE takes any number of PARKED_CH. Where the register reads 32 the turn begins on channel 0, and CH does not
read 32. -/
theorem not_spareRotation : ¬ Obligations.SpareRotation := by
  intro h
  obtain ⟨-, hrestore, -⟩ := h strayParked 0 (by decide)
  obtain ⟨t, hexec, -, hch, -⟩ := hrestore (by decide) (by decide) (by decide) rfl rfl rfl (by decide)
  have hparked : strayParked.rd (Reg.FC_SPARE_STAT_PARKED_CH 0) = 32 := by decide
  have hbegun := exec_spareTurnStart_strayParked
  rw [hexec] at hbegun
  obtain ⟨-, hzero⟩ := Prod.mk.inj hbegun
  rw [hparked, hzero] at hch
  exact absurd hch (by decide)

end Sys2Proof
end

