-- ==== Sys2Proof/Proofs/ConverterFaults.lean ====
section
/-! PROOFS. Converter faults (R118, R119) and the recalibration of the references (R384). -/

namespace Sys2Proof.Machine

/-! ## The spare of a card -/

@[simp] theorem spare_modSpare_self (s : State) (f : Nat) (g : SpareSt → SpareSt) : (s.modSpare f g).spare f = g (s.spare f) := by
  rw [State.spare, State.modSpare, card_modCard_self]
  rfl

@[simp] theorem spare_keepQueue (t s : State) (f : Nat) : (t.keepQueue s).spare f = t.spare f := rfl
@[simp] theorem spare_journalW (s : State) (src : WrSrc) (r : RegId) (k i v f : Nat) : (s.journalW src r k i v).spare f = s.spare f := by
  rw [State.spare, State.card, State.journalW_fc]
  rfl

@[simp] theorem chan_keepQueue (t s : State) (f c : Nat) : (t.keepQueue s).chan f c = t.chan f c := rfl
@[simp] theorem chan_bark (s : State) (src code : Nat) (w : Bool) (p : List Nat) (f c : Nat) : (s.bark src code w p).chan f c = s.chan f c := rfl

/-! ## What a deferred commit leaves of the spare (R61) -/

/-- The field is none of those that a commit shows, which are those of FC_CFG_STAT and below, of the pins and of the sources, and the marks of
deferred channels. -/
def beyondCommit (f : Nat) (g : Fld) : Prop :=
  8 * (0x10010 + 0x4000 * f) ≤ g.key ∧ (g.key < 8 * (0x10100 + 0x4000 * f) ∨ 8 * (0x10400 + 0x4000 * f) ≤ g.key) ∧ g.key % 32 ≠ 10

/-- Such fields read alike, the same barks are staged, and the spare is as much out of service as before. -/
def spareKept (f : Nat) (s t : State) : Prop :=
  (∀ g, beyondCommit f g → t.rd g = s.rd g) ∧ t.bq = s.bq ∧ (t.spare f).out = (s.spare f).out

theorem spareKept_refl (f : Nat) (s : State) : spareKept f s s := ⟨fun _ _ => rfl, rfl, rfl⟩

theorem spareKept_trans {f : Nat} {s t u : State} (h : spareKept f s t) (k : spareKept f t u) : spareKept f s u := by
  obtain ⟨hrd, hbq, hout⟩ := h
  obtain ⟨krd, kbq, kout⟩ := k
  exact ⟨fun g hg => (krd g hg).trans (hrd g hg), kbq.trans hbq, kout.trans hout⟩

theorem spareKept_ite {c : Prop} [Decidable c] {f : Nat} {s t u : State} (ht : spareKept f s t) (hu : spareKept f s u) :
    spareKept f s (if c then t else u) := by
  split
  · exact ht
  · exact hu

theorem spareKept_foldl {α : Type} {f : Nat} {g : State → α → State} {l : List α} (hg : ∀ s, ∀ a ∈ l, spareKept f s (g s a)) (s : State) :
    spareKept f s (l.foldl g s) := by
  induction l generalizing s with
  | nil => exact spareKept_refl f s
  | cons a l ih => exact spareKept_trans (hg s a (by simp)) (ih (fun u b hb => hg u b (by simp [hb])) _)

theorem spareKept_wr {f : Nat} {x : Fld} (hx : ¬ beyondCommit f x) (s : State) (v : Nat) : spareKept f s (s.wr x v) := by
  refine ⟨fun g hg => State.rd_wr_ne s v fun heq => hx ?_, rfl, rfl⟩
  unfold beyondCommit
  rw [heq]
  exact hg

theorem spareKept_modCard (s : State) (f : Nat) (g : Card → Card)
    (hg : ∀ k, (g k).spare.out = k.spare.out := by exact fun _ => rfl) : spareKept f s (s.modCard f g) := by
  refine ⟨fun _ _ => rfl, rfl, ?_⟩
  rw [State.spare, card_modCard_self]
  exact hg _

theorem spareKept_modChan (s : State) (f c : Nat) (g : Chan → Chan) : spareKept f s (s.modChan f c g) := spareKept_modCard s f _

theorem not_beyond_of_shown {f : Nat} {x : Fld} (h : 8 * (0x10100 + 0x4000 * f) ≤ x.key ∧ x.key < 8 * (0x10400 + 0x4000 * f)) :
    ¬ beyondCommit f x := by
  unfold beyondCommit
  omega

theorem not_beyond_cfgStat {f m : Nat} {x : Fld} (hm : m < 32) (h : x.key = 8 * (0x1000C + 0x4000 * f) + m) : ¬ beyondCommit f x := by
  unfold beyondCommit
  omega

theorem not_beyond_deferredMark (f c : Nat) : ¬ beyondCommit f (Reg.FC_CH_STAT_DEFERRED f c) := by
  simp only [beyondCommit, Reg.FC_CH_STAT_DEFERRED]
  omega

theorem not_beyond_excStat {f i m : Nat} {x : Fld} (hi : i < 8) (hm : m < 32) (h : x.key = 8 * (0x10300 + 0x4000 * f + 4 * i) + m) :
    ¬ beyondCommit f x := not_beyond_of_shown (by omega)

theorem spareKept_blankSync (s : State) (f e : Nat) : spareKept f s (blankSync s f e) :=
  spareKept_foldl (fun u c _ => spareKept_ite (spareKept_refl f u) (spareKept_modChan u f c _)) s

theorem spareKept_commitChans (s : State) (f : Nat) (old new : Sparse Nat) (aff : List Nat) : spareKept f s (commitChans s f old new aff) := by
  unfold commitChans
  extract_lets d t c
  have ht : spareKept f s t := by
    refine spareKept_foldl (fun u i _ => ?_) s
    have hcarry : spareKept f u (if d Reg.FC_CH_CFG_STAGE i || d Reg.FC_CH_CFG_QRANGE i then u.modChan f i (fun k => k.setCarry s.now 0) else u) :=
      spareKept_ite (spareKept_modChan u f i _) (spareKept_refl f u)
    exact spareKept_ite (spareKept_trans hcarry (spareKept_modChan _ f i _)) hcarry
  exact spareKept_ite (spareKept_trans ht (spareKept_modCard t f _)) ht

theorem spareKept_shutOff (s : State) {f x : Nat} (hx : x < 8) : spareKept f s (shutOff s f x) :=
  spareKept_trans (spareKept_modCard s f _) (spareKept_wr (not_beyond_excStat hx (m := 4) (by decide) rfl) _ 0)

theorem spareKept_limitOff (s : State) {f x : Nat} (hx : x < 8) : spareKept f s (limitOff s f x) :=
  spareKept_trans (spareKept_modCard s f _) (spareKept_wr (not_beyond_excStat hx (m := 1) (by decide) rfl) _ 0)

theorem spareKept_commitSrcs (s : State) (f : Nat) (c : Commit) (old new : Sparse Nat) : spareKept f s (commitSrcs s f c old new) := by
  refine spareKept_foldl (fun u x hx => ?_) s
  have hx8 : x < 8 := List.mem_range.1 hx
  extract_lets ch u1 u2
  have h1 : spareKept f u u1 := spareKept_ite (spareKept_wr (not_beyond_excStat hx8 (m := 3) (by decide) rfl) u 0) (spareKept_refl f u)
  have h2 : spareKept f u u2 := spareKept_ite (spareKept_trans h1 (spareKept_shutOff u1 hx8)) h1
  exact spareKept_ite (spareKept_trans h2 (spareKept_limitOff u2 hx8)) h2

theorem spareKept_showPins (s : State) (f : Nat) : spareKept f s (showPins s f) := by
  refine spareKept_foldl (fun u n hn => ?_) s
  have hn64 : n < 64 := List.mem_range.1 hn
  have hrole : ¬ beyondCommit f (Reg.FC_XPT_ROLE_ACT_ROLE f n) := not_beyond_of_shown (by simp only [Reg.FC_XPT_ROLE_ACT_ROLE]; omega)
  have htarget : ¬ beyondCommit f (Reg.FC_XPT_ROLE_ACT_TARGET f n) := not_beyond_of_shown (by simp only [Reg.FC_XPT_ROLE_ACT_TARGET]; omega)
  have hside : ¬ beyondCommit f (Reg.FC_XPT_ROLE_ACT_SIDE f n) := not_beyond_of_shown (by simp only [Reg.FC_XPT_ROLE_ACT_SIDE]; omega)
  exact spareKept_trans (spareKept_trans (spareKept_wr hrole u _) (spareKept_wr htarget _ _)) (spareKept_wr hside _ _)

theorem spareKept_showSources (s : State) (f : Nat) : spareKept f s (showSources s f) :=
  spareKept_foldl (fun u _ hx => spareKept_wr (not_beyond_excStat (List.mem_range.1 hx) (m := 0) (by decide) rfl) u _) s

theorem spareKept_switchCard (s : State) (f : Nat) (c : Commit) (old new : Sparse Nat) : spareKept f s (switchCard s f c old new) := by
  unfold switchCard
  extract_lets aff pins xs t1 t2 busy t3
  have hactive : spareKept f s (s.setActive f new) := ⟨fun _ _ => rfl, rfl, rfl⟩
  have h1 : spareKept f s t1 := spareKept_trans hactive (spareKept_foldl (fun u i _ => spareKept_modChan u f i _) _)
  have h2 : spareKept f s t2 := spareKept_trans h1 (spareKept_trans (spareKept_commitChans t1 f old new aff)
    (spareKept_trans (spareKept_commitSrcs _ f c old new) (spareKept_blankSync _ f s.now)))
  have h3 : spareKept f s t3 := spareKept_trans h2 (spareKept_modCard t2 f _)
  have hbusy := spareKept_wr (not_beyond_cfgStat (f := f) (x := Reg.FC_CFG_STAT_SWITCHING f) (m := 1) (by decide) rfl) t3
  exact spareKept_trans h3 (spareKept_trans (hbusy _) (spareKept_trans (spareKept_showPins _ f) (spareKept_showSources _ f)))

theorem spareKept_clearDeferred (s : State) (f : Nat) : spareKept f s (clearDeferred s f) :=
  spareKept_trans (spareKept_modCard s f _) (spareKept_trans (spareKept_wr (not_beyond_cfgStat (m := 2) (by decide) rfl) _ 0)
    (spareKept_wr (not_beyond_deferredMark f _) _ 0))

theorem spareKept_applyDeferred (s : State) (f : Nat) : spareKept f s (applyDeferred s f) := by
  have hclear := spareKept_clearDeferred s f
  have hqueued : ¬ beyondCommit f (Reg.FC_CFG_STAT_QUEUED f) := not_beyond_cfgStat (m := 3) (by decide) rfl
  exact spareKept_ite (spareKept_refl f s) (spareKept_ite
    (spareKept_trans hclear (spareKept_trans (spareKept_modCard _ f _) (spareKept_wr hqueued _ 1)))
    (spareKept_trans hclear (spareKept_switchCard _ _ _ _ _)))

/-! ## Faults of a working converter (R118, R119) -/

section
variable {s : State} {f c : Nat} (hc : c < 32)
include hc

theorem convFault_masked (h : s.flag (Reg.FC_CONV_STAT_MASKED f c) = true) : convFault s f c = s :=
  (if_neg (Nat.ne_of_lt hc)).trans (if_pos h)

variable (hmasked : s.flag (Reg.FC_CONV_STAT_MASKED f c) = false)
include hmasked

theorem convFault_calibrating (hphase : s.spPhase f = spCAL) (hch : s.spCh f = c) :
    convFault s f c = s.modSpare f (fun q => { q with calFault := true }) := by
  unfold convFault
  rw [if_neg (Nat.ne_of_lt hc), if_neg (by simp [hmasked]), if_pos (by simp [hphase, hch])]

variable (hcal : s.spPhase f = spCAL → s.spCh f ≠ c)
include hcal

theorem convFault_noSpare (hout : (s.maskedCh f).isSome = true ∨ s.spPhase f = spOUT) : convFault s f c =
    (s.modChan f c (fun k => { k with dead := openSpan (s.now - 2 * cclkBeat) k.dead })).bark (fcSrc f) (fcCode f 0x57) true [c] := by
  unfold convFault
  rw [if_neg (Nat.ne_of_lt hc), if_neg (by simp [hmasked]), if_neg (by simpa using hcal), if_pos (by simpa using hout)]

theorem convFault_spareTakes (hnone : s.maskedCh f = none) (hin : s.spPhase f ≠ spOUT) : convFault s f c =
    (maskConv ((convSubstitute s f c).wr (Reg.FC_CONV_STAT_FAIL_CODE f c) 6) f c).bark (fcSrc f) (fcCode f 0x56) true [c] := by
  unfold convFault
  rw [if_neg (Nat.ne_of_lt hc), if_neg (by simp [hmasked]), if_neg (by simpa using hcal), if_neg (by simp [hnone, hin])]

end

theorem not_masked_of_maskedCh {s : State} {f c : Nat} (hc : c < 32) (h : s.maskedCh f = none) :
    s.flag (Reg.FC_CONV_STAT_MASKED f c) = false := by
  have hall := List.find?_eq_none.1 h c (List.mem_range.2 hc)
  simpa using hall

/-- The channel's filters take the spare, unless they have it already. -/
def substHeld (s : State) (f c : Nat) : State := if s.flag (Reg.FC_CH_STAT_SUBST f c) then s else substOn s f c s.now

theorem substHeld_flag (s : State) (f c : Nat) : (substHeld s f c).flag (Reg.FC_CH_STAT_SUBST f c) = true := by
  unfold substHeld
  split
  · assumption
  · exact State.flag_set_self s

/-- What a converter that is masked shows. -/
def maskShown (t : State) (f c : Nat) : State :=
  ((t.set (Reg.FC_CONV_STAT_MASKED f c)).wr (Reg.FC_SPARE_STAT_PARKED_CH f) c).setPhase f spPARKED

/-- Beside its bark, masking is what it shows and what was deferred, over parts that no register shows. -/
theorem maskConv_shows (s : State) (f c : Nat) : ∃ t, maskConv s f c = (applyDeferred t f).bark (fcSrc f) (fcCode f 0x53) true [c] ∧
    ∀ g, t.rd g = (maskShown (substHeld s f c) f c).rd g := ⟨_, rfl, fun _ => rfl⟩

theorem rd_maskShown_ne {t : State} {f c : Nat} {g : Fld} (hmask : (Reg.FC_CONV_STAT_MASKED f c).key ≠ g.key)
    (hparked : (Reg.FC_SPARE_STAT_PARKED_CH f).key ≠ g.key) (hphase : (Reg.FC_SPARE_STAT_PHASE f).key ≠ g.key) :
    (maskShown t f c).rd g = t.rd g := by
  rw [maskShown, State.setPhase, State.rd_wr_ne _ _ hphase, State.rd_wr_ne _ _ hparked, State.rd_set_ne _ hmask]

theorem maskShown_reads (t : State) {f c : Nat} (hc : c < 32) : (maskShown t f c).flag (Reg.FC_CONV_STAT_MASKED f c) = true ∧
    (maskShown t f c).rd (Reg.FC_SPARE_STAT_PARKED_CH f) = c ∧ (maskShown t f c).spPhase f = spPARKED := by
  have hmaskPhase : (Reg.FC_CONV_STAT_MASKED f c).key ≠ (Reg.FC_SPARE_STAT_PHASE f).key := elem_card_ne f c 0x10080 0x10058 3 0 rfl rfl (by decide)
  have hmaskParked : (Reg.FC_CONV_STAT_MASKED f c).key ≠ (Reg.FC_SPARE_STAT_PARKED_CH f).key :=
    elem_card_ne f c 0x10080 0x10058 3 9 rfl rfl (by decide)
  have hphaseParked : (Reg.FC_SPARE_STAT_PHASE f).key ≠ (Reg.FC_SPARE_STAT_PARKED_CH f).key := by
    simp only [Reg.FC_SPARE_STAT_PHASE, Reg.FC_SPARE_STAT_PARKED_CH]
    omega
  unfold maskShown State.setPhase
  refine ⟨?_, ?_, State.rd_wr_self _ _ _⟩
  · rw [State.flag_wr_ne _ _ hmaskPhase.symm, State.flag_wr_ne _ _ hmaskParked.symm]
    exact State.flag_set_self t
  · rw [State.rd_wr_ne _ _ hphaseParked, State.rd_wr_self]
    exact Nat.mod_eq_of_lt hc

/-- The code of the failure, and that the spare carries the channel, stand beside what a mask shows. -/
theorem maskShown_keeps (t : State) (f c : Nat) :
    (maskShown t f c).rd (Reg.FC_CONV_STAT_FAIL_CODE f c) = t.rd (Reg.FC_CONV_STAT_FAIL_CODE f c) ∧
    (maskShown t f c).rd (Reg.FC_CH_STAT_SUBST f c) = t.rd (Reg.FC_CH_STAT_SUBST f c) :=
  ⟨rd_maskShown_ne (elem_ne f c 0x10080 0x10080 3 0 rfl rfl (by decide)) (elem_card_ne f c 0x10080 0x10058 0 9 rfl rfl (by decide)).symm
      (elem_card_ne f c 0x10080 0x10058 0 0 rfl rfl (by decide)).symm,
    rd_maskShown_ne (elem_ne f c 0x10080 0x10800 3 11 rfl rfl (by decide)) (elem_card_ne f c 0x10800 0x10058 11 9 rfl rfl (by decide)).symm
      (elem_card_ne f c 0x10800 0x10058 11 0 rfl rfl (by decide)).symm⟩

theorem rd_failCode_substHeld (s : State) (f c : Nat) :
    (substHeld s f c).rd (Reg.FC_CONV_STAT_FAIL_CODE f c) = s.rd (Reg.FC_CONV_STAT_FAIL_CODE f c) := by
  have hkey : (Reg.FC_CH_STAT_SUBST f c).key ≠ (Reg.FC_CONV_STAT_FAIL_CODE f c).key := elem_ne f c 0x10800 0x10080 11 0 rfl rfl (by decide)
  unfold substHeld
  split
  · rfl
  · exact State.rd_set_ne s hkey

theorem beyond_spareStat {f m : Nat} {x : Fld} (h : x.key = 8 * (0x10058 + 0x4000 * f) + m) (hm : m < 10) : beyondCommit f x := by
  unfold beyondCommit
  omega

theorem beyond_convStat {f c m : Nat} {x : Fld} (hc : c < 32) (h : x.key = 8 * (0x10080 + 0x4000 * f + 4 * c) + m) (hm : m < 10) :
    beyondCommit f x := by
  unfold beyondCommit
  omega

theorem beyond_subst (f c : Nat) : beyondCommit f (Reg.FC_CH_STAT_SUBST f c) := by
  simp only [beyondCommit, Reg.FC_CH_STAT_SUBST]
  omega

/-- A converter that is masked leaves its channel to the spare, which is parked on it. -/
theorem maskConv_reads (s : State) {f c : Nat} (hc : c < 32) : (maskConv s f c).flag (Reg.FC_CONV_STAT_MASKED f c) = true ∧
    (maskConv s f c).rd (Reg.FC_CONV_STAT_FAIL_CODE f c) = s.rd (Reg.FC_CONV_STAT_FAIL_CODE f c) ∧
    (maskConv s f c).flag (Reg.FC_CH_STAT_SUBST f c) = true ∧ (maskConv s f c).spPhase f = spPARKED ∧
    (maskConv s f c).rd (Reg.FC_SPARE_STAT_PARKED_CH f) = c := by
  obtain ⟨t, hconv, ht⟩ := maskConv_shows s f c
  obtain ⟨hrd, -, -⟩ := spareKept_applyDeferred t f
  have hshown : ∀ g, beyondCommit f g → (maskConv s f c).rd g = (maskShown (substHeld s f c) f c).rd g := fun g hg => by
    rw [hconv, State.bark_rd, hrd g hg, ht]
  obtain ⟨hmask, hparked, hphase⟩ := maskShown_reads (substHeld s f c) hc (f := f)
  obtain ⟨hcode, hsubst⟩ := maskShown_keeps (substHeld s f c) f c
  refine ⟨(State.flag_congr (hshown _ (beyond_convStat hc (m := 3) rfl (by decide)))).trans hmask, ?_, ?_,
    (hshown _ (beyond_spareStat (m := 0) rfl (by decide))).trans hphase, (hshown _ (beyond_spareStat (m := 9) rfl (by decide))).trans hparked⟩
  · rw [hshown _ (beyond_convStat hc (m := 0) rfl (by decide)), hcode, rd_failCode_substHeld]
  · exact (State.flag_congr ((hshown _ (beyond_subst f c)).trans hsubst)).trans (substHeld_flag s f c)

/-! ## Faults of the spare -/

theorem spareFault_in {s : State} {f : Nat} (h : s.spPhase f ≠ spOUT) : ∃ t, spareFault s f = applyDeferred (spareOut t f) f := ⟨_, if_neg h⟩

theorem spareOut_spec (t : State) (f : Nat) : (spareOut t f).spPhase f = spOUT ∧ ((spareOut t f).spare f).out = true ∧
    Sys2Proof.lastBark (spareOut t f) (fcSrc f) (fcCode f 0x54) := by
  refine ⟨State.rd_wr_self t (Reg.FC_SPARE_STAT_PHASE f) spOUT, ?_, Sys2Proof.lastBark_bark _ _ _ _ _⟩
  have hspare : (spareOut t f).spare f = ((t.setPhase f spOUT).modSpare f (fun q => { q with out := true, ending := none })).spare f := rfl
  rw [hspare, spare_modSpare_self]

end Sys2Proof.Machine

namespace Sys2Proof
open Sys2Proof.Machine

theorem exec_convFault {s t : State} {f c : Nat} (hf : f < 16) (hc : c ≤ 32) (hon : s.domOn f = true) (h : convFault s f c = t) :
    exec (.convFault f c) s = .next (t.keepQueue s) := by
  have hcall : exec (.convFault f c) s = guardItem (f < 16 && c ≤ 32) (answer s (if s.domOn f then convFault s f c else s)) := rfl
  rw [hcall, if_pos hon, h, guardItem, if_pos (by simp [hf, hc])]
  rfl

section
variable {s : State} {f c : Nat} (hf : f < 16) (hc : c < 32) (hon : s.domOn f = true)
include hf hc hon

theorem exec_convFault_masked (h : s.flag (Reg.FC_CONV_STAT_MASKED f c) = true) : ∃ t, exec (.convFault f c) s = .next t ∧ t = s :=
  ⟨_, exec_convFault hf (Nat.le_of_lt hc) hon (convFault_masked hc h), rfl⟩

theorem exec_convFault_calibrating (hmasked : s.flag (Reg.FC_CONV_STAT_MASKED f c) = false) (hphase : s.spPhase f = spCAL) (hch : s.spCh f = c) :
    ∃ t, exec (.convFault f c) s = .next t ∧ (t.spare f).calFault = true ∧ t = { s with fc := t.fc } := by
  refine ⟨_, exec_convFault hf (Nat.le_of_lt hc) hon (convFault_calibrating hc hmasked hphase hch), ?_, rfl⟩
  rw [spare_keepQueue, spare_modSpare_self]

theorem exec_convFault_noSpare (hmasked : s.flag (Reg.FC_CONV_STAT_MASKED f c) = false) (hcal : s.spPhase f = spCAL → s.spCh f ≠ c)
    (hout : (s.maskedCh f).isSome = true ∨ s.spPhase f = spOUT) : ∃ t, exec (.convFault f c) s = .next t ∧
    (t.chan f c).dead = openSpan (s.now - 2 * cclkBeat) (s.chan f c).dead ∧ barks s t (0x10 + f) ((0x10 + f) * 256 + 0x57) ∧
    t = { s with fc := t.fc, bq := t.bq } := by
  refine ⟨_, exec_convFault hf (Nat.le_of_lt hc) hon (convFault_noSpare hc hmasked hcal hout), ?_, barks_bark _ _ _ _ _ _ rfl rfl, rfl⟩
  rw [chan_keepQueue, chan_bark, chan_modChan_self]

theorem exec_convFault_spareTakes (hnone : s.maskedCh f = none) (hcal : s.spPhase f = spCAL → s.spCh f ≠ c) (hin : s.spPhase f ≠ spOUT) :
    ∃ t, exec (.convFault f c) s = .next t ∧ t.flag (Reg.FC_CONV_STAT_MASKED f c) = true ∧ t.rd (Reg.FC_CONV_STAT_FAIL_CODE f c) = 6 ∧
      t.flag (Reg.FC_CH_STAT_SUBST f c) = true ∧ t.spPhase f = spPARKED ∧ t.rd (Reg.FC_SPARE_STAT_PARKED_CH f) = c ∧
      lastBark t (0x10 + f) ((0x10 + f) * 256 + 0x56) := by
  obtain ⟨hmask, hcode, hsubst, hphase, hparked⟩ := maskConv_reads ((convSubstitute s f c).wr (Reg.FC_CONV_STAT_FAIL_CODE f c) 6) hc (f := f)
  refine ⟨_, exec_convFault hf (Nat.le_of_lt hc) hon (convFault_spareTakes hc (not_masked_of_maskedCh hc hnone) hcal hnone hin), ?_⟩
  simp only [State.spPhase, State.keepQueue_flag, State.keepQueue_rd, State.bark_flag, State.bark_rd]
  exact ⟨hmask, hcode.trans (State.rd_wr_self _ _ 6), hsubst, hphase, hparked, lastBark_bark _ _ _ _ _⟩

end

theorem exec_convFault_spare {s : State} {f : Nat} (hf : f < 16) (hon : s.domOn f = true) (hin : s.spPhase f ≠ spOUT) :
    ∃ t, exec (.convFault f 32) s = .next t ∧ t.spPhase f = spOUT ∧ (t.spare f).out = true ∧ lastBark t (0x10 + f) ((0x10 + f) * 256 + 0x54) := by
  obtain ⟨u, hfault⟩ := spareFault_in hin
  obtain ⟨hphase, hout, v, b, hstaged, hb⟩ := spareOut_spec u f
  obtain ⟨hrd, hbq, hkept⟩ := spareKept_applyDeferred (spareOut u f) f
  exact ⟨_, exec_convFault hf (Nat.le_refl 32) hon hfault, (hrd _ (beyond_spareStat (m := 0) rfl (by decide))).trans hphase, hkept.trans hout,
    v, b, (congrArg BqSt.staged hbq).trans hstaged, hb⟩

end Sys2Proof

namespace Sys2Proof.Machine

/-! ## The recalibration of the references (R384) -/

/-- A recalibration is not to begin, and why. -/
def refcalRefused (s : State) (f reason : Nat) : State :=
  (s.wr (Reg.FC_REFCAL_CTRL_REASON f) reason).bark (fcSrc f) (fcCode f 0x61) true [reason]

/-- A recalibration begins. -/
def refcalBegun (s : State) (f : Nat) : State :=
  ((s.clr (Reg.FC_REFCAL_CTRL_REASON f)).wr (Reg.FC_REFCAL_CTRL_STATE f) 2).modSpare f (fun p => { p with refSince := some s.run })

theorem refcalStart_pins {s : State} {f : Nat} (hp : s.act (Reg.FC_XPT_ROLE_ROLE f (s.rd (Reg.FC_REFCAL_CTRL_PIN_P f))) ≠ 0) :
    refcalStart s f = refcalRefused s f 1 := if_pos (by simp [hp])

section
variable {s : State} {f : Nat} (hp : s.act (Reg.FC_XPT_ROLE_ROLE f (s.rd (Reg.FC_REFCAL_CTRL_PIN_P f))) = 0)
  (hn : s.act (Reg.FC_XPT_ROLE_ROLE f (s.rd (Reg.FC_REFCAL_CTRL_PIN_N f))) = 0)
include hp hn

theorem refcalStart_range (hv : s.rdS (Reg.FC_REFCAL_UV_UV f) < 4000000 ∨ 4900000 < s.rdS (Reg.FC_REFCAL_UV_UV f)) :
    refcalStart s f = refcalRefused s f 2 := (if_neg (by simp [hp, hn])).trans (if_pos (by simpa using hv))

theorem refcalStart_begins (hlo : 4000000 ≤ s.rdS (Reg.FC_REFCAL_UV_UV f)) (hhi : s.rdS (Reg.FC_REFCAL_UV_UV f) ≤ 4900000)
    (hturn : s.turning f = false) : refcalStart s f = refcalBegun s f := by
  have hreason : (Reg.FC_REFCAL_CTRL_REASON f).key ≠ (Reg.FC_SPARE_STAT_PHASE f).key := by
    simp only [Reg.FC_REFCAL_CTRL_REASON, Reg.FC_SPARE_STAT_PHASE]
    omega
  have hphase : (s.clr (Reg.FC_REFCAL_CTRL_REASON f)).spPhase f = s.spPhase f := State.rd_clr_ne s hreason
  have hfree : (s.clr (Reg.FC_REFCAL_CTRL_REASON f)).turning f = false := by
    unfold State.turning
    rw [hphase]
    exact hturn
  unfold refcalStart
  extract_lets off v fail t
  rw [if_neg (by simp [off, hp, hn]), if_neg (by simp [v, hlo, hhi]), if_neg (by simp [t, hfree])]
  rfl

end

/-- No recalibration runs any more. -/
def refcalOver (s : State) (f : Nat) : State := s.modSpare f (fun p => { p with refSince := none })

/-- The references take the values of a recalibration. -/
def refsTaken (s : State) (f : Nat) (a b : Int) : State :=
  (((refcalOver s f).modCard f (fun k => { k with refs := (a, b), refAt := s.run })).wr
    (Reg.FC_REFCAL_CTRL_STATE f) 3).clr (Reg.FC_REFCAL_CTRL_REF_AGE f)

/-- A recalibration ends without new values. -/
def refsKept (s : State) (f : Nat) : State :=
  ((refcalOver s f).wr (Reg.FC_REFCAL_CTRL_STATE f) 0).wr (Reg.FC_REFCAL_CTRL_REASON f) 3

section
variable {s : State} {f t0 : Nat} {a b : Int} (hrun : (s.spare f).refSince = some t0) (helapsed : s.elapsed t0 (64 * cclkSec) = true)
include hrun helapsed

theorem refcalDone_accepted (ha : (a - (s.card f).refs.1).natAbs ≤ 50000) (hb : (b - (s.card f).refs.2).natAbs ≤ 50000) :
    ∃ p, refcalDone s f a b = (refsTaken s f a b).bark (fcSrc f) (fcCode f 0x60) false p := by
  refine ⟨[unsigned 32 (rne (a - (s.card f).refs.1) 1000), unsigned 32 (rne (b - (s.card f).refs.2) 1000)], ?_⟩
  unfold refcalDone
  rw [hrun]
  dsimp only
  rw [if_neg (by simp [helapsed]), if_neg (by simp [ha, hb])]
  rfl

theorem refcalDone_moved (ha : 50000 < (a - (s.card f).refs.1).natAbs) :
    refcalDone s f a b = (refsKept s f).bark (fcSrc f) (fcCode f 0x61) true [3] := by
  unfold refcalDone
  rw [hrun]
  dsimp only
  rw [if_neg (by simp [helapsed]), if_pos (by simp [ha])]
  rfl

end

/-- Fields of FC_REFCAL_CTRL have different bits. -/
theorem refcalCtrl_ne {j k : Nat} (f m n : Nat) (hj : j = 8 * (0x10034 + 0x4000 * f) + m) (hk : k = 8 * (0x10034 + 0x4000 * f) + n)
    (h : m ≠ n) : j ≠ k := by omega

theorem onlyInputs_refsTaken (s : State) (f : Nat) (a b : Int) : onlyInputs s (refsTaken s f a b) :=
  ((((onlyInputs.refl s).modCard f _).modCard f _).wr _ 3).wr _ 0

theorem onlyInputs_refsKept (s : State) (f : Nat) : onlyInputs s (refsKept s f) := (((onlyInputs.refl s).modCard f _).wr _ 0).wr _ 3

theorem refsTaken_card (s : State) (f : Nat) (a b : Int) : ((refsTaken s f a b).card f).refs = (a, b) ∧
    ((refsTaken s f a b).card f).refAt = s.run ∧ ((refsTaken s f a b).spare f).refSince = none := by
  have hcard : (refsTaken s f a b).card f = { (refcalOver s f).card f with refs := (a, b), refAt := s.run } :=
    card_modCard_self (refcalOver s f) f (fun k => { k with refs := (a, b), refAt := s.run })
  have hover : ((refcalOver s f).spare f).refSince = none := congrArg SpareSt.refSince (spare_modSpare_self s f _)
  rw [State.spare, hcard]
  exact ⟨rfl, rfl, hover⟩

theorem refsKept_refs (s : State) (f : Nat) : ((refsKept s f).card f).refs = (s.card f).refs := by
  have hcard : (refsKept s f).card f = (refcalOver s f).card f := rfl
  rw [hcard, refcalOver, State.modSpare, card_modCard_self]

theorem refsTaken_reads (s : State) (f : Nat) (a b : Int) : (refsTaken s f a b).rd (Reg.FC_REFCAL_CTRL_STATE f) = 3 ∧
    (refsTaken s f a b).rd (Reg.FC_REFCAL_CTRL_REF_AGE f) = 0 := by
  have hkey : (Reg.FC_REFCAL_CTRL_REF_AGE f).key ≠ (Reg.FC_REFCAL_CTRL_STATE f).key := refcalCtrl_ne f 17 13 rfl rfl (by decide)
  exact ⟨(State.rd_clr_ne _ hkey).trans (State.rd_wr_self _ _ 3), State.rd_clr_self _ _⟩

theorem refsKept_reads (s : State) (f : Nat) : (refsKept s f).rd (Reg.FC_REFCAL_CTRL_REASON f) = 3 ∧
    (refsKept s f).rd (Reg.FC_REFCAL_CTRL_STATE f) = 0 := by
  have hkey : (Reg.FC_REFCAL_CTRL_REASON f).key ≠ (Reg.FC_REFCAL_CTRL_STATE f).key := refcalCtrl_ne f 15 13 rfl rfl (by decide)
  exact ⟨State.rd_wr_self _ _ 3, (State.rd_wr_ne _ 3 hkey).trans (State.rd_wr_self _ _ 0)⟩

end Sys2Proof.Machine

namespace Sys2Proof
open Sys2Proof.Machine

section
variable {s t : State} {src : WrSrc} {f : Nat} (hf : f < 16) (htakes : s.takes src .FC_REFCAL_CTRL f 0 true = true)
include hf htakes

theorem exec_refcalStart (h : refcalStart s f = t) :
    ∃ v, exec (.refcalStart src f) s = .next ((t.journalW src .FC_REFCAL_CTRL f 0 v).keepQueue s) := by
  have hcall : exec (.refcalStart src f) s = guardItem (f < 16) (answer s (s.write src .FC_REFCAL_CTRL f 0 true fun u =>
      (refcalStart u f).journalW src .FC_REFCAL_CTRL f 0 (u.wordWith 4096 [Reg.FC_REFCAL_CTRL_PIN_P f, Reg.FC_REFCAL_CTRL_PIN_N f]))) := rfl
  refine ⟨s.wordWith 4096 [Reg.FC_REFCAL_CTRL_PIN_P f, Reg.FC_REFCAL_CTRL_PIN_N f], ?_⟩
  rw [hcall, State.write_taken s _ htakes, h, guardItem, if_pos (decide_eq_true hf)]
  rfl

theorem exec_refcalStart_refused {reason : Nat} (hreason : reason < 4) (h : refcalStart s f = refcalRefused s f reason) :
    ∃ t, exec (.refcalStart src f) s = .next t ∧ t.rd (Reg.FC_REFCAL_CTRL_REASON f) = reason ∧
      barks s t (0x10 + f) ((0x10 + f) * 256 + 0x61) ∧ t = { s with regs := t.regs, bq := t.bq, kn := t.kn } ∧
      onlyRegs s t [Reg.FC_REFCAL_CTRL_REASON f] := by
  obtain ⟨v, hnext⟩ := exec_refcalStart hf htakes h
  refine ⟨_, hnext, ?_, ?_, ?_, ?_⟩
  · rw [State.keepQueue_rd, State.journalW_rd, refcalRefused, State.bark_rd, State.rd_wr_self]
    exact Nat.mod_eq_of_lt hreason
  · unfold barks
    rw [State.keepQueue_bq, State.journalW_bq]
    exact barks_bark _ _ _ _ _ _ rfl rfl
  · rw [journalW_frame]
    rfl
  · exact onlyRegs_of_rd (onlyRegs_wr s (Reg.FC_REFCAL_CTRL_REASON f) reason) fun g => State.journalW_rd _ _ _ _ _ _ g

theorem exec_refcalStart_begins (h : refcalStart s f = refcalBegun s f) : ∃ t, exec (.refcalStart src f) s = .next t ∧
    t.rd (Reg.FC_REFCAL_CTRL_REASON f) = 0 ∧ t.rd (Reg.FC_REFCAL_CTRL_STATE f) = 2 ∧
    (t.spare f).refSince = some s.run ∧ t = { s with regs := t.regs, fc := t.fc, kn := t.kn } ∧
    onlyRegs s t [Reg.FC_REFCAL_CTRL_REASON f, Reg.FC_REFCAL_CTRL_STATE f] := by
  have hkey : (Reg.FC_REFCAL_CTRL_STATE f).key ≠ (Reg.FC_REFCAL_CTRL_REASON f).key := refcalCtrl_ne f 13 15 rfl rfl (by decide)
  have hregs : onlyRegs s (refcalBegun s f) [Reg.FC_REFCAL_CTRL_STATE f, Reg.FC_REFCAL_CTRL_REASON f] :=
    onlyRegs_snoc (onlyRegs_wr s (Reg.FC_REFCAL_CTRL_REASON f) 0) (Reg.FC_REFCAL_CTRL_STATE f) 2
  obtain ⟨v, hnext⟩ := exec_refcalStart hf htakes h
  refine ⟨_, hnext, ?_, ?_, ?_, ?_, ?_⟩
  · rw [State.keepQueue_rd, State.journalW_rd]
    exact (State.rd_wr_ne _ 2 hkey).trans (State.rd_clr_self s _)
  · rw [State.keepQueue_rd, State.journalW_rd]
    exact State.rd_wr_self _ (Reg.FC_REFCAL_CTRL_STATE f) 2
  · rw [spare_keepQueue, spare_journalW, refcalBegun, spare_modSpare_self]
  · rw [journalW_frame]
    rfl
  · exact onlyRegs_of_rd (onlyRegs_mono hregs (by simp)) fun g => State.journalW_rd _ _ _ _ _ _ g

end

section
variable {s : State} {f t0 : Nat} {a b : Int} (hf : f < 16) (hrun : (s.spare f).refSince = some t0)
  (helapsed : s.elapsed t0 (64 * cclkSec) = true)
include hf hrun helapsed

theorem exec_refcalDone_accepted (ha : Int.natAbs (a - (s.card f).refs.1) ≤ 50000) (hb : Int.natAbs (b - (s.card f).refs.2) ≤ 50000) :
    ∃ t, exec (.refcalDone f a b) s = .next t ∧ (t.card f).refs = (a, b) ∧ (t.card f).refAt = s.run ∧
      (t.spare f).refSince = none ∧ t.rd (Reg.FC_REFCAL_CTRL_STATE f) = 3 ∧ t.rd (Reg.FC_REFCAL_CTRL_REF_AGE f) = 0 ∧
      barks s t (0x10 + f) ((0x10 + f) * 256 + 0x60) ∧ t = { s with regs := t.regs, fc := t.fc, bq := t.bq } := by
  obtain ⟨p, hdone⟩ := refcalDone_accepted hrun helapsed ha hb
  obtain ⟨hcards, hpending, hbark⟩ := (onlyInputs_refsTaken s f a b).bark (fcSrc f) (fcCode f 0x60) false p
  obtain ⟨hrefs, hat, hsince⟩ := refsTaken_card s f a b
  obtain ⟨hstate, hage⟩ := refsTaken_reads s f a b
  exact ⟨_, guardItem_answer (decide_eq_true hf) (hdone ▸ hpending), hdone ▸ ⟨hrefs, hat, hsince, hstate, hage, hbark, hcards⟩⟩

theorem exec_refcalDone_moved (ha : 50000 < Int.natAbs (a - (s.card f).refs.1)) : ∃ t, exec (.refcalDone f a b) s = .next t ∧
    (t.card f).refs = (s.card f).refs ∧ t.rd (Reg.FC_REFCAL_CTRL_REASON f) = 3 ∧
    t.rd (Reg.FC_REFCAL_CTRL_STATE f) = 0 ∧ barks s t (0x10 + f) ((0x10 + f) * 256 + 0x61) ∧ t = { s with regs := t.regs, fc := t.fc, bq := t.bq } := by
  have hdone := refcalDone_moved (b := b) hrun helapsed ha
  obtain ⟨hcards, hpending, hbark⟩ := (onlyInputs_refsKept s f).bark (fcSrc f) (fcCode f 0x61) true [3]
  obtain ⟨hreason, hstate⟩ := refsKept_reads s f
  exact ⟨_, guardItem_answer (decide_eq_true hf) (hdone ▸ hpending), hdone ▸ ⟨refsKept_refs s f, hreason, hstate, hbark, hcards⟩⟩

end

/-- Settles O16: each row of a fault by what it does to the channel or the spare, which a deferred commit keeps, and each end of a recalibration
by what it writes. -/
theorem converterFaults : Obligations.ConverterFaults := by
  intro s f hf
  refine ⟨fun c hc => exec_convFault_masked hf hc, fun c hc => exec_convFault_calibrating hf hc, fun c hc => exec_convFault_noSpare hf hc,
    fun c hc => exec_convFault_spareTakes hf hc, exec_convFault_spare hf, fun src htakes => ⟨fun hp => ?_, fun hp hn hv => ?_,
      fun hp hn hlo hhi hturn => ?_⟩, fun t0 a b => exec_refcalDone_accepted hf, fun t0 a b => exec_refcalDone_moved hf⟩
  · exact exec_refcalStart_refused hf htakes (by decide) (refcalStart_pins hp)
  · exact exec_refcalStart_refused hf htakes (by decide) (refcalStart_range hp hn hv)
  · exact exec_refcalStart_begins hf htakes (refcalStart_begins hp hn hlo hhi hturn)

end Sys2Proof
end

