-- ==== Sys2Proof/Proofs/Metrology.lean ====
section
/-! PROOFS. The metrology scan (R126 to R137): what a channel boundary, the end of a phase and the end of a check slot do, case by case, the
urgent read, the mask and the latched result. -/

namespace Sys2Proof.Machine

/-! ## The registers of the scan -/

/-- A field outside MT_SCAN_STAT's channel, phase and pending count reads as before they are shown. -/
theorem rd_showMt_ne {s : State} {ch phase : Nat} {g : Fld} (h : g.key < 8 * 0x68018 ∨ 8 * 0x68018 + 8 < g.key) :
    (showMt s ch phase).rd g = s.rd g := by
  have hch : Reg.MT_SCAN_STAT_CH.key ≠ g.key := by simp only [Reg.MT_SCAN_STAT_CH]; omega
  have hphase : Reg.MT_SCAN_STAT_PHASE.key ≠ g.key := by simp only [Reg.MT_SCAN_STAT_PHASE]; omega
  have hpending : Reg.MT_SCAN_STAT_URGENT_PENDING.key ≠ g.key := by simp only [Reg.MT_SCAN_STAT_URGENT_PENDING]; omega
  rw [showMt, State.rd_wr_ne _ _ hpending, State.rd_wr_ne _ _ hphase, State.rd_wr_ne _ _ hch]

theorem showMt_frame (s : State) (ch phase : Nat) : showMt s ch phase = { s with regs := (showMt s ch phase).regs } := rfl

@[simp] theorem showMt_mt (s : State) (ch phase : Nat) : (showMt s ch phase).mt = s.mt := rfl

@[simp] theorem showMt_bq (s : State) (ch phase : Nat) : (showMt s ch phase).bq = s.bq := rfl

theorem rd_showMt_ch (s : State) (ch phase : Nat) : (showMt s ch phase).rd Reg.MT_SCAN_STAT_CH = ch % 2 ^ 5 := by
  rw [showMt, State.rd_wr_ne _ _ (by decide), State.rd_wr_ne _ _ (by decide)]
  exact State.rd_wr_self _ _ _

theorem rd_showMt_phase (s : State) (ch phase : Nat) : (showMt s ch phase).rd Reg.MT_SCAN_STAT_PHASE = phase % 2 ^ 3 := by
  rw [showMt, State.rd_wr_ne _ _ (by decide)]
  exact State.rd_wr_self _ _ _

theorem rd_showPeriod_ne (s : State) {g : Fld} (h : Reg.MT_SCAN_STAT_PERIOD.key ≠ g.key) : (showPeriod s).rd g = s.rd g :=
  State.rd_wrSat_ne s _ h

@[simp] theorem showPeriod_mt (s : State) : (showPeriod s).mt = s.mt := rfl

@[simp] theorem mtChBad_showPeriod (s : State) (c : Nat) : (showPeriod s).mtChBad c = s.mtChBad c := by
  have hkey (m : Nat) : Reg.MT_SCAN_STAT_PERIOD.key ≠ 8 * (0x68100 + 8 * c) + m := by simp only [Reg.MT_SCAN_STAT_PERIOD]; omega
  simp only [State.mtChBad, rd_showPeriod_ne s (g := Reg.MT_CH_CFG_MODE c) (hkey 0), rd_showPeriod_ne s (g := Reg.MT_CH_CFG_RANGE c) (hkey 1),
    rd_showPeriod_ne s (g := Reg.MT_CH_CFG_CUR c) (hkey 5), rd_showPeriod_ne s (g := Reg.MT_CH_CFG_REF c) (hkey 7)]

@[simp] theorem scanList_showPeriod (s : State) : (showPeriod s).scanList = s.scanList := by
  simp only [State.scanList, mtChBad_showPeriod, rd_showPeriod_ne s (g := Reg.MT_SCAN_MASK_MASK) (by decide)]

@[simp] theorem nextScan_showPeriod (s : State) : (showPeriod s).nextScan = s.nextScan := by
  simp only [State.nextScan, scanList_showPeriod, showPeriod_mt]

@[simp] theorem scanEnds_showPeriod (s : State) : (showPeriod s).scanEnds = s.scanEnds := by
  simp only [State.scanEnds, scanList_showPeriod, showPeriod_mt]

/-- Whether the card gives service rests on its part and on its domain. -/
theorem mtUp_congr {s t : State} (hpart : t.rd (partFld 19) = s.rd (partFld 19))
    (hdomain : t.rd Reg.PW_DOMAIN_STAT_ON = s.rd Reg.PW_DOMAIN_STAT_ON) : t.mtUp = s.mtUp := by
  rw [State.mtUp, State.inService, State.domOn, hpart, hdomain]
  rfl

@[simp] theorem mtUp_showPeriod (s : State) : (showPeriod s).mtUp = s.mtUp :=
  mtUp_congr (rd_showPeriod_ne s (by decide)) (rd_showPeriod_ne s (by decide))

@[simp] theorem mtUp_begin (s : State) (h : CmdHdr) : (s.begin h).mtUp = s.mtUp := mtUp_congr (s.begin_rd h _) (s.begin_rd h _)

/-- A bark changes the bark queue alone. -/
theorem bark_frame (s : State) (src code : Nat) (warn : Bool) (p : List Nat) :
    s.bark src code warn p = { s with bq := (s.bark src code warn p).bq } := rfl

/-! ## Channel boundaries (R129, R130, R133, R135) -/

/-- Asking for a check slot touches the requests of the governor alone. -/
theorem mtAsk_frame (s : State) : mtAsk s = { s with pw := (mtAsk s).pw } := by
  unfold mtAsk
  dsimp only
  split <;> rfl

theorem mtAsk_rd (s : State) (f : Fld) : (mtAsk s).rd f = s.rd f := by rw [mtAsk_frame]; rfl

theorem mtAsk_mt (s : State) : (mtAsk s).mt = s.mt := by rw [mtAsk_frame]

/-- The converter idles: no channel of the scan runs, and none ran last. -/
def mtIdle (s : State) : State := showMt { s with mt := { s.mt with lastCh := none } } 0 0

/-- It idles because the mask is zero, and says so once. -/
def mtIdleEmpty (s : State) : State := showMt { s with mt := { s.mt with lastCh := none, empty := true } } 0 0

theorem mtScanNext_channel {s : State} {c : Nat} (h : s.nextScan = some c) : mtScanNext s = mtAsk (mtBegin s c none) := by
  rw [mtScanNext, h]

theorem mtScanNext_masked {s : State} (h : s.nextScan = none) (hmask : s.rd Reg.MT_SCAN_MASK_MASK ≠ 0) : mtScanNext s = mtIdle s := by
  rw [mtScanNext, h]
  exact if_pos (by simp [hmask])

theorem mtScanNext_empty {s : State} (h : s.nextScan = none) (hempty : s.mt.empty = false) (hmask : s.rd Reg.MT_SCAN_MASK_MASK = 0) :
    mtScanNext s = (mtIdleEmpty s).bark 0x40 0x4008 false [] := by
  rw [mtScanNext, h]
  exact if_neg (by simp [hempty, hmask])

/-- A check slot begins, and the scans up to the next one are counted from here. -/
def mtCheckBegin (s : State) : State :=
  showMt { s with mt := { s.mt with lastCh := none, checkAt := some s.now, scans := 0 } } 0 3

section
variable {s : State} (hrun : s.mt.run = none) (hcheck : s.mt.checkAt = none) (hsampling : s.sampling = true)
include hrun hcheck hsampling

/-- An urgent read goes first. -/
theorem mtChannelStart_urgent {h : CmdHdr} {c a : Nat} {rest : List (CmdHdr × Nat × Nat)} (hurgents : s.mt.urgents = (h, c, a) :: rest)
    (hstandby : (s.slot 19).standby = none) :
    mtChannelStart s = mtBegin { showPeriod s with mt := { s.mt with urgents := rest } } c (some (h, a)) := by
  have hslot : (showPeriod s).slot 19 = s.slot 19 := rfl
  simp [mtChannelStart, hrun, hcheck, hsampling, hslot, hstandby, hurgents]

variable (hurgents : s.mt.urgents = [])
include hurgents

/-- Within a scan the next channel of it follows. -/
theorem mtChannelStart_scan (hends : s.scanEnds = false) : mtChannelStart s = mtScanNext (showPeriod s) := by
  simp [mtChannelStart, hrun, hcheck, hsampling, hurgents, hends]

/-- At the end of a scan, a check slot that is due and granted begins. -/
theorem mtChannelStart_check (hends : s.scanEnds = true) (hevery : s.rd Reg.MT_CAL_CFG_EVERY ≠ 0)
    (hdue : s.rd Reg.MT_CAL_CFG_EVERY ≤ s.mt.scans + 1) (hup : s.mtUp = true) (hgrant : s.hasGrant 1 0x60 = true) :
    mtChannelStart s = mtCheckBegin (showPeriod s) := by
  have hrd : (showPeriod s).rd Reg.MT_CAL_CFG_EVERY = s.rd Reg.MT_CAL_CFG_EVERY := rd_showPeriod_ne s (by decide)
  have hgrant' (m : MtSt) : State.hasGrant { showPeriod s with mt := m } 1 0x60 = true := hgrant
  simp [mtChannelStart, mtCheckBegin, hrun, hcheck, hsampling, hurgents, hends, hrd, hevery, Nat.not_lt.2 hdue, hup, hgrant']

end

/-! ## The end of a phase (R126, R127, R131, R134) -/

theorem modStream_frame (s : State) (i : Nat) (g : Stream → Stream) : s.modStream i g = { s with rd_ := (s.modStream i g).rd_ } := by
  unfold State.modStream
  split <;> rfl

/-- A tick of a channel touches the streams alone. -/
theorem mtSlots_frame (s : State) (r : MtRun) (v : Int) (flags : Nat) : mtSlots s r v flags = { s with rd_ := (mtSlots s r v flags).rd_ } := by
  unfold mtSlots
  generalize s.openStreams = l
  induction l generalizing s with
  | nil => rfl
  | cons i l ih =>
    rw [List.foldl_cons, ih, modStream_frame]

@[simp] theorem mtSlots_mt (s : State) (r : MtRun) (v : Int) (flags : Nat) : (mtSlots s r v flags).mt = s.mt := by rw [mtSlots_frame]

@[simp] theorem mtSlots_bq (s : State) (r : MtRun) (v : Int) (flags : Nat) : (mtSlots s r v flags).bq = s.bq := by rw [mtSlots_frame]

/-- The delay gives way to the conversion. -/
theorem mtPhaseEnd_settled {s : State} {r : MtRun} (hrun : s.mt.run = some r) (hsettles : r.converting = false) (hscan : r.urgent = none)
    (v : Int) (cm : Bool) :
    mtPhaseEnd s v cm = ({ s with mt := { s.mt with run := some { r with converting := true } } }).wr Reg.MT_SCAN_STAT_PHASE 2 := by
  simp [mtPhaseEnd, hrun, hsettles, hscan]

/-- The channel's time once its conversion has measured `v`. -/
def MtRun.measured (r : MtRun) (v : Int) (cm : Bool) : MtRun :=
  { r with vals := r.vals ++ [clamp (-mtFull r.range) (mtFull r.range) v], ovr := r.ovr || decide (mtFull r.range < v || v < -mtFull r.range),
           cm := r.cm || cm, phase := r.phase + 1, converting := false }

/-- A channel of one conversion ends with it, behind the warnings of what it measured. -/
theorem mtPhaseEnd_result {s : State} {r : MtRun} (hrun : s.mt.run = some r) (hconverts : r.converting = true) (hmode : r.mode ≠ 1)
    (v : Int) (cm : Bool) : ∃ t, mtPhaseEnd s v cm = mtResult t (r.measured v cm) := by
  have hlast : ¬ r.phase + 1 < 1 := by omega
  simp only [mtPhaseEnd, hrun, hconverts, hmode, Bool.not_true, Bool.false_eq_true, if_false, if_neg hlast]
  exact ⟨_, rfl⟩

section
variable {r : MtRun} {v : Int} (hlo : -mtFull r.range ≤ v) (hhi : v ≤ mtFull r.range)
include hlo hhi

/-- A voltage in range is kept as it is, and marks nothing. -/
theorem measured_inRange (cm : Bool) : (r.measured v cm).vals = r.vals ++ [v] ∧ (r.measured v cm).ovr = r.ovr := by
  simp [MtRun.measured, clamp, Int.not_lt.2 hlo, Int.not_lt.2 hhi]

/-- In range there is nothing to warn of. -/
theorem mtPhaseEnd_inRange {s : State} (hrun : s.mt.run = some r) (hconverts : r.converting = true) (hmode : r.mode ≠ 1) :
    mtPhaseEnd s v false = mtResult s (r.measured v false) := by
  simp [mtPhaseEnd, MtRun.measured, hrun, hconverts, hmode, Int.not_lt.2 hlo, Int.not_lt.2 hhi]

end

/-- The result of a scan channel leaves the converter idle. -/
theorem mtResult_scan (s : State) {r : MtRun} (hscan : r.urgent = none) : ∃ u, mtResult s r = showMt u r.ch 0 ∧ u.mt.run = none := by
  unfold mtResult
  simp only [hscan]
  refine ⟨_, rfl, ?_⟩
  split <;> simp

/-- A valid result of the voltage `v`, a real in V. -/
def validResult (r : MtRun) (v : Int) : MtRes :=
  { value := satS 64 (rne (v * (2 ^ 40 : Nat)) realOne), bn := r.stamp / cclkBeat, flags := fVALID }

/-- Fields of MT_CH_STAT have different bits. -/
theorem mtChStat_ne {j k : Nat} (c m n : Nat) (hj : j = 8 * (0x68200 + 4 * c) + m) (hk : k = 8 * (0x68200 + 4 * c) + n) (h : m ≠ n) : j ≠ k := by
  omega

/-- A result without a fault shows in the channel's flags. -/
def flagsCleared (s : State) (c : Nat) : State :=
  ((s.wrB (Reg.MT_CH_STAT_OVERRANGE c) false).wrB (Reg.MT_CH_STAT_OPEN c) false).wrB (Reg.MT_CH_STAT_CM_FAULT c) false

/-- What a scan channel that measured `v` without a fault leaves. -/
def resultKept (s : State) (r : MtRun) (v : Int) : State :=
  let t := flagsCleared (mtSlots { s with mt := { s.mt with run := none } } r v fVALID) r.ch
  { t with mt := { t.mt with results := t.mt.results.put {} r.ch (validResult r v) } }

theorem mtResult_valid {s : State} {r : MtRun} {v : Int} (hup : s.mtUp = true) (hscan : r.urgent = none) (hmode : r.mode ≠ 1)
    (hvals : r.vals = [v]) (hovr : r.ovr = false) (hopen : r.open_ = false) (hcm : r.cm = false) :
    mtResult s r = showMt (resultKept s r v) r.ch 0 := by
  have hflag : hasFlag fVALID fOVERRANGE = false := by decide
  simp [mtResult, resultKept, flagsCleared, validResult, hup, hscan, hmode, hvals, hovr, hopen, hcm, hflag]

@[simp] theorem flagsCleared_mt (s : State) (c : Nat) : (flagsCleared s c).mt = s.mt := rfl

@[simp] theorem flagsCleared_bq (s : State) (c : Nat) : (flagsCleared s c).bq = s.bq := rfl

theorem rd_flagsCleared_overrange (s : State) (c : Nat) : (flagsCleared s c).rd (Reg.MT_CH_STAT_OVERRANGE c) = 0 := by
  rw [flagsCleared, State.rd_wrB_ne _ _ (mtChStat_ne c 2 0 rfl rfl (by decide)), State.rd_wrB_ne _ _ (mtChStat_ne c 1 0 rfl rfl (by decide)),
    State.rd_wrB_self]
  rfl

theorem resultKept_mt (s : State) (r : MtRun) (v : Int) :
    (resultKept s r v).mt.run = none ∧ (resultKept s r v).mt.results.get {} r.ch = validResult r v := by
  refine ⟨?_, Sparse.get_put_self _ _ _ _⟩
  simp [resultKept]

theorem resultKept_bq (s : State) (r : MtRun) (v : Int) : (resultKept s r v).bq = s.bq := by simp [resultKept]

theorem resultKept_overrange (s : State) (r : MtRun) (v : Int) (c : Nat) :
    (showMt (resultKept s r v) c 0).flag (Reg.MT_CH_STAT_OVERRANGE r.ch) = false := by
  have hkey : 8 * 0x68018 + 8 < (Reg.MT_CH_STAT_OVERRANGE r.ch).key := by simp only [Reg.MT_CH_STAT_OVERRANGE]; omega
  rw [State.flag, rd_showMt_ne (.inr hkey)]
  exact congrArg (fun n => decide (n = 1)) (rd_flagsCleared_overrange _ r.ch)

/-! ## The open source (R134) -/

theorem onlyRegs_when_count {s t : State} {fs : List Fld} (h : onlyRegs s t fs) (b : Bool) (f : Fld) :
    onlyRegs s (t.when b fun u => u.count f) (f :: fs) := by
  cases b
  · exact onlyRegs_mono h (List.subset_cons_self f fs)
  · exact onlyRegs_snoc h f _

theorem when_count_frame (s : State) (b : Bool) (f : Fld) :
    s.when b (fun u => u.count f) = { s with regs := (s.when b fun u => u.count f).regs } := by
  cases b <;> rfl

theorem mtOnset_frame (s : State) (r : MtRun) (o : Bool) : mtOnset s r o = { s with regs := (mtOnset s r o).regs } := by
  unfold mtOnset
  dsimp only
  rw [when_count_frame, when_count_frame]
  rfl

/-- An onset sets OR_SEEN, and no more than the two counters follow. -/
theorem onlyRegs_mtOnset (s : State) (r : MtRun) (o : Bool) :
    onlyRegs (s.set (Reg.MT_CH_STAT_OR_SEEN r.ch)) (mtOnset s r o) [Reg.MT_CNT_OPEN_EVENTS, Reg.MT_CNT_OR_EVENTS] :=
  onlyRegs_when_count (onlyRegs_when_count (onlyRegs_refl _ []) _ _) _ _

/-- The running conversion is marked open, and its channel shows it. -/
def openShown (s : State) (r : MtRun) : State :=
  (({ mtOnset s r true with mt := { s.mt with run := some { r with open_ := true } } }).set (Reg.MT_CH_STAT_OPEN r.ch)).set
    (Reg.MT_CH_STAT_OPEN_SEEN r.ch)

theorem mtOpen_shown {s : State} {r : MtRun} (hrun : s.mt.run = some r) (hmode : r.mode = 1) (hconverts : r.converting = true)
    (hup : s.mtUp = true) : mtOpen s = (openShown s r).barkEvery cclkSec r.ch 0x40 0x4002 true [r.ch] := by
  unfold mtOpen
  rw [hrun]
  exact if_pos (by simp [hmode, hconverts, hup])

theorem openShown_frame (s : State) (r : MtRun) : openShown s r = { s with regs := (openShown s r).regs, mt := (openShown s r).mt } := by
  unfold openShown
  rw [mtOnset_frame]
  rfl

theorem openShown_flags (s : State) (r : MtRun) : (openShown s r).flag (Reg.MT_CH_STAT_OPEN r.ch) = true ∧
    (openShown s r).flag (Reg.MT_CH_STAT_OPEN_SEEN r.ch) = true ∧ (openShown s r).flag (Reg.MT_CH_STAT_OR_SEEN r.ch) = true := by
  have hcounts : (Reg.MT_CH_STAT_OR_SEEN r.ch).key ∉ [Reg.MT_CNT_OPEN_EVENTS, Reg.MT_CNT_OR_EVENTS].map Fld.key := by
    simp only [List.map_cons, List.map_nil, List.mem_cons, List.not_mem_nil, or_false, Reg.MT_CH_STAT_OR_SEEN, Reg.MT_CNT_OPEN_EVENTS,
      Reg.MT_CNT_OR_EVENTS]
    omega
  refine ⟨?_, State.flag_set_self _, ?_⟩
  · rw [openShown, State.flag_set_ne _ (mtChStat_ne r.ch 9 1 rfl rfl (by decide))]
    exact State.flag_set_self _
  · rw [openShown, State.flag_set_ne _ (mtChStat_ne r.ch 9 8 rfl rfl (by decide)), State.flag_set_ne _ (mtChStat_ne r.ch 1 8 rfl rfl (by decide))]
    exact (State.flag_congr (onlyRegs_mtOnset s r true _ hcounts)).trans (State.flag_set_self _)

theorem onlyRegs_openShown (s : State) (r : MtRun) : onlyRegs s (openShown s r) [Reg.MT_CH_STAT_OPEN r.ch,
    Reg.MT_CH_STAT_OPEN_SEEN r.ch, Reg.MT_CH_STAT_OR_SEEN r.ch, Reg.MT_CNT_OR_EVENTS, Reg.MT_CNT_OPEN_EVENTS] := by
  have honset : onlyRegs s (mtOnset s r true) [Reg.MT_CH_STAT_OPEN r.ch, Reg.MT_CH_STAT_OPEN_SEEN r.ch,
      Reg.MT_CH_STAT_OR_SEEN r.ch, Reg.MT_CNT_OR_EVENTS, Reg.MT_CNT_OPEN_EVENTS] :=
    onlyRegs_trans (onlyRegs_mono (onlyRegs_wr s (Reg.MT_CH_STAT_OR_SEEN r.ch) 1) (by simp))
      (onlyRegs_mono (onlyRegs_mtOnset s r true) (by simp))
  exact onlyRegs_wr_of_mem (onlyRegs_wr_of_mem (t := { mtOnset s r true with mt := _ }) honset (by simp) 1) (by simp) 1

/-! ## The end of a check slot (R133) -/

/-- The check slot is over, and its grant is on its way back. -/
def checkOver (s : State) : State := (showMt { s with mt := { s.mt with checkAt := none } } 0 0).release 1 0x60 0

section
variable {s : State} {t0 : Nat} {z0 a0 z1 a1 : Int} (hcheck : s.mt.checkAt = some t0) (htime : t0 + 1440 * cclkMs ≤ s.now)
include hcheck htime

theorem mtCheckEnd_pass (hz0 : mtZeroOk 0 z0 = true) (hz1 : mtZeroOk 1 z1 = true) (hg0 : s.mtGainOk 0 z0 a0 = true)
    (hg1 : s.mtGainOk 1 z1 a1 = true) : mtCheckEnd s z0 a0 z1 a1 = checkOver s := by
  simp [mtCheckEnd, checkOver, hcheck, Nat.not_lt.2 htime, hz0, hz1, hg0, hg1]

theorem mtCheckEnd_fail
    (h : mtZeroOk 0 z0 = false ∨ mtZeroOk 1 z1 = false ∨ s.mtGainOk 0 z0 a0 = false ∨ s.mtGainOk 1 z1 a1 = false) :
    ∃ p, mtCheckEnd s z0 a0 z1 a1 = ((checkOver s).set Reg.MT_CARD_STAT_CHECK_FAIL).bark 0x40 0x4004 true p := by
  have hbad : ¬ ((mtZeroOk 0 z0 && mtZeroOk 1 z1) && (s.mtGainOk 0 z0 a0 && s.mtGainOk 1 z1 a1)) = true := by
    rcases h with h | h | h | h <;> simp [h]
  refine ⟨[b2n (mtZeroOk 0 z0 && mtZeroOk 1 z1), b2n (s.mtGainOk 0 z0 a0 && s.mtGainOk 1 z1 a1)], ?_⟩
  unfold mtCheckEnd
  rw [hcheck]
  dsimp only
  rw [if_neg (Nat.not_lt.2 htime), if_neg hbad]
  rfl

end

/-! ## Urgent reads (R135, R137) -/

@[simp] theorem mtUrgentRefuse_begin (s : State) (h : CmdHdr) (ch addr : Nat) :
    mtUrgentRefuse (s.begin h) ch addr = mtUrgentRefuse s ch addr := by simp [mtUrgentRefuse]

/-- A read that is turned away barks only where the eight places are taken. -/
theorem mtUrgentCmd_refused {s : State} {ch addr : Nat} {st : Status} (h : CmdHdr) (href : mtUrgentRefuse s ch addr = some st)
    (hquiet : st ≠ .badParam ∨ 32 ≤ ch) : mtUrgentCmd s h ch addr = (s.begin h).refuse h st := by
  have hno : ¬ (st = .badParam && ch < 32 && addrOk addr 32 : Bool) = true := by
    rcases hquiet with hst | hch
    · simp [hst]
    · simp [Nat.not_lt.2 hch]
  unfold mtUrgentCmd
  dsimp only
  rw [mtUrgentRefuse_begin, href]
  dsimp only
  rw [if_neg hno]

/-- A read that is taken waits behind those that came before it. -/
def urgentQueued (s : State) (h : CmdHdr) (ch addr : Nat) : State :=
  ({ s.begin h with mt := { s.mt with urgents := s.mt.urgents ++ [(h, ch, addr)] } }).wr Reg.MT_SCAN_STAT_URGENT_PENDING
    (s.mt.urgents.length + 1)

theorem mtUrgentCmd_taken {s : State} {ch addr : Nat} (h : CmdHdr) (htake : mtUrgentRefuse s ch addr = none) :
    mtUrgentCmd s h ch addr = urgentQueued s h ch addr := by
  simp [mtUrgentCmd, urgentQueued, htake]

/-! ## The mask and the latched result (R130, R413) -/

theorem mtMaskWrite_frame (s : State) (mask : Nat) :
    mtMaskWrite s mask = { s with regs := (mtMaskWrite s mask).regs, pw := (mtMaskWrite s mask).pw } := by
  rw [mtMaskWrite, mtAsk_frame]
  rfl

theorem onlyRegs_mtMaskWrite (s : State) (mask : Nat) :
    onlyRegs s (mtMaskWrite s mask) [Reg.MT_SCAN_STAT_PERIOD, Reg.MT_SCAN_MASK_MASK] :=
  onlyRegs_of_rd (onlyRegs_snoc (onlyRegs_wr s Reg.MT_SCAN_MASK_MASK mask) Reg.MT_SCAN_STAT_PERIOD _)
    (mtAsk_rd _)

theorem rd_mtMaskWrite (s : State) (mask : Nat) : (mtMaskWrite s mask).rd Reg.MT_SCAN_MASK_MASK = mask % 2 ^ 32 := by
  rw [mtMaskWrite, mtAsk_rd, rd_showPeriod_ne _ (by decide)]
  exact State.rd_wr_self _ _ _

theorem unsigned_lt (w : Nat) (i : Int) : unsigned w i < 2 ^ w := by
  have hpos : 0 < 2 ^ w := Nat.two_pow_pos w
  unfold unsigned
  omega

/-- Fields of one element of MT_LAST have different bits. -/
theorem mtLast_ne {j k : Nat} (c m n : Nat) (hj : j = 8 * (0x68400 + 32 * c) + m) (hk : k = 8 * (0x68400 + 32 * c) + n) (h : m ≠ n) : j ≠ k := by
  omega

theorem mtLatch_reads (s : State) (c : Nat) :
    (mtLatch s c).rd (Reg.MT_LAST_VALUE c) = unsigned 64 (s.mt.results.get {} c).value ∧
    (mtLatch s c).rd (Reg.MT_LAST_BN c) = (s.mt.results.get {} c).bn % 2 ^ 64 ∧
    (mtLatch s c).rd (Reg.MT_LAST_FLAGS c) = (s.mt.results.get {} c).flags % 2 ^ 8 := by
  refine ⟨?_, ?_, State.rd_wr_self _ _ _⟩
  · rw [mtLatch, State.rd_wr_ne _ _ (mtLast_ne c 128 0 rfl rfl (by decide)), State.rd_wr_ne _ _ (mtLast_ne c 64 0 rfl rfl (by decide)),
      State.rd_wr_self]
    exact Nat.mod_eq_of_lt (unsigned_lt 64 _)
  · rw [mtLatch, State.rd_wr_ne _ _ (mtLast_ne c 128 64 rfl rfl (by decide))]
    exact State.rd_wr_self _ _ _

theorem onlyRegs_mtLatch (s : State) (c : Nat) :
    onlyRegs s (mtLatch s c) [Reg.MT_LAST_FLAGS c, Reg.MT_LAST_BN c, Reg.MT_LAST_VALUE c] :=
  onlyRegs_snoc (onlyRegs_snoc (onlyRegs_wr s (Reg.MT_LAST_VALUE c) _) (Reg.MT_LAST_BN c) _) _ _

end Sys2Proof.Machine

namespace Sys2Proof
open Sys2Proof.Machine

/-! ## The commands -/

section
variable {s : State} (hrun : s.mt.run = none) (hcheck : s.mt.checkAt = none) (hsampling : s.sampling = true)
include hrun hcheck hsampling

theorem exec_mtChannelStart_channel (hurgents : s.mt.urgents = []) (hends : s.scanEnds = false) {c : Nat} (hnext : s.nextScan = some c)
    (hc : c < 32) : ∃ t, exec .mtChannelStart s = .next t ∧ (∃ r, t.mt.run = some r ∧ r.ch = c ∧ r.start = s.now ∧ r.phase = 0 ∧
      r.converting = false ∧ r.urgent = none) ∧ t.mt.lastCh = some c ∧ t.rd Reg.MT_SCAN_STAT_CH = c ∧ t.rd Reg.MT_SCAN_STAT_PHASE = 1 := by
  have hnext' : (showPeriod s).nextScan = some c := (nextScan_showPeriod s).trans hnext
  refine answer_of ?_
  rw [mtChannelStart_scan hrun hcheck hsampling hurgents hends, mtScanNext_channel hnext', State.keepQueue_mt, State.keepQueue_rd,
    State.keepQueue_rd, mtAsk_mt, mtAsk_rd, mtAsk_rd]
  refine ⟨⟨_, rfl, rfl, rfl, rfl, rfl, rfl⟩, rfl, ?_, rd_showMt_phase _ _ 1⟩
  exact (rd_showMt_ch _ _ _).trans (Nat.mod_eq_of_lt hc)

theorem exec_mtChannelStart_empty (hurgents : s.mt.urgents = []) (hends : s.scanEnds = false) (hnext : s.nextScan = none)
    (hempty : s.mt.empty = false) (hmask : s.rd Reg.MT_SCAN_MASK_MASK = 0) : ∃ t, exec .mtChannelStart s = .next t ∧ t.mt.empty = true ∧
      t.mt.run = none ∧ barks s t 0x40 0x4008 ∧ t = { s with regs := t.regs, mt := t.mt, bq := t.bq } := by
  have hnext' : (showPeriod s).nextScan = none := (nextScan_showPeriod s).trans hnext
  have hmask' : (showPeriod s).rd Reg.MT_SCAN_MASK_MASK = 0 := (rd_showPeriod_ne s (by decide)).trans hmask
  refine answer_of ?_
  rw [mtChannelStart_scan hrun hcheck hsampling hurgents hends, mtScanNext_empty hnext' hempty hmask']
  simp only [barks_keepQueue]
  refine ⟨rfl, hrun, barks_bark s _ _ _ _ _ rfl rfl, ?_⟩
  rw [bark_frame, mtIdleEmpty, showMt_frame]
  rfl

theorem exec_mtChannelStart_masked (hurgents : s.mt.urgents = []) (hends : s.scanEnds = false) (hnext : s.nextScan = none)
    (hmask : s.rd Reg.MT_SCAN_MASK_MASK ≠ 0) : ∃ t, exec .mtChannelStart s = .next t ∧ t.mt.run = none ∧
      t = { s with regs := t.regs, mt := t.mt } := by
  have hnext' : (showPeriod s).nextScan = none := (nextScan_showPeriod s).trans hnext
  have hmask' : (showPeriod s).rd Reg.MT_SCAN_MASK_MASK ≠ 0 := by rwa [rd_showPeriod_ne s (by decide)]
  refine answer_of ?_
  rw [mtChannelStart_scan hrun hcheck hsampling hurgents hends, mtScanNext_masked hnext' hmask']
  refine ⟨hrun, ?_⟩
  rw [mtIdle, showMt_frame]
  rfl

theorem exec_mtChannelStart_check (hurgents : s.mt.urgents = []) (hends : s.scanEnds = true) (hevery : s.rd Reg.MT_CAL_CFG_EVERY ≠ 0)
    (hdue : s.rd Reg.MT_CAL_CFG_EVERY ≤ s.mt.scans + 1) (hup : s.mtUp = true) (hgrant : s.hasGrant 1 0x60 = true) :
    ∃ t, exec .mtChannelStart s = .next t ∧ t.mt.checkAt = some s.now ∧ t.mt.scans = 0 ∧ t.mt.run = none ∧
      t.rd Reg.MT_SCAN_STAT_PHASE = 3 ∧ t = { s with regs := t.regs, mt := t.mt } := by
  refine answer_of ?_
  rw [mtChannelStart_check hrun hcheck hsampling hurgents hends hevery hdue hup hgrant]
  simp only [State.keepQueue_rd]
  refine ⟨rfl, rfl, hrun, rd_showMt_phase _ _ 3, ?_⟩
  rw [mtCheckBegin, showMt_frame]
  rfl

theorem exec_mtChannelStart_urgent {h : CmdHdr} {c a : Nat} {rest : List (CmdHdr × Nat × Nat)} (hurgents : s.mt.urgents = (h, c, a) :: rest)
    (hstandby : (s.slot 19).standby = none) : ∃ t, exec .mtChannelStart s = .next t ∧ t.mt.urgents = rest ∧
      (∃ r, t.mt.run = some r ∧ r.ch = c ∧ r.urgent = some (h, a)) ∧ t.rd Reg.MT_SCAN_STAT_PHASE = 4 ∧
      t = { s with regs := t.regs, mt := t.mt } := by
  refine answer_of ?_
  rw [mtChannelStart_urgent hrun hcheck hsampling hurgents hstandby]
  simp only [State.keepQueue_rd]
  refine ⟨rfl, ⟨_, rfl, rfl, rfl⟩, rd_showMt_phase _ _ 4, ?_⟩
  rw [mtBegin, showMt_frame]
  rfl

end

section
variable {s : State} {r : MtRun} (hrun : s.mt.run = some r)
include hrun

theorem exec_mtPhaseEnd_settled (hsettles : r.converting = false) (hscan : r.urgent = none) (v : Int) (cm : Bool) :
    ∃ t, exec (.mtPhaseEnd v cm) s = .next t ∧ t.mt.run = some { r with converting := true } ∧ t.rd Reg.MT_SCAN_STAT_PHASE = 2 ∧
      t = { s with regs := t.regs, mt := t.mt } ∧ onlyRegs s t [Reg.MT_SCAN_STAT_PHASE] := by
  refine answer_of ?_
  rw [mtPhaseEnd_settled hrun hsettles hscan]
  exact ⟨rfl, State.rd_wr_self _ Reg.MT_SCAN_STAT_PHASE 2, rfl, onlyRegs_wr s _ 2⟩

theorem exec_mtPhaseEnd_result (hconverts : r.converting = true) (hmode : r.mode ≠ 1) (hscan : r.urgent = none) (v : Int) (cm : Bool) :
    ∃ t, exec (.mtPhaseEnd v cm) s = .next t ∧ t.mt.run = none ∧ t.rd Reg.MT_SCAN_STAT_PHASE = 0 := by
  obtain ⟨u, hend⟩ := mtPhaseEnd_result hrun hconverts hmode v cm
  obtain ⟨w, hresult, hidle⟩ := mtResult_scan u (r := r.measured v cm) hscan
  refine answer_of ?_
  rw [hend, hresult]
  simp only [State.keepQueue_rd]
  exact ⟨hidle, rd_showMt_phase _ _ 0⟩

theorem exec_mtPhaseEnd_valid {v : Int} (hconverts : r.converting = true) (hmode : r.mode ≠ 1) (hscan : r.urgent = none) (hvals : r.vals = [])
    (hovr : r.ovr = false) (hcm : r.cm = false) (hopen : r.open_ = false) (hup : s.mtUp = true) (hlo : -mtFull r.range ≤ v)
    (hhi : v ≤ mtFull r.range) : ∃ t, exec (.mtPhaseEnd v false) s = .next t ∧ t.mt.run = none ∧
      (t.mt.results.get {} r.ch).value = satS 64 (rne (v * (2 ^ 40 : Nat)) realOne) ∧ (t.mt.results.get {} r.ch).flags = fVALID ∧
      (t.mt.results.get {} r.ch).bn = r.stamp / cclkBeat ∧ t.flag (Reg.MT_CH_STAT_OVERRANGE r.ch) = false ∧ t.bq = s.bq := by
  obtain ⟨hkept, hmark⟩ := measured_inRange hlo hhi false
  have hone : (r.measured v false).vals = [v] := by rw [hkept, hvals]; rfl
  have hnocm : (r.measured v false).cm = false := by rw [MtRun.measured, hcm]; rfl
  obtain ⟨hidle, hresult⟩ := resultKept_mt s (r.measured v false) v
  refine answer_of ?_
  rw [mtPhaseEnd_inRange hlo hhi hrun hconverts hmode,
    mtResult_valid (r := r.measured v false) hup hscan hmode hone (hmark.trans hovr) hopen hnocm]
  simp only [State.keepQueue_mt, State.keepQueue_bq, State.keepQueue_flag, showMt_mt, showMt_bq]
  exact ⟨hidle, congrArg MtRes.value hresult, congrArg MtRes.flags hresult, congrArg MtRes.bn hresult, resultKept_overrange _ _ _ _,
    resultKept_bq _ _ _⟩

theorem exec_mtOpen_shown (hmode : r.mode = 1) (hconverts : r.converting = true) (hup : s.mtUp = true) : ∃ t, exec .mtOpen s = .next t ∧
    t.mt.run = some { r with open_ := true } ∧ t.flag (Reg.MT_CH_STAT_OPEN r.ch) = true ∧ t.flag (Reg.MT_CH_STAT_OPEN_SEEN r.ch) = true ∧
    t.flag (Reg.MT_CH_STAT_OR_SEEN r.ch) = true ∧ t = { s with regs := t.regs, mt := t.mt, bq := t.bq } ∧
    onlyRegs s t [Reg.MT_CH_STAT_OPEN r.ch, Reg.MT_CH_STAT_OPEN_SEEN r.ch, Reg.MT_CH_STAT_OR_SEEN r.ch, Reg.MT_CNT_OR_EVENTS,
      Reg.MT_CNT_OPEN_EVENTS] := by
  obtain ⟨hopen, hseen, hor⟩ := openShown_flags s r
  refine answer_of ?_
  rw [mtOpen_shown hrun hmode hconverts hup]
  simp only [State.keepQueue_mt, State.keepQueue_flag, State.barkEvery_mt, State.barkEvery_flag]
  refine ⟨rfl, hopen, hseen, hor, ?_, onlyRegs_of_rd (onlyRegs_openShown s r) fun f => State.barkEvery_rd _ _ _ _ _ _ _ f⟩
  rw [barkEvery_frame, openShown_frame]
  rfl

end

section
variable {s : State} {t0 : Nat} {z0 a0 z1 a1 : Int} (hcheck : s.mt.checkAt = some t0) (htime : t0 + 1440 * cclkMs ≤ s.now)
include hcheck htime

theorem exec_mtCheckSlotEnd_pass (hz0 : mtZeroOk 0 z0 = true) (hz1 : mtZeroOk 1 z1 = true) (hg0 : s.mtGainOk 0 z0 a0 = true)
    (hg1 : s.mtGainOk 1 z1 a1 = true) : ∃ t, exec (.mtCheckSlotEnd z0 a0 z1 a1) s = .next t ∧ t.mt.checkAt = none ∧
      t.rd Reg.MT_CARD_STAT_CHECK_FAIL = s.rd Reg.MT_CARD_STAT_CHECK_FAIL ∧ t = { s with regs := t.regs, mt := t.mt, pw := t.pw } := by
  refine answer_of ?_
  rw [mtCheckEnd_pass hcheck htime hz0 hz1 hg0 hg1]
  simp only [State.keepQueue_rd]
  refine ⟨rfl, rd_showMt_ne (.inl (by decide)), ?_⟩
  rw [checkOver, showMt_frame]
  rfl

theorem exec_mtCheckSlotEnd_fail
    (h : mtZeroOk 0 z0 = false ∨ mtZeroOk 1 z1 = false ∨ s.mtGainOk 0 z0 a0 = false ∨ s.mtGainOk 1 z1 a1 = false) :
    ∃ t, exec (.mtCheckSlotEnd z0 a0 z1 a1) s = .next t ∧ t.mt.checkAt = none ∧ t.flag Reg.MT_CARD_STAT_CHECK_FAIL = true ∧
      barks s t 0x40 0x4004 ∧ t = { s with regs := t.regs, mt := t.mt, pw := t.pw, bq := t.bq } := by
  obtain ⟨p, hfail⟩ := mtCheckEnd_fail hcheck htime h
  refine answer_of ?_
  rw [hfail]
  simp only [State.keepQueue_flag, barks_keepQueue]
  refine ⟨rfl, State.flag_set_self (checkOver s) (f := Reg.MT_CARD_STAT_CHECK_FAIL), barks_bark s _ _ _ _ _ rfl rfl, ?_⟩
  rw [bark_frame, checkOver, showMt_frame]
  rfl

end

section
variable {s : State} {h : CmdHdr} {ch addr : Nat}

theorem exec_mtUrgentRead_refused {st : Status} (hring : byRing s h) (href : mtUrgentRefuse s ch addr = some st)
    (hquiet : st ≠ .badParam ∨ 32 ≤ ch) : ∃ t, exec (.mtUrgentRead h ch addr) s = .next t ∧ settled t h ∧ posts s t h st := by
  refine answer_of ?_
  rw [mtUrgentCmd_refused h href hquiet]
  exact ⟨refuse_settled _ h st, begin_refuse_posts s h st hring⟩

theorem exec_mtUrgentRead_taken (htake : mtUrgentRefuse s ch addr = none) (hroom : s.mt.urgents.length < 8) :
    ∃ t, exec (.mtUrgentRead h ch addr) s = .next t ∧ carried t h ∧ t.mt.urgents = s.mt.urgents ++ [(h, ch, addr)] ∧
      t.rd Reg.MT_SCAN_STAT_URGENT_PENDING = s.mt.urgents.length + 1 ∧ t = { s with regs := t.regs, mt := t.mt, hp := t.hp } ∧
      onlyRegs s t [Reg.MT_SCAN_STAT_URGENT_PENDING] := by
  have hpending : (urgentQueued s h ch addr).rd Reg.MT_SCAN_STAT_URGENT_PENDING = (s.mt.urgents.length + 1) % 2 ^ 4 := State.rd_wr_self _ _ _
  refine answer_of ?_
  rw [mtUrgentCmd_taken h htake]
  refine ⟨begin_carried s h, rfl, hpending.trans (Nat.mod_eq_of_lt (by omega)), ?_, ?_⟩
  · rw [urgentQueued, begin_frame]
    rfl
  · exact fun f hf => (onlyRegs_wr _ _ _ f hf).trans (s.begin_rd h f)

end

theorem exec_mtScanMaskWrite_taken {s : State} {src : WrSrc} (mask : Nat) (htakes : src = .cfg ∨ s.modeTakes .MT_SCAN_MASK = true) :
    ∃ t, exec (.mtScanMaskWrite src mask) s = .next t ∧ t.rd Reg.MT_SCAN_MASK_MASK = mask % 2 ^ 32 ∧
      t = { s with regs := t.regs, pw := t.pw, kn := t.kn } ∧ onlyRegs s t [Reg.MT_SCAN_MASK_MASK, Reg.MT_SCAN_STAT_PERIOD] := by
  refine answer_of ?_
  rw [if_pos (by simpa using htakes)]
  refine ⟨?_, ?_, onlyRegs_of_rd (onlyRegs_mono (onlyRegs_mtMaskWrite s mask) (by simp)) fun g => State.journalW_rd _ _ _ _ _ _ g⟩
  · rw [State.keepQueue_rd, State.journalW_rd, rd_mtMaskWrite]
  · rw [journalW_frame, mtMaskWrite_frame]
    rfl

theorem exec_mtLastLatch_reads (s : State) {c : Nat} (hc : c < 32) : ∃ t, exec (.mtLastLatch c) s = .next t ∧
    t.rd (Reg.MT_LAST_VALUE c) = unsigned 64 (s.mt.results.get {} c).value ∧
    t.rd (Reg.MT_LAST_BN c) = (s.mt.results.get {} c).bn % 2 ^ 64 ∧ t.rd (Reg.MT_LAST_FLAGS c) = (s.mt.results.get {} c).flags % 2 ^ 8 ∧
    t = { s with regs := t.regs } ∧ onlyRegs s t [Reg.MT_LAST_VALUE c, Reg.MT_LAST_BN c, Reg.MT_LAST_FLAGS c] := by
  obtain ⟨hvalue, hbn, hflags⟩ := mtLatch_reads s c
  exact guard_of (decide_eq_true hc) ⟨hvalue, hbn, hflags, rfl, onlyRegs_mono (onlyRegs_mtLatch s c) (by simp)⟩

/-- Settles O17: each clause is what the model's function does in that case, and what the case leaves alone. -/
theorem metrology : Obligations.Metrology := by
  intro s
  refine ⟨fun hrun hcheck hsampling hurgents hends => ⟨?_, ?_, ?_⟩, ?_, ?_, ?_, ?_, ?_, ?_, ?_, ?_, ?_, ?_⟩
  · exact fun c => exec_mtChannelStart_channel hrun hcheck hsampling hurgents hends
  · exact exec_mtChannelStart_empty hrun hcheck hsampling hurgents hends
  · exact exec_mtChannelStart_masked hrun hcheck hsampling hurgents hends
  · exact exec_mtChannelStart_check
  · exact fun h c a rest hrun hcheck hsampling => exec_mtChannelStart_urgent hrun hcheck hsampling
  · exact fun r v cm hrun hsettles hscan => exec_mtPhaseEnd_settled hrun hsettles hscan v cm
  · exact fun r v cm hrun hconverts hmode hscan => exec_mtPhaseEnd_result hrun hconverts hmode hscan v cm
  · exact fun r v hrun => exec_mtPhaseEnd_valid hrun
  · exact fun r => exec_mtOpen_shown
  · exact fun t0 z0 a0 z1 a1 hcheck htime => ⟨exec_mtCheckSlotEnd_pass hcheck htime, exec_mtCheckSlotEnd_fail hcheck htime⟩
  · refine fun h ch addr hring => ⟨fun hbarred => ?_, fun hopen hch => ?_, fun hopen hch haddr hroom hup => ?_,
      fun hopen hch haddr hroom hup => ?_⟩
    · exact exec_mtUrgentRead_refused hring (by simp [mtUrgentRefuse, hbarred]) (.inl (by decide))
    · exact exec_mtUrgentRead_refused hring (by simp [mtUrgentRefuse, hopen, hch]) (.inr hch)
    · refine exec_mtUrgentRead_refused hring ?_ (.inl (by decide))
      simp [mtUrgentRefuse, hopen, Nat.not_le.2 hch, haddr, Nat.not_le.2 hroom, hup]
    · refine exec_mtUrgentRead_taken ?_ hroom
      simp [mtUrgentRefuse, hopen, Nat.not_le.2 hch, haddr, Nat.not_le.2 hroom, hup]
  · exact fun src mask => exec_mtScanMaskWrite_taken mask
  · exact fun c => exec_mtLastLatch_reads s

end Sys2Proof
end

