-- ==== Sys2Proof/Proofs/StreamWork.lean ====
section
/-! PROOFS. Work on a stream (R138, R152 to R168): what closing records, forming slots and passing ticks may change, and what of the stream
itself each of these leaves. -/

namespace Sys2Proof.Machine

/-! ## What work on a stream may change -/

/-- The registers that work on stream `i` writes. -/
def streamRegs (i : Nat) : List Fld :=
  [Reg.RD_STREAM_STAT_STATE i, Reg.RD_STREAM_STAT_SEEN i, Reg.RD_STREAM_STAT_LOST i, Reg.RD_CNT_GAP_RUNS, Reg.RD_CNT_CAPT_IGNORED,
    Reg.RD_CNT_CURVE_DOMAIN]

/-- The host port without its buffers, and the active curves: no work on a stream reaches them. -/
def State.sansStreams (s : State) : HpSt × Sparse (List Nat) × Sparse Nat := ({ s.hp with bufs := [] }, s.rd_.act, s.rd_.actAt)

/-- A stream without its records and the values that other units read from it. -/
def Stream.sansRecords (x : Stream) : Stream := { x with rcd := none, brk := false, breaks := [], lastValid := [] }

/-- A stream without what its slots leave behind: what remains is its definition, its ticks and its close. -/
def Stream.sansSlots (x : Stream) : Stream :=
  { x.sansRecords with seq := 0, good := 0, began := false, blk := none, bins := [], hist := [], win := none, trigs := [],
                       prevUsed := none, prevFlags := 0, angles := [], tabCloses := [], clamped := false }

/-- From `s` to `t`, work on stream `i` leaves of it what `g` shows. -/
structure StreamWork (g : Stream → Stream) (i : Nat) (s t : State) : Prop where
  own : (t.stream i).map g = (s.stream i).map g
  others : ∀ j, j ≠ i → t.stream j = s.stream j
  beyond : t.sansStreams = s.sansStreams
  regs : onlyRegs s t (streamRegs i)

theorem stream_setStream_self (s : State) (i : Nat) (x : Option Stream) : (s.setStream i x).stream i = x := Sparse.get_put_self _ _ _ _

theorem stream_setStream_ne (s : State) {i j : Nat} (h : j ≠ i) (x : Option Stream) : (s.setStream i x).stream j = s.stream j :=
  Sparse.get_put_ne _ _ _ (Ne.symm h) _

section
variable {g : Stream → Stream} {i : Nat} {s t u : State}

theorem StreamWork.refl (g : Stream → Stream) (i : Nat) (s : State) : StreamWork g i s s := ⟨rfl, fun _ _ => rfl, rfl, onlyRegs_refl s _⟩

theorem StreamWork.trans (h : StreamWork g i s t) (k : StreamWork g i t u) : StreamWork g i s u :=
  ⟨k.own.trans h.own, fun j hj => (k.others j hj).trans (h.others j hj), k.beyond.trans h.beyond, onlyRegs_trans h.regs k.regs⟩

/-- Work that keeps the records' part of a stream keeps what its slots leave. -/
theorem StreamWork.slots (h : StreamWork Stream.sansRecords i s t) : StreamWork Stream.sansSlots i s t := by
  refine ⟨?_, h.others, h.beyond, h.regs⟩
  have hown := congrArg (Option.map Stream.sansSlots) h.own
  rw [Option.map_map, Option.map_map] at hown
  exact hown

theorem StreamWork.foldl {α : Type} {f : State → α → State} (h : ∀ s a, StreamWork g i s (f s a)) (l : List α) (s : State) :
    StreamWork g i s (l.foldl f s) := by
  induction l generalizing s with
  | nil => exact .refl g i s
  | cons a l ih => exact (h s a).trans (ih _)

theorem StreamWork.ite {c : Prop} [Decidable c] (ht : StreamWork g i s t) (hu : StreamWork g i s u) : StreamWork g i s (if c then t else u) := by
  split
  · exact ht
  · exact hu

/-- A change of what is neither a stream nor kept by the work on one. -/
theorem StreamWork.of_same (h : StreamWork g i s t) (hstream : ∀ j, u.stream j = t.stream j := by exact fun _ => rfl)
    (hbeyond : u.sansStreams = t.sansStreams := by rfl) (hregs : ∀ f, u.rd f = t.rd f := by exact fun _ => rfl) : StreamWork g i s u :=
  h.trans ⟨congrArg _ (hstream i), fun j _ => hstream j, hbeyond, fun f _ => hregs f⟩

theorem StreamWork.wr (h : StreamWork g i s t) {f : Fld} (hf : f ∈ streamRegs i) (v : Nat) : StreamWork g i s (t.wr f v) :=
  h.trans ⟨rfl, fun _ _ => rfl, rfl, onlyRegs_wr_of_mem (onlyRegs_refl t _) hf v⟩

theorem StreamWork.bark (h : StreamWork g i s t) (src code : Nat) (w : Bool) (p : List Nat) : StreamWork g i s (t.bark src code w p) := h.of_same

theorem StreamWork.barkEvery (h : StreamWork g i s t) (span elem src code : Nat) (w : Bool) (p : List Nat) :
    StreamWork g i s (t.barkEvery span elem src code w p) := by
  unfold State.barkEvery
  exact .ite h.of_same h

theorem StreamWork.modAxis (h : StreamWork g i s t) (a : Nat) (k : Axis → Axis) : StreamWork g i s (t.modAxis a k) := h.of_same

theorem StreamWork.fresh (h : StreamWork g i s t) : StreamWork g i s t.fresh := h.of_same

/-- The stream takes a state that shows the same. -/
theorem StreamWork.setStream {y : Stream} (h : StreamWork g i s t) (hy : (t.stream i).map g = some (g y)) :
    StreamWork g i s (t.setStream i (some y)) :=
  h.trans ⟨(congrArg _ (stream_setStream_self t i _)).trans hy.symm, fun _ hj => stream_setStream_ne t hj _, rfl, fun _ _ => rfl⟩

theorem StreamWork.modStream {k : Stream → Stream} (h : StreamWork g i s t) (hk : ∀ x, g (k x) = g x) : StreamWork g i s (t.modStream i k) := by
  unfold State.modStream
  split
  · exact h
  · next x hx => exact h.setStream (by rw [hx, hk, Option.map_some])

/-- What `g` shows of the stream after the work, where it showed `x` before. -/
theorem StreamWork.own_eq {x : Stream} (h : StreamWork g i s t) (hx : s.stream i = some x) : ∃ y, t.stream i = some y ∧ g y = g x := by
  have hown := h.own
  rw [hx] at hown
  exact Option.map_eq_some_iff.1 hown

theorem StreamWork.own_none (h : StreamWork g i s t) (hx : s.stream i = none) : t.stream i = none := by
  have hown := h.own
  rw [hx] at hown
  exact Option.map_eq_none_iff.1 hown

end

/-! ## Records (R163 to R168) -/

/-- A formed record in the retention store, where that gives service. -/
def retainRec (s : State) (r : RecOut) : State :=
  if s.retains then { s with rd_ := { s.rd_ with store := s.rd_.store.put [] r.stream (s.rd_.store.get [] r.stream ++ [r]) } } else s

/-- The record in its buffer's queue, its delivery judged in `s`, with the bark of a first backlog. -/
def queueRec (s t : State) (r : RecOut) : State :=
  let now := s.atOnce r.buf r.data.length
  let t := t.modBuf r.buf (fun x => { x with queue := x.queue ++ [{ r with late := !now }], backlog := x.backlog || !now })
  if !now && !(s.sbuf r.buf).backlog then t.bark 6 0x0606 true [r.buf] else t

theorem deliver_lost {s : State} {r : RecOut} (h : (!s.atOnce r.buf r.data.length && !s.retains) = true) : deliver s r =
    ((s.countN (Reg.RD_STREAM_STAT_LOST r.stream) r.n).count Reg.RD_CNT_GAP_RUNS).bark 1 0x0132 true [r.stream, r.seq, r.n] := if_pos h

theorem deliver_kept {s : State} {r : RecOut} (h : ¬ (!s.atOnce r.buf r.data.length && !s.retains) = true) :
    deliver s r = queueRec s (retainRec s r) r ∨
      ∃ dst words, deliver s r = (queueRec s (retainRec s r) r).send 6 dst words := by
  refine (ite_eq_or_eq _ _ _).symm.imp (fun he => (if_neg h).trans he) fun he => ⟨_, _, (if_neg h).trans he⟩

theorem StreamWork.modBuf {g : Stream → Stream} {i : Nat} {s t : State} (h : StreamWork g i s t) (b : Nat) (k : SBuf → SBuf) :
    StreamWork g i s (t.modBuf b k) := h.of_same

theorem StreamWork.send {g : Stream → Stream} {i : Nat} {s t : State} (h : StreamWork g i s t) (type dst : Nat) (words : List Nat) :
    StreamWork g i s (t.send type dst words) := h.of_same

theorem streamWork_retainRec (g : Stream → Stream) (i : Nat) (s : State) (r : RecOut) : StreamWork g i s (retainRec s r) :=
  .ite (StreamWork.refl g i s).of_same (.refl g i s)

/-- A formed record goes into the retention store and the delivery path, or is counted as lost. -/
theorem streamWork_deliver (g : Stream → Stream) {i : Nat} (s : State) {r : RecOut} (hr : r.stream = i) : StreamWork g i s (deliver s r) := by
  subst hr
  by_cases h : (!s.atOnce r.buf r.data.length && !s.retains) = true
  · rw [deliver_lost h]
    exact (((StreamWork.refl g _ s).wr (by simp [streamRegs]) _).wr (by simp [streamRegs]) _).bark _ _ _ _
  · have hqueue : StreamWork g r.stream s (queueRec s (retainRec s r) r) :=
      .ite (((streamWork_retainRec g _ s r).modBuf _ _).bark _ _ _ _) ((streamWork_retainRec g _ s r).modBuf _ _)
    rcases deliver_kept h with hd | ⟨dst, words, hd⟩
    · rw [hd]
      exact hqueue
    · rw [hd]
      exact hqueue.send 6 dst words

theorem streamWork_closeRec (s : State) (i : Nat) (table capture : Bool) : StreamWork Stream.sansRecords i s (closeRec s i table capture) := by
  unfold closeRec
  split
  · exact .refl _ i s
  · next x hx =>
    split
    · exact .refl _ i s
    · refine .trans ?_ (streamWork_deliver _ _ rfl)
      exact (StreamWork.refl _ i s).setStream (by rw [hx]; rfl)

theorem streamWork_breakRec (s : State) (i : Nat) : StreamWork Stream.sansRecords i s (breakRec s i) :=
  (streamWork_closeRec s i false false).modStream fun _ => rfl

theorem streamWork_breakTo (s : State) (i p : Nat) : StreamWork Stream.sansRecords i s (breakTo s i p) := by
  unfold breakTo
  split
  · exact .refl _ i s
  · exact .ite ((streamWork_breakRec s i).modStream fun _ => rfl) (.refl _ i s)

/-! ## One slot (R163, R165 to R167) -/

/-- The stream after one more slot: the record under way, the mark for the next one, and the last good word. -/
def Stream.withSlot (x : Stream) (r : Option Rec) (b : Bool) (w : Nat) : Stream := { x with rcd := r, brk := b, seq := x.seq + 1, good := w, began := true }

/-- A slot joins a stream between two pieces of work on its records, which leave its number. -/
theorem putSlot_between {s : State} {i : Nat} {x : Stream} (hx : s.stream i = some x) (p : Nat) (slow : Bool) (v : SlotV) :
    ∃ (u : State) (y : Stream) (r : Option Rec) (b : Bool) (w : Nat), StreamWork Stream.sansRecords i s u ∧ u.stream i = some y ∧
      StreamWork Stream.sansRecords i (u.setStream i (some (y.withSlot r b w))) (putSlot s i p slow v) := by
  obtain ⟨x0, hx0, -⟩ := (streamWork_breakTo s i p).own_eq hx
  have hu : StreamWork Stream.sansRecords i s
      (if x0.rcd.all (fun r => r.takes x0.defn v) then breakTo s i p else closeRec (breakTo s i p) i false false) :=
    .ite (streamWork_breakTo s i p) ((streamWork_breakTo s i p).trans (streamWork_closeRec _ i false false))
  obtain ⟨y, hy, -⟩ := hu.own_eq hx
  unfold putSlot
  dsimp only
  rw [hx0]
  dsimp only
  rw [hy, Option.getD_some]
  have hseen {t : State} {n : Nat} : StreamWork Stream.sansRecords i t (t.wr (Reg.RD_STREAM_STAT_SEEN i) n) :=
    (StreamWork.refl _ i t).wr (by simp [streamRegs]) n
  have hbark {t : State} {n : Nat} : StreamWork Stream.sansRecords i t
      (if x0.began then t.wr (Reg.RD_STREAM_STAT_SEEN i) n else (t.wr (Reg.RD_STREAM_STAT_SEEN i) n).bark 1 0x0130 false [i]) :=
    .ite hseen (hseen.bark _ _ _ _)
  exact ⟨_, y, _, _, _, hu, hy, .ite (hbark.trans (streamWork_closeRec _ i false false)) hbark⟩

theorem putSlot_none {s : State} {i : Nat} (hx : s.stream i = none) (p : Nat) (slow : Bool) (v : SlotV) : StreamWork Stream.sansRecords i s (putSlot s i p slow v) := by
  have hnone := (streamWork_breakTo s i p).own_none hx
  unfold putSlot
  dsimp only
  rw [hnone]
  exact streamWork_breakTo s i p

theorem streamWork_putSlot (s : State) (i p : Nat) (slow : Bool) (v : SlotV) : StreamWork Stream.sansSlots i s (putSlot s i p slow v) := by
  cases hx : s.stream i with
  | none => exact (putSlot_none hx p slow v).slots
  | some x =>
    obtain ⟨u, y, r, b, w, hu, hy, hput⟩ := putSlot_between hx p slow v
    exact (hu.slots.setStream (by rw [hy]; rfl)).trans hput.slots

/-- The next slot has the next number. -/
theorem putSlot_next {s : State} {i : Nat} {x : Stream} (hx : s.stream i = some x) (p : Nat) (slow : Bool) (v : SlotV) :
    ∃ y, (putSlot s i p slow v).stream i = some y ∧ y.seq = x.seq + 1 ∧ y.defn = x.defn ∧ y.blk = x.blk ∧ y.tabCloses = x.tabCloses := by
  obtain ⟨u, y, r, b, w, hu, hy, hput⟩ := putSlot_between hx p slow v
  obtain ⟨y', hy', hsame⟩ := hu.own_eq hx
  obtain rfl : y = y' := Option.some.inj (hy.symm.trans hy')
  obtain ⟨z, hz, hnext⟩ := hput.own_eq (stream_setStream_self u i _)
  refine ⟨z, hz, ?_, ?_, ?_, ?_⟩
  · exact (congrArg Stream.seq hnext).trans (congrArg (fun q => q.seq + 1) hsame)
  · exact (congrArg Stream.defn hnext).trans (congrArg (fun q => q.defn) hsame)
  · exact (congrArg Stream.blk hnext).trans (congrArg (fun q => q.blk) hsame)
  · exact (congrArg Stream.tabCloses hnext).trans (congrArg (fun q => q.tabCloses) hsame)

/-! ## The latest slot (R236, R267) -/

/-- A home event touches the motions of axes alone. -/
theorem streamWork_homeEvent (g : Stream → Stream) (i : Nat) (s : State) (want : Homing → Bool) (e : Nat) : StreamWork g i s (homeEvent s want e) := by
  have hself (u : State) : StreamWork g i u u := .refl g i u
  unfold homeEvent
  refine .foldl (fun u a => ?_) _ s
  dsimp only
  split
  · split
    · split
      · exact (hself u).modAxis a _
      · exact (hself u).modAxis a _
    · exact hself u
  all_goals exact hself u

theorem streamWork_noteValue (s : State) (i p : Nat) (w : SlotV) (y : Int) : StreamWork Stream.sansRecords i s (noteValue s i p w y) := by
  unfold noteValue
  split
  · exact .refl _ i s
  · next x hx =>
    have hset (l : List (Nat × Int)) : StreamWork Stream.sansRecords i s (s.setStream i (some { x with lastValid := l })) :=
      (StreamWork.refl _ i s).setStream (by rw [hx]; rfl)
    refine .ite (.refl _ i s) ?_
    dsimp only
    split
    · exact hset _
    · exact (hset _).trans (streamWork_homeEvent _ i _ _ _)

theorem streamWork_noteSlot (s : State) (i p : Nat) (w : SlotV) (y : Int) : StreamWork Stream.sansRecords i s (noteSlot s i p w y) := by
  have hlatest (l : Sparse Latest) : StreamWork Stream.sansRecords i s { s with rd_ := { s.rd_ with latest := l } } := (StreamWork.refl _ i s).of_same
  exact (hlatest _).trans (streamWork_noteValue _ i p w y)

/-! ## Whole records: tables and windows (R154 to R157) -/

theorem streamWork_countSlots (s : State) (i : Nat) (ws : List SlotV) : StreamWork Stream.sansSlots i s (countSlots s i ws) := by
  unfold countSlots
  split
  · exact .refl _ i s
  · next x hx =>
    have hset (y : Stream) (n : Nat) (hy : y.sansSlots = x.sansSlots := by rfl) :
        StreamWork Stream.sansSlots i s ((s.setStream i (some y)).wr (Reg.RD_STREAM_STAT_SEEN i) n) :=
      ((StreamWork.refl _ i s).setStream (by rw [hx, hy]; rfl)).wr (by simp [streamRegs]) n
    exact .ite ((hset _ _).bark _ _ _ _) (hset _ _)

theorem streamWork_wholeRec (s : State) (i p : Nat) (ws : List SlotV) (table : Bool) : StreamWork Stream.sansSlots i s (wholeRec s i p ws table) := by
  have hbreak := (streamWork_breakTo s i p).slots
  unfold wholeRec
  dsimp only
  split
  · exact hbreak
  · next x hx =>
    refine .ite hbreak ?_
    exact ((hbreak.setStream (by rw [hx]; rfl)).trans (streamWork_countSlots _ i ws)).trans (streamWork_closeRec _ i _ _).slots

theorem streamWork_closeTable (s : State) (i e at_ : Nat) : StreamWork Stream.sansSlots i s (closeTable s i e at_) := by
  unfold closeTable
  split
  · exact .refl _ i s
  · next x hx => exact ((StreamWork.refl _ i s).setStream (by rw [hx]; rfl)).trans (streamWork_wholeRec _ i e _ true)

theorem streamWork_windowRecs (i : Nat) (bs : List Nat) (s : State) (ws : List (Nat × SlotV)) : StreamWork Stream.sansSlots i s (windowRecs s i bs ws) := by
  induction bs generalizing s ws with
  | nil =>
    unfold windowRecs
    split
    · exact .refl _ i s
    · exact streamWork_wholeRec _ i _ _ _
  | cons b bs ih =>
    unfold windowRecs
    dsimp only
    split
    · exact ih s _
    · exact (streamWork_wholeRec s i _ _ _).trans (ih _ _)

theorem streamWork_closeWindow (s : State) (i : Nat) : StreamWork Stream.sansSlots i s (closeWindow s i) := by
  unfold closeWindow
  split
  · exact .refl _ i s
  · next x hx =>
    split
    · exact .refl _ i s
    · exact ((StreamWork.refl _ i s).setStream (by rw [hx]; rfl)).trans (streamWork_windowRecs i _ _ _)

theorem streamWork_captIgnored (g : Stream → Stream) (s : State) (i : Nat) : StreamWork g i s (captIgnored s i) :=
  ((StreamWork.refl g i s).wr (by simp [streamRegs]) _).barkEvery _ _ _ _ _ _

theorem streamWork_captureWindow {s : State} {i : Nat} {x : Stream} (hx : (s.stream i).map Stream.sansSlots = some x.sansSlots) (p : Nat) (w : SlotV)
    (n : Nat) : StreamWork Stream.sansSlots i s (captureWindow s i x p w n) := by
  have hset (y : Stream) (hy : y.sansSlots = x.sansSlots := by rfl) : StreamWork Stream.sansSlots i s (s.setStream i (some y)) :=
    (StreamWork.refl _ i s).setStream (by rw [hx, hy])
  have hignored {t : State} (k : Nat) (h : StreamWork Stream.sansSlots i s t) :
      StreamWork Stream.sansSlots i s ((List.range k).foldl (fun u _ => captIgnored u i) t) :=
    h.trans (.foldl (fun u _ => streamWork_captIgnored _ u i) _ t)
  have hclose (c : Prop) [Decidable c] {t : State} (h : StreamWork Stream.sansSlots i s t) :
      StreamWork Stream.sansSlots i s (if c then closeWindow t i else t) := .ite (h.trans (streamWork_closeWindow t i)) h
  unfold captureWindow
  dsimp only
  split
  · exact .ite (hset _) (hclose _ (.ite (hset _) (hignored _ (hset _))))
  · exact hclose _ (.ite (hignored _ (hset _)) (hset _))

/-! ## Blocks, and what waits for ticks (R152 to R155, R43) -/

theorem streamWork_emitBlock (s : State) (i : Nat) : StreamWork Stream.sansSlots i s (emitBlock s i) := by
  unfold emitBlock
  split
  · exact .refl _ i s
  · next x hx =>
    split
    · exact .refl _ i s
    · exact (((StreamWork.refl _ i s).setStream (by rw [hx]; rfl)).trans (streamWork_putSlot _ i _ _ _)).trans (streamWork_noteSlot _ i _ _ _).slots

theorem streamWork_passTables {s : State} {i : Nat} {x : Stream} (hx : s.stream i = some x) : StreamWork Stream.sansSlots i s (passTables s i x) :=
  ((StreamWork.refl _ i s).setStream (by rw [hx]; rfl)).trans (.foldl (fun u (q : Nat × Nat) => streamWork_closeTable u i q.1 q.2) _ _)

theorem streamWork_passBreaks (w s : State) (i : Nat) : StreamWork Stream.sansRecords i s (passBreaks w s i) := by
  unfold passBreaks
  split
  · exact .refl _ i s
  · refine .ite ?_ (.refl _ i s)
    split
    · exact streamWork_breakTo s i _
    · exact .refl _ i s

theorem streamWork_streamSettle (s : State) (i : Nat) : StreamWork Stream.sansSlots i s (streamSettle s i) := by
  cases hx : s.stream i with
  | none =>
    unfold streamSettle
    rw [hx]
    exact .refl _ i s
  | some x =>
    rw [streamSettle_eq hx]
    refine .trans ?_ (streamWork_passBreaks s _ i).slots
    exact .ite ((streamWork_passTables hx).trans (streamWork_emitBlock _ i)) (streamWork_passTables hx)

/-- Where no table and no block waits, a settled stream has at most closed its record. -/
theorem streamSettle_records {s : State} {i : Nat} {x : Stream} (hx : s.stream i = some x) (htabs : x.tabCloses = []) (hblk : x.blk = none) :
    StreamWork Stream.sansRecords i s (streamSettle s i) := by
  have hnone : x.blk.any (fun b => x.tick.all (fun k => (x.blockOf k).1 ≠ b.at_)) = false := by rw [hblk]; rfl
  rw [streamSettle_eq hx, hnone, if_neg Bool.false_ne_true]
  refine .trans ?_ (streamWork_passBreaks s _ i)
  have hsame : ({ x with tabCloses := [] } : Stream) = x := by rw [← htabs]
  rw [passTables, htabs, List.filter_nil, List.filter_nil, hsame]
  exact (StreamWork.refl _ i s).setStream (by rw [hx]; rfl)

/-! ## A sample (R138, R144 to R150) -/

/-- The curve stage marks whether the value was clamped. -/
theorem linearise_marks (s : State) (i : Nat) (x : Stream) (e : Nat) (v : SVal) :
    ∃ c, StreamWork Stream.sansRecords i (s.setStream i (some { x with clamped := c })) (linearise s i x e v).1 := by
  unfold linearise
  split
  · exact ⟨false, .refl _ i _⟩
  · refine ⟨(s.curve x.defn x.openAt e (rnd64 v.r 1)).2.1, ?_⟩
    dsimp only
    have hself := StreamWork.refl Stream.sansRecords i
    exact (StreamWork.ite (((hself _).wr (by simp [streamRegs]) _).barkEvery _ _ _ _ _ _) (hself _)).fresh

theorem streamWork_reduceSample (s : State) (i : Nat) (full : Int) (k : Tick) (v : SVal) : StreamWork Stream.sansSlots i s (reduceSample s i full k v) := by
  unfold reduceSample
  split
  · exact .refl _ i s
  · next x hx =>
    have hset (y : Stream) (hy : y.sansSlots = x.sansSlots := by rfl) : StreamWork Stream.sansSlots i s (s.setStream i (some y)) :=
      (StreamWork.refl _ i s).setStream (by rw [hx, hy]; rfl)
    dsimp only
    refine .ite (hset _) (.ite ?_ ?_)
    · split
      · exact hset _
      · exact hset _
    · refine .trans (.ite ?_ (streamWork_putSlot s i _ _ _)) (streamWork_noteSlot _ i _ _ _).slots
      exact streamWork_captureWindow (by rw [hx]; rfl) _ _ _

end Sys2Proof.Machine
end

