-- ==== Sys2Proof/Proofs/UserCurves.lean ====
section
/-! PROOFS. User curves and the read side of streams (R147 to R149, R413, R414): the data port, what ACTIVATE, DELETE and REVERT do with the
staging and the active copy, the counters' clear bits and the view. -/

namespace Sys2Proof.Machine

/-! ## What the writes of RD_ leave -/

/-- Only registers have changed. -/
def regsAlone (s t : State) : Prop := t = { s with regs := t.regs }

theorem regsAlone_refl (s : State) : regsAlone s s := rfl

theorem regsAlone_trans {s t u : State} (h : regsAlone s t) (k : regsAlone t u) : regsAlone s u := by
  unfold regsAlone at *
  rw [k, h]

theorem regsAlone_wr (s : State) (f : Fld) (v : Nat) : regsAlone s (s.wr f v) := rfl

theorem regsAlone_answer {s t : State} (h : regsAlone s t) : regsAlone s (t.keepQueue s) := by
  unfold regsAlone State.keepQueue at *
  rw [h]

theorem regsAlone_when {s : State} {g : State → State} (hg : ∀ u, regsAlone u (g u)) (b : Bool) : regsAlone s (s.when b g) := by
  cases b
  · exact regsAlone_refl s
  · exact hg s

theorem regsAlone_foldl {α : Type} {g : State → α → State} (hg : ∀ u a, regsAlone u (g u a)) (l : List α) (s : State) : regsAlone s (l.foldl g s) := by
  induction l generalizing s with
  | nil => exact regsAlone_refl s
  | cons a l ih => exact regsAlone_trans (hg s a) (ih _)

theorem regsAlone_clearCnts (s : State) (fs : List Fld) (mask : Nat) : regsAlone s (s.clearCnts fs mask) :=
  regsAlone_foldl (fun _ (p : Fld × Nat) => regsAlone_when (fun w => regsAlone_wr w p.1 0) _) _ s

/-- A journal entry touches the kennel alone. -/
theorem exists_journalB (s : State) (src : WrSrc) (r : RegId) (k i off : Nat) (data : List Nat) :
    ∃ kn, s.journalB src r k i off data = { s with kn := kn } := by
  unfold State.journalB
  split
  · exact ⟨_, rfl⟩
  · exact ⟨s.kn, rfl⟩

/-- A write that is taken acts, and is journalled: what holds of its effect whatever the kennel then holds, holds of the answer. -/
theorem taken_journalled {s : State} {src : WrSrc} {r : RegId} {k i off : Nat} {l : Bool} {data : List Nat} {act : State → State} {P : State → Prop}
    (htakes : s.takes src r k i l = true) (h : ∀ kn, P { act s with pending := s.pending, kn := kn }) :
    ∃ t, answer s (s.write src r k i l (fun t => (act t).journalB src r k i off data)) = .next t ∧ P t := by
  obtain ⟨kn, hkn⟩ := exists_journalB (act s) src r k i off data
  rw [State.write_taken s _ htakes, hkn]
  exact ⟨_, rfl, h kn⟩

/-- Only registers, the reduction pipeline, barks and the kennel have changed. -/
def curvesAlone (s t : State) : Prop := t = { s with regs := t.regs, rd_ := t.rd_, bq := t.bq, kn := t.kn }

theorem curvesAlone_trans {s t u : State} (h : curvesAlone s t) (k : curvesAlone t u) : curvesAlone s u := by
  unfold curvesAlone at *
  rw [k, h]

/-- The queue and the kennel of an answer leave it so. -/
theorem curvesAlone_answer {s t : State} (h : curvesAlone s t) (kn : KnSt) : curvesAlone s { t with pending := s.pending, kn := kn } := by
  unfold curvesAlone at *
  rw [h]

/-! ## The data port (R148, R414) -/

/-- Both words of an entry are written at once: no lower word waits, and the staging copy takes the entry at ADDR. -/
def entryWritten (s : State) (v : Nat) : State :=
  (setStgEntry { s with hold := s.hold.put 0 Reg.RD_CURVE_DATA_DATA.key 0 } v).wr Reg.RD_CURVE_DATA_DATA v

theorem entryWritten_stg (s : State) {v : Nat} (hv : v < 2 ^ 64) :
    Sparse.get 0 (s.rd Reg.RD_CURVE_ADDR_ADDR) (Sparse.get [] s.curveSel (entryWritten s v).rd_.stg) = v := by
  have hstg : (entryWritten s v).rd_.stg = s.rd_.stg.put [] s.curveSel
      (Sparse.put 0 (s.rd Reg.RD_CURVE_ADDR_ADDR) (v % 2 ^ 64) (Sparse.get [] s.curveSel s.rd_.stg)) := rfl
  rw [hstg, Sparse.get_put_self, Sparse.get_put_self, Nat.mod_eq_of_lt hv]

/-- ADDR goes on by one, modulo its ten bits. -/
theorem rd_stepAddr (s : State) : (stepAddr s).rd Reg.RD_CURVE_ADDR_ADDR = (s.rd Reg.RD_CURVE_ADDR_ADDR + 1) % 1024 := State.rd_wr_self s _ _

theorem rd_stepAddr_data (s : State) : (stepAddr s).rd Reg.RD_CURVE_DATA_DATA = s.rd Reg.RD_CURVE_DATA_DATA := State.rd_wr_ne s _ (by decide)

/-! ## Status of the selected curve -/

/-- The staging copy that ACTIVATE judges: the words that N entries use. -/
def stagedWords (s : State) : List Nat :=
  (List.range (curveWords (curveKind s.curveSel) (s.rd Reg.RD_CURVE_SEL_N))).map (fun j => Sparse.get 0 j (s.rd_.stg.get [] s.curveSel))

theorem onlyRegs_showCurve (s : State) : onlyRegs s (showCurve s) [Reg.RD_CURVE_STAT_IN_USE, Reg.RD_CURVE_STAT_ACTIVE] :=
  onlyRegs_snoc (onlyRegs_wr s _ _) Reg.RD_CURVE_STAT_IN_USE _

theorem showCurve_active (s : State) : (showCurve s).flag Reg.RD_CURVE_STAT_ACTIVE = !(s.rd_.act.get [] s.curveSel).isEmpty := by
  rw [showCurve, State.wrB, State.flag_wr_ne _ _ (by decide), State.flag, State.rd_wrB_self]
  cases (s.rd_.act.get [] s.curveSel).isEmpty <;> rfl

theorem flag_showCurve {f : Fld} (s : State) (hf : f.key ∉ [Reg.RD_CURVE_STAT_IN_USE, Reg.RD_CURVE_STAT_ACTIVE].map Fld.key) :
    (showCurve s).flag f = s.flag f := State.flag_congr (onlyRegs_showCurve s f hf)

/-- A refusal shows its reason and REJECT, and leaves the copies. -/
theorem curveReject_shows (s : State) (code : Nat) : (curveReject s code).rd Reg.RD_CURVE_STAT_REASON = code % 8 ∧
    (curveReject s code).flag Reg.RD_CURVE_STAT_REJECT = true ∧ regsAlone s (curveReject s code) ∧
    onlyRegs s (curveReject s code) [Reg.RD_CURVE_STAT_REASON, Reg.RD_CURVE_STAT_REJECT, Reg.RD_CURVE_STAT_ACTIVE, Reg.RD_CURVE_STAT_IN_USE] := by
  refine ⟨?_, ?_, rfl, ?_⟩
  · rw [curveReject, onlyRegs_showCurve _ _ (by decide), State.rd_set_ne _ (by decide)]
    exact State.rd_wr_self _ _ _
  · rw [curveReject, flag_showCurve _ (by decide)]
    exact State.flag_set_self _
  · have hbase : onlyRegs s ((s.wr Reg.RD_CURVE_STAT_REASON code).set Reg.RD_CURVE_STAT_REJECT)
        [Reg.RD_CURVE_STAT_REJECT, Reg.RD_CURVE_STAT_REASON] := onlyRegs_snoc (onlyRegs_wr s _ _) _ _
    exact onlyRegs_trans (onlyRegs_mono hbase (by simp)) (onlyRegs_mono (onlyRegs_showCurve _) (by simp))

/-! ## ACTIVATE (R149) -/

/-- Streams have worked: the registers below their counters, the active curves and the host port's books stand. -/
def streamsOnly (s t : State) : Prop := t.sansStreams = s.sansStreams ∧ ∀ f : Fld, f.key < Reg.RD_CNT_GAP_RUNS.key → t.rd f = s.rd f

theorem streamsOnly_trans {s t u : State} (h : streamsOnly s t) (k : streamsOnly t u) : streamsOnly s u :=
  ⟨k.1.trans h.1, fun f hf => (k.2 f hf).trans (h.2 f hf)⟩

theorem StreamWork.streamsOnly {g : Stream → Stream} {i : Nat} {s t : State} (h : StreamWork g i s t) : streamsOnly s t := by
  refine ⟨h.beyond, fun f hf => h.regs f ?_⟩
  simp only [streamRegs, List.map_cons, List.map_nil, List.mem_cons, List.not_mem_nil, or_false, Reg.RD_STREAM_STAT_STATE, Reg.RD_STREAM_STAT_SEEN,
    Reg.RD_STREAM_STAT_LOST, Reg.RD_CNT_GAP_RUNS, Reg.RD_CNT_CAPT_IGNORED, Reg.RD_CNT_CURVE_DOMAIN] at hf ⊢
  omega

/-- An open stream of `s` that uses curve `c` takes a break at its activation, and settles. -/
def breakStream (s : State) (c : Nat) (u : State) (i : Nat) : State :=
  match s.stream i with
  | some x => if x.defn.curve = c then streamSettle (u.setStream i (some { x with breaks := x.breaks ++ [beatCeil s.now] })) i else u
  | none => u

theorem curveBreak_eq (s : State) (c : Nat) : curveBreak s c = s.openStreams.foldl (breakStream s c) s := rfl

theorem streamsOnly_curveBreak (s : State) (c : Nat) : streamsOnly s (curveBreak s c) := by
  have hsame (u : State) : streamsOnly u u := ⟨rfl, fun _ _ => rfl⟩
  have hstep (u : State) (i : Nat) : streamsOnly u (breakStream s c u i) := by
    unfold breakStream
    split
    · split
      · exact streamsOnly_trans (t := u.setStream i _) ⟨rfl, fun _ _ => rfl⟩ (streamWork_streamSettle _ i).streamsOnly
      · exact hsame u
    · exact hsame u
  rw [curveBreak_eq]
  have hfold (l : List Nat) (u : State) : streamsOnly u (l.foldl (breakStream s c) u) := by
    induction l generalizing u with
    | nil => exact hsame u
    | cons i l ih => exact streamsOnly_trans (hstep u i) (ih _)
  exact hfold _ s

/-- A curve that no open stream names breaks none. -/
theorem curveBreak_unused {s : State} {c : Nat} (h : s.defs.any (fun d => d.curve = c) = false) : curveBreak s c = s := by
  have hstep (u : State) (i : Nat) (hi : i ∈ s.openStreams) : breakStream s c u i = u := by
    unfold breakStream
    split
    · next x hx =>
      have hdef : x.defn ∈ s.defs := List.mem_filterMap.2 ⟨i, hi, by rw [hx]; rfl⟩
      exact if_neg (by simpa using List.any_eq_false.1 h x.defn hdef)
    · rfl
  rw [curveBreak_eq, List.foldl_ext _ (fun u _ => u) s hstep, List.foldl_fixed]

/-- A copy that is free of faults has as many words as its kind needs, and that is at least one. -/
theorem stagedWords_ne_nil {s : State} {c : Nat} {l : List Nat} (h : curveReason c (s.rd Reg.RD_CURVE_SEL_N) l = 0) :
    0 < curveWords (curveKind c) (s.rd Reg.RD_CURVE_SEL_N) := by
  have hn : curveN (curveKind c) (s.rd Reg.RD_CURVE_SEL_N) = true := by
    by_contra hbad
    have hone : curveReason c (s.rd Reg.RD_CURVE_SEL_N) l = 1 := if_pos (by simpa using hbad)
    exact absurd (h.symm.trans hone) (by decide)
  unfold curveN at hn
  unfold curveWords
  split_ifs at hn ⊢ with h3 h4
  · have := (of_decide_eq_true (Bool.and_eq_true_iff.1 hn).1 : 2 ≤ _)
    omega
  · have := (of_decide_eq_true (Bool.and_eq_true_iff.1 hn).1 : 1 ≤ _)
    omega
  all_goals omega

/-- The streams that use the new copy have broken, and DONE stands. -/
def curveTaken (s : State) : State := (curveBreak (takeCurve s s.curveSel (stagedWords s)) s.curveSel).set Reg.RD_CURVE_STAT_DONE

theorem curveActivate_taken {s : State} (h : curveReason s.curveSel (s.rd Reg.RD_CURVE_SEL_N) (stagedWords s) = 0) :
    curveActivate s = showCurve ((curveTaken s).bark 1 0x0134 false [s.curveSel]) := if_neg (not_not.2 h)

theorem curveActivate_refused {s : State} (h : curveReason s.curveSel (s.rd Reg.RD_CURVE_SEL_N) (stagedWords s) ≠ 0) :
    curveActivate s = curveReject s (curveReason s.curveSel (s.rd Reg.RD_CURVE_SEL_N) (stagedWords s)) := if_pos h

theorem curveTaken_work (s : State) : streamsOnly (takeCurve s s.curveSel (stagedWords s)) (curveBreak (takeCurve s s.curveSel (stagedWords s)) s.curveSel) :=
  streamsOnly_curveBreak _ _

/-- The copy that was taken is active from the next beat boundary on, and no other copy has changed. -/
theorem curveTaken_copies (s : State) : (curveTaken s).rd_.act.get [] s.curveSel = stagedWords s ∧
    (curveTaken s).rd_.actAt.get 0 s.curveSel = beatCeil s.now ∧
    ∀ c, c ≠ s.curveSel → (curveTaken s).rd_.act.get [] c = s.rd_.act.get [] c := by
  have hact : (curveTaken s).rd_.act = s.rd_.act.put [] s.curveSel (stagedWords s) := congrArg (fun q => q.2.1) (curveTaken_work s).1
  have hat : (curveTaken s).rd_.actAt = s.rd_.actAt.put 0 s.curveSel (beatCeil s.now) := congrArg (fun q => q.2.2) (curveTaken_work s).1
  rw [hact, hat]
  exact ⟨Sparse.get_put_self _ _ _ _, Sparse.get_put_self _ _ _ _, fun c hc => Sparse.get_put_ne _ _ _ (Ne.symm hc) _⟩

theorem curveTaken_curveSel (s : State) : (curveTaken s).curveSel = s.curveSel := by
  have hsel : (curveTaken s).rd Reg.RD_CURVE_SEL_CURVE = s.rd Reg.RD_CURVE_SEL_CURVE :=
    (State.rd_set_ne _ (by decide)).trans ((curveTaken_work s).2 _ (by decide))
  exact congrArg (max 32) hsel

/-- Where no open stream names the curve, its activation touches the status and the curves alone, and barks. -/
theorem curveTaken_quiet {s : State} (h : s.defs.any (fun d => d.curve = s.curveSel) = false) :
    barks s (showCurve ((curveTaken s).bark 1 0x0134 false [s.curveSel])) 1 0x0134 ∧
    curvesAlone s (showCurve ((curveTaken s).bark 1 0x0134 false [s.curveSel])) ∧
    onlyRegs s (showCurve ((curveTaken s).bark 1 0x0134 false [s.curveSel]))
      [Reg.RD_CURVE_STAT_DONE, Reg.RD_CURVE_STAT_ACTIVE, Reg.RD_CURVE_STAT_IN_USE] := by
  have hquiet : curveTaken s = (takeCurve s s.curveSel (stagedWords s)).set Reg.RD_CURVE_STAT_DONE := by
    rw [curveTaken, curveBreak_unused (s := takeCurve s s.curveSel (stagedWords s)) h]
  have hdone : onlyRegs s (curveTaken s) [Reg.RD_CURVE_STAT_DONE] := hquiet ▸ onlyRegs_wr (takeCurve s s.curveSel (stagedWords s)) _ 1
  have htaken : curvesAlone s (curveTaken s) := hquiet ▸ rfl
  have hstaged : (curveTaken s).bq.staged = s.bq.staged ∧ (curveTaken s).now = s.now := by
    rw [hquiet]
    exact ⟨rfl, rfl⟩
  refine ⟨barks_bark s (curveTaken s) 1 0x0134 false [s.curveSel] hstaged.1 hstaged.2,
    curvesAlone_trans htaken (curvesAlone_trans (t := (curveTaken s).bark 1 0x0134 false [s.curveSel]) rfl rfl), ?_⟩
  refine onlyRegs_trans (t := (curveTaken s).bark 1 0x0134 false [s.curveSel]) (onlyRegs_mono hdone (by simp)) ?_
  exact onlyRegs_mono (onlyRegs_showCurve _) (by simp)

/-! ## DELETE and REVERT (R149) -/

theorem curveDelete_used {s : State} (h : s.defs.any (fun d => d.curve = s.curveSel) = true) : curveDelete s = curveReject s 6 := if_pos h

/-- The curve without its active copy. -/
def curveGone (s : State) : State :=
  { s with rd_ := { s.rd_ with act := s.rd_.act.put [] s.curveSel [], prev := s.rd_.prev.put [] s.curveSel [], actAt := s.rd_.actAt.put 0 s.curveSel 0 } }

theorem curveDelete_unused {s : State} (h : s.defs.any (fun d => d.curve = s.curveSel) = false) : curveDelete s = showCurve (curveGone s) :=
  if_neg (by rw [h]; exact Bool.false_ne_true)

/-- Words put one after the other from key `k` on read back in their places, and the other keys as before. -/
theorem get_put_words (l : List Nat) (k j : Nat) (m : Sparse Nat) :
    Sparse.get 0 j ((l.zipIdx k).foldl (fun (m : Sparse Nat) q => m.put 0 q.2 q.1) m) =
      if j < k then Sparse.get 0 j m else l.getD (j - k) (Sparse.get 0 j m) := by
  induction l generalizing k m with
  | nil => simp
  | cons v l ih =>
    rw [List.zipIdx_cons, List.foldl_cons, ih]
    rcases Nat.lt_trichotomy j k with hlt | rfl | hgt
    · rw [if_pos (by omega), if_pos hlt, Sparse.get_put_ne _ _ _ (by omega)]
    · rw [if_pos (by omega), if_neg (by omega), Sparse.get_put_self, Nat.sub_self, List.getD_cons_zero]
    · rw [if_neg (by omega), if_neg (by omega), Sparse.get_put_ne _ _ _ (by omega), show j - k = j - (k + 1) + 1 by omega, List.getD_cons_succ]

theorem curveRevert_staged (s : State) (j : Nat) :
    Sparse.get 0 j ((curveRevert s).rd_.stg.get [] s.curveSel) = (s.rd_.act.get [] s.curveSel).getD j 0 := by
  have hstg : (curveRevert s).rd_.stg.get [] s.curveSel =
      ((s.rd_.act.get [] s.curveSel).zipIdx).foldl (fun (m : Sparse Nat) q => m.put 0 q.2 q.1) [] := Sparse.get_put_self _ _ _ _
  rw [hstg, get_put_words, if_neg (Nat.not_lt_zero j)]
  rfl

/-! ## Clear bits and the view (R392, R413) -/

/-- LOST of the stream that RD_SEL selects, cleared where its bit is set. -/
def lostCleared (s : State) (clr : Nat) : State := s.when (bit clr 4) fun u => u.clr (Reg.RD_STREAM_STAT_LOST (u.rd Reg.RD_SEL_STREAM))

/-- LOST of every stream, cleared where its bit is set. -/
def allLostCleared (s : State) (clr : Nat) : State :=
  s.when (bit clr 5) fun u => (List.range 1024).foldl (fun w i => w.clr (Reg.RD_STREAM_STAT_LOST i)) u

theorem rdCntClr_eq (s : State) (clr : Nat) : rdCntClr s clr = allLostCleared (lostCleared (s.clearCnts rdCnts clr) clr) clr := rfl

theorem regsAlone_rdCntClr (s : State) (clr : Nat) : regsAlone s (rdCntClr s clr) := by
  have hone (u : State) : regsAlone u (lostCleared u clr) := regsAlone_when (fun w => regsAlone_wr w (Reg.RD_STREAM_STAT_LOST (w.rd Reg.RD_SEL_STREAM)) 0) _
  have hall (u : State) : regsAlone u (allLostCleared u clr) :=
    regsAlone_when (fun w => regsAlone_foldl (fun w i => regsAlone_wr w (Reg.RD_STREAM_STAT_LOST i) 0) _ w) _
  rw [rdCntClr_eq]
  exact regsAlone_trans (regsAlone_clearCnts s rdCnts clr) (regsAlone_trans (hone _) (hall _))

theorem lost_key_ne {f : Fld} (hf : f.key < 8 * 0xE000) (i : Nat) : (Reg.RD_STREAM_STAT_LOST i).key ≠ f.key := by
  simp only [Reg.RD_STREAM_STAT_LOST]
  omega

theorem lost_key_inj (i j : Nat) (h : (Reg.RD_STREAM_STAT_LOST i).key = (Reg.RD_STREAM_STAT_LOST j).key) : i = j := by
  simp only [Reg.RD_STREAM_STAT_LOST] at h
  omega

/-- The clear bits of LOST leave every register below RD_STREAM_STAT. -/
theorem rd_lostCleared {f : Fld} (hf : f.key < 8 * 0xE000) (s : State) (clr : Nat) : (allLostCleared (lostCleared s clr) clr).rd f = s.rd f := by
  have hone (u : State) (i : Nat) : (u.clr (Reg.RD_STREAM_STAT_LOST i)).rd f = u.rd f := State.rd_clr_ne u (lost_key_ne hf i)
  have hall (u : State) : (allLostCleared u clr).rd f = u.rd f := by
    unfold allLostCleared State.when
    split
    · exact foldl_keeps (p := fun w => w.rd f) hone _ u
    · rfl
  rw [hall, lostCleared, State.when]
  split
  · exact hone s _
  · rfl

theorem rd_allLostCleared {clr : Nat} (h : bit clr 5 = true) {i : Nat} (hi : i < 1024) (s : State) :
    (allLostCleared s clr).rd (Reg.RD_STREAM_STAT_LOST i) = 0 := by
  rw [allLostCleared, h]
  exact (rd_foldl_wr lost_key_inj 0 (List.mem_range.2 hi) s).trans (Nat.zero_mod _)

theorem rdCntClr_cleared (s : State) (clr : Nat) : cleared s (rdCntClr s clr) rdCnts clr := by
  intro n f hn
  have hf : f.key < 8 * 0xE000 := (by decide : ∀ f ∈ rdCnts, f.key < 8 * 0xE000) f (List.mem_of_getElem? hn)
  rw [rdCntClr_eq, rd_lostCleared hf]
  exact clearCnts_cleared s rdCnts clr (by decide) n f hn

/-- The selected stream's LOST reads 0 after its clear bit, and after that of every stream. -/
theorem rdCntClr_selected {s : State} {clr : Nat} (h : bit clr 4 = true) (hsel : s.rd Reg.RD_SEL_STREAM < 1024) :
    (rdCntClr s clr).rd (Reg.RD_STREAM_STAT_LOST (s.rd Reg.RD_SEL_STREAM)) = 0 := by
  rw [rdCntClr_eq]
  cases hall : bit clr 5 with
  | true => exact rd_allLostCleared hall hsel _
  | false =>
    have hselect : (s.clearCnts rdCnts clr).rd Reg.RD_SEL_STREAM = s.rd Reg.RD_SEL_STREAM := clearCnts_onlyRegs s rdCnts clr _ (by decide)
    rw [allLostCleared, hall, lostCleared, h, ← hselect]
    exact State.rd_clr_self _ _

theorem onlyRegs_rdCntClr {s : State} {clr : Nat} (h4 : bit clr 4 = false) (h5 : bit clr 5 = false) : onlyRegs s (rdCntClr s clr) rdCnts := by
  rw [rdCntClr_eq, allLostCleared, lostCleared, h4, h5]
  exact clearCnts_onlyRegs s rdCnts clr

theorem viewLatch_open {s : State} {x : Stream} (h : s.stream (s.rd Reg.RD_SEL_STREAM) = some x) :
    viewLatch s = (s.wr Reg.RD_VIEW_DEF (leNat x.raw)).wr Reg.RD_VIEW_NEXT_SEQ x.seq := by
  rw [viewLatch, h]

theorem viewLatch_closed {s : State} (h : s.stream (s.rd Reg.RD_SEL_STREAM) = none) :
    viewLatch s = (s.wr Reg.RD_VIEW_DEF 0).wr Reg.RD_VIEW_NEXT_SEQ 0 := by
  rw [viewLatch, h]
  rfl

/-- DEF and NEXT_SEQ read as latched. -/
theorem rd_view (s : State) (a b : Nat) : ((s.wr Reg.RD_VIEW_DEF a).wr Reg.RD_VIEW_NEXT_SEQ b).rd Reg.RD_VIEW_DEF = a % 2 ^ 448 ∧
    ((s.wr Reg.RD_VIEW_DEF a).wr Reg.RD_VIEW_NEXT_SEQ b).rd Reg.RD_VIEW_NEXT_SEQ = b % 2 ^ 64 := by
  have hdef : Reg.RD_VIEW_DEF.width = 448 := rfl
  have hseq : Reg.RD_VIEW_NEXT_SEQ.width = 64 := rfl
  rw [State.rd_wr_self, State.rd_wr_ne _ _ (by decide), State.rd_wr_self, hdef, hseq]
  exact ⟨rfl, rfl⟩

end Sys2Proof.Machine

namespace Sys2Proof
open Sys2Proof.Machine

section
variable {s : State} {src : WrSrc}

theorem exec_rdCurveData_entry {v : Nat} (htakes : s.takes src .RD_CURVE_DATA 0 0 true = true) (hv : v < 2 ^ 64) :
    ∃ t, exec (.rdCurveData src 2 (some v)) s = .next t ∧
      Sparse.get 0 (s.rd Reg.RD_CURVE_ADDR_ADDR) (Sparse.get [] s.curveSel t.rd_.stg) = v ∧
      t.rd Reg.RD_CURVE_ADDR_ADDR = (s.rd Reg.RD_CURVE_ADDR_ADDR + 1) % 1024 ∧ t.rd Reg.RD_CURVE_DATA_DATA = v ∧
      t = { s with regs := t.regs, hold := t.hold, rd_ := t.rd_, kn := t.kn } ∧ onlyRegs s t [Reg.RD_CURVE_ADDR_ADDR, Reg.RD_CURVE_DATA_DATA] := by
  refine taken_journalled (act := fun t => curveData t 2 (some v)) htakes fun kn => ?_
  have haddr : (entryWritten s v).rd Reg.RD_CURVE_ADDR_ADDR = s.rd Reg.RD_CURVE_ADDR_ADDR := State.rd_wr_ne _ _ (by decide)
  have hdata : (entryWritten s v).rd Reg.RD_CURVE_DATA_DATA = v := (State.rd_wr_self _ _ _).trans (Nat.mod_eq_of_lt hv)
  have hwritten : onlyRegs s (entryWritten s v) [Reg.RD_CURVE_DATA_DATA] := onlyRegs_wr (setStgEntry _ v) Reg.RD_CURVE_DATA_DATA v
  exact ⟨entryWritten_stg s hv, haddr ▸ rd_stepAddr (entryWritten s v), (rd_stepAddr_data (entryWritten s v)).trans hdata, rfl,
    onlyRegs_snoc hwritten Reg.RD_CURVE_ADDR_ADDR _⟩

theorem exec_rdCurveData_lower (v : Nat) (htakes : s.takes src .RD_CURVE_DATA 0 0 true = true) :
    ∃ t, exec (.rdCurveData src 0 (some v)) s = .next t ∧ t.rd_ = s.rd_ ∧ t = { s with hold := t.hold, kn := t.kn } :=
  taken_journalled (act := fun t => curveData t 0 (some v)) htakes fun _ => ⟨rfl, rfl⟩

theorem exec_rdCurveData_read (hon : s.domOn 27 = true) : ∃ t, exec (.rdCurveData .direct 0 none) s = .next t ∧
    t.rd Reg.RD_CURVE_DATA_DATA = s.stgEntry % 2 ^ 64 ∧ t = { s with regs := t.regs } ∧ onlyRegs s t [Reg.RD_CURVE_DATA_DATA] := by
  have hexec : exec (.rdCurveData .direct 0 none) s = answer s (if s.domOn 27 then curveData s 0 none else s) := rfl
  rw [hexec, if_pos hon]
  exact answer_of ⟨State.rd_wr_self s _ _, rfl, onlyRegs_wr s _ _⟩

theorem exec_rdCurveData_readNext (hon : s.domOn 27 = true) : ∃ t, exec (.rdCurveData .direct 1 none) s = .next t ∧
    t.rd Reg.RD_CURVE_DATA_DATA = s.stgEntry % 2 ^ 64 ∧ t.rd Reg.RD_CURVE_ADDR_ADDR = (s.rd Reg.RD_CURVE_ADDR_ADDR + 1) % 1024 ∧
    t = { s with regs := t.regs } ∧ onlyRegs s t [Reg.RD_CURVE_DATA_DATA, Reg.RD_CURVE_ADDR_ADDR] := by
  have hexec : exec (.rdCurveData .direct 1 none) s = answer s (if s.domOn 27 then curveData s 1 none else s) := rfl
  have haddr : (s.wr Reg.RD_CURVE_DATA_DATA s.stgEntry).rd Reg.RD_CURVE_ADDR_ADDR = s.rd Reg.RD_CURVE_ADDR_ADDR := State.rd_wr_ne _ _ (by decide)
  rw [hexec, if_pos hon]
  refine answer_of ⟨(rd_stepAddr_data _).trans (State.rd_wr_self s _ _), haddr ▸ rd_stepAddr (s.wr Reg.RD_CURVE_DATA_DATA s.stgEntry), rfl, ?_⟩
  exact onlyRegs_mono (onlyRegs_snoc (onlyRegs_wr s _ _) Reg.RD_CURVE_ADDR_ADDR _) (by simp)

section
variable (htakes : s.takes src .RD_CURVE_CTRL 0 0 true = true)
include htakes

theorem exec_rdCurveActivate_taken (h : curveReason s.curveSel (s.rd Reg.RD_CURVE_SEL_N) (stagedWords s) = 0) :
    ∃ t, exec (.rdCurveActivate src) s = .next t ∧ t.rd_.act.get [] s.curveSel = stagedWords s ∧
      t.rd_.actAt.get 0 s.curveSel = beatCeil s.now ∧ (∀ c, c ≠ s.curveSel → t.rd_.act.get [] c = s.rd_.act.get [] c) ∧
      t.flag Reg.RD_CURVE_STAT_DONE = true ∧ t.flag Reg.RD_CURVE_STAT_ACTIVE = true ∧ lastBark t 1 0x0134 ∧
      (s.defs.any (fun d => d.curve = s.curveSel) = false → barks s t 1 0x0134 ∧
        t = { s with regs := t.regs, rd_ := t.rd_, bq := t.bq, kn := t.kn } ∧
        onlyRegs s t [Reg.RD_CURVE_STAT_DONE, Reg.RD_CURVE_STAT_ACTIVE, Reg.RD_CURVE_STAT_IN_USE]) := by
  obtain ⟨hact, hat, hothers⟩ := curveTaken_copies s
  refine taken_journalled (act := curveActivate) htakes fun kn => ?_
  rw [curveActivate_taken h]
  refine ⟨hact, hat, hothers, ?_, ?_, ?_, fun hunused => ?_⟩
  · refine (flag_showCurve ((curveTaken s).bark 1 0x0134 false [s.curveSel]) (by decide)).trans ?_
    exact State.flag_set_self _
  · refine (showCurve_active ((curveTaken s).bark 1 0x0134 false [s.curveSel])).trans ?_
    have hsel : ((curveTaken s).bark 1 0x0134 false [s.curveSel]).curveSel = s.curveSel := curveTaken_curveSel s
    have hlen : (stagedWords s).length = curveWords (curveKind s.curveSel) (s.rd Reg.RD_CURVE_SEL_N) := by simp [stagedWords]
    have hpos := stagedWords_ne_nil h
    have hne : stagedWords s ≠ [] := List.ne_nil_of_length_pos (hlen ▸ hpos)
    rw [hsel, State.bark_rd_, hact]
    simpa using hne
  · exact lastBark_bark (curveTaken s) 1 0x0134 false [s.curveSel]
  · obtain ⟨hbarks, halone, honly⟩ := curveTaken_quiet hunused
    exact ⟨hbarks, curvesAlone_answer halone kn, honly⟩

theorem exec_rdCurveActivate_refused {code : Nat} (h : curveReason s.curveSel (s.rd Reg.RD_CURVE_SEL_N) (stagedWords s) = code) (hcode : code ≠ 0) :
    ∃ t, exec (.rdCurveActivate src) s = .next t ∧
      t.rd Reg.RD_CURVE_STAT_REASON = code % 8 ∧ t.flag Reg.RD_CURVE_STAT_REJECT = true ∧ t.rd_ = s.rd_ ∧ t = { s with regs := t.regs, kn := t.kn } ∧
      onlyRegs s t [Reg.RD_CURVE_STAT_REASON, Reg.RD_CURVE_STAT_REJECT, Reg.RD_CURVE_STAT_ACTIVE, Reg.RD_CURVE_STAT_IN_USE] := by
  obtain ⟨hreason, hreject, -, honly⟩ := curveReject_shows s code
  refine taken_journalled (act := curveActivate) htakes fun kn => ?_
  rw [curveActivate_refused (h ▸ hcode), h]
  exact ⟨hreason, hreject, rfl, rfl, honly⟩

theorem exec_rdCurveDelete_used (h : s.defs.any (fun d => d.curve = s.curveSel) = true) : ∃ t, exec (.rdCurveDelete src) s = .next t ∧
    t.rd Reg.RD_CURVE_STAT_REASON = 6 ∧ t.flag Reg.RD_CURVE_STAT_REJECT = true ∧ t.rd_ = s.rd_ := by
  obtain ⟨hreason, hreject, -, -⟩ := curveReject_shows s 6
  refine taken_journalled (act := curveDelete) htakes fun kn => ?_
  rw [curveDelete_used h]
  exact ⟨hreason, hreject, rfl⟩

theorem exec_rdCurveDelete_unused (h : s.defs.any (fun d => d.curve = s.curveSel) = false) : ∃ t, exec (.rdCurveDelete src) s = .next t ∧
    t.rd_.act.get [] s.curveSel = [] ∧ t.flag Reg.RD_CURVE_STAT_ACTIVE = false ∧ (∀ c, c ≠ s.curveSel → t.rd_.act.get [] c = s.rd_.act.get [] c) ∧
    t = { s with regs := t.regs, rd_ := t.rd_, kn := t.kn } ∧ onlyRegs s t [Reg.RD_CURVE_STAT_ACTIVE, Reg.RD_CURVE_STAT_IN_USE] := by
  have hact : (curveGone s).rd_.act.get [] s.curveSel = [] := Sparse.get_put_self [] [] s.curveSel s.rd_.act
  refine taken_journalled (act := curveDelete) htakes fun kn => ?_
  rw [curveDelete_unused h]
  have hothers (c : Nat) (hc : c ≠ s.curveSel) : (curveGone s).rd_.act.get [] c = s.rd_.act.get [] c :=
    Sparse.get_put_ne [] [] [] (Ne.symm hc) s.rd_.act
  refine ⟨hact, (showCurve_active (curveGone s)).trans ?_, hothers, rfl,
    onlyRegs_mono (onlyRegs_showCurve (curveGone s)) (by simp)⟩
  have hsel : (curveGone s).curveSel = s.curveSel := rfl
  rw [hsel, hact]
  rfl

theorem exec_rdCurveRevert : ∃ t, exec (.rdCurveRevert src) s = .next t ∧
    (∀ j, Sparse.get 0 j (t.rd_.stg.get [] s.curveSel) = (s.rd_.act.get [] s.curveSel).getD j 0) ∧ t = { s with rd_ := t.rd_, kn := t.kn } :=
  taken_journalled (act := curveRevert) htakes fun _ => ⟨curveRevert_staged s, rfl⟩

end

theorem exec_rdCntClr (clr : Nat) (htakes : s.takes src .RD_CNT_CLR 0 0 false = true) : ∃ t, exec (.rdCntClr src clr) s = .next t ∧
    cleared s t rdCnts clr ∧
    (bit clr 4 = true → s.rd Reg.RD_SEL_STREAM < 1024 → t.rd (Reg.RD_STREAM_STAT_LOST (s.rd Reg.RD_SEL_STREAM)) = 0) ∧
    (bit clr 5 = true → ∀ i, i < 1024 → t.rd (Reg.RD_STREAM_STAT_LOST i) = 0) ∧
    (bit clr 4 = false → bit clr 5 = false → onlyRegs s t rdCnts) ∧ t = { s with regs := t.regs, kn := t.kn } := by
  refine taken_journalled (act := fun t => rdCntClr t clr) htakes fun kn => ?_
  refine ⟨rdCntClr_cleared s clr, rdCntClr_selected, fun h i hi => rd_allLostCleared h hi _, onlyRegs_rdCntClr, ?_⟩
  dsimp only
  rw [regsAlone_rdCntClr s clr]

theorem exec_rdViewLatch (hon : s.domOn 27 = true) : ∃ t, exec .rdViewLatch s = .next t ∧
    (∀ x, s.stream (s.rd Reg.RD_SEL_STREAM) = some x → t.rd Reg.RD_VIEW_DEF = leNat x.raw % 2 ^ 448 ∧ t.rd Reg.RD_VIEW_NEXT_SEQ = x.seq % 2 ^ 64) ∧
    (s.stream (s.rd Reg.RD_SEL_STREAM) = none → t.rd Reg.RD_VIEW_DEF = 0 ∧ t.rd Reg.RD_VIEW_NEXT_SEQ = 0) ∧
    t = { s with regs := t.regs } ∧ onlyRegs s t [Reg.RD_VIEW_DEF, Reg.RD_VIEW_NEXT_SEQ] := by
  have hexec : exec .rdViewLatch s = answer s (if s.domOn 27 then viewLatch s else s) := rfl
  have honly (a b : Nat) : onlyRegs s ((s.wr Reg.RD_VIEW_DEF a).wr Reg.RD_VIEW_NEXT_SEQ b) [Reg.RD_VIEW_DEF, Reg.RD_VIEW_NEXT_SEQ] :=
    onlyRegs_mono (onlyRegs_snoc (onlyRegs_wr s _ a) Reg.RD_VIEW_NEXT_SEQ b) (by simp)
  have halone (a b : Nat) : regsAlone s (((s.wr Reg.RD_VIEW_DEF a).wr Reg.RD_VIEW_NEXT_SEQ b).keepQueue s) :=
    regsAlone_answer (regsAlone_trans (regsAlone_wr s _ a) (regsAlone_wr _ _ b))
  rw [hexec, if_pos hon]
  cases hx : s.stream (s.rd Reg.RD_SEL_STREAM) with
  | none =>
    rw [viewLatch_closed hx]
    refine answer_of ⟨fun y hy => absurd hy.symm (Option.some_ne_none y), fun _ => ?_, halone 0 0, honly 0 0⟩
    simpa only [Nat.zero_mod, State.keepQueue_rd] using rd_view s 0 0
  | some x =>
    rw [viewLatch_open hx]
    refine answer_of ⟨fun y hy => ?_, fun hy => absurd hy (Option.some_ne_none x), halone _ _, honly _ _⟩
    obtain rfl := Option.some.inj hy
    rw [State.keepQueue_rd, State.keepQueue_rd]
    exact rd_view s (leNat x.raw) x.seq

end

/-- Settles O20: each row of the curves and of the read side by what it writes, and what that leaves. -/
theorem userCurves : Obligations.UserCurves := by
  intro s
  refine ⟨fun src v => exec_rdCurveData_entry, fun src v => exec_rdCurveData_lower v, exec_rdCurveData_read, exec_rdCurveData_readNext, ?_,
    fun src htakes => ⟨exec_rdCurveDelete_used htakes, exec_rdCurveDelete_unused htakes, exec_rdCurveRevert htakes⟩,
    fun src clr => exec_rdCntClr clr, exec_rdViewLatch⟩
  rintro src l htakes rfl
  exact ⟨exec_rdCurveActivate_taken htakes, fun code => exec_rdCurveActivate_refused htakes⟩

end Sys2Proof
end

