-- ==== Sys2Proof/Proofs/StreamsAtWork.lean ====
section
/-! PROOFS. Streams at work (R145, R159, R165 to R167, R365): a tick and what follows it, the end of REC_AGE, a record that ages out, the cold
junction and the checkpoints. -/

namespace Sys2Proof.Machine

/-! ## Passing to the next tick (R159) -/

theorem tick_of_due {s : State} {x : Stream} {k : Tick} (h : s.tickDue x = some k) : x.tick = some k := (Option.filter_eq_some_iff.1 h).1

/-- A stream with no tick waiting passes on its grid. -/
theorem advance_grid {x : Stream} {k : Tick} (h : x.tick = some k) (hdue : x.due = []) : x.advance = { x with next := x.next + x.srcPeriod } := by
  have hclock : beatClocked x.defn = true := by
    by_contra hno
    simp [Stream.tick, hdue, hno] at h
  simp [Stream.advance, hdue, hclock]

/-- A stream with ticks waiting passes to the one behind the first. -/
theorem advance_waiting {x : Stream} (hdue : x.due ≠ []) : x.advance = { x with due := x.due.drop 1 } := by
  simp [Stream.advance, hdue]

/-- What forms the slots of a stream: its definition and its number, and the block and the tables under way. -/
def Stream.forming (x : Stream) : SDef × Nat × Option Block × List (Nat × Nat) := (x.defn, x.seq, x.blk, x.tabCloses)

/-- Passing to the next tick forms nothing. -/
theorem advance_forming (x : Stream) : x.advance.forming = x.forming ∧ x.advance.closeAt = x.closeAt := by
  unfold Stream.advance
  split_ifs <;> exact ⟨rfl, rfl⟩

theorem forming_of_records {x y : Stream} (h : y.sansRecords = x.sansRecords) : y.forming = x.forming :=
  (congrArg Stream.forming h :)

/-! ## STREAM_TICK (R159) -/

theorem finishClose_open {s : State} {i : Nat} {x : Stream} (hx : s.stream i = some x) (hclose : x.closeAt = none) : finishClose s i = s := by
  have hdrained : s.drained x = false := by rw [State.drained, hclose]
  rw [finishClose, hx]
  exact if_pos (by rw [hdrained]; rfl)

theorem streamWork_showStream (g : Stream → Stream) (s : State) (i : Nat) (off : Bool) : StreamWork g i s (showStream s i off) := by
  unfold showStream
  split
  · exact (StreamWork.refl g i s).wr (by simp [streamRegs]) 0
  · exact (StreamWork.refl g i s).wr (by simp [streamRegs]) _

/-- A sample that nothing reduces is one slot, and the latest one. -/
theorem reduceSample_slot {s : State} {i : Nat} {x : Stream} (hx : s.stream i = some x) (hreduce : x.defn.reduce = 0) (full : Int) (k : Tick)
    (v : SVal) : reduceSample s i full k v =
      noteSlot (putSlot s i k.place k.slow (slotOf x full k.at_ v)) i k.place (slotOf x full k.at_ v) v.r := by
  unfold reduceSample
  rw [hx]
  simp [hreduce]

/-- What tick `k` has put into the reduction of stream `i`. -/
def tickReduced (s : State) (i : Nat) (x : Stream) (k : Tick) (v div : Int) (ψ : Nat) (ovr : Bool) : State :=
  let r := linearise s i x.advance k.place (s.tickValue x k v div ψ ovr)
  reduceSample r.1 i (if x.defn.kind = 0 then s.fullScale (x.defn.index / 32) (x.defn.index % 32) else 0) k r.2

section
variable {s : State} {i : Nat} {x : Stream} {k : Tick} (v div : Int) (ψ : Nat) (ovr : Bool)

/-- The tick joins the reduction of a stream that has passed to its next one. -/
theorem tickReduced_own : ∃ y, (tickReduced s i x k v div ψ ovr).stream i = some y ∧ y.sansSlots = x.advance.sansSlots ∧
    ∀ j, j ≠ i → (tickReduced s i x k v div ψ ovr).stream j = s.stream j := by
  obtain ⟨c, hmarks⟩ := linearise_marks s i x.advance k.place (s.tickValue x k v div ψ ovr)
  have hwork : StreamWork Stream.sansSlots i (s.setStream i (some { x.advance with clamped := c })) (tickReduced s i x k v div ψ ovr) :=
    hmarks.slots.trans (streamWork_reduceSample _ i _ k _)
  obtain ⟨y, hy, hsame⟩ := hwork.own_eq (stream_setStream_self s i _)
  exact ⟨y, hy, hsame, fun j hj => (hwork.others j hj).trans (stream_setStream_ne s hj _)⟩

/-- Where nothing is reduced, the tick forms one slot, and no block or table begins. -/
theorem tickReduced_slot (hreduce : x.defn.reduce = 0) {y : Stream} (hy : (tickReduced s i x k v div ψ ovr).stream i = some y) :
    y.forming = (x.defn, x.seq + 1, x.blk, x.tabCloses) := by
  obtain ⟨c, hmarks⟩ := linearise_marks s i x.advance k.place (s.tickValue x k v div ψ ovr)
  obtain ⟨z, hz, hmarked⟩ := hmarks.own_eq (stream_setStream_self s i _)
  have hforming : z.forming = x.forming := (forming_of_records hmarked).trans (advance_forming x).1
  obtain ⟨hdefn, hseq, hblk, htabs⟩ : z.defn = x.defn ∧ z.seq = x.seq ∧ z.blk = x.blk ∧ z.tabCloses = x.tabCloses := by
    simpa only [Stream.forming, Prod.mk.injEq] using hforming
  have hform : tickReduced s i x k v div ψ ovr = _ := reduceSample_slot hz (hdefn ▸ hreduce) _ k _
  obtain ⟨u, hu, huseq, hudefn, hublk, hutabs⟩ := putSlot_next hz k.place k.slow
    (slotOf z (if x.defn.kind = 0 then s.fullScale (x.defn.index / 32) (x.defn.index % 32) else 0) k.at_
      (linearise s i x.advance k.place (s.tickValue x k v div ψ ovr)).2)
  obtain ⟨w, hw, hnoted⟩ := (streamWork_noteSlot _ i k.place _ _).own_eq hu
  obtain rfl : w = y := Option.some.inj (hw.symm.trans (hform ▸ hy))
  rw [forming_of_records hnoted, Stream.forming, huseq, hudefn, hublk, hutabs, hdefn, hseq, hblk, htabs]

variable (hx : s.stream i = some x) (hsampling : s.sampling = true) (hon : s.domOn 27 = true) (hwait : x.waitTod = false)
include hx hsampling hon hwait

theorem streamTick_none (hdue : s.tickDue x = none) : streamTick s i v div ψ ovr = finishClose s i := by
  simp [streamTick, hx, hsampling, hon, hwait, hdue]

theorem streamTick_some (hdue : s.tickDue x = some k) : streamTick s i v div ψ ovr =
    finishClose (showStream (streamSettle ((tickReduced s i x k v div ψ ovr).modStream i fun y => { y with ticked := true }) i) i
      (hasFlag (s.tickValue x k v div ψ ovr).flags fOFFLINE)) i := by
  simp [streamTick, hx, hsampling, hon, hwait, hdue, tickReduced]

/-- A tick of a stream that does not close: it is processed, the stream passes to the next one, and no other stream changes. -/
theorem streamTick_formed (hclose : x.closeAt = none) (hdue : s.tickDue x = some k) : ∃ y, (streamTick s i v div ψ ovr).stream i = some y ∧
    y.sansSlots = ({ x.advance with ticked := true } : Stream).sansSlots ∧
    (x.defn.reduce = 0 → x.tabCloses = [] → x.blk = none → y.seq = x.seq + 1) ∧
    ∀ j, j ≠ i → (streamTick s i v div ψ ovr).stream j = s.stream j := by
  obtain ⟨r, hr, hreduced, hothers⟩ := tickReduced_own (s := s) (i := i) (x := x) (k := k) v div ψ ovr
  have hticked : (tickReduced s i x k v div ψ ovr).modStream i (fun y => { y with ticked := true }) =
      (tickReduced s i x k v div ψ ovr).setStream i (some { r with ticked := true }) := by rw [State.modStream, hr]
  have hwork := (streamWork_streamSettle ((tickReduced s i x k v div ψ ovr).setStream i (some { r with ticked := true })) i).trans
    (streamWork_showStream Stream.sansSlots _ i (hasFlag (s.tickValue x k v div ψ ovr).flags fOFFLINE))
  obtain ⟨y, hy, hsettled⟩ := hwork.own_eq (stream_setStream_self _ i _)
  have hsame : y.sansSlots = ({ x.advance with ticked := true } : Stream).sansSlots :=
    hsettled.trans (congrArg (fun q : Stream => { q with ticked := true }) hreduced)
  have hopen : y.closeAt = none := (congrArg Stream.closeAt hsame).trans ((advance_forming x).2.trans hclose)
  rw [streamTick_some v div ψ ovr hx hsampling hon hwait hdue, hticked, finishClose_open hy hopen]
  refine ⟨y, hy, hsame, fun hreduce htabs hblk => ?_, fun j hj => ?_⟩
  · have hslot := tickReduced_slot v div ψ ovr hreduce hr
    obtain ⟨-, hseq, hrblk, hrtabs⟩ : r.defn = x.defn ∧ r.seq = x.seq + 1 ∧ r.blk = x.blk ∧ r.tabCloses = x.tabCloses := by
      simpa only [Stream.forming, Prod.mk.injEq] using hslot
    have hrecords := (streamSettle_records (stream_setStream_self (tickReduced s i x k v div ψ ovr) i (some { r with ticked := true }))
      (hrtabs.trans htabs) (hrblk.trans hblk)).trans (streamWork_showStream _ _ i (hasFlag (s.tickValue x k v div ψ ovr).flags fOFFLINE))
    obtain ⟨z, hz, hkept⟩ := hrecords.own_eq (stream_setStream_self _ i _)
    obtain rfl : y = z := Option.some.inj (hy.symm.trans hz)
    exact (congrArg Stream.seq hkept).trans hseq
  · exact (hwork.others j hj).trans ((stream_setStream_ne _ hj _).trans (hothers j hj))

end

/-! ## REC_AGE (R166) -/

/-- A record that is formed while the retention store gives service is kept there. -/
theorem store_deliver {s : State} {r : RecOut} (h : s.retains = true) :
    (deliver s r).rd_.store = s.rd_.store.put [] r.stream (s.rd_.store.get [] r.stream ++ [r]) := by
  have hretained : retainRec s r = { s with rd_ := { s.rd_ with store := s.rd_.store.put [] r.stream (s.rd_.store.get [] r.stream ++ [r]) } } :=
    if_pos h
  have hqueue : (queueRec s (retainRec s r) r).rd_ = (retainRec s r).rd_ := by
    unfold queueRec
    dsimp only
    split <;> rfl
  have hkept : ¬ (!s.atOnce r.buf r.data.length && !s.retains) = true := by simp [h]
  have hsame : (deliver s r).rd_ = (queueRec s (retainRec s r) r).rd_ := by
    rcases deliver_kept hkept with hd | ⟨dst, words, hd⟩
    · rw [hd]
    · rw [hd, State.send_rd_]
  rw [hsame, hqueue, hretained]

/-- A record that closes leaves its stream, and is delivered. -/
theorem closeRec_delivers {s : State} {i : Nat} {x : Stream} {r : Rec} (hx : s.stream i = some x) (hr : x.rcd = some r) (table capture : Bool) :
    ∃ q : RecOut, q.stream = i ∧ closeRec s i table capture = deliver (s.setStream i (some { x with rcd := none })) q := by
  unfold closeRec
  rw [hx]
  dsimp only
  rw [hr]
  exact ⟨_, rfl, rfl⟩

/-- Closing a record takes it from the stream, and leaves every other stream. -/
theorem closeRec_closes {s : State} {i : Nat} {x : Stream} {r : Rec} (hx : s.stream i = some x) (hr : x.rcd = some r) (table capture : Bool) :
    (closeRec s i table capture).stream i = some { x with rcd := none } ∧
    (s.retains = true → ((closeRec s i table capture).rd_.store.get [] i).length = (s.rd_.store.get [] i).length + 1) ∧
    ∀ j, j ≠ i → (closeRec s i table capture).stream j = s.stream j := by
  obtain ⟨q, hq, hclosed⟩ := closeRec_delivers hx hr table capture
  have hwork := streamWork_deliver id (s.setStream i (some { x with rcd := none })) hq
  rw [hclosed]
  refine ⟨?_, fun hret => ?_, fun j hj => (hwork.others j hj).trans (stream_setStream_ne s hj _)⟩
  · obtain ⟨y, hy, rfl⟩ := hwork.own_eq (stream_setStream_self s i _)
    exact hy
  · rw [store_deliver (s := s.setStream i _) hret, hq, Sparse.get_put_self, List.length_append]
    rfl

/-! ## Records that age out (R167) -/

/-- The retention store without the oldest record of stream `i`. -/
def storeDropped (s : State) (i : Nat) (rest : List RecOut) : State := { s with rd_ := { s.rd_ with store := s.rd_.store.put [] i rest } }

theorem store_storeDropped (s : State) (i : Nat) (rest : List RecOut) : (storeDropped s i rest).rd_.store.get [] i = rest :=
  Sparse.get_put_self [] rest i s.rd_.store

/-- The record is counted as lost, and a gap run takes its place in the queue. -/
def gapInPlace (s : State) (i : Nat) (r : RecOut) (rest : List RecOut) : State :=
  ((storeDropped s i rest).countN (Reg.RD_STREAM_STAT_LOST i) r.n).modBuf r.buf fun b =>
    { b with queue := b.queue.map fun k => if sameRec i r.seq k then { gapRun s r r.n with late := true } else k }

/-- The record is counted as lost, and the gap run before it stands for it too. -/
def gapGrown (s : State) (i : Nat) (r g : RecOut) (rest : List RecOut) : State :=
  ((storeDropped s i rest).countN (Reg.RD_STREAM_STAT_LOST i) r.n).modBuf r.buf fun b =>
    { b with queue := (b.queue.filter fun k => !sameRec i r.seq k).map fun k => if sameRec i g.seq k then gapRun s g (g.n + r.n) else k }

section
variable {s : State} {i : Nat} {r : RecOut} {rest : List RecOut} (hstore : s.rd_.store.get [] i = r :: rest)
include hstore

theorem streamGap_delivered (h : (s.sbuf r.buf).queue.any (sameRec i r.seq) = false) : streamGap s i = storeDropped s i rest := by
  rw [streamGap, hstore]
  exact if_neg (by rw [h]; exact Bool.false_ne_true)

theorem streamGap_begins (h : (s.sbuf r.buf).queue.any (sameRec i r.seq) = true) (hgap : gapBefore s r = none) :
    streamGap s i = ((gapInPlace s i r rest).count Reg.RD_CNT_GAP_RUNS).bark 1 0x0132 true [i, r.seq, r.n] := by
  rw [streamGap, hstore]
  refine (if_pos h).trans ?_
  rw [hgap]
  rfl

theorem streamGap_grows (h : (s.sbuf r.buf).queue.any (sameRec i r.seq) = true) {g : RecOut} (hgap : gapBefore s r = some g) :
    streamGap s i = gapGrown s i r g rest := by
  rw [streamGap, hstore]
  refine (if_pos h).trans ?_
  rw [hgap]
  rfl

end

theorem sbuf_modBuf (s : State) (b : Nat) (g : SBuf → SBuf) : (s.modBuf b g).sbuf b = g (s.sbuf b) := Sparse.get_put_self _ _ _ _

theorem lost_ne_gapRuns (i : Nat) : (Reg.RD_STREAM_STAT_LOST i).key ≠ Reg.RD_CNT_GAP_RUNS.key := lost_key_ne (by decide) i

/-- Once the record has left the queue, no entry of it is that record: the gap run that grows keeps the number of the run before. -/
theorem not_sameRec_grown (l : List RecOut) (i seq : Nat) {m : Nat} (g : RecOut) (hseq : g.seq = m) :
    ((l.filter fun k => !sameRec i seq k).map fun k => if sameRec i m k then g else k).any (sameRec i seq) = false := by
  rw [List.any_eq_false]
  intro q hq
  obtain ⟨k, hk, rfl⟩ := List.mem_map.1 hq
  have hother : sameRec i seq k = false := by simpa using (List.mem_filter.1 hk).2
  split
  · next hsame =>
    intro hagain
    simp only [sameRec, Bool.and_eq_true, decide_eq_true_eq, Bool.not_eq_true'] at hsame hagain
    obtain ⟨⟨hstream, hkseq⟩, hreplay⟩ := hsame
    obtain ⟨⟨-, hgseq⟩, -⟩ := hagain
    have hthis : sameRec i seq k = true := by simp [sameRec, hstream, hkseq, ← hseq, hgseq, hreplay]
    exact Bool.false_ne_true (hother.symm.trans hthis)
  · rw [hother]
    exact Bool.false_ne_true

/-! ## The cold junction (R145) -/

section
variable {s : State} {i : Nat} {x : Stream} (hx : s.stream i = some x) (hkind : curveKind x.defn.curve = 1)
include hx hkind

theorem cjInvalid_lost (hlost : (s.coldJunction x.defn x.openAt s.now).2 = true) (hmark : x.cjLost = false) : cjInvalid s i =
    ((s.setStream i (some { x with cjLost := true })).count Reg.RD_CNT_CJ_INVALID).bark 1 0x0136 true [i] := by
  simp [cjInvalid, hx, hkind, hlost, hmark]

theorem cjInvalid_back (hlost : (s.coldJunction x.defn x.openAt s.now).2 = false) (hmark : x.cjLost = true) : cjInvalid s i =
    s.setStream i (some { x with cjLost := false }) := by
  simp [cjInvalid, hx, hkind, hlost, hmark]

end

/-! ## Checkpoints (R365) -/

/-- A key that does not read as absent is listed. -/
theorem mem_keysWhere_of_get {α : Type} {m : Sparse (Option α)} {k : Nat} {v : α} (h : m.get none k = some v) :
    k ∈ m.keysWhere (fun _ x => x.isSome) := by
  induction m with
  | nil => exact absurd h.symm (Option.some_ne_none v)
  | cons e m ih =>
    obtain ⟨j, w⟩ := e
    unfold Sparse.keysWhere at ih ⊢
    by_cases hj : j = k
    · subst hj
      rw [Sparse.get_cons_self] at h
      simp [h]
    · rw [Sparse.get_cons_ne _ _ hj] at h
      rw [List.filter_cons]
      split
      · exact List.mem_cons_of_mem _ (ih h)
      · exact ih h

theorem mem_openStreams {s : State} {i : Nat} {x : Stream} (h : s.stream i = some x) : i ∈ s.openStreams := mem_keysWhere_of_get h

/-- Checkpoints of a list of streams touch the kennel alone, which then holds one of each. -/
theorem checkpoints_taken (s : State) (l : List Nat) : ∃ kn, l.foldl (fun u i => checkpoint u i false) s = { s with kn := kn } ∧
    ∀ i ∈ l, kn.ckpts.get none i = (s.stream i).map fun x => ckptOf x false := by
  induction l using List.reverseRecOn with
  | nil => exact ⟨s.kn, rfl, fun i hi => absurd hi List.not_mem_nil⟩
  | append_singleton l a ih =>
    obtain ⟨kn, hfold, htaken⟩ := ih
    rw [List.foldl_concat, hfold]
    refine ⟨_, rfl, fun i hi => ?_⟩
    by_cases ha : a = i
    · subst ha
      exact Sparse.get_put_self _ _ _ _
    · exact (Sparse.get_put_ne _ _ _ ha _).trans (htaken i (by simpa [Ne.symm ha] using hi))

end Sys2Proof.Machine

namespace Sys2Proof
open Sys2Proof.Machine

section
variable {s : State} {i : Nat} (hi : i < 1024)
include hi

theorem exec_streamTick_due {x : Stream} {k : Tick} (v div : Int) (ph : Nat) (ovr : Bool) (hx : s.stream i = some x) (hsampling : s.sampling = true)
    (hon : s.domOn 27 = true) (hwait : x.waitTod = false) (hclose : x.closeAt = none) (hdue : s.tickDue x = some k) :
    ∃ t y, exec (.streamTick i v div ph ovr) s = .next t ∧ t.stream i = some y ∧ y.ticked = true ∧ y.defn = x.defn ∧
      (x.due = [] → y.next = x.next + x.srcPeriod ∧ y.due = []) ∧ (x.due ≠ [] → y.next = x.next ∧ y.due = x.due.drop 1) ∧
      (x.defn.reduce = 0 → x.tabCloses = [] → x.blk = none → y.seq = x.seq + 1) ∧ (∀ j, j ≠ i → t.stream j = s.stream j) := by
  obtain ⟨y, hy, hsame, hslot, hothers⟩ := streamTick_formed v div ph ovr hx hsampling hon hwait hclose hdue
  have hdefn : y.defn = x.defn := (congrArg (fun q => q.defn) hsame).trans (congrArg (fun q => q.1) (advance_forming x).1)
  obtain ⟨t, ht, hown, hrest⟩ := guard_of (s := s) (u := streamTick s i v div ph ovr)
    (P := fun t => t.stream i = some y ∧ ∀ j, j ≠ i → t.stream j = s.stream j) (decide_eq_true hi) ⟨hy, hothers⟩
  refine ⟨t, y, ht, hown, congrArg Stream.ticked hsame, hdefn, fun hnone => ?_, fun hsome => ?_, hslot, hrest⟩
  · rw [advance_grid (tick_of_due hdue) hnone] at hsame
    exact ⟨(congrArg Stream.next hsame :), (congrArg Stream.due hsame :).trans hnone⟩
  · rw [advance_waiting hsome] at hsame
    exact ⟨(congrArg Stream.next hsame :), (congrArg Stream.due hsame :)⟩

theorem exec_streamTick_early {x : Stream} (v div : Int) (ph : Nat) (ovr : Bool) (hx : s.stream i = some x) (hsampling : s.sampling = true)
    (hon : s.domOn 27 = true) (hwait : x.waitTod = false) (hclose : x.closeAt = none) (hdue : s.tickDue x = none) :
    ∃ t, exec (.streamTick i v div ph ovr) s = .next t ∧ t = s := by
  refine guard_of (u := streamTick s i v div ph ovr) (decide_eq_true hi) ?_
  rw [streamTick_none v div ph ovr hx hsampling hon hwait hdue, finishClose_open hx hclose]
  rfl

theorem exec_streamTick_unsampled (v div : Int) (ph : Nat) (ovr : Bool) (hsampling : s.sampling = false) :
    ∃ t, exec (.streamTick i v div ph ovr) s = .next t ∧ t = s := by
  refine guard_of (u := streamTick s i v div ph ovr) (decide_eq_true hi) ?_
  have hidle : streamTick s i v div ph ovr = s := by
    unfold streamTick
    split
    · rfl
    · exact if_pos (by simp [hsampling])
  rw [hidle]
  rfl

theorem exec_recAgeExpiry_aged {x : Stream} {r : Rec} (hx : s.stream i = some x) (hr : x.rcd = some r)
    (hage : r.place + x.defn.recAge * cclkMs ≤ s.now) : ∃ t, exec (.recAgeExpiry i) s = .next t ∧ t.stream i = some { x with rcd := none } ∧
      (s.retains = true → (t.rd_.store.get [] i).length = (s.rd_.store.get [] i).length + 1) ∧ (∀ j, j ≠ i → t.stream j = s.stream j) := by
  refine guard_of (u := recAge s i) (decide_eq_true hi) ?_
  have hclosed : recAge s i = closeRec s i false false := by simp [recAge, hx, hr, hage]
  rw [hclosed]
  exact closeRec_closes hx hr false false

theorem exec_recAgeExpiry_young {x : Stream} {r : Rec} (hx : s.stream i = some x) (hr : x.rcd = some r)
    (hage : s.now < r.place + x.defn.recAge * cclkMs) : ∃ t, exec (.recAgeExpiry i) s = .next t ∧ t = s := by
  refine guard_of (u := recAge s i) (decide_eq_true hi) ?_
  have hopen : recAge s i = s := by simp [recAge, hx, hr, Nat.not_le.2 hage]
  rw [hopen]
  rfl

section
variable {r : RecOut} {rest : List RecOut} (hstore : s.rd_.store.get [] i = r :: rest)
include hstore

theorem exec_streamGap_delivered (h : (s.sbuf r.buf).queue.any (sameRec i r.seq) = false) :
    ∃ t, exec (.streamGap i) s = .next t ∧ t.rd_.store.get [] i = rest ∧ t = { s with rd_ := t.rd_ } := by
  refine guard_of (u := streamGap s i) (decide_eq_true hi) ?_
  rw [streamGap_delivered hstore h]
  exact ⟨store_storeDropped s i rest, rfl⟩

theorem exec_streamGap_begins (h : (s.sbuf r.buf).queue.any (sameRec i r.seq) = true) (hgap : gapBefore s r = none) :
    ∃ t, exec (.streamGap i) s = .next t ∧ t.rd_.store.get [] i = rest ∧
      t.rd (Reg.RD_STREAM_STAT_LOST i) = satU 32 (s.rd (Reg.RD_STREAM_STAT_LOST i) + r.n) ∧ t.rd Reg.RD_CNT_GAP_RUNS = satU 32 (s.rd Reg.RD_CNT_GAP_RUNS + 1) ∧
      barks s t 1 0x0132 ∧ (t.sbuf r.buf).queue.length = (s.sbuf r.buf).queue.length ∧
      t = { s with regs := t.regs, rd_ := t.rd_, hp := t.hp, bq := t.bq } ∧ onlyRegs s t [Reg.RD_STREAM_STAT_LOST i, Reg.RD_CNT_GAP_RUNS] := by
  refine guard_of (u := streamGap s i) (decide_eq_true hi) ?_
  rw [streamGap_begins hstore h hgap]
  have hlost : onlyRegs s (gapInPlace s i r rest) [Reg.RD_STREAM_STAT_LOST i] := onlyRegs_wr (storeDropped s i rest) _ _
  refine ⟨store_storeDropped s i rest, ?_, ?_, barks_bark s ((gapInPlace s i r rest).count _) 1 0x0132 true [i, r.seq, r.n] rfl rfl, ?_, rfl, ?_⟩
  · exact (State.rd_count_ne (gapInPlace s i r rest) (Ne.symm (lost_ne_gapRuns i))).trans (State.rd_countN_self (storeDropped s i rest) _ r.n)
  · have hruns : (gapInPlace s i r rest).rd Reg.RD_CNT_GAP_RUNS = s.rd Reg.RD_CNT_GAP_RUNS :=
      State.rd_countN_ne (storeDropped s i rest) r.n (lost_ne_gapRuns i)
    exact (State.rd_count_self (gapInPlace s i r rest) _).trans (by rw [hruns]; rfl)
  · have hbuf : (gapInPlace s i r rest).sbuf r.buf = _ := sbuf_modBuf _ r.buf _
    refine (congrArg (fun b => b.queue.length) hbuf).trans ?_
    exact List.length_map _
  · exact onlyRegs_mono (onlyRegs_snoc hlost Reg.RD_CNT_GAP_RUNS _) (by simp)

theorem exec_streamGap_grows (h : (s.sbuf r.buf).queue.any (sameRec i r.seq) = true) (hgap : (gapBefore s r).isSome = true) :
    ∃ t, exec (.streamGap i) s = .next t ∧
      t.rd_.store.get [] i = rest ∧ t.rd (Reg.RD_STREAM_STAT_LOST i) = satU 32 (s.rd (Reg.RD_STREAM_STAT_LOST i) + r.n) ∧
      (t.sbuf r.buf).queue.any (sameRec i r.seq) = false ∧ t = { s with regs := t.regs, rd_ := t.rd_, hp := t.hp } ∧
      onlyRegs s t [Reg.RD_STREAM_STAT_LOST i] := by
  obtain ⟨g, hg⟩ := Option.isSome_iff_exists.1 hgap
  refine guard_of (u := streamGap s i) (decide_eq_true hi) ?_
  rw [streamGap_grows hstore h hg]
  have hbuf : (gapGrown s i r g rest).sbuf r.buf = _ := sbuf_modBuf _ r.buf _
  refine ⟨store_storeDropped s i rest, State.rd_countN_self (storeDropped s i rest) _ r.n, ?_, rfl, onlyRegs_wr (storeDropped s i rest) _ _⟩
  exact (congrArg (fun b => b.queue.any (sameRec i r.seq)) hbuf).trans (not_sameRec_grown _ i r.seq (gapRun s g (g.n + r.n)) rfl)

end

section
variable {x : Stream} (hx : s.stream i = some x) (hkind : curveKind x.defn.curve = 1)
include hx hkind

theorem exec_cjInvalid_lost (hlost : (s.coldJunction x.defn x.openAt s.now).2 = true) (hmark : x.cjLost = false) :
    ∃ t, exec (.cjInvalid i) s = .next t ∧ t.stream i = some { x with cjLost := true } ∧
      t.rd Reg.RD_CNT_CJ_INVALID = satU 32 (s.rd Reg.RD_CNT_CJ_INVALID + 1) ∧ barks s t 1 0x0136 ∧
      t = { s with regs := t.regs, rd_ := t.rd_, bq := t.bq } ∧ onlyRegs s t [Reg.RD_CNT_CJ_INVALID] := by
  refine guard_of (u := cjInvalid s i) (decide_eq_true hi) ?_
  rw [cjInvalid_lost hx hkind hlost hmark]
  exact ⟨stream_setStream_self s i _, State.rd_count_self (s.setStream i _) _, barks_bark s (State.count (s.setStream i _) _) _ _ _ _ rfl rfl, rfl,
    onlyRegs_wr (s.setStream i _) _ _⟩

theorem exec_cjInvalid_back (hlost : (s.coldJunction x.defn x.openAt s.now).2 = false) (hmark : x.cjLost = true) :
    ∃ t, exec (.cjInvalid i) s = .next t ∧ t.stream i = some { x with cjLost := false } ∧ t = { s with rd_ := t.rd_ } := by
  refine guard_of (u := cjInvalid s i) (decide_eq_true hi) ?_
  rw [cjInvalid_back hx hkind hlost hmark]
  exact ⟨stream_setStream_self s i _, rfl⟩

end
end

theorem exec_streamCheckpoint (s : State) (i : Nat) : ∃ t, exec .streamCheckpoint s = .next t ∧ t = { s with kn := t.kn } ∧
    ∀ x, s.stream i = some x → t.kn.ckpts.get none i = some (ckptOf x false) := by
  obtain ⟨kn, hfold, htaken⟩ := checkpoints_taken s s.openStreams
  have hexec : exec .streamCheckpoint s = answer s (s.openStreams.foldl (fun u i => checkpoint u i false) s) := rfl
  rw [hexec, hfold]
  refine answer_of ⟨rfl, fun x hx => ?_⟩
  exact (htaken i (mem_openStreams hx)).trans (by rw [hx]; rfl)

/-- Settles O19: each row of a stream at work by what it does in the case that its clause names. -/
theorem streamsAtWork : Obligations.StreamsAtWork := by
  intro s i hi
  refine ⟨fun x v div ph ovr hx hsampling hon hwait hclose =>
      ⟨fun k => exec_streamTick_due hi v div ph ovr hx hsampling hon hwait hclose, exec_streamTick_early hi v div ph ovr hx hsampling hon hwait hclose⟩,
    exec_streamTick_unsampled hi, fun x r hx hr => ⟨exec_recAgeExpiry_aged hi hx hr, exec_recAgeExpiry_young hi hx hr⟩,
    fun r rest hstore => ⟨exec_streamGap_delivered hi hstore, fun h _ => exec_streamGap_begins hi hstore h, exec_streamGap_grows hi hstore⟩,
    fun x hx hkind => ⟨exec_cjInvalid_lost hi hx hkind, exec_cjInvalid_back hi hx hkind⟩, exec_streamCheckpoint s i⟩

end Sys2Proof
end

