-- ==== Sys2Proof/Proofs/StreamCommands.lean ====
section
/-! PROOFS. STREAM_OPEN, STREAM_CLOSE and REPLAY (R141, R142, R310, R311, R321): what turns each away, and what an accepted one leaves of the
streams, the buffers, the scheduler and the books of commands. -/

namespace Sys2Proof.Machine

/-! ## Acceptance changes nothing that a stream command judges -/

@[simp] theorem begin_sbuf (s : State) (h : CmdHdr) (b : Nat) : (s.begin h).sbuf b = s.sbuf b := by
  unfold State.begin
  split <;> rfl

@[simp] theorem begin_replays (s : State) (h : CmdHdr) : (s.begin h).hp.replays = s.hp.replays := by
  unfold State.begin
  split <;> rfl

@[simp] theorem begin_stream (s : State) (h : CmdHdr) (i : Nat) : (s.begin h).stream i = s.stream i := by rw [State.stream, State.begin_rd_, State.stream]

@[simp] theorem begin_openOk (s : State) (h : CmdHdr) (d : SDef) : openOk (s.begin h) d = openOk s d := by
  rw [begin_frame]
  rfl

@[simp] theorem begin_bufOk (s : State) (h : CmdHdr) (b : Nat) (entry : List Nat) : bufOk (s.begin h) b entry = bufOk s b entry := by
  rw [bufOk, begin_sbuf, bufOk]

@[simp] theorem begin_formed (s : State) (h : CmdHdr) (i : Nat) : (s.begin h).formed i = s.formed i := by
  rw [begin_frame]
  rfl

@[simp] theorem begin_replayRecords (s : State) (h : CmdHdr) (i buf first last : Nat) :
    replayRecords (s.begin h) i buf first last = replayRecords s i buf first last := by
  rw [begin_frame]
  rfl

/-! ## The books of commands -/

/-- The commands in flight, the completions that wait and the rings are as before. -/
def sameBooks (s t : State) : Prop := ({ t.hp with bufs := [] } : HpSt) = { s.hp with bufs := [] } ∧ t.ringsOn = s.ringsOn

theorem sameBooks_refl (s : State) : sameBooks s s := ⟨rfl, rfl⟩

theorem sameBooks_trans {s t u : State} (h : sameBooks s t) (k : sameBooks t u) : sameBooks s u := ⟨k.1.trans h.1, k.2.trans h.2⟩

theorem sameBooks_wr (s : State) {f : Fld} (hf : 8 * 0xD000 ≤ f.key) (v : Nat) : sameBooks s (s.wr f v) := by
  have hne {g : Fld} (hg : g.key < 8 * 0xD000) : (s.wr f v).flag g = s.flag g := State.flag_wr_ne s v (by omega)
  refine ⟨rfl, ?_⟩
  rw [State.ringsOn, hne (by decide), hne (by decide)]
  rfl

theorem streamsOnly.sameBooks {s t : State} (h : streamsOnly s t) : sameBooks s t := by
  refine ⟨congrArg Prod.fst h.1, ?_⟩
  rw [State.ringsOn, State.flag_congr (h.2 _ (by decide)), State.flag_congr (h.2 _ (by decide))]
  rfl

theorem complete_bufs (s : State) {h : CmdHdr} (hring : byRing s h) (hcarried : carried s h) (st : Status) (r : Nat) :
    (s.complete h st r).hp.bufs = s.hp.bufs := by
  unfold State.complete
  rw [if_pos (show s.hp.inflight.any (fun f => sameCmd f.hdr h) = true from hcarried), hring.1]
  dsimp only
  rw [if_pos hring.2]

/-- A command of the ring that completes after work that left its books alone: the books change, and nothing else does. -/
theorem complete_answers {s u : State} {h : CmdHdr} (hring : byRing s h) (hbooks : sameBooks (s.begin h) u) (st : Status) (r : Nat) :
    ∃ hp, u.complete h st r = { u with hp := hp } ∧ hp.bufs = u.hp.bufs ∧
      settled ({ u with hp := hp } : State) h ∧ posts s { u with hp := hp } h st := by
  obtain ⟨hhp, hrings⟩ := hbooks
  have huring : byRing u h := ⟨hring.1, hrings.trans ((begin_ringsOn s h).trans hring.2)⟩
  have hin : u.hp.inflight = (s.begin h).hp.inflight := (congrArg HpSt.inflight hhp :)
  have hwait : u.hp.cplWait = s.hp.cplWait := (congrArg HpSt.cplWait hhp :).trans (begin_cplWait s h)
  have hcarried : carried u h := by
    rw [carried, hin]
    exact begin_carried s h
  exact ⟨(u.complete h st r).hp, complete_ring_frame u h st r 0 huring.1 huring.2, complete_bufs u huring hcarried st r,
    complete_settled u h st r 0, complete_posts s u h st r 0 huring.1 huring.2 hcarried hwait⟩

/-! ## Buffers (R318) -/

theorem useBuf_sbuf (s : State) (b : Nat) (entry : List Nat) :
    ((useBuf s b entry).sbuf b).users = (s.sbuf b).users + 1 ∧ ((useBuf s b entry).sbuf b).queue = (s.sbuf b).queue := by
  rw [useBuf, sbuf_modBuf]
  split
  · next h => exact ⟨by rw [h], rfl⟩
  · exact ⟨rfl, rfl⟩

/-! ## STREAM_OPEN (R141, R142) -/

/-- The stream as STREAM_OPEN makes it. -/
def openedStream (s : State) (d : SDef) (raw : List Nat) (buf e : Nat) : Stream :=
  { defn := d, raw := raw, buf := buf, openAt := e, phase := s.phaseOf d,
    next := ({ defn := d, raw := raw, buf := buf, openAt := e, next := e, phase := s.phaseOf d } : Stream).gridFrom e }

/-- The streams once it is open, before it shows in the registers and in a checkpoint. -/
def opening (s : State) (d : SDef) (raw : List Nat) (buf e : Nat) : State :=
  { s.setStream d.id (some (openedStream s d raw buf e)) with
    rd_ := { (s.setStream d.id (some (openedStream s d raw buf e))).rd_ with store := s.rd_.store.put [] d.id [], lastDef := s.rd_.lastDef.put [] d.id raw } }

theorem opening_stream_self (s : State) (d : SDef) (raw : List Nat) (buf e : Nat) :
    (opening s d raw buf e).stream d.id = some (openedStream s d raw buf e) :=
  (stream_setStream_self s d.id (some (openedStream s d raw buf e)) :)

theorem opening_stream_ne (s : State) {d : SDef} {j : Nat} (hj : j ≠ d.id) (raw : List Nat) (buf e : Nat) :
    (opening s d raw buf e).stream j = s.stream j :=
  (stream_setStream_ne s hj (some (openedStream s d raw buf e)) :)

/-- What a stream shows of its state is one register. -/
theorem exists_showStream (s : State) (i : Nat) (off : Bool) : ∃ v, showStream s i off = s.wr (Reg.RD_STREAM_STAT_STATE i) v := by
  unfold showStream
  split
  · exact ⟨0, rfl⟩
  · exact ⟨_, rfl⟩

theorem state_key_ge (i : Nat) : 8 * 0xE000 ≤ (Reg.RD_STREAM_STAT_STATE i).key := by
  simp only [Reg.RD_STREAM_STAT_STATE]
  omega

theorem state_key_ne (i : Nat) {f : Fld} (hf : f.key < 8 * 0xE000) : f.key ≠ (Reg.RD_STREAM_STAT_STATE i).key :=
  fun he => absurd (state_key_ge i) (by omega)

/-- What RD_STAT shows: how many streams are open, and a load. -/
theorem exists_showLoad (s : State) : ∃ v, showLoad s = (s.wr Reg.RD_STAT_OPEN s.openStreams.length).wr Reg.RD_STAT_LOAD_PCT v := ⟨_, rfl⟩

theorem sameBooks_showLoad (s : State) : sameBooks s (showLoad s) := by
  obtain ⟨v, hv⟩ := exists_showLoad s
  rw [hv]
  exact sameBooks_trans (sameBooks_wr s (by decide) _) (sameBooks_wr _ (by decide) v)

theorem sameBooks_checkpoint (s : State) (i : Nat) (final : Bool) : sameBooks s (checkpoint s i final) := ⟨rfl, rfl⟩

theorem sameBooks_showStream (s : State) (i : Nat) (off : Bool) : sameBooks s (showStream s i off) := by
  obtain ⟨v, hv⟩ := exists_showStream s i off
  rw [hv]
  exact sameBooks_wr s (Nat.le_trans (by decide) (state_key_ge i)) v

/-- A stream shows in the registers and in its checkpoint. -/
def shown (s : State) (i : Nat) : State := checkpoint (showLoad (showStream s i false)) i false

theorem exists_shown (s : State) (i : Nat) : ∃ v w, showStream s i false = s.wr (Reg.RD_STREAM_STAT_STATE i) v ∧ shown s i =
    { ((s.wr (Reg.RD_STREAM_STAT_STATE i) v).wr Reg.RD_STAT_OPEN s.openStreams.length).wr Reg.RD_STAT_LOAD_PCT w with kn := (shown s i).kn } := by
  obtain ⟨v, hv⟩ := exists_showStream s i false
  obtain ⟨w, hw⟩ := exists_showLoad (s.wr (Reg.RD_STREAM_STAT_STATE i) v)
  refine ⟨v, w, hv, ?_⟩
  rw [shown, hv, hw]
  rfl

theorem shown_frame (s : State) (i : Nat) : shown s i = { s with regs := (shown s i).regs, kn := (shown s i).kn } := by
  obtain ⟨v, w, -, hshown⟩ := exists_shown s i
  rw [hshown]
  rfl

theorem sameBooks_shown (s : State) (i : Nat) : sameBooks s (shown s i) :=
  sameBooks_trans (sameBooks_trans (sameBooks_showStream s i false) (sameBooks_showLoad _)) (sameBooks_checkpoint _ i false)

theorem onlyRegs_shown (s : State) (i : Nat) : onlyRegs s (shown s i) [Reg.RD_STAT_OPEN, Reg.RD_STAT_LOAD_PCT, Reg.RD_STREAM_STAT_STATE i] := by
  obtain ⟨v, w, -, hshown⟩ := exists_shown s i
  have hregs := onlyRegs_snoc (onlyRegs_snoc (onlyRegs_wr s (Reg.RD_STREAM_STAT_STATE i) v) Reg.RD_STAT_OPEN s.openStreams.length) Reg.RD_STAT_LOAD_PCT w
  rw [hshown]
  exact onlyRegs_mono (onlyRegs_of_rd hregs fun _ => rfl) (by simp)

theorem rd_shown_state (s : State) (i : Nat) :
    (shown s i).rd (Reg.RD_STREAM_STAT_STATE i) = (showStream s i false).rd (Reg.RD_STREAM_STAT_STATE i) := by
  obtain ⟨v, w, hstate, hshown⟩ := exists_shown s i
  rw [hshown, hstate]
  exact (State.rd_wr_ne _ _ (state_key_ne i (by decide))).trans (State.rd_wr_ne _ _ (state_key_ne i (by decide)))

theorem rd_shown_open (s : State) (i : Nat) : (shown s i).rd Reg.RD_STAT_OPEN = (shown s i).openStreams.length % 2 ^ 11 := by
  obtain ⟨v, w, -, hshown⟩ := exists_shown s i
  rw [hshown]
  exact (State.rd_wr_ne _ _ (by decide)).trans (State.rd_wr_self _ Reg.RD_STAT_OPEN s.openStreams.length)

theorem openStream_eq (s : State) (d : SDef) (raw : List Nat) (buf e : Nat) :
    openStream s d raw buf e = shown (opening s d raw buf e) d.id := rfl

/-- What a stream that has just been opened shows: 1 while it waits for its instant, and 2 from then on. -/
theorem openStream_shows (s : State) (d : SDef) (raw : List Nat) (buf e : Nat) :
    (openStream s d raw buf e).rd (Reg.RD_STREAM_STAT_STATE d.id) = (if s.now < e then 1 else 2) ∧
    (openStream s d raw buf e).rd Reg.RD_STAT_OPEN = (openStream s d raw buf e).openStreams.length % 2 ^ 11 := by
  rw [openStream_eq]
  refine ⟨?_, rd_shown_open _ _⟩
  rw [rd_shown_state, showStream, opening_stream_self]
  have hnow : (opening s d raw buf e).now = s.now := rfl
  dsimp only
  rw [State.rd_wr_self, hnow]
  by_cases hlate : s.now < e <;> simp [hlate, openedStream, Reg.RD_STREAM_STAT_STATE]

theorem opening_frame (s : State) (d : SDef) (raw : List Nat) (buf e : Nat) :
    opening s d raw buf e = { s with rd_ := (opening s d raw buf e).rd_ } := rfl

/-- Opening a stream touches the streams, their registers and the checkpoints. -/
theorem openStream_frame (s : State) (d : SDef) (raw : List Nat) (buf e : Nat) :
    openStream s d raw buf e = { s with regs := (openStream s d raw buf e).regs, rd_ := (openStream s d raw buf e).rd_,
                                        kn := (openStream s d raw buf e).kn } ∧
    (openStream s d raw buf e).rd_ = (opening s d raw buf e).rd_ ∧ sameBooks s (openStream s d raw buf e) ∧
    onlyRegs s (openStream s d raw buf e) [Reg.RD_STAT_OPEN, Reg.RD_STAT_LOAD_PCT, Reg.RD_STREAM_STAT_STATE d.id] := by
  have hsame : sameBooks s (opening s d raw buf e) := sameBooks_refl s
  have hregs : onlyRegs s (opening s d raw buf e) [Reg.RD_STAT_OPEN, Reg.RD_STAT_LOAD_PCT, Reg.RD_STREAM_STAT_STATE d.id] := onlyRegs_refl s _
  have hopening := opening_frame s d raw buf e
  rw [openStream_eq]
  generalize opening s d raw buf e = u at *
  have hshown := shown_frame u d.id
  refine ⟨?_, (congrArg State.rd_ hshown :), sameBooks_trans hsame (sameBooks_shown u d.id), onlyRegs_trans hregs (onlyRegs_shown u d.id)⟩
  generalize shown u d.id = w at *
  rw [hshown, hopening]

theorem openStream_stream (s : State) (d : SDef) (raw : List Nat) (buf e : Nat) :
    (openStream s d raw buf e).stream d.id = some (openedStream s d raw buf e) ∧
    ∀ j, j ≠ d.id → (openStream s d raw buf e).stream j = s.stream j := by
  obtain ⟨-, hrd, -, -⟩ := openStream_frame s d raw buf e
  have hsame (j : Nat) : (openStream s d raw buf e).stream j = (opening s d raw buf e).stream j := by rw [State.stream, hrd, State.stream]
  exact ⟨(hsame _).trans (opening_stream_self s d raw buf e), fun j hj => (hsame j).trans (opening_stream_ne s hj raw buf e)⟩

theorem schedEnter_sched (s : State) (e : Nat) (a : Act) : ∃ q : Sched, (schedEnter s e a).tb.sched = s.tb.sched ++ [q] ∧ q.at_ = e ∧ q.act = a :=
  ⟨_, rfl, rfl, rfl⟩

theorem schedJudge_entered {s : State} {e : Nat} (he : s.now < e) (hroom : s.tb.sched.length < 4096) : schedJudge s e = .entered := by
  rw [schedJudge, if_neg (by omega), if_neg (by omega)]

section
variable {s : State} {h : CmdHdr} {raw : List Nat} {buf : Nat} {entry : List Nat}

theorem streamOpen_barred (hbarred : s.barred = true) : streamOpen s h raw buf entry = (s.begin h).refuse h .modeForbids :=
  if_pos ((begin_barred s h).trans hbarred)

variable (hopen : s.barred = false)
include hopen

theorem streamOpen_bad (hbad : raw.length ≠ 56 ∨ openOk s (parseDef raw) = false ∨ bufOk s buf entry = false) :
    streamOpen s h raw buf entry = (s.begin h).refuse h .badParam := by
  have hcheck : (raw.length ≠ 56 || !openOk (s.begin h) (parseDef raw) || !bufOk (s.begin h) buf entry : Bool) = true := by
    rcases hbad with hb | hb | hb <;> simp [hb]
  unfold streamOpen
  dsimp only
  rw [if_neg (by simp [hopen]), if_pos hcheck]

variable (hraw : raw.length = 56) (hok : openOk s (parseDef raw) = true) (hbuf : bufOk s buf entry = true)
include hraw hok hbuf

theorem streamOpen_now (hinst : h.inst = .none) : streamOpen s h raw buf entry =
    (openStream (useBuf (s.begin h) buf entry) (parseDef raw) raw buf s.now).complete h .ok := by
  simp [streamOpen, hopen, hraw, hok, hbuf, hinst, instEdge]

theorem streamOpen_later {e : Nat} (hinst : h.inst = .edge e) (he : s.now < e) (hroom : s.tb.sched.length < 4096) : streamOpen s h raw buf entry =
    (openStream (useBuf (schedEnter (s.begin h) e (.streamOpen (parseDef raw).id)) buf entry) (parseDef raw) raw buf e).complete h .ok := by
  have hjudge : schedJudge (s.begin h) e = .entered := schedJudge_entered (by simpa using he) (by simpa using hroom)
  simp [streamOpen, hopen, hraw, hok, hbuf, hinst, instEdge, hjudge]

end

/-! ## STREAM_CLOSE (R141) -/

/-- The stream waits for its close at `e`, and shows it; its checkpoint is taken. -/
def closeMarked (s : State) (h : CmdHdr) (i : Nat) (x : Stream) (e : Nat) : State :=
  checkpoint (showStream (s.setStream i (some { x with closeAt := some (e, h) })) i false) i false

theorem closeMarked_shown (s : State) (h : CmdHdr) (i : Nat) (x : Stream) (e : Nat) : ∃ kn, closeMarked s h i x e =
    { (s.setStream i (some { x with closeAt := some (e, h) })).wr (Reg.RD_STREAM_STAT_STATE i) 4 with kn := kn } := by
  have hshow : showStream (s.setStream i (some { x with closeAt := some (e, h) })) i false =
      (s.setStream i (some { x with closeAt := some (e, h) })).wr (Reg.RD_STREAM_STAT_STATE i) 4 := by
    rw [showStream, stream_setStream_self]
    rfl
  exact ⟨_, by rw [closeMarked, hshow]; rfl⟩

theorem closeMarked_stream (s : State) (h : CmdHdr) (i : Nat) (x : Stream) (e : Nat) :
    (closeMarked s h i x e).stream i = some { x with closeAt := some (e, h) } := by
  obtain ⟨kn, hshown⟩ := closeMarked_shown s h i x e
  rw [hshown]
  exact (stream_setStream_self s i (some { x with closeAt := some (e, h) }) :)

theorem closeMarked_rd_state (s : State) (h : CmdHdr) (i : Nat) (x : Stream) (e : Nat) :
    (closeMarked s h i x e).rd (Reg.RD_STREAM_STAT_STATE i) = 4 := by
  obtain ⟨kn, hshown⟩ := closeMarked_shown s h i x e
  rw [hshown]
  exact State.rd_wr_self _ (Reg.RD_STREAM_STAT_STATE i) 4

theorem closeMarked_frame (s : State) (h : CmdHdr) (i : Nat) (x : Stream) (e : Nat) : closeMarked s h i x e =
    { s with regs := (closeMarked s h i x e).regs, rd_ := (closeMarked s h i x e).rd_, kn := (closeMarked s h i x e).kn } := by
  obtain ⟨kn, hshown⟩ := closeMarked_shown s h i x e
  rw [hshown]
  rfl

theorem onlyRegs_closeMarked (s : State) (h : CmdHdr) (i : Nat) (x : Stream) (e : Nat) :
    onlyRegs s (closeMarked s h i x e) [Reg.RD_STREAM_STAT_STATE i] := by
  obtain ⟨kn, hshown⟩ := closeMarked_shown s h i x e
  rw [hshown]
  exact onlyRegs_wr (s.setStream i (some { x with closeAt := some (e, h) })) (Reg.RD_STREAM_STAT_STATE i) 4

/-- Whether ticks remain depends on the conversion under way and the present edge. -/
theorem ahead_congr {s t : State} (hmt : t.mt = s.mt) (hnow : t.now = s.now) (x : Stream) (e : Nat) : t.ahead x e = s.ahead x e := by
  unfold State.ahead State.mtBefore
  rw [hmt, hnow]

theorem closeMarked_drained {s : State} {x : Stream} (hahead : s.ahead x (x.lastSrc s.now) = true) (h : CmdHdr) (i : Nat) :
    (closeMarked (s.begin h) h i x s.now).drained { x with closeAt := some (s.now, h) } = true := by
  have hframe := closeMarked_frame (s.begin h) h i x s.now
  have hmt : (closeMarked (s.begin h) h i x s.now).mt = s.mt := (congrArg State.mt hframe :).trans (State.begin_mt s h)
  have hnow : (closeMarked (s.begin h) h i x s.now).now = s.now := (congrArg State.now hframe :).trans (State.begin_now s h)
  have hsame : (closeMarked (s.begin h) h i x s.now).ahead { x with closeAt := some (s.now, h) } (x.lastSrc s.now) = s.ahead x (x.lastSrc s.now) :=
    ahead_congr hmt hnow { x with closeAt := some (s.now, h) } (x.lastSrc s.now)
  have hlast : ({ x with closeAt := some (s.now, h) } : Stream).lastSrc s.now = x.lastSrc s.now := rfl
  simp [State.drained, hlast, hsame, hahead, hnow]

theorem sameBooks_closeMarked (s : State) (h : CmdHdr) (i : Nat) (x : Stream) (e : Nat) : sameBooks s (closeMarked s h i x e) :=
  sameBooks_trans (t := s.setStream i (some { x with closeAt := some (e, h) })) ⟨rfl, rfl⟩
    (sameBooks_trans (sameBooks_showStream _ i false) (sameBooks_checkpoint _ i false))

/-- What the stream still holds leaves it: a block, and its table, window or record. -/
def lastWork (s : State) (i : Nat) (x : Stream) : State :=
  let e := (x.closeAt.map (fun q => q.1)).getD s.now
  let t := emitBlock s i
  if x.defn.reduce = 2 then closeTable t i e e else if x.defn.reduce = 3 then closeWindow t i else closeRec t i false false

theorem streamWork_lastWork (s : State) (i : Nat) (x : Stream) : StreamWork Stream.sansSlots i s (lastWork s i x) := by
  have hblock := streamWork_emitBlock s i
  exact .ite (hblock.trans (streamWork_closeTable _ i _ _)) (.ite (hblock.trans (streamWork_closeWindow _ i)) (hblock.trans (streamWork_closeRec _ i _ _).slots))

/-- The stream is gone: its number is kept for REPLAY, its buffer has one user less, and it has no checkpoint. -/
def streamGone (s : State) (i : Nat) (x y : Stream) : State :=
  let t := s.setStream i none
  let t := { t with rd_ := { t.rd_ with lastSeq := t.rd_.lastSeq.put 0 i y.seq } }
  let t := t.modBuf x.buf (fun b => { b with users := b.users - 1 })
  { t with kn := { t.kn with ckpts := t.kn.ckpts.put none i none } }

/-- The end of a stream is barked and shown. -/
def endShown (s : State) (i : Nat) : State := showLoad (showStream (s.bark 1 0x0131 false [i]) i false)

theorem finishClose_drained {s : State} {i e : Nat} {h : CmdHdr} {x : Stream} (hx : s.stream i = some x) (hclose : x.closeAt = some (e, h))
    (hdrained : s.drained x = true) : ∃ y r, finishClose s i = (endShown (streamGone (lastWork s i x) i x y) i).complete h .ok r := by
  have hopen : ¬ (!s.drained x) = true := by simp [hdrained]
  refine ⟨((lastWork s i x).stream i).getD x,
    if (((lastWork s i x).stream i).getD x).seq = 0 then 0xFFFFFFFF else (((lastWork s i x).stream i).getD x).seq - 1, ?_⟩
  unfold finishClose
  rw [hx]
  refine (if_neg hopen).trans ?_
  rw [hclose]
  unfold lastWork
  rw [hclose]
  rfl

/-- What a closed stream shows. -/
theorem show_closed {s : State} {i : Nat} (hnone : s.stream i = none) :
    ∃ v w, showLoad (showStream s i false) = ((s.clr (Reg.RD_STREAM_STAT_STATE i)).wr Reg.RD_STAT_OPEN v).wr Reg.RD_STAT_LOAD_PCT w := by
  obtain ⟨w, hw⟩ := exists_showLoad (s.clr (Reg.RD_STREAM_STAT_STATE i))
  exact ⟨_, w, by rw [showStream, hnone]; exact hw⟩

/-- A stream that is gone reads as closed, and its end is the last bark. -/
theorem endShown_gone (s : State) (i : Nat) (x y : Stream) : (endShown (streamGone s i x y) i).stream i = none ∧
    (endShown (streamGone s i x y) i).kn.ckpts.get none i = none ∧ (endShown (streamGone s i x y) i).rd (Reg.RD_STREAM_STAT_STATE i) = 0 ∧
    lastBark (endShown (streamGone s i x y) i) 1 0x0131 ∧ sameBooks s (endShown (streamGone s i x y) i) := by
  have hnone : ((streamGone s i x y).bark 1 0x0131 false [i]).stream i = none := stream_setStream_self s i none
  have hckpts : ((streamGone s i x y).bark 1 0x0131 false [i]).kn.ckpts.get none i = none := Sparse.get_put_self none none i s.kn.ckpts
  have hbark := lastBark_bark (streamGone s i x y) 1 0x0131 false [i]
  have hgone : sameBooks s ((streamGone s i x y).bark 1 0x0131 false [i]) := ⟨rfl, rfl⟩
  rw [endShown]
  generalize (streamGone s i x y).bark 1 0x0131 false [i] = u at *
  have hbooks := sameBooks_trans hgone (sameBooks_trans (sameBooks_showStream u i false) (sameBooks_showLoad _))
  obtain ⟨v, w, hshow⟩ := show_closed hnone
  rw [hshow] at hbooks ⊢
  refine ⟨hnone, hckpts, ?_, hbark, hbooks⟩
  rw [State.rd_wr_ne _ _ (state_key_ne i (by decide)), State.rd_wr_ne _ _ (state_key_ne i (by decide)), State.rd_clr_self]

/-- A stream with no tick left ends: it leaves the books of commands alone, and its STREAM_CLOSE completes. -/
theorem finishClose_leaves {s : State} {i e : Nat} {h : CmdHdr} {x : Stream} (hx : s.stream i = some x) (hclose : x.closeAt = some (e, h))
    (hdrained : s.drained x = true) : ∃ u r, finishClose s i = u.complete h .ok r ∧ sameBooks s u ∧ u.stream i = none ∧
      u.kn.ckpts.get none i = none ∧ u.rd (Reg.RD_STREAM_STAT_STATE i) = 0 ∧ lastBark u 1 0x0131 := by
  obtain ⟨y, r, hend⟩ := finishClose_drained hx hclose hdrained
  have hwork := (streamWork_lastWork s i x).streamsOnly.sameBooks
  obtain ⟨hnone, hckpts, hstate, hbark, hbooks⟩ := endShown_gone (lastWork s i x) i x y
  exact ⟨_, r, hend, sameBooks_trans hwork hbooks, hnone, hckpts, hstate, hbark⟩

section
variable {s : State} {h : CmdHdr} {i : Nat}

theorem streamClose_barred (hbarred : s.barred = true) : streamClose s h i = (s.begin h).refuse h .modeForbids :=
  if_pos ((begin_barred s h).trans hbarred)

variable (hopen : s.barred = false)
include hopen

theorem streamClose_bad (hbad : s.stream i = none ∨ ∃ x, s.stream i = some x ∧ x.closeAt.isSome = true) :
    streamClose s h i = (s.begin h).refuse h .badParam := by
  rcases hbad with hx | ⟨x, hx, hclose⟩
  · simp [streamClose, hopen, hx]
  · simp [streamClose, hopen, hx, hclose]

variable {x : Stream} (hi : i < 1024) (hx : s.stream i = some x) (hclose : x.closeAt = none)
include hi hx hclose

theorem streamClose_now (hinst : h.inst = .none) : streamClose s h i = finishClose (closeMarked (s.begin h) h i x s.now) i := by
  simp [streamClose, closeMarked, hopen, hx, hclose, Nat.not_le.2 hi, hinst, instEdge]

theorem streamClose_later {e : Nat} (hinst : h.inst = .edge e) (he : s.now < e) (hroom : s.tb.sched.length < 4096) :
    streamClose s h i = schedEnter (closeMarked (s.begin h) h i x e) e (.streamClose i) := by
  have hjudge : schedJudge (s.begin h) e = .entered := schedJudge_entered (by simpa using he) (by simpa using hroom)
  simp [streamClose, closeMarked, hopen, hx, hclose, Nat.not_le.2 hi, hinst, instEdge, hjudge]

end

/-! ## REPLAY (R321) -/

/-- The records of a replay wait in the buffer's queue, and the replay runs. -/
def replayBegun (s : State) (h : CmdHdr) (i buf : Nat) (entry : List Nat) (rs : List RecOut) : State :=
  let t := (useBuf s buf entry).modBuf buf (fun b => { b with queue := b.queue ++ rs })
  { t with hp := { t.hp with replays := t.hp.replays ++ [{ hdr := h, stream := i, buf := buf, left := rs.length, done := 0 }] } }

section
variable {s : State} {h : CmdHdr} {i buf first last : Nat} {entry : List Nat}

theorem replayCmd_barred (hbarred : s.barred = true) : replayCmd s h i buf first last entry = (s.begin h).refuse h .modeForbids :=
  if_pos ((begin_barred s h).trans hbarred)

variable (hopen : s.barred = false)
include hopen

theorem replayCmd_bad (hbad : s.formed i = none ∨ last < first ∨ 8 ≤ s.hp.replays.length ∨ bufOk s buf entry = false) :
    replayCmd s h i buf first last entry = (s.begin h).refuse h .badParam := by
  cases hf : s.formed i with
  | none => simp [replayCmd, hopen, hf]
  | some n =>
    have hcheck : last < first ∨ 8 ≤ s.hp.replays.length ∨ bufOk s buf entry = false := by simpa [hf] using hbad
    rcases hcheck with hc | hc | hc <;> simp [replayCmd, hopen, hf, hc]

variable {n : Nat} (hf : s.formed i = some n) (hrange : first ≤ last) (hroom : s.hp.replays.length < 8) (hbuf : bufOk s buf entry = true)
include hf hrange hroom hbuf

theorem replayCmd_none (hn : n ≤ first) : replayCmd s h i buf first last entry = (s.begin h).complete h .ok 0 := by
  simp [replayCmd, hopen, hf, Nat.not_lt.2 hrange, Nat.not_le.2 hroom, hbuf, hn]

theorem replayCmd_some (hn : first < n) (hrs : replayRecords s i buf first (min last (n - 1)) ≠ []) :
    replayCmd s h i buf first last entry = replayBegun (s.begin h) h i buf entry (replayRecords s i buf first (min last (n - 1))) := by
  have hpos : n ≠ 0 := by omega
  simp [replayCmd, replayBegun, hopen, hf, Nat.not_lt.2 hrange, Nat.not_le.2 hroom, hbuf, Nat.not_le.2 hn, hpos, hrs]

end

theorem replayBegun_leaves (s : State) (h : CmdHdr) (i buf : Nat) (entry : List Nat) (rs : List RecOut) :
    ((replayBegun s h i buf entry rs).sbuf buf).queue = (s.sbuf buf).queue ++ rs ∧
    (replayBegun s h i buf entry rs).hp.replays = s.hp.replays ++ [⟨h, i, buf, rs.length, 0⟩] ∧
    (carried s h → carried (replayBegun s h i buf entry rs) h) ∧
    replayBegun s h i buf entry rs = { s with hp := (replayBegun s h i buf entry rs).hp } := by
  have hqueue := (useBuf_sbuf s buf entry).2
  have hframe : useBuf s buf entry = { s with hp := (useBuf s buf entry).hp } := rfl
  have hreplays : (useBuf s buf entry).hp.replays = s.hp.replays := rfl
  have hin : (useBuf s buf entry).hp.inflight = s.hp.inflight := rfl
  rw [replayBegun]
  generalize useBuf s buf entry = u at *
  refine ⟨?_, ?_, ?_, ?_⟩
  · rw [← hqueue]
    exact (congrArg SBuf.queue (sbuf_modBuf u buf (fun b => { b with queue := b.queue ++ rs })) :)
  · rw [← hreplays]
    rfl
  · rw [carried, ← hin]
    exact id
  · rw [hframe]
    rfl

/-! ## What a stream command that is turned away leaves, and what one that is accepted leaves -/

theorem refused_answers {s : State} {h : CmdHdr} (hring : byRing s h) {u : State} {st : Status} (hu : u = (s.begin h).refuse h st) :
    ∃ t, answer s u = .next t ∧ settled t h ∧ posts s t h st := by
  subst hu
  exact answer_of ⟨refuse_settled _ h st, begin_refuse_posts s h st hring⟩

theorem sbuf_congr {s t : State} (h : t.hp.bufs = s.hp.bufs) (b : Nat) : t.sbuf b = s.sbuf b := by rw [State.sbuf, h, State.sbuf]

section
variable {s : State} {h : CmdHdr} (hring : byRing s h) (hopen : s.barred = false)
include hopen

section
variable {raw : List Nat} {buf : Nat} {entry : List Nat} (hraw : raw.length = 56) (hok : openOk s (parseDef raw) = true)
  (hbuf : bufOk s buf entry = true)
include hraw hok hbuf

include hring in
/-- STREAM_OPEN without an instant opens the stream at the present edge. -/
theorem streamOpen_now_leaves (hinst : h.inst = .none) :
    ∃ t, exec (.streamOpen h raw buf entry) s = .next t ∧ settled t h ∧ posts s t h .ok ∧
      (∃ x, t.stream (parseDef raw).id = some x ∧ x.defn = parseDef raw ∧ x.raw = raw ∧ x.buf = buf ∧ x.openAt = s.now ∧ x.seq = 0 ∧ x.closeAt = none) ∧
      (∀ j, j ≠ (parseDef raw).id → t.stream j = s.stream j) ∧ (t.sbuf buf).users = (s.sbuf buf).users + 1 ∧
      t.rd Reg.RD_STAT_OPEN = t.openStreams.length % 2 ^ 11 ∧ t.rd (Reg.RD_STREAM_STAT_STATE (parseDef raw).id) = 2 ∧
      t = { s with regs := t.regs, rd_ := t.rd_, hp := t.hp, kn := t.kn } ∧
      onlyRegs s t [Reg.RD_STAT_OPEN, Reg.RD_STAT_LOAD_PCT, Reg.RD_STREAM_STAT_STATE (parseDef raw).id] := by
  have hnow : (useBuf (s.begin h) buf entry).now = s.now := State.begin_now s h
  have hused := (useBuf_sbuf (s.begin h) buf entry).1
  have hothers (j : Nat) : (useBuf (s.begin h) buf entry).stream j = s.stream j := begin_stream s h j
  have hrd (f : Fld) : (useBuf (s.begin h) buf entry).rd f = s.rd f := State.begin_rd s h f
  have hbegun : sameBooks (s.begin h) (useBuf (s.begin h) buf entry) := ⟨rfl, rfl⟩
  have hframe : useBuf (s.begin h) buf entry = { s with hp := (useBuf (s.begin h) buf entry).hp } := by rw [begin_frame]; rfl
  refine answer_of (u := streamOpen s h raw buf entry) ?_
  rw [streamOpen_now hopen hraw hok hbuf hinst]
  generalize useBuf (s.begin h) buf entry = v at *
  obtain ⟨hopened, -, hbooks, hregs⟩ := openStream_frame v (parseDef raw) raw buf s.now
  obtain ⟨hself, hne⟩ := openStream_stream v (parseDef raw) raw buf s.now
  obtain ⟨hstate, hcount⟩ := openStream_shows v (parseDef raw) raw buf s.now
  generalize openStream v (parseDef raw) raw buf s.now = u at *
  obtain ⟨hp, hdone, hbufs, hsettled, hposts⟩ := complete_answers hring (sameBooks_trans hbegun hbooks) .ok 0
  have husers : (u.sbuf buf).users = (s.sbuf buf).users + 1 := by
    rw [sbuf_congr (s := v) (congrArg (fun w => w.hp.bufs) hopened) buf, hused, begin_sbuf]
  rw [hdone]
  refine ⟨hsettled, hposts, ⟨_, hself, rfl, rfl, rfl, rfl, rfl, rfl⟩, fun j hj => (hne j hj).trans (hothers j), ?_, hcount, ?_, ?_, ?_⟩
  · exact (congrArg SBuf.users (sbuf_congr hbufs buf)).trans husers
  · exact hstate.trans (by rw [if_neg (by omega)])
  · rw [hopened, hframe]
    rfl
  · exact fun f hf => (hregs f hf).trans (hrd f)

include hring in
/-- STREAM_OPEN at an instant enters the opening into the scheduler: the stream waits, and shows it. -/
theorem streamOpen_later_leaves {e : Nat} (hinst : h.inst = .edge e) (he : s.now < e) (hroom : s.tb.sched.length < 4096) :
    ∃ t, exec (.streamOpen h raw buf entry) s = .next t ∧ settled t h ∧ posts s t h .ok ∧
      (∃ x, t.stream (parseDef raw).id = some x ∧ x.defn = parseDef raw ∧ x.openAt = e ∧ x.seq = 0) ∧
      t.rd (Reg.RD_STREAM_STAT_STATE (parseDef raw).id) = 1 ∧
      (∃ q, t.tb.sched = s.tb.sched ++ [q] ∧ q.at_ = e ∧ q.act = .streamOpen (parseDef raw).id) := by
  obtain ⟨q, hq, hedge, hact⟩ := schedEnter_sched (s.begin h) e (.streamOpen (parseDef raw).id)
  rw [State.begin_tb] at hq
  have hentered : (useBuf (schedEnter (s.begin h) e (.streamOpen (parseDef raw).id)) buf entry).tb.sched = s.tb.sched ++ [q] := hq
  have hnow : (useBuf (schedEnter (s.begin h) e (.streamOpen (parseDef raw).id)) buf entry).now = s.now := State.begin_now s h
  have hbegun : sameBooks (s.begin h) (useBuf (schedEnter (s.begin h) e (.streamOpen (parseDef raw).id)) buf entry) := ⟨rfl, rfl⟩
  refine answer_of (u := streamOpen s h raw buf entry) ?_
  rw [streamOpen_later hopen hraw hok hbuf hinst he hroom]
  generalize useBuf (schedEnter (s.begin h) e (.streamOpen (parseDef raw).id)) buf entry = v at *
  obtain ⟨hopened, -, hbooks, -⟩ := openStream_frame v (parseDef raw) raw buf e
  obtain ⟨hself, -⟩ := openStream_stream v (parseDef raw) raw buf e
  obtain ⟨hstate, -⟩ := openStream_shows v (parseDef raw) raw buf e
  generalize openStream v (parseDef raw) raw buf e = u at *
  have hsched : u.tb.sched = v.tb.sched := (congrArg (fun w => w.tb.sched) hopened :)
  obtain ⟨hp, hdone, -, hsettled, hposts⟩ := complete_answers hring (sameBooks_trans hbegun hbooks) .ok 0
  rw [hdone]
  refine ⟨hsettled, hposts, ⟨_, hself, rfl, rfl, rfl⟩, hstate.trans (if_pos (by omega)), q, hsched.trans hentered, hedge, hact⟩

end

section
variable {i : Nat} {x : Stream} (hi : i < 1024) (hx : s.stream i = some x) (hclose : x.closeAt = none)
include hi hx hclose

include hring in
/-- STREAM_CLOSE with no tick left ends the stream at once. -/
theorem streamClose_now_leaves (hinst : h.inst = .none) (hahead : s.ahead x (x.lastSrc s.now) = true) :
    ∃ t, exec (.streamClose h i) s = .next t ∧ settled t h ∧ posts s t h .ok ∧ t.stream i = none ∧ t.kn.ckpts.get none i = none ∧
      t.rd (Reg.RD_STREAM_STAT_STATE i) = 0 ∧ lastBark t 1 0x0131 := by
  have hmarked : sameBooks (s.begin h) (closeMarked (s.begin h) h i x s.now) := sameBooks_closeMarked (s.begin h) h i x s.now
  have hself := closeMarked_stream (s.begin h) h i x s.now
  have hdrained := closeMarked_drained hahead h i
  refine answer_of (u := streamClose s h i) ?_
  rw [streamClose_now hopen hi hx hclose hinst]
  obtain ⟨u, r, hend, hbooks, hnone, hckpts, hstate, hbark⟩ := finishClose_leaves hself rfl hdrained
  obtain ⟨hp, hdone, -, hsettled, hposts⟩ := complete_answers hring (sameBooks_trans hmarked hbooks) .ok r
  rw [hend, hdone]
  exact ⟨hsettled, hposts, hnone, hckpts, hstate, hbark⟩

/-- STREAM_CLOSE at an instant waits for it. -/
theorem streamClose_later_leaves {e : Nat} (hinst : h.inst = .edge e) (he : s.now < e) (hroom : s.tb.sched.length < 4096) :
    ∃ t, exec (.streamClose h i) s = .next t ∧ carried t h ∧ t.stream i = some { x with closeAt := some (e, h) } ∧
      t.rd (Reg.RD_STREAM_STAT_STATE i) = 4 ∧ (∃ q, t.tb.sched = s.tb.sched ++ [q] ∧ q.at_ = e ∧ q.act = .streamClose i) ∧
      t = { s with regs := t.regs, rd_ := t.rd_, hp := t.hp, kn := t.kn, tb := t.tb } ∧ onlyRegs s t [Reg.RD_STREAM_STAT_STATE i] := by
  refine answer_of (u := streamClose s h i) ?_
  rw [streamClose_later hopen hi hx hclose hinst he hroom]
  have hself := closeMarked_stream (s.begin h) h i x e
  have hstate := closeMarked_rd_state (s.begin h) h i x e
  have hregs := onlyRegs_closeMarked (s.begin h) h i x e
  have hframe := closeMarked_frame (s.begin h) h i x e
  have hrd (f : Fld) : (s.begin h).rd f = s.rd f := State.begin_rd s h f
  have htb : (s.begin h).tb = s.tb := State.begin_tb s h
  have hcarried : carried (s.begin h) h := begin_carried s h
  have hbegun : s.begin h = { s with hp := (s.begin h).hp } := begin_frame s h
  generalize s.begin h = b at *
  generalize closeMarked b h i x e = v at *
  obtain ⟨q, hq, hedge, hact⟩ := schedEnter_sched v e (.streamClose i)
  have hsched : v.tb.sched = s.tb.sched := (congrArg (fun w => w.tb.sched) hframe :).trans (congrArg TbSt.sched htb)
  have hin : v.hp = b.hp := (congrArg State.hp hframe :)
  refine ⟨?_, hself, hstate, ⟨q, hq.trans (by rw [hsched]), hedge, hact⟩, ?_, fun f hf => (hregs f hf).trans (hrd f)⟩
  · exact (congrArg (fun w : HpSt => w.inflight.any (fun f => sameCmd f.hdr h)) hin).trans hcarried
  · rw [hframe, hbegun]
    rfl

end

section
variable {i buf first last n : Nat} {entry : List Nat} (hf : s.formed i = some n) (hrange : first ≤ last) (hfree : s.hp.replays.length < 8)
  (hbuf : bufOk s buf entry = true)
include hf hrange hfree hbuf

include hring in
/-- REPLAY of a range that lies beyond what the stream has formed has no record to send. -/
theorem replay_none_leaves (hn : n ≤ first) : ∃ t, exec (.replay h i buf first last entry) s = .next t ∧ settled t h ∧ posts s t h .ok ∧
    t = { s with hp := t.hp } := by
  refine answer_of (u := replayCmd s h i buf first last entry) ?_
  rw [replayCmd_none hopen hf hrange hfree hbuf hn]
  have hbegun : s.begin h = { s with hp := (s.begin h).hp } := begin_frame s h
  obtain ⟨hp, hdone, -, hsettled, hposts⟩ := complete_answers hring (sameBooks_refl _) .ok 0
  rw [hdone]
  refine ⟨hsettled, hposts, ?_⟩
  rw [hbegun]
  rfl

/-- REPLAY of records that are kept puts them into the buffer's queue, and runs until they are sent. -/
theorem replay_some_leaves (hn : first < n) (hrs : replayRecords s i buf first (min last (n - 1)) ≠ []) :
    ∃ t, exec (.replay h i buf first last entry) s = .next t ∧ carried t h ∧
      (t.sbuf buf).queue = (s.sbuf buf).queue ++ replayRecords s i buf first (min last (n - 1)) ∧
      t.hp.replays = s.hp.replays ++ [⟨h, i, buf, (replayRecords s i buf first (min last (n - 1))).length, 0⟩] ∧ t = { s with hp := t.hp } := by
  refine answer_of (u := replayCmd s h i buf first last entry) ?_
  rw [replayCmd_some hopen hf hrange hfree hbuf hn hrs]
  generalize replayRecords s i buf first (min last (n - 1)) = rs
  obtain ⟨hqueue, hreplays, hcarried, hframe⟩ := replayBegun_leaves (s.begin h) h i buf entry rs
  have hbegun : s.begin h = { s with hp := (s.begin h).hp } := begin_frame s h
  rw [begin_sbuf] at hqueue
  rw [begin_replays] at hreplays
  refine ⟨hcarried (begin_carried s h), hqueue, hreplays, ?_⟩
  rw [hframe, hbegun]
  rfl

end

end

/-- Settles O18, command by command: a refusal posts its status behind the books that acceptance left, and every accepted command is its work on
the streams and the buffers, which leaves the books of commands alone, followed by a completion or by an entry of the scheduler. -/
theorem streamCommands : Obligations.StreamCommands := by
  unfold Obligations.StreamCommands
  intro s h hring
  refine ⟨fun hbarred i raw buf first last entry c hc => ?_, fun raw buf entry hopen hbad => ?_,
    fun raw buf entry hopen hraw hok hbuf hinst => streamOpen_now_leaves hring hopen hraw hok hbuf hinst,
    fun raw buf entry e hopen hraw hok hbuf hinst he hroom => streamOpen_later_leaves hring hopen hraw hok hbuf hinst he hroom,
    fun i hopen hbad => ?_,
    fun i x hopen hi hx hclose hinst hahead => streamClose_now_leaves hring hopen hi hx hclose hinst hahead,
    fun i x e hopen hi hx hclose hinst he hroom => streamClose_later_leaves hopen hi hx hclose hinst he hroom,
    fun i buf first last entry hopen hbad => ?_,
    fun i buf first last entry n hopen hf hrange hfree hbuf =>
      ⟨replay_none_leaves hring hopen hf hrange hfree hbuf, replay_some_leaves hopen hf hrange hfree hbuf⟩⟩
  · simp only [List.mem_cons, List.not_mem_nil, or_false] at hc
    rcases hc with rfl | rfl | rfl
    · exact refused_answers hring (streamOpen_barred hbarred)
    · exact refused_answers hring (streamClose_barred hbarred)
    · exact refused_answers hring (replayCmd_barred hbarred)
  · exact refused_answers hring (streamOpen_bad hopen hbad)
  · exact refused_answers hring (streamClose_bad hopen hbad)
  · exact refused_answers hring (replayCmd_bad hopen hbad)

end Sys2Proof.Machine
end

