-- ==== Sys2Proof/Proofs/ResolverChannels.lean ====
section
/-! PROOFS. Resolver channels (R182, R194, R195): which fields share no bit, what every event of a channel shows, what a drop leaves of it, and
the settings that its events do not reach. -/

namespace Sys2Proof.Machine

/-! ## Fields of a resolver channel -/

/-- The place of a field in RDC_STAT of some channel. -/
def statBlock (k : Nat) : Prop := 8 * 0x50000 ≤ k ∧ 0x1400 ≤ k / 8 % 0x8000 ∧ k / 8 % 0x8000 < 0x1500

theorem statBlock_of_stat {k c n : Nat} (hk : k = 8 * (0x51400 + 0x8000 * (c / 16) + 16 * (c % 16)) + n) (hn : n < 128) :
    statBlock k ∧ k % 128 = n := by
  unfold statBlock
  omega

/-- Fields of RDC_STAT at different bits of an element. -/
theorem stat_bit_ne {j k : Nat} (c d m n : Nat) (hj : j = 8 * (0x51400 + 0x8000 * (c / 16) + 16 * (c % 16)) + m)
    (hk : k = 8 * (0x51400 + 0x8000 * (d / 16) + 16 * (d % 16)) + n) (h : m % 128 ≠ n % 128) : j ≠ k := by omega

/-- A field of RDC_STAT is no field of RDC_CNT. -/
theorem stat_ne_cnt {j k : Nat} (c d m n : Nat) (hj : j = 8 * (0x51400 + 0x8000 * (c / 16) + 16 * (c % 16)) + m)
    (hk : k = 8 * (0x51880 + 0x8000 * (d / 16) + 16 * (d % 16)) + n) (h : m < 128 ∧ n < 128) : j ≠ k := by omega

theorem mem_shown {k d : Nat} (h : k ∈ (rdcShown d).map Fld.key) : statBlock k ∧ k % 128 ∈ [0, 3, 4, 5, 7] := by
  simp only [rdcShown, List.map_cons, List.map_nil, List.mem_cons, List.not_mem_nil, or_false] at h ⊢
  rcases h with h | h | h | h | h
  all_goals
    obtain ⟨hblock, hbit⟩ := statBlock_of_stat (c := d) h (by decide)
    exact ⟨hblock, by omega⟩

/-- A field of RDC_STAT at another bit than those that every event shows. -/
theorem not_shown_of_bit {k : Nat} (c d n : Nat) (hk : k = 8 * (0x51400 + 0x8000 * (c / 16) + 16 * (c % 16)) + n)
    (hn : n < 128 ∧ n ∉ [0, 3, 4, 5, 7]) : k ∉ (rdcShown d).map Fld.key :=
  fun h => hn.2 ((statBlock_of_stat hk hn.1).2 ▸ (mem_shown h).2)

theorem not_shown_of_cnt {k : Nat} (c d n : Nat) (hk : k = 8 * (0x51880 + 0x8000 * (c / 16) + 16 * (c % 16)) + n) (hn : n < 128) :
    k ∉ (rdcShown d).map Fld.key := by
  intro h
  have hblock := (mem_shown h).1
  unfold statBlock at hblock
  omega

/-! ## Flags -/

theorem State.flag_wrB_self (s : State) {f : Fld} (b : Bool) (hf : f.width = 1 := by rfl) : (s.wrB f b).flag f = b := by
  rw [State.flag, State.rd_wrB_self, hf]
  cases b <;> rfl

theorem State.rd_wrB_bit (s : State) {f : Fld} (b : Bool) (hf : f.width = 1 := by rfl) : (s.wrB f b).rd f = b2n b := by
  rw [State.rd_wrB_self, hf]
  cases b <;> rfl

/-! ## The channel's state -/

@[simp] theorem rdc_modRdc_self (s : State) (c : Nat) (g : Rdc → Rdc) : (s.modRdc c g).rdc c = g (s.rdc c) := Sparse.get_put_self _ _ _ _

theorem rdc_modRdc_ne (s : State) {c d : Nat} (h : c ≠ d) (g : Rdc → Rdc) : (s.modRdc c g).rdc d = s.rdc d := Sparse.get_put_ne _ _ _ h _

@[simp] theorem rd_modRdc (s : State) (c : Nat) (g : Rdc → Rdc) (f : Fld) : (s.modRdc c g).rd f = s.rd f := rfl

@[simp] theorem rdc_wr (s : State) (f : Fld) (v c : Nat) : (s.wr f v).rdc c = s.rdc c := rfl
@[simp] theorem rdc_set (s : State) (f : Fld) (c : Nat) : (s.set f).rdc c = s.rdc c := rfl
@[simp] theorem rdc_clr (s : State) (f : Fld) (c : Nat) : (s.clr f).rdc c = s.rdc c := rfl
@[simp] theorem rdc_bark (s : State) (src code : Nat) (w : Bool) (p : List Nat) (c : Nat) : (s.bark src code w p).rdc c = s.rdc c := rfl

@[simp] theorem rdc_barkEvery (s : State) (span elem src code : Nat) (w : Bool) (p : List Nat) (c : Nat) :
    (s.barkEvery span elem src code w p).rdc c = s.rdc c := by
  rw [State.rdc, State.barkEvery_ax]
  rfl

/-! ## What an event may change -/

/-- Only registers, axis cards and barks have changed. -/
def onlyAxes (s t : State) : Prop := t = { s with regs := t.regs, ax := t.ax, bq := t.bq }

theorem onlyAxes.refl (s : State) : onlyAxes s s := rfl

theorem onlyAxes.modRdc (s : State) (c : Nat) (g : Rdc → Rdc) : onlyAxes s (s.modRdc c g) := rfl

theorem onlyAxes.wr (s : State) (f : Fld) (v : Nat) : onlyAxes s (s.wr f v) := rfl

theorem onlyAxes.trans {s t u : State} (h : onlyAxes s t) (k : onlyAxes t u) : onlyAxes s u := by
  unfold onlyAxes at *
  rw [k, h]

theorem onlyAxes.foldl {α : Type} {g : State → α → State} (hg : ∀ s a, onlyAxes s (g s a)) (l : List α) (s : State) : onlyAxes s (l.foldl g s) := by
  induction l generalizing s with
  | nil => exact .refl s
  | cons a l ih => exact (hg s a).trans (ih _)

theorem onlyAxes.barkEvery {s t : State} (h : onlyAxes s t) (span elem src code : Nat) (w : Bool) (p : List Nat) :
    onlyAxes s (t.barkEvery span elem src code w p) := by
  refine h.trans ?_
  unfold onlyAxes
  rw [State.barkEvery_regs, State.barkEvery_ax]
  exact barkEvery_frame t span elem src code w p

/-- Where no bark was raised, registers and axis cards alone have changed. -/
theorem onlyAxes.quiet {s t : State} (h : onlyAxes s t) (hbq : t.bq = s.bq) : t = { s with regs := t.regs, ax := t.ax } := by
  unfold onlyAxes at h
  rw [hbq] at h
  exact h

/-- The same of the answer to a write. -/
theorem onlyAxes.answered {s t : State} (h : onlyAxes s t) (hbq : t.bq = s.bq) (kn : KnSt) :
    { t with pending := s.pending, kn := kn } = { s with regs := t.regs, ax := t.ax, kn := kn } := by
  rw [h.quiet hbq]

/-- Where the axis cards stand, registers and barks alone have changed. -/
theorem onlyAxes.still {s t : State} (h : onlyAxes s t) (hax : t.ax = s.ax) : t = { s with regs := t.regs, bq := t.bq } := by
  unfold onlyAxes at h
  rw [hax] at h
  exact h

theorem onlyAxes.pending {s t : State} (h : onlyAxes s t) : t.pending = s.pending := by
  unfold onlyAxes at h
  rw [h]

/-- A row of a channel that exists, by its effect. -/
theorem channel_answer {s t u : State} {c : Nat} (hc : c < 32) (hu : u = t) (h : onlyAxes s t) :
    guardItem (c < 32) (answer s u) = .next t := by
  rw [hu]
  exact guardItem_answer (decide_eq_true hc) h.pending

/-- A write of a command bit of a channel that exists: what holds of its effect whatever the kennel then holds, holds of the answer. -/
theorem channel_taken {s : State} {src : WrSrc} {r : RegId} {c k i v : Nat} {act : State → State} {P : State → Prop} (hc : c < 32)
    (htakes : s.takes src r k i true = true) (h : ∀ kn, P { act s with pending := s.pending, kn := kn }) :
    ∃ t, guardItem (c < 32) (answer s (s.write src r k i true (fun t => (act t).journalW src r k i v))) = .next t ∧ P t := by
  rw [guardItem, if_pos (decide_eq_true hc)]
  exact taken_journalled htakes h

/-! ## Settings: what no event of a channel changes (R196, R200) -/

/-- The settings of a channel, the mode, the parts and the domains: registers below the axis cards, RDC_CFG, RDC_LOOP, RDC_HARM_CFG, and
CFG_BAD. -/
def settingKey (k : Nat) : Prop :=
  k < 8 * 0x50000 ∨ (0x1000 ≤ k / 8 % 0x8000 ∧ k / 8 % 0x8000 < 0x1400) ∨ (0x1A00 ≤ k / 8 % 0x8000 ∧ k / 8 % 0x8000 < 0x1A80) ∨
    (statBlock k ∧ k % 128 = 12)

/-- From `s` to `t` the instant and every setting of the channels stand. -/
structure SameSettings (s t : State) : Prop where
  lag : t.lag = s.lag
  hub : t.hub = s.hub
  now : t.now = s.now
  run : t.run = s.run
  rd : ∀ f : Fld, settingKey f.key → t.rd f = s.rd f

theorem SameSettings.refl (s : State) : SameSettings s s := ⟨rfl, rfl, rfl, rfl, fun _ _ => rfl⟩

theorem SameSettings.trans {s t u : State} (h : SameSettings s t) (k : SameSettings t u) : SameSettings s u :=
  ⟨k.lag.trans h.lag, k.hub.trans h.hub, k.now.trans h.now, k.run.trans h.run, fun f hf => (k.rd f hf).trans (h.rd f hf)⟩

/-- A field of RDC_STAT other than CFG_BAD is no setting. -/
theorem not_setting_of_bit {k : Nat} (c n : Nat) (hk : k = 8 * (0x51400 + 0x8000 * (c / 16) + 16 * (c % 16)) + n) (hn : n < 128 ∧ n ≠ 12) :
    ¬ settingKey k := by
  unfold settingKey statBlock
  omega

theorem not_setting_of_cnt {k : Nat} (c n : Nat) (hk : k = 8 * (0x51880 + 0x8000 * (c / 16) + 16 * (c % 16)) + n) (hn : n < 128) :
    ¬ settingKey k := by
  unfold settingKey statBlock
  omega

theorem not_setting_of_shown {k d : Nat} (h : k ∈ (rdcShown d).map Fld.key) : ¬ settingKey k := by
  obtain ⟨hblock, hbit⟩ := mem_shown h
  simp only [List.mem_cons, List.not_mem_nil, or_false] at hbit
  unfold settingKey
  unfold statBlock at *
  omega

theorem SameSettings.wr {s t : State} (h : SameSettings s t) {f : Fld} (hf : ¬ settingKey f.key) (v : Nat) : SameSettings s (t.wr f v) :=
  h.trans ⟨rfl, rfl, rfl, rfl, fun _ hg => State.rd_wr_ne t v fun he => hf (he ▸ hg)⟩

theorem SameSettings.modRdc {s t : State} (h : SameSettings s t) (c : Nat) (g : Rdc → Rdc) : SameSettings s (t.modRdc c g) :=
  h.trans ⟨rfl, rfl, rfl, rfl, fun _ _ => rfl⟩

theorem SameSettings.bark {s t : State} (h : SameSettings s t) (src code : Nat) (w : Bool) (p : List Nat) : SameSettings s (t.bark src code w p) :=
  h.trans ⟨rfl, rfl, rfl, rfl, fun _ _ => rfl⟩

theorem SameSettings.barkEvery {s t : State} (h : SameSettings s t) (span elem src code : Nat) (w : Bool) (p : List Nat) :
    SameSettings s (t.barkEvery span elem src code w p) :=
  h.trans ⟨State.barkEvery_lag _ _ _ _ _ _ _, State.barkEvery_hub _ _ _ _ _ _ _, State.barkEvery_now _ _ _ _ _ _ _,
    State.barkEvery_run _ _ _ _ _ _ _, fun _ _ => State.barkEvery_rd _ _ _ _ _ _ _ _⟩

section
variable {s t : State} (h : SameSettings s t)
include h

theorem SameSettings.eff {f : Fld} (hf : settingKey f.key) : t.eff f = s.eff f := by
  unfold State.eff
  rw [h.lag, h.rd f hf]

theorem SameSettings.axUp {k : Nat} (hk : k < 2) : t.axUp k = s.axUp k := by
  have hpart : settingKey (partFld (16 + k)).key := Or.inl (by simp only [partFld]; omega)
  unfold State.axUp State.inService State.domOn
  rw [h.rd _ hpart, h.rd Reg.PW_DOMAIN_STAT_ON (Or.inl (by decide))]

theorem SameSettings.rdcOn {c : Nat} (hc : c < 32) : t.rdcOn c = s.rdcOn c := by
  have hen : settingKey (Reg.RDC_CFG_EN c).key := by unfold settingKey; dsimp only [Reg.RDC_CFG_EN]; omega
  have hbad : settingKey (Reg.RDC_STAT_CFG_BAD c).key := by unfold settingKey statBlock; dsimp only [Reg.RDC_STAT_CFG_BAD]; omega
  unfold State.rdcOn State.sampling State.mode State.flag State.slot
  rw [h.eff hen, h.rd _ hbad, h.rd Reg.HUB_MODE_MODE (Or.inl (by decide)), h.axUp (by omega), h.hub]

theorem SameSettings.excSrc (c : Nat) : t.excSrc c = s.excSrc c := by
  unfold State.excSrc
  rw [h.eff (by unfold settingKey; dsimp only [Reg.RDC_CFG_EXC_SRC]; omega)]

theorem SameSettings.paired (c : Nat) : t.paired c = s.paired c := by
  unfold State.paired
  rw [h.eff (by unfold settingKey; dsimp only [Reg.RDC_CFG_PAIR_EN]; omega)]

end

/-! ## A bit of the channel sets, and barks at most once a second (R194) -/

/-- A field of RDC_STAT that is a flag, and neither a setting nor shown at every event. -/
structure FaultFlag (f : Nat → Fld) (n : Nat) : Prop where
  key : ∀ c, (f c).key = 8 * (0x51400 + 0x8000 * (c / 16) + 16 * (c % 16)) + n
  width : ∀ c, (f c).width = 1
  bit : n < 128 ∧ n ≠ 12 ∧ n ∉ [0, 3, 4, 5, 7]

section
variable {f : Nat → Fld} {n : Nat}

theorem FaultFlag.not_shown (h : FaultFlag f n) (c d : Nat) : (f c).key ∉ (rdcShown d).map Fld.key :=
  not_shown_of_bit c d n (h.key c) ⟨h.bit.1, h.bit.2.2⟩

theorem FaultFlag.not_setting (h : FaultFlag f n) (c : Nat) : ¬ settingKey (f c).key := not_setting_of_bit c n (h.key c) ⟨h.bit.1, h.bit.2.1⟩

variable (s : State) (c ev : Nat) (p : List Nat)

theorem rd_rdcOnset (g : Fld) : (rdcOnset s c f ev p).rd g = (s.set (f c)).rd g := State.barkEvery_rd _ _ _ _ _ _ _ _

theorem onlyRegs_rdcOnset : onlyRegs s (rdcOnset s c f ev p) [f c] := onlyRegs_of_rd (onlyRegs_wr s (f c) 1) (rd_rdcOnset s c ev p)

@[simp] theorem rdc_rdcOnset (d : Nat) : (rdcOnset s c f ev p).rdc d = s.rdc d := rdc_barkEvery _ _ _ _ _ _ _ _

theorem onlyAxes_rdcOnset : onlyAxes s (rdcOnset s c f ev p) := onlyAxes.barkEvery (t := s.set (f c)) rfl _ _ _ _ _ _

theorem ax_rdcOnset : (rdcOnset s c f ev p).ax = s.ax := State.barkEvery_ax _ _ _ _ _ _ _

theorem flag_rdcOnset (hf : FaultFlag f n) : (rdcOnset s c f ev p).flag (f c) = true := by
  rw [State.flag_congr (rd_rdcOnset s c ev p (f c))]
  exact State.flag_set_self s (hf.width c)

theorem sameSettings_rdcOnset (hf : FaultFlag f n) : SameSettings s (rdcOnset s c f ev p) :=
  ((SameSettings.refl s).wr (hf.not_setting c) 1).barkEvery _ _ _ _ _ _

end

/-! ## What every event of a channel shows (R194, R197) -/

/-- The channel as it is judged for what it shows: only whether it has left OFF is new. -/
def State.judgedUp (s : State) (c : Nat) : State := s.modRdc c fun k => { k with up := s.rdcOn c && ((s.rdc c).up || s.ampOn (s.excSrc c)) }

/-- The code of RDC_STAT.STATE. -/
def State.rdcCode (s : State) (c : Nat) : Nat :=
  if !(s.rdc c).up then 0
  else if (s.rdc c).wire || (s.rdc c).conv || s.run < (s.rdc c).retryAt || (s.rdc c).ph = 0 then 1 else (s.rdc c).ph + 1

/-- The fields that every event of a channel writes. -/
def showBits (s : State) (c st : Nat) (valid pair overrange learning : Bool) : State :=
  ((((s.wr (Reg.RDC_STAT_STATE c) st).wrB (Reg.RDC_STAT_VALID c) valid).wrB (Reg.RDC_STAT_PAIR_VALID c) pair).wrB (Reg.RDC_STAT_OR_NOW c) overrange).wrB
    (Reg.RDC_STAT_LEARNING c) learning

theorem rdc_judgedUp (s : State) (c : Nat) :
    (s.judgedUp c).rdc c = { s.rdc c with up := s.rdcOn c && ((s.rdc c).up || s.ampOn (s.excSrc c)) } := by
  rw [State.judgedUp, rdc_modRdc_self]

theorem showRdc_eq (s : State) (c : Nat) : showRdc s c = showBits (s.judgedUp c) c ((s.judgedUp c).rdcCode c) ((s.judgedUp c).rdcOwn c)
    ((s.judgedUp c).paired c && (s.judgedUp c).rdcValid c) ((s.judgedUp c).rdcOver c) ((s.judgedUp c).rdc c).learn.isSome := by
  have hcode : (s.judgedUp c).rdcCode c = (if !(s.rdcOn c && ((s.rdc c).up || s.ampOn (s.excSrc c))) then 0
      else if ((s.judgedUp c).rdc c).wire || ((s.judgedUp c).rdc c).conv || (s.judgedUp c).run < ((s.judgedUp c).rdc c).retryAt ||
        ((s.judgedUp c).rdc c).ph = 0 then 1 else ((s.judgedUp c).rdc c).ph + 1) := by
    rw [State.rdcCode, rdc_judgedUp]
  rw [hcode]
  rfl

section
variable (s : State) (c st : Nat) (valid pair overrange learning : Bool)

theorem rdc_showBits (d : Nat) : (showBits s c st valid pair overrange learning).rdc d = s.rdc d := rfl

theorem onlyAxes_showBits : onlyAxes s (showBits s c st valid pair overrange learning) := rfl

theorem rd_showBits_state : (showBits s c st valid pair overrange learning).rd (Reg.RDC_STAT_STATE c) = st % 2 ^ 3 := by
  have hne {j : Nat} (m : Nat) (hj : j = 8 * (0x51400 + 0x8000 * (c / 16) + 16 * (c % 16)) + m) (hm : m % 128 ≠ 0 % 128) :
      j ≠ (Reg.RDC_STAT_STATE c).key := stat_bit_ne c c m 0 hj rfl hm
  rw [showBits, State.rd_wrB_ne _ _ (hne 7 rfl (by decide)), State.rd_wrB_ne _ _ (hne 5 rfl (by decide)),
    State.rd_wrB_ne _ _ (hne 4 rfl (by decide)), State.rd_wrB_ne _ _ (hne 3 rfl (by decide)), State.rd_wr_self]
  rfl

theorem rd_showBits_valid : (showBits s c st valid pair overrange learning).rd (Reg.RDC_STAT_VALID c) = b2n valid := by
  have hne {j : Nat} (m : Nat) (hj : j = 8 * (0x51400 + 0x8000 * (c / 16) + 16 * (c % 16)) + m) (hm : m % 128 ≠ 3 % 128) :
      j ≠ (Reg.RDC_STAT_VALID c).key := stat_bit_ne c c m 3 hj rfl hm
  rw [showBits, State.rd_wrB_ne _ _ (hne 7 rfl (by decide)), State.rd_wrB_ne _ _ (hne 5 rfl (by decide)),
    State.rd_wrB_ne _ _ (hne 4 rfl (by decide)), State.rd_wrB_bit]

theorem rd_showBits_pair : (showBits s c st valid pair overrange learning).rd (Reg.RDC_STAT_PAIR_VALID c) = b2n pair := by
  have hne {j : Nat} (m : Nat) (hj : j = 8 * (0x51400 + 0x8000 * (c / 16) + 16 * (c % 16)) + m) (hm : m % 128 ≠ 4 % 128) :
      j ≠ (Reg.RDC_STAT_PAIR_VALID c).key := stat_bit_ne c c m 4 hj rfl hm
  rw [showBits, State.rd_wrB_ne _ _ (hne 7 rfl (by decide)), State.rd_wrB_ne _ _ (hne 5 rfl (by decide)), State.rd_wrB_bit]

theorem rd_showBits_overrange : (showBits s c st valid pair overrange learning).rd (Reg.RDC_STAT_OR_NOW c) = b2n overrange := by
  rw [showBits, State.rd_wrB_ne _ _ (stat_bit_ne c c 7 5 rfl rfl (by decide)), State.rd_wrB_bit]

theorem onlyRegs_showBits : onlyRegs s (showBits s c st valid pair overrange learning) (rdcShown c) := by
  unfold showBits State.wrB
  refine onlyRegs_wr_of_mem (onlyRegs_wr_of_mem (onlyRegs_wr_of_mem (onlyRegs_wr_of_mem (onlyRegs_wr_of_mem (onlyRegs_refl s _) ?_ _) ?_ _) ?_ _)
    ?_ _) ?_ _
  all_goals simp [rdcShown]

end

section
variable (s : State) (c : Nat)

theorem rdc_showRdc_self : (showRdc s c).rdc c = { s.rdc c with up := s.rdcOn c && ((s.rdc c).up || s.ampOn (s.excSrc c)) } := by
  rw [showRdc_eq]
  exact rdc_judgedUp s c

theorem onlyAxes_showRdc : onlyAxes s (showRdc s c) := by
  rw [showRdc_eq]
  exact (onlyAxes.modRdc s c _).trans (onlyAxes_showBits _ c _ _ _ _ _)

theorem bq_showRdc : (showRdc s c).bq = s.bq := by
  rw [showRdc_eq]
  rfl

theorem onlyRegs_showRdc : onlyRegs s (showRdc s c) (rdcShown c) := by
  rw [showRdc_eq]
  exact onlyRegs_showBits (s.judgedUp c) c _ _ _ _ _

theorem sameSettings_showRdc : SameSettings s (showRdc s c) := by
  refine ⟨?_, ?_, ?_, ?_, fun f hf => onlyRegs_showRdc s c f fun hs => not_setting_of_shown hs hf⟩
  all_goals
    rw [showRdc_eq]
    rfl

/-- What the phase and the faults of a channel say of its angle does not look at whether it has left OFF. -/
theorem rdcOwn_judgedUp : (s.judgedUp c).rdcOwn c = s.rdcOwn c := by
  have hon : (s.judgedUp c).rdcOn c = s.rdcOn c := rfl
  rw [State.rdcOwn, rdc_judgedUp, hon]
  rfl

theorem rd_showRdc_valid : (showRdc s c).rd (Reg.RDC_STAT_VALID c) = b2n (s.rdcOwn c) := by
  rw [showRdc_eq, rd_showBits_valid, rdcOwn_judgedUp]

theorem rd_showRdc_pair : (showRdc s c).rd (Reg.RDC_STAT_PAIR_VALID c) = b2n (s.paired c && s.rdcValid c) := by
  have hpaired : (s.judgedUp c).paired c = s.paired c := rfl
  rw [showRdc_eq, rd_showBits_pair, State.rdcValid, rdcOwn_judgedUp, hpaired, rdc_judgedUp]
  rfl

theorem rd_showRdc_overrange : (showRdc s c).rd (Reg.RDC_STAT_OR_NOW c) = b2n (s.rdcOver c) := by
  have hflag : (s.judgedUp c).flag (Reg.RDC_STAT_EXC_LIMITING ((s.judgedUp c).excSrc c)) = s.flag (Reg.RDC_STAT_EXC_LIMITING (s.excSrc c)) := rfl
  rw [showRdc_eq, rd_showBits_overrange, State.rdcOver, rdc_judgedUp, hflag]
  rfl

/-- A channel that is on, and has left OFF, waits while it does not track. -/
theorem rd_showRdc_wait (hon : s.rdcOn c = true) (hup : (s.rdc c).up = true) (hph : (s.rdc c).ph = 0) :
    (showRdc s c).rd (Reg.RDC_STAT_STATE c) = 1 := by
  have hcode : (s.judgedUp c).rdcCode c = 1 := by
    rw [State.rdcCode, rdc_judgedUp]
    simp [hon, hup, hph]
  rw [showRdc_eq, rd_showBits_state, hcode]
  rfl

end

/-! ## A channel drops (R189, R192, R195) -/

/-- A channel whose angle has become invalid. -/
def Rdc.dropped (k : Rdc) : Rdc :=
  { learnCause k 2 with ph := 0, pair := false, ambig := false, slip := 0, errRun := 0, spdRun := 0, fast := false, ovl := false, edge := false,
                        atEdge := false, cur := { k.cur with own := false, valid := false } }

section
variable (s : State) (c : Nat)

theorem rdcDrop_eq : rdcDrop s c = showRdc (s.modRdc c Rdc.dropped) c := rfl

theorem rdc_rdcDrop : ∃ up, (rdcDrop s c).rdc c = { (s.rdc c).dropped with up := up } := by
  rw [rdcDrop_eq, rdc_showRdc_self, rdc_modRdc_self]
  exact ⟨_, rfl⟩

/-- The loop opens, a pair loses its resolution, and the angle is not valid. -/
theorem rdcDrop_opens : ((rdcDrop s c).rdc c).ph = 0 ∧ ((rdcDrop s c).rdc c).pair = false ∧ (rdcDrop s c).rd (Reg.RDC_STAT_VALID c) = 0 := by
  have hown : (s.modRdc c Rdc.dropped).rdcOwn c = false := by
    rw [State.rdcOwn, rdc_modRdc_self]
    rfl
  obtain ⟨up, hk⟩ := rdc_rdcDrop s c
  refine ⟨by rw [hk]; rfl, by rw [hk]; rfl, ?_⟩
  rw [rdcDrop_eq, rd_showRdc_valid, hown]
  rfl

theorem rd_rdcDrop_wait (hon : s.rdcOn c = true) (hup : (s.rdc c).up = true) : (rdcDrop s c).rd (Reg.RDC_STAT_STATE c) = 1 := by
  refine rd_showRdc_wait (s.modRdc c Rdc.dropped) c hon ?_ ?_
  · rw [rdc_modRdc_self]
    exact hup
  · rw [rdc_modRdc_self]
    rfl

theorem onlyRegs_rdcDrop : onlyRegs s (rdcDrop s c) (rdcShown c) := onlyRegs_showRdc (s.modRdc c Rdc.dropped) c

theorem onlyAxes_rdcDrop : onlyAxes s (rdcDrop s c) := (onlyAxes.modRdc s c Rdc.dropped).trans (onlyAxes_showRdc _ c)

theorem bq_rdcDrop : (rdcDrop s c).bq = s.bq := bq_showRdc (s.modRdc c Rdc.dropped) c

end

end Sys2Proof.Machine
end

