-- ==== Sys2Proof/Proofs/ResolverFaults.lean ====
section
/-! PROOFS. Faults of a resolver channel, and REACQ (R185, R194, R195, R199). -/

namespace Sys2Proof.Machine

/-! ## Faults that drop a channel -/

/-- A rare bark, by what the bark queue holds after it. -/
theorem barksRarely_congr {s t u : State} {span elem src code : Nat} (h : Sys2Proof.barksRarely s t span elem src code) (hbq : u.bq = t.bq) :
    Sys2Proof.barksRarely s u span elem src code := by
  unfold Sys2Proof.barksRarely Sys2Proof.barks at *
  rw [hbq]
  exact h

/-- An onset in a channel is barked at most once a second. -/
theorem barksRarely_rdcOnset (s : State) (c : Nat) (f : Nat → Fld) (ev : Nat) (p : List Nat) :
    Sys2Proof.barksRarely s (rdcOnset s c f ev p) cclkSec (c % 16) (axSrc (c / 16)) (axCode (c / 16) ev) :=
  barksRarely_barkEvery s (s.set (f c)) cclkSec (c % 16) (axSrc (c / 16)) (axCode (c / 16) ev) true _

/-- A counter of RDC_CNT. -/
structure ChannelCount (f : Nat → Fld) (n : Nat) : Prop where
  key : ∀ c, (f c).key = 8 * (0x51880 + 0x8000 * (c / 16) + 16 * (c % 16)) + n
  width : ∀ c, (f c).width = 32
  bit : n < 128

/-- A fault is detected and counted. -/
def countedOnset (s : State) (c : Nat) (f : Nat → Fld) (ev : Nat) (p : List Nat) (cnt : Nat → Fld) : State := (rdcOnset s c f ev p).count (cnt c)

section
variable {f cnt : Nat → Fld} {n m : Nat} (hf : FaultFlag f n) (hcnt : ChannelCount cnt m) (s : State) (c ev : Nat) (p : List Nat)

theorem onlyAxes_countedOnset : onlyAxes s (countedOnset s c f ev p cnt) := (onlyAxes_rdcOnset s c ev p).trans rfl

theorem onlyRegs_countedOnset : onlyRegs s (countedOnset s c f ev p cnt) [f c, cnt c] :=
  onlyRegs_mono (onlyRegs_snoc (onlyRegs_rdcOnset s c ev p) (cnt c) _) (by simp)

@[simp] theorem rdc_countedOnset (d : Nat) : (countedOnset s c f ev p cnt).rdc d = s.rdc d := rdc_rdcOnset s c ev p d

include hcnt

theorem ChannelCount.not_shown (d : Nat) : (cnt c).key ∉ (rdcShown d).map Fld.key := not_shown_of_cnt c d m (hcnt.key c) hcnt.bit

theorem ChannelCount.not_setting : ¬ settingKey (cnt c).key := not_setting_of_cnt c m (hcnt.key c) hcnt.bit

include hf

theorem FaultFlag.ne_count (d : Nat) : (f c).key ≠ (cnt d).key := stat_ne_cnt c d n m (hf.key c) (hcnt.key d) ⟨hf.bit.1, hcnt.bit⟩

theorem sameSettings_countedOnset : SameSettings s (countedOnset s c f ev p cnt) :=
  (sameSettings_rdcOnset s c ev p hf).wr (hcnt.not_setting c) _

theorem flag_countedOnset : (countedOnset s c f ev p cnt).flag (f c) = true := by
  rw [countedOnset, State.flag_count_ne _ (hf.ne_count hcnt c c).symm]
  exact flag_rdcOnset s c ev p hf

theorem rd_countedOnset : (countedOnset s c f ev p cnt).rd (cnt c) = satU 32 (s.rd (cnt c) + 1) := by
  rw [countedOnset, State.rd_count_self, rd_rdcOnset, State.rd_set_ne _ (hf.ne_count hcnt c c), hcnt.width c]

end

/-- The fault `f`, counted in `cnt` and barked as `ev`, has dropped channel `c`, which stood at `k`: its loop is open, and its angle is not valid. -/
structure FaultDrop (f cnt : Nat → Fld) (ev c : Nat) (k : Rdc) (s t : State) : Prop where
  flag : t.flag (f c) = true
  count : t.rd (cnt c) = satU 32 (s.rd (cnt c) + 1)
  valid : t.rd (Reg.RDC_STAT_VALID c) = 0
  chan : ∃ up, t.rdc c = { k.dropped with up := up }
  wait : s.rdcOn c = true → k.up = true → t.rd (Reg.RDC_STAT_STATE c) = 1
  barks : Sys2Proof.barksRarely s t cclkSec (c % 16) (axSrc (c / 16)) (axCode (c / 16) ev)
  frame : onlyAxes s t
  regs : onlyRegs s t (f c :: cnt c :: rdcShown c)

section
variable {f cnt : Nat → Fld} {n m : Nat} (hf : FaultFlag f n) (hcnt : ChannelCount cnt m) (s : State) {c : Nat} (hc : c < 32) (ev : Nat) (p : List Nat)
include hf hcnt hc

theorem faultDrop_countedOnset : FaultDrop f cnt ev c (s.rdc c) s (rdcDrop (countedOnset s c f ev p cnt) c) where
  flag := (State.flag_congr (onlyRegs_rdcDrop _ c _ (hf.not_shown c c))).trans (flag_countedOnset hf hcnt s c ev p)
  count := (onlyRegs_rdcDrop _ c _ (hcnt.not_shown c c)).trans (rd_countedOnset hf hcnt s c ev p)
  valid := (rdcDrop_opens _ c).2.2
  chan := by
    obtain ⟨up, hk⟩ := rdc_rdcDrop (countedOnset s c f ev p cnt) c
    exact ⟨up, hk.trans (by rw [rdc_countedOnset])⟩
  wait hon hup := rd_rdcDrop_wait _ c (((sameSettings_countedOnset hf hcnt s c ev p).rdcOn hc).trans hon)
    ((congrArg Rdc.up (rdc_countedOnset s c ev p c)).trans hup)
  barks := barksRarely_congr (barksRarely_rdcOnset s c f ev p) (bq_rdcDrop _ c)
  frame := (onlyAxes_countedOnset s c ev p).trans (onlyAxes_rdcDrop _ c)
  regs := onlyRegs_trans (onlyRegs_mono (onlyRegs_countedOnset s c ev p) (by simp)) (onlyRegs_mono (onlyRegs_rdcDrop _ c) (by simp))

/-- The same, where the fault's condition is noted in the channel as it is detected. -/
theorem faultDrop_noted (g : Rdc → Rdc) : FaultDrop f cnt ev c (g (s.rdc c)) s (rdcDrop (countedOnset (s.modRdc c g) c f ev p cnt) c) := by
  obtain ⟨hflag, hcount, hvalid, hchan, hwait, hbarks, hframe, hregs⟩ := faultDrop_countedOnset hf hcnt (s.modRdc c g) hc ev p
  rw [rdc_modRdc_self] at hchan hwait
  exact ⟨hflag, hcount, hvalid, hchan, hwait, hbarks, (onlyAxes.modRdc s c g).trans hframe, hregs⟩

end

/-! ## The fields of each fault -/

theorem faultFlag_los : FaultFlag Reg.RDC_STAT_LOS 16 := ⟨fun _ => rfl, fun _ => rfl, by decide⟩
theorem faultFlag_wireOpen : FaultFlag Reg.RDC_STAT_WIRE_OPEN 17 := ⟨fun _ => rfl, fun _ => rfl, by decide⟩
theorem faultFlag_trackLoss : FaultFlag Reg.RDC_STAT_TRACK_LOSS 18 := ⟨fun _ => rfl, fun _ => rfl, by decide⟩
theorem faultFlag_excIlim : FaultFlag Reg.RDC_STAT_EXC_ILIM 21 := ⟨fun _ => rfl, fun _ => rfl, by decide⟩
theorem faultFlag_excThermal : FaultFlag Reg.RDC_STAT_EXC_THERMAL 22 := ⟨fun _ => rfl, fun _ => rfl, by decide⟩
theorem faultFlag_cmFault : FaultFlag Reg.RDC_STAT_CM_FAULT 24 := ⟨fun _ => rfl, fun _ => rfl, by decide⟩
theorem faultFlag_convFault : FaultFlag Reg.RDC_STAT_CONV_FAULT 27 := ⟨fun _ => rfl, fun _ => rfl, by decide⟩
theorem faultFlag_ampHigh : FaultFlag Reg.RDC_STAT_AMP_HIGH 29 := ⟨fun _ => rfl, fun _ => rfl, by decide⟩
theorem channelCount_trackLoss : ChannelCount Reg.RDC_CNT_TRACK_LOSS 32 := ⟨fun _ => rfl, fun _ => rfl, by decide⟩
theorem channelCount_los : ChannelCount Reg.RDC_CNT_LOS 64 := ⟨fun _ => rfl, fun _ => rfl, by decide⟩
theorem channelCount_orEvents : ChannelCount Reg.RDC_CNT_OR_EVENTS 96 := ⟨fun _ => rfl, fun _ => rfl, by decide⟩

/-- A channel with the condition of a fault noted. -/
def Rdc.lost (k : Rdc) : Rdc := { k with los := true }
def Rdc.unwired (k : Rdc) : Rdc := { k with wire := true }
def Rdc.unconverted (k : Rdc) : Rdc := { k with conv := true }
def Rdc.overdriven (k : Rdc) : Rdc := { k with ampHigh := true }

end Sys2Proof.Machine

namespace Sys2Proof
open Sys2Proof.Machine

section
variable {s : State} {c : Nat} (hc : c < 32)
include hc

theorem exec_rdcLos (hon : s.rdcOn c = true) (hlow : 2 ≤ (s.rdc c).lowRun) (hlos : (s.rdc c).los = false) : ∃ t, exec (.rdcLos c) s = .next t ∧
    t.flag (Reg.RDC_STAT_LOS c) = true ∧
    t.rd (Reg.RDC_CNT_LOS c) = satU 32 (s.rd (Reg.RDC_CNT_LOS c) + 1) ∧ (t.rdc c).ph = 0 ∧ (t.rdc c).los = true ∧
    ((s.rdc c).up = true → t.rd (Reg.RDC_STAT_STATE c) = 1) ∧ t.rd (Reg.RDC_STAT_VALID c) = 0 ∧
    barksRarely s t cclkSec (c % 16) (axSrc (c / 16)) (axCode (c / 16) 4) ∧ t = { s with regs := t.regs, ax := t.ax, bq := t.bq } ∧
    onlyRegs s t (Reg.RDC_STAT_LOS c :: Reg.RDC_CNT_LOS c :: rdcShown c) := by
  have hdrop : (if s.rdcOn c && 2 ≤ (s.rdc c).lowRun && !(s.rdc c).los then
        rdcDrop (countedOnset (s.modRdc c Rdc.lost) c Reg.RDC_STAT_LOS 4 [] Reg.RDC_CNT_LOS) c else s) =
      rdcDrop (countedOnset (s.modRdc c Rdc.lost) c Reg.RDC_STAT_LOS 4 [] Reg.RDC_CNT_LOS) c := if_pos (by simp [hon, hlow, hlos])
  obtain ⟨hflag, hcount, hvalid, ⟨up, hk⟩, hwait, hbarks, hframe, hregs⟩ := faultDrop_noted faultFlag_los channelCount_los s hc 4 [] Rdc.lost
  exact ⟨_, channel_answer hc hdrop hframe, hflag, hcount, by rw [hk]; rfl, by rw [hk]; rfl, hwait hon, hvalid, hbarks, hframe, hregs⟩

theorem exec_rdcTrackLoss (hown : s.rdcOwn c = true) (hrun : 16 ≤ (s.rdc c).errRun ∨ 16 ≤ (s.rdc c).spdRun) :
    ∃ t, exec (.rdcTrackLoss c) s = .next t ∧
    t.flag (Reg.RDC_STAT_TRACK_LOSS c) = true ∧ t.rd (Reg.RDC_CNT_TRACK_LOSS c) = satU 32 (s.rd (Reg.RDC_CNT_TRACK_LOSS c) + 1) ∧
    (t.rdc c).ph = 0 ∧ t.rd (Reg.RDC_STAT_VALID c) = 0 ∧ t = { s with regs := t.regs, ax := t.ax, bq := t.bq } ∧
    onlyRegs s t (Reg.RDC_STAT_TRACK_LOSS c :: Reg.RDC_CNT_TRACK_LOSS c :: rdcShown c) := by
  have hdrop : (if s.rdcOwn c && (16 ≤ (s.rdc c).errRun || 16 ≤ (s.rdc c).spdRun) then
        rdcDrop (countedOnset s c Reg.RDC_STAT_TRACK_LOSS 3 [] Reg.RDC_CNT_TRACK_LOSS) c else s) =
      rdcDrop (countedOnset s c Reg.RDC_STAT_TRACK_LOSS 3 [] Reg.RDC_CNT_TRACK_LOSS) c := if_pos (by simpa [hown] using hrun)
  obtain ⟨hflag, hcount, hvalid, ⟨up, hk⟩, -, -, hframe, hregs⟩ := faultDrop_countedOnset faultFlag_trackLoss channelCount_trackLoss s hc 3 []
  exact ⟨_, channel_answer hc hdrop hframe, hflag, hcount, by rw [hk]; rfl, hvalid, hframe, hregs⟩

theorem exec_rdcWireOpen {w : Nat} (hon : s.rdcOn c = true) (hw : w % 4 ≠ 0) (howd : s.eff (Reg.RDC_CFG_OWD c) = 1) (hwire : (s.rdc c).wire = false) :
    ∃ t, exec (.rdcWireOpen c w) s = .next t ∧ t.flag (Reg.RDC_STAT_WIRE_OPEN c) = true ∧ t.rd (Reg.RDC_STAT_OPEN_WIND c) = w % 4 ∧
      (t.rdc c).wire = true ∧ (t.rdc c).ph = 0 ∧ t.rd (Reg.RDC_STAT_VALID c) = 0 ∧ t = { s with regs := t.regs, ax := t.ax, bq := t.bq } := by
  have hdrop : wireOpen s c w = rdcDrop (countedOnset ((s.wr (Reg.RDC_STAT_OPEN_WIND c) (w % 4)).modRdc c Rdc.unwired) c Reg.RDC_STAT_WIRE_OPEN 5
      [w % 4] Reg.RDC_CNT_LOS) c := by
    simp only [wireOpen, hon, hw, howd, hwire, Bool.not_true, Bool.false_eq_true, if_false, ne_eq, not_true_eq_false]
    rfl
  obtain ⟨hflag, -, hvalid, ⟨up, hk⟩, -, -, hframe, hregs⟩ :=
    faultDrop_noted faultFlag_wireOpen channelCount_los (s.wr (Reg.RDC_STAT_OPEN_WIND c) (w % 4)) hc 5 [w % 4] Rdc.unwired
  have hall := (onlyAxes.wr s _ _).trans hframe
  refine ⟨_, channel_answer hc hdrop hall, hflag, ?_, by rw [hk]; rfl, by rw [hk]; rfl, hvalid, hall⟩
  have hother : (Reg.RDC_STAT_OPEN_WIND c).key ∉ (Reg.RDC_STAT_WIRE_OPEN c :: Reg.RDC_CNT_LOS c :: rdcShown c).map Fld.key := by
    rw [List.map_cons, List.map_cons, List.mem_cons, List.mem_cons, not_or, not_or]
    exact ⟨stat_bit_ne c c 10 17 rfl rfl (by decide), stat_ne_cnt c c 10 64 rfl rfl (by decide), not_shown_of_bit c c 10 rfl (by decide)⟩
  rw [hregs _ hother, State.rd_wr_self]
  exact Nat.mod_mod w 4

theorem exec_rdcWireOpen_clear {w : Nat} (hon : s.rdcOn c = true) (hw : w % 4 = 0) : ∃ t, exec (.rdcWireOpen c w) s = .next t ∧
    t.rd (Reg.RDC_STAT_OPEN_WIND c) = 0 ∧ (t.rdc c).wire = false ∧ t = { s with regs := t.regs, ax := t.ax } ∧
    onlyRegs s t (Reg.RDC_STAT_OPEN_WIND c :: rdcShown c) := by
  have hclear : wireOpen s c w = showRdc ((s.clr (Reg.RDC_STAT_OPEN_WIND c)).modRdc c fun k => { k with wire := false }) c := by
    simp only [wireOpen, hon, hw, Bool.not_true, Bool.false_eq_true, if_false, if_true]
  have hframe : onlyAxes s (showRdc ((s.clr (Reg.RDC_STAT_OPEN_WIND c)).modRdc c fun k => { k with wire := false }) c) :=
    onlyAxes.trans (t := (s.clr (Reg.RDC_STAT_OPEN_WIND c)).modRdc c fun k => { k with wire := false }) rfl (onlyAxes_showRdc _ c)
  have hshown := onlyRegs_showRdc ((s.clr (Reg.RDC_STAT_OPEN_WIND c)).modRdc c fun k => { k with wire := false }) c
  refine ⟨_, channel_answer hc hclear hframe, ?_, ?_, hframe.quiet (bq_showRdc _ c), ?_⟩
  · rw [hshown _ (not_shown_of_bit c c 10 rfl (by decide)), rd_modRdc, State.rd_clr_self]
  · rw [rdc_showRdc_self, rdc_modRdc_self]
  · exact onlyRegs_trans (onlyRegs_mono (onlyRegs_wr s (Reg.RDC_STAT_OPEN_WIND c) 0) (by simp)) (onlyRegs_mono hshown (by simp))

theorem exec_rdcConvFault (hon : s.rdcOn c = true) (hconv : (s.rdc c).conv = false) : ∃ t, exec (.rdcConvFault c) s = .next t ∧
    t.flag (Reg.RDC_STAT_CONV_FAULT c) = true ∧ (t.rdc c).conv = true ∧ (t.rdc c).ph = 0 ∧
    ((s.rdc c).up = true → t.rd (Reg.RDC_STAT_STATE c) = 1) ∧ t = { s with regs := t.regs, ax := t.ax, bq := t.bq } ∧
    onlyRegs s t (Reg.RDC_STAT_CONV_FAULT c :: rdcShown c) := by
  have hdrop : (if s.rdcOn c && !(s.rdc c).conv then rdcConv s c else s) =
      rdcDrop (rdcOnset (s.modRdc c Rdc.unconverted) c Reg.RDC_STAT_CONV_FAULT 0xE []) c := if_pos (by simp [hon, hconv])
  have honset := onlyRegs_rdcOnset (f := Reg.RDC_STAT_CONV_FAULT) (s.modRdc c Rdc.unconverted) c 0xE []
  have hset := sameSettings_rdcOnset (s.modRdc c Rdc.unconverted) c 0xE [] faultFlag_convFault
  have hflag := flag_rdcOnset (s.modRdc c Rdc.unconverted) c 0xE [] faultFlag_convFault
  have hchan : (rdcOnset (s.modRdc c Rdc.unconverted) c Reg.RDC_STAT_CONV_FAULT 0xE []).rdc c = (s.rdc c).unconverted := by
    rw [rdc_rdcOnset, rdc_modRdc_self]
  have hframe := ((onlyAxes.modRdc s c _).trans (onlyAxes_rdcOnset (f := Reg.RDC_STAT_CONV_FAULT) (s.modRdc c Rdc.unconverted) c 0xE [])).trans
    (onlyAxes_rdcDrop _ c)
  obtain ⟨up, hk⟩ := rdc_rdcDrop (rdcOnset (s.modRdc c Rdc.unconverted) c Reg.RDC_STAT_CONV_FAULT 0xE []) c
  rw [hchan] at hk
  refine ⟨_, channel_answer hc hdrop hframe, ?_, by rw [hk]; rfl, by rw [hk]; rfl, fun hup => ?_, hframe, ?_⟩
  · exact (State.flag_congr (onlyRegs_rdcDrop _ c _ (faultFlag_convFault.not_shown c c))).trans hflag
  · exact rd_rdcDrop_wait _ c ((hset.rdcOn hc).trans hon) (by rw [hchan]; exact hup)
  · exact onlyRegs_trans (onlyRegs_mono honset (by simp)) (onlyRegs_mono (onlyRegs_rdcDrop _ c) (by simp))

/-! ## Faults that flag -/

theorem exec_rdcAmpHigh (hon : s.rdcOn c = true) (hhigh : 2 ≤ (s.rdc c).highRun) (hamp : (s.rdc c).ampHigh = false) :
    ∃ t, exec (.rdcAmpHigh c) s = .next t ∧
    t.flag (Reg.RDC_STAT_AMP_HIGH c) = true ∧ (t.rdc c).ampHigh = true ∧ t.rd (Reg.RDC_STAT_OR_NOW c) = 1 ∧
    t.rd (Reg.RDC_CNT_OR_EVENTS c) = satU 32 (s.rd (Reg.RDC_CNT_OR_EVENTS c) + 1) ∧ t = { s with regs := t.regs, ax := t.ax, bq := t.bq } ∧
    onlyRegs s t (Reg.RDC_STAT_AMP_HIGH c :: Reg.RDC_CNT_OR_EVENTS c :: rdcShown c) := by
  have hflags : (if s.rdcOn c && 2 ≤ (s.rdc c).highRun && !(s.rdc c).ampHigh then
        showRdc (countedOnset (s.modRdc c Rdc.overdriven) c Reg.RDC_STAT_AMP_HIGH 0xF [] Reg.RDC_CNT_OR_EVENTS) c else s) =
      showRdc (countedOnset (s.modRdc c Rdc.overdriven) c Reg.RDC_STAT_AMP_HIGH 0xF [] Reg.RDC_CNT_OR_EVENTS) c := if_pos (by simp [hon, hhigh, hamp])
  have honset := onlyRegs_countedOnset (f := Reg.RDC_STAT_AMP_HIGH) (cnt := Reg.RDC_CNT_OR_EVENTS) (s.modRdc c Rdc.overdriven) c 0xF []
  have hflag := flag_countedOnset faultFlag_ampHigh channelCount_orEvents (s.modRdc c Rdc.overdriven) c 0xF []
  have hcount := rd_countedOnset faultFlag_ampHigh channelCount_orEvents (s.modRdc c Rdc.overdriven) c 0xF []
  have hframe := ((onlyAxes.modRdc s c _).trans (onlyAxes_countedOnset (f := Reg.RDC_STAT_AMP_HIGH) (cnt := Reg.RDC_CNT_OR_EVENTS)
    (s.modRdc c Rdc.overdriven) c 0xF [])).trans (onlyAxes_showRdc _ c)
  have hchan : (countedOnset (s.modRdc c Rdc.overdriven) c Reg.RDC_STAT_AMP_HIGH 0xF [] Reg.RDC_CNT_OR_EVENTS).rdc c = (s.rdc c).overdriven := by
    rw [rdc_countedOnset, rdc_modRdc_self]
  refine ⟨_, channel_answer hc hflags hframe, ?_, ?_, ?_, ?_, hframe, ?_⟩
  · exact (State.flag_congr (onlyRegs_showRdc _ c _ (faultFlag_ampHigh.not_shown c c))).trans hflag
  · rw [rdc_showRdc_self, hchan]
    rfl
  · rw [rd_showRdc_overrange, State.rdcOver, hchan]
    rfl
  · exact (onlyRegs_showRdc _ c _ (channelCount_orEvents.not_shown c c)).trans hcount
  · exact onlyRegs_trans (onlyRegs_mono honset (by simp)) (onlyRegs_mono (onlyRegs_showRdc _ c) (by simp))

theorem exec_rdcCmFault (hon : s.rdcOn c = true) (hnow : s.flag (Reg.RDC_STAT_CM_NOW c) = false) : ∃ t, exec (.rdcCmFault c true) s = .next t ∧
    t.flag (Reg.RDC_STAT_CM_NOW c) = true ∧
    t.flag (Reg.RDC_STAT_CM_FAULT c) = true ∧ t.rd (Reg.RDC_CNT_OR_EVENTS c) = satU 32 (s.rd (Reg.RDC_CNT_OR_EVENTS c) + 1) ∧
    barksRarely s t cclkSec (c % 16) (axSrc (c / 16)) (axCode (c / 16) 9) ∧ t = { s with regs := t.regs, bq := t.bq } ∧
    onlyRegs s t [Reg.RDC_STAT_CM_NOW c, Reg.RDC_STAT_CM_FAULT c, Reg.RDC_CNT_OR_EVENTS c] := by
  have hflags : rdcCm s c true = countedOnset (s.set (Reg.RDC_STAT_CM_NOW c)) c Reg.RDC_STAT_CM_FAULT 9 [] Reg.RDC_CNT_OR_EVENTS := by
    simp only [rdcCm, hon, hnow, Bool.not_true, Bool.false_or, Bool.false_eq_true, decide_false, if_false, if_true]
    rfl
  have honset := onlyRegs_countedOnset (f := Reg.RDC_STAT_CM_FAULT) (cnt := Reg.RDC_CNT_OR_EVENTS) (s.set (Reg.RDC_STAT_CM_NOW c)) c 9 []
  have hflag := flag_countedOnset faultFlag_cmFault channelCount_orEvents (s.set (Reg.RDC_STAT_CM_NOW c)) c 9 []
  have hcount := rd_countedOnset faultFlag_cmFault channelCount_orEvents (s.set (Reg.RDC_STAT_CM_NOW c)) c 9 []
  have hbarks := barksRarely_rdcOnset (s.set (Reg.RDC_STAT_CM_NOW c)) c Reg.RDC_STAT_CM_FAULT 9 []
  have hframe := (onlyAxes.wr s (Reg.RDC_STAT_CM_NOW c) 1).trans
    (onlyAxes_countedOnset (f := Reg.RDC_STAT_CM_FAULT) (cnt := Reg.RDC_CNT_OR_EVENTS) (s.set (Reg.RDC_STAT_CM_NOW c)) c 9 [])
  have hother : (Reg.RDC_STAT_CM_NOW c).key ∉ [Reg.RDC_STAT_CM_FAULT c, Reg.RDC_CNT_OR_EVENTS c].map Fld.key := by
    simpa using ⟨stat_bit_ne c c 6 24 rfl rfl (by decide), stat_ne_cnt c c 6 96 rfl rfl (by decide)⟩
  refine ⟨_, channel_answer hc hflags hframe, ?_, hflag, ?_, barksRarely_congr hbarks rfl, hframe.still (ax_rdcOnset _ c 9 []), ?_⟩
  · exact (State.flag_congr (honset _ hother)).trans (State.flag_set_self s)
  · rw [hcount, State.rd_set_ne _ (stat_ne_cnt c c 6 96 rfl rfl (by decide))]
  · exact onlyRegs_trans (onlyRegs_mono (onlyRegs_wr s (Reg.RDC_STAT_CM_NOW c) 1) (by simp)) (onlyRegs_mono honset (by simp))

theorem exec_rdcCmFault_clear (hon : s.rdcOn c = true) : ∃ t, exec (.rdcCmFault c false) s = .next t ∧ t.flag (Reg.RDC_STAT_CM_NOW c) = false := by
  cases hnow : s.flag (Reg.RDC_STAT_CM_NOW c) with
  | false =>
    have hstays : rdcCm s c false = s := by simp [rdcCm, hon, hnow]
    exact ⟨_, channel_answer hc hstays (.refl s), hnow⟩
  | true =>
    have hclear : rdcCm s c false = s.clr (Reg.RDC_STAT_CM_NOW c) := by simp [rdcCm, hon, hnow]
    exact ⟨_, channel_answer hc hclear rfl, State.flag_clr_self s _⟩

end

end Sys2Proof

namespace Sys2Proof.Machine

/-! ## Faults of an amplifier, which fall on every channel that it excites (R173, R194, R199) -/

/-- An event that falls on several channels, and sets a flag of each, leaves the flag of each set. -/
theorem flag_foldl_channels {f : Nat → Fld} {g : State → Nat → State} (hself : ∀ u d, (g u d).flag (f d) = true)
    (hne : ∀ u d e, d ≠ e → (g u d).flag (f e) = u.flag (f e)) {l : List Nat} {d : Nat} (hd : d ∈ l) (s : State) :
    (l.foldl g s).flag (f d) = true := by
  induction l using List.reverseRecOn with
  | nil => exact absurd hd List.not_mem_nil
  | append_singleton l a ih =>
    rw [List.foldl_concat]
    by_cases had : a = d
    · rw [had]
      exact hself _ d
    · rw [hne _ a d had]
      exact ih ((List.mem_append.1 hd).resolve_right fun h => had (List.mem_singleton.1 h).symm)

/-- The limit of an amplifier, as a channel that it excites meets it: its onset or its end. -/
def limited (on : Bool) (s : State) (d : Nat) : State :=
  showRdc (if on then countedOnset s d Reg.RDC_STAT_EXC_ILIM 0xA [] Reg.RDC_CNT_OR_EVENTS else s) d

theorem rdcIlim_eq (s : State) (c ua : Nat) : rdcIlim s c ua =
    if !s.ampOn c || s.flag (Reg.RDC_STAT_EXC_LIMITING c) = decide (s.ampIlim c * 1000 ≤ ua) then s
    else (s.excited c).foldl (limited (decide (s.ampIlim c * 1000 ≤ ua)))
      (s.wrB (Reg.RDC_STAT_EXC_LIMITING c) (decide (s.ampIlim c * 1000 ≤ ua))) := rfl

section
variable (on : Bool) (s : State) (d : Nat)

theorem onlyAxes_limited : onlyAxes s (limited on s d) := by
  refine onlyAxes.trans ?_ (onlyAxes_showRdc _ d)
  split
  · exact onlyAxes_countedOnset s d 0xA []
  · exact .refl s

theorem onlyRegs_limited : onlyRegs s (limited on s d) (Reg.RDC_STAT_EXC_ILIM d :: Reg.RDC_CNT_OR_EVENTS d :: rdcShown d) := by
  refine onlyRegs_trans ?_ (onlyRegs_mono (onlyRegs_showRdc _ d) (by simp))
  split
  · exact onlyRegs_mono (onlyRegs_countedOnset s d 0xA []) (by simp)
  · exact onlyRegs_refl s _

/-- A flag of RDC_STAT, other than EXC_ILIM of the channel that meets the limit. -/
theorem flag_limited_ne {g : Nat → Fld} {n : Nat} (hg : FaultFlag g n) (e : Nat) (h : n ≠ 21 ∨ d ≠ e) :
    (limited on s d).flag (g e) = s.flag (g e) := by
  refine State.flag_congr (onlyRegs_limited on s d _ ?_)
  rw [List.map_cons, List.map_cons, List.mem_cons, List.mem_cons, not_or, not_or]
  refine ⟨fun hkey => ?_, hg.ne_count channelCount_orEvents e d, hg.not_shown e d⟩
  have hat := hg.key e
  have hlimit := faultFlag_excIlim.key d
  have hbit := hg.bit.1
  omega

theorem flag_limited_self : (limited true s d).flag (Reg.RDC_STAT_EXC_ILIM d) = true :=
  (State.flag_congr (onlyRegs_showRdc _ d _ (faultFlag_excIlim.not_shown d d))).trans
    (flag_countedOnset faultFlag_excIlim channelCount_orEvents s d 0xA [])

end

theorem faultFlag_limiting : FaultFlag Reg.RDC_STAT_EXC_LIMITING 8 := ⟨fun _ => rfl, fun _ => rfl, by decide⟩
theorem faultFlag_shutdown : FaultFlag Reg.RDC_STAT_EXC_SHUTDOWN 9 := ⟨fun _ => rfl, fun _ => rfl, by decide⟩

/-- The onset of a fault changes no other flag of RDC_STAT. -/
theorem flag_rdcOnset_ne {f g : Nat → Fld} {m n : Nat} (hf : FaultFlag f m) (hg : FaultFlag g n) (s : State) (d ev : Nat) (p : List Nat) (e : Nat)
    (h : m ≠ n ∨ d ≠ e) : (rdcOnset s d f ev p).flag (g e) = s.flag (g e) := by
  rw [State.flag_congr (rd_rdcOnset s d ev p (g e))]
  refine State.flag_set_ne s fun hkey => ?_
  have hat := hf.key d
  have hlimit := hg.key e
  have hmbit := hf.bit.1
  have hnbit := hg.bit.1
  omega

theorem ampOn_of_shutdown {s : State} {c : Nat} (h : s.flag (Reg.RDC_STAT_EXC_SHUTDOWN c) = true) : s.ampOn c = false := by
  simp [State.ampOn, h]

theorem rdcThermal_eq {s : State} {c : Nat} (hamp : s.ampOn c = true) : rdcThermal s c =
    (s.excited c).foldl (fun u d => rdcOnset u d Reg.RDC_STAT_EXC_THERMAL 0xB [])
      ((s.set (Reg.RDC_STAT_EXC_SHUTDOWN c)).clr (Reg.RDC_STAT_EXC_LIMITING c)) := by
  rw [rdcThermal, if_neg (by simp [hamp])]

end Sys2Proof.Machine

namespace Sys2Proof
open Sys2Proof.Machine

section
variable {s : State} {c : Nat} (hc : c < 32) (hamp : s.ampOn c = true)
include hc hamp

theorem exec_rdcExcIlim {ua : Nat} (hnew : s.flag (Reg.RDC_STAT_EXC_LIMITING c) ≠ decide (s.ampIlim c * 1000 ≤ ua)) :
    ∃ t, exec (.rdcExcIlim c ua) s = .next t ∧ t.flag (Reg.RDC_STAT_EXC_LIMITING c) = decide (s.ampIlim c * 1000 ≤ ua) ∧
      (s.ampIlim c * 1000 ≤ ua → ∀ d ∈ s.excited c, t.flag (Reg.RDC_STAT_EXC_ILIM d) = true) ∧
      t = { s with regs := t.regs, ax := t.ax, bq := t.bq } := by
  generalize hon : decide (s.ampIlim c * 1000 ≤ ua) = on at hnew ⊢
  have hfolds : rdcIlim s c ua = (s.excited c).foldl (limited on) (s.wrB (Reg.RDC_STAT_EXC_LIMITING c) on) := by
    rw [rdcIlim_eq, hon, if_neg (by simp [hamp, hnew])]
  have hframe := (onlyAxes.wr s _ _).trans (onlyAxes.foldl (onlyAxes_limited on) (s.excited c) (s.wrB (Reg.RDC_STAT_EXC_LIMITING c) on))
  refine ⟨_, channel_answer hc hfolds hframe, ?_, fun hua d hd => ?_, hframe⟩
  · have hkeeps := foldl_keeps (p := fun u => u.flag (Reg.RDC_STAT_EXC_LIMITING c))
      (fun u d => flag_limited_ne on u d faultFlag_limiting c (.inl (by decide)))
    exact (hkeeps (s.excited c) _).trans (State.flag_wrB_self s on)
  · have hset : on = true := hon.symm.trans (decide_eq_true hua)
    rw [hset]
    exact flag_foldl_channels flag_limited_self (fun u d e hde => flag_limited_ne true u d faultFlag_excIlim e (.inr hde)) hd _

theorem exec_rdcExcThermal : ∃ t, exec (.rdcExcThermal c) s = .next t ∧ t.flag (Reg.RDC_STAT_EXC_SHUTDOWN c) = true ∧ t.ampOn c = false ∧
    t.flag (Reg.RDC_STAT_EXC_LIMITING c) = false ∧ (∀ d ∈ s.excited c, t.flag (Reg.RDC_STAT_EXC_THERMAL d) = true) ∧
    t = { s with regs := t.regs, bq := t.bq } := by
  have hfolds := rdcThermal_eq hamp
  have hshut : ((s.set (Reg.RDC_STAT_EXC_SHUTDOWN c)).clr (Reg.RDC_STAT_EXC_LIMITING c)).flag (Reg.RDC_STAT_EXC_SHUTDOWN c) = true :=
    (State.flag_wr_ne _ 0 (stat_bit_ne c c 8 9 rfl rfl (by decide))).trans (State.flag_set_self s)
  have hlimiting := State.flag_clr_self (s.set (Reg.RDC_STAT_EXC_SHUTDOWN c)) (Reg.RDC_STAT_EXC_LIMITING c)
  have hoff : onlyAxes s ((s.set (Reg.RDC_STAT_EXC_SHUTDOWN c)).clr (Reg.RDC_STAT_EXC_LIMITING c)) := rfl
  have hax : ((s.set (Reg.RDC_STAT_EXC_SHUTDOWN c)).clr (Reg.RDC_STAT_EXC_LIMITING c)).ax = s.ax := rfl
  generalize (s.set (Reg.RDC_STAT_EXC_SHUTDOWN c)).clr (Reg.RDC_STAT_EXC_LIMITING c) = u at hfolds hshut hlimiting hoff hax
  have hframe := hoff.trans (onlyAxes.foldl (fun v d => onlyAxes_rdcOnset (f := Reg.RDC_STAT_EXC_THERMAL) v d 0xB []) (s.excited c) u)
  have hshutAfter := (foldl_keeps (p := fun v => v.flag (Reg.RDC_STAT_EXC_SHUTDOWN c))
    (fun v d => flag_rdcOnset_ne faultFlag_excThermal faultFlag_shutdown v d 0xB [] c (.inl (by decide))) (s.excited c) u).trans hshut
  refine ⟨_, channel_answer hc hfolds hframe, hshutAfter, ampOn_of_shutdown hshutAfter, ?_, fun d hd => ?_, hframe.still ?_⟩
  · exact (foldl_keeps (p := fun v => v.flag (Reg.RDC_STAT_EXC_LIMITING c))
      (fun v d => flag_rdcOnset_ne faultFlag_excThermal faultFlag_limiting v d 0xB [] c (.inl (by decide))) (s.excited c) u).trans hlimiting
  · exact flag_foldl_channels (g := fun v d => rdcOnset v d Reg.RDC_STAT_EXC_THERMAL 0xB []) (fun v d => flag_rdcOnset v d 0xB [] faultFlag_excThermal)
      (fun v d e hde => flag_rdcOnset_ne faultFlag_excThermal faultFlag_excThermal v d 0xB [] e (.inr hde)) hd u
  · exact (foldl_keeps (p := State.ax) (fun v d => ax_rdcOnset v d 0xB []) (s.excited c) u).trans hax

end

end Sys2Proof

/-! ## REACQ (R185, R199) -/

namespace Sys2Proof.Machine

/-- The end of a thermal shutdown of the amplifier of channel `c`. -/
def State.restarted (s : State) (c : Nat) : State :=
  if s.flag (Reg.RDC_STAT_EXC_SHUTDOWN c) then (s.clr (Reg.RDC_STAT_EXC_SHUTDOWN c)).modRdc c fun k => { k with excAt := s.run } else s

/-- A channel as REACQ leaves it for acquisition: `checks` says that the converter check runs first, and `pass` what it finds. -/
def Rdc.retried (checks pass : Bool) (run : Nat) (k : Rdc) : Rdc :=
  if checks then
    { k with retryAt := run + 64 * cclkBeat, los := false, conv := !pass, ampOff := run + 64 * cclkBeat, excAt := run + 64 * cclkBeat }
  else { k with retryAt := run, los := false }

section
variable (s : State) (c : Nat)

theorem onlyAxes_restarted : onlyAxes s (s.restarted c) := by
  unfold State.restarted
  split <;> rfl

theorem bq_restarted : (s.restarted c).bq = s.bq := by
  unfold State.restarted
  split <;> rfl

theorem onlyRegs_restarted : onlyRegs s (s.restarted c) [Reg.RDC_STAT_EXC_SHUTDOWN c] := by
  unfold State.restarted
  split
  · exact onlyRegs_wr s (Reg.RDC_STAT_EXC_SHUTDOWN c) 0
  · exact onlyRegs_refl s _

theorem flag_restarted : (s.restarted c).flag (Reg.RDC_STAT_EXC_SHUTDOWN c) = false := by
  unfold State.restarted
  split
  next => exact State.flag_clr_self s _
  next hshut => exact Bool.not_eq_true _ ▸ hshut

theorem sameSettings_restarted : SameSettings s (s.restarted c) := by
  unfold State.restarted
  split
  · exact ((SameSettings.refl s).wr (faultFlag_shutdown.not_setting c) 0).modRdc c _
  · exact .refl s

theorem rdc_restarted : ∃ a, (s.restarted c).rdc c = { s.rdc c with excAt := a } := by
  unfold State.restarted
  split
  · rw [rdc_modRdc_self]
    exact ⟨s.run, rfl⟩
  · exact ⟨_, rfl⟩

theorem flag_restarted_conv : (s.restarted c).flag (Reg.RDC_STAT_CONV_FAULT c) = s.flag (Reg.RDC_STAT_CONV_FAULT c) :=
  State.flag_congr (onlyRegs_restarted s c _ fun h => stat_bit_ne c c 27 9 rfl rfl (by decide) (List.mem_singleton.1 h))

end

/-- A channel that REACQ leaves for acquisition. -/
def State.retried (s : State) (c : Nat) (pass : Bool) : State :=
  let t := s.modRdc c fun k => { k with retryAt := s.run, los := false }
  if s.flag (Reg.RDC_STAT_CONV_FAULT c) then
    t.modRdc c fun k =>
      { k with conv := !pass, retryAt := s.run + 64 * cclkBeat, ampOff := s.run + 64 * cclkBeat, excAt := s.run + 64 * cclkBeat }
  else t

section
variable (s : State) (c : Nat) (pass : Bool)

theorem rdcReacq_eq {s : State} {c : Nat} (hc : c < 32) (hon : s.rdcOn c = true) :
    rdcReacq s c pass = rdcDrop ((s.restarted c).retried c pass) c := by
  have hup : (!(s.restarted c).rdcOn c) = false := by rw [(sameSettings_restarted s c).rdcOn hc, hon]; rfl
  have hunfold : rdcReacq s c pass = if !(s.restarted c).rdcOn c then s.restarted c else rdcDrop ((s.restarted c).retried c pass) c := rfl
  rw [hunfold, hup, if_neg Bool.false_ne_true]

theorem onlyAxes_retried : onlyAxes s (s.retried c pass) := by
  unfold State.retried
  split <;> rfl

theorem bq_retried : (s.retried c pass).bq = s.bq := by
  unfold State.retried
  split <;> rfl

theorem rd_retried (f : Fld) : (s.retried c pass).rd f = s.rd f := by
  unfold State.retried
  split <;> rfl

theorem rdc_retried : (s.retried c pass).rdc c = Rdc.retried (s.flag (Reg.RDC_STAT_CONV_FAULT c)) pass s.run (s.rdc c) := by
  unfold State.retried Rdc.retried
  split
  · rw [rdc_modRdc_self, rdc_modRdc_self]
  · rw [rdc_modRdc_self]

end

end Sys2Proof.Machine

namespace Sys2Proof
open Sys2Proof.Machine

theorem exec_rdcReacq {s : State} {c : Nat} (hc : c < 32) {src : WrSrc} (pass : Bool) (htakes : s.takes src .RDC_CTRL (c / 16) (c % 16) true = true)
    (hon : s.rdcOn c = true) : ∃ t, exec (.rdcReacq src c pass) s = .next t ∧ (t.rdc c).ph = 0 ∧ (t.rdc c).pair = false ∧
      t.flag (Reg.RDC_STAT_EXC_SHUTDOWN c) = false ∧ t.rd (Reg.RDC_STAT_VALID c) = 0 ∧
      (s.flag (Reg.RDC_STAT_CONV_FAULT c) = false → (t.rdc c).retryAt = s.run ∧ (t.rdc c).conv = (s.rdc c).conv) ∧
      (s.flag (Reg.RDC_STAT_CONV_FAULT c) = true → (t.rdc c).conv = !pass ∧ (t.rdc c).retryAt = s.run + 64 * cclkBeat ∧
        (t.rdc c).ampOff = s.run + 64 * cclkBeat) ∧
      t = { s with regs := t.regs, ax := t.ax, kn := t.kn } ∧ onlyRegs s t (Reg.RDC_STAT_EXC_SHUTDOWN c :: rdcShown c) := by
  refine channel_taken (act := fun t => rdcReacq t c pass) hc htakes fun kn => ?_
  rw [rdcReacq_eq pass hc hon]
  obtain ⟨a, ha⟩ := rdc_restarted s c
  obtain ⟨up, hk⟩ := rdc_rdcDrop ((s.restarted c).retried c pass) c
  rw [rdc_retried, flag_restarted_conv, (sameSettings_restarted s c).run, ha] at hk
  obtain ⟨hopen, hpair, hvalid⟩ := rdcDrop_opens ((s.restarted c).retried c pass) c
  have hdrop := onlyRegs_rdcDrop ((s.restarted c).retried c pass) c
  have hframe := ((onlyAxes_restarted s c).trans (onlyAxes_retried _ c pass)).trans (onlyAxes_rdcDrop _ c)
  have hshut := (State.flag_congr ((hdrop _ (faultFlag_shutdown.not_shown c c)).trans (rd_retried _ c pass _))).trans (flag_restarted s c)
  have hregs := onlyRegs_trans (onlyRegs_of_rd (onlyRegs_mono (onlyRegs_restarted s c) (List.cons_subset_cons _ (List.nil_subset _)))
    (rd_retried _ c pass)) (onlyRegs_mono hdrop (List.subset_cons_self _ _))
  have hbq := (bq_rdcDrop ((s.restarted c).retried c pass) c).trans ((bq_retried _ c pass).trans (bq_restarted s c))
  generalize rdcDrop ((s.restarted c).retried c pass) c = t at hk hopen hpair hvalid hframe hshut hregs hbq
  refine ⟨hopen, hpair, hshut, hvalid, fun hconv => ?_, fun hconv => ?_, hframe.answered hbq kn, hregs⟩
  · rw [hconv] at hk
    exact ⟨(congrArg Rdc.retryAt hk :), (congrArg Rdc.conv hk :)⟩
  · rw [hconv] at hk
    exact ⟨(congrArg Rdc.conv hk :), (congrArg Rdc.retryAt hk :), (congrArg Rdc.ampOff hk :)⟩

/-! ## The statement -/

/-- Settles O21, fault by fault: a fault notes its condition, sets its bit and counts, and then drops the channel or shows it. -/
theorem resolverFaults : Obligations.ResolverFaults := by
  unfold Obligations.ResolverFaults
  intro s c hc
  exact ⟨exec_rdcLos hc, exec_rdcAmpHigh hc, fun w hon => ⟨exec_rdcWireOpen hc hon, exec_rdcWireOpen_clear hc hon⟩,
    fun hon => ⟨exec_rdcCmFault hc hon, exec_rdcCmFault_clear hc hon⟩, exec_rdcTrackLoss hc,
    fun hamp => ⟨fun ua => exec_rdcExcIlim hc hamp, exec_rdcExcThermal hc hamp⟩, exec_rdcConvFault hc,
    fun src pass htakes hon => exec_rdcReacq hc pass htakes hon⟩

end Sys2Proof
end

