-- ==== Sys2Proof/Proofs/HarmonicLearning.lean ====
section
/-! PROOFS. Harmonic learning (R190 to R193): the staging table, how learning starts and ends, and the activation of a table. -/

namespace Sys2Proof.Machine

/-! ## The fields of learning -/

/-- Fields of one element at different bits. -/
theorem key_ne_of_bit {j k b : Nat} (m n : Nat) (hj : j = b + m) (hk : k = b + n) (h : m ≠ n) : j ≠ k := by omega

/-- LEARNING is no field of RDC_HARM_STAT. -/
theorem learning_ne_harmStat {k : Nat} (c n : Nat) (hk : k = 8 * (0x51A80 + 0x8000 * (c / 16) + 8 * (c % 16)) + n) (hn : n < 64) :
    (Reg.RDC_STAT_LEARNING c).key ≠ k := by
  have hlearning : (Reg.RDC_STAT_LEARNING c).key = 8 * (0x51400 + 0x8000 * (c / 16) + 16 * (c % 16)) + 7 := rfl
  omega

/-! ## The staging table -/

/-- The coefficients of the first `n` harmonics. -/
def stgFields (c n : Nat) : List Fld := (List.range n).flatMap fun i => [Reg.RDC_HARM_STG_A c (i + 1), Reg.RDC_HARM_STG_B c (i + 1)]

theorem stgFields_succ (c n : Nat) : stgFields c (n + 1) = stgFields c n ++ [Reg.RDC_HARM_STG_A c (n + 1), Reg.RDC_HARM_STG_B c (n + 1)] := by
  simp [stgFields, List.range_succ]

section
variable (s : State) (c : Nat)

theorem writeStg_snoc (ab : List (Int × Int)) (x : Int × Int) : writeStg s c (ab ++ [x]) =
    ((writeStg s c ab).wrS (Reg.RDC_HARM_STG_A c (ab.length + 1)) x.1).wrS (Reg.RDC_HARM_STG_B c (ab.length + 1)) x.2 := by
  simp [writeStg, List.zipIdx_append, List.foldl_append]

theorem writeStg_frame (ab : List (Int × Int)) : writeStg s c ab = { s with regs := (writeStg s c ab).regs } := by
  induction ab using List.reverseRecOn with
  | nil => rfl
  | append_singleton ab x ih =>
    rw [writeStg_snoc, ih]
    rfl

theorem onlyRegs_writeStg (ab : List (Int × Int)) : onlyRegs s (writeStg s c ab) (stgFields c ab.length) := by
  induction ab using List.reverseRecOn with
  | nil => exact onlyRegs_refl s _
  | append_singleton ab x ih =>
    rw [writeStg_snoc, List.length_append, List.length_singleton, stgFields_succ]
    exact onlyRegs_wr_of_mem (onlyRegs_wr_of_mem (onlyRegs_mono ih (List.subset_append_left _ _)) (by simp) _) (by simp) _

/-- Each harmonic reads as it was written. -/
theorem rd_writeStg {ab : List (Int × Int)} {i : Nat} (hi : i < ab.length) :
    (writeStg s c ab).rd (Reg.RDC_HARM_STG_A c (i + 1)) = unsigned 32 (satS 32 (ab.getD i (0, 0)).1) % 2 ^ 32 ∧
      (writeStg s c ab).rd (Reg.RDC_HARM_STG_B c (i + 1)) = unsigned 32 (satS 32 (ab.getD i (0, 0)).2) % 2 ^ 32 := by
  induction ab using List.reverseRecOn with
  | nil => exact absurd hi (Nat.not_lt_zero i)
  | append_singleton ab x ih =>
    rw [writeStg_snoc]
    rcases Nat.lt_or_ge i ab.length with hold | hnew
    · have hkeep {f g : Fld} (m n : Nat) (hm : m < 64) (hn : n < 64)
          (hf : f.key = 8 * (0x52000 + 0x8000 * (c / 16) + 128 * (c % 16)) + (m + 64 * (ab.length + 1 - 1)))
          (hg : g.key = 8 * (0x52000 + 0x8000 * (c / 16) + 128 * (c % 16)) + (n + 64 * (i + 1 - 1))) : f.key ≠ g.key := by omega
      rw [List.getD_append _ _ _ _ hold, State.rd_wrS_ne _ _ (hkeep 32 0 (by decide) (by decide) rfl rfl),
        State.rd_wrS_ne _ _ (hkeep 0 0 (by decide) (by decide) rfl rfl), State.rd_wrS_ne _ _ (hkeep 32 32 (by decide) (by decide) rfl rfl),
        State.rd_wrS_ne _ _ (hkeep 0 32 (by decide) (by decide) rfl rfl)]
      exact ih hold
    · have hlast : i = ab.length := by
        rw [List.length_append, List.length_singleton] at hi
        omega
      rw [hlast, List.getD_append_right _ _ _ _ (Nat.le_refl _), Nat.sub_self]
      refine ⟨?_, State.rd_wr_self _ _ _⟩
      rw [State.rd_wrS_ne _ _ (key_ne_of_bit (32 + 64 * ab.length) (0 + 64 * ab.length) rfl rfl (by omega))]
      exact State.rd_wr_self _ _ _

theorem satS_of_small {x : Int} (h : x.natAbs < 2 ^ 31) : satS 32 x = x := by
  unfold satS clamp
  omega

theorem signed_unsigned_of_small {x : Int} (h : x.natAbs < 2 ^ 31) : signed 32 (unsigned 32 x % 2 ^ 32) = x :=
  signed_unsigned (by decide) (by omega) (by omega)

/-- A coefficient within the range of its field is read as it was written. -/
theorem rdS_writeStg {ab : List (Int × Int)} {i : Nat} (hi : i < ab.length)
    (hsmall : (ab.getD i (0, 0)).1.natAbs < 2 ^ 31 ∧ (ab.getD i (0, 0)).2.natAbs < 2 ^ 31) :
    (writeStg s c ab).rdS (Reg.RDC_HARM_STG_A c (i + 1)) = (ab.getD i (0, 0)).1 ∧
      (writeStg s c ab).rdS (Reg.RDC_HARM_STG_B c (i + 1)) = (ab.getD i (0, 0)).2 := by
  obtain ⟨ha, hb⟩ := rd_writeStg s c hi
  rw [satS_of_small hsmall.1] at ha
  rw [satS_of_small hsmall.2] at hb
  rw [State.rdS, State.rdS, ha, hb]
  exact ⟨signed_unsigned_of_small hsmall.1, signed_unsigned_of_small hsmall.2⟩

end

/-! ## How learning starts and ends (R191, R192) -/

section
variable {s : State} {c : Nat}

/-- What the start of learning leaves. -/
def learnStarted (s : State) (c : Nat) : State :=
  let r := s.eff (Reg.RDC_HARM_CFG_REF c)
  ((((((s.modRdc c fun k => { k with learn := some { ref := if r = 3 then 0 else r, turns := s.learnTurns c } }).wr (Reg.RDC_HARM_STAT_LSTATE c) 1).clr
    (Reg.RDC_HARM_STAT_FAIL c)).clr (Reg.RDC_HARM_STAT_ACCEPTED c)).clr (Reg.RDC_HARM_STAT_DISCARDED c)).set (Reg.RDC_STAT_LEARNING c))

theorem rdcLearn_eq (s : State) (c : Nat) : rdcLearn s c = if !s.rdcOwn c then s else learnStarted s c := rfl

theorem rd_learnStarted : (learnStarted s c).rd (Reg.RDC_HARM_STAT_LSTATE c) = 1 ∧ (learnStarted s c).rd (Reg.RDC_HARM_STAT_FAIL c) = 0 ∧
    (learnStarted s c).rd (Reg.RDC_HARM_STAT_ACCEPTED c) = 0 ∧ (learnStarted s c).rd (Reg.RDC_HARM_STAT_DISCARDED c) = 0 ∧
    (learnStarted s c).rd (Reg.RDC_STAT_LEARNING c) = 1 := by
  have hl {k : Nat} (n : Nat) (hk : k = 8 * (0x51A80 + 0x8000 * (c / 16) + 8 * (c % 16)) + n) (hn : n < 64) := learning_ne_harmStat c n hk hn
  unfold learnStarted
  refine ⟨?_, ?_, ?_, ?_, State.rd_set_self _ _⟩
  · rw [State.rd_set_ne _ (hl 0 rfl (by decide)), State.rd_clr_ne _ (key_ne_of_bit 48 0 rfl rfl (by decide)),
      State.rd_clr_ne _ (key_ne_of_bit 32 0 rfl rfl (by decide)), State.rd_clr_ne _ (key_ne_of_bit 4 0 rfl rfl (by decide)), State.rd_wr_self]
    rfl
  · rw [State.rd_set_ne _ (hl 4 rfl (by decide)), State.rd_clr_ne _ (key_ne_of_bit 48 4 rfl rfl (by decide)),
      State.rd_clr_ne _ (key_ne_of_bit 32 4 rfl rfl (by decide)), State.rd_clr_self]
  · rw [State.rd_set_ne _ (hl 32 rfl (by decide)), State.rd_clr_ne _ (key_ne_of_bit 48 32 rfl rfl (by decide)), State.rd_clr_self]
  · rw [State.rd_set_ne _ (hl 48 rfl (by decide)), State.rd_clr_self]

theorem learn_learnStarted : ∃ l, ((learnStarted s c).rdc c).learn = some l ∧ l.turns = max 4 (s.eff (Reg.RDC_HARM_CFG_TURNS c)) ∧ l.cause = 0 ∧
    l.seen = false := by
  unfold learnStarted
  rw [rdc_set, rdc_clr, rdc_clr, rdc_clr, rdc_wr, rdc_modRdc_self]
  exact ⟨_, rfl, rfl, rfl, rfl⟩

theorem onlyAxes_learnStarted : onlyAxes s (learnStarted s c) := rfl

theorem bq_learnStarted : (learnStarted s c).bq = s.bq := rfl

theorem onlyRegs_learnStarted : onlyRegs s (learnStarted s c) [Reg.RDC_HARM_STAT_LSTATE c, Reg.RDC_HARM_STAT_FAIL c,
    Reg.RDC_HARM_STAT_ACCEPTED c, Reg.RDC_HARM_STAT_DISCARDED c, Reg.RDC_STAT_LEARNING c] := by
  unfold learnStarted
  refine onlyRegs_wr_of_mem (onlyRegs_wr_of_mem (onlyRegs_wr_of_mem (onlyRegs_wr_of_mem (onlyRegs_wr_of_mem (onlyRegs_refl s _) ?_ _) ?_ _) ?_ _)
    ?_ _) ?_ _
  all_goals simp

/-- A channel whose learning has ended. -/
def Rdc.unlearnt (k : Rdc) : Rdc := { k with learn := none }

/-- Learning of channel `c` has ended FAILED with a code. -/
structure LearnFailed (s t : State) (c code : Nat) : Prop where
  learn : (t.rdc c).learn = none
  lstate : t.rd (Reg.RDC_HARM_STAT_LSTATE c) = 3
  fail : t.rd (Reg.RDC_HARM_STAT_FAIL c) = code % 8
  learning : t.rd (Reg.RDC_STAT_LEARNING c) = 0
  barks : Sys2Proof.barks s t (axSrc (c / 16)) (axCode (c / 16) 0x11)
  frame : onlyAxes s t
  regs : onlyRegs s t [Reg.RDC_HARM_STAT_LSTATE c, Reg.RDC_HARM_STAT_FAIL c, Reg.RDC_STAT_LEARNING c]

theorem learnFailed_learnFail (hlearn : (s.rdc c).learn.isSome = true) (code : Nat) : LearnFailed s (learnFail s c code) c code := by
  have hends : learnFail s c code = ((((s.modRdc c Rdc.unlearnt).wr (Reg.RDC_HARM_STAT_LSTATE c) 3).wr
      (Reg.RDC_HARM_STAT_FAIL c) code).clr (Reg.RDC_STAT_LEARNING c)).bark (axSrc (c / 16)) (axCode (c / 16) 0x11) true [c % 16, code] :=
    if_neg (by simpa using Option.ne_none_iff_isSome.2 hlearn)
  rw [hends]
  refine ⟨?_, ?_, ?_, State.rd_clr_self _ _, barks_bark _ _ _ _ _ _ rfl rfl, rfl, ?_⟩
  · rw [rdc_bark, rdc_clr, rdc_wr, rdc_wr, rdc_modRdc_self]
    rfl
  · rw [State.bark_rd, State.rd_clr_ne _ (learning_ne_harmStat c 0 rfl (by decide)), State.rd_wr_ne _ _ (key_ne_of_bit 4 0 rfl rfl (by decide)),
      State.rd_wr_self]
    rfl
  · rw [State.bark_rd, State.rd_clr_ne _ (learning_ne_harmStat c 4 rfl (by decide)), State.rd_wr_self]
    rfl
  · refine onlyRegs_of_rd (t := (((s.modRdc c Rdc.unlearnt).wr (Reg.RDC_HARM_STAT_LSTATE c) 3).wr (Reg.RDC_HARM_STAT_FAIL c) code).clr
      (Reg.RDC_STAT_LEARNING c)) (onlyRegs_wr_of_mem (onlyRegs_wr_of_mem (onlyRegs_wr_of_mem (onlyRegs_refl s _) ?_ _) ?_ _) ?_ _) fun _ => rfl
    all_goals simp

end

/-! ## The end of learning with its table (R191, R192) -/

/-- The coefficients that learning `l` of channel `c` has found, as the staging table holds them. -/
def State.learned (s : State) (c : Nat) (l : Learn) : List (Int × Int) :=
  (List.range 16).map fun i => (fun q : Int × Int => (rne (q.1 * (2 ^ 36 : Nat)) realOne, rne (q.2 * (2 ^ 36 : Nat)) realOne))
    (unLoop (loopKI (s.fnActs c 0)) (loopKP (s.fnActs c 0) (s.zeta c)) (rne l.wSum l.turns) (i + 1) (learnedCoef (binMeans l.acc) (i + 1)))

/-- Some coefficient does not fit its field. -/
def misfit (w : List (Int × Int)) : Bool := w.any fun q => 2 ^ 31 ≤ q.1.natAbs || 2 ^ 31 ≤ q.2.natAbs

/-- Learning has ended DONE, with a table and its residual. -/
def learnDone (s : State) (c : Nat) (w : List (Int × Int)) (r : Nat) : State :=
  ((((writeStg (s.modRdc c Rdc.unlearnt) c w).wr (Reg.RDC_HARM_STAT_RESID c) r).wr (Reg.RDC_HARM_STAT_LSTATE c) 2).clr
    (Reg.RDC_STAT_LEARNING c)).bark (axSrc (c / 16)) (axCode (c / 16) 0x10) false [c % 16, r]

/-- Under AUTO a table with a small residual is activated. -/
def autoActivated (s : State) (c : Nat) (auto : Bool) : State := if auto then harmActivate s .direct c else s

theorem map_zipIdx_map {α β : Type} (f : Nat → α) (g : Nat → α → β) (n : Nat) :
    ((List.range n).map f).zipIdx.map (fun q => g q.2 q.1) = (List.range n).map fun i => g i (f i) := by
  exact List.ext_getElem (by simp) fun i _ _ => by simp

/-- AUTO, and a residual that it takes. -/
def State.autoTakes (s : State) (c r : Nat) : Bool := s.eff (Reg.RDC_HARM_CFG_AUTO c) = 1 && r ≤ s.eff (Reg.RDC_HARM_CFG_RESID_MAX c)

/-- The residual of learning `l`. -/
def Learn.resid (l : Learn) : Nat := learnResid (binMeans l.acc) ((List.range 16).map fun i => learnedCoef (binMeans l.acc) (i + 1))

theorem harmDone_eq {s : State} {c : Nat} {l : Learn} (hl : (s.rdc c).learn = some l) : harmDone s c =
    if l.cause ≠ 0 || s.rd (Reg.RDC_HARM_STAT_ACCEPTED c) < l.turns then s
    else if misfit (s.learned c l) then learnFail s c 4
    else autoActivated (learnDone s c (s.learned c l) l.resid) c (s.autoTakes c l.resid) := by
  unfold harmDone
  rw [hl]
  dsimp only
  rw [map_zipIdx_map _ (fun i q => unLoop (loopKI (s.fnActs c 0)) (loopKP (s.fnActs c 0) (s.zeta c)) (rne l.wSum l.turns) (i + 1) q), List.map_map]
  rfl

section
variable (s : State) (c : Nat) (w : List (Int × Int)) (r : Nat)

theorem learn_learnDone : ((learnDone s c w r).rdc c).learn = none := by
  have hax : (writeStg (s.modRdc c Rdc.unlearnt) c w).rdc c = (s.modRdc c Rdc.unlearnt).rdc c := by rw [writeStg_frame]; rfl
  rw [learnDone, rdc_bark, rdc_clr, rdc_wr, rdc_wr, hax, rdc_modRdc_self]
  rfl

theorem rd_learnDone_learning : (learnDone s c w r).rd (Reg.RDC_STAT_LEARNING c) = 0 := by
  rw [learnDone, State.bark_rd, State.rd_clr_self]

theorem rd_learnDone_lstate : (learnDone s c w r).rd (Reg.RDC_HARM_STAT_LSTATE c) = 2 := by
  rw [learnDone, State.bark_rd, State.rd_clr_ne _ (learning_ne_harmStat c 0 rfl (by decide)), State.rd_wr_self]
  rfl

theorem barks_learnDone : Sys2Proof.barks s (learnDone s c w r) (axSrc (c / 16)) (axCode (c / 16) 0x10) := by
  refine barks_bark s _ _ _ _ _ ?_ ?_
  · change (writeStg (s.modRdc c Rdc.unlearnt) c w).bq.staged = s.bq.staged
    rw [writeStg_frame]
    rfl
  · change (writeStg (s.modRdc c Rdc.unlearnt) c w).now = s.now
    rw [writeStg_frame]
    rfl

theorem onlyAxes_learnDone : onlyAxes s (learnDone s c w r) := by
  have hstg : onlyAxes s (writeStg (s.modRdc c Rdc.unlearnt) c w) := by
    rw [writeStg_frame]
    rfl
  exact hstg.trans rfl

/-- After the table nothing writes it. -/
theorem rd_learnDone_stg {f : Fld} (hf : 8 * (0x52000 + 0x8000 * (c / 16) + 128 * (c % 16)) ≤ f.key) :
    (learnDone s c w r).rd f = (writeStg (s.modRdc c Rdc.unlearnt) c w).rd f := by
  have hresid : (Reg.RDC_HARM_STAT_RESID c).key ≠ f.key := by dsimp only [Reg.RDC_HARM_STAT_RESID]; omega
  have hlstate : (Reg.RDC_HARM_STAT_LSTATE c).key ≠ f.key := by dsimp only [Reg.RDC_HARM_STAT_LSTATE]; omega
  have hlearning : (Reg.RDC_STAT_LEARNING c).key ≠ f.key := by dsimp only [Reg.RDC_STAT_LEARNING]; omega
  rw [learnDone, State.bark_rd, State.rd_clr_ne _ hlearning, State.rd_wr_ne _ _ hlstate, State.rd_wr_ne _ _ hresid]

theorem rdS_learnDone {i : Nat} (hi : i < w.length) (hfits : misfit w = false) :
    (learnDone s c w r).rdS (Reg.RDC_HARM_STG_A c (i + 1)) = (w.getD i (0, 0)).1 ∧
      (learnDone s c w r).rdS (Reg.RDC_HARM_STG_B c (i + 1)) = (w.getD i (0, 0)).2 := by
  have hsmall : (w.getD i (0, 0)).1.natAbs < 2 ^ 31 ∧ (w.getD i (0, 0)).2.natAbs < 2 ^ 31 := by
    have hmem : w.getD i (0, 0) ∈ w := by
      rw [List.getD_eq_getElem _ _ hi]
      exact List.getElem_mem hi
    simpa using List.any_eq_false.1 hfits _ hmem
  rw [State.rdS, State.rdS, rd_learnDone_stg s c w r (Nat.le_add_right _ _), rd_learnDone_stg s c w r (Nat.le_add_right _ _)]
  exact rdS_writeStg _ c hi hsmall

end

/-- Other activations wait. -/
def withActs (s : State) (acts : List (Nat × Nat)) : State := { s with ax := { s.ax with acts := acts } }

section
variable (s : State) (acts : List (Nat × Nat))

theorem onlyAxes_withActs : onlyAxes s (withActs s acts) := rfl

theorem rdc_withActs (c : Nat) : (withActs s acts).rdc c = s.rdc c := rfl

theorem rd_withActs (f : Fld) : (withActs s acts).rd f = s.rd f := rfl

theorem barks_withActs {s t : State} {src code : Nat} (h : Sys2Proof.barks s t src code) (acts : List (Nat × Nat)) :
    Sys2Proof.barks s (withActs t acts) src code := h

theorem autoActivated_frame (c : Nat) (auto : Bool) : ∃ acts, autoActivated s c auto = withActs s acts := by
  cases auto
  · exact ⟨s.ax.acts, rfl⟩
  · exact ⟨_, rfl⟩

end

/-! ## Activation (R193) -/

/-- The outputs of channel `d` carry SETTLING, where the table of channel `c` acts on them. -/
def settleOne (s : State) (c e : Nat) (u : State) (d : Nat) : State :=
  if d = c || (s.paired d && s.coarse d = c) then u.modRdc d fun k => k.settling s.now e else u

theorem harmSettle_eq (s : State) (c e : Nat) : harmSettle s c e = ((List.range 16).map (sibling c)).foldl (settleOne s c e) s := rfl

section
variable (s : State) (c e : Nat)

theorem settleOne_frame (u : State) (d : Nat) : settleOne s c e u d = { u with ax := (settleOne s c e u d).ax } := by
  unfold settleOne
  split <;> rfl

theorem harmSettle_frame : harmSettle s c e = { s with ax := (harmSettle s c e).ax } := by
  rw [harmSettle_eq]
  generalize (List.range 16).map (sibling c) = l
  induction l using List.reverseRecOn with
  | nil => rfl
  | append_singleton l d ih =>
    rw [List.foldl_concat, settleOne_frame, ih]

theorem settle_settleOne (u : State) (d : Nat) : (u.rdc c).settle ≤ ((settleOne s c e u d).rdc c).settle ∧
    (d = c → e + cclkBeat ≤ ((settleOne s c e u d).rdc c).settle) := by
  unfold settleOne
  split
  next =>
    by_cases hd : d = c
    · rw [hd, rdc_modRdc_self]
      exact ⟨Nat.le_max_left _ _, fun _ => Nat.le_max_right _ _⟩
    · rw [rdc_modRdc_ne u hd]
      exact ⟨Nat.le_refl _, fun h => absurd h hd⟩
  next hother => exact ⟨Nat.le_refl _, fun hd => absurd (by simp [hd]) hother⟩

/-- An activation makes the outputs of the beat carry SETTLING. -/
theorem settle_harmSettle : e + cclkBeat ≤ ((harmSettle s c e).rdc c).settle := by
  have hmem : c ∈ (List.range 16).map (sibling c) :=
    List.mem_map.2 ⟨c % 16, List.mem_range.2 (Nat.mod_lt c (by decide)), by unfold sibling; omega⟩
  rw [harmSettle_eq]
  generalize (List.range 16).map (sibling c) = l at hmem
  induction l using List.reverseRecOn with
  | nil => exact absurd hmem List.not_mem_nil
  | append_singleton l d ih =>
    rw [List.foldl_concat]
    rcases List.mem_append.1 hmem with hold | hnew
    · exact (ih hold).trans (settle_settleOne s c e _ d).1
    · exact (settle_settleOne s c e _ d).2 (List.mem_singleton.1 hnew).symm

end

/-- A table has become active: what holds of it whatever the kennel then holds. -/
structure TableActive (s t : State) (c table : Nat) : Prop where
  active : t.rd (Reg.RDC_HARM_ACT_TABLE c) = table % 2 ^ 1024
  settle : s.now + cclkBeat ≤ (t.rdc c).settle
  barks : Sys2Proof.barks s t (axSrc (c / 16)) (axCode (c / 16) 0x12)
  regs : onlyRegs s t [Reg.RDC_HARM_ACT_TABLE c]
  frame : t = { s with regs := t.regs, ax := t.ax, bq := t.bq, kn := t.kn }

theorem tableActive_harmActive (s : State) (c table : Nat) (kn : KnSt) :
    TableActive s { harmActive s c table with pending := s.pending, kn := kn } c table := by
  have hframe := harmSettle_frame (s.wr (Reg.RDC_HARM_ACT_TABLE c) table) c s.now
  have hsettle := settle_harmSettle (s.wr (Reg.RDC_HARM_ACT_TABLE c) table) c s.now
  unfold harmActive
  generalize harmSettle (s.wr (Reg.RDC_HARM_ACT_TABLE c) table) c s.now = u at hframe hsettle
  refine ⟨?_, hsettle, ?_, ?_, ?_⟩
  · change u.rd _ = _
    rw [hframe]
    exact State.rd_wr_self s _ table
  · have hstaged : u.bq.staged = s.bq.staged := by rw [hframe]; rfl
    have hnow : u.now = s.now := by rw [hframe]; rfl
    exact barks_bark s u _ _ false [c % 16] hstaged hnow
  · refine onlyRegs_of_rd (onlyRegs_wr s (Reg.RDC_HARM_ACT_TABLE c) table) fun f => ?_
    change u.rd f = _
    rw [hframe]
    rfl
  · rw [hframe]
    rfl

end Sys2Proof.Machine

namespace Sys2Proof
open Sys2Proof.Machine

section
variable {s : State} {c : Nat} (hc : c < 32)
include hc

section
variable {src : WrSrc} (htakes : s.takes src .RDC_CTRL (c / 16) (c % 16) true = true)
include htakes

theorem exec_rdcLearn (hown : s.rdcOwn c = true) : ∃ t, exec (.rdcLearn src c) s = .next t ∧ t.rd (Reg.RDC_HARM_STAT_LSTATE c) = 1 ∧
    t.rd (Reg.RDC_HARM_STAT_FAIL c) = 0 ∧ t.rd (Reg.RDC_HARM_STAT_ACCEPTED c) = 0 ∧ t.rd (Reg.RDC_HARM_STAT_DISCARDED c) = 0 ∧
    t.rd (Reg.RDC_STAT_LEARNING c) = 1 ∧
    (∃ l, (t.rdc c).learn = some l ∧ l.turns = max 4 (s.eff (Reg.RDC_HARM_CFG_TURNS c)) ∧ l.cause = 0 ∧ l.seen = false) ∧
    t = { s with regs := t.regs, ax := t.ax, kn := t.kn } ∧
    onlyRegs s t [Reg.RDC_HARM_STAT_LSTATE c, Reg.RDC_HARM_STAT_FAIL c, Reg.RDC_HARM_STAT_ACCEPTED c, Reg.RDC_HARM_STAT_DISCARDED c,
      Reg.RDC_STAT_LEARNING c] := by
  refine channel_taken (act := fun t => rdcLearn t c) hc htakes fun kn => ?_
  have hstarts : rdcLearn s c = learnStarted s c := by rw [rdcLearn_eq, hown]; rfl
  rw [hstarts]
  obtain ⟨hlstate, hfail, haccepted, hdiscarded, hlearning⟩ := rd_learnStarted (s := s) (c := c)
  have hlearn := learn_learnStarted (s := s) (c := c)
  have hframe := onlyAxes_learnStarted (s := s) (c := c)
  have hbq := bq_learnStarted (s := s) (c := c)
  have hregs := onlyRegs_learnStarted (s := s) (c := c)
  generalize learnStarted s c = t at hlstate hfail haccepted hdiscarded hlearning hlearn hframe hbq hregs
  exact ⟨hlstate, hfail, haccepted, hdiscarded, hlearning, hlearn, hframe.answered hbq kn, hregs⟩

theorem exec_rdcLearn_unlocked (hown : s.rdcOwn c = false) : ∃ t, exec (.rdcLearn src c) s = .next t ∧ t = { s with kn := t.kn } := by
  refine channel_taken (act := fun t => rdcLearn t c) hc htakes fun kn => ?_
  rw [rdcLearn_eq, hown]
  rfl

theorem exec_rdcAbort (hlearn : (s.rdc c).learn.isSome = true) : ∃ t, exec (.rdcAbort src c) s = .next t ∧ (t.rdc c).learn = none ∧
    t.rd (Reg.RDC_HARM_STAT_LSTATE c) = 3 ∧ t.rd (Reg.RDC_HARM_STAT_FAIL c) = 5 ∧ t.rd (Reg.RDC_STAT_LEARNING c) = 0 ∧
    barks s t (axSrc (c / 16)) (axCode (c / 16) 0x11) ∧ t = { s with regs := t.regs, ax := t.ax, bq := t.bq, kn := t.kn } ∧
    onlyRegs s t [Reg.RDC_HARM_STAT_LSTATE c, Reg.RDC_HARM_STAT_FAIL c, Reg.RDC_STAT_LEARNING c] := by
  refine channel_taken (act := fun t => learnFail t c 5) hc htakes fun kn => ?_
  obtain ⟨hnone, hlstate, hfail, hlearning, hbarks, hframe, hregs⟩ := learnFailed_learnFail hlearn 5
  generalize learnFail s c 5 = t at hnone hlstate hfail hlearning hbarks hframe hregs
  refine ⟨hnone, hlstate, hfail, hlearning, hbarks, ?_, hregs⟩
  rw [hframe]

theorem exec_rdcHarmClear : ∃ t, exec (.rdcHarmClear src c) s = .next t ∧
    (∀ h, 1 ≤ h → h ≤ 16 → t.rd (Reg.RDC_HARM_STG_A c h) = 0 ∧ t.rd (Reg.RDC_HARM_STG_B c h) = 0) ∧ t = { s with regs := t.regs, kn := t.kn } ∧
    onlyRegs s t ((List.range 16).flatMap fun i => [Reg.RDC_HARM_STG_A c (i + 1), Reg.RDC_HARM_STG_B c (i + 1)]) := by
  refine channel_taken (act := fun t => writeStg t c (List.replicate 16 (0, 0))) hc htakes fun kn => ?_
  have hzero (h : Nat) (hlow : 1 ≤ h) (hhigh : h ≤ 16) : (writeStg s c (List.replicate 16 (0, 0))).rd (Reg.RDC_HARM_STG_A c h) = 0 ∧
      (writeStg s c (List.replicate 16 (0, 0))).rd (Reg.RDC_HARM_STG_B c h) = 0 := by
    obtain ⟨i, rfl⟩ : ∃ i, h = i + 1 := ⟨h - 1, by omega⟩
    have hrd := rd_writeStg s c (ab := List.replicate 16 (0, 0)) (i := i) (by rw [List.length_replicate]; omega)
    rw [List.getD_replicate (0, 0) (by omega)] at hrd
    exact hrd
  have hframe := writeStg_frame s c (List.replicate 16 (0, 0))
  have hregs := onlyRegs_writeStg s c (List.replicate 16 (0, 0))
  rw [List.length_replicate] at hregs
  generalize writeStg s c (List.replicate 16 (0, 0)) = t at hzero hframe hregs
  refine ⟨hzero, ?_, hregs⟩
  rw [hframe]

theorem exec_rdcHarmActivate_direct (hsrc : src = .direct) : ∃ t, exec (.rdcHarmActivate src c) s = .next t ∧
    t.ax.acts = s.ax.acts.filter (fun q => q.1 ≠ c) ++ [(c, beatNext s.now)] ∧ t = { s with ax := t.ax, kn := t.kn } := by
  subst hsrc
  exact channel_taken (act := fun t => harmActivate t .direct c) hc htakes fun kn => ⟨rfl, rfl⟩

theorem exec_rdcHarmActivate_cfg (hsrc : src = .cfg) : ∃ t, exec (.rdcHarmActivate src c) s = .next t ∧
    t.rd (Reg.RDC_HARM_ACT_TABLE c) = s.harmStg c % 2 ^ 1024 ∧ s.now + cclkBeat ≤ (t.rdc c).settle ∧
    barks s t (axSrc (c / 16)) (axCode (c / 16) 0x12) ∧ onlyRegs s t [Reg.RDC_HARM_ACT_TABLE c] ∧
    t = { s with regs := t.regs, ax := t.ax, bq := t.bq, kn := t.kn } := by
  subst hsrc
  refine channel_taken (act := fun t => harmActivate t .cfg c) hc htakes fun kn => ?_
  obtain ⟨hactive, hsettle, hbarks, hregs, hframe⟩ := tableActive_harmActive s c (s.harmStg c) kn
  exact ⟨hactive, hsettle, hbarks, hregs, hframe⟩

end

theorem exec_rdcHarmFail {l : Learn} (hl : (s.rdc c).learn = some l) (hcause : l.cause ≠ 0) (hcode : l.cause < 8) :
    ∃ t, exec (.rdcHarmFail c) s = .next t ∧ (t.rdc c).learn = none ∧
    t.rd (Reg.RDC_HARM_STAT_LSTATE c) = 3 ∧ t.rd (Reg.RDC_HARM_STAT_FAIL c) = l.cause ∧ barks s t (axSrc (c / 16)) (axCode (c / 16) 0x11) ∧
    t = { s with regs := t.regs, ax := t.ax, bq := t.bq } ∧
    onlyRegs s t [Reg.RDC_HARM_STAT_LSTATE c, Reg.RDC_HARM_STAT_FAIL c, Reg.RDC_STAT_LEARNING c] := by
  have hfails : (match (s.rdc c).learn with
      | some l => if l.cause = 0 then s else learnFail s c l.cause
      | none => s) = learnFail s c l.cause := by
    rw [hl]
    exact if_neg hcause
  obtain ⟨hnone, hlstate, hfail, -, hbarks, hframe, hregs⟩ := learnFailed_learnFail (s := s) (c := c) (by rw [hl]; rfl) l.cause
  exact ⟨_, channel_answer hc hfails hframe, hnone, hlstate, hfail.trans (Nat.mod_eq_of_lt hcode), hbarks, hframe, hregs⟩

section
variable {l : Learn} (hl : (s.rdc c).learn = some l)
include hl

theorem exec_rdcHarmDone_early (hturns : s.rd (Reg.RDC_HARM_STAT_ACCEPTED c) < l.turns) : ∃ t, exec (.rdcHarmDone c) s = .next t ∧ t = s := by
  have hstays : harmDone s c = s := by
    rw [harmDone_eq hl]
    exact if_pos (by simp [hturns])
  exact ⟨_, channel_answer hc hstays (.refl s), rfl⟩

variable (hcause : l.cause = 0)
include hcause

theorem exec_rdcHarmDone_misfit (hturns : l.turns ≤ s.rd (Reg.RDC_HARM_STAT_ACCEPTED c)) (hfits : misfit (s.learned c l) = true) :
    ∃ t, exec (.rdcHarmDone c) s = .next t ∧ (t.rdc c).learn = none ∧ t.rd (Reg.RDC_STAT_LEARNING c) = 0 ∧
      t.rd (Reg.RDC_HARM_STAT_LSTATE c) = 3 ∧ t.rd (Reg.RDC_HARM_STAT_FAIL c) = 4 ∧ barks s t (axSrc (c / 16)) (axCode (c / 16) 0x11) := by
  have hfails : harmDone s c = learnFail s c 4 := by
    rw [harmDone_eq hl, if_neg (by simp [hcause, hturns]), if_pos hfits]
  obtain ⟨hnone, hlstate, hfail, hlearning, hbarks, hframe, -⟩ := learnFailed_learnFail (s := s) (c := c) (by rw [hl]; rfl) 4
  exact ⟨_, channel_answer hc hfails hframe, hnone, hlearning, hlstate, hfail, hbarks⟩

theorem exec_rdcHarmDone_fits (hturns : l.turns ≤ s.rd (Reg.RDC_HARM_STAT_ACCEPTED c)) (hfits : misfit (s.learned c l) = false) :
    ∃ acts, exec (.rdcHarmDone c) s = .next (withActs (learnDone s c (s.learned c l) l.resid) acts) := by
  have hdone : harmDone s c = autoActivated (learnDone s c (s.learned c l) l.resid) c (s.autoTakes c l.resid) := by
    rw [harmDone_eq hl, if_neg (by simp [hcause, hturns]), if_neg (by simp [hfits])]
  obtain ⟨acts, hauto⟩ := autoActivated_frame (learnDone s c (s.learned c l) l.resid) c (s.autoTakes c l.resid)
  exact ⟨acts, channel_answer hc (hdone.trans hauto) ((onlyAxes_learnDone s c (s.learned c l) l.resid).trans (onlyAxes_withActs _ acts))⟩

theorem exec_rdcHarmDone (hturns : l.turns ≤ s.rd (Reg.RDC_HARM_STAT_ACCEPTED c)) (hfits : misfit (s.learned c l) = false) :
    ∃ t, exec (.rdcHarmDone c) s = .next t ∧ (t.rdc c).learn = none ∧ t.rd (Reg.RDC_STAT_LEARNING c) = 0 ∧
      t.rd (Reg.RDC_HARM_STAT_LSTATE c) = 2 ∧ barks s t (axSrc (c / 16)) (axCode (c / 16) 0x10) ∧
      (∀ i, i < 16 → t.rdS (Reg.RDC_HARM_STG_A c (i + 1)) = ((s.learned c l).getD i (0, 0)).1 ∧
        t.rdS (Reg.RDC_HARM_STG_B c (i + 1)) = ((s.learned c l).getD i (0, 0)).2) := by
  have hlength : (s.learned c l).length = 16 := by rw [State.learned, List.length_map, List.length_range]
  obtain ⟨acts, hexec⟩ := exec_rdcHarmDone_fits hc hl hcause hturns hfits
  refine ⟨_, hexec, ?_, ?_, ?_, ?_, fun i hi => ?_⟩
  · rw [rdc_withActs, learn_learnDone]
  · rw [rd_withActs, rd_learnDone_learning]
  · rw [rd_withActs, rd_learnDone_lstate]
  · exact barks_withActs (barks_learnDone s c (s.learned c l) l.resid) acts
  · rw [State.rdS, State.rdS, rd_withActs, rd_withActs]
    exact rdS_learnDone s c (s.learned c l) l.resid (hi.trans_eq hlength.symm) hfits

end

end

/-! ## The statement -/

/-- Settles O23, command by command: LEARN, ABORT, CLEAR and ACTIVATE by the frame of the kennel, the end of learning by the table that is
written. -/
theorem harmonicLearning : Obligations.HarmonicLearning := by
  unfold Obligations.HarmonicLearning
  intro s c hc
  refine ⟨fun src htakes => ⟨exec_rdcLearn hc htakes, exec_rdcLearn_unlocked hc htakes, exec_rdcAbort hc htakes, exec_rdcHarmClear hc htakes,
    exec_rdcHarmActivate_direct hc htakes, exec_rdcHarmActivate_cfg hc htakes⟩, fun l => exec_rdcHarmFail hc, fun l w hl hcause hturns hw => ?_,
    fun l hl _ hturns => exec_rdcHarmDone_early hc hl hturns⟩
  subst hw
  exact ⟨exec_rdcHarmDone_misfit hc hl hcause hturns, exec_rdcHarmDone hc hl hcause hturns⟩

end Sys2Proof
end

