-- ==== Sys2Proof/Proofs/ResolverAcquisition.lean ====
section
/-! PROOFS. A try of a resolver channel, its lock test, pairs, and the live element (R182 to R189, R195). -/

namespace Sys2Proof.Machine

/-! ## The phase estimate (R176) -/

section
variable (s : State) (c : Nat)

theorem onlyAxes_showPhase : onlyAxes s (showPhase s c) := onlyAxes.wr s _ _

theorem bq_showPhase : (showPhase s c).bq = s.bq := State.wr_bq s _ _

theorem rdc_showPhase (d : Nat) : (showPhase s c).rdc d = s.rdc d := rdc_wr s _ _ d

theorem onlyRegs_showPhase : onlyRegs s (showPhase s c) [Reg.RDC_STAT_PH_EST c] := onlyRegs_wr s _ _

theorem sameSettings_showPhase : SameSettings s (showPhase s c) := (SameSettings.refl s).wr (not_setting_of_bit c 32 rfl (by decide)) _

end

/-! ## A try begins, or is refused (R183) -/

/-- A channel whose try begins now, from the signal `w` against PH0. -/
def Rdc.seeded (k : Rdc) (now ph0 : Nat) (w : Wind) : Rdc :=
  { k with ph := 1, phic := unsigned 48 ((ph0 : Int) + w.delta), seeds := [unsigned 48 (atan2 w.s w.c)], tryAt := now, lockOk := true, accel := 0,
           err := 0, los := false }

/-- A channel whose try is refused. -/
def Rdc.unseeded (k : Rdc) (ph0 : Nat) : Rdc := { k with phic := ph0, los := false }

/-- The state in which a refused try fails. -/
def phaseRefused (s : State) (c : Nat) : State :=
  let t := showPhase (s.modRdc c fun k => k.unseeded (s.ph0 c)) c
  rdcOnset t c Reg.RDC_STAT_PHASE 7 [t.rd (Reg.RDC_STAT_PH_EST c)]

theorem acqStart_eq (s : State) (c : Nat) : acqStart s c =
    if !s.mayAcquire c then s
    else if (s.phWin c : Int) < (s.seedSig c).delta.natAbs then tryFailed (phaseRefused s c) c 0
    else showRdc (showPhase (s.modRdc c fun k => k.seeded s.now (s.ph0 c) (s.seedSig c)) c) c := rfl

theorem faultFlag_phase : FaultFlag Reg.RDC_STAT_PHASE 20 := ⟨fun _ => rfl, fun _ => rfl, by decide⟩

section
variable (s : State) (c : Nat)

theorem rdc_phaseRefused : (phaseRefused s c).rdc c = (s.rdc c).unseeded (s.ph0 c) := by
  rw [phaseRefused, rdc_rdcOnset, rdc_showPhase, rdc_modRdc_self]

theorem onlyAxes_phaseRefused : onlyAxes s (phaseRefused s c) :=
  ((onlyAxes.modRdc s c _).trans (onlyAxes_showPhase _ c)).trans (onlyAxes_rdcOnset _ c 7 _)

theorem flag_phaseRefused : (phaseRefused s c).flag (Reg.RDC_STAT_PHASE c) = true := flag_rdcOnset _ c 7 _ faultFlag_phase

theorem onlyRegs_phaseRefused : onlyRegs s (phaseRefused s c) [Reg.RDC_STAT_PH_EST c, Reg.RDC_STAT_PHASE c] :=
  onlyRegs_trans (onlyRegs_mono (onlyRegs_showPhase (s.modRdc c _) c) (by simp)) (onlyRegs_mono (onlyRegs_rdcOnset _ c 7 _) (by simp))

end

/-! ## A try fails (R185) -/

/-- A channel whose try has failed, as the `n`th in a row. -/
def Rdc.unlocked (k : Rdc) (n run ago : Nat) : Rdc :=
  { k with ph := 0, seeds := [], retryAt := if 8 ≤ n then run + 64 * cclkBeat - ago else k.retryAt }

/-- A failed try is counted, and the eighth in a row barked. -/
def countedTry (s : State) (c ago : Nat) : State :=
  let n := min 255 (s.rd (Reg.RDC_STAT_ACQ_TRIES c) + 1)
  let t := (s.wr (Reg.RDC_STAT_ACQ_TRIES c) n).modRdc c fun k => k.unlocked n s.run ago
  if n = 8 then rdcOnset t c Reg.RDC_STAT_ACQ_FAIL 2 [] else t

theorem tryFailed_eq (s : State) (c ago : Nat) : tryFailed s c ago = showRdc (countedTry s c ago) c := rfl

section
variable (s : State) (c ago : Nat)

theorem onlyAxes_tryFailed : onlyAxes s (tryFailed s c ago) := by
  rw [tryFailed_eq, countedTry]
  refine onlyAxes.trans ?_ (onlyAxes_showRdc _ c)
  split
  · exact ((onlyAxes.wr s _ _).trans (onlyAxes.modRdc _ c _)).trans (onlyAxes_rdcOnset _ c 2 [])
  · exact (onlyAxes.wr s _ _).trans (onlyAxes.modRdc _ c _)

theorem rdc_tryFailed : ∃ up, (tryFailed s c ago).rdc c =
    { (s.rdc c).unlocked (min 255 (s.rd (Reg.RDC_STAT_ACQ_TRIES c) + 1)) s.run ago with up := up } := by
  rw [tryFailed_eq, rdc_showRdc_self, countedTry]
  split
  · rw [rdc_rdcOnset, rdc_modRdc_self]
    exact ⟨_, rfl⟩
  · rw [rdc_modRdc_self]
    exact ⟨_, rfl⟩

theorem onlyRegs_countedTry : onlyRegs s (countedTry s c ago) [Reg.RDC_STAT_ACQ_TRIES c, Reg.RDC_STAT_ACQ_FAIL c] := by
  have hcount := onlyRegs_wr s (Reg.RDC_STAT_ACQ_TRIES c) (min 255 (s.rd (Reg.RDC_STAT_ACQ_TRIES c) + 1))
  unfold countedTry
  dsimp only
  split
  · exact onlyRegs_trans (onlyRegs_mono hcount (by simp)) (onlyRegs_mono (onlyRegs_rdcOnset _ c 2 []) (by simp))
  · exact onlyRegs_mono hcount (by simp)

theorem rd_countedTry : (countedTry s c ago).rd (Reg.RDC_STAT_ACQ_TRIES c) = min 255 (s.rd (Reg.RDC_STAT_ACQ_TRIES c) + 1) := by
  have hcount : (s.wr (Reg.RDC_STAT_ACQ_TRIES c) (min 255 (s.rd (Reg.RDC_STAT_ACQ_TRIES c) + 1))).rd (Reg.RDC_STAT_ACQ_TRIES c) =
      min 255 (s.rd (Reg.RDC_STAT_ACQ_TRIES c) + 1) :=
    (State.rd_wr_self _ _ _).trans (Nat.mod_eq_of_lt (Nat.lt_of_le_of_lt (Nat.min_le_left _ _) (show 255 < 2 ^ 8 by decide)))
  unfold countedTry
  dsimp only
  split
  · rw [rd_rdcOnset, State.rd_set_ne _ (stat_bit_ne c c 28 72 rfl rfl (by decide))]
    exact hcount
  · exact hcount

theorem rd_tryFailed : (tryFailed s c ago).rd (Reg.RDC_STAT_ACQ_TRIES c) = min 255 (s.rd (Reg.RDC_STAT_ACQ_TRIES c) + 1) := by
  rw [tryFailed_eq, onlyRegs_showRdc _ c _ (not_shown_of_bit c c 72 rfl (by decide)), rd_countedTry]

theorem flag_tryFailed : (tryFailed s c ago).flag (Reg.RDC_STAT_PHASE c) = s.flag (Reg.RDC_STAT_PHASE c) := by
  have hother : (Reg.RDC_STAT_PHASE c).key ∉ [Reg.RDC_STAT_ACQ_TRIES c, Reg.RDC_STAT_ACQ_FAIL c].map Fld.key := by
    rw [List.map_cons, List.map_singleton, List.mem_cons, List.mem_singleton, not_or]
    exact ⟨stat_bit_ne c c 20 72 rfl rfl (by decide), stat_bit_ne c c 20 28 rfl rfl (by decide)⟩
  exact State.flag_congr ((onlyRegs_showRdc _ c _ (faultFlag_phase.not_shown c c)).trans (onlyRegs_countedTry s c ago _ hother))

end

/-! ## The lock (R183) -/

/-- A channel that locks now, which is a fine channel of a pair or not. -/
def Rdc.locked (k : Rdc) (now : Nat) (paired : Bool) : Rdc :=
  { k with ph := 3, seeds := [], errRun := 0, spdRun := 0, lockAt := now, setFrom := now, settle := now + cclkBeat,
           cur := { k.cur with own := true, valid := !paired, flags := if k.cur.flags / 4 % 2 = 1 then k.cur.flags else k.cur.flags + 4 } }

/-- The outputs that a channel shows as its last valid ones. -/
def Rdc.shownLive (k : Rdc) (now : Nat) : Rdc :=
  if k.cur.at_ ≠ now || !k.cur.own then k
  else if k.cur.valid then { k with live := k.cur } else { k with live := { k.live with elec := k.cur.elec } }

/-- Those outputs alone change. -/
theorem Rdc.shownLive_eq (k : Rdc) (now : Nat) : k.shownLive now = { k with live := (k.shownLive now).live } := by
  unfold Rdc.shownLive
  split
  · rfl
  · split <;> rfl

/-- A try that has passed is counted and barked. -/
def lockCounted (s : State) (c : Nat) : State :=
  (((s.clr (Reg.RDC_STAT_ACQ_TRIES c)).count (Reg.RDC_CNT_LOCKS c)).bark (axSrc (c / 16)) (axCode (c / 16) 1) false [c % 16])

theorem liveUpdate_eq (s : State) (c : Nat) : liveUpdate s c = s.modRdc c fun k => k.shownLive s.now := rfl

theorem lockTest_eq (s : State) (c : Nat) : lockTest s c =
    if (s.rdc c).ph = 2 && (s.rdc c).tryAt + 64 * 240 = s.now then
      if (s.rdc c).lockOk then showRdc (lockCounted (liveUpdate (s.modRdc c fun k => k.locked s.now (s.paired c)) c) c) c
      else tryFailed s c (64 * 240)
    else s := rfl

section
variable (s : State) (c : Nat)

theorem onlyRegs_lockCounted : onlyRegs s (lockCounted s c) [Reg.RDC_STAT_ACQ_TRIES c, Reg.RDC_CNT_LOCKS c] :=
  onlyRegs_mono (onlyRegs_of_rd (onlyRegs_snoc (onlyRegs_wr s (Reg.RDC_STAT_ACQ_TRIES c) 0) (Reg.RDC_CNT_LOCKS c) _) fun _ => rfl) (by simp)

theorem rd_lockCounted : (lockCounted s c).rd (Reg.RDC_STAT_ACQ_TRIES c) = 0 ∧
    (lockCounted s c).rd (Reg.RDC_CNT_LOCKS c) = satU 32 (s.rd (Reg.RDC_CNT_LOCKS c) + 1) := by
  have hne : (Reg.RDC_STAT_ACQ_TRIES c).key ≠ (Reg.RDC_CNT_LOCKS c).key := stat_ne_cnt c c 72 0 rfl rfl (by decide)
  rw [lockCounted, State.bark_rd, State.bark_rd, State.rd_count_ne _ hne.symm, State.rd_clr_self, State.rd_count_self, State.rd_clr_ne _ hne]
  exact ⟨rfl, rfl⟩

theorem rdc_lockCounted (d : Nat) : (lockCounted s c).rdc d = s.rdc d := rfl

theorem onlyAxes_lockCounted : onlyAxes s (lockCounted s c) := rfl

end

/-! ## A pair (R186 to R189) -/

/-- A fine channel whose pair is resolved. -/
def Rdc.resolved (k : Rdc) (n : Nat) : Rdc := { k with pair := true, ambig := false, nTurn := n, slip := 0, lastF := k.thH }

/-- A fine channel whose pair is ambiguous, and one whose pair has slipped. -/
def Rdc.ambiguous (k : Rdc) : Rdc := { k with ambig := true }
def Rdc.slipped (k : Rdc) : Rdc := { k with pair := false, slip := 0, cur := { k.cur with valid := false } }

/-- The turn of the coarse channel in which a fine channel stands. -/
def State.pairTurn (s : State) (c : Nat) : Nat :=
  (rne (((s.nspd c * (s.rdc (s.coarse c)).cur.angle * 256 : Nat) : Int) - (((s.rdc c).thH : Nat) : Int)) (2 ^ 40) % (s.nspd c : Int)).toNat

/-- The pair of channel `c` is resolved. -/
def pairResolved (s : State) (c : Nat) : State :=
  ((showD s c (s.pairD c)).modRdc c fun k => k.resolved (s.pairTurn c)).wr (Reg.RDC_STAT_NTURN c) (s.pairTurn c)

theorem pairResolve_eq (s : State) (c : Nat) : pairResolve s c =
    if s.pairTries c then
      if s.pairOut c (s.pairD c) then
        rdcOnset ((showD s c (s.pairD c)).modRdc c Rdc.ambiguous) c Reg.RDC_STAT_PAIR_AMBIG 0xC [(showD s c (s.pairD c)).rd (Reg.RDC_STAT_PAIR_D c)]
      else showRdc (pairResolved s c) c
    else s := rfl

theorem pairSlip_eq (s : State) (c : Nat) : pairSlip s c =
    if (s.rdc c).pair && 16 ≤ (s.rdc c).slip then
      showRdc (rdcOnset (s.modRdc c Rdc.slipped) c Reg.RDC_STAT_PAIR_SLIP 0xD [s.rd (Reg.RDC_STAT_PAIR_D c)]) c
    else s := rfl

theorem faultFlag_pairAmbig : FaultFlag Reg.RDC_STAT_PAIR_AMBIG 25 := ⟨fun _ => rfl, fun _ => rfl, by decide⟩
theorem faultFlag_pairSlip : FaultFlag Reg.RDC_STAT_PAIR_SLIP 26 := ⟨fun _ => rfl, fun _ => rfl, by decide⟩

section
variable (s : State) (c : Nat)

theorem onlyAxes_showD (d : Int) : onlyAxes s (showD s c d) := onlyAxes.wr s _ _

theorem bq_showD (d : Int) : (showD s c d).bq = s.bq := State.wr_bq s _ _

theorem rdc_showD (d : Int) (e : Nat) : (showD s c d).rdc e = s.rdc e := rdc_wr s _ _ e

theorem onlyRegs_showD (d : Int) : onlyRegs s (showD s c d) [Reg.RDC_STAT_PAIR_D c] := onlyRegs_wr s _ _

theorem sameSettings_showD (d : Int) : SameSettings s (showD s c d) := (SameSettings.refl s).wr (not_setting_of_bit c 96 rfl (by decide)) _

theorem rdc_pairResolved : (pairResolved s c).rdc c = (s.rdc c).resolved (s.pairTurn c) := by
  rw [pairResolved, rdc_wr, rdc_modRdc_self, rdc_showD]

theorem rd_pairResolved : (pairResolved s c).rd (Reg.RDC_STAT_NTURN c) = s.pairTurn c % 2 ^ 7 := State.rd_wr_self _ _ _

theorem onlyAxes_pairResolved : onlyAxes s (pairResolved s c) :=
  ((onlyAxes_showD s c _).trans (onlyAxes.modRdc _ c _)).trans (onlyAxes.wr _ _ _)

theorem bq_pairResolved : (pairResolved s c).bq = s.bq := (State.wr_bq _ _ _).trans (bq_showD s c (s.pairD c))

theorem sameSettings_pairResolved : SameSettings s (pairResolved s c) :=
  ((sameSettings_showD s c _).modRdc c _).wr (not_setting_of_bit c 64 rfl (by decide)) _

theorem rdcOwn_pairResolved {c : Nat} (hc : c < 32) : (pairResolved s c).rdcOwn c = s.rdcOwn c := by
  rw [State.rdcOwn, State.rdcOwn, rdc_pairResolved, (sameSettings_pairResolved s c).rdcOn hc]
  rfl

theorem onlyRegs_pairResolved : onlyRegs s (pairResolved s c) [Reg.RDC_STAT_PAIR_D c, Reg.RDC_STAT_NTURN c] :=
  onlyRegs_wr_of_mem (onlyRegs_mono (onlyRegs_showD s c _) (by simp)) (by simp) _

end

section
variable {s : State} {c : Nat} (h : s.pairTries c = true)
include h

/-- A pair is resolved only while its fine channel's own angle is valid. -/
theorem own_of_pairTries : s.rdcOwn c = true ∧ s.paired c = true := by
  simp only [State.pairTries, State.rdcFresh, Bool.and_eq_true] at h
  obtain ⟨⟨⟨⟨hpaired, ⟨⟨hown, -⟩, -⟩, -⟩, -⟩, -⟩, -⟩ := h
  exact ⟨hown, hpaired⟩

theorem unpaired_of_pairTries : (s.rdc c).pair = false := by
  simp only [State.pairTries, Bool.and_eq_true, Bool.not_eq_true'] at h
  exact h.1.2

end

/-! ## The live element (R195, R413) -/

section
variable (s : State) (c : Nat)

theorem onlyAxes_liveLatch : onlyAxes s (liveLatch s c) :=
  ((((onlyAxes.wr s _ _).trans (onlyAxes.wr _ _ _)).trans (onlyAxes.wr _ _ _)).trans (onlyAxes.wr _ _ _)).trans (onlyAxes.wr _ _ _)

theorem onlyRegs_liveLatch : onlyRegs s (liveLatch s c)
    [Reg.RDC_LIVE_ANGLE c, Reg.RDC_LIVE_SPEED c, Reg.RDC_LIVE_ACCEL c, Reg.RDC_LIVE_ELEC c, Reg.RDC_LIVE_AT c] := by
  refine onlyRegs_wr_of_mem (onlyRegs_wr_of_mem (onlyRegs_wr_of_mem (onlyRegs_wr_of_mem (onlyRegs_wr_of_mem (onlyRegs_refl s _) ?_ _) ?_ _) ?_ _)
    ?_ _) ?_ _
  all_goals simp

theorem rd_liveLatch : (liveLatch s c).rd (Reg.RDC_LIVE_ANGLE c) = (s.rdc c).live.angle % 2 ^ 32 ∧
    (liveLatch s c).rd (Reg.RDC_LIVE_ELEC c) = (s.rdc c).live.elec % 2 ^ 32 ∧
    (liveLatch s c).rd (Reg.RDC_LIVE_AT c) = atWord (s.rdc c).live.at_ % 2 ^ 96 ∧
    (liveLatch s c).rd (Reg.RDC_LIVE_SPEED c) = unsigned 32 (satS 32 (rne (s.rdc c).live.speed (2 ^ 16))) % 2 ^ 32 := by
  unfold liveLatch
  refine ⟨?_, ?_, State.rd_wr_self _ _ _, ?_⟩
  · rw [State.rd_wr_ne _ _ (key_ne_of_bit 128 0 rfl rfl (by decide)), State.rd_wr_ne _ _ (key_ne_of_bit 96 0 rfl rfl (by decide)),
      State.rd_wrS_ne _ _ (key_ne_of_bit 64 0 rfl rfl (by decide)), State.rd_wrS_ne _ _ (key_ne_of_bit 32 0 rfl rfl (by decide))]
    exact State.rd_wr_self _ _ _
  · rw [State.rd_wr_ne _ _ (key_ne_of_bit 128 96 rfl rfl (by decide))]
    exact State.rd_wr_self _ _ _
  · rw [State.rd_wr_ne _ _ (key_ne_of_bit 128 32 rfl rfl (by decide)), State.rd_wr_ne _ _ (key_ne_of_bit 96 32 rfl rfl (by decide)),
      State.rd_wrS_ne _ _ (key_ne_of_bit 64 32 rfl rfl (by decide))]
    exact State.rd_wr_self _ _ _

end

end Sys2Proof.Machine

namespace Sys2Proof
open Sys2Proof.Machine

section
variable {s : State} {c : Nat} (hc : c < 32)
include hc

/-! ## Tries -/

theorem exec_rdcAcqStart_seeds (hmay : s.mayAcquire c = true) (hnear : (s.seedSig c).delta.natAbs ≤ s.phWin c) :
    ∃ t, exec (.rdcAcqStart c) s = .next t ∧ (t.rdc c).ph = 1 ∧ (t.rdc c).tryAt = s.now ∧
      (t.rdc c).seeds = [unsigned 48 (atan2 (s.seedSig c).s (s.seedSig c).c)] ∧
      (t.rdc c).phic = unsigned 48 ((s.ph0 c : Int) + (s.seedSig c).delta) ∧ t = { s with regs := t.regs, ax := t.ax } ∧
      onlyRegs s t (Reg.RDC_STAT_PH_EST c :: rdcShown c) := by
  have hseeds : acqStart s c = showRdc (showPhase (s.modRdc c fun k => k.seeded s.now (s.ph0 c) (s.seedSig c)) c) c := by
    rw [acqStart_eq, if_neg (by simp [hmay]), if_neg (by omega)]
  have hframe := ((onlyAxes.modRdc s c fun k => k.seeded s.now (s.ph0 c) (s.seedSig c)).trans (onlyAxes_showPhase _ c)).trans (onlyAxes_showRdc _ c)
  have hchan : ∃ up, (showRdc (showPhase (s.modRdc c fun k => k.seeded s.now (s.ph0 c) (s.seedSig c)) c) c).rdc c =
      { (s.rdc c).seeded s.now (s.ph0 c) (s.seedSig c) with up := up } := by
    rw [rdc_showRdc_self, rdc_showPhase, rdc_modRdc_self]
    exact ⟨_, rfl⟩
  obtain ⟨up, hk⟩ := hchan
  refine ⟨_, channel_answer hc hseeds hframe, by rw [hk]; rfl, by rw [hk]; rfl, by rw [hk]; rfl, by rw [hk]; rfl,
    hframe.quiet ((bq_showRdc _ c).trans (bq_showPhase _ c)), ?_⟩
  exact onlyRegs_trans (onlyRegs_mono (onlyRegs_showPhase (s.modRdc c _) c) (by simp)) (onlyRegs_mono (onlyRegs_showRdc _ c) (by simp))

theorem exec_rdcAcqStart_refused (hmay : s.mayAcquire c = true) (hfar : s.phWin c < (s.seedSig c).delta.natAbs) :
    ∃ t, exec (.rdcAcqStart c) s = .next t ∧ (t.rdc c).ph = 0 ∧ (t.rdc c).phic = s.ph0 c ∧
      t.flag (Reg.RDC_STAT_PHASE c) = true ∧ t.rd (Reg.RDC_STAT_ACQ_TRIES c) = min 255 (s.rd (Reg.RDC_STAT_ACQ_TRIES c) + 1) ∧
      t = { s with regs := t.regs, ax := t.ax, bq := t.bq } := by
  have hfails : acqStart s c = tryFailed (phaseRefused s c) c 0 := by
    rw [acqStart_eq, if_neg (by simp [hmay]), if_pos (by omega)]
  have hframe := (onlyAxes_phaseRefused s c).trans (onlyAxes_tryFailed _ c 0)
  have hother : (Reg.RDC_STAT_ACQ_TRIES c).key ∉ [Reg.RDC_STAT_PH_EST c, Reg.RDC_STAT_PHASE c].map Fld.key := by
    rw [List.map_cons, List.map_singleton, List.mem_cons, List.mem_singleton, not_or]
    exact ⟨stat_bit_ne c c 72 32 rfl rfl (by decide), stat_bit_ne c c 72 20 rfl rfl (by decide)⟩
  obtain ⟨up, hk⟩ := rdc_tryFailed (phaseRefused s c) c 0
  rw [rdc_phaseRefused] at hk
  refine ⟨_, channel_answer hc hfails hframe, by rw [hk]; rfl, by rw [hk]; rfl, ?_, ?_, hframe⟩
  · exact (flag_tryFailed _ c 0).trans (flag_phaseRefused s c)
  · rw [rd_tryFailed, onlyRegs_phaseRefused s c _ hother]

theorem exec_rdcAcqStart_barred (hmay : s.mayAcquire c = false) : ∃ t, exec (.rdcAcqStart c) s = .next t ∧ t = s := by
  have hstays : acqStart s c = s := by rw [acqStart_eq, if_pos (by simp [hmay])]
  exact ⟨_, channel_answer hc hstays (.refl s), rfl⟩

/-! ## The lock test -/

section
variable (hph : (s.rdc c).ph = 2) (hlast : (s.rdc c).tryAt + 64 * 240 = s.now)
include hph hlast

theorem exec_rdcLockTest_locks (hok : (s.rdc c).lockOk = true) : ∃ t, exec (.rdcLockTest c) s = .next t ∧ (t.rdc c).ph = 3 ∧
    t.rd (Reg.RDC_STAT_ACQ_TRIES c) = 0 ∧ (t.rdc c).lockAt = s.now ∧ (t.rdc c).settle = s.now + cclkBeat ∧ (t.rdc c).cur.own = true ∧
    t.rd (Reg.RDC_CNT_LOCKS c) = satU 32 (s.rd (Reg.RDC_CNT_LOCKS c) + 1) ∧ barks s t (axSrc (c / 16)) (axCode (c / 16) 1) ∧
    t = { s with regs := t.regs, ax := t.ax, bq := t.bq } ∧ onlyRegs s t (Reg.RDC_STAT_ACQ_TRIES c :: Reg.RDC_CNT_LOCKS c :: rdcShown c) := by
  have hlocks : lockTest s c = showRdc (lockCounted (liveUpdate (s.modRdc c fun k => k.locked s.now (s.paired c)) c) c) c := by
    rw [lockTest_eq, if_pos (by simp [hph, hlast]), if_pos hok]
  have hbefore : onlyAxes s (liveUpdate (s.modRdc c fun k => k.locked s.now (s.paired c)) c) := (onlyAxes.modRdc s c _).trans (onlyAxes.modRdc _ c _)
  have hchan : (liveUpdate (s.modRdc c fun k => k.locked s.now (s.paired c)) c).rdc c = ((s.rdc c).locked s.now (s.paired c)).shownLive s.now := by
    rw [liveUpdate_eq, rdc_modRdc_self, rdc_modRdc_self]
    rfl
  have hregs (f : Fld) : (liveUpdate (s.modRdc c fun k => k.locked s.now (s.paired c)) c).rd f = s.rd f := rfl
  have hbarks : barks s (lockCounted (liveUpdate (s.modRdc c fun k => k.locked s.now (s.paired c)) c) c) (axSrc (c / 16)) (axCode (c / 16) 1) :=
    barks_bark s _ _ _ _ _ rfl rfl
  generalize liveUpdate (s.modRdc c fun k => k.locked s.now (s.paired c)) c = u at hlocks hbefore hchan hregs hbarks
  have hframe := (hbefore.trans (onlyAxes_lockCounted u c)).trans (onlyAxes_showRdc _ c)
  have hshown := onlyRegs_showRdc (lockCounted u c) c
  obtain ⟨htries, hlocked⟩ := rd_lockCounted u c
  have hk := rdc_showRdc_self (lockCounted u c) c
  rw [rdc_lockCounted, hchan, Rdc.shownLive_eq] at hk
  refine ⟨_, channel_answer hc hlocks hframe, by rw [hk]; rfl, ?_, by rw [hk]; rfl, by rw [hk]; rfl, by rw [hk]; rfl, ?_, ?_, hframe, ?_⟩
  · rw [hshown _ (not_shown_of_bit c c 72 rfl (by decide)), htries]
  · rw [hshown _ (not_shown_of_cnt c c 0 rfl (by decide)), hlocked, hregs]
  · obtain ⟨b, hstaged, hsrc, hcode, htime⟩ := hbarks
    exact ⟨b, (congrArg BqSt.staged (bq_showRdc _ c)).trans hstaged, hsrc, hcode, htime⟩
  · have hcounted : onlyRegs s (lockCounted u c) [Reg.RDC_STAT_ACQ_TRIES c, Reg.RDC_CNT_LOCKS c] := fun f hf => (onlyRegs_lockCounted u c f hf).trans (hregs f)
    exact onlyRegs_trans (onlyRegs_mono hcounted (by simp)) (onlyRegs_mono hshown (by simp))

theorem exec_rdcLockTest_fails (hok : (s.rdc c).lockOk = false) : ∃ t, exec (.rdcLockTest c) s = .next t ∧ (t.rdc c).ph = 0 ∧
    t.rd (Reg.RDC_STAT_ACQ_TRIES c) = min 255 (s.rd (Reg.RDC_STAT_ACQ_TRIES c) + 1) ∧
    (8 ≤ min 255 (s.rd (Reg.RDC_STAT_ACQ_TRIES c) + 1) → (t.rdc c).retryAt = s.run + 64 * cclkBeat - 64 * 240) ∧
    t = { s with regs := t.regs, ax := t.ax, bq := t.bq } := by
  have hfails : lockTest s c = tryFailed s c (64 * 240) := by
    rw [lockTest_eq, if_pos (by simp [hph, hlast]), if_neg (by simp [hok])]
  have hframe := onlyAxes_tryFailed s c (64 * 240)
  obtain ⟨up, hk⟩ := rdc_tryFailed s c (64 * 240)
  refine ⟨_, channel_answer hc hfails hframe, by rw [hk]; rfl, rd_tryFailed s c _, fun heighth => ?_, hframe⟩
  rw [hk]
  exact if_pos heighth

end

/-! ## Pairs -/

section
variable (htries : s.pairTries c = true)
include htries

theorem exec_rdcPairResolve_resolves (hin : s.pairOut c (s.pairD c) = false) : ∃ t, exec (.rdcPairResolve c) s = .next t ∧ (t.rdc c).pair = true ∧
    (t.rdc c).slip = 0 ∧ t.rd (Reg.RDC_STAT_NTURN c) = (t.rdc c).nTurn % 2 ^ 7 ∧ t.rd (Reg.RDC_STAT_PAIR_VALID c) = 1 ∧
    t = { s with regs := t.regs, ax := t.ax } ∧ onlyRegs s t (Reg.RDC_STAT_PAIR_D c :: Reg.RDC_STAT_NTURN c :: rdcShown c) := by
  have hresolves : pairResolve s c = showRdc (pairResolved s c) c := by rw [pairResolve_eq, if_pos htries, if_neg (by simp [hin])]
  obtain ⟨hown, hpaired⟩ := own_of_pairTries htries
  have hsettings := sameSettings_pairResolved s c
  have hshown := onlyRegs_showRdc (pairResolved s c) c
  have hk := rdc_showRdc_self (pairResolved s c) c
  rw [rdc_pairResolved] at hk
  have hframe := (onlyAxes_pairResolved s c).trans (onlyAxes_showRdc _ c)
  refine ⟨_, channel_answer hc hresolves hframe, by rw [hk]; rfl, by rw [hk]; rfl, ?_, ?_, hframe.quiet ((bq_showRdc _ c).trans (bq_pairResolved s c)), ?_⟩
  · rw [hshown _ (not_shown_of_bit c c 64 rfl (by decide)), rd_pairResolved, hk]
    rfl
  · have hpair : ((pairResolved s c).rdc c).pair = true := by rw [rdc_pairResolved]; rfl
    rw [rd_showRdc_pair, State.rdcValid, hsettings.paired, rdcOwn_pairResolved s hc, hown, hpaired, hpair]
    rfl
  · exact onlyRegs_trans (onlyRegs_mono (onlyRegs_pairResolved s c) (by simp)) (onlyRegs_mono hshown (by simp))

theorem exec_rdcPairResolve_ambiguous (hout : s.pairOut c (s.pairD c) = true) : ∃ t, exec (.rdcPairResolve c) s = .next t ∧
    t.flag (Reg.RDC_STAT_PAIR_AMBIG c) = true ∧ (t.rdc c).pair = false ∧ (t.rdc c).ambig = true ∧
    t = { s with regs := t.regs, ax := t.ax, bq := t.bq } ∧ onlyRegs s t [Reg.RDC_STAT_PAIR_D c, Reg.RDC_STAT_PAIR_AMBIG c] := by
  have hstays : pairResolve s c = rdcOnset ((showD s c (s.pairD c)).modRdc c Rdc.ambiguous) c Reg.RDC_STAT_PAIR_AMBIG 0xC
      [(showD s c (s.pairD c)).rd (Reg.RDC_STAT_PAIR_D c)] := by rw [pairResolve_eq, if_pos htries, if_pos hout]
  have hframe := ((onlyAxes_showD s c (s.pairD c)).trans (onlyAxes.modRdc _ c Rdc.ambiguous)).trans (onlyAxes_rdcOnset (f := Reg.RDC_STAT_PAIR_AMBIG) _ c 0xC
      [(showD s c (s.pairD c)).rd (Reg.RDC_STAT_PAIR_D c)])
  refine ⟨_, channel_answer hc hstays hframe, flag_rdcOnset _ c 0xC _ faultFlag_pairAmbig, ?_, ?_, hframe, ?_⟩
  · rw [rdc_rdcOnset, rdc_modRdc_self, rdc_showD]
    exact unpaired_of_pairTries htries
  · rw [rdc_rdcOnset, rdc_modRdc_self]
    rfl
  · exact onlyRegs_trans (onlyRegs_mono (onlyRegs_showD s c _) (by simp))
      (onlyRegs_mono (onlyRegs_rdcOnset ((showD s c (s.pairD c)).modRdc c Rdc.ambiguous) c 0xC _) (by simp))

end

theorem exec_rdcPairSlip (hpair : (s.rdc c).pair = true) (hrun : 16 ≤ (s.rdc c).slip) : ∃ t, exec (.rdcPairSlip c) s = .next t ∧
    (t.rdc c).pair = false ∧ t.flag (Reg.RDC_STAT_PAIR_SLIP c) = true ∧ t.rd (Reg.RDC_STAT_PAIR_VALID c) = 0 ∧
    t = { s with regs := t.regs, ax := t.ax, bq := t.bq } ∧ onlyRegs s t (Reg.RDC_STAT_PAIR_SLIP c :: rdcShown c) := by
  have hslips : pairSlip s c = showRdc (rdcOnset (s.modRdc c Rdc.slipped) c Reg.RDC_STAT_PAIR_SLIP 0xD [s.rd (Reg.RDC_STAT_PAIR_D c)]) c := by
    rw [pairSlip_eq, if_pos (by simp [hpair, hrun])]
  have honset := onlyRegs_rdcOnset (f := Reg.RDC_STAT_PAIR_SLIP) (s.modRdc c Rdc.slipped) c 0xD [s.rd (Reg.RDC_STAT_PAIR_D c)]
  have hflag := flag_rdcOnset (s.modRdc c Rdc.slipped) c 0xD [s.rd (Reg.RDC_STAT_PAIR_D c)] faultFlag_pairSlip
  have hchan := rdc_rdcOnset (f := Reg.RDC_STAT_PAIR_SLIP) (s.modRdc c Rdc.slipped) c 0xD [s.rd (Reg.RDC_STAT_PAIR_D c)] c
  have hbefore := (onlyAxes.modRdc s c Rdc.slipped).trans (onlyAxes_rdcOnset (f := Reg.RDC_STAT_PAIR_SLIP) _ c 0xD [s.rd (Reg.RDC_STAT_PAIR_D c)])
  rw [rdc_modRdc_self] at hchan
  generalize rdcOnset (s.modRdc c Rdc.slipped) c Reg.RDC_STAT_PAIR_SLIP 0xD [s.rd (Reg.RDC_STAT_PAIR_D c)] = u at hslips honset hflag hchan hbefore
  have hframe := hbefore.trans (onlyAxes_showRdc u c)
  have hshown := onlyRegs_showRdc u c
  refine ⟨_, channel_answer hc hslips hframe, ?_, ?_, ?_, hframe, ?_⟩
  · rw [rdc_showRdc_self, hchan]
    rfl
  · exact (State.flag_congr (hshown _ (faultFlag_pairSlip.not_shown c c))).trans hflag
  · have hout : (u.paired c && u.rdcValid c) = false := by
      rw [State.rdcValid, hchan]
      cases u.paired c <;> simp [Rdc.slipped]
    rw [rd_showRdc_pair, hout]
    rfl
  · exact onlyRegs_trans (onlyRegs_mono honset (by simp)) (onlyRegs_mono hshown (by simp))

/-! ## The live element (R195, R413) -/

theorem exec_rdcLiveLatch (hdom : s.domOn (16 + c / 16) = true) : ∃ t, exec (.rdcLiveLatch c) s = .next t ∧
    t.rd (Reg.RDC_LIVE_ANGLE c) = (s.rdc c).live.angle % 2 ^ 32 ∧ t.rd (Reg.RDC_LIVE_ELEC c) = (s.rdc c).live.elec % 2 ^ 32 ∧
    t.rd (Reg.RDC_LIVE_AT c) = atWord (s.rdc c).live.at_ % 2 ^ 96 ∧
    t.rd (Reg.RDC_LIVE_SPEED c) = unsigned 32 (satS 32 (rne (s.rdc c).live.speed (2 ^ 16))) % 2 ^ 32 ∧ t = { s with regs := t.regs } ∧
    onlyRegs s t [Reg.RDC_LIVE_ANGLE c, Reg.RDC_LIVE_SPEED c, Reg.RDC_LIVE_ACCEL c, Reg.RDC_LIVE_ELEC c, Reg.RDC_LIVE_AT c] := by
  have hlatches : (if s.domOn (16 + c / 16) then liveLatch s c else s) = liveLatch s c := if_pos hdom
  have hframe : liveLatch s c = { s with regs := (liveLatch s c).regs } := rfl
  obtain ⟨hangle, helec, hat, hspeed⟩ := rd_liveLatch s c
  have hregs := onlyRegs_liveLatch s c
  exact ⟨_, channel_answer hc hlatches (onlyAxes_liveLatch s c), hangle, helec, hat, hspeed, hframe, hregs⟩

end

end Sys2Proof
end

