-- ==== Sys2Proof/Proofs/ResolverKept.lean ====
section
/-! PROOFS. What of a resolver channel stands while the inputs, the learning, the generators and the angle-bin streams take their part of a loop
update (R51 to R54, R154, R190, R219 to R224). -/

namespace Sys2Proof.Machine

/-! ## What stands of a channel -/

/-- A channel without its learning and its last valid outputs. -/
def Rdc.core (k : Rdc) : Rdc := { k with learn := none, live := {} }

/-- The place of EXC_MV in RDC_STAT of some channel. -/
def mvKey (k : Nat) : Prop := statBlock k ∧ k % 128 = 80

/-- From `s` to `t` channel `c` keeps its loop and its outputs, and every channel the excitation that it shows. -/
structure TrackKept (c : Nat) (s t : State) : Prop where
  core : (t.rdc c).core = (s.rdc c).core
  mv : ∀ f : Fld, mvKey f.key → t.rd f = s.rd f

section
variable {c : Nat} {s t u : State}

theorem TrackKept.refl (c : Nat) (s : State) : TrackKept c s s := ⟨rfl, fun _ _ => rfl⟩

theorem TrackKept.trans (h : TrackKept c s t) (k : TrackKept c t u) : TrackKept c s u :=
  ⟨k.core.trans h.core, fun f hf => (k.mv f hf).trans (h.mv f hf)⟩

theorem TrackKept.foldl {α : Type} {g : State → α → State} (h : ∀ s a, TrackKept c s (g s a)) (l : List α) (s : State) :
    TrackKept c s (l.foldl g s) := by
  induction l generalizing s with
  | nil => exact .refl c s
  | cons a l ih => exact (h s a).trans (ih _)

theorem TrackKept.ite {p : Prop} [Decidable p] (ht : TrackKept c s t) (hu : TrackKept c s u) : TrackKept c s (if p then t else u) := by
  split
  · exact ht
  · exact hu

/-- A change of neither the channels nor the registers. -/
theorem TrackKept.of_same (h : TrackKept c s t) (hrdc : u.ax.rdc = t.ax.rdc := by rfl) (hrd : ∀ f, u.rd f = t.rd f := by exact fun _ => rfl) :
    TrackKept c s u :=
  h.trans ⟨by rw [State.rdc, State.rdc, hrdc], fun f _ => hrd f⟩

theorem TrackKept.wr (h : TrackKept c s t) {f : Fld} (hf : ¬ mvKey f.key) (v : Nat) : TrackKept c s (t.wr f v) :=
  h.trans ⟨rfl, fun _ hg => State.rd_wr_ne t v fun he => hf (he ▸ hg)⟩

theorem TrackKept.countN (h : TrackKept c s t) {f : Fld} (hf : ¬ mvKey f.key) (n : Nat) : TrackKept c s (t.countN f n) := h.wr hf _

theorem TrackKept.bark (h : TrackKept c s t) (src code : Nat) (w : Bool) (p : List Nat) : TrackKept c s (t.bark src code w p) := h.of_same

theorem TrackKept.barkEvery (h : TrackKept c s t) (span elem src code : Nat) (w : Bool) (p : List Nat) :
    TrackKept c s (t.barkEvery span elem src code w p) :=
  h.of_same (congrArg _ (State.barkEvery_ax _ _ _ _ _ _ _)) fun _ => State.barkEvery_rd _ _ _ _ _ _ _ _

theorem TrackKept.modPfi (h : TrackKept c s t) (i : Nat) (g : Pfi → Pfi) : TrackKept c s (t.modPfi i g) := h.of_same

theorem TrackKept.modRdc (h : TrackKept c s t) (d : Nat) {g : Rdc → Rdc} (hg : ∀ k, (g k).core = k.core) : TrackKept c s (t.modRdc d g) := by
  refine h.trans ⟨?_, fun _ _ => rfl⟩
  by_cases hd : d = c
  · rw [hd, rdc_modRdc_self, hg]
  · rw [rdc_modRdc_ne t hd]

theorem TrackKept.setStream (h : TrackKept c s t) (i : Nat) (x : Option Stream) : TrackKept c s (t.setStream i x) := h.of_same

theorem TrackKept.modStream (h : TrackKept c s t) (i : Nat) (g : Stream → Stream) : TrackKept c s (t.modStream i g) := by
  unfold State.modStream
  split
  · exact h
  · exact h.of_same

end

/-! ## Fields that are no EXC_MV -/

/-- A field of PFI_STAT. -/
theorem not_mv_of_pfiStat {k : Nat} (i n : Nat) (hk : k = 8 * (0x54400 + 0x8000 * (i / 8) + 16 * (i % 8)) + n) (hn : n < 128) : ¬ mvKey k := by
  unfold mvKey statBlock
  omega

/-- A field of RDC_HARM_STAT. -/
theorem not_mv_of_harmStat {k : Nat} (d n : Nat) (hk : k = 8 * (0x51A80 + 0x8000 * (d / 16) + 8 * (d % 16)) + n) (hn : n < 64) : ¬ mvKey k := by
  unfold mvKey statBlock
  omega

/-- A field of another unit than the axis cards. -/
theorem not_mv_of_low {k : Nat} (hk : k < 8 * 0x50000) : ¬ mvKey k := by
  unfold mvKey statBlock
  omega

/-- A field that streams write. -/
theorem not_mv_of_stream {k i : Nat} (hk : k ∈ (streamRegs i).map Fld.key) : ¬ mvKey k := by
  simp only [streamRegs, List.map_cons, List.map_nil, List.mem_cons, List.not_mem_nil, or_false, Reg.RD_STREAM_STAT_STATE, Reg.RD_STREAM_STAT_SEEN,
    Reg.RD_STREAM_STAT_LOST, Reg.RD_CNT_GAP_RUNS, Reg.RD_CNT_CAPT_IGNORED, Reg.RD_CNT_CURVE_DOMAIN] at hk
  unfold mvKey statBlock
  omega

/-! ## Inputs (R207 to R224) -/

section
variable {c : Nat} {s t : State} (h : TrackKept c s t) (i : Nat)
include h

theorem TrackKept.pfiOnset (f : Nat → Fld) (ev : Nat) (p : List Nat) (hf : ¬ mvKey (f i).key) : TrackKept c s (pfiOnset t i f ev p) :=
  (h.wr hf 1).barkEvery _ _ _ _ _ _

theorem TrackKept.showFused : TrackKept c s (showFused t i) := h.wr (not_mv_of_pfiStat i 11 rfl (by decide)) _

theorem TrackKept.countTo (n : Nat) : TrackKept c s (countTo t i n) := (h.modPfi i _).wr (not_mv_of_pfiStat i 5 rfl (by decide)) _

theorem TrackKept.countBy (d : Int) : TrackKept c s (countBy t i d) := .ite h (h.countTo i _)

theorem TrackKept.countSet (v : Nat) : TrackKept c s (countSet t i v) := (h.modPfi i _).wr (not_mv_of_pfiStat i 5 rfl (by decide)) _

theorem TrackKept.countValid : TrackKept c s (countValid t i) := by
  have hset := (h.wr (f := Reg.PFI_STAT_COUNT_VALID i) (not_mv_of_pfiStat i 2 rfl (by decide)) 1).modPfi i fun k => { k with idxSeen := false }
  exact .ite h (.showFused (.ite hset (hset.modPfi i _)) i)

theorem TrackKept.pathTo (p : Nat) : TrackKept c s (pathTo t i p) :=
  .ite h (((h.wr (not_mv_of_pfiStat i 0 rfl (by decide)) p).modPfi i _).wr (not_mv_of_pfiStat i 5 rfl (by decide)) 0)

theorem TrackKept.anchored (fa qa : Nat) : TrackKept c s (anchored t i fa qa) :=
  ((((h.modPfi i _).wr (not_mv_of_pfiStat i 8 rfl (by decide)) _).modPfi i _).showFused i).bark _ _ _ _

theorem TrackKept.indexAnchor : TrackKept c s (indexAnchor t i) := by
  unfold Machine.indexAnchor
  split
  · exact h
  · exact .ite (h.modPfi i _) (.ite ((h.modPfi i _).anchored i _ _)
      (((h.modPfi i _).wr (not_mv_of_pfiStat i 8 rfl (by decide)) _).pfiOnset i _ _ _ (not_mv_of_pfiStat i 25 rfl (by decide))))

theorem TrackKept.scWindow (m : PfiIn) : TrackKept c s (scWindow t m) :=
  .ite h ((h.modPfi m.i _).wr (not_mv_of_pfiStat m.i 32 rfl (by decide)) _)

theorem TrackKept.anchorUpdate : TrackKept c s (anchorUpdate t i) := by
  unfold Machine.anchorUpdate
  refine .ite h (.ite (.ite ?_ h) (.ite (.ite ?_ ?_) h))
  · exact (h.wr (not_mv_of_pfiStat i 8 rfl (by decide)) _).modPfi i _
  · exact h.modPfi i _
  · exact h.modPfi i _

theorem TrackKept.speedUpdate (f : Nat) : TrackKept c s (speedUpdate t i f) := by
  unfold Machine.speedUpdate
  exact h.modPfi i _

theorem TrackKept.pfiUpdate (p : Option PfiIn) : TrackKept c s (pfiUpdate t i p) := by
  unfold Machine.pfiUpdate
  refine .ite h ?_
  extract_lets k counted sampled put aligned resumed indexed n m turned f timed ok f' latched filtered x d judged
  have hcounted : TrackKept c s counted := .ite h (h.countTo i _)
  have hsampled : TrackKept c s sampled := by
    cases p with
    | none => exact hcounted
    | some w =>
      have hwindow := hcounted.scWindow w
      exact .ite (hwindow.countBy i _) (.ite (hwindow.countTo i _) (.ite (hwindow.modPfi i _) hwindow))
  have hput : TrackKept c s put := by
    unfold put
    split
    · exact (((hsampled.countSet i _).modPfi i _).countValid i).modPfi i _
    · exact hsampled
  have haligned : TrackKept c s aligned := hput.modPfi i _
  have hresumed : TrackKept c s resumed := .ite (.ite (((haligned.pathTo i _).modPfi i _).bark _ _ _ _) haligned) hput
  have hindexed : TrackKept c s indexed := hresumed.indexAnchor i
  have hturned : TrackKept c s turned := .ite (hindexed.modPfi i _) hindexed
  have htimed : TrackKept c s timed := by
    unfold timed
    split
    · exact hturned.modPfi i _
    · exact hturned
  have hlatched : TrackKept c s latched := htimed.modPfi i _
  have hfiltered : TrackKept c s filtered := .ite (hlatched.speedUpdate i _) hlatched
  have hjudged : TrackKept c s judged :=
    .ite ((hfiltered.wr (not_mv_of_pfiStat i 64 rfl (by decide)) _).modPfi i _) (hfiltered.modPfi i _)
  exact ((hjudged.anchorUpdate i).modPfi i _).showFused i

end

/-! ## Learning (R191, R192) -/

/-- Learning is no part of what stands. -/
theorem trackKept_learnUpdate (c d : Nat) (s : State) (fused : Option Nat) : TrackKept c s (learnUpdate s d fused) := by
  unfold learnUpdate
  extract_lets k θ fine slow
  split
  · exact .refl c s
  · refine .ite (.refl c s) ?_
    extract_lets rf md unit r t
    have hlearns : TrackKept c s t := (TrackKept.refl c s).modRdc d fun _ => rfl
    split
    · exact hlearns
    · have hcounts (b : Bool) : TrackKept c s (if b then t.countN (Reg.RDC_HARM_STAT_ACCEPTED d) 1 else t.countN (Reg.RDC_HARM_STAT_DISCARDED d) 1) :=
        .ite (hlearns.countN (not_mv_of_harmStat d 32 rfl (by decide)) 1)
          (hlearns.countN (not_mv_of_harmStat d 48 rfl (by decide)) 1)
      exact .ite ((hcounts _).modRdc d fun _ => rfl) (hcounts _)

/-! ## Generators (R51 to R54) -/

section
variable {c : Nat} {s t : State} (h : TrackKept c s t)
include h

theorem TrackKept.setGen (g : Nat) (x : AngGen) : TrackKept c s (t.setGen g x) := h.of_same

theorem TrackKept.send (type dst : Nat) (words : List Nat) : TrackKept c s (t.send type dst words) := h.of_same

theorem TrackKept.sendAngle (g e : Nat) (gap : Bool) : TrackKept c s (sendAngle t g e gap) :=
  h.trans (.foldl (fun u _ => .ite ((TrackKept.refl c u).send _ _ _) (.refl c u)) _ t)

theorem TrackKept.angleTick (g e : Nat) (gap : Bool) : TrackKept c s (angleTick t g e gap) :=
  h.trans (.foldl (fun u j => (TrackKept.refl c u).modStream j _) _ t)

theorem TrackKept.schedEnter (e : Nat) (a : Act) : TrackKept c s (schedEnter t e a) := h.of_same

theorem TrackKept.fireAngle (g e : Nat) (gap : Bool) : TrackKept c s (fireAngle t g e gap) :=
  .ite ((h.sendAngle g e gap).angleTick g e gap) (h.sendAngle g e gap)

theorem TrackKept.predict (g : Nat) (a : AngNow) : TrackKept c s (predict t g a) := by
  have hsends (e : Nat) (x : AngGen) : TrackKept c s ((Machine.sendAngle t g e false).setGen g x) := (h.sendAngle g e false).setGen g x
  exact .ite h (.ite (.ite (hsends _ _) (.ite (((hsends _ _).bark _ _ _ _).angleTick _ _ _) ((hsends _ _).schedEnter _ _))) h)

/-- The values are cleared so that no step of the proof evaluates the angles among them. -/
theorem TrackKept.unpredicted (g : Nat) (a : AngNow) : TrackKept c s (unpredicted t g a) := by
  unfold Machine.unpredicted
  extract_lets x m fwd l edge u
  have hnoted : TrackKept c s u := h.setGen g _
  clear_value m u l edge
  refine .ite h ?_
  cases l with
  | nil => exact h
  | cons p rest =>
    have hf := (hnoted.countN (f := Reg.TB_CNT_ANG_UNPRED) (not_mv_of_low (by decide)) 1).fireAngle g (edge p.2) false
    refine hf.trans (.foldl (fun v q => ?_) rest _)
    exact (((TrackKept.refl c v).countN (f := Reg.TB_CNT_ANG_MISSED) (not_mv_of_low (by decide)) 1).barkEvery _ _ _ _ _ _).fireAngle g _ _

theorem TrackKept.angleGenUpdate (g : Nat) : TrackKept c s (angleGenUpdate t g) := by
  unfold Machine.angleGenUpdate
  refine .ite h (.ite (h.setGen g _) ?_)
  split
  · exact h.setGen g _
  · exact ((h.unpredicted g _).predict g _).setGen g _

end

/-! ## Angle-bin streams (R154): work on a stream leaves the axis cards -/

section
variable (s : State) (i : Nat)

theorem ax_modStream (g : Stream → Stream) : (s.modStream i g).ax = s.ax := by
  unfold State.modStream
  split <;> rfl

theorem ax_deliver (r : RecOut) : (deliver s r).ax = s.ax := by
  unfold deliver
  dsimp only
  split
  · rfl
  · split_ifs <;> rfl

theorem ax_closeRec (table capture : Bool) : (closeRec s i table capture).ax = s.ax := by
  unfold closeRec
  split
  · rfl
  · split
    · rfl
    · exact ax_deliver _ _

theorem ax_breakTo (p : Nat) : (breakTo s i p).ax = s.ax := by
  unfold breakTo
  split
  · rfl
  · split
    · exact (ax_modStream _ i _).trans ((ax_modStream _ i _).trans (ax_closeRec s i false false))
    · rfl

theorem ax_countSlots (ws : List SlotV) : (countSlots s i ws).ax = s.ax := by
  unfold countSlots
  split
  · rfl
  · dsimp only
    split <;> rfl

theorem ax_wholeRec (p : Nat) (ws : List SlotV) (table : Bool) : (wholeRec s i p ws table).ax = s.ax := by
  unfold wholeRec
  dsimp only
  rw [← ax_breakTo s i p]
  generalize breakTo s i p = u
  split
  · rfl
  · split
    · rfl
    · rw [ax_closeRec, ax_countSlots]
      rfl

theorem ax_closeTable (e at_ : Nat) : (closeTable s i e at_).ax = s.ax := by
  unfold closeTable
  split
  · rfl
  · exact ax_wholeRec _ i _ _ _

theorem ax_homeEvent (want : Homing → Bool) (e : Nat) : (homeEvent s want e).ax = s.ax := by
  unfold homeEvent
  refine foldl_keeps (p := State.ax) (fun u a => ?_) _ s
  dsimp only
  split
  · split
    · split <;> rfl
    · rfl
  all_goals rfl

theorem ax_noteValue (p : Nat) (w : SlotV) (y : Int) : (noteValue s i p w y).ax = s.ax := by
  unfold noteValue
  split
  · rfl
  · split
    · rfl
    · dsimp only
      split
      · rfl
      · exact ax_homeEvent _ _ _

theorem ax_noteSlot (p : Nat) (w : SlotV) (y : Int) : (noteSlot s i p w y).ax = s.ax := ax_noteValue _ i p w y

theorem ax_putSlot (p : Nat) (slow : Bool) (v : SlotV) : (putSlot s i p slow v).ax = s.ax := by
  have hclose (b : Bool) (u : State) : (if b then u else closeRec u i false false).ax = u.ax := by
    cases b
    · exact ax_closeRec u i false false
    · rfl
  have hlast (b : Bool) (u : State) : (if b then closeRec u i false false else u).ax = u.ax := by
    cases b
    · rfl
    · exact ax_closeRec u i false false
  unfold putSlot
  dsimp only
  rw [← ax_breakTo s i p]
  generalize breakTo s i p = u
  split
  · rfl
  · next x h =>
    rw [hlast, ← hclose (x.rcd.all fun r => r.takes x.defn v) u]
    split <;> rfl

theorem ax_emitBlock : (emitBlock s i).ax = s.ax := by
  unfold emitBlock
  split
  · rfl
  · split
    · rfl
    · dsimp only
      rw [ax_noteSlot, ax_putSlot]
      rfl

theorem ax_passBreaks (w : State) : (passBreaks w s i).ax = s.ax := by
  unfold passBreaks
  split
  · rfl
  · split
    · split
      · exact ax_breakTo s i _
      · rfl
    · rfl

theorem ax_passTables (x : Stream) : (passTables s i x).ax = s.ax :=
  foldl_keeps (p := State.ax) (fun u (q : Nat × Nat) => ax_closeTable u i q.1 q.2) _ _

theorem ax_streamSettle : (streamSettle s i).ax = s.ax := by
  cases hx : s.stream i with
  | none =>
    unfold streamSettle
    rw [hx]
  | some x =>
    rw [streamSettle_eq hx, ax_passBreaks]
    split
    · rw [ax_emitBlock, ax_passTables]
    · exact ax_passTables s i x

end

section
variable {c : Nat} {s t : State} (h : TrackKept c s t)
include h

/-- What waits for ticks of a stream. -/
theorem TrackKept.streamSettle (i : Nat) : TrackKept c s (streamSettle t i) := by
  refine h.trans ⟨by rw [State.rdc, State.rdc, ax_streamSettle], fun f hf => ?_⟩
  exact (streamWork_streamSettle t i).regs f fun hk => not_mv_of_stream hk hf

theorem TrackKept.binUpdate (i : Nat) : TrackKept c s (binUpdate t i) := by
  unfold Machine.binUpdate
  split
  · exact h
  · extract_lets d q tick ticked crossed
    exact .ite h ((h.setStream i (some crossed)).streamSettle i)

end

/-! ## After the channels' part of a loop update -/

/-- The rest of a loop update, for channels `cs` and the inputs that give `ps`. -/
def afterPairs (cs : List Nat) (ps : List PfiIn) (s : State) : State :=
  let t := cs.foldl liveUpdate s
  let t := (List.range 16).foldl (fun u i => if u.axUp (i / 8) then pfiUpdate u i (ps.find? (fun m => m.i = i)) else u) t
  let t := cs.foldl (fun u d => learnUpdate u d (u.refFused d)) t
  let t := (List.range 64).foldl angleGenUpdate t
  t.openStreams.foldl binUpdate t

theorem trackKept_liveUpdate (c d : Nat) (s : State) : TrackKept c s (liveUpdate s d) := by
  rw [liveUpdate_eq]
  refine (TrackKept.refl c s).modRdc d fun k => ?_
  rw [Rdc.shownLive_eq]
  rfl

/-- The rest of a loop update leaves a channel's loop and outputs. -/
theorem trackKept_afterPairs (c : Nat) (cs : List Nat) (ps : List PfiIn) (s : State) : TrackKept c s (afterPairs cs ps s) := by
  have hself (u : State) : TrackKept c u u := .refl c u
  unfold afterPairs
  extract_lets live inputs learnt gens
  have hlive : TrackKept c s live := .foldl (fun u d => trackKept_liveUpdate c d u) cs s
  have hinputs : TrackKept c s inputs := hlive.trans (.foldl (fun u i => .ite ((hself u).pfiUpdate i _) (hself u)) _ _)
  have hlearnt : TrackKept c s learnt := hinputs.trans (.foldl (fun u d => trackKept_learnUpdate c d u _) cs _)
  have hgens : TrackKept c s gens := hlearnt.trans (.foldl (fun u g => (hself u).angleGenUpdate g) _ _)
  exact hgens.trans (.foldl (fun u i => (hself u).binUpdate i) _ _)

end Sys2Proof.Machine
end

