-- ==== Sys2Proof/Proofs/ResolverTracking.lean ====
section
/-! PROOFS. One update of a resolver channel by its loop (R175 to R183, R187, R198). -/

namespace Sys2Proof.Machine

/-! ## What a loop update works on -/

/-- The part of a channel that a loop update works on. -/
structure LoopPart where
  ph : Nat
  holdTo : Nat
  theta : Nat
  omega : Int
  sig : Wind
  sigAt : Nat
  uv : Nat
  cur : RdcOut

def LoopPart.withSignal (p : LoopPart) (w : Wind) (e : Nat) : LoopPart := { p with sig := w, sigAt := e }

/-- One step by the equations of R178, with the error `e`. -/
def LoopPart.stepped (p : LoopPart) (fn zeta : Nat) (e : Int) : LoopPart :=
  { p with omega := loopOmega (loopKI fn) e p.omega, theta := loopTheta (loopKP fn zeta) e (loopOmega (loopKI fn) e p.omega) p.theta }

/-- One step at the held speed (R198). -/
def LoopPart.held (p : LoopPart) : LoopPart := { p with theta := unsigned 40 ((p.theta : Int) + rne p.omega 1024000) }

def LoopPart.withUv (p : LoopPart) (uv : Nat) : LoopPart := { p with uv := uv }

def LoopPart.withOutputs (p : LoopPart) (o : RdcOut) : LoopPart := { p with cur := o }

def Rdc.part (k : Rdc) : LoopPart := ⟨k.ph, k.holdTo, k.theta, k.omega, k.sig, k.sigAt, k.uv, k.cur⟩

/-- The rest of a loop update leaves that part. -/
theorem TrackKept.part {c : Nat} {s t : State} (h : TrackKept c s t) : (t.rdc c).part = (s.rdc c).part :=
  (congrArg Rdc.part h.core :)

/-- A change of a channel's state that leaves that part. -/
theorem part_modRdc (s : State) (c : Nat) {g : Rdc → Rdc} (hg : ∀ k, (g k).part = k.part) : ((s.modRdc c g).rdc c).part = (s.rdc c).part := by
  rw [rdc_modRdc_self, hg]

/-! ## The settings that the loop reads -/

section
variable {s t : State} (h : SameSettings s t) (c : Nat)
include h

theorem SameSettings.fexc : t.fexc c = s.fexc c := by
  unfold State.fexc
  rw [h.excSrc, h.eff (by unfold settingKey; dsimp only [Reg.RDC_CFG_FREQ]; omega)]

theorem SameSettings.fnActs (gear : Nat) : t.fnActs c gear = s.fnActs c gear := by
  unfold State.fnActs
  rw [h.fexc, h.eff (by unfold settingKey; dsimp only [Reg.RDC_LOOP_FN]; omega)]

theorem SameSettings.zeta : t.zeta c = s.zeta c := by
  unfold State.zeta
  rw [h.eff (by unfold settingKey; dsimp only [Reg.RDC_LOOP_ZETA]; omega)]

theorem SameSettings.lagComp (ω : Int) : t.lagComp c ω = s.lagComp c ω := by
  unfold State.lagComp
  rw [h.fexc]

end

theorem SameSettings.fresh {s t : State} (h : SameSettings s t) : SameSettings s t.fresh := h.trans ⟨rfl, rfl, rfl, rfl, fun _ _ => rfl⟩

theorem SameSettings.ite {s t u : State} {p : Prop} [Decidable p] (ht : SameSettings s t) (hu : SameSettings s u) :
    SameSettings s (if p then t else u) := by
  split
  · exact ht
  · exact hu

/-! ## The stages of an update -/

theorem faultFlag_convOvl : FaultFlag Reg.RDC_STAT_CONV_OVL 23 := ⟨fun _ => rfl, fun _ => rfl, by decide⟩
theorem faultFlag_overspeed : FaultFlag Reg.RDC_STAT_OVERSPEED 19 := ⟨fun _ => rfl, fun _ => rfl, by decide⟩

section
variable (s : State) (m : RdcIn)

theorem sameSettings_rdcMeasure : SameSettings s (rdcMeasure s m) :=
  ((SameSettings.refl s).modRdc m.ch _).wr (not_setting_of_bit m.ch 80 rfl (by decide)) _

theorem part_rdcMeasure : ((rdcMeasure s m).rdc m.ch).part = (s.rdc m.ch).part.withUv m.uv := by
  rw [rdcMeasure, rdc_wr, rdc_modRdc_self]
  rfl

theorem rd_rdcMeasure : (rdcMeasure s m).rd (Reg.RDC_STAT_EXC_MV m.ch) = satU 16 (rne (m.uv : Int) 1000).toNat :=
  (State.rd_wr_self _ _ _).trans (satU_mod _ _)

/-- An onset that is counted in OR_EVENTS. -/
theorem sameSettings_flagging {f : Nat → Fld} {n : Nat} (hf : FaultFlag f n) (c ev : Nat) (p : List Nat) : SameSettings s (rdcFlagging s c f ev p) :=
  sameSettings_countedOnset hf channelCount_orEvents s c ev p

theorem rdc_rdcFlagging (c : Nat) (f : Nat → Fld) (ev : Nat) (p : List Nat) (d : Nat) : (rdcFlagging s c f ev p).rdc d = s.rdc d :=
  rdc_countedOnset s c ev p d

/-- The demodulator gives a new signal, of this edge. -/
theorem rdcDemod_spec : SameSettings s (rdcDemod s m) ∧
    ∃ w, ((rdcDemod s m).rdc m.ch).part = (s.rdc m.ch).part.withSignal w s.now := by
  unfold rdcDemod
  extract_lets c k x full pairs v products den reach h past at_ ovl t
  have hset : SameSettings s t := ((SameSettings.refl s).modRdc c _).fresh
  have hpart : (t.rdc m.ch).part = (s.rdc m.ch).part.withSignal (cascade State.halfNum den h) s.now := by
    have hchan := rdc_modRdc_self s m.ch fun k =>
      { k with hist := h, sig := cascade State.halfNum den h, sigAt := s.now, ovlAt := at_, ovl := ovl }
    exact congrArg Rdc.part hchan
  split
  · refine ⟨hset.trans (sameSettings_flagging t faultFlag_convOvl c 8 []), cascade State.halfNum den h, ?_⟩
    rw [rdc_rdcFlagging]
    exact hpart
  · exact ⟨hset, _, hpart⟩

end

section
variable (s : State) (c : Nat)

theorem loopErr_of_signal {sn cs : Int} (h : isqrt ((sn * sn + cs * cs).toNat * 2 ^ 120) ≠ 0) (free : Int) (θ : Nat) :
    loopErr free sn cs θ = loopErr 0 sn cs θ := by
  unfold loopErr
  dsimp only
  rw [if_neg h, if_neg h]

/-- One closed update, by the equations of R178. -/
theorem rdcLoop_spec (gear : Nat) (sn cs : Int) : SameSettings s (rdcLoop s c gear sn cs) ∧
    ∃ e, (isqrt ((sn * sn + cs * cs).toNat * 2 ^ 120) ≠ 0 → e = loopErr 0 sn cs (s.rdc c).theta) ∧
      ((rdcLoop s c gear sn cs).rdc c).part = (s.rdc c).part.stepped (s.fnActs c gear) (s.zeta c) e := by
  unfold rdcLoop
  extract_lets k fn ki e ω θ x
  refine ⟨((SameSettings.refl s).modRdc c _).fresh, e, fun h => loopErr_of_signal h _ _, ?_⟩
  have hchan := rdc_modRdc_self s c fun k => { k with theta := θ, omega := ω, err := e, accel := x }
  exact congrArg Rdc.part hchan

theorem rdcJudge_spec : SameSettings s (rdcJudge s c) ∧ ((rdcJudge s c).rdc c).part = (s.rdc c).part := by
  unfold rdcJudge
  extract_lets k bad runaway fast t
  have hset : SameSettings s t := (SameSettings.refl s).modRdc c _
  have hpart : (t.rdc c).part = (s.rdc c).part := part_modRdc s c fun _ => rfl
  split
  · refine ⟨hset.trans (sameSettings_flagging t faultFlag_overspeed c 6 []), ?_⟩
    rw [rdc_rdcFlagging]
    exact hpart
  · exact ⟨hset, hpart⟩

theorem rdcBeat_spec : SameSettings s (rdcBeat s c) ∧ ((rdcBeat s c).rdc c).part = (s.rdc c).part := by
  unfold rdcBeat
  extract_lets k amp lo hi inside track δ moved atEdge edge t t'
  have hset : SameSettings s t' := (((SameSettings.refl s).modRdc c _).wr (not_setting_of_bit c 48 rfl (by decide)) amp).trans (sameSettings_showPhase _ c)
  have hpart : (t'.rdc c).part = (s.rdc c).part := by
    unfold t'
    rw [rdc_showPhase, rdc_wr]
    exact part_modRdc s c fun _ => rfl
  split
  · exact ⟨.refl s, rfl⟩
  · split
    · refine ⟨hset.trans (sameSettings_flagging t' faultFlag_phase c 7 _), ?_⟩
      rw [rdc_rdcFlagging]
      exact hpart
    · exact ⟨hset, hpart⟩

theorem showRdc_spec : SameSettings s (showRdc s c) ∧ ((showRdc s c).rdc c).part = (s.rdc c).part := by
  refine ⟨sameSettings_showRdc s c, ?_⟩
  rw [rdc_showRdc_self]
  rfl

/-- What an output at this edge gives, where the table and INVERT do not act (R180, R181). -/
def PlainOut (s : State) (c θ : Nat) (ω : Int) (o : RdcOut) : Prop :=
  o.angle = (unsigned 32 (rne ((unsigned 40 ((θ : Int) + s.lagComp c ω) : Nat) : Int) 256) + 2 ^ 32 - s.eff (Reg.RDC_CFG_ZERO c)) % 2 ^ 32 ∧ o.speed = ω

theorem unsigned_unsigned (w : Nat) (x : Int) : unsigned w ((unsigned w x : Nat) : Int) = unsigned w x := by
  have hpos : (0 : Int) < ((2 ^ w : Nat) : Int) := by exact_mod_cast Nat.two_pow_pos w
  unfold unsigned
  rw [Int.toNat_of_nonneg (Int.emod_nonneg x hpos.ne'), Int.emod_emod]

/-- The outputs of an update carry its edge. -/
theorem rdcOutputs_spec (θ : Nat) (ω : Int) : SameSettings s (rdcOutputs s c θ ω) ∧
    ∃ o, ((rdcOutputs s c θ ω).rdc c).part = (s.rdc c).part.withOutputs o ∧ o.at_ = s.now ∧
      (s.eff (Reg.RDC_HARM_CFG_EN c) ≠ 1 → s.eff (Reg.RDC_CFG_INVERT c) ≠ 1 → PlainOut s c θ ω o) := by
  unfold rdcOutputs
  extract_lets k θe h θh inv θo w32 o
  refine ⟨(SameSettings.refl s).modRdc c _, o, ?_, rfl, fun hharm hinvert => ?_⟩
  · exact (congrArg Rdc.part (rdc_modRdc_self s c fun k => { k with prev := k.cur, cur := o, lastF := k.thH, thH := θo }) :)
  · have hinv : inv = false := decide_eq_false hinvert
    have htable : θh = θe := by
      have hzero : h = 0 := if_neg hharm
      unfold θh
      rw [hzero, Int.sub_zero]
      exact unsigned_unsigned 40 _
    have hangle : θo = θe := by
      unfold θo
      rw [hinv]
      exact htable
    refine ⟨?_, ?_⟩
    · change (unsigned 32 (rne (θo : Int) 256) + 2 ^ 32 - s.eff (Reg.RDC_CFG_ZERO c)) % 2 ^ 32 = _
      rw [hangle]
    · change (if inv then -ω else ω) = ω
      rw [hinv]
      rfl

end

/-! ## One update of a locked channel (R178, R198) -/

/-- The step from `p` to `q` of a locked channel: by its signal, or at the held speed up to `holdTo`. -/
def Tracked (s : State) (c : Nat) (p q : LoopPart) : Prop :=
  (p.holdTo ≤ s.now → ∃ e, (isqrt ((p.sig.s * p.sig.s + p.sig.c * p.sig.c).toNat * 2 ^ 120) ≠ 0 → e = loopErr 0 p.sig.s p.sig.c p.theta) ∧
    q = p.stepped (s.fnActs c 0) (s.zeta c) e) ∧
  (s.now < p.holdTo → q = p.held)

/-- The outputs `o` of an update, of a channel that stood at `p`. -/
def TrackOut (s : State) (c : Nat) (p : LoopPart) (o : RdcOut) : Prop :=
  o.at_ = s.now ∧ (s.eff (Reg.RDC_HARM_CFG_EN c) ≠ 1 → s.eff (Reg.RDC_CFG_INVERT c) ≠ 1 → PlainOut s c p.theta p.omega o)

section
variable {s t : State} (h : SameSettings s t) {c : Nat} {p q : LoopPart} {o : RdcOut}
include h

theorem SameSettings.tracked (k : Tracked t c p q) : Tracked s c p q := by
  unfold Tracked at *
  rw [h.now, h.fnActs, h.zeta] at k
  exact k

theorem SameSettings.trackOut (k : TrackOut t c p o) : TrackOut s c p o := by
  have hharm : settingKey (Reg.RDC_HARM_CFG_EN c).key := by unfold settingKey; dsimp only [Reg.RDC_HARM_CFG_EN]; omega
  have hinvert : settingKey (Reg.RDC_CFG_INVERT c).key := by unfold settingKey; dsimp only [Reg.RDC_CFG_INVERT]; omega
  have hzero : settingKey (Reg.RDC_CFG_ZERO c).key := by unfold settingKey; dsimp only [Reg.RDC_CFG_ZERO]; omega
  unfold TrackOut PlainOut at *
  rw [h.now, h.eff hharm, h.eff hinvert, h.eff hzero, h.lagComp] at k
  exact k

end

section
variable (s : State) (c : Nat)

/-- The state in which a locked channel forms its outputs. -/
def trackStepped (s : State) (c : Nat) : State :=
  if s.now < (s.rdc c).holdTo then s.modRdc c fun k => { k with theta := unsigned 40 (((s.rdc c).theta : Int) + rne (s.rdc c).omega 1024000) }
  else rdcJudge (rdcLoop s c 0 (s.rdc c).sig.s (s.rdc c).sig.c) c

theorem rdcTrack_eq : rdcTrack s c = rdcOutputs (trackStepped s c) c (s.rdc c).theta (s.rdc c).omega := rfl

theorem trackStepped_spec : SameSettings s (trackStepped s c) ∧ Tracked s c (s.rdc c).part ((trackStepped s c).rdc c).part := by
  unfold trackStepped
  split
  next hheld =>
    refine ⟨(SameSettings.refl s).modRdc c _, fun hfree => absurd hheld (Nat.not_lt.2 hfree), fun _ => ?_⟩
    rw [rdc_modRdc_self]
    rfl
  next hfree =>
    obtain ⟨hset, e, herr, hpart⟩ := rdcLoop_spec s c 0 (s.rdc c).sig.s (s.rdc c).sig.c
    obtain ⟨hjudge, hsame⟩ := rdcJudge_spec (rdcLoop s c 0 (s.rdc c).sig.s (s.rdc c).sig.c) c
    exact ⟨hset.trans hjudge, fun _ => ⟨e, herr, hsame.trans hpart⟩, fun hheld => absurd hheld hfree⟩

theorem rdcTrack_spec : SameSettings s (rdcTrack s c) ∧
    ∃ q o, Tracked s c (s.rdc c).part q ∧ TrackOut s c (s.rdc c).part o ∧ ((rdcTrack s c).rdc c).part = q.withOutputs o := by
  obtain ⟨hstep, htracked⟩ := trackStepped_spec s c
  obtain ⟨hout, o, hpart, hat, hplain⟩ := rdcOutputs_spec (trackStepped s c) c (s.rdc c).theta (s.rdc c).omega
  rw [rdcTrack_eq]
  exact ⟨hstep.trans hout, _, o, htracked, hstep.trackOut (p := (s.rdc c).part) ⟨hat, hplain⟩, hpart⟩

end

/-- The sums of the beat take in the signal of one more update. -/
def Rdc.summed (k : Rdc) (w : Wind) : Rdc :=
  { k with n := k.n + 1, quad := k.quad + w.s * w.sq + w.c * w.cq, pow := k.pow + w.s * w.s + w.c * w.c }

/-- What ends one channel's update. -/
def updateEnd (s : State) (c : Nat) : State := showRdc (if s.now / 240 % 16 = 15 then rdcBeat s c else s) c

theorem updateEnd_spec (s : State) (c : Nat) : SameSettings s (updateEnd s c) ∧ ((updateEnd s c).rdc c).part = (s.rdc c).part := by
  unfold updateEnd
  split
  · obtain ⟨hset, hpart⟩ := rdcBeat_spec s c
    obtain ⟨hshow, hsame⟩ := showRdc_spec (rdcBeat s c) c
    exact ⟨hset.trans hshow, hsame.trans hpart⟩
  · exact showRdc_spec s c

section
variable (s : State) (m : RdcIn)

/-- The state in which a channel that is on has its signal. -/
def signalled (s : State) (m : RdcIn) : State := (rdcDemod s m).modRdc m.ch fun k => k.summed ((rdcDemod s m).rdc m.ch).sig

theorem signalled_spec : SameSettings s (signalled s m) ∧ ∃ w, ((signalled s m).rdc m.ch).part = (s.rdc m.ch).part.withSignal w s.now := by
  obtain ⟨hset, w, hpart⟩ := rdcDemod_spec s m
  exact ⟨hset.modRdc m.ch _, w, (part_modRdc (rdcDemod s m) m.ch (g := fun k => k.summed ((rdcDemod s m).rdc m.ch).sig) fun _ => rfl).trans hpart⟩

theorem rdcUpdate_off (hoff : s.rdcOn m.ch = false) :
    rdcUpdate s m = rdcNoOutput (s.modRdc m.ch fun k => { k with hist := [], ovlAt := none }) m.ch := by
  unfold rdcUpdate
  exact if_pos (by simp [hoff])

theorem rdcUpdate_locked (hon : s.rdcOn m.ch = true) (hph : (s.rdc m.ch).ph = 3) : rdcUpdate s m = updateEnd (rdcTrack (signalled s m) m.ch) m.ch := by
  obtain ⟨-, w, hpart⟩ := rdcDemod_spec s m
  have hlocked : ((rdcDemod s m).rdc m.ch).ph = 3 := (congrArg LoopPart.ph hpart).trans hph
  have hupdates : rdcUpdate s m = updateEnd (if ((rdcDemod s m).rdc m.ch).ph = 3 then rdcTrack (signalled s m) m.ch
      else if ((rdcDemod s m).rdc m.ch).ph = 0 then rdcNoOutput (signalled s m) m.ch
      else rdcTry (signalled s m) m.ch (((signalled s m).now - ((rdcDemod s m).rdc m.ch).tryAt) / 240)) m.ch := if_neg (by simp [hon])
  rw [hupdates, if_pos hlocked]

theorem rd_rdcNoOutput (c : Nat) (f : Fld) : (rdcNoOutput s c).rd f = s.rd f := rfl

/-- One update of a locked channel: its signal is of this edge, and its loop and its outputs follow from it and from where the channel stood. -/
theorem rdcUpdate_spec (hon : s.rdcOn m.ch = true) (hph : (s.rdc m.ch).ph = 3) : SameSettings s (rdcUpdate s m) ∧
    ∃ w q o, Tracked s m.ch ((s.rdc m.ch).part.withSignal w s.now) q ∧ TrackOut s m.ch (s.rdc m.ch).part o ∧
      ((rdcUpdate s m).rdc m.ch).part = q.withOutputs o := by
  rw [rdcUpdate_locked s m hon hph]
  obtain ⟨hsignal, w, hpart⟩ := signalled_spec s m
  obtain ⟨htrack, q, o, htracked, hout, hafter⟩ := rdcTrack_spec (signalled s m) m.ch
  obtain ⟨hend, hsame⟩ := updateEnd_spec (rdcTrack (signalled s m) m.ch) m.ch
  rw [hpart] at htracked hout
  exact ⟨(hsignal.trans htrack).trans hend, w, q, o, hsignal.tracked htracked, hsignal.trackOut hout, hsame.trans hafter⟩

end

/-! ## The pair's part of an update (R187 to R189) -/

section
variable (s : State) (c : Nat)

/-- A fine channel of a resolved pair has its turn and the pair's outputs. -/
def pairCounted (s : State) (c n : Nat) (o : RdcOut) : State := (s.modRdc c fun k => { k with nTurn := n, cur := o }).wr (Reg.RDC_STAT_NTURN c) n

theorem onlyRegs_pairCounted (n : Nat) (o : RdcOut) : onlyRegs s (pairCounted s c n o) [Reg.RDC_STAT_NTURN c] :=
  onlyRegs_wr (s.modRdc c fun k => { k with nTurn := n, cur := o }) (Reg.RDC_STAT_NTURN c) n

theorem part_pairCounted (n : Nat) (o : RdcOut) : ((pairCounted s c n o).rdc c).part = (s.rdc c).part.withOutputs o := by
  rw [pairCounted, rdc_wr, rdc_modRdc_self]
  rfl

/-- The run of updates beyond PAIR_TOL is no part that the loop works on. -/
theorem part_slip (f : Rdc → Nat) : ((s.modRdc c fun k => { k with slip := f k }).rdc c).part = (s.rdc c).part := part_modRdc s c fun _ => rfl

omit s c in
/-- A channel's state is no register. -/
theorem onlyRegs_keep {s t : State} {fs : List Fld} (h : onlyRegs s t fs) (d : Nat) (g : Rdc → Rdc) : onlyRegs s (t.modRdc d g) fs := h

theorem onlyRegs_pairUpdate : onlyRegs s (pairUpdate s c) [Reg.RDC_STAT_NTURN c, Reg.RDC_STAT_PAIR_D c] := by
  have hshow (t : State) (d : Int) : onlyRegs t (showD t c d) [Reg.RDC_STAT_NTURN c, Reg.RDC_STAT_PAIR_D c] := onlyRegs_mono (onlyRegs_showD t c d) (by simp)
  unfold pairUpdate
  extract_lets k both n x nt a before o t d t'
  have hcounted : onlyRegs s t [Reg.RDC_STAT_NTURN c, Reg.RDC_STAT_PAIR_D c] := onlyRegs_mono (onlyRegs_pairCounted s c nt o) (by simp)
  split
  · split
    · exact hshow s _
    · exact onlyRegs_refl s _
  · split
    · exact onlyRegs_keep (onlyRegs_trans hcounted (hshow t d)) c _
    · exact onlyRegs_keep hcounted c _

/-- The pair's part of an update leaves the loop, the edge of the outputs, and whether the channel's own angle is valid; the outputs of a channel
without a pair stay. -/
theorem pairUpdate_spec : ∃ o, ((pairUpdate s c).rdc c).part = (s.rdc c).part.withOutputs o ∧ o.at_ = (s.rdc c).cur.at_ ∧ o.own = (s.rdc c).cur.own ∧
    (o.valid = (s.rdc c).cur.valid ∨ o.valid = (s.rdc c).cur.own) ∧ (s.paired c = false → o = (s.rdc c).cur) := by
  unfold pairUpdate
  extract_lets k both n x nt a before o t d t'
  have hcounted : (t.rdc c).part = (s.rdc c).part.withOutputs o := part_pairCounted s c nt o
  split
  · refine ⟨(s.rdc c).cur, ?_, rfl, rfl, .inl rfl, fun _ => rfl⟩
    split
    · rw [rdc_showD]
      rfl
    · rfl
  next hpaired =>
    refine ⟨o, ?_, rfl, rfl, .inr rfl, fun hsingle => absurd (by simp [hsingle]) hpaired⟩
    split
    · exact (part_slip t' c _).trans ((congrArg Rdc.part (rdc_showD t c d c)).trans hcounted)
    · exact (part_slip t c _).trans hcounted

end

/-! ## The whole update -/

theorem loopUpdate_one (s : State) (m : RdcIn) : loopUpdate s [m] [] = afterPairs [m.ch] [] (pairUpdate (rdcUpdate (rdcMeasure s m) m) m.ch) := rfl

/-- What an update of one channel makes of it, up to what follows its pair's part. -/
theorem part_loopUpdate (s : State) (m : RdcIn) :
    ((loopUpdate s [m] []).rdc m.ch).part = ((pairUpdate (rdcUpdate (rdcMeasure s m) m) m.ch).rdc m.ch).part := by
  rw [loopUpdate_one]
  exact (trackKept_afterPairs m.ch [m.ch] [] _).part

/-- A loop update leaves the queue of the commands that wait to `answer`. -/
theorem guard_update {s : State} {m : RdcIn} (hc : m.ch < 32) :
    exec (.rdcUpdate [m] []) s = .next ((loopUpdate s [m] []).keepQueue s) := by
  have hok : ([m].all (fun m => decide (m.ch < 32)) && ([] : List PfiIn).all fun m => decide (m.i < 16)) = true := by simp [hc]
  exact if_pos hok

theorem rdc_keepQueue (s t : State) (c : Nat) : (t.keepQueue s).rdc c = t.rdc c := rfl

theorem rd_keepQueue (s t : State) (f : Fld) : (t.keepQueue s).rd f = t.rd f := rfl

section
variable (s : State) {m : RdcIn} (hc : m.ch < 32)
include hc

/-- One update of a locked channel, through its pair's part. -/
theorem part_loopUpdate_locked (hon : s.rdcOn m.ch = true) (hph : (s.rdc m.ch).ph = 3) : ∃ w q o o',
    Tracked s m.ch (((s.rdc m.ch).part.withUv m.uv).withSignal w s.now) q ∧ TrackOut s m.ch ((s.rdc m.ch).part.withUv m.uv) o ∧
      ((loopUpdate s [m] []).rdc m.ch).part = q.withOutputs o' ∧ o'.at_ = s.now ∧ (s.paired m.ch = false → o' = o) := by
  have hmeasure := sameSettings_rdcMeasure s m
  have hpart := part_rdcMeasure s m
  obtain ⟨hupdate, w, q, o, htracked, hout, hafter⟩ :=
    rdcUpdate_spec (rdcMeasure s m) m ((hmeasure.rdcOn hc).trans hon) ((congrArg LoopPart.ph hpart).trans hph)
  obtain ⟨o', hpaired, hat, -, -, hsame⟩ := pairUpdate_spec (rdcUpdate (rdcMeasure s m) m) m.ch
  have hcur : ((rdcUpdate (rdcMeasure s m) m).rdc m.ch).cur = o := congrArg LoopPart.cur hafter
  rw [hpart, hmeasure.now] at htracked
  rw [hpart] at hout
  have hown := hmeasure.trackOut hout
  refine ⟨w, q, o, o', hmeasure.tracked htracked, hown, ?_, ?_, fun hsingle => ?_⟩
  · rw [part_loopUpdate, hpaired, hafter]
    rfl
  · rw [hat, hcur]
    exact hown.1
  · rw [hsame (((hmeasure.trans hupdate).paired m.ch).trans hsingle), hcur]

/-- One update of a channel that is off. -/
theorem part_loopUpdate_off (hoff : s.rdcOn m.ch = false) : ((loopUpdate s [m] []).rdc m.ch).uv = m.uv ∧
    ((loopUpdate s [m] []).rdc m.ch).cur.own = false ∧ ((loopUpdate s [m] []).rdc m.ch).cur.valid = false := by
  have hupdate := rdcUpdate_off (rdcMeasure s m) m (((sameSettings_rdcMeasure s m).rdcOn hc).trans hoff)
  have hquiet : ((rdcUpdate (rdcMeasure s m) m).rdc m.ch).uv = m.uv ∧ ((rdcUpdate (rdcMeasure s m) m).rdc m.ch).cur.own = false ∧
      ((rdcUpdate (rdcMeasure s m) m).rdc m.ch).cur.valid = false := by
    rw [hupdate, rdcNoOutput, rdc_modRdc_self, rdc_modRdc_self]
    exact ⟨congrArg LoopPart.uv (part_rdcMeasure s m), rfl, rfl⟩
  obtain ⟨huv, hown, hvalid⟩ := hquiet
  obtain ⟨o, hpart, -, hsame, hvalids, -⟩ := pairUpdate_spec (rdcUpdate (rdcMeasure s m) m) m.ch
  have hafter := (part_loopUpdate s m).trans hpart
  refine ⟨(congrArg LoopPart.uv hafter).trans huv, ?_, ?_⟩
  · exact (congrArg (fun p => p.cur.own) hafter).trans (hsame.trans hown)
  · refine (congrArg (fun p => p.cur.valid) hafter).trans ?_
    exact hvalids.elim (fun hv => hv.trans hvalid) fun hv => hv.trans hown

/-- EXC_MV of a channel that is off shows what its amplifier measures. -/
theorem rd_loopUpdate_off (hoff : s.rdcOn m.ch = false) :
    (loopUpdate s [m] []).rd (Reg.RDC_STAT_EXC_MV m.ch) = satU 16 (rne (m.uv : Int) 1000).toNat := by
  have hmv : mvKey (Reg.RDC_STAT_EXC_MV m.ch).key := by unfold mvKey statBlock; dsimp only [Reg.RDC_STAT_EXC_MV]; omega
  have hother : (Reg.RDC_STAT_EXC_MV m.ch).key ∉ [Reg.RDC_STAT_NTURN m.ch, Reg.RDC_STAT_PAIR_D m.ch].map Fld.key := by
    rw [List.map_cons, List.map_singleton, List.mem_cons, List.mem_singleton, not_or]
    exact ⟨stat_bit_ne m.ch m.ch 80 64 rfl rfl (by decide), stat_bit_ne m.ch m.ch 80 96 rfl rfl (by decide)⟩
  rw [loopUpdate_one, (trackKept_afterPairs m.ch [m.ch] [] _).mv _ hmv, onlyRegs_pairUpdate _ m.ch _ hother,
    rdcUpdate_off (rdcMeasure s m) m (((sameSettings_rdcMeasure s m).rdcOn hc).trans hoff), rd_rdcNoOutput, rd_modRdc, rd_rdcMeasure]

end

end Sys2Proof.Machine

namespace Sys2Proof
open Sys2Proof.Machine

section
variable {s : State} {m : RdcIn} (hc : m.ch < 32)
include hc

section
variable (hon : s.rdcOn m.ch = true) (hph : (s.rdc m.ch).ph = 3)
include hon hph

theorem exec_rdcUpdate_locked (hfree : (s.rdc m.ch).holdTo ≤ s.now) : ∃ t, exec (.rdcUpdate [m] []) s = .next t ∧ (t.rdc m.ch).sigAt = s.now ∧
    (isqrt (((t.rdc m.ch).sig.s * (t.rdc m.ch).sig.s + (t.rdc m.ch).sig.c * (t.rdc m.ch).sig.c).toNat * 2 ^ 120) ≠ 0 →
      (t.rdc m.ch).omega = loopOmega (loopKI (s.fnActs m.ch 0)) (loopErr 0 (t.rdc m.ch).sig.s (t.rdc m.ch).sig.c (s.rdc m.ch).theta) (s.rdc m.ch).omega ∧
      (t.rdc m.ch).theta = loopTheta (loopKP (s.fnActs m.ch 0) (s.zeta m.ch)) (loopErr 0 (t.rdc m.ch).sig.s (t.rdc m.ch).sig.c (s.rdc m.ch).theta)
        (t.rdc m.ch).omega (s.rdc m.ch).theta) ∧
    (s.paired m.ch = false → s.eff (Reg.RDC_HARM_CFG_EN m.ch) ≠ 1 → s.eff (Reg.RDC_CFG_INVERT m.ch) ≠ 1 →
      (t.rdc m.ch).cur.angle = (unsigned 32 (rne ((unsigned 40 (((s.rdc m.ch).theta : Int) + s.lagComp m.ch (s.rdc m.ch).omega) : Nat) : Int) 256) +
        2 ^ 32 - s.eff (Reg.RDC_CFG_ZERO m.ch)) % 2 ^ 32 ∧ (t.rdc m.ch).cur.speed = (s.rdc m.ch).omega) ∧
    (t.rdc m.ch).cur.at_ = s.now := by
  obtain ⟨w, q, o, o', ⟨hstep, -⟩, ⟨-, hplain⟩, hpart, hat, hsingle⟩ := part_loopUpdate_locked s hc hon hph
  obtain ⟨e, herr, rfl⟩ := hstep hfree
  refine ⟨_, guard_update hc, ?_⟩
  rw [rdc_keepQueue]
  generalize (loopUpdate s [m] []).rdc m.ch = k at hpart
  have hsig : k.sig = w := congrArg LoopPart.sig hpart
  have hcur : k.cur = o' := congrArg LoopPart.cur hpart
  have hat' : k.sigAt = s.now := congrArg LoopPart.sigAt hpart
  have homega : k.omega = loopOmega (loopKI (s.fnActs m.ch 0)) e (s.rdc m.ch).omega := congrArg LoopPart.omega hpart
  have htheta : k.theta = loopTheta (loopKP (s.fnActs m.ch 0) (s.zeta m.ch)) e (loopOmega (loopKI (s.fnActs m.ch 0)) e (s.rdc m.ch).omega)
      (s.rdc m.ch).theta := congrArg LoopPart.theta hpart
  rw [hsig, hcur, homega, htheta]
  refine ⟨hat', fun hsignal => ?_, fun hsolo hharm hinvert => ?_, hat⟩
  · have he : e = loopErr 0 w.s w.c (s.rdc m.ch).theta := herr hsignal
    rw [← he]
    exact ⟨rfl, rfl⟩
  · rw [hsingle hsolo]
    exact hplain hharm hinvert

theorem exec_rdcUpdate_held (hheld : s.now < (s.rdc m.ch).holdTo) : ∃ t, exec (.rdcUpdate [m] []) s = .next t ∧
    (t.rdc m.ch).omega = (s.rdc m.ch).omega ∧
    (t.rdc m.ch).theta = unsigned 40 (((s.rdc m.ch).theta : Int) + rne (s.rdc m.ch).omega 1024000) := by
  obtain ⟨w, q, o, o', ⟨-, hstep⟩, -, hpart, -, -⟩ := part_loopUpdate_locked s hc hon hph
  rw [hstep hheld] at hpart
  refine ⟨_, guard_update hc, ?_⟩
  rw [rdc_keepQueue]
  exact ⟨congrArg LoopPart.omega hpart, congrArg LoopPart.theta hpart⟩

end

theorem exec_rdcUpdate_off (hoff : s.rdcOn m.ch = false) : ∃ t, exec (.rdcUpdate [m] []) s = .next t ∧
    t.rd (Reg.RDC_STAT_EXC_MV m.ch) = satU 16 (rne (m.uv : Int) 1000).toNat ∧ (t.rdc m.ch).uv = m.uv ∧
    (t.rdc m.ch).cur.own = false ∧ (t.rdc m.ch).cur.valid = false := by
  refine ⟨_, guard_update hc, ?_⟩
  rw [rdc_keepQueue, rd_keepQueue]
  exact ⟨rd_loopUpdate_off s hc hoff, part_loopUpdate_off s hc hoff⟩

end

/-! ## The statement -/

/-- Settles O22: an update by the part of a channel that it works on, which what follows leaves; tries, the lock, pairs and the live element by
what each event shows. -/
theorem resolverTracking : Obligations.ResolverTracking := by
  unfold Obligations.ResolverTracking
  intro s c hc
  refine ⟨?_, ?_, ?_, fun hmay => ⟨exec_rdcAcqStart_seeds hc hmay, exec_rdcAcqStart_refused hc hmay⟩, exec_rdcAcqStart_barred hc,
    fun hph hlast => ⟨exec_rdcLockTest_locks hc hph hlast, exec_rdcLockTest_fails hc hph hlast⟩,
    fun htries => ⟨exec_rdcPairResolve_resolves hc htries, exec_rdcPairResolve_ambiguous hc htries⟩, exec_rdcPairSlip hc, exec_rdcLiveLatch hc⟩
  · rintro m rfl hon hph
    exact exec_rdcUpdate_locked hc hon hph
  · rintro m rfl hon hph
    exact exec_rdcUpdate_held hc hon hph
  · rintro m rfl
    exact exec_rdcUpdate_off hc

end Sys2Proof
end

