-- ==== Sys2Proof/Proofs/PositionInputs.lean ====
section
/-! PROOFS. Fine position inputs (R203 to R224): the places of their fields, what an event of an input leaves of it, and what each operation on
its counts, its path and its fusion shows. -/

namespace Sys2Proof.Machine

/-! ## Places of the fields -/

/-- The places of PFI_STAT[i] and of PFI_FAST_EDGES[i]; PFI_CNT[i] stands 0x400 bytes after PFI_STAT[i]. -/
def inputStat (i : Nat) : Nat := 8 * (0x54400 + 0x8000 * (i / 8) + 16 * (i % 8))
def inputFast (i : Nat) : Nat := 8 * (0x54780 + 0x8000 * (i / 8) + 4 * (i % 8))

@[simp] theorem key_path (i : Nat) : (Reg.PFI_STAT_PATH i).key = inputStat i := rfl
@[simp] theorem key_countValid (i : Nat) : (Reg.PFI_STAT_COUNT_VALID i).key = inputStat i + 2 := rfl
@[simp] theorem key_fbReady (i : Nat) : (Reg.PFI_STAT_FB_READY i).key = inputStat i + 3 := rfl
@[simp] theorem key_idxArmed (i : Nat) : (Reg.PFI_STAT_IDX_ARMED i).key = inputStat i + 4 := rfl
@[simp] theorem key_hystPend (i : Nat) : (Reg.PFI_STAT_HYST_PEND i).key = inputStat i + 5 := rfl
@[simp] theorem key_lineNow (i : Nat) : (Reg.PFI_STAT_LINE_NOW i).key = inputStat i + 6 := rfl
@[simp] theorem key_fstate (i : Nat) : (Reg.PFI_STAT_FSTATE i).key = inputStat i + 8 := rfl
@[simp] theorem key_fusedValid (i : Nat) : (Reg.PFI_STAT_FUSED_VALID i).key = inputStat i + 11 := rfl
@[simp] theorem key_fastEdge (i : Nat) : (Reg.PFI_STAT_FAST_EDGE i).key = inputStat i + 16 := rfl
@[simp] theorem key_quadErr (i : Nat) : (Reg.PFI_STAT_QUAD_ERR i).key = inputStat i + 17 := rfl
@[simp] theorem key_lineFault (i : Nat) : (Reg.PFI_STAT_LINE_FAULT i).key = inputStat i + 18 := rfl
@[simp] theorem key_scAmp (i : Nat) : (Reg.PFI_STAT_SC_AMP i).key = inputStat i + 19 := rfl
@[simp] theorem key_scOverspeed (i : Nat) : (Reg.PFI_STAT_SC_OVERSPEED i).key = inputStat i + 20 := rfl
@[simp] theorem key_fbSwitch (i : Nat) : (Reg.PFI_STAT_FB_SWITCH i).key = inputStat i + 21 := rfl
@[simp] theorem key_fbDisagree (i : Nat) : (Reg.PFI_STAT_FB_DISAGREE i).key = inputStat i + 22 := rfl
@[simp] theorem key_idxErr (i : Nat) : (Reg.PFI_STAT_IDX_ERR i).key = inputStat i + 23 := rfl
@[simp] theorem key_fuseSlip (i : Nat) : (Reg.PFI_STAT_FUSE_SLIP i).key = inputStat i + 24 := rfl
@[simp] theorem key_index (i : Nat) : (Reg.PFI_STAT_INDEX i).key = inputStat i + 26 := rfl
@[simp] theorem key_cfgBad (i : Nat) : (Reg.PFI_STAT_CFG_BAD i).key = inputStat i + 27 := rfl
@[simp] theorem key_fastEdges (i : Nat) : (Reg.PFI_FAST_EDGES_COUNT i).key = inputFast i := rfl

@[simp] theorem key_quadErrs (i : Nat) : (Reg.PFI_CNT_QUAD_ERR i).key = inputStat i + (8 * 0x400 + 32) := by
  dsimp only [inputStat, Reg.PFI_CNT_QUAD_ERR]
  omega

@[simp] theorem key_idxErrs (i : Nat) : (Reg.PFI_CNT_IDX_ERR i).key = inputStat i + (8 * 0x400 + 64) := by
  dsimp only [inputStat, Reg.PFI_CNT_IDX_ERR]
  omega

@[simp] theorem key_fuseSlips (i : Nat) : (Reg.PFI_CNT_FUSE_SLIP i).key = inputStat i + (8 * 0x400 + 96) := by
  dsimp only [inputStat, Reg.PFI_CNT_FUSE_SLIP]
  omega

@[simp] theorem inputStat_ne_fast (i : Nat) {m : Nat} (hm : m < 128 ∨ 8 * 0x400 ≤ m) : inputStat i + m ≠ inputFast i := by
  unfold inputStat inputFast
  omega

/-- A setting of an input is no field of PFI_STAT. -/
theorem cfg_ne_stat {k i m n : Nat} (hk : k = 8 * (0x54000 + 0x8000 * (i / 8) + 32 * (i % 8)) + m) (hm : m < 256) (hn : n < 128) :
    k ≠ inputStat i + n := by
  unfold inputStat
  omega

/-! ## The state of an input -/

/-- A change of an input shows in every part of it other than the log of Q (R217). -/
theorem pfi_modPfi {α : Type} (π : Pfi → α) (hπ : ∀ k l, π { k with qLog := l } = π k) (s : State) (i : Nat) (g : Pfi → Pfi) :
    π ((s.modPfi i g).pfi i) = π (g (s.pfi i)) := by
  rw [State.pfi, State.modPfi, Sparse.get_put_self, Pfi.after]
  split
  · rfl
  · exact hπ _ _

@[simp] theorem pfi_wr (s : State) (f : Fld) (v i : Nat) : (s.wr f v).pfi i = s.pfi i := rfl
@[simp] theorem pfi_set (s : State) (f : Fld) (i : Nat) : (s.set f).pfi i = s.pfi i := rfl
@[simp] theorem pfi_clr (s : State) (f : Fld) (i : Nat) : (s.clr f).pfi i = s.pfi i := rfl
@[simp] theorem pfi_count (s : State) (f : Fld) (i : Nat) : (s.count f).pfi i = s.pfi i := rfl
@[simp] theorem pfi_showFused (s : State) (i j : Nat) : (showFused s i).pfi j = s.pfi j := by rw [showFused, State.wrB, pfi_wr]
@[simp] theorem pfi_showLine (s : State) (i j : Nat) : (showLine s i).pfi j = s.pfi j := rfl
@[simp] theorem rd_modPfi (s : State) (i : Nat) (g : Pfi → Pfi) (f : Fld) : (s.modPfi i g).rd f = s.rd f := rfl
theorem lag_modPfi (s : State) (i : Nat) (g : Pfi → Pfi) : (s.modPfi i g).lag = s.lag := rfl
theorem bq_modPfi (s : State) (i : Nat) (g : Pfi → Pfi) : (s.modPfi i g).bq = s.bq := rfl

theorem pfi_congr {s t : State} (h : t.ax = s.ax) (i : Nat) : t.pfi i = s.pfi i := by rw [State.pfi, h]; rfl

/-! ## Onsets (R216) -/

section
variable (s : State) (i ev : Nat) (f : Nat → Fld) (p : List Nat)

theorem rd_pfiOnset (g : Fld) : (pfiOnset s i f ev p).rd g = (s.set (f i)).rd g := State.barkEvery_rd _ _ _ _ _ _ _ _

theorem flag_pfiOnset (hf : (f i).width = 1) : (pfiOnset s i f ev p).flag (f i) = true :=
  (State.flag_congr (rd_pfiOnset s i ev f p (f i))).trans (State.flag_set_self s hf)

@[simp] theorem pfi_pfiOnset (j : Nat) : (pfiOnset s i f ev p).pfi j = s.pfi j := pfi_congr (State.barkEvery_ax _ _ _ _ _ _ _) j

theorem onlyAxes_pfiOnset : onlyAxes s (pfiOnset s i f ev p) := onlyAxes.barkEvery (t := s.set (f i)) rfl _ _ _ _ _ _

end

/-! ## What an event leaves of an input -/

theorem onlyAxes.lag {s t : State} (h : onlyAxes s t) : t.lag = s.lag := by
  unfold onlyAxes at h
  rw [h]

theorem onlyAxes.now {s t : State} (h : onlyAxes s t) : t.now = s.now := by
  unfold onlyAxes at h
  rw [h]

theorem onlyAxes.run {s t : State} (h : onlyAxes s t) : t.run = s.run := by
  unfold onlyAxes at h
  rw [h]

theorem eff_congr {s t : State} {f : Fld} (hlag : t.lag = s.lag) (hrd : t.rd f = s.rd f) : t.eff f = s.eff f := by
  unfold State.eff
  rw [hlag, hrd]

/-- What the lines, the signals and the index have shown of an input, which its counts, its path and its fusion do not change. -/
def Pfi.seen (k : Pfi) : Pfi :=
  { a := k.a, b := k.b, z := k.z, edgeAt := k.edgeAt, lineAB := k.lineAB, lineZ := k.lineZ, scAmp := k.scAmp, scFast := k.scFast,
    idxC := k.idxC, idxAt := k.idxAt, ev := k.ev }

theorem Pfi.seen_levels {k l : Pfi} (h : k.seen = l.seen) : k.a = l.a ∧ k.b = l.b ∧ k.z = l.z ∧ k.edgeAt = l.edgeAt :=
  ⟨(congrArg Pfi.a h :), (congrArg Pfi.b h :), (congrArg Pfi.z h :), (congrArg Pfi.edgeAt h :)⟩

theorem Pfi.seen_faults {k l : Pfi} (h : k.seen = l.seen) : k.lineAB = l.lineAB ∧ k.lineZ = l.lineZ ∧ k.scAmp = l.scAmp ∧ k.scFast = l.scFast :=
  ⟨(congrArg Pfi.lineAB h :), (congrArg Pfi.lineZ h :), (congrArg Pfi.scAmp h :), (congrArg Pfi.scFast h :)⟩

theorem Pfi.seen_index {k l : Pfi} (h : k.seen = l.seen) : k.idxC = l.idxC ∧ k.idxAt = l.idxAt ∧ k.ev = l.ev :=
  ⟨(congrArg Pfi.idxC h :), (congrArg Pfi.idxAt h :), (congrArg Pfi.ev h :)⟩

/-- From `s` to `t`, among registers the fields `fs` alone may have changed, and of input `i` nothing that it has seen. -/
structure InputMoves (i : Nat) (fs : List Fld) (s t : State) : Prop where
  frame : onlyAxes s t
  regs : Sys2Proof.onlyRegs s t fs
  seen : (t.pfi i).seen = (s.pfi i).seen

section
variable {i : Nat} {fs gs : List Fld} {s t u : State}

theorem InputMoves.refl (i : Nat) (fs : List Fld) (s : State) : InputMoves i fs s s := ⟨.refl s, onlyRegs_refl s fs, rfl⟩

theorem InputMoves.trans (h : InputMoves i fs s t) (k : InputMoves i fs t u) : InputMoves i fs s u :=
  ⟨h.frame.trans k.frame, onlyRegs_trans h.regs k.regs, k.seen.trans h.seen⟩

theorem InputMoves.mono (h : InputMoves i fs s t) (hs : fs ⊆ gs) : InputMoves i gs s t := ⟨h.frame, onlyRegs_mono h.regs hs, h.seen⟩

theorem InputMoves.then (h : InputMoves i fs s t) (k : InputMoves i gs t u) : InputMoves i (fs ++ gs) s u :=
  (h.mono (List.subset_append_left fs gs)).trans (k.mono (List.subset_append_right fs gs))

theorem InputMoves.wr (h : InputMoves i fs s t) {f : Fld} (hf : f ∈ fs) (v : Nat) : InputMoves i fs s (t.wr f v) :=
  ⟨h.frame.trans (.wr t f v), onlyRegs_wr_of_mem h.regs hf v, h.seen⟩

theorem InputMoves.putPfi (h : InputMoves i fs s t) (g : Pfi → Pfi) (hg : (g (t.pfi i)).seen = (t.pfi i).seen) : InputMoves i fs s (t.modPfi i g) :=
  ⟨h.frame.trans rfl, h.regs, (pfi_modPfi Pfi.seen (fun _ _ => rfl) t i g).trans (hg.trans h.seen)⟩

theorem InputMoves.modPfi (h : InputMoves i fs s t) (g : Pfi → Pfi) (hg : ∀ k, (g k).seen = k.seen) :
    InputMoves i fs s (t.modPfi i g) := h.putPfi g (hg _)

theorem InputMoves.onset (h : InputMoves i fs s t) {f : Nat → Fld} (hf : f i ∈ fs) (ev : Nat) (p : List Nat) :
    InputMoves i fs s (pfiOnset t i f ev p) :=
  ⟨h.frame.trans (onlyAxes_pfiOnset t i ev f p), onlyRegs_of_rd (onlyRegs_wr_of_mem h.regs hf 1) (rd_pfiOnset t i ev f p),
    (congrArg Pfi.seen (pfi_pfiOnset t i ev f p i)).trans h.seen⟩

theorem InputMoves.ite {p : Prop} [Decidable p] (ht : InputMoves i fs s t) (hu : InputMoves i fs s u) : InputMoves i fs s (if p then t else u) := by
  split
  · exact ht
  · exact hu

theorem InputMoves.flag (h : InputMoves i fs s t) {f : Fld} (hf : f.key ∉ fs.map Fld.key) : t.flag f = s.flag f := State.flag_congr (h.regs f hf)

theorem InputMoves.eff (h : InputMoves i fs s t) {f : Fld} (hf : f.key ∉ fs.map Fld.key) : t.eff f = s.eff f :=
  eff_congr h.frame.lag (h.regs f hf)

end

/-! ## Counts, path and fusion -/

section
variable (s : State) (i : Nat)

theorem countLost_moves : InputMoves i [Reg.PFI_STAT_FSTATE i, Reg.PFI_STAT_FUSED_VALID i] (s.clr (Reg.PFI_STAT_COUNT_VALID i)) (countLost s i) := by
  have hlost := (InputMoves.refl i [Reg.PFI_STAT_FSTATE i, Reg.PFI_STAT_FUSED_VALID i] (s.clr (Reg.PFI_STAT_COUNT_VALID i))).modPfi
    (fun k => { k with lost := true, ixWait := none }) fun _ => rfl
  exact (hlost.wr (by simp) fsWAIT |>.modPfi _ (by intro; rfl)).ite hlost |>.wr (by simp) _

/-- The fields of PFI_STAT that a loss of the count may change. -/
def lossFields : List Fld := [Reg.PFI_STAT_COUNT_VALID i, Reg.PFI_STAT_FSTATE i, Reg.PFI_STAT_FUSED_VALID i]

/-- Those that a change of the counting path may change too. -/
def pathFields : List Fld := Reg.PFI_STAT_PATH i :: Reg.PFI_STAT_HYST_PEND i :: Reg.PFI_STAT_FB_SWITCH i :: lossFields i

theorem inputMoves_countLost : InputMoves i (lossFields i) s (countLost s i) :=
  ((InputMoves.refl i _ s).wr (by simp [lossFields]) 0).trans ((countLost_moves s i).mono (by simp [lossFields]))

theorem flag_countLost : (countLost s i).flag (Reg.PFI_STAT_COUNT_VALID i) = false :=
  ((countLost_moves s i).flag (by simp)).trans (State.flag_clr_self s _)

theorem inputMoves_pathTo (p : Nat) : InputMoves i [Reg.PFI_STAT_PATH i, Reg.PFI_STAT_HYST_PEND i] s (pathTo s i p) := by
  have hself := InputMoves.refl i [Reg.PFI_STAT_PATH i, Reg.PFI_STAT_HYST_PEND i] s
  exact hself.ite (((hself.wr (by simp) p).modPfi _ (by intro; rfl)).wr (by simp) 0)

theorem path_pathTo {p : Nat} (hp : p < 4) : (pathTo s i p).path i = p := by
  unfold pathTo
  split
  next h => exact h
  next =>
    rw [State.path, State.rd_clr_ne _ (by simp), rd_modPfi, State.rd_wr_self]
    exact Nat.mod_eq_of_lt hp

/-- An input on the sin/cos path in place of its pulses. -/
def switched : State := pathTo (s.modPfi i fun k => { k.settling s.now with c := s.converted i k.p }) i pFALLBACK

theorem inputMoves_fallbackOrLoss : InputMoves i (pathFields i) s (fallbackOrLoss s i) := by
  have hmoved := (InputMoves.refl i (pathFields i) s).modPfi (fun k => { k.settling s.now with c := s.converted i k.p }) fun _ => rfl
  have hswitched := hmoved.trans ((inputMoves_pathTo _ i pFALLBACK).mono (by simp [pathFields, lossFields]))
  exact (hswitched.onset (by simp [pathFields, lossFields]) 0x25 []).ite ((inputMoves_countLost s i).mono (by simp [pathFields, lossFields]))

/-- Fallback or loss (R216): without FB_READY the count is lost, and on the pulse path it goes on from the sin/cos signals. -/
theorem fallbackOrLoss_lost {s : State} {i : Nat} (h : s.flag (Reg.PFI_STAT_FB_READY i) = false) :
    (fallbackOrLoss s i).flag (Reg.PFI_STAT_COUNT_VALID i) = false := by
  have hlost : fallbackOrLoss s i = countLost s i := by
    rw [fallbackOrLoss, h]
    rfl
  rw [hlost]
  exact flag_countLost s i

theorem fallbackOrLoss_switched {s : State} {i : Nat} (h : s.flag (Reg.PFI_STAT_FB_READY i) = true) (hp : s.path i = pPULSE) :
    (fallbackOrLoss s i).path i = pFALLBACK ∧ (fallbackOrLoss s i).flag (Reg.PFI_STAT_FB_SWITCH i) = true := by
  have hswitched : fallbackOrLoss s i = pfiOnset (switched s i) i Reg.PFI_STAT_FB_SWITCH 0x25 [] := if_pos (by simp [h, hp])
  rw [hswitched]
  refine ⟨?_, flag_pfiOnset _ i 0x25 Reg.PFI_STAT_FB_SWITCH [] rfl⟩
  rw [State.path, rd_pfiOnset, State.rd_set_ne _ (by simp)]
  exact path_pathTo _ i (by decide)

theorem inputMoves_scSample (sn cs : Int) : InputMoves i [] s (scSample s i sn cs) := (InputMoves.refl i [] s).modPfi _ (by intro; rfl)

theorem setC_c (k : Pfi) (c : Nat) (hyst : Bool) : (k.setC c hyst).1.c = c := by
  unfold Pfi.setC
  dsimp only
  split_ifs <;> rfl

theorem setC_seen (k : Pfi) (c : Nat) (hyst : Bool) : (k.setC c hyst).1.seen = k.seen := by
  unfold Pfi.setC
  dsimp only
  split_ifs <;> rfl

theorem inputMoves_countTo (c : Nat) : InputMoves i [Reg.PFI_STAT_HYST_PEND i] s (countTo s i c) :=
  ((InputMoves.refl i _ s).putPfi _ (setC_seen _ c _)).wr (by simp) _

theorem c_countTo (c : Nat) : ((countTo s i c).pfi i).c = c :=
  (pfi_modPfi Pfi.c (fun _ _ => rfl) s i fun _ => ((s.pfi i).setC c (s.eff (Reg.PFI_CFG_HYST i) = 1)).1).trans (setC_c _ c _)

theorem inputMoves_countBy (d : Int) : InputMoves i [Reg.PFI_STAT_HYST_PEND i] s (countBy s i d) :=
  (InputMoves.refl i _ s).ite (inputMoves_countTo s i _)

/-- A count moves by `d`, backwards under INVERT (R204). -/
theorem c_countBy (d : Int) (hc : (s.pfi i).c < 2 ^ 48) : ((countBy s i d).pfi i).c =
    unsigned 48 (((s.pfi i).c : Int) + (if s.eff (Reg.PFI_CFG_INVERT i) = 1 then -d else d)) := by
  unfold countBy
  split
  next hd =>
    have hself : unsigned 48 ((s.pfi i).c : Int) = (s.pfi i).c := by
      unfold unsigned
      omega
    rw [hd, neg_zero, ite_self, add_zero, hself]
  next => exact c_countTo s i _

theorem bq_countBy (d : Int) : (countBy s i d).bq = s.bq := by
  unfold countBy
  split <;> rfl

/-- A row of an element that exists, by its effect. -/
theorem element_answer {s t u : State} {i n : Nat} (hi : i < n) (hu : u = t) (h : t.pending = s.pending) :
    guardItem (i < n) (answer s u) = .next t := by
  rw [hu]
  exact guardItem_answer (decide_eq_true hi) h

end

end Sys2Proof.Machine
end

