-- ==== Sys2Proof/Proofs/PositionCounting.lean ====
section
/-! PROOFS. Fine position inputs at work: edges, line faults, the sin/cos path and the fallback (R204 to R208, R213 to R216). -/

namespace Sys2Proof.Machine

/-! ## Edges (R205, R206) -/

/-- The lines as an edge leaves them. -/
def Pfi.levelled (la lb lz ev : Bool) (run : Nat) (k : Pfi) : Pfi := { k with a := la, b := lb, z := lz, edgeAt := some run, ev := ev }

/-- The lines of an input stand at new levels, `ev` says whether they make an index event, and the signals are sampled. -/
def edgeTaken (s : State) (i : Nat) (la lb lz ev : Bool) (sn cs : Int) : State :=
  (scSample s i sn cs).modPfi i (Pfi.levelled la lb lz ev s.run)

/-- An edge that comes before MIN_EDGE is counted and barked. -/
def fastNoted (fast : Bool) (s : State) (i : Nat) : State :=
  if fast then pfiOnset (s.count (Reg.PFI_FAST_EDGES_COUNT i)) i Reg.PFI_STAT_FAST_EDGE 0x20 [] else s

/-- What follows an edge that makes the count `d`, or none, and that comes before MIN_EDGE where `fast` says so (R206, R216). -/
def edgeJudged (fast : Bool) (d : Option Int) (s : State) (i : Nat) : State :=
  let t := fastNoted fast (if d.isNone then pfiOnset (s.count (Reg.PFI_CNT_QUAD_ERR i)) i Reg.PFI_STAT_QUAD_ERR 0x21 [] else s) i
  if fast || d.isNone then fallbackOrLoss t i else t

section
variable {s : State} {i : Nat} {la lb lz : Bool} {len : Nat} {sn cs : Int}

/-- The lines that the mode uses have moved. -/
theorem lines_moved (hmode : s.pfiMode i ≠ pmSINCOS) (hmoved : la ≠ (s.pfi i).a ∨ lb ≠ (s.pfi i).b) :
    (decide (s.pfiMode i ≠ pmSINCOS) && (decide (la ≠ (s.pfi i).a) || decide (lb ≠ (s.pfi i).b))) = true := by
  simp only [Bool.and_eq_true, Bool.or_eq_true, decide_eq_true_eq]
  exact ⟨hmode, hmoved⟩

variable (hon : s.pfiOn i = true) (hmode : s.pfiMode i ≠ pmSINCOS) (hmoved : la ≠ (s.pfi i).a ∨ lb ≠ (s.pfi i).b)
include hon hmode hmoved

theorem pfiEdge_glitch (hlen : len < s.pfiFilt i) : pfiEdge s i la lb lz len sn cs = s.count (Reg.PFI_CNT_GLITCH i) := by
  simp only [pfiEdge, lines_moved hmode hmoved, hon, hlen, Bool.not_true, Bool.false_and, Bool.false_eq_true, if_false, if_true]

/-- A change of A or B that has stood for FILT: on the pulse path it counts. -/
theorem pfiEdge_taken (hlen : s.pfiFilt i ≤ len) : ∃ ev fast, (fast = true → ∃ e, (s.pfi i).edgeAt = some e ∧ s.run < e + s.minEdge i) ∧
    pfiEdge s i la lb lz len sn cs = edgeJudged fast (decodeEdge (s.pfiMode i) (s.pfi i).a (s.pfi i).b la lb)
      (if s.path i = pPULSE then
        countBy (edgeTaken s i la lb lz ev sn cs) i ((decodeEdge (s.pfiMode i) (s.pfi i).a (s.pfi i).b la lb).getD 0)
      else edgeTaken s i la lb lz ev sn cs) i := by
  simp only [pfiEdge, lines_moved hmode hmoved, hon, Nat.not_lt.2 hlen, Bool.not_true, Bool.false_and, Bool.true_and, Bool.false_eq_true, if_false,
    if_true]
  refine ⟨_, _, ?_, rfl⟩
  split
  next e he => exact fun hfast => ⟨e, he, of_decide_eq_true hfast⟩
  next => exact fun hfast => absurd hfast Bool.false_ne_true

theorem pfiEdge_counts {d : Int} (hlen : s.pfiFilt i ≤ len) (hslow : ∀ e, (s.pfi i).edgeAt = some e → e + s.minEdge i ≤ s.run)
    (hpath : s.path i = pPULSE) (hd : decodeEdge (s.pfiMode i) (s.pfi i).a (s.pfi i).b la lb = some d) :
    ∃ ev, pfiEdge s i la lb lz len sn cs = countBy (edgeTaken s i la lb lz ev sn cs) i d := by
  obtain ⟨ev, fast, hfast, htaken⟩ := pfiEdge_taken (lz := lz) (sn := sn) (cs := cs) hon hmode hmoved hlen
  refine ⟨ev, htaken.trans ?_⟩
  cases fast with
  | true =>
    obtain ⟨e, he, hlt⟩ := hfast rfl
    exact absurd hlt (Nat.not_lt.2 (hslow e he))
  | false =>
    rw [hd, if_pos hpath]
    rfl

theorem pfiEdge_quadErr (hlen : s.pfiFilt i ≤ len) (hd : decodeEdge (s.pfiMode i) (s.pfi i).a (s.pfi i).b la lb = none) :
    ∃ ev fast, pfiEdge s i la lb lz len sn cs = fallbackOrLoss (fastNoted fast
      (pfiOnset ((edgeTaken s i la lb lz ev sn cs).count (Reg.PFI_CNT_QUAD_ERR i)) i Reg.PFI_STAT_QUAD_ERR 0x21 []) i) i := by
  obtain ⟨ev, fast, -, htaken⟩ := pfiEdge_taken (lz := lz) (sn := sn) (cs := cs) hon hmode hmoved hlen
  have hstill (t : State) : countBy t i 0 = t := if_pos rfl
  rw [hd, Option.getD_none, hstill, ite_self, edgeJudged, Option.isNone_none, Bool.or_true] at htaken
  exact ⟨ev, fast, htaken⟩

end

theorem seen_edgeTaken (s : State) (i : Nat) (la lb lz ev : Bool) (sn cs : Int) :
    ((edgeTaken s i la lb lz ev sn cs).pfi i).seen = (((scSample s i sn cs).pfi i).levelled la lb lz ev s.run).seen :=
  pfi_modPfi Pfi.seen (fun _ _ => rfl) (scSample s i sn cs) i (Pfi.levelled la lb lz ev s.run)

theorem c_edgeTaken (s : State) (i : Nat) (la lb lz ev : Bool) (sn cs : Int) : ((edgeTaken s i la lb lz ev sn cs).pfi i).c = (s.pfi i).c :=
  (pfi_modPfi Pfi.c (fun _ _ => rfl) (scSample s i sn cs) i (Pfi.levelled la lb lz ev s.run)).trans (pfi_modPfi Pfi.c (fun _ _ => rfl) s i fun k => k.scan (s.scTrimmed i sn cs))

theorem rd_edgeTaken (s : State) (i : Nat) (la lb lz ev : Bool) (sn cs : Int) (f : Fld) : (edgeTaken s i la lb lz ev sn cs).rd f = s.rd f :=
  (rd_modPfi _ i _ f).trans (rd_modPfi s i _ f)

theorem eff_edgeTaken (s : State) (i : Nat) (la lb lz ev : Bool) (sn cs : Int) (f : Fld) : (edgeTaken s i la lb lz ev sn cs).eff f = s.eff f :=
  eff_congr ((lag_modPfi _ i _).trans (lag_modPfi s i _)) (rd_edgeTaken s i la lb lz ev sn cs f)

theorem onlyAxes_edgeTaken (s : State) (i : Nat) (la lb lz ev : Bool) (sn cs : Int) : onlyAxes s (edgeTaken s i la lb lz ev sn cs) := rfl

theorem inputMoves_fastNoted (fast : Bool) (s : State) (i : Nat) :
    InputMoves i [Reg.PFI_FAST_EDGES_COUNT i, Reg.PFI_STAT_FAST_EDGE i] s (fastNoted fast s i) := by
  have hself := InputMoves.refl i [Reg.PFI_FAST_EDGES_COUNT i, Reg.PFI_STAT_FAST_EDGE i] s
  exact ((hself.wr (by simp) _).onset (by simp) 0x20 []).ite hself

end Sys2Proof.Machine

namespace Sys2Proof
open Sys2Proof.Machine

section
variable {s : State} {i : Nat} (hi : i < 16)
include hi

theorem exec_pfiEdge_glitch {la lb lz : Bool} {len : Nat} {sn cs : Int} (hon : s.pfiOn i = true) (hmode : s.pfiMode i ≠ pmSINCOS)
    (hmoved : la ≠ (s.pfi i).a ∨ lb ≠ (s.pfi i).b) (hlen : len < s.pfiFilt i) : ∃ t, exec (.pfiEdge i la lb lz len sn cs) s = .next t ∧
      t.rd (Reg.PFI_CNT_GLITCH i) = satU 32 (s.rd (Reg.PFI_CNT_GLITCH i) + 1) ∧ t = { s with regs := t.regs } ∧
      onlyRegs s t [Reg.PFI_CNT_GLITCH i] :=
  ⟨_, element_answer hi (pfiEdge_glitch hon hmode hmoved hlen) rfl, State.rd_count_self s _, rfl, onlyRegs_wr s _ _⟩

theorem exec_pfiEdge_counts {la lb lz : Bool} {len : Nat} {sn cs d : Int} (hon : s.pfiOn i = true) (hmode : s.pfiMode i ≠ pmSINCOS)
    (hmoved : la ≠ (s.pfi i).a ∨ lb ≠ (s.pfi i).b) (hlen : s.pfiFilt i ≤ len)
    (hslow : ∀ e, (s.pfi i).edgeAt = some e → e + s.minEdge i ≤ s.run) (hpath : s.path i = pPULSE) (hc : (s.pfi i).c < 2 ^ 48)
    (hd : decodeEdge (s.pfiMode i) (s.pfi i).a (s.pfi i).b la lb = some d) : ∃ t, exec (.pfiEdge i la lb lz len sn cs) s = .next t ∧
      (t.pfi i).a = la ∧ (t.pfi i).b = lb ∧ (t.pfi i).z = lz ∧ (t.pfi i).edgeAt = some s.run ∧
      (t.pfi i).c = unsigned 48 (((s.pfi i).c : Int) + (if s.eff (Reg.PFI_CFG_INVERT i) = 1 then -d else d)) ∧
      t = { s with regs := t.regs, ax := t.ax } ∧ onlyRegs s t [Reg.PFI_STAT_HYST_PEND i] := by
  obtain ⟨ev, hcounts⟩ := pfiEdge_counts (lz := lz) (sn := sn) (cs := cs) hon hmode hmoved hlen hslow hpath hd
  obtain ⟨hframe, hregs, hseen⟩ := inputMoves_countBy (edgeTaken s i la lb lz ev sn cs) i d
  have hcount := c_countBy (edgeTaken s i la lb lz ev sn cs) i d (by rw [c_edgeTaken]; exact hc)
  rw [c_edgeTaken, eff_edgeTaken] at hcount
  have hall := (onlyAxes_edgeTaken s i la lb lz ev sn cs).trans hframe
  obtain ⟨ha, hb, hz, hat⟩ := Pfi.seen_levels (hseen.trans (seen_edgeTaken s i la lb lz ev sn cs))
  exact ⟨_, element_answer hi hcounts hall.pending, ha, hb, hz, hat, hcount,
    hall.quiet (bq_countBy (edgeTaken s i la lb lz ev sn cs) i d), fun f hf => (hregs f hf).trans (rd_edgeTaken s i la lb lz ev sn cs f)⟩

theorem exec_pfiEdge_quadErr {la lb lz : Bool} {len : Nat} {sn cs : Int} (hon : s.pfiOn i = true) (hmode : s.pfiMode i ≠ pmSINCOS)
    (hmoved : la ≠ (s.pfi i).a ∨ lb ≠ (s.pfi i).b) (hlen : s.pfiFilt i ≤ len)
    (hd : decodeEdge (s.pfiMode i) (s.pfi i).a (s.pfi i).b la lb = none) : ∃ t, exec (.pfiEdge i la lb lz len sn cs) s = .next t ∧
      t.flag (Reg.PFI_STAT_QUAD_ERR i) = true ∧ t.rd (Reg.PFI_CNT_QUAD_ERR i) = satU 32 (s.rd (Reg.PFI_CNT_QUAD_ERR i) + 1) ∧
      t = { s with regs := t.regs, ax := t.ax, bq := t.bq } := by
  obtain ⟨ev, fast, herr⟩ := pfiEdge_quadErr (lz := lz) (sn := sn) (cs := cs) hon hmode hmoved hlen hd
  have hcounted : onlyAxes s ((edgeTaken s i la lb lz ev sn cs).count (Reg.PFI_CNT_QUAD_ERR i)) :=
    (onlyAxes_edgeTaken s i la lb lz ev sn cs).trans (.wr _ (Reg.PFI_CNT_QUAD_ERR i) _)
  have hcount : ((edgeTaken s i la lb lz ev sn cs).count (Reg.PFI_CNT_QUAD_ERR i)).rd (Reg.PFI_CNT_QUAD_ERR i) =
      satU 32 (s.rd (Reg.PFI_CNT_QUAD_ERR i) + 1) := by
    rw [State.rd_count_self, rd_edgeTaken]
    rfl
  generalize (edgeTaken s i la lb lz ev sn cs).count (Reg.PFI_CNT_QUAD_ERR i) = u at herr hcounted hcount
  obtain ⟨hframe, hregs, -⟩ := (inputMoves_fastNoted fast (pfiOnset u i Reg.PFI_STAT_QUAD_ERR 0x21 []) i).then (inputMoves_fallbackOrLoss _ i)
  have hall := (hcounted.trans (onlyAxes_pfiOnset u i 0x21 Reg.PFI_STAT_QUAD_ERR [])).trans hframe
  refine ⟨_, element_answer hi herr hall.pending, ?_, ?_, hall⟩
  · exact (State.flag_congr (hregs _ (by simp [pathFields, lossFields]))).trans (flag_pfiOnset u i 0x21 Reg.PFI_STAT_QUAD_ERR [] rfl)
  · rw [hregs _ (by simp [pathFields, lossFields]), rd_pfiOnset, State.rd_set_ne _ (by simp), hcount]

end

end Sys2Proof

namespace Sys2Proof.Machine

/-! ## Line faults (R216) -/

section
variable (s : State) (i : Nat)

/-- LINE_NOW and LINE_FAULT as the loss of A or B sets them. -/
def unlined : State := pfiOnset (showLine (s.modPfi i fun k => { k with lineAB := true }) i) i Reg.PFI_STAT_LINE_FAULT 0x22 []

theorem lineFault_ab {s : State} {i : Nat} (sn cs : Int) (hon : s.pfiOn i = true) (hmode : s.pfiMode i ≠ pmSINCOS)
    (hline : (s.pfi i).lineAB = false) : lineFault s i false sn cs = fallbackOrLoss (scSample (unlined s i) i sn cs) i :=
  if_neg (by simp [hon, hmode, hline])

theorem inputMoves_showLine : InputMoves i [Reg.PFI_STAT_LINE_NOW i] s (showLine s i) := (InputMoves.refl i _ s).wr (by simp) _

theorem inputMoves_unlined : InputMoves i [Reg.PFI_STAT_LINE_NOW i, Reg.PFI_STAT_LINE_FAULT i] (s.modPfi i fun k => { k with lineAB := true })
    (unlined s i) :=
  ((inputMoves_showLine _ i).mono (by simp)).onset (by simp) 0x22 []

theorem lineAB_unlined : ((unlined s i).pfi i).lineAB = true :=
  (Pfi.seen_faults (inputMoves_unlined s i).seen).1.trans (pfi_modPfi Pfi.lineAB (fun _ _ => rfl) s i _)

theorem flags_unlined : (unlined s i).flag (Reg.PFI_STAT_LINE_NOW i) = true ∧ (unlined s i).flag (Reg.PFI_STAT_LINE_FAULT i) = true := by
  refine ⟨?_, flag_pfiOnset _ i 0x22 Reg.PFI_STAT_LINE_FAULT [] rfl⟩
  have hline : ((s.modPfi i fun k => { k with lineAB := true }).pfi i).lineAB = true := pfi_modPfi Pfi.lineAB (fun _ _ => rfl) s i _
  have hshown : (showLine (s.modPfi i fun k => { k with lineAB := true }) i).flag (Reg.PFI_STAT_LINE_NOW i) = true := by
    rw [showLine, hline]
    exact State.flag_wrB_self _ true (by rfl)
  exact (State.flag_congr ((rd_pfiOnset _ i 0x22 Reg.PFI_STAT_LINE_FAULT [] _).trans (State.rd_set_ne _ (by simp)))).trans hshown

end

/-! ## The sin/cos path (R213, R216) -/

/-- A fault of the sin/cos path, by the path that the input counts on. -/
theorem scFault_pulse {s : State} {i : Nat} (h : s.path i = pPULSE) : scFault s i = s.clr (Reg.PFI_STAT_FB_READY i) := if_pos h

theorem scFault_lost {s : State} {i : Nat} (h : s.path i ≠ pPULSE) : scFault s i = countLost s i := if_neg h

theorem inputMoves_scFault (s : State) (i : Nat) : InputMoves i (Reg.PFI_STAT_FB_READY i :: lossFields i) s (scFault s i) :=
  ((InputMoves.refl i _ s).wr (by simp) 0).ite ((inputMoves_countLost s i).mono (by simp))

/-- A fault of the sin/cos path is noted by `g` and declared in `f`. -/
def scDeclared (s : State) (i : Nat) (g : Pfi → Pfi) (f : Nat → Fld) (ev : Nat) : State := scFault (pfiOnset (s.modPfi i g) i f ev []) i

section
variable (s : State) (i : Nat) (g : Pfi → Pfi) {f : Nat → Fld} (ev : Nat)
  (hf : (f i).key ∉ (Reg.PFI_STAT_PATH i :: Reg.PFI_STAT_FB_READY i :: lossFields i).map Fld.key)

theorem onlyAxes_scDeclared : onlyAxes s (scDeclared s i g f ev) :=
  ((onlyAxes.trans (t := s.modPfi i g) rfl (onlyAxes_pfiOnset _ i ev f []))).trans (inputMoves_scFault _ i).frame

theorem seen_scDeclared : ((scDeclared s i g f ev).pfi i).seen = (g (s.pfi i)).seen :=
  (inputMoves_scFault _ i).seen.trans ((congrArg Pfi.seen (pfi_pfiOnset _ i ev f [] i)).trans (pfi_modPfi Pfi.seen (fun _ _ => rfl) s i g))

include hf

theorem flag_scDeclared (hw : (f i).width = 1) : (scDeclared s i g f ev).flag (f i) = true :=
  ((inputMoves_scFault _ i).flag (List.not_mem_of_not_mem_cons hf)).trans (flag_pfiOnset _ i ev f [] hw)

theorem rd_declared {h : Fld} (hh : h ∈ Reg.PFI_STAT_PATH i :: Reg.PFI_STAT_FB_READY i :: lossFields i) :
    (pfiOnset (s.modPfi i g) i f ev []).rd h = s.rd h :=
  (rd_pfiOnset _ i ev f [] h).trans (State.rd_set_ne _ fun he => hf (he ▸ List.mem_map_of_mem hh))

theorem scDeclared_pulse (hp : s.path i = pPULSE) : (scDeclared s i g f ev).flag (Reg.PFI_STAT_FB_READY i) = false ∧
    (scDeclared s i g f ev).flag (Reg.PFI_STAT_COUNT_VALID i) = s.flag (Reg.PFI_STAT_COUNT_VALID i) := by
  have hpath : (pfiOnset (s.modPfi i g) i f ev []).path i = pPULSE := (rd_declared s i g ev hf (by simp)).trans hp
  rw [scDeclared, scFault_pulse hpath]
  exact ⟨State.flag_clr_self _ _, State.flag_congr ((State.rd_clr_ne _ (by simp)).trans (rd_declared s i g ev hf (by simp [lossFields])))⟩

theorem scDeclared_lost (hp : s.path i ≠ pPULSE) : (scDeclared s i g f ev).flag (Reg.PFI_STAT_COUNT_VALID i) = false := by
  have hpath : (pfiOnset (s.modPfi i g) i f ev []).path i ≠ pPULSE := fun h => hp ((rd_declared s i g ev hf (by simp)).symm.trans h)
  rw [scDeclared, scFault_lost hpath]
  exact flag_countLost _ i

end

theorem scAmp_declares {s : State} {i : Nat} (hon : s.pfiOn i = true) (hamp : (s.pfi i).scAmp = false) (hout : 2 ≤ (s.pfi i).ampOut) :
    scAmp s i = scDeclared s i (fun k => { k with scAmp := true }) Reg.PFI_STAT_SC_AMP 0x23 := by
  simp only [scAmp, hon, hamp, hout, Bool.not_true, Bool.false_eq_true, if_false, Bool.not_false, Bool.true_and, decide_true, if_true]
  rfl

theorem scSpeed_declares {s : State} {i : Nat} (hon : s.pfiOn i = true) (hfast : (s.pfi i).scFast = false) (hrun : 2 ≤ (s.pfi i).fastRun) :
    scSpeed s i = scDeclared s i (fun k => { k with scFast := true }) Reg.PFI_STAT_SC_OVERSPEED 0x24 := by
  simp only [scSpeed, hon, hfast, hrun, Bool.not_true, Bool.false_eq_true, if_false, Bool.not_false, Bool.true_and, decide_true, if_true]
  rfl

theorem scAmp_clears {s : State} {i : Nat} (hon : s.pfiOn i = true) (hamp : (s.pfi i).scAmp = true) (hin : 16 ≤ (s.pfi i).ampIn) :
    scAmp s i = scClear (s.modPfi i fun k => { k with scAmp := false }) i := by
  simp only [scAmp, hon, hamp, hin, Bool.not_true, Bool.false_eq_true, if_false, Bool.false_and, Bool.true_and, decide_true, if_true]

theorem scSpeed_clears {s : State} {i : Nat} (hon : s.pfiOn i = true) (hfast : (s.pfi i).scFast = true) (hrun : 16 ≤ (s.pfi i).slowRun) :
    scSpeed s i = scClear (s.modPfi i fun k => { k with scFast := false }) i := by
  simp only [scSpeed, hon, hfast, hrun, Bool.not_true, Bool.false_eq_true, if_false, Bool.false_and, Bool.true_and, decide_true, if_true]

/-! ## Fallback (R214) -/

theorem signed_modEq (w n : Nat) : signed w n ≡ n [ZMOD ((2 ^ w : Nat) : Int)] := by
  have hmod : ((n % 2 ^ w : Nat) : Int) ≡ n [ZMOD ((2 ^ w : Nat) : Int)] := by
    rw [Int.natCast_mod]
    exact Int.mod_modEq _ _
  unfold signed
  dsimp only
  split
  · exact hmod
  · exact (Int.sub_modulus_modEq_iff).2 hmod

theorem unsigned_modEq (w : Nat) (x : Int) : ((unsigned w x : Nat) : Int) ≡ x [ZMOD ((2 ^ w : Nat) : Int)] := by
  unfold unsigned
  rw [Int.toNat_of_nonneg (Int.emod_nonneg x (by positivity))]
  exact Int.mod_modEq _ _

theorem unsigned_of_modEq {w c : Nat} {x : Int} (hc : c < 2 ^ w) (h : x ≡ c [ZMOD ((2 ^ w : Nat) : Int)]) : unsigned w x = c := by
  rw [unsigned, h, ← Int.natCast_mod, Nat.mod_eq_of_lt hc, Int.toNat_natCast]

/-- What is added to a count to make it `c` makes it `c`. -/
theorem unsigned_add_modDiff {w c : Nat} (hc : c < 2 ^ w) (x : Int) : unsigned w (x + modDiff w c (unsigned w x)) = c := by
  refine unsigned_of_modEq hc ?_
  have hdiff : modDiff w c (unsigned w x) ≡ c - x [ZMOD ((2 ^ w : Nat) : Int)] := by
    have hlt := unsigned_lt w x
    have hsub : ((c + 2 ^ w - unsigned w x % 2 ^ w : Nat) : Int) = (c - (unsigned w x : Nat) : Int) + ((2 ^ w : Nat) : Int) := by
      rw [Nat.mod_eq_of_lt hlt]
      omega
    refine (signed_modEq w _).trans ?_
    rw [hsub]
    exact (Int.add_modulus_modEq_iff).2 ((Int.ModEq.refl _).sub (unsigned_modEq w x))
  calc x + modDiff w c (unsigned w x) ≡ x + (c - x) [ZMOD ((2 ^ w : Nat) : Int)] := (Int.ModEq.refl x).add hdiff
    _ = c := by ring

/-- A sin/cos count in quadrature counts, before O (R214). -/
def State.rescaled (s : State) (i p : Nat) : Int :=
  if s.eff (Reg.PFI_CFG_INVERT i) = 1 then -(signed 48 p * (4 * 2 ^ s.fbRatio i : Nat) / 4096) else signed 48 p * (4 * 2 ^ s.fbRatio i : Nat) / 4096

theorem converted_eq (s : State) (i p : Nat) : s.converted i p = unsigned 48 (s.rescaled i p + (s.pfi i).o) := rfl

theorem rescaled_congr {s t : State} {i : Nat} (hinvert : t.eff (Reg.PFI_CFG_INVERT i) = s.eff (Reg.PFI_CFG_INVERT i))
    (hratio : t.eff (Reg.PFI_CFG_FB_RATIO i) = s.eff (Reg.PFI_CFG_FB_RATIO i)) (p : Nat) : t.rescaled i p = s.rescaled i p := by
  have hfb : t.fbRatio i = s.fbRatio i := by rw [State.fbRatio, hratio]; rfl
  rw [State.rescaled, hinvert, hfb]
  rfl

/-- An input with a new O, from which disagreements count anew. -/
def Pfi.aligned (o : Int) (k : Pfi) : Pfi := { k with o := o, dis := 0 }

theorem Pfi.seen_aligned (o : Int) (k : Pfi) : (k.aligned o).seen = k.seen := rfl

/-- An input whose sin/cos path becomes ready: O makes the converted count equal C. -/
def readied (s : State) (i : Nat) : State :=
  ((s.modPfi i fun k => { k with o := 0 }).modPfi i fun k => k.aligned (modDiff 48 k.c ((s.modPfi i fun k => { k with o := 0 }).converted i k.p))).set
    (Reg.PFI_STAT_FB_READY i)

theorem inputMoves_aligned (s : State) (i : Nat) (g : Pfi → Int) : InputMoves i [] s (s.modPfi i fun k => k.aligned (g k)) :=
  (InputMoves.refl i [] s).putPfi _ (Pfi.seen_aligned _ _)

theorem inputMoves_readied (s : State) (i : Nat) : InputMoves i [Reg.PFI_STAT_FB_READY i] s (readied s i) := by
  have hreset : InputMoves i [] s (s.modPfi i fun k => { k with o := 0 }) := (InputMoves.refl i [] s).modPfi _ (by intro; rfl)
  exact ((hreset.trans (inputMoves_aligned _ i _)).mono (List.nil_subset _)).wr (by simp) 1

theorem bq_readied (s : State) (i : Nat) : (readied s i).bq = s.bq := by
  rw [readied, State.set_bq, bq_modPfi, bq_modPfi]

theorem converted_readied {s : State} {i : Nat} (hc : (s.pfi i).c < 2 ^ 48) : (readied s i).converted i (s.pfi i).p = (s.pfi i).c := by
  have hfirst (p : Nat) : (s.modPfi i fun k => { k with o := 0 }).converted i p = unsigned 48 (s.rescaled i p) := by
    have hscale : (s.modPfi i fun k => { k with o := 0 }).rescaled i p = s.rescaled i p := rescaled_congr (eff_congr rfl rfl) (eff_congr rfl rfl) p
    rw [converted_eq, pfi_modPfi Pfi.o (fun _ _ => rfl) s i, add_zero, hscale]
  have ho : ((readied s i).pfi i).o = modDiff 48 (s.pfi i).c (unsigned 48 (s.rescaled i (s.pfi i).p)) := by
    rw [readied, pfi_set, pfi_modPfi Pfi.o (fun _ _ => rfl), Pfi.aligned, hfirst, pfi_modPfi Pfi.c (fun _ _ => rfl), pfi_modPfi Pfi.p (fun _ _ => rfl)]
  have heff {f : Fld} (hf : (Reg.PFI_STAT_FB_READY i).key ≠ f.key) : (readied s i).eff f = s.eff f :=
    (inputMoves_readied s i).eff (by simpa using hf.symm)
  have hscale := rescaled_congr (heff (cfg_ne_stat (m := 3) (n := 3) rfl (by decide) (by decide)).symm)
    (heff (cfg_ne_stat (m := 16) (n := 3) rfl (by decide) (by decide)).symm) (s.pfi i).p
  rw [converted_eq, ho, hscale]
  exact unsigned_add_modDiff hc _

end Sys2Proof.Machine

namespace Sys2Proof
open Sys2Proof.Machine

section
variable {s : State} {i : Nat} (hi : i < 16)
include hi

theorem exec_pfiLineFault (sn cs : Int) (hon : s.pfiOn i = true) (hmode : s.pfiMode i ≠ pmSINCOS) (hline : (s.pfi i).lineAB = false) :
    ∃ t, exec (.pfiLineFault i false sn cs) s = .next t ∧ (t.pfi i).lineAB = true ∧ t.flag (Reg.PFI_STAT_LINE_NOW i) = true ∧
      t.flag (Reg.PFI_STAT_LINE_FAULT i) = true ∧ (s.flag (Reg.PFI_STAT_FB_READY i) = false → t.flag (Reg.PFI_STAT_COUNT_VALID i) = false) ∧
      (s.flag (Reg.PFI_STAT_FB_READY i) = true → s.path i = pPULSE → t.path i = pFALLBACK ∧ t.flag (Reg.PFI_STAT_FB_SWITCH i) = true) ∧
      t = { s with regs := t.regs, ax := t.ax, bq := t.bq } := by
  have hfault := lineFault_ab sn cs hon hmode hline
  have hunlined := inputMoves_unlined s i
  have hsampled := inputMoves_scSample (unlined s i) i sn cs
  have hready : (scSample (unlined s i) i sn cs).flag (Reg.PFI_STAT_FB_READY i) = s.flag (Reg.PFI_STAT_FB_READY i) := hunlined.flag (by simp)
  have hpath : (scSample (unlined s i) i sn cs).path i = s.path i := hunlined.regs _ (by simp)
  have hline' := (Pfi.seen_faults hsampled.seen).1.trans (lineAB_unlined s i)
  obtain ⟨hnow, hset⟩ := flags_unlined s i
  generalize scSample (unlined s i) i sn cs = u at hfault hsampled hready hpath hline'
  have hmoves := inputMoves_fallbackOrLoss u i
  have hframe := ((onlyAxes.trans (t := s.modPfi i fun k => { k with lineAB := true }) rfl hunlined.frame).trans hsampled.frame).trans hmoves.frame
  refine ⟨_, element_answer hi hfault hframe.pending, (Pfi.seen_faults hmoves.seen).1.trans hline', ?_, ?_, fun h => ?_, fun h hp => ?_, hframe⟩
  · exact (hmoves.flag (by simp [pathFields, lossFields])).trans ((hsampled.flag (by simp)).trans hnow)
  · exact (hmoves.flag (by simp [pathFields, lossFields])).trans ((hsampled.flag (by simp)).trans hset)
  · exact fallbackOrLoss_lost (hready.trans h)
  · exact fallbackOrLoss_switched (hready.trans h) (hpath.trans hp)

theorem exec_pfiLineFaultClear (z : Bool) : ∃ t, exec (.pfiLineFaultClear i z) s = .next t ∧ (z = true → (t.pfi i).lineZ = false) ∧
    (z = false → (t.pfi i).lineAB = false) ∧ t = { s with regs := t.regs, ax := t.ax } ∧ onlyRegs s t [Reg.PFI_STAT_LINE_NOW i] := by
  refine ⟨_, element_answer hi rfl rfl, fun hz => ?_, fun hz => ?_, rfl, onlyRegs_wr (s.modPfi i _) _ _⟩
  · rw [hz, pfi_showLine]
    exact pfi_modPfi Pfi.lineZ (fun _ _ => rfl) s i _
  · rw [hz, pfi_showLine]
    exact pfi_modPfi Pfi.lineAB (fun _ _ => rfl) s i _

section
variable (hon : s.pfiOn i = true)
include hon

theorem exec_pfiScAmp_declares (hamp : (s.pfi i).scAmp = false) (hout : 2 ≤ (s.pfi i).ampOut) : ∃ t, exec (.pfiScAmp i) s = .next t ∧
    (t.pfi i).scAmp = true ∧ t.flag (Reg.PFI_STAT_SC_AMP i) = true ∧
    (s.path i = pPULSE → t.flag (Reg.PFI_STAT_FB_READY i) = false ∧ t.flag (Reg.PFI_STAT_COUNT_VALID i) = s.flag (Reg.PFI_STAT_COUNT_VALID i)) ∧
    (s.path i ≠ pPULSE → t.flag (Reg.PFI_STAT_COUNT_VALID i) = false) ∧ t = { s with regs := t.regs, ax := t.ax, bq := t.bq } := by
  have hfields : (Reg.PFI_STAT_SC_AMP i).key ∉ (Reg.PFI_STAT_PATH i :: Reg.PFI_STAT_FB_READY i :: lossFields i).map Fld.key := by
    simp [lossFields]
  have hframe := onlyAxes_scDeclared s i (fun k => { k with scAmp := true }) (f := Reg.PFI_STAT_SC_AMP) 0x23
  exact ⟨_, element_answer hi (scAmp_declares hon hamp hout) hframe.pending, (Pfi.seen_faults (seen_scDeclared s i _ 0x23)).2.2.1,
    flag_scDeclared s i _ 0x23 hfields rfl, scDeclared_pulse s i _ 0x23 hfields, scDeclared_lost s i _ 0x23 hfields, hframe⟩

theorem exec_pfiScAmp_clears (hamp : (s.pfi i).scAmp = true) (hin : 16 ≤ (s.pfi i).ampIn) : ∃ t, exec (.pfiScAmp i) s = .next t ∧
    (t.pfi i).scAmp = false ∧ (t.pfi i).scOk = s.run ∧ t = { s with ax := t.ax } :=
  ⟨_, element_answer hi (scAmp_clears hon hamp hin) rfl, (pfi_modPfi Pfi.scAmp (fun _ _ => rfl) _ i _).trans (pfi_modPfi Pfi.scAmp (fun _ _ => rfl) s i _),
    pfi_modPfi Pfi.scOk (fun _ _ => rfl) _ i _, rfl⟩

theorem exec_pfiScOverspeed_declares (hfast : (s.pfi i).scFast = false) (hrun : 2 ≤ (s.pfi i).fastRun) :
    ∃ t, exec (.pfiScOverspeed i) s = .next t ∧ (t.pfi i).scFast = true ∧ t.flag (Reg.PFI_STAT_SC_OVERSPEED i) = true ∧
      (s.path i = pPULSE → t.flag (Reg.PFI_STAT_FB_READY i) = false) ∧ (s.path i ≠ pPULSE → t.flag (Reg.PFI_STAT_COUNT_VALID i) = false) ∧
      t = { s with regs := t.regs, ax := t.ax, bq := t.bq } := by
  have hfields : (Reg.PFI_STAT_SC_OVERSPEED i).key ∉ (Reg.PFI_STAT_PATH i :: Reg.PFI_STAT_FB_READY i :: lossFields i).map Fld.key := by
    simp [lossFields]
  have hframe := onlyAxes_scDeclared s i (fun k => { k with scFast := true }) (f := Reg.PFI_STAT_SC_OVERSPEED) 0x24
  exact ⟨_, element_answer hi (scSpeed_declares hon hfast hrun) hframe.pending, (Pfi.seen_faults (seen_scDeclared s i _ 0x24)).2.2.2,
    flag_scDeclared s i _ 0x24 hfields rfl, fun hp => (scDeclared_pulse s i _ 0x24 hfields hp).1, scDeclared_lost s i _ 0x24 hfields, hframe⟩

theorem exec_pfiScOverspeed_clears (hfast : (s.pfi i).scFast = true) (hrun : 16 ≤ (s.pfi i).slowRun) : ∃ t, exec (.pfiScOverspeed i) s = .next t ∧
    (t.pfi i).scFast = false ∧ (t.pfi i).scOk = s.run ∧ t = { s with ax := t.ax } :=
  ⟨_, element_answer hi (scSpeed_clears hon hfast hrun) rfl, (pfi_modPfi Pfi.scFast (fun _ _ => rfl) _ i _).trans (pfi_modPfi Pfi.scFast (fun _ _ => rfl) s i _),
    pfi_modPfi Pfi.scOk (fun _ _ => rfl) _ i _, rfl⟩

theorem exec_pfiFbReady (hcfg : s.eff (Reg.PFI_CFG_FALLBACK i) = 1) (hmode : s.pfiMode i = pmQUAD) (hpath : s.path i = pPULSE)
    (hready : s.flag (Reg.PFI_STAT_FB_READY i) = false) (hamp : (s.pfi i).scAmp = false) (hfast : (s.pfi i).scFast = false)
    (hok : s.elapsed (s.pfi i).scOk (64 * cclkBeat) = true) (hc : (s.pfi i).c < 2 ^ 48) : ∃ t, exec (.pfiFbReady i) s = .next t ∧
      t.flag (Reg.PFI_STAT_FB_READY i) = true ∧ t.converted i (s.pfi i).p = (s.pfi i).c ∧ t = { s with regs := t.regs, ax := t.ax } ∧
      onlyRegs s t [Reg.PFI_STAT_FB_READY i] := by
  have hreadied : fbReady s i = readied s i := if_pos (by simp [hcfg, hon, hmode, hpath, hready, hamp, hfast, hok])
  obtain ⟨hframe, hregs, -⟩ := inputMoves_readied s i
  exact ⟨_, element_answer hi hreadied hframe.pending, State.flag_set_self _ (by rfl), converted_readied hc, hframe.quiet (bq_readied s i), hregs⟩

end

theorem exec_pfiFbDisagree (hready : s.flag (Reg.PFI_STAT_FB_READY i) = true) (hdis : 16 ≤ (s.pfi i).dis) : ∃ t, exec (.pfiFbDisagree i) s = .next t ∧
    t.flag (Reg.PFI_STAT_FB_READY i) = false ∧ t.flag (Reg.PFI_STAT_COUNT_VALID i) = false ∧ t.flag (Reg.PFI_STAT_FB_DISAGREE i) = true ∧
    t.path i = s.path i ∧ t = { s with regs := t.regs, ax := t.ax, bq := t.bq } := by
  have hdisagrees : fbDisagree s i = pfiOnset (scClear (countLost (s.clr (Reg.PFI_STAT_FB_READY i)) i) i) i Reg.PFI_STAT_FB_DISAGREE 0x27 [] :=
    if_pos (by simp [hready, hdis])
  have hlost := inputMoves_countLost (s.clr (Reg.PFI_STAT_FB_READY i)) i
  have hinvalid := flag_countLost (s.clr (Reg.PFI_STAT_FB_READY i)) i
  generalize countLost (s.clr (Reg.PFI_STAT_FB_READY i)) i = u at hdisagrees hlost hinvalid
  have hdone : InputMoves i [Reg.PFI_STAT_FB_DISAGREE i] u (pfiOnset (scClear u i) i Reg.PFI_STAT_FB_DISAGREE 0x27 []) :=
    ((InputMoves.refl i _ u).modPfi _ (by intro; rfl)).onset (by simp) 0x27 []
  have hframe := (onlyAxes.wr s (Reg.PFI_STAT_FB_READY i) 0).trans (hlost.frame.trans hdone.frame)
  refine ⟨_, element_answer hi hdisagrees hframe.pending, ?_, ?_, flag_pfiOnset _ i 0x27 Reg.PFI_STAT_FB_DISAGREE [] rfl, ?_, hframe⟩
  · exact (hdone.flag (by simp)).trans ((hlost.flag (by simp [lossFields])).trans (State.flag_clr_self s _))
  · exact (hdone.flag (by simp)).trans hinvalid
  · exact (hdone.regs _ (by simp)).trans ((hlost.regs _ (by simp [lossFields])).trans (State.rd_clr_ne s (by simp)))

end

/-! ## The statement -/

/-- Settles O24: each row by what it does on the path that the input counts on. -/
theorem positionCounting : Obligations.PositionCounting := by
  unfold Obligations.PositionCounting
  intro s i hi
  refine ⟨fun la lb lz len sn cs hon hmode hmoved => ⟨exec_pfiEdge_glitch hi hon hmode hmoved, fun d hlen hslow hpath hc hd =>
      exec_pfiEdge_counts hi hon hmode hmoved hlen hslow hpath hc hd, exec_pfiEdge_quadErr hi hon hmode hmoved⟩,
    exec_pfiLineFault hi, exec_pfiLineFaultClear hi, exec_pfiScAmp_declares hi, exec_pfiScAmp_clears hi, exec_pfiScOverspeed_clears hi,
    exec_pfiScOverspeed_declares hi, fun hcfg hon => exec_pfiFbReady hi hon hcfg, exec_pfiFbDisagree hi⟩

end Sys2Proof
end

