-- ==== Sys2Proof/Proofs/PositionFusion.lean ====
section
/-! PROOFS. Fusion, the index, the operations and the live element of a fine position input (R209 to R211, R214, R219 to R223, R413). -/

namespace Sys2Proof.Machine

/-! ## Elements that a read latches (R413) -/

/-- Fields written one after the other. -/
def writeAll (s : State) (l : List (Fld × Nat)) : State := l.foldl (fun u q => u.wr q.1 q.2) s

theorem onlyRegs_writeAll (l : List (Fld × Nat)) (s : State) : Sys2Proof.onlyRegs s (writeAll s l) (l.map Prod.fst) := by
  induction l generalizing s with
  | nil => exact onlyRegs_refl s []
  | cons q l ih =>
    exact onlyRegs_trans (onlyRegs_mono (onlyRegs_wr s q.1 q.2) (by simp)) (onlyRegs_mono (ih (s.wr q.1 q.2)) (by simp))

theorem writeAll_frame (l : List (Fld × Nat)) (s : State) : writeAll s l = { s with regs := (writeAll s l).regs } := by
  induction l generalizing s with
  | nil => rfl
  | cons q l ih => exact ih (s.wr q.1 q.2)

/-- Fields with addresses of their own each read as written. -/
theorem rd_writeAll {l : List (Fld × Nat)} (hl : (l.map fun q => q.1.key).Nodup) {f : Fld} {v : Nat} (h : (f, v) ∈ l) (s : State) :
    (writeAll s l).rd f = v % 2 ^ f.width := by
  induction l generalizing s with
  | nil => exact absurd h List.not_mem_nil
  | cons q l ih =>
    obtain ⟨hfirst, hrest⟩ := List.nodup_cons.1 hl
    rcases List.mem_cons.1 h with rfl | h
    · exact (onlyRegs_writeAll l _ f (by simpa using hfirst)).trans (State.rd_wr_self s f v)
    · exact ih hrest h (s.wr q.1 q.2)

/-- Different places of one element. -/
theorem nodup_places (b : Nat) {bits : List Nat} (h : bits.Nodup) : (bits.map (b + ·)).Nodup := h.map (add_right_injective b)

/-! ## Commands (R414, R423) -/

/-- A command bit of an element that exists: what holds of its effect whatever the kennel then holds, holds of the answer. -/
theorem element_taken {s : State} {src : WrSrc} {r : RegId} {e n k i : Nat} {act : State → State} {val : State → Nat} {P : State → Prop} (he : e < n)
    (htakes : s.takes src r k i true = true) (h : ∀ kn, P { act s with pending := s.pending, kn := kn }) :
    ∃ t, guardItem (e < n) (answer s (s.write src r k i true (fun t => (act t).journalW src r k i (val t)))) = .next t ∧ P t := by
  obtain ⟨kn, hkn⟩ := exists_journalB (act s) src r k i 0 (leBytes 4 (val s))
  rw [guardItem, if_pos (decide_eq_true he), State.write_taken s _ htakes, State.journalW, hkn]
  exact ⟨_, rfl, h kn⟩

theorem pfi_modPfi_taken {α : Type} (π : Pfi → α) (hπ : ∀ k l, π { k with qLog := l } = π k) (s : State) (i : Nat) (g : Pfi → Pfi) (p : List Instr)
    (kn : KnSt) : π (({ s.modPfi i g with pending := p, kn := kn } : State).pfi i) = π (g (s.pfi i)) := pfi_modPfi π hπ s i g

/-! ## Fusion (R219 to R223) -/

/-- The settings of an input, the mode, the parts and the domains stand below PFI_STAT. -/
theorem setting_ne_stat {k i : Nat} (hk : k < 8 * (0x54400 + 0x8000 * (i / 8))) (n : Nat) : k ≠ inputStat i + n := by
  unfold inputStat
  omega

/-- From `s` to `t` the settings that put input `i` to work stand. -/
theorem pfiOn_congr {s t : State} {i : Nat} (hlag : t.lag = s.lag)
    (hset : ∀ f : Fld, f.key < 8 * (0x54400 + 0x8000 * (i / 8)) → t.rd f = s.rd f)
    (hbad : t.rd (Reg.PFI_STAT_CFG_BAD i) = s.rd (Reg.PFI_STAT_CFG_BAD i)) : t.pfiOn i = s.pfiOn i := by
  have hmode : t.eff (Reg.PFI_CFG_MODE i) = s.eff (Reg.PFI_CFG_MODE i) :=
    eff_congr hlag (hset _ (by dsimp only [Reg.PFI_CFG_MODE]; omega))
  unfold State.pfiOn State.pfiMode State.axUp State.inService State.domOn State.flag State.mode
  rw [hmode, hbad, hset (partFld (16 + i / 8)) (by dsimp only [partFld]; omega), hset Reg.PW_DOMAIN_STAT_ON (by dsimp only [Reg.PW_DOMAIN_STAT_ON]; omega),
    hset Reg.HUB_MODE_MODE (by dsimp only [Reg.HUB_MODE_MODE]; omega)]

theorem fuseEn_congr {s t : State} {i : Nat} (hlag : t.lag = s.lag) (hset : ∀ f : Fld, f.key < 8 * (0x54400 + 0x8000 * (i / 8)) → t.rd f = s.rd f) :
    t.fuseEn i = s.fuseEn i := by
  rw [State.fuseEn, eff_congr hlag (hset _ (by dsimp only [Reg.PFI_FUSE_EN]; omega))]
  rfl

section
variable (s : State) (i : Nat)

theorem inputMoves_reanchor : InputMoves i [Reg.PFI_STAT_FSTATE i, Reg.PFI_STAT_FUSED_VALID i] s (reanchor s i) := by
  unfold reanchor showFused State.wrB
  exact (((InputMoves.refl i _ s).wr (by simp) _).modPfi _ (by intro; rfl)).wr (by simp) _

theorem bq_reanchor : (reanchor s i).bq = s.bq := by
  rw [reanchor, showFused, State.wrB_bq]
  rfl

theorem reanchor_frame : reanchor s i = { s with regs := (reanchor s i).regs, ax := (reanchor s i).ax } :=
  Eq.trans (inputMoves_reanchor s i).frame (congrArg (fun b => { s with regs := (reanchor s i).regs, ax := (reanchor s i).ax, bq := b }) (bq_reanchor s i))

theorem fstate_reanchor : (reanchor s i).fstate i = if s.fuseEn i && s.pfiOn i then fsWAIT else fsOFF := by
  rw [reanchor, showFused, State.fstate, State.rd_wrB_ne _ _ (by simp), rd_modPfi, State.rd_wr_self]
  split <;> rfl

theorem window_reanchor : ((reanchor s i).pfi i).winN = 0 ∧ ((reanchor s i).pfi i).slip = 0 := by
  rw [reanchor, pfi_showFused]
  exact ⟨pfi_modPfi Pfi.winN (fun _ _ => rfl) (s.wr _ _) i _, pfi_modPfi Pfi.slip (fun _ _ => rfl) (s.wr _ _) i _⟩

end

/-- An anchor at `fa` and `qa`; `f` is the F that it gives, and `w` the speed of the resolver (R220, R224). -/
def Pfi.anchored (fa qa : Nat) (k : Pfi) : Pfi := { k with fa := fa, qa := qa, winN := 0, slip := 0 }
def Pfi.restarted (f : Nat) (w : Int) (now : Nat) (k : Pfi) : Pfi :=
  { k with sTh := f * 256, sW := w, f := f, at_ := now, okPrev := false, lastF := some f, ixWait := none, setFrom := now, settle := now + cclkBeat }

theorem anchored_eq (s : State) (i fa qa : Nat) : ∃ f w, anchored s i fa qa = pfiBark (showFused
    (((s.modPfi i (Pfi.anchored fa qa)).wr (Reg.PFI_STAT_FSTATE i) fsFUSED).modPfi i (Pfi.restarted f w s.now)) i) i 0x29 false [] := ⟨_, _, rfl⟩

section
variable (s : State) (i fa qa f : Nat) (w : Int)

/-- An input with its anchor set, before the bark. -/
def fusedShown : State :=
  showFused (((s.modPfi i (Pfi.anchored fa qa)).wr (Reg.PFI_STAT_FSTATE i) fsFUSED).modPfi i (Pfi.restarted f w s.now)) i

theorem inputMoves_fusedShown : InputMoves i [Reg.PFI_STAT_FSTATE i, Reg.PFI_STAT_FUSED_VALID i] s (fusedShown s i fa qa f w) := by
  unfold fusedShown showFused State.wrB
  exact ((((InputMoves.refl i _ s).modPfi _ (by intro; rfl)).wr (by simp) _).modPfi _ (by intro; rfl)).wr (by simp) _

theorem bq_fusedShown : (fusedShown s i fa qa f w).bq = s.bq := by
  rw [fusedShown, showFused, State.wrB_bq]
  rfl

theorem fstate_fusedShown : (fusedShown s i fa qa f w).fstate i = fsFUSED := by
  rw [fusedShown, showFused, State.fstate, State.rd_wrB_ne _ _ (by simp), rd_modPfi, State.rd_wr_self]
  rfl

theorem anchor_fusedShown : ((fusedShown s i fa qa f w).pfi i).qa = qa ∧
    ((fusedShown s i fa qa f w).pfi i).lastF = some ((fusedShown s i fa qa f w).pfi i).f := by
  rw [fusedShown, pfi_showFused]
  generalize hu : (s.modPfi i (Pfi.anchored fa qa)).wr (Reg.PFI_STAT_FSTATE i) fsFUSED = u
  have hqa : (u.pfi i).qa = qa := by
    rw [← hu, pfi_wr]
    exact pfi_modPfi Pfi.qa (fun _ _ => rfl) s i _
  refine ⟨(pfi_modPfi Pfi.qa (fun _ _ => rfl) u i _).trans hqa, ?_⟩
  rw [pfi_modPfi Pfi.lastF (fun _ _ => rfl), pfi_modPfi Pfi.f (fun _ _ => rfl)]
  rfl

end

/-! ## The index (R209 to R211) -/

/-- The edge that an index event latches. -/
def Pfi.indexed (now : Nat) (k : Pfi) : Pfi := { k with ev := false, idxC := k.c, idxAt := now }

/-- An index event latches the count and the edge; `err` says that it comes off its place. -/
def indexNoted (s : State) (i : Nat) (err : Bool) : State :=
  let t := (s.modPfi i (Pfi.indexed s.now)).set (Reg.PFI_STAT_INDEX i)
  if err then pfiOnset (t.count (Reg.PFI_CNT_IDX_ERR i)) i Reg.PFI_STAT_IDX_ERR 0x28 [] else t

/-- The count takes INDEX_VAL where the mode resets it. -/
def indexReset (s : State) (i v : Nat) (resets : Bool) : State := if resets then countValid (countSet s i v) i else s

/-- Mode 3 acts once, and an anchor may wait for the next update. -/
def indexDone (s : State) (i m : Nat) (waits : Bool) (now : Nat) : State :=
  (if m = 3 then s.clr (Reg.PFI_STAT_IDX_ARMED i) else s).modPfi i fun k => { k with idxSeen := true, ixWait := if waits then some (now, k.q) else k.ixWait }

theorem pfiIndex_taken {s : State} {i : Nat} (hon : s.pfiOn i = true) (hm : s.eff (Reg.PFI_CFG_INDEX_MODE i) ≠ 0) (hz : (s.pfi i).lineZ = false)
    (hev : (s.pfi i).ev = true) : ∃ err waits, pfiIndex s i = homeEvent (indexDone (indexReset (indexNoted s i err) i (s.eff (Reg.PFI_CFG_INDEX_VAL i))
      (decide (s.eff (Reg.PFI_CFG_INDEX_MODE i) = 2) || (decide (s.eff (Reg.PFI_CFG_INDEX_MODE i) = 3) && s.flag (Reg.PFI_STAT_IDX_ARMED i)))) i
      (s.eff (Reg.PFI_CFG_INDEX_MODE i)) waits s.now) (fun h => h.source = 1 && h.n = i) s.now := by
  have hstands : (!s.pfiOn i || decide (s.eff (Reg.PFI_CFG_INDEX_MODE i) = 0) || (s.pfi i).lineZ || !(s.pfi i).ev) = false := by
    rw [hon, hz, hev, decide_eq_false hm]
    rfl
  unfold pfiIndex
  extract_lets m k noted v tol err judged resets reset once waits done
  rw [hstands, if_neg Bool.false_ne_true]
  refine ⟨err, waits, ?_⟩
  have hjudged : judged = indexNoted s i err := rfl
  have hreset : reset = indexReset judged i v resets := rfl
  have hdone : done = indexDone reset i m waits s.now := rfl
  rw [hdone, hreset, hjudged]

/-- The two counts of an input. -/
def Pfi.counts (k : Pfi) : Nat × Nat := (k.c, k.q)

section
variable (s : State) (i : Nat)

theorem inputMoves_indexNoted (err : Bool) : InputMoves i [Reg.PFI_CNT_IDX_ERR i, Reg.PFI_STAT_IDX_ERR i]
    ((s.modPfi i (Pfi.indexed s.now)).set (Reg.PFI_STAT_INDEX i)) (indexNoted s i err) := by
  have hself := InputMoves.refl i [Reg.PFI_CNT_IDX_ERR i, Reg.PFI_STAT_IDX_ERR i]
    ((s.modPfi i (Pfi.indexed s.now)).set (Reg.PFI_STAT_INDEX i))
  exact ((hself.wr (by simp) _).onset (by simp) 0x28 []).ite hself

theorem onlyAxes_indexNoted (err : Bool) : onlyAxes s (indexNoted s i err) :=
  onlyAxes.trans (t := (s.modPfi i (Pfi.indexed s.now)).set (Reg.PFI_STAT_INDEX i)) rfl
    (inputMoves_indexNoted s i err).frame

theorem index_indexNoted (err : Bool) : ((indexNoted s i err).pfi i).idxC = (s.pfi i).c ∧ ((indexNoted s i err).pfi i).idxAt = s.now ∧
    ((indexNoted s i err).pfi i).ev = false := by
  obtain ⟨hc, hat, hev⟩ := Pfi.seen_index (inputMoves_indexNoted s i err).seen
  rw [pfi_set] at hc hat hev
  exact ⟨hc.trans (pfi_modPfi Pfi.idxC (fun _ _ => rfl) s i (Pfi.indexed s.now)), hat.trans (pfi_modPfi Pfi.idxAt (fun _ _ => rfl) s i (Pfi.indexed s.now)),
    hev.trans (pfi_modPfi Pfi.ev (fun _ _ => rfl) s i (Pfi.indexed s.now))⟩

theorem flag_indexNoted (err : Bool) : (indexNoted s i err).flag (Reg.PFI_STAT_INDEX i) = true :=
  ((inputMoves_indexNoted s i err).flag (by simp)).trans (State.flag_set_self _ (by rfl))

theorem counts_indexNoted (err : Bool) : ((indexNoted s i err).pfi i).counts = (s.pfi i).counts := by
  unfold indexNoted
  dsimp only
  split
  · rw [pfi_pfiOnset, pfi_count, pfi_set]
    exact pfi_modPfi Pfi.counts (fun _ _ => rfl) s i (Pfi.indexed s.now)
  · rw [pfi_set]
    exact pfi_modPfi Pfi.counts (fun _ _ => rfl) s i (Pfi.indexed s.now)

theorem inputMoves_countSet (v : Nat) : InputMoves i [Reg.PFI_STAT_HYST_PEND i] s (countSet s i v) :=
  ((InputMoves.refl i _ s).modPfi _ (by intro; rfl)).wr (by simp) 0

theorem counts_countSet (v : Nat) : ((countSet s i v).pfi i).counts = (v % 2 ^ 48, v % 2 ^ 48) := by
  rw [countSet, pfi_clr]
  exact pfi_modPfi Pfi.counts (fun _ _ => rfl) s i _

theorem inputMoves_countValid : InputMoves i [Reg.PFI_STAT_COUNT_VALID i, Reg.PFI_STAT_FUSED_VALID i] s (countValid s i) := by
  have hself := InputMoves.refl i [Reg.PFI_STAT_COUNT_VALID i, Reg.PFI_STAT_FUSED_VALID i] s
  have hset := (hself.wr (f := Reg.PFI_STAT_COUNT_VALID i) (by simp) 1).modPfi (fun k => { k with idxSeen := false }) fun _ => rfl
  exact hself.ite ((hset.ite (hset.modPfi _ (by intro; rfl))).wr (by simp) _)

theorem flag_countValid : (countValid s i).flag (Reg.PFI_STAT_COUNT_VALID i) = true := by
  unfold countValid
  split
  next hvalid => exact hvalid
  next =>
    dsimp only
    rw [showFused]
    refine (State.flag_wr_ne _ _ (by simp)).trans ?_
    split <;> exact State.flag_set_self s (by rfl)

theorem counts_countValid : ((countValid s i).pfi i).counts = (s.pfi i).counts := by
  unfold countValid
  split
  next => rfl
  next =>
    dsimp only
    rw [pfi_showFused]
    split
    · exact pfi_modPfi Pfi.counts (fun _ _ => rfl) (s.set _) i _
    · exact (pfi_modPfi Pfi.counts (fun _ _ => rfl) _ i _).trans (pfi_modPfi Pfi.counts (fun _ _ => rfl) (s.set _) i _)

/-- The fields that a reset by the index may change. -/
def resetFields : List Fld := [Reg.PFI_STAT_HYST_PEND i, Reg.PFI_STAT_COUNT_VALID i, Reg.PFI_STAT_FUSED_VALID i]

theorem counts_indexReset (v : Nat) : ((indexReset s i v true).pfi i).counts = (v % 2 ^ 48, v % 2 ^ 48) :=
  (counts_countValid _ i).trans (counts_countSet s i v)

theorem inputMoves_indexReset (v : Nat) (resets : Bool) : InputMoves i (resetFields i) s (indexReset s i v resets) :=
  ((inputMoves_countSet s i v).then (inputMoves_countValid _ i)).ite (.refl i _ s)

theorem inputMoves_indexDone (m : Nat) (waits : Bool) (now : Nat) : InputMoves i [Reg.PFI_STAT_IDX_ARMED i] s (indexDone s i m waits now) := by
  have hself := InputMoves.refl i [Reg.PFI_STAT_IDX_ARMED i] s
  exact ((hself.wr (by simp) 0).ite hself).modPfi _ fun _ => rfl

theorem flag_indexDone {m : Nat} (hm : m = 3) (waits : Bool) (now : Nat) : (indexDone s i m waits now).flag (Reg.PFI_STAT_IDX_ARMED i) = false := by
  rw [indexDone, if_pos hm]
  exact State.flag_clr_self s _

theorem counts_indexDone (m : Nat) (waits : Bool) (now : Nat) : ((indexDone s i m waits now).pfi i).counts = (s.pfi i).counts := by
  rw [indexDone, pfi_modPfi Pfi.counts (fun _ _ => rfl)]
  split <;> rfl

end

/-- An event that homes look for touches the axes of the drive card alone. -/
theorem exists_homeEvent (s : State) (want : Homing → Bool) (e : Nat) : ∃ dv, homeEvent s want e = { s with dv := dv } := by
  unfold homeEvent
  generalize List.range 16 = l
  induction l generalizing s with
  | nil => exact ⟨s.dv, rfl⟩
  | cons a l ih =>
    rw [List.foldl_cons]
    dsimp only
    split
    next h _ =>
      split
      next =>
        split
        · exact ih (s.modAxis a _)
        · exact ih (s.modAxis a _)
      next => exact ih s
    all_goals exact ih s

/-! ## The live element (R413) -/

/-- What a read of PFI_LIVE latches. -/
def liveFields (s : State) (i : Nat) : List (Fld × Nat) :=
  [(Reg.PFI_LIVE_COUNT i, (s.pfi i).q), (Reg.PFI_LIVE_RAW i, (s.pfi i).c), (Reg.PFI_LIVE_FUSED i, (s.pfi i).f),
    (Reg.PFI_LIVE_SPEED i, unsigned 32 (satS 32 (rne (s.pfi i).sW (2 ^ 16)))), (Reg.PFI_LIVE_AT i, atWord (s.pfi i).at_),
    (Reg.PFI_LIVE_IDX_COUNT i, (s.pfi i).idxC), (Reg.PFI_LIVE_IDX_AT i, atWord (s.pfi i).idxAt)]

theorem pfiLatch_eq (s : State) (i : Nat) : pfiLatch s i = writeAll s (liveFields s i) := by
  unfold pfiLatch State.wrS
  rfl

theorem nodup_liveFields (s : State) (i : Nat) : ((liveFields s i).map fun q => q.1.key).Nodup :=
  nodup_places (8 * (0x54500 + 0x8000 * (i / 8) + 64 * (i % 8))) (bits := [0, 64, 128, 192, 256, 352, 400]) (by decide)

end Sys2Proof.Machine

namespace Sys2Proof
open Sys2Proof.Machine

section
variable {s : State} {i : Nat} (hi : i < 16)
include hi

theorem exec_pfiFused (hen : s.fuseEn i = true) (hst : s.fstate i = fsANCHOR) (hcfg : s.eff (Reg.PFI_FUSE_ANCHOR i) = 0)
    (hwin : (s.pfi i).winN = 2 ^ min 16 (s.eff (Reg.PFI_FUSE_AVG i))) : ∃ t, exec (.pfiFused i) s = .next t ∧ t.fstate i = fsFUSED ∧
      (t.pfi i).qa = (s.pfi i).q ∧ (t.pfi i).lastF = some (t.pfi i).f ∧ barks s t (axSrc (i / 8)) (axCode (i / 8) 0x29) ∧
      t = { s with regs := t.regs, ax := t.ax, bq := t.bq } ∧ onlyRegs s t [Reg.PFI_STAT_FSTATE i, Reg.PFI_STAT_FUSED_VALID i] := by
  have hanchors : ∃ fa, pfiFused s i = anchored s i fa (s.pfi i).q := ⟨_, if_pos (by simp [hen, hst, hcfg, hwin])⟩
  obtain ⟨fa, hfa⟩ := hanchors
  obtain ⟨f, w, hanchored⟩ := anchored_eq s i fa (s.pfi i).q
  have hfused : pfiFused s i = pfiBark (fusedShown s i fa (s.pfi i).q f w) i 0x29 false [] := hfa.trans hanchored
  obtain ⟨hframe, hregs, -⟩ := inputMoves_fusedShown s i fa (s.pfi i).q f w
  obtain ⟨hqa, hlast⟩ := anchor_fusedShown s i fa (s.pfi i).q f w
  have hshown := fstate_fusedShown s i fa (s.pfi i).q f w
  have hbq := bq_fusedShown s i fa (s.pfi i).q f w
  generalize fusedShown s i fa (s.pfi i).q f w = u at hfused hframe hregs hqa hlast hshown hbq
  have hall := hframe.trans (u := pfiBark u i 0x29 false []) rfl
  exact ⟨_, element_answer hi hfused hall.pending, hshown, hqa, hlast, barks_bark s u _ _ _ _ (congrArg BqSt.staged hbq) hframe.now, hall, hregs⟩

theorem exec_pfiFuseSlip (hst : s.fstate i = fsFUSED) (hslip : 16 ≤ (s.pfi i).slip) : ∃ t, exec (.pfiFuseSlip i) s = .next t ∧
    t.flag (Reg.PFI_STAT_FUSE_SLIP i) = true ∧ t.rd (Reg.PFI_CNT_FUSE_SLIP i) = satU 32 (s.rd (Reg.PFI_CNT_FUSE_SLIP i) + 1) ∧
    t.fstate i = (if s.fuseEn i && s.pfiOn i then fsWAIT else fsOFF) ∧ (t.pfi i).slip = 0 ∧ t = { s with regs := t.regs, ax := t.ax, bq := t.bq } ∧
    onlyRegs s t [Reg.PFI_CNT_FUSE_SLIP i, Reg.PFI_STAT_FUSE_SLIP i, Reg.PFI_STAT_FSTATE i, Reg.PFI_STAT_FUSED_VALID i] := by
  have hslips : fuseSlip s i = reanchor (pfiOnset (s.count (Reg.PFI_CNT_FUSE_SLIP i)) i Reg.PFI_STAT_FUSE_SLIP 0x2A [s.rd (Reg.PFI_STAT_FUSE_D i)]) i :=
    if_pos (by simp [hst, hslip])
  have hnoted : InputMoves i [Reg.PFI_CNT_FUSE_SLIP i, Reg.PFI_STAT_FUSE_SLIP i] s
      (pfiOnset (s.count (Reg.PFI_CNT_FUSE_SLIP i)) i Reg.PFI_STAT_FUSE_SLIP 0x2A [s.rd (Reg.PFI_STAT_FUSE_D i)]) :=
    ((InputMoves.refl i _ s).wr (by simp) _).onset (by simp) 0x2A _
  have hflag := flag_pfiOnset (s.count (Reg.PFI_CNT_FUSE_SLIP i)) i 0x2A Reg.PFI_STAT_FUSE_SLIP [s.rd (Reg.PFI_STAT_FUSE_D i)] rfl
  have hcount : (pfiOnset (s.count (Reg.PFI_CNT_FUSE_SLIP i)) i Reg.PFI_STAT_FUSE_SLIP 0x2A [s.rd (Reg.PFI_STAT_FUSE_D i)]).rd
      (Reg.PFI_CNT_FUSE_SLIP i) = satU 32 (s.rd (Reg.PFI_CNT_FUSE_SLIP i) + 1) := by
    rw [rd_pfiOnset, State.rd_set_ne _ (by simp), State.rd_count_self]
    rfl
  generalize pfiOnset (s.count (Reg.PFI_CNT_FUSE_SLIP i)) i Reg.PFI_STAT_FUSE_SLIP 0x2A [s.rd (Reg.PFI_STAT_FUSE_D i)] = u at hslips hnoted hflag hcount
  have hanchor := inputMoves_reanchor u i
  have hset (f : Fld) (hf : f.key < 8 * (0x54400 + 0x8000 * (i / 8))) : u.rd f = s.rd f :=
    hnoted.regs f (by simp [setting_ne_stat hf])
  have hwork : (u.fuseEn i && u.pfiOn i) = (s.fuseEn i && s.pfiOn i) := by
    rw [fuseEn_congr hnoted.frame.lag hset, pfiOn_congr hnoted.frame.lag hset (hnoted.regs _ (by simp))]
  have hframe := hnoted.frame.trans hanchor.frame
  refine ⟨_, element_answer hi hslips hframe.pending, (hanchor.flag (by simp)).trans hflag, (hanchor.regs _ (by simp)).trans hcount, ?_,
    (window_reanchor u i).2, hframe, (hnoted.then hanchor).regs⟩
  rw [fstate_reanchor, hwork]

theorem exec_pfiIndex_none (h : s.eff (Reg.PFI_CFG_INDEX_MODE i) = 0 ∨ (s.pfi i).lineZ = true ∨ (s.pfi i).ev = false) :
    ∃ t, exec (.pfiIndex i) s = .next t ∧ t = s := by
  have hstays : pfiIndex s i = s := by
    refine if_pos ?_
    rcases h with h | h | h
    · simp [h]
    · simp [h]
    · simp [h]
  exact ⟨s, element_answer hi hstays rfl, rfl⟩

theorem exec_pfiIndex_taken (hon : s.pfiOn i = true) (hm : s.eff (Reg.PFI_CFG_INDEX_MODE i) ≠ 0) (hz : (s.pfi i).lineZ = false)
    (hev : (s.pfi i).ev = true) : ∃ t, exec (.pfiIndex i) s = .next t ∧ (t.pfi i).idxC = (s.pfi i).c ∧ (t.pfi i).idxAt = s.now ∧
      (t.pfi i).ev = false ∧ t.flag (Reg.PFI_STAT_INDEX i) = true ∧
      (s.eff (Reg.PFI_CFG_INDEX_MODE i) = 2 → s.fuseEn i = false → (t.pfi i).c = s.eff (Reg.PFI_CFG_INDEX_VAL i) % 2 ^ 48 ∧
        (t.pfi i).q = s.eff (Reg.PFI_CFG_INDEX_VAL i) % 2 ^ 48 ∧ t.flag (Reg.PFI_STAT_COUNT_VALID i) = true) ∧
      (s.eff (Reg.PFI_CFG_INDEX_MODE i) = 3 → t.flag (Reg.PFI_STAT_IDX_ARMED i) = false) ∧
      (s.eff (Reg.PFI_CFG_INDEX_MODE i) = 1 → (t.pfi i).c = (s.pfi i).c ∧ (t.pfi i).q = (s.pfi i).q) := by
  obtain ⟨err, waits, htaken⟩ := pfiIndex_taken hon hm hz hev
  generalize hmode : s.eff (Reg.PFI_CFG_INDEX_MODE i) = m at htaken ⊢
  generalize s.eff (Reg.PFI_CFG_INDEX_VAL i) = v at htaken ⊢
  generalize hresets : (decide (m = 2) || (decide (m = 3) && s.flag (Reg.PFI_STAT_IDX_ARMED i))) = resets at htaken
  obtain ⟨dv, hdv⟩ := exists_homeEvent (indexDone (indexReset (indexNoted s i err) i v resets) i m waits s.now) (fun h => h.source = 1 && h.n = i) s.now
  rw [hdv] at htaken
  have hseen := index_indexNoted s i err
  have hflag := flag_indexNoted s i err
  have hcounts := counts_indexNoted s i err
  have hnoted := onlyAxes_indexNoted s i err
  generalize indexNoted s i err = n at htaken hseen hflag hcounts hnoted
  have hreset := inputMoves_indexReset n i v resets
  have hdone := inputMoves_indexDone (indexReset n i v resets) i m waits s.now
  have hkeeps := counts_indexDone (indexReset n i v resets) i m waits s.now
  obtain ⟨hc, hat, hev'⟩ := Pfi.seen_index (hdone.seen.trans hreset.seen)
  have hpending := (hnoted.trans (hreset.frame.trans hdone.frame)).pending
  refine ⟨_, element_answer hi htaken hpending, hc.trans hseen.1, hat.trans hseen.2.1, hev'.trans hseen.2.2, ?_, fun h2 _ => ?_, fun h3 => ?_, fun h1 => ?_⟩
  · exact (hdone.flag (by simp)).trans ((hreset.flag (by simp [resetFields])).trans hflag)
  · obtain rfl : resets = true := by rw [← hresets, decide_eq_true h2, Bool.true_or]
    have hboth := hkeeps.trans (counts_indexReset n i v)
    exact ⟨congrArg Prod.fst hboth, congrArg Prod.snd hboth, (hdone.flag (by simp)).trans (flag_countValid _ i)⟩
  · exact flag_indexDone _ i h3 waits s.now
  · obtain rfl : resets = false := by rw [← hresets, h1]; rfl
    have hboth := hkeeps.trans hcounts
    exact ⟨congrArg Prod.fst hboth, congrArg Prod.snd hboth⟩

theorem exec_pfiLiveLatch (hon : s.domOn (16 + i / 8) = true) : ∃ t, exec (.pfiLiveLatch i) s = .next t ∧
    t.rd (Reg.PFI_LIVE_COUNT i) = (s.pfi i).q % 2 ^ 48 ∧ t.rd (Reg.PFI_LIVE_RAW i) = (s.pfi i).c % 2 ^ 48 ∧
    t.rd (Reg.PFI_LIVE_FUSED i) = (s.pfi i).f % 2 ^ 48 ∧ t.rd (Reg.PFI_LIVE_AT i) = atWord (s.pfi i).at_ % 2 ^ 96 ∧
    t.rd (Reg.PFI_LIVE_IDX_COUNT i) = (s.pfi i).idxC % 2 ^ 48 ∧ t.rd (Reg.PFI_LIVE_IDX_AT i) = atWord (s.pfi i).idxAt % 2 ^ 96 ∧
    t = { s with regs := t.regs } ∧ onlyRegs s t [Reg.PFI_LIVE_IDX_COUNT i, Reg.PFI_LIVE_IDX_AT i, Reg.PFI_LIVE_COUNT i, Reg.PFI_LIVE_RAW i,
      Reg.PFI_LIVE_FUSED i, Reg.PFI_LIVE_SPEED i, Reg.PFI_LIVE_AT i] := by
  have hnodup := nodup_liveFields s i
  have hframe := writeAll_frame (liveFields s i) s
  have hread : ∀ f v, (f, v) ∈ liveFields s i → (writeAll s (liveFields s i)).rd f = v % 2 ^ f.width := fun f v h => rd_writeAll hnodup h s
  have honly := onlyRegs_mono (onlyRegs_writeAll (liveFields s i) s) (gs := [Reg.PFI_LIVE_IDX_COUNT i, Reg.PFI_LIVE_IDX_AT i, Reg.PFI_LIVE_COUNT i,
    Reg.PFI_LIVE_RAW i, Reg.PFI_LIVE_FUSED i, Reg.PFI_LIVE_SPEED i, Reg.PFI_LIVE_AT i]) (by simp [liveFields])
  have hlatch : (if s.domOn (16 + i / 8) then pfiLatch s i else s) = writeAll s (liveFields s i) := (if_pos hon).trans (pfiLatch_eq s i)
  generalize writeAll s (liveFields s i) = t at hframe hread honly hlatch
  exact ⟨t, element_answer hi hlatch (by rw [hframe]), hread _ _ (by simp [liveFields]), hread _ _ (by simp [liveFields]),
    hread _ _ (by simp [liveFields]), hread _ _ (by simp [liveFields]), hread _ _ (by simp [liveFields]), hread _ _ (by simp [liveFields]), hframe, honly⟩

section
variable {src : WrSrc} (ht : s.takes src .PFI_CTRL (i / 8) (i % 8) true = true)
include ht

theorem exec_pfiIdxArm_armed (hm : s.eff (Reg.PFI_CFG_INDEX_MODE i) = 3) : ∃ t, exec (.pfiIdxArm src i) s = .next t ∧
    t.flag (Reg.PFI_STAT_IDX_ARMED i) = true ∧ t = { s with regs := t.regs, kn := t.kn } ∧ onlyRegs s t [Reg.PFI_STAT_IDX_ARMED i] := by
  refine element_taken (act := fun t => if t.eff (Reg.PFI_CFG_INDEX_MODE i) = 3 then t.set (Reg.PFI_STAT_IDX_ARMED i) else t) hi ht fun kn => ?_
  rw [if_pos hm]
  exact ⟨State.flag_set_self s (f := Reg.PFI_STAT_IDX_ARMED i) rfl, rfl, onlyRegs_wr s _ 1⟩

theorem exec_pfiIdxArm_idle (hm : s.eff (Reg.PFI_CFG_INDEX_MODE i) ≠ 3) : ∃ t, exec (.pfiIdxArm src i) s = .next t ∧ t = { s with kn := t.kn } := by
  refine element_taken (act := fun t => if t.eff (Reg.PFI_CFG_INDEX_MODE i) = 3 then t.set (Reg.PFI_STAT_IDX_ARMED i) else t) hi ht fun kn => ?_
  rw [if_neg hm]

theorem exec_pfiSetCount : ∃ t, exec (.pfiSetCount src i) s = .next t ∧ (t.pfi i).setCount = some (s.rd (Reg.PFI_CTRL_VALUE i)) ∧
    (t.pfi i).c = (s.pfi i).c ∧ t = { s with ax := t.ax, kn := t.kn } :=
  element_taken (act := fun t => t.modPfi i (fun k => { k with setCount := some (t.rd (Reg.PFI_CTRL_VALUE i)) })) hi ht fun kn =>
    ⟨pfi_modPfi_taken Pfi.setCount (fun _ _ => rfl) s i _ s.pending kn, pfi_modPfi_taken Pfi.c (fun _ _ => rfl) s i _ s.pending kn, rfl⟩

theorem exec_pfiSetTurns : ∃ t, exec (.pfiSetTurns src i) s = .next t ∧ (t.pfi i).setTurns = some (s.rd (Reg.PFI_CTRL_VALUE i) % 65536) ∧
    (t.pfi i).fa = (s.pfi i).fa ∧ t = { s with ax := t.ax, kn := t.kn } :=
  element_taken (act := fun t => t.modPfi i (fun k => { k with setTurns := some (t.rd (Reg.PFI_CTRL_VALUE i) % 65536) })) hi ht fun kn =>
    ⟨pfi_modPfi_taken Pfi.setTurns (fun _ _ => rfl) s i _ s.pending kn, pfi_modPfi_taken Pfi.fa (fun _ _ => rfl) s i _ s.pending kn, rfl⟩

theorem exec_pfiResume_clean (hp : s.path i = pFALLBACK) (hab : (s.pfi i).lineAB = false) : ∃ t, exec (.pfiResume src i) s = .next t ∧
    (t.pfi i).resume = true ∧ t = { s with ax := t.ax, kn := t.kn } := by
  refine element_taken (act := fun t => if t.path i = pFALLBACK && !(t.pfi i).lineAB then t.modPfi i (fun k => { k with resume := true }) else t) hi ht
    fun kn => ?_
  rw [if_pos (by simp [hp, hab])]
  exact ⟨pfi_modPfi_taken Pfi.resume (fun _ _ => rfl) s i _ s.pending kn, rfl⟩

theorem exec_pfiResume_idle (h : s.path i ≠ pFALLBACK ∨ (s.pfi i).lineAB = true) : ∃ t, exec (.pfiResume src i) s = .next t ∧
    t = { s with kn := t.kn } := by
  refine element_taken (act := fun t => if t.path i = pFALLBACK && !(t.pfi i).lineAB then t.modPfi i (fun k => { k with resume := true }) else t) hi ht
    fun kn => ?_
  have hstays : (decide (s.path i = pFALLBACK) && !(s.pfi i).lineAB) = false := by
    rcases h with h | h
    · rw [decide_eq_false h, Bool.false_and]
    · rw [h, Bool.not_true, Bool.and_false]
  rw [hstays, if_neg Bool.false_ne_true]

theorem exec_pfiReanchor : ∃ t, exec (.pfiReanchor src i) s = .next t ∧ t.fstate i = (if s.fuseEn i && s.pfiOn i then fsWAIT else fsOFF) ∧
    (t.pfi i).winN = 0 ∧ t = { s with regs := t.regs, ax := t.ax, kn := t.kn } ∧
    onlyRegs s t [Reg.PFI_STAT_FSTATE i, Reg.PFI_STAT_FUSED_VALID i] := by
  refine element_taken (act := fun t => reanchor t i) hi ht fun kn => ⟨fstate_reanchor s i, (window_reanchor s i).1, ?_, (inputMoves_reanchor s i).regs⟩
  rw [reanchor_frame]

end

end

/-- Settles O25: the anchor and its loss by `InputMoves` over the stages of the instruction, the index by its stages noted, reset and done, a command
by its effect alone (`element_taken`), and the latch by the places of its fields. -/
theorem positionFusion : Obligations.PositionFusion := fun _ _ hi =>
  ⟨exec_pfiFused hi, exec_pfiFuseSlip hi, exec_pfiIndex_taken hi, exec_pfiIndex_none hi,
    fun _ ht => ⟨exec_pfiIdxArm_armed hi ht, exec_pfiIdxArm_idle hi ht, exec_pfiSetCount hi ht, exec_pfiSetTurns hi ht, exec_pfiResume_clean hi ht,
      exec_pfiResume_idle hi ht, exec_pfiReanchor hi ht⟩,
    exec_pfiLiveLatch hi⟩

end Sys2Proof
end

