-- ==== Sys2Proof/Proofs/ProbesAndEmulation.lean ====
section
/-! PROOFS. Probes and encoder emulation (R218, R226 to R230, R413). -/

namespace Sys2Proof.Machine

/-! ## Places of the fields -/

/-- The places of PFI_PB_STAT[p], EE_STAT[e] and EE_CNT[e]. -/
def probeStat (p : Nat) : Nat := 8 * (0x54A40 + 0x8000 * (p / 4) + 8 * (p % 4))
def emuStat (e : Nat) : Nat := 8 * (0x56100 + 0x8000 * (e / 8) + 16 * (e % 8))
def emuCnt (e : Nat) : Nat := 8 * (0x56280 + 0x8000 * (e / 8) + 8 * (e % 8))

@[simp] theorem key_probeArmed (p : Nat) : (Reg.PFI_PB_STAT_ARMED p).key = probeStat p := rfl
@[simp] theorem key_probeLatched (p : Nat) : (Reg.PFI_PB_STAT_LATCHED p).key = probeStat p + 1 := rfl
@[simp] theorem key_emuLive (e : Nat) : (Reg.EE_STAT_LIVE e).key = emuStat e := rfl
@[simp] theorem key_emuMuzzled (e : Nat) : (Reg.EE_STAT_MUZZLED e).key = emuStat e + 1 := rfl
@[simp] theorem key_emuLagging (e : Nat) : (Reg.EE_STAT_LAGGING e).key = emuStat e + 2 := rfl
@[simp] theorem key_emuLagFault (e : Nat) : (Reg.EE_STAT_LAG_FAULT e).key = emuStat e + 9 := rfl

/-- EE_CNT stands above EE_STAT on each card. -/
theorem cnt_ne_emuStat {k e n : Nat} (hk : k = emuStat e + n) (hn : n < 128) : emuCnt e + 32 ≠ k := by
  rw [hk]
  unfold emuStat emuCnt
  omega

/-! ## Probes (R218) -/

/-- What a probe keeps of a latch. -/
def Probe.taken (w r : Nat) (k : Probe) : Probe := { last := some r, word := w, n := (k.n + 1) % 2 ^ 32 }

/-- A probe that latches the word `w` at `r`, before its bark. -/
def probeTaken (s : State) (p w r : Nat) : State :=
  (({ s with ax := { s.ax with pb := s.ax.pb.put {} p ((s.probe p).taken w r) } } : State).clr
    (Reg.PFI_PB_STAT_ARMED p)).set (Reg.PFI_PB_STAT_LATCHED p)

section
variable (s : State) (p w r : Nat)

theorem probe_probeTaken : (probeTaken s p w r).probe p = (s.probe p).taken w r :=
  Sparse.get_put_self ({} : Probe) ((s.probe p).taken w r) p s.ax.pb

theorem armed_probeTaken : (probeTaken s p w r).flag (Reg.PFI_PB_STAT_ARMED p) = false :=
  (State.flag_wr_ne _ 1 (by simp)).trans (State.flag_clr_self _ _)

theorem latched_probeTaken : (probeTaken s p w r).flag (Reg.PFI_PB_STAT_LATCHED p) = true := State.flag_set_self _ (by rfl)

theorem onlyRegs_probeTaken : Sys2Proof.onlyRegs s (probeTaken s p w r) [Reg.PFI_PB_STAT_ARMED p, Reg.PFI_PB_STAT_LATCHED p] :=
  onlyRegs_wr_of_mem (onlyRegs_wr_of_mem (onlyRegs_refl s _) (f := Reg.PFI_PB_STAT_ARMED p) (by simp) 0) (by simp) 1

end

section
variable {s : State} {p len : Nat} (rise : Bool) (ago : Nat) (hlen : s.eff (Reg.PFI_PB_CFG_FILT p) ≤ len) (hen : s.eff (Reg.PFI_PB_CFG_EN p) = 1)
  (hedge : s.eff (Reg.PFI_PB_CFG_EDGE p) = 3) (hup : s.axUp (p / 4) = true) (hsampling : s.sampling = true)
include hlen hen hedge hup hsampling

theorem pbLatch_armed (hcont : s.eff (Reg.PFI_PB_CFG_CONT p) ≠ 1) (harmed : s.flag (Reg.PFI_PB_STAT_ARMED p) = true) :
    ∃ payload, pbLatch s p rise len ago = homeEvent ((probeTaken s p (latchWord s p ((s.probe p).n + 1) (s.now - ago)) (s.run - ago)).bark
      (axSrc (p / 4)) (axCode (p / 4) 0x30) false payload) (fun h => h.source = 2 && h.n = p) (s.now - ago) :=
  ⟨_, (if_neg (by simp [hlen, hen, hedge, hup, hsampling])).trans ((if_neg (by simp [hcont])).trans (if_neg (by simp [harmed])))⟩

theorem pbLatch_unarmed (hcont : s.eff (Reg.PFI_PB_CFG_CONT p) ≠ 1) (harmed : s.flag (Reg.PFI_PB_STAT_ARMED p) = false) :
    pbLatch s p rise len ago = s :=
  (if_neg (by simp [hlen, hen, hedge, hup, hsampling])).trans ((if_neg (by simp [hcont])).trans (if_pos (by simp [hcont, harmed])))

theorem pbLatch_dead (hcont : s.eff (Reg.PFI_PB_CFG_CONT p) = 1) {l : Nat} (hlast : (s.probe p).last = some l) (hdead : s.run - ago < l + s.probeDead p) :
    pbLatch s p rise len ago =
      (s.count (Reg.PFI_PB_STAT_MISSED p)).barkEvery cclkSec (p % 4) (axSrc (p / 4)) (axCode (p / 4) 0x31) true [p % 4] :=
  (if_neg (by simp [hlen, hen, hedge, hup, hsampling])).trans (if_pos (by simp [hcont, hlast, hdead]))

end

/-- What a read of PFI_PB_LATCH latches (R413). -/
def latchFields (s : State) (p : Nat) : List (Fld × Nat) :=
  [(Reg.PFI_PB_LATCH_AT p, (s.probe p).word), (Reg.PFI_PB_LATCH_RDC_VALID p, (s.probe p).word / 2 ^ 96),
    (Reg.PFI_PB_LATCH_FUSED_VALID p, (s.probe p).word / 2 ^ 112), (Reg.PFI_PB_LATCH_COUNT_VALID p, (s.probe p).word / 2 ^ 120),
    (Reg.PFI_PB_LATCH_LATCH_NO p, (s.probe p).word / 2 ^ 128), (Reg.PFI_PB_LATCH_ANGLE p, (s.probe p).word / 2 ^ 160)] ++
  (List.range 8).flatMap fun i =>
    [(Reg.PFI_PB_LATCH_COUNT p i, (s.probe p).word / 2 ^ (672 + 128 * i)), (Reg.PFI_PB_LATCH_FUSED p i, (s.probe p).word / 2 ^ (736 + 128 * i))]

/-- The places of these fields in the element. -/
def latchPlaces : List Nat := [0, 96, 112, 120, 128, 160] ++ (List.range 8).flatMap fun i => [672 + 128 * i, 736 + 128 * i]

theorem pbRead_eq (s : State) (p : Nat) : pbRead s p = writeAll s (latchFields s p) := by
  rw [writeAll, latchFields, List.foldl_append, List.foldl_flatMap]
  rfl

theorem nodup_latchFields (s : State) (p : Nat) : ((latchFields s p).map fun q => q.1.key).Nodup := by
  have hplaces : ((latchFields s p).map fun q => q.1.key) = latchPlaces.map (8 * (0x54C00 + 0x8000 * (p / 4) + 256 * (p % 4)) + ·) := by
    rw [latchFields, latchPlaces, List.map_append, List.map_append, List.map_flatMap, List.map_flatMap]
    rfl
  rw [hplaces]
  exact nodup_places _ (by decide)

/-! ## Encoder emulation (R226 to R230) -/

theorem emu_modEmu_self (s : State) (e : Nat) (g : Emu → Emu) : (s.modEmu e g).emu e = g (s.emu e) := (emu_modEmu s e e g).trans (if_pos rfl)

/-- An output that has changed by `g` and shows the fields `l`. -/
def emuShown (s : State) (e : Nat) (g : Emu → Emu) (l : List (Fld × Nat)) : State := writeAll (s.modEmu e g) l

section
variable (s : State) (e : Nat) (g : Emu → Emu) (l : List (Fld × Nat))

theorem emu_emuShown : (emuShown s e g l).emu e = g (s.emu e) := by
  rw [emuShown, writeAll_frame]
  exact emu_modEmu_self s e g

theorem emuShown_frame : emuShown s e g l = { s with regs := (emuShown s e g l).regs, ax := (emuShown s e g l).ax } := by
  rw [emuShown, writeAll_frame]
  rfl

theorem onlyRegs_emuShown : Sys2Proof.onlyRegs s (emuShown s e g l) (l.map Prod.fst) := onlyRegs_writeAll l (s.modEmu e g)

end

/-- Fields of EE_STAT at places of their own each show what is written. -/
theorem rd_emuShown {e : Nat} {l : List (Fld × Nat)} {bits : List Nat} (hl : (l.map fun q => q.1.key) = bits.map (emuStat e + ·)) (hbits : bits.Nodup)
    {f : Fld} {v : Nat} (h : (f, v) ∈ l) (s : State) (g : Emu → Emu) : (emuShown s e g l).rd f = v % 2 ^ f.width :=
  rd_writeAll (hl ▸ nodup_places _ hbits) h (s.modEmu e g)

/-- What an output shows as it stops, as it resumes on `t`, and as it goes on. -/
def stopFields (e : Nat) : List (Fld × Nat) := [(Reg.EE_STAT_LIVE e, 0), (Reg.EE_STAT_MUZZLED e, 1), (Reg.EE_STAT_LAGGING e, 0)]
def resumeFields (e t jump : Nat) : List (Fld × Nat) :=
  [(Reg.EE_STAT_LIVE e, 1), (Reg.EE_STAT_MUZZLED e, 0), (Reg.EE_STAT_RESUMED e, 1), (Reg.EE_STAT_LAST_JUMP e, jump), (Reg.EE_STAT_LAG e, 0),
    (Reg.EE_STAT_EMITTED e, t)]
def runFields (e lag emitted : Nat) : List (Fld × Nat) := [(Reg.EE_STAT_LAG e, lag), (Reg.EE_STAT_EMITTED e, emitted), (Reg.EE_STAT_LAGGING e, 0)]

/-- An output that stops at `count`. -/
def Emu.stopped (count : Int) (k : Emu) : Emu := { k with e := count, muzzled := true, edges := [], changed := false }

theorem eeMuzzle_eq (s : State) (e : Nat) : eeMuzzle s e = emuShown s e (Emu.stopped (s.eeCount e)) (stopFields e) := rfl

theorem rd_stopFields {e : Nat} {f : Fld} {v : Nat} (h : (f, v) ∈ stopFields e) (s : State) (g : Emu → Emu) :
    (emuShown s e g (stopFields e)).rd f = v % 2 ^ f.width := rd_emuShown (bits := [0, 1, 2]) rfl (by decide) h s g

/-- An output whose E takes its target at `t`. -/
def Emu.resumed (t : Nat) (k : Emu) : Emu := { k with t := t, target := t, e := t, edges := [], muzzled := false, restart := false }

theorem eeResume_eq (s : State) (e : Nat) : ∃ jump payload, eeResume s e =
    eeBark ((emuShown s e (Emu.resumed (s.eeTarget e)) (resumeFields e (s.eeTarget e) jump)).count (Reg.EE_CNT_RESUMES e)) e 0x3A false payload :=
  ⟨_, _, rfl⟩

theorem rd_resumeFields {e t jump : Nat} {f : Fld} {v : Nat} (h : (f, v) ∈ resumeFields e t jump) (s : State) (g : Emu → Emu) :
    (emuShown s e g (resumeFields e t jump)).rd f = v % 2 ^ f.width := rd_emuShown (bits := [0, 1, 10, 64, 16, 32]) rfl (by decide) h s g

/-- A resume leaves its counter to be counted. -/
theorem resumes_resumeFields (s : State) (e t jump : Nat) (g : Emu → Emu) :
    (emuShown s e g (resumeFields e t jump)).rd (Reg.EE_CNT_RESUMES e) = s.rd (Reg.EE_CNT_RESUMES e) := by
  refine onlyRegs_emuShown s e g _ _ fun hm => ?_
  obtain ⟨n, hn, hkey⟩ := List.mem_map.1 (show (Reg.EE_CNT_RESUMES e).key ∈ [0, 1, 10, 64, 16, 32].map (emuStat e + ·) from hm)
  have hbits : ∀ n ∈ [0, 1, 10, 64, 16, 32], n < 128 := by decide
  exact cnt_ne_emuStat rfl (hbits n hn) hkey.symm

/-- An output that emits `n` counts from `now` on, with a new target. -/
def Emu.sent (now n : Nat) (up : Bool) (t : Nat) (step : Int) (k : Emu) : Emu :=
  { k with e := if up then k.e + n else k.e - n, up := up, edges := (List.range n).map (fun j => now + (2 * j + 1) * 120 / n), t := t,
           target := k.target + step }

/-- A count that goes the whole way reaches its target. -/
theorem Emu.sent_target (now : Nat) (t : Nat) (step : Int) (k : Emu) :
    (k.sent now (k.target - k.e).natAbs (decide (0 < k.target - k.e)) t step).e = k.target := by
  unfold Emu.sent
  dsimp only
  split
  next h =>
    have hpos := of_decide_eq_true h
    omega
  next h =>
    have hneg : ¬ 0 < k.target - k.e := fun hpos => h (decide_eq_true hpos)
    omega

theorem Emu.length_sent (now n : Nat) (up : Bool) (t : Nat) (step : Int) (k : Emu) : (k.sent now n up t step).edges.length = n := by
  simp [Emu.sent]

theorem eeRun_within {s : State} {e : Nat} (h : ((s.emu e).target - (s.emu e).e).natAbs ≤ 24) : ∃ step lag emitted, eeRun s e =
    emuShown s e (Emu.sent s.now ((s.emu e).target - (s.emu e).e).natAbs (decide (0 < (s.emu e).target - (s.emu e).e)) (s.eeTarget e) step)
      (runFields e lag emitted) := by
  have hn : min 24 ((s.emu e).target - (s.emu e).e).natAbs = ((s.emu e).target - (s.emu e).e).natAbs := min_eq_right h
  have hovr : decide (24 < ((s.emu e).target - (s.emu e).e).natAbs) = false := decide_eq_false (not_lt.2 h)
  have hkeeps : ¬ max 24 (s.eff (Reg.EE_CFG_LAG_MAX e)) < ((s.emu e).target - (s.emu e).e).natAbs := not_lt.2 (le_max_of_le_left h)
  unfold eeRun
  dsimp only
  rw [hn, hovr, Bool.false_and, if_neg Bool.false_ne_true, if_neg hkeeps]
  exact ⟨_, _, _, rfl⟩

theorem rd_runFields {e lag emitted : Nat} {f : Fld} {v : Nat} (h : (f, v) ∈ runFields e lag emitted) (s : State) (g : Emu → Emu) :
    (emuShown s e g (runFields e lag emitted)).rd f = v % 2 ^ f.width := rd_emuShown (bits := [16, 32, 2]) rfl (by decide) h s g

/-- An output held by LAG_FAULT (R228). -/
def Emu.failed (count : Int) (k : Emu) : Emu := { k with fault := true, e := count, edges := [] }

/-- An output that fails for its lag, before it is muzzled. -/
def emuFailed (s : State) (e : Nat) (count : Int) : State := eeBark ((s.set (Reg.EE_STAT_LAG_FAULT e)).modEmu e (Emu.failed count)) e 0x39 true []

theorem eeRun_beyond {s : State} {e : Nat} (h : max 24 (s.eff (Reg.EE_CFG_LAG_MAX e)) < ((s.emu e).target - (s.emu e).e).natAbs) :
    ∃ u : State, u.pending = s.pending ∧ eeRun s e = eeMuzzle (emuFailed u e (s.emu e).e) e := by
  unfold eeRun
  extract_lets k m l n up t d sent shown ovr barked lagging
  refine ⟨lagging, ?_, if_pos h⟩
  have hbarked : barked.pending = shown.pending := by
    unfold barked
    split
    · exact State.barkEvery_pending _ _ _ _ _ _ _
    · rfl
  exact hbarked

section
variable (s : State) (e : Nat) (count : Int)

theorem emu_emuFailed : (emuFailed s e count).emu e = (s.emu e).failed count := emu_modEmu_self (s.set (Reg.EE_STAT_LAG_FAULT e)) e _

theorem flag_emuFailed : (emuFailed s e count).flag (Reg.EE_STAT_LAG_FAULT e) = true := State.flag_set_self s (by rfl)

end

end Sys2Proof.Machine

namespace Sys2Proof
open Sys2Proof.Machine

/-! ## Probes -/

section
variable {s : State} {p : Nat} (hp : p < 8)
include hp

section
variable {len : Nat} (rise : Bool) (ago : Nat) (hlen : s.eff (Reg.PFI_PB_CFG_FILT p) ≤ len) (hen : s.eff (Reg.PFI_PB_CFG_EN p) = 1)
  (hedge : s.eff (Reg.PFI_PB_CFG_EDGE p) = 3) (hup : s.axUp (p / 4) = true) (hsampling : s.sampling = true)
include hlen hen hedge hup hsampling

theorem exec_pbLatch_armed (hcont : s.eff (Reg.PFI_PB_CFG_CONT p) ≠ 1) (harmed : s.flag (Reg.PFI_PB_STAT_ARMED p) = true) :
    ∃ t, exec (.pbLatch p rise len ago) s = .next t ∧ t.flag (Reg.PFI_PB_STAT_ARMED p) = false ∧ t.flag (Reg.PFI_PB_STAT_LATCHED p) = true ∧
      (t.probe p).word = latchWord s p ((s.probe p).n + 1) (s.now - ago) ∧ (t.probe p).last = some (s.run - ago) ∧
      barks s t (axSrc (p / 4)) (axCode (p / 4) 0x30) ∧ onlyRegs s t [Reg.PFI_PB_STAT_ARMED p, Reg.PFI_PB_STAT_LATCHED p] := by
  obtain ⟨payload, hlatch⟩ := pbLatch_armed rise ago hlen hen hedge hup hsampling hcont harmed
  generalize latchWord s p ((s.probe p).n + 1) (s.now - ago) = w at hlatch ⊢
  generalize s.run - ago = r at hlatch ⊢
  obtain ⟨dv, hdv⟩ := exists_homeEvent ((probeTaken s p w r).bark (axSrc (p / 4)) (axCode (p / 4) 0x30) false payload) (fun h => h.source = 2 && h.n = p)
    (s.now - ago)
  have hprobe := probe_probeTaken s p w r
  exact ⟨_, element_answer hp (hlatch.trans hdv) rfl, armed_probeTaken s p w r, latched_probeTaken s p w r, congrArg Probe.word hprobe,
    congrArg Probe.last hprobe, barks_bark s (probeTaken s p w r) _ _ _ payload rfl rfl, onlyRegs_probeTaken s p w r⟩

theorem exec_pbLatch_unarmed (hcont : s.eff (Reg.PFI_PB_CFG_CONT p) ≠ 1) (harmed : s.flag (Reg.PFI_PB_STAT_ARMED p) = false) :
    ∃ t, exec (.pbLatch p rise len ago) s = .next t ∧ t = s :=
  ⟨s, element_answer hp (pbLatch_unarmed rise ago hlen hen hedge hup hsampling hcont harmed) rfl, rfl⟩

theorem exec_pbLatch_dead (l : Nat) (hcont : s.eff (Reg.PFI_PB_CFG_CONT p) = 1) (hlast : (s.probe p).last = some l)
    (hdead : s.run - ago < l + s.probeDead p) : ∃ t, exec (.pbLatch p rise len ago) s = .next t ∧
      t.rd (Reg.PFI_PB_STAT_MISSED p) = satU 32 (s.rd (Reg.PFI_PB_STAT_MISSED p) + 1) ∧ t.probe p = s.probe p ∧
      barksRarely s t cclkSec (p % 4) (axSrc (p / 4)) (axCode (p / 4) 0x31) ∧ t = { s with regs := t.regs, bq := t.bq } ∧
      onlyRegs s t [Reg.PFI_PB_STAT_MISSED p] := by
  have hmissed := pbLatch_dead rise ago hlen hen hedge hup hsampling hcont hlast hdead
  have hrd := State.barkEvery_rd (s.count (Reg.PFI_PB_STAT_MISSED p)) cclkSec (p % 4) (axSrc (p / 4)) (axCode (p / 4) 0x31) true [p % 4]
  have hrare := barksRarely_barkEvery s (s.count (Reg.PFI_PB_STAT_MISSED p)) cclkSec (p % 4) (axSrc (p / 4)) (axCode (p / 4) 0x31) true [p % 4] rfl rfl rfl
  have hframe := barkEvery_frame (s.count (Reg.PFI_PB_STAT_MISSED p)) cclkSec (p % 4) (axSrc (p / 4)) (axCode (p / 4) 0x31) true [p % 4]
  generalize (s.count (Reg.PFI_PB_STAT_MISSED p)).barkEvery cclkSec (p % 4) (axSrc (p / 4)) (axCode (p / 4) 0x31) true [p % 4] = t at *
  refine ⟨t, element_answer hp hmissed (by rw [hframe]; rfl), (hrd _).trans (State.rd_count_self s _), ?_, hrare, ?_,
    onlyRegs_of_rd (onlyRegs_wr s _ _) hrd⟩
  · rw [hframe]
    rfl
  · rw [hframe]
    rfl

end

theorem exec_pbArm {src : WrSrc} (ht : s.takes src .PFI_PB_CFG (p / 4) (p % 4) true = true) (hcont : s.eff (Reg.PFI_PB_CFG_CONT p) = 0) :
    ∃ t, exec (.pbArm src p) s = .next t ∧ t.flag (Reg.PFI_PB_STAT_ARMED p) = true ∧ t = { s with regs := t.regs, kn := t.kn } ∧
      onlyRegs s t [Reg.PFI_PB_STAT_ARMED p] := by
  refine element_taken (act := fun t => if t.eff (Reg.PFI_PB_CFG_CONT p) = 0 then t.set (Reg.PFI_PB_STAT_ARMED p) else t) hp ht fun kn => ?_
  rw [if_pos hcont]
  exact ⟨State.flag_set_self s (f := Reg.PFI_PB_STAT_ARMED p) rfl, rfl, onlyRegs_wr s _ 1⟩

theorem exec_pbLatchRead (hon : s.domOn (16 + p / 4) = true) : ∃ t, exec (.pbLatchRead p) s = .next t ∧
    t.rd (Reg.PFI_PB_LATCH_AT p) = (s.probe p).word % 2 ^ 96 ∧ t.rd (Reg.PFI_PB_LATCH_LATCH_NO p) = (s.probe p).word / 2 ^ 128 % 2 ^ 32 ∧
    (∀ i, i < 8 → t.rd (Reg.PFI_PB_LATCH_COUNT p i) = (s.probe p).word / 2 ^ (672 + 128 * i) % 2 ^ 48) ∧ t = { s with regs := t.regs } := by
  have hread : ∀ f v, (f, v) ∈ latchFields s p → (writeAll s (latchFields s p)).rd f = v % 2 ^ f.width := fun f v h => rd_writeAll (nodup_latchFields s p) h s
  have hframe := writeAll_frame (latchFields s p) s
  have hlatch : (if s.domOn (16 + p / 4) then pbRead s p else s) = writeAll s (latchFields s p) := (if_pos hon).trans (pbRead_eq s p)
  generalize writeAll s (latchFields s p) = t at hread hframe hlatch
  refine ⟨t, element_answer hp hlatch (by rw [hframe]), hread _ _ (List.mem_append_left _ (by simp)), hread _ _ (List.mem_append_left _ (by simp)),
    fun i hi => hread _ _ (List.mem_append_right _ (List.mem_flatMap.2 ⟨i, List.mem_range.2 hi, by simp⟩)), hframe⟩

end

/-! ## Encoder emulation -/

section
variable {s : State} {e : Nat} (he : e < 16)
include he

theorem exec_eeUpdate_barred (hbarred : s.eeBarred e = true) (hm : (s.emu e).muzzled = false) : ∃ t, exec (.eeUpdate e) s = .next t ∧
    (t.emu e).muzzled = true ∧ (t.emu e).edges = [] ∧ t.rd (Reg.EE_STAT_LIVE e) = 0 ∧ t.rd (Reg.EE_STAT_MUZZLED e) = 1 ∧
    t = { s with regs := t.regs, ax := t.ax } ∧ onlyRegs s t [Reg.EE_STAT_LIVE e, Reg.EE_STAT_MUZZLED e, Reg.EE_STAT_LAGGING e] := by
  have hmuzzles : eeUpdate s e = eeMuzzle s e := (if_pos (by simp [hbarred])).trans (if_neg (by simp [hm]))
  have hemu := emu_emuShown s e (Emu.stopped (s.eeCount e)) (stopFields e)
  have hframe := emuShown_frame s e (Emu.stopped (s.eeCount e)) (stopFields e)
  exact ⟨_, element_answer he (hmuzzles.trans (eeMuzzle_eq s e)) (by rw [hframe]), congrArg Emu.muzzled hemu, congrArg Emu.edges hemu,
    rd_stopFields (f := Reg.EE_STAT_LIVE e) (v := 0) (by simp [stopFields]) s _,
    rd_stopFields (f := Reg.EE_STAT_MUZZLED e) (v := 1) (by simp [stopFields]) s _, hframe, onlyRegs_emuShown s e _ _⟩

section
variable (hbarred : s.eeBarred e = false) (hchanged : (s.emu e).changed = false)
include hbarred hchanged

theorem exec_eeUpdate_resumes (hm : (s.emu e).muzzled = true) (h : s.eff (Reg.EE_CFG_AUTO_RESUME e) = 1 ∨ (s.emu e).restart = true) :
    ∃ t, exec (.eeUpdate e) s = .next t ∧ (t.emu e).muzzled = false ∧ (t.emu e).e = s.eeTarget e ∧ t.rd (Reg.EE_STAT_LIVE e) = 1 ∧
      t.rd (Reg.EE_STAT_MUZZLED e) = 0 ∧ t.flag (Reg.EE_STAT_RESUMED e) = true ∧
      t.rd (Reg.EE_CNT_RESUMES e) = satU 32 (s.rd (Reg.EE_CNT_RESUMES e) + 1) ∧ barks s t (axSrc (e / 8)) (axCode (e / 8) 0x3A) ∧
      t = { s with regs := t.regs, ax := t.ax, bq := t.bq } := by
  obtain ⟨jump, payload, hresume⟩ := eeResume_eq s e
  have hupdate : eeUpdate s e = eeResume s e := (if_neg (by simp [hbarred, hchanged])).trans ((if_pos hm).trans (if_pos (by simpa using h)))
  have hemu := emu_emuShown s e (Emu.resumed (s.eeTarget e)) (resumeFields e (s.eeTarget e) jump)
  have hframe := emuShown_frame s e (Emu.resumed (s.eeTarget e)) (resumeFields e (s.eeTarget e) jump)
  have hcount := resumes_resumeFields s e (s.eeTarget e) jump (Emu.resumed (s.eeTarget e))
  have hrd : ∀ f v n, (f, v) ∈ resumeFields e (s.eeTarget e) jump → f.key = emuStat e + n → n < 128 →
      ((emuShown s e (Emu.resumed (s.eeTarget e)) (resumeFields e (s.eeTarget e) jump)).count (Reg.EE_CNT_RESUMES e)).rd f = v % 2 ^ f.width :=
    fun f v n hfv hf hn => (State.rd_wr_ne _ _ (cnt_ne_emuStat hf hn)).trans (rd_resumeFields hfv s _)
  generalize emuShown s e (Emu.resumed (s.eeTarget e)) (resumeFields e (s.eeTarget e) jump) = u at *
  have hbq : u.bq = s.bq := by rw [hframe]
  have hnow : u.now = s.now := by rw [hframe]
  have hpending : u.pending = s.pending := by rw [hframe]
  refine ⟨_, element_answer he (hupdate.trans hresume) hpending, congrArg Emu.muzzled hemu, congrArg Emu.e hemu,
    hrd _ 1 0 (by simp [resumeFields]) rfl (by decide), hrd _ 0 1 (by simp [resumeFields]) rfl (by decide),
    decide_eq_true (hrd (Reg.EE_STAT_RESUMED e) 1 10 (by simp [resumeFields]) rfl (by decide)), (State.rd_count_self u _).trans ?_,
    barks_bark s (u.count (Reg.EE_CNT_RESUMES e)) _ _ _ _ (congrArg BqSt.staged hbq) hnow, ?_⟩
  · rw [hcount]
    rfl
  · rw [hframe]
    rfl

theorem exec_eeUpdate_waits (hm : (s.emu e).muzzled = true) (hauto : s.eff (Reg.EE_CFG_AUTO_RESUME e) ≠ 1) (hrestart : (s.emu e).restart = false) :
    ∃ t, exec (.eeUpdate e) s = .next t ∧ t = s := by
  have hwaits : eeUpdate s e = s := (if_neg (by simp [hbarred, hchanged])).trans ((if_pos hm).trans (if_neg (by simp [hauto, hrestart])))
  exact ⟨s, element_answer he hwaits rfl, rfl⟩

section
variable (hm : (s.emu e).muzzled = false)
include hm

omit he in
theorem eeUpdate_runs : eeUpdate s e = eeRun s e := (if_neg (by simp [hbarred, hchanged])).trans (if_neg (by simp [hm]))

theorem exec_eeUpdate_within (h : ((s.emu e).target - (s.emu e).e).natAbs ≤ 24) : ∃ t, exec (.eeUpdate e) s = .next t ∧
    (t.emu e).e = (s.emu e).target ∧ (t.emu e).edges.length = ((s.emu e).target - (s.emu e).e).natAbs ∧ (t.emu e).t = s.eeTarget e ∧
    t.rd (Reg.EE_STAT_LAGGING e) = 0 ∧ t = { s with regs := t.regs, ax := t.ax } ∧
    onlyRegs s t [Reg.EE_STAT_LAG e, Reg.EE_STAT_EMITTED e, Reg.EE_STAT_LAGGING e] := by
  obtain ⟨step, lag, emitted, hrun⟩ := eeRun_within h
  have hupdate := (eeUpdate_runs hbarred hchanged hm).trans hrun
  generalize hg : Emu.sent s.now ((s.emu e).target - (s.emu e).e).natAbs (decide (0 < (s.emu e).target - (s.emu e).e)) (s.eeTarget e) step = g at hupdate
  have hemu := (emu_emuShown s e g (runFields e lag emitted)).trans (congrFun hg.symm (s.emu e))
  have hframe := emuShown_frame s e g (runFields e lag emitted)
  exact ⟨_, element_answer he hupdate (by rw [hframe]), (congrArg Emu.e hemu).trans (Emu.sent_target _ _ _ _),
    (congrArg (fun k => k.edges.length) hemu).trans (Emu.length_sent _ _ _ _ _ _), congrArg Emu.t hemu, rd_runFields (f := Reg.EE_STAT_LAGGING e) (v := 0) (by simp [runFields]) s g, hframe,
    onlyRegs_emuShown s e g _⟩

theorem exec_eeUpdate_beyond (h : max 24 (s.eff (Reg.EE_CFG_LAG_MAX e)) < ((s.emu e).target - (s.emu e).e).natAbs) :
    ∃ t, exec (.eeUpdate e) s = .next t ∧ (t.emu e).muzzled = true ∧ (t.emu e).fault = true ∧ t.flag (Reg.EE_STAT_LAG_FAULT e) = true ∧
      lastBark t (axSrc (e / 8)) (axCode (e / 8) 0x39) := by
  obtain ⟨u, hpending, hrun⟩ := eeRun_beyond h
  have hupdate := (eeUpdate_runs hbarred hchanged hm).trans hrun
  have hmuzzle := eeMuzzle_eq (emuFailed u e (s.emu e).e) e
  have hfault := congrArg Emu.fault (emu_emuFailed u e (s.emu e).e)
  have hflag := flag_emuFailed u e (s.emu e).e
  have hbark : lastBark (emuFailed u e (s.emu e).e) (axSrc (e / 8)) (axCode (e / 8) 0x39) := lastBark_bark _ _ _ _ _
  have hfailed : (emuFailed u e (s.emu e).e).pending = s.pending := hpending
  generalize emuFailed u e (s.emu e).e = v at *
  have hemu := emu_emuShown v e (Emu.stopped (v.eeCount e)) (stopFields e)
  have hframe := emuShown_frame v e (Emu.stopped (v.eeCount e)) (stopFields e)
  have hkeeps := onlyRegs_emuShown v e (Emu.stopped (v.eeCount e)) (stopFields e) (Reg.EE_STAT_LAG_FAULT e) (by simp [stopFields])
  refine ⟨_, element_answer he (hupdate.trans hmuzzle) (by rw [hframe]; exact hfailed), congrArg Emu.muzzled hemu, (congrArg Emu.fault hemu).trans hfault,
    (State.flag_congr hkeeps).trans hflag, ?_⟩
  rw [hframe]
  exact hbark

end

end

theorem exec_eeRestart {src : WrSrc} (ht : s.takes src .EE_CTRL (e / 8) (e % 8) true = true) : ∃ t, exec (.eeRestart src e) s = .next t ∧
    ((s.emu e).muzzled = true → (t.emu e).restart = true ∧ (t.emu e).fault = false) ∧ ((s.emu e).muzzled = false → t.emu e = s.emu e) ∧
    t = { s with ax := t.ax, kn := t.kn } := by
  refine element_taken (act := fun t => t.modEmu e (fun k => if k.muzzled then { k with restart := true, fault := false } else k)) he ht
    fun kn => ⟨fun hm => ?_, fun hm => ?_, rfl⟩
  · have hemu := (emu_modEmu_self s e (fun k => if k.muzzled then { k with restart := true, fault := false } else k)).trans (if_pos hm)
    exact ⟨congrArg Emu.restart hemu, congrArg Emu.fault hemu⟩
  · exact (emu_modEmu_self s e (fun k => if k.muzzled then { k with restart := true, fault := false } else k)).trans (if_neg (by simp [hm]))

end

/-- Settles O26: each outcome of an edge and of an update by the branch that it takes, named by the state that it leaves, and the latch by the places
of its fields. -/
theorem probesAndEmulation : Obligations.ProbesAndEmulation := fun _ =>
  ⟨fun _ rise _ ago hp hlen hen hedge hup hsampling =>
      ⟨exec_pbLatch_armed hp rise ago hlen hen hedge hup hsampling, exec_pbLatch_unarmed hp rise ago hlen hen hedge hup hsampling,
        exec_pbLatch_dead hp rise ago hlen hen hedge hup hsampling⟩,
    fun _ _ hp ht => exec_pbArm hp ht, fun _ hp => exec_pbLatchRead hp, fun _ he => exec_eeUpdate_barred he,
    fun _ he hbarred hchanged hm => ⟨exec_eeUpdate_resumes he hbarred hchanged hm, exec_eeUpdate_waits he hbarred hchanged hm⟩,
    fun _ he hbarred hchanged hm => exec_eeUpdate_within he hbarred hchanged hm,
    fun _ he hbarred hchanged hm => exec_eeUpdate_beyond he hbarred hchanged hm,
    fun _ _ he ht => exec_eeRestart he ht⟩

end Sys2Proof
end
